-- ==== Sys2Proof/Word.lean ====
section
/-! DEFINITION. The word types of the module and nothing else: bytes, scalar words, register and row contents. -/

namespace Sys2Proof

/-- One byte of any memory space. -/
abbrev Byte := BitVec 8

/-- A 32-bit word: scalar instruction words, lanes, FP32 patterns. -/
abbrev Word32 := BitVec 32

/-- A 64-bit word: scalar registers, special registers, queue values. -/
abbrev Word64 := BitVec 64

/-- One mask register: bit i governs element i (R205). -/
abbrev MaskWord := BitVec 256

end Sys2Proof
end

