-- ==== Sys2Proof/Config.lean ====
section
/-! DEFINITION. What the manual leaves open, as constants without a body: nothing can be proved about their values, so a statement holds whatever they are. Each is applied to the running counter `State.free`, or to the operands it depends on. -/

namespace Sys2Proof.Config

/-- A moment left open within a bound (R281, R284, R290, R337, R349, R351): the n-th such choice. -/
opaque freeDelay : Nat → Nat

/-- A 64-bit value left open: a read whose home lies in another package, outside this module (R337). -/
opaque freeWord : Nat → BitVec 64

/-- A byte left open: which of the values a source sector held (R304), remote bytes, report bytes of the security block. -/
opaque freeByte : Nat → BitVec 8

/-- The error of the n-th ADC conversion of a lode, cut to the bound e(G) where it is used (R276). -/
opaque adcError : Nat → Int

/-- Which of `k` unlocked TLB entries a fill replaces, taken modulo `k` (R290). -/
opaque tlbVictim : Nat → Nat

/-- The LPDDR channel that serves a 64-byte line of a die's memory, by its number, taken modulo 32 (R280; the manual gives no interleaving). -/
opaque channelOf : Nat → Nat

/-- How many 64 KiB units the resident kernel leaves free below the n-th range it places (R292 leaves its choice of addresses open). -/
opaque allocGap : Nat → Nat

/-- The 72 secret bytes behind the device identity key: the seed of its one-time and few-time keys, an unused part, and the public seed (R417). -/
opaque deviceSeed : Nat → BitVec 8

/-- The 24 bytes that the signer puts before a signature of the n-th report (R418): any value verifies. -/
opaque deviceRandom : Nat → Nat → BitVec 8

/-- The number of the interrupt that a DOOR write raises, counted from 32 (R415 names none). -/
opaque doorCause : BitVec 4

/-- The retimer dmx-time: part code, architecture revision and PORT list bytes to the native sections of one kernel,
as (type code 0 SCAL 1 VECT 2 MATX 3 BANK, overlay, bytes), and the word index of each ENTRY marker (R42, R47). -/
opaque retime : Nat → Nat → List (BitVec 8) → List (Nat × Nat × List (BitVec 8)) × List (Nat × Nat)

/-- The exact value 2^x or log2 x rounded to FP32 where the enclosing interval of the model is too wide to decide (R162). -/
opaque transcendental : Nat → BitVec 32 → BitVec 32

/-- Whether the resident kernel runs only signed bundles (R45 order 9). -/
opaque requireSigned : Bool

/-- Whether the operator has registered a key with the resident kernel, by the key's SHA-256 (R46). -/
opaque keyRegistered : List (BitVec 8) → Bool

/-- Whether the resident kernel can hold the copy of so many bytes that the n-th call needs (R50 NO_MEMORY). -/
opaque kernelHolds : Nat → Nat → Bool

/-- Bytes of an NVMe namespace behind a root port (R419): the media lie outside this module. -/
opaque namespaceBytes : Nat → Nat → Nat

/-- Whether the recopy of so many lines ends within the one window of a migration's final pass (R297). -/
opaque recopyFits : Nat → Bool

/-- What another package's capability map shows: its compute die 1 is present; a core of it is enabled and not withdrawn (R20, R65). -/
opaque peerDie1 : Nat → Bool
opaque peerCore : Nat → Nat → Bool

/-- The base address of trap window `w` of a die in the resident kernel's address space, and the return stub that a handler's ra holds
(R390, R391, R397): the resident kernel's choice. -/
opaque trapWindowBase : Nat → Nat → BitVec 64
opaque returnStub : BitVec 64

/-- The virtual address at which the resident kernel maps the capability map into every control program's address space (R20). -/
opaque capMapBase : BitVec 64
/-- The page among the I/O die's blocks at which the capability map stands (R20, log 56). -/
opaque capMapPage : BitVec 20

/-- The hart that the resident kernel assigns to a launch, taken modulo 16 (R390). -/
opaque launchHart : Nat → Nat

end Sys2Proof.Config
end

