-- ==== Sys2Proof/Machine/Bits.lean ====
section
/-! DEFINITION. Bit-field helpers over numbers and words: extraction, sign and zero extension (R4, R9). -/

namespace Sys2Proof.Machine

/-- Bits [lo + n - 1 : lo] of a number as an `n`-bit value (R4). -/
def fieldOf (w lo n : Nat) : BitVec n := BitVec.ofNat n (w >>> lo)

/-- Bits [lo + n - 1 : lo] of a number as a number. -/
def bitsOf (w lo n : Nat) : Nat := (w >>> lo) % 2 ^ n

/-- Bit `i` of a number. -/
def bitOf (w i : Nat) : Bool := Nat.testBit w i

/-- A field put at bit `lo` of a word under construction. -/
def putField {n : Nat} (v : BitVec n) (lo : Nat) : Nat := v.toNat <<< lo

/-- SEXT(x, n) to 64 bits (R9). -/
def sext64 {n : Nat} (v : BitVec n) : Word64 := v.signExtend 64

/-- ZEXT(x, n) to 64 bits (R9). -/
def zext64 {n : Nat} (v : BitVec n) : Word64 := v.zeroExtend 64

/-- The signed value of the low `n` bits of a number. -/
def signedOf (v n : Nat) : Int :=
  let x := v % 2 ^ n
  if x < 2 ^ (n - 1) then (x : Int) else (x : Int) - 2 ^ n

/-- The low `n` bits of an integer, two's complement. -/
def wrapTo (n : Nat) (v : Int) : Nat := (v % (2 ^ n : Int)).toNat

/-- The least multiple of 2^k at or above `x`. -/
def alignUp (x m : Nat) : Nat := if m = 0 then x else (x + (m - 1)) / m * m

/-- Ceiling division. -/
def cdiv (a b : Nat) : Nat := if b = 0 then 0 else (a + (b - 1)) / b

/-- Number of binary digits of `n`. -/
def bitLen (n : Nat) : Nat := if n = 0 then 0 else Nat.log2 n + 1

/-- Number of set bits among the low `k` bits of `n`. -/
def popCount (n : Nat) : Nat → Nat
  | 0 => 0
  | k + 1 => (if Nat.testBit n k then 1 else 0) + popCount n k

/-- A list cut into runs of `k`; `fuel` bounds the number of runs. -/
def chunksOf {α : Type} (k : Nat) : Nat → List α → List (List α)
  | 0, _ => []
  | _ + 1, [] => []
  | fuel + 1, x :: xs => ((x :: xs).take k) :: chunksOf k fuel ((x :: xs).drop k)

end Sys2Proof.Machine
end

