-- ==== Sys2Proof/Syntax.lean ====
section
/-! DEFINITION. The syntax of the machine's steps: one constructor of `Instr` for every row of the opcode table (scalar, vector, matrix and bank words, the Headframe's custom-0 words, the system calls, and the events that happen without an instruction), with the raw fields each word carries. -/

namespace Sys2Proof

/-- The instruction streams of a core, and the bank engine of bank `b` that runs transport moves (R15, R271). -/
inductive Strm where
  | scalar
  | vector
  | matrix
  | bank (b : BitVec 5)
  deriving DecidableEq, Repr

/-- An operand field of a vector word: register code and stride code (R128, R129). -/
structure VOp where
  reg : BitVec 11
  stride : BitVec 3
  deriving DecidableEq, Repr

/-- The fields of a vector word below its opcode (R128). -/
structure VWord where
  ty : BitVec 4
  mask : BitVec 4
  zero : BitVec 1
  rnd : BitVec 3
  rep : BitVec 6
  gap : BitVec 4
  d : VOp
  a : VOp
  b : VOp
  ext : BitVec 24
  deriving DecidableEq, Repr

/-- The fields of a matrix word below its opcode: gap, speculative bit, tag, tile and the command's own 170 bits (R132). -/
structure MWord where
  gap : BitVec 6
  spec : BitVec 1
  tag : BitVec 3
  tile : BitVec 4
  body : BitVec 170
  deriving DecidableEq, Repr

/-- Where a scalar result goes: a register or a condition bit (R167). -/
inductive SPlace where
  | reg (r : BitVec 5)
  | cond (b : BitVec 4)
  deriving DecidableEq, Repr

/-- A scalar result in flight: issue order `stamp`, issue cycle `icyc` (R167, R168, R401). -/
structure SRes where
  core : Nat
  place : SPlace
  val : Word64
  stamp : Nat
  icyc : Nat
  deriving DecidableEq, Repr

/-- Where a vector result goes (R206, R208, R227, R317, R323). -/
inductive VPlace where
  | row (r : Nat)
  | crow (addr : Nat)
  | mask (m : BitVec 4)
  | areg (a : BitVec 3)
  | qv2s
  | qv2m
  | flags
  deriving DecidableEq, Repr

/-- A vector result in flight. `sel` lists the bytes written (empty: all); `stamp`, `rep` give the issue order
(R207, R317); `flags` are the VSTAT bits set when it takes effect (R212). -/
structure VRes where
  core : Nat
  place : VPlace
  data : List Byte
  sel : List Bool
  stamp : Nat
  rep : Nat
  icyc : Nat
  flags : Nat
  deriving DecidableEq, Repr

/-- The command that a matrix row comes from: its issue order, cycle and word, the format word it popped, the row's number in it, and whether
the row was read from a poisoned word. -/
structure RowOf where
  stamp : Nat
  icyc : Nat
  word : BitVec 192
  fw : Option Word64
  idx : Nat
  poison : Bool
  /-- The address of a poisoned word that the row's reads met (R394). -/
  pva : Nat := 0
  /-- The draw key that the command keeps (R154). -/
  draw : List (Nat × List Byte) := []
  deriving DecidableEq, Repr

/-- A C row that an MSTEP or MZERO writes: `vals` is T of R157 for the 128 columns, of which `cols` have weights (R245, R246). -/
structure MRow where
  core : Nat
  tile : Nat
  row : Nat
  acc : Bool
  isInt : Bool
  cols : Nat
  vals : List Word32
  flags : Nat
  tag : Option Nat
  of_ : RowOf
  deriving DecidableEq, Repr

/-- A drained row on its way to A rows (`dest` 0), QM2V (1), a tile-table send (2), or a raw C row that a routing register hands on (3, R252):
the pieces of R248, numbered from `first` within the drain, and those left of the row's own. -/
structure DrainRow where
  core : Nat
  dest : Nat
  arow : Nat
  entry : Nat
  first : Nat
  pieces : List (List Byte)
  flags : Nat
  of_ : RowOf
  deriving DecidableEq, Repr

/-- A collective piece, or a window of one, on its way to a peer (R351, R353); `fid` is its sender's firing, `stamp` the issue
order of the word that fired it or handed it (R341). -/
structure Piece where
  src : Nat
  dst : Nat
  fid : Nat
  copyTo : Option Nat
  entry : Nat
  slot : Nat
  index : Nat
  off : Nat
  data : List Byte
  poison : Bool
  flow : Option (Nat × Nat)
  stamp : Nat := 0
  deriving DecidableEq, Repr

/-- A barrier instance: launch, barrier number, depth, ancestor instance (R347). -/
structure BarKey where
  gen : Nat
  bar : Nat
  depth : Nat
  anc : Nat
  deriving DecidableEq, Repr

/-- What happens to copy words from a number on (R283, R303): they are read; one is asked for again at a bank whose queue had no room; their data stands at the engine's disposal; they are written on
the die; the next word is handed to a bank; a word has applied in a bank. Poison travels as a bit set over the words (R406). -/
inductive CopyLeg where
  | read
  | ask
  | data (data : List Byte) (poison : Nat)
  | write (data : List Byte) (poison : Nat)
  | hand
  | performed
  deriving DecidableEq, Repr

/-- The unit that fails (R15, R22, R407): a core, one of its banks, lode groups, its copy engine or collective engine, an array, a fabric port. -/
inductive FailUnit where
  | core (c : Nat)
  | bank (c b : Nat)
  | lode (c g : Nat)
  | copy (c : Nat)
  | collective (c : Nat)
  | array (quad : Nat)
  | port (p : Nat)
  deriving DecidableEq, Repr

/-- Registers and tables that have no row of their own (R8, R288, R298, R392, R415). -/
inductive RegTarget where
  | mailboxStatus
  | mailboxAddr
  | mailboxLen
  | mailboxChannel (n : Fin 28)
  | capMap (off : Nat)
  | routing (p : Nat)
  | seamTable (core entry dword : Nat)
  | lpddrTable (ctrl entry dword : Nat)
  | mmioTable (blk entry dword : Nat)
  | window (die win off : Nat)
  deriving DecidableEq, Repr

/-- Where a soft error strikes (R278, R406). -/
inductive SoftSite where
  | seam (core : Nat) (addr bit : Nat)
  | onDie (core : Nat) (space addr bit : Nat)
  | lpddr (pa bit : Nat)
  deriving DecidableEq, Repr

/-- A bound instance of a node (R66): node, parent instance, k, unit level and index (package × 1024 + die × 512 + …), first lane and lane width. -/
structure Inst where
  node : Nat
  parent : Nat
  k : Nat
  level : Nat
  pkg : Nat
  unit : Nat
  laneLo : Nat := 0
  laneW : Nat := 64
  deriving DecidableEq, Repr

/-- A packet as its submitting package sends it (R73): generation, queue, window of sending, process, the page tables through which the
process's accesses from here translate (R285, R286: level, prefix, PTE), the packet's 128 bytes, its argument block, its beat requirement, and
the opened bundle's bytes; with it go the counts of the tokens of its wait slots, whether it belongs to a graph run, and the plans of the process
(R56, R71, R363; log 22). -/
structure RemotePacket where
  gen : Nat
  queue : Nat
  sent : Nat
  spid : Nat
  ptes : List (Nat × List (Nat × Word64))
  packet : List Byte
  args : List Byte
  beats : List Byte
  bundle : List Byte
  counts : List Nat := []
  graph : Bool := false
  plans : List (Nat × List (Nat × Nat × Nat)) := []
  insts : List Inst := []
  deriving DecidableEq, Repr

/-- A request between packages as its home finds it (R299, R337): the sender's number of it, the physical address, and what it asks. An
atomic's operations are those of R189 by number, 10 is CAS (R190); a DS or KV operation (R374) names its descriptor by SPID and virtual
address. -/
inductive FarReq where
  | read (id pa n : Nat)
  | write (id pa : Nat) (data : List Byte) (sel : List Bool) (poison : Bool)
  | atomic (id pa op size : Nat) (b c : Word64)
  | ds (id spid op cur win : Nat) (base a b : Word64)
  deriving DecidableEq, Repr

/-- A frame record as the playback side publishes it (R371). -/
structure FrameRec where
  win : Word64
  mt : Word64
  len : Word32
  barge : Bool
  pay : Word64
  deriving DecidableEq, Repr

/-- The operands of an event: what it happens to. `nums` lists indices in the order the event's docstring gives. -/
inductive Arg where
  | nums (l : List Nat)
  | image (v : Word64) (i : Option (List Byte))
  | reg (r : RegTarget) (v : Word64)
  | bytes (l : List Byte)
  | strm (core : Nat) (k : Strm)
  | failed (u : FailUnit)
  | sres (r : SRes)
  | vres (r : VRes)
  | mrow (r : MRow)
  | drow (r : DrainRow)
  | bar (b : BarKey) (phase : Nat)
  | piece (p : Piece)
  | copy (core w : Nat) (leg : CopyLeg)
  | packet (p : RemotePacket)
  | frame (sid : Nat) (f : FrameRec)
  | word (ids : List Nat) (v : Word64)
  | write (spid : Nat) (va : Word64) (data : List Byte) (port : Bool)
  | hartAmo (h spid : Nat) (va : Word64) (op size : Nat) (b : Word64) (rd : BitVec 5)
  | far (pkg : Nat) (r : FarReq)
  | reply (id : Nat) (data : List Byte) (code : Nat)
  | arrival (b : BarKey) (pkg phase win : Nat)
  | signal (gen token : Nat)
  | plan (spid id : Nat) (flows : List (Nat × Nat × Nat))
  | shoot (pkg id spid : Nat) (pages : List Nat)
  | flag (core tile : Nat) (full : Bool) (r : RowOf)
  | lode (core addr tag code : Nat) (acc : Bool) (sums : List Int)
  | site (x : SoftSite)
  | transfer (id : Nat) (data : Option (List Byte))
  deriving DecidableEq, Repr

/-- An event without operands. -/
def Arg.none : Arg := .nums []

/-- One step of the machine: an instruction word of some stream with the fields it carries, a system call (its arguments stand in the
calling hart's registers, R49), or an event (its operands stand in `State.arg`). The words come first, then the steps that carry no
field. -/
inductive Instr where
  /-- ADD (R171). -/
  | add (g : BitVec 2) (d : BitVec 5) (a : BitVec 5) (b : BitVec 5)
  /-- SUB (R171). -/
  | sub (g : BitVec 2) (d : BitVec 5) (a : BitVec 5) (b : BitVec 5)
  /-- AND (R171). -/
  | and (g : BitVec 2) (d : BitVec 5) (a : BitVec 5) (b : BitVec 5)
  /-- OR (R171). -/
  | or (g : BitVec 2) (d : BitVec 5) (a : BitVec 5) (b : BitVec 5)
  /-- XOR (R171). -/
  | xor (g : BitVec 2) (d : BitVec 5) (a : BitVec 5) (b : BitVec 5)
  /-- SLL (R171). -/
  | sll (g : BitVec 2) (d : BitVec 5) (a : BitVec 5) (b : BitVec 5)
  /-- SRL (R171). -/
  | srl (g : BitVec 2) (d : BitVec 5) (a : BitVec 5) (b : BitVec 5)
  /-- SRA (R171). -/
  | sra (g : BitVec 2) (d : BitVec 5) (a : BitVec 5) (b : BitVec 5)
  /-- MUL (R171). -/
  | mul (g : BitVec 2) (d : BitVec 5) (a : BitVec 5) (b : BitVec 5)
  /-- MULH (R171). -/
  | mulh (g : BitVec 2) (d : BitVec 5) (a : BitVec 5) (b : BitVec 5)
  /-- MULHU (R171). -/
  | mulhu (g : BitVec 2) (d : BitVec 5) (a : BitVec 5) (b : BitVec 5)
  /-- DIV (R172). -/
  | div (g : BitVec 2) (d : BitVec 5) (a : BitVec 5) (b : BitVec 5)
  /-- DIVU (R172). -/
  | divu (g : BitVec 2) (d : BitVec 5) (a : BitVec 5) (b : BitVec 5)
  /-- REM (R172). -/
  | rem (g : BitVec 2) (d : BitVec 5) (a : BitVec 5) (b : BitVec 5)
  /-- REMU (R172). -/
  | remu (g : BitVec 2) (d : BitVec 5) (a : BitVec 5) (b : BitVec 5)
  /-- MIN (R171). -/
  | min (g : BitVec 2) (d : BitVec 5) (a : BitVec 5) (b : BitVec 5)
  /-- MAX (R171). -/
  | max (g : BitVec 2) (d : BitVec 5) (a : BitVec 5) (b : BitVec 5)
  /-- MINU (R171). -/
  | minu (g : BitVec 2) (d : BitVec 5) (a : BitVec 5) (b : BitVec 5)
  /-- MAXU (R171). -/
  | maxu (g : BitVec 2) (d : BitVec 5) (a : BitVec 5) (b : BitVec 5)
  /-- CLZ (R171). -/
  | clz (g : BitVec 2) (d : BitVec 5) (a : BitVec 5)
  /-- CTZ (R171). -/
  | ctz (g : BitVec 2) (d : BitVec 5) (a : BitVec 5)
  /-- POPC (R171). -/
  | popc (g : BitVec 2) (d : BitVec 5) (a : BitVec 5)
  /-- ADDW (R171). -/
  | addw (g : BitVec 2) (d : BitVec 5) (a : BitVec 5) (b : BitVec 5)
  /-- SUBW (R171). -/
  | subw (g : BitVec 2) (d : BitVec 5) (a : BitVec 5) (b : BitVec 5)
  /-- ANDN (R171). -/
  | andn (g : BitVec 2) (d : BitVec 5) (a : BitVec 5) (b : BitVec 5)
  /-- ADDI (R174). -/
  | addi (g : BitVec 2) (d : BitVec 5) (a : BitVec 5) (i : BitVec 14)
  /-- ANDI (R174). -/
  | andi (g : BitVec 2) (d : BitVec 5) (a : BitVec 5) (i : BitVec 14)
  /-- ORI (R174). -/
  | ori (g : BitVec 2) (d : BitVec 5) (a : BitVec 5) (i : BitVec 14)
  /-- XORI (R174). -/
  | xori (g : BitVec 2) (d : BitVec 5) (a : BitVec 5) (i : BitVec 14)
  /-- SLLI (R174). -/
  | slli (g : BitVec 2) (d : BitVec 5) (a : BitVec 5) (n : BitVec 6)
  /-- SRLI (R174). -/
  | srli (g : BitVec 2) (d : BitVec 5) (a : BitVec 5) (n : BitVec 6)
  /-- SRAI (R174). -/
  | srai (g : BitVec 2) (d : BitVec 5) (a : BitVec 5) (n : BitVec 6)
  /-- LHI (R174). -/
  | lhi (g : BitVec 2) (d : BitVec 5) (i : BitVec 19)
  /-- ADDPC (R174). -/
  | addpc (g : BitVec 2) (d : BitVec 5) (i : BitVec 19)
  /-- FADD (R175). -/
  | fadd (g : BitVec 2) (d : BitVec 5) (a : BitVec 5) (b : BitVec 5)
  /-- FSUB (R175). -/
  | fsub (g : BitVec 2) (d : BitVec 5) (a : BitVec 5) (b : BitVec 5)
  /-- FMUL (R175). -/
  | fmul (g : BitVec 2) (d : BitVec 5) (a : BitVec 5) (b : BitVec 5)
  /-- FDIV (R175). -/
  | fdiv (g : BitVec 2) (d : BitVec 5) (a : BitVec 5) (b : BitVec 5)
  /-- FSQRT (R175). -/
  | fsqrt (g : BitVec 2) (d : BitVec 5) (a : BitVec 5)
  /-- FMIN (R175). -/
  | fmin (g : BitVec 2) (d : BitVec 5) (a : BitVec 5) (b : BitVec 5)
  /-- FMAX (R175). -/
  | fmax (g : BitVec 2) (d : BitVec 5) (a : BitVec 5) (b : BitVec 5)
  /-- FSGNJ (R175). -/
  | fsgnj (g : BitVec 2) (d : BitVec 5) (a : BitVec 5) (b : BitVec 5)
  /-- FSGNN (R175). -/
  | fsgnn (g : BitVec 2) (d : BitVec 5) (a : BitVec 5) (b : BitVec 5)
  /-- FSGNX (R175). -/
  | fsgnx (g : BitVec 2) (d : BitVec 5) (a : BitVec 5) (b : BitVec 5)
  /-- FCVTI (R175). -/
  | fcvti (g : BitVec 2) (d : BitVec 5) (a : BitVec 5)
  /-- ICVTF (R175). -/
  | icvtf (g : BitVec 2) (d : BitVec 5) (a : BitVec 5)
  /-- FTOBF (R175). -/
  | ftobf (g : BitVec 2) (d : BitVec 5) (a : BitVec 5)
  /-- BFTOF (R175). -/
  | bftof (g : BitVec 2) (d : BitVec 5) (a : BitVec 5)
  /-- FCLASS (R175). -/
  | fclass (g : BitVec 2) (d : BitVec 5) (a : BitVec 5)
  /-- FMA (R176). -/
  | fma (g : BitVec 2) (d : BitVec 5) (a : BitVec 5) (b : BitVec 5) (c : BitVec 5)
  /-- FMS (R176). -/
  | fms (g : BitVec 2) (d : BitVec 5) (a : BitVec 5) (b : BitVec 5) (c : BitVec 5)
  /-- FNMA (R176). -/
  | fnma (g : BitVec 2) (d : BitVec 5) (a : BitVec 5) (b : BitVec 5) (c : BitVec 5)
  /-- FNMS (R176). -/
  | fnms (g : BitVec 2) (d : BitVec 5) (a : BitVec 5) (b : BitVec 5) (c : BitVec 5)
  /-- CMP (R177). -/
  | cmp (g : BitVec 2) (b : BitVec 4) (c : BitVec 4) (a : BitVec 5) (r : BitVec 5) (m : BitVec 2)
  /-- CMPI (R177). -/
  | cmpi (g : BitVec 2) (b : BitVec 4) (c : BitVec 4) (a : BitVec 5) (m : BitVec 2) (i : BitVec 9)
  /-- FCMP (R177). -/
  | fcmp (g : BitVec 2) (b : BitVec 4) (c : BitVec 4) (a : BitVec 5) (r : BitVec 5) (m : BitVec 2)
  /-- CAND (R178). -/
  | cand (g : BitVec 2) (b : BitVec 4) (x : BitVec 4) (y : BitVec 4)
  /-- COR (R178). -/
  | cor (g : BitVec 2) (b : BitVec 4) (x : BitVec 4) (y : BitVec 4)
  /-- CXOR (R178). -/
  | cxor (g : BitVec 2) (b : BitVec 4) (x : BitVec 4) (y : BitVec 4)
  /-- CANDN (R178). -/
  | candn (g : BitVec 2) (b : BitVec 4) (x : BitVec 4) (y : BitVec 4)
  /-- CNOT (R178). -/
  | cnot (g : BitVec 2) (b : BitVec 4) (x : BitVec 4)
  /-- CTRUE (R178). -/
  | ctrue (g : BitVec 2) (b : BitVec 4)
  /-- CFALSE (R178). -/
  | cfalse (g : BitVec 2) (b : BitVec 4)
  /-- CMOVE (R178). -/
  | cmove (g : BitVec 2) (b : BitVec 4) (x : BitVec 4)
  /-- CSAVE (R178). -/
  | csave (g : BitVec 2) (d : BitVec 5)
  /-- CLOAD (R178). -/
  | cload (g : BitVec 2) (a : BitVec 5)
  /-- PREP (R179). -/
  | prep (g : BitVec 2) (b : BitVec 4) (o : BitVec 20)
  /-- PREPR (R179). -/
  | prepr (g : BitVec 2) (b : BitVec 4) (a : BitVec 5)
  /-- BR (R180). -/
  | br (g : BitVec 2) (b : BitVec 4)
  /-- BRN (R180). -/
  | brn (g : BitVec 2) (b : BitVec 4)
  /-- JMP (R180). -/
  | jmp (g : BitVec 2) (b : BitVec 4)
  /-- CALL (R180). -/
  | call (g : BitVec 2) (b : BitVec 4)
  /-- RET (R180). -/
  | ret (g : BitVec 2)
  /-- LOOP (R182). -/
  | loop (g : BitVec 2) (p : BitVec 2) (c : BitVec 5) (l : BitVec 17)
  /-- LOOPI (R182). -/
  | loopi (g : BitVec 2) (p : BitVec 2) (n : BitVec 10) (l : BitVec 12)
  /-- LPRW (R185). -/
  | lprw (g : BitVec 2) (r : BitVec 5) (p : BitVec 2) (t : BitVec 2) (w : BitVec 1)
  /-- LDA (R186). -/
  | lda (g : BitVec 2) (d : BitVec 5) (a : BitVec 5) (s : BitVec 2) (p : BitVec 1) (i : BitVec 11)
  /-- LDAU (R186). -/
  | ldau (g : BitVec 2) (d : BitVec 5) (a : BitVec 5) (s : BitVec 2) (p : BitVec 1) (i : BitVec 11)
  /-- STA (R186). -/
  | sta (g : BitVec 2) (r : BitVec 5) (a : BitVec 5) (s : BitVec 2) (p : BitVec 1) (i : BitVec 11)
  /-- LDG (R186). -/
  | ldg (g : BitVec 2) (d : BitVec 5) (a : BitVec 5) (s : BitVec 2) (p : BitVec 1) (i : BitVec 11)
  /-- LDGU (R186). -/
  | ldgu (g : BitVec 2) (d : BitVec 5) (a : BitVec 5) (s : BitVec 2) (p : BitVec 1) (i : BitVec 11)
  /-- STG (R186). -/
  | stg (g : BitVec 2) (r : BitVec 5) (a : BitVec 5) (s : BitVec 2) (p : BitVec 1) (i : BitVec 11)
  /-- ENTER (R191). -/
  | enter (g : BitVec 2) (n : BitVec 16)
  /-- LEAVE (R191). -/
  | leave (g : BitVec 2) (n : BitVec 16)
  /-- AMOADD (R189). -/
  | amoadd (g : BitVec 2) (d : BitVec 5) (a : BitVec 5) (b : BitVec 5) (s : BitVec 1)
  /-- AMOMIN (R189). -/
  | amomin (g : BitVec 2) (d : BitVec 5) (a : BitVec 5) (b : BitVec 5) (s : BitVec 1)
  /-- AMOMAX (R189). -/
  | amomax (g : BitVec 2) (d : BitVec 5) (a : BitVec 5) (b : BitVec 5) (s : BitVec 1)
  /-- AMOMINU (R189). -/
  | amominu (g : BitVec 2) (d : BitVec 5) (a : BitVec 5) (b : BitVec 5) (s : BitVec 1)
  /-- AMOMAXU (R189). -/
  | amomaxu (g : BitVec 2) (d : BitVec 5) (a : BitVec 5) (b : BitVec 5) (s : BitVec 1)
  /-- AMOAND (R189). -/
  | amoand (g : BitVec 2) (d : BitVec 5) (a : BitVec 5) (b : BitVec 5) (s : BitVec 1)
  /-- AMOOR (R189). -/
  | amoor (g : BitVec 2) (d : BitVec 5) (a : BitVec 5) (b : BitVec 5) (s : BitVec 1)
  /-- AMOXOR (R189). -/
  | amoxor (g : BitVec 2) (d : BitVec 5) (a : BitVec 5) (b : BitVec 5) (s : BitVec 1)
  /-- AMOSWAP (R189). -/
  | amoswap (g : BitVec 2) (d : BitVec 5) (a : BitVec 5) (b : BitVec 5) (s : BitVec 1)
  /-- AMOFADD (R189). -/
  | amofadd (g : BitVec 2) (d : BitVec 5) (a : BitVec 5) (b : BitVec 5)
  /-- CAS (R190). -/
  | cas (g : BitVec 2) (d : BitVec 5) (a : BitVec 5) (b : BitVec 5) (c : BitVec 5) (s : BitVec 1)
  /-- QPUSH (R192). -/
  | qpush (g : BitVec 2) (r : BitVec 5) (q : BitVec 4)
  /-- QPOP (R192). -/
  | qpop (g : BitVec 2) (r : BitVec 5) (q : BitVec 4)
  /-- QPEEK (R192). -/
  | qpeek (g : BitVec 2) (r : BitVec 5) (q : BitVec 4)
  /-- QCNT (R192). -/
  | qcnt (g : BitVec 2) (r : BitVec 5) (q : BitVec 4)
  /-- BLK (R193). -/
  | blk (g : BitVec 2) (q : BitVec 1) (s : BitVec 1) (t : BitVec 3) (n : BitVec 6) (a : BitVec 13)
  /-- WAIT (R195). -/
  | wait (g : BitVec 2) (n : BitVec 24)
  /-- ANCHOR (R196). -/
  | anchor (g : BitVec 2)
  /-- TNOW (R197). -/
  | tnow (g : BitVec 2) (d : BitVec 5)
  /-- BNOW (R197). -/
  | bnow (g : BitVec 2) (d : BitVec 5)
  /-- BTSET (R197). -/
  | btset (g : BitVec 2) (a : BitVec 5)
  /-- CPY (R302). -/
  | cpy (g : BitVec 2) (a : BitVec 5)
  /-- CPYS (R305). -/
  | cpys (g : BitVec 2) (a : BitVec 5) (b : BitVec 5)
  /-- DRAIN (R306). -/
  | drain (g : BitVec 2) (p : BitVec 4)
  /-- BKRUN (R308). -/
  | bkrun (g : BitVec 2) (a : BitVec 5) (k : BitVec 3) (p : BitVec 1)
  /-- BKLODE (R309). -/
  | bklode (g : BitVec 2) (a : BitVec 5) (k : BitVec 3) (p : BitVec 1)
  /-- BKCAL (R310). -/
  | bkcal (g : BitVec 2) (a : BitVec 5) (k : BitVec 3) (p : BitVec 1)
  /-- BKST (R311). -/
  | bkst (g : BitVec 2) (d : BitVec 5) (b : BitVec 5)
  /-- MLEASE (R198). -/
  | mlease (g : BitVec 2) (n : BitVec 8)
  /-- MFREE (R200). -/
  | mfree (g : BitVec 2)
  /-- SCOMMIT (R194). -/
  | scommit (g : BitVec 2) (t : BitVec 3)
  /-- SDROP (R194). -/
  | sdrop (g : BitVec 2) (t : BitVec 3)
  /-- BAR (R350). -/
  | bar (g : BitVec 2) (d : BitVec 4) (n : BitVec 6)
  /-- BARA (R350). -/
  | bara (g : BitVec 2) (d : BitVec 4) (n : BitVec 6)
  /-- BARW (R350). -/
  | barw (g : BitVec 2) (d : BitVec 4) (n : BitVec 6)
  /-- FENCE (R341). -/
  | fence (g : BitVec 2) (d : BitVec 4) (c : BitVec 4)
  /-- WAITM (R343). -/
  | waitm (g : BitVec 2) (a : BitVec 5) (b : BitVec 5) (s : BitVec 2) (c : BitVec 3)
  /-- TTSET (R354). -/
  | ttset (g : BitVec 2) (e : BitVec 6) (a : BitVec 5)
  /-- TRDY (R355). -/
  | trdy (g : BitVec 2) (e : BitVec 6)
  /-- SBSET (R360). -/
  | sbset (g : BitVec 2) (a : BitVec 5)
  /-- SBARM (R361). -/
  | sbarm (g : BitVec 2) (t : BitVec 3) (a : BitVec 5) (b : BitVec 5)
  /-- CLX (R355). -/
  | clx (g : BitVec 2) (e : BitVec 6) (a : BitVec 5)
  /-- DSADMIT (R378). -/
  | dsadmit (g : BitVec 2) (d : BitVec 5)
  /-- DSEMIT (R379). -/
  | dsemit (g : BitVec 2) (a : BitVec 5)
  /-- DSTRUNC (R380). -/
  | dstrunc (g : BitVec 2) (d : BitVec 5)
  /-- DSCUR (R381). -/
  | dscur (g : BitVec 2) (d : BitVec 5) (c : BitVec 2)
  /-- KVINV (R382). -/
  | kvinv (g : BitVec 2) (a : BitVec 5) (b : BitVec 5)
  /-- KVACCEPT (R383). -/
  | kvaccept (g : BitVec 2) (a : BitVec 5) (b : BitVec 5)
  /-- KVCOMMIT (R384). -/
  | kvcommit (g : BitVec 2) (d : BitVec 5)
  /-- NOP (R202). -/
  | nop (g : BitVec 2)
  /-- TRAP (R202). -/
  | trap (g : BitVec 2) (n : BitVec 15)
  /-- GETS (R202). -/
  | gets (g : BitVec 2) (d : BitVec 5) (s : BitVec 11) (l : BitVec 4)
  /-- PUTS (R202). -/
  | puts (g : BitVec 2) (r : BitVec 5) (s : BitVec 11) (l : BitVec 4)
  /-- BKPT (R202). -/
  | bkpt (g : BitVec 2) (n : BitVec 15)
  /-- SWAP (R83). -/
  | swap (g : BitVec 2) (a : BitVec 5) (m : BitVec 9)
  /-- HALT (R204). -/
  | halt (g : BitVec 2) (m : BitVec 9)
  /-- MV (R313). -/
  | mv (src dst : BitVec 8) (imm : BitVec 16)
  /-- KTLBI (R295). -/
  | ktlbi (b a : BitVec 5)
  /-- KRESUME (R397). -/
  | kresume (a : BitVec 5)
  /-- VMOV (R214). -/
  | vmov (v : VWord)
  /-- VADD (R214). -/
  | vadd (v : VWord)
  /-- VSUB (R214). -/
  | vsub (v : VWord)
  /-- VMUL (R214). -/
  | vmul (v : VWord)
  /-- VFMA (R214). -/
  | vfma (v : VWord)
  /-- VFMS (R214). -/
  | vfms (v : VWord)
  /-- VMIN (R214). -/
  | vmin (v : VWord)
  /-- VMAX (R214). -/
  | vmax (v : VWord)
  /-- VABS (R214). -/
  | vabs (v : VWord)
  /-- VNEG (R214). -/
  | vneg (v : VWord)
  /-- VADDS (R214). -/
  | vadds (v : VWord)
  /-- VSUBS (R214). -/
  | vsubs (v : VWord)
  /-- VMULH (R214). -/
  | vmulh (v : VWord)
  /-- VAND (R214). -/
  | vand (v : VWord)
  /-- VOR (R214). -/
  | vor (v : VWord)
  /-- VXOR (R214). -/
  | vxor (v : VWord)
  /-- VNOT (R214). -/
  | vnot (v : VWord)
  /-- VSHL (R215). -/
  | vshl (v : VWord)
  /-- VSHR (R215). -/
  | vshr (v : VWord)
  /-- VSAR (R215). -/
  | vsar (v : VWord)
  /-- VSEL (R216). -/
  | vsel (v : VWord)
  /-- VCMP (R216). -/
  | vcmp (v : VWord)
  /-- VCLAMP (R216). -/
  | vclamp (v : VWord)
  /-- VDOT4 (R217). -/
  | vdot4 (v : VWord)
  /-- VTACC (R217). -/
  | vtacc (v : VWord)
  /-- VRSUM (R219). -/
  | vrsum (v : VWord)
  /-- VRMAX (R219). -/
  | vrmax (v : VWord)
  /-- VRMIN (R219). -/
  | vrmin (v : VWord)
  /-- VRSUMS (R219). -/
  | vrsums (v : VWord)
  /-- VSCAN (R220). -/
  | vscan (v : VWord)
  /-- VPERMB (R221). -/
  | vpermb (v : VWord)
  /-- VPERMW (R221). -/
  | vpermw (v : VWord)
  /-- VSLIDE (R222). -/
  | vslide (v : VWord)
  /-- VBCAST (R222). -/
  | vbcast (v : VWord)
  /-- VCVT (R223). -/
  | vcvt (v : VWord)
  /-- VQMX (R224). -/
  | vqmx (v : VWord)
  /-- VDQMX (R224). -/
  | vdqmx (v : VWord)
  /-- VUNT5 (R225). -/
  | vunt5 (v : VWord)
  /-- VNBPS (R226). -/
  | vnbps (v : VWord)
  /-- VNBPJ (R226). -/
  | vnbpj (v : VWord)
  /-- VMSET (R227). -/
  | vmset (v : VWord)
  /-- VMLOG (R227). -/
  | vmlog (v : VWord)
  /-- VMCNT (R227). -/
  | vmcnt (v : VWord)
  /-- VMFIRST (R227). -/
  | vmfirst (v : VWord)
  /-- VMROW (R227). -/
  | vmrow (v : VWord)
  /-- VMPOS (R228). -/
  | vmpos (v : VWord)
  /-- VSHORT (R229). -/
  | vshort (v : VWord)
  /-- VSAMPLE (R230). -/
  | vsample (v : VWord)
  /-- VRNG (R231). -/
  | vrng (v : VWord)
  /-- VEXP2 (R232). -/
  | vexp2 (v : VWord)
  /-- VLOG2 (R232). -/
  | vlog2 (v : VWord)
  /-- VRCP (R232). -/
  | vrcp (v : VWord)
  /-- VRSQ (R232). -/
  | vrsq (v : VWord)
  /-- VLDC (R318). -/
  | vldc (v : VWord)
  /-- VSTC (R318). -/
  | vstc (v : VWord)
  /-- VBLD (R319). -/
  | vbld (v : VWord)
  /-- VBST (R319). -/
  | vbst (v : VWord)
  /-- VLDG (R320). -/
  | vldg (v : VWord)
  /-- VSTG (R320). -/
  | vstg (v : VWord)
  /-- VGTH (R321). -/
  | vgth (v : VWord)
  /-- VSCT (R321). -/
  | vsct (v : VWord)
  /-- VASET (R323). -/
  | vaset (v : VWord)
  /-- VAADD (R323). -/
  | vaadd (v : VWord)
  /-- VEND (R233). -/
  | vend (v : VWord)
  /-- VNOP (R233). -/
  | vnop (v : VWord)
  /-- VTILE_WAIT (R234). -/
  | vtileWait (v : VWord)
  /-- VTILE_MARK (R234). -/
  | vtileMark (v : VWord)
  /-- MLDS (R243). -/
  | mlds (w : MWord)
  /-- MSWAP (R244). -/
  | mswap (w : MWord)
  /-- MSTEP (R245). -/
  | mstep (w : MWord)
  /-- MZERO (R246). -/
  | mzero (w : MWord)
  /-- MDRAIN (R247). -/
  | mdrain (w : MWord)
  /-- MFLAG (R249). -/
  | mflag (w : MWord)
  /-- MEND (R256). -/
  | mend (w : MWord)
  /-- MNOP (R256). -/
  | mnop (w : MWord)
  /-- KTLBF (R296). -/
  | ktlbf
  /-- MODULE_RESET (R412): operands image 0 i: `i` is what BOOTSRC gives, none where the source cannot be read. -/
  | moduleReset
  /-- DOOR (R415): operands image v i: a host write of v to DOOR, i what lies at ADDR in the host memory. -/
  | door
  /-- REGISTER_WRITE (R8): operands reg r v. -/
  | registerWrite
  /-- DEBUG_UNLOCK (R423): operands bytes: the token presented. -/
  | debugUnlock
  /-- DEBUG_FREEZE (R423): no operands for the request, nums [1]: the clocks stop. -/
  | debugFreeze
  /-- MODULE_LIMIT_SET (R421): operands nums [watts]. -/
  | moduleLimitSet
  /-- THERMAL_LEVEL_CHANGE (R422): operands nums [degrees]: the hottest junction. -/
  | thermalLevelChange
  /-- THERMAL_LIMIT_STEP (R422). -/
  | thermalLimitStep
  /-- THERMAL_TRIP (R422). -/
  | thermalTrip
  /-- PTP_OFFSET_LOSS (R420). -/
  | ptpOffsetLoss
  /-- UNIT_FAILURE (R22): operands failed u. -/
  | unitFailure
  /-- LINK_TRAINING (R20): operands nums [port, 1 trained or 0 lost]. -/
  | linkTraining
  /-- WINDOW_BOUNDARY (R337). -/
  | windowBoundary
  /-- NO_CALL (R49). -/
  | noCall
  /-- KQ_OPEN_BUNDLE (R45). -/
  | kqOpenBundle
  /-- KQ_LAUNCH (R53). -/
  | kqLaunch
  /-- KQ_WAIT (R51). -/
  | kqWait
  /-- KQ_WAIT_TIMEOUT (R51): operands nums [pending call]. -/
  | kqWaitTimeout
  /-- KQ_GRAPH_NEW (R69). -/
  | kqGraphNew
  /-- KQ_GRAPH_EDIT (R70). -/
  | kqGraphEdit
  /-- KQ_GRAPH_RUN (R71). -/
  | kqGraphRun
  /-- KQ_QUEUE_PRIO (R59). -/
  | kqQueuePrio
  /-- KQ_MEM_ALLOC (R292). -/
  | kqMemAlloc
  /-- KQ_MEM_FREE (R292). -/
  | kqMemFree
  /-- KQ_MEM_MAP_WRITABLE (R292). -/
  | kqMemMapWritable
  /-- KQ_MEM_MAP_PIN (R292). -/
  | kqMemMapPin
  /-- KQ_MEM_MAP_UNPIN (R292). -/
  | kqMemMapUnpin
  /-- KQ_MEM_MAP_MIGRATE (R292). -/
  | kqMemMapMigrate
  /-- PAGE_MIGRATION (R297): operands nums [migration]. -/
  | pageMigration
  /-- KQ_SEAM_ALLOC_RESERVE (R262). -/
  | kqSeamAllocReserve
  /-- KQ_SEAM_ALLOC_RELEASE (R262). -/
  | kqSeamAllocRelease
  /-- KQ_STREAM_OPEN (R373). -/
  | kqStreamOpen
  /-- KQ_STREAM_CLOSE (R373). -/
  | kqStreamClose
  /-- KQ_PLAN_REGISTER (R363). -/
  | kqPlanRegister
  /-- KQ_PLAN_RELEASE (R363). -/
  | kqPlanRelease
  /-- KQ_FAULT_HANDLER (R391). -/
  | kqFaultHandler
  /-- KQ_FILE_READ (R419). -/
  | kqFileRead
  /-- KQ_FILE_WRITE (R419). -/
  | kqFileWrite
  /-- STORAGE_COMMAND_TIMEOUT (R419): operands nums [pending call]. -/
  | storageCommandTimeout
  /-- KQ_ATTEST (R418). -/
  | kqAttest
  /-- KQ_EXIT (R51). -/
  | kqExit
  /-- SELECTION (R61). -/
  | selection
  /-- MULTI_PACKAGE_PACKET (R73): operands packet p. -/
  | multiPackagePacket
  /-- READY (R75): operands nums [generation, package, window of sending]. -/
  | ready
  /-- ABORT (R76): operands nums [generation, package, window, fault code, entry]. -/
  | abort
  /-- RETIREMENT_REPORT (R76, R77): operands nums [generation, package, result, code, entry, package that failed]. -/
  | retirementReport
  /-- LAUNCH_COMPLETE (R409): operands nums [generation]. -/
  | launchComplete
  /-- START_PULSE (R81, R87): operands nums [generation, die]; nums [generation, die, kernel]: the pulse has reached the kernel's last core. -/
  | startPulse
  /-- OVERLAY_LOAD (R80): operands nums [die]. -/
  | overlayLoad
  /-- ANCHOR_RELEASE (R100): operands nums [stope]. -/
  | anchorRelease
  /-- BLOCK_START (R93): operands strm core k. -/
  | blockStart
  /-- STALL_RELEASE (R96): operands strm core k. -/
  | stallRelease
  /-- PROMISE_EXPIRY (R282): operands nums [request]. -/
  | promiseExpiry
  /-- SCALAR_RESULT (R167): operands sres r. -/
  | scalarResult
  /-- VECTOR_RESULT (R206): operands vres r. -/
  | vectorResult
  /-- BEAT_OPEN (R264): operands nums [0] at core (0,0); nums [d, n]: beat n as seen by the cores whose delay 2(x+y) is d. -/
  | beatOpen
  /-- BEAT_CLOSE (R264): operands as BEAT_OPEN. -/
  | beatClose
  /-- BANK_REQUEST_ARRIVAL (R266): operands nums [core, request]. -/
  | bankRequestArrival
  /-- BANK_PROGRAM_START (R268): operands nums [core, bank]. -/
  | bankProgramStart
  /-- DESCRIPTOR_START (R283): operands nums [core]. -/
  | descriptorStart
  /-- COPY_WORD (R303): operands copy core w leg. -/
  | copyWord
  /-- COPY_CHUNK_TRANSLATION (R304): operands nums [core]. -/
  | copyChunkTranslation
  /-- PAGE_WALK (R290): operands nums [walk]. -/
  | pageWalk
  /-- GLOBAL_PERFORM (R281): operands nums [request]. -/
  | globalPerform
  /-- GLOBAL_RESULT_RETURN (R170): operands nums [request]; nums [row, 1] for a row that several requests filled. -/
  | globalResultReturn
  /-- LEASE_GRANT (R199): operands nums [quad]. -/
  | leaseGrant
  /-- SPEC_RESOLVE (R95): operands nums [core]. -/
  | specResolve
  /-- MFREE_EFFECT (R200): operands nums [core]. -/
  | mfreeEffect
  /-- SHADOW_PLANE_LOADED (R243): operands nums [quad, number of the load, core, 1 at its end]. -/
  | shadowPlaneLoaded
  /-- MATRIX_ROW_WRITE (R245): operands mrow r. -/
  | matrixRowWrite
  /-- DRAIN_DELIVERY (R248): operands drow r. -/
  | drainDelivery
  /-- FULL_BIT_CHANGE (R249): operands nums [core, tile, state, 1 where an MFLAG makes it, its issue order]. -/
  | fullBitChange
  /-- BARRIER_COMPLETE (R344, R348, R349): operands bar b phase: a phase is seen complete; nums [core, barrier, depth, issue order, cycle]: an
  arrival counts once its release holds; nums [generation]: a core of the launch has halted. -/
  | barrierComplete
  /-- ENTRY_FIRE (R355): operands nums [core, entry]; nums [core, firing, piece]: the engine reads a piece; piece p: it reads one that the matrix
  stream handed. -/
  | entryFire
  /-- PIECE_ARRIVAL (R351): operands piece p. -/
  | pieceArrival
  /-- COMBINE_WRITE (R356): operands piece p: the result piece, `copyTo` its address. -/
  | combineWrite
  /-- FIRING_COMPLETE (R358): operands nums [core, firing, 0] for the post-action, 1 where a piece has performed in another package, 2 to try
  the AMO again. -/
  | firingComplete
  /-- POST_BIT_ARRIVAL (R358): operands nums [core, bit]. -/
  | postBitArrival
  /-- SEMAPHORE_HANDOFF (R358): operands word [core, pcore, pcount, bit] old. -/
  | semaphoreHandoff
  /-- TRIGGER_FIRE (R362): operands nums [core]: its armed triggers are looked at in order. -/
  | triggerFire
  /-- SLOT_FREE_NOTICE (R364): operands nums [source package, destination package]. -/
  | slotFreeNotice
  /-- FRAME_PUBLISH (R371): operands frame sid f. -/
  | framePublish
  /-- PLAYBACK_CURSOR_WRITE (R370): operands word [sid] p. -/
  | playbackCursorWrite
  /-- DS_PERFORM (R374): operands nums [operation]. -/
  | dsPerform
  /-- TLB_SHOOTDOWN_COMPLETE (R296): operands nums [hart]. -/
  | tlbShootdownComplete
  /-- PORT_PAGE_FAULT (R293): operands word [pending call] va, or word [0, spid] va at the network port. -/
  | portPageFault
  /-- TRAP_WINDOW_DELIVERY (R390): operands nums [stope]. -/
  | trapWindowDelivery
  /-- HANDLER_RETURN (R391): operands word [die, window] a0. -/
  | handlerReturn
  /-- RELEASE (R397): operands nums [stope]. -/
  | release
  /-- PREEMPTION (R399): operands nums [generation]. -/
  | preemption
  /-- PREEMPTION_INTERVAL (R399): operands nums [generation of the reserving head]. -/
  | preemptionInterval
  /-- ENGINE_ACK (R400): operands nums [core, class]. -/
  | engineAck
  /-- CONTEXT_SAVE_COMPLETE (R402): operands nums [generation, die]. -/
  | contextSaveComplete
  /-- BANK_EVICTION (R404): operands nums [core]. -/
  | bankEviction
  /-- PARITY_ERROR (R406): operands nums [core, unit as SOURCE of R394]. -/
  | parityError
  /-- RETIREMENT (R408): operands nums [generation]. -/
  | retirement
  /-- PTP_OFFSET_RECOVERY (R420). -/
  | ptpOffsetRecovery
  /-- HART_WRITE (R332): operands write spid va data _, or hartAmo h spid va op size b rd: the operation, bytes, operand and register of an atomic. -/
  | hartWrite
  /-- HOST_WRITE (R337): operands write spid va data port: false the host endpoint, true the network port; or far pkg r: a write that a page's freeze held. -/
  | hostWrite
  /-- SOFT_ERROR (R406): operands site x. -/
  | softError
  /-- STORAGE_TRANSFER_COMPLETE (R419): operands transfer id data. -/
  | storageTransferComplete
  /-- PLAN_SLOTS_RESERVED (R363): operands nums [pending call, 1 or 0 where buffers are too few]. -/
  | planSlotsReserved
  deriving DecidableEq, Repr

end Sys2Proof
end

