-- ==== Sys2Proof/WellFormed.lean ====
section
/-! DEFINITION. Which instruction words are instructions: step 1 of R121, on the fields a word carries. A word that fails raises ILLEGAL_INSTRUCTION. -/

namespace Sys2Proof

open Sys2Proof.Machine

/-- The type classes of R214, as lists of element-type codes (R130). -/
def tyInt : List Nat := [0, 1, 2, 3, 4, 5]
/-- BF16, FP32 and FP16 (R214). -/
def tyFp : List Nat := [6, 7, 10]
/-- int and fp (R214). -/
def tyIntFp : List Nat := [0, 1, 2, 3, 4, 5, 6, 7, 10]
/-- Codes 0 to 10 (R214). -/
def tyAny : List Nat := [0, 1, 2, 3, 4, 5, 6, 7, 8, 9, 10]

/-- What a vector opcode lets a word hold: types, operands used, extension bits used, and which fields must be 0. -/
structure VShape where
  types : List Nat
  useD : Bool
  useA : Bool
  useB : Bool
  ext : Nat
  rep1 : Bool := false
  mask0 : Bool := false
  zero0 : Bool := false
  rnd0 : Bool := false
  sr : Bool := false
  deriving DecidableEq, Repr

/-- An operand field is all zero (R129). -/
def VOp.isZero (o : VOp) : Bool := o.reg == 0 && o.stride == 0

/-- The checks that every vector word shares (R121, R129, R130, R131). -/
def VWord.fits (v : VWord) (s : VShape) : Bool :=
  s.types.contains v.ty.toNat && (s.useD || v.d.isZero) && (s.useA || v.a.isZero) && (s.useB || v.b.isZero)
    && (v.ext.toNat &&& s.ext == v.ext.toNat)
    && (!s.rep1 || v.rep == 0) && (!s.mask0 || v.mask == 0) && (!s.zero0 || v.zero == 0)
    && (if s.rnd0 then v.rnd == 0 else v.rnd.toNat ≤ (if s.sr then 4 else 3))

/-- Extension bits [hi:lo] of a vector word as a number (R131). -/
def VWord.e (v : VWord) (lo n : Nat) : Nat := bitsOf v.ext.toNat lo n

/-- Body bits [lo + n - 1 : lo] of a matrix word, numbered as R132 numbers the word. -/
def MWord.f (w : MWord) (lo n : Nat) : Nat := bitsOf w.body.toNat lo n

/-- Every body bit outside `used` is zero, and the tile is zero where the command has none (R132). -/
def MWord.fits (w : MWord) (used : Nat) (tile : Bool) : Bool :=
  (w.body.toNat &&& used == w.body.toNat) && (tile || w.tile == 0)

/-- The set of bits [hi:lo]. -/
def bitRange (hi lo : Nat) : Nat := (2 ^ (hi + 1 - lo) - 1) <<< lo

/-- Exactness of a conversion between floating-point types (R149): every value of `t` is a value of `d`. -/
def fpExact (t d : Nat) : Bool :=
  t == d || d == 7 || (t == 8 && (d == 6 || d == 10)) || (t == 9 && (d == 6 || d == 10)) || (t == 12 && d != 12)

/-- Floating-point type codes of VCVT, E2M1 included (R223). -/
def isFpTy (t : Nat) : Bool := t == 6 || t == 7 || t == 8 || t == 9 || t == 10 || t == 12

/-- The further step 1 checks of VCVT (R223): destination type, saturation bit, rounding code 4. -/
def vcvtFits (v : VWord) : Bool :=
  v.e 20 4 ≤ 12 && !(v.e 19 1 == 1 && (v.e 20 4 == 6 || v.e 20 4 == 7 || v.e 20 4 == 10))
    && (v.rnd.toNat != 4 || (isFpTy v.ty.toNat && isFpTy (v.e 20 4) && !fpExact v.ty.toNat (v.e 20 4)))

/-- The shape of the elementwise words that take D, A and B (R214). -/
def shDAB (types : List Nat) : VShape := { types, useD := true, useA := true, useB := true, ext := 0 }
/-- The shape of the elementwise words that take D and A (R214). -/
def shDA (types : List Nat) : VShape := { types, useD := true, useA := true, useB := false, ext := 0 }
/-- Shifts (R215). -/
def shShift (v : VWord) : VShape :=
  if v.e 23 1 = 1 then { types := tyInt, useD := true, useA := true, useB := false, ext := bitRange 23 23 + bitRange 4 0 }
  else { types := tyInt, useD := true, useA := true, useB := true, ext := 0 }
/-- Reductions and scans (R218). -/
def shRed (types : List Nat) : VShape :=
  { types, useD := true, useA := true, useB := false, ext := bitRange 23 19, zero0 := true }
/-- Mask instructions (R227). -/
def shMask (types : List Nat) (d a : Bool) (ext : Nat) : VShape :=
  { types, useD := d, useA := a, useB := false, ext, rep1 := true, mask0 := true, zero0 := true, rnd0 := true }
/-- Memory forms (R316, R317): stores require bit [79] to be 0. -/
def shMem (types : List Nat) (d a b : Bool) (ext : Nat) : VShape :=
  { types, useD := d, useA := a, useB := b, ext, zero0 := !d }

/-- Which words are instructions (R121 step 1, R123 to R132, R137 to R139). A step that is no word is always well formed. -/
def Instr.wf : Instr → Bool
  | .cmp _ _ c _ _ m => c.toNat ≤ 5 && m.toNat ≤ 2
  | .cmpi _ _ c _ m _ => c.toNat ≤ 5 && m.toNat ≤ 2
  | .fcmp _ _ c _ _ m => c.toNat ≤ 3 && m.toNat ≤ 2
  | .lprw _ _ _ t _ => t.toNat ≤ 2
  | .drain _ p => p.toNat ≤ 5
  | .fence _ _ c => c != 0
  | .waitm _ _ _ s c => s.toNat ≤ 2 && c.toNat ≤ 3
  | .dscur _ _ c => c.toNat ≤ 2
  | .gets _ _ s l => l == 0 || s == 2 || s == 3
  | .puts _ _ s l => l == 0 || s == 2 || s == 3
  | .vmov v => v.fits (shDA tyAny)
  | .vadd v => v.fits (shDAB tyIntFp)
  | .vsub v => v.fits (shDAB tyIntFp)
  | .vmul v => v.fits (shDAB tyIntFp)
  | .vfma v => v.fits (shDAB tyFp)
  | .vfms v => v.fits (shDAB tyFp)
  | .vmin v => v.fits (shDAB tyIntFp)
  | .vmax v => v.fits (shDAB tyIntFp)
  | .vabs v => v.fits (shDA tyIntFp)
  | .vneg v => v.fits (shDA tyIntFp)
  | .vadds v => v.fits (shDAB tyInt)
  | .vsubs v => v.fits (shDAB tyInt)
  | .vmulh v => v.fits (shDAB tyInt)
  | .vand v => v.fits (shDAB tyAny)
  | .vor v => v.fits (shDAB tyAny)
  | .vxor v => v.fits (shDAB tyAny)
  | .vnot v => v.fits (shDA tyAny)
  | .vshl v => v.fits (shShift v)
  | .vshr v => v.fits (shShift v)
  | .vsar v => v.fits (shShift v)
  | .vsel v => v.fits { types := tyAny, useD := true, useA := true, useB := true, ext := bitRange 23 20 }
  | .vcmp v => v.fits { types := tyIntFp, useD := false, useA := true, useB := true, ext := bitRange 23 17, rep1 := true }
      && v.e 17 3 ≤ 6
  | .vclamp v => v.fits { types := tyIntFp, useD := true, useA := true, useB := true, ext := bitRange 10 0 }
  | .vdot4 v => v.fits (shDAB [0, 1])
  | .vtacc v => v.fits (shDAB [0, 2])
  | .vrsum v => v.fits (shRed tyIntFp)
  | .vrmax v => v.fits (shRed tyIntFp)
  | .vrmin v => v.fits (shRed tyIntFp)
  | .vrsums v => v.fits (shRed tyInt)
  | .vscan v => v.fits (shRed tyIntFp)
  | .vpermb v => v.fits (shDAB [0])
  | .vpermw v => v.fits (shDAB [0])
  | .vslide v => v.fits { types := tyAny, useD := true, useA := true, useB := true, ext := bitRange 6 0 }
  | .vbcast v => v.fits { types := tyAny, useD := true, useA := true, useB := false, ext := bitRange 7 0 }
  | .vcvt v => v.fits { types := tyAny, useD := true, useA := true, useB := false, ext := bitRange 23 19 + bitRange 15 0, sr := true }
      && vcvtFits v
  | .vqmx v => v.fits { types := [7], useD := true, useA := true, useB := true, ext := bitRange 15 0, mask0 := true, zero0 := true, sr := true }
  | .vdqmx v => v.fits { types := [0], useD := true, useA := true, useB := true, ext := bitRange 23 20, mask0 := true, zero0 := true }
      && (v.e 20 4 == 6 || v.e 20 4 == 7)
  | .vunt5 v => v.fits { types := [0, 2, 4], useD := true, useA := true, useB := false, ext := bitRange 23 20 }
  | .vnbps v => v.fits { types := [0], useD := true, useA := true, useB := false, ext := bitRange 2 0, mask0 := true, zero0 := true }
  | .vnbpj v => v.fits { types := [0], useD := true, useA := true, useB := false, ext := bitRange 2 0, mask0 := true, zero0 := true }
  | .vmset v => v.fits (shMask tyAny false true (bitRange 23 20))
  | .vmlog v => v.fits (shMask [0] false false (bitRange 23 8)) && v.e 8 4 ≤ 4 && (v.e 8 4 != 4 || v.e 12 4 == 0)
  | .vmcnt v => v.fits (shMask tyAny true false (bitRange 19 16))
  | .vmfirst v => v.fits (shMask tyAny true false (bitRange 19 16))
  | .vmrow v => v.fits (shMask [0] false true (bitRange 23 20))
  | .vmpos v => v.fits (shMask [0] false false (bitRange 23 20 + bitRange 7 5))
  | .vshort v => v.fits { types := [6, 7], useD := true, useA := true, useB := true, ext := bitRange 23 20 + bitRange 15 0, mask0 := true, zero0 := true }
  | .vsample v => v.fits { types := [7], useD := true, useA := true, useB := true, ext := bitRange 15 0, zero0 := true }
  | .vrng v => v.fits { types := [1, 3, 5, 6, 7], useD := true, useA := false, useB := false, ext := bitRange 15 0 }
  | .vexp2 v => v.fits (shDA [7])
  | .vlog2 v => v.fits (shDA [7])
  | .vrcp v => v.fits (shDA [7])
  | .vrsq v => v.fits (shDA [7])
  | .vldc v => v.fits (shMem tyAny true false false (bitRange 23 20 + bitRange 15 0))
  | .vstc v => v.fits (shMem tyAny false true false (bitRange 23 20 + bitRange 15 0))
  | .vbld v => v.fits (shMem tyAny true false false (bitRange 23 0))
  | .vbst v => v.fits (shMem tyAny false true false (bitRange 23 0))
  | .vldg v => v.fits (shMem tyAny true false false (bitRange 23 20 + bitRange 15 0))
  | .vstg v => v.fits (shMem tyAny false true false (bitRange 23 20 + bitRange 15 0))
  | .vgth v => v.fits (shMem [4, 5, 7] true false true (bitRange 23 20 + bitRange 15 0))
  | .vsct v => v.fits (shMem [4, 5, 7] false true true (bitRange 23 20 + bitRange 15 0))
  | .vaset v => v.fits (shMask [0] false true (bitRange 23 21))
  | .vaadd v => v.fits (shMask [0] false false (bitRange 23 21 + bitRange 15 0))
  | .vend v => v.fits (shMask [0] false false 0)
  | .vnop v => v.fits (shMask [0] false false (bitRange 23 0))
  | .vtileWait v => v.fits { types := [0], useD := false, useA := false, useB := false, ext := bitRange 23 18, mask0 := true } && v.e 19 1 == 0
  | .vtileMark v => v.fits { types := [0], useD := false, useA := false, useB := false, ext := bitRange 23 18, mask0 := true } && v.e 19 1 == 1
  | .mlds w => w.fits (bitRange 169 131) false
  | .mswap w => w.fits 0 false
  | .mstep w => w.fits (bitRange 169 144) true
  | .mzero w => w.fits (bitRange 169 156) true
  | .mdrain w => w.fits (bitRange 169 94) true && w.f 154 2 != 3 && (w.f 154 2 == 0 || w.f 143 11 == 0) && (w.f 154 2 == 2 || w.f 94 6 == 0)
  | .mflag w => w.fits (bitRange 169 169) true
  | .mend w => w.fits 0 false
  | .mnop w => w.fits (bitRange 169 146) false
  | _ => true

end Sys2Proof
end

