-- ==== Sys2Proof/Decode.lean ====
section
/-! DEFINITION. The decoder, total on any number, one per kind of word because a scalar word, a bank move and a Headframe word share bit patterns; and the encoder, written from the same layouts (R123 to R139). -/

namespace Sys2Proof

open Sys2Proof.Machine

/-- Why a word is no instruction (R121 step 1). -/
inductive DecodeError where
  /-- The major, opcode, op or fn is unassigned, or a must-be-zero field that fixes the row is nonzero. -/
  | unassigned
  /-- The row exists, but a field of it holds a reserved value. -/
  | reserved
  deriving DecidableEq, Repr

/-- Scalar words of major 0x00 (R123 to R126). -/
def scalarMajor00 (w : Nat) : Option Instr :=
  if w &&& 0xFC0001FF = 0x00000000 then some (.add (fieldOf w 24 2) (fieldOf w 19 5) (fieldOf w 14 5) (fieldOf w 9 5)) else
  if w &&& 0xFC0001FF = 0x00000001 then some (.sub (fieldOf w 24 2) (fieldOf w 19 5) (fieldOf w 14 5) (fieldOf w 9 5)) else
  if w &&& 0xFC0001FF = 0x00000002 then some (.and (fieldOf w 24 2) (fieldOf w 19 5) (fieldOf w 14 5) (fieldOf w 9 5)) else
  if w &&& 0xFC0001FF = 0x00000003 then some (.or (fieldOf w 24 2) (fieldOf w 19 5) (fieldOf w 14 5) (fieldOf w 9 5)) else
  if w &&& 0xFC0001FF = 0x00000004 then some (.xor (fieldOf w 24 2) (fieldOf w 19 5) (fieldOf w 14 5) (fieldOf w 9 5)) else
  if w &&& 0xFC0001FF = 0x00000005 then some (.sll (fieldOf w 24 2) (fieldOf w 19 5) (fieldOf w 14 5) (fieldOf w 9 5)) else
  if w &&& 0xFC0001FF = 0x00000006 then some (.srl (fieldOf w 24 2) (fieldOf w 19 5) (fieldOf w 14 5) (fieldOf w 9 5)) else
  if w &&& 0xFC0001FF = 0x00000007 then some (.sra (fieldOf w 24 2) (fieldOf w 19 5) (fieldOf w 14 5) (fieldOf w 9 5)) else
  if w &&& 0xFC0001FF = 0x00000008 then some (.mul (fieldOf w 24 2) (fieldOf w 19 5) (fieldOf w 14 5) (fieldOf w 9 5)) else
  if w &&& 0xFC0001FF = 0x00000009 then some (.mulh (fieldOf w 24 2) (fieldOf w 19 5) (fieldOf w 14 5) (fieldOf w 9 5)) else
  if w &&& 0xFC0001FF = 0x0000000A then some (.mulhu (fieldOf w 24 2) (fieldOf w 19 5) (fieldOf w 14 5) (fieldOf w 9 5)) else
  if w &&& 0xFC0001FF = 0x0000000B then some (.div (fieldOf w 24 2) (fieldOf w 19 5) (fieldOf w 14 5) (fieldOf w 9 5)) else
  if w &&& 0xFC0001FF = 0x0000000C then some (.divu (fieldOf w 24 2) (fieldOf w 19 5) (fieldOf w 14 5) (fieldOf w 9 5)) else
  if w &&& 0xFC0001FF = 0x0000000D then some (.rem (fieldOf w 24 2) (fieldOf w 19 5) (fieldOf w 14 5) (fieldOf w 9 5)) else
  if w &&& 0xFC0001FF = 0x0000000E then some (.remu (fieldOf w 24 2) (fieldOf w 19 5) (fieldOf w 14 5) (fieldOf w 9 5)) else
  if w &&& 0xFC0001FF = 0x0000000F then some (.min (fieldOf w 24 2) (fieldOf w 19 5) (fieldOf w 14 5) (fieldOf w 9 5)) else
  if w &&& 0xFC0001FF = 0x00000010 then some (.max (fieldOf w 24 2) (fieldOf w 19 5) (fieldOf w 14 5) (fieldOf w 9 5)) else
  if w &&& 0xFC0001FF = 0x00000011 then some (.minu (fieldOf w 24 2) (fieldOf w 19 5) (fieldOf w 14 5) (fieldOf w 9 5)) else
  if w &&& 0xFC0001FF = 0x00000012 then some (.maxu (fieldOf w 24 2) (fieldOf w 19 5) (fieldOf w 14 5) (fieldOf w 9 5)) else
  if w &&& 0xFC003FFF = 0x00000013 then some (.clz (fieldOf w 24 2) (fieldOf w 19 5) (fieldOf w 14 5)) else
  if w &&& 0xFC003FFF = 0x00000014 then some (.ctz (fieldOf w 24 2) (fieldOf w 19 5) (fieldOf w 14 5)) else
  if w &&& 0xFC003FFF = 0x00000015 then some (.popc (fieldOf w 24 2) (fieldOf w 19 5) (fieldOf w 14 5)) else
  if w &&& 0xFC0001FF = 0x00000016 then some (.addw (fieldOf w 24 2) (fieldOf w 19 5) (fieldOf w 14 5) (fieldOf w 9 5)) else
  if w &&& 0xFC0001FF = 0x00000017 then some (.subw (fieldOf w 24 2) (fieldOf w 19 5) (fieldOf w 14 5) (fieldOf w 9 5)) else
  if w &&& 0xFC0001FF = 0x00000018 then some (.andn (fieldOf w 24 2) (fieldOf w 19 5) (fieldOf w 14 5) (fieldOf w 9 5)) else
  none

/-- Scalar words of major 0x01 (R123 to R126). -/
def scalarMajor01 (w : Nat) : Option Instr :=
  if w &&& 0xFC000000 = 0x04000000 then some (.addi (fieldOf w 24 2) (fieldOf w 19 5) (fieldOf w 14 5) (fieldOf w 0 14)) else
  none

/-- Scalar words of major 0x02 (R123 to R126). -/
def scalarMajor02 (w : Nat) : Option Instr :=
  if w &&& 0xFC000000 = 0x08000000 then some (.andi (fieldOf w 24 2) (fieldOf w 19 5) (fieldOf w 14 5) (fieldOf w 0 14)) else
  none

/-- Scalar words of major 0x03 (R123 to R126). -/
def scalarMajor03 (w : Nat) : Option Instr :=
  if w &&& 0xFC000000 = 0x0C000000 then some (.ori (fieldOf w 24 2) (fieldOf w 19 5) (fieldOf w 14 5) (fieldOf w 0 14)) else
  none

/-- Scalar words of major 0x04 (R123 to R126). -/
def scalarMajor04 (w : Nat) : Option Instr :=
  if w &&& 0xFC000000 = 0x10000000 then some (.xori (fieldOf w 24 2) (fieldOf w 19 5) (fieldOf w 14 5) (fieldOf w 0 14)) else
  none

/-- Scalar words of major 0x05 (R123 to R126). -/
def scalarMajor05 (w : Nat) : Option Instr :=
  if w &&& 0xFC003FC0 = 0x14000000 then some (.slli (fieldOf w 24 2) (fieldOf w 19 5) (fieldOf w 14 5) (fieldOf w 0 6)) else
  if w &&& 0xFC003FC0 = 0x14001000 then some (.srli (fieldOf w 24 2) (fieldOf w 19 5) (fieldOf w 14 5) (fieldOf w 0 6)) else
  if w &&& 0xFC003FC0 = 0x14002000 then some (.srai (fieldOf w 24 2) (fieldOf w 19 5) (fieldOf w 14 5) (fieldOf w 0 6)) else
  none

/-- Scalar words of major 0x06 (R123 to R126). -/
def scalarMajor06 (w : Nat) : Option Instr :=
  if w &&& 0xFC000000 = 0x18000000 then some (.lhi (fieldOf w 24 2) (fieldOf w 19 5) (fieldOf w 0 19)) else
  none

/-- Scalar words of major 0x07 (R123 to R126). -/
def scalarMajor07 (w : Nat) : Option Instr :=
  if w &&& 0xFC000000 = 0x1C000000 then some (.addpc (fieldOf w 24 2) (fieldOf w 19 5) (fieldOf w 0 19)) else
  none

/-- Scalar words of major 0x08 (R123 to R126). -/
def scalarMajor08 (w : Nat) : Option Instr :=
  if w &&& 0xFC0001FF = 0x20000000 then some (.fadd (fieldOf w 24 2) (fieldOf w 19 5) (fieldOf w 14 5) (fieldOf w 9 5)) else
  if w &&& 0xFC0001FF = 0x20000001 then some (.fsub (fieldOf w 24 2) (fieldOf w 19 5) (fieldOf w 14 5) (fieldOf w 9 5)) else
  if w &&& 0xFC0001FF = 0x20000002 then some (.fmul (fieldOf w 24 2) (fieldOf w 19 5) (fieldOf w 14 5) (fieldOf w 9 5)) else
  if w &&& 0xFC0001FF = 0x20000003 then some (.fdiv (fieldOf w 24 2) (fieldOf w 19 5) (fieldOf w 14 5) (fieldOf w 9 5)) else
  if w &&& 0xFC003FFF = 0x20000004 then some (.fsqrt (fieldOf w 24 2) (fieldOf w 19 5) (fieldOf w 14 5)) else
  if w &&& 0xFC0001FF = 0x20000005 then some (.fmin (fieldOf w 24 2) (fieldOf w 19 5) (fieldOf w 14 5) (fieldOf w 9 5)) else
  if w &&& 0xFC0001FF = 0x20000006 then some (.fmax (fieldOf w 24 2) (fieldOf w 19 5) (fieldOf w 14 5) (fieldOf w 9 5)) else
  if w &&& 0xFC0001FF = 0x20000007 then some (.fsgnj (fieldOf w 24 2) (fieldOf w 19 5) (fieldOf w 14 5) (fieldOf w 9 5)) else
  if w &&& 0xFC0001FF = 0x20000008 then some (.fsgnn (fieldOf w 24 2) (fieldOf w 19 5) (fieldOf w 14 5) (fieldOf w 9 5)) else
  if w &&& 0xFC0001FF = 0x20000009 then some (.fsgnx (fieldOf w 24 2) (fieldOf w 19 5) (fieldOf w 14 5) (fieldOf w 9 5)) else
  if w &&& 0xFC003FFF = 0x2000000A then some (.fcvti (fieldOf w 24 2) (fieldOf w 19 5) (fieldOf w 14 5)) else
  if w &&& 0xFC003FFF = 0x2000000B then some (.icvtf (fieldOf w 24 2) (fieldOf w 19 5) (fieldOf w 14 5)) else
  if w &&& 0xFC003FFF = 0x2000000C then some (.ftobf (fieldOf w 24 2) (fieldOf w 19 5) (fieldOf w 14 5)) else
  if w &&& 0xFC003FFF = 0x2000000D then some (.bftof (fieldOf w 24 2) (fieldOf w 19 5) (fieldOf w 14 5)) else
  if w &&& 0xFC003FFF = 0x2000000E then some (.fclass (fieldOf w 24 2) (fieldOf w 19 5) (fieldOf w 14 5)) else
  none

/-- Scalar words of major 0x09 (R123 to R126). -/
def scalarMajor09 (w : Nat) : Option Instr :=
  if w &&& 0xFC00000F = 0x24000000 then some (.fma (fieldOf w 24 2) (fieldOf w 19 5) (fieldOf w 14 5) (fieldOf w 9 5) (fieldOf w 4 5)) else
  if w &&& 0xFC00000F = 0x24000001 then some (.fms (fieldOf w 24 2) (fieldOf w 19 5) (fieldOf w 14 5) (fieldOf w 9 5) (fieldOf w 4 5)) else
  if w &&& 0xFC00000F = 0x24000002 then some (.fnma (fieldOf w 24 2) (fieldOf w 19 5) (fieldOf w 14 5) (fieldOf w 9 5) (fieldOf w 4 5)) else
  if w &&& 0xFC00000F = 0x24000003 then some (.fnms (fieldOf w 24 2) (fieldOf w 19 5) (fieldOf w 14 5) (fieldOf w 9 5) (fieldOf w 4 5)) else
  none

/-- Scalar words of major 0x0A (R123 to R126). -/
def scalarMajor0A (w : Nat) : Option Instr :=
  if w &&& 0xFC00000F = 0x28000000 then some (.cmp (fieldOf w 24 2) (fieldOf w 20 4) (fieldOf w 16 4) (fieldOf w 11 5) (fieldOf w 6 5) (fieldOf w 4 2)) else
  none

/-- Scalar words of major 0x0B (R123 to R126). -/
def scalarMajor0B (w : Nat) : Option Instr :=
  if w &&& 0xFC000000 = 0x2C000000 then some (.cmpi (fieldOf w 24 2) (fieldOf w 20 4) (fieldOf w 16 4) (fieldOf w 11 5) (fieldOf w 9 2) (fieldOf w 0 9)) else
  none

/-- Scalar words of major 0x0C (R123 to R126). -/
def scalarMajor0C (w : Nat) : Option Instr :=
  if w &&& 0xFC00000F = 0x30000000 then some (.fcmp (fieldOf w 24 2) (fieldOf w 20 4) (fieldOf w 16 4) (fieldOf w 11 5) (fieldOf w 6 5) (fieldOf w 4 2)) else
  none

/-- Scalar words of major 0x0D (R123 to R126). -/
def scalarMajor0D (w : Nat) : Option Instr :=
  if w &&& 0xFC000FFF = 0x34000000 then some (.cand (fieldOf w 24 2) (fieldOf w 20 4) (fieldOf w 16 4) (fieldOf w 12 4)) else
  if w &&& 0xFC000FFF = 0x34000100 then some (.cor (fieldOf w 24 2) (fieldOf w 20 4) (fieldOf w 16 4) (fieldOf w 12 4)) else
  if w &&& 0xFC000FFF = 0x34000200 then some (.cxor (fieldOf w 24 2) (fieldOf w 20 4) (fieldOf w 16 4) (fieldOf w 12 4)) else
  if w &&& 0xFC000FFF = 0x34000300 then some (.candn (fieldOf w 24 2) (fieldOf w 20 4) (fieldOf w 16 4) (fieldOf w 12 4)) else
  if w &&& 0xFC00FFFF = 0x34000400 then some (.cnot (fieldOf w 24 2) (fieldOf w 20 4) (fieldOf w 16 4)) else
  if w &&& 0xFC0FFFFF = 0x34000500 then some (.ctrue (fieldOf w 24 2) (fieldOf w 20 4)) else
  if w &&& 0xFC0FFFFF = 0x34000600 then some (.cfalse (fieldOf w 24 2) (fieldOf w 20 4)) else
  if w &&& 0xFC00FFFF = 0x34000700 then some (.cmove (fieldOf w 24 2) (fieldOf w 20 4) (fieldOf w 16 4)) else
  if w &&& 0xFCFFFF07 = 0x34000800 then some (.csave (fieldOf w 24 2) (fieldOf w 3 5)) else
  if w &&& 0xFCFFFF07 = 0x34000900 then some (.cload (fieldOf w 24 2) (fieldOf w 3 5)) else
  none

/-- Scalar words of major 0x0E (R123 to R126). -/
def scalarMajor0E (w : Nat) : Option Instr :=
  if w &&& 0xFC000000 = 0x38000000 then some (.prep (fieldOf w 24 2) (fieldOf w 20 4) (fieldOf w 0 20)) else
  none

/-- Scalar words of major 0x0F (R123 to R126). -/
def scalarMajor0F (w : Nat) : Option Instr :=
  if w &&& 0xFC007FFF = 0x3C000000 then some (.prepr (fieldOf w 24 2) (fieldOf w 20 4) (fieldOf w 15 5)) else
  none

/-- Scalar words of major 0x10 (R123 to R126). -/
def scalarMajor10 (w : Nat) : Option Instr :=
  if w &&& 0xFC0FFFFF = 0x40000000 then some (.br (fieldOf w 24 2) (fieldOf w 20 4)) else
  none

/-- Scalar words of major 0x11 (R123 to R126). -/
def scalarMajor11 (w : Nat) : Option Instr :=
  if w &&& 0xFC0FFFFF = 0x44000000 then some (.brn (fieldOf w 24 2) (fieldOf w 20 4)) else
  none

/-- Scalar words of major 0x12 (R123 to R126). -/
def scalarMajor12 (w : Nat) : Option Instr :=
  if w &&& 0xFC0FFFFF = 0x48000000 then some (.jmp (fieldOf w 24 2) (fieldOf w 20 4)) else
  none

/-- Scalar words of major 0x13 (R123 to R126). -/
def scalarMajor13 (w : Nat) : Option Instr :=
  if w &&& 0xFC0FFFFF = 0x4C000000 then some (.call (fieldOf w 24 2) (fieldOf w 20 4)) else
  none

/-- Scalar words of major 0x14 (R123 to R126). -/
def scalarMajor14 (w : Nat) : Option Instr :=
  if w &&& 0xFCFFFFFF = 0x50000000 then some (.ret (fieldOf w 24 2)) else
  none

/-- Scalar words of major 0x15 (R123 to R126). -/
def scalarMajor15 (w : Nat) : Option Instr :=
  if w &&& 0xFC000000 = 0x54000000 then some (.loop (fieldOf w 24 2) (fieldOf w 22 2) (fieldOf w 17 5) (fieldOf w 0 17)) else
  none

/-- Scalar words of major 0x16 (R123 to R126). -/
def scalarMajor16 (w : Nat) : Option Instr :=
  if w &&& 0xFC000000 = 0x58000000 then some (.loopi (fieldOf w 24 2) (fieldOf w 22 2) (fieldOf w 12 10) (fieldOf w 0 12)) else
  none

/-- Scalar words of major 0x17 (R123 to R126). -/
def scalarMajor17 (w : Nat) : Option Instr :=
  if w &&& 0xFC003FFF = 0x5C000000 then some (.lprw (fieldOf w 24 2) (fieldOf w 19 5) (fieldOf w 17 2) (fieldOf w 15 2) (fieldOf w 14 1)) else
  none

/-- Scalar words of major 0x18 (R123 to R126). -/
def scalarMajor18 (w : Nat) : Option Instr :=
  if w &&& 0xFC000000 = 0x60000000 then some (.lda (fieldOf w 24 2) (fieldOf w 19 5) (fieldOf w 14 5) (fieldOf w 12 2) (fieldOf w 11 1) (fieldOf w 0 11)) else
  none

/-- Scalar words of major 0x19 (R123 to R126). -/
def scalarMajor19 (w : Nat) : Option Instr :=
  if w &&& 0xFC000000 = 0x64000000 then some (.ldau (fieldOf w 24 2) (fieldOf w 19 5) (fieldOf w 14 5) (fieldOf w 12 2) (fieldOf w 11 1) (fieldOf w 0 11)) else
  none

/-- Scalar words of major 0x1A (R123 to R126). -/
def scalarMajor1A (w : Nat) : Option Instr :=
  if w &&& 0xFC000000 = 0x68000000 then some (.sta (fieldOf w 24 2) (fieldOf w 19 5) (fieldOf w 14 5) (fieldOf w 12 2) (fieldOf w 11 1) (fieldOf w 0 11)) else
  none

/-- Scalar words of major 0x1B (R123 to R126). -/
def scalarMajor1B (w : Nat) : Option Instr :=
  if w &&& 0xFC000000 = 0x6C000000 then some (.ldg (fieldOf w 24 2) (fieldOf w 19 5) (fieldOf w 14 5) (fieldOf w 12 2) (fieldOf w 11 1) (fieldOf w 0 11)) else
  none

/-- Scalar words of major 0x1C (R123 to R126). -/
def scalarMajor1C (w : Nat) : Option Instr :=
  if w &&& 0xFC000000 = 0x70000000 then some (.ldgu (fieldOf w 24 2) (fieldOf w 19 5) (fieldOf w 14 5) (fieldOf w 12 2) (fieldOf w 11 1) (fieldOf w 0 11)) else
  none

/-- Scalar words of major 0x1D (R123 to R126). -/
def scalarMajor1D (w : Nat) : Option Instr :=
  if w &&& 0xFC000000 = 0x74000000 then some (.stg (fieldOf w 24 2) (fieldOf w 19 5) (fieldOf w 14 5) (fieldOf w 12 2) (fieldOf w 11 1) (fieldOf w 0 11)) else
  none

/-- Scalar words of major 0x1E (R123 to R126). -/
def scalarMajor1E (w : Nat) : Option Instr :=
  if w &&& 0xFCFF0000 = 0x78000000 then some (.enter (fieldOf w 24 2) (fieldOf w 0 16)) else
  none

/-- Scalar words of major 0x1F (R123 to R126). -/
def scalarMajor1F (w : Nat) : Option Instr :=
  if w &&& 0xFCFF0000 = 0x7C000000 then some (.leave (fieldOf w 24 2) (fieldOf w 0 16)) else
  none

/-- Scalar words of major 0x20 (R123 to R126). -/
def scalarMajor20 (w : Nat) : Option Instr :=
  if w &&& 0xFC0000FF = 0x80000000 then some (.amoadd (fieldOf w 24 2) (fieldOf w 19 5) (fieldOf w 14 5) (fieldOf w 9 5) (fieldOf w 8 1)) else
  if w &&& 0xFC0000FF = 0x80000010 then some (.amomin (fieldOf w 24 2) (fieldOf w 19 5) (fieldOf w 14 5) (fieldOf w 9 5) (fieldOf w 8 1)) else
  if w &&& 0xFC0000FF = 0x80000020 then some (.amomax (fieldOf w 24 2) (fieldOf w 19 5) (fieldOf w 14 5) (fieldOf w 9 5) (fieldOf w 8 1)) else
  if w &&& 0xFC0000FF = 0x80000030 then some (.amominu (fieldOf w 24 2) (fieldOf w 19 5) (fieldOf w 14 5) (fieldOf w 9 5) (fieldOf w 8 1)) else
  if w &&& 0xFC0000FF = 0x80000040 then some (.amomaxu (fieldOf w 24 2) (fieldOf w 19 5) (fieldOf w 14 5) (fieldOf w 9 5) (fieldOf w 8 1)) else
  if w &&& 0xFC0000FF = 0x80000050 then some (.amoand (fieldOf w 24 2) (fieldOf w 19 5) (fieldOf w 14 5) (fieldOf w 9 5) (fieldOf w 8 1)) else
  if w &&& 0xFC0000FF = 0x80000060 then some (.amoor (fieldOf w 24 2) (fieldOf w 19 5) (fieldOf w 14 5) (fieldOf w 9 5) (fieldOf w 8 1)) else
  if w &&& 0xFC0000FF = 0x80000070 then some (.amoxor (fieldOf w 24 2) (fieldOf w 19 5) (fieldOf w 14 5) (fieldOf w 9 5) (fieldOf w 8 1)) else
  if w &&& 0xFC0000FF = 0x80000080 then some (.amoswap (fieldOf w 24 2) (fieldOf w 19 5) (fieldOf w 14 5) (fieldOf w 9 5) (fieldOf w 8 1)) else
  if w &&& 0xFC0001FF = 0x80000090 then some (.amofadd (fieldOf w 24 2) (fieldOf w 19 5) (fieldOf w 14 5) (fieldOf w 9 5)) else
  none

/-- Scalar words of major 0x21 (R123 to R126). -/
def scalarMajor21 (w : Nat) : Option Instr :=
  if w &&& 0xFC00000E = 0x84000000 then some (.cas (fieldOf w 24 2) (fieldOf w 19 5) (fieldOf w 14 5) (fieldOf w 9 5) (fieldOf w 4 5) (fieldOf w 0 1)) else
  none

/-- Scalar words of major 0x22 (R123 to R126). -/
def scalarMajor22 (w : Nat) : Option Instr :=
  if w &&& 0xFC007FFF = 0x88000000 then some (.qpush (fieldOf w 24 2) (fieldOf w 19 5) (fieldOf w 15 4)) else
  if w &&& 0xFC007FFF = 0x88001000 then some (.qpop (fieldOf w 24 2) (fieldOf w 19 5) (fieldOf w 15 4)) else
  if w &&& 0xFC007FFF = 0x88002000 then some (.qpeek (fieldOf w 24 2) (fieldOf w 19 5) (fieldOf w 15 4)) else
  if w &&& 0xFC007FFF = 0x88003000 then some (.qcnt (fieldOf w 24 2) (fieldOf w 19 5) (fieldOf w 15 4)) else
  none

/-- Scalar words of major 0x23 (R123 to R126). -/
def scalarMajor23 (w : Nat) : Option Instr :=
  if w &&& 0xFC000000 = 0x8C000000 then some (.blk (fieldOf w 24 2) (fieldOf w 23 1) (fieldOf w 22 1) (fieldOf w 19 3) (fieldOf w 13 6) (fieldOf w 0 13)) else
  none

/-- Scalar words of major 0x24 (R123 to R126). -/
def scalarMajor24 (w : Nat) : Option Instr :=
  if w &&& 0xFC000000 = 0x90000000 then some (.wait (fieldOf w 24 2) (fieldOf w 0 24)) else
  none

/-- Scalar words of major 0x25 (R123 to R126). -/
def scalarMajor25 (w : Nat) : Option Instr :=
  if w &&& 0xFCFFFFFF = 0x94000000 then some (.anchor (fieldOf w 24 2)) else
  none

/-- Scalar words of major 0x26 (R123 to R126). -/
def scalarMajor26 (w : Nat) : Option Instr :=
  if w &&& 0xFCF07FFF = 0x98000000 then some (.tnow (fieldOf w 24 2) (fieldOf w 15 5)) else
  if w &&& 0xFCF07FFF = 0x98100000 then some (.bnow (fieldOf w 24 2) (fieldOf w 15 5)) else
  if w &&& 0xFCF07FFF = 0x98200000 then some (.btset (fieldOf w 24 2) (fieldOf w 15 5)) else
  none

/-- Scalar words of major 0x27 (R123 to R126). -/
def scalarMajor27 (w : Nat) : Option Instr :=
  if w &&& 0xFC07FFFF = 0x9C000000 then some (.cpy (fieldOf w 24 2) (fieldOf w 19 5)) else
  none

/-- Scalar words of major 0x28 (R123 to R126). -/
def scalarMajor28 (w : Nat) : Option Instr :=
  if w &&& 0xFC003FFF = 0xA0000000 then some (.cpys (fieldOf w 24 2) (fieldOf w 19 5) (fieldOf w 14 5)) else
  none

/-- Scalar words of major 0x29 (R123 to R126). -/
def scalarMajor29 (w : Nat) : Option Instr :=
  if w &&& 0xFC0FFFFF = 0xA4000000 then some (.drain (fieldOf w 24 2) (fieldOf w 20 4)) else
  none

/-- Scalar words of major 0x2A (R123 to R126). -/
def scalarMajor2A (w : Nat) : Option Instr :=
  if w &&& 0xFC007FFF = 0xA8000000 then some (.bkrun (fieldOf w 24 2) (fieldOf w 19 5) (fieldOf w 16 3) (fieldOf w 15 1)) else
  none

/-- Scalar words of major 0x2B (R123 to R126). -/
def scalarMajor2B (w : Nat) : Option Instr :=
  if w &&& 0xFC007FFF = 0xAC000000 then some (.bklode (fieldOf w 24 2) (fieldOf w 19 5) (fieldOf w 16 3) (fieldOf w 15 1)) else
  none

/-- Scalar words of major 0x2C (R123 to R126). -/
def scalarMajor2C (w : Nat) : Option Instr :=
  if w &&& 0xFC007FFF = 0xB0000000 then some (.bkcal (fieldOf w 24 2) (fieldOf w 19 5) (fieldOf w 16 3) (fieldOf w 15 1)) else
  none

/-- Scalar words of major 0x2D (R123 to R126). -/
def scalarMajor2D (w : Nat) : Option Instr :=
  if w &&& 0xFC003FFF = 0xB4000000 then some (.bkst (fieldOf w 24 2) (fieldOf w 19 5) (fieldOf w 14 5)) else
  none

/-- Scalar words of major 0x2E (R123 to R126). -/
def scalarMajor2E (w : Nat) : Option Instr :=
  if w &&& 0xFCF00FFF = 0xB8000000 then some (.mlease (fieldOf w 24 2) (fieldOf w 12 8)) else
  if w &&& 0xFCFFFFFF = 0xB8100000 then some (.mfree (fieldOf w 24 2)) else
  none

/-- Scalar words of major 0x2F (R123 to R126). -/
def scalarMajor2F (w : Nat) : Option Instr :=
  if w &&& 0xFCF1FFFF = 0xBC000000 then some (.scommit (fieldOf w 24 2) (fieldOf w 17 3)) else
  if w &&& 0xFCF1FFFF = 0xBC100000 then some (.sdrop (fieldOf w 24 2) (fieldOf w 17 3)) else
  none

/-- Scalar words of major 0x30 (R123 to R126). -/
def scalarMajor30 (w : Nat) : Option Instr :=
  if w &&& 0xFC0C0FFF = 0xC0000000 then some (.bar (fieldOf w 24 2) (fieldOf w 20 4) (fieldOf w 12 6)) else
  if w &&& 0xFC0C0FFF = 0xC0040000 then some (.bara (fieldOf w 24 2) (fieldOf w 20 4) (fieldOf w 12 6)) else
  if w &&& 0xFC0C0FFF = 0xC0080000 then some (.barw (fieldOf w 24 2) (fieldOf w 20 4) (fieldOf w 12 6)) else
  none

/-- Scalar words of major 0x31 (R123 to R126). -/
def scalarMajor31 (w : Nat) : Option Instr :=
  if w &&& 0xFC00FFFF = 0xC4000000 then some (.fence (fieldOf w 24 2) (fieldOf w 20 4) (fieldOf w 16 4)) else
  none

/-- Scalar words of major 0x32 (R123 to R126). -/
def scalarMajor32 (w : Nat) : Option Instr :=
  if w &&& 0xFC0001FF = 0xC8000000 then some (.waitm (fieldOf w 24 2) (fieldOf w 19 5) (fieldOf w 14 5) (fieldOf w 12 2) (fieldOf w 9 3)) else
  none

/-- Scalar words of major 0x33 (R123 to R126). -/
def scalarMajor33 (w : Nat) : Option Instr :=
  if w &&& 0xFCF001FF = 0xCC000000 then some (.ttset (fieldOf w 24 2) (fieldOf w 14 6) (fieldOf w 9 5)) else
  if w &&& 0xFCF03FFF = 0xCC100000 then some (.trdy (fieldOf w 24 2) (fieldOf w 14 6)) else
  if w &&& 0xFCFFC1FF = 0xCC200000 then some (.sbset (fieldOf w 24 2) (fieldOf w 9 5)) else
  if w &&& 0xFCF1C00F = 0xCC300000 then some (.sbarm (fieldOf w 24 2) (fieldOf w 17 3) (fieldOf w 9 5) (fieldOf w 4 5)) else
  if w &&& 0xFCF001FF = 0xCC400000 then some (.clx (fieldOf w 24 2) (fieldOf w 14 6) (fieldOf w 9 5)) else
  none

/-- Scalar words of major 0x34 (R123 to R126). -/
def scalarMajor34 (w : Nat) : Option Instr :=
  if w &&& 0xFCF07FFF = 0xD0000000 then some (.dsadmit (fieldOf w 24 2) (fieldOf w 15 5)) else
  if w &&& 0xFCFF83FF = 0xD0100000 then some (.dsemit (fieldOf w 24 2) (fieldOf w 10 5)) else
  if w &&& 0xFCF07FFF = 0xD0200000 then some (.dstrunc (fieldOf w 24 2) (fieldOf w 15 5)) else
  if w &&& 0xFCF07CFF = 0xD0300000 then some (.dscur (fieldOf w 24 2) (fieldOf w 15 5) (fieldOf w 8 2)) else
  none

/-- Scalar words of major 0x35 (R123 to R126). -/
def scalarMajor35 (w : Nat) : Option Instr :=
  if w &&& 0xFCFF801F = 0xD4000000 then some (.kvinv (fieldOf w 24 2) (fieldOf w 10 5) (fieldOf w 5 5)) else
  if w &&& 0xFCFF801F = 0xD4100000 then some (.kvaccept (fieldOf w 24 2) (fieldOf w 10 5) (fieldOf w 5 5)) else
  if w &&& 0xFCF07FFF = 0xD4200000 then some (.kvcommit (fieldOf w 24 2) (fieldOf w 15 5)) else
  none

/-- Scalar words of major 0x36 (R123 to R126). -/
def scalarMajor36 (w : Nat) : Option Instr :=
  if w &&& 0xFCFFFFFF = 0xD8000000 then some (.nop (fieldOf w 24 2)) else
  if w &&& 0xFCFF8000 = 0xD8100000 then some (.trap (fieldOf w 24 2) (fieldOf w 0 15)) else
  if w &&& 0xFCF00000 = 0xD8200000 then some (.gets (fieldOf w 24 2) (fieldOf w 15 5) (fieldOf w 4 11) (fieldOf w 0 4)) else
  if w &&& 0xFCF00000 = 0xD8300000 then some (.puts (fieldOf w 24 2) (fieldOf w 15 5) (fieldOf w 4 11) (fieldOf w 0 4)) else
  if w &&& 0xFCFF8000 = 0xD8400000 then some (.bkpt (fieldOf w 24 2) (fieldOf w 0 15)) else
  if w &&& 0xFCF07E00 = 0xD8500000 then some (.swap (fieldOf w 24 2) (fieldOf w 15 5) (fieldOf w 0 9)) else
  if w &&& 0xFCFFFE00 = 0xD8600000 then some (.halt (fieldOf w 24 2) (fieldOf w 0 9)) else
  none

/-- A scalar word by its major [31:26] (R124, R125). -/
def scalarRow (w : Nat) : Option Instr :=
  match bitsOf w 26 6 with
  | 0 => scalarMajor00 w
  | 1 => scalarMajor01 w
  | 2 => scalarMajor02 w
  | 3 => scalarMajor03 w
  | 4 => scalarMajor04 w
  | 5 => scalarMajor05 w
  | 6 => scalarMajor06 w
  | 7 => scalarMajor07 w
  | 8 => scalarMajor08 w
  | 9 => scalarMajor09 w
  | 10 => scalarMajor0A w
  | 11 => scalarMajor0B w
  | 12 => scalarMajor0C w
  | 13 => scalarMajor0D w
  | 14 => scalarMajor0E w
  | 15 => scalarMajor0F w
  | 16 => scalarMajor10 w
  | 17 => scalarMajor11 w
  | 18 => scalarMajor12 w
  | 19 => scalarMajor13 w
  | 20 => scalarMajor14 w
  | 21 => scalarMajor15 w
  | 22 => scalarMajor16 w
  | 23 => scalarMajor17 w
  | 24 => scalarMajor18 w
  | 25 => scalarMajor19 w
  | 26 => scalarMajor1A w
  | 27 => scalarMajor1B w
  | 28 => scalarMajor1C w
  | 29 => scalarMajor1D w
  | 30 => scalarMajor1E w
  | 31 => scalarMajor1F w
  | 32 => scalarMajor20 w
  | 33 => scalarMajor21 w
  | 34 => scalarMajor22 w
  | 35 => scalarMajor23 w
  | 36 => scalarMajor24 w
  | 37 => scalarMajor25 w
  | 38 => scalarMajor26 w
  | 39 => scalarMajor27 w
  | 40 => scalarMajor28 w
  | 41 => scalarMajor29 w
  | 42 => scalarMajor2A w
  | 43 => scalarMajor2B w
  | 44 => scalarMajor2C w
  | 45 => scalarMajor2D w
  | 46 => scalarMajor2E w
  | 47 => scalarMajor2F w
  | 48 => scalarMajor30 w
  | 49 => scalarMajor31 w
  | 50 => scalarMajor32 w
  | 51 => scalarMajor33 w
  | 52 => scalarMajor34 w
  | 53 => scalarMajor35 w
  | 54 => scalarMajor36 w
  | _ => none

/-- A Headframe custom-0 word (R139). -/
def hartRow (w : Nat) : Option Instr :=
  if w &&& 0xFE007FFF = 0x0000000B then some (.ktlbi (fieldOf w 20 5) (fieldOf w 15 5)) else
  if w &&& 0xFFFFFFFF = 0x0000100B then some (.ktlbf) else
  if w &&& 0xFFF07FFF = 0x0000200B then some (.kresume (fieldOf w 15 5)) else
  none

/-- The operand field at bit `lo` of a vector word (R128, R129). -/
def vopOf (w lo : Nat) : VOp := { reg := fieldOf w (lo + 3) 11, stride := fieldOf w lo 3 }

/-- The fields of a vector word (R128). -/
def vwordOf (w : Nat) : VWord :=
  { ty := fieldOf w 84 4, mask := fieldOf w 80 4, zero := fieldOf w 79 1, rnd := fieldOf w 76 3, rep := fieldOf w 70 6,
    gap := fieldOf w 66 4, d := vopOf w 52, a := vopOf w 38, b := vopOf w 24, ext := fieldOf w 0 24 }

/-- A vector word by its opcode [95:88] (R131). -/
def vectorRow (w : Nat) : Option Instr :=
  match bitsOf w 88 8 with
  | 0x00 => some (.vmov (vwordOf w))
  | 0x01 => some (.vadd (vwordOf w))
  | 0x02 => some (.vsub (vwordOf w))
  | 0x03 => some (.vmul (vwordOf w))
  | 0x04 => some (.vfma (vwordOf w))
  | 0x05 => some (.vfms (vwordOf w))
  | 0x06 => some (.vmin (vwordOf w))
  | 0x07 => some (.vmax (vwordOf w))
  | 0x08 => some (.vabs (vwordOf w))
  | 0x09 => some (.vneg (vwordOf w))
  | 0x0A => some (.vadds (vwordOf w))
  | 0x0B => some (.vsubs (vwordOf w))
  | 0x0C => some (.vmulh (vwordOf w))
  | 0x10 => some (.vand (vwordOf w))
  | 0x11 => some (.vor (vwordOf w))
  | 0x12 => some (.vxor (vwordOf w))
  | 0x13 => some (.vnot (vwordOf w))
  | 0x0D => some (.vshl (vwordOf w))
  | 0x0E => some (.vshr (vwordOf w))
  | 0x0F => some (.vsar (vwordOf w))
  | 0x14 => some (.vsel (vwordOf w))
  | 0x15 => some (.vcmp (vwordOf w))
  | 0x16 => some (.vclamp (vwordOf w))
  | 0x17 => some (.vdot4 (vwordOf w))
  | 0x18 => some (.vtacc (vwordOf w))
  | 0x20 => some (.vrsum (vwordOf w))
  | 0x21 => some (.vrmax (vwordOf w))
  | 0x22 => some (.vrmin (vwordOf w))
  | 0x23 => some (.vrsums (vwordOf w))
  | 0x28 => some (.vscan (vwordOf w))
  | 0x24 => some (.vpermb (vwordOf w))
  | 0x25 => some (.vpermw (vwordOf w))
  | 0x26 => some (.vslide (vwordOf w))
  | 0x27 => some (.vbcast (vwordOf w))
  | 0x30 => some (.vcvt (vwordOf w))
  | 0x31 => some (.vqmx (vwordOf w))
  | 0x32 => some (.vdqmx (vwordOf w))
  | 0x33 => some (.vunt5 (vwordOf w))
  | 0x34 => some (.vnbps (vwordOf w))
  | 0x35 => some (.vnbpj (vwordOf w))
  | 0x40 => some (.vmset (vwordOf w))
  | 0x41 => some (.vmlog (vwordOf w))
  | 0x42 => some (.vmcnt (vwordOf w))
  | 0x43 => some (.vmfirst (vwordOf w))
  | 0x44 => some (.vmrow (vwordOf w))
  | 0x45 => some (.vmpos (vwordOf w))
  | 0x60 => some (.vshort (vwordOf w))
  | 0x61 => some (.vsample (vwordOf w))
  | 0x62 => some (.vrng (vwordOf w))
  | 0x70 => some (.vexp2 (vwordOf w))
  | 0x71 => some (.vlog2 (vwordOf w))
  | 0x72 => some (.vrcp (vwordOf w))
  | 0x73 => some (.vrsq (vwordOf w))
  | 0x50 => some (.vldc (vwordOf w))
  | 0x51 => some (.vstc (vwordOf w))
  | 0x52 => some (.vbld (vwordOf w))
  | 0x53 => some (.vbst (vwordOf w))
  | 0x54 => some (.vldg (vwordOf w))
  | 0x55 => some (.vstg (vwordOf w))
  | 0x56 => some (.vgth (vwordOf w))
  | 0x57 => some (.vsct (vwordOf w))
  | 0x58 => some (.vaset (vwordOf w))
  | 0x59 => some (.vaadd (vwordOf w))
  | 0xF0 => some (.vend (vwordOf w))
  | 0xF1 => some (.vnop (vwordOf w))
  | 0xF2 => some (if bitsOf w 19 1 = 0 then .vtileWait (vwordOf w) else .vtileMark (vwordOf w))
  | _ => none

/-- The fields of a matrix word (R132). -/
def mwordOf (w : Nat) : MWord :=
  { gap := fieldOf w 178 6, spec := fieldOf w 177 1, tag := fieldOf w 174 3, tile := fieldOf w 170 4, body := fieldOf w 0 170 }

/-- A matrix word by its opcode [191:184] (R132). -/
def matrixRow (w : Nat) : Option Instr :=
  match bitsOf w 184 8 with
  | 0x01 => some (.mlds (mwordOf w))
  | 0x02 => some (.mswap (mwordOf w))
  | 0x03 => some (.mstep (mwordOf w))
  | 0x04 => some (.mzero (mwordOf w))
  | 0x05 => some (.mdrain (mwordOf w))
  | 0x06 => some (.mflag (mwordOf w))
  | 0xF0 => some (.mend (mwordOf w))
  | 0xF1 => some (.mnop (mwordOf w))
  | _ => none

/-- The reserved values of a row are refused by name. -/
def checked : Option Instr → Except DecodeError Instr
  | none => .error .unassigned
  | some i => if i.wf then .ok i else .error .reserved

/-- Decode a 32-bit scalar word. -/
def decodeScalar (w : Nat) : Except DecodeError Instr := checked (scalarRow w)

/-- Decode a 96-bit vector word. -/
def decodeVector (w : Nat) : Except DecodeError Instr := checked (vectorRow w)

/-- Decode a 192-bit matrix word. -/
def decodeMatrix (w : Nat) : Except DecodeError Instr := checked (matrixRow w)

/-- Decode a bank transport move (R137): every 32-bit word is one; its ports are checked when it issues. -/
def decodeMove (w : Nat) : Instr := .mv (fieldOf w 24 8) (fieldOf w 16 8) (fieldOf w 0 16)

/-- Decode a Headframe word. -/
def decodeHart (w : Nat) : Except DecodeError Instr := checked (hartRow w)

/-- The instruction whose bits are `w`, numbered as the opcode table numbers them. With 32 bits a word that fits a Headframe row is
read as one, because that row fixes more bits than any scalar row it overlaps; every other 32-bit word is a scalar word, a 96-bit
word a vector word, a 192-bit word a matrix word. -/
def decodeTableWord (nbits w : Nat) : Option Instr :=
  if nbits = 32 then
    match decodeHart w with
    | .ok i => some i
    | .error _ => (decodeScalar w).toOption
  else if nbits = 96 then (decodeVector w).toOption
  else if nbits = 192 then (decodeMatrix w).toOption
  else none

/-- An operand field at bit `lo` (R128). -/
def putVOp (o : VOp) (lo : Nat) : Nat := putField o.reg (lo + 3) + putField o.stride lo

/-- The vector word with opcode `op` (R128). -/
def putVWord (op : Nat) (v : VWord) : Nat :=
  op <<< 88 + putField v.ty 84 + putField v.mask 80 + putField v.zero 79 + putField v.rnd 76 + putField v.rep 70
    + putField v.gap 66 + putVOp v.d 52 + putVOp v.a 38 + putVOp v.b 24 + putField v.ext 0

/-- The matrix word with opcode `op` (R132). -/
def putMWord (op : Nat) (w : MWord) : Nat :=
  op <<< 184 + putField w.gap 178 + putField w.spec 177 + putField w.tag 174 + putField w.tile 170 + putField w.body 0

/-- The number of bits and the word of an instruction; none for a step that is no word (R123 to R139). -/
def encode : Instr → Option (Nat × Nat)
  | .add g d a b => some (32, 0x00000000 + putField g 24 + putField d 19 + putField a 14 + putField b 9)
  | .sub g d a b => some (32, 0x00000001 + putField g 24 + putField d 19 + putField a 14 + putField b 9)
  | .and g d a b => some (32, 0x00000002 + putField g 24 + putField d 19 + putField a 14 + putField b 9)
  | .or g d a b => some (32, 0x00000003 + putField g 24 + putField d 19 + putField a 14 + putField b 9)
  | .xor g d a b => some (32, 0x00000004 + putField g 24 + putField d 19 + putField a 14 + putField b 9)
  | .sll g d a b => some (32, 0x00000005 + putField g 24 + putField d 19 + putField a 14 + putField b 9)
  | .srl g d a b => some (32, 0x00000006 + putField g 24 + putField d 19 + putField a 14 + putField b 9)
  | .sra g d a b => some (32, 0x00000007 + putField g 24 + putField d 19 + putField a 14 + putField b 9)
  | .mul g d a b => some (32, 0x00000008 + putField g 24 + putField d 19 + putField a 14 + putField b 9)
  | .mulh g d a b => some (32, 0x00000009 + putField g 24 + putField d 19 + putField a 14 + putField b 9)
  | .mulhu g d a b => some (32, 0x0000000A + putField g 24 + putField d 19 + putField a 14 + putField b 9)
  | .div g d a b => some (32, 0x0000000B + putField g 24 + putField d 19 + putField a 14 + putField b 9)
  | .divu g d a b => some (32, 0x0000000C + putField g 24 + putField d 19 + putField a 14 + putField b 9)
  | .rem g d a b => some (32, 0x0000000D + putField g 24 + putField d 19 + putField a 14 + putField b 9)
  | .remu g d a b => some (32, 0x0000000E + putField g 24 + putField d 19 + putField a 14 + putField b 9)
  | .min g d a b => some (32, 0x0000000F + putField g 24 + putField d 19 + putField a 14 + putField b 9)
  | .max g d a b => some (32, 0x00000010 + putField g 24 + putField d 19 + putField a 14 + putField b 9)
  | .minu g d a b => some (32, 0x00000011 + putField g 24 + putField d 19 + putField a 14 + putField b 9)
  | .maxu g d a b => some (32, 0x00000012 + putField g 24 + putField d 19 + putField a 14 + putField b 9)
  | .clz g d a => some (32, 0x00000013 + putField g 24 + putField d 19 + putField a 14)
  | .ctz g d a => some (32, 0x00000014 + putField g 24 + putField d 19 + putField a 14)
  | .popc g d a => some (32, 0x00000015 + putField g 24 + putField d 19 + putField a 14)
  | .addw g d a b => some (32, 0x00000016 + putField g 24 + putField d 19 + putField a 14 + putField b 9)
  | .subw g d a b => some (32, 0x00000017 + putField g 24 + putField d 19 + putField a 14 + putField b 9)
  | .andn g d a b => some (32, 0x00000018 + putField g 24 + putField d 19 + putField a 14 + putField b 9)
  | .addi g d a i => some (32, 0x04000000 + putField g 24 + putField d 19 + putField a 14 + putField i 0)
  | .andi g d a i => some (32, 0x08000000 + putField g 24 + putField d 19 + putField a 14 + putField i 0)
  | .ori g d a i => some (32, 0x0C000000 + putField g 24 + putField d 19 + putField a 14 + putField i 0)
  | .xori g d a i => some (32, 0x10000000 + putField g 24 + putField d 19 + putField a 14 + putField i 0)
  | .slli g d a n => some (32, 0x14000000 + putField g 24 + putField d 19 + putField a 14 + putField n 0)
  | .srli g d a n => some (32, 0x14001000 + putField g 24 + putField d 19 + putField a 14 + putField n 0)
  | .srai g d a n => some (32, 0x14002000 + putField g 24 + putField d 19 + putField a 14 + putField n 0)
  | .lhi g d i => some (32, 0x18000000 + putField g 24 + putField d 19 + putField i 0)
  | .addpc g d i => some (32, 0x1C000000 + putField g 24 + putField d 19 + putField i 0)
  | .fadd g d a b => some (32, 0x20000000 + putField g 24 + putField d 19 + putField a 14 + putField b 9)
  | .fsub g d a b => some (32, 0x20000001 + putField g 24 + putField d 19 + putField a 14 + putField b 9)
  | .fmul g d a b => some (32, 0x20000002 + putField g 24 + putField d 19 + putField a 14 + putField b 9)
  | .fdiv g d a b => some (32, 0x20000003 + putField g 24 + putField d 19 + putField a 14 + putField b 9)
  | .fsqrt g d a => some (32, 0x20000004 + putField g 24 + putField d 19 + putField a 14)
  | .fmin g d a b => some (32, 0x20000005 + putField g 24 + putField d 19 + putField a 14 + putField b 9)
  | .fmax g d a b => some (32, 0x20000006 + putField g 24 + putField d 19 + putField a 14 + putField b 9)
  | .fsgnj g d a b => some (32, 0x20000007 + putField g 24 + putField d 19 + putField a 14 + putField b 9)
  | .fsgnn g d a b => some (32, 0x20000008 + putField g 24 + putField d 19 + putField a 14 + putField b 9)
  | .fsgnx g d a b => some (32, 0x20000009 + putField g 24 + putField d 19 + putField a 14 + putField b 9)
  | .fcvti g d a => some (32, 0x2000000A + putField g 24 + putField d 19 + putField a 14)
  | .icvtf g d a => some (32, 0x2000000B + putField g 24 + putField d 19 + putField a 14)
  | .ftobf g d a => some (32, 0x2000000C + putField g 24 + putField d 19 + putField a 14)
  | .bftof g d a => some (32, 0x2000000D + putField g 24 + putField d 19 + putField a 14)
  | .fclass g d a => some (32, 0x2000000E + putField g 24 + putField d 19 + putField a 14)
  | .fma g d a b c => some (32, 0x24000000 + putField g 24 + putField d 19 + putField a 14 + putField b 9 + putField c 4)
  | .fms g d a b c => some (32, 0x24000001 + putField g 24 + putField d 19 + putField a 14 + putField b 9 + putField c 4)
  | .fnma g d a b c => some (32, 0x24000002 + putField g 24 + putField d 19 + putField a 14 + putField b 9 + putField c 4)
  | .fnms g d a b c => some (32, 0x24000003 + putField g 24 + putField d 19 + putField a 14 + putField b 9 + putField c 4)
  | .cmp g b c a r m => some (32, 0x28000000 + putField g 24 + putField b 20 + putField c 16 + putField a 11 + putField r 6 + putField m 4)
  | .cmpi g b c a m i => some (32, 0x2C000000 + putField g 24 + putField b 20 + putField c 16 + putField a 11 + putField m 9 + putField i 0)
  | .fcmp g b c a r m => some (32, 0x30000000 + putField g 24 + putField b 20 + putField c 16 + putField a 11 + putField r 6 + putField m 4)
  | .cand g b x y => some (32, 0x34000000 + putField g 24 + putField b 20 + putField x 16 + putField y 12)
  | .cor g b x y => some (32, 0x34000100 + putField g 24 + putField b 20 + putField x 16 + putField y 12)
  | .cxor g b x y => some (32, 0x34000200 + putField g 24 + putField b 20 + putField x 16 + putField y 12)
  | .candn g b x y => some (32, 0x34000300 + putField g 24 + putField b 20 + putField x 16 + putField y 12)
  | .cnot g b x => some (32, 0x34000400 + putField g 24 + putField b 20 + putField x 16)
  | .ctrue g b => some (32, 0x34000500 + putField g 24 + putField b 20)
  | .cfalse g b => some (32, 0x34000600 + putField g 24 + putField b 20)
  | .cmove g b x => some (32, 0x34000700 + putField g 24 + putField b 20 + putField x 16)
  | .csave g d => some (32, 0x34000800 + putField g 24 + putField d 3)
  | .cload g a => some (32, 0x34000900 + putField g 24 + putField a 3)
  | .prep g b o => some (32, 0x38000000 + putField g 24 + putField b 20 + putField o 0)
  | .prepr g b a => some (32, 0x3C000000 + putField g 24 + putField b 20 + putField a 15)
  | .br g b => some (32, 0x40000000 + putField g 24 + putField b 20)
  | .brn g b => some (32, 0x44000000 + putField g 24 + putField b 20)
  | .jmp g b => some (32, 0x48000000 + putField g 24 + putField b 20)
  | .call g b => some (32, 0x4C000000 + putField g 24 + putField b 20)
  | .ret g => some (32, 0x50000000 + putField g 24)
  | .loop g p c l => some (32, 0x54000000 + putField g 24 + putField p 22 + putField c 17 + putField l 0)
  | .loopi g p n l => some (32, 0x58000000 + putField g 24 + putField p 22 + putField n 12 + putField l 0)
  | .lprw g r p t w => some (32, 0x5C000000 + putField g 24 + putField r 19 + putField p 17 + putField t 15 + putField w 14)
  | .lda g d a s p i => some (32, 0x60000000 + putField g 24 + putField d 19 + putField a 14 + putField s 12 + putField p 11 + putField i 0)
  | .ldau g d a s p i => some (32, 0x64000000 + putField g 24 + putField d 19 + putField a 14 + putField s 12 + putField p 11 + putField i 0)
  | .sta g r a s p i => some (32, 0x68000000 + putField g 24 + putField r 19 + putField a 14 + putField s 12 + putField p 11 + putField i 0)
  | .ldg g d a s p i => some (32, 0x6C000000 + putField g 24 + putField d 19 + putField a 14 + putField s 12 + putField p 11 + putField i 0)
  | .ldgu g d a s p i => some (32, 0x70000000 + putField g 24 + putField d 19 + putField a 14 + putField s 12 + putField p 11 + putField i 0)
  | .stg g r a s p i => some (32, 0x74000000 + putField g 24 + putField r 19 + putField a 14 + putField s 12 + putField p 11 + putField i 0)
  | .enter g n => some (32, 0x78000000 + putField g 24 + putField n 0)
  | .leave g n => some (32, 0x7C000000 + putField g 24 + putField n 0)
  | .amoadd g d a b s => some (32, 0x80000000 + putField g 24 + putField d 19 + putField a 14 + putField b 9 + putField s 8)
  | .amomin g d a b s => some (32, 0x80000010 + putField g 24 + putField d 19 + putField a 14 + putField b 9 + putField s 8)
  | .amomax g d a b s => some (32, 0x80000020 + putField g 24 + putField d 19 + putField a 14 + putField b 9 + putField s 8)
  | .amominu g d a b s => some (32, 0x80000030 + putField g 24 + putField d 19 + putField a 14 + putField b 9 + putField s 8)
  | .amomaxu g d a b s => some (32, 0x80000040 + putField g 24 + putField d 19 + putField a 14 + putField b 9 + putField s 8)
  | .amoand g d a b s => some (32, 0x80000050 + putField g 24 + putField d 19 + putField a 14 + putField b 9 + putField s 8)
  | .amoor g d a b s => some (32, 0x80000060 + putField g 24 + putField d 19 + putField a 14 + putField b 9 + putField s 8)
  | .amoxor g d a b s => some (32, 0x80000070 + putField g 24 + putField d 19 + putField a 14 + putField b 9 + putField s 8)
  | .amoswap g d a b s => some (32, 0x80000080 + putField g 24 + putField d 19 + putField a 14 + putField b 9 + putField s 8)
  | .amofadd g d a b => some (32, 0x80000090 + putField g 24 + putField d 19 + putField a 14 + putField b 9)
  | .cas g d a b c s => some (32, 0x84000000 + putField g 24 + putField d 19 + putField a 14 + putField b 9 + putField c 4 + putField s 0)
  | .qpush g r q => some (32, 0x88000000 + putField g 24 + putField r 19 + putField q 15)
  | .qpop g r q => some (32, 0x88001000 + putField g 24 + putField r 19 + putField q 15)
  | .qpeek g r q => some (32, 0x88002000 + putField g 24 + putField r 19 + putField q 15)
  | .qcnt g r q => some (32, 0x88003000 + putField g 24 + putField r 19 + putField q 15)
  | .blk g q s t n a => some (32, 0x8C000000 + putField g 24 + putField q 23 + putField s 22 + putField t 19 + putField n 13 + putField a 0)
  | .wait g n => some (32, 0x90000000 + putField g 24 + putField n 0)
  | .anchor g => some (32, 0x94000000 + putField g 24)
  | .tnow g d => some (32, 0x98000000 + putField g 24 + putField d 15)
  | .bnow g d => some (32, 0x98100000 + putField g 24 + putField d 15)
  | .btset g a => some (32, 0x98200000 + putField g 24 + putField a 15)
  | .cpy g a => some (32, 0x9C000000 + putField g 24 + putField a 19)
  | .cpys g a b => some (32, 0xA0000000 + putField g 24 + putField a 19 + putField b 14)
  | .drain g p => some (32, 0xA4000000 + putField g 24 + putField p 20)
  | .bkrun g a k p => some (32, 0xA8000000 + putField g 24 + putField a 19 + putField k 16 + putField p 15)
  | .bklode g a k p => some (32, 0xAC000000 + putField g 24 + putField a 19 + putField k 16 + putField p 15)
  | .bkcal g a k p => some (32, 0xB0000000 + putField g 24 + putField a 19 + putField k 16 + putField p 15)
  | .bkst g d b => some (32, 0xB4000000 + putField g 24 + putField d 19 + putField b 14)
  | .mlease g n => some (32, 0xB8000000 + putField g 24 + putField n 12)
  | .mfree g => some (32, 0xB8100000 + putField g 24)
  | .scommit g t => some (32, 0xBC000000 + putField g 24 + putField t 17)
  | .sdrop g t => some (32, 0xBC100000 + putField g 24 + putField t 17)
  | .bar g d n => some (32, 0xC0000000 + putField g 24 + putField d 20 + putField n 12)
  | .bara g d n => some (32, 0xC0040000 + putField g 24 + putField d 20 + putField n 12)
  | .barw g d n => some (32, 0xC0080000 + putField g 24 + putField d 20 + putField n 12)
  | .fence g d c => some (32, 0xC4000000 + putField g 24 + putField d 20 + putField c 16)
  | .waitm g a b s c => some (32, 0xC8000000 + putField g 24 + putField a 19 + putField b 14 + putField s 12 + putField c 9)
  | .ttset g e a => some (32, 0xCC000000 + putField g 24 + putField e 14 + putField a 9)
  | .trdy g e => some (32, 0xCC100000 + putField g 24 + putField e 14)
  | .sbset g a => some (32, 0xCC200000 + putField g 24 + putField a 9)
  | .sbarm g t a b => some (32, 0xCC300000 + putField g 24 + putField t 17 + putField a 9 + putField b 4)
  | .clx g e a => some (32, 0xCC400000 + putField g 24 + putField e 14 + putField a 9)
  | .dsadmit g d => some (32, 0xD0000000 + putField g 24 + putField d 15)
  | .dsemit g a => some (32, 0xD0100000 + putField g 24 + putField a 10)
  | .dstrunc g d => some (32, 0xD0200000 + putField g 24 + putField d 15)
  | .dscur g d c => some (32, 0xD0300000 + putField g 24 + putField d 15 + putField c 8)
  | .kvinv g a b => some (32, 0xD4000000 + putField g 24 + putField a 10 + putField b 5)
  | .kvaccept g a b => some (32, 0xD4100000 + putField g 24 + putField a 10 + putField b 5)
  | .kvcommit g d => some (32, 0xD4200000 + putField g 24 + putField d 15)
  | .nop g => some (32, 0xD8000000 + putField g 24)
  | .trap g n => some (32, 0xD8100000 + putField g 24 + putField n 0)
  | .gets g d s l => some (32, 0xD8200000 + putField g 24 + putField d 15 + putField s 4 + putField l 0)
  | .puts g r s l => some (32, 0xD8300000 + putField g 24 + putField r 15 + putField s 4 + putField l 0)
  | .bkpt g n => some (32, 0xD8400000 + putField g 24 + putField n 0)
  | .swap g a m => some (32, 0xD8500000 + putField g 24 + putField a 15 + putField m 0)
  | .halt g m => some (32, 0xD8600000 + putField g 24 + putField m 0)
  | .ktlbi b a => some (32, 0x0000000B + putField b 20 + putField a 15)
  | .ktlbf => some (32, 0x0000100B)
  | .kresume a => some (32, 0x0000200B + putField a 15)
  | .mv src dst imm => some (32, putField src 24 + putField dst 16 + putField imm 0)
  | .vmov v => some (96, putVWord 0x00 v)
  | .vadd v => some (96, putVWord 0x01 v)
  | .vsub v => some (96, putVWord 0x02 v)
  | .vmul v => some (96, putVWord 0x03 v)
  | .vfma v => some (96, putVWord 0x04 v)
  | .vfms v => some (96, putVWord 0x05 v)
  | .vmin v => some (96, putVWord 0x06 v)
  | .vmax v => some (96, putVWord 0x07 v)
  | .vabs v => some (96, putVWord 0x08 v)
  | .vneg v => some (96, putVWord 0x09 v)
  | .vadds v => some (96, putVWord 0x0A v)
  | .vsubs v => some (96, putVWord 0x0B v)
  | .vmulh v => some (96, putVWord 0x0C v)
  | .vand v => some (96, putVWord 0x10 v)
  | .vor v => some (96, putVWord 0x11 v)
  | .vxor v => some (96, putVWord 0x12 v)
  | .vnot v => some (96, putVWord 0x13 v)
  | .vshl v => some (96, putVWord 0x0D v)
  | .vshr v => some (96, putVWord 0x0E v)
  | .vsar v => some (96, putVWord 0x0F v)
  | .vsel v => some (96, putVWord 0x14 v)
  | .vcmp v => some (96, putVWord 0x15 v)
  | .vclamp v => some (96, putVWord 0x16 v)
  | .vdot4 v => some (96, putVWord 0x17 v)
  | .vtacc v => some (96, putVWord 0x18 v)
  | .vrsum v => some (96, putVWord 0x20 v)
  | .vrmax v => some (96, putVWord 0x21 v)
  | .vrmin v => some (96, putVWord 0x22 v)
  | .vrsums v => some (96, putVWord 0x23 v)
  | .vscan v => some (96, putVWord 0x28 v)
  | .vpermb v => some (96, putVWord 0x24 v)
  | .vpermw v => some (96, putVWord 0x25 v)
  | .vslide v => some (96, putVWord 0x26 v)
  | .vbcast v => some (96, putVWord 0x27 v)
  | .vcvt v => some (96, putVWord 0x30 v)
  | .vqmx v => some (96, putVWord 0x31 v)
  | .vdqmx v => some (96, putVWord 0x32 v)
  | .vunt5 v => some (96, putVWord 0x33 v)
  | .vnbps v => some (96, putVWord 0x34 v)
  | .vnbpj v => some (96, putVWord 0x35 v)
  | .vmset v => some (96, putVWord 0x40 v)
  | .vmlog v => some (96, putVWord 0x41 v)
  | .vmcnt v => some (96, putVWord 0x42 v)
  | .vmfirst v => some (96, putVWord 0x43 v)
  | .vmrow v => some (96, putVWord 0x44 v)
  | .vmpos v => some (96, putVWord 0x45 v)
  | .vshort v => some (96, putVWord 0x60 v)
  | .vsample v => some (96, putVWord 0x61 v)
  | .vrng v => some (96, putVWord 0x62 v)
  | .vexp2 v => some (96, putVWord 0x70 v)
  | .vlog2 v => some (96, putVWord 0x71 v)
  | .vrcp v => some (96, putVWord 0x72 v)
  | .vrsq v => some (96, putVWord 0x73 v)
  | .vldc v => some (96, putVWord 0x50 v)
  | .vstc v => some (96, putVWord 0x51 v)
  | .vbld v => some (96, putVWord 0x52 v)
  | .vbst v => some (96, putVWord 0x53 v)
  | .vldg v => some (96, putVWord 0x54 v)
  | .vstg v => some (96, putVWord 0x55 v)
  | .vgth v => some (96, putVWord 0x56 v)
  | .vsct v => some (96, putVWord 0x57 v)
  | .vaset v => some (96, putVWord 0x58 v)
  | .vaadd v => some (96, putVWord 0x59 v)
  | .vend v => some (96, putVWord 0xF0 v)
  | .vnop v => some (96, putVWord 0xF1 v)
  | .vtileWait v => some (96, putVWord 0xF2 v)
  | .vtileMark v => some (96, putVWord 0xF2 v)
  | .mlds w => some (192, putMWord 0x01 w)
  | .mswap w => some (192, putMWord 0x02 w)
  | .mstep w => some (192, putMWord 0x03 w)
  | .mzero w => some (192, putMWord 0x04 w)
  | .mdrain w => some (192, putMWord 0x05 w)
  | .mflag w => some (192, putMWord 0x06 w)
  | .mend w => some (192, putMWord 0xF0 w)
  | .mnop w => some (192, putMWord 0xF1 w)
  | _ => none

end Sys2Proof
end

