-- ==== Sys2Proof/Machine/Mem.lean ====
section
/-! DEFINITION. Memory spaces as canonical lists of (address, byte) pairs, little-endian accesses over them (R5), and keyed tables of anything else. An unlisted address reads as 0 in every space (log 1). -/

namespace Sys2Proof.Machine

/-- A memory space: addresses strictly rising, no entry equal to what an unlisted address reads as. -/
abbrev Memory := List Host.Cell

/-- What an address that nothing has written reads as: the spaces A, C and S are zeroed at binding, W and B when
another process takes the core (R261); for LPDDR the manual gives no contents (DESIGN CHOICE, log 1). -/
def Memory.blank : Byte := 0#8

/-- The canonical form. -/
def Memory.wf (m : Memory) : Bool :=
  m.all (fun c => c.2 != Memory.blank) && decide (m.Pairwise (fun a b => a.1 < b.1))

/-- One byte of memory. -/
def Memory.read : Memory → Nat → Byte
  | [], _ => Memory.blank
  | c :: m, a => if c.1 = a then c.2 else if a < c.1 then Memory.blank else Memory.read m a

/-- Put a cell in front unless it is blank. -/
def Memory.consCell (a : Nat) (v : Byte) (m : Memory) : Memory :=
  if v = Memory.blank then m else (a, v) :: m

/-- Write one byte, keeping the canonical form. -/
def Memory.write : Memory → Nat → Byte → Memory
  | [], a, v => Memory.consCell a v []
  | c :: m, a, v =>
    if c.1 = a then Memory.consCell a v m
    else if a < c.1 then Memory.consCell a v (c :: m)
    else c :: Memory.write m a v

/-- `n` bytes from `a` upward. -/
def Memory.readBytes (m : Memory) (a : Nat) : Nat → List Byte
  | 0 => []
  | n + 1 => m.read a :: Memory.readBytes m (a + 1) n

/-- Bytes written from `a` upward. -/
def Memory.writeBytes (m : Memory) (a : Nat) : List Byte → Memory
  | [] => m
  | b :: bs => Memory.writeBytes (m.write a b) (a + 1) bs

/-- As `writeBytes`, but only where `sel` says so; an empty `sel` selects every byte (R209, R317). -/
def Memory.writeSel (m : Memory) (a : Nat) : List Byte → List Bool → Memory
  | [], _ => m
  | b :: bs, [] => Memory.writeSel (m.write a b) (a + 1) bs []
  | b :: bs, s :: ss => Memory.writeSel (if s then m.write a b else m) (a + 1) bs ss

/-- Remove every byte from `a` to `a + n - 1`: they read blank afterwards. -/
def Memory.clearRange (m : Memory) (a n : Nat) : Memory :=
  m.filter (fun c => c.1 < a || a + n ≤ c.1)

/-- The cells of a range, counted from its foot. -/
def Memory.slice (m : Memory) (a n : Nat) : Memory := (m.filter (fun c => a ≤ c.1 && decide (c.1 < a + n))).map (fun c => (c.1 - a, c.2))

/-- Write the cells of an image, which counts from `a`. -/
def Memory.putCells (m : Memory) (a : Nat) (img : Memory) : Memory := img.foldl (fun m c => m.write (a + c.1) c.2) m

/-- Bytes as a number, the byte at the lowest address least significant (R5). -/
def leNat : List Byte → Nat
  | [] => 0
  | b :: bs => b.toNat + 256 * leNat bs

/-- The `n` low bytes of a number, little-endian (R5). -/
def leBytes : Nat → Nat → List Byte
  | 0, _ => []
  | n + 1, v => BitVec.ofNat 8 (v % 256) :: leBytes n (v / 256)

/-- The little-endian number in `n` bytes at `a`. -/
def Memory.readNat (m : Memory) (a n : Nat) : Nat := leNat (m.readBytes a n)

/-- Write the `n` low bytes of `v` at `a`. -/
def Memory.writeNat (m : Memory) (a n v : Nat) : Memory := m.writeBytes a (leBytes n v)

/-- A table keyed by numbers, keys strictly rising; a key that is absent has the default the reader names. -/
abbrev Table (α : Type) := List (Nat × α)

/-- The entry of a key, if any. -/
def Table.find? {α : Type} : Table α → Nat → Option α
  | [], _ => none
  | e :: t, k => if e.1 = k then some e.2 else Table.find? t k

/-- The entry of a key, or the default. -/
def Table.getD {α : Type} (t : Table α) (k : Nat) (d : α) : α := (Table.find? t k).getD d

/-- Put an entry, replacing one of the same key. -/
def Table.put {α : Type} : Table α → Nat → α → Table α
  | [], k, v => [(k, v)]
  | e :: t, k, v =>
    if e.1 = k then (k, v) :: t else if k < e.1 then (k, v) :: e :: t else e :: Table.put t k v

/-- Remove an entry. -/
def Table.erase {α : Type} (t : Table α) (k : Nat) : Table α := t.filter (fun e => e.1 != k)

end Sys2Proof.Machine
end

