-- ==== Sys2Proof/Machine/State.lean ====
section
/-! DEFINITION. The state of one Gelquel module as plain data, its reasons to stop, and the state right after module reset. Every field cites the rule that gives the machine that state. -/

namespace Sys2Proof.Machine

/-- Why the whole module cannot take a step: these end a run. Every fault of the manual (R386) is a next state instead. -/
inductive Fault where
  /-- Raised by `step` after a debug freeze: every clock has stopped until module reset (R423). Safe: the manual says so. -/
  | clocksStopped
  /-- Raised by `step` when no event, hart or input is due: nothing in the module is about to happen. Safe. -/
  | nothingDue
  deriving DecidableEq, Repr

/-- Why the model gives an instruction no meaning. -/
inductive Refusal where
  /-- Raised by an arm of `exec` whose instruction has no meaning yet. Safe. -/
  | notModelled (mnemonic : String)
  deriving DecidableEq, Repr

/-! ### Registers and streams of a core -/

/-- A scalar register (R163): value, issue order of the word that wrote it (R168), cycle from which it is readable
(R181), and the issue order of a word whose result of unknown arrival is still to come (R170). -/
structure Reg where
  val : Word64 := 0
  stamp : Nat := 0
  since : Nat := 0
  pending : Option Nat := none
  deriving DecidableEq, Repr

/-- A steer register (R163, R179, R181): `readyAt` is the local cycle from which a branch may take it. -/
structure Steer where
  target : BitVec 14 := 0
  prepared : Bool := false
  readyAt : Nat := 0
  cond : Bool := false
  stamp : Nat := 0
  deriving DecidableEq, Repr

/-- A loop register (R182 to R185); `entered` orders the active loops. -/
structure LoopReg where
  count : Nat := 0
  first : Nat := 0
  last : Nat := 0
  active : Bool := false
  entered : Nat := 0
  latchFirst : Option Nat := none
  latchLast : Option Nat := none
  deriving DecidableEq, Repr

/-- An address register (R316, R323) with the issue order of its last writer (R207). -/
structure AReg where
  val : Word64 := 0
  stamp : Nat := 0
  deriving DecidableEq, Repr

/-- A mask register (R205) with the issue order of its last writer and that of a VMPOS whose result is still to come (R228). -/
structure MReg where
  val : MaskWord := 0
  stamp : Nat := 0
  pending : Option Nat := none
  deriving DecidableEq, Repr

/-- The special registers of R127 that hold state of their own. -/
structure SRegs where
  /-- SLIM (R165). -/
  slim : BitVec 19 := 0
  /-- SBASE (R165). -/
  sbase : BitVec 19 := 0
  /-- RNGK.KEYLO (R154). -/
  keyLo : Word32 := 0
  /-- RNGKH.KEYHI (R154). -/
  keyHi : Word32 := 0
  /-- DSCALE.SCALE (R154). -/
  dscale : Word32 := 0x3F800000#32
  /-- SSTAT[6:0] (R166). -/
  sstat : BitVec 7 := 0
  /-- VSTAT[7:0] (R212). -/
  vstat : BitVec 8 := 0
  /-- MSTAT[5:0] (R254). -/
  mstat : BitVec 6 := 0
  /-- BSTAT[11:0] (R270). -/
  bstat : BitVec 12 := 0
  /-- MROUTE0..MROUTE3, 26 bits each (R252). -/
  mroute : Vector (BitVec 26) 4 := Vector.replicate 4 0
  /-- SBOARD (R359). -/
  sboard : Word64 := 0
  /-- TFULL.FULL (R251). -/
  tfull : BitVec 16 := 0
  /-- DSCTX.BASE (R372). -/
  dsctx : BitVec 49 := 0
  deriving DecidableEq, Repr

/-- An entry of BQV or BQM (R92): `pushed` is its push cycle (R91), `left` the repeats still to run. -/
structure BlkEntry where
  addr : Nat
  left : Nat
  spec : Bool
  tag : Nat
  pushed : Nat
  deriving DecidableEq, Repr

/-- A queue of R34's list with its values and push cycles; `popAt`, `popN` count the pops of the latest pop cycle,
whose slots are not free before the next cycle (R91); `inflight` counts pushes on their way (R208). -/
structure Queue (α : Type) where
  items : List (Nat × α) := []
  popAt : Nat := 0
  popN : Nat := 0
  inflight : Nat := 0
  deriving DecidableEq, Repr

/-- Entries that a repeat or row of a vector or matrix word has popped, with their push cycles, kept while that word may still fault: 0 QS2V,
1 QM2V, 2 QV2M (R388). -/
structure Popped where
  queue : Nat
  stamp : Nat
  rep : Nat
  items : List (Nat × List Byte)
  deriving DecidableEq, Repr

/-- A replay queue entry (R396). -/
structure Replay where
  done : Bool := false
  discard : Bool := false
  held : Bool := false
  code : Nat := 0
  sub : Nat := 0
  next : Nat := 0
  icyc : Nat := 0
  word : BitVec 192 := 0
  opa : Word64 := 0
  opb : Word64 := 0
  opc : Word64 := 0
  lanes : MaskWord := 0
  /-- The request or descriptor that an engine holds for this word, cancelled by DISCARD (R396). -/
  job : Option Nat := none
  /-- Word index, and whether the stream still stands on this word (R398). -/
  widx : Nat := 0
  own : Bool := false
  /-- What earlier repeats of the word leave to this one (R207, R225), and the draw key of its issue (R154). -/
  fwd : List (Nat × List Byte) := []
  /-- The cycle of the place that the entry takes, whether it is the last of its queue, and the issue order of repeats that go on at places of
  their own (R398). -/
  place : Nat := 0
  final : Bool := false
  stamp : Option Nat := none
  /-- The address that faulted and the kind of access (R394), which the word and its operands give. -/
  va : Word64 := 0
  kind : Nat := 255
  deriving DecidableEq, Repr

/-- A core's fault record (R394). -/
structure FaultRec where
  code : Nat := 0
  sub : Nat := 0
  source : Nat := 0
  count : Nat := 0
  ovf : Bool := false
  noresume : Bool := false
  va : Word64 := 0
  kind : Nat := 255
  level : Nat := 0
  unit : Nat := 0
  number : Nat := 0
  lcyc : Nat := 0
  deriving DecidableEq, Repr

/-- What the operand overrides of a re-injected word are (R398). -/
structure Override where
  opa : Word64
  opb : Word64
  opc : Word64
  lanes : MaskWord
  held : Bool
  code : Nat
  own : Bool
  deriving DecidableEq, Repr

/-- One instruction stream. `next`: next word index; `sub`: next repeat or row of the word in issue (R206, R245);
`live`: it has been started or a block runs; `halted` (R204); `waiting`: it waits at an anchor point or a
memory word and issues nothing of its own; `istamp`, `icyc`: issue order and cycle of the word in issue;
`fwd`: rows that earlier repeats of that word wrote (R207); `fw`: the format word it holds (R237); `idleFrom`: the origin cycle from which a
stream that is not live counts as idle (R83);
`replay`: entries still to be re-injected (R398), `ovr` the overrides of the entry in issue; `stall`: it stalls (R96); `arrived`: the word has had its late look in this
cycle (R83, R204, R306, R341); `busyTo`: when its next command boundary is; `tried`: the local cycle at which the word in issue was first due. -/
structure StreamSt where
  next : Nat := 0
  sub : Nat := 0
  live : Bool := false
  halted : Bool := false
  waiting : Bool := false
  istamp : Nat := 0
  icyc : Nat := 0
  widx : Nat := 0
  fwd : List (Nat × List Byte) := []
  fw : Option Word64 := none
  replay : List Replay := []
  ovr : Option Override := none
  stall : Bool := false
  arrived : Bool := false
  busyTo : Nat := 0
  tried : Nat := 0
  idleFrom : Nat := 0
  /-- The cycle that the last replay entry's occupancy ends in, where repeats of earlier entries go on behind it (R398). -/
  goAt : Nat := 0
  deriving DecidableEq, Repr

/-! ### Planes, tile tables, triggers -/

/-- A contribution that waits in its slot (R356): slot, piece, arrival cycle, bytes, whether a word of it is poisoned. -/
structure Contrib where
  slot : Nat
  piece : Nat
  at_ : Nat
  data : List Byte
  poison : Bool
  deriving DecidableEq, Repr

/-- A firing of a tile-table entry (R355): number, entry and its image as fired, firing cycle (0 before it fires), pieces, whether they are
handed by the matrix stream and how many have been, deliveries and result pieces still to perform, own pieces that wait to be folded (read
cycle, the piece as it will be written), the last delivery on its way to each peer, its issue order, whether it has completed and its post-action
is due, and the contributions that a plane flip left it (R85). -/
structure Firing where
  id : Nat
  entry : Nat
  img : List Byte
  at_ : Nat := 0
  pieces : Nat
  handed : Bool := false
  seen : Nat := 0
  left : Nat
  own : List (Nat × Piece) := []
  lastAt : List Nat := []
  stamp : Nat
  done : Bool := false
  contribs : List Contrib := []
  deriving DecidableEq, Repr

/-- A valid tile-table entry: its 64-byte image (R352), the ready flag with the issue order of what set it (R355), the number of its firing,
and its waiting contributions (R356). -/
structure TileEntry where
  img : List Byte
  ready : Option Nat := none
  firing : Option Nat := none
  contribs : List Contrib := []
  deriving DecidableEq, Repr

/-- A configuration plane (R79). `ovl`: the overlay it holds, complete once `ready`. A word not loaded reads as the fill of R82;
bank programs by slot (R33); tile-table entries by number, an absent one invalid. -/
structure Plane where
  ovl : Option Nat := none
  ready : Bool := false
  scal : List Word32 := []
  vect : List (BitVec 96) := []
  matx : List (BitVec 192) := []
  progs : Table (List Word32) := []
  tiles : Table TileEntry := []
  deriving DecidableEq, Repr

/-- A Shotfirer trigger (R361). -/
structure Trigger where
  armed : Bool := false
  mask : Word64 := 0
  action : Word64 := 0
  deriving DecidableEq, Repr

/-! ### Copy engine -/

/-- A copy descriptor latched at issue (R300, R302, R305): `scale` is the layout record of a CPYS. -/
structure CopyDesc where
  id : Nat
  src : Word64
  dst : Word64
  len : Nat
  lines : Nat
  sspace : Nat
  dspace : Nat
  sstride : Int
  dstride : Int
  beat : Nat
  slide : Bool
  scale : Option (List Byte) := none
  stamp : Nat := 0
  entry : Replay := {}
  deriving DecidableEq, Repr

/-- The descriptor that runs (R283, R303, R304): start cycle, next word to read, the words read and not yet handed on or written, words
performed, pages translated as (0 source or 1 destination, virtual page, physical page) with the latest first, the word it holds at after a
fault, those of the unsent words whose data has come, the word it is cut at when the rest of it is cancelled (R396), and the first cycle in which it
may hand a bank a word (R303). -/
structure CopyRun where
  desc : CopyDesc
  start : Nat
  nextWord : Nat := 0
  unsent : List Nat := []
  performed : Nat := 0
  pages : List (Nat × Nat × Nat) := []
  holdAt : Option Nat := none
  parked : List (Nat × List Byte × Bool) := []
  cut : Option Nat := none
  handFree : Nat := 0
  deriving DecidableEq, Repr

/-! ### Banks -/

/-- What a bank request asks for (R266, R307, R317): a row load into A row `row`, a row store, a copy word out of or into the bank,
a bank program, a lode evaluation, a calibration. -/
inductive BankJob where
  | load (row : Nat) (sel : List Bool) (zero : Bool) (ty : Nat)
  | store (data : List Byte) (sel : List Bool)
  | copyOut (w : Nat)
  | copyIn (w : Nat) (data : List Byte) (poison : Bool)
  | prog (slot aa ab : Nat) (args : List Word32)
  | lode (sub : Nat) (planes : List Byte) (k crow half : Nat) (acc poison : Bool)
  | cal (sub : Nat)
  deriving DecidableEq, Repr

/-- A bank request (R266, R271): `core` issued it, `src` and `iseq` order its writes (R264), `seqNo` is the command's number, `stamp` and
`entry` belong to the word that issued it, `rep` is its repeat. -/
structure BankReq where
  id : Nat
  core : Nat
  bank : Nat
  word : Nat
  words : Nat
  beat : Nat
  slide : Bool
  src : Nat
  iseq : Nat
  seqNo : Nat
  tag : Nat
  stamp : Nat
  rep : Nat
  entry : Replay
  job : BankJob
  deriving DecidableEq, Repr

/-- The transport engine of a bank while a program runs or is suspended (R312, R313). -/
structure Engine where
  req : BankReq
  code : List Word32
  idx : Nat := 0
  aa : Nat
  ab : Nat
  ainc : Nat := 1
  binc : Nat := 1
  mode : Nat := 0
  cnt : Nat := 0
  ops : Vector (List Byte) 12 := Vector.replicate 12 (List.replicate 32 0)
  res : Vector (List Byte) 12 := Vector.replicate 12 (List.replicate 32 0)
  suspended : Bool := false
  once : Bool := false
  deriving DecidableEq, Repr

/-- A write to a bank that waits for its beat's close (R264): source unit, issue sequence, byte offset in the bank, bytes, region tag. -/
structure BankWrite where
  src : Nat
  iseq : Nat
  addr : Nat
  data : List Byte
  sel : List Bool
  tag : Nat
  poison : Bool := false
  deriving DecidableEq, Repr

/-- A bank (R259, R266 to R274): requests holding a queue entry, programs whose beat has closed before they started (R268), the first cycle in which no admitted request is served, the next sequence
number, the engine, commands that ended in the open beat (request, code, overrun), program writes that wait for the close, and status words
with the cycle each is visible from (R272). -/
structure Bank where
  queue : List BankReq := []
  waits : List BankReq := []
  freeAt : Nat := 0
  nextSeq : Nat := 1
  engine : Option Engine := none
  ended : List (BankReq × Nat × Bool) := []
  writes : List BankWrite := []
  status : List (Nat × Word64) := [(0, 0x8000000000000000#64)]
  deriving DecidableEq, Repr

/-! ### Translation -/

/-- A TLB entry (R289): SPID, page base, size, leaf PTE, locked, and for which launch (R291). -/
structure TlbEntry where
  spid : Nat
  va : Nat
  size : Nat
  pte : Word64
  locked : Bool := false
  owner : Nat := 0
  deriving DecidableEq, Repr

/-- A port that translates for processes (R285, R289, R293): the SPID it holds, its TLB, and the transfers that a page fault has paused
(process, address, bytes). -/
structure PortUnit where
  spid : Nat := 0
  tlb : List TlbEntry := []
  paused : List (Nat × Nat × List Byte) := []
  deriving DecidableEq, Repr

/-- An access table entry (R298). -/
structure AccEntry where
  master : BitVec 16 := 0
  mmask : BitVec 16 := 0
  rd : Bool := false
  wr : Bool := false
  at_ : Bool := false
  tag : BitVec 4 := 0
  valid : Bool := false
  base : Word64 := 0
  limit : Word64 := 0
  deriving DecidableEq, Repr

/-- The entry 0 that reset leaves in every access table (R298). -/
def AccEntry.resetZero : AccEntry :=
  { rd := true, wr := true, at_ := true, valid := true, limit := 0xFFFFFFFFFFFFFFFF#64 }

/-- What an access table holds after reset (R298). -/
def accReset : Vector AccEntry 32 := (Vector.replicate 32 {}).set 0 AccEntry.resetZero

/-! ### A core -/

/-- One level of a core's chain (R68): level, count, k, instance number, and for a LANE node the lanes of one instance. -/
structure ChainEl where
  level : Nat
  count : Nat
  k : Nat
  inst : Nat
  deriving DecidableEq, Repr

/-- What binding gives a core (R68, R79, R285). `chain` lists depths 0 up to the CORE node, `lanes` the counts of the LANE nodes below. -/
structure Binding where
  gen : Nat
  stope : Nat
  spid : Nat
  kernel : Nat
  entry : Nat
  rank : Nat
  pkgPos : Nat
  chain : List ChainEl
  lanes : List Nat
  deriving DecidableEq, Repr

/-- This core's place in a barrier instance: latest arrival's phase, whether it has been counted and completed, and its issue order
(R348, R350). -/
structure BarArr where
  key : BarKey
  phase : Nat
  counted : Bool
  complete : Bool
  stamp : Nat
  deriving DecidableEq, Repr

/-- A stream-unit operation in flight (R374, R376): operation number (0 to 3 the DS ops, 4 to 6 the KV ops), operands, descriptor address,
window of issue, when it performs, when its result is readable (0: when it performs), and whether its home lies in another package. -/
structure DsOp where
  id : Nat
  core : Nat
  op : Nat
  cur : Nat
  rd : BitVec 5
  a : Word64
  b : Word64
  base : Word64
  win : Nat
  stamp : Nat
  at_ : Nat
  due : Nat
  far : Bool
  entry : Replay
  pkg : Nat := 0
  deriving DecidableEq, Repr

/-- A shadow accumulator tile (R95): tag, tile, the whole 64 KiB as a memory of its own, a copy of the tile from its
first write on (`filled`). -/
structure Shadow where
  tag : Nat
  tile : Nat
  mem : Memory
  flags : Nat := 0
  filled : Bool := false
  deriving DecidableEq, Repr

/-- A stationary plane (R235): 0 unloaded, 1 filling, 2 loaded; block bytes as read; loader's generation; the load's number. -/
structure ArrPlane where
  st : Nat := 0
  wt : Nat := 0
  k : Nat := 0
  n : Nat := 0
  gen : Nat := 0
  wAddr : Nat := 0
  src : Nat := 0
  data : List Byte := []
  stamp : Nat := 0
  deriving DecidableEq, Repr

/-- Everything that belongs to one physical core (R15, R163, R257). -/
structure Core where
  bound : Option Binding := none
  lastProc : Option Nat := none
  s : Vector Reg 32 := Vector.replicate 32 {}
  b : Vector Steer 12 := Vector.replicate 12 {}
  lp : Vector LoopReg 4 := Vector.replicate 4 {}
  ar : Vector AReg 8 := Vector.replicate 8 {}
  m : Vector MReg 16 := Vector.replicate 16 {}
  sr : SRegs := {}
  bt : Nat := 0
  qs2v : Queue Word64 := {}
  qv2s : Queue Word64 := {}
  qs2m : Queue Word64 := {}
  qv2m : Queue (List Byte) := {}
  qm2v : Queue (List Byte) := {}
  popped : List Popped := []
  bqv : Queue BlkEntry := {}
  bqm : Queue BlkEntry := {}
  plane : Vector Plane 2 := Vector.replicate 2 {}
  active : Nat := 0
  sc : StreamSt := {}
  ve : StreamSt := {}
  mx : StreamSt := {}
  rows : Table (Nat × Nat) := []
  a : Memory := []
  c : Memory := []
  sm : Memory := []
  seam : Memory := []
  poison : List (Nat × Nat) := []
  upsets : List (Nat × Nat × Nat) := []
  /-- Region tags by word, numbered through the spaces (R278, R279). -/
  tags : Table Nat := []
  /-- Words of W and B whose corrected data a port read writes back at the close of the beat (R278). -/
  fixes : List Nat := []
  /-- The stationary plane of the MSTEP in issue, with that word's issue order (R245). -/
  mplane : Option (Nat × ArrPlane) := none
  fires : List Firing := []
  trig : Vector Trigger 8 := Vector.replicate 8 {}
  trigCount : Nat := 8
  pendRes : List (Nat × Nat) := []
  specTags : List Nat := []
  resolve : List (Bool × Nat) := []
  shadows : List Shadow := []
  mfreeReq : Bool := false
  bars : List BarArr := []
  /-- The anchor point the scalar stream waits at: none at an ANCHOR, the barrier's number and depth at a barrier (R99). -/
  anchor : Option (Nat × Nat) := none
  copyQ : List CopyDesc := []
  copy : Option CopyRun := none
  copyFree : Nat := 0
  banks : Vector Bank 32 := Vector.replicate 32 {}
  arriving : List BankReq := []
  /-- Requests of this core, with the cores whose banks they go to, that its frozen stope has withdrawn (R388). -/
  withheld : List (Nat × BankReq) := []
  bflags : Nat := 0
  acc : Vector AccEntry 32 := accReset
  tlb : List TlbEntry := []
  ctlb : List TlbEntry := []
  fault : Option FaultRec := none
  acks : List Nat := []
  /-- The mask of the HALT that ended this core's part (R204, R408). -/
  haltMask : Nat := 0
  deriving DecidableEq, Repr

/-! ### Quads, stopes, launches -/

/-- A quad's array and lease (R198 to R201, R235, R236): `reqs` are (quad index, request cycle, run length). -/
structure Quad where
  act : ArrPlane := {}
  shd : ArrPlane := {}
  holder : Option Nat := none
  left : Nat := 0
  last : Nat := 3
  reqs : List (Nat × Nat × Nat) := []
  busyTo : Nat := 0
  deriving DecidableEq, Repr

/-- A stope (R78): `started` is the origin cycle at which its pulse left core (0,0); `stalled` the cycles its wire has been asserted;
`frozen` is F (R387) with the beat open then and its offset (R392); `window` its trap window; `anchor`: arrivals wait for a fresh pulse. -/
structure Stope where
  id : Nat
  gen : Nat
  die : Nat
  elastic : Bool
  cores : List Nat
  started : Option Nat := none
  stalled : Nat := 0
  frozen : Option Nat := none
  fbeat : Nat := 0
  foff : Nat := 0
  window : Option Nat := none
  waitWindow : Bool := false
  relShift : Nat := 0
  relBeats : Nat := 0
  deriving DecidableEq, Repr

/-- A node of a tree table (R36). -/
structure TreeNode where
  parent : Nat
  level : Nat
  count : Nat
  kernel : Nat
  entry : Nat
  deriving DecidableEq, Repr

/-- An entry of a beat table or requirement (R39): type 0 ANY, 1 ACCESS, 2 COMPUTE, and length (0 any). -/
structure BeatEnt where
  ty : Nat
  len : Nat
  deriving DecidableEq, Repr

/-- The fields of a launch packet that the kernel keeps (R52). -/
structure Packet where
  bundle : Nat
  tree : Nat
  prio : Nat
  elastic : Bool
  pkgmask : Nat
  args : List Byte
  waits : List (Nat × Nat)
  sigs : List Nat
  status : Nat
  beatreq : Option (List BeatEnt)
  insts : List Inst := []
  deriving DecidableEq, Repr

/-- Where a launch stands (R57 to R77, R399, R405, R408). -/
inductive LState where
  | reserved
  | queued
  | filling
  | ready
  | pulsing
  | running
  | saving
  | saved
  | retired
  | complete
  deriving DecidableEq, Repr

/-- What one event of the agenda does: run a step of the table, or let a stream issue its next word. -/
inductive Act where
  | run (i : Instr) (a : Arg)
  | issue (core : Nat) (k : Strm)
  deriving DecidableEq, Repr

/-- A held result of the save area (R400, R401): due cycle counted from F, phase, whether a freeze of its core holds it, the act. -/
structure HeldEv where
  due : Nat
  phase : Nat
  held : Bool
  act : Act
  deriving DecidableEq, Repr

/-- A saved core of a pre-empted launch (R402 to R405): the core's state, its held results, where its save area lies, and what was evicted of its
banks: bytes, region tags and poison. -/
structure SavedCore where
  id : Nat
  core : Core
  held : List HeldEv := []
  area : Option Nat := none
  evicted : Option (Memory × Table Nat × List (Nat × Nat)) := none
  deriving DecidableEq, Repr

/-! ### The resident kernel -/

/-- A section table entry as read (R29). -/
structure Sect where
  ty : Nat
  kernel : Nat
  inst : Nat
  off : Nat
  len : Nat
  deriving DecidableEq, Repr

/-- A section of a kernel's streams: 0 SCAL, 1 VECT, 2 MATX, 3 BANK, overlay, bytes (R31, R47). -/
structure StreamSect where
  ty : Nat
  ovl : Nat
  bytes : List Byte
  deriving DecidableEq, Repr

/-- What the retimer made of a PORT list: streams, and the word index of each ENTRY marker (R37, R47). -/
structure Retimed where
  sects : List StreamSect
  entries : List (Nat × Nat)
  deriving DecidableEq, Repr

/-- An opened bundle (R27): the kernel's own copy after relocation, its sections, native or retimed streams, ENTRY word indices,
and where GLOBAL images lie. -/
structure Bundle where
  bytes : List Byte
  sects : List Sect
  retimed : Table Retimed
  images : Table Nat
  digest : List Byte
  deriving DecidableEq, Repr

/-- A graph (R69, R70): its versions, oldest first, each an array of packets. -/
structure Graph where
  versions : List (List Packet)
  deriving DecidableEq, Repr

/-- A graph run (R71): its local tokens, packets still to complete, and its completion token. -/
structure GraphRun where
  spid : Nat
  tokens : Table Nat
  left : Nat
  token : Nat
  deriving DecidableEq, Repr

/-- A range of the process space the kernel has placed (R292): its pages stand in the process's page tables. -/
structure Alloc where
  va : Nat
  len : Nat
  deriving DecidableEq, Repr

/-- A collective plan (R363): its flows as (source package, destination package, slots). -/
structure Plan where
  id : Nat
  flows : List (Nat × Nat × Nat)
  deriving DecidableEq, Repr

/-- An open duplex stream (R373). -/
structure DStream where
  sid : Nat
  desc : Nat
  side : Nat
  deriving DecidableEq, Repr

/-- A process: one control program with its address space (R285) and everything the system calls give it. -/
structure Proc where
  spid : Nat
  ptes : Table (Table Word64) := []
  bundles : Table Bundle := []
  graphs : Table Graph := []
  tokens : Table Nat := []
  allocs : List Alloc := []
  pinned : List (Nat × Nat) := []
  plans : List Plan := []
  streams : List DStream := []
  handler : Nat := 0
  handlerMask : MaskWord := 0
  handlerWin : Nat := 0
  log : List (List Byte) := []
  nextHandle : Nat := 1
  nextPlan : Nat := 1
  exited : Bool := false
  deriving DecidableEq, Repr

/-- A hart's call that has not returned (R51, R363, R419), `inner` where a handler on that hart made it: 0 KQ_WAIT, 1 KQ_PLAN_REGISTER, 2 KQ_FILE_READ, 3 KQ_FILE_WRITE, 4 a
memory call that waits for other kernels' shootdowns (R296). -/
structure Pending where
  id : Nat
  hart : Nat
  spid : Nat
  kind : Nat
  token : Nat := 0
  target : Nat := 0
  va : Nat := 0
  len : Nat := 0
  flows : List (Nat × Nat × Nat) := []
  paused : Bool := false
  inner : Bool := false
  deriving DecidableEq, Repr

/-- What the resident kernel keeps of the thread that a handler displaces on its hart (R391): integer and floating-point registers, fcsr, pc, mode, process, and
whether it waits in a call. -/
structure Thread where
  x : Vector Word64 32
  f : Vector Word64 32
  pc : Word64
  mode : Nat
  spid : Option Nat
  blocked : Bool
  fcsr : Word64 := 0
  deriving DecidableEq, Repr

/-- A Headframe hart: integer and floating-point registers (R49), program counter, mode (0 U, 1 S, 3 M), the process it runs, pending causes,
the trap window (die, number) whose handler it runs with the thread displaced by it (R390, R391, R407), and the control and status registers of the
RISC-V specifications that hold anything but their reset value (log 49). -/
structure Hart where
  x : Vector Word64 32 := Vector.replicate 32 0
  f : Vector Word64 32 := Vector.replicate 32 0
  pc : Word64 := 0
  mode : Nat := 3
  spid : Option Nat := none
  running : Bool := false
  blocked : Bool := false
  causes : List Nat := []
  handling : Option (Nat × Nat) := none
  under : Option Thread := none
  csrs : Table Word64 := []
  deriving DecidableEq, Repr

/-- What a hart's load or atomic of another package's memory does with its answer: an integer or a floating-point register takes it, or a denial is an access fault of this cause. -/
structure HartRet where
  rd : Nat
  size : Nat
  signed : Bool
  fp : Bool := false
  cause : Nat := 5
  deriving DecidableEq, Repr

/-- A request of a hart to another package (R332, R337): its number and hart, by when it has performed, the length of its word, and for a load or an
atomic, which holds the hart, what its answer does. -/
structure HartReq where
  id : Nat
  hart : Nat
  due : Nat
  len : Nat
  ret : Option HartRet
  deriving DecidableEq, Repr

/-! ### Global requests and engines between cores -/

/-- What a global request does when it performs (R186, R189, R190, R228, R320, R321, R343, R358). -/
inductive GJob where
  | load (rd : BitVec 5) (size : Nat) (signed : Bool)
  | store (data : List Byte) (sel : List Bool)
  | amo (op : Nat) (size : Nat) (b : Word64) (rd : BitVec 5)
  | cas (size : Nat) (b c : Word64) (rd : BitVec 5)
  | rowLoad (row off : Nat)
  | vmpos (m : BitVec 4)
  | waitm
  | copyRead (w off : Nat)
  | copyWrite (w off : Nat) (data : List Byte)
  | semaphore (pcore pcount bit : Nat)
  deriving DecidableEq, Repr

/-- A global request in flight (R280, R281, R322): issuing core and unit (as SOURCE of R394), virtual and physical address, bytes,
issue stamp, when it performs and when its result returns, its value once performed, and for a read from another package the parts still to come. -/
structure GReq where
  id : Nat
  core : Nat
  src : Nat
  va : Nat
  pa : Nat
  n : Nat
  job : GJob
  stamp : Nat
  entry : Replay
  performAt : Nat
  slots : Nat
  done : Bool := false
  val : List Byte := []
  poisoned : Bool := false
  group : Option Nat := none
  left : Nat := 0
  deriving DecidableEq, Repr

/-- A row that several global requests fill together (R320, R321): row, data so far, bytes selected, requests left. -/
structure RowJoin where
  id : Nat
  core : Nat
  row : Nat
  data : List Byte
  sel : List Bool
  keep : List Bool
  left : Nat
  stamp : Nat
  rep : Nat
  due : Nat
  ty : Nat := 0
  poisoned : Bool := false
  entry : Replay := {}
  deriving DecidableEq, Repr

/-- A launch (R52 to R77). `headAt`: since when it has been a head with its waits met; `release`: window at whose boundary it enters
its queue; `readyWin`, `readyCores`: READY windows and bound cores by package; `heard`: token counts of the submitting
package as it has told them; `graph`: it belongs to a graph run; `preloads`: pages preloaded for it as (address, bytes) (R291, R292); `reports`: packages that have reported; `overlays`: overlays each kernel's cores hold. -/
structure Launch where
  gen : Nat
  spid : Nat
  queue : Nat
  pkt : Packet
  tree : List TreeNode
  insts : List Inst
  pkgs : List Nat
  st : LState
  remote : Bool := false
  origin : Nat := 0
  headAt : Option Nat := none
  release : Option Nat := none
  readyWin : List (Nat × Nat) := []
  readyCores : List (Nat × List Nat) := []
  heard : Table Nat := []
  graph : Bool := false
  reports : List Nat := []
  charge : Nat := 0
  startWin : Option Nat := none
  graphRun : Option Nat := none
  result : Nat := 0
  code : Nat := 0
  entry : Nat := 0
  pkgAt : Nat := 0
  saved : List SavedCore := []
  savedStopes : List Stope := []
  savedReqs : List GReq := []
  savedJoins : List RowJoin := []
  saveLeft : List Nat := []
  savedQuads : List (Nat × Quad) := []
  preloads : List (Nat × Nat) := []
  cancelled : Bool := false
  deriving DecidableEq, Repr

/-- A page walk in flight (R290): unit (0 core, 1 copy engine), core, address, whether for a write, and access kind (R394). -/
structure Walk where
  id : Nat
  unit : Nat
  core : Nat
  spid : Nat
  va : Nat
  write : Bool
  kind : Nat
  /-- Set when the walk has ended in a page fault that its access has still to raise, at this level. -/
  failed : Option Nat := none
  deriving DecidableEq, Repr

/-- A phase counter of a barrier instance (R348): arrivals counted by core, phases seen complete, phases whose completion is under way; for an
instance that spans packages, the phases that every participant of a package has arrived at and the window of the last of those arrivals, by
package (R347, R349). -/
structure BarSt where
  key : BarKey
  arrivals : Table Nat
  complete : Nat
  due : Nat
  far : Table (Nat × Nat) := []
  deriving DecidableEq, Repr

/-- A page migration (R297): process, page, old and new home, phase (0 copy pass, 1 final pass, 2 tail), lines copied, window of the freeze. -/
structure Migration where
  id : Nat
  spid : Nat
  va : Nat
  size : Nat
  oldPa : Nat
  newPa : Nat
  newPkg : Nat
  newDie : Nat
  phase : Nat := 0
  lines : List Nat := []
  win : Nat := 0
  deriving DecidableEq, Repr

/-- A plan flow's slots at this sender (R364): free slots and slots whose notice frees them from a later window. -/
structure FlowSt where
  src : Nat
  dst : Nat
  free : Nat
  inUse : Nat
  soon : List Nat
  owed : Nat := 0
  deriving DecidableEq, Repr

/-- A trap window (R392): 0 frozen, 1 resuming, 2 refused, 3 free; fields a handler has written wait for KRESUME (R393). -/
structure TrapWin where
  st : Nat := 3
  stope : Option Nat := none
  refCore : Nat := 0
  coreSel : Nat := 0
  writes : List (Nat × Nat × Word64) := []
  hart : Nat := 0
  deriving DecidableEq, Repr

/-- What a die keeps of its own (R80, R390): loader jobs (launch, kernel, overlay) in request order, trap windows. -/
structure Die where
  loads : List (Nat × Nat × Nat × Nat) := []
  loading : Bool := false
  windows : Vector TrapWin 16 := Vector.replicate 16 {}
  deriving DecidableEq, Repr

/-- A message to another package or, for a storage transfer, to a root port (R73 to R77, R296, R299, R337, R347, R362, R364, R419), with the
window it is sent in. A `ready`, an `abort` and a `report` name the package that sends them; a `reply` answers a request by its number with the
bytes read, or with the fault code that its sender raises. -/
inductive Msg where
  | packet (win : Nat) (p : RemotePacket)
  | ready (gen pkg win : Nat) (cores : List Nat)
  | abort (gen pkg win code entry : Nat)
  | report (gen pkg result code entry failed : Nat)
  | request (win : Nat) (r : FarReq)
  | reply (win id : Nat) (data : List Byte) (code : Nat)
  | piece (win : Nat) (p : Piece)
  | postBit (win core bit : Nat)
  | arrival (win : Nat) (b : BarKey) (phase : Nat)
  | slotFree (win src dst : Nat)
  | signal (win gen token : Nat)
  | plan (spid id : Nat) (flows : List (Nat × Nat × Nat))
  | shoot (win id spid : Nat) (pages : List Nat)
  | shot (win id : Nat)
  | storage (id port ns : Nat) (off len : Nat) (data : Option (List Byte))
  deriving DecidableEq, Repr

/-- A message sent: to which package (this one's own number for a storage transfer), and the fabric port that the routing table gave it
as it was sent (R288). -/
structure Sent where
  dst : Nat
  port : Nat
  msg : Msg
  deriving DecidableEq, Repr

/-- A device error event (R407). -/
structure DevEvent where
  kind : Nat
  die : Nat
  master : Nat
  addr : Nat
  cycle : Nat
  gen : Nat
  deriving DecidableEq, Repr
/-- The 32-byte record of an event, its fields in the order in which R407 names them (log 134). -/
def DevEvent.bytes (e : DevEvent) : List Byte :=
  let le := fun (n v : Nat) => (List.range n).map (fun i => BitVec.ofNat 8 (v / 256 ^ i))
  le 1 e.kind ++ le 1 e.die ++ le 2 e.master ++ le 4 0 ++ le 8 e.addr ++ le 8 e.cycle ++ le 8 e.gen

/-! ### The package -/

/-- What the fuses hold (R14, R18, R19, R412, R413, R417): part, lode ADCs, disabled cores and defective arrays, boot source,
key hash, minimum SVN, serial. -/
structure Fuses where
  part : Nat := 0
  lode : Bool := true
  die1 : Bool := true
  arev : Nat := 1
  offCores : List Nat := []
  offArrays : List Nat := []
  bootSrc : Nat := 0
  keyHash : List Byte := List.replicate 32 0
  minSvn : Nat := 0
  serial : List Byte := List.replicate 16 0
  deriving DecidableEq, Repr

/-- The stage and registers of boot and the mailbox (R412, R415, R417); `channel` is what the mailbox holds at 0x20 to 0xFF, which the resident kernel
uses as its host channel after boot and the manual gives no meaning before (log 54). -/
structure Boot where
  state : Nat := 1
  reason : Nat := 0
  addr : Word64 := 0
  len : Word64 := 0
  m0 : List Byte := []
  svn : Nat := 0
  entry : Nat := 0
  channel : Vector Word64 28 := Vector.replicate 28 0
  deriving DecidableEq, Repr

/-- Power and temperature (R24, R421, R422): module limit, the cut of the load limit in milliwatts, the hottest junction in degrees as last
reported; the clock servo (R420); debug (R423). -/
structure Power where
  limit : Nat := 2200
  cut : Nat := 0
  degrees : Nat := 0
  tripped : Bool := false
  ptpLost : Bool := false
  unlocked : Bool := false
  clocksOff : Bool := false
  /-- The operator's pre-emption interval in cycles (R399): 10 ms unless the operator sets another. -/
  preemptEvery : Nat := 8500000
  deriving DecidableEq, Repr

/-- An agenda entry: origin cycle, phase within the cycle, insertion order, the core whose stall holds it back (R388), the act. -/
structure Event where
  at_ : Nat
  phase : Nat
  seq : Nat
  hold : Option Nat
  act : Act
  deriving DecidableEq, Repr

/-- A write that performs in the current cycle and is committed at its end (R187, R258): core, space (0 A, 1 C, 2 S), rank, address,
bytes, selected bytes, and whether the words written carry poison. -/
structure CycWrite where
  core : Nat
  space : Nat
  rank : Nat
  addr : Nat
  data : List Byte
  sel : List Bool
  poison : Bool := false
  deriving DecidableEq, Repr

/-- A change of a special register that the rest of the core sees from the next cycle (R91, R197, R202, R203, R249, R251, R359), or a corrected
word written back (R278). -/
inductive CycSet where
  | sreg (sel : Nat) (v : Word64)
  | bt (v : Nat)
  | tile (t : Nat) (full : Bool)
  | sbSet (bits : Word64)
  | sbClear (bits : Word64)
  | entry (e : Nat) (img : Option (List Byte))
  | flags (sel : Nat) (bits : Nat)
  | glast (code : Nat)
  | mended (space word : Nat)
  deriving DecidableEq, Repr

/-- What moves next where more than time decides it: an outside input, a hart, or a stream told to issue now. An empty list: the
device's earliest event. -/
inductive Turn where
  | input (i : Instr) (a : Arg)
  | hart (h : Nat)
  | stream (core : Nat) (k : Strm)
  | device
  deriving DecidableEq, Repr

/-- The whole module. -/
structure State where
  /-- Cycle of the 850 MHz clock (R6, R7): 0 at the first module reset, running on through later ones. -/
  now : Nat
  /-- The stream, and for a system call the hart, whose step is in progress. -/
  curCore : Nat
  curStrm : Strm
  curHart : Nat
  /-- The operands of the event in progress. -/
  arg : Arg
  turns : List Turn
  agenda : List Event
  /-- Insertion and issue order. -/
  seq : Nat
  /-- The model's own: how many free values have been drawn. -/
  free : Nat
  wb : List CycWrite
  sets : List (Nat × CycSet)
  /-- Window index and the cycle at which it began (R337). -/
  window : Nat
  winAt : Nat
  /-- Beat open at core (0,0), its opening cycle, the beats before it that later cores may still see (R263, R88). -/
  beat : Nat
  beatAt : Nat
  beatHist : List (Nat × Nat × Nat)
  beatTab : List BeatEnt
  beatNext : Option (List BeatEnt)
  fuse : Fuses
  boot : Boot
  power : Power
  pkg : Nat
  routing : Vector (BitVec 6) 64
  ports : BitVec 24
  /-- Ports that have failed since module reset (R22). -/
  lostPorts : BitVec 24
  withdrawn : List Nat
  cores : Table Core
  quads : Table Quad
  dies : Vector Die 2
  stopes : List Stope
  nextStope : Nat
  launches : List Launch
  queues : Vector (List Nat) 64
  qprio : Vector Nat 64
  lastServed : Vector Nat 8
  latched : Option Nat
  reserving : Option Nat
  genCount : Nat
  runs : Table GraphRun
  nextRun : Nat
  procs : List Proc
  harts : Vector Hart 16
  pending : List Pending
  /-- The network port and the storage port as translating units (R285, R289). -/
  netPort : PortUnit
  stoPort : PortUnit
  mem : Memory
  memPoison : List Nat
  memUpsets : List (Nat × Nat)
  lpddrAcc : Table (Vector AccEntry 32)
  mmioAcc : Table (Vector AccEntry 32)
  greqs : List GReq
  joins : List RowJoin
  walks : List Walk
  dsops : List DsOp
  barriers : List BarSt
  reservations : List (Nat × Nat × Word32)
  /-- Reservations that harts hold with LR: hart, local address, bytes (log 49); requests of harts to other packages; and requests of other
  packages, and of masters outside the compute dies, that a page frozen by a migration holds up, in their order (R297, R332, R337). -/
  resvs : List (Nat × Nat × Nat)
  hartReqs : List HartReq
  deferred : List (Nat × FarReq)
  /-- Requests of other packages that this one has sent on to a third: its number here, the package that asked, its number there (R297). -/
  relays : List (Nat × Nat × Nat)
  nextSid : Nat
  migrations : List Migration
  flows : List FlowSt
  parked : List Piece
  outbox : List Sent
  ring : List DevEvent
  /-- ACCESS_DENIED raised on a unit outside the compute dies: master ID, SPID, address (R294). -/
  denials : List (Nat × Nat × Nat)
  /-- Harts whose KTLBF has not retired, and invalidations sent but not yet in effect: hart, SPID, page or every page (R295, R296). -/
  ktlbf : List Nat
  invals : List (Nat × Nat × Option Nat)
  deriving DecidableEq, Repr

/-- The default beat table (R39, R263): even entries ACCESS 64, odd entries COMPUTE 256. -/
def defaultTable : List BeatEnt :=
  (List.range 16).map (fun i => if i % 2 = 0 then { ty := 1, len := 64 } else { ty := 2, len := 256 })

/-- The module right after module reset: the boot ROM has not yet run (its step is MODULE_RESET's meaning, R412); beats count from 0
(R263), a window has just begun (log 2), nothing is bound. The fuses are those of a full GQ1024-M (log 3). -/
def State.reset : State :=
  { now := 0, curCore := 0, curStrm := .scalar, curHart := 0, arg := .nums [], turns := [],
    agenda :=
      [{ at_ := 63, phase := 3, seq := 0, hold := none, act := .run .beatClose (.nums [0]) },
       { at_ := 1700, phase := 0, seq := 1, hold := none, act := .run .windowBoundary (.nums []) }],
    seq := 2, free := 0, wb := [], sets := [], window := 0, winAt := 0, beat := 0, beatAt := 0, beatHist := [],
    beatTab := defaultTable, beatNext := none, fuse := {}, boot := {}, power := {}, pkg := 0,
    routing := Vector.replicate 64 0, ports := 0, lostPorts := 0, withdrawn := [], cores := [], quads := [],
    dies := Vector.replicate 2 {}, stopes := [], nextStope := 0, launches := [], queues := Vector.replicate 64 [],
    qprio := Vector.replicate 64 7, lastServed := Vector.replicate 8 63, latched := none, reserving := none,
    genCount := 0, runs := [], nextRun := 0, procs := [], harts := Vector.replicate 16 {}, pending := [], netPort := {}, stoPort := {}, mem := [],
    memPoison := [], memUpsets := [], lpddrAcc := [], mmioAcc := [], greqs := [],
    joins := [], walks := [], dsops := [], barriers := [], reservations := [], resvs := [], hartReqs := [], deferred := [], relays := [], nextSid := 1, migrations := [],
    flows := [], parked := [], outbox := [], ring := [], denials := [], ktlbf := [], invals := [] }

end Sys2Proof.Machine
end

