-- ==== Sys2Proof/Machine/Ops.lean ====
section
/-! DEFINITION. The named operations that every meaning is made of: cores and clocks, the agenda, the end of a cycle, beats, queues, raising a fault and freezing the stope, blocking, and how a stream goes on to its next word. -/

namespace Sys2Proof.Machine

/-! ### Cores and coordinates (R13, R14, R88) -/

/-- The compute die of a core; cores of die 1 are numbered 512 + index. -/
def coreDie (c : Nat) : Nat := c / 512
/-- Column of a core (R13). -/
def coreX (c : Nat) : Nat := c % 32
/-- Row of a core (R13). -/
def coreY (c : Nat) : Nat := c % 512 / 32
/-- The start pulse's delay from core (0,0) (R88). -/
def pulseDelay (c : Nat) : Nat := 2 * (coreX c + coreY c)
/-- Distance of two coordinates. -/
def absDiff (a b : Nat) : Nat := (a - b) + (b - a)
/-- Mesh hops between two cores (R283). -/
def hops (a b : Nat) : Nat := absDiff (coreX a) (coreX b) + absDiff (coreY a) (coreY b)
/-- The quad of a core, numbered through both dies (R13). -/
def quadOf (c : Nat) : Nat := coreDie c * 128 + coreY c / 2 * 16 + coreX c / 2
/-- The sector of a core, numbered through both dies (R13). -/
def sectorOf (c : Nat) : Nat := coreDie c * 16 + coreY c / 8 * 8 + coreX c / 4
/-- The quad index of a core (R199). -/
def quadIndex (c : Nat) : Nat := coreY c % 2 * 2 + coreX c % 2
/-- The core of a quad with a quad index. -/
def quadCore (q i : Nat) : Nat := q / 128 * 512 + (q % 128 / 16 * 2 + i / 2) * 32 + (q % 16 * 2 + i % 2)

/-- A core's state; one that nothing has touched is as reset leaves it. -/
def State.core (s : State) (c : Nat) : Core := Table.getD s.cores c {}
/-- Put a core's state. -/
def State.setCore (s : State) (c : Nat) (k : Core) : State := { s with cores := Table.put s.cores c k }
/-- Change a core's state. -/
def State.modCore (s : State) (c : Nat) (f : Core → Core) : State := s.setCore c (f (s.core c))

/-- A stream of a core. -/
def Core.strm (k : Core) : Strm → StreamSt
  | .scalar => k.sc
  | .vector => k.ve
  | .matrix => k.mx
  | .bank _ => k.sc
/-- Put a stream. -/
def Core.setStrm (k : Core) (st : StreamSt) : Strm → Core
  | .scalar => { k with sc := st }
  | .vector => { k with ve := st }
  | .matrix => { k with mx := st }
  | .bank _ => k
/-- Change a stream of a core. -/
def State.modStrm (s : State) (c : Nat) (k : Strm) (f : StreamSt → StreamSt) : State :=
  s.modCore c (fun x => x.setStrm (f (x.strm k)) k)

/-- A list with its `i`-th element changed. -/
def setAt {α : Type} : List α → Nat → (α → α) → List α
  | [], _, _ => []
  | x :: xs, 0, f => f x :: xs
  | x :: xs, i + 1, f => x :: setAt xs i f

/-- A vector's element by number, or a default. -/
def vget {α : Type} {n : Nat} (v : Vector α n) (i : Nat) (d : α) : α := v[i]?.getD d
/-- A vector with an element changed; no effect beyond its length. -/
def vset {α : Type} {n : Nat} (v : Vector α n) (i : Nat) (x : α) : Vector α n := v.setIfInBounds i x

/-- The stope of a core, if it is bound (R78). -/
def State.stopeOf (s : State) (c : Nat) : Option Stope :=
  match (s.core c).bound with
  | some b => s.stopes.find? (fun t => t.id == b.stope)
  | none => none
/-- Change one stope. -/
def State.modStope (s : State) (id : Nat) (f : Stope → Stope) : State :=
  { s with stopes := s.stopes.map (fun t => if t.id = id then f t else t) }
/-- The mode of a core's stope: ELASTIC or not (R78, R96). -/
def State.elastic (s : State) (c : Nat) : Bool :=
  match s.stopeOf c with
  | some t => t.elastic
  | none => false
/-- The stope of a core is frozen: F (R387). -/
def State.frozenAt (s : State) (c : Nat) : Option Nat :=
  match s.stopeOf c with
  | some t => t.frozen
  | none => none
/-- The local cycle counter of a core at an origin cycle of a stope that is not frozen (R88). -/
def Stope.localAt (t : Stope) (c now : Nat) : Nat :=
  now - (t.started.getD now) - t.stalled - pulseDelay c
/-- The local cycle counter of a core; a frozen stope's stands still (R88, R387). -/
def State.localCyc (s : State) (c : Nat) : Nat :=
  match s.stopeOf c with
  | some t => t.localAt c (t.frozen.getD s.now)
  | none => 0

/-- The binding of a core, or an empty one. -/
def Core.bnd (k : Core) : Binding :=
  k.bound.getD { gen := 0, stope := 0, spid := 0, kernel := 0, entry := 0, rank := 0, pkgPos := 0, chain := [], lanes := [] }

/-- A launch by generation. -/
def State.launch? (s : State) (gen : Nat) : Option Launch := s.launches.find? (fun l => l.gen == gen)
/-- Change one launch. -/
def State.modLaunch (s : State) (gen : Nat) (f : Launch → Launch) : State :=
  { s with launches := s.launches.map (fun l => if l.gen = gen then f l else l) }
/-- A process by SPID. -/
def State.proc? (s : State) (spid : Nat) : Option Proc := s.procs.find? (fun p => p.spid == spid)
/-- Change one process. -/
def State.modProc (s : State) (spid : Nat) (f : Proc → Proc) : State :=
  { s with procs := s.procs.map (fun p => if p.spid = spid then f p else p) }

/-- Draw the next free value's index. -/
def State.drawn (s : State) : State := { s with free := s.free + 1 }

/-- A moment within a bound of `b` cycles from now, at least one cycle away (R281: the bound is all the manual gives). -/
def State.within (s : State) (b : Nat) : Nat := s.now + 1 + Config.freeDelay s.free % (if b = 0 then 1 else b)

/-- The fabric port that carries traffic for a package (R288). -/
def State.portTo (s : State) (p : Nat) : Nat := (vget s.routing (p % 64) 0).toNat % 32
/-- Send a message to a package; it keeps the port that the routing table gives it now (R288). -/
def State.send (s : State) (p : Nat) (m : Msg) : State := { s with outbox := s.outbox ++ [{ dst := p, port := s.portTo p, msg := m }] }

/-! ### The agenda -/

/-- Within a phase the vector and matrix streams issue after the scalar stream, so that what they read knows of a scalar store of the same
cycle (R258). -/
def Act.turn : Act → Nat
  | .issue _ .vector => 1
  | .issue _ .matrix => 1
  | _ => 0
/-- Order of agenda entries: cycle, phase, turn, insertion. -/
def Event.before (a b : Event) : Bool :=
  a.at_ < b.at_ || (a.at_ == b.at_ && (a.phase < b.phase || (a.phase == b.phase
    && (a.act.turn < b.act.turn || (a.act.turn == b.act.turn && a.seq < b.seq)))))
/-- Insert keeping the order. -/
def insertEvent (e : Event) : List Event → List Event
  | [] => [e]
  | x :: xs => if e.before x then e :: x :: xs else x :: insertEvent e xs
/-- Put an act on the agenda at a cycle of the agenda's own reckoning; `hold` names the core whose freeze holds it back (R388). -/
def State.postAt (s : State) (at_ phase : Nat) (hold : Option Nat) (act : Act) : State :=
  { s with agenda := insertEvent { at_, phase, seq := s.seq, hold, act } s.agenda, seq := s.seq + 1 }
/-- The cycle by which an effect that is due at `at_` is kept: while the core it belongs to is frozen its counter stands at F, so that the
effect comes as long after the release as it was to come from now (R387, R388). -/
def State.dueAt (s : State) (at_ : Nat) (hold : Option Nat) : Nat :=
  match hold.bind s.frozenAt with
  | some f => if f < s.now then f + (at_ - s.now) else at_
  | none => at_
/-- Put an act on the agenda. -/
def State.post (s : State) (at_ phase : Nat) (hold : Option Nat) (act : Act) : State := s.postAt (s.dueAt at_ hold) phase hold act
/-- Let a stream issue at a cycle. -/
def State.postIssue (s : State) (c : Nat) (k : Strm) (at_ : Nat) : State := s.post at_ 2 (some c) (.issue c k)
/-- Remove the agenda entries that `p` picks. -/
def State.cancel (s : State) (p : Event → Bool) : State := { s with agenda := s.agenda.filter (fun e => !p e) }
/-- Whether an entry lets a given stream issue, stall or start a block. -/
def Event.forStream (e : Event) (c : Nat) (k : Strm) : Bool :=
  match e.act with
  | .issue c' k' => c' == c && k' == k
  | .run .stallRelease (.strm c' k') => c' == c && k' == k
  | .run .blockStart (.strm c' k') => c' == c && k' == k
  | _ => false

/-- Beat numbers are taken modulo 2^48 (R263). -/
def beatMod : Nat := 2 ^ 48
/-- Beat m is later than beat n (R263). -/
def beatLater (m n : Nat) : Bool := let d := (m + beatMod - n % beatMod) % beatMod; 1 ≤ d && d < 2 ^ 47
/-- Entry of a beat in the table now governing. -/
def State.beatEnt (s : State) (n : Nat) : BeatEnt := s.beatTab.getD (n % 16) { ty := 1, len := 64 }
/-- The beat that stands open where openings come `d` cycles later than at core (0,0), when beat n has been open there for `off` cycles; `fuel`
bounds the beats between. -/
def State.beatBack (s : State) (d : Nat) : Nat → Nat → Nat → Nat
  | 0, n, _ => n
  | fuel + 1, n, off =>
    let m := (n + beatMod - 1) % beatMod
    if d ≤ off then n else s.beatBack d fuel m (off + (s.beatEnt m).len)
/-- The beat open at core c in F, the cycle in which a stope froze (R387). -/
def State.beatAtF (s : State) (t : Stope) (c : Nat) : Nat := s.beatBack (pulseDelay c) 8 t.fbeat t.foff

/-- The entry is the arrival of a request that names the beat which was open when its stope froze: it is carried out in that beat (R388). -/
def State.openArrival (s : State) (e : Event) : Bool :=
  match e.act with
  | .run .bankRequestArrival (.nums [target, id]) =>
    ((s.core target).arriving.find? (fun r => r.id == id)).any (fun r => (s.stopeOf r.core).any (fun t => r.beat == s.beatAtF t target))
  | _ => false
/-- A freeze holds an entry back: it is due after F, or the freeze has lasted past F (R388). -/
def State.held (s : State) (e : Event) : Bool :=
  match e.hold with
  | some c =>
    match s.frozenAt c with
    | some f => (f < e.at_ || f < s.now) && !s.openArrival e
    | none => false
  | none => false
/-- The earliest entry that is not held back, and the others. -/
def State.pick (s : State) : List Event → List Event → Option (Event × List Event)
  | _, [] => none
  | skipped, e :: es => if s.held e then s.pick (e :: skipped) es else some (e, skipped.reverse ++ es)

/-! ### The spaces of a core (R257), their port (R278) and the end of a cycle (R258) -/

/-- The memory of a space: 0 A, 1 C, 2 S, 3 the seam's W and B. -/
def Core.space (k : Core) (sp : Nat) : Memory :=
  match sp with
  | 0 => k.a
  | 1 => k.c
  | 2 => k.sm
  | _ => k.seam
/-- Put the memory of a space. -/
def Core.setSpace (k : Core) (sp : Nat) (m : Memory) : Core :=
  match sp with
  | 0 => { k with a := m }
  | 1 => { k with c := m }
  | 2 => { k with sm := m }
  | _ => { k with seam := m }

/-- The 32-byte words that bytes [a, a + n) touch. -/
def wordsOf (a n : Nat) : List Nat := if n = 0 then [] else (List.range ((a + n - 1) / 32 - a / 32 + 1)).map (· + a / 32)

/-- Every byte of word `w` is among the `n` bytes from `a` on, and selected. -/
def wholeWord (a n : Nat) (sel : List Bool) (w : Nat) : Bool :=
  decide (a ≤ 32 * w) && decide (32 * w + 32 ≤ a + n) && (List.range 32).all (fun j => sel.getD (32 * w + j - a) true)
/-- Some byte of word `w` is. -/
def touchesWord (a n : Nat) (sel : List Bool) (w : Nat) : Bool :=
  (List.range 32).any (fun j => decide (a ≤ 32 * w + j) && decide (32 * w + j < a + n) && sel.getD (32 * w + j - a) true)
/-- A write to a space: the data, and for every word written whole the end of its poison (R278); the encoder makes good check bits,
so pending upsets of the words it touches end. -/
def Core.store (k : Core) (sp a : Nat) (data : List Byte) (sel : List Bool) : Core :=
  let k := k.setSpace sp (Memory.writeSel (k.space sp) a data sel)
  if k.poison.isEmpty && k.upsets.isEmpty then k
  else
    let ws := wordsOf a data.length
    { k with poison := k.poison.filter (fun p => !(p.1 == sp && ws.contains p.2 && wholeWord a data.length sel p.2))
             upsets := k.upsets.filter (fun u => !(u.1 == sp && ws.contains u.2.1 && touchesWord a data.length sel u.2.1)) }

/-- Put a write into the cycle's buffer. -/
def State.cycWrite (s : State) (w : CycWrite) : State := { s with wb := w :: s.wb }
/-- Put a special-register change into the cycle's buffer. -/
def State.cycSet (s : State) (c : Nat) (x : CycSet) : State := { s with sets := (c, x) :: s.sets }

/-- Perform one buffered write; poison that a copy or a collective send carries comes with it (R406). -/
def State.applyWrite (s : State) (w : CycWrite) : State :=
  s.modCore w.core (fun k =>
    let k := k.store w.space w.addr w.data w.sel
    if w.poison then { k with poison := k.poison ++ (wordsOf w.addr w.data.length).map (fun x => (w.space, x)) } else k)

/-- A special register's new value, by selector (R127). -/
def SRegs.put (r : SRegs) (sel : Nat) (v : Word64) : SRegs :=
  match sel with
  | 0x010 => { r with slim := v.setWidth 19 }
  | 0x011 => { r with sbase := v.setWidth 19 }
  | 0x018 => { r with keyLo := v.setWidth 32 }
  | 0x019 => { r with keyHi := v.setWidth 32 }
  | 0x01A => { r with dscale := v.setWidth 32 }
  | 0x020 => { r with sstat := v.setWidth 7 }
  | 0x021 => { r with vstat := v.setWidth 8 }
  | 0x022 => { r with mstat := v.setWidth 6 }
  | 0x023 => { r with bstat := (v.setWidth 12 &&& 0x3FF#12) ||| (r.bstat &&& 0xC00#12) }
  | 0x032 => { r with mroute := vset r.mroute 0 (v.setWidth 26) }
  | 0x033 => { r with mroute := vset r.mroute 1 (v.setWidth 26) }
  | 0x034 => { r with mroute := vset r.mroute 2 (v.setWidth 26) }
  | 0x035 => { r with mroute := vset r.mroute 3 (v.setWidth 26) }
  | 0x040 => { r with sboard := v }
  | 0x041 => { r with tfull := v.setWidth 16 }
  | 0x050 => { r with dsctx := (v >>> 8).setWidth 49 }
  | _ => r

/-- Sticky flags set in VSTAT, MSTAT or BSTAT (R203). -/
def SRegs.orFlags (r : SRegs) (sel bits : Nat) : SRegs :=
  match sel with
  | 0x021 => { r with vstat := r.vstat ||| BitVec.ofNat 8 bits }
  | 0x022 => { r with mstat := r.mstat ||| BitVec.ofNat 6 bits }
  | _ => { r with bstat := r.bstat ||| BitVec.ofNat 12 bits }

/-- Perform one buffered special-register change. -/
def Core.applySet (k : Core) : CycSet → Core
  | .sreg sel v => { k with sr := k.sr.put sel v }
  | .bt v => { k with bt := v }
  | .tile t full =>
    { k with sr := { k.sr with tfull := if full then k.sr.tfull ||| (1#16 <<< t) else k.sr.tfull &&& ~~~(1#16 <<< t) } }
  | .sbSet bits => { k with sr := { k.sr with sboard := k.sr.sboard ||| bits } }
  | .sbClear bits => { k with sr := { k.sr with sboard := k.sr.sboard &&& ~~~bits } }
  | .entry e img =>
    let p := vget k.plane k.active {}
    let p' := { p with tiles := match img with | some i => Table.put p.tiles e { img := i } | none => Table.erase p.tiles e }
    { k with plane := vset k.plane k.active p' }
  | .flags sel bits => { k with sr := k.sr.orFlags sel bits }
  | .glast code => { k with sr := { k.sr with bstat := (k.sr.bstat &&& 0x3FF#12) ||| BitVec.ofNat 12 (code * 1024) } }
  | .mended sp w => { k with upsets := k.upsets.filter (fun u => !(u.1 == sp && u.2.1 == w)) }

/-- Order of one cycle's register changes: a PUTS first, then changes and clears of single bits, then set scoreboard bits (R249, R359). -/
def CycSet.rank : CycSet → Nat
  | .sreg _ _ => 0
  | .sbSet _ => 2
  | _ => 1

/-- The end of a cycle: buffered writes in ascending rank, in order of issue within a rank (R258), and register changes (R249, R359). -/
def State.commit (s : State) : State :=
  let ws := s.wb.reverse
  let byRank (t : State) (r : Nat) : State := (ws.filter (fun w => w.rank == r)).foldl State.applyWrite t
  let s1 := (List.range 5).foldl byRank { s with wb := [] }
  let put (t : State) (x : Nat × CycSet) : State := t.modCore x.1 (fun k => k.applySet x.2)
  let one (t : State) (r : Nat) : State := (s1.sets.reverse.filter (fun x => x.2.rank == r)).foldl put t
  (List.range 3).foldl one { s1 with sets := [] }

/-- Move to a later cycle; the cycle left behind ends. -/
def State.advance (s : State) (t : Nat) : State := if s.now < t then { s.commit with now := t } else s

/-- A master ID of the classes that name a core (R299): 0 streams, 1 copy, 2 banks and lodes, 3 collective, 4 stream unit. -/
def coreMaster (cls c : Nat) : Nat := cls * 4096 + c
/-- The origin cycle that an event carries (R407): its launch's stope's, or where no stope is concerned the cycle of the package's clock (log 134). -/
def State.originCycle (s : State) (gen die : Nat) : Nat :=
  match s.stopes.find? (fun t => gen != 0 && t.gen == gen && t.die == die) with
  | some t => t.localAt (512 * die) (t.frozen.getD s.now)
  | none => s.now
/-- Device error event into the kernel's ring (R407): 0 a missed promise, 1 a corrected error, 2 an uncorrectable error,
3 a parity error, 4 a failed unit, 5 a lost clock offset (R420), 6 a thermal trip (R422); cause 25 goes to hart 0. -/
def State.devEvent (s : State) (kind die master addr gen : Nat) : State :=
  { s with ring := s.ring ++ [{ kind, die, master, addr, cycle := s.originCycle gen die, gen }]
           harts := vset s.harts 0 { vget s.harts 0 {} with causes := (vget s.harts 0 {}).causes ++ [25] } }

/-- What a port read of bytes finds beside the data (R278): a poisoned word, single-bit errors to correct. -/
structure PortRead where
  data : List Byte
  poison : Bool
  fixed : Bool
  deriving DecidableEq, Repr

/-- Words of a range that hold exactly one flipped bit. -/
def Core.singles (k : Core) (sp a n : Nat) : List Nat :=
  (wordsOf a n).filter (fun w => (k.upsets.filter (fun u => u.1 == sp && u.2.1 == w)).length == 1)
/-- Words of a range that hold two flipped bits or more. -/
def Core.doubles (k : Core) (sp a n : Nat) : List Nat :=
  (wordsOf a n).filter (fun w => 2 ≤ (k.upsets.filter (fun u => u.1 == sp && u.2.1 == w)).length)
/-- Read bytes of a space through a port (R278). -/
def Core.portRead (k : Core) (sp a n : Nat) : PortRead :=
  { data := (k.space sp).readBytes a n
    poison := !(k.poison.isEmpty && k.upsets.isEmpty) &&
      ((wordsOf a n).any (fun w => k.poison.contains (sp, w)) || !(k.doubles sp a n).isEmpty)
    fixed := !k.upsets.isEmpty && !(k.singles sp a n).isEmpty }
/-- What a port read by a core leaves in a core's space: corrected words to be written back, in W and B at the close of the beat, elsewhere
at the end of the cycle; double errors marked as poison, CORR set for the reader (R278) and the events reported under the class of the unit
that reads (R299, R407, log 87). -/
def State.afterReadBy (s : State) (reader c sp a n : Nat) (cls : Nat := 0) : State :=
  let k := s.core c
  if k.upsets.isEmpty then s
  else
    let one := k.singles sp a n
    let two := k.doubles sp a n
    let s := s.setCore c { k with upsets := k.upsets.filter (fun u => !(u.1 == sp && two.contains u.2.1))
                                  poison := k.poison ++ two.map (fun w => (sp, w))
                                  fixes := k.fixes ++ if sp = 3 then one else [] }
    let s := if sp = 3 then s else one.foldl (fun t w => t.cycSet c (.mended sp w)) s
    let s := if one.isEmpty then s else s.modCore reader (fun k => { k with bflags := k.bflags ||| 0x100 })
    let s := one.foldl (fun t w => t.devEvent 1 (coreDie c) (coreMaster cls reader) (32 * w) k.bnd.gen) s
    two.foldl (fun t w => t.devEvent 2 (coreDie c) (coreMaster cls reader) (32 * w) k.bnd.gen) s
/-- The same where a core reads its own space. -/
def State.afterRead (s : State) (c sp a n : Nat) (cls : Nat := 0) : State := s.afterReadBy c c sp a n cls

/-! ### Beats (R263, R265, R269) -/

/-- Beat n is an ACCESS beat. -/
def State.isAccess (s : State) (n : Nat) : Bool := (s.beatEnt n).ty == 1
/-- Beat n is a COMPUTE beat. -/
def State.isCompute (s : State) (n : Nat) : Bool := (s.beatEnt n).ty == 2
/-- C(n) (R269). -/
def State.computeCount (s : State) (n : Nat) : Nat :=
  let tab := (List.range 16).map (fun i => if (s.beatEnt i).ty = 2 then 1 else 0)
  tab.sum * (n / 16) + (tab.take (n % 16)).sum
/-- Assay beats (R269). -/
def State.isAssay (s : State) (n : Nat) : Bool := s.isCompute n && s.computeCount n % 4096 == 4095
/-- The beat open at a core and the cycle it opened there (R88). -/
def State.coreBeat (s : State) (c : Nat) : Nat × Nat :=
  let d := pulseDelay c
  if s.beatAt + d ≤ s.now then (s.beat, s.beatAt + d)
  else
    match s.beatHist.find? (fun h => h.2.1 + d ≤ s.now) with
    | some h => (h.1, h.2.1 + d)
    | none => (s.beat, s.beatAt + d)
/-- The length of the beat open at a core. -/
def State.coreBeatLen (s : State) (c : Nat) : Nat :=
  let n := (s.coreBeat c).1
  match s.beatHist.find? (fun h => h.1 == n) with
  | some h => h.2.2
  | none => (s.beatEnt n).len
/-- The next beat after n of a kind (R266): 0 access, 1 compute, 2 compute that is no assay beat; `fuel` bounds the search. -/
def State.nextBeat (s : State) (kind : Nat) : Nat → Nat → Nat
  | 0, n => n
  | fuel + 1, n =>
    let m := (n + 1) % beatMod
    if (kind = 0 && s.isAccess m) || (kind = 1 && s.isCompute m) || (kind = 2 && s.isCompute m && !s.isAssay m) then m
    else s.nextBeat kind fuel m

/-! ### Queues (R34, R91) -/

/-- Depths in queue-code order: QS2V, QV2S, QS2M, QV2M, QM2V, BQV, BQM (R35). -/
def queueDepths : List Nat := [8, 8, 16, 4, 4, 16, 16]

/-- A pop at `now` finds an entry pushed in an earlier cycle (R91). -/
def Queue.canPop {α : Type} (q : Queue α) (now : Nat) : Bool :=
  match q.items with
  | [] => false
  | e :: _ => e.1 < now
/-- Slots taken at `now`: entries, pushes under way and slots popped in this cycle (R91, R208). -/
def Queue.taken {α : Type} (q : Queue α) (now : Nat) : Nat :=
  q.items.length + (if q.popAt = now then q.popN else 0) + q.inflight
/-- Append a value pushed at `now`. -/
def Queue.push {α : Type} (q : Queue α) (now : Nat) (v : α) : Queue α := { q with items := q.items ++ [(now, v)] }
/-- The head's value. -/
def Queue.head? {α : Type} (q : Queue α) : Option α := (q.items.head?).map Prod.snd
/-- Remove the head at `now`. -/
def Queue.pop {α : Type} (q : Queue α) (now : Nat) : Queue α :=
  { q with items := q.items.tail, popAt := now, popN := if q.popAt = now then q.popN + 1 else 1 }
/-- Entries as seen at issue by QCNT (R192). -/
def Queue.count {α : Type} (q : Queue α) (now : Nat) : Nat :=
  (q.items.filter (fun e => e.1 < now)).length + (if q.popAt = now then q.popN else 0)

/-! ### Instruction memories (R79, R82, R122) -/

/-- The active plane. -/
def Core.act (k : Core) : Plane := vget k.plane k.active {}
/-- The shadow plane. -/
def Core.shadow (k : Core) : Plane := vget k.plane (1 - k.active) {}
/-- The word a stream would issue at an index, with the fill of R82; none past the last word of its memory. -/
def Core.wordAt (k : Core) (strm : Strm) (i : Nat) : Option Nat :=
  match strm with
  | .scalar => if i < 16384 then some ((k.act.scal.getD i 0xD8100000#32).toNat) else none
  | .vector => if i < 8192 then some ((k.act.vect.getD i (BitVec.allOnes 96)).toNat) else none
  | .matrix => if i < 4096 then some ((k.act.matx.getD i (BitVec.allOnes 192)).toNat) else none
  | .bank _ => none
/-- The gap field of a word (R90, R128, R132). -/
def gapOf (strm : Strm) (w : Nat) : Nat :=
  match strm with
  | .scalar => bitsOf w 24 2
  | .vector => bitsOf w 66 4
  | .matrix => bitsOf w 178 6
  | .bank _ => 0
/-- The gap of the word at an index. -/
def Core.gapAt (k : Core) (strm : Strm) (i : Nat) : Nat :=
  match k.wordAt strm i with
  | some w => gapOf strm w
  | none => 0

/-! ### Raising a fault (R386, R387, R394, R396) -/

/-- SOURCE of a stream (R394). -/
def strmSource : Strm → Nat
  | .scalar => 0
  | .vector => 1
  | .matrix => 2
  | .bank _ => 4
/-- Depth of a stream's replay queue (R396). -/
def replayDepth : Strm → Nat
  | .scalar => 8
  | .vector => 16
  | .matrix => 4
  | .bank _ => 0

/-- Requests of a stope's cores for beats after the one open when it freezes leave the bank queues; the core that issued each keeps it (R388). -/
def State.withhold (s : State) (t : Stope) : State :=
  let late := fun (target : Nat) (r : BankReq) => t.cores.contains r.core && beatLater r.beat (s.beatAtF t target)
  let gone := s.cores.flatMap (fun e => e.2.banks.toList.flatMap (fun b => (b.queue.filter (late e.1)).map (fun r => (e.1, r))))
  if gone.isEmpty then s
  else
    { s with cores := s.cores.map (fun e =>
        (e.1, { e.2 with banks := e.2.banks.map (fun b => { b with queue := b.queue.filter (fun r => !late e.1 r) })
                         withheld := e.2.withheld ++ gone.filter (fun x => x.2.core == e.1) })) }
/-- The stall wire of a stope asserts in this cycle, once (R387): F, the beat open then and its offset (R392). -/
def State.stopStope (s : State) (t : Stope) : State :=
  if t.frozen.isSome then s
  else
    let t' := { t with frozen := some s.now, fbeat := s.beat, foff := s.now - s.beatAt }
    (s.modStope t.id (fun _ => t')).withhold t'
/-- Freeze the stope of a core that faults; a trap window is asked for (R390). -/
def State.freeze (s : State) (c : Nat) : State :=
  match s.stopeOf c with
  | some t => if t.frozen.isSome then s else (s.stopStope t).post s.now 3 none (.run .trapWindowDelivery (.nums [t.id]))
  | none => s

/-- Whether a fault cannot be resumed (R394): DEVIATION subcode 8, a parity POISON (marked by its caller), an overflow. -/
def FaultRec.final (f : FaultRec) : Bool := f.noresume || (f.code == 4 && f.sub == 8)

/-- Record a fault in a core's record: the first in full, later ones counted (R394). -/
def Core.record (k : Core) (f : FaultRec) : Core :=
  match k.fault with
  | none => { k with fault := some { f with count := 1, noresume := f.final } }
  | some r => { k with fault := some { r with count := min 255 (r.count + 1), noresume := r.noresume || f.final } }

/-- Queue a replay entry of a stream, or note the overflow (R396). -/
def Core.enqueue (k : Core) (strm : Strm) (e : Replay) : Core :=
  let st := k.strm strm
  if st.replay.length < replayDepth strm then k.setStrm { st with replay := st.replay ++ [e] } strm
  else { k with fault := k.fault.map (fun r => { r with ovf := true, noresume := true }) }

/-- The class of master IDs of a SOURCE (R299, R394). -/
def sourceClass (source : Nat) : Nat := [0, 0, 0, 1, 2, 2, 3, 4].getD source 0
/-- A fault detected now on a core, with the replay entry of the word that caused it; none for a fault that no word caused
(R357, R362). The stope freezes. -/
def State.raise (s : State) (c : Nat) (f : FaultRec) (e : Option (Strm × Replay)) : State :=
  let s := s.modCore c (fun k =>
    let k := k.record { f with lcyc := s.localCyc c }
    match e with
    | some (strm, r) => k.enqueue strm { r with code := f.code, sub := f.sub, va := f.va, kind := f.kind }
    | none => k)
  let s := if f.code = 4 && f.sub == 8 then s.devEvent 0 (coreDie c) (coreMaster (sourceClass f.source) c) f.va.toNat (s.core c).bnd.gen else s
  s.freeze c

/-- A fault of the word in issue of a stream: the word leaves the stream for its replay entry. A re-injected word that faults again keeps
its place in the queue (R398). -/
def State.raiseIn (s : State) (c : Nat) (f : FaultRec) (strm : Strm) (e : Replay) : State :=
  let again := ((s.core c).strm strm).ovr.isSome
  let s := s.modStrm c strm (fun st =>
    { st with sub := 0, stall := false, fwd := [], fw := none, ovr := none, replay := if again then st.replay.tail else st.replay })
  let s := s.raise c f (some (strm, e))
  if again then
    s.modStrm c strm (fun st =>
      match st.replay.getLast? with
      | some x => { st with replay := x :: st.replay.dropLast }
      | none => st)
  else s

/-! ### A word in issue -/

/-- The word in issue in a stream: the replay entry's, or that of the active plane. -/
def Core.curWord (k : Core) (strm : Strm) : Nat :=
  let st := k.strm strm
  match st.ovr, st.replay with
  | some _, e :: _ => e.word.toNat
  | _, _ => (k.wordAt strm st.widx).getD 0

/-- The value of a scalar register; s0 reads 0 (R163). -/
def Core.sval (k : Core) (r : Nat) : Word64 := if r = 0 then 0 else (vget k.s r {}).val

/-- The registers a scalar word names as ra, rb and rc, by its major (R123 to R126). -/
def scalarRegs (w : Nat) : Nat × Nat × Nat :=
  let m := bitsOf w 26 6
  let f := fun lo => bitsOf w lo 5
  if m = 0x00 || m == 0x08 || m == 0x20 then (f 14, f 9, 0)
  else if m = 0x09 || m == 0x21 then (f 14, f 9, f 4)
  else if (1 ≤ m && m ≤ 5) || (0x18 ≤ m && m ≤ 0x1D) then (f 14, 0, 0)
  else if m = 0x0A || m == 0x0C then (f 11, f 6, 0)
  else if m = 0x0B then (f 11, 0, 0)
  else if m = 0x0D then (if bitsOf w 8 4 = 9 then (f 3, 0, 0) else (0, 0, 0))
  else if m = 0x0F then (f 15, 0, 0)
  else if m = 0x15 then (0, 0, f 17)
  else if m = 0x26 then (if bitsOf w 20 4 = 2 then (f 15, 0, 0) else (0, 0, 0))
  else if m = 0x27 || m == 0x2A || m == 0x2B || m == 0x2C then (f 19, 0, 0)
  else if m = 0x28 || m == 0x32 then (f 19, f 14, 0)
  else if m = 0x33 then (f 9, f 4, 0)
  else if m = 0x34 then (f 10, 0, 0)
  else if m = 0x35 then (f 10, f 5, 0)
  else if m = 0x36 then (if bitsOf w 20 4 = 5 then (f 15, 0, 0) else (0, 0, 0))
  else (0, 0, 0)

/-- The value of operand ra, rb or rc (`j` 0, 1, 2) in register `r`: a re-injected word takes its entry's (R398). -/
def Core.oper (k : Core) (j : Nat) (r : Nat) : Word64 :=
  match k.sc.ovr with
  | some o => if j = 0 then o.opa else if j = 1 then o.opb else o.opc
  | none =>
    -- a WAITM keeps what it read at its issue (R343)
    match k.sc.fwd.find? (fun x => x.1 == j) with
    | some x => BitVec.ofNat 64 (leNat x.2)
    | none => k.sval r

/-- The replay entry of the scalar word in issue (R396); NEXT of a BAR says that its arrival has been made. -/
def Core.scalarEntry (k : Core) : Replay :=
  let w := k.curWord .scalar
  let r := scalarRegs w
  { icyc := k.sc.icyc, word := BitVec.ofNat 192 w, next := if bitsOf w 26 6 = 0x30 && bitsOf w 18 2 == 0 then k.sc.sub else 0, opa := k.oper 0 r.1, opb := k.oper 1 r.2.1, opc := k.oper 2 r.2.2,
    widx := k.sc.widx, own := k.sc.ovr.all (fun o => o.own), code := 0 }

/-! ### Going on (R90, R93, R183, R398) -/

/-- The most recently entered active loop that ends at a word. -/
def pickLoop (lps : Vector LoopReg 4) (idx : Nat) : Option Nat :=
  (List.range 4).foldl (fun best i =>
    let l := vget lps i {}
    if l.active && l.last == idx then
      match best with
      | some b => if (vget lps b {}).entered < l.entered then some i else best
      | none => some i
    else best) none

/-- The loop-back decision at a word (R183); `fuel` bounds the loops that can end there. -/
def loopBack (idx : Nat) : Nat → Vector LoopReg 4 → Vector LoopReg 4 × Option Nat
  | 0, lps => (lps, none)
  | fuel + 1, lps =>
    match pickLoop lps idx with
    | none => (lps, none)
    | some i =>
      let l := vget lps i {}
      if 1 < l.count then (vset lps i { l with count := l.count - 1 }, some l.first)
      else loopBack idx fuel (vset lps i { l with count := 0, active := false })

/-- Loops left by a taken BR, BRN or JMP (R184). -/
def leaveLoops (lps : Vector LoopReg 4) (target : Nat) : Vector LoopReg 4 :=
  lps.map (fun l => if l.active && (target < l.first || l.last < target) then { l with active := false } else l)

/-- Take the word in issue out of a stream: no override, no part done, its replay entry gone. -/
def StreamSt.endWord (st : StreamSt) : StreamSt :=
  { st with sub := 0, fwd := [], fw := none, stall := false, arrived := false, ovr := none
            replay := if st.ovr.isSome then st.replay.tail else st.replay }

/-- The word in issue is the one the stream stands on: a re-injected word of an earlier place leaves the position alone (R398). -/
def StreamSt.standsOn (st : StreamSt) : Bool := st.ovr.all (fun o => o.own)

/-- Schedule a scalar stream's next issue once a word has taken `occ` cycles: the next replay entry, or the word at `next`. -/
def State.scalarGoOn (s : State) (c occ : Nat) : State :=
  let k := s.core c
  if k.sc.replay.isEmpty then
    if k.sc.live && !k.sc.halted && !k.sc.waiting then s.postIssue c .scalar (s.now + occ + k.gapAt .scalar k.sc.next) else s
  else s.postIssue c .scalar (max (s.now + 1) (k.sc.replay.head?.elim 0 (fun e => e.place)))

/-- A scalar word has issued: where the stream goes, by a taken branch or a loop back or the next index (R90, R180, R183). -/
def State.scalarDone (s : State) (c occ : Nat) (jump : Option Nat) : State :=
  let s := s.modCore c (fun k =>
    let k :=
      if k.sc.standsOn then
        match jump with
        | some t => { k with sc := { k.sc with next := t } }
        | none =>
          let r := loopBack k.sc.widx 4 k.lp
          { k with lp := r.1, sc := { k.sc with next := r.2.getD (k.sc.widx + 1) } }
      else k
    { k with sc := k.sc.endWord })
  s.scalarGoOn c occ

/-- A stream waits for its blocking condition to clear (R96): it tries again in the next cycle. -/
def State.stall (s : State) (c : Nat) (strm : Strm) : State :=
  (s.modStrm c strm (fun st => { st with stall := true })).post (s.now + 1) 1 (some c) (.run .stallRelease (.strm c strm))

/-- A blocking condition at the scheduled cycle (R96, R97): DEVIATION in a TIMED stope, a stall in an ELASTIC one. -/
def State.blocked (s : State) (c : Nat) (strm : Strm) (sub : Nat) (e : Replay) : State :=
  if s.elastic c then s.stall c strm else s.raiseIn c { code := 4, sub, source := strmSource strm, kind := 255 } strm e

/-- What a scalar word comes to: it completes after `occ` cycles, perhaps with a taken branch; it raises a fault; it finds a
blocking condition with a DEVIATION subcode; or it has left a state in which its stream waits. -/
inductive SOut where
  | ok (s : State) (occ : Nat) (jump : Option Nat)
  | fault (s : State) (f : FaultRec)
  | block (s : State) (sub : Nat)
  | wait (s : State)

/-- How a scalar word of a core ends (R121, R96, R386). -/
def finishScalar (c : Nat) : SOut → Host.Outcome State Fault Refusal
  | .ok s occ jump => .next (s.scalarDone c occ jump)
  | .fault s f => .next (s.raiseIn c f .scalar (s.core c).scalarEntry)
  | .block s sub => .next (s.blocked c .scalar sub (s.core c).scalarEntry)
  | .wait s => .next s

/-- A plain fault of the scalar stream. -/
def sfault (s : State) (code : Nat) : SOut := .fault s { code, kind := 255 }
/-- ILLEGAL_INSTRUCTION (R121). -/
def sIllegal (s : State) : SOut := sfault s 0x01
/-- ILLEGAL_OPERAND (R121). -/
def sOperand (s : State) : SOut := sfault s 0x02

/-- A word whose condition speaks of everything done by a cycle (R83, R204, R306, R341): where it does not hold when the word is due, it is
looked at once more at the end of the cycle. -/
def lateLook (s : State) (c : Nat) (ok : Bool) (yes : SOut) : SOut :=
  let k := s.core c
  if ok then yes
  else if k.sc.arrived then .block (s.setCore c { k with sc := { k.sc with arrived := false } }) 4
  else .wait ((s.setCore c { k with sc := { k.sc with arrived := true, stall := true } }).post s.now 4 (some c) (.issue c .scalar))

/-- Run a scalar word: step 1 of R121, then its own effect. -/
def scalarWord (i : Instr) (s : State) (f : State → Nat → SOut) : Host.Outcome State Fault Refusal :=
  finishScalar s.curCore (if i.wf then f s s.curCore else sIllegal s)

/-! ### Results of scalar words (R167, R168) -/

/-- A result on its way to a place, readable `lat` cycles from now; results to s0 are discarded (R169). -/
def State.sendResult (s : State) (c : Nat) (place : SPlace) (v : Word64) (lat : Nat) : State :=
  if place = .reg 0 then s
  else
    let st := (s.core c).sc
    s.post (s.now + lat) 0 (some c) (.run .scalarResult (.sres { core := c, place, val := v, stamp := st.istamp, icyc := st.icyc }))
/-- A register result. -/
def State.toReg (s : State) (c : Nat) (d : BitVec 5) (v : Word64) (lat : Nat) : State := s.sendResult c (.reg d) v lat

/-- Sticky flags of the scalar stream (R166). -/
def State.orSstat (s : State) (c flags : Nat) : State :=
  if flags = 0 then s else s.modCore c (fun k => { k with sr := { k.sr with sstat := k.sr.sstat ||| BitVec.ofNat 7 flags } })

/-- A register still waiting for a result of unknown arrival (R170). -/
def Core.pendingReg (k : Core) (r : Nat) : Bool := r != 0 && (vget k.s r {}).pending.isSome

/-! ### The parts a die has (R13, R18, R19) -/

/-- The enabled cores of a die as a predicate on the index (R18, R19). -/
def Fuses.coreOn (f : Fuses) (c : Nat) : Bool :=
  c < (if f.die1 then 1024 else 512) && !f.offCores.contains c && !f.offArrays.contains (quadOf c)
/-- Enabled quads: four cores and the array (R19). -/
def Fuses.quadOn (f : Fuses) (q : Nat) : Bool := !f.offArrays.contains q && (List.range 4).all (fun i => f.coreOn (quadCore q i))
/-- The cores of a sector, numbered through both dies (R13). -/
def sectorCores (x : Nat) : List Nat :=
  (List.range 32).map (fun i => x / 16 * 512 + (x % 16 / 8 * 8 + i / 4) * 32 + (x % 8 * 4 + i % 4))
/-- Enabled sectors (R19). -/
def Fuses.sectorOn (f : Fuses) (x : Nat) : Bool := (sectorCores x).all f.coreOn
/-- Count of the numbers [lo, lo + n) that a predicate picks. -/
def countFrom (lo n : Nat) (p : Nat → Bool) : Nat := ((List.range n).filter (fun i => p (lo + i))).length
/-- CAP as read on a die (R18). -/
def Fuses.cap (f : Fuses) (die : Nat) : Word64 :=
  BitVec.ofNat 64
    (f.part % 16 + (if f.lode then 16 else 0) + (if f.die1 then 32 else 0) + (f.arev % 256) <<< 8
      + countFrom (512 * die) 512 f.coreOn <<< 16
      + countFrom 0 1024 f.coreOn <<< 32
      + countFrom (128 * die) 128 f.quadOn <<< 48 + countFrom (16 * die) 16 f.sectorOn <<< 56)

/-! ### Slots of plans (R364) -/

/-- Slots come to a pool, or come back to it: those that an ended plan still owes are gone, the rest are free. -/
def FlowSt.gain (f : FlowSt) (n : Nat) : FlowSt := { f with free := f.free + (n - f.owed), owed := f.owed - n }
/-- Slots are taken from a pool: those in use are owed, and go when they come back. -/
def FlowSt.lose (f : FlowSt) (n : Nat) : FlowSt := { f with free := f.free - n, owed := f.owed + (n - f.free) }

end Sys2Proof.Machine
end

