-- ==== Sys2Proof/Machine/HartCsr.lean ====
section
/-! DEFINITION. The registers of a Headframe hart, its control and status registers, and how it takes a trap and returns from one, as the RISC-V privileged specification defines them (00_scope.md, R2; R139, R390, R407; log 49). -/

namespace Sys2Proof.Machine

/-! ### Registers -/

/-- A hart by number. -/
def State.hart (s : State) (h : Nat) : Hart := vget s.harts h {}
/-- Change a hart. -/
def State.modHart (s : State) (h : Nat) (f : Hart → Hart) : State := { s with harts := vset s.harts h (f (s.hart h)) }
/-- A hart's integer register; x0 reads 0. -/
def Hart.reg (h : Hart) (r : Nat) : Word64 := if r = 0 then 0 else vget h.x r 0
/-- A hart's integer register written; x0 discards. -/
def Hart.setReg (h : Hart) (r : Nat) (v : Word64) : Hart := if r = 0 then h else { h with x := vset h.x r v }

/-! ### Control and status registers -/

/-- Bits of mstatus. -/
def mstSIE : Nat := 1
def mstMIE : Nat := 3
def mstSPIE : Nat := 5
def mstMPIE : Nat := 7
def mstSPP : Nat := 8
def mstMPRV : Nat := 17
def mstSUM : Nat := 18
def mstMXR : Nat := 19
def mstTVM : Nat := 20
def mstTSR : Nat := 22
/-- A stored register; mstatus starts with FS = 1, every other one with 0 (log 49). -/
def Hart.csr (x : Hart) (n : Nat) : Word64 := Table.getD x.csrs n (if n = 0x300 then 0x2000 else 0)
/-- Store a register whole. -/
def Hart.putCsr (x : Hart) (n : Nat) (v : Word64) : Hart := { x with csrs := Table.put x.csrs n v }
/-- A bit of mstatus. -/
def Hart.mst (x : Hart) (i : Nat) : Bool := bitOf (x.csr 0x300).toNat i
/-- The FS field: 0 turns the floating-point words off. -/
def Hart.fs (x : Hart) : Nat := bitsOf (x.csr 0x300).toNat 13 2
/-- A floating-point register or fcsr has been written: FS is dirty. -/
def Hart.dirtyFp (x : Hart) : Hart := x.putCsr 0x300 (x.csr 0x300 ||| 0x6000)
/-- Bits of mstatus and of sstatus that software writes; XLEN is 64 in S and U; SD follows FS. -/
def mstMask : Word64 := 0x7E79AA
def sstMask : Word64 := 0xC6122
def mstFixed : Word64 := 0xA00000000
def sstFixed : Word64 := 0x200000000
/-- mstatus as it reads. -/
def Hart.mstatus (x : Hart) : Word64 := (x.csr 0x300 &&& mstMask) ||| mstFixed ||| (if x.fs = 3 then 1 <<< 63 else 0)
/-- The cause that a DOOR write raises (R415): among those that RISC-V leaves to the platform (log 148). -/
def doorCause : Nat := 32 + Config.doorCause.toNat
/-- Interrupts that a supervisor may be given: its own three, the local causes 24 and 25, and that of DOOR. -/
def delegable : Word64 := 0x3000222 ||| (1 <<< doorCause)
/-- Interrupt enables that exist. -/
def ieMask : Word64 := 0x3000AAA ||| (1 <<< doorCause)
/-- mip: the bits that software holds, and the local causes as they are pending (R390, R407, R415). -/
def Hart.mip (x : Hart) : Word64 :=
  (x.csr 0x344 &&& 0x222) ||| (if x.causes.contains 24 then 1 <<< 24 else 0) ||| (if x.causes.contains 25 then 1 <<< 25 else 0)
    ||| (if x.causes.contains doorCause then 1 <<< doorCause else 0)
/-- The bits of a register that a write changes; none for a register that does not exist. Registers that read a constant have none. -/
def csrMask (n : Nat) : Option Word64 :=
  if n = 0x003 then some 0xFF
  else if n = 0x105 || n == 0x305 then some (~~~2)
  else if n = 0x10A || n == 0x30A then some 1
  else if n = 0x140 || n == 0x340 || n == 0x142 || n == 0x342 || n == 0x143 || n == 0x343 || n == 0xB00 || n == 0xB02 then some (BitVec.allOnes 64)
  else if n = 0x141 || n == 0x341 then some (~~~1)
  else if n = 0x180 then some (BitVec.allOnes 64)
  else if n = 0x300 then some mstMask
  else if n = 0x302 then some 0xB3FF
  else if n = 0x303 then some delegable
  else if n = 0x304 then some ieMask
  else if n = 0x320 then some 5
  else if n = 0x344 then some (0x2000222 ||| (1 <<< doorCause))
  else if n = 0x106 || n == 0x301 || n == 0x306 || (0xF11 ≤ n && n ≤ 0xF15) || (0xB03 ≤ n && n ≤ 0xB1F) || (0x323 ≤ n && n ≤ 0x33F) then some 0
  else none
/-- A register that exists, as it reads; the two counters read a value that is open. -/
def State.csrRead (s : State) (h n : Nat) : Option Word64 :=
  let x := s.hart h
  if n = 0x001 then some (x.csr 0x003 &&& 31)
  else if n = 0x002 then some (x.csr 0x003 >>> 5)
  else if n = 0x100 then some ((x.mstatus &&& (sstMask ||| (1 <<< 63))) ||| sstFixed)
  else if n = 0x104 then some (x.csr 0x304 &&& x.csr 0x303)
  else if n = 0x144 then some (x.mip &&& x.csr 0x303)
  else if n = 0x300 then some x.mstatus
  else if n = 0x301 then some 0x800000000014112D
  else if n = 0x344 then some x.mip
  else if n = 0xF14 then some (BitVec.ofNat 64 h)
  else if n = 0xB00 || n == 0xB02 then some (Config.freeWord s.free)
  else (csrMask n).map (fun _ => x.csr n)
/-- Some bits of a register replaced. -/
def Hart.mergeCsr (x : Hart) (n : Nat) (m v : Word64) : Hart := x.putCsr n ((x.csr n &&& ~~~m) ||| (v &&& m))
/-- A write of a register. A mode of satp other than Bare and Sv57, and a reserved MPP, leave the old value; clearing bit 25 of mip, or that of
DOOR, takes the cause as seen. -/
def Hart.csrWrite (x : Hart) (n : Nat) (v : Word64) : Hart :=
  if n = 0x001 then (x.mergeCsr 0x003 31 v).dirtyFp
  else if n = 0x002 then (x.mergeCsr 0x003 0xE0 (v <<< 5)).dirtyFp
  else if n = 0x003 then (x.mergeCsr 0x003 0xFF v).dirtyFp
  else if n = 0x100 then x.mergeCsr 0x300 sstMask v
  else if n = 0x104 then x.mergeCsr 0x304 (x.csr 0x303) v
  else if n = 0x144 then x.mergeCsr 0x344 (x.csr 0x303 &&& 2) v
  else if n = 0x180 then (if v >>> 60 = 0 || v >>> 60 == 10 then x.putCsr n v else x)
  else if n = 0x300 then x.mergeCsr n (if (v >>> 11) &&& 3 = 2 then mstMask &&& ~~~0x1800 else mstMask) v
  else if n = 0x344 then
    { x.mergeCsr n 0x222 v with causes := x.causes.filter (fun c => c == 24 || bitOf v.toNat c) }
  else x.mergeCsr n ((csrMask n).getD 0) v
/-- A hart in its mode may reach a register: its number names the least mode; satp asks mstatus.TVM, fcsr asks mstatus.FS. -/
def Hart.csrOpen (x : Hart) (n : Nat) (write : Bool) : Bool :=
  decide (bitsOf n 8 2 ≤ x.mode) && !(write && bitsOf n 10 2 == 3) && !(n == 0x180 && x.mode == 1 && x.mst mstTVM) && !(n ≤ 3 && x.fs == 0)

/-! ### Traps -/

/-- The pc of a handler: the base, or for an interrupt in vectored mode a place of its own. -/
def trapPc (tvec : Word64) (cause : Nat) (irq : Bool) : Word64 :=
  (tvec &&& ~~~3#64) + (if irq && tvec &&& 3 == 1 then BitVec.ofNat 64 (4 * cause) else 0)
/-- Enter a trap: the pc, the cause and the value are saved, the interrupt enable and the mode go into mstatus, and the pc goes to the
handler of the supervisor where the cause is delegated and the hart is not in M-mode, and to the machine's otherwise. -/
def Hart.trap (x : Hart) (cause : Nat) (tval : Word64) (irq : Bool) : Hart :=
  let code := BitVec.ofNat 64 cause ||| (if irq then 1#64 <<< 63 else 0#64)
  let st := x.csr 0x300
  if x.mode ≤ 1 && bitOf (x.csr (if irq then 0x303 else 0x302)).toNat cause then
    let st := (st &&& ~~~0x122#64) ||| (if x.mst mstSIE then 1#64 <<< mstSPIE else 0#64) ||| (if x.mode = 1 then 1#64 <<< mstSPP else 0#64)
    { (((x.putCsr 0x141 x.pc).putCsr 0x142 code).putCsr 0x143 tval).putCsr 0x300 st with mode := 1, pc := trapPc (x.csr 0x105) cause irq }
  else
    let st := (st &&& ~~~0x1888#64) ||| (if x.mst mstMIE then 1#64 <<< mstMPIE else 0#64) ||| (BitVec.ofNat 64 x.mode <<< 11)
    { (((x.putCsr 0x341 x.pc).putCsr 0x342 code).putCsr 0x343 tval).putCsr 0x300 st with mode := 3, pc := trapPc (x.csr 0x305) cause irq }
/-- A hart takes an exception. -/
def State.hartTrap (s : State) (h cause : Nat) (tval : Word64) : State := s.modHart h (fun x => x.trap cause tval false)
/-- Return from the machine's handler: pc, mode and interrupt enable come back; MPRV ends where the mode is not M. -/
def Hart.mret (x : Hart) : Hart :=
  let st := x.csr 0x300
  let mode := bitsOf st.toNat 11 2
  let new := (st &&& ~~~0x1888#64) ||| (if x.mst mstMPIE then 1#64 <<< mstMIE else 0#64) ||| (1#64 <<< mstMPIE)
  { x.putCsr 0x300 (if mode = 3 then new else new &&& ~~~(1#64 <<< mstMPRV)) with mode, pc := x.csr 0x341 }
/-- Return from the supervisor's handler. -/
def Hart.sret (x : Hart) : Hart :=
  let st := x.csr 0x300
  let new := (st &&& ~~~0x122#64) ||| (if x.mst mstSPIE then 1#64 <<< mstSIE else 0#64) ||| (1#64 <<< mstSPIE)
  { x.putCsr 0x300 (new &&& ~~~(1#64 <<< mstMPRV)) with mode := (if x.mst mstSPP then 1 else 0), pc := x.csr 0x141 }
/-- The interrupt a hart takes next: pending and enabled, the machine's before the supervisor's, in the specification's order. -/
def Hart.interrupt (x : Hart) : Option Nat :=
  let due := (x.mip &&& x.csr 0x304).toNat
  let given := (x.csr 0x303).toNat
  let order := [11, 3, 7, 9, 1, 5, 24, 25, doorCause]
  let machine := if x.mode < 3 || x.mst mstMIE then order.find? (fun i => bitOf due i && !bitOf given i) else none
  machine.or (if x.mode < 1 || (x.mode == 1 && x.mst mstSIE) then order.find? (fun i => bitOf due i && bitOf given i) else none)
/-- The mode whose rights loads and stores use: that of MPP where an M-mode hart has set MPRV. -/
def Hart.dataMode (x : Hart) : Nat := if x.mode = 3 && x.mst mstMPRV then bitsOf (x.csr 0x300).toNat 11 2 else x.mode

/-- An illegal-instruction exception of a hart, cause 2 (R139, log 12). -/
def State.hartIllegal (s : State) (h : Nat) : State := s.hartTrap h 2 0
/-- A custom-0 word executes in S-mode or M-mode only (R139). -/
def hartWord (s : State) (f : State → State) : Host.Outcome State Fault Refusal :=
  .next (if (s.hart s.curHart).mode = 0 then s.hartIllegal s.curHart else f s)

end Sys2Proof.Machine
end

