-- ==== Sys2Proof/Machine/Fetch.lean ====
section
/-! DEFINITION. Fetching the next instruction: of a stream from its active plane or replay queue (R79, R90, R398), of a Headframe hart from memory (R49, R139). -/

namespace Sys2Proof.Machine

/-- The address register a vector word uses, if any (R131). -/
def vectorAreg (w : Nat) : Option Nat :=
  let op := bitsOf w 88 8
  if 0x50 ≤ op && op ≤ 0x59 then some (bitsOf w 21 3) else if op = 0x45 then some (bitsOf w 5 3) else none

/-- A mask register's value; m0 reads as all ones (R205). -/
def Core.mval (k : Core) (m : Nat) : MaskWord := if m = 0 then BitVec.allOnes 256 else (vget k.m m {}).val


/-- The address register value a vector word works from (R396, R398). -/
def Core.areg (k : Core) (a : Nat) : Word64 := (vget k.ar a {}).val

/-- A value that the word in issue keeps from its first repeat on. -/
def StreamSt.kept (st : StreamSt) (key : Nat) : Option Nat := (st.fwd.find? (fun f => f.1 == key)).map (fun f => leNat f.2)
/-- Keys of what a word keeps beside forwarded rows: its flag mask (R225), the draw key and scale of its issue (R154), its address register
(R316), BT (R319). -/
def maskKey : Nat := 4096
def drawKey : Nat := 4097
def baseKey : Nat := 5000
def btKey : Nat := 5001
/-- The draw key and the dropout scale that a core's registers hold (R154): the key in the low 64 bits. -/
def Core.drawNow (k : Core) : Nat := k.sr.dscale.toNat * 2 ^ 64 + k.sr.keyHi.toNat * 2 ^ 32 + k.sr.keyLo.toNat
/-- The draw key of the word in issue of a stream: a PUTS acts on the instructions that issue after it (R154). -/
def Core.keyFor (k : Core) (st : StreamSt) : Nat := ((st.kept drawKey).getD k.drawNow) % 2 ^ 64
/-- The dropout scale of the word in issue (R154). -/
def Core.scaleFor (k : Core) (st : StreamSt) : Nat := ((st.kept drawKey).getD k.drawNow) / 2 ^ 64
/-- Keep the draw key and the scale for the later repeats or rows of the word in issue (R154). -/
def State.keepDraw (s : State) (c : Nat) (strm : Strm) : State :=
  let k := s.core c
  if ((k.strm strm).kept drawKey).isSome then s
  else s.modStrm c strm (fun st => { st with fwd := (drawKey, leBytes 12 k.drawNow) :: st.fwd })
/-- The mask register that a word names, as its repeat in issue reads it: a mask that an earlier repeat of the word wrote counts at once (R207). -/
def Core.maskNow (k : Core) (w : Nat) : MaskWord :=
  let m := bitsOf w 80 4
  match k.ve.kept maskKey with
  | some x => if m != 0 && bitsOf w 20 4 == m then BitVec.ofNat 256 x else k.mval m
  | none => k.mval m
/-- The active elements of the repeat in issue: the mask's bits, or those of the replay entry for its first repeat (R396, R398). -/
def Core.lanesNow (k : Core) (w : Nat) : MaskWord :=
  match k.ve.ovr, k.ve.replay with
  | some o, e :: _ => if k.ve.sub = e.next then o.lanes else k.maskNow w
  | _, _ => k.maskNow w
/-- The address register value a vector word works from: its entry's where it is re-injected, else as at its issue (R316, R398). -/
def Core.vbase (k : Core) (a : Nat) : Word64 :=
  match k.ve.ovr with
  | some o => o.opa
  | none => (k.ve.kept baseKey).elim (k.areg a) (BitVec.ofNat 64)

/-- The replay entry of the vector word in issue, with its repeat in NEXT (R396). -/
def Core.vectorEntry (k : Core) : Replay :=
  let w := k.curWord .vector
  { icyc := k.ve.icyc, word := BitVec.ofNat 192 w, next := k.ve.sub, lanes := k.lanesNow w
    opa := match k.ve.ovr with
      | some o => o.opa
      | none => (vectorAreg w).elim 0 k.vbase
    widx := k.ve.widx, own := k.ve.ovr.all (fun o => o.own), fwd := if k.ve.sub = 0 then [] else k.ve.fwd.filter (fun f => f.1 < baseKey) }

/-- The replay entry of the matrix word in issue, with its row in NEXT and a format word it holds (R237, R396). -/
def Core.matrixEntry (k : Core) : Replay :=
  { icyc := k.mx.icyc, word := BitVec.ofNat 192 (k.curWord .matrix), next := k.mx.sub, held := k.mx.fw.isSome
    opc := k.mx.fw.getD 0, widx := k.mx.widx, own := k.mx.ovr.all (fun o => o.own), fwd := if k.mx.sub = 0 then [] else k.mx.fwd }

/-- The replay entry of the word in issue in a stream. -/
def Core.entryOf (k : Core) : Strm → Replay
  | .vector => k.vectorEntry
  | .matrix => k.matrixEntry
  | _ => k.scalarEntry

/-- A word reaches its issue cycle: a fresh word takes its index, issue order and cycle, a replay entry its overrides (R396, R398). -/
def StreamSt.begin (st : StreamSt) (seq cyc : Nat) : StreamSt :=
  if st.sub != 0 || st.ovr.isSome then { st with icyc := if st.sub = 0 then cyc else st.icyc }
  else
    let stamp := if st.stall then st.istamp else seq
    let st := { st with tried := if st.stall then st.tried else cyc }
    match st.replay with
    | e :: _ =>
      { st with widx := e.widx, sub := e.next, istamp := e.stamp.getD stamp, icyc := if e.stamp.isSome then e.icyc else cyc, stall := false
                fwd := if e.next = 0 then e.fwd.filter (fun f => f.1 == drawKey) else e.fwd, fw := if e.held then some e.opc else none
                ovr := some { opa := e.opa, opb := e.opb, opc := e.opc, lanes := e.lanes, held := e.held, code := e.code, own := e.own } }
    | [] => { st with widx := st.next, istamp := stamp, icyc := cyc, stall := false, fwd := if st.stall then st.fwd else [] }

/-- A replay entry that is not issued: DONE or DISCARD is set (R398). -/
def StreamSt.skips (st : StreamSt) : Bool :=
  st.sub == 0 && st.ovr.isNone &&
    match st.replay with
    | e :: _ => e.done || e.discard
    | [] => false

/-- Go on after a replay entry or a vector or matrix word: the next entry, the next word of the block, or nothing. -/
def State.engineGoOn (s : State) (c : Nat) (strm : Strm) (occ : Nat) : State :=
  let k := s.core c
  let st := k.strm strm
  let least := if strm == .vector then 1 else occ
  if let e :: _ := st.replay then s.postIssue c strm (max (s.now + least) e.place)
  else
    let from_ := if st.goAt = 0 then s.now + occ else st.goAt
    let s := s.modStrm c strm (fun st => { st with goAt := 0 })
    if st.live then s.postIssue c strm (max (s.now + 1) (from_ + k.gapAt strm st.next))
    else
    let waiting := match strm with
      | .vector => !k.bqv.items.isEmpty
      | _ => !k.bqm.items.isEmpty
    if waiting then s.post (max (s.now + 1) from_) 1 (some c) (.run .blockStart (.strm c strm)) else s

/-- Skip the head of a replay queue: it occupies its place for one cycle; a word the stream stands on is left behind (R398). -/
def State.skipEntry (s : State) (c : Nat) (strm : Strm) : State :=
  let s := s.modStrm c strm (fun st =>
    match st.replay with
    | e :: r => { st with replay := r, fwd := [], fw := none, goAt := if e.final && !r.isEmpty then s.now + 1 else st.goAt, next := if e.own && !e.done then e.widx + 1 else st.next }
    | [] => st)
  match strm with
  | .scalar => s.scalarGoOn c 1
  | _ => s.engineGoOn c strm 1

/-- A stream's turn to issue: the machine with the stream in the cursor. -/
def State.beginIssue (s : State) (c : Nat) (strm : Strm) : State :=
  { s.modStrm c strm (fun st => st.begin s.seq (s.localCyc c)) with curCore := c, curStrm := strm, seq := s.seq + 1 }

/-- The instruction of a stream's word (R121 step 1). -/
def decodeFor (strm : Strm) (w : Nat) : Except DecodeError Instr :=
  match strm with
  | .vector => decodeVector w
  | .matrix => decodeMatrix w
  | _ => decodeScalar w

/-- The instruction that the word in issue decodes to; none past the memory's end or for a word that is no instruction. -/
def State.fetched (s : State) (c : Nat) (strm : Strm) : Option Instr :=
  let k := s.core c
  let st := k.strm strm
  if st.ovr.isNone && (k.wordAt strm st.widx).isNone then none else (decodeFor strm (k.curWord strm)).toOption

/-- ILLEGAL_INSTRUCTION on the word in issue (R82, R121). -/
def State.illegalWord (s : State) (c : Nat) (strm : Strm) : State :=
  s.raiseIn c { code := 1, source := strmSource strm } strm ((s.core c).entryOf strm)

/-! ### Headframe harts -/

/-- The system call that a number in a7 names, with the operation that a0 to a5 choose within it (R51, R262, R292, R363). -/
def callOf (x : Nat → Word64) : Instr :=
  match (x 17).toNat with
  | 1 => .kqOpenBundle
  | 2 => .kqLaunch
  | 3 => .kqWait
  | 4 => .kqGraphNew
  | 5 => .kqGraphEdit
  | 6 => .kqGraphRun
  | 7 => .kqQueuePrio
  | 8 => .kqMemAlloc
  | 9 => .kqMemFree
  | 10 =>
    match (x 12).toNat with
    | 1 => .kqMemMapPin
    | 2 => .kqMemMapUnpin
    | 3 => .kqMemMapMigrate
    | _ => .kqMemMapWritable
  | 11 => if (x 13).toNat = 1 then .kqSeamAllocRelease else .kqSeamAllocReserve
  | 12 => .kqStreamOpen
  | 13 => .kqStreamClose
  | 14 => if (x 11).toNat = 1 then .kqPlanRelease else .kqPlanRegister
  | 15 => .kqFaultHandler
  | 16 => .kqFileRead
  | 17 => .kqFileWrite
  | 18 => .kqAttest
  | 19 => .kqExit
  | _ => .noCall

/-- What a hart's word is to this manual: a system call, a custom-0 word, a custom-0 pattern that is none (an exception), or a word
of the RISC-V base set. -/
inductive HartWord where
  | instr (i : Instr)
  | exception
  | base
  deriving DecidableEq, Repr

/-- Classify a hart's word (R49, R139). -/
def hartWordOf (h : Hart) (w : Nat) : HartWord :=
  if w = 0x00000073 && h.mode == 0 then .instr (callOf h.reg)
  else if w % 128 = 0x0B then
    match decodeHart w with
    | .ok i => .instr i
    | .error _ => .exception
  else .base

end Sys2Proof.Machine
end

