-- ==== Sys2Proof/Machine/Translate.lean ====
section
/-! DEFINITION. Virtual addresses, page walks, TLBs, physical homes, access tables, admission, and sending a global request (R280, R281, R285 to R299, R337). -/

namespace Sys2Proof.Machine

/-! ### Page tables (R286) -/

/-- Bit `i` of a PTE. -/
def pteBit (p : Word64) (i : Nat) : Bool := bitOf p.toNat i
/-- The physical page number of a PTE. -/
def ptePpn (p : Word64) : Nat := bitsOf p.toNat 10 44
/-- The page of a leaf at a level: 64 KiB for a Svnapot leaf (R286). -/
def leafSize (p : Word64) (lvl : Nat) : Nat := if lvl = 0 && pteBit p 63 then 65536 else 2 ^ (12 + 9 * lvl)
/-- A leaf lets a device unit read, or write (R286). -/
def leafOk (p : Word64) (lvl : Nat) (write : Bool) : Bool :=
  pteBit p 4 && pteBit p 1 && pteBit p 6 && (!write || (pteBit p 2 && pteBit p 7))
    && bitsOf p.toNat 54 7 == 0 && bitsOf p.toNat 61 2 == 0
    && (!pteBit p 63 || (lvl == 0 && ptePpn p % 16 == 8)) && ptePpn p % 2 ^ (9 * lvl) == 0
/-- The physical address a leaf gives (R286): 56 bits. -/
def leafPa (p : Word64) (size va : Nat) : Nat := (ptePpn p * 4096 / size * size + va % size) % 2 ^ 56

/-- Where a walk ends. -/
inductive WalkEnd where
  | leaf (pte : Word64) (lvl : Nat)
  | fault (lvl : Nat)
  deriving DecidableEq, Repr

/-- The walk from a level downward (R286): `l` levels remain below and with this one. -/
def walkFrom (t : Table (Table Word64)) (va : Nat) : Nat → WalkEnd
  | 0 => .fault 0
  | l + 1 =>
    let p := Table.getD (Table.getD t l []) (va % 2 ^ 57 / 2 ^ (12 + 9 * l)) 0
    if !pteBit p 0 || (pteBit p 2 && !pteBit p 1) then .fault l
    else if pteBit p 1 || pteBit p 3 then .leaf p l
    else if bitsOf p.toNat 54 10 != 0 || pteBit p 4 || pteBit p 6 || pteBit p 7 then .fault l
    else walkFrom t va l

/-- A virtual address whose bits [63:57] equal bit 56 (R286). -/
def canonicalVa (va : Nat) : Bool := bitsOf va 56 8 == 0 || bitsOf va 56 8 == 255

/-- The page of the process address space at which the kernel maps the capability map (R20, log 56). -/
def capMapVa : Nat := Config.capMapBase.toNat % 2 ^ 56 / 4096 * 4096
/-- Its entry in every process's tables: valid, readable, for user mode, accessed; the page lies among the blocks of the I/O die. -/
def capMapPte (pkg : Nat) : Word64 := BitVec.ofNat 64 ((pkg * 2 ^ 38 + 2 ^ 37 + Config.capMapPage.toNat) * 1024 + 0x53)
/-- The walk of a process's tables, which hold the capability map beside what the process has been given: no allocation is placed over it (R20, R285,
R286, log 56). -/
def State.procWalk (s : State) (p : Proc) (va : Nat) : WalkEnd :=
  match walkFrom p.ptes va 5 with
  | .fault l => if va / 4096 * 4096 = capMapVa then .leaf (capMapPte s.pkg) 0 else .fault l
  | x => x
/-- A device unit's walk for a read or a write: the leaf, or the level it stopped at (R286, R293). -/
def State.walk (s : State) (p : Proc) (va : Nat) (write : Bool) : WalkEnd :=
  if !canonicalVa va then .fault 4
  else
    match s.procWalk p va with
    | .leaf e l => if leafOk e l write then .leaf e l else .fault l
    | x => x

/-- The physical address of a process address for the kernel's own and the ports' accesses, walked afresh. -/
def State.walkPa (s : State) (spid va : Nat) (write : Bool) : Option Nat :=
  match s.proc? spid with
  | some p =>
    match s.walk p va write with
    | .leaf e l => some (leafPa e (leafSize e l) va)
    | .fault _ => none
  | none => none

/-! ### Physical homes (R287, R288) -/

/-- What a physical address names. -/
inductive Home where
  | lpddr (die : Nat)
  | remote (pkg : Nat)
  | mmio
  | none
  deriving DecidableEq, Repr

/-- An address of another package (R287). -/
def State.isRemote (s : State) (pa : Nat) : Bool := pa / 2 ^ 50 % 64 != s.pkg
/-- The package of an address (R287). -/
def paPkg (pa : Nat) : Nat := pa / 2 ^ 50 % 64
/-- The routing entry of a package lets traffic pass (R288). -/
def State.routes (s : State) (p : Nat) : Bool := p == s.pkg || bitOf (vget s.routing (p % 64) 0).toNat 5
/-- The home of a physical address (R287). -/
def State.homeOf (s : State) (pa : Nat) : Home :=
  let pkg := pa / 2 ^ 50 % 64
  let loc := pa % 2 ^ 50
  if pkg != s.pkg then (if s.routes pkg && (loc < 2 ^ 41 || (2 ^ 49 ≤ loc && loc < 2 ^ 49 + 2 ^ 32)) then .remote pkg else .none)
  else if loc < 2 ^ 40 then .lpddr 0
  else if loc < 2 ^ 41 then (if s.fuse.die1 then .lpddr 1 else .none)
  else if 2 ^ 49 ≤ loc && loc < 2 ^ 49 + 2 ^ 32 then .mmio
  else .none
/-- The bound of a home as seen from a die (R281). -/
def Home.bound (h : Home) (die : Nat) : Nat :=
  match h with
  | .lpddr d => if d = die then 1600 else 1760
  | _ => 1760
/-- The LPDDR controller of a local address: die × 32 + channel; a 64-byte burst lies in one (R280). -/
def channelOf (loc : Nat) : Nat := loc / 2 ^ 40 % 2 * 32 + Config.channelOf (loc / 64) % 32

/-! ### Access tables (R298, R299) -/

/-- The numbers of the 64-byte lines that bytes touch. -/
def linesOf (a n : Nat) : List Nat := if n = 0 then [] else (List.range ((a + n - 1) / 64 - a / 64 + 1)).map (· + a / 64)
/-- An entry matches a master and a range. -/
def AccEntry.hits (e : AccEntry) (master addr n : Nat) : Bool :=
  e.valid && (BitVec.ofNat 16 master &&& e.mmask) == (e.master &&& e.mmask) && e.base.toNat ≤ addr && addr + n ≤ e.limit.toNat + 1
/-- An entry gives a right: 0 read, 1 write, 2 atomic. -/
def AccEntry.gives (e : AccEntry) (right : Nat) : Bool := if right = 0 then e.rd else if right = 1 then e.wr else e.at_
/-- The deciding entry of a table: the first that matches, if it gives the right (R298). -/
def accFind (t : Vector AccEntry 32) (master addr n right : Nat) : Option AccEntry :=
  match t.toList.find? (fun e => e.hits master addr n) with
  | some e => if e.gives right then some e else none
  | none => none
/-- The access table of what a local physical address names. -/
def State.targetTable (s : State) (pa : Nat) : Vector AccEntry 32 :=
  match s.homeOf pa with
  | .mmio => Table.getD s.mmioAcc (pa % 2 ^ 49 / 65536) accReset
  | _ => Table.getD s.lpddrAcc (channelOf (pa % 2 ^ 50)) accReset
/-- A physical access is let through by its targets (R287, R294, R298): each 64-byte line by the table of its own controller or block; a remote
package checks its own tables. -/
def State.mayAccess (s : State) (master pa n right : Nat) : Bool :=
  let part := fun (l : Nat) =>
    let lo := max pa (64 * l)
    (accFind (s.targetTable lo) master (lo % 2 ^ 50) (min (pa + n) (64 * l + 64) - lo) right).isSome
  match s.homeOf pa with
  | .none => false
  | .remote _ => true
  | _ => (linesOf pa n).all part

/-! ### TLBs (R289, R290) -/

/-- The entry of a process page that contains an address. -/
def tlbFind (t : List TlbEntry) (spid va : Nat) : Option TlbEntry :=
  t.find? (fun e => e.spid == spid && e.va ≤ va && va < e.va + e.size)
/-- Level of a page of a size. -/
def sizeLevel (size : Nat) : Nat := if size ≤ 65536 then 0 else (Nat.log2 size - 12) / 9
/-- Remove the `i`-th unlocked entry of a full TLB. -/
def dropUnlocked : List TlbEntry → Nat → List TlbEntry
  | [], _ => []
  | e :: t, i =>
    if e.locked then e :: dropUnlocked t i else if i = 0 then t else e :: dropUnlocked t (i - 1)
/-- Fill a TLB of `cap` entries; when it is full an unlocked entry goes, which one is open (R290). -/
def tlbFill (t : List TlbEntry) (cap : Nat) (n : Nat) (e : TlbEntry) : List TlbEntry :=
  let free := (t.filter (fun x => !x.locked)).length
  let t' := if t.length < cap then t else dropUnlocked t (Config.tlbVictim n % (if free = 0 then 1 else free))
  t' ++ [e]
/-- A core's TLB for its streams (unit 0) or its copy engine (unit 1). -/
def Core.tlbOf (k : Core) (unit : Nat) : List TlbEntry := if unit = 1 then k.ctlb else k.tlb
/-- Entries a TLB holds (R289). -/
def tlbCap (unit : Nat) : Nat := if unit = 1 then 512 else 256
/-- Put a core's TLB. -/
def Core.setTlb (k : Core) (unit : Nat) (t : List TlbEntry) : Core := if unit = 1 then { k with ctlb := t } else { k with tlb := t }

/-- Access kinds of the fault record (R394). -/
def kindLoad : Nat := 0
def kindStore : Nat := 1
def kindAtomic : Nat := 2
def kindVmpos : Nat := 3
def kindCopySrc : Nat := 4
def kindCopyDst : Nat := 5
def kindBank : Nat := 6
def kindDs : Nat := 7

/-- What a translation comes to: a physical address, a fault, or a miss for which a walk is needed. -/
inductive Xlat where
  | ok (pa : Nat)
  | fault (f : FaultRec)
  | miss
  deriving DecidableEq, Repr

/-- A page fault's record fields (R293, R394). -/
def pageFault (va : Nat) (kind lvl : Nat) : FaultRec := { code := 0x12, va := BitVec.ofNat 64 va, kind, level := lvl }
/-- An access denied's record fields (R294). -/
def denied (va : Nat) (kind : Nat) : FaultRec := { code := 0x13, va := BitVec.ofNat 64 va, kind }

/-- The right an access kind needs (R298). -/
def rightOf (kind : Nat) : Nat := if kind = 1 || kind == 5 then 1 else if kind = 2 || kind == 7 then 2 else 0
/-- Whether an access kind writes (R286). -/
def kindWrites (kind : Nat) : Bool := kind == 1 || kind == 2 || kind == 5 || kind == 7

/-- A walk of this page for this unit that has ended in a fault and waits to be raised. -/
def State.failedWalk (s : State) (unit c va : Nat) (write : Bool) : Option Walk :=
  s.walks.find? (fun w => w.unit == unit && w.core == c && w.va == va / 4096 * 4096 && w.write == write && w.failed.isSome)

/-- Translate an address for a unit of a core through its TLB (R286, R290, R293). -/
def State.pageOf (s : State) (unit c va kind : Nat) (write : Bool) : Xlat :=
  let k := s.core c
  if !canonicalVa va then .fault (pageFault va kind 4)
  else
    match tlbFind (k.tlbOf unit) k.bnd.spid va with
    | some e =>
      let lvl := sizeLevel e.size
      if leafOk e.pte lvl write then .ok (leafPa e.pte e.size va) else .fault (pageFault va kind lvl)
    | none =>
      match s.failedWalk unit c va write with
      | some w => .fault (pageFault va kind (w.failed.getD 0))
      | none => .miss
/-- Translate an access of a unit of a core, then check its home and its target's access table (R286, R287, R293, R294). -/
def State.translate (s : State) (unit c va n kind master : Nat) : Xlat :=
  match s.pageOf unit c va kind (kindWrites kind) with
  | .ok pa => if s.mayAccess master pa n (rightOf kind) then .ok pa else .fault (denied va kind)
  | x => x

/-- A walk ends: it fills the TLB, or waits as failed for its access to raise the fault (R290, R293). -/
def State.endWalk (s : State) (w : Walk) : State :=
  match ((s.proc? w.spid).map (fun p => s.walk p w.va w.write)).getD (.fault 4) with
  | .leaf e l =>
    let size := leafSize e l
    let t : TlbEntry := { spid := w.spid, va := w.va / size * size, size, pte := e }
    ({ s with free := s.free + 1 } : State).modCore w.core (fun k => k.setTlb w.unit (tlbFill (k.tlbOf w.unit) (tlbCap w.unit) s.free t))
  | .fault l => { s with walks := s.walks ++ [{ w with failed := some l }] }
/-- How long the next page walk takes: R290 promises no time; below 512 cycles, so that what R324 says of every run holds (log 77). -/
def State.walkTime (s : State) : Nat := Config.freeDelay s.free % 512
/-- Start a page walk unless one for the page is under way; its time is open (R290). -/
def State.startWalk (s : State) (unit c va : Nat) (write : Bool) (kind : Nat) : State :=
  let page := va / 4096 * 4096
  if s.walks.any (fun w => w.unit == unit && w.core == c && w.va == page && w.write == write) then s
  else
    let id := s.seq
    let w : Walk := { id, unit, core := c, spid := (s.core c).bnd.spid, va := page, write, kind }
    let s : State := { s with walks := s.walks ++ [w] }
    (s.post (s.now + s.walkTime) 1 none (.run .pageWalk (.nums [id]))).drawn

/-- Forget a failed walk once its access raises the fault. -/
def State.dropFailed (s : State) (unit c va : Nat) : State :=
  { s with walks := s.walks.filter (fun w => !(w.unit == unit && w.core == c && w.va == va / 4096 * 4096 && w.failed.isSome)) }

/-! ### Migration (R297) -/

/-- The migration whose old page holds a physical address. -/
def State.migrating (s : State) (pa : Nat) : Option Migration :=
  s.migrations.find? (fun m => m.oldPa ≤ pa && pa < m.oldPa + m.size)
/-- The page of an address is frozen by a final pass (R297). -/
def State.pageFrozen (s : State) (pa : Nat) : Bool := (s.migrating pa).any (fun m => m.phase == 1)
/-- Where an access that arrives at an old home performs: the tail sends it on, and a page that has moved twice sends it on twice (R297, R339). -/
def State.forwardFrom (s : State) : Nat → Nat → Nat
  | 0, pa => pa
  | n + 1, pa =>
    match s.migrating pa with
    | some m => if m.phase = 2 then s.forwardFrom n (m.newPa + (pa - m.oldPa)) else pa
    | none => pa
/-- The address at which an access to `pa` performs. -/
def State.forwardPa (s : State) (pa : Nat) : Nat := s.forwardFrom (if s.migrations.isEmpty then 0 else 4) pa
/-- A write that performs at the old home before the page has moved marks its lines dirty again (R297). -/
def State.redirty (s : State) (pa n : Nat) : State :=
  { s with migrations := s.migrations.map (fun m =>
      if m.oldPa ≤ pa && pa < m.oldPa + m.size && m.phase ≤ 1 then
        { m with lines := m.lines.filter (fun l => l < (pa - m.oldPa) / 64 || (pa + n - 1 - m.oldPa) / 64 < l) }
      else m) }

/-! ### The capability map (R20) -/

/-- A bitmap of `n` bytes. -/
def bitmapBytes (n : Nat) (p : Nat → Bool) : List Byte :=
  (List.range n).map (fun i => BitVec.ofNat 8 (((List.range 8).filter (fun j => p (8 * i + j))).map (fun j => 2 ^ j)).sum)
/-- The 512-byte capability map (R20). -/
def State.capMap (s : State) : List Byte :=
  let f := s.fuse
  leBytes 8 (f.cap 0).toNat ++ leBytes 2 1 ++ leBytes 2 (countFrom 0 1024 f.coreOn) ++ leBytes 2 (countFrom 0 256 f.quadOn)
    ++ leBytes 2 (countFrom 0 32 f.sectorOn) ++ bitmapBytes 128 f.coreOn ++ bitmapBytes 32 f.quadOn ++ bitmapBytes 4 f.sectorOn
    ++ leBytes 4 s.ports.toNat ++ List.replicate 72 0 ++ bitmapBytes 128 s.withdrawn.contains ++ List.replicate 128 0
/-- Bytes of the I/O die's blocks: the page that shows the capability map, or values that are open (log 7). -/
def State.blockRead (s : State) (pa n : Nat) : List Byte :=
  (List.range n).map (fun i =>
    let x := pa + i
    if x % 2 ^ 49 / 4096 = Config.capMapPage.toNat then s.capMap.getD (x % 4096) 0 else Config.freeByte (s.free * 2 ^ 64 + x))

/-! ### LPDDR (R5, R261, R406) -/

/-- Write bytes at a local physical address, those that `sel` selects where it is not empty: sectors written whole lose their poison, and
reservations of harts on the bytes end (log 49). -/
def State.memStore (s : State) (pa : Nat) (data : List Byte) (sel : List Bool) : State :=
  let loc := pa % 2 ^ 50
  { s with mem := s.mem.writeSel loc data sel
           memPoison := if s.memPoison.isEmpty then [] else s.memPoison.filter (fun w => !wholeWord loc data.length sel w)
           memUpsets := if s.memUpsets.isEmpty then [] else s.memUpsets.filter (fun u => !(decide (loc ≤ u.1) && decide (u.1 < loc + data.length) && sel.getD (u.1 - loc) true))
           resvs := if s.resvs.isEmpty then [] else s.resvs.filter (fun r => r.2.1 + r.2.2 ≤ loc || loc + data.length ≤ r.2.1) }
/-- Write an image of `n` bytes at a local physical address: poison in the range goes with what lay there, and so do reservations (log 49). -/
def State.memPut (s : State) (pa n : Nat) (img : Memory) : State :=
  let loc := pa % 2 ^ 50
  { s with mem := (s.mem.clearRange loc n).putCells loc img
           memPoison := s.memPoison.filter (fun w => 32 * w + 32 ≤ loc || loc + n ≤ 32 * w)
           memUpsets := s.memUpsets.filter (fun u => u.1 < loc || loc + n ≤ u.1)
           resvs := s.resvs.filter (fun r => r.2.1 + r.2.2 ≤ loc || loc + n ≤ r.2.1) }
/-- Bytes at a local physical address. -/
def State.memLoad (s : State) (pa n : Nat) : List Byte := s.mem.readBytes (pa % 2 ^ 50) n
/-- A sector that the bytes touch is poisoned (R406). -/
def State.memPoisoned (s : State) (pa n : Nat) : Bool :=
  !s.memPoison.isEmpty && (wordsOf (pa % 2 ^ 50) n).any (fun w => s.memPoison.contains w)
/-- Bytes left open: the free bytes of this draw, one for each address. -/
def State.freeBytes (s : State) (pa n : Nat) : List Byte := (List.range n).map (fun i => Config.freeByte (s.free * 2 ^ 64 + (pa + i)))
/-- The bytes a read at a home gives, from where a migration's tail sends it on (R297, R339): memory, or what a device block shows (R20), or open values where the home is no block of either,
or lies in another package and the reader is the resident kernel or a stream unit's step (R337, log 7). -/
def State.homeRead (s : State) (pa n : Nat) : List Byte :=
  let pa := s.forwardPa pa
  match s.homeOf pa with
  | .lpddr _ => s.memLoad pa n
  | .mmio => s.blockRead pa n
  | _ => s.freeBytes pa n
/-- A write performs at its home, forwarded there in a migration's tail (R297); to a home in another package it is sent (R337); one to a
device block acts on nothing the manual describes (log 7). -/
def State.homeWriteSel (s : State) (pa : Nat) (data : List Byte) (sel : List Bool) : State :=
  let pa := s.forwardPa pa
  match s.homeOf pa with
  | .lpddr _ => (s.memStore pa data sel).redirty pa data.length
  | .remote p => s.send p (.request s.window (.write 0 pa data sel false))
  | _ => s
/-- The same for whole runs of bytes. -/
def State.homeWrite (s : State) (pa : Nat) (data : List Byte) : State := s.homeWriteSel pa data []

/-- The kernel reads bytes of a process; an unmapped byte is none. -/
def State.procRead (s : State) (spid va : Nat) : Nat → Option (List Byte)
  | 0 => some []
  | n + 1 =>
    match s.walkPa spid va false, s.procRead spid (va + 1) n with
    | some pa, some bs => some (s.homeRead pa 1 ++ bs)
    | _, _ => none
/-- Page-sized parts of a range of addresses: (offset, address, bytes). -/
def pageParts (va n : Nat) : List (Nat × Nat × Nat) :=
  if n = 0 then []
  else
    (List.range ((va + n - 1) / 4096 - va / 4096 + 1)).map (fun i =>
      let lo := max va ((va / 4096 + i) * 4096)
      let hi := min (va + n) ((va / 4096 + i + 1) * 4096)
      (lo - va, lo, hi - lo))
/-- The kernel writes bytes of a process where they are mapped. -/
def State.procWrite (s : State) (spid va : Nat) (data : List Byte) : State :=
  (pageParts va data.length).foldl (fun t p =>
    match t.walkPa spid p.2.1 true with
    | some pa => t.homeWrite pa ((data.drop p.1).take p.2.2)
    | none => t) s

/-! ### Admission and promised times (R170, R188, R280, R281, R337) -/

/-- A job that brings a value back. -/
def GJob.returns : GJob → Bool
  | .store _ _ => false
  | .copyWrite _ _ _ => false
  | _ => true
/-- The 64-byte bursts of a core's copy engine that have not performed (R304). -/
def State.copyBursts (s : State) (c : Nat) : Nat :=
  ((s.greqs.filter (fun g => g.core == c && g.src == 3)).map (fun g => (g.entry.job, g.job.returns, g.va / 64))).dedup.length
/-- Requests a core has outstanding: its streams' and engines' global requests, the bursts of its copy engine among them, and its
stream unit's operations (R188, R304, R376). -/
def State.outstanding (s : State) (c : Nat) : Nat :=
  (s.greqs.filter (fun g => g.core == c)).foldl (fun a g => a + g.slots) 0 + s.copyBursts c + (s.dsops.filter (fun o => o.core == c)).length
/-- The lines of this package that a request in flight touches, told apart by its word and repeat. -/
def State.burstsOf (s : State) (g : GReq) : List (Nat × Nat × Nat × Nat × Nat) :=
  if g.done || s.isRemote g.pa then [] else (linesOf (g.pa % 2 ^ 50) g.n).map (fun l => (g.core, g.src, g.stamp, g.entry.next, l))
/-- 64-byte bursts outstanding on an LPDDR controller (R280). -/
def State.channelLoad (s : State) (ch : Nat) : Nat :=
  ((s.greqs.flatMap s.burstsOf).filter (fun b => channelOf (64 * b.2.2.2.2) == ch)).dedup.length
/-- The bursts that bytes at these local addresses need would not all fit on their controllers, each of which takes 512 (R280). -/
def State.channelFull (s : State) (n : Nat) (pas : List Nat) : Bool :=
  let lines := ((pas.filter (fun pa => !s.isRemote pa)).flatMap (fun pa => linesOf (pa % 2 ^ 50) n)).dedup
  decide (512 < (s.greqs.flatMap s.burstsOf).length + lines.length) && lines.any (fun l =>
    let ch := channelOf (64 * l)
    decide (512 < s.channelLoad ch + (lines.filter (fun x => channelOf (64 * x) == ch)).length))
/-- A request with these slots for `n` bytes at these physical addresses is refused at admission (R280, R297). -/
def State.refuses (s : State) (c slots n : Nat) (pas : List Nat) (returns : Bool) : Bool :=
  2048 < s.outstanding c + slots
    || pas.any (fun pa => if s.isRemote pa then returns && !s.elastic c else s.pageFrozen pa)
    || s.channelFull n pas

/-- Latest moment by which earlier requests of this unit to the same bytes of the process perform: program order per address (R188, R339). A
page that is moving keeps the order, for its virtual address stays. -/
def State.orderAfter (s : State) (c src va n : Nat) (but : Option Nat := none) : Nat :=
  (s.greqs.filter (fun g => g.core == c && g.src == src && g.va < va + n && va < g.va + g.n && !g.done && some g.id != but)).foldl
    (fun a g => max a g.performAt) 0

/-- The start of window N + 2 for the window now open (R337). -/
def State.windowPlus2 (s : State) : Nat := s.winAt + 2 * 1700

/-- The parts of a request in physical memory as (offset, address, bytes): one, or two where a bitmap crosses a page (R228). -/
def GReq.parts (g : GReq) : List (Nat × Nat × Nat) :=
  match g.job, g.group with
  | .vmpos _, some pa2 =>
    let first := 4096 - g.va % 4096
    [(0, g.pa, first), (first, pa2, g.n - first)]
  | _, _ => [(0, g.pa, g.n)]
/-- What a part of a request asks of a home in another package (R337); the part's offset stands in the low six bits of its number. -/
def GReq.far (g : GReq) (off pa n : Nat) : FarReq :=
  let id := 64 * g.id + off
  match g.job with
  | .store d sel => .write id pa d sel false
  | .copyWrite _ poison d => .write id pa d [] (poison != 0)
  | .amo op size b _ => .atomic id pa op size b 0
  | .cas size b c _ => .atomic id pa 10 size b c
  | .semaphore _ _ _ => .atomic id pa 0 8 1 0
  | _ => .read id pa n
/-- Send the parts of a request whose homes lie in other packages; parts that lie here perform within their home's bound and in their unit's
order (R188, R281). -/
def State.sendAway (s : State) (g : GReq) : State :=
  g.parts.foldl (fun t p =>
    if t.isRemote p.2.1 then t.send (paPkg p.2.1) (.request t.window (g.far p.1 p.2.1 p.2.2))
    else
      let cap := (t.homeOf p.2.1).bound (coreDie g.core)
      let at_ := min (max (t.within cap) (t.orderAfter g.core g.src (g.va + p.1) p.2.2 (some g.id))) (t.now + cap)
      (t.drawn).post at_ 0 none (.run .globalPerform (.nums [g.id, p.1]))) s
/-- Send a request to its home, to perform at a moment within `cap` cycles and no earlier than `lo` (R281, R337). To a home in another
package it leaves as a message: a write counts as performed from the start of window N + 2, a result must have come by then. -/
def State.sendGlobalIn (s : State) (c src va pa n : Nat) (job : GJob) (slots : Nat) (stamp : Nat) (entry : Replay)
    (group : Option Nat) (lo cap : Nat) : State :=
  let id := s.seq
  let g : GReq := { id, core := c, src, va, pa, n, job, stamp, entry, performAt := 0, slots, group }
  let far := g.parts.any (fun p => s.isRemote p.2.1)
  let at_ := if far then s.windowPlus2 else min (max (s.within cap) (max lo (s.orderAfter c src va n))) (s.now + cap)
  let g := { g with performAt := at_, left := g.parts.length }
  let s := { s with greqs := s.greqs ++ [g], free := s.free + 1 }
  if far then
    if job.returns then (s.post at_ 3 none (.run .promiseExpiry (.nums [id]))).sendAway g
    else (s.post at_ 0 none (.run .globalPerform (.nums [id]))).sendAway g
  else s.post at_ 0 none (.run .globalPerform (.nums [id]))
/-- The same within the bound of the request's home (R281). -/
def State.sendGlobal (s : State) (c src va pa n : Nat) (job : GJob) (slots : Nat) (stamp : Nat) (entry : Replay)
    (group : Option Nat) : State :=
  s.sendGlobalIn c src va pa n job slots stamp entry group 0 ((s.homeOf pa).bound (coreDie c))

/-- A core's SPID. -/
def State.spidOf (s : State) (c : Nat) : Nat := (s.core c).bnd.spid

/-- What a global access of a stream comes to before it is sent: physical addresses, a fault, a refusal (DEVIATION 6 or a stall). -/
inductive GAdm where
  | ok (s : State) (pas : List Nat)
  | fault (s : State) (f : FaultRec)
  | refuse (s : State)

/-- A walk of a stream's missing page that takes no time, where the open time of a walk is none (R290, the example of R398). -/
def State.walkAtOnce (s : State) (c va : Nat) (write : Bool) (kind : Nat) : State :=
  let page := va / 4096 * 4096
  if s.walks.any (fun w => w.unit == 0 && w.core == c && w.va == page && w.write == write) || s.walkTime != 0 then s
  else s.drawn.endWalk { id := s.seq, unit := 0, core := c, spid := (s.core c).bnd.spid, va := page, write, kind }
/-- Translate every address of one access, in order; the first fault ends it, a miss starts a walk (R290, R320). -/
def State.pagesOf (s : State) (c kind : Nat) (write : Bool) : List Nat → GAdm
  | [] => .ok s []
  | va :: vas =>
    let s := if s.elastic c && s.pageOf 0 c va kind write == .miss then s.walkAtOnce c va write kind else s
    match s.pageOf 0 c va kind write with
    | .ok pa =>
      match s.pagesOf c kind write vas with
      | .ok s pas => .ok s (pa :: pas)
      | x => x
    | .fault f => .fault (s.dropFailed 0 c va) f
    | .miss => .refuse (if s.elastic c then s.startWalk 0 c va write kind else s)
/-- Every address of one access is translated before any access table is checked (R294). -/
def State.translateAll (s : State) (c n kind : Nat) (master : Nat) (vas : List Nat) : GAdm :=
  match s.pagesOf c kind (kindWrites kind) vas with
  | .ok s pas =>
    match (List.zip vas pas).find? (fun p => !s.mayAccess master p.2 n (rightOf kind)) with
    | some p => .fault s (denied p.1 kind)
    | none => .ok s pas
  | x => x

/-- Translation, then admission (R280, R290, R294). A page frozen by a migration's final pass refuses a TIMED access by DEVIATION 6, which keeps
the address (R297). -/
def State.letIn (s : State) (c n kind slots : Nat) (vas : List Nat) : GAdm :=
  match s.translateAll c n kind (coreMaster 0 c) vas with
  | .ok s pas =>
    match (List.zip vas pas).find? (fun p => !s.elastic c && !s.isRemote p.2 && s.pageFrozen p.2) with
    | some p => .fault s { code := 4, sub := 6, va := BitVec.ofNat 64 p.1, kind }
    | none => if s.refuses c slots n pas (kind != 1) then .refuse s else .ok s pas
  | x => x

/-! ### The ports that translate (R285, R289, R290, R293) -/

/-- A port takes up a process: it holds one SPID at a time (R285). -/
def PortUnit.serve (u : PortUnit) (spid : Nat) : PortUnit := { u with spid }
/-- A port translates an address of the process it serves; a miss walks and fills its TLB (R289, R290). -/
def State.portPa (s : State) (u : PortUnit) (va : Nat) (write : Bool) : Option (Nat × PortUnit) :=
  if !canonicalVa va then none
  else
    match tlbFind u.tlb u.spid va with
    | some e => if leafOk e.pte (sizeLevel e.size) write then some (leafPa e.pte e.size va, u) else none
    | none =>
      match (s.proc? u.spid).map (fun p => s.walk p va write) with
      | some (.leaf e l) =>
        let size := leafSize e l
        some (leafPa e size va, { u with tlb := tlbFill u.tlb 1024 s.free { spid := u.spid, va := va / size * size, size, pte := e } })
      | _ => none

/-- A port's accesses to a range for a master: physical parts with the port as its walks leave it, or the code and address of the first page
that faults or access that is denied (R289, R293, R294). -/
def State.portRange (s : State) (u : PortUnit) (master va len : Nat) (write : Bool) : Except (Nat × Nat) (List (Nat × Nat × Nat) × PortUnit) := do
  let r ← (pageParts va len).foldlM (fun (acc : List (Nat × Nat × Nat) × PortUnit) p =>
    match s.portPa acc.2 p.2.1 write with
    | some (pa, u) => Except.ok (acc.1 ++ [(p.1, pa, p.2.2)], u)
    | none => Except.error (0x12, p.2.1)) ([], u)
  match r.1.find? (fun p => !s.mayAccess master p.2.1 p.2.2 (if write then 1 else 0)) with
  | some p => Except.error (0x13, va + p.1)
  | none => Except.ok r
/-- A request that a frozen page holds up waits for the end of the freeze, and so do the later ones of its sender (R297, R332, R337): a package by
its number, a master outside the compute dies by its ID above them. -/
def State.holdBack (s : State) (key : Nat) (r : FarReq) : State :=
  let t : State := { s with deferred := s.deferred ++ [(key, r)] }
  if s.deferred.isEmpty then t.postAt (s.winAt + 1700) 2 none (.run .hostWrite (.nums [])) else t
/-- A sender has a request that waits. -/
def State.heldBack (s : State) (key : Nat) : Bool := s.deferred.any (fun d => d.1 == key)
/-- A write from outside the compute dies to bytes at a home performs, or waits there. -/
def State.writeHome (s : State) (master pa : Nat) (data : List Byte) : State :=
  if s.pageFrozen pa || s.heldBack (64 + master) then s.holdBack (64 + master) (.write 0 pa data [] false) else s.homeWrite pa data
/-- An access table denies a unit outside the compute dies: ACCESS_DENIED is raised on it, and the access has no effect (R294, log 50). -/
def State.raiseDenied (s : State) (master spid va : Nat) : State := { s with denials := s.denials ++ [(master, spid, va)] }
/-- A master outside the compute dies writes bytes of a process at their homes: a part that is not mapped is not made, and one that an access table
denies raises ACCESS_DENIED (R294, R299, R332, R337). -/
def State.masterWrite (s : State) (master spid va : Nat) (data : List Byte) : State :=
  (pageParts va data.length).foldl (fun t p =>
    match t.walkPa spid p.2.1 true with
    | some pa => if t.mayAccess master pa p.2.2 1 then t.writeHome master pa ((data.drop p.1).take p.2.2) else t.raiseDenied master spid p.2.1
    | none => t) s
/-- The network port tries a write (R285, R293, R294, R299): made, or denied by an access table, or the address of a page fault. -/
def State.netTry (s : State) (spid va : Nat) (data : List Byte) : State × Option Nat :=
  let u := s.netPort.serve spid
  match s.portRange u (5 * 4096) va data.length true with
  | .ok (l, u) => (l.foldl (fun t p => t.writeHome (5 * 4096) p.2.1 ((data.drop p.1).take p.2.2)) { s with netPort := u, free := s.free + 1 }, none)
  | .error (code, at_) => if code = 0x12 then ({ s with netPort := u }, some at_) else (({ s with netPort := u } : State).raiseDenied (5 * 4096) spid at_, none)
/-- The writes of the network port, in their order: a page fault pauses the transfer and interrupts the resident kernel, and the later ones wait
behind it (R293). -/
def State.netGo (s : State) : List (Nat × Nat × List Byte) → State
  | [] => { s with netPort := { s.netPort with paused := [] } }
  | x :: l =>
    match s.netTry x.1 x.2.1 x.2.2 with
    | (s, some at_) => ({ s with netPort := { s.netPort with paused := x :: l } } : State).post s.now 3 none (.run .portPageFault (.word [0, x.1] (BitVec.ofNat 64 at_)))
    | (s, none) => s.netGo l
/-- The network port writes bytes of a process. -/
def State.netWrite (s : State) (spid va : Nat) (data : List Byte) : State :=
  if s.netPort.paused.isEmpty then s.netGo [(spid, va, data)] else { s with netPort := { s.netPort with paused := s.netPort.paused ++ [(spid, va, data)] } }

/-! ### A hart's accesses -/

/-- A leaf lets a hart in a mode fetch (0), load (1) or store (2) under the RISC-V privileged specification (R286): the page's U bit must
match the mode, but for loads and stores of a supervisor with SUM; MXR lets it load what it may execute; a page with A = 0, or D = 0 on a
store, faults (log 11), and so does a set bit of PBMT, which is reserved without Svpbmt. -/
def hartLeafOk (p : Word64) (lvl mode access : Nat) (sum mxr : Bool) : Bool :=
  (if mode = 0 then pteBit p 4 else !pteBit p 4 || (sum && access != 0)) && pteBit p 6 && bitsOf p.toNat 54 7 == 0 && bitsOf p.toNat 61 2 == 0
    && (if access = 0 then pteBit p 3 else if access = 1 then pteBit p 1 || (mxr && pteBit p 3) else pteBit p 2 && pteBit p 7)
    && (!pteBit p 63 || (lvl == 0 && ptePpn p % 16 == 8)) && ptePpn p % 2 ^ (9 * lvl) == 0
/-- A walk through tables in LPDDR from the table at a physical page, downward (R286): what a hart whose satp holds Sv57 does. -/
def State.walkMem (s : State) (va : Nat) : Nat → Nat → WalkEnd
  | 0, _ => .fault 0
  | l + 1, ppn =>
    let pa := ppn * 4096 + 8 * (va / 2 ^ (12 + 9 * l) % 512)
    let p := BitVec.ofNat 64 (leNat (s.memLoad pa 8))
    match s.homeOf pa with
    | .lpddr _ =>
      if !pteBit p 0 || (pteBit p 2 && !pteBit p 1) then .fault l
      else if pteBit p 1 || pteBit p 3 then .leaf p l
      else if bitsOf p.toNat 54 10 != 0 || pteBit p 4 || pteBit p 6 || pteBit p 7 then .fault l
      else s.walkMem va l (ptePpn p)
    | _ => .fault l
/-- The cause of an access of a hart that faults: 0 fetch, 1 load, 2 store; a page fault or an access fault. -/
def hartCause (access : Nat) (page : Bool) : Nat :=
  if access = 0 then (if page then 12 else 1) else if access = 1 then (if page then 13 else 5) else (if page then 15 else 7)
/-- The physical address that a hart reaches: none in M-mode is translated; a hart that runs a process uses the process's page tables (R285),
any other one what its satp holds (log 11). Otherwise the cause of its fault. -/
def State.hartPa (s : State) (h : Nat) (va access : Nat) : Except Nat Nat :=
  let x := s.hart h
  let mode := if access = 0 then x.mode else x.dataMode
  let satp := (x.csr 0x180).toNat
  let bare := if va < 2 ^ 56 then Except.ok va else .error (hartCause access false)
  let ended := fun (w : WalkEnd) =>
    match w with
    | .leaf e l =>
      if hartLeafOk e l mode access (x.mst mstSUM) (x.mst mstMXR) then Except.ok (leafPa e (leafSize e l) va) else .error (hartCause access true)
    | .fault _ => .error (hartCause access true)
  if mode = 3 then bare
  else
    match x.spid with
    | some sp => if !canonicalVa va then .error (hartCause access true) else ended (((s.proc? sp).map (fun p => s.procWalk p va)).getD (.fault 4))
    | none =>
      if bitsOf satp 60 4 != 10 then bare
      else if !canonicalVa va then .error (hartCause access true)
      else ended (s.walkMem va 5 (satp % 2 ^ 44))
/-- The master ID of a hart (R299). -/
def hartMaster (h : Nat) : Nat := 7 * 4096 + h % 16
/-- Two bytes of code of a hart: only LPDDR of this package holds code, and its access table must let the hart read (R287, R298, log 49). -/
def State.hartHalf (s : State) (h va : Nat) : Except (Nat × Nat) Nat :=
  match s.hartPa h va 0 with
  | .error c => .error (c, va)
  | .ok pa =>
    match s.homeOf pa with
    | .lpddr _ => if s.mayAccess (hartMaster h) pa 2 0 then .ok (leNat (s.memLoad (s.forwardPa pa) 2)) else .error (1, va)
    | _ => .error (1, va)
/-- The word at a hart's program counter, of 16 bits where its low two are not both set and of 32 otherwise; or a cause and its address. -/
def State.hartFetch (s : State) (h : Nat) : Except (Nat × Nat) Nat :=
  let va := (s.hart h).pc.toNat
  match s.hartHalf h va with
  | .error e => .error e
  | .ok a => if a % 4 != 3 then .ok a else (s.hartHalf h ((va + 2) % 2 ^ 64)).map (fun b => a + 65536 * b)

end Sys2Proof.Machine
end

