-- ==== Sys2Proof/Machine/Drain.lean ====
section
/-! DEFINITION. What is still under way for a core: whether its streams are idle, and whether the engine classes of a trailer mask have drained (R83, R84, R204). -/

namespace Sys2Proof.Machine

/-- The act of an entry is a step of the table. -/
def Event.runs (e : Event) : Option (Instr × Arg) :=
  match e.act with
  | .run i a => some (i, a)
  | .issue _ _ => none

/-- Vector and matrix streams idle, from the cycle after their block's end, BQV and BQM empty (R83, R256). -/
def Core.enginesIdle (k : Core) (now : Nat) : Bool :=
  !k.ve.live && !k.mx.live && decide (k.ve.idleFrom ≤ now) && decide (k.mx.idleFrom ≤ now) && k.bqv.items.isEmpty && k.bqm.items.isEmpty && k.ve.replay.isEmpty && k.mx.replay.isEmpty

/-- Bank requests of a core that have not arrived yet. -/
def Core.arrivingJobs (k : Core) (p : BankReq → Bool) : Bool := k.arriving.any p
/-- A request is a bank program for one of the banks [lo, hi). -/
def BankReq.isProg (r : BankReq) (lo hi : Nat) : Bool :=
  lo ≤ r.bank && r.bank < hi && (match r.job with | .prog _ _ _ _ => true | _ => false)
/-- A request is a lode or calibration command. -/
def BankReq.isLode (r : BankReq) : Bool := match r.job with | .lode _ _ _ _ _ _ _ => true | .cal _ => true | _ => false
/-- A bank still works for a program of its core: requests that hold a queue entry, a program in the engine, or one that has ended in the open
beat and whose writes perform at its close (R330). -/
def Bank.programs (b : Bank) : Bool :=
  b.engine.isSome || !b.waits.isEmpty || b.queue.any (fun r => r.isProg 0 32) || b.ended.any (fun e => e.1.isProg 0 32)
/-- A bank still works for a lode or calibration command of its core. -/
def Bank.lodes (b : Bank) : Bool := b.queue.any (fun r => r.isLode)
/-- Lode results of a core are held over a freeze (R388). -/
def State.lodeHeld (s : State) (c : Nat) : Bool :=
  s.agenda.any (fun e => match e.runs with
    | some (.beatClose, .lode x _ _ _ _ _) => x == c
    | _ => false)

/-- Banks [lo, hi) of a core have no program queued, running or suspended. -/
def Core.bankIdle (k : Core) (lo hi : Nat) : Bool :=
  !k.arrivingJobs (fun r => r.isProg lo hi) && (List.range (hi - lo)).all (fun i => !(vget k.banks (lo + i) {}).programs)

/-- A routing register of a core is armed for a tile (R252). -/
def Core.routeArmed (k : Core) (t : Nat) : Bool := k.sr.mroute.toList.any (fun r => bitOf r.toNat 0 && bitsOf r.toNat 1 4 == t)
/-- Drained pieces, rows and routed sends of a core are under way, or an MFLAG that will fire a routing register (class EP, R252). -/
def State.epilogueBusy (s : State) (c : Nat) : Bool :=
  s.agenda.any (fun e => match e.runs with
    | some (.drainDelivery, .drow r) => r.core == c
    | some (.fullBitChange, .flag x t full _) => x == c && full && (s.core c).routeArmed t
    | _ => false)
/-- A collective engine of a core has a firing under way, or a semaphore of one (class CL). -/
def State.firings (s : State) (c : Nat) : Bool := !(s.core c).fires.isEmpty || s.greqs.any (fun g => g.core == c && g.src == 6)

/-- The engine of one trailer bit has drained of a core's work (R84). -/
def State.drainedBit (s : State) (c bit : Nat) : Bool :=
  let k := s.core c
  match bit with
  | 0 => k.copy.isNone && k.copyQ.isEmpty
  | 1 => k.bankIdle 0 16
  | 2 => k.bankIdle 16 32
  | 3 => !k.arrivingJobs (fun r => r.isLode) && (List.range 16).all (fun i => !(vget k.banks i {}).lodes) && !s.lodeHeld c
  | 4 => !s.firings c
  | 5 => !s.epilogueBusy c && !k.fires.any (fun f => f.handed)
  | 6 => !s.greqs.any (fun g => g.core == c && g.src == 0 && !g.done && (match g.job with | .store _ _ => true | .amo _ _ _ _ => true | .cas _ _ _ _ => true | _ => false))
  | 7 => !s.greqs.any (fun g => g.core == c && g.src == 1 && !g.done && (match g.job with | .store _ _ => true | _ => false))
  | 8 => !s.dsops.any (fun o => o.core == c)
  | _ => true
/-- Every engine named in a trailer mask has drained (R84). -/
def State.drained (s : State) (c mask : Nat) : Bool := (List.range 9).all (fun i => !bitOf mask i || s.drainedBit c i)

end Sys2Proof.Machine
end

