-- ==== Sys2Proof/Machine/Float.lean ====
section
/-! DEFINITION. Number formats and arithmetic (07_numbers.md): formats, ROUND, special values, sticky flags, conversions, KRN, the tree sum, the Hadamard transform, the transcendental functions. Values are exact integers scaled by powers of two until the one rounding each operation makes. -/

namespace Sys2Proof.Machine

/-- A floating-point format (R140): exponent and fraction bits, bias, and the kind of its special values
(0 infinities and NaNs, 1 E4M3, 2 none). -/
structure Fmt where
  eb : Nat
  mb : Nat
  bias : Nat
  kind : Nat
  deriving DecidableEq, Repr

/-- FP32 (R140). -/
def fp32 : Fmt := ⟨8, 23, 127, 0⟩
/-- BF16 (R140). -/
def bf16 : Fmt := ⟨8, 7, 127, 0⟩
/-- FP16 (R140). -/
def fp16 : Fmt := ⟨5, 10, 15, 0⟩
/-- E4M3 (R140). -/
def e4m3 : Fmt := ⟨4, 3, 7, 1⟩
/-- E5M2 (R140). -/
def e5m2 : Fmt := ⟨5, 2, 15, 0⟩
/-- E2M1 (R140). -/
def e2m1 : Fmt := ⟨2, 1, 1, 2⟩

/-- NV, DZ, OF, UF, IW, SAT as bits 0 to 5 (R152). -/
def flNV : Nat := 1
/-- DZ (R152). -/
def flDZ : Nat := 2
/-- OF (R152). -/
def flOF : Nat := 4
/-- UF (R152). -/
def flUF : Nat := 8
/-- IW (R152). -/
def flIW : Nat := 16
/-- SAT (R152). -/
def flSAT : Nat := 32

/-- The value of a pattern, or an exact result before its rounding: `fin neg m e sticky` is (−1)^neg × (m + δ) × 2^e, where δ is 0, or,
when `sticky`, some value strictly between 0 and 1. -/
inductive FVal where
  | nan
  | inf (neg : Bool)
  | fin (neg : Bool) (m : Nat) (e : Int) (sticky : Bool)
  deriving DecidableEq, Repr

/-- Width of a format in bits. -/
def Fmt.width (f : Fmt) : Nat := 1 + f.eb + f.mb

/-- Exponent of the least subnormal. -/
def Fmt.qmin (f : Fmt) : Int := 1 - (f.bias : Int) - f.mb

/-- The largest finite value as significand and exponent (R140). -/
def Fmt.maxM (f : Fmt) : Nat := if f.kind = 1 then 2 ^ (f.mb + 1) - 2 else 2 ^ (f.mb + 1) - 1
/-- Exponent that goes with `maxM`. -/
def Fmt.maxQ (f : Fmt) : Int := (2 ^ f.eb : Int) - (if f.kind = 0 then 2 else 1) - f.bias - f.mb

/-- The pattern of the largest finite value. -/
def Fmt.maxBits (f : Fmt) : Nat := ((f.maxQ - f.qmin).toNat <<< f.mb) + f.maxM

/-- Sign bit in place. -/
def Fmt.signBit (f : Fmt) (neg : Bool) : Nat := if neg then 1 <<< (f.eb + f.mb) else 0

/-- The canonical NaN (R141); E2M1 has none and takes +0 (R150). -/
def Fmt.qnan (f : Fmt) : Nat :=
  if f.kind = 0 then ((2 ^ f.eb - 1) <<< f.mb) + (1 <<< (f.mb - 1)) else if f.kind = 1 then 2 ^ (f.eb + f.mb) - 1 else 0

/-- Infinity of a sign, for the formats that have one. -/
def Fmt.infBits (f : Fmt) (neg : Bool) : Nat := ((2 ^ f.eb - 1) <<< f.mb) + f.signBit neg

/-- The value of a pattern (R140). -/
def Fmt.decode (f : Fmt) (w : Nat) : FVal :=
  let neg := bitOf w (f.eb + f.mb)
  let ex := bitsOf w f.mb f.eb
  let fr := bitsOf w 0 f.mb
  if f.kind = 0 && ex == 2 ^ f.eb - 1 then (if fr = 0 then .inf neg else .nan)
  else if f.kind = 1 && ex == 2 ^ f.eb - 1 && fr == 2 ^ f.mb - 1 then .nan
  else if ex = 0 then .fin neg fr f.qmin false
  else .fin neg (fr + 2 ^ f.mb) (f.qmin + (ex - 1 : Nat)) false

/-- OVERFLOW (R148). -/
def Fmt.overflow (f : Fmt) (neg sat : Bool) : Nat × Nat :=
  if f.kind = 2 || sat then (f.maxBits + f.signBit neg, flSAT)
  else if f.kind = 1 then (f.qnan, flOF)
  else (f.infBits neg, flOF)

/-- Whether rounding goes away from zero: `n` the truncated significand, `rem` of 2^sh the rest (R147). Modes 0 RNE, 1 RTZ, 2 RDN, 3 RUP,
4 SR with draw `rnd` = KRN[31:8], 5 to nearest with ties away from zero, which harts have (log 49). -/
def roundAway (mode : Nat) (neg : Bool) (n rem sh : Nat) (sticky : Bool) (rnd : Nat) : Bool :=
  let inexact := rem != 0 || sticky
  if mode = 0 then
    let half := 2 ^ sh / 2
    decide (half < rem) || (rem == half && inexact && (sticky || n % 2 == 1))
  else if mode = 1 then false
  else if mode = 2 then neg && inexact
  else if mode = 3 then !neg && inexact
  else if mode = 5 then decide (2 ^ sh ≤ 2 * rem)
  else
    if !inexact then false
    else if neg then !decide (rnd < (2 ^ sh - rem) * 2 ^ 24 / 2 ^ sh)
    else decide (rnd < rem * 2 ^ 24 / 2 ^ sh)

/-- ROUND (R147): pattern and flags. A magnitude of max + ulp(max) or more overflows in every mode (log 4). -/
def Fmt.round (f : Fmt) (mode : Nat) (sat : Bool) (rnd : Nat) (neg : Bool) (m : Nat) (e : Int) (sticky : Bool) : Nat × Nat :=
  if m = 0 && !sticky then (f.signBit neg, 0)
  else
    let top : Int := e + (bitLen m : Int) - 1
    let emin : Int := 1 - (f.bias : Int)
    let q : Int := max top emin - f.mb
    let sh : Nat := (q - e).toNat
    let n : Nat := if e ≤ q then m / 2 ^ sh else m * 2 ^ (e - q).toNat
    let rem : Nat := if e ≤ q then m % 2 ^ sh else 0
    let n' := if roundAway mode neg n rem sh sticky rnd then n + 1 else n
    let inexact := rem != 0 || sticky
    let uf := if inexact && decide (top < emin) then flUF else 0
    if decide (f.maxQ < q) || (q == f.maxQ && decide (f.maxM < n')) then
      let r := f.overflow neg sat
      (r.1, r.2 ||| uf)
    else (((q - f.qmin).toNat <<< f.mb) + n' + f.signBit neg, uf)

/-- Round an exact value into a format; NaN and infinity as R150 and R151 give. `nv` is set for a NaN. -/
def Fmt.pack (f : Fmt) (mode : Nat) (sat : Bool) (rnd : Nat) : FVal → Nat × Nat
  | .nan => (f.qnan, flNV)
  | .inf neg =>
    if f.kind = 2 || sat then (f.maxBits + f.signBit neg, flSAT)
    else if f.kind = 1 then (f.qnan, flNV)
    else (f.infBits neg, 0)
  | .fin neg m e st => f.round mode sat rnd neg m e st

/-- A signed exact value as sign and magnitude; `zneg` is the sign of a zero. -/
def ofSigned (v : Int) (e : Int) (zneg : Bool) : FVal :=
  if v = 0 then .fin zneg 0 e false else .fin (decide (v < 0)) v.natAbs e false

/-- Signed significand of a finite value at the common exponent `e ≤ its own`. -/
def atExp (neg : Bool) (m : Nat) (e0 e : Int) : Int :=
  let x : Int := (m * 2 ^ (e0 - e).toNat : Nat)
  if neg then -x else x

/-- Exact sum of two values that carry no sticky part; mode 2 (RDN) makes an exact zero sum −0 (R151). -/
def fAdd (mode : Nat) : FVal → FVal → FVal
  | .nan, _ => .nan
  | _, .nan => .nan
  | .inf a, .inf b => if a = b then .inf a else .nan
  | .inf a, _ => .inf a
  | _, .inf b => .inf b
  | .fin na ma ea _, .fin nb mb eb _ =>
    let e := min ea eb
    let v := atExp na ma ea e + atExp nb mb eb e
    ofSigned v e (if ma = 0 ∧ mb = 0 ∧ na = nb then na else mode == 2)

/-- Negation of a value. -/
def fNeg : FVal → FVal
  | .nan => .nan
  | .inf n => .inf (!n)
  | .fin n m e s => .fin (!n) m e s

/-- Exact product (R151). -/
def fMul : FVal → FVal → FVal
  | .nan, _ => .nan
  | _, .nan => .nan
  | .inf a, .inf b => .inf (a != b)
  | .inf a, .fin b m _ _ => if m = 0 then .nan else .inf (a != b)
  | .fin a m _ _, .inf b => if m = 0 then .nan else .inf (a != b)
  | .fin a ma ea _, .fin b mb eb _ => .fin (a != b) (ma * mb) (ea + eb) false

/-- Exact quotient to 64 bits and more, with a sticky part; the flag is DZ (R151). -/
def fDiv : FVal → FVal → FVal × Nat
  | .nan, _ => (.nan, 0)
  | _, .nan => (.nan, 0)
  | .inf _, .inf _ => (.nan, 0)
  | .inf a, .fin b _ _ _ => (.inf (a != b), 0)
  | .fin a _ _ _, .inf b => (.fin (a != b) 0 0 false, 0)
  | .fin a ma ea _, .fin b mb eb _ =>
    if mb = 0 then (if ma = 0 then (.nan, 0) else (.inf (a != b), flDZ))
    else if ma = 0 then (.fin (a != b) 0 0 false, 0)
    else
      let k := 64 + bitLen mb
      let num := ma * 2 ^ k
      (.fin (a != b) (num / mb) (ea - eb - k) (num % mb != 0), 0)

/-- Integer square root, one result bit per step from bit `k - 1` down. -/
def isqrtGo (n : Nat) : Nat → Nat → Nat
  | 0, r => r
  | k + 1, r => let t := r + 2 ^ k; isqrtGo n k (if t * t ≤ n then t else r)

/-- Integer square root. -/
def isqrt (n : Nat) : Nat := isqrtGo n ((bitLen n + 1) / 2) 0

/-- Square root (R151): the exponent is made even and the significand long before the integer root is taken. -/
def fSqrt : FVal → FVal
  | .nan => .nan
  | .inf neg => if neg then .nan else .inf false
  | .fin neg m e _ =>
    if m = 0 then .fin neg 0 e false
    else if neg then .nan
    else
      let k : Nat := if (e % 2 : Int) = 0 then 128 else 129
      let x := m * 2 ^ k
      let r := isqrt x
      .fin false r ((e - k) / 2) (r * r != x)

/-- The order of two values that are no NaN, −0 below +0 (R151). -/
def fLt (zeroSigned : Bool) : FVal → FVal → Bool
  | .nan, _ => false
  | _, .nan => false
  | .inf a, .inf b => a && !b
  | .inf a, _ => a
  | _, .inf b => !b
  | .fin na ma ea _, .fin nb mb eb _ =>
    if ma = 0 && mb == 0 then zeroSigned && na && !nb
    else
      let e := min ea eb
      decide (atExp na ma ea e < atExp nb mb eb e)

/-- Whether a value is a NaN. -/
def FVal.isNan : FVal → Bool
  | .nan => true
  | _ => false

/-- A zero, finite or infinite value's comparison EQ (R151). -/
def fEq (a b : FVal) : Bool := !a.isNan && !b.isNan && !fLt false a b && !fLt false b a

/-- The format of a floating-point element type code (R130, R135). -/
def fmtOf (t : Nat) : Fmt :=
  if t = 6 then bf16 else if t = 7 then fp32 else if t = 8 then e4m3 else if t = 9 then e5m2 else if t = 10 then fp16 else e2m1

/-- Width in bits of an element type (R205, R135). -/
def tyBits (t : Nat) : Nat :=
  if t = 0 || t == 1 || t == 8 || t == 9 then 8
  else if t = 2 || t == 3 || t == 6 || t == 10 then 16
  else if t = 4 || t == 5 || t == 7 then 32
  else 4

/-- Integer element types, INT4 (11) included. -/
def isIntTy (t : Nat) : Bool := t ≤ 5 || t == 11

/-- Signed integer element types. -/
def isSigned (t : Nat) : Bool := t == 0 || t == 2 || t == 4 || t == 11

/-- Least value of an integer type. -/
def tyMin (t : Nat) : Int := if isSigned t then -(2 ^ (tyBits t - 1) : Int) else 0
/-- Greatest value of an integer type. -/
def tyMax (t : Nat) : Int := if isSigned t then 2 ^ (tyBits t - 1) - 1 else 2 ^ tyBits t - 1

/-- The integer a pattern stands for. -/
def intVal (t w : Nat) : Int := if isSigned t then signedOf w (tyBits t) else ((w % 2 ^ tyBits t : Nat) : Int)

/-- Narrow an exact integer into a type: wrap with IW, or clamp with SAT (R159, R160). -/
def intFit (t : Nat) (sat : Bool) (v : Int) : Nat × Nat :=
  if tyMin t ≤ v ∧ v ≤ tyMax t then (wrapTo (tyBits t) v, 0)
  else if sat then (wrapTo (tyBits t) (if v < tyMin t then tyMin t else tyMax t), flSAT)
  else (wrapTo (tyBits t) v, flIW)

/-- An exact value rounded to an integer by a mode (R150). -/
def roundInt (mode : Nat) (neg : Bool) (m : Nat) (e : Int) : Int :=
  let sh := (-e).toNat
  let n := if 0 ≤ e then m * 2 ^ e.toNat else m / 2 ^ sh
  let rem := if 0 ≤ e then 0 else m % 2 ^ sh
  let n' := if 0 ≤ e then n else if roundAway mode neg n rem sh false 0 then n + 1 else n
  if neg then -(n' : Int) else (n' : Int)

/-- Clamp an integer into a range, with NV where it was outside (R150). -/
def clampNV (lo hi v : Int) : Int × Nat :=
  if v < lo then (lo, flNV) else if hi < v then (hi, flNV) else (v, 0)

/-- Floating-point to integer (R150). -/
def fpToInt (lo hi : Int) (mode : Nat) : FVal → Int × Nat
  | .nan => (0, flNV)
  | .inf neg => (if neg then lo else hi, flNV)
  | .fin neg m e _ => clampNV lo hi (roundInt mode neg m e)

/-- One element converted between types (R150): source type, pattern, destination type, mode, saturating, draw of SR. -/
def convert (t w d mode : Nat) (sat : Bool) (rnd : Nat) : Nat × Nat :=
  if isIntTy t then
    if isIntTy d then intFit d sat (intVal t w)
    else
      let v := intVal t w
      (fmtOf d).pack mode sat rnd (ofSigned v 0 false)
  else if isIntTy d then
    let r := fpToInt (tyMin d) (tyMax d) mode ((fmtOf t).decode w)
    (wrapTo (tyBits d) r.1, r.2)
  else (fmtOf d).pack mode sat rnd ((fmtOf t).decode w)

/-! ### Arithmetic on patterns, one rounding each (R151, R175, R176, R214) -/

/-- a + b in a format. -/
def fpAdd (f : Fmt) (mode a b : Nat) : Nat × Nat := f.pack mode false 0 (fAdd mode (f.decode a) (f.decode b))
/-- a − b in a format. -/
def fpSub (f : Fmt) (mode a b : Nat) : Nat × Nat := f.pack mode false 0 (fAdd mode (f.decode a) (fNeg (f.decode b)))
/-- a × b in a format. -/
def fpMul (f : Fmt) (mode a b : Nat) : Nat × Nat := f.pack mode false 0 (fMul (f.decode a) (f.decode b))
/-- a / b in a format. -/
def fpDiv (f : Fmt) (mode a b : Nat) : Nat × Nat :=
  let q := fDiv (f.decode a) (f.decode b)
  let r := f.pack mode false 0 q.1
  (r.1, r.2 ||| q.2)
/-- √a in a format. -/
def fpSqrt (f : Fmt) (mode a : Nat) : Nat × Nat := f.pack mode false 0 (fSqrt (f.decode a))
/-- a × b + c, or − c, with one rounding. -/
def fpFma (f : Fmt) (mode a b c : Nat) (sub : Bool) : Nat × Nat :=
  let z := f.decode c
  f.pack mode false 0 (fAdd mode (fMul (f.decode a) (f.decode b)) (if sub then fNeg z else z))

/-- The sign of a pattern inverted. -/
def Fmt.flip (f : Fmt) (w : Nat) : Nat := w ^^^ (1 <<< (f.eb + f.mb))
/-- A pattern with its sign cleared. -/
def Fmt.abs (f : Fmt) (w : Nat) : Nat := w % 2 ^ (f.eb + f.mb)

/-- Minimum or maximum: a NaN gives the canonical NaN and NV, −0 lies below +0 (R151). -/
def fpMinMax (f : Fmt) (isMax : Bool) (a b : Nat) : Nat × Nat :=
  let x := f.decode a
  let y := f.decode b
  if x.isNan || y.isNan then (f.qnan, flNV)
  else if isMax then (if fLt true x y then b else a, 0)
  else (if fLt true y x then b else a, 0)

/-- A comparison of R131's codes: 0 EQ, 1 NE, 2 LT, 3 LE, 4 GT, 5 GE, 6 UN (R151). -/
def fpCmp (f : Fmt) (cond a b : Nat) : Bool :=
  let x := f.decode a
  let y := f.decode b
  let un := x.isNan || y.isNan
  match cond with
  | 0 => fEq x y
  | 1 => !fEq x y
  | 2 => !un && fLt false x y
  | 3 => !un && !fLt false y x
  | 4 => !un && fLt false y x
  | 5 => !un && !fLt false x y
  | _ => un

/-- The same comparison on integers; UN is false. -/
def intCmp (cond : Nat) (a b : Int) : Bool :=
  match cond with
  | 0 => a == b
  | 1 => a != b
  | 2 => decide (a < b)
  | 3 => decide (a ≤ b)
  | 4 => decide (b < a)
  | 5 => decide (b ≤ a)
  | _ => false

/-! ### Random bits (R153) -/

/-- One round of KRN. -/
def krnRound (key x i : Nat) : Nat :=
  let x := (x + key + i * 0x9E3779B97F4A7C15) % 2 ^ 64
  let x := (x * 0xBF58476D1CE4E5B9) % 2 ^ 64
  x ^^^ (x >>> 31)

/-- KRN(key, ctr): 32 bits (R153). -/
def krn (key ctr : Nat) : Nat :=
  bitsOf (krnRound key (krnRound key (krnRound key (krnRound key (ctr % 2 ^ 64) 0) 1) 2) 3) 32 32

/-- The counter tag << 48 | row << 24 | col (R153). -/
def krnCtr (tag row col : Nat) : Nat := (tag % 2 ^ 16) <<< 48 + (row % 2 ^ 24) <<< 24 + col % 2 ^ 24

/-- KRN[31:8], the draw that SR compares (R147). -/
def srDraw (key tag row col : Nat) : Nat := krn key (krnCtr tag row col) >>> 8

/-! ### Sums (R157, R158) and the Hadamard transform (R161) -/

/-- One level of TREE: neighbours combined, a last odd one passed on. -/
def treeLevel {α : Type} (f : α → α → α × Nat) : List α → List α × Nat
  | a :: b :: r =>
    let x := f a b
    let y := treeLevel f r
    (x.1 :: y.1, x.2 ||| y.2)
  | l => (l, 0)

/-- TREE (R158); `fuel` bounds the levels. -/
def treeSum {α : Type} (f : α → α → α × Nat) : Nat → List α → List α × Nat
  | 0, l => (l, 0)
  | fuel + 1, l =>
    if l.length ≤ 1 then (l, 0)
    else
      let x := treeLevel f l
      let y := treeSum f fuel x.1
      (y.1, x.2 ||| y.2)

/-- TREE over patterns of a format, and the flags raised. -/
def fpTree (f : Fmt) (mode : Nat) (l : List Nat) : Nat × Nat :=
  let r := treeSum (fpAdd f mode) 12 l
  (r.1.headD 0, r.2)

/-- One butterfly stage of distance `h` over a list: the pairs of each block of 2h (R161). -/
def hadStage (h : Nat) : Nat → List Nat → List Nat × Nat
  | 0, l => (l, 0)
  | fuel + 1, l =>
    if l.isEmpty then ([], 0)
    else
      let p := l.take h
      let q := (l.drop h).take h
      let s := List.zipWith (fpAdd fp32 0) p q
      let d := List.zipWith (fpSub fp32 0) p q
      let r := hadStage h fuel (l.drop (2 * h))
      (s.map Prod.fst ++ d.map Prod.fst ++ r.1,
        (s ++ d).foldl (fun a x => a ||| x.2) 0 ||| r.2)

/-- The stages h = 1, 2, …, n/2 of one run of n values (R161). -/
def hadStages (n : Nat) : Nat → Nat → List Nat → List Nat × Nat
  | 0, _, l => (l, 0)
  | fuel + 1, h, l =>
    if n ≤ h then (l, 0)
    else
      let x := hadStage h n l
      let y := hadStages n fuel (2 * h) x.1
      (y.1, x.2 ||| y.2)

/-- The block Hadamard transform of every run of `n` FP32 values (R161). -/
def hadamard (n : Nat) (l : List Nat) : List Nat × Nat :=
  let rs := (chunksOf n l.length l).map (hadStages n 7 1)
  (rs.flatMap Prod.fst, rs.foldl (fun a x => a ||| x.2) 0)

/-! ### Transcendental functions (R162) -/

/-- Fraction bits of the fixed-point arithmetic below. -/
def fxBits : Nat := 320

/-- floor(ln 2 × 2^320). -/
def fxLn2 : Nat := 1480553391661173448385607439722553250922680800745876974795605978609098082859138712941075737848984

/-- exp of a fixed-point number below ln 2, by its series: `k` the next term's number, `t` the term, `acc` the sum. -/
def fxExpGo (y : Nat) : Nat → Nat → Nat → Nat → Nat
  | 0, _, _, acc => acc
  | fuel + 1, k, t, acc =>
    let t' := t * y / 2 ^ fxBits / k
    fxExpGo y fuel (k + 1) t' (acc + t')

/-- 2^f for a fixed-point fraction f. -/
def fxExp2 (f : Nat) : Nat :=
  fxExpGo (f * fxLn2 / 2 ^ fxBits) 80 1 (2 ^ fxBits) (2 ^ fxBits)

/-- The series z + z³/3 + z⁵/5 + … -/
def fxAtanhGo (z2 : Nat) : Nat → Nat → Nat → Nat → Nat
  | 0, _, _, acc => acc
  | fuel + 1, k, t, acc =>
    let t' := t * z2 / 2 ^ fxBits
    fxAtanhGo z2 fuel (k + 2) t' (acc + t' / (k + 2))

/-- log2 g for a fixed-point g in [1, 2). -/
def fxLog2 (g : Nat) : Nat :=
  let z := (g - 2 ^ fxBits) * 2 ^ fxBits / (g + 2 ^ fxBits)
  let a := fxAtanhGo (z * z / 2 ^ fxBits) 110 1 z z
  2 * a * 2 ^ fxBits / fxLn2

/-- Width of the interval around a fixed-point result, in units of its last place: every step above truncates by less than one unit
or one unit times a factor below 4, fewer than 400 steps. -/
def fxErr : Nat := 2 ^ 14

/-- Round a value known to lie strictly between (v − err) and (v + err) times 2^e: where both ends round alike that is the answer;
otherwise the value is left to `Config.transcendental`. -/
def roundBetween (fn : Nat) (arg : Nat) (neg : Bool) (v : Nat) (e : Int) : Nat × Nat :=
  let lo := fp32.round 0 false 0 neg (v - fxErr) e true
  let hi := fp32.round 0 false 0 neg (v + fxErr) e true
  if lo = hi then lo else ((Config.transcendental fn (BitVec.ofNat 32 arg)).toNat, lo.2)

/-- VEXP2 (R162). -/
def fpExp2 (w : Nat) : Nat × Nat :=
  match fp32.decode w with
  | .nan => (fp32.qnan, flNV)
  | .inf neg => if neg then (0, 0) else (fp32.infBits false, 0)
  | .fin neg m e _ =>
    if m = 0 then (0x3F800000, 0)
    else if decide (8 ≤ e + (bitLen m : Int)) && !neg then (fp32.infBits false, flOF)
    else if decide (9 ≤ e + (bitLen m : Int)) then fp32.round 0 false 0 false 1 (-400) true
    else
      let sh := (fxBits : Int) + e
      let mag : Nat := if 0 ≤ sh then m * 2 ^ sh.toNat else 0
      let x : Int := if neg then -(mag : Int) else (mag : Int)
      let n : Int := x / (2 ^ fxBits : Int)
      let f : Nat := (x % (2 ^ fxBits : Int)).toNat
      if f = 0 then fp32.round 0 false 0 false 1 n false
      else roundBetween 0 w false (fxExp2 f) (n - fxBits)

/-- VLOG2 (R162). -/
def fpLog2 (w : Nat) : Nat × Nat :=
  match fp32.decode w with
  | .nan => (fp32.qnan, flNV)
  | .inf neg => if neg then (fp32.qnan, flNV) else (fp32.infBits false, 0)
  | .fin neg m e _ =>
    if m = 0 then (fp32.infBits true, flDZ)
    else if neg then (fp32.qnan, flNV)
    else
      let l := bitLen m
      let n : Int := e + (l : Int) - 1
      let g := m * 2 ^ (fxBits + 1 - l)
      if g = 2 ^ fxBits then fp32.pack 0 false 0 (ofSigned n 0 false)
      else
        let v : Int := n * (2 ^ fxBits : Int) + (fxLog2 g : Int)
        roundBetween 1 w (decide (v < 0)) v.natAbs (-(fxBits : Int))

/-- VRCP (R162). -/
def fpRcp (w : Nat) : Nat × Nat := fpDiv fp32 0 0x3F800000 w

/-- VRSQ (R162). -/
def fpRsq (w : Nat) : Nat × Nat :=
  match fp32.decode w with
  | .nan => (fp32.qnan, flNV)
  | .inf neg => if neg then (fp32.qnan, flNV) else (0, 0)
  | .fin neg m e _ =>
    if m = 0 then (fp32.infBits neg, flDZ)
    else if neg then (fp32.qnan, flNV)
    else
      let e' : Int := if (e % 2 : Int) = 0 then e else e - 1
      let m' := if (e % 2 : Int) = 0 then m else 2 * m
      let t : Nat := 100
      let z := 2 ^ (2 * t) / m'
      let r := isqrt z
      fp32.round 0 false 0 false r (-(t : Int) - e' / 2) (r * r * m' != 2 ^ (2 * t))

/-! ### MXFP4 (R142, R143) and trits (R145) -/

/-- An E2M1 code under a block scale byte as FP32 value (R142). -/
def mxVal (x code : Nat) : FVal :=
  if x = 0xFF then .nan
  else
    match e2m1.decode code with
    | .fin neg m e st => .fin neg m (e + (x : Int) - 127) st
    | v => v

/-- floor(log2 a) of a positive FP32 value. -/
def fpFloorLog2 (w : Nat) : Int :=
  match fp32.decode w with
  | .fin _ m e _ => e + (bitLen m : Int) - 1
  | _ => 0

/-- Quantise up to 32 FP32 patterns to one block (R143): scale byte, codes, flags; `draw i` is the draw of element i. -/
def mxBlock (mode : Nat) (draw : Nat → Nat) (xs : List Nat) : Nat × List Nat × Nat :=
  let bad := xs.any (fun w => bitsOf w 23 8 == 255)
  if bad then (0xFF, xs.map (fun _ => 0), flNV)
  else
    let a := xs.foldl (fun acc w => max acc (fp32.abs w)) 0
    let e : Int := if a = 0 then -127 else max (fpFloorLog2 a - 2) (-127)
    let rs := (List.zip (List.range xs.length) xs).map (fun p =>
      match fp32.decode p.2 with
      | .fin neg m e0 _ => e2m1.round mode true (draw p.1) neg m (e0 - e) false
      | _ => (0, 0))
    ((e + 127).toNat, rs.map Prod.fst, rs.foldl (fun f r => f ||| r.2) 0)

/-- TRIT5 (R145): five digits minus one, and whether the byte is legal. -/
def trit5 (b : Nat) : List Int × Bool :=
  if 243 ≤ b then ([0, 0, 0, 0, 0], false)
  else ([(b % 3 : Int) - 1, (b / 3 % 3 : Int) - 1, (b / 9 % 3 : Int) - 1, (b / 27 % 3 : Int) - 1, (b / 81 % 3 : Int) - 1], true)

end Sys2Proof.Machine
end

