-- ==== Sys2Proof/Machine/Flags.lean ====
section
/-! DEFINITION. Flag computations: the sticky bits of SSTAT, VSTAT, MSTAT and BSTAT (R152, R166, R172, R173, R212, R254, R270). -/

namespace Sys2Proof.Machine

/-- DV as a bit of SSTAT (R166). -/
def flDV : Nat := 64

/-- An exact signed value lies outside the signed range of `n` bits. -/
def outside (n : Nat) (v : Int) : Bool := decide (v < -(2 ^ (n - 1) : Int)) || decide ((2 ^ (n - 1) : Int) ≤ v)

/-- IW of an exact signed 64-bit result (R173). -/
def iwFlag (n : Nat) (v : Int) : Nat := if outside n v then flIW else 0

/-- Sticky flags of the vector stream (R212); a GETS sees them from the next cycle (R203). -/
def State.orVstat (s : State) (c flags : Nat) : State :=
  if flags = 0 then s else s.cycSet c (.flags 0x021 flags)
/-- Sticky flags of the matrix stream (R254); a GETS sees them from the next cycle (R203). -/
def State.orMstat (s : State) (c flags : Nat) : State :=
  if flags = 0 then s else s.cycSet c (.flags 0x022 flags)
/-- Bank flags gather until the beat's close (R270). -/
def State.orBflags (s : State) (c flags : Nat) : State :=
  if flags = 0 then s else s.modCore c (fun k => { k with bflags := k.bflags ||| flags })

/-- SLID, OVR, CORR and GWIDE as bits of BSTAT (R270). -/
def bSLID : Nat := 0x40
def bOVR : Nat := 0x80
def bCORR : Nat := 0x100
def bGWIDE : Nat := 0x200

end Sys2Proof.Machine
end

