-- ==== Sys2Proof/Machine/Operands.lean ====
section
/-! DEFINITION. Operands of vector words: register codes and strides, special codes, rows and elements, masks, and how one repeat reads its sources and sends its results (R129, R205 to R211). -/

namespace Sys2Proof.Machine

/-! ### Codes and ranges (R129) -/

/-- The stride a code stands for (R129). -/
def strideOf (code : BitVec 3) : Int :=
  match code.toNat with
  | 0 => 0
  | 1 => 1
  | 2 => 2
  | 3 => 4
  | 4 => 8
  | 5 => 16
  | 6 => 64
  | _ => -1
def codeQS2V : Nat := 2040
def codeQV2S : Nat := 2041
def codeQV2M : Nat := 2042
def codeQM2V : Nat := 2043
def codeZERO : Nat := 2044
def codeLANEIDX : Nat := 2045
/-- The operand names a register. -/
def isReg (o : VOp) : Bool := o.reg.toNat < 1536
/-- The register of row `j` of repeat `i`. -/
def rowOf (o : VOp) (i j : Nat) : Int := o.reg.toNat + i * strideOf o.stride + j
/-- Every register that the repeats name lies within 0..1535, `rows` rows at each (R129, R211). -/
def inRange (o : VOp) (reps rows : Nat) : Bool :=
  let lo := rowOf o 0 0
  let hi := rowOf o (reps - 1) 0
  0 ≤ lo && 0 ≤ hi && lo + rows ≤ 1536 && hi + rows ≤ 1536
/-- A source operand is legal (R129). -/
def srcOk (o : VOp) (reps rows : Nat) : Bool :=
  if isReg o then inRange o reps rows else [codeQS2V, codeQM2V, codeZERO, codeLANEIDX].contains o.reg.toNat
/-- A destination operand is legal (R129). -/
def dstOk (o : VOp) (reps rows : Nat) : Bool :=
  if isReg o then inRange o reps rows else [codeQV2S, codeQV2M, codeZERO].contains o.reg.toNat

/-- The number of repeats of a word (R128). -/
def repsOf (v : VWord) : Nat := v.rep.toNat + 1

/-! ### Rows and elements (R205) -/

/-- Elements of `bits` bits of a byte list, element 0 first. -/
def elemsOf (bits : Nat) (row : List Byte) : List Nat :=
  (chunksOf (bits / 8) row.length row).map leNat
/-- Elements back into bytes. -/
def packElems (bits : Nat) (l : List Nat) : List Byte := l.flatMap (leBytes (bits / 8))
/-- An operand that a word does not use counts as zeros. -/
def padded (n : Nat) (l : List Nat) : List Nat := if l.isEmpty then List.replicate n 0 else l
/-- Elements per row (R205). -/
def elemCount (t : Nat) : Nat := 2048 / tyBits t
/-- A row of zeros. -/
def zeroRow : List Byte := List.replicate 256 0
/-- The LANEIDX row: lane j holds j as INT32 (R208). -/
def laneRow : List Byte := packElems 32 (List.range 64)
/-- A popped value in every element (R208). -/
def splatRow (bits : Nat) (v : Word64) : List Byte := packElems bits (List.replicate (2048 / bits) (v.toNat % 2 ^ bits))

/-- A write covers byte i of its space. -/
def CycWrite.covers (w : CycWrite) (i : Nat) : Bool := w.addr ≤ i && i < w.addr + w.data.length && (w.sel.isEmpty || w.sel.getD (i - w.addr) false)
/-- The writes of this cycle to bytes [a, a + n) of a space, in the order in which they were made. -/
def State.writesTo (s : State) (c sp a n : Nat) : List CycWrite :=
  s.wb.reverse.filter (fun w => w.core == c && w.space == sp && w.addr < a + n && a < w.addr + w.data.length)
/-- Bytes of a space as a read performed in this cycle sees them: what the cycle found, with the writes of the ranks that the read sees; where
two units write one byte in this cycle, its value from before both (R258). -/
def State.cycBytes (s : State) (c sp a n : Nat) (sees : Nat → Bool) : List Byte :=
  let ws := s.writesTo c sp a n
  let base := (s.core c).space sp
  let seen := (ws.filter (fun w => sees w.rank)).foldl (fun m w => Memory.writeSel m w.addr w.data w.sel) base
  if ws.all (fun w => ws.all (fun x => x.rank == w.rank)) then seen.readBytes a n
  else (List.range n).map (fun j =>
    if ws.any (fun w => w.covers (a + j) && ws.any (fun x => x.covers (a + j) && x.rank != w.rank)) then base.read (a + j) else seen.read (a + j))
/-- Bytes of A as a read of the vector or matrix stream sees them in this cycle: what the cycle found, and vector results and drained rows
that take effect in it (R206, R245, R255; log 46). -/
def State.aBytes (s : State) (c a n : Nat) : List Byte := s.cycBytes c 0 a n (fun r => 3 ≤ r)
/-- Bytes of C as a read of the vector stream or an MDRAIN sees them in this cycle: results of the vector stream and matrix rows that take effect
in it count (R206, R255; log 46). -/
def State.cBytes (s : State) (c a n : Nat) : List Byte := s.cycBytes c 1 a n (fun r => r == 1 || r == 3)
/-- C with this cycle's earlier matrix writes to bytes [a, a + n) (R157, R245). -/
def State.cNow (s : State) (c a n : Nat) : Memory :=
  ((s.writesTo c 1 a n).filter (fun w => w.rank == 3)).foldl (fun m w => Memory.writeSel m w.addr w.data w.sel) (s.core c).c
/-- C-space bytes of a row as the array finds them when it combines: commands of one cycle on one tile combine in program order (R157, R245). -/
def State.cRow (s : State) (c a n : Nat) : List Byte := (s.cNow c a n).readBytes a n
/-- Row r as a repeat of the vector stream reads it: an earlier repeat of the same word counts at once (R207). -/
def State.vRow (s : State) (c r : Nat) : List Byte :=
  match (s.core c).ve.fwd.find? (fun f => f.1 == r) with
  | some f => f.2
  | none => s.aBytes c (256 * r) 256

/-- 256 open bytes: what a destination without stored contents holds is not stated (log 15). -/
def State.freeRow (s : State) : List Byte := (List.range 256).map (fun j => Config.freeByte (s.free + j))

/-- A vector or matrix word of a core has an effect or a check still to come. -/
def State.wordLive (s : State) (c stamp : Nat) : Bool :=
  let k := s.core c
  let mine := fun (r : BankReq) => r.core == c && r.stamp == stamp
  s.agenda.any (fun e => match e.act with
    | .run .vectorResult (.vres r) => r.core == c && r.stamp == stamp
    | .run .matrixRowWrite (.mrow r) => r.core == c && r.of_.stamp == stamp
    | .run .drainDelivery (.drow r) => r.core == c && r.of_.stamp == stamp
    | _ => false)
    || s.joins.any (fun j => j.core == c && j.stamp == stamp) || s.greqs.any (fun g => g.core == c && g.stamp == stamp)
    || k.arriving.any mine || k.banks.toList.any (fun b => b.queue.any mine) || k.withheld.any (fun x => mine x.2)
/-- Remember what the repeat or row in issue of a stream pops, and forget it of words that are over (R388). -/
def State.notePop (s : State) (c : Nat) (st : StreamSt) (queue : Nat) (items : List (Nat × List Byte)) : State :=
  s.modCore c (fun k => { k with popped := k.popped.filter (fun p => p.stamp == st.istamp || s.wordLive c p.stamp)
                            ++ [{ queue, stamp := st.istamp, rep := st.sub, items }] })
/-- Entries back at the head of a queue. -/
def Queue.putBack {α : Type} (q : Queue α) (l : List (Nat × α)) : Queue α := { q with items := l ++ q.items }
/-- What a core's word has popped from its repeat or row `rep` on stands in the queues again: those repeats take no effect (R388). -/
def Core.unpop (k : Core) (stamp rep : Nat) : Core :=
  let mine := fun (p : Popped) => p.stamp == stamp && decide (rep ≤ p.rep)
  let back := fun (q : Nat) => (k.popped.filter (fun p => mine p && p.queue == q)).flatMap (fun p => p.items)
  { k with qs2v := k.qs2v.putBack ((back 0).map (fun x => (x.1, BitVec.ofNat 64 (leNat x.2))))
           qm2v := k.qm2v.putBack (back 1)
           qv2m := k.qv2m.putBack (back 2)
           popped := k.popped.filter (fun p => !mine p) }
/-- The head of QS2V is popped by the vector word in issue. -/
def State.popQs2v (s : State) (c : Nat) : State :=
  let k := s.core c
  (s.setCore c { k with qs2v := k.qs2v.pop s.now }).notePop c k.ve 0 ((k.qs2v.items.take 1).map (fun x => (x.1, leBytes 8 x.2.toNat)))

/-- A source read of one repeat (R208): the rows, and the core after its pops; none where a queue has too few entries. -/
def readSrc (s : State) (c bits : Nat) (o : VOp) (i rows : Nat) : Option (State × List (List Byte)) :=
  let k := s.core c
  if isReg o then some (s, (List.range rows).map (fun j => s.vRow c (rowOf o i j).toNat))
  else if o.reg.toNat = codeQS2V then
    if k.qs2v.canPop s.now then
      some (s.popQs2v c, List.replicate rows (splatRow bits (k.qs2v.head?.getD 0)))
    else none
  else if o.reg.toNat = codeQM2V then
    let es := k.qm2v.items.take rows
    if es.length = rows ∧ es.all (fun e => e.1 < s.now) then
      some ((s.setCore c { k with qm2v := (List.range rows).foldl (fun q _ => q.pop s.now) k.qm2v }).notePop c k.ve 1 es, es.map Prod.snd)
    else none
  else if o.reg.toNat = codeLANEIDX then some (s, List.replicate rows laneRow)
  else some (s, List.replicate rows zeroRow)

/-- Rows of a destination as the repeat reads them for merging and accumulation (R208, R209). -/
def readDst (s : State) (c : Nat) (o : VOp) (i rows : Nat) : List (List Byte) :=
  if isReg o then (List.range rows).map (fun j => s.vRow c (rowOf o i j).toNat)
  else List.replicate rows (if o.reg.toNat = codeQV2S then s.freeRow else zeroRow)

/-- A register row that the operand names is poisoned (R278). -/
def poisonedSrc (s : State) (c : Nat) (o : VOp) (i rows : Nat) : Bool :=
  let k := s.core c
  isReg o && !(k.poison.isEmpty && k.upsets.isEmpty) && (List.range rows).any (fun j => (k.portRead 0 (256 * (rowOf o i j).toNat) 256).poison)
/-- Corrections that the port makes while it reads an operand's rows (R278). -/
def State.afterSrc (s : State) (c : Nat) (o : VOp) (i rows : Nat) : State :=
  if isReg o && !(s.core c).upsets.isEmpty then
    (List.range rows).foldl (fun t j => t.afterRead c 0 (256 * (rowOf o i j).toNat) 256) s
  else s

/-! ### One repeat's surroundings -/

/-- What one repeat computes from: its number, source rows, destination rows, which elements are active, zeroing, rounding mode, key. -/
structure VEnv where
  k : Core
  i : Nat
  a : List (List Byte)
  b : List (List Byte)
  d : List (List Byte)
  act : Nat → Bool
  zeroing : Bool
  mode : Nat
  key : Nat

/-- The generator key K (R154). -/
def Core.key (k : Core) : Nat := k.sr.keyHi.toNat * 2 ^ 32 + k.sr.keyLo.toNat

/-- All rows joined. -/
def joinRows (l : List (List Byte)) : List Byte := l.flatten
/-- Bytes cut into rows. -/
def cutRows (l : List Byte) : List (List Byte) := chunksOf 256 l.length l

/-- An elementwise result: active elements from `f`, inactive ones by bit [79]; flags of active elements only (R209). -/
def mapElems (bits : Nat) (e : VEnv) (f : Nat → Nat → Nat → Nat → Nat × Nat) : List Byte × Nat :=
  let ds := elemsOf bits (joinRows e.d)
  let n := ds.length
  let xs := List.zip (padded n (elemsOf bits (joinRows e.a))) (List.zip (padded n (elemsOf bits (joinRows e.b))) ds)
  let rs := xs.mapIdx (fun n x => if e.act n then f n x.1 x.2.1 x.2.2 else (if e.zeroing then 0 else x.2.2, 0))
  (packElems bits (rs.map Prod.fst), rs.foldl (fun acc r => acc ||| r.2) 0)
/-- Merge a computed row by the mask (R209). -/
def mergeElems (bits : Nat) (e : VEnv) (new : List Nat) : List Byte :=
  packElems bits ((List.zip new (elemsOf bits (joinRows e.d))).mapIdx
    (fun n x => if e.act n then x.1 else if e.zeroing then 0 else x.2))

/-! ### Results (R206 to R208) -/

/-- A vector result on its way, taking effect `lat` cycles from now. -/
def State.sendSel (s : State) (c lat : Nat) (place : VPlace) (data : List Byte) (sel : List Bool) (flags : Nat) : State :=
  let st := (s.core c).ve
  s.post (s.now + lat) 0 (some c)
    (.run .vectorResult (.vres { core := c, place, data, sel, stamp := st.istamp, rep := st.sub, icyc := st.icyc, flags }))
/-- The same, every byte selected. -/
def State.sendV (s : State) (c lat : Nat) (place : VPlace) (data : List Byte) (flags : Nat) : State := s.sendSel c lat place data [] flags
/-- Value pushed to QV2S: element 0 sign- or zero-extended by type (R208). -/
def qv2sValue (t : Nat) (data : List Byte) : List Byte :=
  let v := leNat (data.take 4) % 2 ^ tyBits t
  leBytes 8 (if isSigned t then wrapTo 64 (signedOf v (tyBits t)) else v)
/-- Remember a row for later repeats of the word (R207). -/
def State.forwardRow (s : State) (c r : Nat) (data : List Byte) : State :=
  s.modStrm c .vector (fun st => { st with fwd := (r, data) :: st.fwd })
/-- Send result rows to a destination operand (R208); the first carries the repeat's flags, `t` decides the QV2S extension. -/
def State.sendRows (s : State) (c lat t : Nat) (o : VOp) (i : Nat) (rows : List (List Byte)) (flags : Nat) : State :=
  if isReg o then
    (rows.mapIdx (fun j r => (j, r))).foldl (fun st x =>
      let r := (rowOf o i x.1).toNat
      (st.sendV c lat (.row r) x.2 (if x.1 = 0 then flags else 0)).forwardRow c r x.2) s
  else if o.reg.toNat = codeQV2S then
    (s.modCore c (fun k => { k with qv2s := { k.qv2s with inflight := k.qv2s.inflight + 1 } })).sendV c lat .qv2s (qv2sValue t (rows.headD [])) flags
  else if o.reg.toNat = codeQV2M then
    (rows.mapIdx (fun j r => (j, r))).foldl (fun st x =>
      (st.modCore c (fun k => { k with qv2m := { k.qv2m with inflight := k.qv2m.inflight + 1 } })).sendV c lat .qv2m x.2 (if x.1 = 0 then flags else 0)) s
  else s.sendV c lat .flags [] flags
/-- A destination queue has room for a repeat's pushes (R208). -/
def dstRoom (s : State) (c : Nat) (o : VOp) (rows : Nat) : Bool :=
  let k := s.core c
  if o.reg.toNat = codeQV2S then k.qv2s.taken s.now < 8
  else if o.reg.toNat = codeQV2M then k.qv2m.taken s.now + rows ≤ 4
  else true

/-- A mask as 32 bytes. -/
def maskBytes (m : Nat) : List Byte := leBytes 32 m
/-- The mask whose bit n is `p n`, for n below `w`. -/
def maskOf (w : Nat) (p : Nat → Bool) : Nat := (List.range w).foldl (fun acc n => if p n then acc + 2 ^ n else acc) 0

/-! ### How a vector word ends -/

/-- What one repeat comes to: it has issued and occupies `q` cycles; it raises a fault; it finds a blocking condition. -/
inductive VOut where
  | ok (s : State) (q : Nat)
  | fault (s : State) (f : FaultRec)
  | block (s : State) (sub : Nat)

/-- A replay entry's remaining repeats find their place among the entries that follow: by cycle, and within one by the order of the queue (R398). -/
def Replay.insert (e : Replay) : List Replay → List Replay
  | [] => [e]
  | x :: l => if x.place < e.place || (x.place == e.place && x.stamp.any (fun n => e.stamp.any (fun m => decide (n < m)))) then x :: e.insert l else e :: x :: l
/-- The vector stream's next replay entry issues at its place; repeats of an earlier entry may share that cycle (R398). -/
def State.nextPlace (s : State) (c : Nat) (sliced : Bool) : State :=
  match (s.core c).ve.replay with
  | e :: _ => s.postIssue c .vector (if e.place = s.now && (sliced || e.stamp.isSome) then s.now else max (s.now + 1) e.place)
  | [] => s
/-- Go on after a repeat (R90, R206): the next repeat `q` cycles later, or the next word. A re-injected word that is not the last of its queue
leaves its further repeats to places of their own, so that the entries behind it keep theirs (R398). -/
def State.repeatDone (s : State) (c q reps : Nat) : State :=
  let st := (s.core c).ve
  let cur := if st.ovr.isSome then st.replay.headD {} else {}
  let others := st.ovr.isSome && decide (1 < st.replay.length)
  if st.sub + 1 < reps then
    let s := s.modStrm c .vector (fun st => { st with sub := st.sub + 1, stall := false })
    if others then
      let e : Replay := { (s.core c).vectorEntry with place := s.now + q, final := cur.final, stamp := some st.istamp }
      (s.modStrm c .vector (fun st => { st.endWord with replay := e.insert st.replay.tail })).nextPlace c cur.stamp.isSome
    else s.postIssue c .vector (s.now + q)
  else
    let s := s.modStrm c .vector (fun st => { st.endWord with next := if st.standsOn then st.widx + 1 else st.next, goAt := if cur.final && others then s.now + q else st.goAt })
    if others then s.nextPlace c cur.stamp.isSome else s.engineGoOn c .vector q
/-- How a repeat ends. -/
def finishVector (c reps : Nat) : VOut → Host.Outcome State Fault Refusal
  | .ok s q => .next (s.repeatDone c q reps)
  | .fault s f => .next (s.raiseIn c { f with source := 1 } .vector (s.core c).vectorEntry)
  | .block s sub => .next (s.blocked c .vector sub (s.core c).vectorEntry)
/-- A plain fault of the vector stream. -/
def vfault (s : State) (code : Nat) : VOut := .fault s { code }

/-- A mask register that a word reads or writes still waits for a VMPOS result (R228). -/
def Core.maskPending (k : Core) (ms : List Nat) : Bool := ms.any (fun m => m != 0 && (vget k.m m {}).pending.isSome)
/-- A row still waits for a load from another package (R320). -/
def State.rowPending (s : State) (c : Nat) (o : VOp) (i rows : Nat) : Bool :=
  isReg o && !s.joins.isEmpty && s.joins.any (fun j => j.core == c && j.due == 0 && (List.range rows).any (fun x => rowOf o i x == j.row))

/-- Bytes of A lie in a row that still waits for a load from another package (R320). -/
def State.bytesPending (s : State) (c addr n : Nat) : Bool :=
  s.joins.any (fun j => j.core == c && j.due == 0 && j.row < 1536 && 256 * j.row < addr + n && addr < 256 * j.row + 256)

/-- Run a repeat of a vector word: step 1 of R121 and `ok` (step 3 and the word's own checks) before the first repeat has any effect
(R211), then `f` on the repeat in issue. -/
def vectorWord (i : Instr) (reps : Nat) (s : State) (ok : Core → Option Nat) (f : State → Nat → Nat → VOut) :
    Host.Outcome State Fault Refusal :=
  let c := s.curCore
  let k := s.core c
  finishVector c reps
    (if !i.wf then vfault s 0x01
     else
       match ok k with
       | some code => vfault s code
       | none => f s c k.ve.sub)

/-- How a repeat runs: rows of its operands, occupancy and latency, element width for QS2V, the type that extends a QV2S result, whether
it computes from D, whether its mask merges into D (R209), further mask registers it uses, and further registers it reads. -/
structure VForm where
  aRows : Nat := 1
  bRows : Nat := 1
  dRows : Nat := 1
  q : Nat := 1
  lat : Nat := 4
  bits : Nat
  dty : Nat
  readD : Bool := false
  merges : Bool := true
  masks : List Nat := []
  more : List VOp := []
  deriving DecidableEq, Repr

/-- The form of most words: one row each, q = 1, L = 4, the element type throughout. -/
def formOf (v : VWord) : VForm := { bits := tyBits v.ty.toNat, dty := v.ty.toNat }
/-- The same without an operand B. -/
def formOf2 (v : VWord) : VForm := { formOf v with bRows := 0 }

/-- Step 3 of R121 for the three operand fields (R129, R211). -/
def formOk (v : VWord) (fm : VForm) : Bool :=
  (fm.dRows = 0 || dstOk v.d (repsOf v) fm.dRows) && (fm.aRows = 0 || srcOk v.a (repsOf v) fm.aRows) &&
    (fm.bRows = 0 || srcOk v.b (repsOf v) fm.bRows)
/-- ILLEGAL_OPERAND where a check fails. -/
def operandIf (bad : Bool) : Option Nat := if bad then some 0x02 else none

/-- The address of the first poisoned row of a repeat's operands (R394). -/
def State.poisonAddr (s : State) (c i : Nat) (os : List (VOp × Nat)) : Nat :=
  ((os.flatMap (fun o => (List.range o.2).map (fun j => (o.1, j)))).find? (fun x =>
    isReg x.1 && ((s.core c).portRead 0 (256 * (rowOf x.1 i x.2).toNat) 256).poison)).elim 0 (fun x => 256 * (rowOf x.1 i x.2).toNat)
/-- A poisoned source: nothing is written, POISON is raised at the result cycle with the row's address (R278, R386, R394). -/
def State.poisonV (s : State) (c lat va : Nat) : State :=
  let id := s.seq
  let k := s.core c
  let g : GReq := { id, core := c, src := 1, va, pa := 0, n := 0, job := .rowLoad 0 0, stamp := k.ve.istamp
                    entry := k.vectorEntry, performAt := s.now, slots := 0, done := true, poisoned := true }
  ({ s with greqs := s.greqs ++ [g] } : State).post (s.now + lat) 0 (some c) (.run .globalResultReturn (.nums [id]))

/-- The environment of a repeat whose sources have been read. -/
def vEnv (s : State) (c i : Nat) (v : VWord) (fm : VForm) (a b : List (List Byte)) : VEnv :=
  let k := s.core c
  let m := (k.lanesNow (k.curWord .vector)).toNat
  { k, i, a, b, d := readDst s c v.d i fm.dRows, act := fun n => bitOf m n, zeroing := v.zero == 1, mode := v.rnd.toNat, key := k.key }

/-- The register rows a repeat reads, as operand, repeat and rows; D among them where the word computes from it or merges (R209). -/
def VForm.reads (fm : VForm) (v : VWord) (_ : Nat) (k : Core) : List (VOp × Nat) :=
  let merging := fm.merges && v.zero == 0 && k.lanesNow (k.curWord .vector) != BitVec.allOnes 256
  [(v.a, fm.aRows), (v.b, fm.bRows)] ++ fm.more.map (fun o => (o, 1)) ++ (if fm.readD || merging then [(v.d, fm.dRows)] else [])

/-- One repeat (R206 to R210): it waits for pending masks and rows, pops and reads A, then B, needs room at its destination, and then
`finish` computes and sends its results, `lat` cycles from issue. -/
def runWith (v : VWord) (fm : VForm) (finish : State → VEnv → Nat → State) (s : State) (c i : Nat) : VOut :=
  let k := s.core c
  let rs := fm.reads v i k
  if k.maskPending (v.mask.toNat :: fm.masks) || (((v.d, fm.dRows) :: rs).any (fun r => s.rowPending c r.1 i r.2)) then .block s 6
  else
    match readSrc s c fm.bits v.a i fm.aRows with
    | none => .block s 1
    | some (s1, a) =>
      match readSrc s1 c fm.bits v.b i fm.bRows with
      | none => .block s 1
      | some (s2, b) =>
        if fm.dRows != 0 && !dstRoom s c v.d fm.dRows then .block s 2
        else if rs.any (fun r => poisonedSrc s c r.1 i r.2) then
          .ok ((rs.foldl (fun t r => t.afterSrc c r.1 i r.2) s2).poisonV c (fm.q - 1 + fm.lat) (s.poisonAddr c i rs)) fm.q
        else
          let e := vEnv s2 c i v fm a b
          .ok (finish (rs.foldl (fun t r => t.afterSrc c r.1 i r.2) s2) e (fm.q - 1 + fm.lat)) fm.q

/-- One repeat whose result rows go to D (R206 to R209): `compute` gives the rows and the flags. -/
def runRepeat (v : VWord) (fm : VForm) (compute : VEnv → List (List Byte) × Nat) : State → Nat → Nat → VOut :=
  runWith v fm (fun s e lat =>
    let r := compute e
    let s := if v.d.reg.toNat = codeQV2S then { s with free := s.free + 256 } else s
    s.sendRows s.curCore lat fm.dty v.d e.i r.1 r.2)

/-- A plain word: D from A and B by repeats (R206). -/
def plainVector (i : Instr) (v : VWord) (fm : VForm) (compute : VEnv → List (List Byte) × Nat) (s : State) : Host.Outcome State Fault Refusal :=
  vectorWord i (repsOf v) s (fun _ => operandIf (!formOk v fm)) (runRepeat v fm compute)

end Sys2Proof.Machine
end

