-- ==== Sys2Proof/Machine/Banks.lean ====
section
/-! DEFINITION. W and B banks: region tags, requests and their arrival, lateness and sliding, lode slots, what a beat's close does, the status column (R259, R263 to R279, R298, R303, R308 to R310, R319). -/

namespace Sys2Proof.Machine

/-! ### Addresses and tags (R259, R279, R298) -/

/-- Bytes of the seam spaces W and B. -/
def seamSize : Nat := 8388608
/-- The bank of a seam address (R259). -/
def bankOf (a : Nat) : Nat := a / 262144
/-- The word of a seam address within its bank (R259). -/
def bankWord (a : Nat) : Nat := a / 32 % 8192
/-- The seam address of a bank's word. -/
def seamAddr (bank word : Nat) : Nat := bank * 262144 + word % 8192 * 32
/-- A core's bank. -/
def Core.bank (k : Core) (b : Nat) : Bank := vget k.banks b {}
/-- Change a bank. -/
def State.modBank (s : State) (c b : Nat) (f : Bank → Bank) : State := s.modCore c (fun k => { k with banks := vset k.banks b (f (k.bank b)) })

/-- The number of a word of a space in the table of region tags: words of W and B first, then those of S, C and A. -/
def tagKey (sp w : Nat) : Nat := (3 - sp) * 2 ^ 20 + w
/-- The region tag that a write leaves on words of a space (R279). -/
def Core.stamp (k : Core) (sp tag : Nat) (ws : List Nat) : Core :=
  { k with tags := ws.foldl (fun t w => if tag = 0 then Table.erase t (tagKey sp w) else Table.put t (tagKey sp w) tag) k.tags }
/-- A master may read these seam bytes: an entry gives the right and every word carries its tag (R298). -/
def Core.seamRead (k : Core) (master a n : Nat) : Bool :=
  match accFind k.acc master a n 0 with
  | some e => (wordsOf a n).all (fun w => Table.getD k.tags (tagKey 3 w) 0 == e.tag.toNat)
  | none => false
/-- The tag that a master's write to these seam bytes stamps, if it may write (R298). -/
def Core.seamWrite (k : Core) (master a n : Nat) : Option Nat := (accFind k.acc master a n 1).map (fun e => e.tag.toNat)
/-- A bank command's tag passes the bank's access table for the engines of its core (R279, R308): the entry that covers the bank gives the
write right under this tag. -/
def Core.tagPasses (k : Core) (c bank tag : Nat) : Bool := k.seamWrite (coreMaster 2 c) (bank * 262144) 262144 == some tag

/-! ### Requests -/

/-- A request is a bank command, which takes a sequence number (R271). -/
def BankReq.command (r : BankReq) : Bool :=
  match r.job with
  | .prog _ _ _ _ => true
  | .lode _ _ _ _ _ _ _ => true
  | .cal _ => true
  | _ => false
/-- The kind of beat a request names (R265, R269): 0 access, 1 compute, 2 compute that is no assay beat. -/
def BankReq.beatKind (r : BankReq) : Nat :=
  match r.job with
  | .prog _ _ _ _ => 1
  | .lode _ _ _ _ _ _ _ => 2
  | .cal _ => 2
  | _ => 0
/-- A beat is of a kind that a request may name. -/
def State.beatIs (s : State) (kind n : Nat) : Bool :=
  if kind = 0 then s.isAccess n else if kind = 1 then s.isCompute n else s.isCompute n && !s.isAssay n
/-- Entries of a bank's request queue, with requests of this core's banks on their way to it (R266). -/
def Core.bankHeld (k : Core) (b : Nat) : Nat := (k.bank b).queue.length + (k.arriving.filter (fun r => r.bank == b)).length
/-- The queue has room for one more (R266, R280). -/
def Core.bankRoom (k : Core) (b : Nat) : Bool := k.bankHeld b < 32
/-- Send a request to a bank of core `target`; it arrives at cycle `at_` (R266). -/
def State.sendBank (s : State) (target : Nat) (r : BankReq) (at_ : Nat) : State :=
  (s.modCore target (fun k => { k with arriving := k.arriving ++ [r] })).post at_ 1 (some r.core) (.run .bankRequestArrival (.nums [target, r.id]))
/-- The order in which one beat's requests apply: source unit, issue sequence (R264). -/
def BankReq.before (a b : BankReq) : Bool := a.src < b.src || (a.src == b.src && a.iseq < b.iseq)
/-- Insert in that order, behind equals. -/
def insertReq (r : BankReq) : List BankReq → List BankReq
  | [] => [r]
  | x :: xs => if r.before x then r :: x :: xs else x :: insertReq r xs
/-- Requests in that order. -/
def sortReqs (l : List BankReq) : List BankReq := l.foldl (fun acc r => insertReq r acc) []

/-! ### Lode slots (R274, R310) -/

/-- Rows active in plane p of an NBPk source of 512 elements (R274). -/
def planeActive (planes : List Byte) (p : Nat) : List Nat :=
  (List.range 512).filter (fun r => bitOf (planes.getD (64 * p + r / 8) 0).toNat (r % 8))
/-- E(G): evaluations of a command (R274). -/
def evaluations (planes : List Byte) (k g : Nat) : Nat := ((List.range k).map (fun p => cdiv (planeActive planes p).length g)).sum
/-- Booked cycles and subarrays of the two slots of a bank. -/
abbrev Slots := (Nat × List Nat) × (Nat × List Nat)
/-- No booking. -/
def noSlots : Slots := ((0, []), (0, []))
/-- The slot a command of a subarray takes, and the least G that fits a budget (R274). -/
def placeLode (s : Slots) (budget sub : Nat) (planes : List Byte) (k : Nat) : Option (Nat × Slots) :=
  let second := if s.1.2.contains sub then false else if s.2.2.contains sub then true else decide (s.2.1 < s.1.1)
  let used := if second then s.2.1 else s.1.1
  match [64, 128, 256].find? (fun g => decide (used + 4 * evaluations planes k g ≤ budget)) with
  | some g =>
    let t := used + 4 * evaluations planes k g
    some (g, if second then (s.1, (t, sub :: s.2.2)) else ((t, sub :: s.1.2), s.2))
  | none => none
/-- Book the lode commands of one beat in order: G of each by its number, or none where one does not fit; a calibration needs both slots
for the whole beat (R274, R310). -/
def bookLodes (budget : Nat) : Slots → Bool → List BankReq → Option (List (Nat × Nat))
  | _, _, [] => some []
  | sl, cal, r :: rs =>
    match r.job with
    | .lode sub planes k _ _ _ _ =>
      if cal then none
      else
        match placeLode sl budget sub planes k with
        | some (g, sl') => (bookLodes budget sl' false rs).map (fun l => (r.id, g) :: l)
        | none => none
    | .cal _ => if cal || sl != noSlots then none else (bookLodes budget sl true rs).map (fun l => (r.id, 0) :: l)
    | _ => bookLodes budget sl cal rs
/-- The lode and calibration commands a bank holds for a beat, in order (R274). -/
def Bank.lodeReqs (b : Bank) (beat : Nat) : List BankReq := sortReqs (b.queue.filter (fun r => r.isLode && r.beat == beat))

/-! ### Arrival (R266, R267) -/

/-- Words already booked in a bank for a beat that has not opened (R267). -/
def Bank.wordsFor (b : Bank) (beat : Nat) : Nat := ((b.queue.filter (fun r => r.beat == beat)).map (fun r => r.words)).sum
/-- A request that arrives now is admitted to the beat it names: not past the cutoff, its words within what remains, its evaluations
within the slots (R266, R267, R274). -/
def State.bankFits (s : State) (target : Nat) (r : BankReq) : Bool :=
  let b := (s.core target).bank r.bank
  let o := s.coreBeat target
  let len := if r.beat = o.1 then s.coreBeatLen target else (s.beatEnt r.beat).len
  let lodes := !r.isLode || (bookLodes (len - 16) noSlots false (insertReq r (b.lodeReqs r.beat))).isSome
  if beatLater o.1 r.beat then false
  else if r.beat = o.1 then
    s.now + 9 ≤ o.2 + len && (r.words == 0 || max s.now b.freeAt + r.words + 8 ≤ o.2 + len) && lodes
  else b.wordsFor r.beat + r.words + 8 ≤ len && lodes
/-- The stope of a core is frozen, and beat n at core `target` comes after the one it froze in (R388). -/
def State.pastF (s : State) (c target n : Nat) : Bool := (s.stopeOf c).any (fun t => t.frozen.isSome && beatLater n (s.beatAtF t target))
/-- A request takes its queue entry (R266); words of the open beat are served one per cycle in arrival order (R267). One of a frozen stope for a
later beat is withdrawn at once (R388). -/
def State.bankAdmit (s : State) (target : Nat) (r : BankReq) : State :=
  if s.pastF r.core target r.beat then s.modCore r.core (fun k => { k with withheld := k.withheld ++ [(target, r)] }) else
  let open_ := (s.coreBeat target).1 == r.beat
  let s := s.modBank target r.bank (fun b =>
    { b with queue := b.queue ++ [r], freeAt := if open_ && r.words != 0 then max s.now b.freeAt + r.words else b.freeAt })
  match r.job with
  | .prog _ _ _ _ => if open_ then s.post s.now 1 none (.run .bankProgramStart (.nums [target, r.bank])) else s
  | _ => s

/-- The pushes of withdrawn results are no longer on their way to QV2S and QV2M. -/
def Core.unreserve (k : Core) (nv nm : Nat) : Core :=
  { k with qv2s := { k.qv2s with inflight := k.qv2s.inflight - nv }, qv2m := { k.qv2m with inflight := k.qv2m.inflight - nm } }
/-- The row, or queue code, that a bank load of a request fills. -/
def BankReq.loadRow (r : BankReq) : Option Nat := match r.job with | .load row _ _ _ => some row | _ => none
/-- Withdraw the repeats of a vector word from repeat `rep` on: their pending results, joins, requests not yet performed and bank requests
take no effect, and their pops and pushes are undone (R319, R388). -/
def State.withdraw (s : State) (c stamp rep : Nat) : State :=
  let gone := s.joins.filter (fun j => j.core == c && j.stamp == stamp && rep ≤ j.rep)
  let mine := fun (r : BankReq) => r.core == c && r.src == 1 && r.stamp == stamp && rep ≤ r.rep
  let out := s.agenda.filterMap (fun e => match e.act with
    | .run .vectorResult (.vres r) => if r.core = c ∧ r.stamp = stamp ∧ rep ≤ r.rep then some r.place else none
    | _ => none)
  let k := s.core c
  let rows := gone.map (fun j => j.row) ++ ((k.arriving ++ (k.withheld.map (fun x => x.2)) ++ k.banks.toList.flatMap (fun b => b.queue)).filter mine).filterMap (fun r => r.loadRow)
  let s := s.modCore c (fun k => (k.unpop stamp rep).unreserve ((out.filter (fun p => p == .qv2s)).length + (rows.filter (fun r => r == codeQV2S)).length)
    ((out.filter (fun p => p == .qv2m)).length + (rows.filter (fun r => r == codeQV2M)).length))
  let s := s.cancel (fun e => match e.act with
    | .run .vectorResult (.vres r) => r.core == c && r.stamp == stamp && rep ≤ r.rep
    | _ => false)
  let s : State := { s with joins := s.joins.filter (fun j => !gone.contains j)
                            greqs := s.greqs.filter (fun g => !(g.core == c && g.src == 1 && g.stamp == stamp && rep ≤ g.entry.next && !g.done)) }
  s.modCore c (fun k => { k with arriving := k.arriving.filter (fun r => !mine r)
                                 withheld := k.withheld.filter (fun x => !mine x.2)
                                 banks := k.banks.map (fun b => { b with queue := b.queue.filter (fun r => !mine r) }) })

/-- A fault that a vector word meets after its issue, at repeat `rep` (R388, R396): later repeats are withdrawn; a word still in issue is
stopped and re-injected from there. -/
def State.raiseVector (s : State) (c stamp rep : Nat) (f : FaultRec) (e : Replay) : State :=
  let s := s.withdraw c stamp rep
  let st := (s.core c).ve
  let inIssue := st.istamp == stamp && st.sub != 0
  if inIssue then (s.cancel (fun x => x.forStream c .vector)).raiseIn c { f with source := 1 } .vector { e with next := rep }
  else s.raise c { f with source := 1 } (some (.vector, { e with next := rep, own := false }))

/-- SOURCE of a bank request (R394). -/
def BankReq.source (r : BankReq) : Nat := if r.src = 0 then 3 else if r.src = 1 then 1 else if r.isLode then 5 else 4
/-- A late request under policy FAULT: BEAT_LATE on the issuing core; a command completes in the status column at the close of the beat that
is open (R266, R272); a copy holds at its word (R303). -/
def State.bankLate (s : State) (target : Nat) (r : BankReq) : State :=
  let f : FaultRec := { code := 0x15, source := r.source, kind := 6, va := BitVec.ofNat 64 (seamAddr r.bank r.word), unit := r.bank }
  let s := if r.command then s.modBank target r.bank (fun b => { b with ended := b.ended ++ [(r, 0x15, false)] }) else s
  if r.src = 1 then
    (s.modCore r.core (fun k => k.unreserve (if r.loadRow = some codeQV2S then 1 else 0) (if r.loadRow = some codeQV2M then 1 else 0))).raiseVector r.core r.stamp r.rep f r.entry
  else if r.src = 0 then
    match r.job with
    | .copyIn w data poison =>
      let s := s.modCore r.core (fun k => { k with copy := k.copy.map (fun x =>
        { x with holdAt := some w, unsent := w :: x.unsent, parked := (w, data, poison) :: x.parked }) })
      s.raise r.core f (some (.scalar, r.entry))
    | .copyOut w =>
      -- the engine holds at the word; its requests for later words are withdrawn
      let mine := fun (q : BankReq) => q.core == r.core && q.entry.job == r.entry.job && (match q.job with | .copyOut u => decide (w ≤ u) | _ => false)
      let s := s.modCore target (fun k => { k with arriving := k.arriving.filter (fun q => !mine q)
                                                   banks := k.banks.map (fun b => { b with queue := b.queue.filter (fun q => !mine q) }) })
      let s := s.modCore r.core (fun k => { k with withheld := k.withheld.filter (fun x => !mine x.2), copy := k.copy.map (fun x =>
        { x with holdAt := some w, nextWord := min x.nextWord w, unsent := x.unsent.filter (fun u => u < w) }) })
      s.raise r.core f (some (.scalar, r.entry))
    | _ => s.raise r.core f (some (.scalar, r.entry))
  else s.raise r.core f (some (.scalar, r.entry))

/-- A request arrives (R266): admitted, or late and slid to the next beat of its kind, or late and faulted. Under SLIDE the check repeats
at the new beat, which for a request that names a closed beat may be the open one; `fuel` bounds the beats tried in one cycle, after which the request is checked again in the next. -/
def State.arrive (s : State) (target : Nat) : Nat → BankReq → State
  | 0, r => s.sendBank target r (s.now + 1)
  | fuel + 1, r =>
    if s.bankFits target r then s.bankAdmit target r
    else if r.slide then
      let open_ := (s.coreBeat target).1
      let from_ := if beatLater open_ r.beat then (open_ + beatMod - 1) % beatMod else r.beat
      (s.orBflags r.core bSLID).arrive target fuel { r with beat := s.nextBeat r.beatKind 64 from_ }
    else s.bankLate target r

/-- BANK_REQUEST_ARRIVAL (R266): operands are the bank's core and the request. -/
def execBankRequestArrival (s : State) : Host.Outcome State Fault Refusal :=
  match s.arg with
  | .nums [target, id] =>
    match (s.core target).arriving.find? (fun r => r.id == id) with
    | some r => .next ((s.modCore target (fun k => { k with arriving := k.arriving.filter (fun x => x.id != id) })).arrive target 64 r)
    | none => .next s
  | _ => .next s

/-! ### What a close does (R264, R268, R270, R272, R274 to R277) -/

/-- Groups of at most `g` rows (R274). -/
def rowGroups (g : Nat) (rows : List Nat) : List (List Nat) := chunksOf g rows.length rows
/-- The count of a group's rows whose weight bit j of column c is set (R273). -/
def groupCount (cells : List Byte) (rows : List Nat) (j c : Nat) : Nat :=
  (rows.filter (fun r => bitOf (cells.getD (32 * r + 8 * j + c / 8) 0).toNat (c % 8))).length
/-- The error bound e(G) (R276). -/
def adcBound (g : Nat) : Nat := if g = 64 then 1 else if g = 128 then 2 else 4
/-- An ADC output: within e(G) of the count, 0 to 255, and 255 for a count of 256 (R274, R276); which value is open (log 21). -/
def adcOut (g n draw : Nat) : Nat :=
  let e := adcBound g
  let lo := (n : Int) - e
  let x := lo + Config.adcError draw % (2 * e + 1 : Nat)
  if n = 256 then 255 else (max 0 (min 255 x)).toNat
/-- One lode result: the formula of R275 over ADC outputs. `base` numbers the conversions of the command. -/
def lodeSum (cells planes : List Byte) (k g c base : Nat) : Int :=
  ((List.range k).map (fun p =>
    let groups := rowGroups g (planeActive planes p)
    let sp : Int := if p = 0 then -1 else 1
    ((List.range 4).map (fun j =>
      let tj : Int := if j = 3 then -1 else 1
      let n : Nat := (groups.mapIdx (fun i rows => adcOut g (groupCount cells rows j c) (base + ((p * 4 + j) * 64 + c) * 8 + i))).sum
      sp * 2 ^ (7 - p) * tj * 2 ^ j * (n : Int))).sum)).sum
/-- The C byte address of a lode result half row (R277, R307). -/
def lodeAddr (crow half : Nat) : Nat := crow / 128 * 65536 + crow % 128 * 512 + half * 256

/-- The weight cells of a subarray as they stand, soft errors included: a lode neither checks nor corrects (R278). -/
def Core.weightCells (k : Core) (b sub : Nat) : List Byte :=
  let base := seamAddr b (512 * sub)
  let raw := k.seam.readBytes base (512 * 32)
  let bad := k.upsets.filter (fun u => u.1 == 3 && base ≤ 32 * u.2.1 && 32 * u.2.1 < base + 512 * 32)
  bad.foldl (fun l u => setAt l (32 * u.2.1 - base + u.2.2 / 8) (fun x => x ^^^ (1#8 <<< (u.2.2 % 8)))) raw
/-- The access table lets a core's bank engines and lodes read the weight words of a subarray (R298). -/
def Core.weightsReadable (k : Core) (c b sub : Nat) : Bool :=
  (List.range 512).all (fun i => k.seamRead (coreMaster 2 c) (seamAddr b (512 * sub + i)) 32)
/-- The core's counter stands still: what happens now comes to it at the local cycle that now would have been (R388). -/
def State.stands (s : State) (c : Nat) : Bool := (s.frozenAt c).any (fun f => decide (f < s.now))
/-- The results of a lode command reach C under its tag, with GLAST and the flags of narrowing and width (R270, R277, R279, R309). -/
def State.lodeWrite (s : State) (c addr tag code : Nat) (acc : Bool) (sums : List Int) : State :=
  -- lode results of one beat apply in order, the later on the earlier (R309)
  let old := (s.wb.reverse.filter (fun w => w.core == c && w.space == 1 && w.rank == 2)).foldl
    (fun m w => Memory.writeSel m w.addr w.data w.sel) (s.core c).c
  let vals := sums.mapIdx (fun i x => intFit 4 false (if acc then signedOf (old.readNat (addr + 4 * i) 4) 32 + x else x))
  let fl := (if acc then vals.foldl (fun a x => a ||| x.2) 0 else 0) ||| if code = 1 then 0 else bGWIDE
  let s := s.cycWrite { core := c, space := 1, rank := 2, addr, data := packElems 32 (vals.map Prod.fst), sel := [] }
  let s := (s.cycSet c (.glast code)).modCore c (fun k => k.stamp 1 tag (wordsOf addr 256))
  if fl = 0 then s else s.cycSet c (.flags 0x023 fl)
/-- One lode command's effect at its beat's close (R275, R277, R279, R309): results into C under the command's tag, GLAST and GWIDE, its end. A
poisoned source, a poisoned word of the row it adds to, or weights that may not be read fault instead (R278, R298, R406). -/
def State.lodeClose (s : State) (c b : Nat) (r : BankReq) (g : Nat) : State :=
  match r.job with
  | .lode sub planes k crow half acc poison =>
    let addr := lodeAddr crow half
    let dead := acc && ((s.core c).portRead 1 addr 256).poison
    let s := if acc then s.afterRead c 1 addr 256 2 else s
    let fail := fun (code : Nat) =>
      (s.modBank c b (fun x => { x with ended := x.ended ++ [(r, code, false)] })).raise c { code, source := 5, unit := b } (some (.scalar, r.entry))
    if poison || dead then fail 0x18
    else if !(s.core c).weightsReadable c b sub then fail 0x13
    else
      let cells := (s.core c).weightCells b sub
      let sums := (List.range 64).map (fun col => lodeSum cells planes k g col s.free)
      let code := if g = 64 then 1 else if g = 128 then 2 else 3
      let s := if s.stands c then s.postAt s.now 3 (some c) (.run .beatClose (.lode c addr r.tag code acc sums)) else s.lodeWrite c addr r.tag code acc sums
      { s with free := s.free + 16384 }.modBank c b (fun x => { x with ended := x.ended ++ [(r, 0, false)] })
  | .cal _ => s.modBank c b (fun x => { x with ended := x.ended ++ [(r, 0, false)] })
  | _ => s

/-- A bank load's end at its beat's close: the row takes effect at the close + 6 (R281, R317); poison faults then (R278). With no active
element no byte is read (R317). -/
def State.loadClose (s : State) (owner : Nat) (r : BankReq) (row : Nat) (sel : List Bool) (zero : Bool) (ty : Nat) : State :=
  let a := seamAddr r.bank r.word
  let live := sel.any id
  let n := if live then 256 else 0
  let rd := (s.core owner).portRead 3 a n
  let j : RowJoin := { id := s.seq, core := r.core, row, data := if live then rd.data else List.replicate 256 0, sel, keep := if zero then [] else sel.map (fun x => !x), left := 0
                       stamp := r.stamp, rep := r.rep, due := s.now + 6, ty, poisoned := rd.poison, entry := { r.entry with va := BitVec.ofNat 64 a, kind := kindBank } }
  let s : State := { s.afterReadBy r.core owner 3 a n (if r.src = 1 then 0 else 2) with joins := s.joins ++ [j] }
  s.postAt (s.now + 6) 0 (some r.core) (.run .vectorResult (.nums [j.id]))

/-- The core that a core-space address names, for a copy of core c (R301). -/
def copyCore (c : Nat) (a : Word64) : Nat := if a.toNat / 2 ^ 48 = 0xFFFF then c else a.toNat / 2 ^ 48 % 1024
/-- The core of a copy's source or destination; the issuing core for global memory. -/
def CopyDesc.srcCore (d : CopyDesc) (c : Nat) : Nat := if d.sspace = 5 then c else copyCore c d.src
def CopyDesc.dstCore (d : CopyDesc) (c : Nat) : Nat := if d.dspace = 5 then d.srcCore c else copyCore c d.dst
/-- A copy word read out of a bank is held from the close + 6, and stands at its destination 8 + 2h_d later (R283, R303). -/
def State.copyOutClose (s : State) (owner : Nat) (r : BankReq) (w : Nat) : State :=
  let a := seamAddr r.bank r.word
  let hd := (s.core r.core).copy.elim 0 (fun x => hops owner (x.desc.dstCore r.core))
  let rd := (s.core owner).portRead 3 a 32
  let s := s.afterReadBy r.core owner 3 a 32 1
  s.post (s.now + 14 + 2 * hd) 1 none (.run .copyWord (.copy r.core w (.data rd.data (if rd.poison then 1 else 0))))

/-- The write that a request makes at its close. -/
def BankReq.write? (r : BankReq) : Option BankWrite :=
  let a := seamAddr r.bank r.word
  match r.job with
  | .store data sel => some { src := r.src, iseq := r.iseq, addr := a, data, sel, tag := r.tag }
  | .copyIn _ data poison => some { src := r.src, iseq := r.iseq, addr := a, data, sel := [], tag := r.tag, poison }
  | _ => none
/-- Order of a close's writes (R264). -/
def BankWrite.before (a b : BankWrite) : Bool := a.src < b.src || (a.src == b.src && a.iseq < b.iseq)
/-- Insert in that order, behind equals (R313). -/
def insertWrite (r : BankWrite) : List BankWrite → List BankWrite
  | [] => [r]
  | x :: xs => if r.before x then r :: x :: xs else x :: insertWrite r xs
/-- Apply one write: data, region tags, poison carried by a copy (R279, R406). -/
def Core.applyBankWrite (k : Core) (w : BankWrite) : Core :=
  let k := k.store 3 w.addr w.data w.sel
  let ws := (wordsOf w.addr w.data.length).filter (fun x => w.sel.isEmpty || ((w.sel.drop (32 * x - w.addr)).take 32).any id)
  let k := k.stamp 3 w.tag ws
  if w.poison then { k with poison := k.poison ++ ws.map (fun x => (3, x)) } else k

/-- The status column word after a close (R272): RUN and its overrun, the last command ended, DONE. A command found late while the beat was open is
the one that SEQ takes. -/
def Bank.statusAfter (b : Bank) (old : Word64) : Word64 :=
  let run := match b.engine with
    | some e => e.req.seqNo
    | none => 0
  let late := b.ended.filter (fun e => e.2.1 == 0x15)
  let last : Option (BankReq × Nat × Bool) := if late.isEmpty then b.ended.getLast? else late.getLast?
  let seq := match last with
    | some e => e.1.seqNo
    | none => bitsOf old.toNat 32 16
  let code : Nat := match last with
    | some e => e.2.1
    | none => bitsOf old.toNat 48 8
  let ovr := match b.engine, last with
    | some e, _ => e.once
    | none, some e => e.2.2
    | none, none => bitOf old.toNat 62
  let done := b.engine.isNone && b.waits.isEmpty && !b.queue.any (fun r => r.command)
  BitVec.ofNat 64 (run * 2 ^ 16 + seq * 2 ^ 32 + code * 2 ^ 48 + (if code = 0 then 0 else 2 ^ 61) + (if ovr then 2 ^ 62 else 0) + if done then 2 ^ 63 else 0)
/-- The status word as seen at a cycle. -/
def Bank.seen (b : Bank) (now : Nat) : Word64 := ((b.status.filter (fun e => e.1 ≤ now)).getLast?.map Prod.snd).getD 0x8000000000000000#64
/-- Put a new status word, visible from the closing cycle + 6; words that nothing can see any more go (R272). -/
def Bank.setStatus (b : Bank) (now : Nat) : Bank :=
  let last := (b.status.getLast?.map Prod.snd).getD 0x8000000000000000#64
  let w := b.statusAfter last
  let keep := match (b.status.filter (fun e => e.1 ≤ now)).getLast? with
    | some e => e :: b.status.filter (fun x => now < x.1)
    | none => b.status
  { b with ended := [], status := if w = last then keep else keep ++ [(now + 6, w)] }

/-- Faults of programs that ended in this beat: BANK_PROGRAM, completed on resumption, POISON, or ACCESS_DENIED (R278, R298, R308, R315, R386). -/
def State.raiseEnded (s : State) (c b : Nat) : State :=
  ((s.core c).bank b).ended.foldl (fun t e =>
    if e.2.1 = 0x17 then t.raise c { code := 0x17, source := 4, unit := b } (some (.scalar, { e.1.entry with done := true }))
    else if (e.2.1 = 0x18 || e.2.1 == 0x13) && e.1.isProg 0 32 then t.raise c { code := e.2.1, source := 4, unit := b } (some (.scalar, e.1.entry))
    else t) s

/-- A program has started: it runs, is suspended or has ended in the open beat. -/
def Bank.started (b : Bank) (id : Nat) : Bool := b.engine.any (fun e => e.req.id == id) || b.ended.any (fun e => e.1.id == id)
/-- One bank at the close of beat n, in its closing cycle (R264): every request of the beat gives up its queue entry (R266). What it leaves
outside the banks of a core that is frozen waits for its local cycle (R388). -/
def State.closeBank (s : State) (c n b : Nat) : State :=
  let bk := (s.core c).bank b
  if bk.queue.isEmpty && bk.ended.isEmpty && bk.writes.isEmpty && bk.engine.isNone then s
  else
    let mine := bk.queue.filter (fun r => r.beat == n)
    let gs := (bookLodes ((s.coreBeatLen c) - 16) noSlots false (sortReqs (mine.filter (fun r => r.isLode)))).getD []
    let s := mine.foldl (fun t r =>
      match r.job with
      | .load row sel zero ty => t.loadClose c r row sel zero ty
      | .copyOut w => t.copyOutClose c r w
      | _ => t) s
    let s := (sortReqs (mine.filter (fun r => r.isLode))).foldl (fun t r => t.lodeClose c b r ((gs.find? (fun g => g.1 == r.id)).elim 256 Prod.snd)) s
    let ws := (bk.writes ++ mine.filterMap BankReq.write?).foldl (fun l w => insertWrite w l) []
    let s := s.modCore c (fun k => ws.foldl Core.applyBankWrite k)
    let s := mine.foldl (fun t r => match r.job with
      | .copyIn w _ _ => t.post t.now 3 none (.run .copyWord (.copy r.core w .performed))
      | _ => t) s
    -- a program still running is suspended (R268)
    let running := bk.engine.any (fun e => !e.suspended)
    let s := if running then (s.cancel (fun e => match e.act with
      | .issue x (.bank y) => x == c && y.toNat == b
      | _ => false)).orBflags c bOVR else s
    let s := s.modBank c b (fun x =>
      { x with queue := x.queue.filter (fun r => !(mine.any (fun m => m.id == r.id))), writes := []
               waits := x.waits ++ mine.filter (fun r => r.isProg 0 32 && !x.started r.id)
               engine := x.engine.map (fun e => if e.suspended then e else { e with suspended := true, once := true }) })
    let s := s.raiseEnded c b
    s.modBank c b (fun x => x.setStatus s.now)
/-- All banks of a core at a close, the words that reads have corrected (R278), and BSTAT (R270). -/
def State.closeCore (s : State) (n c : Nat) : State :=
  let s := (List.range 32).foldl (fun t b => t.closeBank c n b) s
  let s := if (s.core c).fixes.isEmpty then s
    else s.modCore c (fun k => { k with upsets := k.upsets.filter (fun u => !(u.1 == 3 && k.fixes.contains u.2.1)), fixes := [] })
  let fl := (s.core c).bflags
  if fl = 0 then s
  else
    (if s.stands c then s.postAt s.now 3 (some c) (.run .beatClose (.nums [c, 0x023, fl])) else s.cycSet c (.flags 0x023 fl)).modCore c
      (fun k => { k with bflags := 0 })

/-- One bank when a beat opens at its core (R267, R268): words booked for it are served first, programs and suspended programs of a compute
beat start. -/
def State.openBank (s : State) (c n b : Nat) : State :=
  let bk := (s.core c).bank b
  if bk.queue.isEmpty && bk.engine.isNone && bk.waits.isEmpty then s
  else
    let s := s.modBank c b (fun x => { x with freeAt := s.now + x.wordsFor n })
    if s.isCompute n && (bk.engine.isSome || !bk.waits.isEmpty || bk.queue.any (fun r => r.isProg 0 32)) then
      s.post s.now 1 none (.run .bankProgramStart (.nums [c, b]))
    else s
/-- All banks of a core when a beat opens. -/
def State.openCore (s : State) (n c : Nat) : State := (List.range 32).foldl (fun t b => t.openBank c n b) s

end Sys2Proof.Machine
end

