-- ==== Sys2Proof/Machine/Beats.lean ====
section
/-! DEFINITION. The beat counter, the opening and closing of beats as each core sees them, and the fresh start pulse of an anchor point (R39, R88, R99, R100, R263, R264). -/

namespace Sys2Proof.Machine

/-- The cores that something has touched whose start pulse arrives d cycles late. -/
def State.delayCores (s : State) (d : Nat) : List Nat := (s.cores.map Prod.fst).filter (fun c => pulseDelay c == d)
/-- The delays other than 0 of the cores that something has touched. -/
def State.delays (s : State) : List Nat := ((s.cores.map (fun e => pulseDelay e.1)).filter (fun d => d != 0)).dedup

/-- A core's barrier wait is over: its anchor is an ANCHOR, or the instance it waits on is complete (R99). -/
def Core.anchorMet (k : Core) : Bool :=
  match k.anchor with
  | none => true
  | some a => k.bars.all (fun b => !(b.key.bar == a.1 && b.key.depth == a.2) || b.complete)
/-- A core has arrived at its anchor point (R99), with nothing to re-inject of what went before it; one that has halted counts as arrived. -/
def Core.arrivedAnchor (k : Core) (now : Nat) : Bool := k.sc.halted || (k.sc.waiting && k.sc.replay.isEmpty && k.anchorMet && k.enginesIdle now)
/-- Every core of a stope has arrived at one anchor point (R99, R101). -/
def State.anchorReady (s : State) (t : Stope) : Bool :=
  let ks := t.cores.map s.core
  let wait := ks.filter (fun k => !k.sc.halted)
  t.frozen.isNone && !wait.isEmpty && ks.all (fun k => k.arrivedAnchor s.now) && wait.all (fun k => k.anchor == (wait.head?.bind (fun x => x.anchor)))
/-- ANCHOR_RELEASE (R100): the fresh start pulse leaves core (0,0); each core's next word issues at local cycle A + 1 + its gap. -/
def execAnchorRelease (s : State) : Host.Outcome State Fault Refusal :=
  match s.arg with
  | .nums [id] =>
    match s.stopes.find? (fun t => t.id == id) with
    | some t =>
      if s.anchorReady t then
        .next ((t.cores.filter (fun c => !(s.core c).sc.halted)).foldl (fun s c =>
          let k := s.core c
          (s.setCore c { k with sc := { k.sc with waiting := false }, anchor := none }).postIssue c .scalar
            (s.now + pulseDelay c + 1 + k.gapAt .scalar k.sc.next)) s)
      else .next s
    | none => .next s
  | _ => .next s

/-- Let the anchor releases of a beat that opens be looked at, once this cycle's words have issued (R100). -/
def State.postAnchors (s : State) : State :=
  s.stopes.foldl (fun s t => s.post s.now 3 none (.run .anchorRelease (.nums [t.id]))) s

/-- BEAT_OPEN (R88, R263, R264): operands [0] at core (0,0), where the beat counter stands; [d, n] at the cores with delay d. A beat table that
waits takes effect from a beat number that is 0 mod 16 (R39). -/
def execBeatOpen (s : State) : Host.Outcome State Fault Refusal :=
  match s.arg with
  | .nums [0] =>
    let n := (s.beat + 1) % beatMod
    let old := (s.beat, s.beatAt, (s.beatEnt s.beat).len)
    let tab := if n % 16 = 0 then s.beatNext.getD s.beatTab else s.beatTab
    let s : State := { s with beat := n, beatAt := s.now, beatHist := old :: s.beatHist.take 7, beatTab := tab
                              beatNext := if n % 16 = 0 then none else s.beatNext }
    let s := s.post (s.now + (s.beatEnt n).len - 1) 3 none (.run .beatClose (.nums [0]))
    let s := s.delays.foldl (fun s d => s.post (s.now + d) 0 none (.run .beatOpen (.nums [d, n]))) s
    let s := (s.delayCores 0).foldl (fun s c => s.openCore n c) s
    .next (if n % 16 = 0 then s.postAnchors else s)
  | .nums [d, n] => .next ((s.delayCores d).foldl (fun s c => s.openCore n c) s)
  | _ => .next s
/-- BEAT_CLOSE (R88, R264): operands as BEAT_OPEN; or what a close has left a frozen core, at its local cycle: a lode's results, or flags of
a special register (R388). -/
def execBeatClose (s : State) : Host.Outcome State Fault Refusal :=
  match s.arg with
  | .nums [0] =>
    let s1 := (s.delayCores 0).foldl (fun t c => t.closeCore s.beat c) s
    let s2 := s1.delays.foldl (fun t d => t.post (s.now + d) 3 none (.run .beatClose (.nums [d, s.beat]))) s1
    .next (s2.post (s.now + 1) 0 none (.run .beatOpen (.nums [0])))
  | .nums [d, n] => .next ((s.delayCores d).foldl (fun s c => s.closeCore n c) s)
  | .nums [c, sel, fl] => .next (s.cycSet c (.flags sel fl))
  | .lode c addr tag code acc sums => .next (s.lodeWrite c addr tag code acc sums)
  | _ => .next s

end Sys2Proof.Machine
end

