-- ==== Sys2Proof/Machine/ScalarInt.lean ====
section
/-! DEFINITION. Integer words of the scalar stream: the ALU forms, immediates and divisions (R171 to R174), with their latencies (R167). -/

namespace Sys2Proof.Machine

/-- A word that reads or writes a register still pending stalls (R170). -/
def guardRegs (s : State) (c : Nat) (regs : List Nat) (x : SOut) : SOut :=
  if regs.any (fun r => (s.core c).pendingReg r) then .block s 6 else x

/-- A word whose whole effect is one register result and flags, computed from the core as it stands at issue (R167). -/
def regWord (i : Instr) (d : BitVec 5) (reads : List Nat) (lat : Nat) (f : State → Core → Word64 × Nat) (s : State) :
    Host.Outcome State Fault Refusal :=
  scalarWord i s (fun s c =>
    guardRegs s c (d.toNat :: reads)
      (let r := f s (s.core c)
       .ok ((s.orSstat c r.2).toReg c d r.1 lat) 1 none))

/-- The two-operand ALU form. -/
def binWord (i : Instr) (d a b : BitVec 5) (lat : Nat) (f : Word64 → Word64 → Word64 × Nat) : State → Host.Outcome State Fault Refusal :=
  regWord i d [a.toNat, b.toNat] lat (fun _ k => f (k.oper 0 a.toNat) (k.oper 1 b.toNat))
/-- The one-operand form. -/
def unWord (i : Instr) (d a : BitVec 5) (lat : Nat) (f : Word64 → Word64 × Nat) : State → Host.Outcome State Fault Refusal :=
  regWord i d [a.toNat] lat (fun _ k => f (k.oper 0 a.toNat))

/-- ADD with its IW flag (R171, R173). -/
def aluAdd (x y : Word64) : Word64 × Nat := (x + y, iwFlag 64 (x.toInt + y.toInt))
/-- SUB (R171, R173). -/
def aluSub (x y : Word64) : Word64 × Nat := (x - y, iwFlag 64 (x.toInt - y.toInt))
/-- ADDW and SUBW (R171, R173). -/
def aluAddw (x y : Word64) : Word64 × Nat :=
  let p := x.setWidth 32
  let q := y.setWidth 32
  (sext64 (p + q), iwFlag 32 (p.toInt + q.toInt))
def aluSubw (x y : Word64) : Word64 × Nat :=
  let p := x.setWidth 32
  let q := y.setWidth 32
  (sext64 (p - q), iwFlag 32 (p.toInt - q.toInt))
/-- Shifts by rb[5:0] (R171). -/
def shAmt (y : Word64) : Nat := y.toNat % 64
def aluSll (x y : Word64) : Word64 × Nat := (x <<< shAmt y, 0)
def aluSrl (x y : Word64) : Word64 × Nat := (x >>> shAmt y, 0)
def aluSra (x y : Word64) : Word64 × Nat := (x.sshiftRight (shAmt y), 0)
/-- MUL, MULH, MULHU (R171, R173). -/
def aluMul (x y : Word64) : Word64 × Nat := (x * y, iwFlag 64 (x.toInt * y.toInt))
def aluMulh (x y : Word64) : Word64 × Nat := (BitVec.ofInt 64 (x.toInt * y.toInt / 2 ^ 64), 0)
def aluMulhu (x y : Word64) : Word64 × Nat := (BitVec.ofNat 64 (x.toNat * y.toNat / 2 ^ 64), 0)
/-- The quotient and remainder of signed division, and DV (R172). -/
def divSigned (x y : Word64) : Word64 × Word64 × Nat :=
  if y = 0 then (BitVec.allOnes 64, x, flDV)
  else if x = BitVec.intMin 64 ∧ y = BitVec.allOnes 64 then (x, 0, flDV)
  else (BitVec.ofInt 64 (x.toInt.tdiv y.toInt), BitVec.ofInt 64 (x.toInt.tmod y.toInt), 0)
/-- The same unsigned. -/
def divUnsigned (x y : Word64) : Word64 × Word64 × Nat :=
  if y = 0 then (BitVec.allOnes 64, x, flDV)
  else (BitVec.ofNat 64 (x.toNat / y.toNat), BitVec.ofNat 64 (x.toNat % y.toNat), 0)
def aluDiv (x y : Word64) : Word64 × Nat := ((divSigned x y).1, (divSigned x y).2.2)
def aluRem (x y : Word64) : Word64 × Nat := ((divSigned x y).2.1, (divSigned x y).2.2)
def aluDivu (x y : Word64) : Word64 × Nat := ((divUnsigned x y).1, (divUnsigned x y).2.2)
def aluRemu (x y : Word64) : Word64 × Nat := ((divUnsigned x y).2.1, (divUnsigned x y).2.2)
/-- MIN to MAXU (R171). -/
def aluMin (x y : Word64) : Word64 × Nat := (if x.toInt ≤ y.toInt then x else y, 0)
def aluMax (x y : Word64) : Word64 × Nat := (if x.toInt ≤ y.toInt then y else x, 0)
def aluMinu (x y : Word64) : Word64 × Nat := (if x.toNat ≤ y.toNat then x else y, 0)
def aluMaxu (x y : Word64) : Word64 × Nat := (if x.toNat ≤ y.toNat then y else x, 0)
/-- CLZ, CTZ, POPC (R171); `ctzGo` counts from bit `i` up with `fuel` bits left. -/
def ctzGo (n : Nat) : Nat → Nat → Nat
  | 0, i => i
  | fuel + 1, i => if Nat.testBit n i then i else ctzGo n fuel (i + 1)
def aluClz (x : Word64) : Word64 × Nat := (BitVec.ofNat 64 (64 - bitLen x.toNat), 0)
def aluCtz (x : Word64) : Word64 × Nat := (BitVec.ofNat 64 (ctzGo x.toNat 64 0), 0)
def aluPopc (x : Word64) : Word64 × Nat := (BitVec.ofNat 64 (popCount x.toNat 64), 0)

/-- ADD (R171). -/
def execAdd (g : BitVec 2) (d a b : BitVec 5) (s : State) : Host.Outcome State Fault Refusal := binWord (.add g d a b) d a b 1 aluAdd s
/-- SUB (R171). -/
def execSub (g : BitVec 2) (d a b : BitVec 5) (s : State) : Host.Outcome State Fault Refusal := binWord (.sub g d a b) d a b 1 aluSub s
/-- AND (R171). -/
def execAnd (g : BitVec 2) (d a b : BitVec 5) (s : State) : Host.Outcome State Fault Refusal :=
  binWord (.and g d a b) d a b 1 (fun x y => (x &&& y, 0)) s
/-- OR (R171). -/
def execOr (g : BitVec 2) (d a b : BitVec 5) (s : State) : Host.Outcome State Fault Refusal :=
  binWord (.or g d a b) d a b 1 (fun x y => (x ||| y, 0)) s
/-- XOR (R171). -/
def execXor (g : BitVec 2) (d a b : BitVec 5) (s : State) : Host.Outcome State Fault Refusal :=
  binWord (.xor g d a b) d a b 1 (fun x y => (x ^^^ y, 0)) s
/-- ANDN (R171). -/
def execAndn (g : BitVec 2) (d a b : BitVec 5) (s : State) : Host.Outcome State Fault Refusal :=
  binWord (.andn g d a b) d a b 1 (fun x y => (x &&& ~~~y, 0)) s
/-- SLL (R171). -/
def execSll (g : BitVec 2) (d a b : BitVec 5) (s : State) : Host.Outcome State Fault Refusal := binWord (.sll g d a b) d a b 1 aluSll s
/-- SRL (R171). -/
def execSrl (g : BitVec 2) (d a b : BitVec 5) (s : State) : Host.Outcome State Fault Refusal := binWord (.srl g d a b) d a b 1 aluSrl s
/-- SRA (R171). -/
def execSra (g : BitVec 2) (d a b : BitVec 5) (s : State) : Host.Outcome State Fault Refusal := binWord (.sra g d a b) d a b 1 aluSra s
/-- MUL (R171), three cycles (R167). -/
def execMul (g : BitVec 2) (d a b : BitVec 5) (s : State) : Host.Outcome State Fault Refusal := binWord (.mul g d a b) d a b 3 aluMul s
/-- MULH (R171). -/
def execMulh (g : BitVec 2) (d a b : BitVec 5) (s : State) : Host.Outcome State Fault Refusal := binWord (.mulh g d a b) d a b 3 aluMulh s
/-- MULHU (R171). -/
def execMulhu (g : BitVec 2) (d a b : BitVec 5) (s : State) : Host.Outcome State Fault Refusal := binWord (.mulhu g d a b) d a b 3 aluMulhu s
/-- DIV (R172), twelve cycles (R167). -/
def execDiv (g : BitVec 2) (d a b : BitVec 5) (s : State) : Host.Outcome State Fault Refusal := binWord (.div g d a b) d a b 12 aluDiv s
/-- DIVU (R172). -/
def execDivu (g : BitVec 2) (d a b : BitVec 5) (s : State) : Host.Outcome State Fault Refusal := binWord (.divu g d a b) d a b 12 aluDivu s
/-- REM (R172). -/
def execRem (g : BitVec 2) (d a b : BitVec 5) (s : State) : Host.Outcome State Fault Refusal := binWord (.rem g d a b) d a b 12 aluRem s
/-- REMU (R172). -/
def execRemu (g : BitVec 2) (d a b : BitVec 5) (s : State) : Host.Outcome State Fault Refusal := binWord (.remu g d a b) d a b 12 aluRemu s
/-- MIN (R171). -/
def execMin (g : BitVec 2) (d a b : BitVec 5) (s : State) : Host.Outcome State Fault Refusal := binWord (.min g d a b) d a b 1 aluMin s
/-- MAX (R171). -/
def execMax (g : BitVec 2) (d a b : BitVec 5) (s : State) : Host.Outcome State Fault Refusal := binWord (.max g d a b) d a b 1 aluMax s
/-- MINU (R171). -/
def execMinu (g : BitVec 2) (d a b : BitVec 5) (s : State) : Host.Outcome State Fault Refusal := binWord (.minu g d a b) d a b 1 aluMinu s
/-- MAXU (R171). -/
def execMaxu (g : BitVec 2) (d a b : BitVec 5) (s : State) : Host.Outcome State Fault Refusal := binWord (.maxu g d a b) d a b 1 aluMaxu s
/-- CLZ (R171). -/
def execClz (g : BitVec 2) (d a : BitVec 5) (s : State) : Host.Outcome State Fault Refusal := unWord (.clz g d a) d a 1 aluClz s
/-- CTZ (R171). -/
def execCtz (g : BitVec 2) (d a : BitVec 5) (s : State) : Host.Outcome State Fault Refusal := unWord (.ctz g d a) d a 1 aluCtz s
/-- POPC (R171). -/
def execPopc (g : BitVec 2) (d a : BitVec 5) (s : State) : Host.Outcome State Fault Refusal := unWord (.popc g d a) d a 1 aluPopc s
/-- ADDW (R171). -/
def execAddw (g : BitVec 2) (d a b : BitVec 5) (s : State) : Host.Outcome State Fault Refusal := binWord (.addw g d a b) d a b 1 aluAddw s
/-- SUBW (R171). -/
def execSubw (g : BitVec 2) (d a b : BitVec 5) (s : State) : Host.Outcome State Fault Refusal := binWord (.subw g d a b) d a b 1 aluSubw s

/-- ADDI, the immediate signed (R174). -/
def execAddi (g : BitVec 2) (d a : BitVec 5) (i : BitVec 14) (s : State) : Host.Outcome State Fault Refusal :=
  unWord (.addi g d a i) d a 1 (fun x => aluAdd x (sext64 i)) s
/-- ANDI, the immediate unsigned (R174). -/
def execAndi (g : BitVec 2) (d a : BitVec 5) (i : BitVec 14) (s : State) : Host.Outcome State Fault Refusal :=
  unWord (.andi g d a i) d a 1 (fun x => (x &&& zext64 i, 0)) s
/-- ORI (R174). -/
def execOri (g : BitVec 2) (d a : BitVec 5) (i : BitVec 14) (s : State) : Host.Outcome State Fault Refusal :=
  unWord (.ori g d a i) d a 1 (fun x => (x ||| zext64 i, 0)) s
/-- XORI (R174). -/
def execXori (g : BitVec 2) (d a : BitVec 5) (i : BitVec 14) (s : State) : Host.Outcome State Fault Refusal :=
  unWord (.xori g d a i) d a 1 (fun x => (x ^^^ zext64 i, 0)) s
/-- SLLI (R174). -/
def execSlli (g : BitVec 2) (d a : BitVec 5) (n : BitVec 6) (s : State) : Host.Outcome State Fault Refusal :=
  unWord (.slli g d a n) d a 1 (fun x => aluSll x (zext64 n)) s
/-- SRLI (R174). -/
def execSrli (g : BitVec 2) (d a : BitVec 5) (n : BitVec 6) (s : State) : Host.Outcome State Fault Refusal :=
  unWord (.srli g d a n) d a 1 (fun x => aluSrl x (zext64 n)) s
/-- SRAI (R174). -/
def execSrai (g : BitVec 2) (d a : BitVec 5) (n : BitVec 6) (s : State) : Host.Outcome State Fault Refusal :=
  unWord (.srai g d a n) d a 1 (fun x => aluSra x (zext64 n)) s
/-- LHI (R174). -/
def execLhi (g : BitVec 2) (d : BitVec 5) (i : BitVec 19) (s : State) : Host.Outcome State Fault Refusal :=
  regWord (.lhi g d i) d [] 1 (fun _ _ => (sext64 i <<< 13, 0)) s
/-- ADDPC: the word's own index plus the immediate (R174). -/
def execAddpc (g : BitVec 2) (d : BitVec 5) (i : BitVec 19) (s : State) : Host.Outcome State Fault Refusal :=
  regWord (.addpc g d i) d [] 1 (fun _ k => (BitVec.ofNat 64 k.sc.widx + sext64 i, 0)) s

end Sys2Proof.Machine
end

