-- ==== Sys2Proof/Machine/ScalarFp.lean ====
section
/-! DEFINITION. Floating-point words of the scalar stream (R175, R176): FP32, RNE, on bits [31:0] of the operands (R169). -/

namespace Sys2Proof.Machine

/-- The FP32 pattern in a register value (R169). -/
def fpIn (x : Word64) : Nat := x.toNat % 2 ^ 32
/-- A pattern as a register result: bits [63:32] clear (R169). -/
def fpOut (r : Nat × Nat) : Word64 × Nat := (BitVec.ofNat 64 (r.1 % 2 ^ 32), r.2)

/-- The two-operand FP form. -/
def fbin (i : Instr) (d a b : BitVec 5) (lat : Nat) (f : Nat → Nat → Nat × Nat) : State → Host.Outcome State Fault Refusal :=
  binWord i d a b lat (fun x y => fpOut (f (fpIn x) (fpIn y)))

/-- FSGNJ, FSGNN, FSGNX: `f` gives the new sign from both signs; a NaN in ra gives the canonical NaN, no flag is set (R175). -/
def fpSgn (f : Bool → Bool → Bool) (x y : Nat) : Nat × Nat :=
  if (fp32.decode x).isNan then (fp32.qnan, 0) else (fp32.abs x + fp32.signBit (f (bitOf x 31) (bitOf y 31)), 0)

/-- FCVTI (R175). -/
def fcvti (x : Word64) : Word64 × Nat :=
  let r := fpToInt (-(2 ^ 63)) (2 ^ 63 - 1) 1 (fp32.decode (fpIn x))
  (BitVec.ofInt 64 r.1, r.2)
/-- ICVTF (R175). -/
def icvtf (x : Word64) : Word64 × Nat := fpOut (fp32.pack 0 false 0 (ofSigned x.toInt 0 false))
/-- FTOBF (R175). -/
def ftobf (x : Word64) : Word64 × Nat := fpOut (bf16.pack 0 false 0 (fp32.decode (fpIn x)))
/-- BFTOF (R175). -/
def bftof (x : Word64) : Word64 × Nat := fpOut (fp32.pack 0 false 0 (bf16.decode (x.toNat % 2 ^ 16)))
/-- FCLASS (R175). -/
def fpClass (w : Nat) : Nat :=
  match fp32.decode w with
  | .nan => 0x100
  | .inf neg => if neg then 0x001 else 0x080
  | .fin neg m _ _ =>
    if m = 0 then (if neg then 0x008 else 0x010)
    else if bitsOf w 23 8 = 0 then (if neg then 0x004 else 0x020)
    else (if neg then 0x002 else 0x040)

/-- The FMA group (R176): `sub` subtracts rc, `neg` negates the exact value before it is rounded; RNE is symmetric, so the sign of the
rounded result turns (log 5 for an exact zero). -/
def fmaOp (sub neg : Bool) (x y z : Word64) : Word64 × Nat :=
  let r := fpFma fp32 0 (fpIn x) (fpIn y) (fpIn z) sub
  if neg && !(fp32.decode r.1).isNan then fpOut (fp32.flip r.1, r.2) else fpOut r
/-- The three-operand form. -/
def fmaWord (i : Instr) (d a b c : BitVec 5) (sub neg : Bool) : State → Host.Outcome State Fault Refusal :=
  regWord i d [a.toNat, b.toNat, c.toNat] 4 (fun _ k => fmaOp sub neg (k.oper 0 a.toNat) (k.oper 1 b.toNat) (k.oper 2 c.toNat))

/-- FADD (R175). -/
def execFadd (g : BitVec 2) (d a b : BitVec 5) (s : State) : Host.Outcome State Fault Refusal := fbin (.fadd g d a b) d a b 4 (fpAdd fp32 0) s
/-- FSUB (R175). -/
def execFsub (g : BitVec 2) (d a b : BitVec 5) (s : State) : Host.Outcome State Fault Refusal := fbin (.fsub g d a b) d a b 4 (fpSub fp32 0) s
/-- FMUL (R175). -/
def execFmul (g : BitVec 2) (d a b : BitVec 5) (s : State) : Host.Outcome State Fault Refusal := fbin (.fmul g d a b) d a b 4 (fpMul fp32 0) s
/-- FDIV (R175), twelve cycles (R167). -/
def execFdiv (g : BitVec 2) (d a b : BitVec 5) (s : State) : Host.Outcome State Fault Refusal := fbin (.fdiv g d a b) d a b 12 (fpDiv fp32 0) s
/-- FSQRT (R175). -/
def execFsqrt (g : BitVec 2) (d a : BitVec 5) (s : State) : Host.Outcome State Fault Refusal :=
  unWord (.fsqrt g d a) d a 12 (fun x => fpOut (fpSqrt fp32 0 (fpIn x))) s
/-- FMIN (R175). -/
def execFmin (g : BitVec 2) (d a b : BitVec 5) (s : State) : Host.Outcome State Fault Refusal := fbin (.fmin g d a b) d a b 4 (fpMinMax fp32 false) s
/-- FMAX (R175). -/
def execFmax (g : BitVec 2) (d a b : BitVec 5) (s : State) : Host.Outcome State Fault Refusal := fbin (.fmax g d a b) d a b 4 (fpMinMax fp32 true) s
/-- FSGNJ (R175). -/
def execFsgnj (g : BitVec 2) (d a b : BitVec 5) (s : State) : Host.Outcome State Fault Refusal :=
  fbin (.fsgnj g d a b) d a b 4 (fpSgn (fun _ y => y)) s
/-- FSGNN (R175). -/
def execFsgnn (g : BitVec 2) (d a b : BitVec 5) (s : State) : Host.Outcome State Fault Refusal :=
  fbin (.fsgnn g d a b) d a b 4 (fpSgn (fun _ y => !y)) s
/-- FSGNX (R175). -/
def execFsgnx (g : BitVec 2) (d a b : BitVec 5) (s : State) : Host.Outcome State Fault Refusal :=
  fbin (.fsgnx g d a b) d a b 4 (fpSgn (fun x y => x != y)) s
/-- FCVTI (R175). -/
def execFcvti (g : BitVec 2) (d a : BitVec 5) (s : State) : Host.Outcome State Fault Refusal := unWord (.fcvti g d a) d a 4 fcvti s
/-- ICVTF (R175). -/
def execIcvtf (g : BitVec 2) (d a : BitVec 5) (s : State) : Host.Outcome State Fault Refusal := unWord (.icvtf g d a) d a 4 icvtf s
/-- FTOBF (R175). -/
def execFtobf (g : BitVec 2) (d a : BitVec 5) (s : State) : Host.Outcome State Fault Refusal := unWord (.ftobf g d a) d a 4 ftobf s
/-- BFTOF (R175). -/
def execBftof (g : BitVec 2) (d a : BitVec 5) (s : State) : Host.Outcome State Fault Refusal := unWord (.bftof g d a) d a 4 bftof s
/-- FCLASS (R175). -/
def execFclass (g : BitVec 2) (d a : BitVec 5) (s : State) : Host.Outcome State Fault Refusal :=
  unWord (.fclass g d a) d a 4 (fun x => (BitVec.ofNat 64 (fpClass (fpIn x)), 0)) s
/-- FMA (R176). -/
def execFma (g : BitVec 2) (d a b c : BitVec 5) (s : State) : Host.Outcome State Fault Refusal := fmaWord (.fma g d a b c) d a b c false false s
/-- FMS (R176). -/
def execFms (g : BitVec 2) (d a b c : BitVec 5) (s : State) : Host.Outcome State Fault Refusal := fmaWord (.fms g d a b c) d a b c true false s
/-- FNMA (R176). -/
def execFnma (g : BitVec 2) (d a b c : BitVec 5) (s : State) : Host.Outcome State Fault Refusal := fmaWord (.fnma g d a b c) d a b c false true s
/-- FNMS (R176). -/
def execFnms (g : BitVec 2) (d a b c : BitVec 5) (s : State) : Host.Outcome State Fault Refusal := fmaWord (.fnms g d a b c) d a b c true true s

end Sys2Proof.Machine
end

