-- ==== Sys2Proof/Machine/ScalarFlow.lean ====
section
/-! DEFINITION. Conditions, targets, branches and hardware loops (R177 to R185). -/

namespace Sys2Proof.Machine

/-- A steer register; codes 12 to 15 name none (R123). -/
def Core.steer (k : Core) (b : Nat) : Steer := vget k.b b {}
/-- A condition bit. -/
def Core.cond (k : Core) (b : Nat) : Bool := (k.steer b).cond
/-- A truth value as a register value. -/
def boolWord (t : Bool) : Word64 := if t then 1 else 0

/-- A word whose result is condition bits: steer codes 12 to 15 raise ILLEGAL_OPERAND (R123, R167). -/
def condWord (i : Instr) (b : BitVec 4) (srcs : List (BitVec 4)) (reads : List Nat) (f : Core → Bool) (s : State) :
    Host.Outcome State Fault Refusal :=
  scalarWord i s (fun s c =>
    if (b :: srcs).any (fun x => 12 ≤ x.toNat) then sOperand s
    else guardRegs s c reads (.ok (s.sendResult c (.cond b) (boolWord (f (s.core c))) 1) 1 none))

/-- The integer conditions of CMP and CMPI: EQ, NE, LT, GE signed, LTU, GEU unsigned (R177). -/
def scalarCond (cond : Nat) (x y : Word64) : Bool :=
  match cond with
  | 0 => x == y
  | 1 => x != y
  | 2 => decide (x.toInt < y.toInt)
  | 3 => decide (y.toInt ≤ x.toInt)
  | 4 => decide (x.toNat < y.toNat)
  | _ => decide (y.toNat ≤ x.toNat)
/-- The FP32 conditions of FCMP: EQ, LT, LE, UN (R123, R177). -/
def scalarFcond (cond : Nat) (x y : Word64) : Bool :=
  fpCmp fp32 (match cond with | 0 => 0 | 1 => 2 | 2 => 3 | _ => 6) (fpIn x) (fpIn y)
/-- SET, AND, OR (R177). -/
def combineCond (m : Nat) (old t : Bool) : Bool := if m = 0 then t else if m = 1 then old && t else old || t

/-- CMP (R177). -/
def execCmp (g : BitVec 2) (b c : BitVec 4) (a r : BitVec 5) (m : BitVec 2) (s : State) : Host.Outcome State Fault Refusal :=
  condWord (.cmp g b c a r m) b [] [a.toNat, r.toNat]
    (fun k => combineCond m.toNat (k.cond b.toNat) (scalarCond c.toNat (k.oper 0 a.toNat) (k.oper 1 r.toNat))) s
/-- CMPI (R177). -/
def execCmpi (g : BitVec 2) (b c : BitVec 4) (a : BitVec 5) (m : BitVec 2) (i : BitVec 9) (s : State) : Host.Outcome State Fault Refusal :=
  condWord (.cmpi g b c a m i) b [] [a.toNat]
    (fun k => combineCond m.toNat (k.cond b.toNat) (scalarCond c.toNat (k.oper 0 a.toNat) (sext64 i))) s
/-- FCMP: no flag (R177). -/
def execFcmp (g : BitVec 2) (b c : BitVec 4) (a r : BitVec 5) (m : BitVec 2) (s : State) : Host.Outcome State Fault Refusal :=
  condWord (.fcmp g b c a r m) b [] [a.toNat, r.toNat]
    (fun k => combineCond m.toNat (k.cond b.toNat) (scalarFcond c.toNat (k.oper 0 a.toNat) (k.oper 1 r.toNat))) s

/-- CAND (R178). -/
def execCand (g : BitVec 2) (b x y : BitVec 4) (s : State) : Host.Outcome State Fault Refusal :=
  condWord (.cand g b x y) b [x, y] [] (fun k => k.cond x.toNat && k.cond y.toNat) s
/-- COR (R178). -/
def execCor (g : BitVec 2) (b x y : BitVec 4) (s : State) : Host.Outcome State Fault Refusal :=
  condWord (.cor g b x y) b [x, y] [] (fun k => k.cond x.toNat || k.cond y.toNat) s
/-- CXOR (R178). -/
def execCxor (g : BitVec 2) (b x y : BitVec 4) (s : State) : Host.Outcome State Fault Refusal :=
  condWord (.cxor g b x y) b [x, y] [] (fun k => k.cond x.toNat != k.cond y.toNat) s
/-- CANDN (R178). -/
def execCandn (g : BitVec 2) (b x y : BitVec 4) (s : State) : Host.Outcome State Fault Refusal :=
  condWord (.candn g b x y) b [x, y] [] (fun k => k.cond x.toNat && !k.cond y.toNat) s
/-- CNOT (R178). -/
def execCnot (g : BitVec 2) (b x : BitVec 4) (s : State) : Host.Outcome State Fault Refusal :=
  condWord (.cnot g b x) b [x] [] (fun k => !k.cond x.toNat) s
/-- CTRUE (R178). -/
def execCtrue (g : BitVec 2) (b : BitVec 4) (s : State) : Host.Outcome State Fault Refusal :=
  condWord (.ctrue g b) b [] [] (fun _ => true) s
/-- CFALSE (R178). -/
def execCfalse (g : BitVec 2) (b : BitVec 4) (s : State) : Host.Outcome State Fault Refusal :=
  condWord (.cfalse g b) b [] [] (fun _ => false) s
/-- CMOVE (R178). -/
def execCmove (g : BitVec 2) (b x : BitVec 4) (s : State) : Host.Outcome State Fault Refusal :=
  condWord (.cmove g b x) b [x] [] (fun k => k.cond x.toNat) s

/-- The condition bits of b0 to b11 (R178). -/
def Core.condBits (k : Core) : Nat := (List.range 12).foldl (fun acc i => acc + if k.cond i then 2 ^ i else 0) 0
/-- CSAVE (R178). -/
def execCsave (g : BitVec 2) (d : BitVec 5) (s : State) : Host.Outcome State Fault Refusal :=
  regWord (.csave g d) d [] 1 (fun _ k => (BitVec.ofNat 64 k.condBits, 0)) s
/-- CLOAD: twelve condition bits, each readable in the next cycle (R167, R178). -/
def execCload (g : BitVec 2) (a : BitVec 5) (s : State) : Host.Outcome State Fault Refusal :=
  scalarWord (.cload g a) s (fun s c =>
    guardRegs s c [a.toNat]
      (let v := (s.core c).oper 0 a.toNat
       .ok ((List.range 12).foldl (fun t i => t.sendResult c (.cond (BitVec.ofNat 4 i)) (boolWord (bitOf v.toNat i)) 1) s) 1 none))

/-! ### Targets and branches (R179 to R181) -/

/-- Set a steer register's target; it counts as prepared from this local cycle (R181). -/
def State.prepare (s : State) (c b t : Nat) : State :=
  s.modCore c (fun k =>
    { k with b := vset k.b b { k.steer b with target := BitVec.ofNat 14 t, prepared := true, readyAt := s.localCyc c + 4 } })

/-- PREP and PREPR: steer code, then range of the target (R123, R179). -/
def prepWord (i : Instr) (b : BitVec 4) (reads : List Nat) (target : Core → Int) (s : State) : Host.Outcome State Fault Refusal :=
  scalarWord i s (fun s c =>
    if 12 ≤ b.toNat then sOperand s
    else
      guardRegs s c reads
        (let t := target (s.core c)
         if t < 0 ∨ 16383 < t then sOperand s else .ok (s.prepare c b.toNat t.toNat) 1 none))
/-- PREP (R179). -/
def execPrep (g : BitVec 2) (b : BitVec 4) (o : BitVec 20) (s : State) : Host.Outcome State Fault Refusal :=
  prepWord (.prep g b o) b [] (fun k => (k.sc.widx : Int) + o.toInt) s
/-- PREPR (R179). -/
def execPrepr (g : BitVec 2) (b : BitVec 4) (a : BitVec 5) (s : State) : Host.Outcome State Fault Refusal :=
  prepWord (.prepr g b a) b [a.toNat] (fun k => ((k.oper 0 a.toNat).toNat : Int)) s

/-- A branch on a steer register (R180, R181): not taken, it goes on; taken, its target must be prepared, for 4 cycles.
`leaves` says whether it can leave loops (R184), `link` whether it writes s1. -/
def branchWord (i : Instr) (b : BitVec 4) (taken : Bool → Bool) (leaves link : Bool) (s : State) : Host.Outcome State Fault Refusal :=
  scalarWord i s (fun s c =>
    let k := s.core c
    if 12 ≤ b.toNat then sOperand s
    else if !taken (k.cond b.toNat) then .ok s 1 none
    else
      let t := k.steer b.toNat
      if !t.prepared then sOperand s
      else if s.localCyc c < t.readyAt then .block s 5
      else if link && k.pendingReg 1 then .block s 6
      else
        let s := if link then s.toReg c 1 (BitVec.ofNat 64 (k.sc.widx + 1)) 1 else s
        let s := if leaves then s.modCore c (fun k => { k with lp := leaveLoops k.lp t.target.toNat }) else s
        .ok s 1 (some t.target.toNat))
/-- BR (R180). -/
def execBr (g : BitVec 2) (b : BitVec 4) (s : State) : Host.Outcome State Fault Refusal := branchWord (.br g b) b id true false s
/-- BRN (R180). -/
def execBrn (g : BitVec 2) (b : BitVec 4) (s : State) : Host.Outcome State Fault Refusal := branchWord (.brn g b) b not true false s
/-- JMP (R180). -/
def execJmp (g : BitVec 2) (b : BitVec 4) (s : State) : Host.Outcome State Fault Refusal := branchWord (.jmp g b) b (fun _ => true) true false s
/-- CALL (R180): s1 := own index + 1; loops are left alone (R184). -/
def execCall (g : BitVec 2) (b : BitVec 4) (s : State) : Host.Outcome State Fault Refusal := branchWord (.call g b) b (fun _ => true) false true s
/-- RET (R180, R181): s1's last write must have been readable for 4 cycles. -/
def execRet (g : BitVec 2) (s : State) : Host.Outcome State Fault Refusal :=
  scalarWord (.ret g) s (fun s c =>
    guardRegs s c [1]
      (let r := vget (s.core c).s 1 {}
       if 16383 < r.val.toNat then sOperand s
       else if r.since != 0 && s.localCyc c < r.since + 4 then .block s 5
       else .ok s 1 (some r.val.toNat)))

/-! ### Loops (R182 to R185) -/

/-- Order of entry for loop registers. -/
def nextEntered (lps : Vector LoopReg 4) : Nat := lps.foldl (fun a l => max a l.entered) 0 + 1

/-- LOOP and LOOPI at a word: `n` trips over `len` words (R182). -/
def enterLoop (s : State) (c p n len : Nat) : SOut :=
  let k := s.core c
  let i := k.sc.widx
  let l := vget k.lp p {}
  let first := l.latchFirst.getD (i + 1)
  let last := l.latchLast.getD (i + len)
  if 16383 < i + len || 16383 < last || last < first then sOperand s
  else
    let l' : LoopReg := { count := n, first, last, active := n != 0, entered := nextEntered k.lp }
    let lp := vset k.lp p l'
    if n = 0 then
      -- not a taken branch: the loops that end at this word decide first (R183)
      let r := if k.sc.standsOn then loopBack i 4 lp else (lp, none)
      .ok (s.setCore c { k with lp := r.1 }) 1 (some (r.2.getD (last + 1)))
    else .ok (s.setCore c { k with lp }) 1 none
/-- LOOP (R182). -/
def execLoop (g : BitVec 2) (p : BitVec 2) (c : BitVec 5) (l : BitVec 17) (s : State) : Host.Outcome State Fault Refusal :=
  scalarWord (.loop g p c l) s (fun s co =>
    if l = 0 then sOperand s
    else
      guardRegs s co [c.toNat]
        (let n := ((s.core co).oper 2 c.toNat).toNat
         if 2 ^ 32 - 1 < n then sOperand s else enterLoop s co p.toNat n l.toNat))
/-- LOOPI (R182). -/
def execLoopi (g : BitVec 2) (p : BitVec 2) (n : BitVec 10) (l : BitVec 12) (s : State) : Host.Outcome State Fault Refusal :=
  scalarWord (.loopi g p n l) s (fun s c =>
    if n = 0 ∨ l = 0 then sOperand s else enterLoop s c p.toNat n.toNat l.toNat)

/-- A part of a loop register as LPRW reads it: a pending latch is the last value written (R185). -/
def LoopReg.part (l : LoopReg) (t : Nat) : Nat :=
  if t = 0 then l.count else if t = 1 then l.latchFirst.getD l.first else l.latchLast.getD l.last
/-- A part written: start and end are latched (R185). -/
def LoopReg.setPart (l : LoopReg) (t v : Nat) : LoopReg :=
  if t = 0 then { l with count := v } else if t = 1 then { l with latchFirst := some v } else { l with latchLast := some v }
/-- LPRW (R185). -/
def execLprw (g : BitVec 2) (r : BitVec 5) (p t : BitVec 2) (w : BitVec 1) (s : State) : Host.Outcome State Fault Refusal :=
  scalarWord (.lprw g r p t w) s (fun s c =>
    guardRegs s c [r.toNat]
      (let k := s.core c
       let l := vget k.lp p.toNat {}
       if w = 0 then .ok (s.toReg c r (BitVec.ofNat 64 (l.part t.toNat)) 1) 1 none
       else
         let v := (k.sval r.toNat).toNat
         if (t = 0 && 2 ^ 32 - 1 < v) || (t != 0 && 16383 < v) then sOperand s
         else .ok (s.setCore c { k with lp := vset k.lp p.toNat (l.setPart t.toNat v) }) 1 none))

end Sys2Proof.Machine
end

