-- ==== Sys2Proof/Machine/ScalarMem.lean ====
section
/-! DEFINITION. A-space and global accesses of the scalar stream, atomics and stack frames (R186 to R191). -/

namespace Sys2Proof.Machine

/-- Bytes of an access size code (R123). -/
def sizeOf (code : Nat) : Nat := 2 ^ code
/-- SEXT or ZEXT of little-endian bytes to a register (R186). -/
def extendBytes (signed : Bool) (bs : List Byte) : Word64 :=
  let v := leNat bs
  if signed then BitVec.ofInt 64 (signedOf v (8 * bs.length)) else BitVec.ofNat 64 v

/-- The address of a scalar memory operand, and the base's new value if it is post-incremented (R186). -/
def memAddr (base : Word64) (size : Nat) (post : BitVec 1) (imm : BitVec 11) : Word64 × Option Word64 :=
  let off : Word64 := BitVec.ofInt 64 (imm.toInt * size)
  if post = 1 then (base, some (base + off)) else (base + off, none)
/-- The post-increment's write (R186): readable in the next cycle. -/
def State.postInc (s : State) (c : Nat) (a : BitVec 5) : Option Word64 → State
  | some v => s.toReg c a v 1
  | none => s

/-- Bytes of A-space (R257). -/
def aSize : Nat := 393216
/-- The checks of an A-space access: alignment, then range (R186). -/
def aCheck (s : State) (addr : Word64) (n kind : Nat) : Option SOut :=
  if addr.toNat % n != 0 then some (.fault s { code := 0x11, va := addr, kind })
  else if aSize < addr.toNat + n then some (.fault s { code := 0x10, va := addr, kind })
  else none

/-- A request already performed whose result, or poison, arrives `lat` cycles from now (R188, R278). -/
def State.lateResult (s : State) (c : Nat) (addr : Word64) (job : GJob) (n : Nat) (data : List Byte) (lat : Nat) : State :=
  let id := s.seq
  let g : GReq := { id, core := c, src := 0, va := addr.toNat, pa := 0, n, job, stamp := (s.core c).sc.istamp, entry :=
    { (s.core c).scalarEntry with own := false }, performAt := s.now, slots := 0, done := true, val := data, poisoned := true }
  ({ s with greqs := s.greqs ++ [g] } : State).post (s.now + lat) 0 (some c) (.run .globalResultReturn (.nums [id]))

/-- LDA and LDAU: read at issue, readable from c + 3 (R167, R186, R187). -/
def loadA (i : Instr) (d a : BitVec 5) (sz : BitVec 2) (p : BitVec 1) (imm : BitVec 11) (signed : Bool) (s : State) :
    Host.Outcome State Fault Refusal :=
  scalarWord i s (fun s c =>
    if p = 1 ∧ d = a then sOperand s
    else
      guardRegs s c [d.toNat, a.toNat]
        (let k := s.core c
         let n := sizeOf sz.toNat
         let m := memAddr (k.oper 0 a.toNat) n p imm
         match aCheck s m.1 n kindLoad with
         | some x => x
         | none =>
           if s.bytesPending c m.1.toNat n then .block s 6
           else
           let r := k.portRead 0 m.1.toNat n
           let s1 := s.afterRead c 0 m.1.toNat n
           let s2 := if r.poison then s1.lateResult c m.1 (.load d n signed) n r.data 3 else s1.toReg c d (extendBytes signed r.data) 3
           .ok (s2.postInc c a m.2) 1 none))
/-- LDA (R186). -/
def execLda (g : BitVec 2) (d a : BitVec 5) (sz : BitVec 2) (p : BitVec 1) (i : BitVec 11) (s : State) : Host.Outcome State Fault Refusal :=
  loadA (.lda g d a sz p i) d a sz p i true s
/-- LDAU (R186). -/
def execLdau (g : BitVec 2) (d a : BitVec 5) (sz : BitVec 2) (p : BitVec 1) (i : BitVec 11) (s : State) : Host.Outcome State Fault Refusal :=
  loadA (.ldau g d a sz p i) d a sz p i false s

/-- STA: performs at its issue cycle, below every other unit (R186, R187, R258). -/
def execSta (g : BitVec 2) (r a : BitVec 5) (sz : BitVec 2) (p : BitVec 1) (i : BitVec 11) (s : State) : Host.Outcome State Fault Refusal :=
  scalarWord (.sta g r a sz p i) s (fun s c =>
    guardRegs s c [r.toNat, a.toNat]
      (let k := s.core c
       let n := sizeOf sz.toNat
       let m := memAddr (k.oper 0 a.toNat) n p i
       match aCheck s m.1 n kindStore with
       | some x => x
       | none =>
         if s.bytesPending c m.1.toNat n then .block s 6
         else
         let s1 := s.cycWrite { core := c, space := 0, rank := 0, addr := m.1.toNat, data := leBytes n (k.sval r.toNat).toNat, sel := [] }
         .ok (s1.postInc c a m.2) 1 none))

/-- Send an admitted scalar global request; a load's, atomic's or CAS's result is held until c + 1,760, or, from another package,
arrives by the window rule with its register pending meanwhile (R167, R170). -/
def State.sendScalar (s : State) (c : Nat) (va : Word64) (pa n : Nat) (job : GJob) (rd : Option (BitVec 5)) : State :=
  let k := s.core c
  let id := s.seq
  let s1 := s.sendGlobal c 0 va.toNat pa n job 1 k.sc.istamp { k.scalarEntry with own := false } none
  match rd, s.homeOf pa with
  | some d, .remote _ =>
    if d = 0 then s1
    else s1.modCore c (fun k => { k with s := vset k.s d.toNat { vget k.s d.toNat {} with pending := some k.sc.istamp } })
  | some _, _ => s1.post (s.now + 1760) 0 (some c) (.run .globalResultReturn (.nums [id]))
  | none, _ => s1

/-- A scalar global access: alignment, translation, admission, sending (R186, R188, R290). -/
def globalAccess (s : State) (c : Nat) (addr : Word64) (n kind : Nat) (job : GJob) (rd : Option (BitVec 5)) (after : State → State) : SOut :=
  if addr.toNat % n != 0 then .fault s { code := 0x11, va := addr, kind }
  else
    match s.letIn c n kind 1 [addr.toNat] with
    | .ok s (pa :: _) => .ok (after (s.sendScalar c addr pa n job rd)) 1 none
    | .ok s [] => .ok s 1 none
    | .fault s f => .fault s f
    | .refuse s => .block s 6

/-- LDG and LDGU (R186). -/
def loadG (i : Instr) (d a : BitVec 5) (sz : BitVec 2) (p : BitVec 1) (imm : BitVec 11) (signed : Bool) (s : State) :
    Host.Outcome State Fault Refusal :=
  scalarWord i s (fun s c =>
    if p = 1 ∧ d = a then sOperand s
    else
      guardRegs s c [d.toNat, a.toNat]
        (let n := sizeOf sz.toNat
         let m := memAddr ((s.core c).oper 0 a.toNat) n p imm
         globalAccess s c m.1 n kindLoad (.load d n signed) (some d) (fun t => t.postInc c a m.2)))
/-- LDG (R186). -/
def execLdg (g : BitVec 2) (d a : BitVec 5) (sz : BitVec 2) (p : BitVec 1) (i : BitVec 11) (s : State) : Host.Outcome State Fault Refusal :=
  loadG (.ldg g d a sz p i) d a sz p i true s
/-- LDGU (R186). -/
def execLdgu (g : BitVec 2) (d a : BitVec 5) (sz : BitVec 2) (p : BitVec 1) (i : BitVec 11) (s : State) : Host.Outcome State Fault Refusal :=
  loadG (.ldgu g d a sz p i) d a sz p i false s
/-- STG (R186). -/
def execStg (g : BitVec 2) (r a : BitVec 5) (sz : BitVec 2) (p : BitVec 1) (i : BitVec 11) (s : State) : Host.Outcome State Fault Refusal :=
  scalarWord (.stg g r a sz p i) s (fun s c =>
    guardRegs s c [r.toNat, a.toNat]
      (let n := sizeOf sz.toNat
       let m := memAddr ((s.core c).oper 0 a.toNat) n p i
       globalAccess s c m.1 n kindStore (.store (leBytes n ((s.core c).sval r.toNat).toNat) []) none (fun t => t.postInc c a m.2)))

/-! ### Atomics (R189, R190) -/

/-- f(old, rb) on `8 × n` bits: 0 ADD, 1 MIN, 2 MAX, 3 MINU, 4 MAXU, 5 AND, 6 OR, 7 XOR, 8 SWAP, 9 FADD in FP32 (R124, R189). -/
def amoFn (op n old b : Nat) : Nat :=
  let w := 8 * n
  let b := b % 2 ^ w
  match op with
  | 0 => (old + b) % 2 ^ w
  | 1 => if signedOf old w ≤ signedOf b w then old else b
  | 2 => if signedOf old w ≤ signedOf b w then b else old
  | 3 => min old b
  | 4 => max old b
  | 5 => old &&& b
  | 6 => old ||| b
  | 7 => old ^^^ b
  | 8 => b
  | _ => (fpAdd fp32 0 old b).1

/-- An AMO word: size W or D (R189). -/
def amoWord (i : Instr) (op : Nat) (d a b : BitVec 5) (sz : BitVec 1) (s : State) : Host.Outcome State Fault Refusal :=
  scalarWord i s (fun s c =>
    guardRegs s c [d.toNat, a.toNat, b.toNat]
      (let n := if sz = 1 then 8 else 4
       globalAccess s c ((s.core c).oper 0 a.toNat) n kindAtomic (.amo op n ((s.core c).oper 1 b.toNat) d) (some d) id))
/-- AMOADD (R189). -/
def execAmoadd (g : BitVec 2) (d a b : BitVec 5) (z : BitVec 1) (s : State) : Host.Outcome State Fault Refusal := amoWord (.amoadd g d a b z) 0 d a b z s
/-- AMOMIN (R189). -/
def execAmomin (g : BitVec 2) (d a b : BitVec 5) (z : BitVec 1) (s : State) : Host.Outcome State Fault Refusal := amoWord (.amomin g d a b z) 1 d a b z s
/-- AMOMAX (R189). -/
def execAmomax (g : BitVec 2) (d a b : BitVec 5) (z : BitVec 1) (s : State) : Host.Outcome State Fault Refusal := amoWord (.amomax g d a b z) 2 d a b z s
/-- AMOMINU (R189). -/
def execAmominu (g : BitVec 2) (d a b : BitVec 5) (z : BitVec 1) (s : State) : Host.Outcome State Fault Refusal := amoWord (.amominu g d a b z) 3 d a b z s
/-- AMOMAXU (R189). -/
def execAmomaxu (g : BitVec 2) (d a b : BitVec 5) (z : BitVec 1) (s : State) : Host.Outcome State Fault Refusal := amoWord (.amomaxu g d a b z) 4 d a b z s
/-- AMOAND (R189). -/
def execAmoand (g : BitVec 2) (d a b : BitVec 5) (z : BitVec 1) (s : State) : Host.Outcome State Fault Refusal := amoWord (.amoand g d a b z) 5 d a b z s
/-- AMOOR (R189). -/
def execAmoor (g : BitVec 2) (d a b : BitVec 5) (z : BitVec 1) (s : State) : Host.Outcome State Fault Refusal := amoWord (.amoor g d a b z) 6 d a b z s
/-- AMOXOR (R189). -/
def execAmoxor (g : BitVec 2) (d a b : BitVec 5) (z : BitVec 1) (s : State) : Host.Outcome State Fault Refusal := amoWord (.amoxor g d a b z) 7 d a b z s
/-- AMOSWAP (R189). -/
def execAmoswap (g : BitVec 2) (d a b : BitVec 5) (z : BitVec 1) (s : State) : Host.Outcome State Fault Refusal := amoWord (.amoswap g d a b z) 8 d a b z s
/-- AMOFADD, size W only (R189). -/
def execAmofadd (g : BitVec 2) (d a b : BitVec 5) (s : State) : Host.Outcome State Fault Refusal := amoWord (.amofadd g d a b) 9 d a b 0 s
/-- CAS (R190). -/
def execCas (g : BitVec 2) (d a b c : BitVec 5) (z : BitVec 1) (s : State) : Host.Outcome State Fault Refusal :=
  scalarWord (.cas g d a b c z) s (fun s co =>
    guardRegs s co [d.toNat, a.toNat, b.toNat, c.toNat]
      (let n := if z = 1 then 8 else 4
       let k := s.core co
       globalAccess s co (k.oper 0 a.toNat) n kindAtomic (.cas n (k.oper 1 b.toNat) (k.oper 2 c.toNat) d) (some d) id))

/-! ### Stack frames (R191) -/

/-- ENTER: s2 a multiple of 16, and not below SLIM afterwards, compared exactly and signed (R191). -/
def execEnter (g : BitVec 2) (n : BitVec 16) (s : State) : Host.Outcome State Fault Refusal :=
  scalarWord (.enter g n) s (fun s c =>
    guardRegs s c [2]
      (let k := s.core c
       let sp := k.sval 2
       if sp.toNat % 16 != 0 then .fault s { code := 0x11, va := sp }
       else if sp.toInt - 16 * n.toNat < (k.sr.slim.toNat : Int) then .fault s { code := 0x14, va := sp }
       else .ok (s.toReg c 2 (sp - BitVec.ofNat 64 (16 * n.toNat)) 1) 1 none))
/-- LEAVE: s2 not above SBASE afterwards (R191). -/
def execLeave (g : BitVec 2) (n : BitVec 16) (s : State) : Host.Outcome State Fault Refusal :=
  scalarWord (.leave g n) s (fun s c =>
    guardRegs s c [2]
      (let k := s.core c
       let sp := k.sval 2
       if sp.toNat % 16 != 0 then .fault s { code := 0x11, va := sp }
       else if (k.sr.sbase.toNat : Int) < sp.toInt + 16 * n.toNat then .fault s { code := 0x14, va := sp }
       else .ok (s.toReg c 2 (sp + BitVec.ofNat 64 (16 * n.toNat)) 1) 1 none))

end Sys2Proof.Machine
end

