-- ==== Sys2Proof/Machine/VectorAlu.lean ====
section
/-! DEFINITION. Elementwise vector words: moves, arithmetic, bitwise operations, shifts, selection, comparison, clamps, short dot products and the transcendental functions (R214 to R217, R232). -/

namespace Sys2Proof.Machine

/-- An elementwise word: `f` takes the rounding mode and elements of A, B and D. -/
def elemWord (i : Instr) (v : VWord) (fm : VForm) (f : Nat → Nat → Nat → Nat → Nat × Nat) (s : State) : Host.Outcome State Fault Refusal :=
  plainVector i v fm (fun e =>
    let r := mapElems (tyBits v.ty.toNat) e (fun _ a b d => f e.mode a b d)
    ([r.1], r.2)) s

/-- A word that uses integer elements by `fi` on exact values, wrapping with IW, and floating-point ones by `ff` on patterns (R214). -/
def arith (t : Nat) (fi : Int → Int → Int) (ff : Fmt → Nat → Nat → Nat → Nat × Nat) (mode a b : Nat) : Nat × Nat :=
  if isIntTy t then intFit t false (fi (intVal t a) (intVal t b)) else ff (fmtOf t) mode a b

/-- VMOV: bit for bit (R214). -/
def execVmov (v : VWord) (s : State) : Host.Outcome State Fault Refusal :=
  elemWord (.vmov v) v (formOf2 v) (fun _ a _ _ => (a, 0)) s
/-- VADD (R214). -/
def execVadd (v : VWord) (s : State) : Host.Outcome State Fault Refusal :=
  elemWord (.vadd v) v (formOf v) (fun m a b _ => arith v.ty.toNat (· + ·) fpAdd m a b) s
/-- VSUB (R214). -/
def execVsub (v : VWord) (s : State) : Host.Outcome State Fault Refusal :=
  elemWord (.vsub v) v (formOf v) (fun m a b _ => arith v.ty.toNat (· - ·) fpSub m a b) s
/-- VMUL (R214). -/
def execVmul (v : VWord) (s : State) : Host.Outcome State Fault Refusal :=
  elemWord (.vmul v) v (formOf v) (fun m a b _ => arith v.ty.toNat (· * ·) fpMul m a b) s
/-- VFMA: A × B + D, one rounding (R214). -/
def execVfma (v : VWord) (s : State) : Host.Outcome State Fault Refusal :=
  elemWord (.vfma v) v { formOf v with readD := true } (fun m a b d => fpFma (fmtOf v.ty.toNat) m a b d false) s
/-- VFMS: A × B − D, one rounding (R214). -/
def execVfms (v : VWord) (s : State) : Host.Outcome State Fault Refusal :=
  elemWord (.vfms v) v { formOf v with readD := true } (fun m a b d => fpFma (fmtOf v.ty.toNat) m a b d true) s
/-- Minimum or maximum of two elements (R214). -/
def minMax (t : Nat) (isMax : Bool) (a b : Nat) : Nat × Nat :=
  if isIntTy t then
    (if isMax then (if intVal t a < intVal t b then b else a) else (if intVal t b < intVal t a then b else a), 0)
  else fpMinMax (fmtOf t) isMax a b
/-- VMIN (R214). -/
def execVmin (v : VWord) (s : State) : Host.Outcome State Fault Refusal :=
  elemWord (.vmin v) v (formOf v) (fun _ a b _ => minMax v.ty.toNat false a b) s
/-- VMAX (R214). -/
def execVmax (v : VWord) (s : State) : Host.Outcome State Fault Refusal :=
  elemWord (.vmax v) v (formOf v) (fun _ a b _ => minMax v.ty.toNat true a b) s
/-- A sign operation on a floating-point element: a NaN gives the canonical NaN and no flag (R214). -/
def fpSign (f : Fmt) (g : Nat → Nat) (a : Nat) : Nat := if (f.decode a).isNan then f.qnan else g a
/-- VABS: the most negative value wraps to itself with IW; unsigned elements pass (R214). -/
def execVabs (v : VWord) (s : State) : Host.Outcome State Fault Refusal :=
  elemWord (.vabs v) v (formOf2 v) (fun _ a _ _ =>
    let t := v.ty.toNat
    if isIntTy t then intFit t false ((intVal t a).natAbs : Int) else (fpSign (fmtOf t) (fmtOf t).abs a, 0)) s
/-- VNEG (R214). -/
def execVneg (v : VWord) (s : State) : Host.Outcome State Fault Refusal :=
  elemWord (.vneg v) v (formOf2 v) (fun _ a _ _ =>
    let t := v.ty.toNat
    if isIntTy t then intFit t false (-(intVal t a)) else (fpSign (fmtOf t) (fmtOf t).flip a, 0)) s
/-- VADDS (R214, R160). -/
def execVadds (v : VWord) (s : State) : Host.Outcome State Fault Refusal :=
  elemWord (.vadds v) v (formOf v) (fun _ a b _ => intFit v.ty.toNat true (intVal v.ty.toNat a + intVal v.ty.toNat b)) s
/-- VSUBS (R214, R160). -/
def execVsubs (v : VWord) (s : State) : Host.Outcome State Fault Refusal :=
  elemWord (.vsubs v) v (formOf v) (fun _ a b _ => intFit v.ty.toNat true (intVal v.ty.toNat a - intVal v.ty.toNat b)) s
/-- VMULH: the high half of the product, no flag (R214). -/
def execVmulh (v : VWord) (s : State) : Host.Outcome State Fault Refusal :=
  elemWord (.vmulh v) v (formOf v) (fun _ a b _ =>
    let t := v.ty.toNat
    (wrapTo (2 * tyBits t) (intVal t a * intVal t b) / 2 ^ tyBits t, 0)) s
/-- VAND (R214). -/
def execVand (v : VWord) (s : State) : Host.Outcome State Fault Refusal :=
  elemWord (.vand v) v (formOf v) (fun _ a b _ => (a &&& b, 0)) s
/-- VOR (R214). -/
def execVor (v : VWord) (s : State) : Host.Outcome State Fault Refusal :=
  elemWord (.vor v) v (formOf v) (fun _ a b _ => (a ||| b, 0)) s
/-- VXOR (R214). -/
def execVxor (v : VWord) (s : State) : Host.Outcome State Fault Refusal :=
  elemWord (.vxor v) v (formOf v) (fun _ a b _ => (a ^^^ b, 0)) s
/-- VNOT (R214). -/
def execVnot (v : VWord) (s : State) : Host.Outcome State Fault Refusal :=
  elemWord (.vnot v) v (formOf2 v) (fun _ a _ _ => (2 ^ tyBits v.ty.toNat - 1 - a, 0)) s

/-- A shift word: the amount from B's element, or from the extension (R215). -/
def shiftWord (i : Instr) (v : VWord) (f : Nat → Nat → Nat → Nat) (s : State) : Host.Outcome State Fault Refusal :=
  let w := tyBits v.ty.toNat
  if v.e 23 1 = 1 then elemWord i v (formOf2 v) (fun _ a _ _ => (f w a (v.e 0 5), 0)) s
  else elemWord i v (formOf v) (fun _ a b _ => (f w a b, 0)) s
/-- VSHL: zeros from the right, 0 for an amount of the width or more (R215). -/
def execVshl (v : VWord) (s : State) : Host.Outcome State Fault Refusal :=
  shiftWord (.vshl v) v (fun w a n => if w ≤ n then 0 else a * 2 ^ n % 2 ^ w) s
/-- VSHR: zeros from the left (R215). -/
def execVshr (v : VWord) (s : State) : Host.Outcome State Fault Refusal :=
  shiftWord (.vshr v) v (fun w a n => if w ≤ n then 0 else a / 2 ^ n) s
/-- VSAR: copies the sign bit; all sign bits for an amount of the width or more (R215). -/
def execVsar (v : VWord) (s : State) : Host.Outcome State Fault Refusal :=
  shiftWord (.vsar v) v (fun w a n => wrapTo w (signedOf a w / (2 ^ min n w : Int))) s

/-- VSEL: A where the selecting mask is set, else B (R216). -/
def execVsel (v : VWord) (s : State) : Host.Outcome State Fault Refusal :=
  plainVector (.vsel v) v { formOf v with masks := [v.e 20 4] } (fun e =>
    let m := (e.k.mval (v.e 20 4)).toNat
    let r := mapElems (tyBits v.ty.toNat) e (fun n a b _ => (if bitOf m n then a else b, 0))
    ([r.1], r.2)) s

/-- A mask result of the word in issue (R206, R227); m0 discards it (R205). -/
def State.sendMask (s : State) (c lat m : Nat) (val : Nat) (flags : Nat) : State :=
  if m = 0 then s.sendV c lat .flags [] flags else s.sendV c lat (.mask (BitVec.ofNat 4 m)) (maskBytes val) flags

/-- VCMP: one repeat, a mask result; inactive bits kept or cleared, the bits past the elements cleared (R216). -/
def execVcmp (v : VWord) (s : State) : Host.Outcome State Fault Refusal :=
  let md := v.e 20 4
  let t := v.ty.toNat
  let fm : VForm := { formOf v with dRows := 0, masks := [md] }
  vectorWord (.vcmp v) 1 s (fun _ => operandIf (!formOk v fm || md == 0))
    (runWith v fm (fun s e lat =>
      let xs := List.zip (elemsOf (tyBits t) (joinRows e.a)) (elemsOf (tyBits t) (joinRows e.b))
      let old := (e.k.mval md).toNat
      let p := fun n =>
        let x := xs.getD n (0, 0)
        if e.act n then
          (if isIntTy t then intCmp (v.e 17 3) (intVal t x.1) (intVal t x.2) else fpCmp (fmtOf t) (v.e 17 3) x.1 x.2)
        else !e.zeroing && bitOf old n
      s.sendMask s.curCore lat md (maskOf (elemCount t) p) 0))

/-- VCLAMP: min(max(A, B), U), U advancing by B's stride (R216). -/
def execVclamp (v : VWord) (s : State) : Host.Outcome State Fault Refusal :=
  let t := v.ty.toNat
  let u : VOp := { reg := BitVec.ofNat 11 (v.e 0 11), stride := v.b.stride }
  let fm : VForm := { formOf v with more := [u] }
  vectorWord (.vclamp v) (repsOf v) s (fun _ => operandIf (!formOk v fm || !isReg u || !inRange u (repsOf v) 1)) (fun s c i =>
    runRepeat v fm (fun e =>
      let us := elemsOf (tyBits t) (s.vRow c (rowOf u i 0).toNat)
      let r := mapElems (tyBits t) e (fun n a b _ =>
        let x := minMax t true a b
        let y := minMax t false x.1 (us.getD n 0)
        (y.1, x.2 ||| y.2))
      ([r.1], r.2)) s c i)

/-- A dot product word: INT32 lanes of D plus a sum over `p` element pairs of each lane, wrapping with IW (R217). -/
def dotWord (i : Instr) (v : VWord) (f : Int → Int → Int) (s : State) : Host.Outcome State Fault Refusal :=
  let t := v.ty.toNat
  let n := tyBits t
  plainVector i v { formOf v with dty := 4, readD := true } (fun e =>
    let as := (elemsOf n (joinRows e.a)).map (intVal t)
    let bs := (elemsOf n (joinRows e.b)).map (fun w => signedOf w n)
    let sums := (chunksOf (32 / n) 256 (List.zipWith f as bs)).map List.sum
    let ds := elemsOf 32 (joinRows e.d)
    let rs := (List.zip sums ds).mapIdx (fun j x =>
      if e.act j then intFit 4 false (signedOf x.2 32 + x.1) else (if e.zeroing then 0 else x.2, 0))
    ([packElems 32 (rs.map Prod.fst)], rs.foldl (fun a r => a ||| r.2) 0)) s
/-- VDOT4 (R217): the sum of A × B. -/
def execVdot4 (v : VWord) (s : State) : Host.Outcome State Fault Refusal := dotWord (.vdot4 v) v (· * ·) s
/-- VTACC (R217): the sum of sgn(B) × A. -/
def execVtacc (v : VWord) (s : State) : Host.Outcome State Fault Refusal :=
  dotWord (.vtacc v) v (fun a b => if 0 < b then a else if b < 0 then -a else 0) s

/-- A transcendental word (R162, R232): L = 8. -/
def transWord (i : Instr) (v : VWord) (f : Nat → Nat × Nat) (s : State) : Host.Outcome State Fault Refusal :=
  elemWord i v { formOf2 v with lat := 8 } (fun _ a _ _ => f a) s
/-- VEXP2 (R162, R232). -/
def execVexp2 (v : VWord) (s : State) : Host.Outcome State Fault Refusal := transWord (.vexp2 v) v fpExp2 s
/-- VLOG2 (R162, R232). -/
def execVlog2 (v : VWord) (s : State) : Host.Outcome State Fault Refusal := transWord (.vlog2 v) v fpLog2 s
/-- VRCP (R162, R232). -/
def execVrcp (v : VWord) (s : State) : Host.Outcome State Fault Refusal := transWord (.vrcp v) v fpRcp s
/-- VRSQ (R162, R232). -/
def execVrsq (v : VWord) (s : State) : Host.Outcome State Fault Refusal := transWord (.vrsq v) v fpRsq s

end Sys2Proof.Machine
end

