-- ==== Sys2Proof/Machine/VectorMask.lean ====
section
/-! DEFINITION. Mask instructions (R227). -/

namespace Sys2Proof.Machine

/-- A mask word without repeats: `mask` gives the new value of mD. -/
def maskWord (i : Instr) (v : VWord) (fm : VForm) (md : Nat) (mask : VEnv → Nat) (s : State) : Host.Outcome State Fault Refusal :=
  let fm := { fm with dRows := 0, masks := md :: fm.masks }
  vectorWord i 1 s (fun _ => operandIf (!formOk v fm)) (runWith v fm (fun s e lat => s.sendMask s.curCore lat md (mask e) 0))

/-- An element of a type is nonzero: ±0 counts as zero, a NaN as nonzero (R227). -/
def nonzeroElem (t x : Nat) : Bool := if isIntTy t then x != 0 else (fmtOf t).abs x != 0

/-- VMSET (R227). -/
def execVmset (v : VWord) (s : State) : Host.Outcome State Fault Refusal :=
  let t := v.ty.toNat
  maskWord (.vmset v) v (formOf2 v) (v.e 20 4) (fun e =>
    let xs := elemsOf (tyBits t) (joinRows e.a)
    maskOf (elemCount t) (fun n => nonzeroElem t (xs.getD n 0))) s
/-- VMLOG: AND, OR, XOR, ANDN and NOT over 256 bits (R227). -/
def execVmlog (v : VWord) (s : State) : Host.Outcome State Fault Refusal :=
  let m1 := v.e 16 4
  let m2 := v.e 12 4
  maskWord (.vmlog v) v { formOf2 v with aRows := 0, masks := [m1, m2] } (v.e 20 4) (fun e =>
    let x := e.k.mval m1
    let y := e.k.mval m2
    (match v.e 8 4 with
     | 0 => x &&& y
     | 1 => x ||| y
     | 2 => x ^^^ y
     | 3 => x &&& ~~~y
     | _ => ~~~x).toNat) s
/-- VMROW: a row's bits as a mask (R227). -/
def execVmrow (v : VWord) (s : State) : Host.Outcome State Fault Refusal :=
  maskWord (.vmrow v) v (formOf2 v) (v.e 20 4) (fun e => leNat ((joinRows e.a).take 32)) s

/-- A row with one INT32 in element 0 and zeros after it (R227, R230). -/
def scalarRow (x : Int) : List Byte := leBytes 4 (wrapTo 32 x) ++ List.replicate 252 0
/-- A word that writes one INT32 computed from a mask's bits below n(T); D is a register, QV2S or ZERO. -/
def maskToRow (i : Instr) (v : VWord) (f : Nat → Nat → Int) (s : State) : Host.Outcome State Fault Refusal :=
  let n := elemCount v.ty.toNat
  let m1 := v.e 16 4
  let fm : VForm := { formOf2 v with aRows := 0, dty := 4, masks := [m1] }
  vectorWord i 1 s (fun _ => operandIf (!formOk v fm || v.d.reg.toNat == codeQV2M))
    (runRepeat v fm (fun e => ([scalarRow (f n ((e.k.mval m1).toNat % 2 ^ n))], 0)))
/-- The lowest set bit of the low `n` bits, searched from bit `i` up, or −1. -/
def firstBit (m : Nat) : Nat → Nat → Int
  | 0, _ => -1
  | n + 1, i => if bitOf m i then (i : Int) else firstBit m n (i + 1)
/-- VMCNT (R227). -/
def execVmcnt (v : VWord) (s : State) : Host.Outcome State Fault Refusal := maskToRow (.vmcnt v) v (fun n m => (popCount m n : Int)) s
/-- VMFIRST (R227). -/
def execVmfirst (v : VWord) (s : State) : Host.Outcome State Fault Refusal := maskToRow (.vmfirst v) v (fun n m => firstBit m n 0) s

end Sys2Proof.Machine
end

