-- ==== Sys2Proof/Machine/VectorMem.lean ====
section
/-! DEFINITION. Vector memory forms, address registers and VMPOS (R228, R316 to R323). -/

namespace Sys2Proof.Machine

/-- The signed increment in bytes (R316). -/
def memInc (v : VWord) : Int := signedOf (v.e 0 16) 16 * 32
/-- The post-increment bit. -/
def memPost (v : VWord) : Bool := v.e 20 1 == 1
/-- The address register's number. -/
def memAreg (v : VWord) : Nat := v.e 21 3
/-- The address of repeat i of a row form, and the base of VGTH and VSCT without the row step (R316). -/
def repAddr (base : Word64) (v : VWord) (i : Nat) (rowStep : Bool) : Nat :=
  let off : Int := if memPost v then (i : Int) * memInc v else memInc v + (if rowStep then 256 * (i : Int) else 0)
  (base + BitVec.ofInt 64 off).toNat
/-- Keep a value for the later repeats of the word in issue. -/
def State.keep (s : State) (c key n v : Nat) : State :=
  if ((s.core c).ve.kept key).isSome then s else s.modStrm c .vector (fun st => { st with fwd := (key, leBytes n v) :: st.fwd })
/-- What the first repeat of a memory form leaves for the later ones, and its post-increment: aN + m × x, readable from c + m (R316). -/
def State.memBegin (s : State) (c i : Nat) (v : VWord) : State :=
  let base := (s.core c).vbase (memAreg v)
  let s := (s.keep c baseKey 8 base.toNat).keep c btKey 8 (s.core c).bt
  if memPost v && i == 0 then
    s.sendV c (repsOf v) (.areg (BitVec.ofNat 3 (memAreg v))) (leBytes 8 (base + BitVec.ofInt 64 (repsOf v * memInc v)).toNat) 0
  else s
/-- The bytes of a row that the active elements hold. -/
def rowSel (bits : Nat) (m : Nat) : List Bool := (List.range 256).map (fun j => bitOf m (j / (bits / 8)))
/-- The active elements of the repeat in issue, as a number. -/
def State.lanes (s : State) (c : Nat) : Nat := ((s.core c).lanesNow ((s.core c).curWord .vector)).toNat
/-- Some byte of the 32-byte piece j of a row is selected. -/
def pieceSel (sel : List Bool) (j : Nat) : Bool := ((sel.drop (32 * j)).take 32).any id
/-- The bytes that inactive elements keep from the destination (R209, R317): none under zeroing. -/
def keepOf (v : VWord) (sel : List Bool) : List Bool := if v.zero = 1 then [] else sel.map (fun x => !x)
/-- The destination of a load as a row number, or the operand's special code. -/
def loadDest (v : VWord) (i : Nat) : Nat := if isReg v.d then (rowOf v.d i 0).toNat else v.d.reg.toNat
/-- A push of a load into its destination queue is under way (R208). -/
def State.reserveDest (s : State) (c : Nat) (o : VOp) : State :=
  if o.reg.toNat = codeQV2S then s.modCore c (fun k => { k with qv2s := { k.qv2s with inflight := k.qv2s.inflight + 1 } })
  else if o.reg.toNat = codeQV2M then s.modCore c (fun k => { k with qv2m := { k.qv2m with inflight := k.qv2m.inflight + 1 } })
  else s
/-- Put a loaded row on its way; it takes effect by the event that names it (R317). -/
def State.addJoin (s : State) (c : Nat) (v : VWord) (i due : Nat) (data : List Byte) (sel : List Bool) (left : Nat) (bad : Bool) (va : Nat := 0) : State × Nat :=
  let k := s.core c
  let j : RowJoin := { id := s.seq, core := c, row := loadDest v i, data, sel, keep := keepOf v sel, left, stamp := k.ve.istamp, rep := i
                       due, ty := v.ty.toNat, poisoned := bad, entry := { k.vectorEntry with va := BitVec.ofNat 64 va, kind := kindLoad } }
  ({ s with joins := s.joins ++ [j], seq := s.seq + 1 }, j.id)

/-- The tile of a C address is shadowed by a speculative pass (R95). -/
def Core.shadowed (k : Core) (addr : Nat) : Bool := k.shadows.any (fun x => x.tile == addr / 65536)
/-- The checks of a C row access (R318): misalignment, range, a speculative shadow; none where no element is active (R210). -/
def cCheck (k : Core) (addr m : Nat) (kind : Nat) : Option FaultRec :=
  if m = 0 then none
  else if addr % 256 != 0 then some { code := 0x11, va := BitVec.ofNat 64 addr, kind }
  else if 1048576 < addr + 256 then some { code := 0x10, va := BitVec.ofNat 64 addr, kind }
  else if k.shadowed addr then some { code := 0x08, va := BitVec.ofNat 64 addr, kind }
  else none

/-- Mask bits that govern the elements of a type (R205). -/
def State.lanesFor (s : State) (c t : Nat) : Nat := s.lanes c % 2 ^ elemCount t

/-- The operand fields a memory form uses. -/
def memForm (v : VWord) (d a b : Nat) : VForm := { formOf v with dRows := d, aRows := a, bRows := b, merges := false }

/-- VLDC: 256 bytes of C read at c_i, D at c_i + 8 (R317, R318). -/
def execVldc (v : VWord) (s : State) : Host.Outcome State Fault Refusal :=
  let fm := memForm v 1 0 0
  vectorWord (.vldc v) (repsOf v) s (fun _ => operandIf (!formOk v fm)) (fun s c i =>
    let k := s.core c
    let addr := repAddr (k.vbase (memAreg v)) v i true
    let m := s.lanesFor c v.ty.toNat
    if k.maskPending [v.mask.toNat] || s.rowPending c v.d i 1 then .block s 6
    else
      match cCheck k addr m kindLoad with
      | some f => .fault s f
      | none =>
        if !dstRoom s c v.d 1 then .block s 2
        else
          let sel := rowSel (tyBits v.ty.toNat) m
          let rd := k.portRead 1 addr 256
          let row := s.cBytes c addr 256
          let s1 := ((s.memBegin c i v).reserveDest c v.d).afterRead c 1 addr (if m = 0 then 0 else 256)
          let j := s1.addJoin c v i (s.now + 8) row sel 0 (rd.poison && m != 0) addr
          .ok (j.1.post (s.now + 8) 0 (some c) (.run .vectorResult (.nums [j.2]))) 1)

/-- The row of A that a store takes (R208, R317). -/
def storeRow (s : State) (c : Nat) (v : VWord) (i : Nat) : Option (State × List Byte) :=
  (readSrc s c (tyBits v.ty.toNat) v.a i 1).map (fun r => (r.1, joinRows r.2))

/-- VSTC: A read at c_i, the active elements written to C at c_i + 8 (R317, R318). -/
def execVstc (v : VWord) (s : State) : Host.Outcome State Fault Refusal :=
  let fm := memForm v 0 1 0
  vectorWord (.vstc v) (repsOf v) s (fun _ => operandIf (!formOk v fm)) (fun s c i =>
    let k := s.core c
    let addr := repAddr (k.vbase (memAreg v)) v i true
    let m := s.lanesFor c v.ty.toNat
    if k.maskPending [v.mask.toNat] || s.rowPending c v.a i 1 then .block s 6
    else
      match cCheck k addr m kindStore with
      | some f => .fault s f
      | none =>
        match storeRow s c v i with
        | none => .block s 1
        | some (s1, row) =>
          if poisonedSrc s c v.a i 1 then .ok ((s1.memBegin c i v).poisonV c 8 (s.poisonAddr c i [(v.a, 1)])) 1
          else
            let s2 := (s1.memBegin c i v).afterSrc c v.a i 1
            .ok (if m = 0 then s2 else s2.sendSel c 8 (.crow addr) row (rowSel (tyBits v.ty.toNat) m) 0) 1)

/-- What both bank forms share (R319): the beat named, the bank and word, and the faults. -/
def bankForm (v : VWord) (s : State) (c i : Nat) : Except FaultRec (Nat × Nat) :=
  let k := s.core c
  let addr := repAddr (k.vbase (memAreg v)) v i true
  let m := s.lanesFor c v.ty.toNat
  if m = 0 then .ok ((addr % seamSize) / 32 * 32, ((k.ve.kept btKey).getD k.bt + v.e 17 3) % beatMod)
  else if addr % 32 != 0 then .error { code := 0x11, va := BitVec.ofNat 64 addr, kind := kindBank }
  else if seamSize < addr + 256 || bankOf addr != bankOf (addr + 255) then .error { code := 0x10, va := BitVec.ofNat 64 addr, kind := kindBank }
  else .ok (addr, ((k.ve.kept btKey).getD k.bt + v.e 17 3) % beatMod)
/-- The request of one repeat of a bank form. -/
def bankReq (s : State) (c i : Nat) (v : VWord) (addr beat tag : Nat) (job : BankJob) : BankReq :=
  let k := s.core c
  { id := s.seq, core := c, bank := bankOf addr, word := bankWord addr, words := 8, beat, slide := v.e 16 1 == 1, src := 1, iseq := s.seq
    seqNo := 0, tag, stamp := k.ve.istamp, rep := i, entry := k.vectorEntry, job }
/-- The check before the first repeat: BT + k names an ACCESS beat (R265, R319). -/
def bankBeatOk (s : State) (v : VWord) (k : Core) : Bool := s.isAccess (((k.ve.kept btKey).getD k.bt + v.e 17 3) % beatMod)
/-- The seam bytes of the active words of a repeat's row. -/
def activeSeam (addr : Nat) (sel : List Bool) : List Nat := ((List.range 8).filter (pieceSel sel)).map (fun j => addr + 32 * j)

/-- VBLD (R317, R319): the request arrives at c_i + 2. -/
def execVbld (v : VWord) (s : State) : Host.Outcome State Fault Refusal :=
  let fm := memForm v 1 0 0
  vectorWord (.vbld v) (repsOf v) s (fun k => operandIf (!formOk v fm || !bankBeatOk s v k)) (fun s c i =>
    let k := s.core c
    let sel := rowSel (tyBits v.ty.toNat) (s.lanesFor c v.ty.toNat)
    if k.maskPending [v.mask.toNat] || s.rowPending c v.d i 1 then .block s 6
    else
      match bankForm v s c i with
      | .error f => .fault s f
      | .ok (addr, beat) =>
        if (activeSeam addr sel).any (fun a => !k.seamRead (coreMaster 0 c) a 32) then .fault s (denied addr kindBank)
        else if !dstRoom s c v.d 1 then .block s 2
        else if !k.bankRoom (bankOf addr) then .block s 6
        else
          let s1 := (s.memBegin c i v).reserveDest c v.d
          .ok (s1.sendBank c (bankReq s1 c i v addr beat 0 (.load (loadDest v i) sel (v.zero == 1) v.ty.toNat)) (s.now + 2)) 1)

/-- VBST (R317, R319): A read at c_i; the request arrives at c_i + 2. -/
def execVbst (v : VWord) (s : State) : Host.Outcome State Fault Refusal :=
  let fm := memForm v 0 1 0
  vectorWord (.vbst v) (repsOf v) s (fun k => operandIf (!formOk v fm || !bankBeatOk s v k)) (fun s c i =>
    let k := s.core c
    let sel := rowSel (tyBits v.ty.toNat) (s.lanesFor c v.ty.toNat)
    if k.maskPending [v.mask.toNat] || s.rowPending c v.a i 1 then .block s 6
    else
      match bankForm v s c i with
      | .error f => .fault s f
      | .ok (addr, beat) =>
        let tags := (activeSeam addr sel).map (fun a => k.seamWrite (coreMaster 0 c) a 32)
        if tags.any (fun t => t.isNone) then .fault s (denied addr kindBank)
        else
          match storeRow s c v i with
          | none => .block s 1
          | some (s1, row) =>
            if !k.bankRoom (bankOf addr) then .block s 6
            else if poisonedSrc s c v.a i 1 then .ok ((s1.memBegin c i v).poisonV c 4 (s.poisonAddr c i [(v.a, 1)])) 1
            else
              let s2 := (s1.memBegin c i v).afterSrc c v.a i 1
              .ok (s2.sendBank c (bankReq s2 c i v addr beat ((tags.headD none).getD 0) (.store row sel)) (s.now + 2)) 1)

/-- Slots that a repeat takes without a request of their own: they are released in the next cycle (R322). -/
def State.idleSlots (s : State) (c n : Nat) : State :=
  if n = 0 then s
  else
    let g : GReq := { id := s.seq, core := c, src := 1, va := 0, pa := 0, n := 0, job := .store [] [], stamp := (s.core c).ve.istamp
                      entry := (s.core c).vectorEntry, performAt := s.now + 1, slots := n }
    ({ s with greqs := s.greqs ++ [g] } : State).post (s.now + 1) 1 none (.run .globalPerform (.nums [g.id]))
/-- Send the requests of one repeat: (byte offset in the row, virtual address, physical address, bytes). -/
def State.sendParts (s : State) (c n : Nat) (job : Nat → GJob) (group : Option Nat) (l : List (Nat × Nat × Nat)) : State :=
  l.foldl (fun t x => t.sendGlobal c 1 x.2.1 x.2.2 n (job x.1) 1 (t.core c).ve.istamp (t.core c).vectorEntry group) s
/-- Some home of a load lies in another package (R320). -/
def State.anyRemote (s : State) (pas : List Nat) : Bool := pas.any (fun pa => match s.homeOf pa with | .remote _ => true | _ => false)

/-- The least bound of these homes for a core (R281). -/
def State.boundOf (s : State) (c : Nat) (pas : List Nat) : Nat := pas.foldl (fun a pa => min a ((s.homeOf pa).bound (coreDie c))) 1760
/-- A global load form (R320, R321): offsets in the row with their addresses, `n` bytes each, of `total` slots. The row takes effect at
c_i + 1,760, or, with a part from another package, when its last part has come. -/
def globalLoad (s : State) (c i : Nat) (v : VWord) (sel : List Bool) (n total : Nat) (parts : List (Nat × Nat)) : VOut :=
  if parts.any (fun p => p.2 % n != 0) then
    .fault s { code := 0x11, va := BitVec.ofNat 64 ((parts.find? (fun p => p.2 % n != 0)).elim 0 Prod.snd), kind := kindLoad }
  else
    match s.letIn c n kindLoad total (parts.map Prod.snd) with
    | .fault s f => .fault s f
    | .refuse s => .block s 6
    | .ok s pas =>
      if !dstRoom s c v.d 1 then .block s 2
      else
        let far := s.anyRemote pas
        let due := if far then 0 else s.now + 1760
        let s1 := (s.memBegin c i v).reserveDest c v.d
        let j := s1.addJoin c v i due zeroRow sel parts.length false
        let s2 := j.1.sendParts c n (fun off => .rowLoad j.2 off) (some j.2) (List.zip (parts.map Prod.fst) (List.zip (parts.map Prod.snd) pas))
        let s3 := s2.idleSlots c (total - parts.length)
        .ok (if far then s3 else s3.post due 0 (some c) (.run .globalResultReturn (.nums [j.2, 1]))) 1
/-- A global store form (R320, R321). -/
def globalStore (s : State) (c i : Nat) (v : VWord) (n total : Nat) (row : List Byte) (sel : List Bool) (parts : List (Nat × Nat)) (s1 : State) : VOut :=
  if parts.any (fun p => p.2 % n != 0) then
    .fault s { code := 0x11, va := BitVec.ofNat 64 ((parts.find? (fun p => p.2 % n != 0)).elim 0 Prod.snd), kind := kindStore }
  else
    match s1.letIn c n kindStore total (parts.map Prod.snd) with
    | .fault _ f => .fault (s.dropFailed 0 c f.va.toNat) f
    | .refuse t => .block { s with walks := t.walks, agenda := t.agenda, free := t.free, seq := t.seq } 6
    | .ok s1 pas =>
      if poisonedSrc s c v.a i 1 then .ok ((s1.memBegin c i v).poisonV c 4 (s.poisonAddr c i [(v.a, 1)])) 1
      else
        let s2 := (s1.memBegin c i v).afterSrc c v.a i 1
        -- each sector is written whole (R284); the elements of a scatter perform in ascending order (R321)
        let cap := s.boundOf c pas
        let put := fun (acc : State × Nat) (x : Nat × Nat × Nat) =>
          let t := acc.1
          let sel := ((sel.drop x.1).take n)
          let t := t.sendGlobalIn c 1 x.2.1 x.2.2 n (.store ((row.drop x.1).take n) (if sel.all id then [] else sel)) 1
            (t.core c).ve.istamp (t.core c).vectorEntry none acc.2 cap
          (t, if n = 4 then (t.greqs.getLast?).elim 0 (fun g => g.performAt) else 0)
        let s3 := ((List.zip (parts.map Prod.fst) (List.zip (parts.map Prod.snd) pas)).foldl put (s2, 0)).1
        .ok (s3.idleSlots c (total - parts.length)) 1

/-- The 32-byte sectors of a row form with an active element. -/
def sectorParts (addr : Nat) (sel : List Bool) : List (Nat × Nat) :=
  ((List.range 8).filter (pieceSel sel)).map (fun j => (32 * j, (addr + 32 * j) % 2 ^ 64))

/-- VLDG (R320). -/
def execVldg (v : VWord) (s : State) : Host.Outcome State Fault Refusal :=
  let fm := memForm v 1 0 0
  vectorWord (.vldg v) (repsOf v) s (fun _ => operandIf (!formOk v fm)) (fun s c i =>
    let k := s.core c
    let sel := rowSel (tyBits v.ty.toNat) (s.lanesFor c v.ty.toNat)
    if k.maskPending [v.mask.toNat] || s.rowPending c v.d i 1 then .block s 6
    else globalLoad s c i v sel 32 8 (sectorParts (repAddr (k.vbase (memAreg v)) v i true) sel))
/-- VSTG (R320). -/
def execVstg (v : VWord) (s : State) : Host.Outcome State Fault Refusal :=
  let fm := memForm v 0 1 0
  vectorWord (.vstg v) (repsOf v) s (fun _ => operandIf (!formOk v fm)) (fun s c i =>
    let k := s.core c
    let sel := rowSel (tyBits v.ty.toNat) (s.lanesFor c v.ty.toNat)
    if k.maskPending [v.mask.toNat] || s.rowPending c v.a i 1 then .block s 6
    else
      match storeRow s c v i with
      | none => .block s 1
      | some (s1, row) => globalStore s c i v 32 8 row sel (sectorParts (repAddr (k.vbase (memAreg v)) v i true) sel) s1)

/-- The element addresses of a gather or scatter: active lanes only (R321). -/
def laneParts (base m : Nat) (offs : List Nat) : List (Nat × Nat) :=
  ((List.range 64).filter (bitOf m)).map (fun k => (4 * k, (BitVec.ofNat 64 base + BitVec.ofInt 64 (signedOf (offs.getD k 0) 32)).toNat))

/-- VGTH (R321). -/
def execVgth (v : VWord) (s : State) : Host.Outcome State Fault Refusal :=
  let fm := memForm v 1 0 1
  vectorWord (.vgth v) (repsOf v) s (fun _ => operandIf (!formOk v fm)) (fun s c i =>
    let k := s.core c
    let m := s.lanesFor c v.ty.toNat
    if k.maskPending [v.mask.toNat] || s.rowPending c v.d i 1 || s.rowPending c v.b i 1 then .block s 6
    else
      match readSrc s c 32 v.b i 1 with
      | none => .block s 1
      | some (s1, b) =>
        if poisonedSrc s c v.b i 1 then .ok ((s1.memBegin c i v).poisonV c 1760 (s.poisonAddr c i [(v.b, 1)])) 1
        else
          match globalLoad s1 c i v (rowSel 32 m) 4 64 (laneParts (repAddr (k.vbase (memAreg v)) v i false) m (elemsOf 32 (joinRows b))) with
          | .ok t q => .ok (t.afterSrc c v.b i 1) q
          | .fault _ f => .fault (s.dropFailed 0 c f.va.toNat) f
          | .block t sub => .block { s with walks := t.walks, agenda := t.agenda, free := t.free, seq := t.seq } sub)
/-- VSCT (R321): where two active elements name one address, the higher remains. -/
def execVsct (v : VWord) (s : State) : Host.Outcome State Fault Refusal :=
  let fm := memForm v 0 1 1
  vectorWord (.vsct v) (repsOf v) s (fun _ => operandIf (!formOk v fm)) (fun s c i =>
    let k := s.core c
    let m := s.lanesFor c v.ty.toNat
    if k.maskPending [v.mask.toNat] || s.rowPending c v.a i 1 || s.rowPending c v.b i 1 then .block s 6
    else
      match storeRow s c v i with
      | none => .block s 1
      | some (s1, row) =>
        match readSrc s1 c 32 v.b i 1 with
        | none => .block s 1
        | some (s2, b) =>
          if poisonedSrc s c v.b i 1 then .ok ((s2.memBegin c i v).poisonV c 4 (s.poisonAddr c i [(v.b, 1)])) 1
          else
            let parts := laneParts (repAddr (k.vbase (memAreg v)) v i false) m (elemsOf 32 (joinRows b))
            match globalStore s c i v 4 64 row (rowSel 32 m) parts s2 with
            | .ok t q => .ok (t.afterSrc c v.b i 1) q
            | x => x)

/-- VASET: the first 8 bytes of row A, or the popped value, readable from c + 1 (R323). -/
def execVaset (v : VWord) (s : State) : Host.Outcome State Fault Refusal :=
  let fm : VForm := { memForm v 0 1 0 with bits := 64, lat := 1 }
  vectorWord (.vaset v) 1 s (fun _ => operandIf (!formOk v fm))
    (runWith v fm (fun s e lat => s.sendV s.curCore lat (.areg (BitVec.ofNat 3 (memAreg v))) ((joinRows e.a).take 8) 0))
/-- VAADD: aN + x, readable from c + 1 (R323). -/
def execVaadd (v : VWord) (s : State) : Host.Outcome State Fault Refusal :=
  vectorWord (.vaadd v) 1 s (fun _ => none) (fun s c _ =>
    let base := (s.core c).vbase (memAreg v)
    .ok (s.sendV c 1 (.areg (BitVec.ofNat 3 (memAreg v))) (leBytes 8 (base + BitVec.ofInt 64 (memInc v)).toNat) 0) 1)

/-- VMPOS: 256 bits of a bitmap at a bit address that is a multiple of 64; the mask at issue + 1,760, or pending for another package (R228). A
read past a page's end keeps the second part's physical address as the request's group. -/
def execVmpos (v : VWord) (s : State) : Host.Outcome State Fault Refusal :=
  let md := v.e 20 4
  vectorWord (.vmpos v) 1 s (fun _ => none) (fun s c _ =>
    let k := s.core c
    let a := (k.vbase (v.e 5 3)).toNat
    let va := a / 8
    if k.maskPending [md] then .block s 6
    else if a % 64 != 0 then .fault s { code := 0x11, va := BitVec.ofNat 64 va, kind := kindVmpos }
    else
      let first := min 32 (4096 - va % 4096)
      let vas := if first = 32 then [va] else [va, va + 8, va + 16, va + 24]
      match s.letIn c (if first = 32 then 32 else 8) kindVmpos 1 vas with
      | .fault s f => .fault s f
      | .refuse s => .block s 6
      | .ok s pas =>
        let pa := pas.headD 0
        let id := s.seq
        let s1 := s.sendGlobalIn c 1 va pa 32 (.vmpos (BitVec.ofNat 4 md)) 1 k.ve.istamp k.vectorEntry
          (if first = 32 then none else pas[first / 8]?) 0 (s.boundOf c pas)
        .ok (if s.anyRemote pas then
               (if md = 0 then s1
                else s1.modCore c (fun k => { k with m := vset k.m md { vget k.m md {} with pending := some k.ve.istamp } }))
             else s1.post (s.now + 1760) 0 (some c) (.run .globalResultReturn (.nums [id]))) 1)

end Sys2Proof.Machine
end

