-- ==== Sys2Proof/Machine/BankMoves.lean ====
section
/-! DEFINITION. Bank commands of the scalar stream and the transport programs they start (R137, R138, R265, R268 to R271, R307 to R315). -/

namespace Sys2Proof.Machine

/-! ### Commands (R307 to R311) -/

/-- A little-endian field of a command block. -/
def cmdField (b : List Byte) (off n : Nat) : Nat := leNat ((b.drop off).take n)
/-- The fields that R307 keeps zero are zero, and the others within their ranges: kind 0 BKRUN, 1 BKLODE, 2 BKCAL. -/
def cmdOk (kind : Nat) (b : List Byte) : Bool :=
  let z := fun off n => cmdField b off n == 0
  let rest := z 0x18 8
  if kind = 0 then
    cmdField b 0 1 ≤ 31 && cmdField b 1 1 ≤ 31 && cmdField b 2 1 ≤ 15 && z 3 1 && cmdField b 4 2 ≤ 8191 && cmdField b 6 2 ≤ 8191 && rest
  else if kind = 1 then
    cmdField b 0 1 ≤ 15 && cmdField b 1 1 ≤ 15 && cmdField b 2 1 ≤ 15 && cmdField b 3 1 ≤ 31 && cmdField b 6 2 ≤ 2047 && z 8 16 && rest
  else cmdField b 0 1 ≤ 15 && cmdField b 1 1 ≤ 15 && z 2 1 && z 3 1 && z 4 2 && z 6 2 && z 8 16 && rest
/-- Number of NBP planes of a BKLODE block, and A rows they fill (R309). -/
def cmdPlanes (b : List Byte) : Nat := cmdField b 3 1 / 4 % 8 + 1
def cmdRows (b : List Byte) : Nat := cdiv (64 * cmdPlanes b) 256
/-- What the block asks the bank to do. -/
def cmdJob (kind : Nat) (b : List Byte) (planes : List Byte) (bad : Bool) : BankJob :=
  if kind = 0 then
    .prog (cmdField b 1 1) (cmdField b 4 2) (cmdField b 6 2) ((List.range 4).map (fun i => BitVec.ofNat 32 (cmdField b (8 + 4 * i) 4)))
  else if kind = 1 then
    .lode (cmdField b 1 1) planes (cmdPlanes b) (cmdField b 6 2) (cmdField b 3 1 / 2 % 2) (cmdField b 3 1 % 2 == 1) bad
  else .cal (cmdField b 1 1)
/-- The sequence number after n (R271). -/
def nextSeqNo (n : Nat) : Nat := if n = 65535 then 1 else n + 1

/-- A bank command (R308): its faults in order, then a request that arrives at c + 2. -/
def bankCommand (i : Instr) (kind : Nat) (ra : BitVec 5) (kb : BitVec 3) (pol : BitVec 1) (s : State) : Host.Outcome State Fault Refusal :=
  scalarWord i s (fun s c =>
    if kind != 0 && !s.fuse.lode then sfault s 0x03
    else guardRegs s c [ra.toNat]
      (let k := s.core c
       let a := (k.oper 0 ra.toNat).toNat
       let n := (k.bt + kb.toNat) % beatMod
       let rd := k.portRead 0 a 32
       let b := rd.data
       let bank := cmdField b 0 1
       let r0 := cmdField b 4 2
       let s := if a % 32 = 0 && a + 32 ≤ aSize then s.afterRead c 0 a 32 else s
       if a % 32 != 0 then .fault s { code := 0x11, va := BitVec.ofNat 64 a, kind := kindLoad }
       else if aSize < a + 32 then .fault s { code := 0x10, va := BitVec.ofNat 64 a, kind := kindLoad }
       else if rd.poison then .fault s { code := 0x18, va := BitVec.ofNat 64 a, kind := kindLoad }
       else if !cmdOk kind b then sOperand s
       else if !s.isCompute n then sOperand s
       else if kind != 0 && s.isAssay n then sfault s 0x16
       else if kind != 2 && !k.tagPasses c bank (cmdField b 2 1) then .fault s { code := 0x13, kind := kindBank, unit := bank }
       else if kind = 1 && 1536 < r0 + cmdRows b then sOperand s
       else if kind = 1 && k.shadowed (cmdField b 6 2 / 128 * 65536) then sfault s 0x08
       else if !k.bankRoom bank then .block s 6
       else
         let src := k.portRead 0 (256 * r0) (64 * cmdPlanes b)
         let s1 := if kind = 1 then s.afterRead c 0 (256 * r0) (64 * cmdPlanes b) else s
         let r : BankReq := { id := s.seq, core := c, bank, word := cmdField b 4 2, words := 0, beat := n, slide := pol == 1, src := 2 + bank, iseq := s.seq
                              seqNo := (k.bank bank).nextSeq, tag := cmdField b 2 1, stamp := k.sc.istamp, rep := 0
                              entry := { k.scalarEntry with own := false }, job := cmdJob kind b src.data src.poison }
         .ok ((s1.modBank c bank (fun x => { x with nextSeq := nextSeqNo x.nextSeq })).sendBank c r (s.now + 2)) 1 none))
/-- BKRUN (R308). -/
def execBkrun (g : BitVec 2) (a : BitVec 5) (k : BitVec 3) (p : BitVec 1) (s : State) : Host.Outcome State Fault Refusal :=
  bankCommand (.bkrun g a k p) 0 a k p s
/-- BKLODE (R308, R309). -/
def execBklode (g : BitVec 2) (a : BitVec 5) (k : BitVec 3) (p : BitVec 1) (s : State) : Host.Outcome State Fault Refusal :=
  bankCommand (.bklode g a k p) 1 a k p s
/-- BKCAL (R308, R310). -/
def execBkcal (g : BitVec 2) (a : BitVec 5) (k : BitVec 3) (p : BitVec 1) (s : State) : Host.Outcome State Fault Refusal :=
  bankCommand (.bkcal g a k p) 2 a k p s
/-- BKST (R311). -/
def execBkst (g : BitVec 2) (d b : BitVec 5) (s : State) : Host.Outcome State Fault Refusal :=
  scalarWord (.bkst g d b) s (fun s c =>
    guardRegs s c [d.toNat] (.ok (s.toReg c d (((s.core c).bank b.toNat).seen s.now) 1) 1 none))

/-! ### How programs start and end (R268, R312, R315) -/

/-- A program ends in this cycle: with code 0 or a fault; the next one may start in the next cycle (R268). -/
def State.endProgram (s : State) (c b : Nat) (e : Engine) (code : Nat) : State :=
  (s.modBank c b (fun x => { x with engine := none, ended := x.ended ++ [(e.req, code, e.once)] })).post (s.now + 1) 1 none
    (.run .bankProgramStart (.nums [c, b]))
/-- A move of a bank's program issues at a cycle. -/
def State.postMove (s : State) (c b at_ : Nat) : State := s.post at_ 2 none (.issue c (.bank (BitVec.ofNat 5 b)))
/-- The next program of a bank for the open beat: those whose beat has closed before they started, then the least (source unit, issue
sequence) among those of the beat (R268). -/
def Bank.nextProg (b : Bank) (beat : Nat) : Option BankReq :=
  (sortReqs b.waits ++ sortReqs (b.queue.filter (fun r => r.isProg 0 32 && !b.started r.id && r.beat == beat))).head?
/-- A program that has started waits no more. -/
def Bank.leave (b : Bank) (id : Nat) : Bank := { b with waits := b.waits.filter (fun r => r.id != id) }
/-- The engine's state as a program starts (R312). -/
def engineFor (k : Core) (r : BankReq) : Engine :=
  match r.job with
  | .prog slot aa ab _ => { req := r, code := Table.getD k.act.progs slot [], aa, ab }
  | _ => { req := r, code := [], aa := 0, ab := 0 }
/-- BANK_PROGRAM_START (R268): a suspended program resumes, or the next one of the open compute beat starts; an empty slot fails it. -/
def execBankProgramStart (s : State) : Host.Outcome State Fault Refusal :=
  match s.arg with
  | .nums [c, b] =>
    let bk := (s.core c).bank b
    let n := (s.coreBeat c).1
    if !s.isCompute n || s.pastF c c n then .next s
    else
      match bk.engine with
      | some e =>
        if e.suspended then .next ((s.modBank c b (fun x => { x with engine := some { e with suspended := false } })).postMove c b s.now) else .next s
      | none =>
        match bk.nextProg n with
        | some r =>
          let e := engineFor (s.core c) r
          let s := s.modBank c b (fun x => x.leave r.id)
          if e.code.isEmpty then .next (s.endProgram c b e 0x17)
          else .next ((s.modBank c b (fun x => { x with engine := some e })).postMove c b s.now)
        | none => .next s
  | _ => .next s

/-! ### Moves (R137, R138, R313, R314) -/

/-- A moved value: a scalar, or a word of 32 bytes. -/
inductive MvVal where
  | scalar (v : Nat)
  | word (w : List Byte)
  deriving DecidableEq, Repr

/-- Element width of a MODE value in bits, and saturation (R138). -/
def modeBits (m : Nat) : Nat := 8 * 2 ^ (m % 4)
def modeSat (m : Nat) : Bool := bitOf m 2
/-- A value as a word: a scalar is broadcast, each element taking its low bits (R313). -/
def MvVal.toWord (v : MvVal) (mode : Nat) : List Byte :=
  match v with
  | .word w => w
  | .scalar x => packElems (modeBits mode) (List.replicate (256 / modeBits mode) (x % 2 ^ modeBits mode))
/-- A value as a scalar: bytes 0..3 of a word (R313). -/
def MvVal.toScalar : MvVal → Nat
  | .scalar x => x
  | .word w => leNat (w.take 4)

/-- A result clamped or wrapped, with its flag (R314). -/
def unitFit (bits : Nat) (sat : Bool) (v : Int) : Nat × Nat :=
  let lo : Int := -(2 ^ (bits - 1))
  let hi : Int := 2 ^ (bits - 1) - 1
  if lo ≤ v ∧ v ≤ hi then (wrapTo bits v, 0)
  else if sat then (wrapTo bits (if v < lo then lo else hi), flSAT)
  else (wrapTo bits v, flIW)
/-- One element of functional unit k: trigger t, operand o (R314). -/
def unitElem (k bits : Nat) (sat : Bool) (t o : Nat) : Nat × Nat :=
  let st := signedOf t bits
  let so := signedOf o bits
  match k with
  | 0 => unitFit bits sat (st + so)
  | 1 => unitFit bits sat (st - so)
  | 2 => unitFit bits sat (st * so)
  | 3 => (if bits ≤ o then 0 else t * 2 ^ o % 2 ^ bits, 0)
  | 4 => (if bits ≤ o then 0 else t / 2 ^ o, 0)
  | 5 => (wrapTo bits (if bits ≤ o then (if st < 0 then -1 else 0) else st / 2 ^ o), 0)
  | 6 => (t &&& o, 0)
  | 7 => (t ||| o, 0)
  | 8 => (t ^^^ o, 0)
  | 9 => (if st ≤ so then t else o, 0)
  | 10 => (if st ≤ so then o else t, 0)
  | _ => (if t = o then 2 ^ bits - 1 else 0, 0)
/-- A functional unit over a word (R314). -/
def unitWord (k mode : Nat) (t o : List Byte) : List Byte × Nat :=
  let b := modeBits mode
  let rs := List.zipWith (fun x y => unitElem k b (modeSat mode) x y) (elemsOf b t) (elemsOf b o)
  (packElems b (rs.map Prod.fst), rs.foldl (fun a r => a ||| r.2) 0)

/-- What a move's source gives: the value, the engine after a post-increment, and the fault code of a word that is poisoned or that the access
table does not let the bank engine of core c read, 0 for none (R278, R298); none for a port that is no source (R137, R313). -/
def mvSource (k : Core) (c b : Nat) (e : Engine) (src : Nat) (imm : BitVec 16) : Option (MvVal × Engine × Nat) :=
  let args := match e.req.job with | .prog _ _ _ l => l | _ => []
  let rd := fun a => k.portRead 3 (seamAddr b a) 32
  let bad := fun a => if !k.seamRead (coreMaster 2 c) (seamAddr b a) 32 then 0x13 else if (rd a).poison then 0x18 else 0
  if src = 0x00 then some (.scalar 0, e, 0)
  else if src = 0x01 then some (.scalar imm.toNat, e, 0)
  else if 0x02 ≤ src && src ≤ 0x05 then some (.scalar (args.getD (src - 2) 0).toNat, e, 0)
  else if src = 0x10 then some (.word (rd e.aa).data, { e with aa := (e.aa + e.ainc) % 8192 }, bad e.aa)
  else if src = 0x11 then some (.word (rd e.ab).data, { e with ab := (e.ab + e.binc) % 8192 }, bad e.ab)
  else if src = 0x14 then some (.scalar e.ainc, e, 0)
  else if src = 0x15 then some (.scalar e.binc, e, 0)
  else if src = 0x18 then some (.scalar e.aa, e, 0)
  else if src = 0x19 then some (.scalar e.ab, e, 0)
  else if 0x40 ≤ src && src ≤ 0x4B then some (.word (vget e.res (src - 0x40) []), e, 0)
  else if src = 0x60 then some (.scalar e.mode, e, 0)
  else if src = 0x61 then some (.scalar e.cnt, e, 0)
  else none

/-- The ports that a move may write to (R137). -/
def mvDestPort (dst : Nat) : Bool :=
  dst == 0x00 || dst == 0x12 || dst == 0x13 || dst == 0x14 || dst == 0x15 || dst == 0x18 || dst == 0x19 || (decide (0x20 ≤ dst) && decide (dst ≤ 0x37))
    || dst == 0x60 || dst == 0x61 || dst == 0x62 || dst == 0x63
/-- What a move's destination does: the engine afterwards, a bank write (word, bytes), flags, the next move; or the program's end. -/
inductive MvOut where
  | go (e : Engine) (write : Option (Nat × List Byte)) (flags : Nat) (next : Nat)
  | done
  | stop
  deriving DecidableEq, Repr

/-- A move's destination (R137, R138, R313, R315). -/
def mvDest (e : Engine) (dst : Nat) (v : MvVal) : MvOut :=
  let nx := e.idx + 1
  let n := v.toScalar
  if dst = 0x00 then .go e none 0 nx
  else if dst = 0x12 then .go { e with aa := (e.aa + e.ainc) % 8192 } (some (e.aa, v.toWord e.mode)) 0 nx
  else if dst = 0x13 then .go { e with ab := (e.ab + e.binc) % 8192 } (some (e.ab, v.toWord e.mode)) 0 nx
  else if dst = 0x14 then .go { e with ainc := n % 8192 } none 0 nx
  else if dst = 0x15 then .go { e with binc := n % 8192 } none 0 nx
  else if dst = 0x18 then .go { e with aa := n % 8192 } none 0 nx
  else if dst = 0x19 then .go { e with ab := n % 8192 } none 0 nx
  else if 0x20 ≤ dst && dst ≤ 0x37 && dst % 2 == 0 then .go { e with ops := vset e.ops ((dst - 0x20) / 2) (v.toWord e.mode) } none 0 nx
  else if 0x20 ≤ dst && dst ≤ 0x37 then
    let u := (dst - 0x20) / 2
    let r := unitWord u e.mode (v.toWord e.mode) (vget e.ops u [])
    .go { e with res := vset e.res u r.1 } none r.2 nx
  else if dst = 0x60 then
    let m := n % 65536
    if m % 4 = 3 || 8 ≤ m then .stop else .go { e with mode := m } none 0 nx
  else if dst = 0x61 then .go { e with cnt := n } none 0 nx
  else if dst = 0x62 then
    if 128 ≤ n || e.code.length ≤ n then .stop
    else if 0 < e.cnt then .go { e with cnt := e.cnt - 1 } none 0 n
    else .go e none 0 nx
  else if dst = 0x63 then .done
  else .stop

/-- MV: one move of the program that runs in the bank of the cursor (R312, R313). A read of a poisoned word ends the program with POISON
(R278), one that is not allowed with ACCESS_DENIED (R298). -/
def execMv (src dst : BitVec 8) (imm : BitVec 16) (s : State) : Host.Outcome State Fault Refusal :=
  match s.curStrm with
  | .bank bb =>
    let c := s.curCore
    let b := bb.toNat
    match ((s.core c).bank b).engine with
    | some e =>
      -- what is wrong with the word itself comes before anything is read
      if (src ≠ 1 ∧ imm ≠ 0) ∨ mvDestPort dst.toNat = false then .next (s.endProgram c b e 0x17)
      else
        match mvSource (s.core c) c b e src.toNat imm with
        | none => .next (s.endProgram c b e 0x17)
        | some (v, e1, bad) =>
          let a := if src = 0x10 then e.aa else e.ab
          let s := if (src = 0x10 ∨ src = 0x11) ∧ bad ≠ 0x13 then s.afterRead c 3 (seamAddr b a) 32 else s
          if bad ≠ 0 then .next (s.endProgram c b e bad)
          else
            match mvDest e1 dst.toNat v with
            | .stop => .next (s.endProgram c b e 0x17)
            | .done => .next (s.endProgram c b e1 0)
            | .go e2 wr fl nx =>
              let s := s.orBflags c fl
              let s := match wr with
                | some (w, data) => s.modBank c b (fun x =>
                    { x with writes := x.writes ++
                        [({ src := e.req.src, iseq := e.req.iseq, addr := seamAddr b w, data, sel := [], tag := e.req.tag } : BankWrite)] })
                | none => s
              if e.code.length ≤ nx then .next (s.endProgram c b e2 0x17)
              else .next ((s.modBank c b (fun x => { x with engine := some { e2 with idx := nx } })).postMove c b (s.now + 1))
    | none => .next s
  | _ => .next s

/-- The move that a bank's program issues now. -/
def State.moveAt (s : State) (c b : Nat) : Option Instr :=
  match ((s.core c).bank b).engine with
  | some e => if e.suspended then none else (e.code[e.idx]?).map (fun w => decodeMove w.toNat)
  | none => none

end Sys2Proof.Machine
end

