-- ==== Sys2Proof/Machine/Kernel.lean ====
section
/-! DEFINITION. A kernel's streams in its opened bundle (R29, R31, R47), the plane loader (R79 to R82), the plane flip (R83, R85) and the array lease (R198 to R201). -/

namespace Sys2Proof.Machine

/-! ### Sections (R29, R31) -/

/-- Section type codes: four ASCII characters, little-endian (R29, R31). -/
def tyCTRL : Nat := 0x4C525443
def tySCAL : Nat := 0x4C414353
def tyVECT : Nat := 0x54434556
def tyMATX : Nat := 0x5854414D
def tyBANK : Nat := 0x4B4E4142
def tySYNC : Nat := 0x434E5953
def tyTREE : Nat := 0x45455254
def tyBEAT : Nat := 0x54414542
def tyPORT : Nat := 0x54524F50
def tyDATA : Nat := 0x41544144
def tyRELO : Nat := 0x4F4C4552
/-- Stream code of a native section type: 0 SCAL, 1 VECT, 2 MATX, 3 BANK. -/
def streamCode (ty : Nat) : Option Nat :=
  if ty = tySCAL then some 0 else if ty = tyVECT then some 1 else if ty = tyMATX then some 2 else if ty = tyBANK then some 3 else none

/-- A slice of a byte list. -/
def sliceOf (l : List Byte) (off n : Nat) : List Byte := (l.drop off).take n
/-- A little-endian field of a byte list. -/
def fieldLE (l : List Byte) (off n : Nat) : Nat := leNat (sliceOf l off n)

/-- The bytes of a section. -/
def Bundle.sectBytes (b : Bundle) (x : Sect) : List Byte := sliceOf b.bytes x.off x.len
/-- The streams a kernel runs from: its retimed list where there is one, else its native sections (R47). -/
def Bundle.streams (b : Bundle) (kernel : Nat) : List StreamSect :=
  match Table.find? b.retimed kernel with
  | some r => r.sects
  | none =>
    b.sects.filterMap (fun x =>
      if x.kernel = kernel then (streamCode x.ty).map (fun c => { ty := c, ovl := x.inst, bytes := b.sectBytes x }) else none)
/-- The bundle of a launch. -/
def State.launchBundle (s : State) (gen : Nat) : Option Bundle :=
  match s.launch? gen with
  | some l => (s.proc? l.spid).bind (fun p => Table.find? p.bundles l.pkt.bundle)
  | none => none
/-- The streams of a kernel of a launch. -/
def State.kernelStreams (s : State) (gen kernel : Nat) : List StreamSect :=
  match s.launchBundle gen with
  | some b => b.streams kernel
  | none => []
/-- The bytes of one stream of an overlay. -/
def streamBytes (l : List StreamSect) (ty ovl : Nat) : List Byte :=
  match l.find? (fun x => x.ty == ty && x.ovl == ovl) with
  | some x => x.bytes
  | none => []
/-- Whether an overlay exists: it has a SCAL section (R31). -/
def hasOverlay (l : List StreamSect) (ovl : Nat) : Bool := l.any (fun x => x.ty == 0 && x.ovl == ovl)
/-- The highest overlay number of a kernel (R86). -/
def lastOverlay (l : List StreamSect) : Nat := (l.filter (fun x => x.ty == 0)).foldl (fun a x => max a x.ovl) 0
/-- B of an overlay: the sum of its section lengths (R80). -/
def overlayBytes (l : List StreamSect) (ovl : Nat) : Nat :=
  (l.filter (fun x => x.ovl == ovl)).foldl (fun a x => a + x.bytes.length) 0

/-- Bank program records (R33): number, move count, moves; `fuel` bounds the records. -/
def bankPrograms : Nat → List Byte → Table (List Word32)
  | 0, _ => []
  | fuel + 1, l =>
    if l.length < 4 then []
    else
      let n := fieldLE l 2 2
      let moves := (chunksOf 4 n (sliceOf l 4 (4 * n))).map (fun b => BitVec.ofNat 32 (leNat b))
      Table.put (bankPrograms fuel (l.drop (4 + 4 * n))) (fieldLE l 0 2) moves

/-- A plane as the loader leaves it with an overlay: streams and bank programs loaded, tile table invalid (R79). -/
def planeOf (l : List StreamSect) (ovl : Nat) : Plane :=
  let sc := streamBytes l 0 ovl
  let ve := streamBytes l 1 ovl
  let mx := streamBytes l 2 ovl
  { ovl := some ovl, ready := true
    scal := (chunksOf 4 (sc.length / 4) sc).map (fun b => BitVec.ofNat 32 (leNat b))
    vect := (chunksOf 12 (ve.length / 12) ve).map (fun b => BitVec.ofNat 96 (leNat b))
    matx := (chunksOf 24 (mx.length / 24) mx).map (fun b => BitVec.ofNat 192 (leNat b))
    progs := bankPrograms 33 (streamBytes l 3 ovl), tiles := [] }

/-! ### The plane loader (R80, R81) -/

/-- Start the next overlay of a die's loader, if it is idle and one is asked for. -/
def State.pumpLoader (s : State) (die : Nat) : State :=
  let d := vget s.dies die {}
  if d.loading then s
  else
    match d.loads with
    | (gen, kernel, ovl, _) :: _ =>
      let cycles := cdiv (overlayBytes (s.kernelStreams gen kernel) ovl) 256 + 64
      let s := { s with dies := vset s.dies die { d with loading := true } }
      s.post (s.now + cycles) 1 none (.run .overlayLoad (.nums [die]))
    | [] => s
/-- Ask a die's loader for an overlay of a kernel of a launch; requests are served in order (R80). -/
def State.askOverlay (s : State) (die gen kernel ovl : Nat) : State :=
  let d := vget s.dies die {}
  ({ s with dies := vset s.dies die { d with loads := d.loads ++ [(gen, kernel, ovl, s.now)] } } : State).pumpLoader die
/-- The cores of a stope that run a kernel. -/
def State.kernelCores (s : State) (t : Stope) (kernel : Nat) : List Nat := t.cores.filter (fun c => (s.core c).bnd.kernel == kernel)
/-- After a plane has become active on a core: when every core of its stope that runs the kernel has it, ask for the next overlay (R81). -/
def State.afterFlip (s : State) (c : Nat) : State :=
  match s.stopeOf c with
  | some t =>
    let k := s.core c
    let cur := k.act.ovl.getD 0
    let all := (s.kernelCores t k.bnd.kernel).all (fun x => (s.core x).act.ovl == some cur)
    if all && hasOverlay (s.kernelStreams t.gen k.bnd.kernel) (cur + 1) then s.askOverlay t.die t.gen k.bnd.kernel (cur + 1) else s
  | none => s

/-- A trigger action that pushes a block (R85, R361): KIND 2. -/
def pushesBlock (action : Word64) : Bool := action.toNat % 16 == 2

/-- Flip the planes of a core (R83, R85): what is kept stays, firings take the contributions of their entries along, targets become unprepared, loops end, the tile table is the new plane's,
triggers that push blocks are disarmed; the plane that has become shadow waits for its next overlay. -/
def Core.flip (k : Core) : Core :=
  let old := k.act
  let new := { k.shadow with tiles := [] }
  { k with plane := vset (vset k.plane k.active { old with ready := false }) (1 - k.active) new
           fires := k.fires.map (fun f =>
             match Table.find? old.tiles f.entry with
             | some e => if e.firing = some f.id then { f with contribs := e.contribs } else f
             | none => f)
           active := 1 - k.active
           b := k.b.map (fun x => { x with prepared := false })
           lp := Vector.replicate 4 {}
           trig := k.trig.map (fun t => if t.armed && pushesBlock t.action then { t with armed := false } else t) }

/-! ### The array lease (R198 to R201, R235) -/

/-- A quad's array. -/
def State.quad (s : State) (q : Nat) : Quad := Table.getD s.quads q {}
/-- Put a quad's array. -/
def State.setQuad (s : State) (q : Nat) (x : Quad) : State := { s with quads := Table.put s.quads q x }
/-- This core holds the array. -/
def Quad.heldBy (q : Quad) (i : Nat) : Bool := q.holder == some i
/-- This core's request is pending. -/
def Quad.requested (q : Quad) (i : Nat) : Bool := q.reqs.any (fun r => r.1 == i)
/-- Let the array be granted at a cycle (R199). -/
def State.postGrant (s : State) (q at_ : Nat) : State := s.post at_ 1 none (.run .leaseGrant (.nums [q]))
/-- A core's lease ends or its request is withdrawn (R200, R204). -/
def State.dropLease (s : State) (c : Nat) : State :=
  let q := quadOf c
  let x := s.quad q
  let i := quadIndex c
  let s' := s.setQuad q { x with holder := if x.heldBy i then none else x.holder, left := if x.heldBy i then 0 else x.left
                                 last := if x.heldBy i then i else x.last, reqs := x.reqs.filter (fun r => r.1 != i) }
  if x.heldBy i then s'.postGrant q (s.now + 1) else s'

/-! ### Parts and retirement's moment (R63, R408) -/

/-- The fabric packages that take part (R63). -/
def Launch.parts (l : Launch) : List Nat :=
  (List.range l.pkgs.length).filterMap (fun p => if l.insts.any (fun i => i.level ≤ 5 && i.pkg == p) then l.pkgs[p]? else none)

/-- The cores of a launch on this package. -/
def State.launchCores (s : State) (gen : Nat) : List Nat :=
  (s.stopes.filter (fun t => t.gen == gen)).flatMap (fun t => t.cores)
/-- When every core of a launch has halted, its retirement is looked at (R408). -/
def State.checkRetire (s : State) (gen : Nat) : State :=
  let cs := s.launchCores gen
  if !cs.isEmpty && cs.all (fun c => (s.core c).sc.halted) then s.post s.now 3 none (.run .retirement (.nums [gen])) else s

end Sys2Proof.Machine
end

