-- ==== Sys2Proof/Machine/VectorCtl.lean ====
section
/-! DEFINITION. Block control of the vector stream, C-tile synchronisation, and how blocks of both engines start and end (R92, R93, R233, R234, R249). -/

namespace Sys2Proof.Machine

/-- The block queue of a stream. -/
def Core.blocks (k : Core) : Strm → Queue BlkEntry
  | .matrix => k.bqm
  | _ => k.bqv
/-- Put the block queue of a stream. -/
def Core.setBlocks (k : Core) (q : Queue BlkEntry) : Strm → Core
  | .matrix => { k with bqm := q }
  | _ => { k with bqv := q }

/-- A pass of the running block ends (R92, R93): the block runs again, or its entry leaves the queue and the next one follows, or the stream
is idle from the next cycle on (R256). -/
def State.endPass (s : State) (c : Nat) (strm : Strm) : State :=
  let k := s.core c
  let st := k.strm strm
  if !st.standsOn then (s.modStrm c strm StreamSt.endWord).engineGoOn c strm 1
  else
    let q := k.blocks strm
    let s := match q.items with
      | [] => s.modStrm c strm (fun x => { x.endWord with live := false, idleFrom := s.now + 1 })
      | (p, e) :: r =>
        if 1 < e.left then
          (s.setCore c (k.setBlocks { q with items := (p, { e with left := e.left - 1 }) :: r } strm)).modStrm c strm
            (fun x => { x.endWord with next := e.addr })
        else
          (s.setCore c (k.setBlocks (q.pop s.now) strm)).modStrm c strm (fun x =>
            match r with
            | (_, e') :: _ => { x.endWord with next := e'.addr }
            | [] => { x.endWord with live := false, idleFrom := s.now + 1 })
    s.engineGoOn c strm 1

/-- BLOCK_START (R93): an idle stream finds an entry and issues its first word after that word's gap; a halted core issues nothing more (R204). -/
def execBlockStart (s : State) : Host.Outcome State Fault Refusal :=
  match s.arg with
  | .strm c strm =>
    let k := s.core c
    let st := k.strm strm
    match (k.blocks strm).items with
    | (p, e) :: _ =>
      if st.live || k.sc.halted || !st.replay.isEmpty || s.now ≤ p then .next s
      else .next ((s.modStrm c strm (fun x => { x with live := true, next := e.addr })).postIssue c strm (s.now + k.gapAt strm e.addr))
    | [] => .next s
  | _ => .next s

/-- VEND: one pass of the block ends (R233). -/
def execVend (v : VWord) (s : State) : Host.Outcome State Fault Refusal :=
  let c := s.curCore
  if (Instr.vend v).wf then .next (s.endPass c .vector) else finishVector c 1 (vfault s 0x01)
/-- VNOP n: occupies 1 + n cycles (R233). -/
def execVnop (v : VWord) (s : State) : Host.Outcome State Fault Refusal :=
  vectorWord (.vnop v) 1 s (fun _ => none) (fun s _ _ => .ok s (1 + v.e 0 24))

/-- VTILE wait: at each repeat the tile's bit must equal the state (R206, R234). -/
def execVtileWait (v : VWord) (s : State) : Host.Outcome State Fault Refusal :=
  vectorWord (.vtileWait v) (repsOf v) s (fun _ => none) (fun s c _ =>
    if bitOf (s.core c).sr.tfull.toNat (v.e 20 4) == (v.e 18 1 == 1) then .ok s 1 else .block s 3)
/-- VTILE mark: the bit changes 8 cycles after each repeat (R206, R234). -/
def execVtileMark (v : VWord) (s : State) : Host.Outcome State Fault Refusal :=
  vectorWord (.vtileMark v) (repsOf v) s (fun _ => none) (fun s c _ =>
    .ok (s.post (s.now + 8) 3 (some c) (.run .fullBitChange (.nums [c, v.e 20 4, v.e 18 1]))) 1)

end Sys2Proof.Machine
end

