-- ==== Sys2Proof/Machine/Matrix.lean ====
section
/-! DEFINITION. The matrix stream: format words, tile commands and their checks, the stationary planes, accumulation and the drain epilogue (R94, R95, R133 to R136, R156, R157, R235 to R256). -/

namespace Sys2Proof.Machine

/-! ### Format words (R134 to R136, R238) -/

/-- A field of a format word. -/
def fwBits (f : Word64) (lo n : Nat) : Nat := bitsOf f.toNat lo n
def fwA (f : Word64) : Nat := fwBits f 0 4
def fwW (f : Word64) : Nat := fwBits f 4 4
def fwAcc (f : Word64) : Nat := fwBits f 8 4
def fwRound (f : Word64) : Nat := fwBits f 12 3
def fwOut (f : Word64) : Nat := fwBits f 15 4
def fwHad (f : Word64) : Nat := fwBits f 19 2
/-- Hadamard points: 0 for none. -/
def hadPoints (f : Word64) : Nat := if fwHad f = 0 then 0 else 8 * 2 ^ fwHad f
/-- Hadamard on the A operand. -/
def hadOnA (f : Word64) : Bool := fwHad f != 0 && fwBits f 21 1 == 0
/-- Hadamard before quantisation. -/
def hadOnDrain (f : Word64) : Bool := fwHad f != 0 && fwBits f 21 1 == 1
def fwResidual (f : Word64) : Bool := fwBits f 22 1 == 1
def fwDropout (f : Word64) : Bool := fwBits f 23 1 == 1
def fwScale (f : Word64) : Bool := fwBits f 24 1 == 1
/-- The S-space byte address of the scales. -/
def fwScaleAddr (f : Word64) : Nat := 32 * fwBits f 25 16
def fwGroup (f : Word64) : Nat := fwBits f 41 4

/-- The type pairs of R135 with their accumulate type. -/
def pairOk (a w acc : Nat) : Bool :=
  ((a == 6 && w == 6) || (a == 10 && w == 10) || ((a == 8 || a == 9) && (w == 8 || w == 9)) || (a == 12 && w == 12) || (a == 13 && w == 13)) && acc == 7
    || ((a == 0 || a == 1) && w == 0 || a == 11 && w == 11) && acc == 4
/-- K elements per scale of groups 1 to 3 (R134). -/
def groupSize (g : Nat) : Nat := 16 * 2 ^ g
/-- Footprint of the scales in S-space (R242). -/
def footprint (f : Word64) : Nat :=
  if fwGroup f = 0 || fwGroup f == 4 then 512 else 512 * (2048 / tyBits (fwW f)) / groupSize (fwGroup f)
/-- The checks of R136. -/
def fwValid (f : Word64) : Bool :=
  fwBits f 45 19 == 0 && fwA f ≤ 13 && fwW f ≤ 13 && fwAcc f ≤ 13 && fwRound f ≤ 4 && fwOut f ≤ 13 && fwGroup f ≤ 4
    && pairOk (fwA f) (fwW f) (fwAcc f) && (!fwScale f || fwScaleAddr f + footprint f ≤ 65536)
/-- A type pair is integer. -/
def fwInt (f : Word64) : Bool := fwAcc f == 4
/-- The checks of R238 that concern the word alone. -/
def fwSound (f : Word64) : Bool :=
  !(fwScale f && 1 ≤ fwGroup f && fwGroup f ≤ 3 && (fwInt f || fwA f == 13))
    && !(hadOnA f && (isIntTy (fwA f) || fwA f == 13))
    && !(fwRound f == 4 && isIntTy (fwOut f))
/-- The checks of R238 against the active plane of an MSTEP: its W type, and K a multiple of the Hadamard size. -/
def fwFits (f : Word64) (p : ArrPlane) : Bool := p.st == 2 && p.wt == fwW f && (!hadOnA f || p.k % hadPoints f == 0)

/-! ### Rows on their way, and how a tile command ends -/

/-- What a row of the command in issue remembers of it. -/
def State.rowOf_ (s : State) (c idx : Nat) (poison : Bool) (pva : Nat := 0) : RowOf :=
  let k := s.core c
  { stamp := k.mx.istamp, icyc := k.mx.icyc, word := BitVec.ofNat 192 (k.curWord .matrix), fw := k.mx.fw, idx, poison, pva, draw := k.mx.fwd }

/-- What one row of a tile command comes to: it has issued and occupies `q` cycles, `last` when the command is done; a fault; a blocking
condition; an empty format queue. -/
inductive MOut where
  | ok (s : State) (q : Nat) (last : Bool)
  | fault (s : State) (f : FaultRec)
  | block (s : State) (sub : Nat)
  | noFormat (s : State)

/-- Go on after a row (R90, R245, R247). -/
def State.rowDone (s : State) (c q : Nat) (last : Bool) : State :=
  if last then
    (s.modStrm c .matrix (fun st => { st.endWord with next := if st.standsOn then st.widx + 1 else st.next, busyTo := s.now + q })).engineGoOn c .matrix q
  else (s.modStrm c .matrix (fun st => { st with sub := st.sub + 1, stall := false })).postIssue c .matrix (s.now + q)
/-- How a matrix word ends (R96, R97, R237). -/
def finishMatrix (c : Nat) : MOut → Host.Outcome State Fault Refusal
  | .ok s q last => .next (s.rowDone c q last)
  | .fault s f => .next (s.raiseIn c { f with source := 2 } .matrix (s.core c).matrixEntry)
  | .block s sub => .next (s.blocked c .matrix sub (s.core c).matrixEntry)
  | .noFormat s =>
    .next (if s.elastic c then s.stall c .matrix else s.raiseIn c { code := 0x05, source := 2 } .matrix (s.core c).matrixEntry)
/-- A plain fault of the matrix stream. -/
def mfault (s : State) (code : Nat) : MOut := .fault s { code }

/-- The running block's speculative bit and tag (R94). -/
def Core.blockTag (k : Core) : Bool × Nat :=
  match k.bqm.items with
  | (_, e) :: _ => (e.spec, e.tag)
  | [] => (false, 0)
/-- The word carries its block's speculative bit and tag (R94). -/
def Core.carries (k : Core) (w : MWord) : Bool :=
  let b := k.blockTag
  (w.spec == 1) == b.1 && (if b.1 then w.tag.toNat == b.2 else w.tag == 0)
/-- The speculative tag of a word. -/
def specTagOf (w : MWord) : Option Nat := if w.spec = 1 then some w.tag.toNat else none

/-- The row in issue is the first of this issue: of a fresh command, or of a re-injected one (R398). -/
def StreamSt.firstRow (st : StreamSt) : Bool :=
  st.sub == 0 || (st.ovr.isSome && (match st.replay with | e :: _ => e.next == st.sub | [] => true))

/-- The lease (R198, R200, R237): none where the command may run. A command whose earlier rows have run already used its lease command. -/
def State.leaseOut (s : State) (c : Nat) : Option (State → MOut) :=
  let q := s.quad (quadOf c)
  let i := quadIndex c
  if (s.core c).mx.sub != 0 || q.heldBy i then none
  else if q.requested i then some (fun s => .block s 7)
  else some (fun s => mfault s 0x06)
/-- A tile command issues: it uses one command of the lease, which ends with its last, and occupies the array (R199, R236). -/
def State.useLease (s : State) (c occ : Nat) : State :=
  let q := s.quad (quadOf c)
  let i := quadIndex c
  if q.heldBy i then
    let s := s.setQuad (quadOf c) { q with busyTo := s.now + occ, left := q.left - 1 }
    if q.left ≤ 1 then
      (s.setQuad (quadOf c) { q with busyTo := s.now + occ, left := 0, holder := none, last := i }).postGrant (quadOf c) (s.now + occ)
    else s
  else s.setQuad (quadOf c) { q with busyTo := s.now + occ }
/-- A later row of a command that has slipped occupies the array longer (R96, R236). -/
def State.holdArray (s : State) (c occ : Nat) : State :=
  let q := s.quad (quadOf c)
  s.setQuad (quadOf c) { q with busyTo := max q.busyTo (s.now + occ) }

/-- The format word of a command (R237 step 3): the one it holds, or the head of QS2M, which is popped. -/
def State.popFormat (s : State) (c : Nat) : Option (State × Word64) :=
  let k := s.core c
  match k.mx.fw with
  | some f => some (s, f)
  | none =>
    if k.qs2m.canPop s.now then
      let f := k.qs2m.head?.getD 0
      some (s.setCore c { k with qs2m := k.qs2m.pop s.now, mx := { k.mx with fw := some f } }, f)
    else none

/-- A shadow of a tile exists (R95). -/
def Core.tileShadow (k : Core) (t : Nat) : Bool := k.shadows.any (fun x => x.tile == t)
/-- The shadow of a tile under a tag exists. -/
def Core.ownShadow (k : Core) (tag t : Nat) : Bool := k.shadows.any (fun x => x.tile == t && x.tag == tag)
/-- SPEC_LIMIT (R95): a plain access to a shadowed tile; a third shadow; a shadow of the tile under another tag. -/
def Core.specBlocked (k : Core) (w : MWord) : Bool :=
  let t := w.tile.toNat
  match specTagOf w with
  | none => k.tileShadow t
  | some g => !k.ownShadow g t && decide (2 ≤ k.shadows.length)
/-- Allocate the shadow that a speculative write needs (R95). -/
def Core.allocShadow (k : Core) (w : MWord) : Core :=
  match specTagOf w with
  | none => k
  | some g => if k.ownShadow g w.tile.toNat then k else { k with shadows := k.shadows ++ [{ tag := g, tile := w.tile.toNat, mem := [] }] }

/-- Run a row of a tile command: R237's steps 1 and 2 before the first row, then `f`. -/
def matrixWord (i : Instr) (w : MWord) (specOk : Bool) (bad : Bool) (s : State) (f : State → Nat → Nat → MOut) : Host.Outcome State Fault Refusal :=
  let c := s.curCore
  let k := s.core c
  finishMatrix c
    (if !k.mx.firstRow then f s c k.mx.sub
     else if !i.wf || !k.carries w || (w.spec == 1 && !specOk) then mfault s 0x01
     else if bad then mfault s 0x02
     else
       match s.leaseOut c with
       | some out => out s
       | none => f s c k.mx.sub)

/-! ### Planes (R243, R244) -/

/-- Bytes of a stationary block (R240, R243). -/
def blockBytes (wt k n : Nat) : Nat := k * n * tyBits wt / 8 + if wt = 13 then k / 32 * n else 0
/-- The first access beat whose opening at a core is at or after a cycle: its number and its opening there; `fuel` bounds the beats. -/
def State.accessFrom (s : State) (cyc : Nat) : Nat → Nat → Nat → Nat → Nat × Nat
  | 0, n, open_, _ => (n, open_)
  | fuel + 1, n, open_, len =>
    if s.isAccess n && cyc ≤ open_ then (n, open_)
    else
      let m := (n + 1) % beatMod
      s.accessFrom cyc fuel m (open_ + len) (s.beatEnt m).len

/-- MLDS (R243). -/
def execMlds (w : MWord) (s : State) : Host.Outcome State Fault Refusal :=
  matrixWord (.mlds w) w false false s (fun s c _ =>
    match s.popFormat c with
    | none => .noFormat s
    | some (s, f) =>
      let a := w.f 148 22
      let src := w.f 146 2
      let kk := 2 * (w.f 138 8 + 1)
      let n := w.f 131 7 + 1
      let wt := fwW f
      let len := blockBytes wt kk n
      let peer := quadCore (quadOf c) src
      let o := s.coreBeat c
      let b := s.accessFrom (s.now + 2) 64 o.1 o.2 (s.coreBeatLen c)
      if !fwValid f || !fwSound f then mfault s 0x07
      else if a % 64 != 0 then .fault s { code := 0x11, va := BitVec.ofNat 64 a, kind := kindBank }
      else if 2048 / tyBits wt < kk || (wt == 13 && kk % 32 != 0) || 4194304 < a + len then mfault s 0x02
      else if (s.core peer).bound.all (fun x => x.gen != (s.core c).bnd.gen) then .fault s { code := 0x13, va := BitVec.ofNat 64 a, kind := kindBank }
      else if !(List.range 16).any s.isAccess || 1024 * (s.beatEnt b.1).len < len then mfault s 0x02
      else
        let q := s.quad (quadOf c)
        let stamp := (s.core c).mx.istamp
        let s := s.setQuad (quadOf c) { q with shd := { st := 1, wt, k := kk, n, gen := (s.core c).bnd.gen, wAddr := a, src, data := [], stamp } }
        -- the beat opens at the peer by its own delay (R88); its words stand still until that beat closes
        let s := s.post (max (s.now + 1) (b.2 + pulseDelay peer - pulseDelay c)) 1 (some c) (.run .shadowPlaneLoaded (.nums [quadOf c, stamp, c, 0]))
        let s := s.post (b.2 + (s.beatEnt b.1).len + 5) 0 (some c) (.run .shadowPlaneLoaded (.nums [quadOf c, stamp, c, 1]))
        .ok (s.useLease c 2) 2 true)

/-- MSWAP (R244). -/
def execMswap (w : MWord) (s : State) : Host.Outcome State Fault Refusal :=
  matrixWord (.mswap w) w false false s (fun s c _ =>
    let q := s.quad (quadOf c)
    if q.shd.st = 2 && q.shd.gen != (s.core c).bnd.gen then mfault s 0x13
    else if q.shd.st = 1 then .block s 4
    else
      let s := s.setQuad (quadOf c) { q with act := q.shd, shd := q.act }
      .ok (s.useLease c 2) 2 true)

/-- SHADOW_PLANE_LOADED (R243): quad, the load's number, the issuing core; at the opening of beat n the block is read as W stood then, at the
close of n + 6 the plane is loaded. A poisoned block faults instead (R278). -/
def execShadowPlaneLoaded (s : State) : Host.Outcome State Fault Refusal :=
  match s.arg with
  | .nums [qd, stamp, c, stage] =>
    let q := s.quad qd
    if q.shd.st != 1 || q.shd.stamp != stamp then .next s
    else
      let peer := quadCore qd q.shd.src
      let len := blockBytes q.shd.wt q.shd.k q.shd.n
      if stage = 0 then
        let r := (s.core peer).portRead 3 q.shd.wAddr len
        let s := s.afterReadBy c peer 3 q.shd.wAddr len
        .next (s.setQuad qd { q with shd := { q.shd with data := if r.poison then [] else r.data } })
      else if q.shd.data.isEmpty then
        let e : Replay := { (s.core c).matrixEntry with own := false, next := 0, held := false }
        .next ((s.setQuad qd { q with shd := {} }).raise c { code := 0x18, source := 2, va := BitVec.ofNat 64 q.shd.wAddr, kind := kindBank } (some (.matrix, e)))
      else .next (s.setQuad qd { q with shd := { q.shd with st := 2 } })
  | _ => .next s

/-! ### Stepping (R157, R241, R242, R245) -/

/-- Element e of a packed byte array of `bits`-bit elements, 4-bit ones in the plain layout (R144, R240). -/
def packedElem (d : Array Byte) (bits e : Nat) : Nat :=
  if bits = 4 then (d.getD (e / 2) 0).toNat / (if e % 2 = 0 then 1 else 16) % 16
  else if bits = 8 then (d.getD e 0).toNat
  else (d.getD (2 * e) 0).toNat + 256 * (d.getD (2 * e + 1) 0).toNat
/-- A weight element as an exact value: E2M1 under its block scale for MXFP4 (R142, R240). -/
def weightVal (p : ArrPlane) (d : Array Byte) (k n : Nat) : FVal :=
  let code := packedElem d (tyBits p.wt) (k * p.n + n)
  if p.wt = 13 then mxVal (d.getD (p.k * p.n / 2 + k / 32 * p.n + n) 0).toNat code
  else (fmtOf p.wt).decode code

/-- The A operand as exact values: MXFP4 blocks with their scale bytes, or plain elements (R241). -/
def aValues (t kk : Nat) (row : Array Byte) (scales : Nat → Nat) : List FVal :=
  (List.range kk).map (fun e =>
    let code := packedElem row (tyBits t) e
    if t = 13 then mxVal (scales (e / 32)) code else (fmtOf t).decode code)
/-- Hadamard on the A operand: FP32, transform, back to the A type by RNE (R161). -/
def aHadamard (t points kk : Nat) (row : Array Byte) : List FVal × Nat :=
  let f := fmtOf t
  let xs := (List.range kk).map (fun e => (fp32.pack 0 false 0 (f.decode (packedElem row (tyBits t) e))).1)
  let h := hadamard points xs
  let ys := h.1.map (fun x => f.pack 0 (t == 8 || t == 9 || t == 12) 0 (fp32.decode x))
  (ys.map (fun y => f.decode y.1), ys.foldl (fun a y => a ||| y.2) h.2)

/-- T[n] of R157: exact groups of four, each rounded, then the tree. -/
def stepColumn (xs : List FVal) (ws : List FVal) (zs : List FVal) : Nat × Nat :=
  let ps := List.zipWith (fun x wz => fMul (fMul x wz.1) wz.2) xs (List.zip ws zs)
  let gs := (chunksOf 4 ps.length ps).map (fun g =>
    match g with
    | [] => (0, 0)
    | a :: r => fp32.pack 0 false 0 (r.foldl (fAdd 0) a))
  let t := fpTree fp32 0 (gs.map Prod.fst)
  (t.1, gs.foldl (fun a g => a ||| g.2) t.2)

/-- T of one command row over the active plane (R157, R245): 128 columns, and flags. -/
def stepRow (f : Word64) (p : ArrPlane) (sm : Memory) (row : Array Byte) (scales : Nat → Nat) : List Word32 × Nat :=
  let d := p.data.toArray
  if fwInt f then
    let xs := (List.range p.k).map (fun e => intVal (fwA f) (packedElem row (tyBits (fwA f)) e))
    ((List.range 128).map (fun n =>
      if n < p.n then
        BitVec.ofInt 32 ((xs.mapIdx (fun k x => x * intVal p.wt (packedElem d (tyBits p.wt) (k * p.n + n)))).sum)
      else 0), 0)
  else
    let a := if hadOnA f then aHadamard (fwA f) (hadPoints f) p.k row else (aValues (fwA f) p.k row scales, 0)
    let one : FVal := .fin false 1 0 false
    let z := fun (k n : Nat) =>
      if fwScale f && 1 ≤ fwGroup f && fwGroup f ≤ 3 then
        fp32.decode (sm.readNat (fwScaleAddr f + 4 * (k / groupSize (fwGroup f) * 128 + n)) 4)
      else one
    let cols := (List.range p.n).map (fun n =>
      stepColumn a.1 ((List.range p.k).map (fun k => weightVal p d k n)) ((List.range p.k).map (fun k => z k n)))
    (cols.map (fun x => BitVec.ofNat 32 x.1) ++ List.replicate (128 - p.n) 0, cols.foldl (fun acc x => acc ||| x.2) a.2)

/-- Register rows of A are poisoned (R278). -/
def State.aPoisoned (s : State) (c row n : Nat) : Bool :=
  let k := s.core c
  !(k.poison.isEmpty && k.upsets.isEmpty) && (k.portRead 0 (256 * row) (256 * n)).poison

/-- What a row of an MSTEP reads of S: the scales of the plane's columns, one run for each group of K (R240, R241). -/
def stepScales (f : Word64) (p : ArrPlane) : List (Nat × Nat) :=
  if !fwInt f && fwScale f && 1 ≤ fwGroup f && fwGroup f ≤ 3 then
    (List.range (cdiv p.k (groupSize (fwGroup f)))).map (fun g => (fwScaleAddr f + 512 * g, 4 * p.n))
  else []
/-- What row j of an MDRAIN reads of S: a scale for every column, or one for the row (R247). -/
def drainScales (f : Word64) (j : Nat) : List (Nat × Nat) :=
  if fwScale f && fwGroup f == 0 then [(fwScaleAddr f, 512)] else if fwScale f && fwGroup f == 4 then [(fwScaleAddr f + 4 * j, 4)] else []
/-- The first of these reads that meets a poisoned word (R278). -/
def Core.poisonedScale (k : Core) (l : List (Nat × Nat)) : Option Nat := (l.find? (fun x => (k.portRead 2 x.1 x.2).poison)).map Prod.fst
/-- What these reads leave in S (R278). -/
def State.afterScales (s : State) (c : Nat) (l : List (Nat × Nat)) : State := l.foldl (fun t x => t.afterRead c 2 x.1 x.2) s
/-- MSTEP (R245): one command row at a time, 2 cycles each. A row that a global load has still to fill stalls it (R320). -/
def execMstep (w : MWord) (s : State) : Host.Outcome State Fault Refusal :=
  let base := w.f 159 11
  let m := w.f 152 7 + 1
  let o := w.f 145 7
  let acc := w.f 144 1 == 1
  let queued := base == 2042
  matrixWord (.mstep w) w true ((!queued && 1536 < base + m) || 128 < o + m) s (fun s c i =>
    match s.popFormat c with
    | none => .noFormat s
    | some (s, f) =>
      let k := s.core c
      let mx := fwA f == 13
      let first := k.mx.firstRow
      -- the plane is that of the command's issue (R245)
      let p := match k.mplane with
        | some x => if !first && x.1 == k.mx.istamp then x.2 else (s.quad (quadOf c)).act
        | none => (s.quad (quadOf c)).act
      if first && (!fwValid f || !fwSound f || !fwFits f p) then mfault s 0x07
      else if first && mx && (queued || decide (1536 < base + m + cdiv m 16)) then mfault s 0x02
      else if first && p.gen != k.bnd.gen then mfault s 0x13
      else if first && k.specBlocked w then mfault s 0x08
      else if first && bitOf k.sr.tfull.toNat w.tile.toNat then .block s 3
      else if queued && !k.qv2m.canPop s.now then .block s 1
      else if !queued && (s.bytesPending c (256 * (base + i)) 256 || (mx && s.bytesPending c (256 * (base + m + i / 16)) 256)) then .block s 6
      else
        let row := if queued then k.qv2m.head?.getD zeroRow else s.aBytes c (256 * (base + i)) 256
        let scaleRow := if mx then (s.aBytes c (256 * (base + m + i / 16)) 256).toArray else #[]
        let sc := k.poisonedScale (stepScales f p)
        let bad := sc.isSome || (!queued && (s.aPoisoned c (base + i) 1 || (mx && s.aPoisoned c (base + m + i / 16) 1)))
        let pva := if !queued && s.aPoisoned c (base + i) 1 then 256 * (base + i) else if mx && s.aPoisoned c (base + m + i / 16) 1 then 256 * (base + m + i / 16) else sc.getD 0
        let s := if mx then s.afterRead c 0 (256 * (base + m + i / 16)) 256 else s
        let s := s.afterScales c (stepScales f p)
        let k := s.core c
        let s := if queued then (s.setCore c { k with qv2m := k.qv2m.pop s.now }).notePop c k.mx 2 (k.qv2m.items.take 1) else s.afterRead c 0 (256 * (base + i)) 256
        let s := s.modCore c (fun k => { k.allocShadow w with mplane := some (k.mx.istamp, p) })
        let t := stepRow f p k.sm row.toArray (fun b => (scaleRow.getD (16 * (i % 16) + b) 0).toNat)
        let r : MRow := { core := c, tile := w.tile.toNat, row := o + i, acc, isInt := fwInt f, cols := p.n, vals := t.1, flags := t.2
                          tag := (specTagOf w), of_ := s.rowOf_ c i bad pva }
        let s := s.post (s.now + if hadOnA f then 28 else 24) 1 (some c) (.run .matrixRowWrite (.mrow r))
        let left := 2 * (m - i)
        let s := if i = 0 then s.useLease c left else s.holdArray c left
        let s := s.modStrm c .matrix (fun st => { st with busyTo := s.now + left })
        .ok s 2 (i + 1 == m))

/-- MZERO: four rows per cycle, row j written at c + floor(j / 4) + 2 (R246). -/
def execMzero (w : MWord) (s : State) : Host.Outcome State Fault Refusal :=
  let r0 := w.f 163 7
  let n := w.f 156 7 + 1
  matrixWord (.mzero w) w true (128 < r0 + n) s (fun s c i =>
    let k := s.core c
    if k.specBlocked w then mfault s 0x08
    else if bitOf k.sr.tfull.toNat w.tile.toNat then .block s 3
    else
      let s := s.modCore c (fun k => k.allocShadow w)
      let put := fun (t : State) (j : Nat) =>
        let r : MRow := { core := c, tile := w.tile.toNat, row := r0 + j, acc := false, isInt := true, cols := 128
                          vals := List.replicate 128 0, flags := 0, tag := (specTagOf w), of_ := t.rowOf_ c j false }
        t.post (t.now + (j - i) / 4 + 2) 1 (some c) (.run .matrixRowWrite (.mrow r))
      let occ := cdiv (n - i) 4
      let s := ((List.range n).drop i).foldl put s
      .ok (if i = 0 then s.useLease c occ else s.holdArray c occ) occ true)

/-- C + T of one element (R157, R159, R245): a column past the block adds an exact zero. -/
def accumulate (isInt inside : Bool) (old new : Nat) : Nat × Nat :=
  if isInt then intFit 4 false (signedOf old 32 + signedOf new 32)
  else if inside then fpAdd fp32 0 old new
  else (if old = 0x80000000 then 0 else old, 0)

/-- A fault that a matrix command meets at one of its rows after its issue (R248, R388): rows from that one on take no effect, and what they have
popped of QV2M stands there again; a command still in issue is stopped. -/
def State.raiseMatrix (s : State) (c : Nat) (o : RowOf) (f : FaultRec) : State :=
  let later := fun (x : RowOf) => x.stamp == o.stamp && decide (o.idx ≤ x.idx)
  let s := s.cancel (fun e => match e.act with
    | .run .matrixRowWrite (.mrow r) => r.core == c && later r.of_
    | .run .drainDelivery (.drow r) => r.core == c && later r.of_
    | _ => false)
  let s := s.modCore c (fun k => k.unpop o.stamp o.idx)
  let st := (s.core c).mx
  let inIssue := st.istamp == o.stamp && st.sub != 0
  let e : Replay := { icyc := o.icyc, word := o.word, next := if o.word.toNat / 2 ^ 184 = 6 then 0 else o.idx, held := o.fw.isSome, opc := o.fw.getD 0, widx := st.widx, fwd := o.draw
                      own := inIssue && st.ovr.all (fun x => x.own) }
  if inIssue then (s.cancel (fun x => x.forStream c .matrix)).raiseIn c { f with source := 2 } .matrix e
  else s.raise c { f with source := 2 } (some (.matrix, e))

/-- A row written to a shadow tile (R95): its first write copies the tile. -/
def Shadow.put (x : Shadow) (c : Memory) (row : Nat) (data : List Byte) (flags : Nat) : Shadow :=
  let m := if x.filled then x.mem else (c.filter (fun e => e.1 / 65536 == x.tile)).map (fun e => (e.1 % 65536, e.2))
  { x with filled := true, mem := m.writeBytes (512 * row) data, flags := x.flags ||| flags }

/-- MATRIX_ROW_WRITE (R245, R246, R253, R254): a C row, architectural or shadow, is combined and written; its flags are set. -/
def execMatrixRowWrite (s : State) : Host.Outcome State Fault Refusal :=
  match s.arg with
  | .mrow r =>
    let c := r.core
    let addr := r.tile * 65536 + r.row * 512
    let k := s.core c
    let spec := r.tag.bind (fun g => k.shadows.find? (fun x => x.tile == r.tile && x.tag == g))
    let old := match spec with
      | some x => if x.filled then x.mem.readBytes (512 * r.row) 512 else s.cRow c addr 512
      | none => s.cRow c addr 512
    let bad := r.of_.poison || (r.acc && r.tag.isNone && (k.portRead 1 addr 512).poison)
    if bad then .next (s.raiseMatrix c r.of_ { code := 0x18, va := BitVec.ofNat 64 (if r.of_.poison then r.of_.pva else addr), kind := kindLoad })
    else
      let s := if r.acc && r.tag.isNone then s.afterRead c 1 addr 512 else s
      let vs := (List.zip (elemsOf 32 old) r.vals).mapIdx (fun n x =>
        if r.acc then accumulate r.isInt (n < r.cols) x.1 x.2.toNat else (x.2.toNat, 0))
      let data := packElems 32 (vs.map Prod.fst)
      let flags := vs.foldl (fun a v => a ||| v.2) r.flags
      match r.tag with
      | none => .next ((s.cycWrite { core := c, space := 1, rank := 3, addr, data, sel := [] }).orMstat c flags)
      | some g => .next (s.modCore c (fun k =>
          { k with shadows := k.shadows.map (fun x => if x.tile = r.tile ∧ x.tag = g then x.put (s.cNow c (65536 * r.tile) 65536) r.row data flags else x) }))
  | _ => .next s

/-! ### The epilogue (R156, R247, R248) -/

/-- The output row of drained row j (R247): patterns of the 128 outputs and flags. `res` holds the residual as FP32 values, `key` and `scale`
are those of the command's issue (R154). -/
def epilogue (f : Word64) (k : Core) (key scale crow thr ctag j : Nat) (cs : List Nat) (res : List FVal) : List Nat × Nat :=
  let out := fwOut f
  let plain := isIntTy out && fwInt f && !fwScale f && !fwResidual f && !fwDropout f && fwHad f == 0
  if plain then
    let ys := cs.map (fun x => convert 4 x out 0 true 0)
    (ys.map Prod.fst, joinAll ys)
  else
    let x0 := cs.map (fun x => if fwInt f then convert 4 x 7 0 false 0 else (x, 0))
    let mulS := fun (addr : Nat → Nat) (l : List Nat) => l.mapIdx (fun n x => fpMul fp32 0 x (k.sm.readNat (addr n) 4))
    let x1 := if fwScale f && fwGroup f == 0 then mulS (fun n => fwScaleAddr f + 4 * n) (x0.map Prod.fst) else (x0.map (fun x => (x.1, 0)))
    let x2 := if fwScale f && fwGroup f == 4 then mulS (fun _ => fwScaleAddr f + 4 * j) (x1.map Prod.fst) else (x1.map (fun x => (x.1, 0)))
    let x3 := if fwDropout f then
        x2.mapIdx (fun n x =>
          if krn ((key + 1) % 2 ^ 64) (krnCtr ctag (crow + j) n) / 65536 < thr then fpMul fp32 0 x.1 scale else (0, 0))
      else x2.map (fun x => (x.1, 0))
    let x4 := if fwResidual f then
        List.zipWith (fun x r => fp32.pack 0 false 0 (fAdd 0 (fp32.decode x.1) r)) x3 res
      else x3.map (fun x => (x.1, 0))
    let h := if hadOnDrain f then hadamard (hadPoints f) (x4.map Prod.fst) else (x4.map Prod.fst, 0)
    let mode := fwRound f
    let drawAt := fun n => srDraw key ctag (crow + j) n
    let fl := joinAll x0 ||| joinAll x1 ||| joinAll x2 ||| joinAll x3 ||| joinAll x4 ||| h.2
    if out = 13 then
      let bs := (chunksOf 32 4 h.1).mapIdx (fun b x => mxBlock mode (fun i => drawAt (32 * b + i)) x)
      (bs.flatMap (fun b => b.2.1) ++ bs.map (fun b => b.1), bs.foldl (fun a b => a ||| b.2.2) fl)
    else
      -- rounding code 4 acts as RNE where the conversion is not narrowing (R149)
      let md := if mode = 4 && fpExact 7 out then 0 else mode
      let sat := out == 8 || out == 9 || out == 12 || isIntTy out
      let ys := h.1.mapIdx (fun n x => convert 7 x out md sat (drawAt n))
      (ys.map Prod.fst, joinAll ys ||| fl)
where
  /-- Flags joined. -/
  joinAll (l : List (Nat × Nat)) : Nat := l.foldl (fun a x => a ||| x.2) 0

/-- The A-row-sized pieces of an output row (R248). -/
def outputPieces (out : Nat) (ys : List Nat) : List (List Byte) :=
  let pad := fun (l : List Byte) => l ++ List.replicate (256 - l.length) 0
  if out = 13 then
    let codes := ys.take 128
    [pad ((chunksOf 2 64 codes).map (fun p => BitVec.ofNat 8 (p.headD 0 % 16 + 16 * (p.getD 1 0 % 16))) ++ (ys.drop 128).map (BitVec.ofNat 8))]
  else if tyBits out = 4 then
    [pad ((chunksOf 2 64 ys).map (fun p => BitVec.ofNat 8 (p.headD 0 % 16 + 16 * (p.getD 1 0 % 16))))]
  else if tyBits out = 32 then [packElems 32 (ys.take 64), packElems 32 (ys.drop 64)]
  else [pad (packElems (tyBits out) ys)]
/-- A rows that one drained row fills (R248). -/
def rowsPerOut (out : Nat) : Nat := if tyBits out = 32 then 2 else 1

/-- MDRAIN: one C row at a time, 2 cycles each (R247). A row of A that a global load has still to fill stalls it (R320). -/
def execMdrain (w : MWord) (s : State) : Host.Outcome State Fault Refusal :=
  let crow := w.f 163 7
  let n := w.f 156 7 + 1
  let dest := w.f 154 2
  let vd := w.f 143 11
  let vr := w.f 132 11
  let thr := w.f 116 16
  let ctag := w.f 100 16
  let entry := w.f 94 6
  matrixWord (.mdrain w) w false (128 < crow + n) s (fun s c i =>
    match s.popFormat c with
    | none => .noFormat s
    | some (s, f) =>
      let k := s.core c
      let first := k.mx.firstRow
      let out := fwOut f
      let per := if out = 7 then 2 else 1
      if first && (!fwValid f || !fwSound f) then mfault s 0x07
      else if first && ((dest == 0 && decide (1536 < vd + n * rowsPerOut out)) || (fwResidual f && decide (1536 < vr + n * per))
          || (dest == 2 && (Table.find? k.act.tiles entry).isNone)) then mfault s 0x02
      else if first && k.specBlocked w then mfault s 0x08
      else if first && bitOf k.sr.tfull.toNat w.tile.toNat then .block s 3
      else if (fwResidual f && s.bytesPending c (256 * (vr + i * per)) (256 * per))
          || (dest == 0 && s.bytesPending c (256 * (vd + i * rowsPerOut out)) (256 * rowsPerOut out)) then .block s 6
      else
        let addr := w.tile.toNat * 65536 + (crow + i) * 512
        let cs := elemsOf 32 (s.cBytes c addr 512)
        let resBytes := s.aBytes c (256 * (vr + i * per)) (256 * per)
        let res := if out = 7 then (elemsOf 32 resBytes).map fp32.decode else (elemsOf 16 resBytes).map bf16.decode
        let sc := k.poisonedScale (drainScales f i)
        let bad := (k.portRead 1 addr 512).poison || (fwResidual f && s.aPoisoned c (vr + i * per) per) || sc.isSome
        let pva := if (k.portRead 1 addr 512).poison then addr else if fwResidual f && s.aPoisoned c (vr + i * per) per then 256 * (vr + i * per) else sc.getD 0
        let ys := epilogue f k (k.keyFor k.mx) (k.scaleFor k.mx) crow thr ctag i cs res
        let s := s.keepDraw c .matrix
        let s := (s.afterRead c 1 addr 512).afterScales c (drainScales f i)
        let s := if fwResidual f then s.afterRead c 0 (256 * (vr + i * per)) (256 * per) else s
        let r : DrainRow := { core := c, dest, arow := vd + i * rowsPerOut out, entry, first := i * rowsPerOut out
                              pieces := outputPieces out ys.1, flags := ys.2, of_ := s.rowOf_ c i bad pva }
        let s := s.post (s.now + if hadOnDrain f then 24 else 20) 1 (some c) (.run .drainDelivery (.drow r))
        let left := 2 * (n - i)
        let s := if i = 0 then s.useLease c left else s.holdArray c left
        let s := s.modStrm c .matrix (fun st => { st with busyTo := s.now + left })
        .ok s 2 (i + 1 == n))

/-! ### Full bits and block control (R249, R252, R256) -/

/-- A write or hand-off of a matrix row of a core is due, of a command issued before `stamp`: its cycle, a second piece one later. -/
def State.matrixDue (s : State) (c stamp : Nat) : List Nat :=
  s.agenda.filterMap (fun e => match e.act with
    | .run .matrixRowWrite (.mrow r) => if r.core = c && r.of_.stamp < stamp then some e.at_ else none
    | .run .drainDelivery (.drow r) => if r.core = c && r.of_.stamp < stamp && r.dest != 3 then some (e.at_ + (if r.dest = 0 then 0 else r.pieces.length - 1)) else none
    | _ => none)
/-- MFLAG: the bit changes at max(c + 1, w + 1) (R249). -/
def execMflag (w : MWord) (s : State) : Host.Outcome State Fault Refusal :=
  let c := s.curCore
  let k := s.core c
  finishMatrix c
    (if !(Instr.mflag w).wf || !k.carries w || w.spec == 1 then mfault s 0x01
     else
       let wl := (s.matrixDue c k.mx.istamp).foldl max s.now
       .ok (s.post (wl + 1) 3 (some c) (.run .fullBitChange (.flag c w.tile.toNat (w.f 169 1 == 1) (s.rowOf_ c 0 false)))) 1 true)

/-- Routing registers that the MFLAG `o` fires: rows of each in turn, one a cycle from f + 1; their faults are the MFLAG's (R252). -/
def State.fireRoutes (s : State) (c t : Nat) (o : RowOf) : State :=
  let go := fun (acc : State × Nat) (i : Nat) =>
    let r := (vget (acc.1.core c).sr.mroute i 0).toNat
    if bitOf r 0 && bitsOf r 1 4 == t then
      let n := bitsOf r 12 7 + 1
      let hand := fun (x : State) (j : Nat) =>
        let d : DrainRow := { core := c, dest := 3, arow := t * 128 + bitsOf r 5 7 + j, entry := bitsOf r 19 6, first := 2 * j, pieces := [], flags := 0
                              of_ := { o with fw := none, idx := acc.2 - s.now + j } }
        -- after everything else of its cycle: a row carries whatever has performed by then
        x.post (acc.2 + 1 + j) 4 (some c) (.run .drainDelivery (.drow d))
      let s1 := (List.range n).foldl hand acc.1
      let s2 := if bitOf r 25 then s1.modCore c (fun k => { k with sr := { k.sr with mroute := vset k.sr.mroute i (BitVec.ofNat 26 (r - 1)) } }) else s1
      (s2, acc.2 + n)
    else acc
  ((List.range 4).foldl go (s, s.now)).1
/-- FULL_BIT_CHANGE (R234, R249): core, tile and state of a VTILE mark; or an MFLAG's, which waits for the writes before it and, where the bit
was 0 and it sets it, fires routing registers (R252). -/
def execFullBitChange (s : State) : Host.Outcome State Fault Refusal :=
  match s.arg with
  | .nums [c, t, v] => .next (s.cycSet c (.tile t (v == 1)))
  | .flag c t full o =>
    match s.matrixDue c o.stamp with
    | [] => .next ((if full && !bitOf (s.core c).sr.tfull.toNat t then s.fireRoutes c t o else s).cycSet c (.tile t full))
    | l => .next (s.post (l.foldl max s.now + 1) 3 (some c) (.run .fullBitChange (.flag c t full o)))
  | _ => .next s

/-- MEND: one pass of the block ends (R256). -/
def execMend (w : MWord) (s : State) : Host.Outcome State Fault Refusal :=
  let c := s.curCore
  if (Instr.mend w).wf && (s.core c).carries w then .next (s.endPass c .matrix) else finishMatrix c (mfault s 0x01)
/-- MNOP n: idles 1 + n cycles (R256). -/
def execMnop (w : MWord) (s : State) : Host.Outcome State Fault Refusal :=
  let c := s.curCore
  finishMatrix c (if !(Instr.mnop w).wf || !(s.core c).carries w then mfault s 0x01 else .ok s (1 + w.f 146 24) true)

/-! ### Command boundaries: MFREE, SCOMMIT and SDROP (R95, R194, R200, R253) -/

/-- The matrix stream is between commands (R95, R200). -/
def State.atBoundary (s : State) (c : Nat) : Bool := (s.core c).mx.sub == 0 && (s.core c).mx.busyTo ≤ s.now
/-- An effect at a boundary that has slipped is looked at again when the command in progress ends. -/
def State.againAtBoundary (s : State) (c : Nat) (i : Instr) : State := s.post (max (s.now + 1) (s.core c).mx.busyTo) 1 (some c) (.run i (.nums [c]))

/-- MFREE_EFFECT (R200). -/
def execMfreeEffect (s : State) : Host.Outcome State Fault Refusal :=
  match s.arg with
  | .nums [c] =>
    if !(s.core c).mfreeReq then .next s
    else if !s.atBoundary c then .next (s.againAtBoundary c .mfreeEffect)
    else .next ((s.modCore c (fun k => { k with mfreeReq := false })).dropLease c)
  | _ => .next s

/-- A row of a tag that a core's matrix stream has on its way to a shadow. -/
def Act.rowOfTag (a : Act) (c g : Nat) : Option MRow :=
  match a with
  | .run .matrixRowWrite (.mrow r) => if r.core = c ∧ r.tag = some g then some r else none
  | _ => none
/-- SCOMMIT of a tag (R95, R253): shadows replace their tiles, queued entries become plain, the flags held join MSTAT; rows of the tag still on
their way are written to the tiles themselves. -/
def State.commitTag (s : State) (c g : Nat) : State :=
  let k := s.core c
  let s : State := { s with agenda := s.agenda.map (fun e => match e.act.rowOfTag c g with
    | some r => { e with act := .run .matrixRowWrite (.mrow { r with tag := none }) }
    | none => e) }
  let mine := k.shadows.filter (fun x => x.tag == g)
  let cm := mine.foldl (fun (m : Memory) x =>
    if x.filled then (m.clearRange (65536 * x.tile) 65536).writeBytes (65536 * x.tile) (x.mem.readBytes 0 65536) else m) k.c
  let fl := mine.foldl (fun a x => a ||| x.flags) 0
  (s.setCore c { k with c := cm, shadows := k.shadows.filter (fun x => x.tag != g), specTags := k.specTags.filter (fun x => x != g)
                        bqm := { k.bqm with items := k.bqm.items.map (fun e => if e.2.spec && e.2.tag == g then (e.1, { e.2 with spec := false, tag := 0 }) else e) } }).orMstat c fl
/-- SDROP of a tag (R95, R253): shadows, flags and queued entries of the tag go, and rows of it still on their way; a block of the tag in
progress stops. -/
def State.dropTag (s : State) (c g : Nat) : State :=
  let s := s.cancel (fun e => (e.act.rowOfTag c g).isSome)
  let k := s.core c
  let running := k.mx.live && k.blockTag == (true, g)
  let items := k.bqm.items.filter (fun e => !(e.2.spec && e.2.tag == g))
  let s := s.setCore c { k with shadows := k.shadows.filter (fun x => x.tag != g), specTags := k.specTags.filter (fun x => x != g)
                                bqm := { k.bqm with items, popAt := s.now, popN := (if k.bqm.popAt = s.now then k.bqm.popN else 0) + (k.bqm.items.length - items.length) } }
  if running then
    let s := s.cancel (fun e => e.forStream c .matrix)
    match items with
    | (_, e) :: _ => (s.modStrm c .matrix (fun st => { st.endWord with next := e.addr })).engineGoOn c .matrix 1
    | [] => s.modStrm c .matrix (fun st => { st.endWord with live := false, idleFrom := s.now + 1 })
  else s
/-- The resolutions that a core's scalar stream has asked for take effect, in order; a tag that is not unresolved is left alone (R95, R194). -/
def State.resolveTags (s : State) (c : Nat) : State :=
  let l := (s.core c).resolve
  l.foldl (fun t r => if (t.core c).specTags.contains r.2 then (if r.1 then t.commitTag c r.2 else t.dropTag c r.2) else t)
    (s.modCore c (fun k => { k with resolve := [] }))
/-- SPEC_RESOLVE (R95, R194): at the boundary the tags asked for are resolved. -/
def execSpecResolve (s : State) : Host.Outcome State Fault Refusal :=
  match s.arg with
  | .nums [c] =>
    if (s.core c).resolve.isEmpty then .next s
    else if !s.atBoundary c then .next (s.againAtBoundary c .specResolve)
    else .next (s.resolveTags c)
  | _ => .next s

/-- A core of a quad is within a tile command: its rows hold the array, however long it stalls or its stope is frozen (R96, R236). -/
def State.arrayBusy (s : State) (qd : Nat) : Bool :=
  (List.range 4).any (fun i => let st := (s.core (quadCore qd i)).mx; st.sub != 0 && (st.ovr.isNone || !st.firstRow))
/-- LEASE_GRANT (R199): the requests made at least 2 cycles ago, round-robin after the last holder, once the array is free. -/
def execLeaseGrant (s : State) : Host.Outcome State Fault Refusal :=
  match s.arg with
  | .nums [qd] =>
    let q := s.quad qd
    if q.holder.isSome || q.reqs.isEmpty then .next s
    else if s.now < q.busyTo then .next (s.postGrant qd q.busyTo)
    else if s.arrayBusy qd then .next (s.postGrant qd (s.now + 1))
    else
      let ripe := fun i => q.reqs.find? (fun r => r.1 == i && r.2.1 + 2 ≤ s.now)
      match ((List.range 4).map (fun j => (q.last + 1 + j) % 4)).find? (fun i => (ripe i).isSome) with
      | some i =>
        let n := (ripe i).elim 0 (fun r => r.2.2)
        .next (s.setQuad qd { q with holder := some i, left := n, last := i, reqs := q.reqs.filter (fun r => r.1 != i) })
      | none => .next (s.postGrant qd (s.now + 1))
  | _ => .next s

end Sys2Proof.Machine
end

