-- ==== Sys2Proof/Machine/HartFp.lean ====
section
/-! DEFINITION. The floating-point words of a Headframe hart: the F and D extensions as the RISC-V unprivileged specification defines them over IEEE 754 (00_scope.md, R2; log 49). -/

namespace Sys2Proof.Machine

/-! ### Formats, rounding and flags -/

/-- Double precision. -/
def fp64 : Fmt := ⟨11, 52, 1023, 0⟩
/-- The flags of fcsr. -/
def hfNX : Nat := 1
def hfUF : Nat := 2
def hfOF : Nat := 4
def hfDZ : Nat := 8
def hfNV : Nat := 16
/-- A signalling NaN. -/
def Fmt.isSnan (f : Fmt) (w : Nat) : Bool := (f.decode w).isNan && !bitOf w (f.mb - 1)
/-- The rounding rule of a rounding mode: RNE, RTZ, RDN, RUP, RMM. -/
def hartRule (rm : Nat) : Nat := if rm = 4 then 5 else rm
/-- A value rounds to less than the least normal number when the exponent has no bound. -/
def Fmt.tiny (f : Fmt) (rm : Nat) : FVal → Bool
  | .fin n m e st =>
    let wide : Fmt := ⟨15, f.mb, 16383, 0⟩
    match wide.decode (wide.round (hartRule rm) false 0 n m e st).1 with
    | .fin _ m' e' _ => decide (e' + (bitLen m' : Int) - 1 < 1 - (f.bias : Int))
    | _ => false
  | _ => false
/-- An exact value as a pattern, with its flags. -/
def Fmt.ieee (f : Fmt) (rm : Nat) : FVal → Nat × Nat
  | .nan => (f.qnan, 0)
  | .inf n => (f.infBits n, 0)
  | .fin n m e st =>
    let r := f.round (hartRule rm) false 0 n m e st
    if r.2 &&& flOF != 0 then
      (if rm = 1 || (rm == 2 && !n) || (rm == 3 && n) then f.maxBits + f.signBit n else r.1, hfOF ||| hfNX)
    else if st || !fEq (f.decode r.1) (.fin n m e false) then (r.1, hfNX ||| (if f.tiny rm (.fin n m e st) then hfUF else 0))
    else (r.1, 0)
/-- NV of an operation: a signalling operand, or a NaN out of operands that are none. -/
def Fmt.invalid (f : Fmt) (ws : List Nat) (v : FVal) : Nat :=
  if ws.any f.isSnan || (v.isNan && ws.all (fun w => !(f.decode w).isNan)) then hfNV else 0

/-! ### Operations on patterns -/

/-- A result with what its operands add to its flags. -/
def Fmt.finish (f : Fmt) (rm : Nat) (ws : List Nat) (v : FVal) (more : Nat := 0) : Nat × Nat :=
  let r := f.ieee rm v
  (r.1, r.2 ||| f.invalid ws v ||| more)
/-- Sum, difference, product, quotient by the operation's code. -/
def Fmt.hartArith (f : Fmt) (rm op a b : Nat) : Nat × Nat :=
  let x := f.decode a
  let y := f.decode b
  match op with
  | 0 => f.finish rm [a, b] (fAdd rm x y)
  | 1 => f.finish rm [a, b] (fAdd rm x (fNeg y))
  | 2 => f.finish rm [a, b] (fMul x y)
  | _ => let q := fDiv x y; f.finish rm [a, b] q.1 (if q.2 = 0 then 0 else hfDZ)
/-- Square root. -/
def Fmt.hartSqrt (f : Fmt) (rm a : Nat) : Nat × Nat := f.finish rm [a] (fSqrt (f.decode a))
/-- A product, negated or not, and a sum with one rounding; infinity times zero is invalid whatever is added. -/
def Fmt.hartFma (f : Fmt) (rm a b c : Nat) (negP negC : Bool) : Nat × Nat :=
  let p := fMul (f.decode a) (f.decode b)
  let z := f.decode c
  let v := fAdd rm (if negP then fNeg p else p) (if negC then fNeg z else z)
  f.finish rm [a, b, c] v (f.invalid [a, b] p)
/-- The lesser or the greater: a NaN gives way to a number. -/
def Fmt.hartMinMax (f : Fmt) (isMax : Bool) (a b : Nat) : Nat × Nat :=
  let x := f.decode a
  let y := f.decode b
  let flags := if f.isSnan a || f.isSnan b then hfNV else 0
  if x.isNan && y.isNan then (f.qnan, flags)
  else if x.isNan then (b, flags)
  else if y.isNan then (a, flags)
  else (if (if isMax then fLt true x y else fLt true y x) then b else a, flags)
/-- Comparisons: 0 less or equal, 1 less, 2 equal, which alone takes a quiet NaN in silence. -/
def Fmt.hartCmp (f : Fmt) (op a b : Nat) : Nat × Nat :=
  let x := f.decode a
  let y := f.decode b
  if x.isNan || y.isNan then (0, if op != 2 || f.isSnan a || f.isSnan b then hfNV else 0)
  else (if (if op = 0 then !fLt false y x else if op = 1 then fLt false x y else fEq x y) then 1 else 0, 0)
/-- Sign injection by the function code. -/
def Fmt.hartSgn (f : Fmt) (op a b : Nat) : Nat :=
  let i := f.eb + f.mb
  f.abs a + f.signBit (if op = 0 then bitOf b i else if op = 1 then !bitOf b i else bitOf a i != bitOf b i)
/-- The class of a pattern, one bit of ten. -/
def Fmt.hartClass (f : Fmt) (w : Nat) : Nat :=
  match f.decode w with
  | .nan => if f.isSnan w then 0x100 else 0x200
  | .inf neg => if neg then 0x001 else 0x080
  | .fin neg m _ _ =>
    if m = 0 then (if neg then 0x008 else 0x010)
    else if bitsOf w f.mb f.eb = 0 then (if neg then 0x004 else 0x020)
    else (if neg then 0x002 else 0x040)
/-- To an integer of a kind: 0 signed and 1 unsigned of 32 bits, 2 and 3 of 64. -/
def Fmt.hartToInt (f : Fmt) (rm kind w : Nat) : Int × Nat :=
  let n := if kind < 2 then 32 else 64
  let lo : Int := if kind % 2 = 0 then -(2 ^ (n - 1)) else 0
  let hi : Int := if kind % 2 = 0 then 2 ^ (n - 1) - 1 else 2 ^ n - 1
  match f.decode w with
  | .nan => (hi, hfNV)
  | .inf neg => (if neg then lo else hi, hfNV)
  | .fin neg m e _ =>
    let v := roundInt (hartRule rm) neg m e
    if v < lo then (lo, hfNV) else if hi < v then (hi, hfNV)
    else (v, if fEq (ofSigned v 0 false) (.fin neg m e false) then 0 else hfNX)
/-- The integer that a register holds, of a kind. -/
def hartIntOf (kind : Nat) (v : Word64) : Int :=
  let n := if kind < 2 then 32 else 64
  if kind % 2 = 0 then signedOf v.toNat n else ((v.toNat % 2 ^ n : Nat) : Int)

/-! ### Registers and words -/

/-- The format that a word names: 0 single, 1 double. -/
def hartFmt (f : Nat) : Option Fmt := if f = 0 then some fp32 else if f = 1 then some fp64 else none
/-- A floating-point register as an operand of a format: a single that is not boxed reads as the canonical NaN. -/
def Hart.fget (x : Hart) (f : Fmt) (r : Nat) : Nat :=
  let v := (vget x.f r 0).toNat
  if f.mb = 52 then v else if v / 2 ^ 32 = 2 ^ 32 - 1 then v % 2 ^ 32 else fp32.qnan
/-- A floating-point register written, a single boxed in ones. -/
def Hart.fput (x : Hart) (f : Fmt) (r w : Nat) : Hart :=
  ({ x with f := vset x.f r (BitVec.ofNat 64 (if f.mb = 52 then w else (2 ^ 32 - 1) * 2 ^ 32 + w % 2 ^ 32)) } : Hart).dirtyFp
/-- A value of `size` bytes sign-extended. -/
def hartValue (size v : Nat) : Word64 := BitVec.ofInt 64 (signedOf (v % 2 ^ (8 * size)) (8 * size))
/-- A loaded value, or the old value of an atomic, goes to its register. -/
def Hart.take (x : Hart) (r : HartRet) (v : Nat) : Hart :=
  if r.fp then x.fput (if r.size = 4 then fp32 else fp64) r.rd v else x.setReg r.rd (if r.signed then hartValue r.size v else BitVec.ofNat 64 v)
/-- Flags are ORed into fcsr. -/
def Hart.raiseFp (x : Hart) (flags : Nat) : Hart :=
  if flags = 0 then x else (x.putCsr 0x003 (x.csr 0x003 ||| BitVec.ofNat 64 flags)).dirtyFp
/-- The rounding mode of a word: its own, or that of fcsr; none where it is reserved. -/
def Hart.roundingOf (x : Hart) (rm : Nat) : Option Nat :=
  let r := if rm = 7 then bitsOf (x.csr 0x003).toNat 5 3 else rm
  if r < 5 then some r else none
/-- A word of the floating-point operations (major 0x53) or of the fused ones (0x43 to 0x4F) on a hart's registers; none for a word that is
none, or where FS is off. The pc is the caller's. -/
def Hart.fpWord (x : Hart) (w : Nat) : Option Hart :=
  let rd := bitsOf w 7 5
  let f3 := bitsOf w 12 3
  let r1 := bitsOf w 15 5
  let r2 := bitsOf w 20 5
  let op := bitsOf w 27 5
  match hartFmt (bitsOf w 25 2) with
  | none => none
  | some f =>
    let a := x.fget f r1
    let b := x.fget f r2
    let toF := fun (r : Nat × Nat) => some ((x.fput f rd r.1).raiseFp r.2)
    let toX := fun (v : Word64) (flags : Nat) => some ((x.setReg rd v).raiseFp flags)
    let small := fun (v : Int) => BitVec.ofInt 64 (signedOf (wrapTo 32 v) 32)
    if x.fs = 0 then none
    else if bitsOf w 0 7 != 0x53 then
      let k := bitsOf w 2 2
      (x.roundingOf f3).bind (fun rm => toF (f.hartFma rm a b (x.fget f op) (2 ≤ k) (k == 1 || k == 3)))
    else
      match op with
      | 0x04 => if f3 < 3 then toF (f.hartSgn f3 a b, 0) else none
      | 0x05 => if f3 < 2 then toF (f.hartMinMax (f3 == 1) a b) else none
      | 0x08 =>
        if (f.mb = 52 && r2 == 0) || (f.mb == 23 && r2 == 1) then
          let g := if f.mb = 52 then fp32 else fp64
          (x.roundingOf f3).bind (fun rm => let c := x.fget g r1; let q := f.ieee rm (g.decode c); toF (q.1, q.2 ||| (if g.isSnan c then hfNV else 0)))
        else none
      | 0x0B => if r2 = 0 then (x.roundingOf f3).bind (fun rm => toF (f.hartSqrt rm a)) else none
      | 0x14 => if f3 < 3 then (let c := f.hartCmp f3 a b; toX (BitVec.ofNat 64 c.1) c.2) else none
      | 0x18 =>
        if r2 < 4 then (x.roundingOf f3).bind (fun rm =>
          let c := f.hartToInt rm r2 a
          toX (if r2 < 2 then small c.1 else BitVec.ofInt 64 c.1) c.2)
        else none
      | 0x1A => if r2 < 4 then (x.roundingOf f3).bind (fun rm => toF (f.ieee rm (ofSigned (hartIntOf r2 (x.reg r1)) 0 false))) else none
      | 0x1C =>
        if r2 != 0 then none
        else if f3 = 0 then (let v := (vget x.f r1 0).toNat; toX (if f.mb = 52 then BitVec.ofNat 64 v else small (v % 2 ^ 32 : Nat)) 0)
        else if f3 = 1 then toX (BitVec.ofNat 64 (f.hartClass a)) 0
        else none
      | 0x1E => if r2 = 0 && f3 == 0 then toF ((x.reg r1).toNat, 0) else none
      | _ => if op < 4 then (x.roundingOf f3).bind (fun rm => toF (f.hartArith rm op a b)) else none

end Sys2Proof.Machine
end

