-- ==== Sys2Proof/Machine/Copy.lean ====
section
/-! DEFINITION. The copy engine: descriptors and their checks, the words of a descriptor, chunks and their translation, reading, handing on and writing words, scale copies, and DRAIN (R283, R284, R300 to R306). -/

namespace Sys2Proof.Machine

/-! ### Descriptors (R300, R301, R305) -/

/-- The space code names a seam bank space. -/
def isBankSpace (sp : Nat) : Bool := sp == 3 || sp == 4
/-- First offset and end of a core space (R257, R301). -/
def spaceLimits (sp : Nat) : Nat × Nat :=
  match sp with
  | 0 => (0, aSize)
  | 1 => (0, 1048576)
  | 2 => (0, 65536)
  | 3 => (0, 4194304)
  | _ => (4194304, 8388608)
/-- The byte offset of a core-space address (R301). -/
def copyOff (a : Word64) : Nat := a.toNat % 2 ^ 23
/-- A descriptor read from its 32 bytes (R300). -/
def copyDescOf (b : List Byte) (bt id stamp : Nat) (scale : Option (List Byte)) (e : Replay) : CopyDesc :=
  { id, src := BitVec.ofNat 64 (cmdField b 0 8), dst := BitVec.ofNat 64 (cmdField b 8 8), len := cmdField b 0x10 4, lines := cmdField b 0x14 2
    sspace := cmdField b 0x16 1 % 8, dspace := cmdField b 0x16 1 / 16 % 8, sstride := signedOf (cmdField b 0x18 4) 32
    dstride := signedOf (cmdField b 0x1C 4) 32, beat := (bt + cmdField b 0x17 1 % 8) % beatMod, slide := bitOf (cmdField b 0x17 1) 3
    scale, stamp, entry := { e with job := some id, own := false } }

/-- An address is a multiple of `al` and, in a core space, zero in [47:23] (R300, R301). -/
def copyAddrOk (sp al : Nat) (a : Word64) : Bool := a.toNat % al == 0 && (sp == 5 || bitsOf a.toNat 23 25 == 0)
/-- The zero fields and space codes of a descriptor (R300). -/
def copyFlagsOk (b : List Byte) : Bool :=
  !bitOf (cmdField b 0x16 1) 3 && !bitOf (cmdField b 0x16 1) 7 && cmdField b 0x17 1 < 16
/-- The field checks of CPY (R302). -/
def cpyOk (b : List Byte) (d : CopyDesc) : Bool :=
  copyFlagsOk b && [0, 1, 3, 4, 5].contains d.sspace && [0, 1, 3, 4, 5].contains d.dspace
    && 32 ≤ d.len && d.len ≤ 16777216 && d.len % 32 == 0 && 1 ≤ d.lines
    && copyAddrOk d.sspace 32 d.src && copyAddrOk d.dspace 32 d.dst && d.sstride % 32 == 0 && d.dstride % 32 == 0
/-- Lines of a core space that stay within it: their lowest and highest byte (R302). -/
def linesFit (sp : Nat) (a : Word64) (len lines : Nat) (stride : Int) : Bool :=
  if sp = 5 then true
  else
    let lim := spaceLimits sp
    let first : Int := copyOff a
    let last : Int := first + ((lines : Int) - 1) * stride
    (lim.1 : Int) ≤ min first last && max first last + len ≤ (lim.2 : Int)

/-- Fields of a layout record (R305). -/
def recType (r : List Byte) : Nat := cmdField r 0 1
def recOrder (r : List Byte) : Nat := cmdField r 1 1
def recN (r : List Byte) : Nat := cmdField r 2 2
def recG (r : List Byte) : Nat := cmdField r 4 2
def recStride (r : List Byte) : Nat := cmdField r 8 4
/-- Bytes of a source element. -/
def recElem (r : List Byte) : Nat := if recType r = 0 then 4 else if recType r = 3 then 1 else 2
/-- The checks of a layout record (R305). -/
def recOk (r : List Byte) : Bool :=
  recType r ≤ 3 && recOrder r ≤ 1 && 1 ≤ recN r && recN r ≤ 128 && 1 ≤ recG r && recG r ≤ 128 && cmdField r 6 2 == 0
    && recStride r % 32 == 0 && cmdField r 0xC 4 == 0
/-- The field checks of CPYS (R305). -/
def cpysOk (b : List Byte) (d : CopyDesc) (r : List Byte) : Bool :=
  copyFlagsOk b && d.dspace == 2 && [0, 1, 3, 4, 5].contains d.sspace && d.len == 0 && d.lines == 0 && d.sstride == 0 && d.dstride == 0
    && copyAddrOk d.sspace 32 d.src && d.dst.toNat % 4 == 0 && recOk r
/-- Offset of source element (g, n) from SRC (R305). -/
def recOff (r : List Byte) (g n : Nat) : Nat := if recOrder r = 0 then g * recStride r + n * recElem r else n * recStride r + g * recElem r
/-- DST of a CPYS is an S byte address of the issuing core (R305, log 58). -/
def ownCore (a : Word64) : Word64 := 0xFFFF000000000000#64 ||| BitVec.ofNat 64 (a.toNat % 65536)
/-- Range checks of CPYS (R305). -/
def cpysFits (d : CopyDesc) (r : List Byte) : Bool :=
  d.dst.toNat + 4 * ((recG r - 1) * 128 + recN r) ≤ 65536 &&
    (d.sspace == 5 ||
      ((spaceLimits d.sspace).1 ≤ copyOff d.src && copyOff d.src + recOff r (recG r - 1) (recN r - 1) + recElem r ≤ (spaceLimits d.sspace).2))

/-! ### Words of a descriptor -/

/-- One word that the engine moves: its source offset or virtual address, its destination, and for a scale copy the elements it brings as
(byte in the source word, S address). -/
structure CWord where
  src : Nat
  dst : Nat
  els : List (Nat × Nat)
  deriving DecidableEq, Repr

/-- Base of a side: the offset in a core space, or the virtual address. -/
def sideBase (sp : Nat) (a : Word64) : Nat := if sp = 5 then a.toNat else copyOff a
/-- The source words of one group of scales with their elements, in ascending S address: elements that lie in one S word and one source
word come together. -/
def scaleWords (base dst : Nat) (r : List Byte) (g : Nat) : List CWord :=
  (List.range (recN r)).foldl (fun acc n =>
    let a := base + recOff r g n
    let t := dst + 4 * (g * 128 + n)
    match acc.getLast? with
    | some x => if x.src = a / 32 * 32 ∧ x.dst = t / 32 * 32 then acc.dropLast ++ [{ x with els := x.els ++ [(a % 32, t)] }]
                else acc ++ [{ src := a / 32 * 32, dst := t / 32 * 32, els := [(a % 32, t)] }]
    | none => [{ src := a / 32 * 32, dst := t / 32 * 32, els := [(a % 32, t)] }]) []
/-- The words of a scale copy. -/
def CopyDesc.scaleList (d : CopyDesc) (r : List Byte) : List CWord :=
  (List.range (recG r)).flatMap (scaleWords (sideBase d.sspace d.src) (copyOff d.dst) r)
/-- Number of words (R300). -/
def CopyDesc.words (d : CopyDesc) : Nat :=
  match d.scale with
  | some r => (d.scaleList r).length
  | none => d.len / 32 * d.lines
/-- Address of word w of a side of a plain copy (R300). -/
def lineAddr (sp : Nat) (a : Word64) (stride : Int) (per w : Nat) : Nat :=
  let off : Int := (w / per : Nat) * stride + 32 * (w % per : Nat)
  if sp = 5 then (a + BitVec.ofInt 64 off).toNat else ((copyOff a : Int) + off).toNat
/-- Word w of a descriptor. -/
def CopyDesc.word (d : CopyDesc) (w : Nat) : CWord :=
  match d.scale with
  | some r => (d.scaleList r).getD w { src := 0, dst := 0, els := [] }
  | none => { src := lineAddr d.sspace d.src d.sstride (d.len / 32) w, dst := lineAddr d.dspace d.dst d.dstride (d.len / 32) w, els := [] }
/-- Hops h_s and h_d (R283). -/
def CopyDesc.hs (d : CopyDesc) (c : Nat) : Nat := hops c (d.srcCore c)
def CopyDesc.hd (d : CopyDesc) (c : Nat) : Nat := hops (d.srcCore c) (d.dstCore c)
/-- The copy crosses dies. -/
def CopyDesc.cross (d : CopyDesc) (c : Nat) : Bool := coreDie (d.srcCore c) != coreDie c || coreDie (d.dstCore c) != coreDie (d.srcCore c)
/-- Word w begins a chunk: a new 4 KiB page of a global side (R304), or, where no side is global, each 4 KiB of words. -/
def CopyDesc.newChunk (d : CopyDesc) (w : Nat) : Bool :=
  if w = 0 then true
  else if d.sspace = 5 || d.dspace == 5 then
    let x := d.word (w - 1)
    let y := d.word w
    (d.sspace == 5 && x.src / 4096 != y.src / 4096) || (d.dspace == 5 && x.dst / 4096 != y.dst / 4096)
  else w % 128 == 0
/-- Words from x on, at most so many, up to the end of the chunk that holds w. -/
def CopyDesc.runFrom (d : CopyDesc) (w : Nat) : Nat → Nat → List Nat
  | 0, _ => []
  | n + 1, x => if x < d.words && (x == w || !d.newChunk x) then x :: d.runFrom w n (x + 1) else []
/-- Words [w, w + n) up to the end of the chunk that holds w. -/
def CopyDesc.run (d : CopyDesc) (w n : Nat) : List Nat := d.runFrom w n w

/-- An element of a scale copy widened to FP32 (R151, R305). -/
def scaleValue (ty : Nat) (bs : List Byte) : Nat :=
  let v := leNat bs
  match ty with
  | 0 => v
  | 1 => if 0x7F80 < v % 32768 then 0x7FC00000 else v * 65536
  | 2 => (fp32.pack 0 false 0 (fp16.decode v)).1
  | _ => if v = 255 then 0x7FC00000 else if v = 0 then 0x00400000 else v * 2 ^ 23
/-- What a word writes into a core space: address, bytes and selection. -/
def CopyDesc.put (d : CopyDesc) (w : Nat) (data : List Byte) : List (Nat × List Byte) :=
  let x := d.word w
  match d.scale with
  | some r => x.els.map (fun e => (e.2, leBytes 4 (scaleValue (recType r) ((data.drop e.1).take (recElem r)))))
  | none => [(x.dst, data)]

/-! ### The engine (R283, R303, R304) -/

/-- Words the running descriptor has. -/
def CopyRun.words (x : CopyRun) : Nat := x.cut.getD x.desc.words
/-- Whether it holds after a fault. -/
def CopyRun.holding (x : CopyRun) : Bool := x.holdAt.isSome
/-- A word may be handed on or written: it lies before the one the engine holds at (R293), and no earlier word of the same destination is
still to go. -/
def CopyRun.mayHand (x : CopyRun) (w : Nat) : Bool :=
  x.holdAt.all (fun h => w < h) && !x.unsent.any (fun v => v < w && (x.desc.word v).dst == (x.desc.word w).dst && x.desc.scale.isNone)
/-- The data of a word that waits with the engine. -/
def CopyRun.parkedAt (x : CopyRun) (w : Nat) : Option (List Byte × Bool) := (x.parked.find? (fun p => p.1 == w)).map (fun p => p.2)
/-- Words have been handed on or written. -/
def CopyRun.sent (x : CopyRun) (ws : List Nat) : CopyRun :=
  { x with unsent := x.unsent.filter (fun u => !ws.contains u), parked := x.parked.filter (fun p => !ws.contains p.1) }
/-- Words have been read or asked for. -/
def CopyRun.took (x : CopyRun) (ws : List Nat) : CopyRun :=
  { x with unsent := x.unsent ++ ws, nextWord := ws.foldl (fun a w => max a (w + 1)) x.nextWord }
/-- The words of a scale copy that come one by one wait until their whole S sector is there, so that a sector is written at once and the
sectors in ascending order (R284, R305). -/
def CopyDesc.gathers (d : CopyDesc) (c : Nat) : Bool := d.scale.isSome && (isBankSpace d.sspace || d.sspace == 5 || d.cross c)
/-- Change the descriptor that runs. -/
def State.modCopy (s : State) (c : Nat) (f : CopyRun → CopyRun) : State := s.modCore c (fun k => { k with copy := k.copy.map f })
/-- A leg of a copy's words at a cycle; a leg that begins a chunk waits for a freeze to end (R388). -/
def State.postCopy (s : State) (c w at_ : Nat) (leg : CopyLeg) (chunk : Bool) : State :=
  s.post at_ 1 (if chunk then some c else none) (.run .copyWord (.copy c w leg))
/-- The engine looks at its waiting words at a cycle, once. -/
def State.postHand (s : State) (c at_ : Nat) : State :=
  if s.agenda.any (fun e => e.at_ == at_ && (match e.act with | .run .copyWord (.copy x _ .hand) => x == c | _ => false)) then s
  else s.postCopy c 0 at_ .hand false
/-- Let the next word, or first the chunk it begins, go on at a cycle. -/
def State.postRead (s : State) (c at_ : Nat) : State :=
  match (s.core c).copy with
  | some x =>
    if x.words ≤ x.nextWord then s
    else
      let first := x.desc.newChunk x.nextWord
      if first && (x.desc.sspace == 5 || x.desc.dspace == 5) then s.post at_ 1 (some c) (.run .copyChunkTranslation (.nums [c]))
      else s.postCopy c x.nextWord at_ .read first
  | none => s
/-- Let the next descriptor start (R283). -/
def State.postDescriptor (s : State) (c at_ : Nat) : State := s.post at_ 1 (some c) (.run .descriptorStart (.nums [c]))
/-- The engine holds at word w: nothing of it or of later words goes on, and they are read again (R293). -/
def CopyRun.hold (x : CopyRun) (w : Nat) : CopyRun := { x with holdAt := some (x.holdAt.elim w (min w)) }
/-- The engine holds at word w and the fault is laid to the word that issued the copy (R293, R303, R304). -/
def State.holdCopy (s : State) (c w : Nat) (f : FaultRec) : State :=
  match (s.core c).copy with
  | some x => (s.modCopy c (fun x => x.hold w)).raise c { f with source := 3 } (some (.scalar, x.desc.entry))
  | none => s
/-- Words of the running descriptor have performed; after the last the next descriptor may start (R283). -/
def State.copyPerformed (s : State) (c n : Nat) : State :=
  let s := s.modCopy c (fun x => { x with performed := x.performed + n })
  match (s.core c).copy with
  | some x =>
    if x.words ≤ x.performed then
      (s.modCore c (fun k => { k with copy := none, copyFree := s.now + 1 })).postDescriptor c (s.now + 1)
    else s
  | none => s

/-- DESCRIPTOR_START (R283): no earlier than 4 cycles after its issue. -/
def execDescriptorStart (s : State) : Host.Outcome State Fault Refusal :=
  match s.arg with
  | .nums [c] =>
    let k := s.core c
    match k.copy, k.copyQ with
    | none, d :: rest =>
      let ready := d.entry.icyc + 4
      let cyc := s.localCyc c
      if cyc < ready then .next (s.postDescriptor c (s.now + (ready - cyc)))
      else
        let s1 := s.setCore c { k with copyQ := rest, copy := some { desc := d, start := s.now } }
        let lead := if isBankSpace d.sspace then 10 + 2 * d.hs c else if d.sspace = 5 then 0 else 2 * d.hs c
        .next (s1.postRead c (s.now + lead))
    | _, _ => .next s
  | _ => .next s

/-- The physical address of a translated virtual address of a side. -/
def CopyRun.pa (x : CopyRun) (side va : Nat) : Option Nat :=
  (x.pages.find? (fun p => p.1 == side && p.2.1 == va / 4096)).map (fun p => p.2.2 * 4096 + va % 4096)
/-- Keep the translation of a page. -/
def State.keepPage (s : State) (c side va pa : Nat) : State :=
  s.modCopy c (fun x => { x with pages := (side, va / 4096, pa / 4096) :: x.pages.filter (fun p => !(p.1 == side && p.2.1 == va / 4096)) })
/-- The address of a word of a chunk already translated; where a shootdown has since dropped its page it is translated again (R296). -/
def State.copyPa (s : State) (c side va kind : Nat) : Xlat :=
  match (s.core c).copy.bind (fun x => x.pa side va) with
  | some pa => .ok pa
  | none => s.translate 1 c va 32 kind (coreMaster 1 c)

/-- A side of the chunk that begins at a word: side, addresses of its words there, access kind. -/
def CopyRun.chunkSides (x : CopyRun) : List (Nat × List Nat × Nat) :=
  let ws := x.desc.run x.nextWord (x.words - x.nextWord)
  (if x.desc.sspace = 5 then [(0, ws.map (fun w => (x.desc.word w).src), kindCopySrc)] else [])
    ++ (if x.desc.dspace = 5 then [(1, ws.map (fun w => (x.desc.word w).dst), kindCopyDst)] else [])
/-- What the translation of a chunk comes to: first its pages, then the access tables for every word of it (R294, R304). -/
def State.chunkOutcome (s : State) (c : Nat) (sides : List (Nat × List Nat × Nat)) : Option (Nat × Nat × Xlat) :=
  let page := fun (p : Nat × List Nat × Nat) => (p.2.1.head?.getD 0, p.2.2, s.pageOf 1 c (p.2.1.head?.getD 0) p.2.2 (kindWrites p.2.2))
  match (sides.map page).find? (fun r => match r.2.2 with | .ok _ => false | _ => true) with
  | some r => some r
  | none =>
    (sides.flatMap (fun p => p.2.1.map (fun va => (va, p.2.2, s.translate 1 c va 32 p.2.2 (coreMaster 1 c))))).find? (fun r =>
      match r.2.2 with | .ok _ => false | _ => true)

/-- COPY_CHUNK_TRANSLATION (R290, R293, R294, R304): the pages of the chunk that begins are translated; a miss walks and waits in both modes; a
fault is raised once every chunk before has performed. -/
def execCopyChunkTranslation (s : State) : Host.Outcome State Fault Refusal :=
  match s.arg with
  | .nums [c] =>
    match (s.core c).copy with
    | some x =>
      let sides := x.chunkSides
      let again := fun (t : State) => t.post (t.now + 1) 1 (some c) (.run .copyChunkTranslation (.nums [c]))
      if x.holding then .next s
      else
        match s.chunkOutcome c sides with
        | some (va, _, .fault f) =>
          .next (if x.performed < x.nextWord then again s else (s.dropFailed 1 c va).holdCopy c x.nextWord f)
        | some (va, kind, _) => .next (again (s.startWalk 1 c va (kindWrites kind) kind))
        | none =>
          .next ((sides.foldl (fun t p =>
            let va := p.2.1.head?.getD 0
            match t.pageOf 1 c va p.2.2 (kindWrites p.2.2) with
            | .ok pa => t.keepPage c p.1 va pa
            | _ => t) s).postCopy c x.nextWord s.now .read false)
    | none => .next s
  | _ => .next s

/-- The shadow of a C tile or the access table of a bank forbids an access of the engine to a word of a core space (R95, R298). -/
def State.copyDenied (s : State) (c owner sp addr : Nat) (write : Bool) : Option FaultRec :=
  let k := s.core owner
  if sp = 1 && k.shadowed addr then some { code := 0x08, va := BitVec.ofNat 64 addr }
  else if isBankSpace sp then
    let ok := if write then (k.seamWrite (coreMaster 1 c) addr 32).isSome else k.seamRead (coreMaster 1 c) addr 32
    if ok then none else some (denied addr (if write then kindCopyDst else kindCopySrc))
  else none
/-- The same for the destination of a word. -/
def State.copyPutDenied (s : State) (c : Nat) (d : CopyDesc) (w : Nat) : Option FaultRec :=
  if d.dspace = 5 then none else s.copyDenied c (d.dstCore c) d.dspace (d.word w).dst true

/-- Write words into a core space (R258, R283, R406); refused words stay with the engine. -/
def State.copyWrite (s : State) (c w : Nat) (data : List Byte) (poison : Nat) : State :=
  match (s.core c).copy with
  | none => s
  | some x =>
    let d := x.desc
    let ws := (chunksOf 32 (data.length / 32) data).mapIdx (fun i b => (w + i, b, bitOf poison i))
    let park := fun (t : State) => t.modCopy c (fun x => { x with parked := x.parked.filter (fun p => !ws.any (fun u => u.1 == p.1)) ++ ws })
    match x.holdAt.any (fun h => h ≤ w), ws.findSome? (fun u => s.copyPutDenied c d u.1) with
    | true, _ => park s
    | _, some f => park (s.holdCopy c w f)
    | _, none =>
      let put := fun (t : State) (u : Nat × List Byte × Bool) =>
        (d.put u.1 u.2.1).foldl (fun t p => t.cycWrite { core := d.dstCore c, space := d.dspace, rank := if d.dspace = 0 then 2 else 0
                                                         addr := p.1, data := p.2, sel := [], poison := u.2.2 }) t
      ((ws.foldl put s).modCopy c (fun x => x.sent (ws.map (fun u => u.1)))).copyPerformed c ws.length
/-- The words of a scale copy's next sector, if all of them have come and it lies before the word the engine holds at. -/
def CopyRun.nextSector (x : CopyRun) : Option (List Nat) :=
  let first := x.performed
  let dst := (x.desc.word first).dst
  let ws := ((List.range 32).map (· + first)).takeWhile (fun w => w < x.words && (x.desc.word w).dst == dst)
  if !ws.isEmpty && ws.all (fun w => (x.parkedAt w).isSome && x.holdAt.all (fun h => w < h)) then some ws else none
/-- Write the sectors that are whole, in ascending order; `fuel` bounds them. -/
def State.flushSectors (s : State) (c : Nat) : Nat → State
  | 0 => s
  | fuel + 1 =>
    match (s.core c).copy.bind (fun x => x.nextSector.map (fun ws => (x, ws))) with
    | some (x, ws) =>
      let one := ws.map (fun w => ((x.parkedAt w).getD ([], false)))
      let s := s.copyWrite c (ws.headD 0) (one.flatMap (fun p => p.1)) ((one.mapIdx (fun i p => if p.2 then 2 ^ i else 0)).sum)
      if (s.core c).copy.any (fun x => x.holding) then s else s.flushSectors c fuel
    | none => s

/-- Words come to the engine's disposal: written in a core space, or kept until they are handed on. -/
def State.copyData (s : State) (c w : Nat) (data : List Byte) (poison : Nat) : State :=
  match (s.core c).copy with
  | some x =>
    let d := x.desc
    let ws := (chunksOf 32 (data.length / 32) data).mapIdx (fun i b => (w + i, b, bitOf poison i))
    if !x.unsent.contains w then s
    else if isBankSpace d.dspace || d.dspace == 5 || d.gathers c then
      let s := s.modCopy c (fun x => { x with parked := x.parked ++ ws })
      if d.gathers c then s.flushSectors c 1024 else s.postHand c s.now
    else s.copyWrite c w data poison
  | none => s

/-- The copy engine's pool has room for a word of a global side: its burst is outstanding already, or one more fits on the core and on its
controller (R188, R280, R304). -/
def State.burstFits (s : State) (c va pa : Nat) (id : Nat) (reads : Bool) : Bool :=
  s.greqs.any (fun g => g.core == c && g.src == 3 && g.entry.job == some id && g.job.returns == reads && g.va / 64 == va / 64)
    || (s.outstanding c < 2048 && (s.isRemote pa || !s.channelFull 32 [pa]))

/-- What asking for one word of a global side comes to: it has gone, it waits, or it faults. -/
inductive Asked where
  | gone (s : State)
  | waits (s : State)
  | fault (s : State) (f : FaultRec)
/-- Ask for or send one word of a global side (R281, R290, R297, R304). -/
def State.askWord (s : State) (c side va kind : Nat) (d : CopyDesc) (job : GJob) : Asked :=
  match s.copyPa c side va kind with
  | .ok pa =>
    if !s.elastic c && !s.isRemote pa && s.pageFrozen pa then .fault s { code := 4, sub := 6, va := BitVec.ofNat 64 va, kind }
    else if s.pageFrozen pa || !s.burstFits c va pa d.id job.returns then .waits s
    else .gone ((s.keepPage c side va pa).sendGlobal c 3 va pa 32 job 0 d.stamp d.entry none)
  | .fault f => .fault (s.dropFailed 1 c va) f
  | .miss => .waits (s.startWalk 1 c va (kindWrites kind) kind)

/-- A word is asked for at its source bank in the first cycle in which that bank's queue has room; words of other banks need not wait for it
(R303). -/
def State.askBank (s : State) (c : Nat) (x : CopyRun) (w : Nat) : State :=
  let d := x.desc
  let owner := d.srcCore c
  let a := (d.word w).src
  if !(s.core owner).bankRoom (bankOf a) then s.postCopy c w (s.now + 1) .ask false
  else
    let r : BankReq := { id := s.seq, core := c, bank := bankOf a, word := bankWord a, words := 1, beat := d.beat, slide := d.slide, src := 0
                         iseq := s.seq, seqNo := 0, tag := 0, stamp := d.stamp, rep := w, entry := d.entry, job := .copyOut w }
    s.sendBank owner r s.now
/-- Read words from w on: 8 a cycle from a core space, one request a cycle from a bank, or bursts from global memory (R283, R303, R304). -/
def State.copyRead (s : State) (c : Nat) (x : CopyRun) (w : Nat) : State :=
  let d := x.desc
  let owner := d.srcCore c
  if isBankSpace d.sspace then
    let a := (d.word w).src
    match s.copyDenied c owner d.sspace a false with
    | some f => s.holdCopy c w f
    | none =>
      ((s.modCopy c (fun x => x.took [w])).askBank c x w).postRead c (s.now + 1)
  else if d.sspace = 5 then
    let send := fun (acc : State × Bool) (u : Nat) =>
      if !acc.2 then acc
      else
        match acc.1.askWord c 0 (d.word u).src kindCopySrc d (.copyRead u 0) with
        | .gone t => (t.modCopy c (fun x => x.took [u]), true)
        | .waits t => (t, false)
        | .fault t f => (t.holdCopy c u f, false)
    let r := (d.run w 8).foldl send (s, true)
    let y := (r.1.core c).copy
    if r.2 then r.1.postRead c (s.now + 1)
    else if y.any (fun y => y.holding) then r.1
    else r.1.postCopy c (y.elim w (fun y => y.nextWord)) (s.now + 1) .read false
  else
    let ws := d.run w 8
    match ws.findSome? (fun u => (s.copyDenied c owner d.sspace (d.word u).src false).or (s.copyPutDenied c d u)) with
    | some f => s.holdCopy c w f
    | none =>
      let k := s.core owner
      let rd := ws.map (fun u => k.portRead d.sspace (d.word u).src 32)
      let s := ws.foldl (fun t u => t.afterReadBy c owner d.sspace (d.word u).src 32 1) s
      let data := rd.flatMap (fun r => r.data)
      let poison := (rd.mapIdx (fun i r => if r.poison then 2 ^ i else 0)).sum
      let s := s.modCopy c (fun x => x.took ws)
      let s :=
        if d.cross c then
          -- across dies each word performs within its bound (R281, R304)
          (ws.mapIdx (fun i u => (i, u))).foldl (fun (t : State) p =>
            t.drawn.postCopy c p.2 (t.within 1760) (.data ((data.drop (32 * p.1)).take 32) (if bitOf poison p.1 then 1 else 0)) false) s
        else if isBankSpace d.dspace || d.dspace == 5 then s.copyData c w data poison
        else s.postCopy c w (s.now + 8 + 2 * d.hd c) (.write data poison) false
      s.postRead c (s.now + 1)

/-- A word may be handed to a bank at s + 10 + w + 2(h_s + h_d) at the earliest, one a cycle, and when the bank has room (R303). -/
def State.bankReady (s : State) (c : Nat) (x : CopyRun) (w : Nat) : Bool :=
  x.handFree ≤ s.now && x.start + 10 + w + 2 * (x.desc.hs c + x.desc.hd c) ≤ s.now
    && (s.core (x.desc.dstCore c)).bankRoom (bankOf (x.desc.word w).dst)
/-- Hand waiting words on: one to a bank, or up to 8 to global memory while the pool has room (R303, R304). -/
def State.copyHand (s : State) (c : Nat) (x : CopyRun) : State :=
  let d := x.desc
  let next := fun (t : State) => if (t.core c).copy.any (fun y => y.parked.any (fun p => y.mayHand p.1)) then t.postHand c (t.now + 1) else t
  let ready := x.unsent.filter (fun w => (x.parkedAt w).isSome && x.mayHand w)
  if isBankSpace d.dspace then
    match ready.find? (s.bankReady c x) with
    | none => next s
    | some w =>
      let owner := d.dstCore c
      let a := (d.word w).dst
      match s.copyDenied c owner d.dspace a true with
      | some f => s.holdCopy c w f
      | none =>
        let p := (x.parkedAt w).getD ([], false)
        let tag := ((s.core owner).seamWrite (coreMaster 1 c) a 32).getD 0
        let r : BankReq := { id := s.seq, core := c, bank := bankOf a, word := bankWord a, words := 1, beat := d.beat, slide := d.slide, src := 0
                             iseq := s.seq, seqNo := 0, tag, stamp := d.stamp, rep := w, entry := d.entry, job := .copyIn w p.1 p.2 }
        next ((s.modCopy c (fun x => { x.sent [w] with handFree := s.now + 1 })).sendBank owner r s.now)
  else
    let send := fun (acc : State × Bool) (w : Nat) =>
      if !acc.2 then acc
      else
        let p := (x.parkedAt w).getD ([], false)
        match acc.1.askWord c 1 (d.word w).dst kindCopyDst d (.copyWrite w (if p.2 then 1 else 0) p.1) with
        | .gone t => (t.modCopy c (fun x => x.sent [w]), true)
        | .waits t => (t, false)
        | .fault t f => (t.holdCopy c w f, false)
    next ((ready.take 8).foldl send (s, true)).1

/-- COPY_WORD (R283, R303, R304): core, first word, and what happens to the words. -/
def execCopyWord (s : State) : Host.Outcome State Fault Refusal :=
  match s.arg with
  | .copy c w leg =>
    match (s.core c).copy with
    | some x =>
      match leg with
      | .read => .next (if x.holding || w != x.nextWord then s else s.copyRead c x w)
      | .ask => .next (if x.unsent.contains w then s.askBank c x w else s)
      | .data data poison => .next (s.copyData c w data poison)
      | .write data poison => .next (s.copyWrite c w data poison)
      | .hand => .next (s.copyHand c x)
      | .performed => .next (s.copyPerformed c 1)
    | none => .next s
  | _ => .next s

/-- A global word of a copy fails at its result (R282, R294): the engine holds at that word, which is read or written again after a resume. -/
def State.failCopyWord (s : State) (g : GReq) (w : Nat) (back : Option (List Byte × Bool)) : State :=
  let mine := fun (q : GReq) => q.core == g.core && q.entry.job == g.entry.job && (match q.job with | .copyRead u _ => decide (w ≤ u) | _ => false)
  if (s.core g.core).copy.any (fun x => some x.desc.id == g.entry.job) then
    match back with
    | some p => s.modCopy g.core (fun x => { x.hold w with unsent := x.unsent ++ [w], parked := x.parked ++ [(w, p)] })
    | none =>
      ({ s with greqs := s.greqs.filter (fun q => !mine q) } : State).modCopy g.core (fun x =>
        { x.hold w with nextWord := min x.nextWord w, unsent := x.unsent.filter (fun u => u < w), parked := x.parked.filter (fun p => p.1 < w) })
  else s

/-! ### CPY, CPYS, DRAIN (R302, R305, R306) -/

/-- The cores that a descriptor names lie in this package and are bound to the same launch (R301). -/
def copyCoreFault (s : State) (c sp : Nat) (a : Word64) : Option Nat :=
  let id := a.toNat / 2 ^ 48
  if sp = 5 || id == 0xFFFF then none
  else if id / 1024 % 64 != (s.core c).bnd.pkgPos then some 0x02
  else if (s.core (id % 1024)).bound.all (fun b => b.gen != (s.core c).bnd.gen) then some 0x13
  else none
/-- Some line of a side of a copy lies in a C tile that has a speculative shadow (R95). -/
def copyShadowed (s : State) (c sp : Nat) (a : Word64) (len lines : Nat) (stride : Int) : Bool :=
  let k := s.core (copyCore c a)
  sp == 1 && k.shadows.any (fun x => (List.range lines).any (fun j =>
    let lo := ((copyOff a : Int) + j * stride).toNat
    lo / 65536 ≤ x.tile && x.tile ≤ (lo + len - 1) / 65536))

/-- The re-injected word of a copy that holds: it resumes at its chunk or word instead of starting again (R303, R386, R398). -/
def Core.heldCopy (k : Core) : Bool :=
  match k.sc.ovr, k.sc.replay, k.copy with
  | some _, e :: _, some x => x.holding && e.job == some x.desc.id
  | _, _, _ => false
/-- The engine goes on after a hold. -/
def State.resumeCopy (s : State) (c : Nat) : State :=
  let s := s.modCopy c (fun x => { x with holdAt := none })
  match (s.core c).copy with
  | some x =>
    let s := s.postRead c s.now
    if x.desc.gathers c then s.flushSectors c 1024
    else if isBankSpace x.desc.dspace || x.desc.dspace == 5 then (if x.parked.isEmpty then s else s.postHand c s.now)
    else x.parked.foldl (fun t p => t.postCopy c p.1 t.now (.write p.2.1 (if p.2.2 then 1 else 0)) false) s
  | none => s
/-- Queue a checked descriptor, or refuse it where 16 have not started (R302). -/
def queueCopy (s : State) (c : Nat) (d : CopyDesc) : SOut :=
  let k := s.core c
  if 16 ≤ k.copyQ.length then .block s 6
  else .ok ((s.setCore c { k with copyQ := k.copyQ ++ [d] }).postDescriptor c (s.now + 4)) 1 none

/-- What CPY and CPYS check alike once the descriptor is read: cores, then the beat (R301, R302). -/
def copyChecks (s : State) (c : Nat) (d : CopyDesc) : SOut :=
  match (copyCoreFault s c d.sspace d.src).or (copyCoreFault s c d.dspace d.dst) with
  | some code => sfault s code
  | none =>
    if (isBankSpace d.sspace || isBankSpace d.dspace) && !s.isAccess d.beat then sOperand s
    else if copyShadowed s c d.sspace d.src (max d.len 32) (max d.lines 1) d.sstride || copyShadowed s c d.dspace d.dst (max d.len 32) (max d.lines 1) d.dstride then
      sfault s 0x08
    else queueCopy s c d

/-- CPY (R302). -/
def execCpy (g : BitVec 2) (a : BitVec 5) (s : State) : Host.Outcome State Fault Refusal :=
  scalarWord (.cpy g a) s (fun s c =>
    guardRegs s c [a.toNat]
      (let k := s.core c
       let ra := (k.oper 0 a.toNat).toNat
       if k.heldCopy then .ok (s.resumeCopy c) 1 none
       else if ra % 32 != 0 then .fault s { code := 0x11, va := BitVec.ofNat 64 ra, kind := kindLoad }
       else if aSize < ra + 32 then .fault s { code := 0x10, va := BitVec.ofNat 64 ra, kind := kindLoad }
       else
         let rd := k.portRead 0 ra 32
         let d := copyDescOf rd.data k.bt s.seq k.sc.istamp none k.scalarEntry
         if rd.poison then .fault (s.afterRead c 0 ra 32) { code := 0x18, va := BitVec.ofNat 64 ra, kind := kindLoad }
         else if !cpyOk rd.data d then sOperand s
         else if !linesFit d.sspace d.src d.len d.lines d.sstride || !linesFit d.dspace d.dst d.len d.lines d.dstride then
           .fault s { code := 0x10, va := BitVec.ofNat 64 ra, kind := kindLoad }
         else copyChecks (s.afterRead c 0 ra 32) c d))
/-- CPYS (R305). -/
def execCpys (g : BitVec 2) (a b : BitVec 5) (s : State) : Host.Outcome State Fault Refusal :=
  scalarWord (.cpys g a b) s (fun s c =>
    guardRegs s c [a.toNat, b.toNat]
      (let k := s.core c
       let ra := (k.oper 0 a.toNat).toNat
       let rb := (k.oper 1 b.toNat).toNat
       if k.heldCopy then .ok (s.resumeCopy c) 1 none
       else if ra % 32 != 0 then .fault s { code := 0x11, va := BitVec.ofNat 64 ra, kind := kindLoad }
       else if rb % 16 != 0 then .fault s { code := 0x11, va := BitVec.ofNat 64 rb, kind := kindLoad }
       else if aSize < ra + 32 then .fault s { code := 0x10, va := BitVec.ofNat 64 ra, kind := kindLoad }
       else if aSize < rb + 16 then .fault s { code := 0x10, va := BitVec.ofNat 64 rb, kind := kindLoad }
       else
         let rd := k.portRead 0 ra 32
         let rr := k.portRead 0 rb 16
         let d := copyDescOf rd.data k.bt s.seq k.sc.istamp (some rr.data) k.scalarEntry
         let s' := (s.afterRead c 0 ra 32).afterRead c 0 rb 16
         if rd.poison || rr.poison then .fault s' { code := 0x18, va := BitVec.ofNat 64 (if rd.poison then ra else rb), kind := kindLoad }
         else if !cpysOk rd.data d rr.data then sOperand s
         else if !cpysFits d rr.data then .fault s { code := 0x10, va := BitVec.ofNat 64 ra, kind := kindLoad }
         else copyChecks s' c { d with dst := ownCore d.dst }))

/-- Copies of a core that it issued before an issue order, queued or running. -/
def Core.copiesBefore (k : Core) (stamp : Nat) : List CopyDesc :=
  (k.copyQ ++ (k.copy.elim [] (fun x => [x.desc]))).filter (fun d => d.stamp < stamp)
/-- DRAIN (R306). -/
def execDrain (g : BitVec 2) (p : BitVec 4) (s : State) : Host.Outcome State Fault Refusal :=
  scalarWord (.drain g p) s (fun s c =>
    lateLook s c (!((s.core c).copiesBefore (s.core c).sc.istamp).any (fun d => d.dspace == p.toNat)) (.ok s 1 none))

end Sys2Proof.Machine
end

