-- ==== Sys2Proof/Machine/Results.lean ====
section
/-! DEFINITION. Results that take effect: scalar and vector results, loaded rows, results of global requests, the end of page walks, the end of a stall, and a promise that expires (R96, R167, R168, R170, R206, R207, R228, R282, R290, R317). -/

namespace Sys2Proof.Machine

/-! ### Scalar results (R167 to R170) -/

/-- A result becomes readable at its place, unless the result of a later-issued word has become readable there (R168); a register that waits for
another word's result goes on waiting (R170). -/
def State.landScalar (s : State) (c : Nat) (place : SPlace) (v : Word64) (stamp : Nat) : State :=
  s.modCore c (fun k =>
    match place with
    | .reg r =>
      let x := vget k.s r.toNat {}
      let pending := x.pending.filter (fun p => p != stamp)
      if r = 0 then k
      else { k with s := vset k.s r.toNat (if stamp < x.stamp then { x with pending } else { val := v, stamp, since := s.localCyc c, pending }) }
    | .cond b =>
      let x := vget k.b b.toNat {}
      if stamp < x.stamp then k else { k with b := vset k.b b.toNat { x with cond := v.toNat % 2 == 1, stamp } })
/-- SCALAR_RESULT (R167, R168). -/
def execScalarResult (s : State) : Host.Outcome State Fault Refusal :=
  match s.arg with
  | .sres r => .next (s.landScalar r.core r.place r.val r.stamp)
  | _ => .next s

/-! ### Vector results (R206 to R208, R212, R317) -/

/-- A row's last writer whose result has taken effect is later than this one (R207, R317). -/
def Core.outdated (k : Core) (row stamp rep : Nat) : Bool :=
  match Table.find? k.rows row with
  | some w => stamp < w.1 || (stamp == w.1 && rep < w.2)
  | none => false
/-- A row result takes effect. -/
def State.landRow (s : State) (c row stamp rep : Nat) (data : List Byte) (sel : List Bool) : State :=
  if (s.core c).outdated row stamp rep then s
  else
    (s.modCore c (fun k => { k with rows := Table.put k.rows row (stamp, rep) })).cycWrite
      { core := c, space := 0, rank := 3, addr := 256 * row, data, sel }
/-- A mask result takes effect; m0 keeps reading as all ones (R205, R207). -/
def State.landMask (s : State) (c m stamp : Nat) (v : Nat) : State :=
  s.modCore c (fun k =>
    let x := vget k.m m {}
    let pending := x.pending.filter (fun p => p != stamp)
    if m = 0 then k else { k with m := vset k.m m (if stamp < x.stamp then { x with pending } else { val := BitVec.ofNat 256 v, stamp, pending }) })
/-- A push into QV2S or QV2M that was on its way (R208). -/
def State.landQv2s (s : State) (c : Nat) (data : List Byte) : State :=
  s.modCore c (fun k => { k with qv2s := { k.qv2s.push s.now (BitVec.ofNat 64 (leNat data)) with inflight := k.qv2s.inflight - 1 } })
def State.landQv2m (s : State) (c : Nat) (data : List Byte) : State :=
  s.modCore c (fun k => { k with qv2m := { k.qv2m.push s.now data with inflight := k.qv2m.inflight - 1 } })
/-- A vector result takes effect, with its flags. -/
def State.landVector (s : State) (r : VRes) : State :=
  let s1 := match r.place with
    | .row n => s.landRow r.core n r.stamp r.rep r.data r.sel
    | .crow addr => s.cycWrite { core := r.core, space := 1, rank := 1, addr, data := r.data, sel := r.sel }
    | .mask m => s.landMask r.core m.toNat r.stamp (leNat r.data)
    | .areg a =>
      s.modCore r.core (fun k =>
        if r.stamp < (vget k.ar a.toNat {}).stamp then k else { k with ar := vset k.ar a.toNat { val := BitVec.ofNat 64 (leNat r.data), stamp := r.stamp } })
    | .qv2s => s.landQv2s r.core r.data
    | .qv2m => s.landQv2m r.core r.data
    | .flags => s
  s1.orVstat r.core r.flags

/-- A loaded row, merged with the row as it stands now; inactive bytes are zero where nothing is kept (R209, R317). -/
def RowJoin.merged (j : RowJoin) (old : List Byte) : List Byte :=
  (List.range 256).map (fun i =>
    if j.sel.getD i false then j.data.getD i 0 else if j.keep.getD i false then old.getD i 0 else 0)
/-- A loaded row takes effect (R317); poison raises POISON instead and D is not written (R278, R320). -/
def State.landJoin (s : State) (j : RowJoin) : State :=
  let s := { s with joins := s.joins.filter (fun x => x.id != j.id) }
  let code := j.row
  if j.poisoned then
    let s := s.modCore j.core (fun k =>
      if code = codeQV2S then { k with qv2s := { k.qv2s with inflight := k.qv2s.inflight - 1 } }
      else if code = codeQV2M then { k with qv2m := { k.qv2m with inflight := k.qv2m.inflight - 1 } }
      else k)
    s.raiseVector j.core j.stamp j.rep { code := 0x18, va := j.entry.va, kind := j.entry.kind } j.entry
  else if code = codeQV2S then { s with free := s.free + 256 }.landQv2s j.core (qv2sValue j.ty (j.merged s.freeRow))
  else if code = codeQV2M then s.landQv2m j.core (j.merged zeroRow)
  else if code < 1536 then s.landRow j.core code j.stamp j.rep (j.merged (s.aBytes j.core (256 * code) 256)) []
  else s
/-- A loaded row by number. -/
def State.landJoinId (s : State) (id : Nat) : State :=
  match s.joins.find? (fun j => j.id == id) with
  | some j => s.landJoin j
  | none => s
/-- VECTOR_RESULT (R206, R207): a result, or a loaded row by number (R317). -/
def execVectorResult (s : State) : Host.Outcome State Fault Refusal :=
  match s.arg with
  | .vres r => .next (s.landVector r)
  | .nums [id] => .next (s.landJoinId id)
  | _ => .next s

/-! ### Results of global requests (R170, R188, R228, R278, R320, R343) -/

/-- A register or mask that waits for a request no longer does (R170, R228). -/
def State.stopWaiting (s : State) (g : GReq) : State :=
  let reg := fun (rd : BitVec 5) => s.modCore g.core (fun k =>
    let r := vget k.s rd.toNat {}
    { k with s := vset k.s rd.toNat { r with pending := r.pending.filter (fun p => p != g.stamp) } })
  match g.job with
  | .load rd _ _ => reg rd
  | .amo _ _ _ rd => reg rd
  | .cas _ _ _ rd => reg rd
  | .vmpos m => s.modCore g.core (fun k =>
      let r := vget k.m m.toNat {}
      { k with m := vset k.m m.toNat { r with pending := r.pending.filter (fun p => p != g.stamp) } })
  | _ => s
/-- The kind of access that a request is (R394). -/
def GJob.kind : GJob → Nat
  | .store _ _ => kindStore
  | .amo _ _ _ _ => kindAtomic
  | .cas _ _ _ _ => kindAtomic
  | .semaphore _ _ _ => kindAtomic
  | .vmpos _ => kindVmpos
  | .copyRead _ _ => kindCopySrc
  | .copyWrite _ _ _ => kindCopyDst
  | _ => kindLoad
/-- A scalar access that faults after its issue leaves no effect: the base that it has incremented holds its old value again, unless a later word
has written it (R186). -/
def State.undoInc (s : State) (g : GReq) : State :=
  let w := g.entry.word.toNat
  if g.src = 0 ∧ 0x18 ≤ bitsOf w 26 6 ∧ bitsOf w 26 6 ≤ 0x1D ∧ bitOf w 11 then
    let a := bitsOf w 14 5
    s.modCore g.core (fun k =>
      let r := vget k.s a {}
      if a != 0 && r.stamp == g.stamp then { k with s := vset k.s a { r with val := g.entry.opa } } else k)
  else s
/-- A request's fault at its result: POISON, a promise that was not kept, or what another package's table denied (R278, R282, R298). A copy
engine holds at its word (R293). -/
def State.failRequest (s : State) (g : GReq) (code sub : Nat) : State :=
  let f : FaultRec := { code, sub, source := g.src, va := BitVec.ofNat 64 g.va, kind := g.job.kind }
  let s := (s.stopWaiting g).undoInc g
  let s := match g.job with
    | .copyRead w _ => s.failCopyWord g w none
    | .copyWrite w poison d => s.failCopyWord g w (some (d, poison != 0))
    | _ => s
  let waits := (match g.job with | .waitm => true | _ => false) && (s.core g.core).sc.sub == 3 && (s.core g.core).sc.istamp == g.stamp
  if waits then s.raiseIn g.core f .scalar (s.core g.core).scalarEntry
  else if g.src = 1 then s.raiseVector g.core g.stamp g.entry.next f g.entry
  else s.raise g.core f (if g.src = 0 then some (.scalar, g.entry) else if g.src = 3 then some (.scalar, g.entry) else none)
/-- A request's value reaches its destination. A WAITM issues again to look at it. -/
def State.returnValue (s : State) (g : GReq) : State :=
  match g.job with
  | .load rd _ signed => s.landScalar g.core (.reg rd) (extendBytes signed g.val) g.stamp
  | .amo _ _ _ rd => s.landScalar g.core (.reg rd) (extendBytes true g.val) g.stamp
  | .cas _ _ _ rd => s.landScalar g.core (.reg rd) (extendBytes true g.val) g.stamp
  | .vmpos m => s.landMask g.core m.toNat g.stamp (leNat g.val)
  | .waitm => if (s.core g.core).sc.sub = 3 && (s.core g.core).sc.istamp == g.stamp then s.postIssue g.core .scalar s.now else s
  | _ => s
/-- A fault of a stream-unit operation: STREAM_STATE and LATE_FRAME complete the word (R377); its register no longer waits. -/
def State.dsFault (s : State) (o : DsOp) (f : FaultRec) : State :=
  let s := s.modCore o.core (fun k =>
    let r := vget k.s o.rd.toNat {}
    { k with s := vset k.s o.rd.toNat { r with pending := r.pending.filter (fun p => p != o.stamp) } })
  s.raise o.core { f with source := 7 } (some (.scalar, { o.entry with done := f.code == 0x30 || f.code == 0x31, own := false }))
/-- PROMISE_EXPIRY (R282, R376): a request or an operation of the stream unit not performed when its bound expires raises DEVIATION subcode 8. -/
def execPromiseExpiry (s : State) : Host.Outcome State Fault Refusal :=
  match s.arg with
  | .nums [id] =>
    match s.greqs.find? (fun g => g.id == id && !g.done) with
    | some g => .next (({ s with greqs := s.greqs.filter (fun x => x.id != id) } : State).failRequest g 4 8)
    | none =>
      match s.dsops.find? (fun o => o.id == id) with
      | some o => .next (({ s with dsops := s.dsops.filter (fun x => x.id != id) } : State).dsFault o { code := 4, sub := 8, va := o.base, kind := 7 })
      | none => .next s
  | _ => .next s

/-! ### Stalls and walks (R96, R290) -/

/-- STALL_RELEASE (R96): the stream looks at its condition again in this cycle. -/
def execStallRelease (s : State) : Host.Outcome State Fault Refusal :=
  match s.arg with
  | .strm c k => .next (s.postIssue c k s.now)
  | _ => .next s

/-- PAGE_WALK (R290): a walk ends; it fills the TLB, or its access faults when it looks again. A walk that a shootdown has overtaken fills
nothing (R295). -/
def execPageWalk (s : State) : Host.Outcome State Fault Refusal :=
  match s.arg with
  | .nums [id] =>
    match s.walks.find? (fun w => w.id == id) with
    | some w => .next (({ s with walks := s.walks.filter (fun x => x.id != id) } : State).endWalk w)
    | none => .next s
  | _ => .next s

end Sys2Proof.Machine
end

