-- ==== Sys2Proof/Machine/Perform.lean ====
section
/-! DEFINITION. A global request performs at its home: loads, stores, atomics, row parts, bitmaps, copy words and hand-off semaphores, with the poison and the soft errors of LPDDR (R186 to R190, R228, R281, R284, R320, R321, R337, R343, R358, R406). -/

namespace Sys2Proof.Machine

/-! ### Soft errors of LPDDR (R406, R407) -/

/-- Flipped bits of one 64-bit word of LPDDR. -/
def State.flipsIn (s : State) (w : Nat) : Nat := (s.memUpsets.filter (fun u => u.1 / 8 == w)).length
/-- The 64-bit words that bytes touch. -/
def dwordsOf (a n : Nat) : List Nat := if n = 0 then [] else (List.range ((a + n - 1) / 8 - a / 8 + 1)).map (· + a / 8)
/-- A read of LPDDR meets flipped bits: a single one is corrected and reported, two poison their sector (R406, R407). -/
def State.memScrub (s : State) (pa n : Nat) : State :=
  if s.memUpsets.isEmpty then s
  else
    let loc := pa % 2 ^ 50
    (dwordsOf loc n).foldl (fun t w =>
      match t.flipsIn w with
      | 0 => t
      | 1 => t.devEvent 1 (loc / 2 ^ 40) (channelOf loc) (8 * w) 0
      | _ =>
        let t : State := { t with memPoison := if t.memPoison.contains (8 * w / 32) then t.memPoison else t.memPoison ++ [8 * w / 32]
                                  memUpsets := t.memUpsets.filter (fun u => u.1 / 8 != w) }
        t.devEvent 2 (loc / 2 ^ 40) (channelOf loc) (8 * w) 0) s

/-! ### Performing (R189, R190, R281) -/

/-- A local LPDDR address. -/
def State.isLocal (s : State) (pa : Nat) : Bool := match s.homeOf pa with | .lpddr _ => true | _ => false
/-- What an atomic leaves in memory, of the old value (R189, R190); none where nothing is written. -/
def GJob.newValue (n old : Nat) : GJob → Option Nat
  | .amo op _ b _ => some (amoFn op n old b.toNat)
  | .cas _ b c _ => if old = b.toNat % 2 ^ (8 * n) then some (c.toNat % 2 ^ (8 * n)) else none
  | .semaphore _ _ _ => some ((old + 1) % 2 ^ 64)
  | _ => none

/-- Drop a request: its slot is free. -/
def State.dropReq (s : State) (id : Nat) : State := { s with greqs := s.greqs.filter (fun x => x.id != id) }
/-- Keep what a request found at its home until its result returns. -/
def State.foundAt (s : State) (id : Nat) (val : List Byte) (bad : Bool) : State :=
  { s with greqs := s.greqs.map (fun x => if x.id = id then { x with done := true, val, poisoned := bad } else x) }

/-- A part of a row that a global load fills has come (R320, R321); the last part of a row that waits for no cycle lets it take effect. -/
def State.fillJoin (s : State) (core jid off : Nat) (val : List Byte) (bad : Bool) (va : Nat) : State :=
  let s : State := { s with joins := s.joins.map (fun j =>
    if j.id = jid then
      { j with data := j.data.take off ++ val ++ j.data.drop (off + val.length), left := j.left - 1, poisoned := j.poisoned || bad
               entry := if bad && !j.poisoned then { j.entry with va := BitVec.ofNat 64 va } else j.entry }
    else j) }
  match s.joins.find? (fun j => j.id == jid) with
  | some j => if j.left = 0 ∧ j.due = 0 then s.post s.now 0 (some core) (.run .globalResultReturn (.nums [jid, 1])) else s
  | none => s

/-- A write reaches its home with or without poison (R406). -/
def State.homeWriteP (s : State) (pa : Nat) (data : List Byte) (sel : List Bool) (bad : Bool) : State :=
  let s := s.homeWriteSel pa data sel
  if bad && s.isLocal (s.forwardPa pa) then
    { s with memPoison := s.memPoison ++ (wordsOf (s.forwardPa pa % 2 ^ 50) data.length).filter (fun w => !s.memPoison.contains w) }
  else s
/-- A read finds bytes at their home: soft errors are looked at, a poisoned sector is told (R406). -/
def State.readHome (s : State) (pa n : Nat) : State × List Byte × Bool :=
  let pa := s.forwardPa pa
  if s.isLocal pa then
    let s := s.memScrub pa n
    (s, s.homeRead pa n, s.memPoisoned pa n)
  else (s.drawn, s.homeRead pa n, false)

/-- What a request found reaches its issuer: the row it fills, the copy engine, the semaphore's issuer, or its result, which waits for its
cycle; one from another package returns at once (R170, R337). -/
def State.foundHome (s : State) (g : GReq) (val : List Byte) (bad far : Bool) : State :=
  match g.job with
  | .store _ _ => s.dropReq g.id
  | .copyWrite _ _ _ =>
    let s := s.dropReq g.id
    if (s.core g.core).copy.any (fun x => some x.desc.id == g.entry.job) then s.copyPerformed g.core 1 else s
  | .copyRead w _ =>
    let s := s.dropReq g.id
    if (s.core g.core).copy.any (fun x => some x.desc.id == g.entry.job) then s.copyData g.core w val (if bad then 1 else 0) else s
  | .rowLoad jid off => (s.dropReq g.id).fillJoin g.core jid off val bad g.va
  | .semaphore pc pn bit =>
    (s.dropReq g.id).post s.now 0 none (.run .semaphoreHandoff (.word [g.core, pc, pn, bit] (BitVec.ofNat 64 (leNat val))))
  | _ =>
    let s := s.foundAt g.id val bad
    if far then s.post s.now 0 (some g.core) (.run .globalResultReturn (.nums [g.id])) else s
/-- A request arrives at an old home whose page has moved to another package: it is sent on there, and its result comes back to its issuer from
there (R297, R337, R340). -/
def State.sendOn (s : State) (g : GReq) : State :=
  let g' : GReq := { g with pa := s.forwardPa g.pa, group := (match g.job with | .vmpos _ => g.group.map s.forwardPa | _ => g.group), performAt := s.windowPlus2,
                            left := g.parts.length }
  let t : State := { s with greqs := s.greqs.map (fun x => if x.id = g.id then g' else x) }
  if g.job.returns then (t.post s.windowPlus2 3 none (.run .promiseExpiry (.nums [g.id]))).sendAway g'
  else (t.post s.windowPlus2 0 none (.run .globalPerform (.nums [g.id]))).sendAway g'
/-- A request performs at its home in this package, once (R188, R189, R281); an atomic that finds poison writes nothing. -/
def State.performHere (s : State) (g : GReq) : State :=
  let r := if g.job.returns then
      g.parts.foldl (fun (acc : State × List Byte × Bool) p =>
        let x := acc.1.readHome p.2.1 p.2.2
        (x.1, acc.2.1 ++ x.2.1, acc.2.2 || x.2.2)) (s, [], false)
    else (s, [], false)
  let s := r.1
  let s := match g.job with
    | .store d sel => s.homeWriteSel g.pa d sel
    | .copyWrite _ poison d => s.homeWriteP g.pa d [] (poison != 0)
    | j =>
      match j.newValue g.n (leNat r.2.1) with
      | some v => if r.2.2 then s else s.homeWrite g.pa (leBytes g.n v)
      | none => s
  s.foundHome g r.2.1 r.2.2 false
/-- A request that has reached its home performs there, or is sent on where its page has moved to another package. -/
def State.perform (s : State) (g : GReq) : State :=
  if g.parts.any (fun p => s.isRemote (s.forwardPa p.2.1)) then s.sendOn g else s.performHere g
/-- A part of a read whose other parts lie in another package has come; the last one lets the value go on. -/
def State.partFound (s : State) (g : GReq) (off : Nat) (data : List Byte) (bad : Bool) : State :=
  let old := if g.val.isEmpty then List.replicate g.n 0 else g.val
  let val := (old.take off ++ data ++ old.drop (off + data.length)).take g.n
  let bad := g.poisoned || bad
  if g.left ≤ 1 then s.foundHome g val bad true
  else { s with greqs := s.greqs.map (fun x => if x.id = g.id then { x with val, poisoned := bad, left := x.left - 1 } else x) }

/-! ### Requests of other packages (R299, R337, R406) -/

/-- The address, bytes and right of a request from another package (R298). -/
def farNeed : FarReq → Nat × Nat × Nat
  | .read _ pa n => (pa, n, 0)
  | .write _ pa d _ _ => (pa, d.length, 1)
  | .atomic _ pa _ size _ _ => (pa, size, 2)
  | .ds _ _ _ _ _ base _ _ => (base.toNat, 256, 1)
/-- The number a sender gave its request. -/
def farNum : FarReq → Nat
  | .read id _ _ => id
  | .write id _ _ _ _ => id
  | .atomic id _ _ _ _ _ => id
  | .ds id _ _ _ _ _ _ _ => id
/-- Answer a request. -/
def State.answer (s : State) (pkg id : Nat) (data : List Byte) (code : Nat) : State := s.send pkg (.reply s.window id data code)
/-- A request with another number and address. -/
def farMoved (r : FarReq) (id pa : Nat) : FarReq :=
  match r with
  | .read _ _ n => .read id pa n
  | .write _ _ d sel poison => .write id pa d sel poison
  | .atomic _ _ op size b c => .atomic id pa op size b c
  | .ds _ spid op cur win base a b => .ds id spid op cur win base a b
/-- A request of another package to a page that has moved to a third is sent on there, and the answer goes back through here (R297). -/
def State.relay (s : State) (pkg : Nat) (r : FarReq) (pa : Nat) : State :=
  let id := 64 * s.seq + 63
  let t : State := { s with seq := s.seq + 1, relays := s.relays ++ [(id, pkg, farNum r)] }
  t.send (paPkg pa) (.request s.window (farMoved r id pa))
/-- A request of another package performs at its home here: the target's access table decides under class 9 and that package's number (R298,
R299). A page that a final pass has frozen is reached when the freeze ends, and later requests of that package stand behind (R297, R337). -/
def State.farPerform (s : State) (pkg : Nat) (r : FarReq) : State :=
  let q := farNeed r
  let home := s.forwardPa q.1
  if s.pageFrozen q.1 || s.heldBack pkg then s.holdBack pkg r
  else if s.isRemote q.1 || !s.mayAccess (9 * 4096 + pkg) q.1 q.2.1 q.2.2 then s.answer pkg (farNum r) [] 0x13
  else if s.isRemote home then s.relay pkg r home
  else
    match r with
    | .read id pa n =>
      let x := s.readHome pa n
      x.1.answer pkg id x.2.1 (if x.2.2 then 0x18 else 0)
    | .write _ pa d sel poison => s.homeWriteP pa d sel poison
    | .atomic id pa op size b c =>
      let x := s.readHome pa size
      let job : GJob := if op = 10 then .cas size b c 0 else .amo op size b 0
      let t := match job.newValue size (leNat x.2.1) with
        | some v => if x.2.2 then x.1 else x.1.homeWrite pa (leBytes size v)
        | none => x.1
      t.answer pkg id x.2.1 (if x.2.2 then 0x18 else 0)
    | .ds _ _ _ _ _ _ _ _ => s

/-! ### Requests of harts to other packages (R332, R337) -/

/-- A hart sends a request to another package (R332, R337): one that answers holds the hart, whose word is `len` bytes long, until it does. -/
def State.hartSend (s : State) (h len pkg : Nat) (r : FarReq) (ret : Option HartRet) : State :=
  let id := 64 * s.seq + 62
  let q : HartReq := { id, hart := h, due := s.windowPlus2, len, ret }
  let t : State := { s with seq := s.seq + 1, hartReqs := s.hartReqs.filter (fun x => x.ret.isSome || s.now < x.due) ++ [q] }
  let t := t.send pkg (.request s.window (farMoved r id (farNeed r).1))
  if ret.isSome then t.modHart h (fun x => { x with blocked := true }) else t
/-- Stores of a hart to other packages that have not performed yet (R332). -/
def State.hartStoresDue (s : State) (h : Nat) : Bool := s.hartReqs.any (fun x => x.hart == h && x.ret.isNone && decide (s.now < x.due))
/-- What another package answers to a hart (R337): a value goes to its register, and a denial is an access fault; either way the hart goes on. -/
def State.hartAnswer (s : State) (q : HartReq) (data : List Byte) (code : Nat) : State :=
  let s : State := { s with hartReqs := s.hartReqs.filter (fun x => x.id != q.id) }
  match q.ret with
  | none => s
  | some r =>
    let s := s.modHart q.hart (fun x => { x with blocked := false })
    if code = 0x13 then s.hartTrap q.hart r.cause 0
    else s.modHart q.hart (fun x => { x.take r (leNat (data.take r.size)) with pc := x.pc + BitVec.ofNat 64 q.len })
/-- An answer that no core of this package has asked for: one to a hart, or one that goes back to the package whose request was sent on (R297). -/
def State.otherAnswer (s : State) (id : Nat) (data : List Byte) (code : Nat) : State :=
  match s.hartReqs.find? (fun x => x.id == id) with
  | some q => s.hartAnswer q data code
  | none =>
    match s.relays.find? (fun x => x.1 == id) with
    | some x => ({ s with relays := s.relays.filter (fun y => y.1 != id) } : State).answer x.2.1 x.2.2 data code
    | none => s
/-- GLOBAL_PERFORM (R188, R281, R299, R337): the request with this number performs at its home; slots without a request of their own are
released (R322); a write to another package counts as performed; the local part of a read that also reaches another package performs; or, as
an input, a request of another package. -/
def execGlobalPerform (s : State) : Host.Outcome State Fault Refusal :=
  match s.arg with
  | .nums [id] =>
    match s.greqs.find? (fun g => g.id == id && !g.done) with
    | some g => .next (if g.n = 0 then s.dropReq id else if s.isRemote g.pa then s.foundHome g [] false true else s.perform g)
    | none => .next s
  | .nums [id, off] =>
    match s.greqs.find? (fun g => g.id == id && !g.done) with
    | some g =>
      match g.parts.find? (fun p => p.1 == off) with
      | some p =>
        let x := s.readHome p.2.1 p.2.2
        .next (x.1.partFound g off x.2.1 x.2.2)
      | none => .next s
    | none => .next s
  | .far _ (.ds _ _ _ _ _ _ _ _) => .next s
  | .far pkg r => .next (s.farPerform pkg r)
  | _ => .next s

/-! ### Results of global requests (R170, R188, R228, R278, R320, R337) -/

/-- GLOBAL_RESULT_RETURN (R170, R337): a request's result; a row that global requests have filled (second operand 1); or, as an input, what
another package answers: bytes, or a fault of the request's word. -/
def execGlobalResultReturn (s : State) : Host.Outcome State Fault Refusal :=
  match s.arg with
  | .nums [id, 1] => .next (s.landJoinId id)
  | .nums [id] =>
    match s.greqs.find? (fun g => g.id == id) with
    | some g =>
      let keep := match g.job with | .waitm => true | _ => false
      let s1 := if keep then s else s.dropReq id
      -- a WAITM looks at what it read when it issues again
      .next (if g.poisoned && !keep then s1.failRequest g 0x18 0 else if !g.done then s1.failRequest g 4 8 else s1.returnValue g)
    | none => .next s
  | .reply id data code =>
    match s.greqs.find? (fun g => g.id == id / 64 && !g.done && g.parts.any (fun p => p.1 == id % 64 && s.isRemote p.2.1)) with
    | some g =>
      let n := ((g.parts.find? (fun p => p.1 == id % 64)).elim 0 (fun p => p.2.2))
      if code = 0 || code == 0x18 then .next (s.partFound g (id % 64) ((data ++ List.replicate n 0).take n) (code == 0x18))
      else .next ((s.dropReq g.id).failRequest g code 0)
    | none => .next (s.otherAnswer id data code)
  | _ => .next s

end Sys2Proof.Machine
end

