-- ==== Sys2Proof/Machine/ScalarSys.lean ====
section
/-! DEFINITION. Queue and block words, time, the array lease, speculative tags, and the SYS words (R83, R192 to R204). -/

namespace Sys2Proof.Machine

/-! ### Queues and blocks (R192 to R194) -/

/-- QPUSH (R192): QS2V or QS2M. -/
def execQpush (g : BitVec 2) (r : BitVec 5) (q : BitVec 4) (s : State) : Host.Outcome State Fault Refusal :=
  scalarWord (.qpush g r q) s (fun s c =>
    if q ≠ 0 ∧ q ≠ 2 then sOperand s
    else
      guardRegs s c [r.toNat]
        (let k := s.core c
         let v := k.sval r.toNat
         if q = 0 then
           if k.qs2v.taken s.now < 8 then .ok (s.setCore c { k with qs2v := k.qs2v.push s.now v }) 1 none else .block s 2
         else if k.qs2m.taken s.now < 16 then .ok (s.setCore c { k with qs2m := k.qs2m.push s.now v }) 1 none
         else .block s 2))
/-- QPOP and QPEEK of QV2S (R192). -/
def qreadWord (i : Instr) (r : BitVec 5) (q : BitVec 4) (pop : Bool) (s : State) : Host.Outcome State Fault Refusal :=
  scalarWord i s (fun s c =>
    if q ≠ 1 then sOperand s
    else
      guardRegs s c [r.toNat]
        (let k := s.core c
         if k.qv2s.canPop s.now then
           let v := k.qv2s.head?.getD 0
           let s1 := if pop then s.setCore c { k with qv2s := k.qv2s.pop s.now } else s
           .ok (s1.toReg c r v 1) 1 none
         else .block s 1))
/-- QPOP (R192). -/
def execQpop (g : BitVec 2) (r : BitVec 5) (q : BitVec 4) (s : State) : Host.Outcome State Fault Refusal := qreadWord (.qpop g r q) r q true s
/-- QPEEK (R192). -/
def execQpeek (g : BitVec 2) (r : BitVec 5) (q : BitVec 4) (s : State) : Host.Outcome State Fault Refusal := qreadWord (.qpeek g r q) r q false s
/-- QCNT of any of the three queues (R192). -/
def execQcnt (g : BitVec 2) (r : BitVec 5) (q : BitVec 4) (s : State) : Host.Outcome State Fault Refusal :=
  scalarWord (.qcnt g r q) s (fun s c =>
    if 3 ≤ q.toNat then sOperand s
    else
      guardRegs s c [r.toNat]
        (let k := s.core c
         let n := if q = 0 then k.qs2v.count s.now else if q = 1 then k.qv2s.count s.now else k.qs2m.count s.now
         .ok (s.toReg c r (BitVec.ofNat 64 n) 1) 1 none))

/-- Push a block entry; an idle stream starts it in the first cycle the entry is present (R91, R93). -/
def State.pushBlock (s : State) (c : Nat) (strm : Strm) (e : BlkEntry) : State :=
  let k := s.core c
  let q := match strm with | .matrix => k.bqm | _ => k.bqv
  let idle := !(k.strm strm).live && q.items.isEmpty && (k.strm strm).replay.isEmpty
  let q' := q.push s.now e
  let s := s.setCore c (match strm with | .matrix => { k with bqm := q' } | _ => { k with bqv := q' })
  if idle then s.post (s.now + 1) 1 (some c) (.run .blockStart (.strm c strm)) else s

/-- BLK (R193): limits of R125, a full queue blocks, a speculative push marks its tag unresolved. -/
def execBlk (g : BitVec 2) (q sp : BitVec 1) (t : BitVec 3) (n : BitVec 6) (a : BitVec 13) (s : State) : Host.Outcome State Fault Refusal :=
  scalarWord (.blk g q sp t n a) s (fun s c =>
    let k := s.core c
    if (q = 1 && 4096 ≤ a.toNat) || (q = 0 && sp == 1) then sOperand s
    else
      let taken := if q = 1 then k.bqm.taken s.now else k.bqv.taken s.now
      if 16 ≤ taken then .block s 2
      else
        let e : BlkEntry := { addr := a.toNat, left := n.toNat + 1, spec := sp == 1, tag := t.toNat, pushed := s.now }
        let s := if sp = 1 ∧ t.toNat ∉ k.specTags then s.setCore c { k with specTags := k.specTags ++ [t.toNat] } else s
        .ok (s.pushBlock c (if q = 1 then .matrix else .vector) e) 1 none)

/-- The matrix stream's next command boundary: at once when no command is in progress, else when it ends (R95, R200; log 14). -/
def State.boundary (s : State) (c : Nat) : Nat := max s.now (s.core c).mx.busyTo
/-- Phase of an effect at a boundary: after this cycle's issues when at once, before the next command otherwise. -/
def State.boundaryPhase (s : State) (c : Nat) : Nat := if (s.core c).mx.busyTo ≤ s.now then 3 else 1
/-- SCOMMIT and SDROP: the tag is resolved at the next command boundary (R194). -/
def resolveWord (i : Instr) (commit : Bool) (t : BitVec 3) (s : State) : Host.Outcome State Fault Refusal :=
  scalarWord i s (fun s c =>
    let s1 := s.modCore c (fun k => { k with resolve := k.resolve ++ [(commit, t.toNat)] })
    .ok (s1.post (s.boundary c) (s.boundaryPhase c) (some c) (.run .specResolve (.nums [c]))) 1 none)
/-- SCOMMIT (R194). -/
def execScommit (g : BitVec 2) (t : BitVec 3) (s : State) : Host.Outcome State Fault Refusal := resolveWord (.scommit g t) true t s
/-- SDROP (R194). -/
def execSdrop (g : BitVec 2) (t : BitVec 3) (s : State) : Host.Outcome State Fault Refusal := resolveWord (.sdrop g t) false t s

/-! ### Time (R195 to R197) -/

/-- WAIT (R195): occupancy 1 + n. -/
def execWait (g : BitVec 2) (n : BitVec 24) (s : State) : Host.Outcome State Fault Refusal :=
  scalarWord (.wait g n) s (fun s _ => .ok s (1 + n.toNat) none)
/-- The scalar stream reaches an anchor point and waits there; it has passed the word (R99). -/
def State.waitAnchor (s : State) (c : Nat) (anchor : Option (Nat × Nat)) : State :=
  (s.modCore c (fun k => { k with sc := { k.sc with waiting := true }, anchor })).scalarDone c 1 none
/-- ANCHOR (R99, R196). -/
def execAnchor (g : BitVec 2) (s : State) : Host.Outcome State Fault Refusal :=
  scalarWord (.anchor g) s (fun s c => .wait (s.waitAnchor c none))
/-- TNOW (R197). -/
def execTnow (g : BitVec 2) (d : BitVec 5) (s : State) : Host.Outcome State Fault Refusal :=
  scalarWord (.tnow g d) s (fun s c => guardRegs s c [d.toNat] (.ok (s.toReg c d (BitVec.ofNat 64 (s.localCyc c)) 1) 1 none))
/-- BNOW (R197). -/
def execBnow (g : BitVec 2) (d : BitVec 5) (s : State) : Host.Outcome State Fault Refusal :=
  scalarWord (.bnow g d) s (fun s c => guardRegs s c [d.toNat] (.ok (s.toReg c d (BitVec.ofNat 64 (s.coreBeat c).1) 1) 1 none))
/-- BTSET: used by instructions that issue after its cycle (R197). -/
def execBtset (g : BitVec 2) (a : BitVec 5) (s : State) : Host.Outcome State Fault Refusal :=
  scalarWord (.btset g a) s (fun s c =>
    guardRegs s c [a.toNat]
      (let v := ((s.core c).oper 0 a.toNat).toNat
       if 2 ^ 48 ≤ v then sOperand s else .ok (s.cycSet c (.bt v)) 1 none))

/-! ### The lease (R198 to R200) -/

/-- MLEASE (R198): granted from c + 2 (R199). -/
def execMlease (g : BitVec 2) (n : BitVec 8) (s : State) : Host.Outcome State Fault Refusal :=
  scalarWord (.mlease g n) s (fun s c =>
    let q := s.quad (quadOf c)
    let i := quadIndex c
    if n = 0 || q.heldBy i || q.requested i then sOperand s
    else
      let s1 := s.setQuad (quadOf c) { q with reqs := q.reqs ++ [(i, s.now, n.toNat)] }
      .ok (s1.postGrant (quadOf c) (s.now + 2)) 1 none)
/-- MFREE: acts at the matrix stream's next command boundary (R200). -/
def execMfree (g : BitVec 2) (s : State) : Host.Outcome State Fault Refusal :=
  scalarWord (.mfree g) s (fun s c =>
    .ok ((s.modCore c (fun k => { k with mfreeReq := true })).post (s.boundary c) (s.boundaryPhase c) (some c) (.run .mfreeEffect (.nums [c]))) 1 none)

/-! ### SYS words (R202 to R204) -/

/-- NOP (R202). -/
def execNop (g : BitVec 2) (s : State) : Host.Outcome State Fault Refusal := scalarWord (.nop g) s (fun s _ => .ok s 1 none)
/-- TRAP and BKPT: the fault is raised and the word has completed (R202, R386). -/
def trapWord (i : Instr) (code : Nat) (n : BitVec 15) (s : State) : Host.Outcome State Fault Refusal :=
  scalarWord i s (fun s c =>
    .ok (s.raise c { code, number := n.toNat } (some (.scalar, { (s.core c).scalarEntry with done := true }))) 1 none)
/-- TRAP (R202). -/
def execTrap (g : BitVec 2) (n : BitVec 15) (s : State) : Host.Outcome State Fault Refusal := trapWord (.trap g n) 0x09 n s
/-- BKPT (R202). -/
def execBkpt (g : BitVec 2) (n : BitVec 15) (s : State) : Host.Outcome State Fault Refusal := trapWord (.bkpt g n) 0x0A n s

/-- TDEPTH, TIDX and TCNT (R68): the chain, then the LANE nodes below it. -/
def Binding.depth (b : Binding) : Nat := b.chain.length + b.lanes.length - 1
def Binding.tidx (b : Binding) (d : Nat) : Nat := match b.chain[d]? with | some e => e.k | none => 0
def Binding.tcnt (b : Binding) (d : Nat) : Nat :=
  match b.chain[d]? with
  | some e => e.count
  | none => b.lanes.getD (d - b.chain.length) 0
/-- MODE (R86). -/
def State.modeReg (s : State) (c : Nat) : Word64 :=
  let k := s.core c
  let ovl := k.act.ovl.getD 0
  BitVec.ofNat 64
    ((if s.elastic c then 1 else 0) + (k.active % 2) <<< 1 + (ovl % 16) <<< 2
      + (lastOverlay (s.kernelStreams k.bnd.gen k.bnd.kernel) % 16) <<< 6
      + (if k.shadow.ready && k.shadow.ovl == some (ovl + 1) then 1 <<< 10 else 0))
/-- LEASE (R201). -/
def State.leaseReg (s : State) (c : Nat) : Word64 :=
  let q := s.quad (quadOf c)
  let i := quadIndex c
  BitVec.ofNat 64
    ((if q.requested i then 1 else 0) + (if q.heldBy i then 2 else 0) + (if q.heldBy i then (q.left % 256) <<< 2 else 0)
      + ((q.holder.getD q.last) % 4) <<< 10)

/-- The value of a special register by selector; none for a selector that names nothing (R127). -/
def State.special (s : State) (c sel lvl : Nat) : Option Word64 :=
  let k := s.core c
  match sel with
  | 0x000 => some (s.fuse.cap (coreDie c))
  | 0x001 => some (BitVec.ofNat 64 (k.bnd.pkgPos % 64 * 1024 + c % 1024))
  | 0x002 => if lvl ≤ k.bnd.depth then some (BitVec.ofNat 64 (k.bnd.tidx lvl)) else none
  | 0x003 => if lvl ≤ k.bnd.depth then some (BitVec.ofNat 64 (k.bnd.tcnt lvl)) else none
  | 0x004 => some (BitVec.ofNat 64 k.bnd.depth)
  | 0x010 => some (k.sr.slim.setWidth 64)
  | 0x011 => some (k.sr.sbase.setWidth 64)
  | 0x018 => some (k.sr.keyLo.setWidth 64)
  | 0x019 => some (k.sr.keyHi.setWidth 64)
  | 0x01A => some (k.sr.dscale.setWidth 64)
  | 0x020 => some (k.sr.sstat.setWidth 64)
  | 0x021 => some (k.sr.vstat.setWidth 64)
  | 0x022 => some (k.sr.mstat.setWidth 64)
  | 0x023 => some (k.sr.bstat.setWidth 64)
  | 0x030 => some (s.modeReg c)
  | 0x031 => some (s.leaseReg c)
  | 0x032 => some ((vget k.sr.mroute 0 0).setWidth 64)
  | 0x033 => some ((vget k.sr.mroute 1 0).setWidth 64)
  | 0x034 => some ((vget k.sr.mroute 2 0).setWidth 64)
  | 0x035 => some ((vget k.sr.mroute 3 0).setWidth 64)
  | 0x040 => some k.sr.sboard
  | 0x041 => some (k.sr.tfull.setWidth 64)
  | 0x050 => some (k.sr.dsctx.setWidth 64 <<< 8)
  | _ => none

/-- Selectors that PUTS may name (R127). -/
def writable (sel : Nat) : Bool :=
  [0x010, 0x011, 0x018, 0x019, 0x01A, 0x020, 0x021, 0x022, 0x023, 0x032, 0x033, 0x034, 0x035, 0x040, 0x041, 0x050].contains sel

/-- GETS (R202). -/
def execGets (g : BitVec 2) (d : BitVec 5) (sel : BitVec 11) (lvl : BitVec 4) (s : State) : Host.Outcome State Fault Refusal :=
  scalarWord (.gets g d sel lvl) s (fun s c =>
    guardRegs s c [d.toNat]
      (match s.special c sel.toNat lvl.toNat with
       | some v => .ok (s.toReg c d v 1) 1 none
       | none => sOperand s))
/-- The limit of a routing register (R252): ROW0 + ROWS must not exceed 127. -/
def routeBad (sel : Nat) (v : Word64) : Bool :=
  0x032 ≤ sel && sel ≤ 0x035 && decide (127 < bitsOf v.toNat 5 7 + bitsOf v.toNat 12 7)
/-- When triggers see a scoreboard change of this cycle: in the next, or in the first released cycle of a frozen stope (R359, R362, R388). -/
def State.triggerAt (s : State) (c : Nat) : Nat :=
  match s.frozenAt c with
  | some f => if f < s.now then f else s.now + 1
  | none => s.now + 1
/-- Look at the armed triggers of a core then. -/
def State.checkTriggers (s : State) (c : Nat) : State :=
  let due := s.agenda.any (fun e => e.at_ == s.triggerAt c && (match e.act with
    | .run .triggerFire (.nums [x]) => x == c
    | _ => false))
  if (s.core c).trig.toList.any (fun t => t.armed) && !due then s.postAt (s.triggerAt c) 0 (some c) (.run .triggerFire (.nums [c])) else s
/-- PUTS: for words of every stream issued after this one (R202). -/
def execPuts (g : BitVec 2) (r : BitVec 5) (sel : BitVec 11) (lvl : BitVec 4) (s : State) : Host.Outcome State Fault Refusal :=
  scalarWord (.puts g r sel lvl) s (fun s c =>
    if writable sel.toNat then
      guardRegs s c [r.toNat]
        (let v := (s.core c).sval r.toNat
         if routeBad sel.toNat v then sOperand s
         else
           let s1 := s.cycSet c (.sreg sel.toNat v)
           .ok (if sel = 0x040#11 then s1.checkTriggers c else s1) 1 none)
    else sOperand s)

/-- The condition of SWAP and HALT, but for the shadow plane (R83, R204). -/
def State.quiet (s : State) (c mask : Nat) : Bool := (s.core c).enginesIdle s.now && s.drained c mask

/-- SWAP (R83): its tests in order, its condition, the flip, and the entry word of the next overlay at d + 1 + its gap. -/
def execSwap (g : BitVec 2) (a : BitVec 5) (m : BitVec 9) (s : State) : Host.Outcome State Fault Refusal :=
  scalarWord (.swap g a m) s (fun s c =>
    guardRegs s c [a.toNat]
      (let k := s.core c
       let ovl := k.act.ovl.getD 0
       let strs := s.kernelStreams k.bnd.gen k.bnd.kernel
       let e := (k.oper 0 a.toNat).toNat
       if !hasOverlay strs (ovl + 1) then sOperand s
       else if (streamBytes strs 0 (ovl + 1)).length / 4 ≤ e then sOperand s
       else if !k.specTags.isEmpty then sfault s 0x08
       else lateLook s c (s.quiet c m.toNat && k.shadow.ready && k.shadow.ovl == some (ovl + 1))
         (.ok ((s.setCore c k.flip).afterFlip c) 1 (some e))))

/-- Look again at the barriers of a launch in this cycle: a core that halts counts as arrived (R347). -/
def State.checkBarriers (s : State) (gen : Nat) : State :=
  if s.barriers.any (fun b => b.key.gen == gen) || (s.launch? gen).any (fun l => 1 < l.parts.length) then s.post s.now 4 none (.run .barrierComplete (.nums [gen])) else s
/-- HALT (R204): the core issues nothing more; its lease ends. -/
def execHalt (g : BitVec 2) (m : BitVec 9) (s : State) : Host.Outcome State Fault Refusal :=
  scalarWord (.halt g m) s (fun s c =>
    let k := s.core c
    if !k.specTags.isEmpty then sfault s 0x08
    else
      let s1 := s.setCore c { k with sc := { k.sc with halted := true }, haltMask := m.toNat }
      let s2 := ((s1.scalarDone c 1 none).modCore c (fun k => { k with sc := { k.sc with live := false } })).dropLease c
      lateLook s c (s.quiet c m.toNat) (.wait ((s2.checkRetire k.bnd.gen).checkBarriers k.bnd.gen)))

end Sys2Proof.Machine
end

