-- ==== Sys2Proof/Machine/Tokens.lean ====
section
/-! DEFINITION. Tokens, the calls that wait on them, queue heads, and asking for a selection (R50, R56, R57, R59, R61). -/

namespace Sys2Proof.Machine

/-! ### Returning from a system call (R49, R50) -/

/-- An error result: a0 = −e with code, reason and entry packed (R50). -/
def callError (code reason entry : Nat) : Word64 := 0 - BitVec.ofNat 64 (code + reason * 2 ^ 8 + entry * 2 ^ 16)
/-- BAD_ARG. -/
def badArg : Word64 := callError 0x41 0 0
/-- NO_MEMORY. -/
def noMemory : Word64 := callError 0x43 0 0
/-- A call of a hart returns: the result in a0, every other register preserved, the hart past its ecall (R49). -/
def State.callReturn (s : State) (h : Nat) (v : Word64) : State :=
  s.modHart h (fun x => { x.setReg 10 v with pc := x.pc + 4, blocked := false })
/-- A call does not return yet: the hart waits. -/
def State.callBlocks (s : State) (h : Nat) (p : Pending) : State :=
  ({ s with pending := s.pending ++ [{ p with inner := (s.hart h).handling.isSome }] } : State).modHart h (fun x => { x with blocked := true })
/-- The call of a pending entry returns: to the hart, or to the thread that a handler has displaced there. -/
def State.endPending (s : State) (p : Pending) (v : Word64) : State :=
  let s : State := { s with pending := s.pending.filter (fun x => x.id != p.id) }
  match (s.hart p.hart).under with
  | some u =>
    if p.inner then s.callReturn p.hart v
    else s.modHart p.hart (fun x => { x with under := some { u with x := vset u.x 10 v, pc := u.pc + 4, blocked := false } })
  | none => s.callReturn p.hart v

/-! ### Tokens (R56, R69, R71) -/

/-- Tokens a process has of its own, and the first graph-local one. -/
def tokenLimit : Nat := 32767
def localToken : Nat := 0x8000
/-- The count of a token: a process's, or a graph run's own (R56, R71). -/
def State.tokenCount (s : State) (spid : Nat) (run : Option Nat) (t : Nat) : Nat :=
  if localToken ≤ t then (run.bind (fun r => Table.find? s.runs r)).elim 0 (fun r => Table.getD r.tokens t 0)
  else (s.proc? spid).elim 0 (fun p => Table.getD p.tokens t 0)
/-- The other packages at which a packet waits on a token are told of its change (R61, R73; log 22). -/
def State.tellToken (s : State) (spid : Nat) (run : Option Nat) (t : Nat) : State :=
  (s.launches.filter (fun l => l.origin == s.pkg && l.spid == spid && l.st != .complete && l.pkt.waits.any (fun w => w.1 == t)
      && (t < localToken || l.graphRun == run))).foldl (fun u l =>
    (l.parts.filter (fun p => p != u.pkg)).foldl (fun v p => v.send p (.signal v.window l.gen t)) u) s
/-- Add 1 to a token, modulo 2^48 (R56). -/
def State.addToken (s : State) (spid : Nat) (run : Option Nat) (t : Nat) : State :=
  let n := (s.tokenCount spid run t + 1) % 2 ^ 48
  let s := s.tellToken spid run t
  if localToken ≤ t then
    match run.bind (fun r => (Table.find? s.runs r).map (fun x => (r, x))) with
    | some (r, x) => { s with runs := Table.put s.runs r { x with tokens := Table.put x.tokens t n } }
    | none => s
  else s.modProc spid (fun p => { p with tokens := Table.put p.tokens t n })

/-- Calls of KQ_WAIT whose targets are met return the count (R51, R57). -/
def State.wakeWaits (s : State) : State :=
  (s.pending.filter (fun p => p.kind == 0)).foldl (fun t p =>
    let n := t.tokenCount p.spid none p.token
    if p.target ≤ n then t.endPending p (BitVec.ofNat 64 n) else t) s

/-! ### Queue heads (R59, R61) -/

/-- The head of a command queue. -/
def State.queueHead (s : State) (q : Nat) : Option Launch := (vget s.queues q []).head?.bind s.launch?
/-- Every wait slot of a launch is met (R56). The tokens of a packet that came from another package are kept there, which tells their counts
(log 22). -/
def State.waitsMet (s : State) (l : Launch) : Bool :=
  l.pkt.waits.all (fun w => w.1 == 0xFFFF || w.2 ≤ if l.remote then Table.getD l.heard w.1 0 else s.tokenCount l.spid l.graphRun w.1)
/-- Note since when each head has had its waits met (R61). -/
def State.noteHeads (s : State) : State :=
  (List.range 64).foldl (fun t q =>
    match t.queueHead q with
    | some l => if l.headAt.isNone && t.waitsMet l then t.modLaunch l.gen (fun l => { l with headAt := some t.now }) else t
    | none => t) s
/-- Ask the Banksman for a selection in this cycle (R61). -/
def State.askSelection (s : State) : State :=
  let s := s.noteHeads
  if s.agenda.any (fun e => e.at_ == s.now && (match e.act with | .run .selection _ => true | _ => false)) then s
  else s.post s.now 3 none (.run .selection (.nums []))
/-- A token of a launch's process changes elsewhere: at the submitting package it is signalled, at another its new count is noted (R56, R362). -/
def State.hearSignal (s : State) (l : Launch) (t : Nat) : State :=
  if l.origin = s.pkg then ((s.addToken l.spid l.graphRun t).wakeWaits).askSelection
  else (s.modLaunch l.gen (fun l => { l with heard := Table.put l.heard t ((Table.getD l.heard t 0 + 1) % 2 ^ 48) })).askSelection
/-- A token changes: waiting calls wake, and the queues are looked at (R56, R57, R61). -/
def State.signal (s : State) (spid : Nat) (run : Option Nat) (t : Nat) : State := ((s.addToken spid run t).wakeWaits).askSelection

end Sys2Proof.Machine
end

