-- ==== Sys2Proof/Machine/Collect.lean ====
section
/-! DEFINITION. The tile table, the collective engine, folds and post-actions, plan slots, the scoreboard and the Shotfirer, and the delivery of drained and routed rows (R248, R252, R351 to R364). -/

namespace Sys2Proof.Machine

/-! ### The image of an entry (R352, R353) -/

/-- OP and flags of an image. -/
def tcOp (b : List Byte) : Nat := fieldLE b 0 1 % 8
def tcValid (b : List Byte) : Bool := bitOf (fieldLE b 0 1) 3
def tcCombine (b : List Byte) : Bool := bitOf (fieldLE b 0 1) 4
def tcDepth (b : List Byte) : Nat := fieldLE b 1 1 % 16
def tcPeers (b : List Byte) : Nat := fieldLE b 2 1
def tcExpect (b : List Byte) : Nat := fieldLE b 3 1
def tcRows (b : List Byte) : Nat := fieldLE b 4 2
def tcPost (b : List Byte) : Nat := fieldLE b 6 1
def tcPbit (b : List Byte) : Nat := fieldLE b 7 1
def tcLocal (b : List Byte) : Nat := fieldLE b 8 4 % 2 ^ 24
/-- Space of LOCAL: 0 A, 1 C. -/
def tcSpace (b : List Byte) : Nat := fieldLE b 8 4 / 2 ^ 24 % 2
def tcDest (b : List Byte) : Nat := fieldLE b 0x0C 4
def tcPaddr (b : List Byte) : Nat := fieldLE b 0x10 8
def tcPcore (b : List Byte) : Nat := fieldLE b 0x18 2
def tcPcount (b : List Byte) : Nat := fieldLE b 0x1A 2
/-- CWIN: offset and length in bytes. -/
def tcWin (b : List Byte) : Nat × Nat := (32 * (fieldLE b 0x1C 1 % 8), 32 * (fieldLE b 0x1C 1 / 8 % 8 + 1))
/-- Peer record i. -/
def tcPeer (b : List Byte) (i : Nat) : Nat := fieldLE b (0x20 + 8 * i) 8
/-- The peer records sent to. -/
def tcPeerList (b : List Byte) : List Nat := (List.range (tcPeers b)).map (tcPeer b)
def prCore (p : Nat) : Nat := p % 2 ^ 16
def prEntry (p : Nat) : Nat := bitsOf p 16 6
def prSlot (p : Nat) : Nat := bitsOf p 22 2
/-- Window of each piece: offset and length in bytes. -/
def prWin (p : Nat) : Nat × Nat := (32 * bitsOf p 24 3, 32 * (bitsOf p 27 3 + 1))
def prAddr (p : Nat) : Nat := bitsOf p 32 19

/-- The number of slots an image expects. -/
def tcSlots (b : List Byte) : List Nat := (List.range 4).filter (fun i => bitOf (tcExpect b) i)
/-- Bytes of the two spaces that a piece may be read from. -/
def pieceSpace (sp : Nat) : Nat := if sp = 0 then aSize else 1048576

/-- A peer record keeps its field rules (R353, R354). -/
def peerOk (op rows p : Nat) : Bool :=
  bitsOf p 30 2 == 0 && bitsOf p 51 13 == 0 && (prWin p).1 + (prWin p).2 ≤ 256 &&
    (if op = 0 then prEntry p == 0 && prSlot p == 0 && prAddr p % 256 == 0 && prAddr p + 256 * rows ≤ aSize else prAddr p == 0)
/-- An image keeps its field rules (R352, R354). -/
def imageOk (b : List Byte) : Bool :=
  let op := tcOp b
  fieldLE b 0 1 / 32 == 0 && fieldLE b 1 1 / 16 == 0 && tcExpect b / 16 == 0 && tcPost b / 8 == 0 && fieldLE b 8 4 / 2 ^ 25 == 0
    && fieldLE b 0x1C 1 / 64 == 0 && fieldLE b 0x1D 3 == 0
    && op != 7 && tcPeers b ≤ 4 && 1 ≤ tcRows b && tcRows b ≤ 256 && tcPbit b ≤ 63 && (tcWin b).1 + (tcWin b).2 ≤ 256
    && tcLocal b % 256 == 0 && tcDest b % 256 == 0 && tcPaddr b % 8 == 0
    && tcLocal b + 256 * tcRows b ≤ pieceSpace (tcSpace b) && tcDest b + 256 * tcRows b ≤ aSize
    && !(tcCombine b && op == 0) && (tcCombine b || (tcExpect b == 0 && tcDest b == 0))
    && (bitOf (tcPost b) 2 || (tcPaddr b == 0 && tcPcore b == 0 && tcPcount b == 0))
    && (List.range 4).all (fun i => if i < tcPeers b then peerOk op (tcRows b) (tcPeer b i) else tcPeer b i == 0)

/-! ### Participants (R68, R331, R354) -/

/-- The instances from the root down to one. -/
def Launch.pathOf (l : Launch) : Nat → Nat → List Nat
  | 0, _ => []
  | fuel + 1, i =>
    match l.insts[i]? with
    | some x => (if x.node = 0 then [] else l.pathOf fuel x.parent) ++ [i]
    | none => []
/-- A core ID in the PHYS layout names a core bound to this launch that takes part in depth d with core c: one of another package is among the
cores with which that package was READY (R75), below an instance of the depth's (log 23). -/
def State.takesPart (s : State) (c d id : Nat) : Bool :=
  let b := (s.core c).bnd
  let pos := id / 1024
  match b.chain[d]? with
  | none => d ≤ b.depth && id == b.pkgPos * 1024 + c
  | some mine =>
    if pos = b.pkgPos then
      match (s.core (id % 1024)).bound with
      | some o => o.gen == b.gen && (o.chain[d]?).any (fun e => e.inst == mine.inst)
      | none => false
    else
      (s.launch? b.gen).any (fun l => (List.range l.insts.length).any (fun i =>
        match l.insts[i]? with
        | some x => x.level ≤ 5 && x.pkg == pos && (l.pathOf 17 i).contains mine.inst
        | none => false)
        && l.readyCores.any (fun r => r.1 == l.pkgs.getD pos 64 && r.2.contains (id % 1024)))
/-- The fabric package number of a launch position (R63). -/
def State.fabricOf (s : State) (gen pos : Nat) : Nat := (s.launch? gen).elim s.pkg (fun l => l.pkgs.getD pos s.pkg)
/-- A registered plan of the core's process covers the way to a fabric package (R354, R363). -/
def State.planned (s : State) (c dst : Nat) : Bool :=
  (s.proc? (s.spidOf c)).any (fun p => p.plans.any (fun x => x.flows.any (fun f => f.1 == s.pkg && f.2.1 == dst)))

/-! ### Entries (R354, R355) -/

/-- An entry of the active table. -/
def Core.tile (k : Core) (e : Nat) : Option TileEntry := Table.find? k.act.tiles e
/-- Change an entry. -/
def State.modTile (s : State) (c e : Nat) (f : TileEntry → TileEntry) : State :=
  s.modCore c (fun k =>
    let p := k.act
    { k with plane := vset k.plane k.active { p with tiles := p.tiles.map (fun x => if x.1 = e then (x.1, f x.2) else x) } })
/-- Change a firing. -/
def State.modFire (s : State) (c fid : Nat) (f : Firing → Firing) : State :=
  s.modCore c (fun k => { k with fires := k.fires.map (fun x => if x.id = fid then f x else x) })
/-- A firing of a core. -/
def State.fireOf (s : State) (c fid : Nat) : Option Firing := (s.core c).fires.find? (fun f => f.id == fid)

/-- TTSET (R354). -/
def execTtset (g : BitVec 2) (e : BitVec 6) (a : BitVec 5) (s : State) : Host.Outcome State Fault Refusal :=
  scalarWord (.ttset g e a) s (fun s c =>
    guardRegs s c [a.toNat]
      (let k := s.core c
       let addr := k.oper 0 a.toNat
       let old := k.tile e.toNat
       let busy := old.any (fun t => t.firing.isSome || !t.contribs.isEmpty)
       if addr.toNat % 64 != 0 then .fault s { code := 0x11, va := addr, kind := kindLoad }
       else if aSize < addr.toNat + 64 then .fault s { code := 0x10, va := addr, kind := kindLoad }
       else
         let r := k.portRead 0 addr.toNat 64
         let img := r.data
         let s := s.afterRead c 0 addr.toNat 64
         let reserved := (k.act.tiles.filter (fun t => t.1 != e.toNat && tcCombine t.2.img)).foldl
           (fun n t => n + (tcSlots t.2.img).length * tcRows t.2.img) 0
         if r.poison then .fault s { code := 0x18, va := addr, kind := kindLoad }
         else if !tcValid img then (if busy then .block s 4 else .ok (s.cycSet c (.entry e.toNat none)) 1 none)
         else if !imageOk img then sOperand s
         else if !(tcPeerList img).all (fun p => s.takesPart c (tcDepth img) (prCore p))
             || (bitOf (tcPost img) 2 && !s.takesPart c (tcDepth img) (tcPcore img)) then sOperand s
         else if (tcPeerList img).any (fun p => prCore p / 1024 != k.bnd.pkgPos && !s.planned c (s.fabricOf k.bnd.gen (prCore p / 1024))) then sOperand s
         else if tcCombine img && decide (256 < reserved + (tcSlots img).length * tcRows img) then sOperand s
         else if busy then .block s 4
         else .ok (s.cycSet c (.entry e.toNat (some img))) 1 none))

/-- A run of pieces of LOCAL touches a C tile that has a speculative shadow (R95, R355). -/
def Core.localShadowed (k : Core) (img : List Byte) (first n : Nat) : Bool :=
  tcSpace img == 1 && (List.range n).any (fun i => k.shadowed (tcLocal img + 256 * (first + i)))
/-- Let an entry fire in the next cycle if it can (R355). -/
def State.postFire (s : State) (c e : Nat) : State := s.post (s.now + 1) 1 (some c) (.run .entryFire (.nums [c, e]))
/-- Set the ready flag of a valid entry (R355): with the flag set already, nothing further. -/
def State.setReady (s : State) (c e stamp : Nat) : State :=
  match (s.core c).tile e with
  | some t =>
    if t.ready.isSome then s
    else
      let s := s.modTile c e (fun t => { t with ready := some stamp })
      if t.firing.isSome then s else s.postFire c e
  | none => s
/-- TRDY (R355). -/
def execTrdy (g : BitVec 2) (e : BitVec 6) (s : State) : Host.Outcome State Fault Refusal :=
  scalarWord (.trdy g e) s (fun s c =>
    let k := s.core c
    match k.tile e.toNat with
    | none => sOperand s
    | some t => if k.localShadowed t.img 0 (tcRows t.img) then sfault s 0x08 else .ok (s.setReady c e.toNat k.sc.istamp) 1 none)
/-- The parts of a firing that must end: every piece read, performed at every peer, and folded (R358). -/
def firingParts (img : List Byte) (n : Nat) : Nat := n * (1 + tcPeers img + if tcCombine img then 1 else 0)
/-- A new firing of an entry, which becomes the entry's. -/
def State.newFiring (s : State) (c e n stamp at_ : Nat) (handed : Bool) : State × Nat :=
  let id := s.seq
  match (s.core c).tile e with
  | some t =>
    let f : Firing := { id, entry := e, img := t.img, at_, pieces := n, handed, left := firingParts t.img n
                        lastAt := List.replicate (tcPeers t.img) 0, stamp }
    ((({ s with seq := s.seq + 1 } : State).modCore c (fun k => { k with fires := k.fires ++ [f] })).modTile c e
      (fun t => { t with firing := some id }), id)
  | none => (s, id)
/-- CLX: fires at issue + 1 (R355). -/
def execClx (g : BitVec 2) (e : BitVec 6) (a : BitVec 5) (s : State) : Host.Outcome State Fault Refusal :=
  scalarWord (.clx g e a) s (fun s c =>
    guardRegs s c [a.toNat]
      (let k := s.core c
       match k.tile e.toNat with
       | none => sOperand s
       | some t =>
         let n := (k.oper 0 a.toNat).toNat
         let n := if n = 0 then tcRows t.img else n
         if tcRows t.img < n then sOperand s
         else if k.localShadowed t.img 0 n then sfault s 0x08
         else if t.firing.isSome then .block s 4
         else .ok ((s.newFiring c e.toNat n k.sc.istamp 0 false).1.postFire c e.toNat) 1 none))

/-! ### Completion and folding (R356, R358) -/

/-- A firing has completed in this cycle: its entry is free, a ready entry fires in the next cycle, and so does the post-action (R355, R358). -/
def State.firingDone (s : State) (c : Nat) (f : Firing) : State :=
  let s := s.modFire c f.id (fun f => { f with done := true })
  let s := match (s.core c).tile f.entry with
    | some t =>
      if t.firing = some f.id then
        let s := s.modTile c f.entry (fun t => { t with firing := none })
        if t.ready.isSome then s.postFire c f.entry else s
      else s
    | none => s
  s.post (s.now + 1) 1 none (.run .firingComplete (.nums [c, f.id, 0]))
/-- One more part of a firing has ended. -/
def State.firingStep (s : State) (c fid : Nat) : State :=
  match s.fireOf c fid with
  | some f =>
    let s := s.modFire c fid (fun f => { f with left := f.left - 1 })
    if f.left ≤ 1 && !f.done then s.firingDone c { f with left := 0 } else s
  | none => s

/-- OPERATE on one 32-bit lane (R356). -/
def operate (op r x : Nat) : Nat :=
  match op with
  | 1 => (fpAdd fp32 0 r x).1
  | 2 => (r + x) % 2 ^ 32
  | 3 => (fpMinMax fp32 true r x).1
  | 4 => (fpMinMax fp32 false r x).1
  | 5 => if signedOf r 32 ≤ signedOf x 32 then x else r
  | _ => if signedOf r 32 ≤ signedOf x 32 then r else x
/-- OPERATE elementwise. -/
def operateAll (op : Nat) (r x : List Byte) : List Byte := packElems 32 (List.zipWith (operate op) (elemsOf 32 r) (elemsOf 32 x))
/-- The contributions that a firing folds: its entry's, or those it took along at a plane flip (R85). -/
def State.waiting (s : State) (c : Nat) (f : Firing) : List Contrib :=
  match (s.core c).tile f.entry with
  | some t => if t.firing = some f.id then t.contribs else f.contribs
  | none => f.contribs
/-- Fold the pieces of a firing whose own value and contributions are all there (R356): own value first, then slots in ascending order,
written 4 cycles after the last of them. -/
def State.fold (s : State) (c fid : Nat) : State :=
  match s.fireOf c fid with
  | some f =>
    f.own.foldl (fun s o =>
      let i := o.2.index
      let cs := (tcSlots f.img).map (fun sl => (s.waiting c f).find? (fun x => x.slot == sl && x.piece == i))
      if cs.all Option.isSome then
        let cs := cs.filterMap id
        let data := cs.foldl (fun r x => operateAll (tcOp f.img) r x.data) o.2.data
        let p : Piece := { o.2 with data, poison := o.2.poison || cs.any (fun x => x.poison) }
        let s := s.modFire c fid (fun f => { f with own := f.own.filter (fun x => x.2.index != i), contribs := f.contribs.filter (fun x => x.piece != i) })
        let s := s.modTile c f.entry (fun t => if t.firing = some fid then { t with contribs := t.contribs.filter (fun x => x.piece != i) } else t)
        s.post (cs.foldl (fun m x => max m x.at_) o.1 + 4) 1 none (.run .combineWrite (.piece p))
      else s) s
  | none => s
/-- COMBINE_WRITE (R356): the result piece is written, with the poison it carries (R406). -/
def execCombineWrite (s : State) : Host.Outcome State Fault Refusal :=
  match s.arg with
  | .piece p =>
    .next ((s.cycWrite { core := p.src, space := 0, rank := 1, addr := p.copyTo.getD 0, data := p.data, sel := [], poison := p.poison }).firingStep p.src p.fid)
  | _ => .next s

/-! ### Sending pieces (R351, R353, R364) -/

/-- Where a piece read now, or what takes its way, performs at a core of this package (R351): on the die at a fixed cycle, across dies within
1,760 cycles and after `lo`. -/
def State.routeAt (s : State) (c dst lo : Nat) : Nat :=
  if coreDie c = coreDie dst then s.now + 8 + 2 * hops c dst else min (max (s.within 1760) lo) (s.now + 1760)
/-- The flow of this package to another. -/
def State.flowTo (s : State) (dst : Nat) : Option FlowSt := s.flows.find? (fun f => f.src == s.pkg && f.dst == dst)
/-- Change the flow of a pair. -/
def State.modFlow (s : State) (src dst : Nat) (g : FlowSt → FlowSt) : State :=
  { s with flows := s.flows.map (fun f => if f.src = src ∧ f.dst = dst then g f else f) }
/-- A piece leaves for another package (R337, R364): it holds a slot, and performs there by the start of window N + 2. -/
def State.leave (s : State) (dst : Nat) (p : Piece) : State :=
  let s := (s.modFlow s.pkg dst (fun f => { f with free := f.free - 1, inUse := f.inUse + 1 })).send dst (.piece s.window p)
  (s.drawn).post (s.within (s.windowPlus2 - s.now)) 1 none (.run .firingComplete (.piece p))
/-- Send one window of a piece to a peer of the firing. -/
def State.sendPiece (s : State) (c : Nat) (f : Firing) (j pr i : Nat) (data : List Byte) (poison : Bool) (stamp : Nat) : State :=
  let id := prCore pr
  let win := prWin pr
  let copy := if tcOp f.img = 0 then some (prAddr pr + 256 * i + win.1) else none
  let far := id / 1024 != (s.core c).bnd.pkgPos
  let dst := s.fabricOf (s.core c).bnd.gen (id / 1024)
  let p : Piece := { src := c, dst := id % 1024, fid := f.id, copyTo := copy, entry := prEntry pr, slot := prSlot pr, index := i, off := win.1
                     data := sliceOf data win.1 win.2, poison, flow := if far then some (s.pkg, dst) else none, stamp }
  if far then
    -- pieces held for a slot leave in order (R364)
    if (s.flowTo dst).any (fun x => 0 < x.free) && !s.parked.any (fun q => q.flow == p.flow) then s.leave dst p
    else { s with parked := s.parked ++ [p] }
  else
    let at_ := s.routeAt c p.dst (f.lastAt.getD j 0)
    ((s.drawn).modFire c f.id (fun f => { f with lastAt := setAt f.lastAt j (fun _ => at_) })).post at_ 1 none (.run .pieceArrival (.piece p))
/-- A piece has been read, from LOCAL or from what the matrix stream handed: its windows leave, its own value waits to be folded. -/
def State.pieceRead (s : State) (c : Nat) (f : Firing) (i : Nat) (data : List Byte) (poison : Bool) (stamp : Nat) : State :=
  let s := ((tcPeerList f.img).mapIdx (fun j pr => (j, pr))).foldl (fun t x =>
    match t.fireOf c f.id with
    | some f => t.sendPiece c f x.1 x.2 i data poison stamp
    | none => t) s
  let win := tcWin f.img
  let s := if tcCombine f.img then
      let p : Piece := { src := c, dst := c, fid := f.id, copyTo := some (tcDest f.img + 256 * i + win.1), entry := f.entry, slot := 0, index := i, off := win.1
                         data := sliceOf data win.1 win.2, poison, flow := none, stamp }
      (s.modFire c f.id (fun f => { f with own := f.own ++ [(s.now, p)] })).fold c f.id
    else s
  s.firingStep c f.id
/-- Post the reading of a piece of LOCAL. -/
def State.postPiece (s : State) (c fid i : Nat) : State := s.post (s.now + 1) 1 none (.run .entryFire (.nums [c, fid, i]))
/-- The engine reads piece i of LOCAL (R355): one piece a cycle. -/
def State.readLocal (s : State) (c fid i : Nat) : State :=
  match s.fireOf c fid with
  | some f =>
    let k := s.core c
    let addr := tcLocal f.img + 256 * i
    let sp := tcSpace f.img
    if k.localShadowed f.img i 1 then
      -- the read is tried again once the stope goes on
      (s.raise c { code := 0x08, source := 6, va := BitVec.ofNat 64 addr, unit := f.entry } none).post (s.now + 1) 1 (some c)
        (.run .entryFire (.nums [c, fid, i]))
    else
      let r := k.portRead sp addr 256
      let s := (s.afterRead c sp addr 256 3).pieceRead c f i r.data r.poison f.stamp
      if i + 1 < f.pieces then s.postPiece c fid (i + 1) else s
  | none => s
/-- An entry whose ready flag is set, or which CLX named, fires (R355). -/
def State.fireEntry (s : State) (c e : Nat) : State :=
  match (s.core c).tile e with
  | some t =>
    match t.firing with
    | some id =>
      match s.fireOf c id with
      | some f => if f.at_ = 0 ∧ !f.handed then ((s.modFire c id (fun f => { f with at_ := s.now })).modTile c e (fun t => { t with ready := none })).postPiece c id 0 else s
      | none => s
    | none =>
      match t.ready with
      | some stamp =>
        let r := s.newFiring c e (tcRows t.img) stamp s.now false
        (r.1.modTile c e (fun t => { t with ready := none })).postPiece c r.2 0
      | none => s
  | none => s
/-- ENTRY_FIRE (R351, R355). -/
def execEntryFire (s : State) : Host.Outcome State Fault Refusal :=
  match s.arg with
  | .nums [c, e] => .next (s.fireEntry c e)
  | .nums [c, fid, i] => .next (s.readLocal c fid i)
  | .piece p =>
    match s.fireOf p.src p.fid with
    | some f => .next (s.pieceRead p.src f p.index p.data p.poison p.stamp)
    | none => .next s
  | _ => .next s

/-! ### Arrivals (R351, R357, R364) -/

/-- A contribution that its receiver refuses (R357). -/
def contribBad (t : Option TileEntry) (p : Piece) : Bool :=
  match t with
  | none => true
  | some t => !tcCombine t.img || !bitOf (tcExpect t.img) p.slot || tcWin t.img != (p.off, p.data.length) || tcRows t.img ≤ p.index
      || t.contribs.any (fun x => x.slot == p.slot && x.piece == p.index)
/-- A piece performs at its peer: a COPY window is written, a contribution checked and placed (R356, R357). -/
def State.pieceAt (s : State) (p : Piece) : State :=
  match p.copyTo with
  | some a => s.cycWrite { core := p.dst, space := 0, rank := 1, addr := a, data := p.data, sel := [], poison := p.poison }
  | none =>
    if contribBad ((s.core p.dst).tile p.entry) p then s.raise p.dst { code := 0x02, source := 6, unit := p.entry } none
    else
      let x : Contrib := { slot := p.slot, piece := p.index, at_ := s.now, data := p.data, poison := p.poison }
      let s := s.modTile p.dst p.entry (fun t => { t with contribs := t.contribs ++ [x] })
      match ((s.core p.dst).tile p.entry).bind (fun t => t.firing) with
      | some fid => s.fold p.dst fid
      | none => s
/-- A core of a launch that has been pre-empted and now holds nothing: what another package delivers to it waits (log 30). -/
def State.away (s : State) (c : Nat) : Bool := (s.core c).bound.isNone && s.launches.any (fun l => l.saved.any (fun x => x.id == c))
/-- PIECE_ARRIVAL (R351): from a core of this package, or from another under a plan, whose slot the receiver then frees (R364). -/
def execPieceArrival (s : State) : Host.Outcome State Fault Refusal :=
  match s.arg with
  | .piece p =>
    if s.away p.dst then .next (s.post (s.now + 1700) 1 none (.run .pieceArrival (.piece p)))
    else
    let s := s.pieceAt p
    match p.flow with
    | some (src, dst) => .next (s.send src (.slotFree s.window src dst))
    | none => .next (s.firingStep p.src p.fid)
  | _ => .next s
/-- SLOT_FREE_NOTICE (R364): the slot serves again from the window after the one in which the notice arrives. -/
def execSlotFreeNotice (s : State) : Host.Outcome State Fault Refusal :=
  match s.arg with
  | .nums [src, dst] => .next (s.modFlow src dst (fun f =>
      if f.inUse = 0 then f else { f with inUse := f.inUse - 1, soon := f.soon ++ [s.window + 1] }))
  | _ => .next s
/-- At a window's start the slots whose notices have come serve again, and pieces held for them leave in order (R364). -/
def State.freeSlots (s : State) : State :=
  let s : State := { s with flows := s.flows.map (fun f =>
    { f.gain (f.soon.filter (fun w => w ≤ s.window)).length with soon := f.soon.filter (fun w => s.window < w) }) }
  s.parked.foldl (fun t p =>
    match p.flow with
    | some (_, dst) =>
      if (t.flowTo dst).any (fun x => 0 < x.free) then ({ t with parked := t.parked.erase p } : State).leave dst p else t
    | none => t) s

/-! ### The scoreboard and post-actions (R358 to R360) -/

/-- Set bits of a scoreboard in this cycle; triggers see them in the next (R359). -/
def State.setBits (s : State) (c : Nat) (bits : Word64) : State := (s.cycSet c (.sbSet bits)).checkTriggers c
/-- SBSET (R360). -/
def execSbset (g : BitVec 2) (a : BitVec 5) (s : State) : Host.Outcome State Fault Refusal :=
  scalarWord (.sbset g a) s (fun s c => guardRegs s c [a.toNat] (.ok (s.setBits c ((s.core c).oper 0 a.toNat)) 1 none))
/-- Let a scoreboard bit be set at a core named by a PHYS ID when piece 0 of a firing with firing cycle `s.now` would perform there (R358). -/
def State.sendBit (s : State) (c id bit : Nat) : State :=
  if id / 1024 != (s.core c).bnd.pkgPos then s.send (s.fabricOf (s.core c).bnd.gen (id / 1024)) (.postBit s.window (id % 1024) bit)
  else
    let at_ := if coreDie c = coreDie (id % 1024) then s.now + 9 + 2 * hops c (id % 1024) else min (s.within 1761) (s.now + 1761)
    (s.drawn).post at_ 1 none (.run .postBitArrival (.nums [id % 1024, bit]))
/-- POST_BIT_ARRIVAL (R358): also the input by which another package's post-action reaches a core. -/
def execPostBitArrival (s : State) : Host.Outcome State Fault Refusal :=
  match s.arg with
  | .nums [c, bit] =>
    if s.away c then .next (s.post (s.now + 1700) 1 none (.run .postBitArrival (.nums [c, bit])))
    else .next (s.setBits c (BitVec.ofNat 64 (2 ^ (bit % 64))))
  | _ => .next s
/-- The AMOADD.d of 1 of a post-action (R358): a miss walks, a request refused tries again, a fault is the core's, and so is the
refusal by a freeze in a TIMED stope (R297). -/
def State.postAmo (s : State) (c : Nat) (f : Firing) : State :=
  let va := tcPaddr f.img
  let again := fun (t : State) => t.post (t.now + 1) 1 none (.run .firingComplete (.nums [c, f.id, 2]))
  let drop := fun (t : State) => t.modCore c (fun k => { k with fires := k.fires.filter (fun x => x.id != f.id) })
  match s.translate 0 c va 8 kindAtomic (coreMaster 3 c) with
  | .ok pa =>
    if !s.elastic c && !s.isRemote pa && s.pageFrozen pa then
      drop (s.raise c { code := 4, sub := 6, va := BitVec.ofNat 64 va, kind := kindAtomic, source := 6, unit := f.entry } none)
    else if s.refuses c 1 8 [pa] false then again s
    else drop (s.sendGlobal c 6 va pa 8 (.semaphore (tcPcore f.img) (tcPcount f.img) (tcPbit f.img)) 1 f.stamp {} none)
  | .fault x => drop ((s.dropFailed 0 c va).raise c { x with source := 6, unit := f.entry } none)
  | .miss => again (s.startWalk 0 c va true kindAtomic)
/-- The post-action of a firing (R358). -/
def State.postAction (s : State) (c : Nat) (f : Firing) : State :=
  let post := tcPost f.img
  let s := if bitOf post 0 then (tcPeerList f.img).foldl (fun t p => t.sendBit c (prCore p) (tcPbit f.img)) s else s
  let s := if bitOf post 1 then s.setBits c (BitVec.ofNat 64 (2 ^ tcPbit f.img)) else s
  if bitOf post 2 then s.postAmo c f
  else s.modCore c (fun k => { k with fires := k.fires.filter (fun x => x.id != f.id) })
/-- FIRING_COMPLETE (R358). -/
def execFiringComplete (s : State) : Host.Outcome State Fault Refusal :=
  match s.arg with
  | .piece p => .next (s.firingStep p.src p.fid)
  | .nums [c, fid, n] =>
    match s.fireOf c fid with
    | some f => .next (if n = 2 then s.postAmo c f else s.postAction c f)
    | none => .next s
  | _ => .next s
/-- SEMAPHORE_HANDOFF (R358): the AMO's result returns; the firing that brings the count to PCOUNT hands off. -/
def execSemaphoreHandoff (s : State) : Host.Outcome State Fault Refusal :=
  match s.arg with
  | .word [c, pc, pn, bit] old => .next (if pn != 0 && (old + 1).toNat == pn then s.sendBit c pc bit else s)
  | _ => .next s

/-! ### The Shotfirer (R361, R362) -/

/-- The action word keeps its field rules (R361): bits of other kinds zero, a reserved kind, a BQM address, a token. -/
def actionOk (s : State) (gen : Nat) (w : Nat) : Bool :=
  let kind := w % 16
  let used := 0x3F ||| (if kind = 1 then 0xFC0 else if kind = 2 then 0xFFFFF000 else if kind = 3 then 0xF000 else if kind = 4 then 0xFFFF0000 else 0)
  let tok := bitsOf w 16 16
  kind ≤ 4 && w &&& used == w
    && !(kind == 2 && bitOf w 12 && decide (4095 < bitsOf w 13 13))
    && (kind != 4 || tok < tokenLimit
      || (tok ≤ 0x80FF && localToken ≤ tok && (s.launch? gen).any (fun l => l.graph)))
/-- SBARM (R361): replaces an earlier arming, from the next cycle. -/
def execSbarm (g : BitVec 2) (t : BitVec 3) (a b : BitVec 5) (s : State) : Host.Outcome State Fault Refusal :=
  scalarWord (.sbarm g t a b) s (fun s c =>
    guardRegs s c [a.toNat, b.toNat]
      (let k := s.core c
       let mask := k.oper 0 a.toNat
       let act := k.oper 1 b.toNat
       if k.trigCount ≤ t.toNat || !actionOk s k.bnd.gen act.toNat || (act.toNat % 16 != 0 && mask == 0) then sOperand s
       else
         let x : Trigger := if act.toNat % 16 = 0 then {} else { armed := true, mask, action := act }
         .ok ((s.setCore c { k with trig := vset k.trig t.toNat x }).checkTriggers c) 1 none))
/-- One trigger that is due acts (R362): none where a full block queue holds it. -/
def State.triggerAct (s : State) (c i : Nat) (w : Nat) : Option State :=
  match w % 16 with
  | 1 =>
    let e := bitsOf w 6 6
    if ((s.core c).tile e).isNone then some (s.raise c { code := 0x02, source := 8, unit := i } none)
    else some (({ s with seq := s.seq + 1 } : State).setReady c e s.seq)
  | 2 =>
    let k := s.core c
    let mx := bitOf w 12
    let taken := if mx then k.bqm.taken s.now else k.bqv.taken s.now
    if 16 ≤ taken then none
    else some (s.pushBlock c (if mx then .matrix else .vector) { addr := bitsOf w 13 13, left := bitsOf w 26 6 + 1, spec := false, tag := 0, pushed := s.now })
  | 3 => some (s.cycSet c (.tile (bitsOf w 12 4) true))
  | _ =>
    let k := s.core c
    let t := bitsOf w 16 16
    some (match s.launch? k.bnd.gen with
      | some l => if l.origin = s.pkg then s.signal l.spid l.graphRun t else s.send l.origin (.signal s.window l.gen t)
      | none => s.signal k.bnd.spid none t)
/-- TRIGGER_FIRE (R362): every armed trigger whose mask is set in the value seen in this cycle fires, in ascending order; or, as an input, a
token has been signalled at another package (R56). -/
def execTriggerFire (s : State) : Host.Outcome State Fault Refusal :=
  match s.arg with
  | .nums [c] =>
    let seen := (s.core c).sr.sboard
    let go := fun (acc : State × Bool) (i : Nat) =>
      let t := vget (acc.1.core c).trig i {}
      if t.armed && (t.mask &&& seen) == t.mask then
        match acc.1.triggerAct c i t.action.toNat with
        | none => (acc.1, true)
        | some s =>
          let rearm := bitOf t.action.toNat 5
          let s := s.modCore c (fun k => { k with trig := vset k.trig i { t with armed := rearm } })
          let s := if bitOf t.action.toNat 4 then s.cycSet c (.sbClear t.mask) else s
          (s, acc.2 || rearm)
      else acc
    let r := (List.range 8).foldl go (s, false)
    .next (if r.2 then r.1.checkTriggers c else r.1)
  | .signal gen t => .next ((s.launch? gen).elim s (fun l => s.hearSignal l t))
  | _ => .next s

/-! ### Delivery of drained and routed rows (R248, R252, R355) -/

/-- What handing a piece to an entry comes to. -/
inductive Handed where
  | ok (s : State)
  | invalid
  | blocked
/-- The matrix stream hands a piece to an entry (R355): it joins the firing under way or begins one; an entry whose previous firing has not
completed blocks. The piece is read in the cycle after it is handed, or at f + 1 + i if that is later. -/
def State.hand (s : State) (c e stamp : Nat) (data : List Byte) (poison : Bool) : Handed :=
  match (s.core c).tile e with
  | none => .invalid
  | some t =>
    let go := fun (s : State) (fid : Nat) =>
      match s.fireOf c fid with
      | some f =>
        if f.handed && f.seen < f.pieces then
          let p : Piece := { src := c, dst := c, fid, copyTo := none, entry := e, slot := 0, index := f.seen, off := 0, data, poison, flow := none, stamp }
          .ok ((s.modFire c fid (fun f => { f with seen := f.seen + 1 })).post (max (f.at_ + 1 + f.seen) (s.now + 1)) 1 none (.run .entryFire (.piece p)))
        else Handed.blocked
      | none => .blocked
    match t.firing with
    | some fid => go s fid
    | none =>
      let r := s.newFiring c e (tcRows t.img) stamp s.now true
      go (r.1.modTile c e (fun t => { t with ready := none })) r.2

/-- Later rows of a drain slip with it, and the matrix stream with them, by one cycle (R248). -/
def State.slipRows (s : State) (d : DrainRow) : State :=
  let later := fun (e : Event) => match e.act with
    | .run .drainDelivery (.drow r) => r.core == d.core && r.of_.stamp == d.of_.stamp && decide (d.of_.idx < r.of_.idx)
    | .issue c .matrix => c == d.core && (s.core c).mx.istamp == d.of_.stamp && (s.core c).mx.sub != 0
    | _ => false
  let inIssue := (s.core d.core).mx.istamp == d.of_.stamp && (s.core d.core).mx.sub != 0
  let agenda := s.agenda.foldl (fun l e => insertEvent (if later e then { e with at_ := e.at_ + 1 } else e) l) []
  let s : State := { s with agenda }
  if inIssue then
    let q := s.quad (quadOf d.core)
    (s.setQuad (quadOf d.core) { q with busyTo := q.busyTo + 1 }).modStrm d.core .matrix (fun st => { st with busyTo := st.busyTo + 1 })
  else s
/-- Rows of an earlier drain of the core, for QM2V or a send, have yet to be delivered: a row waits behind them, and slips its own later rows (R248). -/
def State.drainBehind (s : State) (d : DrainRow) : Bool :=
  s.agenda.any (fun e => match e.act with
    | .run .drainDelivery (.drow r) => r.core == d.core && (r.dest == 1 || r.dest == 2) && decide (r.of_.stamp < d.of_.stamp)
    | _ => false)
/-- A delivery that cannot take place in this cycle: DEVIATION in a TIMED stope, a cycle's wait in an ELASTIC one (R248). -/
def State.deliveryBlocked (s : State) (d : DrainRow) (sub : Nat) : State :=
  if s.elastic d.core then (s.slipRows d).post (s.now + 1) (if d.dest = 3 then 4 else 1) (some d.core) (.run .drainDelivery (.drow d))
  else s.raiseMatrix d.core d.of_ { code := 4, sub, unit := if d.dest = 3 then d.entry else 0 }
/-- The pieces of a row still to deliver; a routed row is read in the cycle it is handed, with its poison (R252). -/
def State.drowPieces (s : State) (d : DrainRow) : List (List Byte) × Bool :=
  if d.dest = 3 && d.pieces.isEmpty then
    let data := s.cycBytes d.core 1 (512 * d.arow) 512 (fun _ => true)
    ([data.take 256, data.drop 256], ((s.core d.core).portRead 1 (512 * d.arow) 512).poison)
  else (d.pieces, d.of_.poison)
/-- Hand the pieces of a row to its entry: one now and the next a cycle later, or both of a routed row at once; the row's flags are set as its
first piece is delivered (R254). -/
def State.handRow (s : State) (d : DrainRow) (ps : List (List Byte)) (bad : Bool) : State :=
  match ps with
  | [] => s
  | p :: rest =>
    match s.hand d.core d.entry d.of_.stamp p bad with
    | .invalid => s.raiseMatrix d.core d.of_ { code := 0x02, unit := d.entry }
    | .blocked => s.deliveryBlocked { d with pieces := if d.dest = 3 && ps.length == 2 then [] else ps, of_ := { d.of_ with poison := bad } } 4
    | .ok s =>
      let s := s.orMstat d.core d.flags
      match rest with
      | [] => s
      | q :: _ =>
        let d' : DrainRow := { d with pieces := [q], flags := 0, of_ := { d.of_ with poison := bad } }
        if d.dest = 3 then
          match s.hand d.core d.entry d.of_.stamp q bad with
          | .invalid => s.raiseMatrix d.core d.of_ { code := 0x02, unit := d.entry }
          | .blocked => s.deliveryBlocked d' 4
          | .ok s => s
        else s.post (s.now + 1) 1 (some d.core) (.run .drainDelivery (.drow d'))
/-- DRAIN_DELIVERY (R248, R252). -/
def execDrainDelivery (s : State) : Host.Outcome State Fault Refusal :=
  match s.arg with
  | .drow d =>
    let c := d.core
    if d.dest != 3 && d.of_.poison then .next (s.raiseMatrix c d.of_ { code := 0x18, va := BitVec.ofNat 64 d.of_.pva, kind := kindLoad })
    else if d.dest = 0 then
      .next (((d.pieces.mapIdx (fun i p => (i, p))).foldl (fun t x =>
        t.cycWrite { core := c, space := 0, rank := 4, addr := 256 * (d.arow + x.1), data := x.2, sel := [] }) s).orMstat c d.flags)
    else if d.dest != 3 && s.elastic c && s.drainBehind d then .next (s.deliveryBlocked d 2)
    else if d.dest = 1 then
      match d.pieces with
      | [] => .next s
      | p :: rest =>
        let k := s.core c
        if 4 ≤ k.qm2v.taken s.now then .next (s.deliveryBlocked d 2)
        else
          let s := (s.setCore c { k with qm2v := k.qm2v.push s.now p }).orMstat c d.flags
          .next (if rest.isEmpty then s else s.post (s.now + 1) 1 (some c) (.run .drainDelivery (.drow { d with pieces := rest, flags := 0 })))
    else
      let r := s.drowPieces d
      if d.dest = 3 && (s.core c).tileShadow (d.arow / 128) then .next (s.raiseMatrix c d.of_ { code := 0x08, unit := d.entry })
      else
        let s := if d.dest = 3 then s.afterRead c 1 (512 * d.arow) 512 else s
        .next (s.handRow d r.1 r.2)
  | _ => .next s

end Sys2Proof.Machine
end

