-- ==== Sys2Proof/Machine/Ordering.lean ====
section
/-! DEFINITION. Ordering and visibility: scopes, FENCE, WAITM and the barriers (R99, R331, R341 to R344, R347 to R350). -/

namespace Sys2Proof.Machine

/-! ### Scopes (R68, R331) -/

/-- The scope of a depth of a core: 1 CORE to 5 PACKAGE, 6 FABRIC; a LANE depth acts as CORE; none beyond the chain. -/
def Binding.scope (b : Binding) (d : Nat) : Option Nat :=
  match b.chain[d]? with
  | some e => some (min 6 (max 1 e.level))
  | none => if d ≤ b.depth then some 1 else none
/-- A core of this package lies in the scope of a core. -/
def inScope (x c dst : Nat) : Bool :=
  match x with
  | 1 => dst == c
  | 2 => quadOf dst == quadOf c
  | 3 => sectorOf dst == sectorOf c
  | 4 => coreDie dst == coreDie c
  | _ => true

/-! ### What a FENCE waits for (R341, R342) -/

/-- An operation was issued before a FENCE or an arrival: in issue order and in an earlier cycle. -/
def issuedBefore (stamp tried st icyc : Nat) : Bool := st < stamp && icyc < tried

/-- A vector or matrix instruction of a core issued before is still in issue, or has an effect still to take (R341): a row, a push, a mask, a
flag, a plane. -/
def State.effectsDue (s : State) (c stamp tried : Nat) : Bool :=
  let k := s.core c
  let before := issuedBefore stamp tried
  let running := fun (st : StreamSt) => st.sub != 0 && before st.istamp st.icyc
  let bankLoad := fun (r : BankReq) => r.core == c && r.src == 1 && before r.stamp r.entry.icyc && (match r.job with | .load _ _ _ _ => true | _ => false)
  running k.ve || running k.mx
    || s.agenda.any (fun e => match e.act with
      | .run .vectorResult (.vres r) => r.core == c && before r.stamp r.icyc
      | .run .matrixRowWrite (.mrow r) => r.core == c && before r.of_.stamp r.of_.icyc
      | .run .drainDelivery (.drow r) => r.core == c && r.dest != 3 && before r.of_.stamp r.of_.icyc
      | .run .fullBitChange (.flag x _ _ r) => x == c && before r.stamp r.icyc
      | .run .shadowPlaneLoaded (.nums [_, st, x, 1]) => x == c && st < stamp
      | _ => false)
    || s.joins.any (fun j => j.core == c && before j.stamp j.entry.icyc)
    || k.arriving.any bankLoad || k.banks.toList.any (fun b => b.queue.any bankLoad)
    || s.greqs.any (fun g => g.core == c && before g.stamp g.entry.icyc && (match g.job with | .vmpos _ => true | _ => false))

/-- A global request has still to perform at a scope (R342): a write to another package counts at FABRIC only. -/
def State.requestDue (s : State) (x : Nat) (g : GReq) : Bool :=
  g.n != 0 && (if s.isRemote g.pa && !g.job.returns then x == 6 else true)
/-- The words of a copy that have not left the engine: every word of one that waits in the queue (R303). -/
def Core.copyLeft (k : Core) (d : CopyDesc) : List Nat :=
  if k.copyQ.any (fun q => q.id == d.id) then List.range d.words
  else
    match k.copy.filter (fun r => r.desc.id == d.id) with
    | some r => r.unsent ++ (List.range r.words).drop r.nextWord
    | none => []
/-- A copy has words whose source has not been read (R342). -/
def Core.copyUnread (k : Core) (d : CopyDesc) : Bool := (k.copyLeft d).any (fun w => k.copy.all (fun r => r.desc.id != d.id || (r.parkedAt w).isNone))
/-- A copy has still to perform at a scope: its words with a core destination in scope, its global words as requests do (R342). -/
def State.copyDue (s : State) (x c : Nat) (d : CopyDesc) : Bool :=
  if d.dspace = 5 then
    ((s.core c).copyLeft d).any (fun w => x == 6 || (s.walkPa (s.spidOf c) (d.word w).dst false).all (fun pa => !s.isRemote pa))
      || s.greqs.any (fun g => g.core == c && g.entry.job == some d.id && s.requestDue x g)
  else inScope x c (d.dstCore c)
/-- A firing has still to perform at a scope (R342): a piece it has yet to read or that is on its way to a peer in scope, or its own result, of what
was handed to it before. -/
def State.firingDue (s : State) (x c stamp : Nat) (f : Firing) : Bool :=
  let dsts := tcPeerList f.img
  let far := fun (id : Nat) => id / 1024 != (s.core c).bnd.pkgPos
  let peerIn := fun (id : Nat) => if far id then x == 6 else inScope x c (id % 1024)
  let unread := s.agenda.any (fun e => match e.act with
    | .run .entryFire (.nums [a, e]) => a == c && e == f.entry && f.at_ == 0
    | .run .entryFire (.nums [a, id, _]) => a == c && id == f.id
    | .run .entryFire (.piece p) => p.src == c && p.fid == f.id && p.stamp < stamp
    | _ => false)
  let onWay := s.agenda.any (fun e => match e.act with
    | .run .pieceArrival (.piece p) => p.flow.isNone && p.src == c && p.fid == f.id && p.stamp < stamp && inScope x c p.dst
    | .run .combineWrite (.piece p) => p.src == c && p.fid == f.id && p.stamp < stamp
    | .run .firingComplete (.piece p) => p.src == c && p.fid == f.id && p.stamp < stamp && x == 6
    | _ => false)
  !f.done && ((unread && (tcCombine f.img || dsts.any (fun p => peerIn (prCore p)))) || onWay || f.own.any (fun o => o.2.stamp < stamp)
    || (x == 6 && s.parked.any (fun p => p.src == c && p.fid == f.id && p.stamp < stamp)))

/-- Whether everything of the named classes issued before has performed at a scope (R341, R342). -/
def State.performedAt (s : State) (c x mask stamp tried : Nat) : Bool :=
  let k := s.core c
  let before := issuedBefore stamp tried
  let copies := k.copiesBefore stamp
  let bankSide := fun (d : CopyDesc) => isBankSpace d.sspace || isBankSpace d.dspace
  let globalSide := fun (d : CopyDesc) => d.sspace == 5 || d.dspace == 5
  let bankDue := fun (r : BankReq) => r.core == c && before r.stamp r.entry.icyc
  let gl := s.greqs.any (fun g => g.core == c && g.src != 6 && before g.stamp g.entry.icyc && s.requestDue x g)
    || copies.any (fun d => globalSide d && (s.copyDue x c d || (d.sspace == 5 && k.copyUnread d)))
  let bk := k.arriving.any bankDue || s.lodeHeld c
    || k.banks.toList.any (fun b => b.queue.any bankDue || b.engine.any (fun e => bankDue e.req) || b.ended.any (fun e => bankDue e.1) || b.waits.any bankDue)
    || copies.any (fun d => bankSide d && (isBankSpace d.dspace || s.copyDue x c d || k.copyUnread d))
  let ew := copies.any (s.copyDue x c)
    || s.agenda.any (fun e => match e.act with
      | .run .drainDelivery (.drow r) => r.core == c && before r.of_.stamp r.of_.icyc
      | _ => false)
    || k.fires.any (fun f => f.stamp < stamp && s.firingDue x c stamp f)
    || k.act.tiles.any (fun t => t.2.ready.any (fun st => st < stamp)
        && (tcCombine t.2.img || (tcPeerList t.2.img).any (fun p => if prCore p / 1024 == k.bnd.pkgPos then inScope x c (prCore p % 1024) else x == 6)))
  let su := s.dsops.any (fun o => o.core == c && o.stamp < stamp)
  !s.effectsDue c stamp tried && !(bitOf mask 0 && gl) && !(bitOf mask 1 && bk) && !(bitOf mask 2 && ew) && !(bitOf mask 3 && su)

/-- FENCE (R341). -/
def execFence (g : BitVec 2) (d : BitVec 4) (m : BitVec 4) (s : State) : Host.Outcome State Fault Refusal :=
  scalarWord (.fence g d m) s (fun s c =>
    let k := s.core c
    match k.bnd.scope d.toNat with
    | none => sOperand s
    | some x => lateLook s c (s.performedAt c x m.toNat k.sc.istamp k.sc.tried) (.ok s 1 none))

/-! ### WAITM (R343) -/

/-- The condition of a WAITM. -/
def waitHit (cond : Nat) (v r : Word64) : Bool :=
  match cond with
  | 0 => v == r
  | 1 => v != r
  | 2 => decide (r.toNat ≤ v.toNat)
  | _ => (v &&& r) == r
/-- A WAITM goes on `lat` cycles from now at a later part of its word: 1 a DEVIATION, 2 poison, 3 its global read has come. -/
def State.waitPart (s : State) (c part lat : Nat) : SOut :=
  .wait ((s.modStrm c .scalar (fun st => { st with sub := part, stall := st.stall || part == 0 })).postIssue c .scalar (s.now + lat))
/-- A read of A-space or of a status column, available `lat` cycles from now: a hit goes on then, a miss is a DEVIATION or reads again. -/
def waitNear (s : State) (c : Nat) (hit bad : Bool) (lat : Nat) : SOut :=
  if bad then s.waitPart c 2 lat
  else if hit then .ok s (1 + lat) none
  else s.waitPart c (if s.elastic c then 0 else 1) lat
/-- A global read of a WAITM leaves; its result comes as a load's does. -/
def waitGlobal (s : State) (c : Nat) (va : Word64) : SOut :=
  match s.letIn c 8 kindLoad 1 [va.toNat] with
  | .ok s (pa :: _) =>
    let k := s.core c
    let id := s.seq
    let s := s.sendGlobal c 0 va.toNat pa 8 .waitm 1 k.sc.istamp { k.scalarEntry with own := false } none
    let s := if s.isRemote pa then s else s.post (s.now + 1760) 0 (some c) (.run .globalResultReturn (.nums [id]))
    .wait (s.modStrm c .scalar (fun st => { st with sub := 3 }))
  | .ok s [] => .ok s 1 none
  | .fault s f => .fault s f
  | .refuse s => .block s 6
/-- The value that a WAITM's global read brought. -/
def State.waitValue (s : State) (c : Nat) : Option GReq :=
  s.greqs.find? (fun g => g.core == c && g.done && g.stamp == (s.core c).sc.istamp && (match g.job with | .waitm => true | _ => false))
/-- WAITM (R343): every part of the wait issues the word again. -/
def execWaitm (g : BitVec 2) (a b : BitVec 5) (sp : BitVec 2) (cd : BitVec 3) (s : State) : Host.Outcome State Fault Refusal :=
  scalarWord (.waitm g a b sp cd) s (fun s c =>
    guardRegs s c [a.toNat, b.toNat]
      (let k := s.core c
       let ra := k.oper 0 a.toNat
       let rb := k.oper 1 b.toNat
       let s := if k.sc.fwd.isEmpty then s.modStrm c .scalar (fun st => { st with fwd := [(0, leBytes 8 ra.toNat), (1, leBytes 8 rb.toNat)] }) else s
       if k.sc.sub = 1 then .fault s { code := 4, sub := 4 }
       else if k.sc.sub = 2 then .fault s { code := 0x18, va := ra, kind := kindLoad }
       else if k.sc.sub = 3 then
         match s.waitValue c with
         | some g =>
           let s1 := (s.dropReq g.id).modStrm c .scalar (fun st => { st with sub := 0 })
           if g.poisoned then .fault (s.dropReq g.id) { code := 0x18, va := ra, kind := kindLoad }
           else if waitHit cd.toNat (BitVec.ofNat 64 (leNat g.val)) rb then .ok s1 1 none
           else if s.elastic c then waitGlobal s1 c ra
           else .fault (s.dropReq g.id) { code := 4, sub := 4 }
         | none => .wait s
       else if sp = 2 then
         if 31 < ra.toNat then sOperand s
         else waitNear s c (waitHit cd.toNat ((k.bank ra.toNat).seen s.now) rb) false 1
       else if ra.toNat % 8 != 0 then .fault s { code := 0x11, va := ra, kind := kindLoad }
       else if sp = 0 then
         if aSize < ra.toNat + 8 then .fault s { code := 0x10, va := ra, kind := kindLoad }
         else
           let r := k.portRead 0 ra.toNat 8
           waitNear (s.afterRead c 0 ra.toNat 8) c (waitHit cd.toNat (BitVec.ofNat 64 (leNat r.data)) rb) r.poison 3
       else waitGlobal s c ra))

/-! ### Barriers (R344, R347 to R350) -/

/-- The instance of a barrier at a depth of a core: (launch, number, depth, ancestor instance); a LANE depth's is the core's own (R331, R347). -/
def Core.barKey (k : Core) (c bar d : Nat) : BarKey :=
  { gen := k.bnd.gen, bar, depth := d, anc := match k.bnd.chain[d]? with | some e => e.inst | none => 2 ^ 20 + c }
/-- This core's latest arrival on an instance. -/
def Core.arrivalOn (k : Core) (key : BarKey) : Option BarArr := k.bars.find? (fun b => b.key == key)
/-- The participants of an instance bound in this package (R347). -/
def State.participants (s : State) (key : BarKey) : List Nat :=
  (s.launchCores key.gen).filter (fun c => (s.core c).barKey c key.bar key.depth == key)
/-- A number that stands for every barrier of a depth and ancestor: what all participants of a package have come to by halting (R347). -/
def everyBar : Nat := 64
/-- The counters of an instance: a new one knows what other packages' halted participants have told of every barrier (R347). -/
def State.barSt (s : State) (key : BarKey) : BarSt :=
  (s.barriers.find? (fun b => b.key == key)).getD
    { key, arrivals := [], complete := 0, due := 0, far := ((s.barriers.find? (fun b => b.key == { key with bar := everyBar })).map (fun b => b.far)).getD [] }
/-- Put the counters of an instance. -/
def State.setBar (s : State) (b : BarSt) : State := { s with barriers := s.barriers.filter (fun x => x.key != b.key) ++ [b] }
/-- Exact delays from the last arrival to its completion being seen (R349). -/
def barLat (x : Nat) : Nat := match x with | 1 => 1 | 2 => 4 | 3 => 12 | _ => 100
/-- When a phase whose last arrival has just counted is seen complete (R349). -/
def State.barSeen (s : State) (x : Nat) : Nat := if x ≤ 4 then s.now + barLat x else if x = 5 then s.within 400 else s.windowPlus2
/-- The fabric packages with a participant of an instance (R347): those that have an instance at or below PACKAGE level beneath its ancestor. -/
def State.barParts (s : State) (key : BarKey) : List Nat :=
  match s.launch? key.gen with
  | some l =>
    l.parts.filter (fun p => (List.range l.insts.length).any (fun i =>
      match l.insts[i]? with
      | some x => x.level ≤ 5 && l.pkgs[x.pkg]? == some p && (l.pathOf 17 i).contains key.anc
      | none => false))
  | none => []
/-- The instance has participants in several packages. -/
def State.barFar (s : State) (key : BarKey) : Bool := 1 < (s.barParts key).length
/-- Phase that stands for every phase: all participants have halted (R347). -/
def everyPhase : Nat := 2 ^ 48
/-- The latest phase that every participant of this package has arrived at or halted before (R347, R348). -/
def State.ownPhase (s : State) (key : BarKey) : Nat :=
  ((s.participants key).filter (fun c => !(s.core c).sc.halted)).foldl (fun m c => min m (Table.getD (s.barSt key).arrivals c 0)) everyPhase
/-- A phase of an instance that spans packages completes when every package has told of it; it is seen at the boundary of window N + 2 (R349). -/
def State.checkFar (s : State) (key : BarKey) : State :=
  let b := s.barSt key
  let n := b.due + 1
  let told := (s.barParts key).map (fun p => Table.getD b.far p (0, 0))
  if told.any (fun t => n ≤ t.1 && t.1 < everyPhase) && told.all (fun t => n ≤ t.1) then
    let w := told.foldl (fun m t => max m t.2) 0 + 2
    (s.setBar { b with due := n }).post (if s.window < w then s.winAt + 1700 * (w - s.window) else s.now) 0 none (.run .barrierComplete (.bar key n))
  else s
/-- The next phase of an instance completes when every participant has arrived, or halted (R347, R348). What this package's participants have
come to is told to the other packages of the instance; while its part is saved it stands still. -/
def State.checkBar (s : State) (key : BarKey) : State :=
  let ps := s.participants key
  let b := s.barSt key
  let x := (ps.head?.bind (fun c => (s.core c).bnd.scope key.depth)).getD 1
  let n := b.due + 1
  let come := fun (c : Nat) => n ≤ Table.getD b.arrivals c 0
  if s.barFar key then
    let own := s.ownPhase key
    if (s.launch? key.gen).any (fun l => !l.saved.isEmpty) || own ≤ (Table.getD b.far s.pkg (0, 0)).1 then s.checkFar key
    else
      let s := s.setBar { b with far := Table.put b.far s.pkg (own, s.window) }
      (((s.barParts key).filter (fun p => p != s.pkg)).foldl (fun (t : State) p => t.send p (.arrival t.window key own)) s).checkFar key
  else if ps.any come && ps.all (fun c => come c || (s.core c).sc.halted) then
    ((s.setBar { b with due := n }).drawn).post (s.barSeen x) 0 none (.run .barrierComplete (.bar key n))
  else s
/-- An arrival of a core counts (R348). -/
def State.countArrival (s : State) (c : Nat) (key : BarKey) : State :=
  let b := s.barSt key
  let n := Table.getD b.arrivals c 0 + 1
  ((s.setBar { b with arrivals := Table.put b.arrivals c n }).modCore c (fun k =>
    { k with bars := k.bars.map (fun a => if a.key = key then { a with counted := true } else a) })).checkBar key
/-- Another package tells how far its participants have come, and in which window (R347, R349). -/
def State.hearOne (s : State) (pkg phase win : Nat) (key : BarKey) : State :=
  let b := s.barSt key
  if phase ≤ (Table.getD b.far pkg (0, 0)).1 then s else (s.setBar { b with far := Table.put b.far pkg (phase, win) }).checkBar key
/-- The same, of one barrier or of every barrier of an ancestor. -/
def State.hearArrival (s : State) (key : BarKey) (pkg phase win : Nat) : State :=
  let others := if key.bar = everyBar then (s.barriers.map (fun b => b.key)).filter (fun x => x != key && { x with bar := everyBar } == key) else []
  (key :: others).foldl (State.hearOne · pkg phase win ·) s
/-- The instances of a launch that are looked at once a core has halted: those that count arrivals, and for every depth and ancestor that spans
packages the one that stands for all its barriers (R347, R349). -/
def State.haltKeys (s : State) (gen : Nat) : List BarKey :=
  let far := (s.launchCores gen).flatMap (fun c => (List.range (s.core c).bnd.chain.length).map (fun d => (s.core c).barKey c everyBar d))
  ((far.filter s.barFar) ++ (s.barriers.filter (fun b => b.key.gen == gen)).map (fun b => b.key)).dedup
/-- BARRIER_COMPLETE (R344, R347 to R349): a phase is seen complete by every participant; or an arrival counts once its release holds; or the
barriers of a launch are looked at since a core has halted; or, as an input, another package's participants have arrived. -/
def execBarrierComplete (s : State) : Host.Outcome State Fault Refusal :=
  match s.arg with
  | .arrival key pkg phase win => .next (s.hearArrival key pkg phase win)
  | .bar key n =>
    let b := s.barSt key
    if b.due < n then .next s
    else
    let s := s.setBar { b with complete := max b.complete n }
    .next ((s.participants key).foldl (fun t c => t.modCore c (fun k =>
      { k with bars := k.bars.map (fun a => if a.key = key ∧ a.phase ≤ n then { a with complete := true } else a) })) s)
  | .nums [c, bar, d, stamp, tried] =>
    match (s.core c).bnd.scope d with
    | some x =>
      if s.performedAt c x 15 stamp tried then .next (s.countArrival c ((s.core c).barKey c bar d))
      else .next (s.post (s.now + 1) 4 (some c) (.run .barrierComplete (.nums [c, bar, d, stamp, tried])))
    | none => .next s
  | .nums [gen] => .next ((s.haltKeys gen).foldl State.checkBar s)
  | _ => .next s

/-- Arrive on an instance: the arrival counts in the next cycle at the earliest, once what a FENCE issued in this cycle would wait for has performed
(R344, R348). -/
def State.arriveAt (s : State) (c bar d : Nat) (key : BarKey) : State :=
  let k := s.core c
  let phase := (k.arrivalOn key).elim 1 (fun a => a.phase + 1)
  let a : BarArr := { key, phase, counted := false, complete := false, stamp := k.sc.istamp }
  (s.setCore c { k with bars := k.bars.filter (fun x => x.key != key) ++ [a] }).post (s.now + 1) 4 (some c)
    (.run .barrierComplete (.nums [c, bar, d, s.seq, s.localCyc c]))
/-- The core's previous arrival on an instance has not completed: a blocking condition (R348). -/
def State.arrivalOpen (s : State) (c : Nat) (key : BarKey) : Bool := ((s.core c).arrivalOn key).any (fun a => (s.barSt key).due < a.phase)
/-- The wait of BAR and BARW (R350): at DIE scope and above an anchor point; below, the phase must be seen complete in this cycle. -/
def barWait (s : State) (c bar d x : Nat) (key : BarKey) : SOut :=
  if 4 ≤ x then .wait (s.waitAnchor c (some (bar, d)))
  else if ((s.core c).arrivalOn key).all (fun a => a.complete) then .ok s 1 none
  else .block s 4
/-- The first issue of a BAR: the arrival, then the wait; in a TIMED stope below DIE the check lies 1 + lat(X) cycles later (R350). -/
def barFirst (s : State) (c bar d x : Nat) (key : BarKey) : SOut :=
  if s.arrivalOpen c key then .block s 4
  else
    let s := (s.arriveAt c bar d key).modStrm c .scalar (fun st => { st with sub := 1 })
    if 4 ≤ x then barWait s c bar d x key
    else if s.elastic c then .block s 4
    else .wait (s.postIssue c .scalar (s.now + 1 + barLat x))
/-- BAR (R350); a word that has arrived already waits as BARW does (R396). -/
def execBar (g : BitVec 2) (d : BitVec 4) (n : BitVec 6) (s : State) : Host.Outcome State Fault Refusal :=
  scalarWord (.bar g d n) s (fun s c =>
    let k := s.core c
    match k.bnd.scope d.toNat with
    | none => sOperand s
    | some x =>
      let key := k.barKey c n.toNat d.toNat
      if k.sc.sub = 0 then barFirst s c n.toNat d.toNat x key else barWait s c n.toNat d.toNat x key)
/-- BARA (R350). -/
def execBara (g : BitVec 2) (d : BitVec 4) (n : BitVec 6) (s : State) : Host.Outcome State Fault Refusal :=
  scalarWord (.bara g d n) s (fun s c =>
    let k := s.core c
    match k.bnd.scope d.toNat with
    | none => sOperand s
    | some _ =>
      let key := k.barKey c n.toNat d.toNat
      if s.arrivalOpen c key then .block s 4 else .ok (s.arriveAt c n.toNat d.toNat key) 1 none)
/-- BARW (R350): with no arrival it completes at once. -/
def execBarw (g : BitVec 2) (d : BitVec 4) (n : BitVec 6) (s : State) : Host.Outcome State Fault Refusal :=
  scalarWord (.barw g d n) s (fun s c =>
    let k := s.core c
    match k.bnd.scope d.toNat with
    | none => sOperand s
    | some x => barWait s c n.toNat d.toNat x (k.barKey c n.toNat d.toNat))

end Sys2Proof.Machine
end

