-- ==== Sys2Proof/Machine/Sha256.lean ====
section
/-! DEFINITION. SHA-256 over byte lists (R30, R413): the digest that section tables, manifests and reports carry. -/

namespace Sys2Proof.Machine

/-- The round constants. -/
def shaK : List Word32 :=
  [0x428a2f98#32, 0x71374491#32, 0xb5c0fbcf#32, 0xe9b5dba5#32, 0x3956c25b#32, 0x59f111f1#32, 0x923f82a4#32, 0xab1c5ed5#32] ++
  [0xd807aa98#32, 0x12835b01#32, 0x243185be#32, 0x550c7dc3#32, 0x72be5d74#32, 0x80deb1fe#32, 0x9bdc06a7#32, 0xc19bf174#32] ++
  [0xe49b69c1#32, 0xefbe4786#32, 0x0fc19dc6#32, 0x240ca1cc#32, 0x2de92c6f#32, 0x4a7484aa#32, 0x5cb0a9dc#32, 0x76f988da#32] ++
  [0x983e5152#32, 0xa831c66d#32, 0xb00327c8#32, 0xbf597fc7#32, 0xc6e00bf3#32, 0xd5a79147#32, 0x06ca6351#32, 0x14292967#32] ++
  [0x27b70a85#32, 0x2e1b2138#32, 0x4d2c6dfc#32, 0x53380d13#32, 0x650a7354#32, 0x766a0abb#32, 0x81c2c92e#32, 0x92722c85#32] ++
  [0xa2bfe8a1#32, 0xa81a664b#32, 0xc24b8b70#32, 0xc76c51a3#32, 0xd192e819#32, 0xd6990624#32, 0xf40e3585#32, 0x106aa070#32] ++
  [0x19a4c116#32, 0x1e376c08#32, 0x2748774c#32, 0x34b0bcb5#32, 0x391c0cb3#32, 0x4ed8aa4a#32, 0x5b9cca4f#32, 0x682e6ff3#32] ++
  [0x748f82ee#32, 0x78a5636f#32, 0x84c87814#32, 0x8cc70208#32, 0x90befffa#32, 0xa4506ceb#32, 0xbef9a3f7#32, 0xc67178f2#32]

/-- The initial hash value. -/
def shaH0 : List Word32 :=
  [0x6a09e667#32, 0xbb67ae85#32, 0x3c6ef372#32, 0xa54ff53a#32, 0x510e527f#32, 0x9b05688c#32, 0x1f83d9ab#32, 0x5be0cd19#32]

/-- Right rotation of a word. -/
def shaRotr (x : Word32) (n : Nat) : Word32 := (x >>> n) ||| (x <<< (32 - n))

/-- Four bytes, most significant first, as a word. -/
def shaWord (l : List Byte) : Word32 := BitVec.ofNat 32 (l.foldl (fun a b => a * 256 + b.toNat) 0)

/-- The next word of the message schedule from the sixteen before it, newest first. -/
def shaNext (w : List Word32) : Word32 :=
  let a := w.getD 1 0
  let b := w.getD 14 0
  let s1 := shaRotr a 17 ^^^ shaRotr a 19 ^^^ (a >>> 10)
  let s0 := shaRotr b 7 ^^^ shaRotr b 18 ^^^ (b >>> 3)
  w.getD 15 0 + s0 + w.getD 6 0 + s1

/-- The message schedule, newest first. -/
def shaSchedule : Nat → List Word32 → List Word32
  | 0, w => w
  | fuel + 1, w => shaSchedule fuel (shaNext w :: w)

/-- One round on the eight working words. -/
def shaRound (h : List Word32) (kw : Word32 × Word32) : List Word32 :=
  match h with
  | [a, b, c, d, e, f, g, hh] =>
    let t1 := hh + (shaRotr e 6 ^^^ shaRotr e 11 ^^^ shaRotr e 25) + ((e &&& f) ^^^ (~~~e &&& g)) + kw.1 + kw.2
    let t2 := (shaRotr a 2 ^^^ shaRotr a 13 ^^^ shaRotr a 22) + ((a &&& b) ^^^ (a &&& c) ^^^ (b &&& c))
    [t1 + t2, a, b, c, d + t1, e, f, g]
  | l => l

/-- One block of 64 bytes. -/
def shaBlock (h : List Word32) (blk : List Byte) : List Word32 :=
  let w := (shaSchedule 48 ((chunksOf 4 16 blk).map shaWord).reverse).reverse
  List.zipWith (· + ·) h ((List.zip shaK w).foldl shaRound h)

/-- Big-endian bytes of a number. -/
def beBytes (n v : Nat) : List Byte :=
  ((List.range n).map (fun i => BitVec.ofNat 8 (v >>> (8 * i)))).reverse

/-- SHA-256. -/
def sha256 (m : List Byte) : List Byte :=
  let pad := (119 - m.length % 64) % 64
  let padded := m ++ [0x80#8] ++ List.replicate pad 0#8 ++ beBytes 8 (8 * m.length)
  ((chunksOf 64 (padded.length / 64) padded).foldl shaBlock shaH0).flatMap (fun w => beBytes 4 w.toNat)

end Sys2Proof.Machine
end

