-- ==== Sys2Proof/Machine/SlhDsa.lean ====
section
/-! DEFINITION. FIPS 205 pure SLH-DSA-SHA2-192s verification and signing with an empty context string (R46, R413, R418), and the SHA-512 they rest on. The two standards are taken from outside the manual, which names them (log 59). -/

namespace Sys2Proof.Machine

/-! ### SHA-512 -/

/-- The round constants. -/
def sha5K : List Word64 :=
  [0x428a2f98d728ae22#64, 0x7137449123ef65cd#64, 0xb5c0fbcfec4d3b2f#64, 0xe9b5dba58189dbbc#64, 0x3956c25bf348b538#64] ++
  [0x59f111f1b605d019#64, 0x923f82a4af194f9b#64, 0xab1c5ed5da6d8118#64, 0xd807aa98a3030242#64, 0x12835b0145706fbe#64] ++
  [0x243185be4ee4b28c#64, 0x550c7dc3d5ffb4e2#64, 0x72be5d74f27b896f#64, 0x80deb1fe3b1696b1#64, 0x9bdc06a725c71235#64] ++
  [0xc19bf174cf692694#64, 0xe49b69c19ef14ad2#64, 0xefbe4786384f25e3#64, 0x0fc19dc68b8cd5b5#64, 0x240ca1cc77ac9c65#64] ++
  [0x2de92c6f592b0275#64, 0x4a7484aa6ea6e483#64, 0x5cb0a9dcbd41fbd4#64, 0x76f988da831153b5#64, 0x983e5152ee66dfab#64] ++
  [0xa831c66d2db43210#64, 0xb00327c898fb213f#64, 0xbf597fc7beef0ee4#64, 0xc6e00bf33da88fc2#64, 0xd5a79147930aa725#64] ++
  [0x06ca6351e003826f#64, 0x142929670a0e6e70#64, 0x27b70a8546d22ffc#64, 0x2e1b21385c26c926#64, 0x4d2c6dfc5ac42aed#64] ++
  [0x53380d139d95b3df#64, 0x650a73548baf63de#64, 0x766a0abb3c77b2a8#64, 0x81c2c92e47edaee6#64, 0x92722c851482353b#64] ++
  [0xa2bfe8a14cf10364#64, 0xa81a664bbc423001#64, 0xc24b8b70d0f89791#64, 0xc76c51a30654be30#64, 0xd192e819d6ef5218#64] ++
  [0xd69906245565a910#64, 0xf40e35855771202a#64, 0x106aa07032bbd1b8#64, 0x19a4c116b8d2d0c8#64, 0x1e376c085141ab53#64] ++
  [0x2748774cdf8eeb99#64, 0x34b0bcb5e19b48a8#64, 0x391c0cb3c5c95a63#64, 0x4ed8aa4ae3418acb#64, 0x5b9cca4f7763e373#64] ++
  [0x682e6ff3d6b2b8a3#64, 0x748f82ee5defb2fc#64, 0x78a5636f43172f60#64, 0x84c87814a1f0ab72#64, 0x8cc702081a6439ec#64] ++
  [0x90befffa23631e28#64, 0xa4506cebde82bde9#64, 0xbef9a3f7b2c67915#64, 0xc67178f2e372532b#64, 0xca273eceea26619c#64] ++
  [0xd186b8c721c0c207#64, 0xeada7dd6cde0eb1e#64, 0xf57d4f7fee6ed178#64, 0x06f067aa72176fba#64, 0x0a637dc5a2c898a6#64] ++
  [0x113f9804bef90dae#64, 0x1b710b35131c471b#64, 0x28db77f523047d84#64, 0x32caab7b40c72493#64, 0x3c9ebe0a15c9bebc#64] ++
  [0x431d67c49c100d4c#64, 0x4cc5d4becb3e42b6#64, 0x597f299cfc657e2a#64, 0x5fcb6fab3ad6faec#64, 0x6c44198c4a475817#64]

/-- The initial hash value. -/
def sha5H0 : List Word64 :=
  [0x6a09e667f3bcc908#64, 0xbb67ae8584caa73b#64, 0x3c6ef372fe94f82b#64, 0xa54ff53a5f1d36f1#64,
   0x510e527fade682d1#64, 0x9b05688c2b3e6c1f#64, 0x1f83d9abfb41bd6b#64, 0x5be0cd19137e2179#64]

/-- Right rotation of a word. -/
def sha5Rotr (x : Word64) (n : Nat) : Word64 := (x >>> n) ||| (x <<< (64 - n))

/-- Bytes, most significant first, as a number. -/
def beNat (l : List Byte) : Nat := l.foldl (fun a b => a * 256 + b.toNat) 0

/-- The next word of the message schedule from the sixteen before it, newest first. -/
def sha5Next (w : List Word64) : Word64 :=
  let a := w.getD 1 0
  let b := w.getD 14 0
  w.getD 15 0 + (sha5Rotr b 1 ^^^ sha5Rotr b 8 ^^^ (b >>> 7)) + w.getD 6 0 + (sha5Rotr a 19 ^^^ sha5Rotr a 61 ^^^ (a >>> 6))

/-- The message schedule, newest first. -/
def sha5Schedule : Nat → List Word64 → List Word64
  | 0, w => w
  | fuel + 1, w => sha5Schedule fuel (sha5Next w :: w)

/-- One round on the eight working words. -/
def sha5Round (h : List Word64) (kw : Word64 × Word64) : List Word64 :=
  match h with
  | [a, b, c, d, e, f, g, hh] =>
    let t1 := hh + (sha5Rotr e 14 ^^^ sha5Rotr e 18 ^^^ sha5Rotr e 41) + ((e &&& f) ^^^ (~~~e &&& g)) + kw.1 + kw.2
    let t2 := (sha5Rotr a 28 ^^^ sha5Rotr a 34 ^^^ sha5Rotr a 39) + ((a &&& b) ^^^ (a &&& c) ^^^ (b &&& c))
    [t1 + t2, a, b, c, d + t1, e, f, g]
  | l => l

/-- One block of 128 bytes. -/
def sha5Block (h : List Word64) (blk : List Byte) : List Word64 :=
  let w := (sha5Schedule 64 ((chunksOf 8 16 blk).map (fun x => BitVec.ofNat 64 (beNat x))).reverse).reverse
  List.zipWith (· + ·) h ((List.zip sha5K w).foldl sha5Round h)

/-- SHA-512. -/
def sha512 (m : List Byte) : List Byte :=
  let padded := m ++ [0x80#8] ++ List.replicate ((239 - m.length % 128) % 128) 0#8 ++ beBytes 16 (8 * m.length)
  ((chunksOf 128 (padded.length / 128) padded).foldl sha5Block sha5H0).flatMap (fun w => beBytes 8 w.toNat)

/-! ### SLH-DSA-SHA2-192s: n = 24, h = 63, d = 7, h' = 9, a = 14, k = 17, w = 16, m = 39 -/

/-- Where a hash stands: layer, tree, type and the three words whose meaning the type gives. -/
structure SlhAdrs where
  layer : Nat := 0
  tree : Nat
  ty : Nat
  x : Nat := 0
  y : Nat := 0
  z : Nat := 0
  deriving DecidableEq, Repr

/-- The compressed form of 22 bytes. -/
def SlhAdrs.bytes (a : SlhAdrs) : List Byte :=
  beBytes 1 a.layer ++ beBytes 8 a.tree ++ beBytes 1 a.ty ++ beBytes 4 a.x ++ beBytes 4 a.y ++ beBytes 4 a.z

/-- The function F: SHA-256 over the padded seed, the address and one value. -/
def slhF (seed : List Byte) (a : SlhAdrs) (m : List Byte) : List Byte :=
  (sha256 (seed ++ List.replicate 40 0#8 ++ a.bytes ++ m)).take 24

/-- The functions H and T: SHA-512 over the padded seed, the address and the values. -/
def slhH (seed : List Byte) (a : SlhAdrs) (m : List Byte) : List Byte :=
  (sha512 (seed ++ List.replicate 104 0#8 ++ a.bytes ++ m)).take 24

/-- The message digest of 39 bytes: one block of MGF1 with SHA-512. -/
def slhDigest (r key m : List Byte) : List Byte :=
  let head := r ++ key.take 24
  (sha512 (head ++ sha512 (r ++ key ++ m) ++ List.replicate 4 0#8)).take 39

/-- `steps` applications of F from place `i` of a chain on. -/
def slhChain (seed : List Byte) (a : SlhAdrs) : Nat → Nat → List Byte → List Byte
  | _, 0, x => x
  | i, steps + 1, x => slhChain seed a (i + 1) steps (slhF seed { a with z := i } x)

/-- A root from a leaf and its authentication path: `idx` is the leaf's place in its tree, `base` the first leaf's index in the address. -/
def slhRoot (seed : List Byte) (a : SlhAdrs) (base idx : Nat) : Nat → List (List Byte) → List Byte → List Byte
  | _, [], node => node
  | j, s :: rest, node =>
    let pair := if (idx >>> j) % 2 = 0 then node ++ s else s ++ node
    slhRoot seed a base idx (j + 1) rest (slhH seed { a with y := j + 1, z := (base + idx) >>> (j + 1) } pair)

/-- The digits of a one-time signature: 48 of the message, most significant first, and three of the checksum. -/
def slhDigits (m : List Byte) : List Nat :=
  let d := m.flatMap (fun b => [b.toNat / 16, b.toNat % 16])
  let c := d.foldl (fun n x => n + (15 - x)) 0
  d ++ [c / 256 % 16, c / 16 % 16, c % 16]

/-- The root of one tree of the hypertree from a signature of 60 values over a node. -/
def slhXmss (seed : List Byte) (layer tree idx : Nat) (sig : List (List Byte)) (m : List Byte) : List Byte :=
  let ends := ((List.range 51).zip (slhDigits m)).flatMap (fun x =>
    slhChain seed { layer, tree, ty := 0, x := idx, y := x.1 } x.2 (15 - x.2) (sig.getD x.1 []))
  slhRoot seed { layer, tree, ty := 2 } 0 idx 0 (sig.drop 51) (slhH seed { layer, tree, ty := 1, x := idx } ends)

/-- The root of the hypertree from a layer on. -/
def slhHyper (seed : List Byte) : Nat → Nat → Nat → List (List (List Byte)) → List Byte → List Byte
  | _, _, _, [], node => node
  | layer, tree, leaf, sig :: rest, node => slhHyper seed (layer + 1) (tree / 512) (tree % 512) rest (slhXmss seed layer tree leaf sig node)

/-- The public key of the few-time signature: 17 trees of 2^14 leaves. -/
def slhFors (seed : List Byte) (tree leaf : Nat) (md : List Byte) (sig : List (List Byte)) : List Byte :=
  let roots := ((List.range 17).zip (chunksOf 15 17 sig)).flatMap (fun x =>
    let idx := bitsOf (beNat md) (240 - 14 * (x.1 + 1)) 14
    let a : SlhAdrs := { tree, ty := 3, x := leaf, z := x.1 * 16384 + idx }
    slhRoot seed a (x.1 * 16384) idx 0 (x.2.drop 1) (slhF seed a (x.2.headD [])))
  slhH seed { tree, ty := 4, x := leaf } roots

/-- Pure verification with an empty context: key of 48 bytes, message, signature of 16,224 bytes. -/
def slhDsaVerify (key msg sig : List Byte) : Bool :=
  let seed := key.take 24
  let v := chunksOf 24 676 sig
  let d := slhDigest (sig.take 24) key ([0#8, 0#8] ++ msg)
  let tree := beNat ((d.drop 30).take 7) % 2 ^ 54
  let leaf := beNat ((d.drop 37).take 2) % 512
  let node := slhFors seed tree leaf (d.take 30) ((v.drop 1).take 255)
  sig.length == 16224 && key.length == 48 && slhHyper seed 0 tree leaf (chunksOf 60 7 (v.drop 256)) node == key.drop 24

/-! ### Signing (R417, R418): the key's secret seed, its public seed, and the tree of the top layer as its root -/

/-- The secret value at the foot of a one-time chain. -/
def slhSecret (sk seed : List Byte) (layer tree key chain : Nat) : List Byte := slhF seed { layer, tree, ty := 5, x := key, y := chain } sk
/-- The leaf of a one-time key: its 51 chains run to their ends. -/
def slhLeaf (sk seed : List Byte) (layer tree key : Nat) : List Byte :=
  slhH seed { layer, tree, ty := 1, x := key }
    ((List.range 51).flatMap (fun j => slhChain seed { layer, tree, ty := 0, x := key, y := j } 0 15 (slhSecret sk seed layer tree key j)))
/-- The node at a height of a tree whose leaves a function gives: its two children hashed at its own height and place. -/
def slhNode (seed : List Byte) (a : SlhAdrs) (leaf : Nat → List Byte) : Nat → Nat → List Byte
  | 0, i => leaf i
  | z + 1, i => slhH seed { a with y := z + 1, z := i } (slhNode seed a leaf z (2 * i) ++ slhNode seed a leaf z (2 * i + 1))
/-- The sibling of the node of a leaf at each height below `n`. -/
def slhPath (seed : List Byte) (a : SlhAdrs) (leaf : Nat → List Byte) (idx n : Nat) : List (List Byte) :=
  (List.range n).map (fun j => slhNode seed a leaf j (if (idx >>> j) % 2 = 0 then (idx >>> j) + 1 else (idx >>> j) - 1))
/-- One tree of the hypertree signs a node: each digit's place on its chain, then the path of the leaf. -/
def slhXmssSign (sk seed : List Byte) (layer tree key : Nat) (m : List Byte) : List (List Byte) :=
  ((List.range 51).zip (slhDigits m)).map (fun x => slhChain seed { layer, tree, ty := 0, x := key, y := x.1 } 0 x.2 (slhSecret sk seed layer tree key x.1))
    ++ slhPath seed { layer, tree, ty := 2 } (slhLeaf sk seed layer tree) key 9
/-- The layers sign one another's roots from a layer on. -/
def slhHyperSign (sk seed : List Byte) : Nat → Nat → Nat → Nat → List Byte → List (List Byte)
  | 0, _, _, _, _ => []
  | left + 1, layer, tree, leaf, node =>
    let sig := slhXmssSign sk seed layer tree leaf node
    sig ++ slhHyperSign sk seed left (layer + 1) (tree / 512) (tree % 512) (slhXmss seed layer tree leaf sig node)
/-- A leaf value of the few-time key. -/
def slhForsSecret (sk seed : List Byte) (tree leaf i : Nat) : List Byte := slhF seed { tree, ty := 6, x := leaf, z := i } sk
/-- The few-time signature of 17 numbers of 14 bits. -/
def slhForsSign (sk seed : List Byte) (tree leaf : Nat) (md : List Byte) : List (List Byte) :=
  (List.range 17).flatMap (fun t =>
    let idx := bitsOf (beNat md) (240 - 14 * (t + 1)) 14
    let a : SlhAdrs := { tree, ty := 3, x := leaf }
    -- node i of height j of tree t stands at place t·2^(14−j) + i of its height
    let foot := fun (i : Nat) => slhF seed { a with z := i } (slhForsSecret sk seed tree leaf i)
    slhForsSecret sk seed tree leaf (t * 16384 + idx) :: slhPath seed a foot (t * 16384 + idx) 14)
/-- The public key of 48 bytes: the seed, and the root of the top layer's one tree. -/
def slhPublicKey (sk seed : List Byte) : List Byte := seed ++ slhNode seed { layer := 6, tree := 0, ty := 2 } (slhLeaf sk seed 6 0) 9 0
/-- Pure signing with an empty context: 24 bytes in front, the few-time signature, the seven layers. -/
def slhDsaSign (sk seed r msg : List Byte) : List Byte :=
  let d := slhDigest r (slhPublicKey sk seed) ([0#8, 0#8] ++ msg)
  let tree := beNat ((d.drop 30).take 7) % 2 ^ 54
  let leaf := beNat ((d.drop 37).take 2) % 512
  let f := slhForsSign sk seed tree leaf (d.take 30)
  r ++ f.flatten ++ (slhHyperSign sk seed 7 0 tree leaf (slhFors seed tree leaf (d.take 30) f)).flatten

end Sys2Proof.Machine
end

