-- ==== Sys2Proof/Machine/Open.lean ====
section
/-! DEFINITION. KQ_OPEN_BUNDLE: the checks of R45 in their order over the container (R26 to R44), the signature (R46), and what opening leaves: relocations, GLOBAL images, the retimed streams, the kernel's own copy (R27, R40, R41, R47). Also how a process address range is placed and mapped (R286, R292). -/

namespace Sys2Proof.Machine

/-! ### Small checks -/

/-- Every byte of a list is zero. -/
def allZero (l : List Byte) : Bool := l.all (fun b => b == 0#8)
/-- The bytes after the first zero byte are zero (R28, R37). -/
def zeroPadded (l : List Byte) : Bool := allZero (l.dropWhile (fun b => b != 0#8))
/-- UTF-8 without overlong forms, surrogates or code points past 0x10FFFF: the continuation bytes still to come with the code point so far
and the least one its length may encode. -/
def utf8From : List Byte → Nat → Nat → Nat → Bool
  | [], left, _, _ => left == 0
  | b :: bs, left, cp, least =>
    let v := b.toNat
    if left = 0 then
      if v < 0x80 then utf8From bs 0 0 0
      else if 0xC0 ≤ v ∧ v < 0xE0 then utf8From bs 1 (v % 32) 0x80
      else if 0xE0 ≤ v ∧ v < 0xF0 then utf8From bs 2 (v % 16) 0x800
      else if 0xF0 ≤ v ∧ v < 0xF8 then utf8From bs 3 (v % 8) 0x10000
      else false
    else if 0x80 ≤ v ∧ v < 0xC0 then
      let c := cp * 64 + v % 64
      if left = 1 then least ≤ c && c ≤ 0x10FFFF && !(0xD800 ≤ c && c < 0xE000) && utf8From bs 0 0 0
      else utf8From bs (left - 1) c least
    else false
/-- A UTF-8 name padded with zero bytes. -/
def nameOk (l : List Byte) : Bool := zeroPadded l && utf8From (l.takeWhile (fun b => b != 0#8)) 0 0 0

/-! ### The header and the section table (R28 to R32) -/

/-- The header's fields. -/
structure Header where
  signed : Bool
  native : Bool
  nsect : Nat
  nkern : Nat
  stab : Nat
  tpart : Nat
  tarev : Nat
  sigoff : Nat
  deriving DecidableEq, Repr

/-- Read the header. -/
def headerOf (f : List Byte) : Header :=
  { signed := bitOf (fieldLE f 8 4) 0, native := bitOf (fieldLE f 8 4) 1, nsect := fieldLE f 0x0C 2, nkern := fieldLE f 0x0E 2
    stab := fieldLE f 0x10 8, tpart := fieldLE f 0x20 1 % 16, tarev := fieldLE f 0x21 1, sigoff := fieldLE f 0x28 8 }
/-- Bytes of a signature block (R46). -/
def sigBytes : Nat := 16288
/-- The section table's entries. -/
def sectTable (f : List Byte) (h : Header) : List Sect :=
  (List.range h.nsect).map (fun i =>
    let a := h.stab + 32 * i
    { ty := fieldLE f a 4, kernel := fieldLE f (a + 4) 2, inst := fieldLE f (a + 6) 2, off := fieldLE f (a + 8) 8, len := fieldLE f (a + 16) 8 })
/-- A native stream section. -/
def Sect.isNative (x : Sect) : Bool := (streamCode x.ty).isSome
/-- R28's fields; NATIVE says whether native streams are present, which only a section table inside the file can show. -/
def headerOk (f : List Byte) (h : Header) (sects : List Sect) : Bool :=
  fieldLE f 6 2 == 128 && fieldLE f 8 4 < 4 && 1 ≤ h.nsect && h.nsect ≤ 4096 && h.nkern ≤ 255 && h.stab % 64 == 0 && 128 ≤ h.stab
    && fieldLE f 0x18 8 == f.length && fieldLE f 0x20 4 / 16 % 16 == 0 && fieldLE f 0x22 2 == 0 && fieldLE f 0x24 4 == 0
    && (h.signed || h.sigoff == 0) && fieldLE f 0x30 4 == (if h.signed then sigBytes else 0) && allZero (sliceOf f 0x34 12)
    && nameOk (sliceOf f 0x60 32) && (f.length < h.stab + 32 * h.nsect || h.native == sects.any Sect.isNative) && 128 ≤ f.length
/-- Two byte ranges share a byte. -/
def overlap (a m b n : Nat) : Bool := a < b + n && b < a + m && 0 < m && 0 < n
/-- A section lies in place: aligned, inside the file, apart from the header, the table, the signature block and every other section (R26). -/
def sectPlaced (f : List Byte) (h : Header) (sects : List Sect) (i : Nat) (x : Sect) : Bool :=
  x.off % 64 == 0 && x.off + x.len ≤ f.length && !overlap x.off x.len 0 128 && !overlap x.off x.len h.stab (32 * h.nsect)
    && !(h.signed && overlap x.off x.len h.sigoff sigBytes)
    && ((List.range sects.length).zip sects).all (fun y => y.1 == i || !overlap x.off x.len y.2.off y.2.len)
/-- The owner and the instance numbers of a type (R31). -/
def sectTyped (h : Header) (x : Sect) : Bool :=
  let kern := x.kernel < h.nkern
  let whole := x.kernel == 0xFFFF
  if x.ty = tyCTRL then whole && x.inst == 0
  else if x.isNative then kern && x.inst < 16
  else if x.ty = tySYNC || x.ty == tyBEAT || x.ty == tyPORT then kern && x.inst == 0
  else if x.ty = tyTREE then whole && x.inst < 256
  else if x.ty = tyDATA then (kern || whole) && x.inst < 1024
  else if x.ty = tyRELO then (kern || whole) && x.inst == 0
  else false
/-- A table entry in the form of R29. -/
def sectEntryOk (f : List Byte) (h : Header) (i : Nat) (x : Sect) : Bool :=
  sectTyped h x && 1 ≤ x.len && fieldLE f (h.stab + 32 * i + 24) 8 == 0
/-- The first index whose element a test refuses. -/
def firstBad {α : Type} (ok : Nat → α → Bool) : Nat → List α → Option Nat
  | _, [] => none
  | i, x :: xs => if ok i x then firstBad ok (i + 1) xs else some i
/-- A section breaks no occurrence rule beside those before it (R31, R32): one of its kind, and a SCAL section for every overlay up to its own. -/
def sectCounted (sects : List Sect) (i : Nat) (x : Sect) : Bool :=
  (x.ty == tyTREE || (sects.take i).all (fun y => !(y.ty == x.ty && y.kernel == x.kernel && y.inst == x.inst)))
    && (!x.isNative || (List.range (x.inst + 1)).all (fun o => sects.any (fun y => y.ty == tySCAL && y.kernel == x.kernel && y.inst == o)))
/-- Every kernel has one of the forms of R32, and there is a control program. -/
def formsOk (h : Header) (sects : List Sect) : Bool :=
  sects.any (fun x => x.ty == tyCTRL)
    && (List.range h.nkern).all (fun k => sects.any (fun x => x.kernel == k && ((x.ty == tySCAL && x.inst == 0) || x.ty == tyPORT)))

/-! ### Streams and bank programs (R31, R33) -/

/-- Program records: numbers 0..31 named once, 1..128 moves each; `fuel` bounds the records. -/
def bankOk : Nat → List Nat → List Byte → Bool
  | _, _, [] => true
  | 0, _, _ :: _ => false
  | fuel + 1, seen, b :: bs =>
    let l := b :: bs
    let p := fieldLE l 0 2
    let n := fieldLE l 2 2
    4 ≤ l.length && p < 32 && !seen.contains p && 1 ≤ n && n ≤ 128 && 4 + 4 * n ≤ l.length && bankOk fuel (p :: seen) (l.drop (4 + 4 * n))
/-- Word bytes and the greatest word count of a stream type (R31). -/
def streamShape (ty : Nat) : Nat × Nat := if ty = tySCAL then (4, 16384) else if ty = tyVECT then (12, 8192) else (24, 4096)
/-- Check 11 of R45. -/
def streamOk (ty : Nat) (b : List Byte) : Bool :=
  if ty = tyBANK then bankOk 33 [] b
  else b.length % (streamShape ty).1 == 0 && b.length / (streamShape ty).1 ≤ (streamShape ty).2

/-! ### The sync table (R34, R35) -/

/-- Records of 16 bytes. -/
def syncRecords (b : List Byte) : List (List Byte) := chunksOf 16 (b.length / 16) b
/-- A record's bytes outside its own are zero. -/
def zeroBut (r : List Byte) (own : List Nat) : Bool := (List.range 16).all (fun i => own.contains i || fieldLE r i 1 == 0)
/-- One record of R34. -/
def syncOk (r : List Byte) : Bool :=
  let f := fun i => fieldLE r i 1
  match f 0 with
  | 1 => zeroBut r [0, 1, 2] && f 1 < 64 && f 2 < 16
  | 2 => zeroBut r [0, 1, 2] && f 1 < 7 && f 2 ≤ queueDepths.getD (f 1) 0
  | 3 => zeroBut r [0, 8, 9, 10, 11, 12, 13, 14, 15]
  | 4 => zeroBut r [0, 1] && f 1 ≤ 8
  | 5 => zeroBut r [0, 8, 9, 10, 11, 12, 13, 14, 15]
  | _ => false
/-- The declared barriers as (number, depth). -/
def syncBarriers (b : List Byte) : List (Nat × Nat) :=
  (syncRecords b).filterMap (fun r => if fieldLE r 0 1 = 1 then some (fieldLE r 1 1, fieldLE r 2 1) else none)
/-- The declared plans. -/
def syncPlans (b : List Byte) : List Nat :=
  (syncRecords b).filterMap (fun r => if fieldLE r 0 1 = 5 then some (fieldLE r 8 8) else none)
/-- A SYNC section: R34, and checks 1 and 3 of R35. -/
def syncSectOk (b : List Byte) : Bool :=
  b.length % 16 == 0 && (syncRecords b).all syncOk && decide ((syncBarriers b).map Prod.fst).Nodup
/-- Check 2 of R35 on a SCAL section: every word of major 0x30 names a declared barrier at its declared depth. -/
def scalSyncOk (bars : List (Nat × Nat)) (b : List Byte) : Bool :=
  (chunksOf 4 (b.length / 4) b).all (fun x =>
    let w := leNat x
    bitsOf w 26 6 != 0x30 || bars.contains (bitsOf w 12 6, bitsOf w 20 4))

/-! ### Trees (R36, R37) -/

/-- The node count of a tree table. -/
def treeCount (b : List Byte) : Nat := fieldLE b 0 2
/-- The nodes of a tree table. -/
def treeNodes (b : List Byte) : List TreeNode :=
  (List.range (treeCount b)).map (fun i =>
    let f := fun o n => fieldLE b (16 + 32 * i + o) n
    { parent := f 0 1, level := f 1 1, count := f 2 2, kernel := f 4 1, entry := f 6 2 })
/-- 64-bit entries of a PORT list. -/
def portEntries (b : List Byte) : List Nat := (chunksOf 8 (b.length / 8) b).map leNat
/-- The list holds an ENTRY marker with a number (R37, R44). -/
def hasMarker (b : List Byte) (entry : Nat) : Bool := (portEntries b).any (fun e => bitsOf e 54 10 == 0x303 && bitsOf e 40 14 == entry)
/-- A section's bytes within the file. -/
def sectData (f : List Byte) (x : Sect) : List Byte := sliceOf f x.off x.len
/-- The first section that a test picks. -/
def pickSect (sects : List Sect) (ty kernel inst : Nat) : Option Sect := sects.find? (fun x => x.ty == ty && x.kernel == kernel && x.inst == inst)
/-- The TREE section that a tree number names: R31 lets several bear one number, and the first in the file stands for them, so that the order of
the table decides nothing (R424, log 52). -/
def pickTree (sects : List Sect) (n : Nat) : Option Sect :=
  sects.foldl (fun m x => if x.ty == tyTREE && x.inst == n && m.all (fun y => x.off < y.off) then some x else m) none
/-- A node's field rules (R37). -/
def nodeOk (f : List Byte) (h : Header) (sects : List Sect) (b : List Byte) (i : Nat) (n : TreeNode) : Bool :=
  n.level ≤ 7 && 1 ≤ n.count && fieldLE b (16 + 32 * i + 5) 1 == 0 && zeroPadded (sliceOf b (16 + 32 * i + 8) 24)
    && (if n.level = 1 then
          n.kernel < h.nkern
            && (pickSect sects tySCAL n.kernel 0).all (fun x => n.entry < x.len / 4)
            && (pickSect sects tyPORT n.kernel 0).all (fun x => hasMarker (sectData f x) n.entry)
        else n.kernel == 0xFF && n.entry == 0xFFFF)
/-- Check 13 of R45. -/
def treeOk (f : List Byte) (h : Header) (sects : List Sect) (b : List Byte) : Bool :=
  1 ≤ treeCount b && treeCount b ≤ 256 && allZero (sliceOf b 2 14) && b.length == 16 + 32 * treeCount b
    && (firstBad (nodeOk f h sects b) 0 (treeNodes b)).isNone

/-! ### Beat tables (R39) -/

/-- The 16 entries of a requirement. -/
def beatEntries (b : List Byte) : List BeatEnt := (List.range 16).map (fun i => { ty := fieldLE b (4 * i) 1, len := fieldLE b (4 * i + 2) 2 })
/-- One entry of a requirement. -/
def beatEntOk (e : BeatEnt) : Bool :=
  match e.ty with
  | 0 => e.len == 0
  | 1 => e.len == 0 || (e.len % 8 == 0 && 16 ≤ e.len && e.len ≤ 4096)
  | 2 => e.len == 0 || (e.len % 8 == 0 && 64 ≤ e.len && e.len ≤ 16384)
  | _ => false
/-- Check 14 of R45. -/
def beatOk (b : List Byte) : Bool :=
  b.length == 64 && (beatEntries b).all beatEntOk && (List.range 16).all (fun i => fieldLE b (4 * i + 1) 1 == 0)

/-! ### Images and relocations (R40, R41) -/

/-- Bytes of a space in one core: A, C, S, W, B (R257). -/
def imageSpace : List Nat := [393216, 1048576, 65536, 4194304, 4194304]
/-- A power of two from 64 to 2^21. -/
def alignOk (n : Nat) : Bool := (List.range 16).any (fun i => n == 64 <<< i)
/-- Check 15 of R45. -/
def dataOk (kernel : Nat) (b : List Byte) : Bool :=
  let sp := fieldLE b 0 1
  let split := fieldLE b 1 1
  let off := fieldLE b 4 4
  let slice := fieldLE b 8 4
  let pay := fieldLE b 16 8
  let aln := fieldLE b 24 8
  32 ≤ b.length && b.length == 32 + pay && sp ≤ 5 && split ≤ 1 && fieldLE b 2 2 == 0 && fieldLE b 12 4 == 0 && (sp == 5) == (kernel == 0xFFFF)
    && (split == 1 || slice == 0)
    && (if sp = 5 then split == 0 && off == 0 && alignOk aln
        else aln == 0 && off + (if split = 1 then slice else pay) ≤ imageSpace.getD sp 0 && (split == 0 || pay % slice == 0))
/-- Records of 24 bytes. -/
def reloRecords (b : List Byte) : List (List Byte) := chunksOf 24 (b.length / 24) b
/-- Check 16 of R45. -/
def reloOk (sects : List Sect) (kernel : Nat) (b : List Byte) : Bool :=
  b.length % 24 == 0 && (reloRecords b).all (fun r =>
    let off := fieldLE r 4 4
    fieldLE r 2 1 == 1 && fieldLE r 3 1 == 0 && allZero (sliceOf r 10 6) && off % 8 == 0
      && (pickSect sects tyDATA 0xFFFF (fieldLE r 8 2)).isSome
      && (pickSect sects tyDATA kernel (fieldLE r 0 2)).any (fun x => off + 8 + 32 ≤ x.len))

/-! ### The portable operation list (R42 to R44) -/

/-- What an earlier entry is: the kind it produces (0 none), whether it is a LIT, its marker opcode (0 none), its region. -/
structure PortPrev where
  kind : Nat
  lit : Bool
  marker : Nat
  region : List Nat
  deriving DecidableEq, Repr

/-- Vector opcodes (R131). -/
def vectorOps : List (Nat × Nat) :=
  [(0x00, 0x18), (0x20, 0x28), (0x30, 0x35), (0x40, 0x45), (0x50, 0x59), (0x60, 0x62), (0x70, 0x73), (0xF0, 0xF2)]
/-- Native majors and opcodes that a list may name, by stream, and the markers of R44 (R124, R125, R131, R132). -/
def portOpOk (stream op : Nat) : Bool :=
  match stream with
  | 0 => op ≤ 0x36
  | 1 => vectorOps.any (fun r => r.1 ≤ op && op ≤ r.2)
  | 2 => (1 ≤ op && op ≤ 6) || op == 0xF0 || op == 0xF1
  | _ => (1 ≤ op && op ≤ 4) || (0x10 ≤ op && op ≤ 0x17)
/-- How many codes of fn, op or cond a scalar major has; the codes run from 0 (R124, R125). A major that has none leaves the field open, and a
list may put anything there (log 61). -/
def scalarCodes (op : Nat) : Option Nat :=
  match op with
  | 0x00 => some 25
  | 0x05 => some 3
  | 0x08 => some 15
  | 0x09 => some 4
  | 0x0A => some 6
  | 0x0B => some 6
  | 0x0C => some 4
  | 0x0D => some 10
  | 0x20 => some 10
  | 0x21 => some 2
  | 0x22 => some 4
  | 0x26 => some 3
  | 0x2E => some 2
  | 0x2F => some 2
  | 0x30 => some 3
  | 0x32 => some 4
  | 0x33 => some 5
  | 0x34 => some 4
  | 0x35 => some 3
  | 0x36 => some 7
  | _ => none
/-- A sub-op's packing by stream (R43): an assigned fn, op or cond with zeros below it; an assigned element type and rounding (R130). -/
def subOk (stream op sub : Nat) : Bool :=
  match stream with
  | 0 => sub % 32 == 0 && (scalarCodes op).all (fun n => sub / 32 < n)
  | 1 => sub / 1024 ≤ 10 && sub / 128 % 8 ≤ 4
  | _ => true
/-- A LIT entry. -/
def isLit (e : Nat) : Bool := bitsOf e 54 10 == 0x301
/-- How far the list has been checked: what the entries before are, latest first; the open regions as (number, 0 loop, 1 if, 2 else),
innermost first; the next region's number. -/
structure PortSt where
  prev : List PortPrev := []
  stack : List (Nat × Nat) := []
  next : Nat := 0
  deriving DecidableEq, Repr
/-- The region that an entry lies in. -/
def PortSt.region (st : PortSt) : List Nat := st.stack.map Prod.fst
/-- The kind of the value an operand names; none where it names no value. -/
def PortSt.kindOf (st : PortSt) (v : Nat) : Nat := if v = 0 then 0 else (st.prev[v - 1]?).elim 0 (fun p => if p.lit then 0 else p.kind)
/-- An operand field (R43). -/
def PortSt.refOk (st : PortSt) (v : Nat) (lit : Bool) : Bool :=
  if v = 0 then true
  else if v = 4094 then lit
  else if v = 4095 then false
  else (st.prev[v - 1]?).any (fun p => !p.lit && p.kind != 0 && p.region.isSuffixOf st.region)
/-- The nearest earlier entry that is no LIT. -/
def PortSt.last (st : PortSt) : Nat := ((st.prev.find? (fun p => !p.lit)).map (fun p => p.marker)).getD 0
/-- A matrix entry's packing and operands (R43); none stands in a conditional region (R44). -/
def PortSt.matrixOk (st : PortSt) (op sub a b c : Nat) : Bool :=
  sub % 1024 == 0 && st.stack.all (fun r => r.2 == 0)
    && (!(op == 1 || op == 3 || op == 5) || (st.kindOf a == 8 && b == 4094 && c == 4094))
/-- A marker's place and operands, and the regions after it (R44); `rest` is the list after it. -/
def PortSt.marker (st : PortSt) (op a b : Nat) (rest : List Nat) : Option PortSt :=
  let opened := fun k => if st.stack.length < 16 then some { st with stack := (st.next, k) :: st.stack, next := st.next + 1 } else none
  match op, st.stack with
  | 0x04, _ => if st.kindOf a = 5 then some st else none
  | 0x10, _ => if st.kindOf a = 1 then opened 0 else none
  | 0x11, (_, 0) :: r => some { st with stack := r }
  | 0x11, _ => none
  | 0x12, _ => if a != 0 && (st.last == 0x10 || st.last == 0x12) then some st else none
  | 0x13, (_, 0) :: _ =>
    let after := ((rest.find? (fun e => !isLit e)).map (fun e => bitsOf e 54 10)).getD 0
    let lvar := a != 0 && (st.prev[a - 1]?).any (fun p => p.marker == 0x12 && p.region == st.region)
    if lvar && b != 0 && (after == 0x311 || after == 0x313) then some st else none
  | 0x13, _ => none
  | 0x14, _ => if st.kindOf a = 3 then opened 1 else none
  | 0x15, (_, 1) :: r => some { st with stack := (st.next, 2) :: r, next := st.next + 1 }
  | 0x15, _ => none
  | 0x16, (_, 1) :: r => some { st with stack := r }
  | 0x16, (_, 2) :: r => some { st with stack := r }
  | 0x16, _ => none
  | _, _ => some st
/-- The entries of a list in order. -/
def portGo : List Nat → PortSt → Bool
  | [], st => st.stack.isEmpty
  | e :: rest, st =>
    if isLit e then portGo rest { st with prev := { kind := 0, lit := true, marker := 1, region := st.region } :: st.prev }
    else
      let stream := bitsOf e 62 2
      let op := bitsOf e 54 8
      let sub := bitsOf e 40 14
      let a := bitsOf e 28 12
      let b := bitsOf e 16 12
      let c := bitsOf e 4 12
      let lit1 := (rest[0]?).any isLit
      let lits := lit1 && (!(b == 4094 && c == 4094) || (rest[1]?).any isLit)
      let plain := bitsOf e 0 4 ≤ 8 && portOpOk stream op && st.refOk a false && st.refOk b lits && st.refOk c lits
        && subOk stream op sub && (stream != 2 || st.matrixOk op sub a b c)
      let put := fun (t : PortSt) (region : List Nat) =>
        { t with prev := { kind := bitsOf e 0 4, lit := false, marker := if stream = 3 then op else 0, region } :: t.prev }
      if !plain then false
      else if stream = 3 then
        match st.marker op a b rest with
        | some t => portGo rest (put t st.region)
        | none => false
      else portGo rest (put st st.region)
/-- Check 17 of R45. -/
def portOk (b : List Byte) : Bool := b.length % 8 == 0 && b.length / 8 ≤ 65536 && portGo (portEntries b) {}

/-! ### The control program (R31) -/

/-- A program header of an ELF64 file. -/
structure ElfSegment where
  ty : Nat
  flags : Nat
  off : Nat
  va : Nat
  filesz : Nat
  memsz : Nat
  deriving DecidableEq, Repr
/-- The program headers. -/
def elfSegments (b : List Byte) : List ElfSegment :=
  (List.range (fieldLE b 56 2)).map (fun i =>
    let f := fun o n => fieldLE b (fieldLE b 32 8 + 56 * i + o) n
    { ty := f 0 4, flags := f 4 4, off := f 8 8, va := f 16 8, filesz := f 32 8, memsz := f 40 8 })
/-- Check 19 of R45: an ELF64 little-endian executable for machine 243 with the double-float ABI, compressed instructions or not (R31); loadable:
its program headers and segments lie in the file, and its entry lies in an executable segment. What those words mean in the file is taken from the
ELF format and its RISC-V supplement (log 60). -/
def ctrlLoadable (b : List Byte) : Bool :=
  let loads := (elfSegments b).filter (fun x => x.ty == 1)
  64 ≤ b.length && fieldLE b 0 4 == 0x464C457F && fieldLE b 4 1 == 2 && fieldLE b 5 1 == 1 && fieldLE b 6 1 == 1 && fieldLE b 16 2 == 2
    && fieldLE b 18 2 == 243 && fieldLE b 20 4 == 1 && fieldLE b 48 4 / 2 % 4 == 2 && fieldLE b 54 2 == 56
    && fieldLE b 32 8 + 56 * fieldLE b 56 2 ≤ b.length && loads.all (fun x => x.off + x.filesz ≤ b.length && x.filesz ≤ x.memsz)
    && loads.any (fun x => bitOf x.flags 0 && x.va ≤ fieldLE b 24 8 && fieldLE b 24 8 < x.va + x.memsz)

/-! ### The order of R45 -/

/-- What the retimer makes of a PORT list for this part (R47). -/
def State.retimed (s : State) (b : List Byte) : Retimed :=
  let r := Config.retime s.fuse.part s.fuse.arev b
  { sects := r.1.map (fun x => { ty := x.1, ovl := x.2.1, bytes := x.2.2 }), entries := r.2 }
/-- Streams fit a plane (R79). -/
def fitsPlane (r : Retimed) : Bool :=
  r.sects.all (fun x => streamOk (if x.ty = 0 then tySCAL else if x.ty = 1 then tyVECT else if x.ty = 2 then tyMATX else tyBANK) x.bytes)
/-- Checks 11 to 19 that apply to one section: the reason of the first that fails. -/
def State.sectReason (s : State) (f : List Byte) (h : Header) (sects : List Sect) (x : Sect) : Option Nat :=
  let b := sectData f x
  if x.isNative then
    if !streamOk x.ty b then some 11
    else if x.ty = tySCAL && !scalSyncOk ((pickSect sects tySYNC x.kernel 0).elim [] (fun y => syncBarriers (sectData f y))) b then some 12
    else none
  else if x.ty = tySYNC then (if syncSectOk b then none else some 12)
  else if x.ty = tyTREE then (if treeOk f h sects b then none else some 13)
  else if x.ty = tyBEAT then (if beatOk b then none else some 14)
  else if x.ty = tyDATA then (if dataOk x.kernel b then none else some 15)
  else if x.ty = tyRELO then (if reloOk sects x.kernel b then none else some 16)
  else if x.ty = tyPORT then (if !portOk b then some 17 else if fitsPlane (s.retimed b) then none else some 18)
  else if ctrlLoadable b then none
  else some 19
/-- The signature block is well formed and verifies with a registered key (R46). -/
def signatureOk (f : List Byte) (h : Header) : Bool :=
  let b := sliceOf f h.sigoff sigBytes
  let key := sliceOf b 16 48
  h.sigoff + sigBytes == f.length && fieldLE b 0 4 == 1 && fieldLE b 4 4 == 0 && fieldLE b 8 4 == 16224 && fieldLE b 12 4 == 48
    && Config.keyRegistered (sha256 key) && slhDsaVerify key (f.take 128) (sliceOf b 64 16224)
/-- The content that DIGEST covers (R30). -/
def digestOf (f : List Byte) (h : Header) : List Byte := sha256 (sliceOf f 0x80 ((if h.signed then h.sigoff else f.length) - 0x80))
/-- The native streams were timed for this part (R47). -/
def State.targetMatches (s : State) (h : Header) : Bool := h.tpart == s.fuse.part && h.tarev == s.fuse.arev
/-- The first failure of R45 as (reason, entry). A file too short to hold a field reads as zero bytes there; a failure that names no section
reports the entry 0xFFFF, as the header does (log 51). -/
def State.openFails (s : State) (f : List Byte) : Option (Nat × Nat) :=
  let h := headerOf f
  let sects := sectTable f h
  let head := 0xFFFF
  if f.length < 4 || fieldLE f 0 4 != 0x0042514B then some (1, head)
  else if fieldLE f 4 2 != 1 then some (2, head)
  else if !headerOk f h sects then some (3, head)
  else if f.length < h.stab + 32 * h.nsect || (h.signed && overlap h.stab (32 * h.nsect) h.sigoff sigBytes) then some (4, head)
  else
    match firstBad (sectPlaced f h sects) 0 sects, firstBad (sectEntryOk f h) 0 sects, firstBad (sectCounted sects) 0 sects with
    | some i, _, _ => some (4, i)
    | none, some i, _ => some (5, i)
    | none, none, some i => some (6, i)
    | none, none, none =>
      if !formsOk h sects then some (6, head)
      else if digestOf f h != sliceOf f 0x40 32 then some (7, head)
      else if h.signed && !signatureOk f h then some (8, head)
      else if !h.signed && Config.requireSigned then some (9, head)
      else if !s.targetMatches h && (List.range h.nkern).any (fun k => (pickSect sects tyPORT k 0).isNone) then some (10, head)
      else
        (firstBad (fun _ x => (s.sectReason f h sects x).isNone) 0 sects).map (fun i =>
          (((sects[i]?).bind (s.sectReason f h sects)).getD 0, i))

/-! ### Placing and mapping ranges of a process (R286, R292) -/

/-- Sizes of the two kinds of page the kernel maps (R292). -/
def page64K : Nat := 65536
def page2M : Nat := 2097152
/-- The page that a length is mapped with (R292). -/
def pageFor (len : Nat) : Nat := if len % page2M = 0 then page2M else page64K
/-- The first place at or above `a` that meets none of the used ranges; `fuel` bounds the ranges stepped over. -/
def firstFit (used : List (Nat × Nat)) (align len : Nat) : Nat → Nat → Nat
  | 0, a => a
  | fuel + 1, a =>
    match used.find? (fun u => overlap a len u.1 u.2) with
    | some u => firstFit used align len fuel (alignUp (u.1 + u.2) align)
    | none => a
/-- A leaf PTE for device use: valid, readable, user, accessed and dirty, writable or not (R286). -/
def leafPte (ppn : Nat) (napot writable : Bool) : Word64 :=
  BitVec.ofNat 64 (211 + (if writable then 4 else 0) + ppn * 1024 + (if napot then 2 ^ 63 else 0))
/-- Set a PTE of a level. -/
def Proc.setPte (p : Proc) (lvl va : Nat) (e : Word64) : Proc :=
  { p with ptes := Table.put p.ptes lvl (Table.put (Table.getD p.ptes lvl []) (va % 2 ^ 57 / 2 ^ (12 + 9 * lvl)) e) }
/-- Point the levels above a leaf downward. -/
def Proc.pointDown (p : Proc) (lvl va : Nat) : Proc :=
  (List.range (4 - lvl)).foldl (fun q i => q.setPte (lvl + 1 + i) va 1) p
/-- Map one page. -/
def Proc.mapPage (p : Proc) (va page pa : Nat) (writable : Bool) : Proc :=
  if page = page2M then (p.pointDown 1 va).setPte 1 va (leafPte (pa / 4096) false writable)
  else (List.range 16).foldl (fun q i => q.setPte 0 (va + 4096 * i) (leafPte (pa / page64K * 16 + 8) true writable)) (p.pointDown 0 va)
/-- Map a range with pages of one size. -/
def Proc.mapRange (p : Proc) (va len page pa : Nat) (writable : Bool) : Proc :=
  (List.range (len / page)).foldl (fun q i => q.mapPage (va + page * i) page (pa + page * i) writable) p
/-- Remove a page's leaf. -/
def Proc.unmapPage (p : Proc) (va page : Nat) : Proc :=
  if page = page2M then p.setPte 1 va 0 else (List.range 16).foldl (fun q i => q.setPte 0 (va + 4096 * i) 0) p
/-- The page that maps an address: base, size, leaf. -/
def Proc.pageAt (p : Proc) (va : Nat) : Option (Nat × Nat × Word64) :=
  match walkFrom p.ptes va 5 with
  | .leaf e l => some (va / leafSize e l * leafSize e l, leafSize e l, e)
  | .fault _ => none
/-- The pages of a range, from an address up to its end; `fuel` bounds their number. -/
def Proc.pagesFrom (p : Proc) (stop : Nat) : Nat → Nat → List (Nat × Nat × Word64)
  | 0, _ => []
  | fuel + 1, va =>
    if stop ≤ va then []
    else
      match p.pageAt va with
      | some x => x :: p.pagesFrom stop fuel (x.1 + x.2.1)
      | none => []
/-- The pages of a range. -/
def Proc.pages (p : Proc) (va len : Nat) : List (Nat × Nat × Word64) := p.pagesFrom (va + len) (len / page64K + 1) va
/-- Length of a core's save area (R401, R402, R404). -/
def saveLen : Nat := 0x9C0000
/-- Physical ranges in use: pages of every process, both homes of pages that move, and save areas (R402). -/
def State.physUsed (s : State) : List (Nat × Nat) :=
  s.procs.flatMap (fun p => p.allocs.flatMap (fun a => (p.pages a.va a.len).map (fun x => (leafPa x.2.2 x.2.1 x.1, x.2.1))))
    ++ s.migrations.flatMap (fun m => [(m.oldPa, m.size), (m.newPa, m.size)])
    ++ s.launches.flatMap (fun l => l.saved.filterMap (fun x => x.area.map (fun a => (a, saveLen))))
/-- Physical addresses that the kernel keeps for itself at the foot of each die's LPDDR, where the firmware image lies (R412; log 25). -/
def kernelKeeps : Nat := 2 ^ 30
/-- Physical memory of a home for a length: an address that the kernel chooses among those free (R292 leaves the choice open). -/
def State.placePhys (s : State) (len align pkg die : Nat) : Option Nat :=
  let base := pkg * 2 ^ 50 + die * 2 ^ 40
  let used := s.physUsed
  let fit := fun a => firstFit used align len (used.length + 1) (alignUp (base + a) align)
  let a := fit (kernelKeeps + page64K * (Config.allocGap s.free % 2 ^ 23))
  if a + len ≤ base + 2 ^ 40 then some a
  else
    let b := fit kernelKeeps
    if b + len ≤ base + 2 ^ 40 then some b else none
/-- Virtual addresses for a length, likewise. -/
def State.placeVirt (s : State) (p : Proc) (len align : Nat) : Nat :=
  firstFit ((p.handlerWin, if p.handlerWin = 0 then 0 else page64K) :: (capMapVa, 4096) :: p.allocs.map (fun a => (a.va, a.len))) align len (p.allocs.length + 3)
    (alignUp (2 ^ 32 + page64K * (Config.allocGap (s.free + 1) % 2 ^ 32)) align)
/-- Place and map a range for a process; none where no physical memory is left. -/
def State.allocRange (s : State) (spid len align pkg die : Nat) (writable : Bool) : Option (State × Nat × Nat) :=
  match s.proc? spid with
  | some p =>
    let page := pageFor len
    let al := max page align
    let va := s.placeVirt p len al
    match s.placePhys len al pkg die with
    | some pa =>
      let q := p.mapRange va len page pa writable
      some (({ s with free := s.free + 2 } : State).modProc spid (fun _ => { q with allocs := q.allocs ++ [{ va, len }] }), va, pa)
    | none => none
  | none => none

/-! ### Opening (R27, R40, R41, R46, R47) -/

/-- Place the GLOBAL images, given in ascending image number, so that the order of the section table decides nothing (R424): the state, image numbers with their addresses and sections. -/
def State.placeImages (s : State) (spid : Nat) (f : List Byte) : List Sect → Option (State × List (Nat × Nat × Nat × Sect))
  | [] => some (s, [])
  | x :: xs =>
    match s.allocRange spid (alignUp (fieldLE (sectData f x) 16 8) page64K) (fieldLE (sectData f x) 24 8) s.pkg 0 true with
    | some (t, va, pa) => (t.placeImages spid f xs).map (fun r => (r.1, (x.inst, va, pa, x) :: r.2))
    | none => none
/-- Bytes of a list replaced from an offset on. -/
def spliceAt (l : List Byte) (off : Nat) (d : List Byte) : List Byte := l.take off ++ d ++ l.drop (off + d.length)
/-- One relocation record applied to the bundle's bytes (R41). -/
def relocate (sects : List Sect) (images : List (Nat × Nat × Nat × Sect)) (kernel : Nat) (f r : List Byte) : List Byte :=
  match pickSect sects tyDATA kernel (fieldLE r 0 2), images.find? (fun i => i.1 == fieldLE r 8 2) with
  | some x, some i => spliceAt f (x.off + 32 + fieldLE r 4 4) (leBytes 8 ((i.2.1 + fieldLE r 16 8) % 2 ^ 64))
  | _, _ => f
/-- Every relocation, in section order and record order. -/
def relocated (sects : List Sect) (images : List (Nat × Nat × Nat × Sect)) (f : List Byte) : List Byte :=
  (sects.filter (fun x => x.ty == tyRELO)).foldl (fun g x => (reloRecords (sectData g x)).foldl (relocate sects images x.kernel) g) f
/-- The kernels that run from their PORT list (R47): every one that has such a list where the part differs, and one without native streams. -/
def State.retimedKernels (s : State) (f : List Byte) (h : Header) (sects : List Sect) : Table Retimed :=
  (List.range h.nkern).foldl (fun t k =>
    match pickSect sects tyPORT k 0 with
    | some x => if !s.targetMatches h || (pickSect sects tySCAL k 0).isNone then Table.put t k (s.retimed (sectData f x)) else t
    | none => t) []
/-- An opened bundle joins the process: handle, log of digests, memory of the GLOBAL images. -/
def State.openBundle (s : State) (spid : Nat) (f : List Byte) : Option (State × Nat) :=
  let h := headerOf f
  let sects := sectTable f h
  match s.placeImages spid f ((List.range 1024).filterMap (pickSect sects tyDATA 0xFFFF)) with
  | some (t, images) =>
    let g := relocated sects images f
    let t := images.foldl (fun u i => u.homeWrite i.2.2.1 (sliceOf g (i.2.2.2.off + 32) (i.2.2.2.len - 32))) t
    let handle := ((t.proc? spid).map (fun p => p.nextHandle)).getD 1
    let b : Bundle :=
      { bytes := g, sects, retimed := s.retimedKernels f h sects, images := images.foldl (fun m i => Table.put m i.1 i.2.1) [], digest := sliceOf f 0x40 32 }
    some (t.modProc spid (fun p =>
      { p with bundles := Table.put p.bundles handle b, nextHandle := p.nextHandle + 1, log := p.log ++ [b.digest] }), handle)
  | none => none

/-- The process of the hart that calls. -/
def State.callerSpid (s : State) : Nat := ((s.hart s.curHart).spid).getD 0
/-- An argument register of the hart that calls (R49). -/
def State.callArg (s : State) (i : Nat) : Word64 := (s.hart s.curHart).reg (10 + i)

/-- KQ_OPEN_BUNDLE (R27, R45, R46, R51, R417): a file that the process cannot read is a bad argument. -/
def execKqOpenBundle (s : State) : Host.Outcome State Fault Refusal :=
  let h := s.curHart
  let sp := s.callerSpid
  let n := (s.callArg 1).toNat
  match s.proc? sp, s.procRead sp (s.callArg 0).toNat n with
  | some p, some f =>
    if 256 ≤ p.log.length || !Config.kernelHolds s.free n then .next (s.drawn.callReturn h noMemory)
    else
      match s.openFails f with
      | some (reason, entry) => .next (s.drawn.callReturn h (callError 0x25 reason entry))
      | none =>
        match s.drawn.openBundle sp f with
        | some (t, handle) => .next (t.callReturn h (BitVec.ofNat 64 handle))
        | none => .next (s.drawn.callReturn h noMemory)
  | _, _ => .next (s.callReturn h badArg)

end Sys2Proof.Machine
end

