-- ==== Sys2Proof/Machine/Bind.lean ====
section
/-! DEFINITION. Trees and units: the tree check (R38), the units and their availability (R63, R64), binding (R65, R66), ranks and chains (R67, R68), the beat requirement (R39, R55) and a launch's charge (R24). -/

namespace Sys2Proof.Machine

/-! ### The tree check (R38) -/

/-- Codes of the launch faults (R386). -/
def codeOrder : Nat := 0x20
def codeSelf : Nat := 0x21
def codeUnbindable : Nat := 0x22
def codeMismatch : Nat := 0x23
def codeBeats : Nat := 0x24
def codeBundle : Nat := 0x25

/-- Depth of a node, from its parents' (R38); `fuel` bounds the path. -/
def nodeDepth (tree : List TreeNode) : Nat → Nat → Nat
  | 0, _ => 0
  | fuel + 1, i =>
    match tree[i]? with
    | some n => if i = 0 || n.parent ≥ i then 0 else nodeDepth tree fuel n.parent + 1
    | none => 0
/-- Children of a node. -/
def childCount (tree : List TreeNode) (i : Nat) : Nat := (tree.filter (fun n => n.parent == i)).length
/-- The first failing test at one node. -/
def nodeFault (tree : List TreeNode) (i : Nat) (n : TreeNode) : Option Nat :=
  let above := ((tree[n.parent]?).map (fun p => p.level)).getD 0
  if i = 0 && n.parent == 0 then some codeSelf
  else if i = 0 && n.parent != 0xFF then some codeOrder
  else if i != 0 && n.parent == i then some codeSelf
  else if i != 0 && i < n.parent then some codeOrder
  else if i != 0 && above < n.level then some codeMismatch
  else if 15 < nodeDepth tree 257 i then some codeUnbindable
  else if n.level = 0 && 64 % n.count != 0 then some codeUnbindable
  else if childCount tree i = 0 && 1 < n.level then some codeUnbindable
  else none
/-- R38: the first failing node's code and index. -/
def treeFault (tree : List TreeNode) : Option (Nat × Nat) :=
  ((List.range tree.length).zip tree).findSome? (fun x => (nodeFault tree x.1 x.2).map (fun c => (c, x.1)))

/-! ### Units (R63, R64, R66) -/

/-- What binding is told: fabric packages by launch position, the tree, which cores are free, which dies are present, and a package alone in
which units are to be found. Units are numbered by `Inst.unit`. -/
structure BindCtx where
  pkgs : List Nat
  tree : List TreeNode
  free : Nat → Bool
  dieOn : Nat → Nat → Bool
  only : Option Nat

/-- Cores of a package position, as PHYS IDs, that a CORE, QUAD or SECTOR unit holds (R13, R14). -/
def unitCores (level unit : Nat) : List Nat :=
  match level with
  | 1 => [unit]
  | 2 => (List.range 4).map (fun i => unit / 256 * 1024 + quadCore (unit % 256) i)
  | 3 => (sectorCores (unit % 32)).map (fun c => unit / 32 * 1024 + c)
  | _ => []
/-- Launch positions that a unit spans. -/
def unitSpan (pkgs : List Nat) (level unit : Nat) : List Nat :=
  match level with
  | 1 => [unit / 1024]
  | 2 => [unit / 256]
  | 3 => [unit / 32]
  | 4 => [unit / 2]
  | 5 => [unit]
  | 6 => (List.range pkgs.length).filter (fun p => pkgs.getD p 0 / 8 == unit)
  | _ => List.range pkgs.length
/-- The die unit of a core, quad, sector or die unit. -/
def unitDie (level unit : Nat) : Nat :=
  match level with
  | 1 => unit / 512
  | 2 => unit / 128
  | 3 => unit / 16
  | _ => unit
/-- A unit lies within another. -/
def unitWithin (pkgs : List Nat) (al au bl bu : Nat) : Bool :=
  if bl < al then false
  else if 5 ≤ bl then (unitSpan pkgs al au).all (fun p => (unitSpan pkgs bl bu).contains p)
  else if bl = 4 then unitDie al au == bu
  else (unitCores al au).all (fun c => (unitCores bl bu).contains c)
/-- Two units share a part of the module. -/
def unitsMeet (pkgs : List Nat) (al au bl bu : Nat) : Bool := unitWithin pkgs al au bl bu || unitWithin pkgs bl bu al au
/-- The units of a level inside a unit, lowest number first (R66): cores, quads and sectors by their die index, dies 0 then 1, packages by
launch position, sleds by number. -/
def BindCtx.inside (x : BindCtx) (level unit child : Nat) : List Nat :=
  let span := (unitSpan x.pkgs level unit).filter (fun p => x.only.all (fun o => o == p || 5 ≤ child))
  let dies := span.flatMap (fun p => ((List.range 2).filter (x.dieOn p)).map (fun d => 2 * p + d))
  let dies := if level ≤ 4 then dies.filter (fun d => d == unitDie level unit) else dies
  let all : List Nat := match child with
    | 7 => [0]
    | 6 => (List.range 8).filter (fun s => span.any (fun p => x.pkgs.getD p 0 / 8 == s))
    | 5 => span
    | 4 => dies
    | 3 => dies.flatMap (fun d => (List.range 16).map (· + 16 * d))
    | 2 => dies.flatMap (fun d => (List.range 128).map (· + 128 * d))
    | _ => dies.flatMap (fun d => (List.range 512).map (· + 512 * d))
  if level ≤ 3 then all.filter (fun u => unitWithin x.pkgs child u level unit) else all
/-- A unit is available as such (R64): its cores are free, or it is present. -/
def BindCtx.unitOn (x : BindCtx) (level unit : Nat) : Bool := level ≥ 4 || (unitCores level unit).all x.free

/-! ### Binding (R65, R66) -/

/-- An instance with its ancestors; `fuel` bounds the depth. -/
def lineOf (insts : List Inst) : Nat → Nat → List Nat
  | 0, _ => []
  | fuel + 1, i =>
    match insts[i]? with
    | some n => i :: (if n.node = 0 then [] else lineOf insts fuel n.parent)
    | none => []
/-- An instance claims a unit of its own: its level is not its parent's (R66). -/
def claims (insts : List Inst) (i : Inst) : Bool :=
  i.level != 0 && (i.node == 0 || ((insts[i.parent]?).map (fun p => p.level)).getD 9 != i.level)
/-- A unit overlaps one claimed by an instance that is no ancestor (R64). -/
def BindCtx.clash (x : BindCtx) (insts : List Inst) (line : List Nat) (level unit : Nat) : Bool :=
  ((List.range insts.length).zip insts).any (fun y =>
    !line.contains y.1 && claims insts y.2 && unitsMeet x.pkgs level unit y.2.level y.2.unit)
/-- Launch position of a unit; of no account above PACKAGE. -/
def unitPos (level unit : Nat) : Nat := if level ≤ 5 then ((unitSpan [] level unit).head?).getD 0 else 0
/-- One instance of node `j` below instance `u` (none for the root): LANE ranges, a subdivision, or the first available unit in which `sub`
lets its whole subtree bind (R66). -/
def BindCtx.place (x : BindCtx) (sub : List Inst → Nat → Bool) (insts : List Inst) (j : Nat) (n : TreeNode) (u : Option Nat) (k : Nat) : Option Inst :=
  let par := u.bind (fun i => insts[i]?)
  let pl := (par.map (fun p => p.level)).getD 8
  let pu := (par.map (fun p => p.unit)).getD 0
  let base : Inst := { node := j, parent := u.getD 0, k, level := n.level, pkg := (par.map (fun p => p.pkg)).getD 0, unit := pu }
  if n.level = 0 then
    let w := (par.map (fun p => p.laneW)).getD 64
    let lo := (par.map (fun p => p.laneLo)).getD 0
    if w % n.count = 0 then some { base with laneLo := lo + k * w / n.count, laneW := w / n.count } else none
  else if n.level = pl then some base
  else
    let line := (u.map (lineOf insts 17)).getD []
    let cand := fun (v : Nat) => { base with unit := v, pkg := unitPos n.level v }
    ((x.inside pl pu n.level).find? (fun v =>
      x.unitOn n.level v && !x.clash insts line n.level v && (childCount x.tree j == 0 || sub (insts ++ [cand v]) insts.length))).map cand
/-- The instances of node `j`'s parent that lie below an instance (all, without one). -/
def parentsOf (insts : List Inst) (n : TreeNode) (j : Nat) (top : Option Nat) : List (Option Nat) :=
  if j = 0 then (if top.isNone then [none] else [])
  else
    ((List.range insts.length).filter (fun i =>
      (insts[i]?).any (fun y => y.node == n.parent) && top.all (fun t => (lineOf insts 17 i).contains t))).map some
/-- Bind the nodes below an instance, or the whole tree, in index order: the instances, or the first node that could not be bound (R66). -/
def BindCtx.bindUnder (x : BindCtx) : Nat → List Inst → Option Nat → Except Nat (List Inst)
  | 0, _, _ => .error 0
  | fuel + 1, insts, top =>
    let sub := fun (l : List Inst) (i : Nat) => match x.bindUnder fuel l (some i) with | .ok _ => true | .error _ => false
    ((List.range x.tree.length).zip x.tree).foldl (fun acc y =>
      match acc with
      | .error e => .error e
      | .ok insts0 =>
        (parentsOf insts0 y.2 y.1 top).foldl (fun acc u =>
          (List.range y.2.count).foldl (fun acc k =>
            match acc with
            | .ok l =>
              match x.place sub l y.1 y.2 u k with
              | some i => .ok (l ++ [i])
              | none => .error y.1
            | .error e => .error e) acc) (.ok insts0)) (.ok insts)
/-- The whole tree. -/
def BindCtx.bindAll (x : BindCtx) : Except Nat (List Inst) := x.bindUnder 18 [] none
/-- Bind again, on the cores now free, the instances below PACKAGE level of one package; the others stand (R63). -/
def BindCtx.rebind (x : BindCtx) (pos : Nat) (whole : List Inst) : Except Nat (List Inst) :=
  let sub := fun (l : List Inst) (i : Nat) => match x.bindUnder 17 l (some i) with | .ok _ => true | .error _ => false
  whole.foldl (fun acc i =>
    match acc with
    | .ok l =>
      if i.level < 5 && i.pkg == pos then
        match x.tree[i.node]? with
        | some n =>
          match x.place sub l i.node n (if i.node = 0 then none else some i.parent) i.k with
          | some y => .ok (l ++ [y])
          | none => .error i.node
        | none => .error i.node
      else .ok (l ++ [i])
    | .error e => .error e) (.ok [])

/-- A core of this package is enabled and not withdrawn (R19, R22). -/
def State.coreUsable (s : State) (c : Nat) : Bool := s.fuse.coreOn c && !s.withdrawn.contains c
/-- A core is free for a process (R64, R262): no launch holds it, and no other process has reserved a bank of it. -/
def State.coreFree (s : State) (spid c : Nat) : Bool :=
  s.coreUsable c && (s.core c).bound.isNone && s.reservations.all (fun r => r.1 != c || r.2.1 == spid)
/-- Binding with all enabled units free (R65); other packages as their capability maps show (log 26). -/
def State.capacityCtx (s : State) (pkgs : List Nat) (tree : List TreeNode) : BindCtx :=
  { pkgs, tree, only := none
    free := fun id =>
      let p := pkgs.getD (id / 1024) 0
      if p = s.pkg then s.coreUsable (id % 1024) else Config.peerCore p (id % 1024)
    dieOn := fun pos d =>
      let p := pkgs.getD pos 0
      d == 0 || (if p = s.pkg then s.fuse.die1 else Config.peerDie1 p) }
/-- Binding at selection, in this package. -/
def State.selectCtx (s : State) (l : Launch) : BindCtx :=
  let pos := (l.pkgs.findIdx? (fun p => p == s.pkg)).getD 0
  { pkgs := l.pkgs, tree := l.tree, only := some pos, free := fun id => id / 1024 == pos && s.coreFree l.spid (id % 1024)
    dieOn := fun p d => p == pos && (d == 0 || s.fuse.die1) }
/-- The capacity test (R65): the instances, or the entry of TREE_UNBINDABLE. -/
def State.capacity (s : State) (pkgs : List Nat) (tree : List TreeNode) : Except Nat (List Inst) :=
  match ((List.range tree.length).zip tree).find? (fun x => x.2.level ≤ 1 && 1 < childCount tree x.1) with
  | some x => .error x.1
  | none => (s.capacityCtx pkgs tree).bindAll

/-! ### What a launch's parts come to (R63, R67, R68) -/

/-- This package's launch position. -/
def Launch.posOf (l : Launch) (pkg : Nat) : Nat := (l.pkgs.findIdx? (fun p => p == pkg)).getD 0
/-- The CORE instances of a launch position, with their indices. -/
def Launch.coresAt (l : Launch) (pos : Nat) : List (Nat × Inst) :=
  ((List.range l.insts.length).zip l.insts).filter (fun x => x.2.level == 1 && x.2.pkg == pos && !(claims l.insts x.2 == false && ((l.insts[x.2.parent]?).any (fun p => p.level == 1))))
/-- The kernel of an instance's node. -/
def Launch.kernelAt (l : Launch) (i : Inst) : Nat := ((l.tree[i.node]?).map (fun n => n.kernel)).getD 0
/-- Rank of a CORE instance (R67): packages in ascending order, within one the order of binding, instances of one kernel. -/
def Launch.rankOf (l : Launch) (idx : Nat) (i : Inst) : Nat :=
  ((List.range l.insts.length).zip l.insts).countP (fun y =>
    y.2.level == 1 && l.kernelAt y.2 == l.kernelAt i && (decide (y.2.pkg < i.pkg) || (y.2.pkg == i.pkg && decide (y.1 < idx))))
/-- The chain of a CORE instance (R68). -/
def Launch.chainOf (l : Launch) (idx : Nat) : List ChainEl :=
  (lineOf l.insts 17 idx).reverse.filterMap (fun j =>
    (l.insts[j]?).map (fun i => { level := i.level, count := ((l.tree[i.node]?).map (fun n => n.count)).getD 1, k := i.k, inst := j }))
/-- The counts of the LANE nodes below a node (R68). -/
def laneCounts (tree : List TreeNode) : Nat → Nat → List Nat
  | 0, _ => []
  | fuel + 1, j =>
    match ((List.range tree.length).zip tree).find? (fun x => x.2.parent == j && x.2.level == 0 && x.1 != 0) with
    | some x => x.2.count :: laneCounts tree fuel x.1
    | none => []

/-! ### The beat requirement (R39, R55) -/

/-- Two entries combined, unless they conflict. -/
def joinBeat (a b : BeatEnt) : Option BeatEnt :=
  if a.ty = 0 then some b
  else if b.ty = 0 then some a
  else if a.ty != b.ty then none
  else if a.len = 0 then some b
  else if b.len = 0 || b.len == a.len then some a
  else none
/-- The requirement of the kernels of a tree, or the index of the first entry that conflicts. -/
def combineBeats (reqs : List (List BeatEnt)) : Except Nat (List BeatEnt) :=
  (List.range 16).foldl (fun acc i =>
    match acc with
    | .error e => .error e
    | .ok l =>
      match reqs.foldl (fun (a : Option BeatEnt) r => a.bind (joinBeat (r.getD i { ty := 0, len := 0 }))) (some { ty := 0, len := 0 }) with
      | some e => .ok (l ++ [e])
      | none => .error i) (.ok [])
/-- The kernels that the CORE nodes of a tree name. -/
def treeKernels (tree : List TreeNode) : List Nat := ((tree.filter (fun n => n.level == 1)).map (fun n => n.kernel)).dedup
/-- The BEAT section of a kernel. -/
def Bundle.beats (b : Bundle) (kernel : Nat) : List BeatEnt :=
  match b.sects.find? (fun x => x.ty == tyBEAT && x.kernel == kernel) with
  | some x => beatEntries (b.sectBytes x)
  | none => []
/-- The table that a requirement loads on an idle package (R39). -/
def tableOf (req : List BeatEnt) : List BeatEnt :=
  (List.range 16).map (fun i =>
    let e := req.getD i { ty := 0, len := 0 }
    if e.ty = 0 then defaultTable.getD i { ty := 1, len := 64 }
    else { ty := e.ty, len := if e.len != 0 then e.len else if e.ty = 1 then 64 else 256 })
/-- The first entry at which a requirement differs from a table (R39, R62). -/
def beatsConflict (req table : List BeatEnt) : Option Nat :=
  (List.range 16).find? (fun i =>
    let e := req.getD i { ty := 0, len := 0 }
    let t := table.getD i { ty := 1, len := 64 }
    (e.ty != 0 && e.ty != t.ty) || (e.len != 0 && e.len != t.len))

/-! ### The charge (R24, R25), in milliwatts -/

/-- A kernel's scalar streams hold a BKLODE word in some overlay. -/
def hasLode (l : List StreamSect) : Bool :=
  l.any (fun x => x.ty == 0 && (chunksOf 4 (x.bytes.length / 4) x.bytes).any (fun w => bitsOf (leNat w) 26 6 == 0x2B))
/-- A kernel has a matrix stream of at least one word in some overlay. -/
def hasMatrix (l : List StreamSect) : Bool := l.any (fun x => x.ty == 2 && 24 ≤ x.bytes.length)
/-- The charge of a launch's cores in this package, given as (core, kernel). -/
def chargeOf (streams : Nat → List StreamSect) (cores : List (Nat × Nat)) : Nat :=
  cores.length * 390 + (cores.filter (fun c => hasLode (streams c.2))).length * 146
    + ((cores.filter (fun c => hasMatrix (streams c.2))).map (fun c => quadOf c.1)).dedup.length * 2930
/-- The most by which heat cuts the load limit: down to 50% of the module limit (R422). -/
def Power.maxCut (p : Power) : Nat := (p.limit * 1610 / 2200) * 1000 - p.limit * 500
/-- The load limit (R24, R422): floor(module limit × 1610 ÷ 2200), less the cut, down to 50% of the module limit. -/
def Power.loadLimit (p : Power) : Nat := (p.limit * 1610 / 2200) * 1000 - min p.cut p.maxCut
/-- The charge of the launches now bound, with the fixed charge. -/
def State.charged (s : State) : Nat := 310000 + (s.launches.map (fun l => l.charge)).sum

end Sys2Proof.Machine
end

