-- ==== Sys2Proof/Machine/Launch.lean ====
section
/-! DEFINITION. Launch packets and their checks (R52, R53, R69), KQ_LAUNCH, the graph calls, KQ_QUEUE_PRIO, KQ_WAIT, completion of a launch, and packets from other packages (R51, R56 to R59, R69 to R73, R409). -/

namespace Sys2Proof.Machine

/-! ### The packet (R52) -/

/-- The fields that the kernel keeps of a packet's 128 bytes; the requirement is joined later. -/
def packetOf (b args : List Byte) : Packet :=
  { bundle := fieldLE b 0 4, tree := fieldLE b 4 2, prio := fieldLE b 6 1, elastic := fieldLE b 7 1 == 1, pkgmask := fieldLE b 0x10 8, args
    waits := (List.range 4).map (fun i => (fieldLE b (0x28 + 8 * i) 2, fieldLE b (0x2A + 8 * i) 6))
    sigs := (List.range 4).map (fun i => fieldLE b (0x48 + 2 * i) 2), status := fieldLE b 0x50 8, beatreq := none }
/-- A token that a slot may name: one of the process, none, or in a graph a local one (R52, R56, R69). -/
def slotOk (graph : Bool) (t : Nat) : Bool := t < tokenLimit || t == 0xFFFF || (graph && localToken ≤ t && t ≤ localToken + 0xFF)
/-- The routing table entry of a package has VALID or SELF (R53, R288). -/
def State.routed (s : State) (p : Nat) : Bool := s.routes p
/-- The fields' ranges (R52, R53 step 1, R420). -/
def State.fieldsOk (s : State) (graph : Bool) (b : List Byte) : Bool :=
  let mask := fieldLE b 0x10 8
  b.length == 128 && fieldLE b 4 2 ≤ 255 && fieldLE b 6 1 ≤ 7 && fieldLE b 7 1 ≤ 1 && fieldLE b 8 8 == 0 && fieldLE b 0x20 4 ≤ 4096
    && fieldLE b 0x20 4 % 8 == 0 && fieldLE b 0x24 4 == 0 && (List.range 4).all (fun i => slotOk graph (fieldLE b (0x28 + 8 * i) 2))
    && (List.range 4).all (fun i => slotOk graph (fieldLE b (0x48 + 2 * i) 2)) && fieldLE b 0x50 8 % 16 == 0 && allZero (sliceOf b 0x60 32)
    && (List.range 64).all (fun p => !bitOf mask p || s.routed p)
/-- PKGMASK names a package other than this one. -/
def State.masksOther (s : State) (mask : Nat) : Bool := (List.range 64).any (fun p => bitOf mask p && p != s.pkg)
/-- The target packages in ascending order of their fabric package numbers (R52, R63). -/
def State.targets (s : State) (mask : Nat) : List Nat := if mask = 0 then [s.pkg] else (List.range 64).filter (fun p => bitOf mask p)

/-- The first failing launch-time check of a kernel's sync table, by the index of its section (R35, R53 step 4). -/
def State.syncLaunch (s : State) (spid : Nat) (b : Bundle) (tree : List TreeNode) : Option Nat :=
  let plans := ((s.proc? spid).map (fun p => p.plans.map (fun x => x.id))).getD []
  ((List.range b.sects.length).zip b.sects).findSome? (fun y =>
    let nodes := ((List.range tree.length).zip tree).filter (fun n => n.2.level == 1 && n.2.kernel == y.2.kernel)
    if y.2.ty = tySYNC && !nodes.isEmpty then
      let d := b.sectBytes y.2
      if (syncBarriers d).all (fun x => nodes.all (fun n => x.2 ≤ nodeDepth tree 257 n.1)) && (syncPlans d).all plans.contains then none else some y.1
    else none)

/-- A packet that has passed its checks: its fields, its tree, the packages and the instances of the capacity run. -/
structure Checked where
  pkt : Packet
  tree : List TreeNode
  pkgs : List Nat
  insts : List Inst
  deriving DecidableEq, Repr

/-- Steps 2 to 6 of R53 on a packet of a process, with its explicit requirement's bytes if it gives one. -/
def State.checkTree (s : State) (spid : Nat) (pkt : Packet) (req : Option (List Byte)) : Except Word64 Checked :=
  match (s.proc? spid).bind (fun p => Table.find? p.bundles pkt.bundle) with
  | none => .error (callError 0x42 0 0)
  | some b =>
    match pickTree b.sects pkt.tree with
    | none => .error badArg
    | some x =>
      let tree := treeNodes (b.sectBytes x)
      let pkgs := s.targets pkt.pkgmask
      match treeFault tree with
      | some f => .error (callError f.1 0 f.2)
      | none =>
        if (tree[0]?).any (fun n => n.level < 5) && 1 < pkgs.length then .error badArg
        else
          match s.syncLaunch spid b tree with
          | some i => .error (callError codeBundle 20 i)
          | none =>
            if req.any (fun r => !beatOk r) then .error badArg
            else
              match (match req with
                | some r => Except.ok (beatEntries r)
                | none => combineBeats ((treeKernels tree).map b.beats)) with
              | .error i => .error (callError codeBeats 0 i)
              | .ok beats =>
                match s.capacity pkgs tree with
                | .error i => .error (callError codeUnbindable 0 i)
                | .ok insts => .ok { pkt := { pkt with beatreq := some beats, insts }, tree, pkgs, insts }

/-- Steps 1 to 6 of R53 on the packet at an address (R69): memory that cannot be read is a bad argument. -/
def State.checkPacket (s : State) (spid va : Nat) (graph : Bool) : Except Word64 Checked :=
  match (if va % 8 = 0 then s.procRead spid va 128 else none) with
  | none => .error badArg
  | some b =>
    if !s.fieldsOk graph b then .error badArg
    else
      let n := fieldLE b 0x20 4
      let req := fieldLE b 0x58 8
      match s.procRead spid (if n = 0 then 0 else fieldLE b 0x18 8) n, (if req = 0 then some none else (s.procRead spid req 64).map some) with
      | some args, some r => s.checkTree spid (packetOf b args) r
      | _, _ => .error badArg

/-! ### Queueing (R59, R72, R73) -/

/-- Packets that a queue holds or keeps a place for (R53 step 7). -/
def State.queueLoad (s : State) (q : Nat) : Nat :=
  (vget s.queues q []).length + (s.launches.filter (fun l => l.queue == q && l.st == .reserved && l.release.isSome)).length
/-- The next generation number (R72). -/
def State.nextGen (s : State) : Nat := s.pkg * 2 ^ 58 + (s.genCount + 1)
/-- Bytes of a packet with its generation number in its place, as it is sent to other packages (R52, R73). -/
def packetBytes (b : List Byte) (gen : Nat) : List Byte := spliceAt b 8 (leBytes 8 gen)
/-- The bytes of a requirement. -/
def beatBytes (l : List BeatEnt) : List Byte := l.flatMap (fun e => leBytes 1 e.ty ++ [0#8] ++ leBytes 2 e.len)
/-- A packet's 128 bytes from its fields, as far as another package needs them (R52, R73). -/
def Packet.bytes (p : Packet) (gen mask : Nat) : List Byte :=
  leBytes 4 p.bundle ++ leBytes 2 p.tree ++ leBytes 1 p.prio ++ leBytes 1 (if p.elastic then 1 else 0) ++ leBytes 8 gen ++ leBytes 8 mask ++ leBytes 8 0
    ++ leBytes 4 p.args.length ++ leBytes 4 0 ++ p.waits.flatMap (fun w => leBytes 2 w.1 ++ leBytes 6 w.2) ++ p.sigs.flatMap (leBytes 2)
    ++ leBytes 8 p.status ++ leBytes 8 0 ++ List.replicate 32 0#8
/-- Queue a checked packet of a process: at once where this package alone takes part, else sent to the others and released at the boundary of
window N + 2 (R72, R73). -/
def State.submit (s : State) (spid queue : Nat) (c : Checked) (run : Option Nat) : State :=
  let gen := s.nextGen
  let l : Launch :=
    { gen, spid, queue, pkt := c.pkt, tree := c.tree, insts := c.insts, pkgs := c.pkgs, st := .queued, origin := s.pkg, graphRun := run
      graph := run.isSome }
  let parts := l.parts
  let s : State := { s with genCount := s.genCount + 1 }
  if parts = [s.pkg] then
    ({ s with launches := s.launches ++ [l], queues := vset s.queues queue (vget s.queues queue [] ++ [gen]) } : State).askSelection
  else
    let mine := parts.contains s.pkg
    let l := { l with st := .reserved, release := if mine then some (s.window + 2) else none }
    let p := s.proc? spid
    let m : RemotePacket :=
      { gen, queue, sent := s.window, spid, ptes := (p.map (fun p => p.ptes)).getD []
        packet := c.pkt.bytes gen (c.pkgs.foldl (fun a x => a + 2 ^ x) 0), args := c.pkt.args, beats := beatBytes (c.pkt.beatreq.getD [])
        bundle := ((p.bind (fun p => Table.find? p.bundles c.pkt.bundle)).map (fun b => b.bytes)).getD []
        counts := c.pkt.waits.map (fun w => s.tokenCount spid run w.1), graph := run.isSome, insts := c.insts
        plans := ((p.map (fun p => p.plans)).getD []).map (fun x => (x.id, x.flows)) }
    (parts.filter (fun x => x != s.pkg)).foldl (fun t x => t.send x (.packet s.window m)) { s with launches := s.launches ++ [l] }

/-- KQ_LAUNCH (R51, R53, R420). -/
def execKqLaunch (s : State) : Host.Outcome State Fault Refusal :=
  let h := s.curHart
  let sp := s.callerSpid
  let q := (s.callArg 1).toNat
  let va := (s.callArg 0).toNat
  let mask := ((s.procRead sp (va + 0x10) 8).map leNat).getD 0
  if 64 ≤ q || (s.power.ptpLost && s.masksOther mask) then .next (s.callReturn h badArg)
  else
    match s.checkPacket sp va false with
    | .error e => .next (s.callReturn h e)
    | .ok c =>
      if 256 ≤ s.queueLoad q then .next (s.callReturn h (callError 0x44 0 0))
      else if !Config.kernelHolds s.free (128 + c.pkt.args.length) then .next (s.drawn.callReturn h noMemory)
      else .next ((s.drawn.submit sp q c none).callReturn h (BitVec.ofNat 64 s.nextGen))

/-! ### Tokens and queues: KQ_WAIT, KQ_QUEUE_PRIO -/

/-- KQ_WAIT (R51, R56, R57): it returns at once where the target is met, else when it is or at the timeout. -/
def execKqWait (s : State) : Host.Outcome State Fault Refusal :=
  let h := s.curHart
  let sp := s.callerSpid
  let t := (s.callArg 0).toNat
  let target := (s.callArg 1).toNat
  let us := (s.callArg 2).toNat
  if tokenLimit ≤ t || (s.proc? sp).isNone then .next (s.callReturn h badArg)
  else
    let n := s.tokenCount sp none t
    if target ≤ n then .next (s.callReturn h (BitVec.ofNat 64 n))
    else
      let id := s.seq
      let s := ({ s with seq := s.seq + 1 } : State).callBlocks h { id, hart := h, spid := sp, kind := 0, token := t, target }
      .next (if us = 0 then s else s.post (s.now + 850 * us) 1 none (.run .kqWaitTimeout (.nums [id])))
/-- KQ_WAIT_TIMEOUT (R51). -/
def execKqWaitTimeout (s : State) : Host.Outcome State Fault Refusal :=
  match s.arg with
  | .nums [id] =>
    match s.pending.find? (fun p => p.id == id && p.kind == 0) with
    | some p => .next (s.endPending p (callError 0x45 0 0))
    | none => .next s
  | _ => .next s
/-- KQ_QUEUE_PRIO (R51, R59, R60). -/
def execKqQueuePrio (s : State) : Host.Outcome State Fault Refusal :=
  let h := s.curHart
  let q := (s.callArg 0).toNat
  let p := (s.callArg 1).toNat
  if 64 ≤ q || 8 ≤ p then .next (s.callReturn h badArg)
  else
    let old := vget s.qprio q 7
    .next ((({ s with qprio := vset s.qprio q p } : State).askSelection).callReturn h (BitVec.ofNat 64 old))

/-! ### Graphs (R69 to R71) -/

/-- Signals of a token by packets of a graph. -/
def signals (l : List Packet) (t : Nat) : Nat := (l.map (fun p => p.sigs.count t)).sum
/-- Some packet of a graph waits on a local token that a later packet of the graph signals (R71). -/
def neverStarts (l : List Packet) : Bool :=
  ((List.range l.length).zip l).any (fun x => x.2.waits.any (fun w => localToken ≤ w.1 && w.1 != 0xFFFF && 0 < signals (l.drop (x.1 + 1)) w.1))
/-- The packets of an array, checked in order (R69). -/
def State.checkArray (s : State) (spid va : Nat) : Nat → Except Word64 (List Packet)
  | 0 => .ok []
  | n + 1 =>
    match s.checkPacket spid va true with
    | .error e => .error e
    | .ok c =>
      match s.checkArray spid (va + 128) n with
      | .ok l => .ok (c.pkt :: l)
      | .error e => .error e
/-- Give a process a handle for a new graph. -/
def State.addGraph (s : State) (spid : Nat) (g : Graph) : State :=
  s.modProc spid (fun p => { p with graphs := Table.put p.graphs p.nextHandle g, nextHandle := p.nextHandle + 1 })
/-- KQ_GRAPH_NEW (R69). -/
def execKqGraphNew (s : State) : Host.Outcome State Fault Refusal :=
  let h := s.curHart
  let sp := s.callerSpid
  let n := (s.callArg 1).toNat
  if n = 0 || 256 < n then .next (s.callReturn h badArg)
  else
    match s.checkArray sp (s.callArg 0).toNat n with
    | .error e => .next (s.callReturn h e)
    | .ok l =>
      if neverStarts l then .next (s.callReturn h badArg)
      else if !Config.kernelHolds s.free (128 * n) then .next (s.drawn.callReturn h noMemory)
      else .next ((s.drawn.addGraph sp { versions := [l] }).callReturn h (BitVec.ofNat 64 (((s.proc? sp).map (fun p => p.nextHandle)).getD 1)))
/-- A graph of a process. -/
def State.graph? (s : State) (spid g : Nat) : Option Graph := (s.proc? spid).bind (fun p => Table.find? p.graphs g)
/-- KQ_GRAPH_EDIT (R69, R70): a new version equal to the newest but for one packet. -/
def execKqGraphEdit (s : State) : Host.Outcome State Fault Refusal :=
  let h := s.curHart
  let sp := s.callerSpid
  let g := (s.callArg 0).toNat
  let i := (s.callArg 1).toNat
  match s.graph? sp g with
  | none => .next (s.callReturn h (callError 0x42 0 0))
  | some x =>
    let newest := x.versions.getLast?.getD []
    if newest.length ≤ i then .next (s.callReturn h badArg)
    else
      match s.checkPacket sp (s.callArg 2).toNat true with
      | .error e => .next (s.callReturn h e)
      | .ok c =>
        let l := newest.set i c.pkt
        if neverStarts l then .next (s.callReturn h badArg)
        else if !Config.kernelHolds s.free 128 then .next (s.drawn.callReturn h noMemory)
        else
          let s := s.drawn.modProc sp (fun p => { p with graphs := Table.put p.graphs g { versions := x.versions ++ [l] } })
          .next (s.callReturn h (BitVec.ofNat 64 (x.versions.length + 1)))
/-- Queue one packet of a run: its tree stands in the opened bundle, which stays open (R27), and its nodes of PACKAGE level and above are bound as
its check has bound them (R63, R69). -/
def State.submitRun (s : State) (spid queue run : Nat) (p : Packet) : State :=
  match (s.proc? spid).bind (fun x => Table.find? x.bundles p.bundle) with
  | some b =>
    let tree := ((pickTree b.sects p.tree).map (fun x => treeNodes (b.sectBytes x))).getD []
    s.submit spid queue { pkt := p, tree, pkgs := s.targets p.pkgmask, insts := p.insts } (some run)
  | none => s
/-- KQ_GRAPH_RUN (R71): the packets of a version enter one queue in array order as one step. -/
def execKqGraphRun (s : State) : Host.Outcome State Fault Refusal :=
  let h := s.curHart
  let sp := s.callerSpid
  let v := (s.callArg 1).toNat
  let q := (s.callArg 2).toNat
  let t := (s.callArg 3).toNat
  match s.graph? sp (s.callArg 0).toNat with
  | none => .next (s.callReturn h (callError 0x42 0 0))
  | some x =>
    match x.versions[(if v = 0 then x.versions.length else v) - 1]? with
    | none => .next (s.callReturn h badArg)
    | some l =>
      if 64 ≤ q || !slotOk false t then .next (s.callReturn h badArg)
      else if 256 < s.queueLoad q + l.length then .next (s.callReturn h (callError 0x44 0 0))
      else
        let run := s.nextRun
        let first := s.nextGen
        let s : State := { s with nextRun := run + 1, runs := Table.put s.runs run { spid := sp, tokens := [], left := l.length, token := t } }
        .next ((l.foldl (fun u p => u.submitRun sp q run p) s).callReturn h (BitVec.ofNat 64 first))

/-! ### Completion (R57, R58, R71, R409) -/

/-- Ask for the completion of a launch at its submitting package (R57). -/
def State.postComplete (s : State) (gen : Nat) : State := s.post s.now 3 none (.run .launchComplete (.nums [gen]))
/-- A launch ends here with a result before or after it was bound; where it first failed stands (R57, R58, R76). -/
def State.setResult (s : State) (gen result code entry pkg : Nat) : State :=
  s.modLaunch gen (fun l => if l.result = 0 then { l with result, code, entry, pkgAt := pkg } else l)
/-- The 16 bytes of a status record (R58). -/
def Launch.record (l : Launch) : List Byte :=
  leBytes 8 l.gen ++ leBytes 1 l.result ++ leBytes 1 l.code ++ leBytes 2 l.entry ++ leBytes 2 l.pkgAt ++ leBytes 2 0
/-- One packet of a run has completed: after the last the run's token is incremented and its own tokens end (R71). -/
def State.runDone (s : State) (run : Nat) : State :=
  match Table.find? s.runs run with
  | some r =>
    if r.left ≤ 1 then
      let s : State := { s with runs := Table.erase s.runs run }
      if r.token = 0xFFFF then s else s.signal r.spid none r.token
    else { s with runs := Table.put s.runs run { r with left := r.left - 1 } }
  | none => s
/-- LAUNCH_COMPLETE (R57, R409): the status record, then the tokens, then the calls that wait. -/
def execLaunchComplete (s : State) : Host.Outcome State Fault Refusal :=
  match s.arg with
  | .nums [gen] =>
    match s.launch? gen with
    | some l =>
      if l.st = .complete || l.origin != s.pkg then .next s
      else
        let s := s.modLaunch gen (fun l => { l with st := .complete })
        let s := if l.pkt.status = 0 then s else s.procWrite l.spid l.pkt.status l.record
        let s := l.pkt.sigs.foldl (fun t x => if x = 0xFFFF then t else t.addToken l.spid l.graphRun x) s
        let s := (l.graphRun.elim s s.runDone).wakeWaits
        .next s.askSelection
    | none => .next s
  | _ => .next s

/-! ### Packets of other packages (R73, R76) -/

/-- The other packages of a launch: those that take part, and the one that submitted it (R73, R76). -/
def Launch.others (l : Launch) (pkg : Nat) : List Nat := ((l.parts ++ [l.origin]).filter (fun p => p != pkg)).dedup
/-- Where a launch fails here after replication: ABORT to every package that takes part (R76). -/
def State.sendAbort (s : State) (l : Launch) (code entry : Nat) : State :=
  (l.others s.pkg).foldl (fun t p => t.send p (.abort l.gen t.pkg t.window code entry)) s
/-- Slots added to or taken from the pools of the flows that leave here (R364). -/
def State.poolSlots (s : State) (flows : List (Nat × Nat × Nat)) (add : Bool) : State :=
  (flows.filter (fun f => f.1 == s.pkg)).foldl (fun t f =>
    let x := (t.flows.find? (fun y => y.src == f.1 && y.dst == f.2.1)).getD { src := f.1, dst := f.2.1, free := 0, inUse := 0, soon := [] }
    let y := if add then x.gain f.2.2 else x.lose f.2.2
    { t with flows := t.flows.filter (fun z => !(z.src == f.1 && z.dst == f.2.1)) ++ [y] }) s
/-- A process of another package becomes known here. -/
def State.knowProc (s : State) (spid : Nat) : State := if (s.proc? spid).isSome then s else { s with procs := s.procs ++ [{ spid }] }
/-- A plan of a process that another package has registered, or released where it names no flow: its flows from here have their pools, once
(R363, R364). -/
def State.joinPlan (s : State) (spid id : Nat) (flows : List (Nat × Nat × Nat)) : State :=
  let old := ((s.proc? spid).bind (fun p => p.plans.find? (fun x => x.id == id))).elim [] (fun x => x.flows)
  let s := s.knowProc spid
  if old = flows then s
  else
  let s := (s.poolSlots old false).poolSlots flows true
  s.modProc spid (fun p => { p with plans := p.plans.filter (fun x => x.id != id) ++ (if flows.isEmpty then [] else [{ id, flows }]) })
/-- A process of another package, as its packets bring it: its page tables, its plans and the opened bundle (R73, R285, R363). -/
def State.joinProc (s : State) (m : RemotePacket) : State :=
  let h := headerOf m.bundle
  let sects := sectTable m.bundle h
  let b : Bundle := { bytes := m.bundle, sects, retimed := s.retimedKernels m.bundle h sects, images := [], digest := sliceOf m.bundle 0x40 32 }
  let s := s.knowProc m.spid
  let s := m.plans.foldl (fun t x => t.joinPlan m.spid x.1 x.2) s
  s.modProc m.spid (fun q => { q with ptes := m.ptes, bundles := Table.put q.bundles (fieldLE m.packet 0 4) b })
/-- MULTI_PACKAGE_PACKET (R73, R76): a packet of another package reserves its place, or finds the queue full. -/
def execMultiPackagePacket (s : State) : Host.Outcome State Fault Refusal :=
  match s.arg with
  | .packet m =>
    let s := s.joinProc m
    let pkt := { packetOf m.packet m.args with beatreq := some (beatEntries m.beats) }
    let tree := (((s.proc? m.spid).bind (fun p => Table.find? p.bundles pkt.bundle)).bind (fun b =>
      (pickTree b.sects pkt.tree).map (fun x => treeNodes (b.sectBytes x)))).getD []
    let pkgs := s.targets pkt.pkgmask
    let l : Launch :=
      { gen := m.gen, spid := m.spid, queue := m.queue % 64, pkt, tree, insts := m.insts, pkgs, st := .reserved, remote := true, origin := m.gen / 2 ^ 58
        heard := (List.zip (pkt.waits.map Prod.fst) m.counts).foldl (fun t x => Table.put t x.1 x.2) [], graph := m.graph
        release := some (m.sent + 2) }
    if 256 ≤ s.queueLoad l.queue then .next (s.sendAbort l 0x44 0)
    else .next { s with launches := s.launches ++ [l] }
  | _ => .next s

end Sys2Proof.Machine
end

