-- ==== Sys2Proof/Machine/Traps.lean ====
section
/-! DEFINITION. Trap windows and their delivery to the Headframe, the process's handler, KRESUME, and the release of a frozen stope (R387 to R398). -/

namespace Sys2Proof.Machine

/-! ### Trap windows (R390, R392) -/

/-- STATE of a trap window (R392). -/
def winFrozen : Nat := 0
def winResuming : Nat := 1
def winRefused : Nat := 2
def winFree : Nat := 3

/-- Trap window `w` of a die. -/
def State.win (s : State) (die w : Nat) : TrapWin := vget (vget s.dies die {}).windows w {}
/-- Put it. -/
def State.setWin (s : State) (die w : Nat) (x : TrapWin) : State :=
  let d := vget s.dies die {}
  { s with dies := vset s.dies die { d with windows := vset d.windows w x } }
/-- A window holds a stope that is neither resumed nor released (R390). -/
def TrapWin.waits (x : TrapWin) : Bool := x.st == winFrozen || x.st == winRefused
/-- Cause 24 is pending on a hart as long as a frozen window is (R390). -/
def State.windowPending (s : State) (h : Nat) : Bool :=
  (List.range 2).any (fun d => (List.range 16).any (fun w => (s.win d w).waits && (s.win d w).hart == h))
/-- Bring the pending bits of cause 24 in line with the windows. -/
def State.pendWindows (s : State) : State :=
  (List.range 16).foldl (fun t h =>
    t.modHart h (fun x =>
      if s.windowPending h then (if x.causes.contains 24 then x else { x with causes := x.causes ++ [24] })
      else { x with causes := x.causes.filter (fun c => c != 24) })) s
/-- The core that a window shows: the one CORESEL names, where it is a core of the stope (R392). A value that names no core index shows none
(log 47). -/
def TrapWin.shown (x : TrapWin) (die : Nat) (t : Stope) : Option Nat :=
  if x.coreSel < 512 && t.cores.contains (die * 512 + x.coreSel) then some (die * 512 + x.coreSel) else none
/-- Cores of a stope with a fault record (R392 NFAULT, FMAP). -/
def State.faulted (s : State) (t : Stope) : List Nat := t.cores.filter (fun c => (s.core c).fault.isSome)
/-- A window becomes free: the first stope of its die that waits takes it (R390; the order is the model's, log 27). -/
def State.freeWindow (s : State) (die w : Nat) : State :=
  let s := (s.setWin die w { st := winFree }).pendWindows
  match s.stopes.find? (fun t => t.die == die && t.waitWindow) with
  | some t => s.post s.now 3 none (.run .trapWindowDelivery (.nums [t.id]))
  | none => s

/-! ### What a window shows (R392 to R396) -/

/-- The header of a window, as the doubleword at an offset below 0x1000 (R392, R394). -/
def State.windowHead (s : State) (die w off : Nat) : Nat :=
  let x := s.win die w
  match x.stope.bind (fun id => s.stopes.find? (fun t => t.id == id)) with
  | none => if off = 8 then x.st * 256 else 0
  | some t =>
    let fs := s.faulted t
    if off = 0x000 then t.gen
    else if off = 0x008 then die + x.st * 2 ^ 8 + fs.length % 65536 * 2 ^ 16 + x.refCore * 2 ^ 32 + x.coreSel * 2 ^ 48
    else if off = 0x010 then t.localAt (512 * t.die) (t.frozen.getD s.now)
    else if off = 0x018 then t.fbeat
    else if off = 0x020 then t.foff
    else if 0x040 ≤ off ∧ off < 0x080 then
      ((fs.filter (fun c => c % 512 / 64 == (off - 0x040) / 8)).map (fun c => 2 ^ (c % 64))).sum
    else if 0x100 ≤ off ∧ off < 0x120 then
      match x.shown die t >>= fun c => (s.core c).fault with
      | some r =>
        if off = 0x100 then
          r.code + r.sub * 2 ^ 8 + r.source * 2 ^ 16 + r.count * 2 ^ 24 + (if r.ovf then 2 ^ 32 else 0) + if r.noresume then 2 ^ 33 else 0
        else if off = 0x108 then r.va.toNat
        else if off = 0x110 then r.kind + r.level * 2 ^ 8 + r.unit * 2 ^ 16 + r.number * 2 ^ 32
        else r.lcyc
      | none => 0
    else 0

/-- The image of a replay entry (R396). -/
def Replay.dword (e : Replay) (off : Nat) : Nat :=
  if off = 0x00 then
    1 + (if e.done then 2 else 0) + (if e.discard then 4 else 0) + (if e.held then 8 else 0) + e.code * 2 ^ 8 + e.sub * 2 ^ 16 + e.next * 2 ^ 32
  else if off = 0x08 then e.icyc
  else if off < 0x28 then bitsOf e.word.toNat (8 * (off - 0x10)) 64
  else if off = 0x28 then e.opa.toNat
  else if off = 0x30 then e.opb.toNat
  else if off = 0x38 then e.opc.toNat
  else if off < 0x60 then bitsOf e.lanes.toNat (8 * (off - 0x40)) 64
  else 0
/-- A doubleword of a replay queue. -/
def queueDword (l : List Replay) (off : Nat) : Nat := (l[off / 128]?).elim 0 (fun e => e.dword (off % 128))
/-- A doubleword of a queue of doublewords. -/
def wordsDword (q : Queue Word64) (off : Nat) : Nat := ((q.items.map Prod.snd).getD (off / 8) 0).toNat
/-- A doubleword of a queue of rows. -/
def rowsDword (q : Queue (List Byte)) (off : Nat) : Nat := fieldLE (((q.items.map Prod.snd).getD (off / 256) [])) (off % 256) 8
/-- A block queue entry as the doubleword a push gives: address, repeats, speculative bit and tag (R92, R193). -/
def entryDword (q : Queue BlkEntry) (i : Nat) : Nat :=
  ((q.items.map Prod.snd)[i]?).elim 0 (fun e => e.addr + e.left * 2 ^ 16 + (if e.spec then 2 ^ 32 else 0) + e.tag * 2 ^ 33)
/-- The local cycle at which a core's scalar stream issues its next word: its own, where no issue is due (R395). -/
def State.nextScalarCyc (s : State) (c : Nat) : Nat :=
  match s.stopeOf c, s.agenda.find? (fun e => e.forStream c .scalar) with
  | some t, some e => t.localAt c e.at_
  | _, _ => s.localCyc c
/-- The state block of a core, as the doubleword at an offset from 0x1000 on (R395). Where the rule names an area's contents and no places
within it (0x1200, 0x1300, 0x3C00), the model lays them out in the order named (log 28). -/
def State.blockDword (s : State) (c off : Nat) : Nat :=
  let k := s.core c
  if off < 0x1100 then (k.sval ((off - 0x1000) / 8)).toNat
  else if off < 0x1160 then
    let b := vget k.b ((off - 0x1100) / 8) {}
    b.target.toNat + (if b.prepared then 2 ^ 14 else 0) + if b.cond then 2 ^ 15 else 0
  else if 0x1200 ≤ off ∧ off < 0x1280 then
    let l := vget k.lp ((off - 0x1200) / 32) {}
    if off % 32 = 0 then l.count else if off % 32 = 8 then l.first else if off % 32 = 16 then l.last
    else (if l.active then 1 else 0) + (l.latchFirst.elim 0 (fun x => 2 + x * 2 ^ 16)) + l.latchLast.elim 0 (fun x => 4 + x * 2 ^ 32)
  else if 0x1300 ≤ off ∧ off < 0x1340 then
    [k.sc.next, s.nextScalarCyc c, entryDword k.bqv 0, k.ve.next, k.ve.sub, entryDword k.bqm 0, k.mx.next, k.mx.sub].getD ((off - 0x1300) / 8) 0
  else if 0x1400 ≤ off ∧ off < 0x1800 then ((s.special c ((off - 0x1400) / 8) 0).getD 0).toNat
  else if 0x1800 ≤ off ∧ off < 0x1840 then (k.areg ((off - 0x1800) / 8)).toNat
  else if 0x1840 ≤ off ∧ off < 0x1A40 then bitsOf (k.mval ((off - 0x1840) / 32)).toNat (8 * (off % 32)) 64
  else if 0x2000 ≤ off ∧ off < 0x2400 then queueDword k.sc.replay (off - 0x2000)
  else if 0x2400 ≤ off ∧ off < 0x2C00 then queueDword k.ve.replay (off - 0x2400)
  else if 0x2C00 ≤ off ∧ off < 0x2E00 then queueDword k.mx.replay (off - 0x2C00)
  else if 0x3000 ≤ off ∧ off < 0x3040 then wordsDword k.qs2v (off - 0x3000)
  else if 0x3040 ≤ off ∧ off < 0x3080 then wordsDword k.qv2s (off - 0x3040)
  else if 0x3080 ≤ off ∧ off < 0x3100 then wordsDword k.qs2m (off - 0x3080)
  else if off = 0x3100 then
    leNat ([k.qs2v.items.length, k.qv2s.items.length, k.qs2m.items.length, k.qv2m.items.length, k.qm2v.items.length, k.bqv.items.length,
      k.bqm.items.length].map (BitVec.ofNat 8))
  else if 0x3400 ≤ off ∧ off < 0x3800 then rowsDword k.qv2m (off - 0x3400)
  else if 0x3800 ≤ off ∧ off < 0x3C00 then rowsDword k.qm2v (off - 0x3800)
  else if 0x3C00 ≤ off ∧ off < 0x3C80 then entryDword k.bqv ((off - 0x3C00) / 8)
  else if 0x3C80 ≤ off ∧ off < 0x3D00 then entryDword k.bqm ((off - 0x3C80) / 8)
  else if 0x4000 ≤ off ∧ off < 0x5000 then
    match Table.find? k.act.tiles ((off - 0x4000) / 64) with
    | some e => fieldLE (spliceAt e.img 63 [BitVec.ofNat 8 ((if e.ready.isSome then 1 else 0) + if e.firing.isSome then 2 else 0)]) (off % 64) 8
    | none => 0
  else if 0x5000 ≤ off ∧ off < 0x5080 then
    let t := vget k.trig ((off - 0x5000) / 16) {}
    if !t.armed then 0 else if off % 16 = 0 then t.mask.toNat else t.action.toNat
  else if 0x5100 ≤ off ∧ off < 0x5900 then
    leNat ((List.range 4).flatMap (fun j =>
      let x := (off - 0x5100) / 2 + j
      leBytes 2 ((k.bars.find? (fun b => b.key.bar == x / 16 && b.key.depth == x % 16)).elim 0 (fun b => b.phase))))
  else 0
/-- The state whose register images a frozen core shows: every result due by F is in, as in the first released cycle (R395). -/
def State.heldIn (s : State) (c : Nat) : State :=
  match (s.stopeOf c).bind (fun t => t.frozen) with
  | none => s
  | some f =>
    (s.agenda.filter (fun e => e.hold == some c && e.at_ ≤ f)).foldl (fun u e =>
      match e.act with
      | .run .scalarResult (.sres r) => u.landScalar r.core r.place r.val r.stamp
      | .run .vectorResult (.vres r) =>
        match r.place with
        | .mask _ => u.landVector r
        | .areg _ => u.landVector r
        | _ => u.orVstat c r.flags
      | .run .globalResultReturn (.nums [id]) =>
        match u.greqs.find? (fun g => g.id == id && g.done && !g.poisoned) with
        | some g => u.returnValue g
        | none => u
      | _ => u) s
/-- What a read of a trap window finds at an offset that is a multiple of 8 (R392): a core of another stope reads as zeros. A register image
holds what the cycle's writes and the held results leave (R395). -/
def State.windowDword (s : State) (die w off : Nat) : Nat :=
  if off < 0x1000 then s.windowHead die w off
  else
    let x := s.win die w
    ((x.stope.bind (fun id => s.stopes.find? (fun t => t.id == id))).bind (x.shown die)).elim 0 (fun c => (s.commit.heldIn c).blockDword c off)

/-! ### Writes to a window (R393, R395, R396) -/

/-- The last doubleword written to an offset of a core's state block. -/
def TrapWin.written (x : TrapWin) (c off : Nat) : Option Word64 :=
  ((x.writes.filter (fun w => w.1 == c && w.2.1 == off)).getLast?).map (fun w => w.2.2)
/-- A write of a doubleword to a window: CORESEL, or the held state of the selected core; a core of another stope ignores it. -/
def State.writeWindow (s : State) (die w off : Nat) (v : Word64) : State :=
  let x := s.win die w
  if !x.waits then s
  else if off = 8 then s.setWin die w { x with coreSel := bitsOf v.toNat 48 16 }
  else if off < 0x1000 || off % 8 != 0 then s
  else
    match (x.stope.bind (fun id => s.stopes.find? (fun t => t.id == id))).bind (x.shown die) with
    | some c => s.setWin die w { x with writes := x.writes ++ [(c, off, v)] }
    | none => s

/-- 64 bits of a wider word replaced. -/
def putBits {n : Nat} (w : BitVec n) (lo : Nat) (v : Word64) : BitVec n :=
  let old := bitsOf w.toNat lo 64
  BitVec.ofNat n (w.toNat - old * 2 ^ lo + v.toNat * 2 ^ lo)
/-- What a handler may change of a replay entry (R396): WORD, OPA, OPB, OPC, NEXT, LANES, HELD, DISCARD. -/
def Replay.load (e : Replay) (off : Nat) (v : Word64) : Replay :=
  if off = 0x00 then { e with discard := e.discard || bitOf v.toNat 2, held := bitOf v.toNat 3, next := bitsOf v.toNat 32 16 }
  else if 0x10 ≤ off ∧ off < 0x28 then { e with word := putBits e.word (8 * (off - 0x10)) v }
  else if off = 0x28 then { e with opa := v }
  else if off = 0x30 then { e with opb := v }
  else if off = 0x38 then { e with opc := v }
  else if 0x40 ≤ off ∧ off < 0x60 then { e with lanes := putBits e.lanes (8 * (off - 0x40)) v }
  else e
/-- A written doubleword of a replay queue. -/
def loadQueue (l : List Replay) (off : Nat) (v : Word64) : List Replay := setAt l (off / 128) (fun e => e.load (off % 128) v)
/-- Special registers that a handler may write (R395). -/
def windowSregs : List Nat := [0x010, 0x011, 0x018, 0x019, 0x01A, 0x032, 0x033, 0x034, 0x035, 0x040, 0x041, 0x050]
/-- Load one written doubleword into its core at KRESUME; a write to any other field is ignored (R393, R395). -/
def Core.loadField (k : Core) (off : Nat) (v : Word64) : Core :=
  if off < 0x1100 then
    let r := (off - 0x1000) / 8
    if r = 0 then k else { k with s := vset k.s r { vget k.s r {} with val := v } }
  else if off < 0x1160 then
    let i := (off - 0x1100) / 8
    { k with b := vset k.b i { vget k.b i {} with target := v.setWidth 14, prepared := bitOf v.toNat 14, readyAt := 0, cond := bitOf v.toNat 15 } }
  else if 0x1400 ≤ off ∧ off < 0x1800 then
    if windowSregs.contains ((off - 0x1400) / 8) then { k with sr := k.sr.put ((off - 0x1400) / 8) v } else k
  else if 0x1800 ≤ off ∧ off < 0x1840 then
    let i := (off - 0x1800) / 8
    { k with ar := vset k.ar i { vget k.ar i {} with val := v } }
  else if 0x1840 ≤ off ∧ off < 0x1A40 then
    let i := (off - 0x1840) / 32
    if i = 0 then k else { k with m := vset k.m i { vget k.m i {} with val := putBits (vget k.m i {}).val (8 * (off % 32)) v } }
  else if 0x2000 ≤ off ∧ off < 0x2400 then { k with sc := { k.sc with replay := loadQueue k.sc.replay (off - 0x2000) v } }
  else if 0x2400 ≤ off ∧ off < 0x2C00 then { k with ve := { k.ve with replay := loadQueue k.ve.replay (off - 0x2400) v } }
  else if 0x2C00 ≤ off ∧ off < 0x2E00 then { k with mx := { k.mx with replay := loadQueue k.mx.replay (off - 0x2C00) v } }
  else k

/-! ### KRESUME (R397) -/

/-- Repeats or rows of a replay entry's word (R396): a BAR has two states. -/
def entryCount (strm : Strm) (w : Nat) : Nat :=
  match strm with
  | .vector => bitsOf w 70 6 + 1
  | .matrix =>
    match bitsOf w 184 8 with
    | 0x03 => bitsOf w 152 7 + 1
    | 0x04 => bitsOf w 156 7 + 1
    | 0x05 => bitsOf w 156 7 + 1
    | _ => 1
  | _ => if bitsOf w 26 6 = 0x30 && bitsOf w 18 2 == 0 then 2 else 1
/-- Bits of a stream's word. -/
def wordBits : Strm → Nat
  | .vector => 96
  | .matrix => 192
  | _ => 32
/-- An entry passes the test of KRESUME as its queue will stand: zero fields, a WORD of its own stream, NEXT within its count. -/
def TrapWin.entryOk (x : TrapWin) (c base : Nat) (strm : Strm) (j : Nat) (e : Replay) : Bool :=
  let at_ := fun (o : Nat) => x.written c (base + 128 * j + o)
  let e := (List.range 16).foldl (fun e i => (at_ (8 * i)).elim e (e.load (8 * i))) e
  (at_ 0).all (fun v => bitsOf v.toNat 4 4 == 0 && bitsOf v.toNat 24 8 == 0 && bitsOf v.toNat 48 16 == 0)
    && [0x60, 0x68, 0x70, 0x78].all (fun o => (at_ o).all (fun v => v == 0))
    && e.word.toNat < 2 ^ wordBits strm && e.next < entryCount strm e.word.toNat
/-- A written register value lies within its field (R165, R372). -/
def TrapWin.regsOk (x : TrapWin) (c : Nat) : Bool :=
  let sreg := fun (v : Nat) => x.written c (0x1400 + 8 * v)
  (sreg 0x010).all (fun v => v.toNat < 2 ^ 19) && (sreg 0x011).all (fun v => v.toNat < 2 ^ 19)
    && (sreg 0x050).all (fun v => v.toNat % 256 == 0 && (bitsOf v.toNat 57 7 == 0 || (bitsOf v.toNat 57 7 == 127 && bitOf v.toNat 56)))
/-- The first core with a fault record that forbids the resumption (R397). -/
def State.refusedAt (s : State) (t : Stope) (x : TrapWin) : Option Nat :=
  (s.faulted t).find? (fun c =>
    let k := s.core c
    let queue := fun (base : Nat) (strm : Strm) => !((List.range (k.strm strm).replay.length).zip (k.strm strm).replay).all (fun e => x.entryOk c base strm e.1 e.2)
    k.fault.any (fun r => r.noresume) || queue 0x2000 .scalar || queue 0x2400 .vector || queue 0x2C00 .matrix || !x.regsOk c)

/-- The rest of a copy is cancelled where DISCARD is set on the entry of its command (R396): the words from the one it holds at on. The words
before it perform, and the next descriptor starts after the last of them. -/
def State.cancelCopy (s : State) (c id : Nat) : State :=
  let k := s.core c
  match k.copy with
  | some x =>
    if x.desc.id == id && x.holding then
      let upto := x.holdAt.getD x.nextWord
      (s.setCore c { k with copy := some { x with holdAt := none, cut := some upto, nextWord := max x.nextWord upto
                                                  unsent := x.unsent.filter (fun w => w < upto)
                                                  parked := x.parked.filter (fun p => p.1 < upto) } }).copyPerformed c 0
    else s.setCore c { k with copyQ := k.copyQ.filter (fun d => d.id != id) }
  | none => s.setCore c { k with copyQ := k.copyQ.filter (fun d => d.id != id) }
/-- Cancel what discarded entries of a core still hold. -/
def State.applyDiscards (s : State) (c : Nat) : State :=
  ((s.core c).sc.replay.filter (fun e => e.discard)).foldl (fun t e => e.job.elim t (t.cancelCopy c)) s

/-- The first beat after the open one, in a walk of the table from its opening, that opens at or after `least` and stands at `want` mod 16;
`fuel` bounds the beats. -/
def State.beatFrom (s : State) (least want : Nat) : Nat → Nat → Nat → Nat × Nat
  | 0, n, at_ => (n, at_)
  | fuel + 1, n, at_ =>
    if least ≤ at_ && n % 16 == want then (n, at_)
    else s.beatFrom least want fuel ((n + 1) % beatMod) (at_ + (s.beatEnt n).len)
/-- The beat at which a stope frozen with `fbeat` open is released, and its opening (R397): 64 cycles after now at the earliest. Every beat
lasts 16 cycles or more, so that 24 beats are enough. -/
def State.releaseBeat (s : State) (fbeat : Nat) : Nat × Nat := s.beatFrom (s.now + 64) (fbeat % 16) 24 s.beat s.beatAt
/-- Schedule the release of a frozen stope (R397). -/
def State.scheduleRelease (s : State) (t : Stope) : State :=
  let b := s.releaseBeat t.fbeat
  let r := b.2 + t.foff
  (s.modStope t.id (fun t => { t with relShift := r - t.frozen.getD r, relBeats := (b.1 + beatMod - t.fbeat) % beatMod })).post r 0 none
    (.run .release (.nums [t.id]))
/-- KRESUME on a window (R397): refused, or its written fields loaded and the release scheduled. A refused window may be resumed again. -/
def State.resumeWindow (s : State) (die w : Nat) : State :=
  let x := s.win die w
  match x.stope.bind (fun id => s.stopes.find? (fun t => t.id == id)) with
  | none => s
  | some t =>
    if !x.waits then s
    else
      match s.refusedAt t x with
      | some c => (s.setWin die w { x with st := winRefused, refCore := c % 512 }).pendWindows
      | none =>
        let s := x.writes.foldl (fun u y => u.modCore y.1 (fun k => k.loadField y.2.1 y.2.2)) s
        let s := t.cores.foldl State.applyDiscards s
        ((s.setWin die w { x with st := winResuming, writes := [] }).pendWindows).scheduleRelease t
/-- The window whose base is an address. -/
def windowAt (a : Word64) : Option (Nat × Nat) :=
  ((List.range 2).flatMap (fun d => (List.range 16).map (fun w => (d, w)))).find? (fun x => Config.trapWindowBase x.1 x.2 == a)
/-- A hart's instruction retires. -/
def State.hartNext (s : State) : State := s.modHart s.curHart (fun x => { x with pc := x.pc + 4 })
/-- KRESUME (R139, R397). -/
def execKresume (rs1 : BitVec 5) (s : State) : Host.Outcome State Fault Refusal :=
  hartWord s (fun s =>
    match windowAt ((s.hart s.curHart).reg rs1.toNat) with
    | some x => s.hartNext.resumeWindow x.1 x.2
    | none => s.hartNext)

/-! ### Release (R397, R398) -/

/-- A request re-stamped by D (R397). -/
def BankReq.shift (r : BankReq) (d : Nat) : BankReq := { r with beat := (r.beat + d) % beatMod }
/-- Banks of a core: the withdrawn requests and suspended programs of a stope's cores re-stamped. -/
def Core.restamp (k : Core) (mine : Nat → Bool) (d : Nat) : Core :=
  let mv := fun (r : BankReq) => if mine r.core then r.shift d else r
  { k with arriving := k.arriving.map mv
           banks := k.banks.map (fun b => { b with queue := b.queue.map mv, waits := b.waits.map mv, engine := b.engine.map (fun e => { e with req := mv e.req }) }) }
/-- The requests that a core's stope withdrew stand in the bank queues again, re-stamped (R397). -/
def State.giveBack (s : State) (d c : Nat) : State :=
  (s.core c).withheld.foldl (fun t x => t.modBank x.1 x.2.bank (fun b => { b with queue := b.queue ++ [x.2.shift d] }))
    (s.modCore c (fun k => { k with withheld := [] }))
/-- What a core keeps by the origin clock moves with its counter, and BT by D; a prepared target counts as prepared 4 cycles earlier (R395). -/
def Core.shiftTimes (k : Core) (f shift d : Nat) : Core :=
  let mv := fun (t : Nat) => if f < t then t + shift else t
  { k with bt := (k.bt + d) % beatMod
           b := k.b.map (fun x => { x with readyAt := 0 })
           sc := { k.sc with busyTo := mv k.sc.busyTo }, ve := { k.ve with busyTo := mv k.ve.busyTo }, mx := { k.mx with busyTo := mv k.mx.busyTo }
           copyQ := k.copyQ.map (fun x => { x with beat := (x.beat + d) % beatMod })
           copy := k.copy.map (fun x => { x with start := x.start + shift, desc := { x.desc with beat := (x.desc.beat + d) % beatMod } })
           copyFree := mv k.copyFree, banks := k.banks.map (fun b => { b with status := b.status.map (fun e => (mv e.1, e.2)) }) }
/-- A stream with replay entries issues them from the first released cycle on (R398). A re-injected word that the freeze met in mid-issue
goes on from its next repeat or row; a word of the stream's own place that stood in mid-issue without an entry, or stalled with a format word it has
popped (R237), follows them. A scalar stream that waits at an anchor point goes on waiting there (R100). -/
def State.startReplay (s : State) (c : Nat) (strm : Strm) : State :=
  let st := (s.core c).strm strm
  if st.replay.isEmpty then s
  else
    let own := (s.core c).entryOf strm
    let queue := match st.ovr, st.replay with
      | some o, e :: rest => if st.sub != e.next || st.fw.isSome then { own with own := o.own, job := e.job } :: rest else st.replay
      | _, l => if (st.sub != 0 || st.fw.isSome) && !l.any (fun e => e.own) then l ++ [{ own with own := true }] else l
    let s := s.cancel (fun e => e.forStream c strm)
    let queue := queue.mapIdx (fun j e => { e with place := s.now + j, final := j + 1 == queue.length, stamp := none })
    (s.modStrm c strm (fun st => { st with sub := 0, stall := false, arrived := false, ovr := none, replay := queue, goAt := 0 })).postIssue c
      strm s.now
/-- The release of a stope in origin cycle R (R397, R398): held effects, and everything that counts by the stope's cycles or beats, moves on by
R − F and by D; the replay queues start. -/
def State.releaseStope (s : State) (t : Stope) : State :=
  let f := t.frozen.getD s.now
  let mine := fun (c : Nat) => t.cores.contains c
  let moved := s.agenda.map (fun e => if e.hold.any mine then { e with at_ := e.at_ + t.relShift } else e)
  let s : State :=
    { s with agenda := moved.foldl (fun l e => insertEvent e l) []
             joins := s.joins.map (fun j => if mine j.core && f < j.due then { j with due := j.due + t.relShift } else j)
             dsops := s.dsops.map (fun o => if mine o.core && f < o.due then { o with due := o.due + t.relShift } else o)
             cores := s.cores.map (fun e => (e.1, e.2.restamp mine t.relBeats)) }
  let s := s.modStope t.id (fun t => { t with frozen := none, stalled := t.stalled + t.relShift, window := none, waitWindow := false, relShift := 0, relBeats := 0 })
  let s := t.cores.foldl (fun u c => u.modCore c (fun k => { k.shiftTimes f t.relShift t.relBeats with fault := none, acks := [] })) s
  let s := t.cores.foldl (fun u c => u.giveBack t.relBeats c) s
  let s := t.cores.foldl (fun u c => [Strm.scalar, .vector, .matrix].foldl (fun v k => v.startReplay c k) u) s
  match t.window with
  | some w => s.freeWindow t.die w
  | none => s
/-- RELEASE (R397). -/
def execRelease (s : State) : Host.Outcome State Fault Refusal :=
  match s.arg with
  | .nums [id] =>
    match s.stopes.find? (fun t => t.id == id) with
    | some t => .next (if t.frozen.isSome then s.releaseStope t else s)
    | none => .next s
  | _ => .next s

/-! ### Delivery and the handler (R390, R391) -/

/-- The kernel ends a launch: it is pre-empted and reported with a result (R408). -/
def State.endLaunch (s : State) (gen result code entry : Nat) : State :=
  ((s.setResult gen result code entry s.pkg).modLaunch gen (fun l => { l with cancelled := true })).post s.now 3 none (.run .preemption (.nums [gen]))
/-- A fault that the kernel handles itself (R390): a page fault on a page that it can map, which is one that the process's tables map now, or an
access that was refused because its page is under migration (R297, log 48). -/
def State.kernelTakes (s : State) (spid code sub kind : Nat) (va : Word64) : Bool :=
  (code == 0x12 || (code == 4 && sub == 6 && va != 0)) && (s.walkPa spid va.toNat (kindWrites kind)).isSome
/-- The codes of a core's faults that the kernel does not handle itself (R390): its record's, and those of its replay entries. Where the record
counts more faults than the entries hold, the ones not held count under the record's code. -/
def State.unresolved (s : State) (spid c : Nat) : List Nat :=
  let k := s.core c
  let es := k.sc.replay ++ k.ve.replay ++ k.mx.replay
  match k.fault with
  | none => []
  | some r =>
    (if s.kernelTakes spid r.code r.sub r.kind r.va && r.count == es.length then [] else [r.code])
      ++ (es.filter (fun e => !s.kernelTakes spid e.code e.sub e.kind e.va)).map (fun e => e.code)
/-- A page that a core's faults wait for is still frozen by the final pass of its migration (R297). -/
def State.waitsForPage (s : State) (spid c : Nat) : Bool :=
  let k := s.core c
  (k.sc.replay ++ k.ve.replay ++ k.mx.replay).any (fun e => e.code == 4 && (s.walkPa spid e.va.toNat false).any s.pageFrozen)
/-- A hart runs a process's handler. -/
def State.handlerBusy (s : State) (spid : Nat) : Bool := s.harts.toList.any (fun x => x.handling.isSome && x.spid == some spid)
/-- A window is being handled. -/
def State.inHandler (s : State) (die w : Nat) : Bool := s.harts.toList.any (fun x => x.handling == some (die, w))
/-- The hart a handler runs on: the launch's own, or else the first that runs no handler (log 29). -/
def State.handlerHart (s : State) (h : Nat) : Option Nat :=
  if (s.hart h).handling.isNone then some h else (List.range 16).find? (fun x => (s.hart x).handling.isNone)
/-- Run the handler on a hart for a window (R391); the thread it displaces is kept. -/
def State.startHandler (s : State) (h die w gen : Nat) (p : Proc) : State :=
  s.modHart h (fun x =>
    let y := (({ x with handling := some (die, w), under := some { x := x.x, pc := x.pc, f := x.f, mode := x.mode, spid := x.spid, blocked := x.blocked, fcsr := x.csr 3 }
                        pc := BitVec.ofNat 64 p.handler, mode := 0, spid := some p.spid, running := true, blocked := false } : Hart).setReg 10
      (BitVec.ofNat 64 p.handlerWin)).setReg 11 (BitVec.ofNat 64 gen)
    y.setReg 1 Config.returnStub)
/-- The kernel serves a frozen window (R390, R391): it resolves the fault itself, runs the handler, or ends the launch with result 2. -/
def State.serveWindow (s : State) (die w : Nat) : State :=
  let x := s.win die w
  match x.stope.bind (fun id => s.stopes.find? (fun t => t.id == id)) with
  | none => s
  | some t =>
    match s.launch? t.gen with
    | none => s
    | some l =>
      if !x.waits || l.cancelled || s.inHandler die w then s
      else
        let cs := s.faulted t
        let p := (s.proc? l.spid).getD { spid := l.spid }
        let codes := cs.flatMap (s.unresolved l.spid)
        if x.st = winFrozen && codes.isEmpty then if cs.any (s.waitsForPage l.spid) then s else s.resumeWindow die w
        else
          match codes.find? (fun code => p.handler == 0 || !bitOf p.handlerMask.toNat code) with
          | some code => s.endLaunch l.gen 2 code 0
          | none =>
            if s.handlerBusy l.spid then s
            else
              match s.handlerHart x.hart with
              | some h => s.startHandler h die w l.gen p
              | none => s
/-- TRAP_WINDOW_DELIVERY (R390): the stope takes a free window of its die and cause 24 is raised, or it waits for one. -/
def execTrapWindowDelivery (s : State) : Host.Outcome State Fault Refusal :=
  match s.arg with
  | .nums [id] =>
    match s.stopes.find? (fun t => t.id == id) with
    | some t =>
      if t.frozen.isNone || t.window.isSome || !(s.launch? t.gen).any (fun l => l.st == .running) then .next s
      else
        match (List.range 16).find? (fun w => (s.win t.die w).st == winFree) with
        | some w =>
          let x : TrapWin := { st := winFrozen, stope := some id, hart := Config.launchHart t.gen % 16 }
          let s := (s.setWin t.die w x).modStope id (fun t => { t with window := some w, waitWindow := false })
          .next (s.pendWindows.serveWindow t.die w)
        | none => .next (s.modStope id (fun t => { t with waitWindow := true }))
    | none => .next s
  | _ => .next s
/-- Serve the windows that wait for a handler. -/
def State.serveAll (s : State) : State :=
  ((List.range 2).flatMap (fun d => (List.range 16).map (fun w => (d, w)))).foldl (fun t x => t.serveWindow x.1 x.2) s
/-- A hart that ran a handler goes back to the thread it displaced. -/
def Hart.resumeThread (x : Hart) : Hart :=
  match x.under with
  | some u => { x with handling := none, under := none, x := u.x, f := u.f, pc := u.pc, mode := u.mode, spid := u.spid, blocked := u.blocked, running := u.spid.isSome, csrs := Table.put x.csrs 3 u.fcsr }
  | none => { x with handling := none }
/-- HANDLER_RETURN (R391): 0 resumes the window, and a refusal runs the handler again; any other value ends the launch with result 2. -/
def execHandlerReturn (s : State) : Host.Outcome State Fault Refusal :=
  match s.arg with
  | .word [die, w] v =>
    match (List.range 16).find? (fun h => (s.hart h).handling == some (die, w)) with
    | some h =>
      let s := s.modHart h Hart.resumeThread
      let t := (s.win die w).stope.bind (fun id => s.stopes.find? (fun t => t.id == id))
      let code := ((t.map (fun t => (s.faulted t).filterMap (fun c => (s.core c).fault))).getD []).head?.elim 0 (fun r => r.code)
      let s := if v = 0 then s.resumeWindow die w else t.elim s (fun t => s.endLaunch t.gen 2 code 0)
      .next s.serveAll
    | none => .next s
  | _ => .next s

end Sys2Proof.Machine
end

