-- ==== Sys2Proof/Machine/SaveArea.lean ====
section
/-! DEFINITION. The save area of a pre-empted launch: the image of a core that the context-save engine writes into LPDDR, with its state block, its held results and its evicted banks (R395, R401, R402, R404). -/

namespace Sys2Proof.Machine

/-! ### The area (R402, R404) -/

/-- Offsets within a core's save area (R401, R402, R404). -/
def saveC : Nat := 0x060000
def saveS : Nat := 0x160000
def saveBlock : Nat := 0x170000
def saveBanks : Nat := 0x180000
def saveHeld : Nat := 0x980000

/-- Bytes as cells from an offset on. -/
def cellsOf (base : Nat) (l : List Byte) : Memory := (l.mapIdx (fun i b => (base + i, b))).filter (fun c => c.2 != Memory.blank)
/-- A space's cells moved to an offset of the area. -/
def Memory.movedTo (m : Memory) (off : Nat) : Memory := m.map (fun c => (c.1 + off, c.2))

/-! ### Held results (R401) -/

/-- One record of the held-result area (R401): KIND 1 to 8, the producing unit, the target and the bytes; `stamp` is the issue order of the
producing word. -/
structure HeldRec where
  due : Nat
  icyc : Nat
  kind : Nat
  source : Nat
  target : Nat
  data : List Byte
  stamp : Nat
  deriving DecidableEq, Repr

/-- The record's bytes. -/
def HeldRec.bytes (r : HeldRec) : List Byte :=
  let n := r.data.length
  leBytes 8 r.due ++ leBytes 8 r.icyc ++ leBytes 1 r.kind ++ leBytes 1 r.source ++ leBytes 2 r.target ++ leBytes 4 n ++ List.replicate 8 0
    ++ r.data ++ List.replicate (32 * cdiv n 32 - n) 0
/-- A record finds its place: ascending due cycles, and within one the order of issue (R401). -/
def HeldRec.insert (r : HeldRec) : List HeldRec → List HeldRec
  | [] => [r]
  | x :: l => if r.due < x.due || (r.due == x.due && decide (r.stamp < x.stamp)) then r :: x :: l else x :: r.insert l
/-- A row as a held result will leave it: bytes replaced where they are selected (R209). -/
def mergedRow (old data : List Byte) (off : Nat) (sel : List Bool) : List Byte :=
  (List.range old.length).map (fun i =>
    if off ≤ i && decide (i < off + data.length) && (sel.isEmpty || sel.getD (i - off) false) then data.getD (i - off) 0 else old.getD i 0)
/-- The flags of a held result: KIND 8, by the flag register's selector (R203, R401). -/
def flagRec (due icyc source sel flags stamp : Nat) : List HeldRec :=
  if flags = 0 then [] else [{ due, icyc, kind := 8, source, target := sel, data := leBytes 8 flags, stamp }]
/-- A held row load (R317). -/
def State.joinRec (s : State) (due id : Nat) : List HeldRec :=
  match s.joins.find? (fun j => j.id == id) with
  | none => []
  | some j =>
    let r : HeldRec := { due, icyc := j.entry.icyc, kind := 3, source := 1, target := j.row, data := [], stamp := j.stamp }
    if j.poisoned then []
    else if j.row = codeQV2S then [{ r with kind := 7, target := 1, data := qv2sValue j.ty (j.merged s.freeRow) }]
    else if j.row = codeQV2M then [{ r with kind := 7, target := 3, data := j.merged zeroRow }]
    else [{ r with data := j.merged (s.aBytes j.core (256 * j.row) 256) }]
/-- A held result of a global request (R170, R228). -/
def State.requestRec (s : State) (due id : Nat) : List HeldRec :=
  match s.greqs.find? (fun g => g.id == id && g.done && !g.poisoned) with
  | none => []
  | some g =>
    let r : HeldRec := { due, icyc := g.entry.icyc, kind := 1, source := g.src, target := 0, data := [], stamp := g.stamp }
    match g.job with
    | .load rd _ signed => [{ r with target := rd.toNat, data := leBytes 8 (extendBytes signed g.val).toNat }]
    | .amo _ _ _ rd => [{ r with target := rd.toNat, data := leBytes 8 (extendBytes true g.val).toNat }]
    | .cas _ _ _ rd => [{ r with target := rd.toNat, data := leBytes 8 (extendBytes true g.val).toNat }]
    | .vmpos m => [{ r with kind := 4, target := m.toNat, data := (g.val ++ List.replicate 32 0).take 32 }]
    | _ => []
/-- The records of one held entry of the agenda. -/
def State.heldRecs (s : State) (due : Nat) : Act → List HeldRec
  | .run .scalarResult (.sres r) =>
    match r.place with
    | .reg d => [{ due, icyc := r.icyc, kind := 1, source := 0, target := d.toNat, data := leBytes 8 r.val.toNat, stamp := r.stamp }]
    | .cond b => [{ due, icyc := r.icyc, kind := 2, source := 0, target := b.toNat, data := leBytes 1 (r.val.toNat % 2), stamp := r.stamp }]
  | .run .vectorResult (.vres r) =>
    let x : HeldRec := { due, icyc := r.icyc, kind := 3, source := 1, target := 0, data := r.data, stamp := r.stamp }
    (match r.place with
      | .row n => [{ x with target := n, data := mergedRow (s.aBytes r.core (256 * n) 256) r.data 0 r.sel }]
      | .crow addr => [{ x with kind := 6, target := addr / 512, data := mergedRow (s.cBytes r.core (addr / 512 * 512) 512) r.data (addr % 512) r.sel }]
      | .mask m => [{ x with kind := 4, target := m.toNat, data := (r.data ++ List.replicate 32 0).take 32 }]
      | .areg a => [{ x with kind := 5, target := a.toNat, data := leBytes 8 (leNat r.data) }]
      | .qv2s => [{ x with kind := 7, target := 1, data := leBytes 8 (leNat r.data) }]
      | .qv2m => [{ x with kind := 7, target := 3 }]
      | .flags => []) ++ flagRec due r.icyc 1 0x021 r.flags r.stamp
  | .run .vectorResult (.nums [id]) => s.joinRec due id
  | .run .globalResultReturn (.nums [id, 1]) => s.joinRec due id
  | .run .globalResultReturn (.nums [id]) => s.requestRec due id
  | .run .matrixRowWrite (.mrow r) =>
    let old := s.cBytes r.core (65536 * r.tile + 512 * r.row) 512
    let vs := (List.zip (elemsOf 32 old) r.vals).mapIdx (fun n x => if r.acc then accumulate r.isInt (n < r.cols) x.1 x.2.toNat else (x.2.toNat, 0))
    { due, icyc := r.of_.icyc, kind := 6, source := 2, target := 128 * r.tile + r.row, data := packElems 32 (vs.map Prod.fst), stamp := r.of_.stamp }
      :: flagRec due r.of_.icyc 2 0x022 (vs.foldl (fun a v => a ||| v.2) r.flags) r.of_.stamp
  | .run .drainDelivery (.drow d) =>
    let x : HeldRec := { due, icyc := d.of_.icyc, kind := 3, source := 2, target := 0, data := [], stamp := d.of_.stamp }
    (if d.dest = 0 then d.pieces.mapIdx (fun i p => { x with target := d.arow + i, data := p })
     else if d.dest = 1 then d.pieces.map (fun p => { x with kind := 7, target := 4, data := p })
     else []) ++ flagRec due d.of_.icyc 2 0x022 d.flags d.of_.stamp
  | _ => []
/-- The held-result area of a core (R401): every result its units hold. -/
def State.heldArea (s : State) (t : Stope) (c : Nat) : List Byte :=
  ((((s.agenda.filter (fun e => e.hold == some c)).flatMap (fun e => s.heldRecs (t.localAt c e.at_) e.act)).foldl (fun l r => r.insert l) []).flatMap HeldRec.bytes).take 0x40000

/-! ### The state block (R395, R402) -/

/-- The descriptor of a stationary plane of the launch: state, W address, source core, K, N and W type. -/
def ArrPlane.saveWords (p : ArrPlane) (gen : Nat) : List Nat := if p.gen = gen then [p.st, p.wAddr, p.src, p.k, p.n, p.wt] else [0, 0, 0, 0, 0, 0]
/-- The accept record of the descriptor that DSCTX names (R370, R372): ABASE to CSEQ. -/
def State.acceptRecord (s : State) (c : Nat) : List Byte :=
  match s.walkPa (s.core c).bnd.spid (((s.special c 0x050 0).getD 0).toNat + 0x78) false with
  | some pa => s.memLoad pa 32
  | none => []
/-- Bytes 0x000 to 0xFFF of a saved state block (R402): GEN, PHYS, FCYC, FBEAT and FOFF, the active overlay, the lease, both planes and the accept
record. R402 names them and no places but a trap window's (log 145). -/
def State.saveHead (s : State) (t : Stope) (c : Nat) : List Byte :=
  let q := s.quad (quadOf c)
  let lease := if q.holder = some (quadIndex c) then [1, q.left] else [0, 0]
  let words := [t.gen, ((s.special c 0x001 0).getD 0).toNat, t.localAt (512 * t.die) (t.frozen.getD s.now), t.fbeat, t.foff, (s.core c).act.ovl.getD 0] ++ lease
    ++ q.act.saveWords t.gen ++ q.shd.saveWords t.gen
  words.flatMap (leBytes 8) ++ s.acceptRecord c
/-- A core's state block as it is saved (R395, R402). -/
def State.saveBlockBytes (s : State) (t : Stope) (c : Nat) : Memory :=
  cellsOf 0 (s.saveHead t c) ++ (List.range 2336).flatMap (fun i => cellsOf (0x1000 + 8 * i) (leBytes 8 (s.blockDword c (0x1000 + 8 * i))))
/-- What the save engine writes of a core (R402): its spaces, the state block and the held results. -/
def State.saveImage (s : State) (t : Stope) (c : Nat) : Memory :=
  let k := s.core c
  k.a ++ k.c.movedTo saveC ++ k.sm.movedTo saveS ++ (s.heldIn c |>.saveBlockBytes t c).movedTo saveBlock ++ cellsOf saveHeld (s.heldArea t c)
/-- Write a core's image into a save area of its own on its die (R402). Where the kernel finds no place, the save has none (log 145). -/
def State.writeArea (s : State) (t : Stope) (c : Nat) : State × Option Nat :=
  match s.placePhys saveLen page64K s.pkg t.die with
  | some pa => (({ s with free := s.free + 2 } : State).memPut pa saveLen (s.saveImage t c), some pa)
  | none => (s, none)
/-- The evicted banks of a core go to their place in its save area (R404). -/
def State.writeEvicted (s : State) (area : Option Nat) (seam : Memory) : State :=
  match area with
  | some pa => s.memPut (pa + saveBanks) 0x800000 seam
  | none => s

end Sys2Proof.Machine
end

