-- ==== Sys2Proof/Machine/Preempt.lean ====
section
/-! DEFINITION. How a launch leaves its cores: acknowledgements of the engines, context save and its area, unbinding, retirement, failures after queueing, and the reports to the submitting package (R22, R76, R77, R399 to R404, R408, R409). -/

namespace Sys2Proof.Machine

/-! ### Engines that have stopped (R388, R400) -/

/-- The entry is a copy word's step of a core. -/
def Event.copyOf (e : Event) (c : Nat) (hand : Bool) : Bool :=
  match e.act with
  | .run .copyWord (.copy x _ leg) => x == c && (hand || leg != .hand)
  | _ => false
/-- The entry is a step of a firing of a core. -/
def Event.fireOf (e : Event) (c : Nat) : Bool :=
  match e.act with
  | .run .entryFire (.nums (x :: _)) => x == c && e.hold.isNone
  | .run .entryFire (.piece p) => p.src == c
  | .run .combineWrite (.piece p) => p.src == c
  | .run .firingComplete (.nums (x :: _)) => x == c
  | .run .firingComplete (.piece p) => p.src == c
  | _ => false
/-- An engine class of a core has reached the point at which it acknowledges (R400): 0 scalar and vector, 1 matrix, 2 copy, 3 bank engines and
lode, 4 collective (a firing with pieces that wait for contributions stands at its boundary: what it lacks may never come, R357, R388), 5 stream
unit. An unresolved speculative tag is waited for; one whose resolution is queued behind a command that stands between two rows counts as resolved,
for that command's boundary comes after release (log 31). -/
def State.engineQuiet (s : State) (c cls : Nat) : Bool :=
  let k := s.core c
  match cls with
  | 0 => k.specTags.all (fun t => k.mx.sub != 0 && k.resolve.any (fun r => r.2 == t))
  | 1 => k.mx.busyTo ≤ s.now
  | 2 => !s.agenda.any (fun e => e.hold.isNone && e.copyOf c false) && !s.greqs.any (fun g => g.core == c && g.src == 3)
  | 3 => match s.stopeOf c with | some t => (s.coreBeat c).1 != s.beatAtF t c | none => true
  | 4 => !s.agenda.any (fun e => e.fireOf c) && !s.greqs.any (fun g => g.core == c && g.src == 6)
      && k.fires.all (fun f => f.at_ == 0 || f.handed || !f.own.isEmpty)
  | _ => !s.dsops.any (fun o => o.core == c)
/-- Classes of engines. -/
def engineClasses : List Nat := [0, 1, 2, 3, 4, 5]

/-- The stopes of a launch. -/
def State.stopesOf (s : State) (gen : Nat) : List Stope := s.stopes.filter (fun t => t.gen == gen)
/-- A stope's trap window becomes free without a release (R390). -/
def State.dropWindow (s : State) (t : Stope) : State :=
  let s := s.modStope t.id (fun t => { t with window := none, waitWindow := false })
  match t.window with
  | some w => s.freeWindow t.die w
  | none => s

/-! ### Unbinding -/

/-- What a request becomes whose core has been taken away: it still performs, and its result goes nowhere (R408). -/
def GReq.orphan (g : GReq) : GReq :=
  { g with core := 1024
           job := match g.job with
             | .amo op size b _ => .amo op size b 0
             | .cas size b x _ => .cas size b x 0
             | j => j }
/-- A request that has no effect beyond its core. -/
def GJob.onlyReads : GJob → Bool
  | .load _ _ _ => true
  | .rowLoad _ _ => true
  | .vmpos _ => true
  | .waitm => true
  | .copyRead _ _ => true
  | _ => false
/-- A core that nothing is bound to: its banks, tags, access table and TLBs stay (R261, R291). -/
def Core.unbound (k : Core) : Core :=
  { lastProc := k.lastProc, seam := k.seam, tags := k.tags, acc := k.acc
    poison := k.poison.filter (fun p => p.1 == 3), upsets := k.upsets.filter (fun p => p.1 == 3)
    tlb := k.tlb, ctlb := k.ctlb }
/-- Part of a launch in an array: its planes and its cores' place (R235). -/
def Quad.without (q : Quad) (gen : Nat) (idx : List Nat) : Quad :=
  let held := q.holder.any (fun i => idx.contains i)
  { q with act := if q.act.gen = gen then {} else q.act, shd := if q.shd.gen = gen then {} else q.shd
           holder := if held then none else q.holder, left := if held then 0 else q.left, last := if held then q.holder.getD q.last else q.last
           reqs := q.reqs.filter (fun r => !idx.contains r.1) }
/-- Take the cores of a stope away: nothing that was on its way to them is left. -/
def State.unbindStope (s : State) (t : Stope) : State :=
  let mine := fun (c : Nat) => t.cores.contains c
  let s := s.dropWindow t
  let s := s.cancel (fun e => e.hold.any mine || t.cores.any (fun c => e.copyOf c true || e.fireOf c))
  let s : State :=
    { s with stopes := s.stopes.filter (fun x => x.id != t.id), joins := s.joins.filter (fun j => !mine j.core), walks := s.walks.filter (fun w => !mine w.core)
             dsops := s.dsops.filter (fun o => !mine o.core)
             greqs := (s.greqs.filter (fun g => !(mine g.core && (g.done || g.job.onlyReads)))).map (fun g => if mine g.core then g.orphan else g)
             cores := s.cores.map (fun e => (e.1, { e.2 with arriving := e.2.arriving.filter (fun r => !mine r.core)
                                                             banks := e.2.banks.map (fun b => { b with queue := b.queue.filter (fun r => !mine r.core) }) })) }
  let s := ((t.cores.map quadOf).dedup).foldl (fun u q =>
    let x := u.quad q
    let y := x.without t.gen ((t.cores.filter (fun c => quadOf c == q)).map quadIndex)
    let u := u.setQuad q y
    if x.holder.isSome && y.holder.isNone then u.postGrant q (u.now + 1) else u) s
  t.cores.foldl (fun u c => u.modCore c Core.unbound) s
/-- With no launch bound the default table governs from the next opening of a beat that is 0 mod 16 (R39). -/
def State.idleTable (s : State) : State := if s.stopes.isEmpty then { s with beatNext := some defaultTable } else s
/-- The loader forgets a launch: the job under way ends without effect. -/
def State.dropLoads (s : State) (gen : Nat) : State :=
  { s with dies := s.dies.map (fun d =>
      { d with loads := (if d.loading then d.loads.take 1 else []) ++ ((if d.loading then d.loads.drop 1 else d.loads).filter (fun j => j.1 != gen)) }) }
/-- The locked TLB entries of a launch are released (R291, R408). -/
def State.unlock (s : State) (gen : Nat) : State :=
  let keep := fun (e : TlbEntry) => !(e.locked && e.owner == gen)
  { s with cores := s.cores.map (fun c => (c.1, { c.2 with tlb := c.2.tlb.filter keep, ctlb := c.2.ctlb.filter keep })) }
/-- A launch holds nothing on this package any more. -/
def State.release (s : State) (gen : Nat) : State :=
  let s := ((s.stopesOf gen).foldl State.unbindStope s).unlock gen
  let s : State := { s with barriers := s.barriers.filter (fun b => b.key.gen != gen), latched := if s.latched = some gen then none else s.latched
                            reserving := if s.reserving = some gen then none else s.reserving
                            queues := s.queues.map (fun q => q.filter (fun g => g != gen)) }
  ((s.modLaunch gen (fun l => { l with charge := 0, saved := [], savedStopes := [], savedReqs := [], savedJoins := [], savedQuads := []
                                       saveLeft := [] })).dropLoads gen).idleTable

/-! ### Reports and failures (R57, R62, R76, R77, R409) -/

/-- A package's report stands at the submitting package, with the package that failed first by what the reporter knows (R76); with the last, the
launch completes (R77, R409). -/
def State.noteReport (s : State) (gen pkg result code entry failed : Nat) : State :=
  let s := s.modLaunch gen (fun l => { l with reports := if l.reports.contains pkg then l.reports else l.reports ++ [pkg] })
  let s := if result = 0 then s else s.setResult gen result code entry failed
  match s.launch? gen with
  | some l => if l.parts.all (fun p => l.reports.contains p) then s.postComplete gen else s
  | none => s
/-- This package's part of a launch has ended: it is reported (R77). -/
def State.report (s : State) (gen : Nat) : State :=
  match s.launch? gen with
  | some l =>
    if l.origin = s.pkg then (s.modLaunch gen (fun l => { l with st := .retired })).noteReport gen s.pkg l.result l.code l.entry l.pkgAt
    else (s.modLaunch gen (fun l => { l with st := .complete })).send l.origin (.report gen s.pkg l.result l.code l.entry l.pkgAt)
  | none => s
/-- RETIREMENT_REPORT (R77). -/
def execRetirementReport (s : State) : Host.Outcome State Fault Refusal :=
  match s.arg with
  | .nums [gen, pkg, result, code, entry, failed] => .next (s.noteReport gen pkg result code entry failed)
  | _ => .next s
/-- A launch ends here before it has started: its units and its place are released (R76). A package that has not submitted it says so, which its
submitter counts where it has itself started (log 24). -/
def State.dropLaunch (s : State) (gen result code entry pkg : Nat) : State :=
  let s := (s.setResult gen result code entry pkg).release gen
  match s.launch? gen with
  | some l => if l.origin = s.pkg then (s.modLaunch gen (fun l => { l with st := .retired })).postComplete gen
              else (s.modLaunch gen (fun l => { l with st := .complete })).send l.origin (.report gen s.pkg l.result l.code l.entry l.pkgAt)
  | none => s
/-- A launch that has not started fails here (R62, R76): ABORT to the other packages of a replicated launch, and result 1. -/
def State.failLaunch (s : State) (gen code entry : Nat) : State :=
  match s.launch? gen with
  | some l => (s.sendAbort l code entry).dropLaunch gen 1 code entry s.pkg
  | none => s
/-- A launch has reached its start boundary here (R75, R76). -/
def LState.started (st : LState) : Bool := st == .pulsing || st == .running || st == .saving || st == .saved
/-- ABORT (R76): a launch that has not started is dropped, one that has is ended as by a run-time fault; the record names the sender. -/
def execAbort (s : State) : Host.Outcome State Fault Refusal :=
  match s.arg with
  | .nums [gen, pkg, _, code, entry] =>
    match s.launch? gen with
    | some l =>
      if l.st = .complete || l.st == .retired then .next s
      else if l.st.started then .next ((s.setResult gen 2 code entry pkg).endLaunch gen 2 code entry)
      else .next ((s.dropLaunch gen 1 code entry pkg).askSelection)
    | none => .next s
  | _ => .next s

/-! ### Pre-emption (R399 to R402) -/

/-- The entry is the release of a stope. -/
def Event.releases (e : Event) (t : Stope) : Bool := match e.act with | .run .release (.nums [id]) => id == t.id | _ => false
/-- A release of a stope of the launch is scheduled: pre-emption begins after it. -/
def State.resuming (s : State) (gen : Nat) : Bool := (s.stopesOf gen).any (fun t => s.agenda.any (fun e => e.releases t))
/-- A core of a launch holds a record with NORESUME set (R405): its code. -/
def State.finalFault (s : State) (gen : Nat) : Option Nat :=
  (s.launchCores gen).findSome? (fun c => (s.core c).fault.bind (fun r => if r.noresume then some r.code else none))
/-- A launch that holds a record with NORESUME set is not saved: it ends with result 2 and the record's code (R405). -/
def State.endIfFinal (s : State) (gen : Nat) : State :=
  match s.finalFault gen with
  | some code => (s.setResult gen 2 code 0 s.pkg).modLaunch gen (fun l => { l with cancelled := true })
  | none => s
/-- PREEMPTION (R399, R400, R405, R408): every stope freezes, and every engine of every core is asked to stop. A launch that has not started
releases its units, one that is saved gives its save area up where it is to end. -/
def execPreemption (s : State) : Host.Outcome State Fault Refusal :=
  match s.arg with
  | .nums [gen] =>
    match s.launch? gen with
    | none => .next s
    | some l =>
      -- one that is bound and has not started is pre-empted once it runs
      let later := s.post (s.now + 1) 3 none (.run .preemption (.nums [gen]))
      match l.st with
      | .running =>
        if s.resuming gen then .next (s.post (s.now + 1) 3 none (.run .preemption (.nums [gen])))
        else
          let s := (s.stopesOf gen).foldl (fun u t => (u.stopStope t).dropWindow t) (s.endIfFinal gen)
          let s := s.modLaunch gen (fun l => { l with st := .saving })
          .next ((s.launchCores gen).foldl (fun u c =>
            engineClasses.foldl (fun v x => v.post (v.now + 1) 3 none (.run .engineAck (.nums [c, x]))) (u.modCore c (fun k => { k with acks := [] }))) s)
      | .saved => .next (if l.cancelled then ((s.release gen).report gen).askSelection else s)
      | .filling => .next (if !l.cancelled then later else if l.saved.isEmpty then ((s.dropLaunch gen l.result l.code l.entry l.pkgAt).askSelection) else ((s.release gen).report gen).askSelection)
      | .ready => .next (if l.cancelled then (s.dropLaunch gen l.result l.code l.entry l.pkgAt).askSelection else later)
      | .pulsing => .next (if l.cancelled then ((s.release gen).report gen).askSelection else later)
      | _ => .next s
  | _ => .next s
/-- Every engine of every core of a stope has acknowledged. -/
def State.allAcked (s : State) (t : Stope) : Bool := t.cores.all (fun c => engineClasses.all (fun x => (s.core c).acks.contains x))
/-- A core that is asked to stop takes the tag resolutions it has issued at its matrix stream's command boundary, frozen or not (R95, R400). -/
def State.tagsAtBoundary (s : State) (c cls : Nat) : State :=
  if cls = 0 && s.atBoundary c && !(s.core c).resolve.isEmpty then s.resolveTags c else s
/-- ENGINE_ACK (R400): an engine that has not reached its point is asked again in the next cycle. After the last of a die the save takes 0.64 ms,
which a launch that is not saved does not need (R402, R405, log 32). -/
def execEngineAck (s : State) : Host.Outcome State Fault Refusal :=
  match s.arg with
  | .nums [c, x] =>
    match s.stopeOf c with
    | some t =>
      if !(s.launch? t.gen).any (fun l => l.st == .saving) || (s.core c).acks.contains x then .next s
      else if !(s.tagsAtBoundary c x).engineQuiet c x then .next ((s.tagsAtBoundary c x).post (s.now + 1) 3 none (.run .engineAck (.nums [c, x])))
      else
        let s := (s.tagsAtBoundary c x).modCore c (fun k => { k with acks := x :: k.acks })
        let save := if (s.finalFault t.gen).isSome then 1 else 544000
        .next (if s.allAcked t then s.post (s.now + save) 3 none (.run .contextSaveComplete (.nums [t.gen, t.die])) else s)
    | none => .next s
  | _ => .next s

/-- A held result of the save area (R401): due so many cycles after F. -/
def heldOf (f now : Nat) (e : Event) : HeldEv :=
  { due := if e.hold.isSome then e.at_ - f else e.at_ - now, phase := e.phase, held := e.hold.isSome, act := e.act }
/-- The save of a core (R401, R402): its image goes to a save area. -/
def State.saveCore (s : State) (t : Stope) (f c : Nat) : State :=
  let held := (s.agenda.filter (fun e => e.hold == some c || e.copyOf c true)).map (heldOf f s.now)
  let core := s.core c
  let x := s.writeArea t c
  x.1.modLaunch t.gen (fun l => { l with saved := l.saved ++ [{ id := c, core, held, area := x.2 }] })
/-- The save of a stope (R401 to R403): its cores with what is held for them, its part of the arrays, its requests and rows in flight. -/
def State.saveStope (s : State) (t : Stope) : State :=
  let f := t.frozen.getD s.now
  let mine := fun (c : Nat) => t.cores.contains c
  let s := t.cores.foldl (fun u c => u.saveCore t f c) s
  let quads := ((t.cores.map quadOf).dedup).map (fun q => (q, s.quad q))
  s.modLaunch t.gen (fun l =>
    { l with savedStopes := l.savedStopes ++ [t], savedQuads := l.savedQuads.filter (fun q => !quads.any (fun y => y.1 == q.1)) ++ quads
             savedReqs := l.savedReqs ++ s.greqs.filter (fun g => mine g.core && g.done), savedJoins := l.savedJoins ++ s.joins.filter (fun j => mine j.core) })
/-- CONTEXT_SAVE_COMPLETE (R25, R402, R405, R408): the die's cores are free; with the last die the launch re-enters the head of its queue, or ends. -/
def execContextSaveComplete (s : State) : Host.Outcome State Fault Refusal :=
  match s.arg with
  | .nums [gen, die] =>
    let ts := (s.stopesOf gen).filter (fun t => t.die == die)
    let s := ts.foldl (fun u t => (u.saveStope t).unbindStope t) (s.endIfFinal gen)
    match s.launch? gen with
    | some l =>
      if !(s.stopesOf gen).isEmpty || l.st != .saving then .next s
      else if l.cancelled then .next (((s.release gen).report gen).askSelection)
      else
        let q := vget s.queues l.queue []
        let s := s.modLaunch (q.head?.getD 0) (fun x => { x with headAt := none })
        let s : State := { s with queues := vset s.queues l.queue (gen :: q) }
        .next ((((s.modLaunch gen (fun l => { l with st := .saved, charge := 0, headAt := none })).dropLoads gen).idleTable).askSelection)
    | none => .next s
  | _ => .next s
/-- BANK_EVICTION (R404): the core's 8 MiB go to the save areas of the launches that were saved on it. -/
def State.evictBanks (s : State) (c : Nat) : State :=
  let k := s.core c
  let goes := fun (l : Launch) (x : SavedCore) => x.id == c && x.evicted.isNone && k.lastProc == some l.spid
  let areas := s.launches.flatMap (fun l => (l.saved.filter (goes l)).map (fun x => x.area))
  let s := areas.foldl (fun u a => u.writeEvicted a k.seam) s
  { s with launches := s.launches.map (fun l =>
      { l with saved := l.saved.map (fun x => if goes l x then { x with evicted := some (k.seam, k.tags, k.poison.filter (fun p => p.1 == 3)) } else x) }) }

/-! ### Retirement (R408) -/

/-- RETIREMENT (R77, R408): when every core has halted and the masks have drained, work of other engines is cut at its pre-emption granularity,
which a freeze of the stopes does; then the cores are unbound and the package reports. -/
def execRetirement (s : State) : Host.Outcome State Fault Refusal :=
  match s.arg with
  | .nums [gen] =>
    let again := fun (t : State) => t.post (t.now + 1) 3 none (.run .retirement (.nums [gen]))
    match s.launch? gen with
    | some l =>
      let cs := s.launchCores gen
      let once := !s.agenda.any (fun e => match e.act with | .run .retirement (.nums [g]) => g == gen | _ => false)
      if !once then .next s
      else if l.st = .running then
        if !cs.all (fun c => (s.core c).sc.halted) then .next s
        else if !cs.all (fun c => s.drained c (s.core c).haltMask) then .next (again s)
        else .next (again ((s.stopesOf gen).foldl State.stopStope (s.modLaunch gen (fun l => { l with st := .retired }))))
      else if l.st = .retired && !cs.isEmpty then
        if cs.all (fun c => engineClasses.all (fun x => x == 0 || s.engineQuiet c x)) then .next (((s.release gen).report gen).askSelection)
        else .next (again s)
      else .next s
    | none => .next s
  | _ => .next s

end Sys2Proof.Machine
end

