-- ==== Sys2Proof/Machine/Banksman.lean ====
section
/-! DEFINITION. The Banksman: what fits, selection, binding and its images, the plane loader's work, the start barrier and the start pulse, restoring a pre-empted launch, and which launches give way (R39, R40, R54, R60 to R66, R74, R75, R79 to R81, R87 to R89, R164, R261, R262, R291, R399, R404, R405, R421). -/

namespace Sys2Proof.Machine

/-! ### What fits (R24, R25, R62, R65) -/

/-- What becomes of a head that is looked at: it waits, it fails, or it fits with these instances. -/
inductive Fit where
  | waits
  | fails (code entry : Nat)
  | ok (insts : List Inst)
  deriving DecidableEq, Repr

/-- Effective priority (R59). -/
def State.effPrio (s : State) (l : Launch) : Nat := min l.pkt.prio (vget s.qprio (l.queue % 64) 7)
/-- The table that a launch must agree with: the one that is to govern, where one waits (R39). -/
def State.tableAhead (s : State) : List BeatEnt := s.beatNext.getD s.beatTab
/-- The charge of a launch's instances in this package (R24). -/
def State.chargeFor (s : State) (l : Launch) (insts : List Inst) : Nat :=
  let m := { l with insts }
  chargeOf (s.kernelStreams l.gen) ((m.coresAt (m.posOf s.pkg)).map (fun x => (x.2.unit % 1024, m.kernelAt x.2)))
/-- Binding with every enabled unit of this package free: whether withdrawals have made the tree unbindable (R76). -/
def State.lostAt (s : State) (l : Launch) : Option Nat :=
  let pos := l.posOf s.pkg
  match ({ s.selectCtx l with free := fun id => id / 1024 == pos && s.coreUsable (id % 1024) }).rebind pos l.insts with
  | .ok _ => none
  | .error e => some e
/-- fits(h) of R62. A pre-empted launch fits on its own cores only (R405). -/
def State.fits (s : State) (l : Launch) : Fit :=
  let last := fun (insts : List Inst) =>
    if s.power.loadLimit < s.charged + s.chargeFor l insts then Fit.waits
    else
      match (if s.stopes.isEmpty then none else beatsConflict (l.pkt.beatreq.getD []) s.tableAhead) with
      | some i => .fails codeBeats i
      | none => .ok insts
  if !l.saved.isEmpty then
    if l.saved.all (fun x => s.coreFree l.spid x.id) then last l.insts else .waits
  else
    match (s.selectCtx l).rebind (l.posOf s.pkg) l.insts with
    | .ok insts => last insts
    | .error _ =>
      match s.lostAt l with
      | some e => .fails codeUnbindable e
      | none => .waits

/-! ### Images and the start state (R40, R54, R68, R79, R89, R164, R261, R291) -/

/-- Banks that a process has reserved on a core, by R259's numbering. -/
def State.reservedMask (s : State) (spid c : Nat) : Nat :=
  ((s.reservations.find? (fun r => r.1 == c && r.2.1 == spid)).map (fun r => r.2.2.toNat)).getD 0
/-- What a binding leaves in the banks: everything for the process that was bound last, else only the reserved banks (R261, R262). -/
def State.bankKept (s : State) (spid c b : Nat) : Bool := (s.core c).lastProc == some spid || bitOf (s.reservedMask spid c) b
/-- The locked entries that preloading for a launch puts into a TLB (R291). -/
def State.pinEntries (s : State) (spid gen : Nat) : List TlbEntry :=
  match s.proc? spid with
  | some p => (p.pinned.flatMap (fun r => p.pages r.1 r.2)).map (fun x => { spid, va := x.1, size := x.2.1, pte := x.2.2, locked := true, owner := gen })
  | none => []
/-- Preload a TLB, in which at most 192 entries can be locked (R289). -/
def preloadTlb (cap draw : Nat) (t : List TlbEntry) (l : List TlbEntry) : List TlbEntry :=
  l.foldl (fun t e =>
    let t := t.filter (fun x => !(x.spid == e.spid && x.va == e.va && x.owner == e.owner))
    if (t.filter (fun x => x.locked)).length < 192 then tlbFill t cap draw e else t) t
/-- The word that a CORE node's entry number names (R37, R47). -/
def Bundle.entryWord (b : Bundle) (kernel entry : Nat) : Nat :=
  match Table.find? b.retimed kernel with
  | some r => ((r.entries.find? (fun e => e.1 == entry)).map Prod.snd).getD 0
  | none => entry
/-- The TRIGGER count of a kernel's sync table (R34): none declared is none armed. -/
def Bundle.trigCount (b : Bundle) (kernel : Nat) : Nat :=
  match pickSect b.sects tySYNC kernel 0 with
  | some x => ((syncRecords (b.sectBytes x)).filterMap (fun r => if fieldLE r 0 1 = 4 then some (fieldLE r 1 1) else none)).foldl max 0
  | none => 0
/-- One image written into a core of a rank (R40). -/
def writeImage (rank : Nat) (k : Core) (b : List Byte) : Core :=
  let sp := fieldLE b 0 1
  let off := fieldLE b 4 4
  let slice := fieldLE b 8 4
  let pay := b.drop 32
  let data := if fieldLE b 1 1 = 1 then sliceOf pay (rank * slice) slice else pay
  match sp with
  | 0 => k.store 0 off data []
  | 1 => k.store 1 off data []
  | 2 => k.store 2 off data []
  | 3 => k.store 3 off data []
  | 4 => k.store 3 (4194304 + off) data []
  | _ => k
/-- Rows of the argument block in A-space (R54). -/
def argRows (args : List Byte) : Nat := if 64 < args.length then cdiv args.length 256 else 0
/-- SBASE at the start (R164). -/
def stackBase (args : List Byte) : Nat := 256 * (1536 - argRows args)
/-- The scalar registers at the start: s2 holds SBASE, s4 to s11 the argument block's first doublewords (R54, R89, R164). -/
def startRegs (args : List Byte) : Vector Reg 32 :=
  (List.range 8).foldl (fun v i => vset v (4 + i) { val := BitVec.ofNat 64 (fieldLE args (8 * i) 8) })
    (vset (Vector.replicate 32 {}) 2 { val := BitVec.ofNat 64 (stackBase args) })
/-- A core as binding leaves it (R89, R164, R261, R262, R279, R285, R291): everything zero but for what stays with the core and what the launch gives. Plane 0
is the one that the loader fills; it becomes active at the pulse (R81, log 33). Images are written in ascending image number, so that the order of
the section table decides nothing where two overlap (R40, R424, log 53). -/
def State.boundCore (s : State) (l : Launch) (stope c idx : Nat) (i : Inst) : Core :=
  let old := s.core c
  let keep := fun (b : Nat) => s.bankKept l.spid c b
  let node := (l.tree[i.node]?).getD { parent := 0xFF, level := 1, count := 1, kernel := 0, entry := 0 }
  let rank := l.rankOf idx i
  let args := l.pkt.args
  let b : Binding :=
    { gen := l.gen, stope, spid := l.spid, kernel := node.kernel, entry := ((s.launchBundle l.gen).map (fun b => b.entryWord node.kernel node.entry)).getD 0
      rank, pkgPos := l.posOf s.pkg, chain := l.chainOf idx, lanes := laneCounts l.tree 17 i.node }
  let pins := s.pinEntries l.spid l.gen
  let k : Core :=
    { bound := some b, lastProc := some l.spid, s := startRegs args, active := 1, acc := old.acc
      trigCount := ((s.launchBundle l.gen).map (fun x => x.trigCount node.kernel)).getD 0
      sr := { sbase := BitVec.ofNat 19 (stackBase args) }
      seam := old.seam.filter (fun x => keep (bankOf x.1)), tags := old.tags.filter (fun x => keep (x.1 / 8192))
      poison := old.poison.filter (fun p => p.1 == 3 && keep (p.2 / 8192)), upsets := old.upsets.filter (fun u => u.1 == 3 && keep (u.2.1 / 8192))
      tlb := preloadTlb 256 s.free old.tlb pins, ctlb := preloadTlb 512 (s.free + 1) old.ctlb pins }
  let images := match s.launchBundle l.gen with
    | some x => (List.range 1024).filterMap (fun n => (pickSect x.sects tyDATA node.kernel n).map x.sectBytes)
    | none => []
  let k := images.foldl (writeImage rank) k
  if argRows args = 0 then k else k.store 0 (stackBase args) (args ++ List.replicate (256 * argRows args - args.length) 0) []

/-! ### Binding (R39, R63, R78 to R81, R235) -/

/-- Load the package's table (R39): it governs from the first opening of a beat that is 0 mod 16 at or after now. -/
def State.loadTable (s : State) (tab : List BeatEnt) : State :=
  if s.beat % 16 = 0 && s.beatAt == s.now then
    let s := s.cancel (fun e => match e.act with | .run .beatClose (.nums [0]) => true | _ => false)
    let s : State := { s with beatTab := tab, beatNext := none }
    s.post (s.beatAt + (s.beatEnt s.beat).len - 1) 3 none (.run .beatClose (.nums [0]))
  else { s with beatNext := some tab }
/-- The planes of a quad in which no other launch has a bound core are zeroed (R199, R235). -/
def State.clearArray (s : State) (gen q : Nat) : State :=
  if (List.range 4).any (fun i => match (s.core (quadCore q i)).bound with | some b => b.gen != gen | none => false) then s else s.setQuad q {}
/-- The cores of a launch's part in this package with their instances. -/
def State.partCores (s : State) (l : Launch) : List (Nat × Nat × Inst) := (l.coresAt (l.posOf s.pkg)).map (fun x => (x.2.unit % 1024, x.1, x.2))
/-- Bind the latched launch: stopes, cores, charge, beat table, and overlay 0 asked for (R63, R78, R81). -/
def State.bindLaunch (s : State) (gen : Nat) : State :=
  match s.launch? gen with
  | none => s
  | some l =>
    let cs := s.partCores l
    let dies := (cs.map (fun x => coreDie x.1)).dedup
    let idle := s.stopes.isEmpty
    let s := ((cs.map (fun x => quadOf x.1)).dedup).foldl (fun u q => u.clearArray gen q) s
    let id := fun (d : Nat) => s.nextStope + (dies.findIdx? (fun x => x == d)).getD 0
    let new := cs.map (fun x => (x.1, s.boundCore l (id (coreDie x.1)) x.1 x.2.1 x.2.2))
    let stopes := dies.map (fun d =>
      ({ id := id d, gen, die := d, elastic := l.pkt.elastic, cores := (cs.map (fun x => x.1)).filter (fun c => coreDie c == d) } : Stope))
    let charge := s.chargeFor l l.insts
    let s := new.foldl (fun u x => u.setCore x.1 x.2) s
    let s : State := { s with stopes := s.stopes ++ stopes, nextStope := s.nextStope + dies.length, free := s.free + 2 }
    let s := s.modLaunch gen (fun l => { l with st := .filling, charge, preloads := (s.pinEntries l.spid gen).map (fun e => (e.va, e.size)) })
    let s := if idle then s.loadTable (tableOf (l.pkt.beatreq.getD [])) else s
    stopes.foldl (fun u t => ((t.cores.map (fun c => (u.core c).bnd.kernel)).dedup).foldl (fun v k => v.askOverlay t.die gen k 0) u) s

/-! ### Restoring a pre-empted launch (R403, R405) -/

/-- A saved plane of the launch comes back (R403): loaded again from W as it stands, or unloaded where it was filling, unless another launch has a
block in its place (log 34). -/
def State.restorePlane (s : State) (q gen : Nat) (old now_ : ArrPlane) : ArrPlane :=
  if old.gen != gen || now_.st != 0 then now_
  else if old.st = 2 then { old with data := (s.core (quadCore q old.src)).seam.readBytes old.wAddr (blockBytes old.wt old.k old.n) } else {}
/-- A launch's part of an array: its planes, the lease or a request for it (R402, R403, log 34). -/
def State.restoreQuad (s : State) (gen q : Nat) (old : Quad) (idx : List Nat) : State :=
  let x := s.quad q
  let alone := !(List.range 4).any (fun i => match (s.core (quadCore q i)).bound with | some b => b.gen != gen | none => false)
  let held := old.holder.any (fun i => idx.contains i)
  let mine := old.reqs.filter (fun r => idx.contains r.1)
  let back := if held && x.holder.isSome then [(old.holder.getD 0, s.now, old.left)] else []
  let y := { x with act := s.restorePlane q gen old.act x.act, shd := s.restorePlane q gen old.shd x.shd
                    holder := if held && x.holder.isNone then old.holder else x.holder, left := if held && x.holder.isNone then old.left else x.left
                    last := if alone then old.last else x.last, reqs := back ++ x.reqs ++ mine }
  let s := s.setQuad q y
  if y.holder.isNone && !y.reqs.isEmpty then s.postGrant q (s.now + 1) else s
/-- A saved core as it comes back: its registers and streams; the spaces, and the banks where they were evicted, from the save area; a barrier phase that
has completed meanwhile is seen complete. F of the restored stope stands one cycle back, so that all it holds waits for the release. Locked entries
have stayed in its TLBs (R291). -/
def State.restoredCore (s : State) (spid f shift : Nat) (x : SavedCore) : Core :=
  let phys := s.core x.id
  let k := x.core.shiftTimes f shift 0
  let space := fun (off n : Nat) (m : Memory) => x.area.elim m (fun pa => s.mem.slice ((pa + off) % 2 ^ 50) n)
  { k with a := space 0 0x60000 k.a, c := space saveC 0x100000 k.c, sm := space saveS 0x10000 k.sm
           seam := x.evicted.elim phys.seam (fun e => space saveBanks 0x800000 e.1), tags := x.evicted.elim phys.tags (fun e => e.2.1), acc := phys.acc, acks := [], lastProc := some spid
           tlb := phys.tlb, ctlb := phys.ctlb
           poison := k.poison.filter (fun p => p.1 != 3) ++ x.evicted.elim (phys.poison.filter (fun p => p.1 == 3)) (fun e => e.2.2)
           upsets := k.upsets.filter (fun p => p.1 != 3) ++ (if x.evicted.isSome then [] else phys.upsets.filter (fun p => p.1 == 3))
           bars := k.bars.map (fun b => if b.phase ≤ (s.barSt b.key).complete then { b with complete := true } else b) }
/-- Bind a pre-empted launch again: its stopes frozen as they were, everything held in its place, the active overlays asked for (R405). -/
def State.restoreLaunch (s : State) (gen : Nat) : State :=
  match s.launch? gen with
  | none => s
  | some l =>
    let fNew := s.now - 1
    let fOld := fun (c : Nat) => ((l.savedStopes.find? (fun t => t.cores.contains c)).bind (fun t => t.frozen)).getD fNew
    let idle := s.stopes.isEmpty
    let stopes := l.savedStopes.map (fun t =>
      { t with frozen := some fNew, stalled := t.stalled + (fNew - t.frozen.getD fNew), window := none, waitWindow := false, relShift := 0, relBeats := 0 })
    let new := l.saved.map (fun x => (x.id, s.restoredCore l.spid (fOld x.id) (fNew - fOld x.id) x))
    let s := new.foldl (fun u x => u.setCore x.1 x.2) s
    let s : State := { s with stopes := s.stopes ++ stopes, free := s.free + 2, greqs := s.greqs ++ l.savedReqs
                              joins := s.joins ++ l.savedJoins.map (fun j =>
                                if fOld j.core < j.due then { j with due := j.due + (fNew - fOld j.core) } else j) }
    let s := l.saved.foldl (fun u x => x.held.foldl (fun v h => v.postAt (if h.held then fNew + h.due else v.now + h.due) h.phase (if h.held then some x.id else none) h.act) u) s
    let s := l.savedQuads.foldl (fun u q => u.restoreQuad gen q.1 q.2 ((l.saved.filter (fun x => quadOf x.id == q.1)).map (fun x => quadIndex x.id))) s
    let s := s.modLaunch gen (fun m => { m with st := .filling, charge := s.chargeFor l l.insts })
    let s := if idle then s.loadTable (tableOf (l.pkt.beatreq.getD [])) else s
    stopes.foldl (fun u t =>
      ((t.cores.map (fun c => ((u.core c).bnd.kernel, (u.core c).act.ovl.getD 0))).dedup).foldl (fun v k => v.askOverlay t.die gen k.1 k.2) u) s
/-- The next overlay of every kernel that waits for one is asked for again. -/
def State.askNext (s : State) (t : Stope) : State :=
  ((t.cores.map (fun c => (s.core c).bnd.kernel)).dedup).foldl (fun u k =>
    let cs := u.kernelCores t k
    let cur := (cs.head?.bind (fun c => (u.core c).act.ovl)).getD 0
    if cs.all (fun c => (u.core c).act.ovl == some cur && !(u.core c).shadow.ready) && hasOverlay (u.kernelStreams t.gen k) (cur + 1) then
      u.askOverlay t.die t.gen k (cur + 1)
    else u) s
/-- The launch is back: a stope with fault records is presented again, any other is released (R405). -/
def State.resumeSaved (s : State) (gen : Nat) : State :=
  let s := s.modLaunch gen (fun l => { l with st := .running, saved := [], savedStopes := [], savedReqs := [], savedJoins := [], savedQuads := [] })
  let s : State := { s with latched := none }
  ((s.stopesOf gen).foldl (fun u t =>
    let u := u.askNext t
    if (u.faulted t).isEmpty then u.scheduleRelease t else u.post u.now 3 none (.run .trapWindowDelivery (.nums [t.id]))) s).askSelection

/-! ### Selection (R60, R61, R74, R404) -/

/-- Bind the latched launch, new or pre-empted. -/
def State.bindOrRestore (s : State) (gen : Nat) : State :=
  match s.launch? gen with
  | some l => if l.saved.isEmpty then s.bindLaunch gen else s.restoreLaunch gen
  | none => s
/-- Cores whose banks must be evicted before a launch of another process binds them (R404). -/
def State.toEvict (s : State) (l : Launch) : List Nat :=
  let cs := if l.saved.isEmpty then (s.partCores l).map (fun x => x.1) else l.saved.map (fun x => x.id)
  cs.filter (fun c => (s.core c).lastProc != some l.spid
    && s.launches.any (fun m => m.gen != l.gen && m.saved.any (fun x => x.id == c && x.evicted.isNone) && (s.core c).lastProc == some m.spid))
/-- Latch a head (R60): it leaves its queue, banks are evicted where they must be, which takes 7 ms, and it is bound. -/
def State.latch (s : State) (p q : Nat) (l : Launch) (insts : List Inst) : State :=
  let s : State := { s with queues := vset s.queues q (vget s.queues q []).tail, lastServed := vset s.lastServed p q, latched := some l.gen
                            reserving := if s.reserving = some l.gen then none else s.reserving }
  let ev := s.toEvict { l with insts }
  let s := (s.modLaunch l.gen (fun m => { m with insts, st := .filling, saveLeft := ev })).noteHeads
  if ev.isEmpty then s.bindOrRestore l.gen
  else ev.foldl (fun u c => u.post (u.now + 5950000) 1 none (.run .bankEviction (.nums [c]))) s
/-- BANK_EVICTION (R404): one core's banks lie in the save area; after the last the launch that waits is bound. -/
def execBankEviction (s : State) : Host.Outcome State Fault Refusal :=
  match s.arg with
  | .nums [c] =>
    let s := s.evictBanks c
    match s.latched with
    | some gen =>
      let s := s.modLaunch gen (fun l => { l with saveLeft := l.saveLeft.filter (fun x => x != c) })
      .next (if (s.launch? gen).any (fun l => l.st == .filling && l.saveLeft.isEmpty) && (s.stopesOf gen).isEmpty then s.bindOrRestore gen else s)
    | none => .next s
  | _ => .next s

/-- Queues in the round that starts after the one served last. -/
def roundFrom (last : Nat) : List Nat := (List.range 64).map (fun i => (last + 1 + i) % 64)
/-- Priorities and queues in the order of R61. -/
def State.selectOrder (s : State) : List (Nat × Nat) := (List.range 8).flatMap (fun p => (roundFrom (vget s.lastServed p 63)).map (fun q => (p, q)))
/-- R74: no multi-package packet released earlier, or at the same boundary with a lower generation, is queued unbound here; a pre-empted launch is
unbound too (R405). -/
def State.itsTurn (s : State) (l : Launch) : Bool :=
  l.parts.length ≤ 1 || s.launches.all (fun m =>
    m.gen == l.gen || m.parts.length ≤ 1 || (m.st != .queued && m.st != .saved)
      || !(decide (m.release.getD 0 < l.release.getD 0) || (m.release == l.release && decide (m.gen < l.gen))))
/-- The reserving head with its priority, while it heads its queue (R61). -/
def State.reserve (s : State) : Option (Nat × Nat) :=
  (s.reserving.bind s.launch?).bind (fun l => if (s.queueHead (l.queue % 64)).any (fun h => h.gen == l.gen) then some (l.gen, s.effPrio l) else none)
/-- 1 ms in cycles (R61). -/
def waitLimit : Nat := 850000
/-- A head that does not fit: after 1 ms it becomes the reserving head if there is none (R61). -/
def State.waitsOn (s : State) (h : Launch) : State :=
  let since := h.headAt.getD s.now
  if s.reserve.isSome then s
  else if waitLimit ≤ s.now - since then
    ({ s with reserving := some h.gen } : State).post (s.now + s.power.preemptEvery) 3 none (.run .preemptionInterval (.nums [h.gen]))
  else if s.agenda.any (fun e => e.at_ == since + waitLimit && (match e.act with | .run .selection _ => true | _ => false)) then s
  else s.post (since + waitLimit) 3 none (.run .selection (.nums []))
/-- select() of R61 over what is left of the order. -/
def State.selectFrom (s : State) : List (Nat × Nat) → State
  | [] => s
  | (p, q) :: rest =>
    match s.queueHead q with
    | none => s.selectFrom rest
    | some h =>
      if s.effPrio h != p || !s.waitsMet h || !s.itsTurn h then s.selectFrom rest
      else if s.reserve.any (fun r => r.1 != h.gen && decide (r.2 ≤ p)) then s.selectFrom rest
      else
        match s.fits h with
        | .ok insts => s.latch p q h insts
        | .fails code entry => (s.failLaunch h.gen code entry).askSelection
        | .waits => (s.waitsOn h).selectFrom rest
/-- SELECTION (R60, R61): nothing happens while a launch is latched, or once the compute dies have lost their power (log 44). -/
def execSelection (s : State) : Host.Outcome State Fault Refusal :=
  if s.latched.isSome || s.power.tripped then .next s
  else
    let s := s.noteHeads
    .next (s.selectFrom s.selectOrder)

/-! ### Filling, READY and the start pulse (R75, R80, R81, R87 to R89) -/

/-- Let the start pulses of a launch leave at the next opening of a beat that is 0 mod 16 (R87). -/
def State.pulse (s : State) (gen : Nat) : State :=
  let at_ := (s.beatFrom s.now 0 24 s.beat s.beatAt).2
  let s := s.modLaunch gen (fun l => { l with st := .pulsing })
  (s.stopesOf gen).foldl (fun u t => u.post at_ 1 none (.run .startPulse (.nums [gen, t.die]))) s
/-- All READY messages of a launch are in: its pulses are released at the boundary of window N + 2 (R75). -/
def State.checkReady (s : State) (gen : Nat) : State :=
  match s.launch? gen with
  | some l =>
    if l.st = .ready && l.parts.all (fun p => l.readyWin.any (fun r => r.1 == p)) then
      let w := (l.readyWin.map Prod.snd).foldl max 0 + 2
      let s := s.modLaunch gen (fun l => { l with startWin := some w })
      if w ≤ s.window then s.pulse gen else s
    else s
  | none => s
/-- READY (R75): generation, package and window of sending, and the cores bound there (log 23). -/
def execReady (s : State) : Host.Outcome State Fault Refusal :=
  match s.arg with
  | .nums (gen :: pkg :: win :: cores) =>
    .next ((s.modLaunch gen (fun l => { l with readyWin := l.readyWin.filter (fun r => r.1 != pkg) ++ [(pkg, win)]
                                               readyCores := l.readyCores.filter (fun r => r.1 != pkg) ++ [(pkg, cores)] })).checkReady gen)
  | _ => .next s
/-- Everything that a launch asked of the loaders is done: it starts, says READY, or goes on where it was (R75, R87, R405). -/
def State.filled (s : State) (gen : Nat) : State :=
  match s.launch? gen with
  | some l =>
    if l.st != .filling || s.dies.toList.any (fun d => d.loads.any (fun j => j.1 == gen)) then s
    else if !l.saved.isEmpty then s.resumeSaved gen
    else if l.parts.length ≤ 1 then s.pulse gen
    else
      let s := s.modLaunch gen (fun l => { l with st := .ready, readyWin := l.readyWin ++ [(s.pkg, s.window)] })
      ((l.parts.filter (fun p => p != s.pkg)).foldl (fun (t : State) p => t.send p (.ready gen t.pkg t.window (t.launchCores gen))) s).checkReady gen
  | none => s
/-- An overlay into the shadow planes of a stope's cores that run the kernel, never below what a core has active (R80, R81). -/
def State.fillPlanes (s : State) (die gen kernel ovl : Nat) : State :=
  match s.stopes.find? (fun t => t.gen == gen && t.die == die) with
  | some t =>
    let p := planeOf (s.kernelStreams gen kernel) ovl
    (s.kernelCores t kernel).foldl (fun u c => u.modCore c (fun k =>
      if k.act.ovl.all (fun o => decide (o < ovl)) then { k with plane := vset k.plane (1 - k.active) p } else k)) s
  | none => s
/-- OVERLAY_LOAD (R80): the job under way is done, and the die's loader takes the next. -/
def execOverlayLoad (s : State) : Host.Outcome State Fault Refusal :=
  match s.arg with
  | .nums [die] =>
    let d := vget s.dies die {}
    match d.loads with
    | (gen, kernel, ovl, _) :: rest =>
      let s : State := { s with dies := vset s.dies die { d with loads := rest, loading := false } }
      .next (((s.fillPlanes die gen kernel ovl).pumpLoader die).filled gen)
    | [] => .next s
  | _ => .next s
/-- A core at the pulse (R81, R88, R89): its filled plane becomes active, BT holds the beat that opens, and its entry word issues after its gap. -/
def State.startCore (s : State) (c : Nat) : State :=
  let s := s.modCore c (fun k => { k with active := 1 - k.active, bt := s.beat, sc := { k.sc with live := true, next := k.bnd.entry } })
  s.postIssue c .scalar (s.now + pulseDelay c + (s.core c).gapAt .scalar (s.core c).bnd.entry)
/-- START_PULSE (R81, R87): the pulse of a die leaves core (0,0); when it has reached a kernel's last core, overlay 1 is asked for. -/
def execStartPulse (s : State) : Host.Outcome State Fault Refusal :=
  match s.arg with
  | .nums [gen, die] =>
    match (s.stopesOf gen).find? (fun t => t.die == die && t.started.isNone) with
    | some t =>
      let s := s.modStope t.id (fun t => { t with started := some s.now })
      let s := t.cores.foldl State.startCore s
      let s := ((t.cores.map (fun c => (s.core c).bnd.kernel)).dedup).foldl (fun u k =>
        let last := ((u.kernelCores t k).map pulseDelay).foldl max 0
        u.post (u.now + last) 1 none (.run .startPulse (.nums [gen, die, k]))) s
      if (s.stopesOf gen).all (fun t => t.started.isSome) then
        .next (({ s with latched := none } : State).modLaunch gen (fun l => { l with st := .running })).askSelection
      else .next s
    | none => .next s
  | .nums [gen, die, k] =>
    .next (if (s.launch? gen).any (fun l => l.st == .running) && hasOverlay (s.kernelStreams gen k) 1 then s.askOverlay die gen k 1 else s)
  | _ => .next s

/-! ### Which launches give way (R399, R421) -/

/-- A launch gives way before another (R421): lowest effective priority first, then the highest generation. -/
def State.yieldsBefore (s : State) (a b : Launch) : Bool :=
  decide (s.effPrio b < s.effPrio a) || (s.effPrio a == s.effPrio b && decide (b.gen < a.gen))
/-- Insert in that order. -/
def State.insertYield (s : State) (a : Launch) : List Launch → List Launch
  | [] => [a]
  | b :: t => if s.yieldsBefore a b then a :: b :: t else b :: s.insertYield a t
/-- The bound launches that `p` picks, in that order. -/
def State.yielding (s : State) (p : Launch → Bool) : List Launch :=
  (s.launches.filter (fun l => l.charge != 0 && (l.st == .filling || l.st == .ready || l.st == .pulsing || l.st == .running) && p l)).foldl (fun acc l => s.insertYield l acc) []
/-- The package as it would be without a launch. -/
def State.without (s : State) (gen : Nat) : State :=
  let cs := s.launchCores gen
  let s := cs.foldl (fun u c => u.modCore c (fun k => { k with bound := none })) s
  ({ s with stopes := s.stopes.filter (fun t => t.gen != gen) } : State).modLaunch gen (fun l => { l with charge := 0 })
/-- Pre-empt the fewest launches of a list, from its front, after which `ok` holds; none where no number is enough. -/
def giveWay (ok : State → Bool) : State → List Launch → List Nat → Option (List Nat)
  | t, ls, acc =>
    if ok t then some acc
    else
      match ls with
      | [] => none
      | l :: rest => giveWay ok (t.without l.gen) rest (acc ++ [l.gen])
/-- Pre-empt launches. -/
def State.preemptAll (s : State) (gens : List Nat) : State := gens.foldl (fun u g => u.post u.now 3 none (.run .preemption (.nums [g]))) s
/-- PREEMPTION_INTERVAL (R399): the head has been reserving for the interval; launches of lower priority give way where that lets it fit, else
it is looked at again after another interval (log 35). As an input with a word, the operator sets another interval. -/
def execPreemptionInterval (s : State) : Host.Outcome State Fault Refusal :=
  match s.arg with
  | .nums [gen] =>
    match s.reserve, s.launch? gen with
    | some (g, p), some h =>
      if g != gen then .next s
      else
        let s := s.post (s.now + s.power.preemptEvery) 3 none (.run .preemptionInterval (.nums [gen]))
        let ok := fun (t : State) => match t.fits h with | .ok _ => true | _ => false
        match giveWay ok s (s.yielding (fun l => l.st == .running && decide (p < s.effPrio l))) [] with
        | some gens => .next (s.preemptAll gens)
        | none => .next s
    | _, _ => .next s
  | .word [] v => .next { s with power := { s.power with preemptEvery := v.toNat } }
  | _ => .next s

end Sys2Proof.Machine
end

