-- ==== Sys2Proof/Machine/Generation.lean ====
section
/-! DEFINITION. The stream unit: duplex stream descriptors, the DS and KV operations, and what the playback side writes (R370 to R385). -/

namespace Sys2Proof.Machine

/-! ### The stream unit's accesses (R374) -/

/-- Who accesses an area: the stream unit of a core, or the home of a descriptor for an operation that came from another package under a process's
SPID (R299). -/
inductive DsUnit where
  | core (c : Nat)
  | far (pkg spid : Nat)
  deriving DecidableEq, Repr
/-- Why an operation has no effect: a fault, a page that its TLB misses (R290) or that a migration's final pass has frozen (R297), or poison met
in these physical bytes (R406). -/
inductive DsStop where
  | fault (f : FaultRec)
  | miss (va : Nat) (write : Bool)
  | frozen (va : Nat)
  | poison (va : Nat) (rs : List (Nat × Nat))
  deriving DecidableEq, Repr
/-- Its master ID (R299). -/
def DsUnit.master : DsUnit → Nat
  | .core c => coreMaster 4 c
  | .far p _ => 9 * 4096 + p
/-- The physical address of one page's bytes: a core's stream unit looks in its TLB (R289), a home walks the process's tables. -/
def State.dsPage (s : State) (u : DsUnit) (va : Nat) (write : Bool) : Xlat :=
  match u with
  | .core c => s.pageOf 0 c va kindDs write
  | .far _ spid =>
    match (s.proc? spid).map (fun p => s.walk p va write) with
    | some (.leaf e l) => .ok (leafPa e (leafSize e l) va)
    | some (.fault l) => .fault (pageFault va kindDs l)
    | none => .fault (pageFault va kindDs 4)
/-- The physical parts of a range as (offset, address, bytes): every page first, then the access tables (R294), then admission (R297). -/
def State.dsRange (s : State) (u : DsUnit) (va n : Nat) (write : Bool) : Except DsStop (List (Nat × Nat × Nat)) := do
  let ps ← (pageParts va n).mapM (fun p =>
    match s.dsPage u p.2.1 write with
    | .ok pa => Except.ok (p.1, pa, p.2.2)
    | .fault f => Except.error (DsStop.fault f)
    | .miss => Except.error (DsStop.miss p.2.1 write))
  match ps.find? (fun p => !s.mayAccess u.master p.2.1 p.2.2 (if write then 1 else 0)) with
  | some p => Except.error (DsStop.fault (denied (va + p.1) kindDs))
  | none =>
    match ps.find? (fun p => s.pageFrozen p.2.1) with
    | some p => Except.error (DsStop.frozen (va + p.1))
    | none => Except.ok ps
/-- Read a range; soft errors are looked at, and a poisoned sector ends the operation. -/
def State.dsLoad (s : State) (u : DsUnit) (va n : Nat) : Except DsStop (State × List Byte) := do
  let ps ← s.dsRange u va n false
  let r := ps.foldl (fun (acc : State × List Byte × Bool) p =>
    let x := acc.1.readHome p.2.1 p.2.2
    (x.1, acc.2.1 ++ x.2.1, acc.2.2 || x.2.2)) (s, [], false)
  if r.2.2 then Except.error (DsStop.poison va (ps.map (fun p => p.2))) else Except.ok (r.1, r.2.1)
/-- Write a range. -/
def State.dsStore (s : State) (u : DsUnit) (va : Nat) (data : List Byte) : Except DsStop State := do
  let ps ← s.dsRange u va data.length true
  Except.ok (ps.foldl (fun t p => t.homeWrite p.2.1 ((data.drop p.1).take p.2.2)) s)
/-- STREAM_STATE (R377). -/
def streamState : DsStop := .fault { code := 0x31 }

/-! ### The descriptor (R370) -/

/-- Offsets of the descriptor's fields. -/
def dsG : Nat := 0x00
def dsP : Nat := 0x08
def dsH : Nat := 0x10
def dsStep : Nat := 0x18
def dsFpub : Nat := 0x20
def dsFadm : Nat := 0x28
def dsFring : Nat := 0x30
def dsCring : Nat := 0x38
def dsCkstate : Nat := 0x40
def dsLive : Nat := 0x48
def dsCksize : Nat := 0x50
def dsSid : Nat := 0x54
def dsTok : Nat := 0x58
def dsVbmp : Nat := 0x68
def dsCapy : Nat := 0x70
def dsAbase : Nat := 0x78
def dsAcount : Nat := 0x80
def dsAtag : Nat := 0x82
def dsAseq : Nat := 0x88
def dsCseq : Nat := 0x90
def dsFlags : Nat := 0x98
/-- A field of 8, 4 or 2 bytes. -/
def dsGet (d : List Byte) (off : Nat) : Nat :=
  fieldLE d off (if off = dsCksize || off == dsSid then 4 else if off = dsAcount || off == dsAtag then 2 else 8)

/-- An operation's outcome: the state and the value of rd, or why it has no effect. -/
abbrev DsOut := Except DsStop (State × Nat)
/-- Write doublewords of the descriptor. -/
def State.dsPut (s : State) (u : DsUnit) (base : Nat) (l : List (Nat × Nat)) : Except DsStop State :=
  l.foldlM (fun t x => t.dsStore u (base + x.1) (leBytes 8 x.2)) s
/-- Take a checkpoint of LIVE in a slot: its state, and its record with POS and VALID (R379, R384). -/
def State.dsCheckpoint (s : State) (u : DsUnit) (d : List Byte) (k pos : Nat) : Except DsStop State := do
  let n := dsGet d dsCksize
  let (s, live) ← s.dsLoad u (dsGet d dsLive) n
  let s ← s.dsStore u (dsGet d dsCkstate + k * n) live
  s.dsStore u (dsGet d dsCring + 16 * k) (leBytes 8 pos ++ leBytes 8 1)
/-- The bytes of a bitmap from bit `lo` up to `hi` with those bits set or cleared. -/
def bitRun (bs : List Byte) (lo hi : Nat) (v : Bool) : List Byte :=
  bs.mapIdx (fun i b =>
    let m := (List.range 8).foldl (fun a j => let p := lo / 8 * 8 + 8 * i + j; if lo ≤ p ∧ p < hi then a + 2 ^ j else a) 0
    if v then b ||| BitVec.ofNat 8 m else b &&& ~~~(BitVec.ofNat 8 m))
/-- Set or clear validity bits [lo, hi). -/
def State.dsBits (s : State) (u : DsUnit) (d : List Byte) (lo hi : Nat) (v : Bool) : Except DsStop State :=
  if hi ≤ lo then .ok s
  else do
    let va := dsGet d dsVbmp + lo / 8
    let (s, bs) ← s.dsLoad u va ((hi - 1) / 8 - lo / 8 + 1)
    s.dsStore u va (bitRun bs lo hi v)

/-! ### The operations at the home (R378 to R384) -/

/-- Admit frame records from FADM on: new FADM, whether one was late, whether one interrupts (R378). -/
def State.dsAdmit (s : State) (u : DsUnit) (fring h win : Nat) : Nat → Nat → Bool → Bool → Except DsStop (State × Nat × Bool × Bool)
  | 0, i, late, barge => .ok (s, i, late, barge)
  | left + 1, i, late, barge => do
    let a := fring + 32 * (i % 64)
    let (s, r) ← s.dsLoad u a 32
    if win ≤ fieldLE r 0 8 then .ok (s, i, late, barge)
    else
      let isLate := fieldLE r 8 8 < h
      let t ← s.dsStore u (a + 22) (leBytes 2 (if isLate then 2 else 1))
      t.dsAdmit u fring h win left (i + 1) (late || isLate) (barge || (!isLate && bitOf (fieldLE r 20 2) 0))
/-- DSADMIT at the home: the state, rd, and whether a frame was late (R378). -/
def State.dsadmit (s : State) (u : DsUnit) (base : Nat) (d : List Byte) (win : Nat) : Except DsStop (State × Nat × Bool) :=
  let fpub := dsGet d dsFpub
  let fadm := dsGet d dsFadm
  if 64 < fpub - fadm then .error streamState
  else do
    let h := max (dsGet d dsH) (min (dsGet d dsP) (dsGet d dsG))
    let step := dsGet d dsStep + 1
    let (t, i, late, barge) ← s.dsAdmit u (dsGet d dsFring) h win (fpub - fadm) fadm false false
    let flags := dsGet d dsFlags ||| (if barge then 2 else 0) ||| (if late then 4 else 0)
    let t ← t.dsPut u base [(dsH, h), (dsStep, step), (dsFadm, i), (dsFlags, flags)]
    .ok (t, step, late)
/-- DSEMIT at the home (R379). -/
def State.dsemit (s : State) (u : DsUnit) (base : Nat) (d : List Byte) (token : Nat) : DsOut :=
  let g := dsGet d dsG
  if dsGet d dsCapy ≤ g then .error streamState
  else do
    let s ← if g % 16 = 0 then s.dsCheckpoint u d (g / 16 % 8) g else .ok s
    let s ← s.dsStore u (dsGet d dsTok + 4 * g) (leBytes 4 token)
    let s ← s.dsBits u d g (g + 1) true
    let s ← s.dsPut u base [(dsG, g + 1)]
    .ok (s, 0)
/-- The valid checkpoint with the greatest POS at or below p: slot and POS (R380). -/
def bestCheckpoint (ring : List Byte) (p : Nat) : Option (Nat × Nat) :=
  (List.range 8).foldl (fun best k =>
    let pos := fieldLE ring (16 * k) 8
    if bitOf (fieldLE ring (16 * k + 8) 8) 0 && decide (pos ≤ p) && best.all (fun b => decide (b.2 < pos)) then some (k, pos) else best) none
/-- DSTRUNC at the home (R380). -/
def State.dstrunc (s : State) (u : DsUnit) (base : Nat) (d : List Byte) : DsOut :=
  let p := dsGet d dsP
  let g := dsGet d dsG
  let n := dsGet d dsCksize
  if p < dsGet d dsH || g < p then .error streamState
  else if p = g then .ok (s, g)
  else do
    let (s, ring) ← s.dsLoad u (dsGet d dsCring) 128
    match bestCheckpoint ring p with
    | none => .error streamState
    | some (k, pos) => do
      let s ← s.dsBits u d p g false
      let void := (List.range 8).filter (fun j => p < fieldLE ring (16 * j) 8)
      let ring' := (List.range 8).flatMap (fun j => if void.contains j then sliceOf ring (16 * j) 8 ++ leBytes 8 0 else sliceOf ring (16 * j) 16)
      let s ← s.dsStore u (dsGet d dsCring) ring'
      let (s, state) ← s.dsLoad u (dsGet d dsCkstate + k * n) n
      let s ← s.dsStore u (dsGet d dsLive) state
      let s ← s.dsPut u base [(dsCseq, max (dsGet d dsCseq) (dsGet d dsAseq)), (dsFlags, dsGet d dsFlags - (if bitOf (dsGet d dsFlags) 1 then 2 else 0)), (dsG, p)]
      .ok (s, pos)
/-- KVINV at the home (R382). -/
def State.kvinv (s : State) (u : DsUnit) (d : List Byte) (a b : Nat) : DsOut :=
  if dsGet d dsCapy < a + 64 then .error streamState
  else if (List.range 64).any (fun i => bitOf b i && decide (a + i < dsGet d dsH)) then .error streamState
  else do
    let (s, bs) ← s.dsLoad u (dsGet d dsVbmp + a / 8) 8
    let s ← s.dsStore u (dsGet d dsVbmp + a / 8) (List.zipWith (fun x y => x &&& ~~~y) bs (leBytes 8 b))
    .ok (s, 0)
/-- KVACCEPT at the home (R383). -/
def State.kvaccept (s : State) (u : DsUnit) (base : Nat) (d : List Byte) (a b : Nat) : DsOut :=
  if bitsOf b 32 32 ≤ dsGet d dsCseq then .ok (s, 0)
  else do
    let s ← s.dsStore u (base + dsAbase) (leBytes 8 a ++ leBytes 2 (bitsOf b 0 7) ++ leBytes 2 (bitsOf b 16 16))
    let s ← s.dsPut u base [(dsAseq, bitsOf b 32 32)]
    .ok (s, 0)
/-- KVCOMMIT at the home (R384). -/
def State.kvcommit (s : State) (u : DsUnit) (base : Nat) (d : List Byte) : DsOut :=
  let g := dsGet d dsG
  let n := dsGet d dsAcount
  let aseq := dsGet d dsAseq
  if aseq = 0 || aseq ≤ dsGet d dsCseq then .ok (s, 0)
  else if dsGet d dsAbase != g || dsGet d dsCapy < g + n then .error streamState
  else do
    let marks := ((List.range n).map (· + g)).filter (fun m => m % 16 == 0)
    let s ← marks.foldlM (fun (t : State) m => t.dsCheckpoint u d (m / 16 % 8) g) s
    let s ← s.dsBits u d g (g + n) true
    let s ← s.dsPut u base [(dsG, g + n), (dsCseq, aseq)]
    .ok (s, n)

/-- A DS or KV operation at its descriptor's home, as one step (R374, R377): number, cursor, window of issue, operands. The last part says that a
frame was late. -/
def State.dsEffect (s : State) (u : DsUnit) (op cur win base a b : Nat) : Except DsStop (State × Nat × Bool) :=
  if base = 0 then .error streamState
  else do
    let (s, d) ← s.dsLoad u base 256
    if !bitOf (dsGet d dsFlags) 0 then .error streamState
    else if op = 0 then s.dsadmit u base d win
    else
      let r : DsOut := match op with
        | 1 => s.dsemit u base d (a % 2 ^ 32)
        | 2 => s.dstrunc u base d
        | 3 => .ok (s, dsGet d (if cur = 0 then dsG else if cur = 1 then dsP else dsH))
        | 4 => s.kvinv u d a b
        | 5 => s.kvaccept u base d a b
        | _ => s.kvcommit u base d
      r.map (fun x => (x.1, x.2, false))

/-- A result of an operation goes to its register, at the cycle it is readable from (R376). -/
def State.dsReturn (s : State) (o : DsOp) (v : Nat) : State :=
  if o.rd = 0 then s
  else
    let r : SRes := { core := o.core, place := .reg o.rd, val := BitVec.ofNat 64 v, stamp := o.stamp, icyc := o.entry.icyc }
    s.postAt (max ((s.frozenAt o.core).getD s.now) o.due) 0 (some o.core) (.run .scalarResult (.sres r))
/-- An operation is over. -/
def State.dropDs (s : State) (id : Nat) : State := { s with dsops := s.dsops.filter (fun x => x.id != id) }
/-- An operation waits, in an ELASTIC stope, for a page or behind one that does: its promised time counts anew from when it can go on, and its register is pending (R290,
R376). -/
def State.dsWait (s : State) (o : DsOp) : State :=
  let s : State := { s with dsops := s.dsops.map (fun x => if x.id = o.id then { x with due := if o.due = 0 then 0 else s.now + 1760 } else x) }
  let s := s.modCore o.core (fun k =>
    let r := vget k.s o.rd.toNat {}
    if o.rd != 0 && r.stamp ≤ o.stamp then { k with s := vset k.s o.rd.toNat { r with pending := some o.stamp } } else k)
  let again : Act := .run .dsPerform (.nums [o.id])
  if s.agenda.any (fun e => e.at_ == s.now + 1 && e.act == again) then s else s.post (s.now + 1) 0 none again
/-- An operation performs here. A page that the TLB of its stream unit misses, or that a final pass has frozen: in a TIMED stope the access is
refused, in an ELASTIC one the operation waits and performs then (R290, R297). -/
def State.dsRun (s : State) (o : DsOp) : State :=
  match s.dsEffect (.core o.core) o.op o.cur o.win o.base.toNat o.a.toNat o.b.toNat with
  | .ok (t, v, late) =>
    let t := (t.dropDs o.id).dsReturn o v
    if late then t.dsFault { o with rd := 0 } { code := 0x30 } else t
  | .error (.fault f) => ((s.dropDs o.id).dropFailed 0 o.core f.va.toNat).dsFault o f
  | .error (.poison va rs) =>
    (rs.foldl (fun t r => t.memScrub r.1 r.2) (s.dropDs o.id)).dsFault o { code := 0x18, va := BitVec.ofNat 64 va, kind := kindDs }
  | .error (.miss va write) =>
    if s.elastic o.core then (s.startWalk 0 o.core va write kindDs).dsWait o
    else (s.dropDs o.id).dsFault o { code := 4, sub := 6, va := BitVec.ofNat 64 va, kind := kindDs }
  | .error (.frozen va) =>
    if s.elastic o.core then s.dsWait o else (s.dropDs o.id).dsFault o { code := 4, sub := 6, va := BitVec.ofNat 64 va, kind := kindDs }
/-- The operations of a core that it issued up to one, in their order; one that waits, or whose home in another package has not answered, holds
back those after it (R345). -/
def State.dsUpTo (s : State) (c : Nat) : List DsOp → State
  | [] => s
  | o :: os =>
    let s := if o.far then s else s.dsRun o
    if s.dsops.any (fun x => x.id == o.id) then
      os.foldl State.dsWait s
    else s.dsUpTo c os
/-- What an operation of another package comes to at its home here: the value of rd, or the code its sender raises (R337, R374, R377). -/
def State.dsAnswer (s : State) (pkg id : Nat) (r : Except DsStop (State × Nat × Bool)) : State :=
  match r with
  | .ok (t, v, late) => t.answer pkg id (leBytes 8 v) (if late then 0x30 else 0)
  | .error (.fault f) => s.answer pkg id (leBytes 8 f.va.toNat) f.code
  | .error (.poison va rs) => (rs.foldl (fun t r => t.memScrub r.1 r.2) s).answer pkg id (leBytes 8 va) 0x18
  | .error (.miss va _) => s.answer pkg id (leBytes 8 va) 0x12
  | .error (.frozen va) => s.answer pkg id (leBytes 8 va) 0x12
/-- An operation of another package at its descriptor's home here. One that meets a frozen page waits for the end of the freeze, and later
requests of that package stand behind it (R297, R337). -/
def State.dsFar (s : State) (pkg : Nat) (r : FarReq) : State :=
  match r with
  | .ds id spid op cur win base a b =>
    if s.heldBack pkg then s.holdBack pkg r
    else
      match s.dsEffect (.far pkg spid) op cur win base.toNat a.toNat b.toNat with
      | .error (.frozen _) => s.holdBack pkg r
      | x => s.dsAnswer pkg id x
  | _ => s.farPerform pkg r
/-- The requests that frozen pages held up go on, in their order. -/
def State.goOnDeferred (s : State) : State :=
  s.deferred.foldl (fun (t : State) d =>
    match d.2 with
    | .write _ pa data sel poison => if d.1 < 64 then t.farPerform d.1 (.write 0 pa data sel poison) else t.writeHome (d.1 - 64) pa data
    | r => t.dsFar d.1 r) { s with deferred := [] }
/-- An operation whose descriptor lies in another package leaves by the window rule (R337) once those of its core before it that do not go the same
way have performed (R345); what it comes to must be back by the start of window N + 2. -/
def State.dsLeave (s : State) (o : DsOp) : State :=
  if s.dsops.any (fun x => x.core == o.core && x.id < o.id && !(x.far && x.pkg == o.pkg)) then
    s.post (s.now + 1) 0 none (.run .dsPerform (.nums [o.id, 1]))
  else
    (s.post s.windowPlus2 3 none (.run .promiseExpiry (.nums [o.id]))).send o.pkg
      (.request s.window (.ds (64 * o.id) (s.spidOf o.core) o.op o.cur o.win o.base o.a o.b))

/-- DS_PERFORM (R345, R374, R376, R377): the operation with this number performs, after those of its core before it; or, as an input, an operation of
another package performs at its descriptor's home here, or the answer to one of this package's operations comes. -/
def execDsPerform (s : State) : Host.Outcome State Fault Refusal :=
  match s.arg with
  | .nums [id] =>
    match s.dsops.find? (fun o => o.id == id) with
    | some o => .next (if o.far then s else s.dsUpTo o.core (s.dsops.filter (fun x => x.core == o.core && x.id ≤ id)))
    | none => .next s
  | .nums [id, _] => .next ((s.dsops.find? (fun o => o.id == id)).elim s s.dsLeave)
  | .far pkg r => .next (s.dsFar pkg r)
  | .reply id data code =>
    match s.dsops.find? (fun o => o.id == id / 64 && o.far) with
    | some o =>
      let s := s.dropDs o.id
      let v := leNat (data.take 8)
      .next (if code = 0 then s.dsReturn o v
             else if code = 0x30 then (s.dsReturn o v).dsFault { o with rd := 0 } { code := 0x30 }
             else s.dsFault o { code, va := BitVec.ofNat 64 v, kind := kindDs })
    | none => .next s
  | _ => .next s

/-! ### Issuing an operation (R375 to R377) -/

/-- The descriptor that DSCTX names (R372): a canonical address. -/
def Core.dsAddr (k : Core) : Word64 := ((k.sr.dsctx.setWidth 57 <<< 8 : BitVec 57)).signExtend 64
/-- Bound within which an operation performs (R376): CKSIZE as it stands at issue. -/
def State.dsBound (s : State) (op pa : Nat) : Nat :=
  let ck := leNat (s.homeRead (pa + dsCksize) 4)
  1760 + (if op = 1 then ck / 32 else if op = 2 then ck / 32 else if op = 6 then 4 * ck / 32 else 0)
/-- The descriptor's address for the stream unit of a core: every operation but DSCUR and KVINV writes it (R374, R381, R382). -/
def State.dsBase (s : State) (c op va : Nat) : Xlat :=
  if va = 0 then .ok 0
  else
    let write := op != 3 && op != 4
    match s.pageOf 0 c va kindDs write with
    | .ok pa =>
      if s.mayAccess (coreMaster 4 c) pa 256 0 && (!write || s.mayAccess (coreMaster 4 c) pa 256 1) then .ok pa else .fault (denied va kindDs)
    | x => x
/-- An operation of a word of the scalar stream: the refusals of R376, translation of the descriptor, admission, and the moment it performs: a
DSADMIT at the start of window V + 1, any other within its bound and after the admissions that its core issued before (R345). -/
def dsIssue (s : State) (c op cur : Nat) (rd : BitVec 5) (a b : Word64) : SOut :=
  let k := s.core c
  let base := k.dsAddr
  let write := op != 3 && op != 4
  let s := if s.elastic c && s.dsBase c op base.toNat == .miss then s.walkAtOnce c base.toNat write kindDs else s
  match s.dsBase c op base.toNat with
  | .fault f => .fault (s.dropFailed 0 c base.toNat) f
  | .miss => .block (if s.elastic c then s.startWalk 0 c base.toNat write kindDs else s) 6
  | .ok pa =>
    let far := base != 0 && s.isRemote pa
    if !s.elastic c && (far || (op == 0 && rd != 0)) then .block s 6
    else if s.refuses c 1 256 (if base = 0 then [] else [pa]) false then .block s 6
    else
      let admits := (s.dsops.filter (fun o => o.core == c && o.op == 0)).foldl (fun m o => max m o.at_) 0
      -- a result that is readable at a stated cycle is there by then
      let bound := if rd != 0 || op == 3 || base == 0 then 1760 else s.dsBound op pa
      let at_ := if far then s.windowPlus2 else if op = 0 then s.winAt + 1700 else max admits (s.within bound)
      let o : DsOp := { id := s.seq, core := c, op, cur, rd, a, b, base, win := s.window, stamp := k.sc.istamp, at_
                        due := if far || op == 0 then 0 else s.now + 1760, far, pkg := paPkg pa, entry := { k.scalarEntry with own := false } }
      let waits := rd != 0 && (far || op == 0)
      let s := if waits then s.setCore c { k with s := vset k.s rd.toNat { vget k.s rd.toNat {} with pending := some k.sc.istamp } } else s
      let s := ({ s with dsops := s.dsops ++ [o] } : State).drawn
      .ok (if far then s.dsLeave o else s.post at_ 0 none (.run .dsPerform (.nums [o.id]))) 1 none

/-- DSADMIT (R378): performs at the start of the next window. -/
def execDsadmit (g : BitVec 2) (d : BitVec 5) (s : State) : Host.Outcome State Fault Refusal :=
  scalarWord (.dsadmit g d) s (fun s c => guardRegs s c [d.toNat] (dsIssue s c 0 0 d 0 0))
/-- DSEMIT (R379). -/
def execDsemit (g : BitVec 2) (a : BitVec 5) (s : State) : Host.Outcome State Fault Refusal :=
  scalarWord (.dsemit g a) s (fun s c => guardRegs s c [a.toNat] (dsIssue s c 1 0 0 ((s.core c).oper 0 a.toNat) 0))
/-- DSTRUNC (R380). -/
def execDstrunc (g : BitVec 2) (d : BitVec 5) (s : State) : Host.Outcome State Fault Refusal :=
  scalarWord (.dstrunc g d) s (fun s c => guardRegs s c [d.toNat] (dsIssue s c 2 0 d 0 0))
/-- DSCUR (R381). -/
def execDscur (g : BitVec 2) (d : BitVec 5) (x : BitVec 2) (s : State) : Host.Outcome State Fault Refusal :=
  scalarWord (.dscur g d x) s (fun s c => guardRegs s c [d.toNat] (dsIssue s c 3 x.toNat d 0 0))
/-- KVINV (R382). -/
def execKvinv (g : BitVec 2) (a b : BitVec 5) (s : State) : Host.Outcome State Fault Refusal :=
  scalarWord (.kvinv g a b) s (fun s c =>
    guardRegs s c [a.toNat, b.toNat]
      (let k := s.core c
       let x := k.oper 0 a.toNat
       if x.toNat % 64 != 0 then .fault s { code := 0x11, va := x, kind := kindDs } else dsIssue s c 4 0 0 x (k.oper 1 b.toNat)))
/-- KVACCEPT (R383). -/
def execKvaccept (g : BitVec 2) (a b : BitVec 5) (s : State) : Host.Outcome State Fault Refusal :=
  scalarWord (.kvaccept g a b) s (fun s c =>
    guardRegs s c [a.toNat, b.toNat]
      (let k := s.core c
       let y := k.oper 1 b.toNat
       let n := bitsOf y.toNat 0 7
       if n = 0 || 64 < n || bitsOf y.toNat 7 9 != 0 || bitsOf y.toNat 32 32 == 0 then sOperand s
       else dsIssue s c 5 0 0 (k.oper 0 a.toNat) y))
/-- KVCOMMIT (R384). -/
def execKvcommit (g : BitVec 2) (d : BitVec 5) (s : State) : Host.Outcome State Fault Refusal :=
  scalarWord (.kvcommit g d) s (fun s c => guardRegs s c [d.toNat] (dsIssue s c 6 0 d 0 0))

/-! ### The playback side (R370, R371, R373) -/

/-- The process and open stream of a SID. -/
def State.streamOf (s : State) (sid : Nat) : Option (Proc × DStream) :=
  s.procs.findSome? (fun p => (p.streams.find? (fun x => x.sid == sid)).map (fun x => (p, x)))
/-- A whole field of a process's memory, as the playback side finds it. -/
def State.procField (s : State) (spid va n : Nat) : Nat := leNat ((s.procRead spid va n).getD [])
/-- The playback side writes: the host through its endpoint, or the network port (R371, R373). -/
def State.playbackWrite (s : State) (spid side va : Nat) (data : List Byte) : State :=
  if side = 1 then s.netWrite spid va data else s.masterWrite (8 * 4096) spid va data
/-- The network port reads a doubleword of the descriptor: where its page is not mapped, the port's page fault (R293). -/
def State.portMiss (s : State) (spid side va : Nat) : Bool := side == 1 && (s.walkPa spid va false).isNone
/-- FRAME_PUBLISH (R371): the record with ADM 0, then FPUB + 1; the network port stamps the window itself. A page fault of the port's reads pauses the
publication, which begins again (R293). -/
def execFramePublish (s : State) : Host.Outcome State Fault Refusal :=
  match s.arg with
  | .frame sid f =>
    match s.streamOf sid with
    | some (p, x) =>
      let fault := [x.desc + dsFpub, x.desc + dsFring].find? (s.portMiss p.spid x.side)
      let fpub := s.procField p.spid (x.desc + dsFpub) 8
      let at_ := s.procField p.spid (x.desc + dsFring) 8 + 32 * (fpub % 64)
      let win := if x.side = 1 then s.window else f.win.toNat
      let rec_ := leBytes 8 win ++ leBytes 8 f.mt.toNat ++ leBytes 4 f.len.toNat ++ leBytes 2 (if f.barge then 1 else 0) ++ leBytes 2 0 ++ leBytes 8 f.pay.toNat
      match fault with
      | some va =>
        .next ((s.post s.now 3 none (.run .portPageFault (.word [0, p.spid] (BitVec.ofNat 64 va)))).post (s.now + 1) 1 none (.run .framePublish (.frame sid f)))
      | none => .next (s.playbackWrite p.spid x.side at_ rec_ |>.playbackWrite p.spid x.side (x.desc + dsFpub) (leBytes 8 (fpub + 1)))
    | none => .next s
  | _ => .next s
/-- PLAYBACK_CURSOR_WRITE (R370): a whole doubleword, between operations (R374). -/
def execPlaybackCursorWrite (s : State) : Host.Outcome State Fault Refusal :=
  match s.arg with
  | .word [sid] v =>
    match s.streamOf sid with
    | some (p, x) => .next (s.playbackWrite p.spid x.side (x.desc + dsP) (leBytes 8 v.toNat))
    | none => .next s
  | _ => .next s

end Sys2Proof.Machine
end

