-- ==== Sys2Proof/Machine/Calls.lean ====
section
/-! DEFINITION. The system calls other than opening, launching and waiting: memory, seam banks, streams, plans, handlers, files, attestation and exit (R51, R262, R292, R297, R363, R373, R391, R418, R419). -/

namespace Sys2Proof.Machine

/-- NO_CALL (R49, R50). -/
def execNoCall (s : State) : Host.Outcome State Fault Refusal := .next (s.callReturn s.curHart (callError 0x40 0 0))
/-- A call returns 0. -/
def State.callOk (s : State) : State := s.callReturn s.curHart 0
/-- A call returns BAD_ARG. -/
def State.callBad (s : State) : State := s.callReturn s.curHart badArg

/-! ### Device TLBs (R295, R296) -/

/-- An invalidation takes effect in every device TLB of the package: entries of an SPID whose page contains an address, or all of them; walks in
flight look at the current tables when they end. -/
def State.invalidate (s : State) (spid : Nat) (va : Option Nat) : State :=
  let keep := fun (e : TlbEntry) => !(e.spid == spid && va.all (fun a => decide (e.va ≤ a) && decide (a < e.va + e.size)))
  let held := fun (k : Core) (x : CopyRun) =>
    -- a copy looks its pages up again, whatever the size of the page that went
    if k.bnd.spid = spid then { x with pages := [] } else x
  { s with cores := s.cores.map (fun c => (c.1, { c.2 with tlb := c.2.tlb.filter keep, ctlb := c.2.ctlb.filter keep, copy := c.2.copy.map (held c.2) }))
           netPort := { s.netPort with tlb := s.netPort.tlb.filter keep }, stoPort := { s.stoPort with tlb := s.stoPort.tlb.filter keep } }
/-- The kernel's own shootdown of pages it has changed (R296, R297): here at once. -/
def State.shoot (s : State) (spid : Nat) (pages : List Nat) : State := pages.foldl (fun t a => t.invalidate spid (some a)) s
/-- The other packages that launches of a process reach: their kernels are asked to shoot pages down too (R296). -/
def State.farKernels (s : State) (spid : Nat) : List Nat :=
  ((s.launches.filter (fun l => l.spid == spid && l.st != .complete)).flatMap (fun l => l.others s.pkg)).dedup
/-- Ask them, under a number that their acknowledgements carry. -/
def State.askShoot (s : State) (spid id : Nat) (pages : List Nat) : State :=
  (s.farKernels spid).foldl (fun t p => t.send p (.shoot t.window id spid pages)) s
/-- A memory call that has changed these pages returns: the shootdown of a process whose launches span packages is complete when the last kernel
has acknowledged it (R296). -/
def State.callShot (s : State) (spid : Nat) (pages : List Nat) (v : Word64) : State :=
  let ps := s.farKernels spid
  let s := s.shoot spid pages
  if pages.isEmpty || ps.isEmpty then s.callReturn s.curHart v
  else
    let id := s.seq
    let t := ({ s with seq := s.seq + 1 } : State).askShoot spid id pages
    t.callBlocks t.curHart { id, hart := t.curHart, spid, kind := 4, target := v.toNat, flows := ps.map (fun p => (p, 0, 0)) }
/-- Another package's kernel has acknowledged a shootdown. -/
def State.shootAck (s : State) (pkg id : Nat) : State :=
  match s.pending.find? (fun p => p.id == id && p.kind == 4) with
  | some p =>
    let p := { p with flows := p.flows.filter (fun f => f.1 != pkg) }
    if p.flows.isEmpty then s.endPending p (BitVec.ofNat 64 p.target)
    else { s with pending := s.pending.map (fun x => if x.id = id then p else x) }
  | none => s

/-! ### Memory (R292) -/

/-- A package is present: this one, or one that the routing registers name (R288). -/
def State.pkgHere (s : State) (p : Nat) : Bool := decide (p < 64) && s.routes p
/-- A home is present: package in [5:0], die in [6] (R292). -/
def State.homeHere (s : State) (a : Nat) : Bool :=
  a < 128 && s.pkgHere (a % 64) && (a / 64 == 0 || (if a % 64 = s.pkg then s.fuse.die1 else Config.peerDie1 (a % 64)))
/-- A range is covered by a list of ranges; `fuel` bounds them. -/
def covered (l : List (Nat × Nat)) : Nat → Nat → Nat → Bool
  | 0, a, stop => decide (stop ≤ a)
  | fuel + 1, a, stop =>
    if stop ≤ a then true
    else
      match l.find? (fun r => r.1 ≤ a && a < r.1 + r.2) with
      | some r => covered l fuel (r.1 + r.2) stop
      | none => false
/-- A range is wholly allocated to a process, in whole units of 64 KiB (R292). -/
def Proc.owns (p : Proc) (va len : Nat) : Bool :=
  va % page64K == 0 && len % page64K == 0 && 0 < len && covered (p.allocs.map (fun a => (a.va, a.len))) (p.allocs.length + 1) va (va + len)
/-- A bound launch of the process has preloaded a page, whether its locked entries stand still or a KTLBI has removed them (R291, R292). -/
def State.preloaded (s : State) (spid va size : Nat) : Bool :=
  s.launches.any (fun l => l.spid == spid && s.stopes.any (fun t => t.gen == l.gen) && l.preloads.any (fun r => decide (r.1 < va + size) && decide (va < r.1 + r.2)))
    || s.cores.any (fun c => (c.2.tlb ++ c.2.ctlb).any (fun e =>
    e.locked && e.spid == spid && s.stopes.any (fun t => t.gen == e.owner) && decide (e.va < va + size) && decide (va < e.va + e.size)))
/-- Some page of a range has been preloaded. -/
def State.anyPreloaded (s : State) (p : Proc) (va len : Nat) : Bool := (p.pages va len).any (fun x => s.preloaded p.spid x.1 x.2.1)
/-- A 2 MiB page remapped as 32 pages of 64 KiB (R292); if it is pinned, so are they. -/
def Proc.split (p : Proc) (x : Nat × Nat × Word64) : Proc :=
  if x.2.1 != page2M then p
  else
    let pa := leafPa x.2.2 x.2.1 x.1
    let q := (p.setPte 1 x.1 1).mapRange x.1 page2M page64K pa (pteBit x.2.2 2)
    { q with pinned := q.pinned.flatMap (fun r => if r.1 = x.1 then (List.range 32).map (fun i => (x.1 + page64K * i, page64K)) else [r]) }
/-- Remap the 2 MiB pages that a range covers in part (R292). -/
def Proc.splitFor (p : Proc) (va len : Nat) : Proc :=
  ((p.pages va len).filter (fun x => decide (x.1 < va) || decide (va + len < x.1 + x.2.1))).foldl Proc.split p
/-- Pages of a process that are pinned, at most 192 (R292). -/
def Proc.pin (p : Proc) (va len : Nat) : Proc :=
  (p.pages va len).foldl (fun q x => if q.pinned.any (fun r => r.1 == x.1) then q else { q with pinned := q.pinned ++ [(x.1, x.2.1)] }) p
/-- The pinned pages stay within 192 TLB entries. -/
def Proc.pinsOk (p : Proc) : Bool := p.pinned.length ≤ 192

/-- KQ_MEM_ALLOC (R292). -/
def execKqMemAlloc (s : State) : Host.Outcome State Fault Refusal :=
  let sp := s.callerSpid
  let len := (s.callArg 0).toNat
  let home := (s.callArg 1).toNat
  let flags := (s.callArg 2).toNat
  match s.proc? sp with
  | none => .next s.callBad
  | some _ =>
    if len % page64K != 0 || len == 0 || 4 ≤ flags || !s.homeHere home then .next s.callBad
    else
      match s.allocRange sp len page64K (home % 64) (home / 64) (bitOf flags 0) with
      | none => .next (s.callReturn s.curHart noMemory)
      | some (t, va, _) =>
        if bitOf flags 1 then
          let t' := t.modProc sp (fun p => p.pin va len)
          if (t'.proc? sp).all Proc.pinsOk then .next (t'.callReturn s.curHart (BitVec.ofNat 64 va)) else .next (s.callReturn s.curHart noMemory)
        else .next (t.callReturn s.curHart (BitVec.ofNat 64 va))
/-- KQ_MEM_FREE (R292). -/
def execKqMemFree (s : State) : Host.Outcome State Fault Refusal :=
  let sp := s.callerSpid
  let va := (s.callArg 0).toNat
  let len := (s.callArg 1).toNat
  match s.proc? sp with
  | none => .next s.callBad
  | some p =>
    if !p.allocs.any (fun a => a.va == va && a.len == len) || s.anyPreloaded p va len then .next s.callBad
    else
      let pages := p.pages va len
      let q := pages.foldl (fun q x => q.unmapPage x.1 x.2.1) p
      let q := { q with allocs := q.allocs.filter (fun a => a.va != va), pinned := q.pinned.filter (fun r => !(va ≤ r.1 && r.1 < va + len)) }
      let s := s.modProc sp (fun _ => q)
      let s : State := { s with migrations := s.migrations.filter (fun m => !(m.spid == sp && va ≤ m.va && m.va < va + len)) }
      .next (s.callShot sp (pages.map (fun x => x.1)) 0)
/-- A migration of a 2 MiB page that has been remapped goes on page by page (R292, R297); one in its tail stays whole. -/
def State.splitMigrations (s : State) (spid va : Nat) : State :=
  let hit := fun (m : Migration) => m.spid == spid && m.va == va && m.size == page2M && m.phase ≤ 1
  match s.migrations.find? hit with
  | none => s
  | some m =>
    let part := fun (i : Nat) => ({ m with id := s.seq + i, va := m.va + page64K * i, size := page64K, oldPa := m.oldPa + page64K * i, newPa := m.newPa + page64K * i
                                           lines := (m.lines.filter (fun l => l / 1024 == i)).map (fun l => l % 1024) } : Migration)
    let t : State := { s with migrations := s.migrations.filter (fun x => !hit x) ++ (List.range 32).map part, seq := s.seq + 32 }
    if m.phase = 0 then (List.range 32).foldl (fun u i => u.post (u.now + 1) 1 none (.run .pageMigration (.nums [s.seq + i]))) t else t
/-- A KQ_MEM_MAP on a range that the process owns, and with `free` one of which nothing is preloaded: 2 MiB pages that it covers in part are
remapped first, and their translations go (R292). The pages that have to be shot down go to the operation. -/
def memMap (s : State) (free : Bool) (f : State → Proc → Nat → Nat → List Nat → State) : Host.Outcome State Fault Refusal :=
  let sp := s.callerSpid
  let va := (s.callArg 0).toNat
  let len := (s.callArg 1).toNat
  match s.proc? sp with
  | none => .next s.callBad
  | some p =>
    if !p.owns va len || (free && s.anyPreloaded p va len) then .next s.callBad
    else
      let q := p.splitFor va len
      if q = p then .next (f s p va len [])
      else
        let pages := (p.pages va len).map (fun x => x.1)
        .next (f (pages.foldl (fun t a => t.splitMigrations sp a) (s.modProc sp (fun _ => q))) q va len pages)
/-- KQ_MEM_MAP with op 0: writable or not (R292). An op that names no operation is a bad argument. -/
def execKqMemMapWritable (s : State) : Host.Outcome State Fault Refusal :=
  if s.callArg 2 != 0 then .next s.callBad
  else
    memMap s false (fun s p va len shot =>
      let pages := p.pages va len
      let w := bitOf (s.callArg 3).toNat 0
      let q := pages.foldl (fun q x => q.mapPage x.1 x.2.1 (leafPa x.2.2 x.2.1 x.1) w) p
      (s.modProc p.spid (fun _ => q)).callShot p.spid (shot ++ pages.map (fun x => x.1)) 0)
/-- KQ_MEM_MAP with op 1: pin (R291, R292). -/
def execKqMemMapPin (s : State) : Host.Outcome State Fault Refusal :=
  memMap s false (fun s p va len shot =>
    let q := p.pin va len
    -- a page that is pinned is no longer moved (R292)
    let stays := fun (m : Migration) => m.spid == p.spid && decide (m.va < va + len) && decide (va < m.va + m.size) && m.phase ≤ 1
    if q.pinsOk then (({ s with migrations := s.migrations.filter (fun m => !stays m) } : State).modProc p.spid (fun _ => q)).callShot p.spid shot 0
    else s.callShot p.spid shot noMemory)
/-- KQ_MEM_MAP with op 2: unpin (R292). -/
def execKqMemMapUnpin (s : State) : Host.Outcome State Fault Refusal :=
  memMap s true (fun s p va len shot =>
    let pages := (p.pages va len).map (fun x => x.1)
    (s.modProc p.spid (fun q => { q with pinned := q.pinned.filter (fun r => !pages.contains r.1) })).callShot p.spid shot 0)

/-! ### Migration (R297) -/

/-- Start the copy pass of one page towards a new home; none where that home has no room. A page that is on its way to another home turns; one in
the tail of a move starts from where it now lies. -/
def State.startMigration (s : State) (p : Proc) (x : Nat × Nat × Word64) (home : Nat) : Option State :=
  let oldPa := leafPa x.2.2 x.2.1 x.1
  let mine := fun (m : Migration) => m.spid == p.spid && m.va == x.1 && m.phase ≤ 1
  let here := oldPa / 2 ^ 50 == home % 64 && oldPa % 2 ^ 50 / 2 ^ 40 == home / 64
  if s.migrations.any (fun m => mine m && m.newPkg == home % 64 && m.newDie == home / 64) then some s
  else
    let s : State := { s with migrations := s.migrations.filter (fun m => !mine m) }
    if here then some s
    else
      match s.placePhys x.2.1 x.2.1 (home % 64) (home / 64) with
      | none => none
      | some pa =>
        let id := s.seq
        let m : Migration := { id, spid := p.spid, va := x.1, size := x.2.1, oldPa, newPa := pa, newPkg := home % 64, newDie := home / 64 }
        let s : State := { s with migrations := s.migrations ++ [m], free := s.free + 2 }
        some (s.post (s.now + 1) 1 none (.run .pageMigration (.nums [id])))
/-- KQ_MEM_MAP with op 3: the kernel moves the pages that are not pinned; the call returns when the copy passes have begun (R292, R297, log 36). -/
def execKqMemMapMigrate (s : State) : Host.Outcome State Fault Refusal :=
  let home := (s.callArg 3).toNat
  if !s.homeHere home then .next s.callBad
  else
    memMap s true (fun s p va len shot =>
      let pages := (p.pages va len).filter (fun x => !p.pinned.any (fun r => r.1 == x.1))
      match pages.foldl (fun (acc : Option State) x => acc.bind (fun t => t.startMigration p x home)) (some s) with
      | some t => t.callShot p.spid shot 0
      | none => s.callShot p.spid shot noMemory)
/-- Copy one 64-byte line of a page to its new home. -/
def State.copyLine (s : State) (m : Migration) (l : Nat) : State :=
  let far := match s.homeOf m.oldPa with | .remote _ => true | _ => false
  let data := s.homeRead (m.oldPa + 64 * l) 64
  let s := if far then s.drawn else s
  let s := match s.homeOf m.newPa with
    | .remote p => s.send p (.request s.window (.write 0 (m.newPa + 64 * l) data [] false))
    | _ => s.homeWrite (m.newPa + 64 * l) data
  { s with migrations := s.migrations.map (fun x => if x.id = m.id then { x with lines := x.lines ++ [l] } else x) }
/-- Lines of a page whose bit is clear (R297). -/
def Migration.dirty (m : Migration) : List Nat := (List.range (m.size / 64)).filter (fun l => !m.lines.contains l)
/-- PAGE_MIGRATION (R297): one line of the copy pass; the controller goes on to the next after a time that is open, until every bit is set. -/
def execPageMigration (s : State) : Host.Outcome State Fault Refusal :=
  match s.arg with
  | .nums [id] =>
    match s.migrations.find? (fun m => m.id == id) with
    | some m =>
      match (if m.phase = 0 then m.dirty else []) with
      | l :: _ =>
        let s := s.copyLine m l
        .next ((s.post (s.now + 1 + Config.freeDelay s.free) 1 none (.run .pageMigration (.nums [id]))).drawn)
      | [] => .next s
    | none => .next s
  | _ => .next s
/-- A migration at a window's boundary (R297): the final pass freezes the page once the copy pass has ended; a window later the lines left are
copied and the PTE switched, or the migration stops where they are too many; two windows on, the old home lets go. -/
def State.migrateAt (s : State) (id : Nat) : State :=
  match s.migrations.find? (fun m => m.id == id) with
  | none => s
  | some m =>
    let put := fun (t : State) (x : Migration) => ({ t with migrations := t.migrations.map (fun y => if y.id = id then x else y) } : State)
    if m.phase = 0 then
      if s.agenda.any (fun e => match e.act with | .run .pageMigration (.nums [x]) => x == id | _ => false) then s
      else put s { m with phase := 1, win := s.window }
    else if m.phase = 1 then
      if s.window < m.win + 1 then s
      else if !Config.recopyFits m.dirty.length then { s with migrations := s.migrations.filter (fun x => x.id != id) }
      else
        let s := m.dirty.foldl (fun t l => t.copyLine m l) s
        let w := ((s.proc? m.spid).bind (fun p => p.pageAt m.va)).elim false (fun x => pteBit x.2.2 2)
        let s := (s.modProc m.spid (fun p => p.mapPage m.va m.size m.newPa w)).invalidate m.spid (some m.va)
        put (s.askShoot m.spid s.seq [m.va]) { m with phase := 2, lines := [] }
    else if m.win + 3 ≤ s.window then { s with migrations := s.migrations.filter (fun x => x.id != id) }
    else s

/-! ### Seam banks (R262) -/

/-- Cores that a 128-byte bitmap names, in the numbering die × 512 + index. -/
def bitmapCores (b : List Byte) : List Nat := (List.range 1024).filter (fun c => bitOf (b.getD (c / 8) 0).toNat (c % 8))
/-- A core's number among the reservations: its own here, beyond them for another package (log 37). -/
def State.seamCore (s : State) (pkg c : Nat) : Nat := if pkg = s.pkg then c else 1024 * (pkg + 1) + c
/-- The checks of both operations: package, bitmap, enabled cores, no other process's reservation. -/
def State.seamArgs (s : State) : Option (List Nat) :=
  let pkg := (s.callArg 0).toNat
  if !s.pkgHere pkg || 2 ^ 32 ≤ (s.callArg 2).toNat || 2 ≤ (s.callArg 3).toNat then none
  else
    match s.procRead s.callerSpid (s.callArg 1).toNat 128 with
    | none => none
    | some b =>
      let cs := bitmapCores b
      let ids := cs.map (s.seamCore pkg)
      if cs.all (fun c => if pkg = s.pkg then s.coreUsable c else Config.peerCore pkg c)
          && s.reservations.all (fun r => r.2.1 == s.callerSpid || !ids.contains r.1) then some ids
      else none
/-- Reservations of a process on cores changed. -/
def State.setReserved (s : State) (spid : Nat) (cs : List Nat) (f : Word32 → Word32) : State :=
  let others := s.reservations.filter (fun r => !(r.2.1 == spid && cs.contains r.1))
  let new := (cs.map (fun c => (c, spid, f (BitVec.ofNat 32 (s.reservedMask spid c))))).filter (fun r => r.2.2 != 0)
  { s with reservations := others ++ new }
/-- KQ_SEAM_ALLOC with a3 = 0 (R262). Reservations on another package's cores are noted where the call is made (log 37). -/
def execKqSeamAllocReserve (s : State) : Host.Outcome State Fault Refusal :=
  match s.seamArgs with
  | none => .next s.callBad
  | some cs =>
    let mask := (s.callArg 2).setWidth 32
    .next (s.setReserved s.callerSpid cs (fun m => m ||| mask)).callOk
/-- KQ_SEAM_ALLOC with a3 = 1 (R262). -/
def execKqSeamAllocRelease (s : State) : Host.Outcome State Fault Refusal :=
  match s.seamArgs with
  | none => .next s.callBad
  | some cs =>
    let mask := (s.callArg 2).setWidth 32
    if cs.all (fun c => mask &&& BitVec.ofNat 32 (s.reservedMask s.callerSpid c) == mask) then
      .next ((s.setReserved s.callerSpid cs (fun m => m &&& ~~~mask)).askSelection).callOk
    else .next s.callBad

/-! ### Streams (R370, R373) -/

/-- Areas that a descriptor names, with the descriptor: address, bytes, alignment (log 38). -/
def streamAreas (desc : Nat) (d : List Byte) : List (Nat × Nat × Nat) :=
  let ck := dsGet d dsCksize
  let cap := dsGet d dsCapy
  [(desc, 256, 256), (dsGet d dsFring, 2048, 8), (dsGet d dsCring, 128, 8), (dsGet d dsCkstate, 8 * ck, 8), (dsGet d dsLive, ck, 8),
   (dsGet d dsTok, 4 * cap, 4), (dsGet d dsVbmp, cap / 8, 8)]
/-- Every byte of a range is pinned and writable. -/
def Proc.pinnedWritable (p : Proc) (a n : Nat) : Bool :=
  covered (p.pinned.filter (fun r => (p.pageAt r.1).any (fun x => pteBit x.2.2 2))) (p.pinned.length + 1) a (a + n)
/-- The checks of KQ_STREAM_OPEN (R373). -/
def State.streamOk (s : State) (p : Proc) (desc : Nat) (d : List Byte) : Bool :=
  let areas := streamAreas desc d
  let open_ := p.streams.flatMap (fun x => ((s.procRead p.spid x.desc 256).map (streamAreas x.desc)).getD [])
  areas.all (fun a => a.1 % a.2.2 == 0 && p.pinnedWritable a.1 a.2.1 && open_.all (fun o => !overlap a.1 a.2.1 o.1 o.2.1))
    && dsGet d dsCksize ≤ 65536 && dsGet d dsCksize % 256 == 0 && 64 ≤ dsGet d dsCapy && dsGet d dsCapy ≤ 2 ^ 32 && dsGet d dsCapy % 64 == 0
    && allZero (d.drop 0xA0)
/-- KQ_STREAM_OPEN (R373). -/
def execKqStreamOpen (s : State) : Host.Outcome State Fault Refusal :=
  let sp := s.callerSpid
  let desc := (s.callArg 0).toNat
  match s.proc? sp, s.procRead sp desc 256 with
  | some p, some d =>
    if 2 ≤ (s.callArg 1).toNat || !s.streamOk p desc d then .next s.callBad
    else
      let sid := s.nextSid
      let zero := [dsG, dsP, dsH, dsStep, dsFpub, dsFadm, dsAbase, dsAcount, dsAseq, dsCseq]
      let s := zero.foldl (fun t o => t.procWrite sp (desc + o) (List.replicate 8 0)) s
      let s := (List.range 8).foldl (fun t k => t.procWrite sp (dsGet d dsCring + 16 * k + 8) (List.replicate 8 0)) s
      let s := s.procWrite sp (dsGet d dsVbmp) (List.replicate (dsGet d dsCapy / 8) 0)
      let s := (s.procWrite sp (desc + dsFlags) (leBytes 8 1)).procWrite sp (desc + dsSid) (leBytes 4 sid)
      let s : State := { s with nextSid := if sid + 1 < 2 ^ 24 then sid + 1 else 1 }
      .next ((s.modProc sp (fun p => { p with streams := p.streams ++ [{ sid, desc, side := (s.callArg 1).toNat }] })).callReturn s.curHart (BitVec.ofNat 64 sid))
  | _, _ => .next s.callBad
/-- A stream is closed: FLAGS.OPEN cleared, the playback side's access withdrawn (R373). -/
def State.closeStream (s : State) (spid : Nat) (x : DStream) : State :=
  let f := ((s.procRead spid (x.desc + dsFlags) 8).map leNat).getD 0
  (s.procWrite spid (x.desc + dsFlags) (leBytes 8 (f - f % 2))).modProc spid (fun p => { p with streams := p.streams.filter (fun y => y.sid != x.sid) })
/-- KQ_STREAM_CLOSE (R373): a SID that is not open in the process is a bad argument. -/
def execKqStreamClose (s : State) : Host.Outcome State Fault Refusal :=
  let sp := s.callerSpid
  match ((s.proc? sp).map (fun p => p.streams)).getD [] |>.find? (fun x => x.sid == (s.callArg 0).toNat) with
  | some x => .next (s.closeStream sp x).callOk
  | none => .next s.callBad

/-! ### Plans (R363, R364) -/

/-- Flow records of a plan descriptor (R363). -/
def planFlows (b : List Byte) : List (Nat × Nat × Nat) := (chunksOf 16 (b.length / 16) b).map (fun r => (fieldLE r 0 1, fieldLE r 1 1, fieldLE r 2 2))
/-- A plan descriptor is well formed. -/
def State.planOk (s : State) (head b : List Byte) : Bool :=
  let fs := planFlows b
  let n := fieldLE head 0 2
  1 ≤ n && n ≤ 256 && allZero (head.drop 2) && (chunksOf 16 (b.length / 16) b).all (fun r => allZero (r.drop 4))
    && fs.all (fun f => s.pkgHere f.1 && s.pkgHere f.2.1 && decide (1 ≤ f.2.2) && decide (f.2.2 ≤ 64))
    && decide ((fs.map (fun f => (f.1, f.2.1))).dedup.length = fs.length)
/-- KQ_PLAN_REGISTER with a1 = 0 (R363): the call waits until the switches and receivers have reserved the slots. An operation other than 0 and 1
is a bad argument. -/
def execKqPlanRegister (s : State) : Host.Outcome State Fault Refusal :=
  let sp := s.callerSpid
  let a := (s.callArg 0).toNat
  match s.procRead sp a 16 with
  | none => .next s.callBad
  | some head =>
    match (if s.callArg 1 = 0 then s.procRead sp (a + 16) (16 * fieldLE head 0 2) else none) with
    | none => .next s.callBad
    | some b =>
      if !s.planOk head b then .next s.callBad
      else
        let id := s.seq
        let s : State := { s with seq := s.seq + 1 }
        .next (s.callBlocks s.curHart { id, hart := s.curHart, spid := sp, kind := 1, flows := planFlows b })
/-- The other packages of a plan's flows learn of it, or with no flow of its end (R363). -/
def State.tellPlan (s : State) (spid id : Nat) (of_ flows : List (Nat × Nat × Nat)) : State :=
  (((of_.map (fun f => f.1)) ++ of_.map (fun f => f.2.1)).dedup.filter (fun p => p != s.pkg)).foldl (fun t p => t.send p (.plan spid id flows)) s
/-- PLAN_SLOTS_RESERVED (R363): the routes have their slots, or a switch or receiver has too few buffers; or another package tells of a plan. -/
def execPlanSlotsReserved (s : State) : Host.Outcome State Fault Refusal :=
  match s.arg with
  | .nums [id, ok] =>
    match s.pending.find? (fun p => p.id == id && p.kind == 1) with
    | some p =>
      if ok = 0 then .next (s.endPending p noMemory)
      else
        let n := ((s.proc? p.spid).map (fun q => q.nextPlan)).getD 1
        let s := (s.modProc p.spid (fun q => { q with plans := q.plans ++ [{ id := n, flows := p.flows }], nextPlan := n + 1 })).poolSlots p.flows true
        .next ((s.tellPlan p.spid n p.flows p.flows).endPending p (BitVec.ofNat 64 n))
    | none => .next s
  | .plan spid id flows => .next (s.joinPlan spid id flows)
  | _ => .next s
/-- A launch is bound: here, or, once its part here has ended or where it has none, in other packages until it completes (R363). -/
def State.boundLaunch (s : State) (l : Launch) : Bool :=
  s.stopes.any (fun t => t.gen == l.gen) || ((l.others s.pkg).length != 0 && (l.st == .retired || (l.st == .reserved && !l.parts.contains s.pkg)))
/-- A bound launch of a process declares a plan (R34, R363). -/
def State.planUsed (s : State) (spid id : Nat) : Bool :=
  s.launches.any (fun l => l.spid == spid && l.st != .complete && s.boundLaunch l &&
    (s.launchBundle l.gen).any (fun b => b.sects.any (fun x =>
      x.ty == tySYNC && (treeKernels l.tree).contains x.kernel && (syncPlans (b.sectBytes x)).contains id)))
/-- KQ_PLAN_REGISTER with a1 = 1 (R363). -/
def execKqPlanRelease (s : State) : Host.Outcome State Fault Refusal :=
  let sp := s.callerSpid
  let id := (s.callArg 0).toNat
  match (((s.proc? sp).map (fun p => p.plans)).getD []).find? (fun x => x.id == id) with
  | some x =>
    if s.planUsed sp id then .next s.callBad
    else .next (((s.modProc sp (fun p => { p with plans := p.plans.filter (fun y => y.id != id) })).poolSlots x.flows false).tellPlan sp id x.flows []).callOk
  | none => .next s.callBad

/-! ### The fault handler (R391) -/

/-- KQ_FAULT_HANDLER (R391): the handler, its mask, and the address at which its window is mapped. -/
def execKqFaultHandler (s : State) : Host.Outcome State Fault Refusal :=
  let sp := s.callerSpid
  let h := (s.callArg 0).toNat
  match s.proc? sp, (if h = 0 then some [] else s.procRead sp (s.callArg 1).toNat 32) with
  | some p, some m =>
    let win := if p.handlerWin = 0 then s.placeVirt p page64K page64K else p.handlerWin
    let s := s.modProc sp (fun p => { p with handler := h, handlerMask := BitVec.ofNat 256 (leNat m), handlerWin := win })
    .next (({ s with free := s.free + 2 } : State).callReturn s.curHart (BitVec.ofNat 64 win))
  | _, _ => .next s.callBad

/-! ### Storage files (R293, R419) -/

/-- The storage port takes up a call's process and looks at its memory: the parts, or the error and address of the first that fails. A read from
storage writes memory. -/
def State.stoRange (s : State) (p : Pending) : Except (Nat × Nat) (List (Nat × Nat × Nat) × PortUnit) :=
  s.portRange (s.stoPort.serve p.spid) (6 * 4096 + p.token / 2 ^ 32) p.va p.len (p.kind == 2)
/-- A command that has ended has no limit any more. -/
def State.dropTimeout (s : State) (id : Nat) : State :=
  s.cancel (fun e => match e.act with | .run .storageCommandTimeout (.nums [x]) => x == id | _ => false)
/-- A page that the storage port cannot map pauses its transfer and interrupts the kernel (R293). -/
def State.pauseTransfer (s : State) (p : Pending) (va : Nat) : State :=
  let s := s.dropTimeout p.id
  ({ s with pending := s.pending.map (fun x => if x.id = p.id then { x with paused := true } else x) } : State).post s.now 3 none
    (.run .portPageFault (.word [p.id] (BitVec.ofNat 64 va)))
/-- A transfer of the storage port begins, or begins again after a fault, as a command with 10 s of its own (R419): a page that it cannot map pauses
it (R293), a denial ends it. -/
def State.startTransfer (s : State) (p : Pending) : State :=
  let port := p.token / 2 ^ 32
  let write := p.kind == 2
  match s.stoRange p with
  | .ok (l, u) =>
    let data := if write then none else some (l.flatMap (fun x => s.homeRead x.2.1 x.2.2))
    let s := (s.dropTimeout p.id).post (s.now + 8500000000) 1 none (.run .storageCommandTimeout (.nums [p.id]))
    ({ s with stoPort := u, free := s.free + 1 } : State).send s.pkg (.storage p.id port (p.token % 2 ^ 32) p.target p.len data)
  | .error (code, va) => if code = 0x12 then s.pauseTransfer p va else s.endPending p (callError code 0 0)
/-- KQ_FILE_READ and KQ_FILE_WRITE: the checks, then the transfer (R419). -/
def fileCall (s : State) (kind : Nat) : Host.Outcome State Fault Refusal :=
  let a := (s.callArg 0).toNat
  let off := (s.callArg 1).toNat
  let va := (s.callArg 2).toNat
  let len := (s.callArg 3).toNat
  if 2 ^ 34 ≤ a || a == 1 || off % 4096 != 0 || va % 4096 != 0 || len % 4096 != 0 || Config.namespaceBytes (a / 2 ^ 32) (a % 2 ^ 32) < off + len
      || (s.proc? s.callerSpid).isNone then
    .next s.callBad
  else if len = 0 then .next s.callOk
  else
    let p : Pending := { id := s.seq, hart := s.curHart, spid := s.callerSpid, kind, token := a, target := off, va, len }
    let s := ({ s with seq := s.seq + 1 } : State).callBlocks s.curHart p
    match s.pending.find? (fun x => x.id == p.id) with
    | some p => .next (s.startTransfer p)
    | none => .next s
/-- KQ_FILE_READ (R419). -/
def execKqFileRead (s : State) : Host.Outcome State Fault Refusal := fileCall s 2
/-- KQ_FILE_WRITE (R419). -/
def execKqFileWrite (s : State) : Host.Outcome State Fault Refusal := fileCall s 3
/-- PORT_PAGE_FAULT (R293, R419): the kernel looks at the page; where it is mapped now the transfer goes on, else the call returns PAGE_FAULT. A
transfer of the network port stays paused while its page is not mapped (log 50). -/
def execPortPageFault (s : State) : Host.Outcome State Fault Refusal :=
  match s.arg with
  | .word [id] va =>
    match s.pending.find? (fun p => p.id == id && p.paused) with
    | some p =>
      if (s.walkPa p.spid va.toNat (p.kind == 2)).isSome then
        let s : State := { s with pending := s.pending.map (fun x => if x.id = id then { x with paused := false } else x) }
        .next (s.startTransfer { p with paused := false })
      else .next (s.endPending p (callError 0x12 0 0))
    | none => .next s
  | .word [0, spid] va =>
    .next (if (s.walkPa spid va.toNat true).isSome then s.netGo s.netPort.paused else s)
  | _ => .next s
/-- STORAGE_TRANSFER_COMPLETE (R419): every block has transferred, or the media read was uncorrectable (no data). A page that is no longer mapped
pauses the transfer, which starts again (R293). -/
def execStorageTransferComplete (s : State) : Host.Outcome State Fault Refusal :=
  match s.arg with
  | .transfer id data =>
    match s.pending.find? (fun p => p.id == id && (p.kind == 2 || p.kind == 3)), data with
    | some p, none => .next (s.endPending p (callError 0x18 0 0))
    | some p, some d =>
      if p.kind != 2 then .next (s.endPending p (BitVec.ofNat 64 p.len))
      else
        match s.stoRange p with
        | .ok (l, u) =>
          .next ((l.foldl (fun (t : State) x => t.writeHome (6 * 4096 + p.token / 2 ^ 32) x.2.1 (sliceOf d x.1 x.2.2)) { s with stoPort := u, free := s.free + 1 }).endPending p (BitVec.ofNat 64 p.len))
        | .error (code, va) => .next (if code = 0x12 then s.pauseTransfer p va else s.endPending p (callError code 0 0))
    | none, _ => .next s
  | _ => .next s
/-- STORAGE_COMMAND_TIMEOUT (R419). -/
def execStorageCommandTimeout (s : State) : Host.Outcome State Fault Refusal :=
  match s.arg with
  | .nums [id] =>
    match s.pending.find? (fun p => p.id == id && (p.kind == 2 || p.kind == 3)) with
    | some p => .next (s.endPending p (callError 0x45 0 0))
    | none => .next s
  | _ => .next s

/-! ### Attestation (R417, R418) -/

/-- Bytes padded with zeros, or cut, to a length. -/
def fitBytes (n : Nat) (l : List Byte) : List Byte := l.take n ++ List.replicate (n - l.length) 0
/-- The device identity key: its secret seed, its public seed and its public half (R417, R418). -/
def deviceSk : List Byte := (List.range 24).map Config.deviceSeed
def devicePkSeed : List Byte := (List.range 24).map (fun i => Config.deviceSeed (48 + i))
def devicePublicKey : List Byte := slhPublicKey deviceSk devicePkSeed
/-- The device's signature over a report, as R413's step 4 verifies one under its public key (R418). -/
def State.deviceSign (s : State) (msg : List Byte) : List Byte :=
  slhDsaSign deviceSk devicePkSeed ((List.range 24).map (Config.deviceRandom s.free)) msg
/-- The report's bytes 0 to 415 (R418). -/
def State.reportBody (s : State) (p : Proc) (nonce : List Byte) : List Byte :=
  leBytes 4 1 ++ leBytes 4 p.log.length ++ fitBytes 32 nonce ++ fitBytes 16 s.fuse.serial ++ fitBytes 32 s.boot.m0 ++ leBytes 8 s.pkg
    ++ fitBytes 256 ((p.log.take 8).flatMap (fitBytes 32)) ++ fitBytes 48 devicePublicKey ++ List.replicate 16 0
/-- KQ_ATTEST (R418). -/
def execKqAttest (s : State) : Host.Outcome State Fault Refusal :=
  let sp := s.callerSpid
  let out := (s.callArg 1).toNat
  match s.proc? sp, s.procRead sp (s.callArg 0).toNat 32, s.procRead sp out 16640 with
  | some p, some nonce, some _ =>
    if (s.callArg 2).toNat < 16640 then .next s.callBad
    else
      let body := s.reportBody p nonce
      .next ((s.drawn.procWrite sp out (body ++ fitBytes 16224 (s.deviceSign body))).callReturn s.curHart 16640)
  | _, _, _ => .next s.callBad

/-! ### KQ_EXIT (R27, R51, R262, R363, R373, R399) -/

/-- A launch of a process that exits: cancelled where it has not started, pre-empted where it runs; its result is 3. The other packages of a
launch are told by an ABORT with code 0 (log 24). -/
def State.cancelLaunch (s : State) (l : Launch) : State :=
  if l.st = .complete then s
  -- its part here has halted: what still runs, here or in other packages, ends with the same result
  else if l.st = .retired then (if l.parts.all l.reports.contains then s else (s.sendAbort l 0 0).setResult l.gen 3 0 0 s.pkg)
  else if l.st.started then (s.sendAbort l 0 0).endLaunch l.gen 3 0 0
  else (s.sendAbort l 0 0).dropLaunch l.gen 3 0 0 s.pkg
/-- A hart once a process has exited: its threads are gone, and a thread of another process that its handler displaced goes on. -/
def Hart.leave (x : Hart) (spid : Nat) : Hart :=
  let idle := fun (u : Thread) => if u.spid = some spid then { u with spid := none, blocked := false } else u
  let x := { x with under := x.under.map idle }
  if x.spid != some spid then x
  else if x.under.isSome then x.resumeThread
  else { x with spid := none, running := false, blocked := false, handling := none }
/-- KQ_EXIT (R51): it does not return. -/
def execKqExit (s : State) : Host.Outcome State Fault Refusal :=
  let sp := s.callerSpid
  let p := (s.proc? sp).getD { spid := sp }
  let s := (s.launches.filter (fun l => l.spid == sp && l.origin == s.pkg)).foldl State.cancelLaunch s
  let s := p.streams.foldl (fun t x => t.closeStream sp x) s
  let s := p.plans.foldl (fun t x => (t.poolSlots x.flows false).tellPlan p.spid x.id x.flows []) s
  let s : State := { s with pending := s.pending.filter (fun x => x.spid != sp), reservations := s.reservations.filter (fun r => r.2.1 != sp)
                            harts := s.harts.map (fun x => x.leave sp) }
  let s := s.modProc sp (fun p => { p with bundles := [], graphs := [], plans := [], streams := [], handler := 0, exited := true })
  .next s.askSelection

end Sys2Proof.Machine
end

