-- ==== Sys2Proof/Machine/Module.lean ====
section
/-! DEFINITION. Around the package: boot and the mailbox, register writes without a row of their own, the debug port, power and temperature, the clock servo, link training, and the window boundary (R8, R20, R73, R75, R288, R297, R298, R337, R364, R392, R412 to R415, R420 to R423). -/

namespace Sys2Proof.Machine

/-! ### What can be read (R20, R415) -/

/-- The hottest junction stands at level 2 or 3 (R422). -/
def Power.hot (p : Power) : Bool := 95 ≤ p.degrees
/-- The mailbox's STATUS register (R415). -/
def State.mailboxStatus (s : State) : Word64 :=
  BitVec.ofNat 64 (s.boot.state % 16 + s.boot.reason % 16 * 16 + if s.power.hot then 256 else 0)
/-! ### Boot (R412 to R415) -/

/-- What the boot ROM takes from an image that has passed every check. -/
structure Booted where
  m0 : List Byte
  svn : Nat
  entry : Nat
  deriving DecidableEq, Repr

/-- Payload length of an image's header. -/
def imagePayload (f : List Byte) : Nat := fieldLE f 16 8
/-- Offset of an image's signature block: the first multiple of 64 at or after the payload's end (R413). -/
def imageSigOff (f : List Byte) : Nat := (64 + imagePayload f + 63) / 64 * 64
/-- MAGIC of R413: an image that holds both fields. -/
def imageMagic (f : List Byte) : Bool := 8 ≤ f.length && fieldLE f 0 4 == 0x3146514B && fieldLE f 4 4 == 1
/-- LENGTH of R413: the lengths and zero fields of header and signature block; the entry within the payload (log 41). -/
def imageLength (f : List Byte) : Bool :=
  let n := imagePayload f
  let b := f.drop (imageSigOff f)
  1 ≤ n && n ≤ 268435392 && f.length == imageSigOff f + sigBytes && fieldLE f 12 4 == 0 && fieldLE f 24 8 % 4 == 0 && fieldLE f 24 8 < n
    && fieldLE b 4 4 == 0 && fieldLE b 8 4 == 16224 && fieldLE b 12 4 == 48
/-- KEYHASH of R413 for a signature block. -/
def keyNamed (s : State) (b : List Byte) : Bool := sha256 (sliceOf b 16 48) == s.fuse.keyHash
/-- SIGNATURE of R413 for a signature block over a message. -/
def signed (b msg : List Byte) : Bool := fieldLE b 0 4 == 1 && slhDsaVerify (sliceOf b 16 48) msg (sliceOf b 64 16224)
/-- The checks of R413 in their order: the reason code of the first that fails, or what the ROM takes from the image. -/
def State.checkImage (s : State) (i : Option (List Byte)) : Except Nat Booted :=
  match i with
  | none => .error 7
  | some f =>
    let b := f.drop (imageSigOff f)
    if !imageMagic f then .error 1
    else if !imageLength f then .error 2
    else if !keyNamed s b then .error 3
    else if !signed b (f.take 64) then .error 4
    else if sha256 (sliceOf f 64 (imagePayload f)) != sliceOf f 32 32 then .error 5
    else if fieldLE f 8 4 < s.fuse.minSvn then .error 6
    else .ok { m0 := sha256 (f.take 64), svn := fieldLE f 8 4, entry := fieldLE f 24 8 }
/-- The ROM reads an image into die 0 LPDDR at 0, verifies it, and runs it on hart 0 or enters recovery (R412). The payload stands after the
64-byte header, and so does its entry. -/
def State.bootFrom (s : State) (i : Option (List Byte)) : State :=
  let s := match i with | some f => s.memStore 0 f [] | none => s
  match s.checkImage i with
  | .ok b =>
    let s : State := { s with boot := { s.boot with state := 3, m0 := b.m0, svn := b.svn, entry := b.entry } }
    s.modHart 0 (fun x => { x with pc := BitVec.ofNat 64 (64 + b.entry), mode := 3, running := true })
  | .error r => { s with boot := { s.boot with state := 4, reason := r } }
/-- The module as its reset leaves it before the ROM runs. Fuses, fabric package number, LPDDR contents, what the host has written to ADDR and LEN,
and what has been sent stay (log 40). Cycles and windows run on, the windows as those of the PTP time (R420); beats begin again at 0 (R263). -/
def State.afterReset (s : State) : State :=
  let t : State := { State.reset with fuse := s.fuse, pkg := s.pkg, mem := s.mem, memPoison := s.memPoison, memUpsets := s.memUpsets, free := s.free
                                      outbox := s.outbox, turns := s.turns, now := s.now, window := s.window, winAt := s.winAt, beatAt := s.now
                                      boot := { State.reset.boot with addr := s.boot.addr, len := s.boot.len }, agenda := [] }
  (t.post (s.now + 63) 3 none (.run .beatClose (.nums [0]))).post (s.winAt + 1700) 0 none (.run .windowBoundary (.nums []))
/-- The image of a push: LEN bytes at ADDR, which must be 4 KiB aligned; what lies there may be shorter (log 42). -/
def State.pushed (s : State) (i : Option (List Byte)) : Option (List Byte) :=
  match i with
  | some f => if s.boot.addr.toNat % 4096 = 0 && s.boot.len.toNat ≤ f.length then some (f.take s.boot.len.toNat) else none
  | none => none
/-- MODULE_RESET (R412): fuse BOOTSRC selects the source, 0 the host mailbox, whose image lies where ADDR and LEN say (log 42), 1 the first
namespace of root port 0; the operand holds what the host's memory at ADDR, or that namespace, holds. -/
def execModuleReset (s : State) : Host.Outcome State Fault Refusal :=
  let t := s.afterReset
  match s.arg with
  | .image _ i => .next (t.bootFrom (if t.fuse.bootSrc = 0 then t.pushed i else i))
  | _ => .next (t.bootFrom none)
/-- DOOR (R415): in state 4 a write of 1 pushes an image; once the firmware runs, any write raises an interrupt of hart 0 for the resident
kernel (log 148). -/
def execDoor (s : State) : Host.Outcome State Fault Refusal :=
  match s.arg with
  | .image v i =>
    if s.boot.state = 3 then .next (s.modHart 0 (fun x => { x with causes := if x.causes.contains doorCause then x.causes else x.causes ++ [doorCause] }))
    else if v == 1 && s.boot.state == 4 then .next (s.bootFrom (s.pushed i))
    else .next s
  | _ => .next s

/-! ### Register writes (R8, R288, R298, R392, R415) -/

/-- A doubleword of an access table entry written (R298): reserved bits are ignored. -/
def AccEntry.write (e : AccEntry) (dword : Nat) (v : Word64) : AccEntry :=
  let n := v.toNat
  match dword with
  | 0 => { e with master := v.setWidth 16, mmask := (v >>> 16).setWidth 16, rd := bitOf n 32, wr := bitOf n 33, at_ := bitOf n 34
                  tag := (v >>> 35).setWidth 4, valid := bitOf n 39 }
  | 1 => { e with base := v }
  | 2 => { e with limit := v }
  | _ => e
/-- An access table with one doubleword written. -/
def accWrite (t : Vector AccEntry 32) (entry dword : Nat) (v : Word64) : Vector AccEntry 32 := vset t entry ((vget t entry {}).write dword v)
/-- A doubleword of an access table entry as it reads (R298): reserved bits are 0. -/
def AccEntry.read (e : AccEntry) (dword : Nat) : Word64 :=
  match dword with
  | 0 => BitVec.ofNat 64 (e.master.toNat + e.mmask.toNat * 2 ^ 16 + (if e.rd then 2 ^ 32 else 0) + (if e.wr then 2 ^ 33 else 0) + (if e.at_ then 2 ^ 34 else 0)
      + e.tag.toNat * 2 ^ 35 + if e.valid then 2 ^ 39 else 0)
  | 1 => e.base
  | 2 => e.limit
  | _ => 0
/-- What a read of a register or table finds (R8, R20, R288, R298, R392, R415): reserved bits are 0, and SELF stands in this package's own routing
entry alone. -/
def State.readRegister (s : State) (r : RegTarget) : Word64 :=
  match r with
  | .mailboxStatus => s.mailboxStatus
  | .mailboxAddr => s.boot.addr
  | .mailboxLen => s.boot.len
  | .mailboxChannel n => vget s.boot.channel n 0
  | .capMap off => BitVec.ofNat 64 (fieldLE s.capMap off 8)
  | .routing p => (vget s.routing p 0).setWidth 64 ||| (if p = s.pkg then 0x40 else 0)
  | .seamTable c e d => (vget (s.core c).acc e {}).read d
  | .lpddrTable x e d => (vget (Table.getD s.lpddrAcc x accReset) e {}).read d
  | .mmioTable x e d => (vget (Table.getD s.mmioAcc x accReset) e {}).read d
  | .window die win off => BitVec.ofNat 64 (s.windowDword die win off)
/-- REGISTER_WRITE (R8): read-only registers ignore it, fields of the others are replaced, reserved bits ignored. -/
def execRegisterWrite (s : State) : Host.Outcome State Fault Refusal :=
  match s.arg with
  | .reg r v =>
    match r with
    | .mailboxStatus => .next s
    | .mailboxAddr => .next { s with boot := { s.boot with addr := v } }
    | .mailboxLen => .next { s with boot := { s.boot with len := v } }
    | .mailboxChannel n => .next { s with boot := { s.boot with channel := vset s.boot.channel n v } }
    | .capMap _ => .next s
    | .routing p => .next { s with routing := vset s.routing p (v.setWidth 6) }
    | .seamTable c e d => .next (s.modCore c (fun k => { k with acc := accWrite k.acc e d v }))
    | .lpddrTable x e d => .next { s with lpddrAcc := Table.put s.lpddrAcc x (accWrite (Table.getD s.lpddrAcc x accReset) e d v) }
    | .mmioTable x e d => .next { s with mmioAcc := Table.put s.mmioAcc x (accWrite (Table.getD s.mmioAcc x accReset) e d v) }
    | .window die w off => .next (s.writeWindow die w off v)
  | _ => .next s

/-! ### Debug (R423) -/

/-- DEBUG_UNLOCK (R423): the token is a message with a signature block as R46 gives it, verified as steps 3 and 4 of R413 (log 43). -/
def execDebugUnlock (s : State) : Host.Outcome State Fault Refusal :=
  match s.arg with
  | .bytes t =>
    let b := t.drop (t.length - sigBytes)
    .next (if keyNamed s b && signed b (t.take (t.length - sigBytes)) then { s with power := { s.power with unlocked := true } } else s)
  | _ => .next s
/-- DEBUG_FREEZE (R423): accepted once unlocked, every clock stops within 64 cycles of the request; with operand 1 the clocks stop. -/
def execDebugFreeze (s : State) : Host.Outcome State Fault Refusal :=
  match s.arg with
  | .nums [1] => .next (if s.power.unlocked then { s with power := { s.power with clocksOff := true } } else s)
  | _ => .next (if s.power.unlocked then (s.post (s.within 64) 4 none (.run .debugFreeze (.nums [1]))).drawn else s)

/-! ### Power and temperature (R421, R422) -/

/-- The bound charge lies within the load limit. -/
def State.chargeFits (s : State) : Bool := s.charged ≤ s.power.loadLimit
/-- Launches are pre-empted, in the order of R421, until the charge fits; those whose save is under way count as gone. The kernel looks again every
1 ms while the charge does not fit or a head that was latched earlier is still to be bound. -/
def State.fitCharge (s : State) : State :=
  let going := s.launches.filter (fun l => l.st == .saving)
  let t := going.foldl (fun u l => u.without l.gen) s
  let ls := s.yielding (fun _ => true)
  let s := if t.chargeFits then s else s.preemptAll ((giveWay State.chargeFits t ls []).getD (ls.map (fun l => l.gen)))
  let again := !s.chargeFits || s.latched.any (fun g => (s.stopesOf g).isEmpty)
  if again && !s.agenda.any (fun e => match e.act with | .run .moduleLimitSet _ => true | _ => false) then
    s.post (s.now + 850000) 3 none (.run .moduleLimitSet (.nums []))
  else s
/-- MODULE_LIMIT_SET (R421): a value outside 1,000 to 2,200 W is ignored; a lowered limit pre-empts, and so does another look at the charge. -/
def execModuleLimitSet (s : State) : Host.Outcome State Fault Refusal :=
  match s.arg with
  | .nums [w] =>
    if w < 1000 || 2200 < w then .next s
    else
      let t : State := { s with power := { s.power with limit := w } }
      .next (if t.power.loadLimit < s.power.loadLimit then t.fitCharge else t).askSelection
  | _ => .next s.fitCharge.askSelection
/-- 100 ms in cycles. -/
def thermalPeriod : Nat := 85000000
/-- A step of the load limit is on the agenda. -/
def State.stepsLimit (s : State) : Bool := s.agenda.any (fun e => match e.act with | .run .thermalLimitStep _ => true | _ => false)
/-- THERMAL_LEVEL_CHANGE (R422): from level 2 on the load limit steps every 100 ms, the first time at a moment within them that is open; at
115 degrees power is removed within 1 ms. -/
def execThermalLevelChange (s : State) : Host.Outcome State Fault Refusal :=
  match s.arg with
  | .nums [d] =>
    let s : State := { s with power := { s.power with degrees := d } }
    let s := if s.power.hot && !s.stepsLimit then (s.post (s.within thermalPeriod) 3 none (.run .thermalLimitStep (.nums []))).drawn else s
    .next (if 115 ≤ d && !s.power.tripped then (s.post (s.within 850000) 3 none (.run .thermalTrip (.nums []))).drawn else s)
  | _ => .next s
/-- THERMAL_LIMIT_STEP (R422): cut by 5% of the module limit at level 2 and 3, restored below 90 degrees; at level 3 launches are pre-empted
against the cut limit. -/
def execThermalLimitStep (s : State) : Host.Outcome State Fault Refusal :=
  let d := s.power.degrees
  let cut := if 95 ≤ d then min s.power.maxCut (s.power.cut + s.power.limit * 50) else if d < 90 then s.power.cut - s.power.limit * 50 else s.power.cut
  let s : State := { s with power := { s.power with cut } }
  let s := if 95 ≤ d || 0 < cut then s.post (s.now + thermalPeriod) 3 none (.run .thermalLimitStep (.nums [])) else s
  .next (if 105 ≤ d then s.fitCharge else s).askSelection
/-- Agenda entries that are not on the compute dies. -/
def Event.offDies (e : Event) : Bool :=
  match e.act with
  | .run .windowBoundary _ => true
  | .run .kqWaitTimeout _ => true
  | .run .storageCommandTimeout _ => true
  | .run .portPageFault _ => true
  | .run .thermalLimitStep _ => true
  | .run .debugFreeze _ => true
  | .run .launchComplete _ => true
  | _ => false
/-- THERMAL_TRIP (R422): the compute dies lose their power and all their state; nothing is bound there until module reset (log 44). -/
def execThermalTrip (s : State) : Host.Outcome State Fault Refusal :=
  let s : State :=
    { s with cores := [], quads := [], dies := Vector.replicate 2 {}, stopes := [], latched := none, reserving := none, greqs := [], joins := [], walks := []
             dsops := [], barriers := [], wb := [], sets := [], lpddrAcc := [], beat := 0, beatAt := s.now, beatHist := [], beatTab := defaultTable
             beatNext := none, agenda := s.agenda.filter Event.offDies, power := { s.power with tripped := true } }
  .next (s.pendWindows.devEvent 6 0 0 s.power.degrees 0)

/-! ### The clock servo and links (R20, R420) -/

/-- PTP_OFFSET_LOSS (R420). -/
def execPtpOffsetLoss (s : State) : Host.Outcome State Fault Refusal :=
  .next (({ s with power := { s.power with ptpLost := true } } : State).devEvent 5 0 0 0 0)
/-- PTP_OFFSET_RECOVERY (R420). -/
def execPtpOffsetRecovery (s : State) : Host.Outcome State Fault Refusal := .next { s with power := { s.power with ptpLost := false } }
/-- A fabric port that this part has and that has not failed since module reset (R12, R21, R22). -/
def State.portOn (s : State) (p : Nat) : Bool := p < (if s.fuse.die1 then 24 else 12) && !s.lostPorts.toNat.testBit p
/-- LINK_TRAINING (R20). -/
def execLinkTraining (s : State) : Host.Outcome State Fault Refusal :=
  match s.arg with
  | .nums [p, up] =>
    let bit := 1#24 <<< p
    if !s.portOn p then .next s
    else .next { s with ports := if up = 1 then s.ports ||| bit else s.ports &&& ~~~bit }
  | _ => .next s

/-! ### The window boundary (R73, R75, R297, R337, R364) -/

/-- Insert a launch by its generation. -/
def insertGen (l : Launch) : List Launch → List Launch
  | [] => [l]
  | x :: xs => if l.gen < x.gen then l :: x :: xs else x :: insertGen l xs
/-- Reserved launches whose window has come, in ascending generation order (R73). -/
def State.dueLaunches (s : State) : List Launch :=
  (s.launches.filter (fun l => l.st == .reserved && l.release.any (fun w => decide (w ≤ s.window)))).foldl (fun acc l => insertGen l acc) []
/-- A reserved launch enters its queue (R73). -/
def State.enqueueLaunch (s : State) (l : Launch) : State :=
  ({ s with queues := vset s.queues (l.queue % 64) (vget s.queues (l.queue % 64) [] ++ [l.gen]) } : State).modLaunch l.gen (fun l => { l with st := .queued })
/-- WINDOW_BOUNDARY (R337): the next window begins. -/
def execWindowBoundary (s : State) : Host.Outcome State Fault Refusal :=
  let s : State := { s with window := s.window + 1, winAt := s.now }
  let s := (s.post (s.now + 1700) 0 none (.run .windowBoundary (.nums []))).freeSlots
  let s := s.dueLaunches.foldl State.enqueueLaunch s
  let s := (s.launches.filter (fun l => l.st == .ready && l.startWin.any (fun w => decide (w ≤ s.window)))).foldl (fun t l => t.pulse l.gen) s
  .next ((s.migrations.map (fun m => m.id)).foldl State.migrateAt s).askSelection.serveAll

end Sys2Proof.Machine
end

