-- ==== Sys2Proof/Machine/Headframe.lean ====
section
/-! DEFINITION. The Headframe's custom words for the device TLBs, writes of harts, of the host and of the network port, and errors of the hardware (R22, R139, R278, R295, R296, R332, R337, R406, R407). -/

namespace Sys2Proof.Machine

/-! ### Shootdown (R295, R296) -/

/-- KTLBI (R139, R295): the invalidation is sent, and takes effect at a moment that is open; KTLBF waits for it. -/
def execKtlbi (rs1 rs2 : BitVec 5) (s : State) : Host.Outcome State Fault Refusal :=
  hartWord s (fun s =>
    let h := s.curHart
    let x := s.hart h
    let v := (x.reg rs2.toNat).toNat
    let s : State := { s with invals := s.invals ++ [(h, v % 2 ^ 16, if bitOf v 16 then none else some (x.reg rs1.toNat).toNat)] }
    ((s.post (s.now + 1 + Config.freeDelay s.free) 1 none (.run .tlbShootdownComplete (.nums [h]))).drawn).hartNext)
/-- KTLBF (R139, R296): the hart waits; it retires within 2.5 µs. -/
def execKtlbf (s : State) : Host.Outcome State Fault Refusal :=
  hartWord s (fun s =>
    let h := s.curHart
    let s : State := { s with ktlbf := s.ktlbf ++ [h] }
    ((s.post (s.within 2125) 1 none (.run .tlbShootdownComplete (.nums [h]))).drawn).modHart h (fun x => { x with blocked := true }))
/-- TLB_SHOOTDOWN_COMPLETE (R295, R296), as an input also what another package's kernel asks for, or its acknowledgement: the hart's invalidations take effect and its KTLBF retires. An access that has not been admitted looks
its page up again, and a walk in flight ends by the tables as they stand when it ends. -/
def execTlbShootdownComplete (s : State) : Host.Outcome State Fault Refusal :=
  match s.arg with
  | .nums [h] =>
    let mine := s.invals.filter (fun x => x.1 == h)
    let s := mine.foldl (fun t x => t.invalidate x.2.1 x.2.2) s
    let s : State := { s with invals := s.invals.filter (fun x => x.1 != h) }
    if !s.ktlbf.contains h then .next s
    else .next (({ s with ktlbf := s.ktlbf.filter (fun x => x != h) } : State).modHart h (fun x => { x with blocked := false, pc := x.pc + 4 }))
  | .shoot pkg id spid pages => .next ((s.shoot spid pages).send pkg (.shot s.window id))
  | .nums [pkg, id] => .next (s.shootAck pkg id)
  | _ => .next s

/-! ### Writes from outside the compute dies (R332, R337) -/

/-- A hart's atomic performs at its home here, in the location's single order (R332, R340): the old value goes to its register. -/
def State.hartAtomic (s : State) (h pa op size : Nat) (b : Word64) (rd : BitVec 5) : State :=
  let x := s.readHome pa size
  let old := leNat x.2.1
  (x.1.homeWrite pa (leBytes size (amoFn op size old b.toNat))).modHart h (fun y => y.setReg rd.toNat (hartValue size old))
/-- HART_WRITE (R332): a store of the hart that is running, or an atomic, at its home here or sent to another package (R337). -/
def execHartWrite (s : State) : Host.Outcome State Fault Refusal :=
  match s.arg with
  | .write spid va data _ => .next (s.masterWrite (hartMaster s.curHart) spid va.toNat data)
  | .hartAmo h spid va op size b rd =>
    match s.walkPa spid va.toNat true with
    | some pa =>
      if va.toNat % size != 0 || !s.mayAccess (hartMaster h) pa size 2 then .next s
      else if s.isRemote (s.forwardPa pa) then
        .next (s.hartSend h 0 (paPkg (s.forwardPa pa)) (.atomic 0 (s.forwardPa pa) op size b 0) (some { rd := rd.toNat, size, signed := true, cause := 7 }))
      else if s.pageFrozen pa then .next (s.postAt (s.winAt + 1700) 3 none (.run .hartWrite s.arg))
      else .next (s.hartAtomic h pa op size b rd)
    | none => .next s
  | _ => .next s
/-- HOST_WRITE (R337): the host endpoint writes, or the network port where the operand says so; or what a freeze held up goes on. -/
def execHostWrite (s : State) : Host.Outcome State Fault Refusal :=
  match s.arg with
  | .write spid va data port => .next (if port then s.netWrite spid va.toNat data else s.masterWrite (8 * 4096) spid va.toNat data)
  | .nums [] => .next s.goOnDeferred
  | _ => .next s

/-! ### Errors of the hardware (R22, R278, R406, R407) -/

/-- A bit of a word is upset, or upset back. -/
def toggle {α : Type} [DecidableEq α] (l : List α) (x : α) : List α := if x ∈ l then l.filter (fun y => y != x) else l ++ [x]
/-- SOFT_ERROR (R278, R406): nothing is reported before a port reads the word. -/
def execSoftError (s : State) : Host.Outcome State Fault Refusal :=
  match s.arg with
  | .site x =>
    match x with
    | .seam c a b => .next (s.modCore c (fun k => { k with upsets := toggle k.upsets (3, a / 32, a % 32 * 8 + b) }))
    | .onDie c sp a b => .next (s.modCore c (fun k => { k with upsets := toggle k.upsets (sp, a / 32, a % 32 * 8 + b) }))
    | .lpddr pa b => .next { s with memUpsets := toggle s.memUpsets (pa, b) }
  | _ => .next s
/-- PARITY_ERROR (R406, R407): POISON with the unit as SOURCE, never resumed. -/
def execParityError (s : State) : Host.Outcome State Fault Refusal :=
  match s.arg with
  | .nums [c, source] =>
    let s := s.devEvent 3 (coreDie c) (coreMaster (sourceClass source) c) 0 (s.core c).bnd.gen
    .next (if (s.core c).bound.isSome then s.raise c { code := 0x18, source, kind := 255, noresume := true } none else s)
  | _ => .next s
/-- The cores that a failed unit withdraws (R22). -/
def lostCores : FailUnit → List Nat
  | .core c => [c]
  | .bank c _ => [c]
  | .lode c _ => [c]
  | .copy c => [c]
  | .collective c => [c]
  | .array q => (List.range 4).map (quadCore q)
  | .port _ => []
/-- The failed unit's die, master ID and entry for its event (R407). R299 gives no ID to an array, for which that of core 0 of its quad stands, nor to
a fabric port, for which that of class 9 with no package stands (log 87). -/
def failSite : FailUnit → Nat × Nat × Nat
  | .core c => (coreDie c, coreMaster 0 c, c)
  | .bank c b => (coreDie c, coreMaster 2 c, b)
  | .lode c g => (coreDie c, coreMaster 2 c, g)
  | .copy c => (coreDie c, coreMaster 1 c, c)
  | .collective c => (coreDie c, coreMaster 3 c, c)
  | .array q => (q / 128, quadCore q 0, q)
  | .port p => (p / 12, 9 * 4096, p)
/-- A launch holds a core here: bound, or saved from it. -/
def State.holdsOne (s : State) (l : Launch) (cs : List Nat) : Bool :=
  (s.launchCores l.gen).any (fun c => cs.contains c) || l.saved.any (fun x => cs.contains x.id)
    || (s.latched == some l.gen && l.st == .filling && (s.partCores l).any (fun x => cs.contains x.1))
/-- A launch has lost a core (R22, R76): it ends with result 2, also where its cores have halted and are still bound; where one of several packages
has not started, the others are told. -/
def State.loseLaunch (s : State) (l : Launch) : State :=
  if l.st = .retired then s.setResult l.gen 2 0 0 s.pkg
  else if l.parts.length ≤ 1 || l.st.started then s.endLaunch l.gen 2 0 0 else (s.dropLaunch l.gen 2 0 0 s.pkg).sendAbort l codeUnbindable 0
/-- UNIT_FAILURE (R22, R407). -/
def execUnitFailure (s : State) : Host.Outcome State Fault Refusal :=
  match s.arg with
  | .failed u =>
    let cs := lostCores u
    let w := failSite u
    let s := s.devEvent 4 w.1 w.2.1 w.2.2 ((cs.findSome? (fun c => (s.core c).bound.map (fun b => b.gen))).getD 0)
    let bit := match u with | .port p => 1#24 <<< p | _ => 0
    let s : State := { s with withdrawn := s.withdrawn ++ cs.filter (fun c => s.fuse.coreOn c && !s.withdrawn.contains c)
                              ports := s.ports &&& ~~~bit, lostPorts := s.lostPorts ||| bit }
    .next ((s.launches.filter (fun l => l.st != .complete && s.holdsOne l cs)).foldl State.loseLaunch s).askSelection
  | _ => .next s

end Sys2Proof.Machine
end

