-- ==== Sys2Proof/Machine/VectorConvert.lean ====
section
/-! DEFINITION. Conversions between element types and packed formats (R223 to R226). -/

namespace Sys2Proof.Machine

/-- The 4-bit elements of a byte list, low half first (R144). -/
def nibblesOf (l : List Byte) : List Nat := l.flatMap (fun b => [b.toNat % 16, b.toNat / 16])
/-- 4-bit elements back into bytes (R144). -/
def packNibbles (l : List Nat) : List Byte :=
  (chunksOf 2 l.length l).map (fun p => BitVec.ofNat 8 (p.headD 0 % 16 + 16 * (p.getD 1 0 % 16)))
/-- Elements of any width, INT4 and E2M1 included. -/
def unpackElems (bits : Nat) (l : List Byte) : List Nat := if bits = 4 then nibblesOf l else elemsOf bits l
/-- Elements of any width back into bytes. -/
def repackElems (bits : Nat) (l : List Nat) : List Byte := if bits = 4 then packNibbles l else packElems bits l

/-- Rows per repeat of a VCVT on its wider side (R223). -/
def cvtRows (t d : Nat) : Nat := if elemCount t ≤ elemCount d then elemCount d / elemCount t else elemCount t / elemCount d

/-- VCVT (R149, R150, R155, R223): bit [19] saturates narrowing conversions, an exact one keeps infinities. -/
def execVcvt (v : VWord) (s : State) : Host.Outcome State Fault Refusal :=
  let t := v.ty.toNat
  let d := v.e 20 4
  let k := cvtRows t d
  let widens := decide (elemCount d < elemCount t)
  let fm : VForm := { formOf2 v with aRows := if widens then 1 else k, dRows := if widens then k else 1, q := k, dty := d }
  plainVector (.vcvt v) v fm (fun e =>
    let xs := elemsOf (tyBits t) (joinRows e.a)
    let ds := unpackElems (tyBits d) (joinRows e.d)
    let rs := (List.zip xs ds).mapIdx (fun n x =>
      if e.act (if tyBits d = 4 then n / 2 else n) then
        convert t x.1 d e.mode ((v.e 19 1 == 1 && !fpExact t d) || d == 12) (srDraw e.key (v.e 0 16) e.i n)
      else (if e.zeroing then 0 else x.2, 0))
    (cutRows (repackElems (tyBits d) (rs.map Prod.fst)), rs.foldl (fun a r => a ||| r.2) 0)) s

/-- Bytes selected in a row: n of them from `lo`. -/
def selBytes (lo n : Nat) : List Bool := (List.range 256).map (fun j => decide (lo ≤ j) && decide (j < lo + n))
/-- Bytes put into a row at `lo`. -/
def rowWith (row : List Byte) (lo : Nat) (bs : List Byte) : List Byte := row.take lo ++ bs ++ row.drop (lo + bs.length)

/-- VQMX: 512 FP32 values to one row of MXFP4 elements and 16 scale bytes of row B (R143, R155, R224). -/
def execVqmx (v : VWord) (s : State) : Host.Outcome State Fault Refusal :=
  let fm : VForm := { aRows := 8, bRows := 0, dRows := 1, q := 8, bits := 32, dty := 0 }
  vectorWord (.vqmx v) (repsOf v) s
    (fun _ => operandIf (!formOk v fm || !((isReg v.b && inRange v.b (repsOf v) 1) || v.b.reg.toNat == codeZERO)))
    (fun s c i => if s.rowPending c v.b i 1 then .block s 6 else runWith v fm (fun s e lat =>
      let xs := elemsOf 32 (joinRows e.a)
      let bs := (chunksOf 32 16 xs).mapIdx (fun b x => mxBlock e.mode (fun j => srDraw e.key (v.e 0 16) e.i (32 * b + j)) x)
      let row := packNibbles (bs.flatMap (fun b => b.2.1))
      let scales := bs.map (fun b => BitVec.ofNat 8 b.1)
      let flags := bs.foldl (fun a b => a ||| b.2.2) 0
      let s := if v.d.reg.toNat = codeQV2S then { s with free := s.free + 256 } else s
      let s := s.sendRows c lat 12 v.d e.i [row] flags
      if isReg v.b then
        let r := (rowOf v.b e.i 0).toNat
        let lo := 16 * (e.i % 16)
        let full := rowWith (s.vRow c r) lo scales
        (s.sendSel c lat (.row r) full (selBytes lo 16) 0).forwardRow c r full
      else s) s c i)

/-- VDQMX: one row of MXFP4 elements and 16 scale bytes to 512 values of FP32 or BF16 (R142, R224). -/
def execVdqmx (v : VWord) (s : State) : Host.Outcome State Fault Refusal :=
  let d := v.e 20 4
  let k := if d = 7 then 8 else 4
  plainVector (.vdqmx v) v { dRows := k, q := k, bits := 8, dty := d } (fun e =>
    let codes := nibblesOf (joinRows e.a)
    let sc := joinRows e.b
    let rs := codes.mapIdx (fun n x =>
      (fmtOf d).pack 0 false 0 (mxVal (sc.getD (16 * (e.i % 16) + n / 32) 0).toNat x))
    (cutRows (packElems (tyBits d) (rs.map Prod.fst)), rs.foldl (fun a r => a ||| r.2) 0)) s

/-- VUNT5: Trit5 bytes to trits, illegal bytes noted in mF and TERN (R145, R225). -/
def execVunt5 (v : VWord) (s : State) : Host.Outcome State Fault Refusal :=
  let t := v.ty.toNat
  let n := elemCount t
  let mf := v.e 20 4
  let fm : VForm := { formOf2 v with masks := [mf] }
  vectorWord (.vunt5 v) (repsOf v) s (fun _ => operandIf (!formOk v fm || mf == 0))
    (runWith v fm (fun s e lat =>
      let c := s.curCore
      let bytes := ((joinRows e.a).take (cdiv n 5)).map (fun b => trit5 b.toNat)
      let trits := (bytes.flatMap Prod.fst).take n
      let row := mergeElems (tyBits t) e (trits.map (wrapTo (tyBits t)))
      let bad := maskOf (cdiv n 5) (fun j =>
        !(bytes.getD j ([], true)).2 && (List.range 5).any (fun m => decide (5 * j + m < n) && e.act (5 * j + m)))
      let before := if e.i = 0 then 0 else
        match (s.core c).ve.fwd.find? (fun f => f.1 == maskKey) with
        | some f => leNat f.2
        | none => (e.k.mval mf).toNat
      let m := before ||| bad
      let s := if v.d.reg.toNat = codeQV2S then { s with free := s.free + 256 } else s
      let s := s.sendRows c lat t v.d e.i [row] (if bad = 0 then 0 else 0x80)
      (s.sendMask c lat mf m 0).forwardRow c maskKey (maskBytes m)))

/-- Rows that `k` bit-planes of 512 elements fill (R226). -/
def planeRows (k : Nat) : Nat := cdiv (64 * k) 256
/-- Bytes padded with zeros to whole rows. -/
def padRows (l : List Byte) (rows : Nat) : List Byte := l ++ List.replicate (256 * rows - l.length) 0
/-- Plane j of INT8 elements: bit 7 − j of each (R146). -/
def planeBytes (xs : List Byte) (j : Nat) : List Byte :=
  (chunksOf 8 64 xs).map (fun g => BitVec.ofNat 8 (maskOf 8 (fun b => bitOf (g.getD b 0).toNat (7 - j))))
/-- The midpoint value of element i read with k planes (R146). -/
def planeValue (planes : List Byte) (k i : Nat) : Int :=
  let v := maskOf k (fun b => bitOf (planes.getD (64 * (k - 1 - b) + i / 8) 0).toNat (i % 8))
  let vk := signedOf v k
  if k = 8 then vk else vk * 2 ^ (8 - k) + 2 ^ (7 - k)

/-- VNBPS: INT8 elements split into bit-planes (R146, R226). -/
def execVnbps (v : VWord) (s : State) : Host.Outcome State Fault Refusal :=
  let k := v.e 0 3 + 1
  plainVector (.vnbps v) v { aRows := 2, bRows := 0, dRows := planeRows k, q := 2, bits := 8, dty := 1 } (fun e =>
    (cutRows (padRows ((List.range k).flatMap (planeBytes (joinRows e.a))) (planeRows k)), 0)) s
/-- VNBPJ: bit-planes joined into INT8 midpoint values (R146, R226). -/
def execVnbpj (v : VWord) (s : State) : Host.Outcome State Fault Refusal :=
  let k := v.e 0 3 + 1
  plainVector (.vnbpj v) v { aRows := planeRows k, bRows := 0, dRows := 2, q := 2, bits := 8, dty := 0 } (fun e =>
    let ps := joinRows e.a
    (cutRows ((List.range 512).map (fun i => BitVec.ofNat 8 (wrapTo 8 (planeValue ps k i)))), 0)) s

end Sys2Proof.Machine
end

