-- ==== Sys2Proof/Machine/VectorMove.lean ====
section
/-! DEFINITION. Vector words that move elements within a row (R221, R222). -/

namespace Sys2Proof.Machine

/-- VPERMB: byte k of D is the byte of A that byte k of B names (R221). -/
def execVpermb (v : VWord) (s : State) : Host.Outcome State Fault Refusal :=
  plainVector (.vpermb v) v { bits := 8, dty := 1 } (fun e =>
    let as := joinRows e.a
    ([mergeElems 8 e ((joinRows e.b).map (fun b => (as.getD b.toNat 0).toNat))], 0)) s
/-- VPERMW: lane k of D is the lane of A that lane k of B names, 0 beyond lane 63 (R221). -/
def execVpermw (v : VWord) (s : State) : Host.Outcome State Fault Refusal :=
  plainVector (.vpermw v) v { bits := 32, dty := 5 } (fun e =>
    let as := elemsOf 32 (joinRows e.a)
    ([mergeElems 32 e ((elemsOf 32 (joinRows e.b)).map (fun b => if b ≤ 63 then as.getD b 0 else 0))], 0)) s
/-- VSLIDE: elements moved by d, B's filling in on either side (R222). -/
def execVslide (v : VWord) (s : State) : Host.Outcome State Fault Refusal :=
  let w := tyBits v.ty.toNat
  plainVector (.vslide v) v (formOf v) (fun e =>
    let as := elemsOf w (joinRows e.a)
    let bs := elemsOf w (joinRows e.b)
    let d := signedOf (v.e 0 7) 7
    let n : Int := (elemCount v.ty.toNat : Nat)
    let pick := fun (k : Nat) =>
      let j := (k : Int) + d
      if 0 ≤ j ∧ j < n then as.getD j.toNat 0 else if n ≤ j then bs.getD (j - n).toNat 0 else bs.getD (j + n).toNat 0
    ([mergeElems w e ((List.range (elemCount v.ty.toNat)).map pick)], 0)) s
/-- VBCAST: every element is A[e] (R222). -/
def execVbcast (v : VWord) (s : State) : Host.Outcome State Fault Refusal :=
  let w := tyBits v.ty.toNat
  let n := elemCount v.ty.toNat
  let fm := formOf2 v
  vectorWord (.vbcast v) (repsOf v) s (fun _ => operandIf (!formOk v fm || n ≤ v.e 0 8))
    (runRepeat v fm (fun e =>
      let x := (elemsOf w (joinRows e.a)).getD (v.e 0 8) 0
      ([mergeElems w e (List.replicate n x)], 0)))

end Sys2Proof.Machine
end

