-- ==== Sys2Proof/Machine/VectorReduce.lean ====
section
/-! DEFINITION. Reductions and scans over the segments of a row (R218 to R220). -/

namespace Sys2Proof.Machine

/-- Lanes of one segment: the whole row, or those of the instances of the LANE node at a depth; none for any other depth (R66, R68, R218). -/
def Core.segLanes (k : Core) (v : VWord) : Option Nat :=
  if v.e 23 1 = 0 then some 64
  else
    let b := k.bnd
    let d := v.e 19 4
    if b.chain.length ≤ d ∧ d < b.chain.length + b.lanes.length then
      some (64 / (b.lanes.take (d + 1 - b.chain.length)).foldl (· * ·) 1)
    else none
/-- Elements of a segment of `w` lanes (R218). -/
def segElems (t w : Nat) : Nat := w * 32 / tyBits t

/-- A row's elements cut into segments, each inactive element replaced by the identity (R218). -/
def segments (t : Nat) (e : VEnv) (n identity : Nat) : List (List Nat) :=
  let xs := (elemsOf (tyBits t) (joinRows e.a)).mapIdx (fun j x => if e.act j then x else identity)
  chunksOf n xs.length xs
/-- A reduction word: `f` combines one segment's elements in index order (R219). -/
def reduceWord (i : Instr) (v : VWord) (identity : Nat) (f : Nat → List Nat → List Nat × Nat) (s : State) : Host.Outcome State Fault Refusal :=
  let t := v.ty.toNat
  let fm : VForm := { formOf2 v with lat := 6, merges := false }
  vectorWord i (repsOf v) s (fun k => operandIf (!formOk v fm || (k.segLanes v).isNone))
    (runRepeat v fm (fun e =>
      let n := segElems t ((e.k.segLanes v).getD 64)
      let rs := (segments t e n identity).map (f e.mode)
      ([packElems (tyBits t) (rs.flatMap Prod.fst)], rs.foldl (fun a r => a ||| r.2) 0)))
/-- A segment's result: its value in the first element, zeros after it (R219). -/
def headOnly (n : Nat) (r : Nat × Nat) : List Nat × Nat := (r.1 :: List.replicate (n - 1) 0, r.2)

/-- TREE over integer patterns, each node narrowed by wrapping or saturating (R159, R160, R219). -/
def intTree (t : Nat) (sat : Bool) (l : List Nat) : Nat × Nat :=
  let r := treeSum (fun a b => intFit t sat (intVal t a + intVal t b)) 12 l
  (r.1.headD 0, r.2)
/-- The greatest or least element of a list; a NaN gives the canonical NaN with NV (R219). -/
def extreme (t : Nat) (isMax : Bool) (l : List Nat) : Nat × Nat :=
  if !isIntTy t && l.any (fun x => ((fmtOf t).decode x).isNan) then ((fmtOf t).qnan, flNV)
  else
    match l with
    | [] => (0, 0)
    | x :: xs => (xs.foldl (fun a b => (minMax t isMax a b).1) x, 0)

/-- The sum of a segment that is one element alone: that element, a NaN made canonical as every sum's is (R141, R219, R220; log 55). -/
def sumOne (t x : Nat) : Nat × Nat :=
  if !isIntTy t && ((fmtOf t).decode x).isNan then ((fmtOf t).qnan, flNV) else (x, 0)
/-- The sum of a segment by the tree of R158 (R219). -/
def sumTree (t m : Nat) : List Nat → Nat × Nat
  | [x] => sumOne t x
  | l => if isIntTy t then intTree t false l else fpTree (fmtOf t) m l
/-- VRSUM: the tree of R158 (R219). -/
def execVrsum (v : VWord) (s : State) : Host.Outcome State Fault Refusal :=
  let t := v.ty.toNat
  reduceWord (.vrsum v) v 0 (fun m l => headOnly l.length (sumTree t m l)) s
/-- VRMAX; the identity is the type's least value or −inf (R218, R219). -/
def execVrmax (v : VWord) (s : State) : Host.Outcome State Fault Refusal :=
  let t := v.ty.toNat
  reduceWord (.vrmax v) v (if isIntTy t then wrapTo (tyBits t) (tyMin t) else (fmtOf t).infBits true)
    (fun _ l => headOnly l.length (extreme t true l)) s
/-- VRMIN; the identity is the type's greatest value or +inf (R218, R219). -/
def execVrmin (v : VWord) (s : State) : Host.Outcome State Fault Refusal :=
  let t := v.ty.toNat
  reduceWord (.vrmin v) v (if isIntTy t then wrapTo (tyBits t) (tyMax t) else (fmtOf t).infBits false)
    (fun _ l => headOnly l.length (extreme t false l)) s
/-- VRSUMS: the tree with saturating nodes (R160, R219). -/
def execVrsums (v : VWord) (s : State) : Host.Outcome State Fault Refusal :=
  reduceWord (.vrsums v) v 0 (fun _ l => headOnly l.length (intTree v.ty.toNat true l)) s

/-- Inclusive prefix sums of a list after `acc`, with the flags raised (R220). -/
def scanGo (f : Nat → Nat → Nat × Nat) : Nat → List Nat → List Nat × Nat
  | _, [] => ([], 0)
  | acc, x :: xs =>
    let y := f acc x
    let r := scanGo f y.1 xs
    (y.1 :: r.1, y.2 ||| r.2)
/-- VSCAN: inclusive prefix sums within each segment (R220). -/
def execVscan (v : VWord) (s : State) : Host.Outcome State Fault Refusal :=
  let t := v.ty.toNat
  reduceWord (.vscan v) v 0 (fun m l =>
    match l with
    | [] => ([], 0)
    | x :: xs =>
      let y := sumOne t x
      let r := scanGo (fun a b => if isIntTy t then intFit t false (intVal t a + intVal t b) else fpAdd (fmtOf t) m a b) y.1 xs
      (y.1 :: r.1, y.2 ||| r.2)) s

end Sys2Proof.Machine
end

