-- ==== Sys2Proof/Machine/VectorSample.lean ====
section
/-! DEFINITION. Shortlists, sampling and random rows (R229 to R231). -/

namespace Sys2Proof.Machine

/-- x − y in FP32, RNE. -/
def subF (x y : Nat) : Nat × Nat := fpSub fp32 0 x y
/-- Flags of a list of results joined. -/
def joinFlags (l : List (Nat × Nat)) : Nat := l.foldl (fun a r => a ||| r.2) 0
/-- Sequential RNE sums: all partial sums, and flags (R229, R230). -/
def runSums : List Nat → List Nat × Nat
  | [] => ([], 0)
  | x :: xs => let r := scanGo (fun a b => fpAdd fp32 0 a b) x xs; (x :: r.1, r.2)
/-- w(p): VEXP2 of the distance from the maximum (R229). -/
def weightOf (mx x : Nat) : Nat × Nat :=
  let d := subF x mx
  let w := fpExp2 d.1
  (w.1, d.2 ||| w.2)
/-- The greatest of FP32 patterns that hold no NaN. -/
def maxF (l : List Nat) : Nat :=
  match l with
  | [] => fp32.infBits true
  | x :: xs => xs.foldl (fun a b => (fpMinMax fp32 true a b).1) x
/-- An FP32 pattern is a NaN or +inf. -/
def nanOrTop (w : Nat) : Bool := (fp32.decode w).isNan || w == fp32.infBits false
/-- The bin of a distance (R229). -/
def binOf (d : Nat) : Nat :=
  match fp32.decode d with
  | .fin _ m e _ => if m = 0 || fpCmp fp32 2 d 0x3F800000 then 0 else min (e + (bitLen m : Int)).toNat 31
  | _ => 31

/-- What a shortlist comes to: positions, whether it falls short, flags (R229). -/
structure Shortlist where
  list : List Nat
  slow : Bool
  flags : Nat
  deriving DecidableEq, Repr

/-- The shortlist of FP32 values by position, with threshold `thr` (R229). -/
def shortlist (xs : List Nat) (thr : Nat) : Shortlist :=
  if xs.any nanOrTop then { list := List.range 64, slow := true, flags := flNV }
  else
    let mx := maxF xs
    let ds := xs.map (fun x => if x = fp32.infBits true then (fp32.infBits false, 0) else subF mx x)
    let bins := ds.map (fun d => binOf d.1)
    let upto := fun b => (bins.filter (fun x => x ≤ b)).length
    let b := ((List.range 32).find? (fun b => 64 ≤ upto b)).getD 31
    let need := 64 - (bins.filter (fun x => x < b)).length
    let pos := List.zip (List.range xs.length) bins
    let edge := ((pos.filter (fun p => p.2 == b)).take need).map Prod.fst
    let list := (pos.filter (fun p => p.2 < b || (p.2 == b && decide (p.1 ≤ edge.getLastD 0) && !edge.isEmpty))).map Prod.fst
    let ws := xs.map (weightOf mx)
    let inList := (pos.map (fun p => p.2 < b || (p.2 == b && decide (p.1 ≤ edge.getLastD 0) && !edge.isEmpty)))
    let lw := ((List.zip ws inList).filter (fun w => w.2)).map (fun w => w.1.1)
    let sS := runSums lw
    let sT := runSums (ws.map Prod.fst)
    let bound := fp32.pack 0 false 0 (fMul (.fin false thr (-16) false) (fp32.decode (sT.1.getLastD 0)))
    { list, slow := fpCmp fp32 2 (sS.1.getLastD 0) bound.1
      flags := joinFlags ds ||| joinFlags ws ||| sS.2 ||| sT.2 ||| bound.2 }

/-- VSHORT: h rows at once; occupancy 2h + 16 (R229). -/
def execVshort (v : VWord) (s : State) : Host.Outcome State Fault Refusal :=
  let h := repsOf v
  let t := v.ty.toNat
  let ms := v.e 20 4
  let q := 2 * h + 16
  let okB := fun (_ : Core) => v.b.reg.toNat == codeQS2V || v.b.reg.toNat == codeZERO
  vectorWord (.vshort v) 1 s
    (fun k => operandIf (!srcOk v.a h 1 || !okB k || !isReg v.d || !(decide (v.d.reg.toNat + 2 ≤ 1536)) || ms == 0)) (fun s c _ =>
      let k := s.core c
      let regs := (List.range h).map (fun r => r)
      if k.maskPending [ms] || s.rowPending c { v.d with stride := 0 } 0 2 || regs.any (fun r => s.rowPending c v.a r 1) then .block s 6
      else
        let rows := if isReg v.a then some (s, regs.map (fun r => s.vRow c (rowOf v.a r 0).toNat)) else readSrc s c (tyBits t) v.a 0 h
        match rows with
        | none => .block s 1
        | some (s1, a) =>
          let k1 := s1.core c
          let queued := v.b.reg.toNat == codeQS2V
          if queued && !k1.qs2v.canPop s.now then .block s 1
          else
            let base := if queued then (k1.qs2v.head?.getD 0).toNat else 0
            let s2 := if queued then s1.popQs2v c else s1
            let lat := q + 3
            if regs.any (fun r => poisonedSrc s c v.a r 1) then .ok (s2.poisonV c lat ((regs.find? (fun r => poisonedSrc s c v.a r 1)).elim 0 (fun r => s.poisonAddr c r [(v.a, 1)]))) q
            else
              let raw := elemsOf (tyBits t) (joinRows a)
              let xs := if t = 6 then raw.map (fun x => (convert 6 x 7 0 false 0).1) else raw
              let r := shortlist xs (v.e 0 16)
              let d := v.d.reg.toNat
              let s3 := regs.foldl (fun t r => t.afterSrc c v.a r 1) s2
              let s4 := s3.sendV c lat (.row d) (packElems 32 (r.list.map (fun p => xs.getD p 0))) (r.flags ||| if r.slow then 0x40 else 0)
              let s5 := s4.sendV c lat (.row (d + 1)) (packElems 32 (r.list.map (fun p => (base + p) % 2 ^ 32))) 0
              .ok (s5.sendMask c lat ms (((k.mval ms).toNat * 2 + if r.slow then 1 else 0) % 2 ^ 256) 0) q)

/-- The entry that a draw picks: index, flags, and whether the rules name one (R230). -/
def drawEntry (as : List Nat) (act : Nat → Bool) (u : Nat) : Option (Option Nat) × Nat :=
  let idx := (List.range 64).filter act
  let live := idx.map (fun j => as.getD j 0)
  if idx.isEmpty || live.any nanOrTop then (some none, flNV)
  else
    let mx := maxF live
    let ws := (List.range 64).map (fun j => if act j then weightOf mx (as.getD j 0) else (0, 0))
    let cs := runSums (ws.map Prod.fst)
    let last := cs.1.getLastD 0
    let fl := joinFlags ws ||| cs.2
    if fpCmp fp32 0 last 0 then (some none, flNV ||| fl)
    else
      let t := fp32.pack 0 false 0 (fMul (.fin false u (-24) false) (fp32.decode last))
      let pos := (List.range 64).filter (fun j => fpCmp fp32 4 ((ws.getD j (0, 0)).1) 0)
      match pos.find? (fun j => fpCmp fp32 4 (cs.1.getD j 0) t.1) with
      | some j => (some (some j), fl ||| t.2)
      | none =>
        match pos.getLast? with
        | some j => (some (some j), fl ||| t.2)
        | none => (none, fl ||| t.2)

/-- QS2V holds this repeat's seed beside what its operands A and B pop before it (R208, R230). -/
def seedReady (s : State) (c : Nat) (v : VWord) : Bool :=
  let n := (if v.a.reg.toNat = codeQS2V then 1 else 0) + (if v.b.reg.toNat = codeQS2V then 1 else 0)
  match (s.core c).qs2v.items[n]? with
  | some e => decide (e.1 < s.now)
  | none => false

/-- VSAMPLE: one drawn index per repeat (R230). Where every eligible value is −inf the rules name no entry: a free value (log 20). -/
def execVsample (v : VWord) (s : State) : Host.Outcome State Fault Refusal :=
  let fm : VForm := { q := 8, bits := 32, dty := 4, merges := false }
  vectorWord (.vsample v) (repsOf v) s (fun _ => operandIf (!formOk v fm || v.d.reg.toNat == codeQV2M)) (fun s c i =>
    if !seedReady s c v then .block s 1
    else
      runWith v fm (fun s e lat =>
        let k := s.core c
        let x := (k.qs2v.head?.getD 0).toNat
        let s := s.popQs2v c
        let u := srDraw e.key (v.e 0 16) (bitsOf x 24 24) (bitsOf x 0 24)
        let r := drawEntry (elemsOf 32 (joinRows e.a)) e.act u
        let bs := elemsOf 32 (joinRows e.b)
        let val : Int := match r.1 with
          | some (some j) => signedOf (bs.getD j 0) 32
          | some none => -1
          | none => signedOf (Config.freeWord s.free).toNat 32
        let s := { s with free := s.free + 1 }
        s.sendRows c lat 4 v.d i [scalarRow val] r.2) s c i)

/-- VRNG: random rows (R231). -/
def execVrng (v : VWord) (s : State) : Host.Outcome State Fault Refusal :=
  let t := v.ty.toNat
  let fm : VForm := { formOf v with aRows := 0, bRows := 0 }
  vectorWord (.vrng v) (repsOf v) s (fun _ => operandIf (!isReg v.d || !formOk v fm))
    (runRepeat v fm (fun e =>
      let g := (rowOf v.d e.i 0).toNat
      let val := fun j =>
        let r := krn e.key (krnCtr (v.e 0 16) g j)
        if t = 7 then (fp32.pack 0 false 0 (.fin false (r / 256) (-24) false)).1
        else if t = 6 then (bf16.pack 0 false 0 (.fin false (r / 2 ^ 24) (-8) false)).1
        else r / 2 ^ (32 - tyBits t)
      ([mergeElems (tyBits t) e ((List.range (elemCount t)).map val)], 0)))

end Sys2Proof.Machine
end

