-- ==== Sys2Proof/Machine/Dispatch.lean ====
section
/-! DEFINITION. One arm per constructor: the meaning of each step of the machine. -/

namespace Sys2Proof.Machine

def exec (i : Instr) (s : State) : Host.Outcome State Fault Refusal :=
  match i with
  | .add x1 x2 x3 x4 => Sys2Proof.Machine.execAdd x1 x2 x3 x4 s
  | .sub x1 x2 x3 x4 => Sys2Proof.Machine.execSub x1 x2 x3 x4 s
  | .and x1 x2 x3 x4 => Sys2Proof.Machine.execAnd x1 x2 x3 x4 s
  | .or x1 x2 x3 x4 => Sys2Proof.Machine.execOr x1 x2 x3 x4 s
  | .xor x1 x2 x3 x4 => Sys2Proof.Machine.execXor x1 x2 x3 x4 s
  | .sll x1 x2 x3 x4 => Sys2Proof.Machine.execSll x1 x2 x3 x4 s
  | .srl x1 x2 x3 x4 => Sys2Proof.Machine.execSrl x1 x2 x3 x4 s
  | .sra x1 x2 x3 x4 => Sys2Proof.Machine.execSra x1 x2 x3 x4 s
  | .mul x1 x2 x3 x4 => Sys2Proof.Machine.execMul x1 x2 x3 x4 s
  | .mulh x1 x2 x3 x4 => Sys2Proof.Machine.execMulh x1 x2 x3 x4 s
  | .mulhu x1 x2 x3 x4 => Sys2Proof.Machine.execMulhu x1 x2 x3 x4 s
  | .div x1 x2 x3 x4 => Sys2Proof.Machine.execDiv x1 x2 x3 x4 s
  | .divu x1 x2 x3 x4 => Sys2Proof.Machine.execDivu x1 x2 x3 x4 s
  | .rem x1 x2 x3 x4 => Sys2Proof.Machine.execRem x1 x2 x3 x4 s
  | .remu x1 x2 x3 x4 => Sys2Proof.Machine.execRemu x1 x2 x3 x4 s
  | .min x1 x2 x3 x4 => Sys2Proof.Machine.execMin x1 x2 x3 x4 s
  | .max x1 x2 x3 x4 => Sys2Proof.Machine.execMax x1 x2 x3 x4 s
  | .minu x1 x2 x3 x4 => Sys2Proof.Machine.execMinu x1 x2 x3 x4 s
  | .maxu x1 x2 x3 x4 => Sys2Proof.Machine.execMaxu x1 x2 x3 x4 s
  | .clz x1 x2 x3 => Sys2Proof.Machine.execClz x1 x2 x3 s
  | .ctz x1 x2 x3 => Sys2Proof.Machine.execCtz x1 x2 x3 s
  | .popc x1 x2 x3 => Sys2Proof.Machine.execPopc x1 x2 x3 s
  | .addw x1 x2 x3 x4 => Sys2Proof.Machine.execAddw x1 x2 x3 x4 s
  | .subw x1 x2 x3 x4 => Sys2Proof.Machine.execSubw x1 x2 x3 x4 s
  | .andn x1 x2 x3 x4 => Sys2Proof.Machine.execAndn x1 x2 x3 x4 s
  | .addi x1 x2 x3 x4 => Sys2Proof.Machine.execAddi x1 x2 x3 x4 s
  | .andi x1 x2 x3 x4 => Sys2Proof.Machine.execAndi x1 x2 x3 x4 s
  | .ori x1 x2 x3 x4 => Sys2Proof.Machine.execOri x1 x2 x3 x4 s
  | .xori x1 x2 x3 x4 => Sys2Proof.Machine.execXori x1 x2 x3 x4 s
  | .slli x1 x2 x3 x4 => Sys2Proof.Machine.execSlli x1 x2 x3 x4 s
  | .srli x1 x2 x3 x4 => Sys2Proof.Machine.execSrli x1 x2 x3 x4 s
  | .srai x1 x2 x3 x4 => Sys2Proof.Machine.execSrai x1 x2 x3 x4 s
  | .lhi x1 x2 x3 => Sys2Proof.Machine.execLhi x1 x2 x3 s
  | .addpc x1 x2 x3 => Sys2Proof.Machine.execAddpc x1 x2 x3 s
  | .fadd x1 x2 x3 x4 => Sys2Proof.Machine.execFadd x1 x2 x3 x4 s
  | .fsub x1 x2 x3 x4 => Sys2Proof.Machine.execFsub x1 x2 x3 x4 s
  | .fmul x1 x2 x3 x4 => Sys2Proof.Machine.execFmul x1 x2 x3 x4 s
  | .fdiv x1 x2 x3 x4 => Sys2Proof.Machine.execFdiv x1 x2 x3 x4 s
  | .fsqrt x1 x2 x3 => Sys2Proof.Machine.execFsqrt x1 x2 x3 s
  | .fmin x1 x2 x3 x4 => Sys2Proof.Machine.execFmin x1 x2 x3 x4 s
  | .fmax x1 x2 x3 x4 => Sys2Proof.Machine.execFmax x1 x2 x3 x4 s
  | .fsgnj x1 x2 x3 x4 => Sys2Proof.Machine.execFsgnj x1 x2 x3 x4 s
  | .fsgnn x1 x2 x3 x4 => Sys2Proof.Machine.execFsgnn x1 x2 x3 x4 s
  | .fsgnx x1 x2 x3 x4 => Sys2Proof.Machine.execFsgnx x1 x2 x3 x4 s
  | .fcvti x1 x2 x3 => Sys2Proof.Machine.execFcvti x1 x2 x3 s
  | .icvtf x1 x2 x3 => Sys2Proof.Machine.execIcvtf x1 x2 x3 s
  | .ftobf x1 x2 x3 => Sys2Proof.Machine.execFtobf x1 x2 x3 s
  | .bftof x1 x2 x3 => Sys2Proof.Machine.execBftof x1 x2 x3 s
  | .fclass x1 x2 x3 => Sys2Proof.Machine.execFclass x1 x2 x3 s
  | .fma x1 x2 x3 x4 x5 => Sys2Proof.Machine.execFma x1 x2 x3 x4 x5 s
  | .fms x1 x2 x3 x4 x5 => Sys2Proof.Machine.execFms x1 x2 x3 x4 x5 s
  | .fnma x1 x2 x3 x4 x5 => Sys2Proof.Machine.execFnma x1 x2 x3 x4 x5 s
  | .fnms x1 x2 x3 x4 x5 => Sys2Proof.Machine.execFnms x1 x2 x3 x4 x5 s
  | .cmp x1 x2 x3 x4 x5 x6 => Sys2Proof.Machine.execCmp x1 x2 x3 x4 x5 x6 s
  | .cmpi x1 x2 x3 x4 x5 x6 => Sys2Proof.Machine.execCmpi x1 x2 x3 x4 x5 x6 s
  | .fcmp x1 x2 x3 x4 x5 x6 => Sys2Proof.Machine.execFcmp x1 x2 x3 x4 x5 x6 s
  | .cand x1 x2 x3 x4 => Sys2Proof.Machine.execCand x1 x2 x3 x4 s
  | .cor x1 x2 x3 x4 => Sys2Proof.Machine.execCor x1 x2 x3 x4 s
  | .cxor x1 x2 x3 x4 => Sys2Proof.Machine.execCxor x1 x2 x3 x4 s
  | .candn x1 x2 x3 x4 => Sys2Proof.Machine.execCandn x1 x2 x3 x4 s
  | .cnot x1 x2 x3 => Sys2Proof.Machine.execCnot x1 x2 x3 s
  | .ctrue x1 x2 => Sys2Proof.Machine.execCtrue x1 x2 s
  | .cfalse x1 x2 => Sys2Proof.Machine.execCfalse x1 x2 s
  | .cmove x1 x2 x3 => Sys2Proof.Machine.execCmove x1 x2 x3 s
  | .csave x1 x2 => Sys2Proof.Machine.execCsave x1 x2 s
  | .cload x1 x2 => Sys2Proof.Machine.execCload x1 x2 s
  | .prep x1 x2 x3 => Sys2Proof.Machine.execPrep x1 x2 x3 s
  | .prepr x1 x2 x3 => Sys2Proof.Machine.execPrepr x1 x2 x3 s
  | .br x1 x2 => Sys2Proof.Machine.execBr x1 x2 s
  | .brn x1 x2 => Sys2Proof.Machine.execBrn x1 x2 s
  | .jmp x1 x2 => Sys2Proof.Machine.execJmp x1 x2 s
  | .call x1 x2 => Sys2Proof.Machine.execCall x1 x2 s
  | .ret x1 => Sys2Proof.Machine.execRet x1 s
  | .loop x1 x2 x3 x4 => Sys2Proof.Machine.execLoop x1 x2 x3 x4 s
  | .loopi x1 x2 x3 x4 => Sys2Proof.Machine.execLoopi x1 x2 x3 x4 s
  | .lprw x1 x2 x3 x4 x5 => Sys2Proof.Machine.execLprw x1 x2 x3 x4 x5 s
  | .lda x1 x2 x3 x4 x5 x6 => Sys2Proof.Machine.execLda x1 x2 x3 x4 x5 x6 s
  | .ldau x1 x2 x3 x4 x5 x6 => Sys2Proof.Machine.execLdau x1 x2 x3 x4 x5 x6 s
  | .sta x1 x2 x3 x4 x5 x6 => Sys2Proof.Machine.execSta x1 x2 x3 x4 x5 x6 s
  | .ldg x1 x2 x3 x4 x5 x6 => Sys2Proof.Machine.execLdg x1 x2 x3 x4 x5 x6 s
  | .ldgu x1 x2 x3 x4 x5 x6 => Sys2Proof.Machine.execLdgu x1 x2 x3 x4 x5 x6 s
  | .stg x1 x2 x3 x4 x5 x6 => Sys2Proof.Machine.execStg x1 x2 x3 x4 x5 x6 s
  | .enter x1 x2 => Sys2Proof.Machine.execEnter x1 x2 s
  | .leave x1 x2 => Sys2Proof.Machine.execLeave x1 x2 s
  | .amoadd x1 x2 x3 x4 x5 => Sys2Proof.Machine.execAmoadd x1 x2 x3 x4 x5 s
  | .amomin x1 x2 x3 x4 x5 => Sys2Proof.Machine.execAmomin x1 x2 x3 x4 x5 s
  | .amomax x1 x2 x3 x4 x5 => Sys2Proof.Machine.execAmomax x1 x2 x3 x4 x5 s
  | .amominu x1 x2 x3 x4 x5 => Sys2Proof.Machine.execAmominu x1 x2 x3 x4 x5 s
  | .amomaxu x1 x2 x3 x4 x5 => Sys2Proof.Machine.execAmomaxu x1 x2 x3 x4 x5 s
  | .amoand x1 x2 x3 x4 x5 => Sys2Proof.Machine.execAmoand x1 x2 x3 x4 x5 s
  | .amoor x1 x2 x3 x4 x5 => Sys2Proof.Machine.execAmoor x1 x2 x3 x4 x5 s
  | .amoxor x1 x2 x3 x4 x5 => Sys2Proof.Machine.execAmoxor x1 x2 x3 x4 x5 s
  | .amoswap x1 x2 x3 x4 x5 => Sys2Proof.Machine.execAmoswap x1 x2 x3 x4 x5 s
  | .amofadd x1 x2 x3 x4 => Sys2Proof.Machine.execAmofadd x1 x2 x3 x4 s
  | .cas x1 x2 x3 x4 x5 x6 => Sys2Proof.Machine.execCas x1 x2 x3 x4 x5 x6 s
  | .qpush x1 x2 x3 => Sys2Proof.Machine.execQpush x1 x2 x3 s
  | .qpop x1 x2 x3 => Sys2Proof.Machine.execQpop x1 x2 x3 s
  | .qpeek x1 x2 x3 => Sys2Proof.Machine.execQpeek x1 x2 x3 s
  | .qcnt x1 x2 x3 => Sys2Proof.Machine.execQcnt x1 x2 x3 s
  | .blk x1 x2 x3 x4 x5 x6 => Sys2Proof.Machine.execBlk x1 x2 x3 x4 x5 x6 s
  | .wait x1 x2 => Sys2Proof.Machine.execWait x1 x2 s
  | .anchor x1 => Sys2Proof.Machine.execAnchor x1 s
  | .tnow x1 x2 => Sys2Proof.Machine.execTnow x1 x2 s
  | .bnow x1 x2 => Sys2Proof.Machine.execBnow x1 x2 s
  | .btset x1 x2 => Sys2Proof.Machine.execBtset x1 x2 s
  | .cpy x1 x2 => Sys2Proof.Machine.execCpy x1 x2 s
  | .cpys x1 x2 x3 => Sys2Proof.Machine.execCpys x1 x2 x3 s
  | .drain x1 x2 => Sys2Proof.Machine.execDrain x1 x2 s
  | .bkrun x1 x2 x3 x4 => Sys2Proof.Machine.execBkrun x1 x2 x3 x4 s
  | .bklode x1 x2 x3 x4 => Sys2Proof.Machine.execBklode x1 x2 x3 x4 s
  | .bkcal x1 x2 x3 x4 => Sys2Proof.Machine.execBkcal x1 x2 x3 x4 s
  | .bkst x1 x2 x3 => Sys2Proof.Machine.execBkst x1 x2 x3 s
  | .mlease x1 x2 => Sys2Proof.Machine.execMlease x1 x2 s
  | .mfree x1 => Sys2Proof.Machine.execMfree x1 s
  | .scommit x1 x2 => Sys2Proof.Machine.execScommit x1 x2 s
  | .sdrop x1 x2 => Sys2Proof.Machine.execSdrop x1 x2 s
  | .bar x1 x2 x3 => Sys2Proof.Machine.execBar x1 x2 x3 s
  | .bara x1 x2 x3 => Sys2Proof.Machine.execBara x1 x2 x3 s
  | .barw x1 x2 x3 => Sys2Proof.Machine.execBarw x1 x2 x3 s
  | .fence x1 x2 x3 => Sys2Proof.Machine.execFence x1 x2 x3 s
  | .waitm x1 x2 x3 x4 x5 => Sys2Proof.Machine.execWaitm x1 x2 x3 x4 x5 s
  | .ttset x1 x2 x3 => Sys2Proof.Machine.execTtset x1 x2 x3 s
  | .trdy x1 x2 => Sys2Proof.Machine.execTrdy x1 x2 s
  | .sbset x1 x2 => Sys2Proof.Machine.execSbset x1 x2 s
  | .sbarm x1 x2 x3 x4 => Sys2Proof.Machine.execSbarm x1 x2 x3 x4 s
  | .clx x1 x2 x3 => Sys2Proof.Machine.execClx x1 x2 x3 s
  | .dsadmit x1 x2 => Sys2Proof.Machine.execDsadmit x1 x2 s
  | .dsemit x1 x2 => Sys2Proof.Machine.execDsemit x1 x2 s
  | .dstrunc x1 x2 => Sys2Proof.Machine.execDstrunc x1 x2 s
  | .dscur x1 x2 x3 => Sys2Proof.Machine.execDscur x1 x2 x3 s
  | .kvinv x1 x2 x3 => Sys2Proof.Machine.execKvinv x1 x2 x3 s
  | .kvaccept x1 x2 x3 => Sys2Proof.Machine.execKvaccept x1 x2 x3 s
  | .kvcommit x1 x2 => Sys2Proof.Machine.execKvcommit x1 x2 s
  | .nop x1 => Sys2Proof.Machine.execNop x1 s
  | .trap x1 x2 => Sys2Proof.Machine.execTrap x1 x2 s
  | .gets x1 x2 x3 x4 => Sys2Proof.Machine.execGets x1 x2 x3 x4 s
  | .puts x1 x2 x3 x4 => Sys2Proof.Machine.execPuts x1 x2 x3 x4 s
  | .bkpt x1 x2 => Sys2Proof.Machine.execBkpt x1 x2 s
  | .swap x1 x2 x3 => Sys2Proof.Machine.execSwap x1 x2 x3 s
  | .halt x1 x2 => Sys2Proof.Machine.execHalt x1 x2 s
  | .mv x1 x2 x3 => Sys2Proof.Machine.execMv x1 x2 x3 s
  | .ktlbi x1 x2 => Sys2Proof.Machine.execKtlbi x1 x2 s
  | .kresume x1 => Sys2Proof.Machine.execKresume x1 s
  | .vmov x1 => Sys2Proof.Machine.execVmov x1 s
  | .vadd x1 => Sys2Proof.Machine.execVadd x1 s
  | .vsub x1 => Sys2Proof.Machine.execVsub x1 s
  | .vmul x1 => Sys2Proof.Machine.execVmul x1 s
  | .vfma x1 => Sys2Proof.Machine.execVfma x1 s
  | .vfms x1 => Sys2Proof.Machine.execVfms x1 s
  | .vmin x1 => Sys2Proof.Machine.execVmin x1 s
  | .vmax x1 => Sys2Proof.Machine.execVmax x1 s
  | .vabs x1 => Sys2Proof.Machine.execVabs x1 s
  | .vneg x1 => Sys2Proof.Machine.execVneg x1 s
  | .vadds x1 => Sys2Proof.Machine.execVadds x1 s
  | .vsubs x1 => Sys2Proof.Machine.execVsubs x1 s
  | .vmulh x1 => Sys2Proof.Machine.execVmulh x1 s
  | .vand x1 => Sys2Proof.Machine.execVand x1 s
  | .vor x1 => Sys2Proof.Machine.execVor x1 s
  | .vxor x1 => Sys2Proof.Machine.execVxor x1 s
  | .vnot x1 => Sys2Proof.Machine.execVnot x1 s
  | .vshl x1 => Sys2Proof.Machine.execVshl x1 s
  | .vshr x1 => Sys2Proof.Machine.execVshr x1 s
  | .vsar x1 => Sys2Proof.Machine.execVsar x1 s
  | .vsel x1 => Sys2Proof.Machine.execVsel x1 s
  | .vcmp x1 => Sys2Proof.Machine.execVcmp x1 s
  | .vclamp x1 => Sys2Proof.Machine.execVclamp x1 s
  | .vdot4 x1 => Sys2Proof.Machine.execVdot4 x1 s
  | .vtacc x1 => Sys2Proof.Machine.execVtacc x1 s
  | .vrsum x1 => Sys2Proof.Machine.execVrsum x1 s
  | .vrmax x1 => Sys2Proof.Machine.execVrmax x1 s
  | .vrmin x1 => Sys2Proof.Machine.execVrmin x1 s
  | .vrsums x1 => Sys2Proof.Machine.execVrsums x1 s
  | .vscan x1 => Sys2Proof.Machine.execVscan x1 s
  | .vpermb x1 => Sys2Proof.Machine.execVpermb x1 s
  | .vpermw x1 => Sys2Proof.Machine.execVpermw x1 s
  | .vslide x1 => Sys2Proof.Machine.execVslide x1 s
  | .vbcast x1 => Sys2Proof.Machine.execVbcast x1 s
  | .vcvt x1 => Sys2Proof.Machine.execVcvt x1 s
  | .vqmx x1 => Sys2Proof.Machine.execVqmx x1 s
  | .vdqmx x1 => Sys2Proof.Machine.execVdqmx x1 s
  | .vunt5 x1 => Sys2Proof.Machine.execVunt5 x1 s
  | .vnbps x1 => Sys2Proof.Machine.execVnbps x1 s
  | .vnbpj x1 => Sys2Proof.Machine.execVnbpj x1 s
  | .vmset x1 => Sys2Proof.Machine.execVmset x1 s
  | .vmlog x1 => Sys2Proof.Machine.execVmlog x1 s
  | .vmcnt x1 => Sys2Proof.Machine.execVmcnt x1 s
  | .vmfirst x1 => Sys2Proof.Machine.execVmfirst x1 s
  | .vmrow x1 => Sys2Proof.Machine.execVmrow x1 s
  | .vmpos x1 => Sys2Proof.Machine.execVmpos x1 s
  | .vshort x1 => Sys2Proof.Machine.execVshort x1 s
  | .vsample x1 => Sys2Proof.Machine.execVsample x1 s
  | .vrng x1 => Sys2Proof.Machine.execVrng x1 s
  | .vexp2 x1 => Sys2Proof.Machine.execVexp2 x1 s
  | .vlog2 x1 => Sys2Proof.Machine.execVlog2 x1 s
  | .vrcp x1 => Sys2Proof.Machine.execVrcp x1 s
  | .vrsq x1 => Sys2Proof.Machine.execVrsq x1 s
  | .vldc x1 => Sys2Proof.Machine.execVldc x1 s
  | .vstc x1 => Sys2Proof.Machine.execVstc x1 s
  | .vbld x1 => Sys2Proof.Machine.execVbld x1 s
  | .vbst x1 => Sys2Proof.Machine.execVbst x1 s
  | .vldg x1 => Sys2Proof.Machine.execVldg x1 s
  | .vstg x1 => Sys2Proof.Machine.execVstg x1 s
  | .vgth x1 => Sys2Proof.Machine.execVgth x1 s
  | .vsct x1 => Sys2Proof.Machine.execVsct x1 s
  | .vaset x1 => Sys2Proof.Machine.execVaset x1 s
  | .vaadd x1 => Sys2Proof.Machine.execVaadd x1 s
  | .vend x1 => Sys2Proof.Machine.execVend x1 s
  | .vnop x1 => Sys2Proof.Machine.execVnop x1 s
  | .vtileWait x1 => Sys2Proof.Machine.execVtileWait x1 s
  | .vtileMark x1 => Sys2Proof.Machine.execVtileMark x1 s
  | .mlds x1 => Sys2Proof.Machine.execMlds x1 s
  | .mswap x1 => Sys2Proof.Machine.execMswap x1 s
  | .mstep x1 => Sys2Proof.Machine.execMstep x1 s
  | .mzero x1 => Sys2Proof.Machine.execMzero x1 s
  | .mdrain x1 => Sys2Proof.Machine.execMdrain x1 s
  | .mflag x1 => Sys2Proof.Machine.execMflag x1 s
  | .mend x1 => Sys2Proof.Machine.execMend x1 s
  | .mnop x1 => Sys2Proof.Machine.execMnop x1 s
  | .ktlbf => Sys2Proof.Machine.execKtlbf s
  | .moduleReset => Sys2Proof.Machine.execModuleReset s
  | .door => Sys2Proof.Machine.execDoor s
  | .registerWrite => Sys2Proof.Machine.execRegisterWrite s
  | .debugUnlock => Sys2Proof.Machine.execDebugUnlock s
  | .debugFreeze => Sys2Proof.Machine.execDebugFreeze s
  | .moduleLimitSet => Sys2Proof.Machine.execModuleLimitSet s
  | .thermalLevelChange => Sys2Proof.Machine.execThermalLevelChange s
  | .thermalLimitStep => Sys2Proof.Machine.execThermalLimitStep s
  | .thermalTrip => Sys2Proof.Machine.execThermalTrip s
  | .ptpOffsetLoss => Sys2Proof.Machine.execPtpOffsetLoss s
  | .unitFailure => Sys2Proof.Machine.execUnitFailure s
  | .linkTraining => Sys2Proof.Machine.execLinkTraining s
  | .windowBoundary => Sys2Proof.Machine.execWindowBoundary s
  | .noCall => Sys2Proof.Machine.execNoCall s
  | .kqOpenBundle => Sys2Proof.Machine.execKqOpenBundle s
  | .kqLaunch => Sys2Proof.Machine.execKqLaunch s
  | .kqWait => Sys2Proof.Machine.execKqWait s
  | .kqWaitTimeout => Sys2Proof.Machine.execKqWaitTimeout s
  | .kqGraphNew => Sys2Proof.Machine.execKqGraphNew s
  | .kqGraphEdit => Sys2Proof.Machine.execKqGraphEdit s
  | .kqGraphRun => Sys2Proof.Machine.execKqGraphRun s
  | .kqQueuePrio => Sys2Proof.Machine.execKqQueuePrio s
  | .kqMemAlloc => Sys2Proof.Machine.execKqMemAlloc s
  | .kqMemFree => Sys2Proof.Machine.execKqMemFree s
  | .kqMemMapWritable => Sys2Proof.Machine.execKqMemMapWritable s
  | .kqMemMapPin => Sys2Proof.Machine.execKqMemMapPin s
  | .kqMemMapUnpin => Sys2Proof.Machine.execKqMemMapUnpin s
  | .kqMemMapMigrate => Sys2Proof.Machine.execKqMemMapMigrate s
  | .pageMigration => Sys2Proof.Machine.execPageMigration s
  | .kqSeamAllocReserve => Sys2Proof.Machine.execKqSeamAllocReserve s
  | .kqSeamAllocRelease => Sys2Proof.Machine.execKqSeamAllocRelease s
  | .kqStreamOpen => Sys2Proof.Machine.execKqStreamOpen s
  | .kqStreamClose => Sys2Proof.Machine.execKqStreamClose s
  | .kqPlanRegister => Sys2Proof.Machine.execKqPlanRegister s
  | .kqPlanRelease => Sys2Proof.Machine.execKqPlanRelease s
  | .kqFaultHandler => Sys2Proof.Machine.execKqFaultHandler s
  | .kqFileRead => Sys2Proof.Machine.execKqFileRead s
  | .kqFileWrite => Sys2Proof.Machine.execKqFileWrite s
  | .storageCommandTimeout => Sys2Proof.Machine.execStorageCommandTimeout s
  | .kqAttest => Sys2Proof.Machine.execKqAttest s
  | .kqExit => Sys2Proof.Machine.execKqExit s
  | .selection => Sys2Proof.Machine.execSelection s
  | .multiPackagePacket => Sys2Proof.Machine.execMultiPackagePacket s
  | .ready => Sys2Proof.Machine.execReady s
  | .abort => Sys2Proof.Machine.execAbort s
  | .retirementReport => Sys2Proof.Machine.execRetirementReport s
  | .launchComplete => Sys2Proof.Machine.execLaunchComplete s
  | .startPulse => Sys2Proof.Machine.execStartPulse s
  | .overlayLoad => Sys2Proof.Machine.execOverlayLoad s
  | .anchorRelease => Sys2Proof.Machine.execAnchorRelease s
  | .blockStart => Sys2Proof.Machine.execBlockStart s
  | .stallRelease => Sys2Proof.Machine.execStallRelease s
  | .promiseExpiry => Sys2Proof.Machine.execPromiseExpiry s
  | .scalarResult => Sys2Proof.Machine.execScalarResult s
  | .vectorResult => Sys2Proof.Machine.execVectorResult s
  | .beatOpen => Sys2Proof.Machine.execBeatOpen s
  | .beatClose => Sys2Proof.Machine.execBeatClose s
  | .bankRequestArrival => Sys2Proof.Machine.execBankRequestArrival s
  | .bankProgramStart => Sys2Proof.Machine.execBankProgramStart s
  | .descriptorStart => Sys2Proof.Machine.execDescriptorStart s
  | .copyWord => Sys2Proof.Machine.execCopyWord s
  | .copyChunkTranslation => Sys2Proof.Machine.execCopyChunkTranslation s
  | .pageWalk => Sys2Proof.Machine.execPageWalk s
  | .globalPerform => Sys2Proof.Machine.execGlobalPerform s
  | .globalResultReturn => Sys2Proof.Machine.execGlobalResultReturn s
  | .leaseGrant => Sys2Proof.Machine.execLeaseGrant s
  | .specResolve => Sys2Proof.Machine.execSpecResolve s
  | .mfreeEffect => Sys2Proof.Machine.execMfreeEffect s
  | .shadowPlaneLoaded => Sys2Proof.Machine.execShadowPlaneLoaded s
  | .matrixRowWrite => Sys2Proof.Machine.execMatrixRowWrite s
  | .drainDelivery => Sys2Proof.Machine.execDrainDelivery s
  | .fullBitChange => Sys2Proof.Machine.execFullBitChange s
  | .barrierComplete => Sys2Proof.Machine.execBarrierComplete s
  | .entryFire => Sys2Proof.Machine.execEntryFire s
  | .pieceArrival => Sys2Proof.Machine.execPieceArrival s
  | .combineWrite => Sys2Proof.Machine.execCombineWrite s
  | .firingComplete => Sys2Proof.Machine.execFiringComplete s
  | .postBitArrival => Sys2Proof.Machine.execPostBitArrival s
  | .semaphoreHandoff => Sys2Proof.Machine.execSemaphoreHandoff s
  | .triggerFire => Sys2Proof.Machine.execTriggerFire s
  | .slotFreeNotice => Sys2Proof.Machine.execSlotFreeNotice s
  | .framePublish => Sys2Proof.Machine.execFramePublish s
  | .playbackCursorWrite => Sys2Proof.Machine.execPlaybackCursorWrite s
  | .dsPerform => Sys2Proof.Machine.execDsPerform s
  | .tlbShootdownComplete => Sys2Proof.Machine.execTlbShootdownComplete s
  | .portPageFault => Sys2Proof.Machine.execPortPageFault s
  | .trapWindowDelivery => Sys2Proof.Machine.execTrapWindowDelivery s
  | .handlerReturn => Sys2Proof.Machine.execHandlerReturn s
  | .release => Sys2Proof.Machine.execRelease s
  | .preemption => Sys2Proof.Machine.execPreemption s
  | .preemptionInterval => Sys2Proof.Machine.execPreemptionInterval s
  | .engineAck => Sys2Proof.Machine.execEngineAck s
  | .contextSaveComplete => Sys2Proof.Machine.execContextSaveComplete s
  | .bankEviction => Sys2Proof.Machine.execBankEviction s
  | .parityError => Sys2Proof.Machine.execParityError s
  | .retirement => Sys2Proof.Machine.execRetirement s
  | .ptpOffsetRecovery => Sys2Proof.Machine.execPtpOffsetRecovery s
  | .hartWrite => Sys2Proof.Machine.execHartWrite s
  | .hostWrite => Sys2Proof.Machine.execHostWrite s
  | .softError => Sys2Proof.Machine.execSoftError s
  | .storageTransferComplete => Sys2Proof.Machine.execStorageTransferComplete s
  | .planSlotsReserved => Sys2Proof.Machine.execPlanSlotsReserved s

end Sys2Proof.Machine
end

