-- ==== Sys2Proof/Machine/HartBase.lean ====
section
/-! DEFINITION. The words of the RISC-V base set that a Headframe hart executes, RV64IMAFDC with its control and status registers, as the RISC-V specifications define them (00_scope.md, R2; log 49): they reach memory, the trap window that a handler sees (R391, R392) and the capability map (R20). A word that is none is the illegal-instruction exception. -/

namespace Sys2Proof.Machine

/-! ### Integer words -/

/-- A field of a word as a signed number of 64 bits. -/
def hartImm (v n : Nat) : Word64 := BitVec.ofInt 64 (signedOf v n)
/-- Immediates of the I, S, B, U and J formats. -/
def immI (w : Nat) : Word64 := hartImm (bitsOf w 20 12) 12
def immS (w : Nat) : Word64 := hartImm (bitsOf w 25 7 * 32 + bitsOf w 7 5) 12
def immB (w : Nat) : Word64 := hartImm (bitsOf w 31 1 * 4096 + bitsOf w 7 1 * 2048 + bitsOf w 25 6 * 32 + bitsOf w 8 4 * 2) 13
def immU (w : Nat) : Word64 := hartImm (w / 4096 * 4096) 32
def immJ (w : Nat) : Word64 := hartImm (bitsOf w 31 1 * 2 ^ 20 + bitsOf w 12 8 * 4096 + bitsOf w 20 1 * 2048 + bitsOf w 21 10 * 2) 21
/-- The low 32 bits of a result, sign-extended. -/
def wordOf (v : Word64) : Word64 := hartImm (v.toNat % 2 ^ 32) 32
/-- The integer operations by funct3; `alt` is SUB or SRA; `n` is the operand width. -/
def hartAlu (f3 : Nat) (alt : Bool) (n : Nat) (x y : Word64) : Word64 :=
  let sh := y.toNat % n
  match f3 with
  | 0 => if alt then x - y else x + y
  | 1 => x <<< sh
  | 2 => if x.toInt < y.toInt then 1 else 0
  | 3 => if x.toNat < y.toNat then 1 else 0
  | 4 => x ^^^ y
  | 5 => if alt then BitVec.ofInt 64 (signedOf x.toNat n / 2 ^ sh) else BitVec.ofNat 64 (x.toNat % 2 ^ n / 2 ^ sh)
  | 6 => x ||| y
  | _ => x &&& y
/-- Quotient and remainder of `n` bits with the corners of the RISC-V specification: by zero, and the overflow of the least number by −1. -/
def hartDiv (f3 n x y : Nat) : Int :=
  let sx := signedOf x n
  let sy := signedOf y n
  match f3 with
  | 4 => if sy = 0 then -1 else sx.tdiv sy
  | 5 => if y % 2 ^ n = 0 then -1 else (x % 2 ^ n / (y % 2 ^ n) : Nat)
  | 6 => if sy = 0 then sx else sx.tmod sy
  | _ => if y % 2 ^ n = 0 then (x % 2 ^ n : Nat) else (x % 2 ^ n % (y % 2 ^ n) : Nat)
/-- Multiplications and divisions by funct3. -/
def hartMul (f3 n : Nat) (x y : Word64) : Word64 :=
  match f3 with
  | 0 => x * y
  | 1 => BitVec.ofInt 64 (x.toInt * y.toInt / 2 ^ 64)
  | 2 => BitVec.ofInt 64 (x.toInt * (y.toNat : Int) / 2 ^ 64)
  | 3 => BitVec.ofNat 64 (x.toNat * y.toNat / 2 ^ 64)
  | _ => BitVec.ofInt 64 (hartDiv f3 n x.toNat y.toNat)
/-- A branch is taken, by funct3; none for a funct3 that names none. -/
def hartTakes (f3 : Nat) (x y : Word64) : Option Bool :=
  match f3 with
  | 0 => some (x == y)
  | 1 => some (x != y)
  | 4 => some (decide (x.toInt < y.toInt))
  | 5 => some (decide (y.toInt ≤ x.toInt))
  | 6 => some (decide (x.toNat < y.toNat))
  | 7 => some (decide (y.toNat ≤ x.toNat))
  | _ => none

/-! ### Where an access of a hart goes -/

/-- What an address names for a hart: physical parts as (offset, address, bytes), a trap window at an offset, or an exception with its
cause. -/
inductive HartDest where
  | mem (parts : List (Nat × Nat × Nat))
  | window (die win off : Nat)
  | fault (cause : Nat)
  deriving DecidableEq, Repr
/-- The window that a hart sees at an address: the handler's, in its process, or any at its place in the kernel's address space (R390, R391). -/
def State.hartWindow (s : State) (h va : Nat) : Option (Nat × Nat × Nat) :=
  let x := s.hart h
  let at_ := fun (d w base : Nat) => if base ≤ va && va < base + page64K then some (d, w, va - base) else none
  if x.dataMode = 0 then
    match x.handling, x.spid.bind s.proc? with
    | some (d, w), some p => at_ d w p.handlerWin
    | _, _ => none
  else (List.range 32).findSome? (fun i => at_ (i / 16) (i % 16) (Config.trapWindowBase (i / 16) (i % 16)).toNat)
/-- An access of a hart to bytes: 1 a load, 2 a store or an atomic (R20, R285, R287, R294, R298, R391). Each page, then each access table. -/
def State.hartDest (s : State) (h va n access right : Nat) : HartDest :=
  match s.hartWindow h va with
  | some (d, w, off) => .window d w off
  | none =>
    match (pageParts va n).mapM (fun p => (s.hartPa h p.2.1 access).map (fun pa => (p.1, pa, p.2.2))) with
    | .error c => .fault c
    | .ok ps => if ps.all (fun p => s.mayAccess (hartMaster h) p.2.1 p.2.2 right) then .mem ps else .fault (hartCause access false)
/-- A hart changed, going on after a word of `len` bytes. -/
def State.hartOn (s : State) (h len : Nat) (f : Hart → Hart) : State := s.modHart h (fun x => let y := f x; { y with pc := x.pc + BitVec.ofNat 64 len })
/-- A hart writes a register and goes on. -/
def State.hartSet (s : State) (h len rd : Nat) (v : Word64) : State := s.hartOn h len (fun x => x.setReg rd v)
/-- The doubleword of a window as a store of part of it finds it: what was written before, or what the window shows. -/
def State.windowNow (s : State) (die w off : Nat) : Word64 :=
  let x := s.win die w
  (((x.stope.bind (fun id => s.stopes.find? (fun t => t.id == id))).bind (x.shown die)).bind (fun c => x.written c off)).getD
    (BitVec.ofNat 64 (s.windowDword die w off))
/-- Bytes of a trap window. -/
def State.windowBytes (s : State) (die w off n : Nat) : List Byte :=
  (List.range n).map (fun i => BitVec.ofNat 8 (s.windowDword die w ((off + i) / 8 * 8) / 2 ^ (8 * ((off + i) % 8)) % 256))
/-- A store to a trap window: every doubleword that it touches is written whole. -/
def State.windowStore (s : State) (die w off : Nat) (data : List Byte) : State :=
  ((List.range ((off % 8 + data.length + 7) / 8)).map (fun i => off / 8 * 8 + 8 * i)).foldl (fun t o =>
    let old := leBytes 8 (s.windowNow die w o).toNat
    let new := (List.range 8).map (fun i => if off ≤ o + i && o + i < off + data.length then data.getD (o + i - off) 0 else old.getD i 0)
    t.writeWindow die w o (BitVec.ofNat 64 (leNat new))) s

/-! ### Loads, stores and atomics (R332) -/

/-- The address of an access that lies in another package, where it lies there whole and aligned. -/
def State.hartFar (s : State) (ps : List (Nat × Nat × Nat)) (n : Nat) : Option Nat :=
  match ps with
  | [(_, pa, _)] => if s.isRemote (s.forwardPa pa) && pa % n == 0 then some (s.forwardPa pa) else none
  | _ => none
/-- An access that reaches another package in part, or unaligned, which is an address-misaligned exception (log 49). -/
def State.hartSplit (s : State) (ps : List (Nat × Nat × Nat)) : Bool := ps.any (fun p => s.isRemote (s.forwardPa p.2.1))
/-- A load into a register. A page that a migration has frozen is tried again (R297); another package is asked (R337). -/
def State.hartLoad (s : State) (h len va : Nat) (r : HartRet) : State :=
  match s.hartDest h va r.size 1 0 with
  | .window d w off => s.hartOn h len (fun x => x.take r (leNat (s.windowBytes d w off r.size)))
  | .fault c => s.hartTrap h c (BitVec.ofNat 64 va)
  | .mem ps =>
    match s.hartFar ps r.size with
    | some pa => s.hartSend h len (paPkg pa) (.read 0 pa r.size) (some r)
    | none =>
      if s.hartSplit ps then s.hartTrap h 4 (BitVec.ofNat 64 va)
      else if ps.any (fun p => s.pageFrozen p.2.1) then s
      else
        let q := ps.foldl (fun (acc : State × List Byte) p => let x := acc.1.readHome p.2.1 p.2.2; (x.1, acc.2 ++ x.2.1)) (s, [])
        q.1.hartOn h len (fun x => x.take r (leNat q.2))
/-- A store, which reaches its home as it retires, or leaves for another package (R332, R337). -/
def State.hartStore (s : State) (h len va : Nat) (data : List Byte) : State :=
  match s.hartDest h va data.length 2 1 with
  | .window d w off => (s.windowStore d w off data).hartOn h len id
  | .fault c => s.hartTrap h c (BitVec.ofNat 64 va)
  | .mem ps =>
    match s.hartFar ps data.length with
    | some pa => (s.hartSend h len (paPkg pa) (.write 0 pa data [] false) none).hartOn h len id
    | none =>
      if s.hartSplit ps then s.hartTrap h 6 (BitVec.ofNat 64 va)
      else if ps.any (fun p => s.pageFrozen p.2.1) || s.heldBack (64 + hartMaster h) then s
      else (ps.foldl (fun t p => t.homeWrite p.2.1 (sliceOf data p.1 p.2.2)) s).hartOn h len id
/-- The operation of R189 that an AMO of the A extension names by funct5; none for LR, SC and what is no AMO. -/
def hartAmoOp (f5 : Nat) : Option Nat :=
  match f5 with
  | 0x00 => some 0
  | 0x01 => some 8
  | 0x04 => some 7
  | 0x08 => some 6
  | 0x0C => some 5
  | 0x10 => some 1
  | 0x14 => some 2
  | 0x18 => some 3
  | 0x1C => some 4
  | _ => none
/-- LR: the value, and a reservation on its bytes; SC: a store and 0 where the hart's reservation still stands on them, else 1. Both end the
reservation that was. They ask for LPDDR of this package (log 49). -/
def State.hartReserve (s : State) (h len rd pa n : Nat) (store : Option Word64) : State :=
  let loc := s.forwardPa pa % 2 ^ 50
  let held := s.resvs.contains (h, loc, n)
  let free : State := { s with resvs := s.resvs.filter (fun r => r.1 != h) }
  match store with
  | none =>
    let x := free.readHome pa n
    ({ x.1 with resvs := x.1.resvs ++ [(h, loc, n)] } : State).hartSet h len rd (hartImm (leNat x.2.1) (8 * n))
  | some b => if held then (free.homeWrite pa (leBytes n b.toNat)).hartSet h len rd 0 else free.hartSet h len rd 1
/-- A word of the A extension by its funct5: a misaligned one is an exception. -/
def State.hartAmo (s : State) (h len f5 rd va n : Nat) (b : Word64) : State :=
  let lr := f5 == 2
  let tval := BitVec.ofNat 64 va
  if va % n != 0 then s.hartTrap h (if lr then 4 else 6) tval
  else
    match s.hartDest h va n (if lr then 1 else 2) (if lr then 0 else if f5 = 3 then 1 else 2) with
    | .mem [(_, pa, _)] =>
      let home := s.forwardPa pa
      if lr || f5 == 3 then
        (if !s.isLocal home then s.hartTrap h (if lr then 5 else 7) tval
         else if s.pageFrozen pa then s
         else s.hartReserve h len rd pa n (if lr then none else some b))
      else
        match hartAmoOp f5 with
        | none => s.hartIllegal h
        | some op =>
          if s.isRemote home then s.hartSend h len (paPkg home) (.atomic 0 home op n b 0) (some { rd, size := n, signed := true, cause := 7 })
          else if s.pageFrozen pa || s.heldBack (64 + hartMaster h) then s
          else (s.hartAtomic h pa op n b (BitVec.ofNat 5 rd)).hartOn h len id
    | .fault c => s.hartTrap h c tval
    | _ => s.hartTrap h (if lr then 5 else 7) tval

/-! ### Control and status registers, and the words of the system major -/

/-- A word that reads and changes a register: 1 writes, 2 sets bits, 3 clears bits. A write of rd = x0 does not read, and a source x0 does
not write. -/
def State.hartCsr (s : State) (h len rd f3 src n : Nat) (v : Word64) : State :=
  let x := s.hart h
  let writes := f3 % 4 == 1 || src != 0
  match if x.csrOpen n writes then s.csrRead h n else none with
  | none => s.hartIllegal h
  | some old =>
    let old' := if n = 0x344 then x.csr 0x344 ||| (old &&& 0x2000000) else old
    let new := if f3 % 4 = 1 then v else if f3 % 4 = 2 then old' ||| v else old' &&& ~~~v
    (if n = 0xB00 || n == 0xB02 then s.drawn else s).hartOn h len (fun y => (if writes then y.csrWrite n new else y).setReg rd old)
/-- ECALL outside a process, EBREAK, returns from traps, WFI, which may end at once, and SFENCE.VMA, which has nothing to do. -/
def State.hartSystem (s : State) (h w : Nat) : State :=
  let x := s.hart h
  if w = 0x00000073 then s.hartTrap h (8 + x.mode) 0
  else if w = 0x00100073 then s.hartTrap h 3 x.pc
  else if w = 0x30200073 then (if x.mode = 3 then s.modHart h Hart.mret else s.hartIllegal h)
  else if w = 0x10200073 then (if x.mode = 3 || (x.mode == 1 && !x.mst mstTSR) then s.modHart h Hart.sret else s.hartIllegal h)
  else if w = 0x10500073 then (if x.mode = 3 || (x.mode == 1 && !x.mst 21) then s.hartOn h 4 id else s.hartIllegal h)
  else if bitsOf w 25 7 = 9 && bitsOf w 7 5 == 0 then (if x.mode = 3 || (x.mode == 1 && !x.mst mstTVM) then s.hartOn h 4 id else s.hartIllegal h)
  else s.hartIllegal h

/-! ### Compressed words -/

/-- Words of 32 bits from their fields: R, I, S, B and J formats. -/
def encR (f7 r2 r1 f3 rd op : Nat) : Nat := f7 * 2 ^ 25 + r2 * 2 ^ 20 + r1 * 2 ^ 15 + f3 * 2 ^ 12 + rd * 2 ^ 7 + op
def encI (imm r1 f3 rd op : Nat) : Nat := imm % 4096 * 2 ^ 20 + r1 * 2 ^ 15 + f3 * 2 ^ 12 + rd * 2 ^ 7 + op
def encS (imm r2 r1 f3 op : Nat) : Nat := encR (bitsOf imm 5 7) r2 r1 f3 (bitsOf imm 0 5) op
def encB (imm r2 r1 f3 : Nat) : Nat := encR (bitsOf imm 12 1 * 64 + bitsOf imm 5 6) r2 r1 f3 (bitsOf imm 1 4 * 2 + bitsOf imm 11 1) 0x63
def encJ (imm rd : Nat) : Nat :=
  bitsOf imm 20 1 * 2 ^ 31 + bitsOf imm 1 10 * 2 ^ 21 + bitsOf imm 11 1 * 2 ^ 20 + bitsOf imm 12 8 * 2 ^ 12 + rd * 2 ^ 7 + 0x6F
/-- The low `n` bits of a number read as signed with `k` bits, again as a number of `n` bits. -/
def reSign (v k n : Nat) : Nat := wrapTo n (signedOf v k)
/-- The 32-bit word that a compressed word stands for; none for one that is reserved. -/
def expandC (w : Nat) : Option Nat :=
  let f3 := bitsOf w 13 3
  let rd := bitsOf w 7 5
  let r2 := bitsOf w 2 5
  let rp := 8 + bitsOf w 2 3
  let qp := 8 + bitsOf w 7 3
  let imm6 := bitsOf w 12 1 * 32 + r2
  let simm := reSign imm6 6 12
  let wOff := bitsOf w 5 1 * 64 + bitsOf w 10 3 * 8 + bitsOf w 6 1 * 4
  let dOff := bitsOf w 5 2 * 64 + bitsOf w 10 3 * 8
  match bitsOf w 0 2, f3 with
  | 0, 0 =>
    let i := bitsOf w 7 4 * 64 + bitsOf w 11 2 * 16 + bitsOf w 5 1 * 8 + bitsOf w 6 1 * 4
    if i = 0 then none else some (encI i 2 0 rp 0x13)
  | 0, 1 => some (encI dOff qp 3 rp 0x07)
  | 0, 2 => some (encI wOff qp 2 rp 0x03)
  | 0, 3 => some (encI dOff qp 3 rp 0x03)
  | 0, 5 => some (encS dOff rp qp 3 0x27)
  | 0, 6 => some (encS wOff rp qp 2 0x23)
  | 0, 7 => some (encS dOff rp qp 3 0x23)
  | 1, 0 => some (encI simm rd 0 rd 0x13)
  | 1, 1 => if rd = 0 then none else some (encI simm rd 0 rd 0x1B)
  | 1, 2 => some (encI simm 0 0 rd 0x13)
  | 1, 3 =>
    if rd = 2 then
      let i := bitsOf w 12 1 * 512 + bitsOf w 3 2 * 128 + bitsOf w 5 1 * 64 + bitsOf w 2 1 * 32 + bitsOf w 6 1 * 16
      if i = 0 then none else some (encI (reSign i 10 12) 2 0 2 0x13)
    else if imm6 = 0 then none
    else some (reSign imm6 6 20 * 4096 + rd * 128 + 0x37)
  | 1, 4 =>
    match bitsOf w 10 2 with
    | 0 => some (encI imm6 qp 5 qp 0x13)
    | 1 => some (encI (imm6 + 0x400) qp 5 qp 0x13)
    | 2 => some (encI simm qp 7 qp 0x13)
    | _ =>
      match bitsOf w 12 1, bitsOf w 5 2 with
      | 0, 0 => some (encR 0x20 rp qp 0 qp 0x33)
      | 0, 1 => some (encR 0 rp qp 4 qp 0x33)
      | 0, 2 => some (encR 0 rp qp 6 qp 0x33)
      | 0, _ => some (encR 0 rp qp 7 qp 0x33)
      | _, 0 => some (encR 0x20 rp qp 0 qp 0x3B)
      | _, 1 => some (encR 0 rp qp 0 qp 0x3B)
      | _, _ => none
  | 1, 5 =>
    let i := bitsOf w 12 1 * 2048 + bitsOf w 8 1 * 1024 + bitsOf w 9 2 * 256 + bitsOf w 6 1 * 128 + bitsOf w 7 1 * 64 + bitsOf w 2 1 * 32 +
      bitsOf w 11 1 * 16 + bitsOf w 3 3 * 2
    some (encJ (reSign i 12 21) 0)
  | 1, _ =>
    let i := bitsOf w 12 1 * 256 + bitsOf w 5 2 * 64 + bitsOf w 2 1 * 32 + bitsOf w 10 2 * 8 + bitsOf w 3 2 * 2
    some (encB (reSign i 9 13) 0 qp (f3 - 6))
  | 2, 0 => some (encI imm6 rd 1 rd 0x13)
  | 2, 1 => some (encI (bitsOf w 2 3 * 64 + bitsOf w 12 1 * 32 + bitsOf w 5 2 * 8) 2 3 rd 0x07)
  | 2, 2 => if rd = 0 then none else some (encI (bitsOf w 2 2 * 64 + bitsOf w 12 1 * 32 + bitsOf w 4 3 * 4) 2 2 rd 0x03)
  | 2, 3 => if rd = 0 then none else some (encI (bitsOf w 2 3 * 64 + bitsOf w 12 1 * 32 + bitsOf w 5 2 * 8) 2 3 rd 0x03)
  | 2, 4 =>
    if bitsOf w 12 1 = 0 then
      (if r2 = 0 then (if rd = 0 then none else some (encI 0 rd 0 0 0x67)) else some (encR 0 r2 0 0 rd 0x33))
    else if r2 = 0 then (if rd = 0 then some 0x00100073 else some (encI 0 rd 0 1 0x67))
    else some (encR 0 r2 rd 0 rd 0x33)
  | 2, 5 => some (encS (bitsOf w 7 3 * 64 + bitsOf w 10 3 * 8) r2 2 3 0x27)
  | 2, 6 => some (encS (bitsOf w 7 2 * 64 + bitsOf w 9 4 * 4) r2 2 2 0x23)
  | 2, 7 => some (encS (bitsOf w 7 3 * 64 + bitsOf w 10 3 * 8) r2 2 3 0x23)
  | _, _ => none

/-! ### One word -/

/-- A word of the base set of `len` bytes, executed by a hart; none for what is no word. -/
def State.hartWord32 (s : State) (h len w : Nat) : Option State :=
  let x := s.hart h
  let rd := bitsOf w 7 5
  let f3 := bitsOf w 12 3
  let a := x.reg (bitsOf w 15 5)
  let b := x.reg (bitsOf w 20 5)
  let f7 := bitsOf w 25 7
  let set := fun (v : Word64) => some (s.hartSet h len rd v)
  let jump := fun (v : Word64) => s.modHart h (fun y => { y.setReg rd (y.pc + BitVec.ofNat 64 len) with pc := v })
  match bitsOf w 0 7 with
  | 0x37 => set (immU w)
  | 0x17 => set (x.pc + immU w)
  | 0x6F => some (jump (x.pc + immJ w))
  | 0x67 => if f3 = 0 then some (jump ((a + immI w) &&& ~~~1#64)) else none
  | 0x63 => (hartTakes f3 a b).map (fun t => s.modHart h (fun y => { y with pc := y.pc + if t then immB w else BitVec.ofNat 64 len }))
  | 0x03 => if f3 < 7 then some (s.hartLoad h len (a + immI w).toNat { rd, size := 2 ^ (f3 % 4), signed := f3 < 4 }) else none
  | 0x07 =>
    if x.fs != 0 && (f3 == 2 || f3 == 3) then some (s.hartLoad h len (a + immI w).toNat { rd, size := 2 ^ f3, signed := false, fp := true }) else none
  | 0x23 => if f3 < 4 then some (s.hartStore h len (a + immS w).toNat (leBytes (2 ^ f3) b.toNat)) else none
  | 0x27 =>
    if x.fs != 0 && (f3 == 2 || f3 == 3) then
      some (s.hartStore h len (a + immS w).toNat (leBytes (2 ^ f3) (vget x.f (bitsOf w 20 5) 0).toNat))
    else none
  -- a fence that orders writes before anything waits for the hart's stores (R332)
  | 0x0F => if f3 < 2 then some (if f3 = 0 && bitOf w 24 && s.hartStoresDue h then s else s.hartOn h len id) else none
  | 0x2F =>
    let f5 := f7 / 4
    if (f3 = 2 || f3 = 3) && ((f5 == 2 && bitsOf w 20 5 == 0) || f5 == 3 || (hartAmoOp f5).isSome) then some (s.hartAmo h len f5 rd a.toNat (2 ^ f3) b) else none
  | 0x73 =>
    if f3 = 0 then some (s.hartSystem h w)
    else if f3 = 4 then none
    else some (s.hartCsr h len rd f3 (bitsOf w 15 5) (bitsOf w 20 12) (if f3 < 4 then a else BitVec.ofNat 64 (bitsOf w 15 5)))
  | 0x13 =>
    if f3 = 1 && f7 / 2 != 0 || f3 = 5 && f7 / 2 != 0 && f7 / 2 != 0x10 then none
    else set (hartAlu f3 (f3 = 5 && f7 / 2 == 0x10) 64 a (if f3 = 1 || f3 = 5 then BitVec.ofNat 64 (bitsOf w 20 6) else immI w))
  | 0x1B =>
    if f3 = 0 then set (wordOf (a + immI w))
    else if f3 = 1 && f7 = 0 || f3 = 5 && (f7 = 0 || f7 = 0x20) then set (wordOf (hartAlu f3 (f7 == 0x20) 32 a (BitVec.ofNat 64 (bitsOf w 20 5))))
    else none
  | 0x33 =>
    if f7 = 1 then set (hartMul f3 64 a b)
    else if f7 = 0 || f7 = 0x20 && (f3 = 0 || f3 = 5) then set (hartAlu f3 (f7 == 0x20) 64 a b)
    else none
  | 0x3B =>
    if f7 = 1 && (f3 = 0 || 4 ≤ f3) then set (wordOf (hartMul f3 32 a b))
    else if f7 = 0 && (f3 = 0 || f3 = 1 || f3 = 5) || f7 = 0x20 && (f3 = 0 || f3 = 5) then set (wordOf (hartAlu f3 (f7 == 0x20) 32 a b))
    else none
  | m =>
    if m = 0x53 || m == 0x43 || m == 0x47 || m == 0x4B || m == 0x4F then (x.fpWord w).map (fun y => s.hartOn h len (fun _ => y)) else none
/-- A word of the base set as fetched: one of 16 bits is expanded first. What is no word is the illegal-instruction exception (log 12). -/
def State.hartBase (s : State) (h w : Nat) : State :=
  let r := if w % 4 = 3 then s.hartWord32 h 4 w else (expandC w).bind (s.hartWord32 h 2)
  r.getD (s.hartIllegal h)

end Sys2Proof.Machine
end

