-- ==== Sys2Proof/Machine/Turns.lean ====
section
/-! DEFINITION. What one turn does: a stream or a bank issues, a hart executes, an event of the agenda happens, an input is taken; and how a word is placed where a stream issues it next (R49, R90, R139, R312, R398). -/

namespace Sys2Proof.Machine

/-- A bank issues the move its program stands on (R312, R313). -/
def stepMove (s : State) (c : Nat) (b : BitVec 5) : Host.Outcome State Fault Refusal :=
  let s1 := { s with curCore := c, curStrm := .bank b }
  match s1.moveAt c b.toNat with
  | some i => exec i s1
  | none => .next s

/-- A stream issues the word it stands on, or a replay entry (R90, R398). -/
def stepWord (s : State) (c : Nat) (k : Strm) : Host.Outcome State Fault Refusal :=
  let st := (s.core c).strm k
  if (!st.live || (s.core c).sc.halted) && st.replay.isEmpty then .next s
  else if st.skips then .next (s.skipEntry c k)
  else
    let s1 := s.beginIssue c k
    match s1.fetched c k with
    | some i => exec i s1
    | none => .next (s1.illegalWord c k)

/-- A stream of a core, or one of its banks, issues. -/
def stepIssue (s : State) (c : Nat) (k : Strm) : Host.Outcome State Fault Refusal :=
  match k with
  | .bank b => stepMove s c b
  | _ => stepWord s c k

/-- A hart executes the word at its program counter (R49, R139); one that is stopped or waits in a call executes nothing. A handler that has
come back to the return stub hands its result over (R391); a pending interrupt that the hart has enabled is taken first (R390, R407). -/
def stepHart (s : State) (h : Nat) : Host.Outcome State Fault Refusal :=
  let x := s.hart h
  if !x.running || x.blocked then .next s
  else
    let s1 := { s with curHart := h }
    match x.handling.filter (fun _ => x.pc == Config.returnStub), x.interrupt, s1.hartFetch h with
    | some (d, w), _, _ => exec .handlerReturn { s1 with arg := .word [d, w] (x.reg 10) }
    | none, some i, _ => .next (s1.modHart h (fun y => y.trap i 0 true))
    | none, none, .error e => .next (s1.hartTrap h e.1 (BitVec.ofNat 64 e.2))
    | none, none, .ok w =>
      match hartWordOf x w with
      | .instr i => exec i s1
      | .exception => .next (s1.hartIllegal h)
      | .base => .next (s1.hartBase h w)

/-- The act of an agenda entry. -/
def stepAct (s : State) : Act → Host.Outcome State Fault Refusal
  | .run i a => exec i { s with arg := a }
  | .issue c k => stepIssue s c k

/-- The device's earliest event. -/
def stepDevice (s : State) : Host.Outcome State Fault Refusal :=
  match s.pick [] s.agenda with
  | some (e, rest) => stepAct ({ s with agenda := rest }.advance e.at_) e.act
  | none => .fault .nothingDue

/-- A turn of the turn list. -/
def stepTurn (s : State) : Turn → Host.Outcome State Fault Refusal
  | .input i a => exec i { s with arg := a }
  | .hart h => stepHart s h
  | .stream c k => stepIssue s c k
  | .device => stepDevice s

/-- A binding for a core that runs a word placed from outside (log 10). -/
def placedBinding (c : Nat) : Binding :=
  { gen := 1, stope := 0, spid := 0, kernel := 0, entry := 0, rank := 0, pkgPos := 0
    chain := [{ level := 1, count := 1, k := 0, inst := c }], lanes := [] }

/-- Place a word where a stream of core 0 issues it next: bound, in a started stope, its plane holding the word at the next index. -/
def State.placeWord (s : State) (k : Strm) (w : Nat) : State :=
  let x := s.core 0
  let st := { x.strm k with next := 0, live := true }
  let pl := match k with
    | .vector => { x.act with vect := [BitVec.ofNat 96 w] }
    | .matrix => { x.act with matx := [BitVec.ofNat 192 w] }
    | _ => { x.act with scal := [BitVec.ofNat 32 w] }
  let x := ({ x with bound := some (placedBinding 0), plane := vset x.plane x.active pl } : Core).setStrm st k
  let t : Stope := { id := 0, gen := 1, die := 0, elastic := false, cores := [0], started := some s.now }
  { s.setCore 0 x with stopes := [t], turns := [.stream 0 k] }

end Sys2Proof.Machine
end

