-- ==== Sys2Proof/Machine/Step.lean ====
section
/-! DEFINITION. One step of the module: what moves next, and the instruction or event it runs. -/

namespace Sys2Proof.Machine

/-- The head of the turn list is a module reset. -/
def Turn.resets : Turn → Bool
  | .input .moduleReset _ => true
  | _ => false

/-- One step: the head of the turn list, or the earliest entry of the agenda that no freeze holds back. Once every clock has stopped only a
module reset is left (R423). -/
def step (s : State) : Host.Outcome State Fault Refusal :=
  match s.turns with
  | t :: ts => if s.power.clocksOff && !t.resets then .fault .clocksStopped else stepTurn { s with turns := ts } t
  | [] => if s.power.clocksOff then .fault .clocksStopped else stepDevice s

/-- `s` with an instruction word placed where `step` fetches next: a Headframe word at hart 0's program counter, any other word at the
next index of its stream of core 0, which is the stream whose turn it is (log 10). -/
def State.withFetchWord (s : State) (nbits w : Nat) : State :=
  if nbits = 96 then s.placeWord .vector w
  else if nbits = 192 then s.placeWord .matrix w
  else
    match decodeHart w with
    | .ok _ =>
      ({ s with mem := s.mem.writeNat ((s.hart 0).pc.toNat) 4 w, turns := [.hart 0] } : State).modHart 0 (fun x => { x with running := true })
    | .error _ => s.placeWord .scalar w

end Sys2Proof.Machine
end

