-- ==== Sys2Proof/Certificates/Slice0/Obligations.lean ====
section
/-! DEFINITION. The statements about the machine: what each family of words does to the state, what it leaves alone, how words are encoded, what an event does, and what every step keeps. -/

namespace Sys2Proof.Claims

open Sys2Proof.Machine

/-! ### What the statements about scalar words speak of -/

/-- No register named waits for a result of unknown arrival (R170). -/
def Ready (s : State) (rs : List (BitVec 5)) : Prop := ∀ r ∈ rs, (s.core s.curCore).pendingReg r.toNat = false
/-- Operand ra of the word in issue: the register's value, or a re-injected word's OPA (R398). -/
def opA (s : State) (r : BitVec 5) : Word64 := (s.core s.curCore).oper 0 r.toNat
/-- Operand rb. -/
def opB (s : State) (r : BitVec 5) : Word64 := (s.core s.curCore).oper 1 r.toNat
/-- Operand rc. -/
def opC (s : State) (r : BitVec 5) : Word64 := (s.core s.curCore).oper 2 r.toNat
/-- The value of a scalar register of the core in issue. -/
def regVal (s : State) (r : BitVec 5) : Word64 := (s.core s.curCore).sval r.toNat
/-- The core in issue. -/
def here (s : State) : Core := s.core s.curCore

/-- The scalar word in issue in `s` has issued and leaves `t`: its stream goes on after `occ` cycles. -/
def passed (s t : State) (occ : Nat) : State := t.scalarDone s.curCore occ none
/-- A scalar word has issued whose value goes to register `d`, readable `lat` cycles later, with sticky flags. -/
def gives (s : State) (d : BitVec 5) (v : Word64) (flags lat : Nat) : State :=
  passed s ((s.orSstat s.curCore flags).toReg s.curCore d v lat) 1
/-- A scalar word has issued whose truth value goes to condition bit `b`, readable in the next cycle. -/
def decides (s : State) (b : BitVec 4) (t : Bool) : State := passed s (s.sendResult s.curCore (.cond b) (if t then 1 else 0) 1) 1
/-- The word in issue is a taken branch to a word index, and leaves `t`. -/
def jumps (s t : State) (target : Nat) : State := t.scalarDone s.curCore 1 (some target)
/-- The word in issue raises a fault, with its replay entry. -/
def faults (s : State) (f : FaultRec) : State := s.raiseIn s.curCore f .scalar (here s).scalarEntry
/-- A fault without further fields. -/
def code (n : Nat) : FaultRec := { code := n, kind := 255 }

/-- IW of an exact signed value against `n` bits (R173): bit 4 of SSTAT. -/
def iw (n : Nat) (v : Int) : Nat := if -(2 ^ (n - 1) : Int) ≤ v ∧ v < 2 ^ (n - 1) then 0 else 16
/-- The low 32 bits as a signed value. -/
def low32 (x : Word64) : BitVec 32 := x.setWidth 32

end Sys2Proof.Claims

open Sys2Proof Sys2Proof.Machine Sys2Proof.Claims

/-- R173, with the values of R171 and R174 and the latencies of R167: every integer word but the divisions. -/
def Obligations.IntegerWords : Prop :=
  ∀ (g : BitVec 2) (d a b : BitVec 5) (i : BitVec 14) (n : BitVec 6) (u : BitVec 19) (s : State), Ready s [d, a, b] →
    let x := opA s a
    let y := opB s b
    exec (.add g d a b) s = .next (gives s d (x + y) (iw 64 (x.toInt + y.toInt)) 1) ∧
    exec (.sub g d a b) s = .next (gives s d (x - y) (iw 64 (x.toInt - y.toInt)) 1) ∧
    exec (.and g d a b) s = .next (gives s d (x &&& y) 0 1) ∧
    exec (.or g d a b) s = .next (gives s d (x ||| y) 0 1) ∧
    exec (.xor g d a b) s = .next (gives s d (x ^^^ y) 0 1) ∧
    exec (.andn g d a b) s = .next (gives s d (x &&& ~~~y) 0 1) ∧
    exec (.sll g d a b) s = .next (gives s d (x <<< (y.toNat % 64)) 0 1) ∧
    exec (.srl g d a b) s = .next (gives s d (x >>> (y.toNat % 64)) 0 1) ∧
    exec (.sra g d a b) s = .next (gives s d (x.sshiftRight (y.toNat % 64)) 0 1) ∧
    exec (.mul g d a b) s = .next (gives s d (x * y) (iw 64 (x.toInt * y.toInt)) 3) ∧
    exec (.mulh g d a b) s = .next (gives s d (((x.signExtend 128 * y.signExtend 128) >>> 64).setWidth 64) 0 3) ∧
    exec (.mulhu g d a b) s = .next (gives s d (((x.setWidth 128 * y.setWidth 128) >>> 64).setWidth 64) 0 3) ∧
    exec (.min g d a b) s = .next (gives s d (if x.slt y then x else y) 0 1) ∧
    exec (.max g d a b) s = .next (gives s d (if x.slt y then y else x) 0 1) ∧
    exec (.minu g d a b) s = .next (gives s d (if x.ult y then x else y) 0 1) ∧
    exec (.maxu g d a b) s = .next (gives s d (if x.ult y then y else x) 0 1) ∧
    exec (.addw g d a b) s =
      .next (gives s d ((low32 x + low32 y).signExtend 64) (iw 32 ((low32 x).toInt + (low32 y).toInt)) 1) ∧
    exec (.subw g d a b) s =
      .next (gives s d ((low32 x - low32 y).signExtend 64) (iw 32 ((low32 x).toInt - (low32 y).toInt)) 1) ∧
    exec (.addi g d a i) s = .next (gives s d (x + i.signExtend 64) (iw 64 (x.toInt + i.toInt)) 1) ∧
    exec (.andi g d a i) s = .next (gives s d (x &&& i.setWidth 64) 0 1) ∧
    exec (.ori g d a i) s = .next (gives s d (x ||| i.setWidth 64) 0 1) ∧
    exec (.xori g d a i) s = .next (gives s d (x ^^^ i.setWidth 64) 0 1) ∧
    exec (.slli g d a n) s = .next (gives s d (x <<< n.toNat) 0 1) ∧
    exec (.srli g d a n) s = .next (gives s d (x >>> n.toNat) 0 1) ∧
    exec (.srai g d a n) s = .next (gives s d (x.sshiftRight n.toNat) 0 1) ∧
    exec (.lhi g d u) s = .next (gives s d (u.signExtend 64 <<< 13) 0 1) ∧
    exec (.addpc g d u) s = .next (gives s d (BitVec.ofNat 64 (here s).sc.widx + u.signExtend 64) 0 1) ∧
    (∃ v f, exec (.div g d a b) s = .next (gives s d v f 12) ∧ (f = 0 ∨ f = 64)) ∧
    (∃ v f, exec (.divu g d a b) s = .next (gives s d v f 12) ∧ (f = 0 ∨ f = 64)) ∧
    (∃ v f, exec (.rem g d a b) s = .next (gives s d v f 12) ∧ (f = 0 ∨ f = 64)) ∧
    (∃ v f, exec (.remu g d a b) s = .next (gives s d v f 12) ∧ (f = 0 ∨ f = 64))

/-- The counts of R171: CLZ, CTZ and POPC, characterised by the bits of the operand. -/
def Obligations.CountWords : Prop :=
  ∀ (g : BitVec 2) (d a : BitVec 5) (s : State), Ready s [d, a] →
    let x := opA s a
    (∃ n ≤ 64, exec (.clz g d a) s = .next (gives s d (BitVec.ofNat 64 n) 0 1) ∧
      x.toNat < 2 ^ (64 - n) ∧ (n < 64 → 2 ^ (63 - n) ≤ x.toNat)) ∧
    (∃ n ≤ 64, exec (.ctz g d a) s = .next (gives s d (BitVec.ofNat 64 n) 0 1) ∧
      (∀ i < n, x.getLsbD i = false) ∧ (n < 64 → x.getLsbD n = true)) ∧
    exec (.popc g d a) s = .next (gives s d (BitVec.ofNat 64 ((List.range 64).countP (fun i => x.getLsbD i))) 0 1)

/-- R172: the four divisions. -/
def Obligations.DivisionWords : Prop :=
  ∀ (g : BitVec 2) (d a b : BitVec 5) (s : State), Ready s [d, a, b] →
    let x := opA s a
    let y := opB s b
    let signed : Word64 × Word64 × Nat :=
      if y = 0 then (0xFFFFFFFFFFFFFFFF, x, 64)
      else if x.toInt = -2 ^ 63 ∧ y.toInt = -1 then (x, 0, 64)
      else (BitVec.ofInt 64 (x.toInt.tdiv y.toInt), x - BitVec.ofInt 64 (x.toInt.tdiv y.toInt) * y, 0)
    let unsigned : Word64 × Word64 × Nat :=
      if y = 0 then (0xFFFFFFFFFFFFFFFF, x, 64) else (x / y, x - x / y * y, 0)
    exec (.div g d a b) s = .next (gives s d signed.1 signed.2.2 12) ∧
    exec (.rem g d a b) s = .next (gives s d signed.2.1 signed.2.2 12) ∧
    exec (.divu g d a b) s = .next (gives s d unsigned.1 unsigned.2.2 12) ∧
    exec (.remu g d a b) s = .next (gives s d unsigned.2.1 unsigned.2.2 12)

/-! ### Floating-point words (R169, R175, R176) -/

namespace Sys2Proof.Claims

/-- An FP32 pattern in a register value (R169). -/
def pat (x : Word64) : Nat := x.toNat % 2 ^ 32
/-- An FP32 result clears bits [63:32] (R169). -/
def clean (w : Nat) : Word64 := BitVec.ofNat 64 (w % 2 ^ 32)
/-- The pattern is a NaN. -/
def isNan (w : Nat) : Bool := decide (0x7F800000 < w % 2 ^ 31)
/-- The sign bit of a pattern. -/
def sign (w : Nat) : Bool := Nat.testBit w 31
/-- A pattern with its sign replaced; a NaN gives the canonical NaN (R175). -/
def withSign (w : Nat) (neg : Bool) : Nat := if isNan w then 0x7FC00000 else w % 2 ^ 31 + if neg then 2 ^ 31 else 0
/-- The class of a pattern, one-hot (R175). -/
def classOf (w : Nat) : Nat :=
  let e := w / 2 ^ 23 % 256
  let f := w % 2 ^ 23
  if e = 255 then (if f ≠ 0 then 0x100 else if sign w then 0x001 else 0x080)
  else if e = 0 then (if f ≠ 0 then (if sign w then 0x004 else 0x020) else if sign w then 0x008 else 0x010)
  else if sign w then 0x002 else 0x040
/-- A finite or infinite pattern on a line: its order is that of its values, both zeros at 0. -/
def place (w : Nat) : Int := if sign w then -((w % 2 ^ 31 : Nat) : Int) else ((w % 2 ^ 31 : Nat) : Int)
/-- The truth of an FCMP condition: 0 EQ, 1 LT, 2 LE, 3 UN (R123, R151). -/
def fpHolds (c x y : Nat) : Bool :=
  let un := isNan x || isNan y
  match c with
  | 0 => !un && decide (place x = place y)
  | 1 => !un && decide (place x < place y)
  | 2 => !un && decide (place x ≤ place y)
  | _ => un
/-- The truth of a CMP condition: 0 EQ, 1 NE, 2 LT, 3 GE, 4 LTU, 5 GEU (R123, R177). -/
def intHolds (c : Nat) (x y : Word64) : Bool :=
  match c with
  | 0 => x == y
  | 1 => !(x == y)
  | 2 => x.slt y
  | 3 => !x.slt y
  | 4 => x.ult y
  | _ => !x.ult y
/-- SET, AND, OR (R177). -/
def fold (m : BitVec 2) (old t : Bool) : Bool := if m = 0 then t else if m = 1 then old && t else old || t
/-- A condition bit as the word in issue reads it. -/
def cond (s : State) (b : BitVec 4) : Bool := (vget (here s).b b.toNat {}).cond

end Sys2Proof.Claims

/-- R175 and R176 with the latencies of R167: arithmetic by the operations of R147, R151 and R162, signs and classes by bits. -/
def Obligations.FloatWords : Prop :=
  ∀ (g : BitVec 2) (d a b c : BitVec 5) (s : State), Ready s [d, a, b, c] →
    let x := pat (opA s a)
    let y := pat (opB s b)
    let z := pat (opC s c)
    let two := fun (r : Nat × Nat) (lat : Nat) => gives s d (clean r.1) r.2 lat
    exec (.fadd g d a b) s = .next (two (fpAdd fp32 0 x y) 4) ∧
    exec (.fsub g d a b) s = .next (two (fpSub fp32 0 x y) 4) ∧
    exec (.fmul g d a b) s = .next (two (fpMul fp32 0 x y) 4) ∧
    exec (.fdiv g d a b) s = .next (two (fpDiv fp32 0 x y) 12) ∧
    exec (.fsqrt g d a) s = .next (two (fpSqrt fp32 0 x) 12) ∧
    exec (.fmin g d a b) s = .next (two (fpMinMax fp32 false x y) 4) ∧
    exec (.fmax g d a b) s = .next (two (fpMinMax fp32 true x y) 4) ∧
    exec (.fsgnj g d a b) s = .next (gives s d (clean (withSign x (sign y))) 0 4) ∧
    exec (.fsgnn g d a b) s = .next (gives s d (clean (withSign x (!sign y))) 0 4) ∧
    exec (.fsgnx g d a b) s = .next (gives s d (clean (withSign x (sign x != sign y))) 0 4) ∧
    exec (.fcvti g d a) s =
      .next (gives s d (BitVec.ofInt 64 (fpToInt (-(2 ^ 63)) (2 ^ 63 - 1) 1 (fp32.decode x)).1)
        (fpToInt (-(2 ^ 63)) (2 ^ 63 - 1) 1 (fp32.decode x)).2 4) ∧
    exec (.icvtf g d a) s = .next (two (fp32.pack 0 false 0 (ofSigned (opA s a).toInt 0 false)) 4) ∧
    exec (.ftobf g d a) s = .next (two (bf16.pack 0 false 0 (fp32.decode x)) 4) ∧
    exec (.bftof g d a) s =
      .next (if isNan (x % 2 ^ 16 * 2 ^ 16) then gives s d 0x7FC00000 1 4 else gives s d (BitVec.ofNat 64 (x % 2 ^ 16 * 2 ^ 16)) 0 4) ∧
    exec (.fclass g d a) s = .next (gives s d (BitVec.ofNat 64 (classOf x)) 0 4) ∧
    exec (.fma g d a b c) s = .next (two (fpFma fp32 0 x y z false) 4) ∧
    exec (.fms g d a b c) s = .next (two (fpFma fp32 0 x y z true) 4) ∧
    (let r := fpFma fp32 0 x y z false
     exec (.fnma g d a b c) s = .next (two (if isNan r.1 then 0x7FC00000 else r.1 + 2 ^ 31, r.2) 4)) ∧
    (let r := fpFma fp32 0 x y z true
     exec (.fnms g d a b c) s = .next (two (if isNan r.1 then 0x7FC00000 else r.1 + 2 ^ 31, r.2) 4))

/-- R147: a finite pattern of FP32, BF16 or FP16 rounds to itself, y := x, and sets no flag, by every rounding rule; stochastic rounding draws
nothing then. -/
def Obligations.ExactValuesRoundToThemselves : Prop :=
  ∀ (w mode draw : Nat) (sat : Bool), mode ≤ 4 →
    (w < 2 ^ 32 → (fp32.decode w).isNan = false → fp32.decode w ≠ .inf true → fp32.decode w ≠ .inf false →
      fp32.pack mode sat draw (fp32.decode w) = (w, 0)) ∧
    (w < 2 ^ 16 → (bf16.decode w).isNan = false → bf16.decode w ≠ .inf true → bf16.decode w ≠ .inf false →
      bf16.pack mode sat draw (bf16.decode w) = (w, 0)) ∧
    (w < 2 ^ 16 → (fp16.decode w).isNan = false → fp16.decode w ≠ .inf true → fp16.decode w ≠ .inf false →
      fp16.pack mode sat draw (fp16.decode w) = (w, 0))

/-! ### Conditions (R177, R178) -/

/-- R177 and R178: one truth value for one condition bit, or the twelve bits at once; steer targets are no part of the result.

R121 step 3 with R123: a steer code from 12 to 15 raises ILLEGAL_OPERAND, whatever the other operands hold. -/
def Obligations.ConditionWords : Prop :=
  (
  ∀ (g : BitVec 2) (b p q c : BitVec 4) (a r d : BitVec 5) (m : BitVec 2) (i : BitVec 9) (s : State), Ready s [a, r, d] →
    b.toNat < 12 → p.toNat < 12 → q.toNat < 12 → m.toNat ≤ 2 →
    (c.toNat ≤ 5 →
      exec (.cmp g b c a r m) s = .next (decides s b (fold m (cond s b) (intHolds c.toNat (opA s a) (opB s r)))) ∧
      exec (.cmpi g b c a m i) s = .next (decides s b (fold m (cond s b) (intHolds c.toNat (opA s a) (i.signExtend 64))))) ∧
    (c.toNat ≤ 3 →
      exec (.fcmp g b c a r m) s = .next (decides s b (fold m (cond s b) (fpHolds c.toNat (pat (opA s a)) (pat (opB s r)))))) ∧
    exec (.cand g b p q) s = .next (decides s b (cond s p && cond s q)) ∧
    exec (.cor g b p q) s = .next (decides s b (cond s p || cond s q)) ∧
    exec (.cxor g b p q) s = .next (decides s b (cond s p != cond s q)) ∧
    exec (.candn g b p q) s = .next (decides s b (cond s p && !cond s q)) ∧
    exec (.cnot g b p) s = .next (decides s b (!cond s p)) ∧
    exec (.ctrue g b) s = .next (decides s b true) ∧
    exec (.cfalse g b) s = .next (decides s b false) ∧
    exec (.cmove g b p) s = .next (decides s b (cond s p)) ∧
    (∃ v : Word64, exec (.csave g d) s = .next (gives s d v 0 1) ∧
      ∀ j : Fin 64, v.getLsbD j = (decide (j.val < 12) && cond s (BitVec.ofNat 4 j.val))) ∧
    exec (.cload g a) s = .next (passed s ((List.range 12).foldl
      (fun t j => t.sendResult s.curCore (.cond (BitVec.ofNat 4 j)) (if (opA s a).getLsbD j then 1 else 0) 1) s) 1)) ∧
  (
  ∀ (g : BitVec 2) (b p q c : BitVec 4) (a r : BitVec 5) (o : BitVec 20) (i : BitVec 9) (s : State), 12 ≤ b.toNat → c.toNat ≤ 3 →
    exec (.cmp g b c a r 0) s = .next (faults s (code 2)) ∧ exec (.cmpi g b c a 0 i) s = .next (faults s (code 2)) ∧
    exec (.fcmp g b c a r 0) s = .next (faults s (code 2)) ∧
    exec (.cand g b p q) s = .next (faults s (code 2)) ∧ exec (.cand g p b q) s = .next (faults s (code 2)) ∧
    exec (.cand g p q b) s = .next (faults s (code 2)) ∧ exec (.cnot g p b) s = .next (faults s (code 2)) ∧
    exec (.ctrue g b) s = .next (faults s (code 2)) ∧ exec (.prep g b o) s = .next (faults s (code 2)) ∧
    exec (.prepr g b a) s = .next (faults s (code 2)) ∧ exec (.br g b) s = .next (faults s (code 2)) ∧
    exec (.brn g b) s = .next (faults s (code 2)) ∧ exec (.jmp g b) s = .next (faults s (code 2)) ∧
    exec (.call g b) s = .next (faults s (code 2)))

/-! ### Targets, branches and loops (R179 to R185) -/

namespace Sys2Proof.Claims

/-- Steer register `b` of the core in issue. -/
def steer (s : State) (b : BitVec 4) : Steer := vget (here s).b b.toNat {}
/-- The steer register's target set at this local cycle: a branch may take it from 4 cycles later (R181). -/
def targeted (s : State) (b : BitVec 4) (t : Nat) : State :=
  s.modCore s.curCore (fun k =>
    let x : Steer := vget k.b b.toNat {}
    { k with b := vset k.b b.toNat { x with target := BitVec.ofNat 14 t, prepared := true, readyAt := s.localCyc s.curCore + 4 } })
/-- Loops that a taken branch leaves end, their counts as they stand (R184). -/
def left (s : State) (t : Nat) : State :=
  s.modCore s.curCore (fun k => { k with lp := k.lp.map (fun l =>
    if l.active = true ∧ (t < l.first ∨ l.last < t) then ({ l with active := false } : LoopReg) else l) })
/-- Loop register `p` of a core. -/
def loopOf (k : Core) (p : Fin 4) : LoopReg := vget k.lp p.val {}
/-- A blocking condition: a stall in an ELASTIC stope, DEVIATION with this subcode in a TIMED one (R96, R97). -/
def waits (s : State) (sub : Nat) : State :=
  if s.elastic s.curCore then s.stall s.curCore .scalar else faults s { code := 4, sub, source := 0, kind := 255 }

end Sys2Proof.Claims

/-- R179: PREP and PREPR set the target and keep the condition bit; a target outside 0..16,383 raises ILLEGAL_OPERAND.

R180, R181 and R184: branches not taken, taken, unprepared, and too early. That a RET whose s1 nothing has written finds it ready is log 104, and that
its value is tested before its readiness log 149: the model's. -/
def Obligations.BranchWords : Prop :=
  (
  ∀ (g : BitVec 2) (b : BitVec 4) (o : BitVec 20) (a : BitVec 5) (s : State), Ready s [a] → b.toNat < 12 →
    let t : Int := (here s).sc.widx + o.toInt
    (0 ≤ t → t ≤ 16383 → exec (.prep g b o) s = .next (passed s (targeted s b t.toNat) 1)) ∧
    (t < 0 ∨ 16383 < t → exec (.prep g b o) s = .next (faults s (code 2))) ∧
    ((opA s a).toNat ≤ 16383 → exec (.prepr g b a) s = .next (passed s (targeted s b (opA s a).toNat) 1)) ∧
    (16383 < (opA s a).toNat → exec (.prepr g b a) s = .next (faults s (code 2)))) ∧
  (
  ∀ (g : BitVec 2) (b : BitVec 4) (s : State), b.toNat < 12 → Ready s [1] →
    let p := steer s b
    let t := p.target.toNat
    let early := s.localCyc s.curCore < p.readyAt
    let r := vget (here s).s 1 {}
    (p.cond = false → exec (.br g b) s = .next (passed s s 1)) ∧
    (p.cond = true → exec (.brn g b) s = .next (passed s s 1)) ∧
    (p.prepared = true → ¬ early →
      (p.cond = true → exec (.br g b) s = .next (jumps s (left s t) t)) ∧
      (p.cond = false → exec (.brn g b) s = .next (jumps s (left s t) t)) ∧
      exec (.jmp g b) s = .next (jumps s (left s t) t) ∧
      exec (.call g b) s = .next (jumps s (s.toReg s.curCore 1 (BitVec.ofNat 64 ((here s).sc.widx + 1)) 1) t)) ∧
    (p.prepared = true → early →
      exec (.jmp g b) s = .next (waits s 5) ∧ exec (.call g b) s = .next (waits s 5) ∧
      (p.cond = true → exec (.br g b) s = .next (waits s 5)) ∧ (p.cond = false → exec (.brn g b) s = .next (waits s 5))) ∧
    (p.prepared = false →
      exec (.jmp g b) s = .next (faults s (code 2)) ∧ exec (.call g b) s = .next (faults s (code 2)) ∧
      (p.cond = true → exec (.br g b) s = .next (faults s (code 2))) ∧
      (p.cond = false → exec (.brn g b) s = .next (faults s (code 2)))) ∧
    (r.val.toNat ≤ 16383 → (r.since = 0 ∨ r.since + 4 ≤ s.localCyc s.curCore) → exec (.ret g) s = .next (jumps s s r.val.toNat)) ∧
    (r.val.toNat ≤ 16383 → r.since ≠ 0 → s.localCyc s.curCore < r.since + 4 → exec (.ret g) s = .next (waits s 5)) ∧
    (16383 < r.val.toNat → exec (.ret g) s = .next (faults s (code 2))))

/-- R182, R183 and R185: entering a loop register uses and clears its latches; LPRW reads and writes one part.

R183: at the end word of its body, the one loop that ends there goes back while its count is above 1, and otherwise ends. NOP stands for
every word that is no taken branch. -/
def Obligations.LoopWords : Prop :=
  (
  ∀ (g : BitVec 2) (p t : BitVec 2) (c r : BitVec 5) (len : BitVec 17) (n : BitVec 10) (m : BitVec 12) (s : State), Ready s [c, r] →
    let k := here s
    let l := vget k.lp p.toNat {}
    let i := k.sc.widx
    let enter := fun (trips size : Nat) =>
      let first := l.latchFirst.getD (i + 1)
      let last := l.latchLast.getD (i + size)
      if i + size ≤ 16383 ∧ last ≤ 16383 ∧ first ≤ last then
        let l' : LoopReg := { count := trips, first, last, active := trips != 0, entered := nextEntered k.lp }
        let lp := vset k.lp p.toNat l'
        if trips = 0 then
          -- no taken branch: the loops that end at this word decide first (R183), and the body is skipped
          let r := if k.sc.standsOn then loopBack i 4 lp else (lp, none)
          (s.setCore s.curCore { k with lp := r.1 }).scalarDone s.curCore 1 (some (r.2.getD (last + 1)))
        else (s.setCore s.curCore { k with lp }).scalarDone s.curCore 1 none
      else faults s (code 2)
    let v := (regVal s r).toNat
    let latched := fun (l' : LoopReg) => passed s (s.setCore s.curCore { k with lp := vset k.lp p.toNat l' }) 1
    ((opC s c).toNat < 2 ^ 32 → len ≠ 0 → exec (.loop g p c len) s = .next (enter (opC s c).toNat len.toNat)) ∧
    (2 ^ 32 ≤ (opC s c).toNat → exec (.loop g p c len) s = .next (faults s (code 2))) ∧
    (n ≠ 0 → m ≠ 0 → exec (.loopi g p n m) s = .next (enter n.toNat m.toNat)) ∧
    (n = 0 ∨ m = 0 → exec (.loopi g p n m) s = .next (faults s (code 2))) ∧
    exec (.loop g p c 0) s = .next (faults s (code 2)) ∧
    exec (.lprw g r p 0 0) s = .next (gives s r (BitVec.ofNat 64 l.count) 0 1) ∧
    exec (.lprw g r p 1 0) s = .next (gives s r (BitVec.ofNat 64 (l.latchFirst.getD l.first)) 0 1) ∧
    exec (.lprw g r p 2 0) s = .next (gives s r (BitVec.ofNat 64 (l.latchLast.getD l.last)) 0 1) ∧
    (v < 2 ^ 32 → exec (.lprw g r p 0 1) s = .next (latched { l with count := v })) ∧
    (v ≤ 16383 → exec (.lprw g r p 1 1) s = .next (latched { l with latchFirst := some v })) ∧
    (v ≤ 16383 → exec (.lprw g r p 2 1) s = .next (latched { l with latchLast := some v })) ∧
    (t ≠ 3 → (if t = 0 then 2 ^ 32 ≤ v else 16383 < v) → exec (.lprw g r p t 1) s = .next (faults s (code 2)))) ∧
  (
  ∀ (g : BitVec 2) (p : Fin 4) (s : State),
    let k := here s
    let l := loopOf k p
    l.active = true → l.last = k.sc.widx → k.sc.ovr = none →
    (∀ q : Fin 4, q ≠ p → (loopOf k q).active = false ∨ (loopOf k q).last ≠ k.sc.widx) →
    ∃ t, exec (.nop g) s = .next t ∧
      (1 < l.count → (t.core s.curCore).sc.next = l.first ∧ loopOf (t.core s.curCore) p = { l with count := l.count - 1 }) ∧
      (l.count ≤ 1 → (t.core s.curCore).sc.next = k.sc.widx + 1 ∧
        loopOf (t.core s.curCore) p = { l with count := 0, active := false }) ∧
      (∀ q : Fin 4, q ≠ p → loopOf (t.core s.curCore) q = loopOf k q))

/-! ### Memory words of the scalar stream (R186 to R191) -/

namespace Sys2Proof.Claims

/-- Bytes of a size code (R123). -/
def bytesOf (sz : BitVec 2) : Nat := 2 ^ sz.toNat
/-- The scaled offset of a memory operand (R186). -/
def offset (sz : BitVec 2) (imm : BitVec 11) : Word64 := BitVec.ofInt 64 (imm.toInt * (bytesOf sz : Int))
/-- The address of a memory operand: the base itself under post-increment, else base plus offset (R186). -/
def address (base : Word64) (sz : BitVec 2) (post : BitVec 1) (imm : BitVec 11) : Word64 :=
  if post = 1 then base else base + offset sz imm
/-- The base register's update under post-increment, readable in the next cycle (R186). -/
def stepped (s t : State) (a : BitVec 5) (sz : BitVec 2) (post : BitVec 1) (imm : BitVec 11) : State :=
  if post = 1 then t.toReg s.curCore a (opA s a + offset sz imm) 1 else t
/-- SEXT or ZEXT of bytes in memory to 64 bits (R5, R186). -/
def widened (signed : Bool) (bs : List Byte) : Word64 :=
  if signed then (BitVec.ofNat (8 * bs.length) (leNat bs)).signExtend 64 else BitVec.ofNat 64 (leNat bs)
/-- No poisoned word and no flipped bit stands anywhere in the core's spaces. -/
def Sound (k : Core) : Prop := k.poison = [] ∧ k.upsets = []
/-- A fault at an address. -/
def at_ (n : Nat) (va : Word64) : FaultRec := { code := n, va }

end Sys2Proof.Claims

/-- R186 and R187 for A-space: a load's value is what the bytes hold before the cycle's writes; a store puts exactly its bytes at the computed
address into the cycle's writes, below every other unit; a post-increment changes the base register. An access to a row that still waits for a
load from another package blocks with subcode 6 (R320).

R186: a post-increment load into its own base raises ILLEGAL_OPERAND; a misaligned access MISALIGNED; an aligned one that is not wholly
inside A-space ADDRESS_RANGE, with its address and access kind; none of them has an effect of its own. -/
def Obligations.ASpaceAccesses : Prop :=
  (
  ∀ (g : BitVec 2) (d a r : BitVec 5) (sz : BitVec 2) (p : BitVec 1) (i : BitVec 11) (s : State), Ready s [d, a, r] → Sound (here s) →
    let n := bytesOf sz
    let x := address (opA s a) sz p i
    let bs := (here s).a.readBytes x.toNat n
    x.toNat % n = 0 → x.toNat + n ≤ 393216 →
    (s.bytesPending s.curCore x.toNat n = true → exec (.sta g r a sz p i) s = .next (waits s 6) ∧
      (¬ (p = 1 ∧ d = a) → exec (.lda g d a sz p i) s = .next (waits s 6) ∧ exec (.ldau g d a sz p i) s = .next (waits s 6))) ∧
    (s.bytesPending s.curCore x.toNat n = false →
    (¬ (p = 1 ∧ d = a) →
      exec (.lda g d a sz p i) s = .next (passed s (stepped s (s.toReg s.curCore d (widened true bs) 3) a sz p i) 1) ∧
      exec (.ldau g d a sz p i) s = .next (passed s (stepped s (s.toReg s.curCore d (widened false bs) 3) a sz p i) 1)) ∧
    exec (.sta g r a sz p i) s = .next (passed s (stepped s (s.cycWrite
      { core := s.curCore, space := 0, rank := 0, addr := x.toNat, data := leBytes n (regVal s r).toNat, sel := [] }) a sz p i) 1))) ∧
  (
  ∀ (g : BitVec 2) (d a r : BitVec 5) (sz : BitVec 2) (p : BitVec 1) (i : BitVec 11) (s : State), Ready s [d, a, r] →
    let n := bytesOf sz
    let x := address (opA s a) sz p i
    (p = 1 → exec (.lda g a a sz p i) s = .next (faults s (code 2)) ∧ exec (.ldau g a a sz p i) s = .next (faults s (code 2)) ∧
      exec (.ldg g a a sz p i) s = .next (faults s (code 2)) ∧ exec (.ldgu g a a sz p i) s = .next (faults s (code 2))) ∧
    let bad := fun (n kind : Nat) => Host.Outcome.next (φ := Fault) (ρ := Refusal) (faults s { code := n, va := x, kind })
    (x.toNat % n ≠ 0 → exec (.sta g r a sz p i) s = bad 0x11 1 ∧
      (¬ (p = 1 ∧ d = a) → exec (.lda g d a sz p i) s = bad 0x11 0 ∧ exec (.ldau g d a sz p i) s = bad 0x11 0)) ∧
    (x.toNat % n = 0 → 393216 < x.toNat + n → exec (.sta g r a sz p i) s = bad 0x10 1 ∧
      (¬ (p = 1 ∧ d = a) → exec (.lda g d a sz p i) s = bad 0x10 0 ∧ exec (.ldau g d a sz p i) s = bad 0x10 0)))

/-- R186, R189 and R190: a global access that is aligned, translated to `pa` and admitted is sent to its home, with its job; a misaligned one
raises MISALIGNED with its access kind. -/
def Obligations.GlobalAccesses : Prop :=
  ∀ (g : BitVec 2) (d a b c : BitVec 5) (sz : BitVec 2) (z p : BitVec 1) (i : BitVec 11) (s : State), Ready s [d, a, b, c] →
    let n := bytesOf sz
    let x := address (opA s a) sz p i
    let m := if z = 1 then 8 else 4
    let y := opA s a
    let sent := fun (t : State) (va : Word64) (pa size : Nat) (job : GJob) (rd : Option (BitVec 5)) =>
      t.sendScalar s.curCore va pa size job rd
    (x.toNat % n = 0 → ∀ t pa, s.letIn s.curCore n 0 1 [x.toNat] = .ok t [pa] → ¬ (p = 1 ∧ d = a) →
      exec (.ldg g d a sz p i) s = .next (passed s (stepped s (sent t x pa n (.load d n true) (some d)) a sz p i) 1) ∧
      exec (.ldgu g d a sz p i) s = .next (passed s (stepped s (sent t x pa n (.load d n false) (some d)) a sz p i) 1)) ∧
    (x.toNat % n = 0 → ∀ t pa, s.letIn s.curCore n 1 1 [x.toNat] = .ok t [pa] →
      exec (.stg g b a sz p i) s = .next (passed s (stepped s (sent t x pa n (.store (leBytes n (regVal s b).toNat) []) none) a sz p i) 1)) ∧
    (y.toNat % m = 0 → ∀ t pa, s.letIn s.curCore m 2 1 [y.toNat] = .ok t [pa] →
      let amo := fun op => Host.Outcome.next (φ := Fault) (ρ := Refusal) (passed s (sent t y pa m (.amo op m (opB s b) d) (some d)) 1)
      exec (.amoadd g d a b z) s = amo 0 ∧ exec (.amomin g d a b z) s = amo 1 ∧ exec (.amomax g d a b z) s = amo 2 ∧
      exec (.amominu g d a b z) s = amo 3 ∧ exec (.amomaxu g d a b z) s = amo 4 ∧ exec (.amoand g d a b z) s = amo 5 ∧
      exec (.amoor g d a b z) s = amo 6 ∧ exec (.amoxor g d a b z) s = amo 7 ∧ exec (.amoswap g d a b z) s = amo 8 ∧
      (z = 0 → exec (.amofadd g d a b) s = amo 9) ∧
      exec (.cas g d a b c z) s = .next (passed s (sent t y pa m (.cas m (opB s b) (opC s c) d) (some d)) 1)) ∧
    (x.toNat % n ≠ 0 → exec (.stg g b a sz p i) s = .next (faults s { code := 0x11, va := x, kind := 1 }) ∧
      (¬ (p = 1 ∧ d = a) → exec (.ldg g d a sz p i) s = .next (faults s { code := 0x11, va := x, kind := 0 }))) ∧
    (y.toNat % m ≠ 0 → exec (.amoswap g d a b z) s = .next (faults s { code := 0x11, va := y, kind := 2 }) ∧
      exec (.cas g d a b c z) s = .next (faults s { code := 0x11, va := y, kind := 2 }))

/-- R191: ENTER and LEAVE, with their faults in order. -/
def Obligations.StackFrames : Prop :=
  ∀ (g : BitVec 2) (n : BitVec 16) (s : State), Ready s [2] →
    let sp := regVal s 2
    let lo : Int := (here s).sr.slim.toNat
    let hi : Int := (here s).sr.sbase.toNat
    (sp.toNat % 16 ≠ 0 → exec (.enter g n) s = .next (faults s (at_ 0x11 sp)) ∧ exec (.leave g n) s = .next (faults s (at_ 0x11 sp))) ∧
    (sp.toNat % 16 = 0 → sp.toInt - 16 * n.toNat < lo → exec (.enter g n) s = .next (faults s (at_ 0x14 sp))) ∧
    (sp.toNat % 16 = 0 → lo ≤ sp.toInt - 16 * n.toNat →
      exec (.enter g n) s = .next (gives s 2 (sp - BitVec.ofNat 64 (16 * n.toNat)) 0 1)) ∧
    (sp.toNat % 16 = 0 → hi < sp.toInt + 16 * n.toNat → exec (.leave g n) s = .next (faults s (at_ 0x14 sp))) ∧
    (sp.toNat % 16 = 0 → sp.toInt + 16 * n.toNat ≤ hi →
      exec (.leave g n) s = .next (gives s 2 (sp + BitVec.ofNat 64 (16 * n.toNat)) 0 1))

/-! ### Queues, blocks, time, lease, tags (R192 to R200) -/

namespace Sys2Proof.Claims

/-- A queue with a value appended, pushed now. -/
def pushed {α : Type} (s : State) (q : Queue α) (v : α) : Queue α := { q with items := q.items ++ [(s.now, v)] }
/-- Entries, pushes under way and slots that pops of this cycle keep (R91, R208). -/
def used {α : Type} (s : State) (q : Queue α) : Nat := q.items.length + (if q.popAt = s.now then q.popN else 0) + q.inflight

end Sys2Proof.Claims

/-- R192: the queue words, with the blocking conditions of a full and an empty queue.

R193 with R94 and R125: BLK pushes its entry; a full queue blocks; a BQM address above 4,095 and a speculative push to BQV are illegal. -/
def Obligations.QueueWords : Prop :=
  (
  ∀ (g : BitVec 2) (r : BitVec 5) (q : BitVec 4) (s : State), Ready s [r] →
    let k := here s
    let v := regVal s r
    (used s k.qs2v < 8 → exec (.qpush g r 0) s = .next (passed s (s.setCore s.curCore { k with qs2v := pushed s k.qs2v v }) 1)) ∧
    (8 ≤ used s k.qs2v → exec (.qpush g r 0) s = .next (waits s 2)) ∧
    (used s k.qs2m < 16 → exec (.qpush g r 2) s = .next (passed s (s.setCore s.curCore { k with qs2m := pushed s k.qs2m v }) 1)) ∧
    (16 ≤ used s k.qs2m → exec (.qpush g r 2) s = .next (waits s 2)) ∧
    (∀ p x rest, k.qv2s.items = (p, x) :: rest → p < s.now →
      exec (.qpeek g r 1) s = .next (gives s r x 0 1) ∧
      exec (.qpop g r 1) s = .next (passed s ((s.setCore s.curCore { k with qv2s := { k.qv2s with
        items := rest, popAt := s.now, popN := if k.qv2s.popAt = s.now then k.qv2s.popN + 1 else 1 } }).toReg s.curCore r x 1) 1)) ∧
    (k.qv2s.items = [] → exec (.qpop g r 1) s = .next (waits s 1) ∧ exec (.qpeek g r 1) s = .next (waits s 1)) ∧
    (let count := fun {α : Type} (x : Queue α) =>
        (x.items.filter (fun e => decide (e.1 < s.now))).length + (if x.popAt = s.now then x.popN else 0)
     exec (.qcnt g r 0) s = .next (gives s r (BitVec.ofNat 64 (count k.qs2v)) 0 1) ∧
     exec (.qcnt g r 1) s = .next (gives s r (BitVec.ofNat 64 (count k.qv2s)) 0 1) ∧
     exec (.qcnt g r 2) s = .next (gives s r (BitVec.ofNat 64 (count k.qs2m)) 0 1)) ∧
    (q ≠ 0 → q ≠ 2 → exec (.qpush g r q) s = .next (faults s (code 2))) ∧
    (q ≠ 1 → exec (.qpop g r q) s = .next (faults s (code 2)) ∧ exec (.qpeek g r q) s = .next (faults s (code 2))) ∧
    (3 ≤ q.toNat → exec (.qcnt g r q) s = .next (faults s (code 2)))) ∧
  (
  ∀ (g : BitVec 2) (sp : BitVec 1) (t : BitVec 3) (n : BitVec 6) (a : BitVec 13) (s : State),
    let k := here s
    let e := fun (spec : Bool) => ({ addr := a.toNat, left := n.toNat + 1, spec, tag := t.toNat, pushed := s.now } : BlkEntry)
    (used s k.bqv < 16 → ∃ u, exec (.blk g 0 0 t n a) s = .next u ∧
      (u.core s.curCore).bqv = pushed s k.bqv (e false) ∧ (u.core s.curCore).specTags = k.specTags) ∧
    (16 ≤ used s k.bqv → exec (.blk g 0 0 t n a) s = .next (waits s 2)) ∧
    (a.toNat ≤ 4095 → used s k.bqm < 16 → ∃ u, exec (.blk g 1 sp t n a) s = .next u ∧
      (u.core s.curCore).bqm = pushed s k.bqm (e (sp == 1)) ∧
      (sp = 1 → t.toNat ∈ (u.core s.curCore).specTags) ∧ (∀ x ∈ k.specTags, x ∈ (u.core s.curCore).specTags)) ∧
    (a.toNat ≤ 4095 → 16 ≤ used s k.bqm → exec (.blk g 1 sp t n a) s = .next (waits s 2)) ∧
    (4096 ≤ a.toNat → exec (.blk g 1 sp t n a) s = .next (faults s (code 2))) ∧
    exec (.blk g 0 1 t n a) s = .next (faults s (code 2)))

/-- R195: WAIT keeps the stream idle for n cycles and is never a deviation; NOP takes one cycle (R202). -/
def Obligations.IdleWords : Prop :=
  ∀ (g : BitVec 2) (n : BitVec 24) (s : State),
    exec (.wait g n) s = .next (passed s s (1 + n.toNat)) ∧ exec (.nop g) s = .next (passed s s 1) ∧ (decodeScalar 0x90000014).toOption = some (.wait 0 20)

/-- R197: the TIME group.

R99, R194, R196, R198 and R200: the anchor point, the lease words and the tag words. Their effect at a later boundary is an event of its
own, which they put on the agenda. -/
def Obligations.TimeAndLeaseWords : Prop :=
  (
  ∀ (g : BitVec 2) (d a : BitVec 5) (s : State), Ready s [d, a] →
    exec (.tnow g d) s = .next (gives s d (BitVec.ofNat 64 (s.localCyc s.curCore)) 0 1) ∧
    exec (.bnow g d) s = .next (gives s d (BitVec.ofNat 64 (s.coreBeat s.curCore).1) 0 1) ∧
    ((opA s a).toNat < 2 ^ 48 → exec (.btset g a) s = .next (passed s (s.cycSet s.curCore (.bt (opA s a).toNat)) 1)) ∧
    (2 ^ 48 ≤ (opA s a).toNat → exec (.btset g a) s = .next (faults s (code 2)))) ∧
  (
  ∀ (g : BitVec 2) (n : BitVec 8) (t : BitVec 3) (s : State),
    let c := s.curCore
    let q := s.quad (quadOf c)
    let i := quadIndex c
    let later := fun (u : State) (ev : Instr) => u.post (s.boundary c) (s.boundaryPhase c) (some c) (.run ev (.nums [c]))
    (∃ u, exec (.anchor g) s = .next u ∧ (u.core c).sc.waiting = true ∧ (u.core c).anchor = none ∧ (u.core c).sc.sub = 0) ∧
    (n ≠ 0 → q.holder ≠ some i → (∀ r ∈ q.reqs, r.1 ≠ i) →
      exec (.mlease g n) s = .next (passed s ((s.setQuad (quadOf c) { q with reqs := q.reqs ++ [(i, s.now, n.toNat)] }).post
        (s.now + 2) 1 none (.run .leaseGrant (.nums [quadOf c]))) 1)) ∧
    (n = 0 ∨ q.holder = some i ∨ (∃ r ∈ q.reqs, r.1 = i) → exec (.mlease g n) s = .next (faults s (code 2))) ∧
    exec (.mfree g) s = .next (passed s (later (s.modCore c (fun k => { k with mfreeReq := true })) .mfreeEffect) 1) ∧
    exec (.scommit g t) s =
      .next (passed s (later (s.modCore c (fun k => { k with resolve := k.resolve ++ [(true, t.toNat)] })) .specResolve) 1) ∧
    exec (.sdrop g t) s =
      .next (passed s (later (s.modCore c (fun k => { k with resolve := k.resolve ++ [(false, t.toNat)] })) .specResolve) 1))

/-! ### SYS words (R83, R85, R202 to R204) -/

/-- R202, R203 and R204: TRAP and BKPT raise their fault as completed words; HALT ends the core's part and its lease, or raises SPECULATION;
the conditions of HALT are those of R204.

R386, R387, R394 and R396: a TRAP on a core whose stope runs and that has no record yet freezes the stope in this cycle, asks for a trap
window, writes the record and queues its own completed word; of memory nothing changes, and of another core at most which bank requests stand in
its banks or with it, for those of the stope for later beats leave the banks (R388). -/
def Obligations.TrapAndHaltWords : Prop :=
  (
  ∀ (g : BitVec 2) (n : BitVec 15) (m : BitVec 9) (s : State),
    let c := s.curCore
    let done : Replay := { (here s).scalarEntry with done := true }
    let brk := fun (k : Nat) => passed s (s.raise c { code := k, number := n.toNat } (some (.scalar, done))) 1
    exec (.trap g n) s = .next (brk 0x09) ∧
    exec (.bkpt g n) s = .next (brk 0x0A) ∧
    ((here s).specTags ≠ [] → exec (.halt g m) s = .next (faults s (code 8))) ∧
    ((here s).specTags = [] → (here s).enginesIdle s.now = true → s.drained c m.toNat = true →
      ∃ t, exec (.halt g m) s = .next t ∧ (t.core c).sc.halted = true ∧ (t.core c).sc.live = false ∧ (t.core c).haltMask = m.toNat ∧
        (t.quad (quadOf c)).holder ≠ some (quadIndex c) ∧ (∀ r ∈ (t.quad (quadOf c)).reqs, r.1 ≠ quadIndex c))) ∧
  (
  ∀ (g : BitVec 2) (n : BitVec 15) (s : State) (p : Stope),
    let c := s.curCore
    let k := here s
    s.stopeOf c = some p → p.frozen = none → k.fault = none → k.sc.ovr = none → k.sc.replay.length < 8 →
    ∃ t, exec (.trap g n) s = .next t ∧
      (t.core c).fault = some { code := 9, number := n.toNat, count := 1, lcyc := s.localCyc c } ∧
      t.frozenAt c = some s.now ∧
      (∃ e ∈ t.agenda, e.act = .run .trapWindowDelivery (.nums [p.id]) ∧ e.at_ = s.now) ∧
      (∃ e : Replay, (t.core c).sc.replay = k.sc.replay ++ [e] ∧ e.done = true ∧ e.code = 9 ∧ e.word.toNat = k.curWord .scalar % 2 ^ 192) ∧
      (t.core c).s = k.s ∧ (t.core c).a = k.a ∧ t.mem = s.mem ∧
      (∀ x, x ≠ c → ∃ bs ws, t.core x = { s.core x with banks := bs, withheld := ws }))

/-- R83 and R85: SWAP's tests in order, and the flip: target registers unprepared, loop registers cleared and inactive, the tile table invalid, triggers that push
blocks disarmed, the rest of the core as it was. -/
def Obligations.PlaneSwap : Prop :=
  ∀ (g : BitVec 2) (a : BitVec 5) (m : BitVec 9) (s : State), Ready s [a] →
    let c := s.curCore
    let k := here s
    let o := k.act.ovl.getD 0
    let strs := s.kernelStreams k.bnd.gen k.bnd.kernel
    let e := (opA s a).toNat
    let words := (streamBytes strs 0 (o + 1)).length / 4
    let f := k.flip
    (hasOverlay strs (o + 1) = false → exec (.swap g a m) s = .next (faults s (code 2))) ∧
    (hasOverlay strs (o + 1) = true → words ≤ e → exec (.swap g a m) s = .next (faults s (code 2))) ∧
    (hasOverlay strs (o + 1) = true → e < words → k.specTags ≠ [] → exec (.swap g a m) s = .next (faults s (code 8))) ∧
    (hasOverlay strs (o + 1) = true → e < words → k.specTags = [] → k.enginesIdle s.now = true → s.drained c m.toNat = true →
      k.shadow.ready = true → k.shadow.ovl = some (o + 1) →
      exec (.swap g a m) s = .next (jumps s ((s.setCore c f).afterFlip c) e)) ∧
    f.act.scal = k.shadow.scal ∧ f.act.vect = k.shadow.vect ∧ f.act.matx = k.shadow.matx ∧ f.act.progs = k.shadow.progs ∧
    f.act.tiles = [] ∧ (∀ j : Fin 12, f.b[j].prepared = false ∧ f.b[j].cond = k.b[j].cond ∧ f.b[j].target = k.b[j].target) ∧
    (∀ j : Fin 4, f.lp[j].count = 0 ∧ f.lp[j].first = 0 ∧ f.lp[j].last = 0 ∧ f.lp[j].active = false ∧ f.lp[j].latchFirst = none ∧
      f.lp[j].latchLast = none) ∧
    (∀ j : Fin 8, f.trig[j].armed = (k.trig[j].armed && !(k.trig[j].action.toNat % 16 == 2))) ∧
    f = { k with plane := f.plane, fires := f.fires, active := 1 - k.active, b := f.b, lp := f.lp, trig := f.trig }

/-- R127 and R202: GETS reads every register of the selector table, and any other selector is illegal.

R127, R202 and R252: PUTS puts the register's value into the cycle's register changes, for words issued later; a read-only or unnamed
selector is illegal, and so is a route beyond 127. What the change leaves is the field width of the register; BSTAT keeps [11:10]. -/
def Obligations.SpecialRegisters : Prop :=
  (
  ∀ (g : BitVec 2) (d : BitVec 5) (l : BitVec 4) (s : State), Ready s [d] →
    let c := s.curCore
    let k := here s
    let r := k.sr
    let q := s.quad (quadOf c)
    let i := quadIndex c
    let reads := fun (sel : BitVec 11) (v : Word64) => exec (.gets g d sel 0) s = .next (gives s d v 0 1)
    reads 0x001 (BitVec.ofNat 64 (k.bnd.pkgPos % 64 * 1024 + c % 1024)) ∧
    reads 0x004 (BitVec.ofNat 64 (k.bnd.chain.length + k.bnd.lanes.length - 1)) ∧
    (∀ e, k.bnd.chain[l.toNat]? = some e →
      exec (.gets g d 0x002 l) s = .next (gives s d (BitVec.ofNat 64 e.k) 0 1) ∧
      exec (.gets g d 0x003 l) s = .next (gives s d (BitVec.ofNat 64 e.count) 0 1)) ∧
    (k.bnd.chain.length + k.bnd.lanes.length - 1 < l.toNat → exec (.gets g d 0x002 l) s = .next (faults s (code 2))) ∧
    reads 0x010 (r.slim.setWidth 64) ∧ reads 0x011 (r.sbase.setWidth 64) ∧ reads 0x018 (r.keyLo.setWidth 64) ∧
    reads 0x019 (r.keyHi.setWidth 64) ∧ reads 0x01A (r.dscale.setWidth 64) ∧ reads 0x020 (r.sstat.setWidth 64) ∧
    reads 0x021 (r.vstat.setWidth 64) ∧ reads 0x022 (r.mstat.setWidth 64) ∧ reads 0x023 (r.bstat.setWidth 64) ∧
    reads 0x032 (r.mroute[0].setWidth 64) ∧ reads 0x033 (r.mroute[1].setWidth 64) ∧ reads 0x034 (r.mroute[2].setWidth 64) ∧
    reads 0x035 (r.mroute[3].setWidth 64) ∧ reads 0x040 r.sboard ∧ reads 0x041 (r.tfull.setWidth 64) ∧
    reads 0x050 (r.dsctx.setWidth 64 <<< 8) ∧
    (∃ v : Word64, reads 0x030 v ∧ v.getLsbD 0 = s.elastic c ∧ v.getLsbD 1 = decide (k.active % 2 = 1)) ∧
    (∃ v : Word64, reads 0x031 v ∧ v.getLsbD 0 = q.reqs.any (fun x => x.1 == i) ∧ v.getLsbD 1 = decide (q.holder = some i)) ∧
    (∃ v : Word64, reads 0x000 v) ∧
    (∀ sel : BitVec 11, sel.toNat ∉ [0, 1, 2, 3, 4, 0x10, 0x11, 0x18, 0x19, 0x1A, 0x20, 0x21, 0x22, 0x23, 0x30, 0x31, 0x32, 0x33, 0x34, 0x35, 0x40,
      0x41, 0x50] → exec (.gets g d sel 0) s = .next (faults s (code 2)))) ∧
  (
  ∀ (g : BitVec 2) (a : BitVec 5) (sel : BitVec 11) (s : State) (r : SRegs), Ready s [a] →
    let c := s.curCore
    let v := regVal s a
    let plain := [0x10, 0x11, 0x18, 0x19, 0x1A, 0x20, 0x21, 0x22, 0x23, 0x41, 0x50]
    let route := [0x32, 0x33, 0x34, 0x35]
    (sel.toNat ∈ plain → exec (.puts g a sel 0) s = .next (passed s (s.cycSet c (.sreg sel.toNat v)) 1)) ∧
    (sel.toNat ∈ route → v.toNat / 32 % 128 + v.toNat / 4096 % 128 ≤ 127 →
      exec (.puts g a sel 0) s = .next (passed s (s.cycSet c (.sreg sel.toNat v)) 1)) ∧
    (sel.toNat ∈ route → 127 < v.toNat / 32 % 128 + v.toNat / 4096 % 128 → exec (.puts g a sel 0) s = .next (faults s (code 2))) ∧
    exec (.puts g a 0x040 0) s = .next (passed s ((s.cycSet c (.sreg 0x40 v)).checkTriggers c) 1) ∧
    (sel.toNat ∉ 0x40 :: plain ++ route → exec (.puts g a sel 0) s = .next (faults s (code 2))) ∧
    r.put 0x10 v = { r with slim := v.setWidth 19 } ∧ r.put 0x11 v = { r with sbase := v.setWidth 19 } ∧
    r.put 0x20 v = { r with sstat := v.setWidth 7 } ∧ r.put 0x21 v = { r with vstat := v.setWidth 8 } ∧
    r.put 0x22 v = { r with mstat := v.setWidth 6 } ∧ r.put 0x41 v = { r with tfull := v.setWidth 16 } ∧
    (∀ j < 10, (r.put 0x23 v).bstat.getLsbD j = v.getLsbD j) ∧
    (∀ j, 10 ≤ j → (r.put 0x23 v).bstat.getLsbD j = r.bstat.getLsbD j) ∧
    (∀ j < 49, (r.put 0x50 v).dsctx.getLsbD j = v.getLsbD (j + 8)))

/-! ### Order (R341 to R350) -/

namespace Sys2Proof.Claims

/-- The condition of a WAITM (R343): 0 EQ, 1 NE, 2 GEU, 3 ALL. -/
def waitHolds (c : Nat) (v r : Word64) : Bool :=
  match c with
  | 0 => v == r
  | 1 => !(v == r)
  | 2 => !v.ult r
  | _ => (v &&& r) == r
/-- The 64-bit value at an A-space address. -/
def word64At (k : Core) (a : Nat) : Word64 := BitVec.ofNat 64 (leNat (k.a.readBytes a 8))
/-- The core has arrived on this barrier instance and its phase has not completed. -/
def stillOpen (s : State) (key : BarKey) : Bool :=
  match (here s).arrivalOn key with
  | some a => decide ((s.barSt key).due < a.phase)
  | none => false

end Sys2Proof.Claims

/-- R341, R343, R344, R348 and R350: FENCE, WAITM and the barrier words, where they complete, and a second arrival before the first has
completed. -/
def Obligations.OrderingWords : Prop :=
  ∀ (g : BitVec 2) (a b : BitVec 5) (d m : BitVec 4) (n : BitVec 6) (w : BitVec 3) (s : State), Ready s [a, b] →
    let c := s.curCore
    let k := here s
    let key := k.barKey c n.toNat d.toNat
    -- a WAITM keeps the operands of its issue (R343)
    let u := if k.sc.fwd.isEmpty then
        s.modStrm c .scalar (fun st => { st with fwd := [(0, leBytes 8 (opA s a).toNat), (1, leBytes 8 (opB s b).toNat)] })
      else s
    (k.bnd.scope d.toNat = none → m ≠ 0 →
      exec (.fence g d m) s = .next (faults s (code 2)) ∧ exec (.bar g d n) s = .next (faults s (code 2)) ∧
      exec (.bara g d n) s = .next (faults s (code 2)) ∧ exec (.barw g d n) s = .next (faults s (code 2))) ∧
    (∀ x, k.bnd.scope d.toNat = some x → m ≠ 0 → s.performedAt c x m.toNat k.sc.istamp k.sc.tried = true →
      exec (.fence g d m) s = .next (passed s s 1)) ∧
    (w.toNat ≤ 3 → k.sc.sub = 0 →
      ((opA s a).toNat ≤ 31 → waitHolds w.toNat ((k.bank (opA s a).toNat).seen s.now) (opB s b) = true →
        exec (.waitm g a b 2 w) s = .next (passed u u 2)) ∧
      (31 < (opA s a).toNat → exec (.waitm g a b 2 w) s = .next (faults u (code 2))) ∧
      (Sound k → (opA s a).toNat % 8 = 0 → (opA s a).toNat + 8 ≤ 393216 → waitHolds w.toNat (word64At k (opA s a).toNat) (opB s b) = true →
        exec (.waitm g a b 0 w) s = .next (passed u u 4))) ∧
    (∀ q, w.toNat ≤ 3 → k.sc.sub = 3 → s.waitValue c = some q → q.poisoned = false → waitHolds w.toNat (BitVec.ofNat 64 (leNat q.val)) (opB s b) = true →
      exec (.waitm g a b 1 w) s = .next (passed u ((u.dropReq q.id).modStrm c .scalar (fun st => { st with sub := 0 })) 1)) ∧
    (∀ x, k.bnd.scope d.toNat = some x →
      (stillOpen s key = false → exec (.bara g d n) s = .next (passed s (s.arriveAt c n.toNat d.toNat key) 1)) ∧
      (stillOpen s key = true → exec (.bara g d n) s = .next (waits s 4)) ∧
      (stillOpen s key = true → k.sc.sub = 0 → exec (.bar g d n) s = .next (waits s 4)) ∧
      (stillOpen s key = false → k.sc.sub = 0 → ∃ t e, exec (.bar g d n) s = .next t ∧ (t.core c).arrivalOn key = some e ∧
        e.phase = (k.arrivalOn key).elim 1 (fun y => y.phase + 1) ∧ e.complete = false ∧ (t.core c).s = k.s ∧ t.mem = s.mem) ∧
      (x < 4 → (∀ e, k.arrivalOn key = some e → e.complete = true) →
        exec (.barw g d n) s = .next (passed s s 1) ∧ (k.sc.sub ≠ 0 → exec (.bar g d n) s = .next (passed s s 1))) ∧
      (x < 4 → (∃ e, k.arrivalOn key = some e ∧ e.complete = false) → exec (.barw g d n) s = .next (waits s 4)) ∧
      (4 ≤ x → ∃ t, exec (.barw g d n) s = .next t ∧ (t.core c).sc.waiting = true ∧ (t.core c).anchor = some (n.toNat, d.toNat)))

/-! ### Copies and bank commands (R300 to R308, R317) -/

namespace Sys2Proof.Claims

/-- A little-endian field of a block of `n` bytes at an A-space address. -/
def fieldAt (k : Core) (a off n : Nat) : Nat := leNat (k.a.readBytes (a + off) n)

end Sys2Proof.Claims

/-- R300 to R302, R305 and R306: an accepted CPY or CPYS joins the copy queue with the descriptor read from A-space and may start 4 cycles
later; a queue of 16 blocks it; DRAIN passes when no earlier copy into its space is left.

R307, R308, R317 and R272: an accepted bank command takes the bank's next sequence number and is sent to its bank, arriving 2 cycles later;
BKST reads the bank's status word. -/
def Obligations.CopyAndBankWords : Prop :=
  (
  ∀ (g : BitVec 2) (a b : BitVec 5) (p : BitVec 4) (s : State), Ready s [a, b] →
    let c := s.curCore
    let k := here s
    let x := (opA s a).toNat
    let y := (opB s b).toNat
    let blk := k.a.readBytes x 32
    let lay := k.a.readBytes y 16
    let d := copyDescOf blk k.bt s.seq k.sc.istamp none k.scalarEntry
    let e := copyDescOf blk k.bt s.seq k.sc.istamp (some lay) k.scalarEntry
    -- DST of a CPYS is an S address of this core, whose PHYS may stand as 0xFFFF (R301, R305)
    let own : CopyDesc := { e with dst := 0xFFFF000000000000#64 ||| BitVec.ofNat 64 (e.dst.toNat % 65536) }
    let fits := fun (d : CopyDesc) =>
      copyCoreFault s c d.sspace d.src = none ∧ copyCoreFault s c d.dspace d.dst = none ∧
      ((isBankSpace d.sspace || isBankSpace d.dspace) = true → s.isAccess d.beat = true) ∧
      copyShadowed s c d.sspace d.src (max d.len 32) (max d.lines 1) d.sstride = false ∧
      copyShadowed s c d.dspace d.dst (max d.len 32) (max d.lines 1) d.dstride = false
    let queued := fun (d : CopyDesc) => passed s ((s.setCore c { k with copyQ := k.copyQ ++ [d] }).postDescriptor c (s.now + 4)) 1
    (k.heldCopy = false → Sound k → x % 32 = 0 → x + 32 ≤ 393216 →
      (cpyOk blk d = false → exec (.cpy g a) s = .next (faults s (code 2))) ∧
      (cpyOk blk d = true → linesFit d.sspace d.src d.len d.lines d.sstride = true → linesFit d.dspace d.dst d.len d.lines d.dstride = true → fits d →
        (k.copyQ.length < 16 → exec (.cpy g a) s = .next (queued d)) ∧
        (16 ≤ k.copyQ.length → exec (.cpy g a) s = .next (waits s 6)))) ∧
    (k.heldCopy = false → x % 32 ≠ 0 → exec (.cpy g a) s = .next (faults s { code := 0x11, va := BitVec.ofNat 64 x, kind := 0 })) ∧
    (k.heldCopy = false → Sound k → x % 32 = 0 → y % 16 = 0 → x + 32 ≤ 393216 → y + 16 ≤ 393216 → cpysOk blk e lay = true → cpysFits e lay = true →
      fits own → k.copyQ.length < 16 → exec (.cpys g a b) s = .next (queued own)) ∧
    (p.toNat ≤ 5 → (∀ f ∈ k.copiesBefore k.sc.istamp, f.dspace ≠ p.toNat) → exec (.drain g p) s = .next (passed s s 1)) ∧
    d.len = leNat ((blk.drop 0x10).take 4) ∧ d.lines = leNat ((blk.drop 0x14).take 2) ∧ d.src = BitVec.ofNat 64 (leNat (blk.take 8)) ∧
    d.dst = BitVec.ofNat 64 (leNat ((blk.drop 8).take 8))) ∧
  (
  ∀ (g : BitVec 2) (a d b : BitVec 5) (kb : BitVec 3) (p : BitVec 1) (s : State), Ready s [a, d] →
    let c := s.curCore
    let k := here s
    let x := (opA s a).toNat
    let blk := k.a.readBytes x 32
    let bank := leNat (blk.take 1)
    let tag := leNat ((blk.drop 2).take 1)
    let n := (k.bt + kb.toNat) % beatMod
    let sent := fun (t : State) => ∃ r : BankReq, r.core = c ∧ r.bank = bank ∧ r.beat = n ∧ r.seqNo = (k.bank bank).nextSeq ∧ r.slide = (p == 1) ∧
      t = passed s ((s.modBank c bank (fun y => { y with nextSeq := nextSeqNo y.nextSeq })).sendBank c r (s.now + 2)) 1
    Sound k → x % 32 = 0 → x + 32 ≤ 393216 → s.isCompute n = true → k.bankRoom bank = true → s.fuse.lode = true →
    (cmdOk 0 blk = true → k.tagPasses c bank tag = true → ∃ t, exec (.bkrun g a kb p) s = .next t ∧ sent t) ∧
    (cmdOk 1 blk = true → s.isAssay n = false → k.tagPasses c bank tag = true → leNat ((blk.drop 4).take 2) + cmdRows blk ≤ 1536 →
      k.shadowed (leNat ((blk.drop 6).take 2) / 128 * 65536) = false → ∃ t, exec (.bklode g a kb p) s = .next t ∧ sent t) ∧
    (cmdOk 2 blk = true → s.isAssay n = false → ∃ t, exec (.bkcal g a kb p) s = .next t ∧ sent t) ∧
    (cmdOk 0 blk = false → exec (.bkrun g a kb p) s = .next (faults s (code 2))) ∧
    exec (.bkst g d b) s = .next (gives s d ((k.bank b.toNat).seen s.now) 0 1))

/-! ### Collectives, scoreboard, triggers (R354, R355, R360, R361) -/

/-- R354, R355, R360 and R361: the tile-table and scoreboard words. -/
def Obligations.CollectiveWords : Prop :=
  ∀ (g : BitVec 2) (e : BitVec 6) (a b : BitVec 5) (i : BitVec 3) (s : State), Ready s [a, b] →
    let c := s.curCore
    let k := here s
    let x := (opA s a).toNat
    let img := k.a.readBytes x 64
    let busy := (k.tile e.toNat).any (fun t => t.firing.isSome || !t.contribs.isEmpty)
    let others := (k.act.tiles.filter (fun t => t.1 != e.toNat && tcCombine t.2.img)).foldl (fun n t => n + (tcSlots t.2.img).length * tcRows t.2.img) 0
    (Sound k → x % 64 = 0 → x + 64 ≤ 393216 →
      (tcValid img = false → busy = false → exec (.ttset g e a) s = .next (passed s (s.cycSet c (.entry e.toNat none)) 1)) ∧
      (tcValid img = true → imageOk img = false → exec (.ttset g e a) s = .next (faults s (code 2))) ∧
      (tcValid img = true → imageOk img = true → (∀ p ∈ tcPeerList img, s.takesPart c (tcDepth img) (prCore p) = true ∧
          (prCore p / 1024 = k.bnd.pkgPos ∨ s.planned c (s.fabricOf k.bnd.gen (prCore p / 1024)) = true)) →
        (bitOf (tcPost img) 2 = true → s.takesPart c (tcDepth img) (tcPcore img) = true) →
        (tcCombine img = true → others + (tcSlots img).length * tcRows img ≤ 256) →
        (busy = false → exec (.ttset g e a) s = .next (passed s (s.cycSet c (.entry e.toNat (some img))) 1)) ∧
        (busy = true → exec (.ttset g e a) s = .next (waits s 4)))) ∧
    (x % 64 ≠ 0 → exec (.ttset g e a) s = .next (faults s { code := 0x11, va := opA s a, kind := 0 })) ∧
    (k.tile e.toNat = none → exec (.trdy g e) s = .next (faults s (code 2)) ∧ exec (.clx g e a) s = .next (faults s (code 2))) ∧
    (∀ t, k.tile e.toNat = some t →
      (k.localShadowed t.img 0 (tcRows t.img) = false → exec (.trdy g e) s = .next (passed s (s.setReady c e.toNat k.sc.istamp) 1)) ∧
      (let n := if x = 0 then tcRows t.img else x
       (tcRows t.img < n → exec (.clx g e a) s = .next (faults s (code 2))) ∧
       (n ≤ tcRows t.img → k.localShadowed t.img 0 n = false →
        (t.firing = none → exec (.clx g e a) s = .next (passed s ((s.newFiring c e.toNat n k.sc.istamp 0 false).1.postFire c e.toNat) 1)) ∧
        (t.firing ≠ none → exec (.clx g e a) s = .next (waits s 4))))) ∧
    exec (.sbset g a) s = .next (passed s (s.setBits c (opA s a)) 1) ∧
    (let act := opB s b
     let arm : Trigger := if act.toNat % 16 = 0 then {} else { armed := true, mask := opA s a, action := act }
     (i.toNat < k.trigCount → actionOk s k.bnd.gen act.toNat = true → (act.toNat % 16 = 0 ∨ opA s a ≠ 0) →
       exec (.sbarm g i a b) s = .next (passed s ((s.setCore c { k with trig := vset k.trig i.toNat arm }).checkTriggers c) 1)) ∧
     (k.trigCount ≤ i.toNat ∨ actionOk s k.bnd.gen act.toNat = false ∨ (act.toNat % 16 ≠ 0 ∧ opA s a = 0) →
       exec (.sbarm g i a b) s = .next (faults s (code 2))))

/-! ### The stream unit (R372 to R384) -/

/-- R374 to R377 with R382 and R383: a stream-unit word whose descriptor is translated and admitted in this package issues one operation; a DSADMIT
performs at the start of the next window, any other after the DSADMITs that its core issued before (R345) and otherwise at the model's free value
(Config.freeDelay); the register of a DSADMIT waits. A descriptor in another package, in an ELASTIC stope, gets the operation as a message, which is the
model's form of it (log 67, DESIGN CHOICE), once no operation of its core that goes elsewhere is left before it (R345). In a TIMED stope a DSADMIT with a register and every operation on a far descriptor are refused. DSCTX zero names no descriptor. -/
def Obligations.StreamUnitWords : Prop :=
  ∀ (g : BitVec 2) (d a b : BitVec 5) (x : BitVec 2) (s : State), Ready s [d, a, b] → x.toNat ≤ 2 →
    let c := s.curCore
    let k := here s
    let y := opB s b
    let base := k.dsAddr
    let issues := fun (r : Host.Outcome State Fault Refusal) (op cur : Nat) (rd : BitVec 5) (u v : Word64) =>
      (∀ pa, s.dsBase c op base.toNat = .ok pa → (base = 0 ∨ s.isRemote pa = false) → (s.elastic c = true ∨ op ≠ 0 ∨ rd = 0) →
        s.refuses c 1 256 (if base = 0 then [] else [pa]) false = false →
        ∃ t o, r = .next t ∧ t.dsops = s.dsops ++ [o] ∧ o.core = c ∧ o.op = op ∧ o.cur = cur ∧ o.rd = rd ∧ o.a = u ∧ o.b = v ∧ o.base = base ∧
          o.win = s.window ∧ o.far = false ∧ (∃ e ∈ t.agenda, e.act = .run .dsPerform (.nums [o.id]) ∧ e.at_ = o.at_) ∧ t.mem = s.mem ∧
          (op = 0 → o.at_ = s.winAt + 1700 ∧ (rd ≠ 0 → (t.core c).pendingReg rd.toNat = true)) ∧
          (op ≠ 0 → s.now < o.at_ ∧ ∀ q ∈ s.dsops, q.core = c → q.op = 0 → q.at_ ≤ o.at_)) ∧
      (∀ pa, s.dsBase c op base.toNat = .ok pa → base ≠ 0 → s.isRemote pa = true → s.elastic c = true → s.refuses c 1 256 [pa] false = false →
        (∀ q ∈ s.dsops, q.core = c → q.far = true ∧ q.pkg = paPkg pa) →
        ∃ t o m, r = .next t ∧ t.dsops = s.dsops ++ [o] ∧ o.far = true ∧ o.op = op ∧ t.outbox = s.outbox ++ [m] ∧ m.dst = paPkg pa ∧
          m.msg = .request s.window (.ds (64 * o.id) k.bnd.spid op cur s.window base u v) ∧ t.mem = s.mem ∧ (rd ≠ 0 → (t.core c).pendingReg rd.toNat = true)) ∧
      (∀ pa, s.dsBase c op base.toNat = .ok pa → s.elastic c = false → base ≠ 0 ∧ s.isRemote pa = true ∨ op = 0 ∧ rd ≠ 0 → r = .next (waits s 6))
    issues (exec (.dsadmit g d) s) 0 0 d 0 0 ∧
    issues (exec (.dsemit g a) s) 1 0 0 (opA s a) 0 ∧
    issues (exec (.dstrunc g d) s) 2 0 d 0 0 ∧
    issues (exec (.dscur g d x) s) 3 x.toNat d 0 0 ∧
    ((opA s a).toNat % 64 = 0 → issues (exec (.kvinv g a b) s) 4 0 0 (opA s a) y) ∧
    ((opA s a).toNat % 64 ≠ 0 → exec (.kvinv g a b) s = .next (faults s { code := 0x11, va := opA s a, kind := kindDs })) ∧
    (1 ≤ y.toNat % 128 → y.toNat % 128 ≤ 64 → y.toNat / 128 % 512 = 0 → y.toNat / 2 ^ 32 ≠ 0 → issues (exec (.kvaccept g a b) s) 5 0 0 (opA s a) y) ∧
    (y.toNat % 128 = 0 ∨ 64 < y.toNat % 128 ∨ y.toNat / 128 % 512 ≠ 0 ∨ y.toNat / 2 ^ 32 = 0 →
      exec (.kvaccept g a b) s = .next (faults s (code 2))) ∧
    issues (exec (.kvcommit g d) s) 6 0 d 0 0

/-! ### Headframe and bank words (R139, R295, R296, R312 to R314, R397) -/

/-- R139, R295, R296 and R397: the custom words of a hart, in S-mode or M-mode; in U-mode each is an illegal instruction, exception 2, taken as the
RISC-V privileged specification says (its registers and their places are PRESUMED from there, log 12). KRESUME of a window that holds a frozen stope
resumes it with the registers that have been written there, or is refused; a refused window may be resumed again (log 89, DEDUCED); any other value
names no window, and the word only retires. -/
def Obligations.HartWords : Prop :=
  ∀ (a b : BitVec 5) (s : State),
    let h := s.curHart
    let x := s.hart h
    let on := fun (t : State) => t.modHart h (fun y => { y with pc := y.pc + 4 })
    let illegal := s.hartTrap h 2 0
    (x.mode = 0 → exec (.ktlbi a b) s = .next illegal ∧ exec .ktlbf s = .next illegal ∧ exec (.kresume a) s = .next illegal) ∧
    (x.mode ≠ 0 →
      (∃ t, exec (.ktlbi a b) s = .next t ∧ t.harts = (on s).harts ∧ t.cores = s.cores ∧ t.mem = s.mem ∧
        (∃ e ∈ t.agenda, e.act = .run .tlbShootdownComplete (.nums [h])) ∧
        t.invals = s.invals ++ [(h, (x.reg b.toNat).toNat % 65536,
          if (x.reg b.toNat).getLsbD 16 then none else some (x.reg a.toNat).toNat)]) ∧
      (∃ t, exec .ktlbf s = .next t ∧ t.harts = (s.modHart h (fun y => { y with blocked := true })).harts ∧ t.ktlbf = s.ktlbf ++ [h] ∧
        t.cores = s.cores ∧ t.mem = s.mem ∧
        (∃ e ∈ t.agenda, e.act = .run .tlbShootdownComplete (.nums [h]) ∧ s.now < e.at_ ∧ e.at_ ≤ s.now + 2125)) ∧
      (windowAt (x.reg a.toNat) = none → exec (.kresume a) s = .next (on s)) ∧
      (∀ w p, windowAt (x.reg a.toNat) = some w →
        let y := s.win w.1 w.2
        (y.st = 1 ∨ y.st = 3 → exec (.kresume a) s = .next (on s)) ∧
        (y.st = 0 ∨ y.st = 2 → y.stope.bind (fun id => s.stopes.find? (fun t => t.id == id)) = some p →
          (s.refusedAt p y = none → ∃ t, exec (.kresume a) s = .next t ∧ (t.win w.1 w.2).st = 1 ∧ t.mem = s.mem ∧
            (t.hart h).pc = ((on s).hart h).pc ∧ (∃ e ∈ t.agenda, e.act = .run .release (.nums [p.id])) ∧
            (∀ c v, ∀ r : Nat, y.writes = [(c, 0x1000 + 8 * r, v)] → 0 < r → r < 32 → (t.core c).sval r = v)) ∧
          (∀ r, s.refusedAt p y = some r → ∃ t, exec (.kresume a) s = .next t ∧ (t.win w.1 w.2).st = 2 ∧ (t.win w.1 w.2).refCore = r % 512 ∧
            t.cores = s.cores ∧ t.mem = s.mem))))

/-- R137, R138, R312, R313, R314 and R315: one move of a running bank program. What each source port gives; what each destination port does with
it, the next move going on one cycle later unless its index reaches the move count; a port that is none, a nonzero immediate without IMM, a bad MODE or a
bad LOOP target stops the program with BANK_PROGRAM, a move to no destination before anything is read; DONE ends it. DEDUCED, not the rules' own words: reads come before
writes (log 118), a LOOP target is tested also when CNT is 0 (log 119), a poisoned read ends the program with POISON and a denied one with
ACCESS_DENIED (log 120). -/
def Obligations.MoveWords : Prop :=
  ∀ (src dst : BitVec 8) (imm : BitVec 16) (b : BitVec 5) (s : State) (e : Engine),
    s.curStrm = .bank b → ((here s).bank b.toNat).engine = some e →
    let c := s.curCore
    let k := here s
    let n := b.toNat
    let args := match e.req.job with | .prog _ _ _ l => l | _ => []
    let from_ := fun (p : Nat) => mvSource k c n e p imm
    let row := fun (w : Nat) => (k.portRead 3 (seamAddr n w) 32).data
    let why := fun (w : Nat) => if k.seamRead (coreMaster 2 c) (seamAddr n w) 32 = false then 0x13 else if (k.portRead 3 (seamAddr n w) 32).poison then 0x18 else 0
    let looked := fun (p : Nat) => if p = 0x10 then s.afterRead c 3 (seamAddr n e.aa) 32 else if p = 0x11 then s.afterRead c 3 (seamAddr n e.ab) 32 else s
    -- what the source ports give
    from_ 0 = some (.scalar 0, e, 0) ∧ from_ 1 = some (.scalar imm.toNat, e, 0) ∧
    (∀ i < 4, from_ (2 + i) = some (.scalar (args.getD i 0).toNat, e, 0)) ∧
    from_ 0x10 = some (.word (row e.aa), { e with aa := (e.aa + e.ainc) % 8192 }, why e.aa) ∧
    from_ 0x11 = some (.word (row e.ab), { e with ab := (e.ab + e.binc) % 8192 }, why e.ab) ∧
    from_ 0x14 = some (.scalar e.ainc, e, 0) ∧ from_ 0x15 = some (.scalar e.binc, e, 0) ∧
    from_ 0x18 = some (.scalar e.aa, e, 0) ∧ from_ 0x19 = some (.scalar e.ab, e, 0) ∧
    (∀ i < 12, from_ (0x40 + i) = some (.word (vget e.res i []), e, 0)) ∧
    from_ 0x60 = some (.scalar e.mode, e, 0) ∧ from_ 0x61 = some (.scalar e.cnt, e, 0) ∧
    (∀ p < 256, p ∉ [0, 1, 2, 3, 4, 5, 0x10, 0x11, 0x14, 0x15, 0x18, 0x19, 0x60, 0x61] → (p < 0x40 ∨ 0x4B < p) → from_ p = none) ∧
    let ports := [0, 0x12, 0x13, 0x14, 0x15, 0x18, 0x19, 0x60, 0x61, 0x62, 0x63]
    let lands := dst.toNat ∈ ports ∨ 0x20 ≤ dst.toNat ∧ dst.toNat ≤ 0x37
    -- moves that stop the program: one to no destination before anything is read
    (¬ lands → exec (.mv src dst imm) s = .next (s.endProgram c n e 0x17)) ∧
    (src ≠ 1 → imm ≠ 0 → exec (.mv src dst imm) s = .next (s.endProgram c n e 0x17)) ∧
    (src = 1 ∨ imm = 0 → from_ src.toNat = none → exec (.mv src dst imm) s = .next (s.endProgram c n e 0x17)) ∧
    (∀ v e1, lands → src = 1 ∨ imm = 0 → from_ src.toNat = some (v, e1, 0x13) → exec (.mv src dst imm) s = .next (s.endProgram c n e 0x13)) ∧
    (∀ v e1, lands → src = 1 ∨ imm = 0 → from_ src.toNat = some (v, e1, 0x18) → exec (.mv src dst imm) s = .next ((looked src.toNat).endProgram c n e 0x18)) ∧
    -- what the destination ports do
    (∀ v e1, src = 1 ∨ imm = 0 → from_ src.toNat = some (v, e1, 0) →
      let t := looked src.toNat
      let w := v.toWord e1.mode
      let x := v.toScalar
      let goes := fun (u : State) (e2 : Engine) (nx : Nat) => exec (.mv src dst imm) s = .next
        (if e.code.length ≤ nx then u.endProgram c n e2 0x17
         else (u.modBank c n (fun y => { y with engine := some { e2 with idx := nx } })).postMove c n (u.now + 1))
      let stores := fun (a : Nat) => t.modBank c n (fun y => { y with writes := y.writes ++
        [({ src := e.req.src, iseq := e.req.iseq, addr := seamAddr n a, data := w, sel := [], tag := e.req.tag } : BankWrite)] })
      let nx := e1.idx + 1
      (dst = 0 → goes t e1 nx) ∧
      (dst = 0x12 → goes (stores e1.aa) { e1 with aa := (e1.aa + e1.ainc) % 8192 } nx) ∧
      (dst = 0x13 → goes (stores e1.ab) { e1 with ab := (e1.ab + e1.binc) % 8192 } nx) ∧
      (dst = 0x14 → goes t { e1 with ainc := x % 8192 } nx) ∧ (dst = 0x15 → goes t { e1 with binc := x % 8192 } nx) ∧
      (dst = 0x18 → goes t { e1 with aa := x % 8192 } nx) ∧ (dst = 0x19 → goes t { e1 with ab := x % 8192 } nx) ∧
      (∀ u < 12, dst.toNat = 0x20 + 2 * u → goes t { e1 with ops := vset e1.ops u w } nx) ∧
      (∀ u < 12, dst.toNat = 0x21 + 2 * u →
        goes (t.orBflags c (unitWord u e1.mode w (vget e1.ops u [])).2) { e1 with res := vset e1.res u (unitWord u e1.mode w (vget e1.ops u [])).1 } nx) ∧
      (dst = 0x60 → x % 65536 ∈ [0, 1, 2, 4, 5, 6] → goes t { e1 with mode := x % 65536 } nx) ∧
      (dst = 0x60 → x % 65536 ∉ [0, 1, 2, 4, 5, 6] → exec (.mv src dst imm) s = .next (t.endProgram c n e 0x17)) ∧
      (dst = 0x61 → goes t { e1 with cnt := x } nx) ∧
      (dst = 0x62 → x < 128 → x < e1.code.length → goes t (if 0 < e1.cnt then { e1 with cnt := e1.cnt - 1 } else e1) (if 0 < e1.cnt then x else nx)) ∧
      (dst = 0x62 → 128 ≤ x ∨ e1.code.length ≤ x → exec (.mv src dst imm) s = .next (t.endProgram c n e 0x17)) ∧
      (dst = 0x63 → exec (.mv src dst imm) s = .next (t.endProgram c n e1 0)))

/-! ### Vector words (R205 to R235, R316 to R323) -/

namespace Sys2Proof.Claims

/-- Nothing that a vector word waits for is outstanding on the core in issue: no mask among `ms`, no row from another package (R228, R320). -/
def Settled (s : State) (ms : List Nat) : Prop :=
  (here s).maskPending ms = false ∧ ∀ j ∈ s.joins, j.core = s.curCore → j.due ≠ 0
/-- The repeat in issue can run: its operands are legal, its sources hold rows `a` and `b` (read, or popped, which leaves `t`), its destination
queue has room, and no error stands in the core's spaces (R206 to R211). -/
structure Runs (s : State) (v : VWord) (fm : VForm) (t : State) (a b : List (List Byte)) : Prop where
  form : formOk v fm = true
  settled : Settled s (v.mask.toNat :: fm.masks)
  reads : ∃ u, readSrc s s.curCore fm.bits v.a (here s).ve.sub fm.aRows = some (u, a) ∧
    readSrc u s.curCore fm.bits v.b (here s).ve.sub fm.bRows = some (t, b)
  room : fm.dRows ≠ 0 → dstRoom s s.curCore v.d fm.dRows = true
  sound : Sound (here s)
/-- What the repeat computes from. -/
def envOf (s t : State) (v : VWord) (fm : VForm) (a b : List (List Byte)) : VEnv := vEnv t s.curCore (here s).ve.sub v fm a b
/-- The repeat has issued: its result rows and flags are on their way to D, readable `q - 1 + L` cycles after issue, and the next repeat, or
the next word, follows (R90, R206, R208). -/
def sends (s t : State) (v : VWord) (fm : VForm) (rows : List (List Byte)) (flags : Nat) : State :=
  let u : State := if v.d.reg = 2041#11 then { t with free := t.free + 256 } else t
  (u.sendRows t.curCore (fm.q - 1 + fm.lat) fm.dty v.d (here s).ve.sub rows flags).repeatDone s.curCore fm.q (repsOf v)
/-- The same for a word whose result is a mask. -/
def masks (s t : State) (fm : VForm) (md val : Nat) : State :=
  (t.sendMask t.curCore (fm.q - 1 + fm.lat) md val 0).repeatDone s.curCore fm.q 1
/-- Elements of a row. -/
def elems (v : VWord) (rows : List (List Byte)) : List Nat := elemsOf (tyBits v.ty.toNat) rows.flatten
/-- The element type's value of a pattern (R140). -/
def val (v : VWord) (x : Nat) : Int :=
  let w := tyBits v.ty.toNat
  if v.ty.toNat % 2 = 0 then (BitVec.ofNat w x).toInt else ((x % 2 ^ w : Nat) : Int)
/-- Least and greatest value of an integer element type. -/
def least (v : VWord) : Int := if v.ty.toNat % 2 = 0 then -(2 ^ (tyBits v.ty.toNat - 1)) else 0
def greatest (v : VWord) : Int := if v.ty.toNat % 2 = 0 then 2 ^ (tyBits v.ty.toNat - 1) - 1 else 2 ^ tyBits v.ty.toNat - 1
/-- NARROW by wrapping, with IW; by saturation, with SAT (R160). -/
def wraps (v : VWord) (x : Int) : Nat × Nat :=
  ((x % 2 ^ tyBits v.ty.toNat).toNat, if x < least v ∨ greatest v < x then 16 else 0)
def saturates (v : VWord) (x : Int) : Nat × Nat :=
  if x < least v then ((least v % 2 ^ tyBits v.ty.toNat).toNat, 32)
  else if greatest v < x then ((greatest v % 2 ^ tyBits v.ty.toNat).toNat, 32) else ((x % 2 ^ tyBits v.ty.toNat).toNat, 0)
/-- The type is an integer type of the vector stream. -/
def ints (v : VWord) : Bool := decide (v.ty.toNat ≤ 5)

end Sys2Proof.Claims

/-- R209: in an elementwise result an active element holds the computed value, an inactive one the destination's old element or, with bit [79],
zero; only active elements raise flags. -/
def Obligations.ElementRule : Prop :=
  ∀ (w : Nat) (e : VEnv) (f : Nat → Nat → Nat → Nat → Nat × Nat) (n : Nat), (w = 8 ∨ w = 16 ∨ w = 32) →
    e.a.flatten.length = 256 → e.b.flatten.length = 256 → e.d.flatten.length = 256 → n < 2048 / w →
    let x := (elemsOf w e.a.flatten).getD n 0
    let y := (elemsOf w e.b.flatten).getD n 0
    let z := (elemsOf w e.d.flatten).getD n 0
    (elemsOf w (mapElems w e f).1).getD n 0 % 2 ^ w = (if e.act n then (f n x y z).1 % 2 ^ w else if e.zeroing then 0 else z) ∧
    (mapElems w e f).1.length = 256 ∧
    (e.act n = true → (f n x y z).2 &&& (mapElems w e f).2 = (f n x y z).2) ∧
    ((∀ j, e.act j = false) → (mapElems w e f).2 = 0)

/-- R214, R215 and R232: the elementwise words. Integer elements are exact values narrowed by wrapping (R159) or by saturation (R160); the
transcendental functions are the exactly rounded ones of R162, and where the model's enclosing interval does not decide the rounding, a free value
(log 100, DESIGN CHOICE). -/
def Obligations.ElementwiseWords : Prop :=
  ∀ (v : VWord) (s t : State) (a b : List (List Byte)),
    let w := tyBits v.ty.toNat
    let F := fmtOf v.ty.toNat
    let run := fun (i : Instr) (fm : VForm) (f : Nat → Nat → Nat → Nat → Nat × Nat) =>
      i.wf = true → Runs s v fm t a b →
        exec i s = .next (sends s t v fm [(mapElems w (envOf s t v fm a b) (fun _ x y z => f v.rnd.toNat x y z)).1]
          (mapElems w (envOf s t v fm a b) (fun _ x y z => f v.rnd.toNat x y z)).2)
    let fd : VForm := { formOf v with readD := true }
    let f8 : VForm := { formOf2 v with lat := 8 }
    let amount := v.ext.toNat % 32
    let imm := v.ext.toNat / 2 ^ 23 % 2 = 1
    run (.vmov v) (formOf2 v) (fun _ x _ _ => (x, 0)) ∧
    (ints v = true →
      run (.vadd v) (formOf v) (fun _ x y _ => wraps v (val v x + val v y)) ∧
      run (.vsub v) (formOf v) (fun _ x y _ => wraps v (val v x - val v y)) ∧
      run (.vmul v) (formOf v) (fun _ x y _ => wraps v (val v x * val v y)) ∧
      run (.vmin v) (formOf v) (fun _ x y _ => (if val v y < val v x then y else x, 0)) ∧
      run (.vmax v) (formOf v) (fun _ x y _ => (if val v x < val v y then y else x, 0)) ∧
      run (.vabs v) (formOf2 v) (fun _ x _ _ => wraps v (if val v x < 0 then -(val v x) else val v x)) ∧
      run (.vneg v) (formOf2 v) (fun _ x _ _ => wraps v (-(val v x))) ∧
      run (.vadds v) (formOf v) (fun _ x y _ => saturates v (val v x + val v y)) ∧
      run (.vsubs v) (formOf v) (fun _ x y _ => saturates v (val v x - val v y)) ∧
      run (.vmulh v) (formOf v) (fun _ x y _ => ((val v x * val v y % 2 ^ (2 * w)).toNat / 2 ^ w, 0)) ∧
      (¬ imm → run (.vshl v) (formOf v) (fun _ x y _ => (if w ≤ y then 0 else x * 2 ^ y % 2 ^ w, 0)) ∧
        run (.vshr v) (formOf v) (fun _ x y _ => (if w ≤ y then 0 else x / 2 ^ y, 0)) ∧
        run (.vsar v) (formOf v) (fun _ x y _ => (((BitVec.ofNat w x).sshiftRight y).toNat, 0))) ∧
      (imm → run (.vshl v) (formOf2 v) (fun _ x _ _ => (if w ≤ amount then 0 else x * 2 ^ amount % 2 ^ w, 0)) ∧
        run (.vshr v) (formOf2 v) (fun _ x _ _ => (if w ≤ amount then 0 else x / 2 ^ amount, 0)) ∧
        run (.vsar v) (formOf2 v) (fun _ x _ _ => (((BitVec.ofNat w x).sshiftRight amount).toNat, 0)))) ∧
    (ints v = false →
      run (.vadd v) (formOf v) (fun m x y _ => fpAdd F m x y) ∧
      run (.vsub v) (formOf v) (fun m x y _ => fpSub F m x y) ∧
      run (.vmul v) (formOf v) (fun m x y _ => fpMul F m x y) ∧
      run (.vfma v) fd (fun m x y z => fpFma F m x y z false) ∧
      run (.vfms v) fd (fun m x y z => fpFma F m x y z true) ∧
      run (.vmin v) (formOf v) (fun _ x y _ => fpMinMax F false x y) ∧
      run (.vmax v) (formOf v) (fun _ x y _ => fpMinMax F true x y) ∧
      run (.vabs v) (formOf2 v) (fun _ x _ _ => (if (F.decode x).isNan then F.qnan else x % 2 ^ (w - 1), 0)) ∧
      run (.vneg v) (formOf2 v) (fun _ x _ _ => (if (F.decode x).isNan then F.qnan else x ^^^ 2 ^ (w - 1), 0)) ∧
      run (.vexp2 v) f8 (fun _ x _ _ => fpExp2 x) ∧ run (.vlog2 v) f8 (fun _ x _ _ => fpLog2 x) ∧
      run (.vrcp v) f8 (fun _ x _ _ => fpDiv fp32 0 0x3F800000 x) ∧ run (.vrsq v) f8 (fun _ x _ _ => fpRsq x)) ∧
    run (.vand v) (formOf v) (fun _ x y _ => (x &&& y, 0)) ∧
    run (.vor v) (formOf v) (fun _ x y _ => (x ||| y, 0)) ∧
    run (.vxor v) (formOf v) (fun _ x y _ => (x ^^^ y, 0)) ∧
    run (.vnot v) (formOf2 v) (fun _ x _ _ => (2 ^ w - 1 - x, 0))

/-- R216 and R227: selection, comparison, clamps and the mask words. -/
def Obligations.MaskWords : Prop :=
  ∀ (v : VWord) (s t : State) (a b : List (List Byte)),
    let w := tyBits v.ty.toNat
    let n := 2048 / w
    let k := here s
    let md := v.ext.toNat / 2 ^ 20 % 16
    let m1 := v.ext.toNat / 2 ^ 16 % 16
    let m2 := v.ext.toNat / 2 ^ 12 % 16
    let bit := fun (m j : Nat) => (k.mval m).getLsbD j
    let fs : VForm := { formOf v with masks := [md] }
    let fc : VForm := { formOf v with dRows := 0, masks := [md] }
    let fu : VOp := { reg := BitVec.ofNat 11 (v.ext.toNat % 2048), stride := v.b.stride }
    let fx : VForm := { formOf v with more := [fu] }
    let fm : VForm := { formOf2 v with dRows := 0, masks := [md] }
    let fl : VForm := { formOf2 v with aRows := 0, dRows := 0, masks := [md, m1, m2] }
    let fr : VForm := { formOf2 v with aRows := 0, dty := 4, masks := [m1] }
    let set := fun (r : Host.Outcome State Fault Refusal) (f : VForm) (p : Nat → Bool) =>
      ∃ x : Nat, r = .next (masks s t f md x) ∧ x < 2 ^ 256 ∧ ∀ j < 256, x.testBit j = p j
    let xs := elems v a
    let ys := elems v b
    ((Instr.vsel v).wf = true → Runs s v fs t a b → ∃ row, exec (.vsel v) s = .next (sends s t v fs [row] 0) ∧
      row = (mapElems w (envOf s t v fs a b) (fun j x y _ => (if bit md j then x else y, 0))).1) ∧
    ((Instr.vcmp v).wf = true → Runs s v fc t a b → md ≠ 0 →
      set (exec (.vcmp v) s) fc (fun j => decide (j < n) &&
        (if (k.lanesNow (k.curWord .vector)).getLsbD j then
          (if ints v then intCmp (v.ext.toNat / 2 ^ 17 % 8) (val v ((xs.zip ys).getD j (0, 0)).1) (val v ((xs.zip ys).getD j (0, 0)).2)
           else fpCmp (fmtOf v.ty.toNat) (v.ext.toNat / 2 ^ 17 % 8) ((xs.zip ys).getD j (0, 0)).1 ((xs.zip ys).getD j (0, 0)).2)
         else decide (v.zero = 0) && bit md j))) ∧
    ((Instr.vclamp v).wf = true → Runs s v fx t a b → isReg fu = true → inRange fu (repsOf v) 1 = true →
      let us := elemsOf w (t.vRow s.curCore (rowOf fu (here s).ve.sub 0).toNat)
      let clamp := fun (j x y : Nat) =>
        if ints v then
          let hi := if val v x < val v y then y else x
          (if val v (us.getD j 0) < val v hi then us.getD j 0 else hi, 0)
        else
          let hi := fpMinMax (fmtOf v.ty.toNat) true x y
          let r := fpMinMax (fmtOf v.ty.toNat) false hi.1 (us.getD j 0)
          (r.1, hi.2 ||| r.2)
      exec (.vclamp v) s = .next (sends s t v fx [(mapElems w (envOf s t v fx a b) (fun j x y _ => clamp j x y)).1]
        (mapElems w (envOf s t v fx a b) (fun j x y _ => clamp j x y)).2)) ∧
    ((Instr.vclamp v).wf = true → formOk v fx = true → (isReg fu = false ∨ inRange fu (repsOf v) 1 = false) →
      exec (.vclamp v) s = .next (s.raiseIn s.curCore { code := 2, source := 1 } .vector k.vectorEntry)) ∧
    ((Instr.vmset v).wf = true → Runs s v fm t a b → set (exec (.vmset v) s) fm (fun j => decide (j < n) &&
      (if ints v then decide (xs.getD j 0 ≠ 0) else decide (xs.getD j 0 % 2 ^ (w - 1) ≠ 0)))) ∧
    ((Instr.vmrow v).wf = true → Runs s v fm t a b → set (exec (.vmrow v) s) fm (fun j => (leNat (a.flatten.take 32)).testBit j)) ∧
    ((Instr.vmlog v).wf = true → Runs s v fl t a b → set (exec (.vmlog v) s) fl (fun j =>
      match v.ext.toNat / 2 ^ 8 % 16 with
      | 0 => bit m1 j && bit m2 j
      | 1 => bit m1 j || bit m2 j
      | 2 => bit m1 j != bit m2 j
      | 3 => bit m1 j && !bit m2 j
      | _ => !bit m1 j)) ∧
    ((Instr.vmcnt v).wf = true → Runs s v fr t a b → v.d.reg ≠ 2042#11 → exec (.vmcnt v) s = .next (sends s t v fr
      [leBytes 4 ((List.range n).countP (fun j => bit m1 j)) ++ List.replicate 252 0] 0)) ∧
    ((Instr.vmfirst v).wf = true → Runs s v fr t a b → v.d.reg ≠ 2042#11 → ∃ x : Int, exec (.vmfirst v) s = .next (sends s t v fr
        [leBytes 4 (x % 2 ^ 32).toNat ++ List.replicate 252 0] 0) ∧
      (x = -1 ∧ (∀ j < n, bit m1 j = false) ∨ 0 ≤ x ∧ x.toNat < n ∧ bit m1 x.toNat = true ∧ ∀ j < x.toNat, bit m1 j = false)) ∧
    -- QV2M is no destination of these two (R227)
    (v.d.reg = 2042#11 →
      ((Instr.vmcnt v).wf = true → exec (.vmcnt v) s = .next (s.raiseIn s.curCore { code := 2, source := 1 } .vector k.vectorEntry)) ∧
      ((Instr.vmfirst v).wf = true → exec (.vmfirst v) s = .next (s.raiseIn s.curCore { code := 2, source := 1 } .vector k.vectorEntry)))

/-- R217 to R222: short dot products, reductions and scans by segments, and moves within a row. That a NaN in the first element of a VSCAN's segment is
made canonical, with NV, is DEDUCED (log 55). -/
def Obligations.RowWords : Prop :=
  ∀ (v : VWord) (s t : State) (a b : List (List Byte)),
    let w := tyBits v.ty.toNat
    let n := 2048 / w
    let k := here s
    let ty := v.ty.toNat
    let fd : VForm := { formOf v with dty := 4, readD := true }
    let fr : VForm := { formOf2 v with lat := 6, merges := false }
    let e := fun (fm : VForm) => envOf s t v fm a b
    let per := 32 / w
    let dot := fun (f : Int → Int → Int) (j : Nat) =>
      ((List.range per).map (fun x => f (val v ((elems v a).getD (per * j + x) 0)) (BitVec.ofNat w ((elems v b).getD (per * j + x) 0)).toInt)).sum
    let dots := fun (r : Host.Outcome State Fault Refusal) (f : Int → Int → Int) =>
      ∃ row fl, r = .next (sends s t v fd [row] fl) ∧ row.length = 256 ∧ ∀ j < 64,
        let old := (elemsOf 32 (e fd).d.flatten).getD j 0
        (elemsOf 32 row).getD j 0 =
          if (e fd).act j then (((BitVec.ofNat 32 old).toInt + dot f j) % 2 ^ 32).toNat else if v.zero = 1 then 0 else old
    let seg := fun (idn : Nat) (lanes : Nat) => segments ty (e fr) (lanes * 32 / w) idn
    let reduces := fun (r : Host.Outcome State Fault Refusal) (lanes idn : Nat) (f : List Nat → Nat × Nat) =>
      r = .next (sends s t v fr [packElems w ((seg idn lanes).flatMap (fun l => (f l).1 :: List.replicate (l.length - 1) 0))]
        ((seg idn lanes).foldl (fun x l => x ||| (f l).2) 0))
    let moves := fun (r : Host.Outcome State Fault Refusal) (fm : VForm) (width : Nat) (f : Nat → Nat) =>
      r = .next (sends s t v fm [mergeElems width (e fm) ((List.range (2048 / width)).map f)] 0)
    let off := (BitVec.ofNat 7 v.ext.toNat).toInt
    let pick := fun (j : Nat) =>
      let x := (j : Int) + off
      if x < 0 then (elems v b).getD (x + n).toNat 0 else if x < n then (elems v a).getD x.toNat 0 else (elems v b).getD (x - n).toNat 0
    (a.flatten.length = 256 → b.flatten.length = 256 → (e fd).d.flatten.length = 256 →
      ((Instr.vdot4 v).wf = true → Runs s v fd t a b → dots (exec (.vdot4 v) s) (fun x y => x * y)) ∧
      ((Instr.vtacc v).wf = true → Runs s v fd t a b → dots (exec (.vtacc v) s) (fun x y => y.sign * x))) ∧
    (∀ lanes, k.segLanes v = some lanes →
      ((Instr.vrsum v).wf = true → Runs s v fr t a b → (ints v = true → reduces (exec (.vrsum v) s) lanes 0 (intTree ty false)) ∧
        (ints v = false → reduces (exec (.vrsum v) s) lanes 0 (fpTree (fmtOf ty) v.rnd.toNat))) ∧
      ((Instr.vrsums v).wf = true → Runs s v fr t a b → reduces (exec (.vrsums v) s) lanes 0 (intTree ty true)) ∧
      ((Instr.vrmax v).wf = true → Runs s v fr t a b →
        reduces (exec (.vrmax v) s) lanes (if ints v then (least v % 2 ^ w).toNat else (fmtOf ty).infBits true) (extreme ty true)) ∧
      ((Instr.vrmin v).wf = true → Runs s v fr t a b →
        reduces (exec (.vrmin v) s) lanes (if ints v then (greatest v % 2 ^ w).toNat else (fmtOf ty).infBits false) (extreme ty false)) ∧
      ((Instr.vscan v).wf = true → Runs s v fr t a b → ints v = true → ∃ fl,
        exec (.vscan v) s = .next (sends s t v fr [packElems w ((seg 0 lanes).flatMap (fun l =>
          (List.range l.length).map (fun j => (((l.take (j + 1)).map (val v)).sum % 2 ^ w).toNat)))] fl)) ∧
      ((Instr.vscan v).wf = true → Runs s v fr t a b → ints v = false →
        let sums := fun (l : List Nat) =>
          match l with
          | [] => ([], 0)
          | x :: xs =>
            -- a NaN in the first place is made canonical, as every sum's is (R141; log 55)
            let y := if ((fmtOf ty).decode x).isNan then ((fmtOf ty).qnan, 1) else (x, 0)
            let r := scanGo (fun p q => fpAdd (fmtOf ty) v.rnd.toNat p q) y.1 xs
            (y.1 :: r.1, y.2 ||| r.2)
        exec (.vscan v) s = .next (sends s t v fr [packElems w ((seg 0 lanes).flatMap (fun l => (sums l).1))]
          ((seg 0 lanes).foldl (fun x l => x ||| (sums l).2) 0)))) ∧
    (k.segLanes v = none → (Instr.vrsum v).wf = true →
      exec (.vrsum v) s = .next (s.raiseIn s.curCore { code := 2, source := 1 } .vector k.vectorEntry)) ∧
    ((Instr.vpermb v).wf = true → Runs s v (formOf v) t a b → b.flatten.length = 256 →
      moves (exec (.vpermb v) s) (formOf v) 8 (fun j => (a.flatten.getD (b.flatten.getD j 0).toNat 0).toNat)) ∧
    ((Instr.vpermw v).wf = true → Runs s v (formOf v) t a b → b.flatten.length = 256 →
      moves (exec (.vpermw v) s) (formOf v) 32 (fun j =>
        let x := (elemsOf 32 b.flatten).getD j 0
        if x ≤ 63 then (elemsOf 32 a.flatten).getD x 0 else 0)) ∧
    ((Instr.vslide v).wf = true → Runs s v (formOf v) t a b → moves (exec (.vslide v) s) (formOf v) w pick) ∧
    ((Instr.vbcast v).wf = true → Runs s v (formOf2 v) t a b → v.ext.toNat % 256 < n →
      moves (exec (.vbcast v) s) (formOf2 v) w (fun _ => (elems v a).getD (v.ext.toNat % 256) 0))

/-- R223 with R149, R150 and R155, and R225 with R145: VCVT over its rows, and VUNT5 with the flags it leaves in a mask. -/
def Obligations.ConversionWords : Prop :=
  ∀ (v : VWord) (s t : State) (a b : List (List Byte)),
    let c := s.curCore
    let k := here s
    let i := k.ve.sub
    let ty := v.ty.toNat
    let w := tyBits ty
    let n := 2048 / w
    let dst := v.ext.toNat / 2 ^ 20 % 16
    let g := max (elemCount ty / elemCount dst) (elemCount dst / elemCount ty)
    let wide := decide (elemCount dst < elemCount ty)
    let fc : VForm := { formOf2 v with aRows := if wide then 1 else g, dRows := if wide then g else 1, q := g, dty := dst }
    let e := fun (fm : VForm) => envOf s t v fm a b
    -- bit [19] saturates where the conversion narrows; E2M1 always saturates
    let sat := v.ext.toNat / 2 ^ 19 % 2 = 1 ∧ fpExact ty dst = false ∨ dst = 12
    let rs := ((elemsOf w a.flatten).zip (unpackElems (tyBits dst) (e fc).d.flatten)).mapIdx (fun j x =>
      if (e fc).act (if tyBits dst = 4 then j / 2 else j) then
        convert ty x.1 dst v.rnd.toNat (decide sat) (srDraw k.key (v.ext.toNat % 2 ^ 16) i j)
      else (if v.zero = 1 then 0 else x.2, 0))
    let f5 : VForm := { formOf2 v with masks := [dst] }
    let nb := (n + 4) / 5
    let bytes := (a.flatten.take nb).map (fun x => trit5 x.toNat)
    let row := mergeElems w (e f5) (((bytes.flatMap Prod.fst).take n).map (wrapTo w))
    let before := if i = 0 then 0 else (k.ve.kept maskKey).getD (k.mval dst).toNat
    ((Instr.vcvt v).wf = true → Runs s v fc t a b →
      exec (.vcvt v) s = .next (sends s t v fc (cutRows (repackElems (tyBits dst) (rs.map Prod.fst))) (rs.foldl (fun x r => x ||| r.2) 0))) ∧
    ((Instr.vunt5 v).wf = true → Runs s v f5 t a b → dst ≠ 0 → ∃ bad : Nat, bad < 2 ^ 256 ∧
      (∀ j < 256, bad.testBit j = (decide (j < nb) && !(bytes.getD j ([], true)).2 &&
        (List.range 5).any (fun m => decide (5 * j + m < n) && (e f5).act (5 * j + m)))) ∧
      (let u : State := if v.d.reg = 2041#11 then { t with free := t.free + 256 } else t
       exec (.vunt5 v) s = .next ((((u.sendRows c 4 ty v.d i [row] (if bad = 0 then 0 else 0x80)).sendMask c 4 dst (before ||| bad) 0).forwardRow c
         maskKey (maskBytes (before ||| bad))).repeatDone c 1 (repsOf v)))) ∧
    ((Instr.vunt5 v).wf = true → formOk v f5 = true → dst = 0 →
      exec (.vunt5 v) s = .next (s.raiseIn c { code := 2, source := 1 } .vector k.vectorEntry))

/-- R142, R143, R146, R155, R224 and R226: MXFP4 rows with their scale bytes, and bit-planes. That B of a VQMX must be a register or ZERO, else
ILLEGAL_OPERAND, is DEDUCED (log 84). -/
def Obligations.PackedFormatWords : Prop :=
  ∀ (v : VWord) (s t : State) (a b : List (List Byte)),
    let c := s.curCore
    let k := here s
    let i := k.ve.sub
    let planes := v.ext.toNat % 8 + 1
    let rows := (64 * planes + 255) / 256
    let fp : VForm := { aRows := 2, bRows := 0, dRows := rows, q := 2, bits := 8, dty := 0 }
    let fj : VForm := { aRows := rows, bRows := 0, dRows := 2, q := 2, bits := 8, dty := 0 }
    -- a result of VQMX that goes to QV2S is its first 4-bit element, zero-extended (R208)
    let fq : VForm := { aRows := 8, bRows := 0, dRows := 1, q := 8, bits := 32, dty := 12 }
    let dst := v.ext.toNat / 2 ^ 20 % 16
    let dk := if dst = 7 then 8 else 4
    let fdq : VForm := { dRows := dk, q := dk, bits := 8, dty := dst }
    let blocks := (chunksOf 32 16 (elemsOf 32 a.flatten)).mapIdx (fun j x =>
      mxBlock v.rnd.toNat (fun m => srDraw k.key (v.ext.toNat % 2 ^ 16) i (32 * j + m)) x)
    let packed := packNibbles (blocks.flatMap (fun x => x.2.1))
    let flags := blocks.foldl (fun x y => x ||| y.2.2) 0
    let scales := blocks.map (fun x => BitVec.ofNat 8 x.1)
    let u : State := if v.d.reg = 2041#11 then { t with free := t.free + 256 } else t
    let done := u.sendRows c 15 12 v.d i [packed] flags
    let r := (rowOf v.b i 0).toNat
    let full := rowWith (done.vRow c r) (16 * (i % 16)) scales
    ((Instr.vqmx v).wf = true → Runs s v fq t a b → v.b.reg = 2044#11 → exec (.vqmx v) s = .next (sends s t v fq [packed] flags)) ∧
    ((Instr.vqmx v).wf = true → Runs s v fq t a b → isReg v.b = true → inRange v.b (repsOf v) 1 = true →
      exec (.vqmx v) s = .next (((done.sendSel c 15 (.row r) full (selBytes (16 * (i % 16)) 16) 0).forwardRow c r full).repeatDone c 8 (repsOf v))) ∧
    ((Instr.vqmx v).wf = true → formOk v fq = true → v.b.reg ≠ 2044#11 → (isReg v.b = false ∨ inRange v.b (repsOf v) 1 = false) →
      exec (.vqmx v) s = .next (s.raiseIn c { code := 2, source := 1 } .vector k.vectorEntry)) ∧
    ((Instr.vdqmx v).wf = true → Runs s v fdq t a b →
      let xs := (nibblesOf a.flatten).mapIdx (fun n x => (fmtOf dst).pack 0 false 0 (mxVal (b.flatten.getD (16 * (i % 16) + n / 32) 0).toNat x))
      exec (.vdqmx v) s = .next (sends s t v fdq (cutRows (packElems (tyBits dst) (xs.map Prod.fst))) (xs.foldl (fun x r => x ||| r.2) 0))) ∧
    ((Instr.vnbps v).wf = true → Runs s v fp t a b → ∃ out, exec (.vnbps v) s = .next (sends s t v fp (cutRows out) 0) ∧
      (a.flatten.length = 512 → out.length = 256 * rows ∧
        ∀ j < planes, ∀ m < 512, (out.getD (64 * j + m / 8) 0).getLsbD (m % 8) = (a.flatten.getD m 0).getLsbD (7 - j))) ∧
    ((Instr.vnbpj v).wf = true → Runs s v fj t a b → ∃ out, exec (.vnbpj v) s = .next (sends s t v fj (cutRows out) 0) ∧ out.length = 512 ∧
      (a.flatten.length = 256 * rows → ∀ m < 512,
        (∀ j < planes, (out.getD m 0).getLsbD (7 - j) = (a.flatten.getD (64 * j + m / 8) 0).getLsbD (m % 8)) ∧
        -- the midpoint of what the missing planes leave open (R146)
        (∀ j, planes ≤ j → j < 8 → (out.getD m 0).getLsbD (7 - j) = decide (j = planes))))

/-- R229 to R231: shortlists, sampling and random rows. Where every eligible value of a VSAMPLE is -inf the drawn index is a free value of the
model (Config.freeWord; log 20). That VSAMPLE pops its seed with its other operands, and which flags it sets, is DEDUCED (log 108). -/
def Obligations.SamplingWords : Prop :=
  ∀ (v : VWord) (s t : State) (a b : List (List Byte)),
    let c := s.curCore
    let k := here s
    let i := k.ve.sub
    let h := repsOf v
    let q := 2 * h + 16
    let ty := v.ty.toNat
    let ms := v.ext.toNat / 2 ^ 20 % 16
    let fs : VForm := { q := 8, bits := 32, dty := 4, merges := false }
    let fr : VForm := { formOf v with aRows := 0, bRows := 0 }
    let d := v.d.reg.toNat
    ((Instr.vshort v).wf = true → srcOk v.a h 1 = true → d + 2 ≤ 1536 → ms ≠ 0 → Settled s [ms] → Sound k →
      ∀ (s1 s2 : State) (rows : List (List Byte)) (base : Nat),
      (if isReg v.a then s1 = s ∧ rows = (List.range h).map (fun r => s.vRow c (rowOf v.a r 0).toNat)
       else readSrc s c (tyBits ty) v.a 0 h = some (s1, rows)) →
      -- positions are counted from 0, or from what QS2V holds
      (v.b.reg = 2044#11 ∧ s2 = s1 ∧ base = 0 ∨
       v.b.reg = 2040#11 ∧ ∃ p x rest, (s1.core c).qs2v.items = (p, x) :: rest ∧ p < s.now ∧ base = x.toNat ∧
         s2 = s1.setCore c { s1.core c with qs2v := (s1.core c).qs2v.pop s.now }) →
      let raw := elemsOf (tyBits ty) rows.flatten
      let xs := if ty = 6 then raw.map (fun x => if isNan (x * 65536) then 0x7FC00000 else x * 65536) else raw
      let r := shortlist xs (v.ext.toNat % 2 ^ 16)
      exec (.vshort v) s = .next ((((s2.sendV c (q + 3) (.row d) (packElems 32 (r.list.map (fun p => xs.getD p 0)))
          (r.flags ||| if r.slow then 0x40 else 0)).sendV c (q + 3) (.row (d + 1)) (packElems 32 (r.list.map (fun p => (base + p) % 2 ^ 32))) 0).sendMask c
            (q + 3) ms (((k.mval ms).toNat * 2 + if r.slow then 1 else 0) % 2 ^ 256) 0).repeatDone c q 1)) ∧
    ((Instr.vshort v).wf = true → (ms = 0 ∨ 1536 < d + 2) →
      exec (.vshort v) s = .next (s.raiseIn c { code := 2, source := 1 } .vector k.vectorEntry)) ∧
    ((Instr.vsample v).wf = true → v.d.reg = 2042#11 → exec (.vsample v) s = .next (s.raiseIn c { code := 2, source := 1 } .vector k.vectorEntry)) ∧
    ((Instr.vsample v).wf = true → Runs s v fs t a b → v.d.reg ≠ 2042#11 → ∀ p x rest, (t.core c).qs2v.items = (p, x) :: rest → p < s.now → seedReady s c v = true →
      ∃ (u : State) (row : List Byte) (f : Nat), exec (.vsample v) s = .next ((u.sendRows c 11 4 v.d i [row] f).repeatDone c 8 h) ∧ u.now = t.now ∧
        (u.core c).qs2v.items = rest ∧
        (let draw := drawEntry (elemsOf 32 a.flatten) (envOf s t v fs a b).act
          (srDraw k.key (v.ext.toNat % 2 ^ 16) (x.toNat / 2 ^ 24 % 2 ^ 24) (x.toNat % 2 ^ 24))
         f = draw.2 ∧
         (∀ j, draw.1 = some (some j) → row = leBytes 4 ((elemsOf 32 b.flatten).getD j 0) ++ List.replicate 252 0) ∧
         (draw.1 = some none → row = leBytes 4 0xFFFFFFFF ++ List.replicate 252 0))) ∧
    ((Instr.vrng v).wf = true → isReg v.d = true → Runs s v fr t a b →
      let val := fun (j : Nat) =>
        let x := krn k.key ((v.ext.toNat % 2 ^ 16) * 2 ^ 48 + ((rowOf v.d i 0).toNat % 2 ^ 24) * 2 ^ 24 + j)
        if ty = 7 then (fp32.pack 0 false 0 (.fin false (x / 256) (-24) false)).1
        else if ty = 6 then (bf16.pack 0 false 0 (.fin false (x / 2 ^ 24) (-8) false)).1
        else x / 2 ^ (32 - tyBits ty)
      exec (.vrng v) s = .next (sends s t v fr [mergeElems (tyBits ty) (envOf s t v fr a b) ((List.range (elemCount ty)).map val)] 0)) ∧
    ((Instr.vrng v).wf = true → isReg v.d = false → exec (.vrng v) s = .next (s.raiseIn c { code := 2, source := 1 } .vector k.vectorEntry))

namespace Sys2Proof.Claims

/-- The address register of a memory form, its increment, and the address of the repeat in issue (R316). -/
def aNo (v : VWord) : Nat := v.ext.toNat / 2 ^ 21 % 8
def inc (v : VWord) : Int := 32 * (BitVec.ofNat 16 v.ext.toNat).toInt
def post (v : VWord) : Prop := v.ext.toNat / 2 ^ 20 % 2 = 1
/-- The base of the word: as its first repeat found it (R316). -/
def base (s : State) (v : VWord) : Word64 := (here s).vbase (aNo v)
def rowAddr (s : State) (v : VWord) : Nat :=
  (base s v + BitVec.ofInt 64 (if v.ext.toNat / 2 ^ 20 % 2 = 1 then ((here s).ve.sub : Int) * inc v else inc v + 256 * ((here s).ve.sub : Int))).toNat
/-- The active elements of the repeat in issue, as a number (R205, R209). -/
def active (s : State) (v : VWord) : Nat := ((here s).lanesNow ((here s).curWord .vector)).toNat % 2 ^ (2048 / tyBits v.ty.toNat)
/-- Byte j of the row belongs to an active element. -/
def hot (s : State) (v : VWord) (j : Nat) : Bool := (active s v).testBit (j / (tyBits v.ty.toNat / 8))
/-- A vector result on its way in `t`. -/
def onWay (s t : State) (lat : Nat) (place : VPlace) (p : VRes → Prop) : Prop :=
  ∃ e ∈ t.agenda, ∃ r, e.act = .run .vectorResult (.vres r) ∧ e.phase = 0 ∧ e.at_ = s.dueAt (s.now + lat) (some s.curCore) ∧ r.core = s.curCore ∧
    r.place = place ∧ p r
/-- The first repeat of a word that post-increments its address register sends aN + m × x, readable after m cycles (R316). -/
def bumps (s t : State) (v : VWord) : Prop :=
  post v → (here s).ve.sub = 0 → onWay s t (repsOf v) (.areg (BitVec.ofNat 3 (aNo v)))
    (fun r => r.data = leBytes 8 (base s v + BitVec.ofInt 64 (repsOf v * inc v)).toNat)
/-- Memory and the core's spaces are as before. -/
def keepsBytes (s t : State) : Prop :=
  t.mem = s.mem ∧ ∀ x, (t.core x).a = (s.core x).a ∧ (t.core x).c = (s.core x).c ∧ (t.core x).sm = (s.core x).sm ∧ (t.core x).seam = (s.core x).seam

end Sys2Proof.Claims

/-- R316 to R318 and R323: C-space rows and the address registers. -/
def Obligations.CRowWords : Prop :=
  ∀ (v : VWord) (s u : State) (rows : List (List Byte)),
    let c := s.curCore
    let k := here s
    let x := rowAddr s v
    let fl := memForm v 1 0 0
    let fs := memForm v 0 1 0
    let fa : VForm := { memForm v 0 1 0 with bits := 64, lat := 1 }
    let ready := Settled s [v.mask.toNat] ∧ Sound k
    let place := active s v ≠ 0 → x % 256 = 0 ∧ x + 256 ≤ 1048576 ∧ ∀ y ∈ k.shadows, y.tile ≠ x / 65536
    let bad := fun (f : FaultRec) => Host.Outcome.next (φ := Fault) (ρ := Refusal) (s.raiseIn c { f with source := 1 } .vector k.vectorEntry)
    ((Instr.vldc v).wf = true → formOk v fl = true → ready →
      (place → dstRoom s c v.d 1 = true → ∃ t, exec (.vldc v) s = .next t ∧ bumps s t v ∧ keepsBytes s t ∧ ∃ j, t.joins = s.joins ++ [j] ∧
        j.core = c ∧ j.row = loadDest v k.ve.sub ∧ j.data = s.cBytes c x 256 ∧ j.left = 0 ∧ j.sel.length = 256 ∧
        (∀ y < 256, j.sel.getD y false = hot s v y) ∧ (v.zero = 1 → j.keep = []) ∧ (v.zero = 0 → ∀ y < 256, j.keep.getD y true = !hot s v y) ∧
        (∃ e ∈ t.agenda, e.act = .run .vectorResult (.nums [j.id]) ∧ e.at_ = s.dueAt (s.now + 8) (some c))) ∧
      (active s v ≠ 0 → x % 256 ≠ 0 → exec (.vldc v) s = bad { code := 0x11, va := BitVec.ofNat 64 x, kind := 0 }) ∧
      (active s v ≠ 0 → x % 256 = 0 → 1048576 < x + 256 → exec (.vldc v) s = bad { code := 0x10, va := BitVec.ofNat 64 x, kind := 0 })) ∧
    ((Instr.vstc v).wf = true → formOk v fs = true → ready → readSrc s c (tyBits v.ty.toNat) v.a k.ve.sub 1 = some (u, rows) → place →
      ∃ t, exec (.vstc v) s = .next t ∧ bumps s t v ∧ keepsBytes s t ∧
        (active s v ≠ 0 → onWay s t 8 (.crow x) (fun r => r.data = rows.flatten ∧ ∀ y < 256, r.sel.getD y false = hot s v y))) ∧
    ((Instr.vaset v).wf = true → (∃ b, Runs s v fa u rows b) → ∃ t, exec (.vaset v) s = .next t ∧ keepsBytes s t ∧
        onWay s t 1 (.areg (BitVec.ofNat 3 (aNo v))) (fun r => r.data = rows.flatten.take 8)) ∧
    ((Instr.vaadd v).wf = true → ∃ t, exec (.vaadd v) s = .next t ∧ keepsBytes s t ∧
      onWay s t 1 (.areg (BitVec.ofNat 3 (aNo v))) (fun r => r.data = leBytes 8 (base s v + BitVec.ofInt 64 (inc v)).toNat))

/-- R319: the bank forms; a request arrives at its bank 2 cycles later, for the beat named. -/
def Obligations.BankRowWords : Prop :=
  ∀ (v : VWord) (s u : State) (rows : List (List Byte)),
    let c := s.curCore
    let k := here s
    let x := rowAddr s v
    let beat := ((k.ve.kept btKey).getD k.bt + v.ext.toNat / 2 ^ 17 % 8) % beatMod
    let fl := memForm v 1 0 0
    let fs := memForm v 0 1 0
    let aims := fun (t : State) (p : BankReq → Prop) => ∃ r ∈ (t.core c).arriving, r.core = c ∧ r.src = 1 ∧ r.bank = bankOf x ∧ r.word = bankWord x ∧
      r.words = 8 ∧ r.beat = beat ∧ r.slide = (v.ext.toNat / 2 ^ 16 % 2 == 1) ∧ r.rep = k.ve.sub ∧ p r ∧
      ∃ e ∈ t.agenda, e.act = .run .bankRequestArrival (.nums [c, r.id]) ∧ e.at_ = s.dueAt (s.now + 2) (some c)
    Settled s [v.mask.toNat] → Sound k → active s v ≠ 0 → x % 32 = 0 → x + 256 ≤ 8388608 → bankOf x = bankOf (x + 255) →
    k.bankRoom (bankOf x) = true →
    ((Instr.vbld v).wf = true → formOk v fl = true → s.isAccess beat = true → dstRoom s c v.d 1 = true →
      (∀ j < 8, (∃ y < 32, hot s v (32 * j + y) = true) → k.seamRead (coreMaster 0 c) (x + 32 * j) 32 = true) →
      ∃ t, exec (.vbld v) s = .next t ∧ bumps s t v ∧ keepsBytes s t ∧
        aims t (fun r => ∃ sel, r.job = .load (loadDest v k.ve.sub) sel (v.zero == 1) v.ty.toNat ∧ ∀ y < 256, sel.getD y false = hot s v y)) ∧
    ((Instr.vbst v).wf = true → formOk v fs = true → s.isAccess beat = true → readSrc s c (tyBits v.ty.toNat) v.a k.ve.sub 1 = some (u, rows) →
      (∀ j < 8, (∃ y < 32, hot s v (32 * j + y) = true) → (k.seamWrite (coreMaster 0 c) (x + 32 * j) 32).isSome = true) →
      ∃ t, exec (.vbst v) s = .next t ∧ bumps s t v ∧ keepsBytes s t ∧
        aims t (fun r => ∃ sel, r.job = .store rows.flatten sel ∧ ∀ y < 256, sel.getD y false = hot s v y)) ∧
    ((Instr.vbld v).wf = true → formOk v fl = true → s.isAccess beat = false →
      exec (.vbld v) s = .next (s.raiseIn c { code := 2, source := 1 } .vector k.vectorEntry))

/-- R320 to R322 and R228: the global forms; every sector with an active element, or every active lane, becomes one request: the row on its way
takes its bytes from it, or it stores the row's bytes there, of a sector those of active elements only. -/
def Obligations.GlobalRowWords : Prop :=
  ∀ (v : VWord) (s u w : State) (rows b : List (List Byte)) (pas : List Nat),
    let c := s.curCore
    let k := here s
    let i := k.ve.sub
    let x := rowAddr s v
    let sectors := ((List.range 8).filter (fun j => (List.range 32).any (fun y => hot s v (32 * j + y)))).map (fun j => (x + 32 * j) % 2 ^ 64)
    let lane := fun (j : Nat) =>
      (base s v + BitVec.ofInt 64 (if v.ext.toNat / 2 ^ 20 % 2 = 1 then (i : Int) * inc v else inc v)
        + ((BitVec.ofNat 32 ((elemsOf 32 b.flatten).getD j 0)).signExtend 64)).toNat
    let lanes := ((List.range 64).filter (fun j => (active s v).testBit j)).map lane
    let ready := Settled s [v.mask.toNat] ∧ Sound k
    let joined := fun (t : State) (at_ : Nat → Nat) (wide : Nat) => ∃ j ∈ t.joins, j.core = c ∧ j.row = loadDest v i ∧
      (∀ y < 256, j.sel.getD y false = hot s v y) ∧
      ∀ y < 256, hot s v y = true → ∃ q ∈ t.greqs, q.core = c ∧ q.src = 1 ∧ q.va = at_ (y / wide) ∧ q.n = wide ∧ q.job = .rowLoad j.id (y / wide * wide) ∧
        q.group = some j.id
    let stored := fun (t : State) (at_ : Nat → Nat) (wide : Nat) => ∀ y < 256, hot s v y = true → ∃ q ∈ t.greqs, ∃ sel, q.core = c ∧ q.src = 1 ∧
      q.va = at_ (y / wide) ∧ q.n = wide ∧ q.job = .store ((rows.flatten.drop (y / wide * wide)).take wide) sel ∧
      ∀ z < wide, (sel = [] → hot s v (y / wide * wide + z) = true) ∧ (sel ≠ [] → sel.getD z false = hot s v (y / wide * wide + z))
    ready →
    ((Instr.vldg v).wf = true → formOk v (memForm v 1 0 0) = true → x % 32 = 0 → s.letIn c 32 0 8 sectors = .ok u pas → dstRoom u c v.d 1 = true →
      ∃ t, exec (.vldg v) s = .next t ∧ keepsBytes s t ∧ joined t (fun j => (x + 32 * j) % 2 ^ 64) 32) ∧
    ((Instr.vstg v).wf = true → formOk v (memForm v 0 1 0) = true → x % 32 = 0 → storeRow s c v i = some (w, rows.flatten) → rows.flatten.length = 256 →
      w.letIn c 32 1 8 sectors = .ok u pas →
      ∃ t, exec (.vstg v) s = .next t ∧ keepsBytes s t ∧ stored t (fun j => (x + 32 * j) % 2 ^ 64) 32) ∧
    ((Instr.vgth v).wf = true → formOk v (memForm v 1 0 1) = true → readSrc s c 32 v.b i 1 = some (w, b) → (∀ y ∈ lanes, y % 4 = 0) →
      w.letIn c 4 0 64 lanes = .ok u pas → dstRoom u c v.d 1 = true →
      ∃ t, exec (.vgth v) s = .next t ∧ keepsBytes s t ∧ joined t lane 4) ∧
    (∀ r, (Instr.vsct v).wf = true → formOk v (memForm v 0 1 1) = true → storeRow s c v i = some (r, rows.flatten) → rows.flatten.length = 256 →
      readSrc r c 32 v.b i 1 = some (w, b) → (∀ y ∈ lanes, y % 4 = 0) → w.letIn c 4 1 64 lanes = .ok u pas →
      ∃ t, exec (.vsct v) s = .next t ∧ keepsBytes s t ∧ stored t lane 4) ∧
    (let a := (k.vbase (v.ext.toNat / 2 ^ 5 % 8)).toNat
     let md := v.ext.toNat / 2 ^ 20 % 16
     let first := min 32 (4096 - a / 8 % 4096)
     (Instr.vmpos v).wf = true → k.maskPending [md] = false → a % 64 = 0 →
       s.letIn c (if first = 32 then 32 else 8) kindVmpos 1 (if first = 32 then [a / 8] else [a / 8, a / 8 + 8, a / 8 + 16, a / 8 + 24]) = .ok u pas →
       ∃ t, exec (.vmpos v) s = .next t ∧ keepsBytes s t ∧ ∃ q ∈ t.greqs, q.core = c ∧ q.va = a / 8 ∧ q.n = 32 ∧ q.job = .vmpos (BitVec.ofNat 4 md))

/-- R92, R93, R233 and R234: the end of a block's pass, idle words, and waiting for and marking a tile. -/
def Obligations.VectorControlWords : Prop :=
  ∀ (v : VWord) (s : State),
    let c := s.curCore
    let k := here s
    let n := v.ext.toNat
    let full := k.sr.tfull.getLsbD (n / 2 ^ 20 % 16)
    ((Instr.vend v).wf = true → exec (.vend v) s = .next (s.endPass c .vector)) ∧
    (k.ve.ovr = none → ∀ p e r, k.bqv.items = (p, e) :: r → 1 < e.left →
      ((s.endPass c .vector).core c).ve.next = e.addr ∧ ((s.endPass c .vector).core c).bqv.items = (p, { e with left := e.left - 1 }) :: r) ∧
    (k.ve.ovr = none → ∀ p e r, k.bqv.items = (p, e) :: r → e.left ≤ 1 → ((s.endPass c .vector).core c).bqv.items = r ∧
      (r = [] → ((s.endPass c .vector).core c).ve.live = false ∧ ((s.endPass c .vector).core c).ve.idleFrom = s.now + 1) ∧ (∀ q f l, r = (q, f) :: l → ((s.endPass c .vector).core c).ve.next = f.addr)) ∧
    ((Instr.vnop v).wf = true → exec (.vnop v) s = .next (s.repeatDone c (1 + n) 1)) ∧
    ((Instr.vtileWait v).wf = true → full = (n / 2 ^ 18 % 2 == 1) → exec (.vtileWait v) s = .next (s.repeatDone c 1 (repsOf v))) ∧
    ((Instr.vtileWait v).wf = true → full ≠ (n / 2 ^ 18 % 2 == 1) → exec (.vtileWait v) s = .next (s.blocked c .vector 3 k.vectorEntry)) ∧
    ((Instr.vtileMark v).wf = true → exec (.vtileMark v) s =
      .next ((s.post (s.now + 8) 3 (some c) (.run .fullBitChange (.nums [c, n / 2 ^ 20 % 16, n / 2 ^ 18 % 2]))).repeatDone c 1 (repsOf v)))

/-! ### Matrix words (R235 to R256) -/

namespace Sys2Proof.Claims

/-- Body field [lo + n - 1 : lo] of a matrix word (R132). -/
def bodyOf (w : MWord) (lo n : Nat) : Nat := w.body.toNat / 2 ^ lo % 2 ^ n
/-- The word may run: it is an instruction, carries its block's tag, its core holds the array, and no error stands in the core's spaces. -/
def Holds (s : State) (i : Instr) (w : MWord) : Prop :=
  i.wf = true ∧ (here s).carries w = true ∧ (s.quad (quadOf s.curCore)).holder = some (quadIndex s.curCore) ∧ Sound (here s)
/-- The lease after a command's first row (R198): one command used; it ends with its last. -/
def spent (s t : State) : Prop :=
  let q := s.quad (quadOf s.curCore)
  let r := t.quad (quadOf s.curCore)
  (here s).mx.sub = 0 → (q.left ≤ 1 → r.holder = none ∧ r.left = 0) ∧ (1 < q.left → r.holder = q.holder ∧ r.left = q.left - 1)
/-- The row has issued: the next row follows, or, after the last, the next word. -/
def rowGone (s t : State) (last : Bool) : Prop :=
  (t.core s.curCore).mx.sub = (if last then 0 else (here s).mx.sub + 1) ∧
    (last = true → (here s).mx.ovr = none → (t.core s.curCore).mx.next = (here s).mx.widx + 1)
/-- A fault of the matrix stream after `u` has popped a format word. -/
def mxFault (s u : State) (f : FaultRec) : State := u.raiseIn s.curCore { f with source := 2 } .matrix (u.core s.curCore).matrixEntry

end Sys2Proof.Claims

/-- R237, R243 to R249 and R256: the tile commands of a core that holds the array, row by row, with the block-control words. That MLDS reads its peer's
W-space when the peer opens beat n, by the difference of their pulse delays (log 116), and that an MDRAIN keeps the keys of its issue (log 73), is DEDUCED. -/
def Obligations.MatrixWords : Prop :=
  ∀ (w : MWord) (s u : State) (f : Word64) (p : ArrPlane), (∀ j ∈ s.joins, j.core = s.curCore → j.due ≠ 0) →
    let c := s.curCore
    let k := here s
    let q := s.quad (quadOf c)
    let i := k.mx.sub
    let tile := w.tile.toNat
    let full := k.sr.tfull.getLsbD tile
    let tag := if w.spec = 1 then some w.tag.toNat else none
    let sound := fwValid f = true ∧ fwSound f = true
    let formed := s.popFormat c = some (u, f)
    (let a := bodyOf w 148 22
     let kk := 2 * (bodyOf w 138 8 + 1)
     let n := bodyOf w 131 7 + 1
     let len := blockBytes (fwW f) kk n
     let o := s.coreBeat c
     let b := s.accessFrom (s.now + 2) 64 o.1 o.2 (s.coreBeatLen c)
     Holds s (.mlds w) w → w.spec = 0 → formed →
      (¬ sound → exec (.mlds w) s = .next (mxFault s u { code := 7 })) ∧
      (sound → a % 64 = 0 → kk ≤ 2048 / tyBits (fwW f) → (fwW f = 13 → kk % 32 = 0) → a + len ≤ 4194304 →
        (∃ x, (s.core (quadCore (quadOf c) (bodyOf w 146 2))).bound = some x ∧ x.gen = k.bnd.gen) → (∃ j < 16, s.isAccess j = true) →
        len ≤ 1024 * (s.beatEnt b.1).len →
        ∃ t, exec (.mlds w) s = .next t ∧ spent s t ∧ rowGone s t true ∧ keepsBytes s t ∧ (t.quad (quadOf c)).act = q.act ∧
          (t.quad (quadOf c)).shd = { st := 1, wt := fwW f, k := kk, n, gen := k.bnd.gen, wAddr := a, src := bodyOf w 146 2, stamp := k.mx.istamp } ∧
          (∃ e ∈ t.agenda, e.act = .run .shadowPlaneLoaded (.nums [quadOf c, k.mx.istamp, c, 0]) ∧
            e.at_ = s.dueAt (max (s.now + 1) (b.2 + pulseDelay (quadCore (quadOf c) (bodyOf w 146 2)) - pulseDelay c)) (some c)) ∧
          (∃ e ∈ t.agenda, e.act = .run .shadowPlaneLoaded (.nums [quadOf c, k.mx.istamp, c, 1]) ∧
            e.at_ = s.dueAt (b.2 + (s.beatEnt b.1).len + 5) (some c)))) ∧
    (Holds s (.mswap w) w → w.spec = 0 →
      (q.shd.st ≠ 1 → (q.shd.st = 2 → q.shd.gen = k.bnd.gen) → ∃ t, exec (.mswap w) s = .next t ∧ spent s t ∧ rowGone s t true ∧ keepsBytes s t ∧
        (t.quad (quadOf c)).act = q.shd ∧ (t.quad (quadOf c)).shd = q.act) ∧
      (q.shd.st = 1 → exec (.mswap w) s = .next (s.blocked c .matrix 4 k.matrixEntry)) ∧
      (q.shd.st = 2 → q.shd.gen ≠ k.bnd.gen → exec (.mswap w) s = .next (mxFault s s { code := 0x13 }))) ∧
    (let base := bodyOf w 159 11
     let m := bodyOf w 152 7 + 1
     let o := bodyOf w 145 7
     -- the plane that was active when the command issued
     (if k.mx.firstRow then p = q.act else k.mplane = some (k.mx.istamp, p)) →
     Holds s (.mstep w) w → formed → sound → fwFits f p = true → p.gen = k.bnd.gen → o + m ≤ 128 → i < m → k.specBlocked w = false →
     full = false →
      (base + m + (if fwA f = 13 then cdiv m 16 else 0) ≤ 1536 →
        let row := s.aBytes c (256 * (base + i)) 256
        let scales := (s.aBytes c (256 * (base + m + i / 16)) 256).toArray
        let out := stepRow f p k.sm row.toArray (fun b => if fwA f = 13 then (scales.getD (16 * (i % 16) + b) 0).toNat else 0)
        ∃ t, exec (.mstep w) s = .next t ∧ spent s t ∧ rowGone s t (i + 1 == m) ∧ keepsBytes s t ∧
          ∃ e ∈ t.agenda, ∃ r, e.act = .run .matrixRowWrite (.mrow r) ∧ e.at_ = s.dueAt (s.now + if hadOnA f then 28 else 24) (some c) ∧
            r.core = c ∧ r.tile = tile ∧ r.row = o + i ∧ r.acc = (bodyOf w 144 1 == 1) ∧ r.isInt = fwInt f ∧ r.cols = p.n ∧
            r.vals = out.1 ∧ r.flags = out.2 ∧ r.tag = tag) ∧
      (base = 2042 → fwA f ≠ 13 → ∀ y x rest, k.qv2m.items = (y, x) :: rest → y < s.now →
        let out := stepRow f p k.sm x.toArray (fun _ => 0)
        ∃ t, exec (.mstep w) s = .next t ∧ spent s t ∧ rowGone s t (i + 1 == m) ∧ keepsBytes s t ∧ (t.core c).qv2m.items = rest ∧
          ∃ e ∈ t.agenda, ∃ r, e.act = .run .matrixRowWrite (.mrow r) ∧ r.core = c ∧ r.row = o + i ∧ r.vals = out.1 ∧ r.flags = out.2)) ∧
    (let r0 := bodyOf w 163 7
     let n := bodyOf w 156 7 + 1
     Holds s (.mzero w) w → r0 + n ≤ 128 → i = 0 → k.specBlocked w = false →
      (full = false → ∃ t, exec (.mzero w) s = .next t ∧ spent s t ∧ rowGone s t true ∧ keepsBytes s t ∧
        ∀ j < n, ∃ e ∈ t.agenda, ∃ r, e.act = .run .matrixRowWrite (.mrow r) ∧ e.at_ = s.dueAt (s.now + j / 4 + 2) (some c) ∧ r.core = c ∧ r.tile = tile ∧
          r.row = r0 + j ∧ r.acc = false ∧ r.vals = List.replicate 128 0 ∧ r.flags = 0 ∧ r.tag = tag) ∧
      (full = true → exec (.mzero w) s = .next (s.blocked c .matrix 3 k.matrixEntry))) ∧
    (let crow := bodyOf w 163 7
     let n := bodyOf w 156 7 + 1
     let dest := bodyOf w 154 2
     let vd := bodyOf w 143 11
     let vr := bodyOf w 132 11
     let out := fwOut f
     let rows := if tyBits out = 32 then 2 else 1
     Holds s (.mdrain w) w → w.spec = 0 → formed → sound → crow + n ≤ 128 → i < n → (dest = 0 → vd + n * rows ≤ 1536) →
     (fwResidual f = true → vr + n * (if out = 7 then 2 else 1) ≤ 1536) → (dest = 2 → (Table.find? k.act.tiles (bodyOf w 94 6)).isSome = true) →
     k.tileShadow tile = false →
      (full = false → ∃ t, exec (.mdrain w) s = .next t ∧ spent s t ∧ rowGone s t (i + 1 == n) ∧ keepsBytes s t ∧
        ∃ e ∈ t.agenda, ∃ r, e.act = .run .drainDelivery (.drow r) ∧ e.at_ = s.dueAt (s.now + if hadOnDrain f then 24 else 20) (some c) ∧ r.core = c ∧
          r.dest = dest ∧ r.arow = vd + i * rows ∧ r.entry = bodyOf w 94 6 ∧ r.first = i * rows ∧
          (fwResidual f = false → r.pieces = outputPieces out (epilogue f (u.core c) (k.keyFor k.mx) (k.scaleFor k.mx) crow (bodyOf w 116 16)
            (bodyOf w 100 16) i (elemsOf 32 (u.cBytes c (tile * 65536 + (crow + i) * 512) 512)) []).1))) ∧
    ((Instr.mflag w).wf = true → k.carries w = true → w.spec = 0 → exec (.mflag w) s =
      .next ((s.post ((s.matrixDue c k.mx.istamp).foldl max s.now + 1) 3 (some c)
        (.run .fullBitChange (.flag c tile (bodyOf w 169 1 == 1) (s.rowOf_ c 0 false)))).rowDone c 1 true)) ∧
    ((Instr.mend w).wf = true → k.carries w = true → exec (.mend w) s = .next (s.endPass c .matrix)) ∧
    ((Instr.mnop w).wf = true → k.carries w = true → exec (.mnop w) s = .next (s.rowDone c (1 + bodyOf w 146 24) true)) ∧
    (k.carries w = false → k.mx.firstRow = true → exec (.mzero w) s = .next (mxFault s s { code := 1 })) ∧
    (s.popFormat c = none → Holds s (.mlds w) w → w.spec = 0 →
      exec (.mlds w) s = .next (if s.elastic c then s.stall c .matrix else mxFault s s { code := 5 }))

/-- R157 and R245 for an integer pair: column n of a row is the sum over the block's K elements of A's value times W's, modulo 2^32; columns past the
block are 0, and the step itself raises no flag. -/
def Obligations.IntegerSteps : Prop :=
  ∀ (f : Word64) (p : ArrPlane) (sm : Memory) (row : Array Byte) (z : Nat → Nat), fwInt f = true →
    let a := fun (j : Nat) => intVal (fwA f) (packedElem row (tyBits (fwA f)) j)
    let b := fun (j n : Nat) => intVal p.wt (packedElem p.data.toArray (tyBits p.wt) (j * p.n + n))
    (stepRow f p sm row z).2 = 0 ∧ (stepRow f p sm row z).1.length = 128 ∧
    ∀ n < 128, (stepRow f p sm row z).1.getD n 0 =
      if n < p.n then BitVec.ofInt 32 (((List.range p.k).map (fun j => a j * b j n)).sum) else 0

/-! ### Results that take effect (R168, R170, R207, R251, R278, R282, R290, R317) -/

namespace Sys2Proof.Claims

/-- Outside core `c` nothing of any core changes. -/
def onlyCore (s t : State) (c : Nat) : Prop := ∀ x, x ≠ c → t.core x = s.core x
/-- The events of `t` hold this act, due as the model reckons for core `c` (or for no core), in this phase. -/
def due (s t : State) (at_ phase : Nat) (hold : Option Nat) (a : Act) : Prop :=
  ∃ e ∈ t.agenda, e.act = a ∧ e.phase = phase ∧ e.hold = hold ∧ e.at_ = s.dueAt at_ hold

end Sys2Proof.Claims

/-- R168 and R169: a scalar result takes its place unless a word issued later has already written it; s0 takes nothing; no other register, bit,
core or byte of memory changes.

R205, R207, R208 and R212: a vector result takes its place: a row and a C row by a write of this cycle with its ranks, a mask, an address
register, a queue; a later-issued writer that has taken effect stays; the flags are ORed into VSTAT. -/
def Obligations.ResultsLand : Prop :=
  (
  ∀ (s : State) (r : SRes), s.arg = .sres r → ∃ t, exec .scalarResult s = .next t ∧
    let k := s.core r.core
    let n := t.core r.core
    (∀ d : BitVec 5, r.place = .reg d →
      n.sval d.toNat = (if d = 0 then 0 else if r.stamp < (vget k.s d.toNat {}).stamp then k.sval d.toNat else r.val) ∧
      (d ≠ 0 → (vget k.s d.toNat {}).stamp ≤ r.stamp → (vget n.s d.toNat {}).stamp = r.stamp) ∧
      -- a wait for this result is over, one for a word issued later is not
      (d ≠ 0 → (vget n.s d.toNat {}).pending = (vget k.s d.toNat {}).pending.filter (fun p => p != r.stamp)) ∧
      (∀ e, e ≠ d.toNat → vget n.s e {} = vget k.s e {}) ∧ n = { k with s := n.s }) ∧
    (∀ b : BitVec 4, r.place = .cond b → b.toNat < 12 →
      (vget n.b b.toNat {}).cond = (if r.stamp < (vget k.b b.toNat {}).stamp then (vget k.b b.toNat {}).cond else r.val.getLsbD 0) ∧
      (∀ e, (vget n.b e {}).target = (vget k.b e {}).target ∧ (vget n.b e {}).prepared = (vget k.b e {}).prepared) ∧
      (∀ e, e ≠ b.toNat → vget n.b e {} = vget k.b e {}) ∧ n = { k with b := n.b }) ∧
    onlyCore s t r.core ∧ t = { s with cores := t.cores }) ∧
  (
  ∀ (s : State) (r : VRes), s.arg = .vres r → ∃ t, exec .vectorResult s = .next t ∧
    let c := r.core
    let k := s.core c
    let n := t.core c
    (∀ x, r.place = .row x → k.outdated x r.stamp r.rep = false →
      t.wb = { core := c, space := 0, rank := 3, addr := 256 * x, data := r.data, sel := r.sel } :: s.wb ∧ Table.find? n.rows x = some (r.stamp, r.rep)) ∧
    (∀ x, r.place = .row x → k.outdated x r.stamp r.rep = true → t.wb = s.wb) ∧
    (∀ a, r.place = .crow a → t.wb = { core := c, space := 1, rank := 1, addr := a, data := r.data, sel := r.sel } :: s.wb) ∧
    (∀ m : BitVec 4, r.place = .mask m → (vget n.m m.toNat {}).val = (if m = 0 ∨ r.stamp < (vget k.m m.toNat {}).stamp then (vget k.m m.toNat {}).val
      else BitVec.ofNat 256 (leNat r.data)) ∧ t.wb = s.wb) ∧
    (∀ a : BitVec 3, r.place = .areg a → n.areg a.toNat = (if r.stamp < (vget k.ar a.toNat {}).stamp then k.areg a.toNat
      else BitVec.ofNat 64 (leNat r.data)) ∧ t.wb = s.wb) ∧
    (r.place = .qv2s → n.qv2s.items = k.qv2s.items ++ [(s.now, BitVec.ofNat 64 (leNat r.data))] ∧ n.qv2s.inflight = k.qv2s.inflight - 1) ∧
    (r.place = .qv2m → n.qv2m.items = k.qv2m.items ++ [(s.now, r.data)] ∧ n.qv2m.inflight = k.qv2m.inflight - 1) ∧
    (r.flags = 0 → t.sets = s.sets) ∧ (r.flags ≠ 0 → t.sets = (c, .flags 0x021 r.flags) :: s.sets) ∧
    onlyCore s t c ∧ t.mem = s.mem ∧ n.s = k.s ∧ n.a = k.a ∧ n.c = k.c)

/-- R170, R207, R278, R282, R320, R386, R394 and R396: a loaded row merges its bytes with the row as it stands now; a poisoned one raises POISON once, with
its record and its replay entry, and writes nothing; a value that returns becomes readable; a request that its bound has overtaken is a missed promise.

R96 and R290: at the end of a stall the stream is due again in this cycle, once; a walk that finds its page fills the TLB with it, and one that
does not leaves the page fault to its access. -/
def Obligations.GlobalResultsReturn : Prop :=
  (
  ∀ (s : State) (id : Nat),
    (∀ j, s.arg = .nums [id] → s.joins.find? (fun x => x.id == id) = some j → j.poisoned = false → j.row < 1536 →
      (s.core j.core).outdated j.row j.stamp j.rep = false →
      ∃ t w, exec .vectorResult s = .next t ∧ t.wb = w :: s.wb ∧ w.core = j.core ∧ w.space = 0 ∧ w.addr = 256 * j.row ∧ w.data.length = 256 ∧
        (∀ i < 256, w.data.getD i 0 = if j.sel.getD i false then j.data.getD i 0
          else if j.keep.getD i false then (s.aBytes j.core (256 * j.row) 256).getD i 0 else 0) ∧ (∀ x ∈ t.joins, x.id ≠ id)) ∧
    -- however many of its parts are poisoned, a row raises POISON once: one record, one replay entry at its repeat
    (∀ j, s.arg = .nums [id, 1] → s.joins.find? (fun x => x.id == id) = some j → j.poisoned = true → j.row < 1536 → (s.core j.core).fault = none →
      (s.core j.core).ve.sub = 0 → (s.core j.core).ve.replay.length < 16 →
      ∃ t f e, exec .globalResultReturn s = .next t ∧ t.wb = s.wb ∧ (t.core j.core).rows = (s.core j.core).rows ∧ (t.core j.core).fault = some f ∧
        f.code = 0x18 ∧ f.source = 1 ∧ f.va = j.entry.va ∧ f.kind = j.entry.kind ∧ f.count = 1 ∧ f.noresume = false ∧
        (t.core j.core).ve.replay = (s.core j.core).ve.replay ++ [e] ∧ e.code = 0x18 ∧ e.word = j.entry.word ∧ e.next = j.rep ∧ (∀ x ∈ t.joins, x.id ≠ id)) ∧
    (∀ g rd size signed, s.arg = .nums [id] → s.greqs.find? (fun x => x.id == id) = some g → g.job = .load rd size signed → g.done = true →
      g.poisoned = false → rd ≠ 0 → (vget (s.core g.core).s rd.toNat {}).stamp ≤ g.stamp → (vget (s.core g.core).s rd.toNat {}).pending = some g.stamp →
      ∃ t, exec .globalResultReturn s = .next t ∧ (t.core g.core).sval rd.toNat = extendBytes signed g.val ∧
        (t.core g.core).pendingReg rd.toNat = false ∧ t.greqs = s.greqs.filter (fun x => x.id != id) ∧ t.mem = s.mem) ∧
    (∀ g, s.arg = .nums [id] → s.greqs.find? (fun x => x.id == id && !x.done) = some g → (s.core g.core).fault = none →
      ∃ t f, exec .promiseExpiry s = .next t ∧ (t.core g.core).fault = some f ∧ f.code = 4 ∧ f.sub = 8 ∧ f.noresume = true ∧ f.source = g.src ∧
        (∀ x ∈ t.greqs, x.id ≠ id) ∧ (∃ e ∈ t.ring, e.kind = 0 ∧ e.master = coreMaster (sourceClass g.src) g.core) ∧ t.mem = s.mem)) ∧
  (
  ∀ (s : State) (c : Nat) (k : Strm) (id : Nat),
    (s.arg = .strm c k → ∃ t, exec .stallRelease s = .next t ∧ due s t s.now 2 (some c) (.issue c k) ∧ t.cores = s.cores ∧ t.mem = s.mem) ∧
    (∀ w, s.arg = .nums [id] → s.walks.find? (fun x => x.id == id) = some w →
      (∀ p e l, s.proc? w.spid = some p → s.walk p w.va w.write = .leaf e l → ∃ t, exec .pageWalk s = .next t ∧ (∀ x ∈ t.walks, x.id ≠ id) ∧
        (∃ x ∈ (t.core w.core).tlbOf w.unit, x = { spid := w.spid, va := w.va / leafSize e l * leafSize e l, size := leafSize e l, pte := e }) ∧
        (∀ x ∈ (s.core w.core).tlbOf w.unit, x.locked = true → x ∈ (t.core w.core).tlbOf w.unit) ∧ onlyCore s t w.core ∧ t.mem = s.mem) ∧
      (∀ p l, s.proc? w.spid = some p → s.walk p w.va w.write = .fault l →
        exec .pageWalk s = .next { s with walks := s.walks.filter (fun x => x.id != id) ++ [{ w with failed := some l }] })))

/-! ### The quad array's events (R200, R242 to R252, R94, R95, R194, R196) -/

/-- R243, R245, R248, R249 and R252: the planes loaded by an MLDS, an accumulator row written in its cycle, a drained row delivered to A-space or to
QM2V, and a full bit that changes once every earlier row of its stream has been written.

R95, R194, R199 and R200: the lease goes to the next core in turn of those that have asked two cycles before, MFREE gives it up at a command boundary, and
a speculative tag is committed or dropped there; what a boundary is, is DEDUCED (log 14). -/
def Obligations.MatrixResultsLand : Prop :=
  (
  ∀ (s : State),
    (∀ qd stamp c, s.arg = .nums [qd, stamp, c, 0] → (s.quad qd).shd.st = 1 → (s.quad qd).shd.stamp = stamp → Sound (s.core (quadCore qd (s.quad qd).shd.src)) →
      let p := (s.quad qd).shd
      ∃ t, exec .shadowPlaneLoaded s = .next t ∧
        (t.quad qd).shd = { p with data := (s.core (quadCore qd p.src)).seam.readBytes p.wAddr (blockBytes p.wt p.k p.n) } ∧
        (t.quad qd).act = (s.quad qd).act ∧ t.cores = s.cores) ∧
    (∀ qd stamp c, s.arg = .nums [qd, stamp, c, 1] → (s.quad qd).shd.st = 1 → (s.quad qd).shd.stamp = stamp → (s.quad qd).shd.data ≠ [] →
      ∃ t, exec .shadowPlaneLoaded s = .next t ∧ (t.quad qd).shd = { (s.quad qd).shd with st := 2 } ∧ (t.quad qd).act = (s.quad qd).act ∧ t.cores = s.cores) ∧
    (∀ r, s.arg = .mrow r → r.of_.poison = false → r.tag = none → Sound (s.core r.core) →
      let addr := r.tile * 65536 + r.row * 512
      let old := s.cRow r.core addr 512
      ∃ t w, exec .matrixRowWrite s = .next t ∧ t.wb = w :: s.wb ∧ w.core = r.core ∧ w.space = 1 ∧ w.rank = 3 ∧ w.addr = addr ∧ w.sel = [] ∧
        t.cores = s.cores ∧ t.mem = s.mem ∧
        (r.acc = false → r.vals.length = 128 → w.data = r.vals.flatMap (fun v => leBytes 4 v.toNat) ∧ (r.flags = 0 → t.sets = s.sets)) ∧
        (r.acc = true → r.vals.length = 128 → r.isInt = true → ∀ n < 128, leNat (sliceOf w.data (4 * n) 4) =
          (leNat (sliceOf old (4 * n) 4) + (r.vals.getD n 0).toNat) % 2 ^ 32)) ∧
    (∀ d, s.arg = .drow d → d.dest = 0 → d.of_.poison = false → ∃ t, exec .drainDelivery s = .next t ∧ t.cores = s.cores ∧ t.mem = s.mem ∧
      (∀ i < d.pieces.length, ({ core := d.core, space := 0, rank := 4, addr := 256 * (d.arow + i), data := d.pieces.getD i [], sel := [] } : CycWrite) ∈ t.wb) ∧
      t.wb.length = s.wb.length + d.pieces.length ∧ (d.flags = 0 → t.sets = s.sets) ∧ (d.flags ≠ 0 → t.sets = (d.core, .flags 0x022 d.flags) :: s.sets)) ∧
    (∀ d p, s.arg = .drow d → d.dest = 1 → d.of_.poison = false → d.pieces = [p] → (s.core d.core).qm2v.taken s.now < 4 → d.flags = 0 →
      (s.elastic d.core = true → s.drainBehind d = false) →
      ∃ t, exec .drainDelivery s = .next t ∧ (t.core d.core).qm2v.items = (s.core d.core).qm2v.items ++ [(s.now, p)] ∧ t.wb = s.wb ∧ t.agenda = s.agenda) ∧
    (∀ c n v, s.arg = .nums [c, n, v] → exec .fullBitChange s = .next (s.cycSet c (.tile n (v == 1)))) ∧
    (∀ c n full o x l, s.arg = .flag c n full o → s.matrixDue c o.stamp = x :: l → ∃ t, exec .fullBitChange s = .next t ∧ t.sets = s.sets ∧
      due s t ((x :: l).foldl max s.now + 1) 3 (some c) (.run .fullBitChange (.flag c n full o))) ∧
    -- a bit that is cleared, or set already, changes nothing further
    (∀ c n full o, s.arg = .flag c n full o → s.matrixDue c o.stamp = [] → full = false ∨ (s.core c).sr.tfull.getLsbD n = true →
      exec .fullBitChange s = .next (s.cycSet c (.tile n full))) ∧
    (∀ c n o, s.arg = .flag c n true o → s.matrixDue c o.stamp = [] →
      (∀ i : Fin 4, (s.core c).sr.mroute[i].getLsbD 0 = true → (s.core c).sr.mroute[i].toNat / 2 % 16 ≠ n) →
      ∃ t, exec .fullBitChange s = .next t ∧ t.sets = (c, .tile n true) :: s.sets ∧ t.agenda = s.agenda ∧ t.cores = s.cores)) ∧
  (
  ∀ (s : State) (qd c : Nat),
    -- of the requests that are two cycles old, that of the core which follows the last holder soonest is granted
    (∀ i n t0, s.arg = .nums [qd] → i < 4 → (s.quad qd).last < 4 → (s.quad qd).holder = none → (i, t0, n) ∈ (s.quad qd).reqs →
      (s.quad qd).reqs.Pairwise (fun a b => a.1 ≠ b.1) → t0 + 2 ≤ s.now →
      (∀ r ∈ (s.quad qd).reqs, r.1 < 4 → r.1 ≠ i → r.2.1 + 2 ≤ s.now → (i + 3 - (s.quad qd).last) % 4 < (r.1 + 3 - (s.quad qd).last) % 4) →
      (s.quad qd).busyTo ≤ s.now → s.arrayBusy qd = false →
      ∃ t, exec .leaseGrant s = .next t ∧ (t.quad qd).holder = some i ∧ (t.quad qd).left = n ∧ (t.quad qd).last = i ∧
        (t.quad qd).reqs = (s.quad qd).reqs.filter (fun r => r.1 != i) ∧
        (t.quad qd).act = (s.quad qd).act ∧ (t.quad qd).shd = (s.quad qd).shd ∧ t.cores = s.cores) ∧
    (∀ h, s.arg = .nums [qd] → (s.quad qd).holder = some h → exec .leaseGrant s = .next s) ∧
    (s.arg = .nums [c] → (s.core c).mfreeReq = true → (s.core c).mx.sub = 0 → (s.core c).mx.busyTo ≤ s.now →
      ∃ t, exec .mfreeEffect s = .next t ∧ (t.core c).mfreeReq = false ∧ (t.quad (quadOf c)).holder ≠ some (quadIndex c) ∧
        (∀ r ∈ (t.quad (quadOf c)).reqs, r.1 ≠ quadIndex c) ∧ t.mem = s.mem) ∧
    (∀ g, s.arg = .nums [c] → (s.core c).resolve = [(true, g)] → g ∈ (s.core c).specTags → (s.core c).mx.sub = 0 → (s.core c).mx.busyTo ≤ s.now →
      ∃ t, exec .specResolve s = .next t ∧ g ∉ (t.core c).specTags ∧ (∀ x ∈ (t.core c).shadows, x.tag ≠ g) ∧
        ((s.core c).shadows = [] → (t.core c).c = (s.core c).c) ∧
        (∀ x, (s.core c).shadows = [x] → x.tag = g → x.filled = true → Memory.wf (s.core c).c = true → ∀ a < 65536, (t.core c).c.read (65536 * x.tile + a) = x.mem.read a) ∧
        onlyCore s t c) ∧
    (∀ g, s.arg = .nums [c] → (s.core c).resolve = [(false, g)] → g ∈ (s.core c).specTags → (s.core c).mx.sub = 0 → (s.core c).mx.busyTo ≤ s.now →
      ∃ t, exec .specResolve s = .next t ∧ g ∉ (t.core c).specTags ∧ (∀ x ∈ (t.core c).shadows, x.tag ≠ g) ∧ (t.core c).c = (s.core c).c ∧
        (∀ x ∈ (t.core c).bqm.items, x.2.spec = true → x.2.tag ≠ g) ∧ onlyCore s t c))

/-! ### Collective engines (R351 to R362) -/

/-- R355, R356, R357 and R360: a ready entry fires and its first piece is read in the next cycle; a piece of a COPY performs at its peer by a write
of rank 1; a contribution takes its slot, and once all are there the own value folds with the slots in ascending order; one that its receiver's entry
does not expect raises ILLEGAL_OPERAND there; a result piece is written.

R358, R359, R361, R362 and R364: a firing completes and its post-action follows in the next cycle; scoreboard bits are set for the next cycle and
triggers look then; the firing that brings a semaphore to its count hands off; an armed trigger whose bits are set acts once; a freed slot serves
from the next window. -/
def Obligations.CollectiveEvents : Prop :=
  (
  ∀ (s : State),
    (∀ c e x stamp, s.arg = .nums [c, e] → (s.core c).active < 2 → (s.core c).act.tiles = [(e, x)] → x.firing = none → x.ready = some stamp →
      ∃ t y, exec .entryFire s = .next t ∧ (t.core c).tile e = some y ∧ y.ready = none ∧ y.firing = some s.seq ∧ y.img = x.img ∧
        (∃ f ∈ (t.core c).fires, f.id = s.seq ∧ f.entry = e ∧ f.img = x.img ∧ f.at_ = s.now ∧ f.pieces = tcRows x.img ∧ f.done = false) ∧
        (∃ a ∈ t.agenda, a.act = .run .entryFire (.nums [c, s.seq, 0]) ∧ a.phase = 1) ∧ t.mem = s.mem ∧ t.wb = s.wb ∧ onlyCore s t c) ∧
    (∀ c e x, s.arg = .nums [c, e] → (s.core c).tile e = some x → x.firing = none → x.ready = none → exec .entryFire s = .next s) ∧
    (∀ p a, s.arg = .piece p → s.away p.dst = false → p.copyTo = some a → s.fireOf p.src p.fid = none → p.flow = none →
      exec .pieceArrival s = .next (s.cycWrite { core := p.dst, space := 0, rank := 1, addr := a, data := p.data, sel := [], poison := p.poison })) ∧
    (∀ p a n m, s.arg = .piece p → s.away p.dst = false → p.copyTo = some a → p.flow = some (n, m) →
      exec .pieceArrival s = .next ((s.cycWrite { core := p.dst, space := 0, rank := 1, addr := a, data := p.data, sel := [], poison := p.poison }).send
        n (.slotFree s.window n m))) ∧
    (∀ p, s.arg = .piece p → s.away p.dst = false → p.copyTo = none → (s.core p.dst).tile p.entry = none → (s.core p.dst).fault = none →
      ∃ t f, exec .pieceArrival s = .next t ∧ (t.core p.dst).fault = some f ∧ f.code = 2 ∧ f.source = 6 ∧ f.unit = p.entry ∧ t.wb = s.wb) ∧
    (∀ p a, s.arg = .piece p → p.copyTo = some a → s.fireOf p.src p.fid = none →
      exec .combineWrite s = .next (s.cycWrite { core := p.src, space := 0, rank := 1, addr := a, data := p.data, sel := [], poison := p.poison })) ∧
    -- a contribution takes its slot; where it was the last that a firing waited for, own value and slots fold in ascending order
    (∀ p x, s.arg = .piece p → s.away p.dst = false → p.copyTo = none → p.flow = none → s.fireOf p.src p.fid = none → (s.core p.dst).active < 2 →
      (s.core p.dst).tile p.entry = some x → tcCombine x.img = true → bitOf (tcExpect x.img) p.slot = true → p.slot < 4 → tcWin x.img = (p.off, p.data.length) →
      p.index < tcRows x.img → (∀ y ∈ x.contribs, y.slot = p.slot → y.piece ≠ p.index) →
      let taken := x.contribs ++ [({ slot := p.slot, piece := p.index, at_ := s.now, data := p.data, poison := p.poison } : Contrib)]
      (x.firing = none → ∃ t y, exec .pieceArrival s = .next t ∧ (t.core p.dst).tile p.entry = some y ∧ y.img = x.img ∧ y.contribs = taken ∧ t.wb = s.wb ∧
        t.mem = s.mem ∧ onlyCore s t p.dst) ∧
      (∀ (f : Firing) (o : Piece) (t0 : Nat) (d : Nat → List Byte), x.firing = some f.id → (s.core p.dst).fires = [f] → f.entry = p.entry → f.img = x.img → f.own = [(t0, o)] → o.index = p.index →
        taken.Pairwise (fun a b => a.slot ≠ b.slot ∨ a.piece ≠ b.piece) →
        (∀ sl < 4, bitOf (tcExpect x.img) sl = true → ∃ y ∈ taken, y.slot = sl ∧ y.piece = p.index ∧ y.data = d sl) →
        ∃ t e q, exec .pieceArrival s = .next t ∧ e ∈ t.agenda ∧ e.act = .run .combineWrite (.piece q) ∧ s.now + 4 ≤ e.at_ ∧ q.index = p.index ∧ q.src = o.src ∧
          q.copyTo = o.copyTo ∧ q.data = ((List.range 4).filter (fun sl => bitOf (tcExpect x.img) sl)).foldl (fun r sl => operateAll (tcOp x.img) r (d sl)) o.data))) ∧
  (
  ∀ (s : State),
    (∀ c f p, s.arg = .piece p → p.src = c → p.fid = f.id → (s.core c).fires = [f] → f.left = 1 → f.done = false → (s.core c).tile f.entry = none →
      ∃ t, exec .firingComplete s = .next t ∧ (∃ g ∈ (t.core c).fires, g.id = f.id ∧ g.done = true) ∧
        (∃ a ∈ t.agenda, a.act = .run .firingComplete (.nums [c, f.id, 0]) ∧ a.at_ = s.now + 1) ∧ onlyCore s t c ∧ t.mem = s.mem) ∧
    (∀ c f, s.arg = .nums [c, f.id, 0] → (s.core c).fires = [f] → tcPost f.img = 2 →
      ∃ t, exec .firingComplete s = .next t ∧ t.sets = (c, .sbSet (BitVec.ofNat 64 (2 ^ tcPbit f.img))) :: s.sets ∧ (t.core c).fires = [] ∧
        ((∃ i : Fin 8, (s.core c).trig[i].armed = true) → ∃ a ∈ t.agenda, a.act = .run .triggerFire (.nums [c]))) ∧
    (∀ c b, s.arg = .nums [c, b] → s.away c = false → b < 64 → ∃ t, exec .postBitArrival s = .next t ∧
      t.sets = (c, .sbSet (BitVec.ofNat 64 (2 ^ b))) :: s.sets ∧
      ((∃ i : Fin 8, (s.core c).trig[i].armed = true) → ∃ a ∈ t.agenda, a.act = .run .triggerFire (.nums [c])) ∧ t.cores = s.cores) ∧
    (∀ c pc pn b old, s.arg = .word [c, pc, pn, b] old →
      (pn = 0 ∨ (old + 1).toNat ≠ pn → exec .semaphoreHandoff s = .next s) ∧
      (pn ≠ 0 → (old + 1).toNat = pn → pc / 1024 = (s.core c).bnd.pkgPos → coreDie c = coreDie (pc % 1024) → ∃ t, exec .semaphoreHandoff s = .next t ∧
        (∃ a ∈ t.agenda, a.act = .run .postBitArrival (.nums [pc % 1024, b]) ∧ a.at_ = s.now + 9 + 2 * hops c (pc % 1024)) ∧ t.cores = s.cores)) ∧
    (∀ c (x : Trigger), s.arg = .nums [c] → (s.core c).trig = (Vector.replicate 8 {}).set 0 x → x.armed = true → x.action = 2#64 →
      (x.mask &&& (s.core c).sr.sboard) = x.mask → (s.core c).bqv.taken s.now < 16 →
      ∃ t, exec .triggerFire s = .next t ∧ (∀ i : Fin 8, (t.core c).trig[i].armed = false) ∧ t.sets = s.sets ∧ (t.core c).sr = (s.core c).sr ∧
        (t.core c).bqv.items = (s.core c).bqv.items ++ [(s.now, { addr := 0, left := 1, spec := false, tag := 0, pushed := s.now })]) ∧
    (∀ c, s.arg = .nums [c] → (∀ i : Fin 8, (s.core c).trig[i].armed = false) → exec .triggerFire s = .next s) ∧
    (∀ n m f, s.arg = .nums [n, m] → s.flows = [f] → f.src = n → f.dst = m → 0 < f.inUse →
      exec .slotFreeNotice s = .next { s with flows := [{ f with inUse := f.inUse - 1, soon := f.soon ++ [s.window + 1] }] }))

/-! ### Beats, banks and copies (R99, R193, R263 to R268, R283, R303, R304) -/

/-- R99, R263, R264, R266 and R268: beat n closes after its length and n + 1 opens in the next cycle, with a new table only at a multiple of 16; writes to
W and B wait for the close; a bank request is admitted to its beat or is BEAT_LATE; a program starts in its compute beat; an anchor lets its
stope go on from one pulse. -/
def Obligations.BeatEvents : Prop :=
  ∀ (s : State),
    (s.arg = .nums [0] → ∃ t, exec .beatOpen s = .next t ∧ t.beat = (s.beat + 1) % 2 ^ 48 ∧ t.beatAt = s.now ∧
      t.beatTab = (if t.beat % 16 = 0 then s.beatNext.getD s.beatTab else s.beatTab) ∧ t.beatNext = (if t.beat % 16 = 0 then none else s.beatNext) ∧
      (∃ e ∈ t.agenda, e.act = .run .beatClose (.nums [0]) ∧ e.phase = 3 ∧ e.at_ = s.now + (t.beatEnt t.beat).len - 1) ∧
      t.mem = s.mem ∧ ∀ x, (t.core x).seam = (s.core x).seam) ∧
    (s.arg = .nums [0] → ∃ t, exec .beatClose s = .next t ∧
      (∃ e ∈ t.agenda, e.act = .run .beatOpen (.nums [0]) ∧ e.phase = 0 ∧ e.at_ = s.now + 1)) ∧
    (∀ k w, s.arg = .nums [0] → s.cores = [(0, k)] → k.banks = (Vector.replicate 32 {}).set 0 { writes := [w] } → w.sel = [] → Memory.wf k.seam = true →
      Sound k → w.poison = false → ∃ t, exec .beatClose s = .next t ∧ ((t.core 0).bank 0).writes = [] ∧
        (∀ i < w.data.length, (t.core 0).seam.read (w.addr + i) = w.data.getD i 0) ∧
        (∀ a, (a < w.addr ∨ w.addr + w.data.length ≤ a) → (t.core 0).seam.read a = k.seam.read a)) ∧
    (∀ c r, s.arg = .nums [c, r.id] → (s.core c).arriving = [r] →
      (s.bankFits c r = true → s.pastF r.core c r.beat = false → ∃ t, exec .bankRequestArrival s = .next t ∧ ((t.core c).bank r.bank).queue = (if r.bank < 32 then ((s.core c).bank r.bank).queue ++ [r] else []) ∧
        (t.core c).arriving = [] ∧ (t.core c).seam = (s.core c).seam) ∧
      (s.bankFits c r = false → r.slide = false → r.src = 2 → (s.core r.core).fault = none → ∃ t f, exec .bankRequestArrival s = .next t ∧
        (t.core r.core).fault = some f ∧ f.code = 0x15 ∧ f.unit = r.bank ∧ (t.core c).arriving = [])) ∧
    (∀ c b r slot aa ab l, s.arg = .nums [c, b] → b < 32 → s.isCompute (s.coreBeat c).1 = true → s.pastF c c (s.coreBeat c).1 = false →
      (s.core c).bank b = { ((s.core c).bank b) with queue := [r], engine := none, ended := [], waits := [] } → r.bank = b → r.job = .prog slot aa ab l →
      r.beat = (s.coreBeat c).1 → Table.getD (s.core c).act.progs slot [] ≠ [] →
      ∃ t e, exec .bankProgramStart s = .next t ∧ ((t.core c).bank b).engine = some e ∧ e.req = r ∧ e.code = Table.getD (s.core c).act.progs slot [] ∧
        e.idx = 0 ∧ e.aa = aa ∧ e.ab = ab ∧ e.ainc = 1 ∧ e.binc = 1 ∧ e.cnt = 0 ∧ e.mode = 0 ∧ t.mem = s.mem ∧
        ∃ a ∈ t.agenda, a.act = .issue c (.bank (BitVec.ofNat 5 b)) ∧ a.at_ = s.now) ∧
    (∀ c b e, s.arg = .nums [c, b] → b < 32 → s.isCompute (s.coreBeat c).1 = true → s.pastF c c (s.coreBeat c).1 = false →
      ((s.core c).bank b).engine = some e → e.suspended = true →
      ∃ t, exec .bankProgramStart s = .next t ∧ ((t.core c).bank b).engine = some { e with suspended := false }) ∧
    (∀ id p c, s.arg = .nums [id] → s.stopes.find? (fun x => x.id == id) = some p → s.anchorReady p = true → p.cores = [c] → (s.core c).sc.halted = false →
      ∃ t, exec .anchorRelease s = .next t ∧ (t.core c).sc.waiting = false ∧ (t.core c).anchor = none ∧
        (∃ e ∈ t.agenda, e.act = .issue c .scalar ∧ e.at_ = s.dueAt (s.now + pulseDelay c + 1 + (s.core c).gapAt .scalar (s.core c).sc.next) (some c)) ∧
        onlyCore s t c ∧ t.mem = s.mem) ∧
    (∀ id p, s.arg = .nums [id] → s.stopes.find? (fun x => x.id == id) = some p → s.anchorReady p = false → exec .anchorRelease s = .next s)

/-- R93, R283, R293, R303 and R304: the head block of a queue starts its stream; the copy engine takes its next descriptor, translates a chunk or
holds with its fault once every chunk before has performed, reads up to 8 words of A a cycle and writes them 8 cycles and their hops later with
its rank, keeps words for a bank or for global memory until they are handed on, and takes up the next descriptor after the last word. That a waiting
engine looks again in every cycle is the model's (log 132, DESIGN CHOICE), how it counts its chunks is DEDUCED (log 129). -/
def Obligations.BlockAndCopyEvents : Prop :=
  ∀ (s : State) (c : Nat),
    (∀ p e rest, s.arg = .strm c .vector → (s.core c).bqv.items = (p, e) :: rest → (s.core c).ve.live = false → (s.core c).sc.halted = false → (s.core c).ve.replay = [] → p < s.now →
      ∃ t, exec .blockStart s = .next t ∧ (t.core c).ve.live = true ∧ (t.core c).ve.next = e.addr ∧ (t.core c).bqv = (s.core c).bqv ∧
        due s t (s.now + (s.core c).gapAt .vector e.addr) 2 (some c) (.issue c .vector) ∧ onlyCore s t c) ∧
    (∀ p e rest, s.arg = .strm c .matrix → (s.core c).bqm.items = (p, e) :: rest → (s.core c).mx.live = false → (s.core c).sc.halted = false → (s.core c).mx.replay = [] → p < s.now →
      ∃ t, exec .blockStart s = .next t ∧ (t.core c).mx.live = true ∧ (t.core c).mx.next = e.addr ∧ (t.core c).bqm = (s.core c).bqm ∧
        due s t (s.now + (s.core c).gapAt .matrix e.addr) 2 (some c) (.issue c .matrix) ∧ onlyCore s t c) ∧
    (∀ d rest, s.arg = .nums [c] → (s.core c).copy = none → (s.core c).copyQ = d :: rest →
      (s.localCyc c < d.entry.icyc + 4 → ∃ t, exec .descriptorStart s = .next t ∧ t.cores = s.cores ∧
        due s t (s.now + (d.entry.icyc + 4 - s.localCyc c)) 1 (some c) (.run .descriptorStart (.nums [c]))) ∧
      (d.entry.icyc + 4 ≤ s.localCyc c → ∃ t, exec .descriptorStart s = .next t ∧ (t.core c).copyQ = rest ∧
        (t.core c).copy = some { desc := d, start := s.now } ∧ onlyCore s t c ∧ t.mem = s.mem)) ∧
    (∀ x, s.arg = .nums [c] → (s.core c).copy = some x → x.holding = false →
      (∀ va kind f, s.chunkOutcome c x.chunkSides = some (va, kind, .fault f) →
        (x.performed < x.nextWord → ∃ t, exec .copyChunkTranslation s = .next t ∧ t.cores = s.cores ∧
          due s t (s.now + 1) 1 (some c) (.run .copyChunkTranslation (.nums [c]))) ∧
        (x.nextWord ≤ x.performed → (s.core c).fault = none → ∃ t g y, exec .copyChunkTranslation s = .next t ∧ (t.core c).fault = some g ∧
          g.code = f.code ∧ g.va = f.va ∧ g.source = 3 ∧ (t.core c).copy = some y ∧ y.holdAt = some x.nextWord ∧ t.mem = s.mem)) ∧
      (∀ va kind, s.chunkOutcome c x.chunkSides = some (va, kind, .miss) → ∃ t, exec .copyChunkTranslation s = .next t ∧ t.cores = s.cores ∧
        (∃ w ∈ t.walks, w.unit = 1 ∧ w.core = c ∧ w.va = va / 4096 * 4096) ∧ due s t (s.now + 1) 1 (some c) (.run .copyChunkTranslation (.nums [c]))) ∧
      (∀ va l pa, s.chunkOutcome c x.chunkSides = none → x.chunkSides = [(0, va :: l, kindCopySrc)] → s.pageOf 1 c va kindCopySrc false = .ok pa →
        ∃ t y, exec .copyChunkTranslation s = .next t ∧ (t.core c).copy = some y ∧ (0, va / 4096, pa / 4096) ∈ y.pages ∧ y.nextWord = x.nextWord ∧
          (∃ e ∈ t.agenda, e.act = .run .copyWord (.copy c x.nextWord .read) ∧ e.at_ = s.now) ∧ t.mem = s.mem)) ∧
    (∀ x, s.arg = .copy c x.nextWord .read → (s.core c).copy = some x → x.holding = false → x.desc.sspace = 0 → x.desc.dspace = 0 → x.desc.scale = none →
      x.desc.cross c = false → Sound (s.core (x.desc.srcCore c)) →
      let ws := x.desc.run x.nextWord 8
      ∃ t y, exec .copyWord s = .next t ∧ (t.core c).copy = some y ∧ y.unsent = x.unsent ++ ws ∧ t.wb = s.wb ∧ t.mem = s.mem ∧
        ∃ e ∈ t.agenda, e.at_ = s.now + 8 + 2 * x.desc.hd c ∧ e.act = .run .copyWord (.copy c x.nextWord
          (.write (ws.flatMap (fun u => (s.core (x.desc.srcCore c)).a.readBytes (x.desc.word u).src 32)) 0))) ∧
    (∀ x w data, s.arg = .copy c w (.write data 0) → (s.core c).copy = some x → x.holding = false → x.desc.scale = none → x.desc.dspace = 0 →
      data.length = 32 → x.performed + 1 < x.words → ∃ t y, exec .copyWord s = .next t ∧
        t.wb = { core := x.desc.dstCore c, space := 0, rank := 2, addr := (x.desc.word w).dst, data, sel := [], poison := false } :: s.wb ∧
        (t.core c).copy = some y ∧ y.performed = x.performed + 1 ∧ w ∉ y.unsent ∧ t.mem = s.mem) ∧
    (∀ x w, s.arg = .copy c w .performed → (s.core c).copy = some x → x.words ≤ x.performed + 1 → ∃ t, exec .copyWord s = .next t ∧
      (t.core c).copy = none ∧ (t.core c).copyFree = s.now + 1 ∧ due s t (s.now + 1) 1 (some c) (.run .descriptorStart (.nums [c])) ∧ t.wb = s.wb) ∧
    (∀ x w data, s.arg = .copy c w (.data data 0) → (s.core c).copy = some x → (isBankSpace x.desc.dspace = true ∨ x.desc.dspace = 5) →
      x.desc.scale = none → w ∈ x.unsent → data.length = 32 →
      ∃ t y, exec .copyWord s = .next t ∧ (t.core c).copy = some y ∧ y.parked = x.parked ++ [(w, data, false)] ∧ t.wb = s.wb ∧ t.mem = s.mem ∧
        ∃ e ∈ t.agenda, e.act = .run .copyWord (.copy c 0 .hand) ∧ e.at_ = s.now)

/-! ### Homes, the stream unit and devices (R188 to R190, R281, R295, R297, R332, R371, R374, R406, R407) -/

/-- R189: what each atomic leaves in memory, of the old value and rb, `n` bytes wide.

R188, R189, R281, R284 and R322: at its moment a request of a stream performs once at its LPDDR home: a store puts the bytes it selects, a load
takes them, an atomic does both in one step; a slot without a request of its own is released. -/
def Obligations.GlobalRequestsPerform : Prop :=
  (
  ∀ (old b : BitVec 64) (x y : BitVec 32) (rd : BitVec 5) (b' : Word64), b'.setWidth 32 = y →
    let wide := fun op => (GJob.amo op 8 b rd).newValue 8 old.toNat
    let narrow := fun op => (GJob.amo op 4 b' rd).newValue 4 x.toNat
    wide 0 = some (old + b).toNat ∧ narrow 0 = some (x + y).toNat ∧
    wide 1 = some (if old.slt b then old else b).toNat ∧ narrow 1 = some (if x.slt y then x else y).toNat ∧
    wide 2 = some (if old.slt b then b else old).toNat ∧ narrow 2 = some (if x.slt y then y else x).toNat ∧
    wide 3 = some (min old.toNat b.toNat) ∧ narrow 3 = some (min x.toNat y.toNat) ∧
    wide 4 = some (max old.toNat b.toNat) ∧ narrow 4 = some (max x.toNat y.toNat) ∧
    wide 5 = some (old &&& b).toNat ∧ narrow 5 = some (x &&& y).toNat ∧
    wide 6 = some (old ||| b).toNat ∧ narrow 6 = some (x ||| y).toNat ∧
    wide 7 = some (old ^^^ b).toNat ∧ narrow 7 = some (x ^^^ y).toNat ∧
    wide 8 = some b.toNat ∧ narrow 8 = some y.toNat ∧
    narrow 9 = some (fpAdd fp32 0 x.toNat y.toNat).1 ∧
    (∀ c : Word64, (GJob.cas 8 b c rd).newValue 8 old.toNat = if old = b then some c.toNat else none)) ∧
  (
  ∀ (s : State) (id : Nat) (g : GReq), s.arg = .nums [id] → s.greqs.find? (fun x => x.id == id && !x.done) = some g → s.isLocal g.pa = true →
    s.migrations = [] → s.memUpsets = [] → s.memPoison = [] → s.resvs = [] → Memory.wf s.mem = true →
    let loc := g.pa % 2 ^ 50
    let old := s.mem.readBytes loc g.n
    let found := s.greqs.map (fun x => if x.id = id then { x with done := true, val := old, poisoned := false } else x)
    (g.n = 0 → exec .globalPerform s = .next { s with greqs := s.greqs.filter (fun x => x.id != id) }) ∧
    (∀ d sel, 0 < g.n → g.job = .store d sel → (sel = [] ∨ sel.length = d.length) → ∃ t, exec .globalPerform s = .next t ∧
      (∀ i < d.length, t.mem.read (loc + i) = if sel = [] ∨ sel.getD i false = true then d.getD i 0 else s.mem.read (loc + i)) ∧
      (∀ a, a < loc ∨ loc + d.length ≤ a → t.mem.read a = s.mem.read a) ∧ t = { s with mem := t.mem, greqs := s.greqs.filter (fun x => x.id != id) }) ∧
    (∀ rd size signed, 0 < g.n → g.job = .load rd size signed → exec .globalPerform s = .next { s with greqs := found }) ∧
    (∀ op size b rd, 0 < g.n → g.job = .amo op size b rd → ∃ t, exec .globalPerform s = .next t ∧
      leNat (t.mem.readBytes loc g.n) = amoFn op g.n (leNat old) b.toNat % 2 ^ (8 * g.n) ∧
      (∀ a, a < loc ∨ loc + g.n ≤ a → t.mem.read a = s.mem.read a) ∧ t = { s with mem := t.mem, greqs := found }) ∧
    (∀ size b w rd, 0 < g.n → g.job = .cas size b w rd → ∃ t, exec .globalPerform s = .next t ∧
      (leNat old = b.toNat % 2 ^ (8 * g.n) → leNat (t.mem.readBytes loc g.n) = w.toNat % 2 ^ (8 * g.n)) ∧
      (leNat old ≠ b.toNat % 2 ^ (8 * g.n) → t.mem = s.mem) ∧
      (∀ a, a < loc ∨ loc + g.n ≤ a → t.mem.read a = s.mem.read a) ∧ t = { s with mem := t.mem, greqs := found }))

/-- R371, R374, R376 and R377: an operation of the stream unit reads its descriptor afresh; DSCUR sends a cursor to its register; a stream that is not
open raises STREAM_STATE; one at a descriptor of another package ends with the answer that comes, as one of theirs gets its answer here (operations of
other packages and their answers as messages are the model's, log 67, DESIGN CHOICE); the playback side publishes a frame's record before it counts it,
and moves its cursor; a page fault of the network port's reads interrupts the kernel (R293). -/
def Obligations.StreamUnitEvents : Prop :=
  ∀ (s : State) (id sid : Nat),
    (∀ o, s.arg = .nums [id] → s.dsops = [o] → o.id = id → o.far = false →
      (o.base = 0 → (s.core o.core).fault = none → ∃ t f, exec .dsPerform s = .next t ∧ (t.core o.core).fault = some f ∧ f.code = 0x31 ∧ f.source = 7 ∧
        t.mem = s.mem ∧ t.dsops = []) ∧
      (∀ d w, o.base ≠ 0 → o.op = 3 → s.dsLoad (.core o.core) o.base.toNat 256 = .ok (w, d) → (leNat ((d.drop 0x98).take 8)).testBit 0 = true →
        o.rd ≠ 0 → o.cur ≤ 2 → ∃ t, exec .dsPerform s = .next t ∧ t.mem = w.mem ∧ t.cores = w.cores ∧ t.dsops = [] ∧
        ∃ e ∈ t.agenda, ∃ r, e.act = .run .scalarResult (.sres r) ∧ r.core = o.core ∧ r.place = .reg o.rd ∧ r.stamp = o.stamp ∧
          r.val = BitVec.ofNat 64 (leNat ((d.drop (8 * o.cur)).take 8)) ∧ e.at_ = max ((w.frozenAt o.core).getD w.now) o.due)) ∧
    (∀ o n data code, s.arg = .reply n data code → s.dsops = [o] → o.id = n / 64 → o.far = true →
      (code = 0 → o.rd ≠ 0 → ∃ t, exec .dsPerform s = .next t ∧ t.mem = s.mem ∧ t.cores = s.cores ∧ t.dsops = [] ∧
        ∃ e ∈ t.agenda, ∃ r, e.act = .run .scalarResult (.sres r) ∧ r.core = o.core ∧ r.place = .reg o.rd ∧ r.stamp = o.stamp ∧
          r.val = BitVec.ofNat 64 (leNat (data.take 8))) ∧
      (code ≠ 0 → code ≠ 0x30 → (s.core o.core).fault = none → ∃ t f, exec .dsPerform s = .next t ∧ (t.core o.core).fault = some f ∧ f.code = code ∧
        f.source = 7 ∧ t.mem = s.mem ∧ t.dsops = [])) ∧
    (∀ pkg spid op cur win a b, s.arg = .far pkg (.ds id spid op cur win 0 a b) → s.heldBack pkg = false →
      exec .dsPerform s = .next (s.send pkg (.reply s.window id (leBytes 8 0) 0x31))) ∧
    -- a page that the network port does not find mapped interrupts the kernel, and the publication begins again
    (∀ f p x va, s.arg = .frame sid f → s.streamOf sid = some (p, x) → [x.desc + 0x20, x.desc + 0x30].find? (s.portMiss p.spid x.side) = some va →
      exec .framePublish s = .next ((s.post s.now 3 none (.run .portPageFault (.word [0, p.spid] (BitVec.ofNat 64 va)))).post (s.now + 1) 1 none
        (.run .framePublish (.frame sid f)))) ∧
    (∀ f p x, s.arg = .frame sid f → s.streamOf sid = some (p, x) → s.portMiss p.spid x.side (x.desc + 0x20) = false →
      s.portMiss p.spid x.side (x.desc + 0x30) = false →
      let n := s.procField p.spid (x.desc + 0x20) 8
      let slot := s.procField p.spid (x.desc + 0x30) 8 + 32 * (n % 64)
      let win := if x.side = 1 then s.window else f.win.toNat
      exec .framePublish s = .next ((s.playbackWrite p.spid x.side slot (leBytes 8 win ++ leBytes 8 f.mt.toNat ++ leBytes 4 f.len.toNat ++
        leBytes 2 (if f.barge then 1 else 0) ++ leBytes 2 0 ++ leBytes 8 f.pay.toNat)).playbackWrite p.spid x.side (x.desc + 0x20) (leBytes 8 (n + 1)))) ∧
    (∀ v p x, s.arg = .word [sid] v → s.streamOf sid = some (p, x) →
      exec .playbackCursorWrite s = .next (s.playbackWrite p.spid x.side (x.desc + 8) (leBytes 8 v.toNat)))

/-- R278, R293, R295, R297, R332, R337, R406 and R407: a hart's or host's write reaches its home if its master may write there, and a hart's atomic
answers the old value; a write of the network port to a page that is not mapped pauses and interrupts the resident kernel; a soft error flips one bit's record
and no data; a parity error is a fault that cannot be resumed; an invalidation takes effect in every TLB; a migrating page's line is copied;
a failed unit is withdrawn and reported. The model's choices: a denial outside the compute dies is recorded (log 50), an event's master where R299 gives
no ID (log 87), a soft error toggles its bit (log 88), one moment for all TLBs (log 86); all DESIGN CHOICE. -/
def Obligations.DeviceEvents : Prop :=
  ∀ (s : State),
    (∀ spid va d port pa h, s.arg = .write spid va d port → s.curHart = h → h < 16 → 0 < d.length → va.toNat % 4096 + d.length ≤ 4096 →
      s.isLocal pa = true → s.migrations = [] → s.deferred = [] → Memory.wf s.mem = true →
      let stored := fun (t : State) => (∀ i < d.length, t.mem.read (pa % 2 ^ 50 + i) = d.getD i 0) ∧
        (∀ a, a < pa % 2 ^ 50 ∨ pa % 2 ^ 50 + d.length ≤ a → t.mem.read a = s.mem.read a) ∧ t.cores = s.cores
      let asked := s.portRange (s.netPort.serve spid) 0x5000 va.toNat d.length true
      (s.walkPa spid va.toNat true = some pa →
        (s.mayAccess (0x7000 + h) pa d.length 1 = true → ∃ t, exec .hartWrite s = .next t ∧ stored t) ∧
        (s.mayAccess (0x7000 + h) pa d.length 1 = false → exec .hartWrite s = .next { s with denials := s.denials ++ [(0x7000 + h, spid, va.toNat)] }) ∧
        (port = false → s.mayAccess 0x8000 pa d.length 1 = true → ∃ t, exec .hostWrite s = .next t ∧ stored t) ∧
        (port = false → s.mayAccess 0x8000 pa d.length 1 = false → exec .hostWrite s = .next { s with denials := s.denials ++ [(0x8000, spid, va.toNat)] })) ∧
      (port = true → s.netPort.paused ≠ [] →
        exec .hostWrite s = .next { s with netPort := { s.netPort with paused := s.netPort.paused ++ [(spid, va.toNat, d)] } }) ∧
      (∀ u, port = true → s.netPort.paused = [] → asked = .ok ([(0, pa, d.length)], u) → ∃ t, exec .hostWrite s = .next t ∧ stored t ∧
        t.netPort = { u with paused := [] }) ∧
      (∀ a, port = true → s.netPort.paused = [] → asked = .error (0x12, a) → ∃ t, exec .hostWrite s = .next t ∧ t.mem = s.mem ∧ t.cores = s.cores ∧
        t.netPort.paused = [(spid, va.toNat, d)] ∧ ∃ e ∈ t.agenda, e.act = .run .portPageFault (.word [0, spid] (BitVec.ofNat 64 a))) ∧
      (∀ a, port = true → s.netPort.paused = [] → asked = .error (0x13, a) → ∃ t, exec .hostWrite s = .next t ∧ t.mem = s.mem ∧ t.netPort.paused = [] ∧
        t.denials = s.denials ++ [(0x5000, spid, a)])) ∧
    (∀ h spid va op size b rd pa, s.arg = .hartAmo h spid va op size b rd → h < 16 → (size = 4 ∨ size = 8) → va.toNat % size = 0 →
      s.walkPa spid va.toNat true = some pa → s.isLocal pa = true → s.migrations = [] → s.memUpsets = [] → Memory.wf s.mem = true →
      let loc := pa % 2 ^ 50
      let old := leNat (s.mem.readBytes loc size)
      (s.mayAccess (0x7000 + h) pa size 2 = true → ∃ t, exec .hartWrite s = .next t ∧
        leNat (t.mem.readBytes loc size) = amoFn op size old b.toNat % 2 ^ (8 * size) ∧
        (∀ a, a < loc ∨ loc + size ≤ a → t.mem.read a = s.mem.read a) ∧ t.cores = s.cores ∧
        (rd ≠ 0 → (t.hart h).reg rd.toNat = if size = 8 then BitVec.ofNat 64 old else (BitVec.ofNat 32 old).signExtend 64)) ∧
      (s.mayAccess (0x7000 + h) pa size 2 = false → exec .hartWrite s = .next s)) ∧
    (∀ c sp a b, s.arg = .site (.onDie c sp a b) → ∃ t, exec .softError s = .next t ∧ keepsBytes s t ∧
      ((sp, a / 32, a % 32 * 8 + b) ∈ (t.core c).upsets ↔ (sp, a / 32, a % 32 * 8 + b) ∉ (s.core c).upsets) ∧ onlyCore s t c) ∧
    (∀ c a b, s.arg = .site (.seam c a b) → ∃ t, exec .softError s = .next t ∧ keepsBytes s t ∧
      ((3, a / 32, a % 32 * 8 + b) ∈ (t.core c).upsets ↔ (3, a / 32, a % 32 * 8 + b) ∉ (s.core c).upsets) ∧ onlyCore s t c) ∧
    (∀ pa b, s.arg = .site (.lpddr pa b) → ∃ t, exec .softError s = .next t ∧ ((pa, b) ∈ t.memUpsets ↔ (pa, b) ∉ s.memUpsets) ∧ t = { s with memUpsets := t.memUpsets }) ∧
    (∀ c src, s.arg = .nums [c, src] → (s.core c).bound.isSome = true → (s.core c).fault = none → ∃ t f, exec .parityError s = .next t ∧
      (t.core c).fault = some f ∧ f.code = 0x18 ∧ f.source = src ∧ f.noresume = true ∧ (∃ e ∈ t.ring, e.kind = 3 ∧ e.master = coreMaster (sourceClass src) c ∧
        e.gen = (s.core c).bnd.gen ∧ e.cycle = s.originCycle e.gen (coreDie c)) ∧ t.mem = s.mem) ∧
    (∀ h, s.arg = .nums [h] → h < 16 → ∃ t, exec .tlbShootdownComplete s = .next t ∧
      (∀ i ∈ s.invals, i.1 = h → ∀ c, ∀ e, (e ∈ (t.core c).tlb ∨ e ∈ (t.core c).ctlb) → e.spid = i.2.1 → ∃ a, i.2.2 = some a ∧ (a < e.va ∨ e.va + e.size ≤ a)) ∧
      (∀ i ∈ s.invals, i.1 = h → ∀ e, (e ∈ t.netPort.tlb ∨ e ∈ t.stoPort.tlb) → e.spid = i.2.1 → ∃ a, i.2.2 = some a ∧ (a < e.va ∨ e.va + e.size ≤ a)) ∧
      (∀ i ∈ t.invals, i.1 ≠ h) ∧ h ∉ t.ktlbf ∧ (h ∈ s.ktlbf → (t.hart h).blocked = false ∧ (t.hart h).pc = (s.hart h).pc + 4) ∧
      (h ∉ s.ktlbf → t.harts = s.harts) ∧ t.mem = s.mem) ∧
    (∀ m l ls, s.arg = .nums [m.id] → s.migrations = [m] → m.phase = 0 → m.dirty = l :: ls → s.isLocal m.oldPa = true → s.isLocal (m.oldPa + 64 * l) = true →
      s.isLocal m.newPa = true → s.isLocal (m.newPa + 64 * l) = true → (m.newPa + 64 * l < m.oldPa ∨ m.oldPa + m.size ≤ m.newPa + 64 * l) → Memory.wf s.mem = true →
      ∃ t, exec .pageMigration s = .next t ∧ t.mem.readBytes ((m.newPa + 64 * l) % 2 ^ 50) 64 = s.mem.readBytes ((m.oldPa + 64 * l) % 2 ^ 50) 64 ∧
        t.migrations = [{ m with lines := m.lines ++ [l] }] ∧ (∃ e ∈ t.agenda, e.act = .run .pageMigration (.nums [m.id])) ∧ t.procs = s.procs) ∧
    (∀ c, s.arg = .failed (.core c) → s.launches = [] → s.fuse.coreOn c = true → ∃ t, exec .unitFailure s = .next t ∧ c ∈ t.withdrawn ∧ (∀ x ∈ s.withdrawn, x ∈ t.withdrawn) ∧
      (∃ e ∈ t.ring, e.kind = 4 ∧ e.master = coreMaster 0 c ∧ e.addr = c ∧ e.cycle = s.originCycle e.gen (coreDie c)) ∧ (∃ a ∈ t.agenda, ∃ g, a.act = .run .selection g) ∧ t.mem = s.mem)

/-! ### Barriers and trap windows (R344, R348, R387 to R393, R398, R399) -/

/-- R344, R348, R388, R390 to R393, R395 and R398: a completed phase is seen by every participant, and what another package's participants have come to is
kept; a frozen stope takes the lowest free trap window of its die; a handler that returns 0 resumes it, one that returns anything else ends its launch with
result 2; a window shows the selected core's registers and keeps what is written to it, by register writes and by a hart's own loads and stores; a release
ends the freeze, clears the fault records and shifts what was due. That a refused window runs its handler again is DEDUCED (log 89). -/
def Obligations.BarrierAndTrapEvents : Prop :=
  ∀ (s : State),
    (∀ key n, s.arg = .bar key n → (s.barSt key).due < n → exec .barrierComplete s = .next s) ∧
    (∀ key n, s.arg = .bar key n → n ≤ (s.barSt key).due → ∃ t, exec .barrierComplete s = .next t ∧
      (t.barSt key).complete = max (s.barSt key).complete n ∧ (t.barSt key).due = (s.barSt key).due ∧
      (∀ c ∈ s.participants key, ∀ a ∈ (t.core c).bars, a.key = key → a.phase ≤ n → a.complete = true) ∧
      (∀ c, (t.core c).s = (s.core c).s ∧ (t.core c).sc = (s.core c).sc) ∧ t.mem = s.mem) ∧
    (∀ key p n w, s.arg = .arrival key p n w → (n ≤ (Table.getD (s.barSt key).far p (0, 0)).1 → exec .barrierComplete s = .next s) ∧
      (p ≠ s.pkg → key.bar ≠ everyBar → (Table.getD (s.barSt key).far p (0, 0)).1 < n → ∃ t, exec .barrierComplete s = .next t ∧
        Table.getD (t.barSt key).far p (0, 0) = (n, w) ∧ t.cores = s.cores ∧ t.mem = s.mem)) ∧
    (∀ id p l, s.arg = .nums [id] → s.stopes = [p] → p.id = id → p.die < 2 → p.frozen.isSome = true → p.window = none → s.launch? p.gen = some l → l.st = .running →
      l.cancelled = true → (∀ w, (s.win p.die w).st = 3) → ∃ t, exec .trapWindowDelivery s = .next t ∧ (t.win p.die 0).st = 0 ∧ (t.win p.die 0).stope = some id ∧
        (∃ q ∈ t.stopes, q.id = id ∧ q.window = some 0) ∧ (∃ h < 16, 24 ∈ (t.hart h).causes) ∧ t.mem = s.mem ∧ t.cores = s.cores) ∧
    (∀ id p, s.arg = .nums [id] → s.stopes = [p] → p.id = id → p.die < 2 → p.frozen.isSome = true → p.window = none → (s.launch? p.gen).isSome = true →
      (∀ l, s.launch? p.gen = some l → l.st = .running) → (∀ w < 16, (s.win p.die w).st ≠ 3) →
      exec .trapWindowDelivery s = .next (s.modStope id (fun q => { q with waitWindow := true }))) ∧
    (∀ id p f c, s.arg = .nums [id] → s.stopes = [p] → p.id = id → p.frozen = some f → p.window = none → p.cores = [c] → ∃ t, exec .release s = .next t ∧
      (∃ q, t.stopes = [q] ∧ q.frozen = none ∧ q.stalled = p.stalled + p.relShift ∧ q.cores = [c]) ∧ (t.core c).fault = none ∧
      (t.core c).a = (s.core c).a ∧ (t.core c).c = (s.core c).c ∧ (t.core c).sr = (s.core c).sr ∧ t.mem = s.mem ∧
      (∀ e ∈ s.agenda, (∃ i a, e.act = .run i a ∧ i ≠ .blockStart ∧ i ≠ .stallRelease) → e.hold = some c → ∃ x ∈ t.agenda, x.act = e.act ∧ x.at_ = e.at_ + p.relShift)) ∧
    (∀ die w v, s.arg = .word [die, w] v → (∀ h < 16, (s.hart h).handling ≠ some (die, w)) → exec .handlerReturn s = .next s) ∧
    -- a handler that returns 0 resumes its window, one that returns anything else ends its launch with result 2
    (∀ die w h v p l, s.arg = .word [die, w] v → die < 2 → w < 16 → h < 16 → (s.hart h).handling = some (die, w) →
      (∀ g < 16, g ≠ h → (s.hart g).handling ≠ some (die, w)) → s.stopes = [p] → (s.win die w).stope = some p.id → (s.win die w).st = 0 ∨ (s.win die w).st = 2 →
      (∀ d x, (d, x) ≠ (die, w) → (s.win d x).stope = none) → s.launch? p.gen = some l →
      (v ≠ 0 → l.result = 0 → ∃ t x, exec .handlerReturn s = .next t ∧ t.launch? p.gen = some x ∧ x.cancelled = true ∧ x.result = 2 ∧
        (∃ e ∈ t.agenda, e.act = .run .preemption (.nums [p.gen]) ∧ e.at_ = s.now) ∧ t.cores = s.cores ∧ t.mem = s.mem) ∧
      (v = 0 → s.refusedAt p (s.win die w) = none → ∃ t, exec .handlerReturn s = .next t ∧ (t.win die w).st = 1 ∧
        (∃ e ∈ t.agenda, e.act = .run .release (.nums [p.id])) ∧ t.launches = s.launches ∧ t.mem = s.mem)) ∧
    -- what a window shows and what a write to it does, by the kernel's registers and by a hart's loads and stores of a doubleword
    (∀ die w p c, die < 2 → w < 16 → s.stopes = [p] → (s.win die w).stope = some p.id → (s.win die w).shown die p = some c →
      s.readRegister (.window die w 0) = BitVec.ofNat 64 p.gen ∧
      (s.wb = [] → s.sets = [] → s.agenda = [] → ∀ r < 32, s.readRegister (.window die w (0x1000 + 8 * r)) = (s.core c).sval r) ∧
      ∀ off v, let t := s.writeWindow die w off v
        (s.arg = .reg (.window die w off) v → exec .registerWrite s = .next t) ∧ t = { s with dies := t.dies } ∧
        (∀ d x, (d, x) ≠ (die, w) → t.win d x = s.win d x) ∧
        ((s.win die w).waits = false → t = s) ∧
        ((s.win die w).waits = true → off = 8 → t.win die w = { s.win die w with coreSel := v.toNat / 2 ^ 48 }) ∧
        ((s.win die w).waits = true → 0x1000 ≤ off → off % 8 = 0 → (t.win die w).written c off = some v ∧
          (∀ x o, (x, o) ≠ (c, off) → (t.win die w).written x o = (s.win die w).written x o) ∧ (t.win die w).coreSel = (s.win die w).coreSel)) ∧
    (∀ h word die w off, h < 16 → off % 8 = 0 → bitsOf word 12 3 = 3 →
      let a := (s.hart h).reg (bitsOf word 15 5)
      (bitsOf word 0 7 = 0x03 → s.hartWindow h (a + immI word).toNat = some (die, w, off) →
        s.hartBase h word = s.hartSet h 4 (bitsOf word 7 5) (s.readRegister (.window die w off))) ∧
      (bitsOf word 0 7 = 0x23 → s.hartWindow h (a + immS word).toNat = some (die, w, off) →
        s.hartBase h word = (s.writeWindow die w off ((s.hart h).reg (bitsOf word 20 5))).hartOn h 4 id)) ∧
    (∀ v, s.arg = .word [0, 0] v → s.harts = (Vector.replicate 16 {}).set 0 { handling := some (0, 0), under := some { x := Vector.replicate 32 7, pc := 64, f := Vector.replicate 32 9, mode := 0, spid := some 1, blocked := false } } →
      s.dies = Vector.replicate 2 {} → ∃ t, exec .handlerReturn s = .next t ∧ (t.hart 0).handling = none ∧ (t.hart 0).pc = 64 ∧ (t.hart 0).x = Vector.replicate 32 7 ∧ (t.hart 0).f = Vector.replicate 32 9 ∧
        (t.hart 0).mode = 0 ∧ (t.hart 0).running = true ∧ t.mem = s.mem)

/-! ### Launches (R57, R60, R61, R73 to R77, R80, R81, R87 to R89) -/

/-- R57, R58, R60, R61, R73, R75 to R77, R80, R81, R88 and R89: a fitting head is latched; packets, READY, ABORT and reports of other packages are
taken up; an overlay fills the shadow planes; the pulse starts every core at its entry; a launch completes with its tokens. -/
def Obligations.LaunchEvents : Prop :=
  ∀ (s : State) (gen : Nat) (l : Launch),
    (s.latched.isSome = true ∨ s.power.tripped = true → exec .selection s = .next s) ∧
    (∀ q insts, s.latched = none → s.power.tripped = false → s.reserving = none → q < 64 → s.queueHead q = some l → (∀ x, x ≠ q → s.queueHead x = none) →
      l.headAt.isSome = true → s.waitsMet l = true → l.parts.length ≤ 1 → s.effPrio l ≤ 7 → s.fits l = .ok insts →
      ∃ t, exec .selection s = .next t ∧ t.latched = some l.gen ∧ vget t.queues q [] = (vget s.queues q []).tail ∧ vget t.lastServed (s.effPrio l) 63 = q ∧
        t.mem = s.mem) ∧
    (∀ m, s.arg = .packet m →
      (s.queueLoad (m.queue % 64) < 256 → ∃ t x, exec .multiPackagePacket s = .next t ∧ x ∈ t.launches ∧ x.gen = m.gen ∧ x.spid = m.spid ∧ x.st = .reserved ∧
        x.release = some (m.sent + 2) ∧ x.remote = true ∧ x.queue = m.queue % 64 ∧ t.cores = s.cores ∧ t.mem = s.mem) ∧
      (256 ≤ s.queueLoad (m.queue % 64) → ∃ t, exec .multiPackagePacket s = .next t ∧ t.launches = s.launches ∧ t.queues = s.queues)) ∧
    (∀ pkg win cores, s.arg = .nums (gen :: pkg :: win :: cores) → s.launch? gen = some l → ∃ t x, exec .ready s = .next t ∧ t.launch? gen = some x ∧
      (pkg, win) ∈ x.readyWin ∧ (pkg, cores) ∈ x.readyCores ∧
      (∀ r ∈ x.readyWin, r.1 = pkg → r.2 = win) ∧ (l.st ≠ .ready → x.st = l.st) ∧ t.mem = s.mem ∧ t.cores = s.cores) ∧
    (∀ pkg z code entry, s.arg = .nums [gen, pkg, z, code, entry] → s.launch? gen = some l →
      (l.st = .running → l.result = 0 → ∃ t x, exec .abort s = .next t ∧ t.launch? gen = some x ∧ x.cancelled = true ∧ x.result = 2 ∧ x.code = code ∧ x.entry = entry ∧
        (∃ e ∈ t.agenda, e.act = .run .preemption (.nums [gen]) ∧ e.at_ = s.now) ∧ t.cores = s.cores) ∧
      (l.st = .queued → l.result = 0 → ∃ t x, exec .abort s = .next t ∧ t.launch? gen = some x ∧ (x.st = .retired ∨ x.st = .complete) ∧ x.result = 1 ∧
        x.code = code ∧ x.entry = entry ∧ x.pkgAt = pkg ∧ (∀ q < 64, gen ∉ vget t.queues q [])) ∧
      (l.st = .complete → exec .abort s = .next s)) ∧
    (∀ pkg failed, s.arg = .nums [gen, pkg, 0, 0, 0, failed] → s.launch? gen = some l → ∃ t x, exec .retirementReport s = .next t ∧ t.launch? gen = some x ∧ pkg ∈ x.reports ∧
      (∀ r ∈ l.reports, r ∈ x.reports) ∧ x.result = l.result ∧
      ((∀ p ∈ l.parts, p = pkg ∨ p ∈ l.reports) → ∃ e ∈ t.agenda, e.act = .run .launchComplete (.nums [gen]) ∧ e.at_ = s.now) ∧ t.cores = s.cores) ∧
    (∀ tok, s.arg = .nums [gen] → s.launch? gen = some l → l.st ≠ .complete → l.origin = s.pkg → l.graphRun = none → l.pkt.sigs = [tok] → tok < 0x7FFF →
      l.pkt.status = 0 → (s.proc? l.spid).isSome = true → ∃ t x, exec .launchComplete s = .next t ∧ t.launch? gen = some x ∧ x.st = .complete ∧
        t.tokenCount l.spid none tok = (s.tokenCount l.spid none tok + 1) % 2 ^ 48 ∧ (∃ e ∈ t.agenda, ∃ a, e.act = .run .selection a) ∧ t.mem = s.mem) ∧
    (∀ p c, s.arg = .nums [gen, p.die] → s.stopes = [p] → p.gen = gen → p.started = none → p.cores = [c] → s.launch? gen = some l →
      ∃ t x, exec .startPulse s = .next t ∧ (t.core c).active = 1 - (s.core c).active ∧ (t.core c).bt = s.beat ∧ (t.core c).sc.live = true ∧
        (t.core c).sc.next = (s.core c).bnd.entry ∧ (∃ e ∈ t.agenda, e.act = .issue c .scalar ∧ e.hold = some c) ∧ t.latched = none ∧ t.launch? gen = some x ∧
        x.st = .running ∧ (∃ y, t.stopes = [y] ∧ y.started = some s.now) ∧ t.mem = s.mem ∧ onlyCore s t c) ∧
    (∀ p c k o z rest, s.arg = .nums [p.die] → p.die < 2 → (vget s.dies p.die {}).loads = (gen, k, o, z) :: rest → s.stopes = [p] → p.gen = gen → p.cores = [c] →
      (s.core c).bnd.kernel = k → (s.core c).active < 2 → (∀ x, (s.core c).act.ovl = some x → x < o) → s.launch? gen = some l → l.saved = [] →
      l.parts.length ≤ 1 → ∃ t, exec .overlayLoad s = .next t ∧ (t.core c).shadow = planeOf (s.kernelStreams gen k) o ∧ (t.core c).act = (s.core c).act ∧
        (vget t.dies p.die {}).loads = rest ∧ t.mem = s.mem ∧ onlyCore s t c)

/-- R399 to R405 and R408: pre-emption freezes the stopes and asks every engine to stop; after the last acknowledgement the save takes its time; then
the cores are free, their images stand in the save area (what the rules leave open of it is log 145) and the launch heads its queue again; evicted banks
stand there too; at the end of its interval a reserving head pre-empts the fewest launches of lower priority after which it fits (their order is log 35); a launch
whose cores have halted and drained retires. -/
def Obligations.PreemptionAndRetirement : Prop :=
  ∀ (s : State) (gen c : Nat) (l : Launch) (p : Stope),
    (s.arg = .nums [gen] → s.launch? gen = some l → l.st = .running → s.stopes = [p] → p.gen = gen → p.cores = [c] → p.frozen = none → p.window = none →
      s.resuming gen = false → s.finalFault gen = none → ∃ t x, exec .preemption s = .next t ∧ t.launch? gen = some x ∧ x.st = .saving ∧
        (∃ y, t.stopes = [y] ∧ y.frozen = some s.now ∧ y.cores = [c]) ∧ (t.core c).acks = [] ∧ keepsBytes s t ∧ (∀ y, (t.core y).s = (s.core y).s) ∧
        (∀ i < 6, ∃ e ∈ t.agenda, e.act = .run .engineAck (.nums [c, i]) ∧ e.at_ = s.now + 1)) ∧
    (s.arg = .nums [gen] → s.launch? gen = some l → l.st = .queued → exec .preemption s = .next s) ∧
    (s.arg = .nums [gen] → s.reserve = none → exec .preemptionInterval s = .next s) ∧
    -- the reserving head: the fewest running launches of lower priority, in their order, after which it fits, are pre-empted
    (∀ q, s.arg = .nums [gen] → s.reserve = some (gen, q) → s.launch? gen = some l →
      let u := s.post (s.now + s.power.preemptEvery) 3 none (.run .preemptionInterval (.nums [gen]))
      let lower := u.yielding (fun x => x.st == .running && decide (q < u.effPrio x))
      let fitsWithout := fun (n : Nat) => ∃ insts, ((lower.take n).foldl (fun t x => t.without x.gen) u).fits l = .ok insts
      (∀ n ≤ lower.length, fitsWithout n → (∀ m < n, ¬ fitsWithout m) → exec .preemptionInterval s =
        .next ((lower.take n).foldl (fun t x => t.post t.now 3 none (.run .preemption (.nums [x.gen]))) u)) ∧
      ((∀ n ≤ lower.length, ¬ fitsWithout n) → exec .preemptionInterval s = .next u)) ∧
    (∀ v, s.arg = .word [] v → exec .preemptionInterval s = .next { s with power := { s.power with preemptEvery := v.toNat } }) ∧
    (∀ i, s.arg = .nums [c, i] → s.stopeOf c = some p → s.launch? p.gen = some l → l.st = .saving → i ∉ (s.core c).acks → (i = 0 → (s.core c).resolve = []) →
      (s.engineQuiet c i = false → exec .engineAck s = .next (s.post (s.now + 1) 3 none (.run .engineAck (.nums [c, i])))) ∧
      (s.engineQuiet c i = true → s.finalFault p.gen = none → p.cores = [c] → ∃ t, exec .engineAck s = .next t ∧ (t.core c).acks = i :: (s.core c).acks ∧
        ((∀ j < 6, j = i ∨ j ∈ (s.core c).acks) → ∃ e ∈ t.agenda, e.act = .run .contextSaveComplete (.nums [p.gen, p.die]) ∧ e.at_ = s.now + 544000) ∧
        onlyCore s t c ∧ t.mem = s.mem)) ∧
    (s.arg = .nums [gen, p.die] → s.stopes = [p] → p.gen = gen → p.cores = [c] → p.window = none → s.launch? gen = some l → l.st = .saving → l.cancelled = false →
      s.finalFault gen = none → l.saved = [] → l.queue < 64 → (∀ q < 64, gen ∉ vget s.queues q []) →
      let place := s.placePhys saveLen page64K s.pkg p.die
      ∃ t x, exec .contextSaveComplete s = .next t ∧ t.launch? gen = some x ∧ x.st = .saved ∧
        x.charge = 0 ∧ (∃ y ∈ x.saved, y.id = c ∧ y.core = s.core c ∧ y.area = place) ∧ x.savedStopes = l.savedStopes ++ [p] ∧
        vget t.queues l.queue [] = gen :: vget s.queues l.queue [] ∧ t.stopes = [] ∧ (t.core c).bound = none ∧ (t.core c).seam = (s.core c).seam ∧
        t.mem = (match place with | some pa => s.memPut pa saveLen (s.saveImage p c) | none => s).mem) ∧
    (∀ x, s.arg = .nums [c] → s.latched = none → s.launches = [{ l with saved := [x] }] → x.id = c → x.evicted = none → (s.core c).lastProc = some l.spid →
      exec .bankEviction s = .next { s.writeEvicted x.area (s.core c).seam with
        launches := [{ l with saved := [{ x with evicted := some ((s.core c).seam, (s.core c).tags, (s.core c).poison.filter (fun y => y.1 == 3)) }] }] }) ∧
    (s.arg = .nums [gen] → s.launch? gen = some l → l.st = .running → s.agenda = [] → s.stopes = [p] → p.gen = gen → p.cores = [c] →
      ((s.core c).sc.halted = false → exec .retirement s = .next s) ∧
      ((s.core c).sc.halted = true → s.drained c (s.core c).haltMask = false → exec .retirement s = .next (s.post (s.now + 1) 3 none (.run .retirement (.nums [gen])))) ∧
      ((s.core c).sc.halted = true → s.drained c (s.core c).haltMask = true → ∃ t x, exec .retirement s = .next t ∧ t.launch? gen = some x ∧ x.st = .retired ∧
        (∃ y, t.stopes = [y] ∧ y.frozen.isSome = true) ∧ (∃ e ∈ t.agenda, e.act = .run .retirement (.nums [gen]) ∧ e.at_ = s.now + 1) ∧ keepsBytes s t)) ∧
    (s.arg = .nums [gen] → s.launch? gen = some l → l.st = .retired → s.agenda = [] → s.stopes = [p] → p.gen = gen → p.cores = [c] → p.window = none →
      (∀ i < 6, i ≠ 0 → s.engineQuiet c i = true) → l.origin = s.pkg → l.reports = [] → l.parts = [s.pkg] →
      ∃ t, exec .retirement s = .next t ∧ t.stopes = [] ∧ (t.core c).bound = none ∧ (∃ e ∈ t.agenda, e.act = .run .launchComplete (.nums [gen]) ∧ e.at_ = s.now) ∧ t.mem = s.mem)

/-! ### The module (R8, R20, R288, R298, R337, R412 to R415, R420 to R423) -/

/-- R412, R413, R415, R421, R422 and R423: reset runs the boot ROM on the image it finds; the doorbell pushes an image in recovery; registers take the fields a
write gives them; debug needs its token; the limit, the temperature and the trip act as they are reported. BOOTSRC 0 boots what the mailbox's ADDR and LEN
name (log 42), and the cause of the doorbell's interrupt is open (log 148): the model's choices.

R20, R337, R420, R421 and R422: limits, temperatures, the clock servo, links and the window's boundary. -/
def Obligations.ModuleEvents : Prop :=
  (
  ∀ (s : State),
    (∀ v, s.arg = .image v none → ∃ t, exec .moduleReset s = .next t ∧ t.boot.state = 4 ∧ t.boot.reason = 7 ∧ t.cores = [] ∧ t.launches = [] ∧ t.stopes = [] ∧
      t.beat = 0 ∧ t.beatAt = s.now ∧ t.window = s.window ∧ t.now = s.now ∧ t.fuse = s.fuse ∧ t.mem = s.mem) ∧
    (∀ v f, s.arg = .image v (some f) →
      let pushed := if s.boot.addr.toNat % 4096 = 0 ∧ s.boot.len.toNat ≤ f.length then some (f.take s.boot.len.toNat) else none
      ∃ t, exec .moduleReset s = .next t ∧ t.fuse = s.fuse ∧
      match s.afterReset.checkImage (if s.fuse.bootSrc = 0 then pushed else some f) with
      | .ok b => t.boot.state = 3 ∧ t.boot.m0 = b.m0 ∧ t.boot.svn = b.svn ∧ (t.hart 0).running = true ∧ (t.hart 0).mode = 3 ∧
        (t.hart 0).pc = BitVec.ofNat 64 (64 + b.entry)
      | .error r => t.boot.state = 4 ∧ t.boot.reason = r) ∧
    (∀ v i, s.arg = .image v i → v ≠ 1 → s.boot.state ≠ 3 → exec .door s = .next s) ∧
    (∀ v i, s.arg = .image v i → s.boot.state = 3 → ∃ t, exec .door s = .next t ∧ doorCause ∈ (t.hart 0).causes ∧ (∀ x ∈ (s.hart 0).causes, x ∈ (t.hart 0).causes) ∧
      (∀ h, h ≠ 0 → t.hart h = s.hart h) ∧ t = { s with harts := t.harts }) ∧
    (∀ f, s.arg = .image 1 (some f) → s.boot.state = 4 → s.boot.addr.toNat % 4096 = 0 → s.boot.len.toNat ≤ f.length → ∃ t, exec .door s = .next t ∧
      match s.checkImage (some (f.take s.boot.len.toNat)) with
      | .ok b => t.boot.state = 3 ∧ t.boot.m0 = b.m0 ∧ t.boot.svn = b.svn ∧ (t.hart 0).running = true ∧ (t.hart 0).pc = BitVec.ofNat 64 (64 + b.entry)
      | .error r => t.boot.state = 4 ∧ t.boot.reason = r ∧ t.cores = s.cores) ∧
    (∀ v, (s.arg = .reg .mailboxStatus v → exec .registerWrite s = .next s) ∧
      (s.arg = .reg .mailboxAddr v → exec .registerWrite s = .next { s with boot := { s.boot with addr := v } }) ∧
      (s.arg = .reg .mailboxLen v → exec .registerWrite s = .next { s with boot := { s.boot with len := v } }) ∧
      (∀ p, s.arg = .reg (.routing p) v → p < 64 → ∃ t, exec .registerWrite s = .next t ∧ vget t.routing p 0 = v.setWidth 6 ∧
        t.readRegister (.routing p) = (v.setWidth 6).setWidth 64 ||| (if p = s.pkg then 0x40 else 0) ∧
        (∀ q, q ≠ p → vget t.routing q 0 = vget s.routing q 0) ∧ t = { s with routing := t.routing }) ∧
      (∀ c e, s.arg = .reg (.seamTable c e 0) v → e < 32 → ∃ t, exec .registerWrite s = .next t ∧ onlyCore s t c ∧
        let x := vget (t.core c).acc e {}
        x.master = v.setWidth 16 ∧ x.mmask = (v >>> 16).setWidth 16 ∧ x.rd = v.getLsbD 32 ∧ x.wr = v.getLsbD 33 ∧ x.at_ = v.getLsbD 34 ∧
          x.tag = (v >>> 35).setWidth 4 ∧ x.valid = v.getLsbD 39 ∧ x.base = (vget (s.core c).acc e {}).base ∧ x.limit = (vget (s.core c).acc e {}).limit) ∧
      (∀ c e, s.arg = .reg (.seamTable c e 1) v → e < 32 → ∃ t, exec .registerWrite s = .next t ∧ vget (t.core c).acc e {} = { (vget (s.core c).acc e {}) with base := v })) ∧
    (∀ m, s.arg = .bytes m → exec .debugUnlock s =
      .next (if keyNamed s (m.drop (m.length - sigBytes)) = true ∧ signed (m.drop (m.length - sigBytes)) (m.take (m.length - sigBytes)) = true
        then { s with power := { s.power with unlocked := true } } else s)) ∧
    (s.arg = .nums [1] → s.power.unlocked = true → exec .debugFreeze s = .next { s with power := { s.power with clocksOff := true } }) ∧
    (s.power.unlocked = false → exec .debugFreeze s = .next s) ∧
    (s.arg = .nums [] → s.power.unlocked = true → ∃ t e, exec .debugFreeze s = .next t ∧ e ∈ t.agenda ∧ e.act = .run .debugFreeze (.nums [1]) ∧ s.now < e.at_ ∧
      e.at_ ≤ s.now + 64 ∧ t.cores = s.cores)) ∧
  (
  ∀ (s : State),
    (∀ w, s.arg = .nums [w] → (w < 1000 ∨ 2200 < w) → exec .moduleLimitSet s = .next s) ∧
    (∀ w, s.arg = .nums [w] → 1000 ≤ w → w ≤ 2200 → ∃ t, exec .moduleLimitSet s = .next t ∧ t.power.limit = w ∧ t.cores = s.cores ∧ t.mem = s.mem) ∧
    (∀ d, s.arg = .nums [d] → d < 95 → exec .thermalLevelChange s = .next { s with power := { s.power with degrees := d } }) ∧
    (∀ d, s.arg = .nums [d] → 115 ≤ d → s.power.tripped = false → ∃ t e, exec .thermalLevelChange s = .next t ∧ t.power.degrees = d ∧ e ∈ t.agenda ∧
      e.act = .run .thermalTrip (.nums []) ∧ e.at_ ≤ s.now + 850000) ∧
    (∃ t, exec .thermalLimitStep s = .next t ∧ t.power.cut = (if 95 ≤ s.power.degrees then min s.power.maxCut (s.power.cut + s.power.limit * 50)
      else if s.power.degrees < 90 then s.power.cut - s.power.limit * 50 else s.power.cut) ∧ t.cores = s.cores ∧ t.mem = s.mem) ∧
    (∃ t, exec .thermalTrip s = .next t ∧ t.power.tripped = true ∧ t.cores = [] ∧ t.stopes = [] ∧ t.greqs = [] ∧ t.mem = s.mem ∧ t.procs = s.procs ∧
      (∃ e ∈ t.ring, e.kind = 6 ∧ e.cycle = s.now)) ∧
    (∃ t, exec .ptpOffsetLoss s = .next t ∧ t.power.ptpLost = true ∧ (∃ e ∈ t.ring, e.kind = 5 ∧ e.cycle = s.now) ∧ t.cores = s.cores ∧ 25 ∈ (t.hart 0).causes) ∧
    exec .ptpOffsetRecovery s = .next { s with power := { s.power with ptpLost := false } } ∧
    (∀ p up, s.arg = .nums [p, up] → s.portOn p = false → exec .linkTraining s = .next s) ∧
    (∀ p, s.portOn p = (decide (p < if s.fuse.die1 then 24 else 12) && !s.lostPorts.getLsbD p)) ∧
    (∀ p up, s.arg = .nums [p, up] → s.portOn p = true → ∃ t, exec .linkTraining s = .next t ∧ t.ports.getLsbD p = decide (up = 1) ∧
      (∀ q, q ≠ p → t.ports.getLsbD q = s.ports.getLsbD q) ∧ t = { s with ports := t.ports }) ∧
    (∃ t, exec .windowBoundary s = .next t ∧ t.window = s.window + 1 ∧ t.winAt = s.now ∧ (∃ e ∈ t.agenda, e.act = .run .windowBoundary (.nums []) ∧ e.at_ = s.now + 1700 ∧ e.phase = 0) ∧
      ((∀ d w, (s.win d w).waits = false) → ∀ c, (t.core c).a = (s.core c).a ∧ (t.core c).s = (s.core c).s)))

/-! ### System calls (R27, R49 to R57, R69 to R72, R262, R292, R363, R373, R391, R417 to R419) -/

namespace Sys2Proof.Claims

/-- The call of hart `h` returns `v` in a0: it goes on past its ecall, every other register as before (R49). -/
def answersOn (s t : State) (h : Nat) (v : Word64) : Prop :=
  (t.hart h).reg 10 = v ∧ (t.hart h).pc = (s.hart h).pc + 4 ∧ (t.hart h).blocked = false ∧ (t.hart h).mode = (s.hart h).mode ∧
    ∀ r, r ≠ 10 → (t.hart h).reg r = (s.hart h).reg r
/-- The call in progress returns `v`. -/
def answers (s t : State) (v : Word64) : Prop := answersOn s t s.curHart v
/-- A call returns this and changes nothing of the machine but its hart. -/
def onlyAnswers (s : State) (o : Host.Outcome State Fault Refusal) (v : Word64) : Prop :=
  ∃ t, o = .next t ∧ answers s t v ∧ t = { s with harts := t.harts, free := t.free }
/-- The calling hart waits for a storage transfer, which has 10 s (R419). -/
def fileWaits (s t : State) (kind : Nat) : Prop :=
  (∃ p ∈ t.pending, p.id = s.seq ∧ p.hart = s.curHart ∧ p.spid = s.callerSpid ∧ p.kind = kind ∧ p.va = (s.callArg 2).toNat ∧ p.len = (s.callArg 3).toNat ∧
    p.paused = false) ∧
  (t.hart s.curHart).blocked = true ∧ (t.hart s.curHart).pc = (s.hart s.curHart).pc ∧
  ∃ e ∈ t.agenda, e.act = .run .storageCommandTimeout (.nums [s.seq]) ∧ e.at_ = s.now + 8500000000
/-- −e of an error code (R50). -/
def minus (code : Nat) : Word64 := 0 - BitVec.ofNat 64 code

end Sys2Proof.Claims

/-- R27, R49 to R57 and R69 to R72: opening, launching, waiting, graphs and queue priorities: what a good call returns and leaves, and the error
codes of the bad ones. -/
def Obligations.LaunchingCalls : Prop :=
  ∀ (s : State), s.curHart < 16 →
    let a := s.callArg
    let sp := s.callerSpid
    onlyAnswers s (exec .noCall s) (minus 0x40) ∧
    ((a 0).toNat < 64 → (a 1).toNat < 8 → ∃ t, exec .kqQueuePrio s = .next t ∧ answers s t (BitVec.ofNat 64 (vget s.qprio (a 0).toNat 7)) ∧
      vget t.qprio (a 0).toNat 7 = (a 1).toNat ∧ (∀ q, q ≠ (a 0).toNat → vget t.qprio q 7 = vget s.qprio q 7) ∧ t.cores = s.cores) ∧
    (64 ≤ (a 0).toNat ∨ 8 ≤ (a 1).toNat → onlyAnswers s (exec .kqQueuePrio s) (minus 0x41)) ∧
    ((a 0).toNat < 32767 → (s.proc? sp).isSome = true → (a 1).toNat ≤ s.tokenCount sp none (a 0).toNat →
      onlyAnswers s (exec .kqWait s) (BitVec.ofNat 64 (s.tokenCount sp none (a 0).toNat))) ∧
    ((a 0).toNat < 32767 → (s.proc? sp).isSome = true → s.tokenCount sp none (a 0).toNat < (a 1).toNat → ∃ t p, exec .kqWait s = .next t ∧ p ∈ t.pending ∧ p.id = s.seq ∧
      p.hart = s.curHart ∧ p.spid = sp ∧ p.kind = 0 ∧ p.token = (a 0).toNat ∧ p.target = (a 1).toNat ∧ (t.hart s.curHart).blocked = true ∧
      (t.hart s.curHart).pc = (s.hart s.curHart).pc ∧
      ((a 2).toNat ≠ 0 → ∃ e ∈ t.agenda, e.act = .run .kqWaitTimeout (.nums [s.seq]) ∧ e.at_ = s.now + 850 * (a 2).toNat)) ∧
    (32767 ≤ (a 0).toNat → onlyAnswers s (exec .kqWait s) (minus 0x41)) ∧
    (∀ id p, s.arg = .nums [id] → s.pending.find? (fun x => x.id == id && x.kind == 0) = some p → p.hart < 16 → (s.hart p.hart).under = none →
      ∃ t, exec .kqWaitTimeout s = .next t ∧ answersOn s t p.hart (minus 0x45) ∧ t.pending = s.pending.filter (fun x => x.id != id)) ∧
    (∀ e, (a 1).toNat < 64 → s.power.ptpLost = false → s.checkPacket sp (a 0).toNat false = .error e → onlyAnswers s (exec .kqLaunch s) e) ∧
    (s.power.ptpLost = true → s.masksOther (((s.procRead sp ((a 0).toNat + 0x10) 8).map leNat).getD 0) = true →
      onlyAnswers s (exec .kqLaunch s) (minus 0x41)) ∧
    (∀ c, (a 1).toNat < 64 → s.checkPacket sp (a 0).toNat false = .ok c → s.power.ptpLost = false → s.queueLoad (a 1).toNat < 256 →
      (Config.kernelHolds s.free (128 + c.pkt.args.length) = false → onlyAnswers s (exec .kqLaunch s) (minus 0x43)) ∧
      (Config.kernelHolds s.free (128 + c.pkt.args.length) = true → ∃ t l, exec .kqLaunch s = .next t ∧ answers s t (BitVec.ofNat 64 s.nextGen) ∧
        t.genCount = s.genCount + 1 ∧ l ∈ t.launches ∧ l.gen = s.nextGen ∧ l.spid = sp ∧ l.pkt = c.pkt ∧ l.tree = c.tree ∧ l.insts = c.insts ∧ l.queue = (a 1).toNat ∧
        (l.parts = [s.pkg] → vget t.queues (a 1).toNat [] = vget s.queues (a 1).toNat [] ++ [s.nextGen]) ∧
        (∀ q ∈ l.parts, q ≠ s.pkg → ∃ e ∈ t.outbox, ∃ m, e.dst = q ∧ e.msg = .packet s.window m ∧ m.gen = s.nextGen ∧ m.spid = sp ∧ m.queue = (a 1).toNat) ∧
        t.cores = s.cores ∧ t.mem = s.mem)) ∧
    (∀ c, (a 1).toNat < 64 → s.checkPacket sp (a 0).toNat false = .ok c → s.power.ptpLost = false → 256 ≤ s.queueLoad (a 1).toNat →
      onlyAnswers s (exec .kqLaunch s) (minus 0x44)) ∧
    ((a 1).toNat = 0 ∨ 256 < (a 1).toNat → onlyAnswers s (exec .kqGraphNew s) (minus 0x41)) ∧
    (∀ l p, 0 < (a 1).toNat → (a 1).toNat ≤ 256 → s.checkArray sp (a 0).toNat (a 1).toNat = .ok l → neverStarts l = false → s.proc? sp = some p →
      (Config.kernelHolds s.free (128 * (a 1).toNat) = false → onlyAnswers s (exec .kqGraphNew s) (minus 0x43)) ∧
      (Config.kernelHolds s.free (128 * (a 1).toNat) = true → ∃ t, exec .kqGraphNew s = .next t ∧ answers s t (BitVec.ofNat 64 p.nextHandle) ∧
        t.graph? sp p.nextHandle = some { versions := [l] } ∧ t.cores = s.cores ∧ t.mem = s.mem)) ∧
    (s.graph? sp (a 0).toNat = none → onlyAnswers s (exec .kqGraphEdit s) (minus 0x42) ∧ onlyAnswers s (exec .kqGraphRun s) (minus 0x42)) ∧
    (∀ g l c, s.graph? sp (a 0).toNat = some g → g.versions.getLast? = some l → (a 1).toNat < l.length → s.checkPacket sp (a 2).toNat true = .ok c →
      neverStarts (l.set (a 1).toNat c.pkt) = false → (Config.kernelHolds s.free 128 = false → onlyAnswers s (exec .kqGraphEdit s) (minus 0x43)) ∧
      (Config.kernelHolds s.free 128 = true → ∃ t, exec .kqGraphEdit s = .next t ∧
        answers s t (BitVec.ofNat 64 (g.versions.length + 1)) ∧ t.graph? sp (a 0).toNat = some { versions := g.versions ++ [l.set (a 1).toNat c.pkt] } ∧ t.cores = s.cores)) ∧
    (∀ g l, s.graph? sp (a 0).toNat = some g → (a 1).toNat = 0 → g.versions.getLast? = some l → (a 2).toNat < 64 → slotOk false (a 3).toNat = true →
      s.queueLoad (a 2).toNat + l.length ≤ 256 → ∃ t, exec .kqGraphRun s = .next t ∧ answers s t (BitVec.ofNat 64 s.nextGen) ∧ t.nextRun = s.nextRun + 1 ∧
        t.cores = s.cores ∧ t.mem = s.mem ∧ t.procs = s.procs) ∧
    (∀ p f, s.proc? sp = some p → s.procRead sp (a 0).toNat (a 1).toNat = some f → p.log.length < 256 →
      if Config.kernelHolds s.free (a 1).toNat = false then onlyAnswers s (exec .kqOpenBundle s) (minus 0x43)
      else match s.openFails f, s.drawn.openBundle sp f with
        | some (r, e), _ => onlyAnswers s (exec .kqOpenBundle s) (minus (0x25 + r * 2 ^ 8 + e * 2 ^ 16))
        | none, none => onlyAnswers s (exec .kqOpenBundle s) (minus 0x43)
        | none, some (t, n) => ∃ u, exec .kqOpenBundle s = .next u ∧ answers t u (BitVec.ofNat 64 n) ∧
          t.harts = s.harts ∧ u.procs = t.procs ∧ (∃ q, u.proc? sp = some q ∧ (Table.find? q.bundles n).isSome = true)) ∧
    (s.proc? sp = none → onlyAnswers s (exec .kqOpenBundle s) (minus 0x41))

/-- R262, R291, R292, R296 and R297: memory calls, their shootdown in other packages, and the reservation of banks. -/
def Obligations.MemoryCalls : Prop :=
  ∀ (s : State), s.curHart < 16 →
    let a := s.callArg
    let sp := s.callerSpid
    let size := (a 0).toNat
    let va := (a 0).toNat
    let len := (a 1).toNat
    (∀ p, s.proc? sp = some p → size % 65536 = 0 → size ≠ 0 → (a 2).toNat < 4 → s.homeHere (a 1).toNat = true →
      (∀ t x y, s.allocRange sp size 65536 ((a 1).toNat % 64) ((a 1).toNat / 64) ((a 2).getLsbD 0) = some (t, x, y) → (a 2).getLsbD 1 = false →
        ∃ u, exec .kqMemAlloc s = .next u ∧ answers s u (BitVec.ofNat 64 x) ∧ u.procs = t.procs ∧ u.mem = s.mem ∧ u.cores = s.cores) ∧
      (s.allocRange sp size 65536 ((a 1).toNat % 64) ((a 1).toNat / 64) ((a 2).getLsbD 0) = none → onlyAnswers s (exec .kqMemAlloc s) (minus 0x43))) ∧
    (size % 65536 ≠ 0 ∨ size = 0 ∨ 4 ≤ (a 2).toNat → onlyAnswers s (exec .kqMemAlloc s) (minus 0x41)) ∧
    (∀ p, s.proc? sp = some p → (∀ x ∈ p.allocs, x.va ≠ va ∨ x.len ≠ len) → onlyAnswers s (exec .kqMemFree s) (minus 0x41)) ∧
    (∀ p, s.proc? sp = some p → { va, len } ∈ p.allocs → s.anyPreloaded p va len = false → ∃ t q, exec .kqMemFree s = .next t ∧ t.proc? sp = some q ∧
      (∀ x ∈ q.allocs, x.va ≠ va) ∧ (∀ x ∈ q.pinned, x.1 < va ∨ va + len ≤ x.1) ∧ t.mem = s.mem ∧ (s.farKernels sp = [] → answers s t 0) ∧
      -- where launches of the process reach other packages, their kernels are asked to shoot the pages down, and the call waits for each
      (s.farKernels sp ≠ [] → p.pages va len ≠ [] → (t.hart s.curHart).blocked = true ∧ (t.hart s.curHart).pc = (s.hart s.curHart).pc ∧
        ∃ w ∈ t.pending, w.hart = s.curHart ∧ w.kind = 4 ∧ w.target = 0 ∧ w.flows.map Prod.fst = s.farKernels sp ∧
          ∀ k ∈ s.farKernels sp, ∃ e ∈ t.outbox, e.dst = k ∧ e.msg = .shoot s.window w.id sp ((p.pages va len).map Prod.fst))) ∧
    (∀ p, s.proc? sp = some p → p.owns va len = false → onlyAnswers s (exec .kqMemMapWritable s) (minus 0x41) ∧ onlyAnswers s (exec .kqMemMapPin s) (minus 0x41) ∧
      onlyAnswers s (exec .kqMemMapUnpin s) (minus 0x41) ∧ onlyAnswers s (exec .kqMemMapMigrate s) (minus 0x41)) ∧
    (∀ p, s.proc? sp = some p → p.owns va len = true → p.splitFor va len = p → p.spid = sp → s.farKernels sp = [] →
      (a 2 = 0 → ∃ t, exec .kqMemMapWritable s = .next t ∧ answers s t 0 ∧ t.mem = s.mem ∧ t.launches = s.launches) ∧
      ((p.pin va len).pinned.length ≤ 192 → ∃ t q, exec .kqMemMapPin s = .next t ∧ answers s t 0 ∧ t.proc? sp = some q ∧ q.pinned = (p.pin va len).pinned ∧ t.cores = s.cores) ∧
      (192 < (p.pin va len).pinned.length → onlyAnswers s (exec .kqMemMapPin s) (minus 0x43)) ∧
      (s.anyPreloaded p va len = false → ∃ t q, exec .kqMemMapUnpin s = .next t ∧ answers s t 0 ∧ t.proc? sp = some q ∧
        (∀ x ∈ q.pinned, x ∈ p.pinned ∧ ∀ y ∈ p.pages va len, y.1 ≠ x.1) ∧ t.cores = s.cores) ∧
      (s.homeHere (a 3).toNat = true → s.anyPreloaded p va len = true → onlyAnswers s (exec .kqMemMapMigrate s) (minus 0x41)) ∧
      (s.homeHere (a 3).toNat = true → s.anyPreloaded p va len = false → (∀ x ∈ p.pages va len, x.1 ∈ p.pinned.map Prod.fst) → onlyAnswers s (exec .kqMemMapMigrate s) 0) ∧
      (∀ x pa, s.homeHere (a 3).toNat = true → s.anyPreloaded p va len = false → p.pages va len = [x] → x.1 ∉ p.pinned.map Prod.fst →
        (leafPa x.2.2 x.2.1 x.1 / 2 ^ 50 ≠ (a 3).toNat % 64 ∨ leafPa x.2.2 x.2.1 x.1 % 2 ^ 50 / 2 ^ 40 ≠ (a 3).toNat / 64) →
        (∀ m ∈ s.migrations, m.spid ≠ sp ∨ m.va ≠ x.1) → s.placePhys x.2.1 x.2.1 ((a 3).toNat % 64) ((a 3).toNat / 64) = some pa →
        ∃ t m, exec .kqMemMapMigrate s = .next t ∧ answers s t 0 ∧ t.migrations = s.migrations ++ [m] ∧ m.id = s.seq ∧ m.spid = sp ∧ m.va = x.1 ∧ m.size = x.2.1 ∧
          m.oldPa = leafPa x.2.2 x.2.1 x.1 ∧ m.newPa = pa ∧ m.phase = 0 ∧ m.lines = [] ∧
          (∃ e ∈ t.agenda, e.act = .run .pageMigration (.nums [s.seq]) ∧ e.at_ = s.now + 1) ∧ t.procs = s.procs ∧ t.mem = s.mem ∧ t.cores = s.cores)) ∧
    (s.seamArgs = none → onlyAnswers s (exec .kqSeamAllocReserve s) (minus 0x41) ∧ onlyAnswers s (exec .kqSeamAllocRelease s) (minus 0x41)) ∧
    (∀ c, s.seamArgs = some [c] → ∃ t, exec .kqSeamAllocReserve s = .next t ∧ answers s t 0 ∧
      (∀ b < 32, (t.reservedMask sp c).testBit b = ((s.reservedMask sp c).testBit b || (a 2).getLsbD b)) ∧ t.cores = s.cores ∧ t.mem = s.mem) ∧
    (∀ c, s.seamArgs = some [c] →
      ((a 2).setWidth 32 &&& BitVec.ofNat 32 (s.reservedMask sp c) = (a 2).setWidth 32 → ∃ t, exec .kqSeamAllocRelease s = .next t ∧ answers s t 0 ∧
        (∀ b < 32, (t.reservedMask sp c).testBit b = ((s.reservedMask sp c).testBit b && !(a 2).getLsbD b)) ∧ t.cores = s.cores) ∧
      ((a 2).setWidth 32 &&& BitVec.ofNat 32 (s.reservedMask sp c) ≠ (a 2).setWidth 32 → onlyAnswers s (exec .kqSeamAllocRelease s) (minus 0x41)))

/-- R293, R363, R364, R373, R391 and R417 to R419: streams, plans, the fault handler, files, attestation and exit. -/
def Obligations.ServiceCalls : Prop :=
  ∀ (s : State), s.curHart < 16 →
    let a := s.callArg
    let sp := s.callerSpid
    (∀ p d, s.proc? sp = some p → s.procRead sp (a 0).toNat 256 = some d → (a 1).toNat < 2 → s.streamOk p (a 0).toNat d = true → ∃ t q, exec .kqStreamOpen s = .next t ∧
      answers s t (BitVec.ofNat 64 s.nextSid) ∧ t.proc? sp = some q ∧ q.streams = p.streams ++ [{ sid := s.nextSid, desc := (a 0).toNat, side := (a 1).toNat }] ∧ t.cores = s.cores) ∧
    (s.procRead sp (a 0).toNat 256 = none → onlyAnswers s (exec .kqStreamOpen s) (minus 0x41)) ∧
    (∀ p x, s.proc? sp = some p → p.streams = [x] → x.sid = (a 0).toNat → ∃ t q, exec .kqStreamClose s = .next t ∧ answers s t 0 ∧ t.proc? sp = some q ∧ q.streams = [] ∧
      t.cores = s.cores) ∧
    (∀ p, s.proc? sp = some p → (∀ x ∈ p.streams, x.sid ≠ (a 0).toNat) → onlyAnswers s (exec .kqStreamClose s) (minus 0x41)) ∧
    (∀ x b, s.procRead sp (a 0).toNat 16 = some x → a 1 = 0 → s.procRead sp ((a 0).toNat + 16) (16 * fieldLE x 0 2) = some b → s.planOk x b = true →
      ∃ t p, exec .kqPlanRegister s = .next t ∧ p ∈ t.pending ∧ p.id = s.seq ∧ p.kind = 1 ∧ p.spid = sp ∧ p.flows = planFlows b ∧ (t.hart s.curHart).blocked = true ∧
        (t.hart s.curHart).pc = (s.hart s.curHart).pc ∧ t.procs = s.procs) ∧
    (s.procRead sp (a 0).toNat 16 = none → onlyAnswers s (exec .kqPlanRegister s) (minus 0x41)) ∧
    (∀ id p q, s.arg = .nums [id, 1] → s.pending.find? (fun x => x.id == id && x.kind == 1) = some p → s.proc? p.spid = some q → p.hart < 16 → (s.hart p.hart).under = none →
      ∃ t r, exec .planSlotsReserved s = .next t ∧ answersOn s t p.hart (BitVec.ofNat 64 q.nextPlan) ∧ t.proc? p.spid = some r ∧
        r.plans = q.plans ++ [{ id := q.nextPlan, flows := p.flows }] ∧ r.nextPlan = q.nextPlan + 1) ∧
    (∀ id p, s.arg = .nums [id, 0] → s.pending.find? (fun x => x.id == id && x.kind == 1) = some p → p.hart < 16 → (s.hart p.hart).under = none →
      ∃ t, exec .planSlotsReserved s = .next t ∧ answersOn s t p.hart (minus 0x43) ∧ t.procs = s.procs) ∧
    (∀ spid id flows p, s.arg = .plan spid id flows → flows ≠ [] → s.proc? spid = some p → ∃ t q, exec .planSlotsReserved s = .next t ∧ t.proc? spid = some q ∧
      { id, flows } ∈ q.plans ∧ t.cores = s.cores ∧ t.mem = s.mem) ∧
    (∀ p x, s.proc? sp = some p → p.plans = [x] → x.id = (a 0).toNat → s.planUsed sp x.id = false → ∃ t q, exec .kqPlanRelease s = .next t ∧ answers s t 0 ∧
      t.proc? sp = some q ∧ q.plans = [] ∧ t.cores = s.cores) ∧
    (∀ p, s.proc? sp = some p → (∀ x ∈ p.plans, x.id ≠ (a 0).toNat) → onlyAnswers s (exec .kqPlanRelease s) (minus 0x41)) ∧
    (∀ p m, s.proc? sp = some p → a 0 ≠ 0 → s.procRead sp (a 1).toNat 32 = some m → p.handlerWin ≠ 0 → ∃ t q, exec .kqFaultHandler s = .next t ∧
      answers s t (BitVec.ofNat 64 p.handlerWin) ∧ t.proc? sp = some q ∧ q.handler = (a 0).toNat ∧ q.handlerMask = BitVec.ofNat 256 (leNat m) ∧ q.handlerWin = p.handlerWin ∧
      t.cores = s.cores ∧ t.mem = s.mem) ∧
    ((a 1).toNat % 4096 ≠ 0 ∨ (a 2).toNat % 4096 ≠ 0 ∨ (a 3).toNat % 4096 ≠ 0 →
      onlyAnswers s (exec .kqFileRead s) (minus 0x41) ∧ onlyAnswers s (exec .kqFileWrite s) (minus 0x41)) ∧
    ((a 0).toNat < 2 ^ 34 → (a 0).toNat ≠ 1 → (a 1).toNat % 4096 = 0 → (a 2).toNat % 4096 = 0 → (a 3).toNat % 4096 = 0 → a 3 ≠ 0 → (s.proc? sp).isSome = true →
      (∀ p ∈ s.pending, p.id ≠ s.seq) →
      let room := Config.namespaceBytes ((a 0).toNat / 2 ^ 32) ((a 0).toNat % 2 ^ 32)
      (room < (a 1).toNat + (a 3).toNat → onlyAnswers s (exec .kqFileRead s) (minus 0x41) ∧ onlyAnswers s (exec .kqFileWrite s) (minus 0x41)) ∧
      (∀ l u, (a 1).toNat + (a 3).toNat ≤ room → s.portRange (s.stoPort.serve sp) (6 * 4096 + (a 0).toNat / 2 ^ 32) (a 2).toNat (a 3).toNat true = .ok (l, u) →
        ∃ t, exec .kqFileRead s = .next t ∧ fileWaits s t 2 ∧ t.stoPort = u ∧ t.mem = s.mem ∧
          t.outbox = (s.send s.pkg (.storage s.seq ((a 0).toNat / 2 ^ 32) ((a 0).toNat % 2 ^ 32) (a 1).toNat (a 3).toNat none)).outbox) ∧
      (∀ l u, (a 1).toNat + (a 3).toNat ≤ room → s.portRange (s.stoPort.serve sp) (6 * 4096 + (a 0).toNat / 2 ^ 32) (a 2).toNat (a 3).toNat false = .ok (l, u) →
        ∃ t, exec .kqFileWrite s = .next t ∧ fileWaits s t 3 ∧ t.stoPort = u ∧ t.mem = s.mem ∧
          t.outbox = (s.send s.pkg (.storage s.seq ((a 0).toNat / 2 ^ 32) ((a 0).toNat % 2 ^ 32) (a 1).toNat (a 3).toNat
            (some (l.flatMap (fun x => s.homeRead x.2.1 x.2.2))))).outbox) ∧
      (∀ x, (a 1).toNat + (a 3).toNat ≤ room → s.portRange (s.stoPort.serve sp) (6 * 4096 + (a 0).toNat / 2 ^ 32) (a 2).toNat (a 3).toNat true = .error (0x12, x) →
        ∃ t, exec .kqFileRead s = .next t ∧ (∃ p ∈ t.pending, p.id = s.seq ∧ p.paused = true) ∧ (t.hart s.curHart).blocked = true ∧ t.outbox = s.outbox ∧
          t.mem = s.mem ∧ ∃ e ∈ t.agenda, e.act = .run .portPageFault (.word [s.seq] (BitVec.ofNat 64 x)) ∧ e.at_ = s.now)) ∧
    (∀ id v p, s.arg = .word [id] v → s.pending.find? (fun x => x.id == id && x.paused) = some p → s.walkPa p.spid v.toNat (p.kind == 2) = none → p.hart < 16 →
      (s.hart p.hart).under = none → ∃ t, exec .portPageFault s = .next t ∧ answersOn s t p.hart (minus 0x12) ∧ t.pending = s.pending.filter (fun x => x.id != id)) ∧
    (∀ id v p l u, s.arg = .word [id] v → s.pending.find? (fun x => x.id == id && x.paused) = some p → (s.walkPa p.spid v.toNat (p.kind == 2)).isSome = true → p.kind = 2 →
      s.portRange (s.stoPort.serve p.spid) (6 * 4096 + p.token / 2 ^ 32) p.va p.len true = .ok (l, u) → ∃ t, exec .portPageFault s = .next t ∧
        (∃ q ∈ t.pending, q.id = id ∧ q.paused = false) ∧ t.mem = s.mem ∧
        t.outbox = (s.send s.pkg (.storage p.id (p.token / 2 ^ 32) (p.token % 2 ^ 32) p.target p.len none)).outbox) ∧
    (∀ id v, s.arg = .word [0, id] v → s.walkPa id v.toNat true = none → exec .portPageFault s = .next s) ∧
    (∀ id p, s.arg = .transfer id none → s.pending.find? (fun x => x.id == id && (x.kind == 2 || x.kind == 3)) = some p → p.hart < 16 → (s.hart p.hart).under = none →
      ∃ t, exec .storageTransferComplete s = .next t ∧ answersOn s t p.hart (minus 0x18) ∧ t.mem = s.mem) ∧
    (∀ id p d, s.arg = .transfer id (some d) → s.pending.find? (fun x => x.id == id && (x.kind == 2 || x.kind == 3)) = some p → p.kind = 3 → p.hart < 16 →
      (s.hart p.hart).under = none → ∃ t, exec .storageTransferComplete s = .next t ∧ answersOn s t p.hart (BitVec.ofNat 64 p.len) ∧ t.mem = s.mem) ∧
    (∀ id p d l u, s.arg = .transfer id (some d) → s.pending.find? (fun x => x.id == id && (x.kind == 2 || x.kind == 3)) = some p → p.kind = 2 → p.hart < 16 →
      (s.hart p.hart).under = none → s.portRange (s.stoPort.serve p.spid) (6 * 4096 + p.token / 2 ^ 32) p.va p.len true = .ok (l, u) →
      ∃ t, exec .storageTransferComplete s = .next t ∧ answersOn s t p.hart (BitVec.ofNat 64 p.len) ∧
        t.mem = (l.foldl (fun (v : State) x => v.writeHome (6 * 4096 + p.token / 2 ^ 32) x.2.1 (sliceOf d x.1 x.2.2)) { s with stoPort := u, free := s.free + 1 }).mem) ∧
    (∀ id p, s.arg = .nums [id] → s.pending.find? (fun x => x.id == id && (x.kind == 2 || x.kind == 3)) = some p → p.hart < 16 → (s.hart p.hart).under = none →
      ∃ t, exec .storageCommandTimeout s = .next t ∧ answersOn s t p.hart (minus 0x45) ∧ t.mem = s.mem) ∧
    (∀ p n o, s.proc? sp = some p → s.procRead sp (a 0).toNat 32 = some n → s.procRead sp (a 1).toNat 16640 = some o →
      ((a 2).toNat < 16640 → onlyAnswers s (exec .kqAttest s) (minus 0x41)) ∧
      (16640 ≤ (a 2).toNat → ∃ t, exec .kqAttest s = .next t ∧ answers s t 16640 ∧ t.cores = s.cores ∧ t.procs = s.procs ∧
        t.mem = (s.drawn.procWrite sp (a 1).toNat (s.reportBody p n ++ fitBytes 16224 (s.deviceSign (s.reportBody p n)))).mem)) ∧
    (∀ p, s.proc? sp = some p → s.launches = [] → p.streams = [] → p.plans = [] → ∃ t q, exec .kqExit s = .next t ∧ t.proc? sp = some q ∧ q.exited = true ∧ q.bundles = [] ∧
      q.graphs = [] ∧ q.handler = 0 ∧ (∀ x ∈ t.pending, x.spid ≠ sp) ∧ (∀ r ∈ t.reservations, r.2.1 ≠ sp) ∧ t.mem = s.mem ∧ t.cores = s.cores) ∧
    (∀ p l, s.proc? sp = some p → s.launches = [l] → l.spid = sp → l.origin = s.pkg → l.st = .queued → l.result = 0 → l.parts = [s.pkg] → p.streams = [] → p.plans = [] →
      ∃ t x, exec .kqExit s = .next t ∧ t.launch? l.gen = some x ∧ x.result = 3 ∧ x.st = .retired ∧ (∀ q < 64, l.gen ∉ vget t.queues q []) ∧
        (∃ e ∈ t.agenda, e.act = .run .launchComplete (.nums [l.gen]) ∧ e.at_ = s.now) ∧ t.mem = s.mem)

/-! ### What words and writes leave alone (R163, R187, R205, R258, R278) -/

namespace Sys2Proof.Claims

/-- What a freeze leaves of the cores other than `c` (R388): requests of the frozen stope for later beats leave the bank queues, for the cores that issued
them; without a freeze nothing of any core's banks changes. -/
def freezeOnly (s t : State) (c : Nat) : Prop :=
  (∀ x, x ≠ c → t.core x = { s.core x with banks := (t.core x).banks, withheld := (t.core x).withheld }) ∧
  (∀ x b, (t.core x).bank b = { (s.core x).bank b with queue := ((t.core x).bank b).queue } ∧ ∀ r ∈ ((t.core x).bank b).queue, r ∈ ((s.core x).bank b).queue) ∧
  (t.stopes = s.stopes → ∀ x, (t.core x).banks = (s.core x).banks ∧ (t.core x).withheld = (s.core x).withheld)
/-- Only the core in issue, the agenda and a freeze of its stope tell `t` from `s`; of the core only its scalar stream, its loops, its sticky flags and
its fault record; every event stays, and a new one lets the stream go on, delivers a trap window, or is a result for a place `p` names. -/
def scalarOnly (s t : State) (p : SPlace → Prop) : Prop :=
  let c := s.curCore
  let k := s.core c
  let n := t.core c
  t = { s with cores := t.cores, agenda := t.agenda, seq := t.seq, stopes := t.stopes } ∧ freezeOnly s t c ∧
    n = { k with sc := n.sc, lp := n.lp, sr := { k.sr with sstat := n.sr.sstat }, fault := n.fault, banks := n.banks, withheld := n.withheld } ∧
    (∀ e ∈ s.agenda, e ∈ t.agenda) ∧
    ∀ e ∈ t.agenda, e ∈ s.agenda ∨ e.act = .issue c .scalar ∨ e.act = .run .stallRelease (.strm c .scalar) ∨
      (∃ id, e.act = .run .trapWindowDelivery (.nums [id])) ∨ ∃ r, e.act = .run .scalarResult (.sres r) ∧ r.core = c ∧ p r.place

end Sys2Proof.Claims

/-- R163, R166, R167 and R171 to R185: a word that computes a register, a condition bit or a place to go on from touches nothing else: no other
register, no special register but SSTAT's flags, no byte of any space or of memory, no other core. -/
def Obligations.ScalarFrame : Prop :=
  ∀ (g : BitVec 2) (d a b c : BitVec 5) (f x y : BitVec 4) (m : BitVec 2) (i : BitVec 14) (n : BitVec 6) (u : BitVec 19) (j : BitVec 9) (s t : State),
    (∀ w ∈ [Instr.add g d a b, .sub g d a b, .and g d a b, .or g d a b, .xor g d a b, .sll g d a b, .srl g d a b, .sra g d a b, .mul g d a b, .mulh g d a b,
      .mulhu g d a b, .div g d a b, .divu g d a b, .rem g d a b, .remu g d a b, .min g d a b, .max g d a b, .minu g d a b, .maxu g d a b, .clz g d a, .ctz g d a,
      .popc g d a, .addw g d a b, .subw g d a b, .andn g d a b, .addi g d a i, .andi g d a i, .ori g d a i, .xori g d a i, .slli g d a n, .srli g d a n,
      .srai g d a n, .lhi g d u, .addpc g d u, .fadd g d a b, .fsub g d a b, .fmul g d a b, .fdiv g d a b, .fsqrt g d a, .fmin g d a b, .fmax g d a b,
      .fsgnj g d a b, .fsgnn g d a b, .fsgnx g d a b, .fcvti g d a, .icvtf g d a, .ftobf g d a, .bftof g d a, .fclass g d a, .fma g d a b c, .fms g d a b c,
      .fnma g d a b c, .fnms g d a b c, .csave g d, .bkst g d a],
      exec w s = .next t → scalarOnly s t (fun p => p = .reg d)) ∧
    (∀ w ∈ [Instr.cmp g f x a b m, .cmpi g f x a m j, .fcmp g f x a b m, .cand g f x y, .cor g f x y, .cxor g f x y, .candn g f x y, .cnot g f x, .ctrue g f,
      .cfalse g f, .cmove g f x], exec w s = .next t → scalarOnly s t (fun p => p = .cond f)) ∧
    (∀ w ∈ [Instr.br g f, .brn g f, .jmp g f, .call g f, .ret g, .nop g], exec w s = .next t → scalarOnly s t (fun p => p = .reg 1))

/-- R205 to R212: a vector word that sends rows leaves the scalar and the matrix stream, every register, the masks and every byte as they are when it
issues: its rows and flags are on their way. -/
def Obligations.VectorFrame : Prop :=
  ∀ (v : VWord) (s t : State), Sound (here s) →
    ∀ w ∈ [Instr.vmov v, .vadd v, .vsub v, .vmul v, .vfma v, .vfms v, .vmin v, .vmax v, .vabs v, .vneg v, .vadds v, .vsubs v, .vmulh v, .vand v, .vor v, .vxor v,
      .vnot v, .vshl v, .vshr v, .vsar v, .vexp2 v, .vlog2 v, .vrcp v, .vrsq v, .vsel v, .vclamp v, .vdot4 v, .vtacc v, .vrsum v, .vrmax v, .vrmin v, .vrsums v,
      .vscan v, .vpermb v, .vpermw v, .vslide v, .vbcast v, .vcvt v],
    exec w s = .next t →
      let n := t.core s.curCore
      let k := s.core s.curCore
      n = { k with ve := n.ve, qs2v := n.qs2v, qv2s := n.qv2s, qv2m := n.qv2m, qm2v := n.qm2v, fault := n.fault, banks := n.banks, withheld := n.withheld } ∧
        freezeOnly s t s.curCore ∧
        t = { s with cores := t.cores, agenda := t.agenda, seq := t.seq, stopes := t.stopes, free := t.free }

/-- R187, R258 and R278: a write at a cycle's end puts exactly its selected bytes into its space and touches nothing else; where two writes of one
cycle meet on a byte, the one of higher rank remains, and of equal rank the one issued later. -/
def Obligations.WritesOfACycle : Prop :=
  (∀ (s : State) (w : CycWrite), w.space ≤ 3 → Memory.wf ((s.core w.core).space w.space) = true → (w.sel = [] ∨ w.sel.length = w.data.length) →
    let t := s.applyWrite w
    (∀ i < w.data.length, ((t.core w.core).space w.space).read (w.addr + i) =
      if w.sel = [] ∨ w.sel.getD i false = true then w.data.getD i 0 else ((s.core w.core).space w.space).read (w.addr + i)) ∧
    (∀ a, a < w.addr ∨ w.addr + w.data.length ≤ a → ((t.core w.core).space w.space).read a = ((s.core w.core).space w.space).read a) ∧
    (∀ sp ≤ 3, sp ≠ w.space → (t.core w.core).space sp = (s.core w.core).space sp) ∧ onlyCore s t w.core ∧ (t.core w.core).s = (s.core w.core).s ∧
    t = { s with cores := t.cores }) ∧
  (∀ (s : State) (c sp a : Nat) (v w : CycWrite) (x y : Byte), s.wb = [w, v] → s.sets = [] → v.core = c → w.core = c → v.space = sp → w.space = sp → sp ≤ 3 →
    v.addr = a → w.addr = a → v.data = [x] → w.data = [y] → v.sel = [] → w.sel = [] → v.rank ≤ 4 → w.rank ≤ 4 → Memory.wf ((s.core c).space sp) = true →
    (((s.commit).core c).space sp).read a = (if v.rank ≤ w.rank then y else x) ∧ s.commit.wb = [])

namespace Sys2Proof.Claims

open Sys2Proof.Machine

/-- The instruction that the decoder of `i`'s kind of word reads from a word: a Headframe word, a bank move, a vector, a matrix or a scalar word. -/
def readBack (i : Instr) (n w : Nat) : Except DecodeError Instr :=
  match i with
  | .ktlbi _ _ | .ktlbf | .kresume _ => decodeHart w
  | .mv _ _ _ => .ok (decodeMove w)
  | _ => if n = 96 then decodeVector w else if n = 192 then decodeMatrix w else decodeScalar w

/-- LPDDR keeps its canonical form: addresses strictly rising, no byte listed that reads as an unlisted one does. -/
abbrev Canonical (s : State) : Prop := Memory.wf s.mem = true

end Sys2Proof.Claims

open Sys2Proof.Machine Sys2Proof.Claims

/-- R49, R82, R90, R121, R139, R312, R391 and R398: a step runs exactly the decoded instruction. A stream whose turn it is and that is live or holds a
replay entry issues the instruction its word decodes to, in the machine with its turn taken; a word that is none faults with ILLEGAL_INSTRUCTION. A
fresh word is the one its plane holds at the stream's next index. A bank issues the move its program stands on; a hart executes the word at its
program counter, and a handler that has come to the return stub hands its result over; an input and the agenda's earliest entry that no freeze holds back run the event they name. With an empty turn list the agenda moves. -/
def Obligations.StepRunsTheWord : Prop :=
  (∀ (s : State) (ts : List Turn) (c : Nat) (k : Strm), s.turns = .stream c k :: ts → s.power.clocksOff = false → (∀ b, k ≠ .bank b) →
    (((s.core c).strm k).live = true ∧ (s.core c).sc.halted = false ∨ ((s.core c).strm k).replay ≠ []) → ((s.core c).strm k).skips = false →
    let s1 := ({ s with turns := ts } : State).beginIssue c k
    (∀ i, s1.fetched c k = some i → step s = exec i s1) ∧ (s1.fetched c k = none → step s = .next (s1.illegalWord c k)) ∧
    (((s.core c).strm k).sub = 0 → ((s.core c).strm k).ovr = none → ((s.core c).strm k).replay = [] →
      ∀ w i, (s.core c).wordAt k ((s.core c).strm k).next = some w → decodeFor k w = .ok i → step s = exec i s1)) ∧
  (∀ (s : State) (ts : List Turn) (c : Nat) (b : BitVec 5) (e : Engine) (w : BitVec 32), s.turns = .stream c (.bank b) :: ts → s.power.clocksOff = false →
    ((s.core c).bank b.toNat).engine = some e → e.suspended = false → e.code[e.idx]? = some w →
    step s = exec (decodeMove w.toNat) { s with turns := ts, curCore := c, curStrm := .bank b }) ∧
  (∀ (s : State) (ts : List Turn) (h : Nat) (i : Instr), s.turns = .hart h :: ts → s.power.clocksOff = false → (s.hart h).running = true →
    (s.hart h).blocked = false → ((s.hart h).handling = none ∨ (s.hart h).pc ≠ Config.returnStub) →
    let s1 : State := { s with turns := ts, curHart := h }
    (∀ n, (s.hart h).interrupt = some n → step s = .next (s1.modHart h (fun y => y.trap n 0 true))) ∧
    ((s.hart h).interrupt = none →
      (∀ e, s1.hartFetch h = .error e → step s = .next (s1.hartTrap h e.1 (BitVec.ofNat 64 e.2))) ∧
      (∀ w, s1.hartFetch h = .ok w → (hartWordOf (s.hart h) w = .instr i → step s = exec i s1) ∧
        (hartWordOf (s.hart h) w = .exception → step s = .next (s1.hartIllegal h)) ∧ (hartWordOf (s.hart h) w = .base → step s = .next (s1.hartBase h w))))) ∧
  (∀ (s : State) (ts : List Turn) (h d x : Nat), s.turns = .hart h :: ts → s.power.clocksOff = false → (s.hart h).running = true →
    (s.hart h).blocked = false → (s.hart h).handling = some (d, x) → (s.hart h).pc = Config.returnStub →
    step s = exec .handlerReturn { s with turns := ts, curHart := h, arg := .word [d, x] ((s.hart h).reg 10) }) ∧
  (∀ (s : State) (ts : List Turn) (i : Instr) (a : Arg), s.turns = .input i a :: ts → s.power.clocksOff = false →
    step s = exec i { s with turns := ts, arg := a }) ∧
  (∀ (s : State) (e : Event) (rest : List Event), s.turns = [] → s.power.clocksOff = false → s.pick [] s.agenda = some (e, rest) →
    step s = stepAct (({ s with agenda := rest } : State).advance e.at_) e.act) ∧
  (∀ (s : State) (e : Event) (es : List Event), s.agenda = e :: es → s.held e = false → s.pick [] s.agenda = some (e, es)) ∧
  (∀ (s : State) (i : Instr) (a : Arg), stepAct s (.run i a) = exec i { s with arg := a })

/-- The worked encodings of the manual (R124, R127 to R137, R139, R174 to R204, R319, R323, R344): each word written there decodes to the instruction
it is an example of, field by field; TRAP 7 and the all-ones fill word are what R82 needs, and a reserved value is no instruction. -/
def Obligations.SpecWordsDecode : Prop :=
  ((decodeScalar 0x04294010).toOption = some (.addi 0 5 5 16) ∧ (decodeScalar 0x00D6B000).toOption = some (.add 0 26 26 24) ∧ (decodeScalar 0x24C675B0).toOption = some (.fma 0 24 25 26 27) ∧
    (decodeScalar 0x2C22C1FB).toOption = some (.cmpi 0 2 2 24 0 0x1FB) ∧ (decodeScalar 0x38600028).toOption = some (.prep 0 6 40) ∧ (decodeScalar 0x544E0003).toOption = some (.loop 0 1 7 3) ∧
    (decodeScalar 0x58040002).toOption = some (.loopi 0 0 64 2)) ∧
  ((decodeScalar 0x60C16801).toOption = some (.lda 0 24 5 2 1 1) ∧ (decodeScalar 0x6808B000).toOption = some (.sta 0 1 2 3 0 0) ∧ (decodeScalar 0x80C97100).toOption = some (.amoadd 0 25 5 24 1) ∧
    (decodeScalar 0x84C971A1).toOption = some (.cas 0 25 5 24 26 1) ∧ (decodeScalar 0x78000002).toOption = some (.enter 0 2) ∧ (decodeScalar 0x88C10000).toOption = some (.qpush 0 24 2) ∧
    (decodeScalar 0x8C006040).toOption = some (.blk 0 0 0 0 3 64) ∧ (decodeScalar 0x90000014).toOption = some (.wait 0 20)) ∧
  ((decodeScalar 0x9CC80000).toOption = some (.cpy 0 25) ∧ (decodeScalar 0xA8C18000).toOption = some (.bkrun 0 24 1 1) ∧ (decodeScalar 0xB8004000).toOption = some (.mlease 0 4) ∧
    (decodeScalar 0xC42F0000).toOption = some (.fence 0 2 15) ∧ (decodeScalar 0xCC343190).toOption = some (.sbarm 0 2 24 25) ∧ (decodeScalar 0xD4006320).toOption = some (.kvinv 0 24 25) ∧
    (decodeScalar 0xD8100007).toOption = some (.trap 0 7) ∧ (decodeScalar 0xD82C0022).toOption = some (.gets 0 24 2 2) ∧ (decodeScalar 0xD8600041).toOption = some (.halt 0 0x41)) ∧
  ((decodeVector 0x037003C06410008320000000).toOption = some (.vmul ⟨7, 0, 0, 0, 15, 0, ⟨200, 1⟩, ⟨0, 2⟩, ⟨100, 0⟩, 0⟩) ∧
    (decodeVector 0x330380181900280000500000).toOption = some (.vunt5 ⟨0, 3, 1, 0, 0, 6, ⟨50, 0⟩, ⟨20, 0⟩, ⟨0, 0⟩, 0x500000⟩) ∧
    (decodeVector 0x521000000580000000050000).toOption = some (.vbld ⟨1, 0, 0, 0, 0, 0, ⟨11, 0⟩, ⟨0, 0⟩, ⟨0, 0⟩, 0x050000⟩) ∧
    (decodeVector (2 ^ 96 - 1)).toOption = none) ∧
  ((decodeMatrix 0x030000003F01000000000000000000000000000000000000).toOption = some (.mstep ⟨0, 0, 0, 0, 0x3f01000000000000000000000000000000000000⟩) ∧
    (decodeMatrix 0x010000100009FFF800000000000000000000000000000000).toOption = some (.mlds ⟨0, 0, 0, 0, 0x100009fff800000000000000000000000000000000⟩) ∧
    (decodeMatrix 0x05000C03F100000000000000000000000000000000000000).toOption = some (.mdrain ⟨0, 0, 0, 3, 0x3f100000000000000000000000000000000000000⟩) ∧
    (decodeMatrix 0x06000E000000000000000000000000000000000000000000).toOption = some (.mflag ⟨0, 0, 0, 3, 0x2000000000000000000000000000000000000000000⟩)) ∧
  decodeMove 0x10270000 = .mv 0x10 0x27 0 ∧ decodeMove 0x01260001 = .mv 0x01 0x26 1 ∧
  (decodeHart 0x00B5000B).toOption = some (.ktlbi 11 10) ∧ (decodeHart 0x0000100B).toOption = some .ktlbf ∧ (decodeHart 0x0005200B).toOption = some (.kresume 10)

/-- R121, R123 to R139: a well-formed instruction's word reads back as that instruction, with every operand at every value its encoding admits; and a
word that decodes is the word of the instruction it decodes to, so no two words of one kind mean the same and no bit of a word is ignored. -/
def Obligations.EncodingsRoundTrip : Prop :=
  (∀ i n w, i.wf = true → encode i = some (n, w) → readBack i n w = .ok i) ∧
  (∀ w i, w < 2 ^ 32 → decodeScalar w = .ok i → encode i = some (32, w)) ∧
  (∀ w i, w < 2 ^ 96 → decodeVector w = .ok i → encode i = some (96, w)) ∧
  (∀ w i, w < 2 ^ 192 → decodeMatrix w = .ok i → encode i = some (192, w)) ∧
  (∀ w i, w < 2 ^ 32 → decodeHart w = .ok i → encode i = some (32, w)) ∧
  (∀ w, w < 2 ^ 32 → encode (decodeMove w) = some (32, w))

/-- R5, R18, R22 and R261: an invariant of every step and a rule of the whole machine. LPDDR keeps its canonical form, so equal contents are equal
data, and the fuses never change, whatever word, event, call or outside input the step runs. -/
def Obligations.MemoryStaysCanonical : Prop :=
  ∀ s t : State, Canonical s → step s = .next t → Canonical t ∧ t.fuse = s.fuse

/-- R20, R59, R79, R199, R263, R265, R392 and R412: the machine right after module reset. LPDDR's form holds; the beat counter is 0 with the default
table of alternating access and compute beats and the close of its first access beat due at its last cycle; every queue is empty with priority 7; no core
is withdrawn, bound, leased or running; no stope holds a trap window; every access table lets every master reach its whole target; STATE is ROM; a core
nothing has touched reads zero in its registers and spaces. That unlisted memory and registers without a stated reset value read 0 is the model's choice (log 1, log 45). -/
def Obligations.ResetState : Prop :=
  Canonical State.reset ∧ (State.reset.beat = 0 ∧ State.reset.beatTab = defaultTable ∧ State.reset.beatTab.length = 16 ∧
    (∀ n < 16, State.reset.beatTab[n]? = some (if n % 2 = 0 then ⟨1, 64⟩ else ⟨2, 256⟩)) ∧
    ∃ e ∈ State.reset.agenda, e.act = .run .beatClose (.nums [0]) ∧ e.at_ = 63) ∧
  (∀ q < 64, vget State.reset.queues q [] = [] ∧ vget State.reset.qprio q 0 = 7) ∧ State.reset.withdrawn = [] ∧ State.reset.stopes = [] ∧
  State.reset.launches = [] ∧ (∀ d, (vget State.reset.dies d {}).windows.toList.all (fun w => w.st == 3) = true) ∧ State.reset.boot.state = 1 ∧
  (∀ c, let k := State.reset.core c
    k.bound = none ∧ k.fault = none ∧ k.a = [] ∧ k.c = [] ∧ k.sm = [] ∧ k.seam = [] ∧ k.active = 0 ∧ (∀ r, k.sval r = 0) ∧
    k.acc = accReset ∧ k.sr.sstat = 0 ∧ k.sr.tfull = 0 ∧ k.sr.dscale = 0x3F800000 ∧ ∀ q, (State.reset.quad q).holder = none) ∧
  (State.reset.lpddrAcc = [] ∧ State.reset.mmioAcc = [] ∧
    ∀ e < 32, vget accReset e {} = if e = 0 then ⟨0, 0, true, true, true, 0, true, 0, BitVec.allOnes 64⟩ else ⟨0, 0, false, false, false, 0, false, 0, 0⟩) ∧
  (∀ m, Memory.read State.reset.mem m = 0)
end

