-- ==== Sys2Proof/Laws/Encoding.lean ====
section
/-! SUPPORT. The arithmetic of encoded fields: a field put at a bit and read back, and how many bits a word takes. -/

namespace Sys2Proof

open Sys2Proof.Machine

/-- A field put at a bit, as arithmetic. -/
theorem putField_eq {n : Nat} (x : BitVec n) (lo : Nat) : putField x lo = x.toNat * 2 ^ lo := by
  simp [putField, Nat.shiftLeft_eq]

/-- A word that is one of `k` bits is one of the bits it is said to have. -/
theorem fits_of {k e n w : Nat} (h : some (k, e) = some (n, w)) (he : e < 2 ^ k) : w < 2 ^ n := by
  cases h
  exact he

/-- A vector word has 96 bits. -/
theorem putVWord_lt (op : Nat) (v : VWord) (h : op < 256) : putVWord op v < 2 ^ 96 := by
  have h1 := v.ty.isLt; have h2 := v.mask.isLt; have h3 := v.zero.isLt; have h4 := v.rnd.isLt; have h5 := v.rep.isLt
  have h6 := v.gap.isLt; have h7 := v.d.reg.isLt; have h8 := v.d.stride.isLt; have h9 := v.a.reg.isLt; have h10 := v.a.stride.isLt
  have h11 := v.b.reg.isLt; have h12 := v.b.stride.isLt; have h13 := v.ext.isLt
  simp only [putVWord, putVOp, putField_eq, Nat.shiftLeft_eq]
  omega

/-- A matrix word has 192 bits. -/
theorem putMWord_lt (op : Nat) (w : MWord) (h : op < 256) : putMWord op w < 2 ^ 192 := by
  have h1 := w.gap.isLt; have h2 := w.spec.isLt; have h3 := w.tag.isLt; have h4 := w.tile.isLt; have h5 := w.body.isLt
  simp only [putMWord, putField_eq, Nat.shiftLeft_eq]
  omega

/-- The fields of a vector word read back from it (R128). -/
theorem vwordOf_putVWord (op : Nat) (v : VWord) : vwordOf (putVWord op v) = v := by
  obtain ⟨ty, mask, zero, rnd, rep, gap, ⟨dr, ds⟩, ⟨ar, as⟩, ⟨br, bs⟩, ext⟩ := v
  have h1 := ty.isLt; have h2 := mask.isLt; have h3 := zero.isLt; have h4 := rnd.isLt; have h5 := rep.isLt
  have h6 := gap.isLt; have h7 := dr.isLt; have h8 := ds.isLt; have h9 := ar.isLt; have h10 := as.isLt
  have h11 := br.isLt; have h12 := bs.isLt; have h13 := ext.isLt
  simp only [vwordOf, vopOf, putVWord, putVOp, putField_eq, Nat.shiftLeft_eq, fieldOf, VWord.mk.injEq, VOp.mk.injEq]
  refine ⟨?_, ?_, ?_, ?_, ?_, ?_, ⟨?_, ?_⟩, ⟨?_, ?_⟩, ⟨?_, ?_⟩, ?_⟩ <;> apply BitVec.eq_of_toNat_eq <;> simp only [BitVec.toNat_ofNat] <;> omega

/-- The fields of a matrix word read back from it (R132). -/
theorem mwordOf_putMWord (op : Nat) (w : MWord) : mwordOf (putMWord op w) = w := by
  obtain ⟨gap, spec, tag, tile, body⟩ := w
  have h1 := gap.isLt; have h2 := spec.isLt; have h3 := tag.isLt; have h4 := tile.isLt; have h5 := body.isLt
  simp only [mwordOf, putMWord, putField_eq, Nat.shiftLeft_eq, fieldOf, MWord.mk.injEq]
  refine ⟨?_, ?_, ?_, ?_, ?_⟩ <;> apply BitVec.eq_of_toNat_eq <;> simp only [BitVec.toNat_ofNat] <;> omega

end Sys2Proof
end

