-- ==== Sys2Proof/Laws/Memory.lean ====
section
/-! SUPPORT. The laws of memory spaces and of keyed tables: reading after writing, and that every memory operation keeps the canonical form (strictly rising addresses, nothing listed that reads as unlisted). -/

namespace Sys2Proof.Machine

/-- The two halves of the canonical form. -/
theorem Memory.wf_iff (m : Memory) :
    Memory.wf m = true ↔ (∀ c ∈ m, c.2 ≠ Memory.blank) ∧ m.Pairwise (fun a b => a.1 < b.1) := by
  simp [Memory.wf]

/-- The empty memory is canonical. -/
theorem Memory.wf_nil : Memory.wf [] = true := by decide

/-- A cell in front of canonical memory above it. -/
theorem Memory.wf_consCell {a : Nat} {v : Byte} {m : Memory} (hm : Memory.wf m = true) (h : ∀ c ∈ m, a < c.1) :
    Memory.wf (Memory.consCell a v m) = true := by
  unfold Memory.consCell
  split
  · exact hm
  · rw [Memory.wf_iff] at hm ⊢
    refine ⟨?_, List.pairwise_cons.2 ⟨h, hm.2⟩⟩
    intro c hc
    rcases List.mem_cons.1 hc with rfl | hc
    · assumption
    · exact hm.1 c hc

/-- What a write may list: the address written, or an address listed before. -/
theorem Memory.mem_write {m : Memory} {a : Nat} {v : Byte} {c : Host.Cell} (h : c ∈ Memory.write m a v) : c.1 = a ∨ c ∈ m := by
  induction m with
  | nil =>
    simp only [Memory.write, Memory.consCell] at h
    split at h
    · exact .inr h
    · exact .inl (by simp_all)
  | cons d m ih =>
    simp only [Memory.write] at h
    split at h
    · simp only [Memory.consCell] at h
      split at h
      · exact .inr (.tail _ h)
      · rcases List.mem_cons.1 h with rfl | h
        · exact .inl rfl
        · exact .inr (.tail _ h)
    · split at h
      · simp only [Memory.consCell] at h
        split at h
        · exact .inr h
        · rcases List.mem_cons.1 h with rfl | h
          · exact .inl rfl
          · exact .inr h
      · rcases List.mem_cons.1 h with rfl | h
        · exact .inr (.head _)
        · rcases ih h with h | h
          · exact .inl h
          · exact .inr (.tail _ h)

/-- A write keeps the canonical form. -/
theorem Memory.wf_write {m : Memory} (a : Nat) (v : Byte) (hm : Memory.wf m = true) : Memory.wf (Memory.write m a v) = true := by
  induction m with
  | nil => exact Memory.wf_consCell Memory.wf_nil (by simp)
  | cons d m ih =>
    have hd := (Memory.wf_iff _).1 hm
    have hp := List.pairwise_cons.1 hd.2
    have ht : Memory.wf m = true := (Memory.wf_iff _).2 ⟨fun c hc => hd.1 c (.tail _ hc), hp.2⟩
    simp only [Memory.write]
    split
    · next h => exact Memory.wf_consCell ht (fun c hc => h ▸ hp.1 c hc)
    · split
      · next h =>
        refine Memory.wf_consCell hm (fun c hc => ?_)
        rcases List.mem_cons.1 hc with rfl | hc
        · exact h
        · exact Nat.lt_trans h (hp.1 c hc)
      · next h h' =>
        have hw := (Memory.wf_iff _).1 (ih ht)
        refine (Memory.wf_iff _).2 ⟨?_, List.pairwise_cons.2 ⟨?_, hw.2⟩⟩
        · intro c hc
          rcases List.mem_cons.1 hc with rfl | hc
          · exact hd.1 _ (.head _)
          · exact hw.1 c hc
        · intro c hc
          rcases Memory.mem_write hc with he | hc
          · omega
          · exact hp.1 c hc

/-- Bytes written keep the canonical form. -/
theorem Memory.wf_writeBytes {m : Memory} (a : Nat) (bs : List Byte) (hm : Memory.wf m = true) :
    Memory.wf (Memory.writeBytes m a bs) = true := by
  induction bs generalizing m a with
  | nil => exact hm
  | cons b bs ih => exact ih (a + 1) (Memory.wf_write a b hm)

/-- Selected bytes written keep the canonical form. -/
theorem Memory.wf_writeSel {m : Memory} (a : Nat) (bs : List Byte) (sel : List Bool) (hm : Memory.wf m = true) :
    Memory.wf (Memory.writeSel m a bs sel) = true := by
  induction bs generalizing m a sel with
  | nil => exact hm
  | cons b bs ih =>
    cases sel with
    | nil => exact ih (a + 1) [] (Memory.wf_write a b hm)
    | cons x xs =>
      refine ih (a + 1) xs ?_
      split
      · exact Memory.wf_write a b hm
      · exact hm

/-- A number written keeps the canonical form. -/
theorem Memory.wf_writeNat {m : Memory} (a n v : Nat) (hm : Memory.wf m = true) : Memory.wf (Memory.writeNat m a n v) = true :=
  Memory.wf_writeBytes a _ hm

/-- An image's cells written keep the canonical form. -/
theorem Memory.wf_putCells {m : Memory} (a : Nat) (img : Memory) (hm : Memory.wf m = true) : Memory.wf (Memory.putCells m a img) = true := by
  unfold Memory.putCells
  induction img generalizing m with
  | nil => exact hm
  | cons c img ih => exact ih (Memory.wf_write _ _ hm)

/-- Clearing a range keeps the canonical form. -/
theorem Memory.wf_clearRange {m : Memory} (a n : Nat) (hm : Memory.wf m = true) : Memory.wf (Memory.clearRange m a n) = true := by
  rw [Memory.wf_iff] at hm ⊢
  exact ⟨fun c hc => hm.1 c (List.mem_of_mem_filter hc), hm.2.filter _⟩

/-- Below everything listed, memory reads blank. -/
theorem Memory.read_below {m : Memory} {a : Nat} (h : ∀ c ∈ m, a < c.1) : Memory.read m a = Memory.blank := by
  cases m with
  | nil => rfl
  | cons c m =>
    have := h c (.head _)
    simp only [Memory.read]
    rw [if_neg (by omega), if_pos this]

/-- A cell put in front, read back; every higher address reads as before. -/
theorem Memory.read_consCell {a : Nat} {v : Byte} {m : Memory} (h : ∀ c ∈ m, a < c.1) (b : Nat) :
    Memory.read (Memory.consCell a v m) b = if b = a then v else Memory.read m b := by
  unfold Memory.consCell
  split
  · next hv =>
    split
    · next hb => rw [hb, Memory.read_below h, hv]
    · rfl
  · simp only [Memory.read]
    by_cases hb : b = a
    · simp [hb]
    · rw [if_neg (fun h => hb h.symm), if_neg hb]
      split
      · next hlt => exact (Memory.read_below (fun c hc => Nat.lt_trans hlt (h c hc))).symm
      · rfl

/-- Reading a byte after writing one: the value written there, every other address as before. -/
theorem Memory.read_write {m : Memory} (a : Nat) (v : Byte) (hm : Memory.wf m = true) (b : Nat) :
    Memory.read (Memory.write m a v) b = if b = a then v else Memory.read m b := by
  induction m with
  | nil => exact Memory.read_consCell (by simp) b
  | cons d m ih =>
    have hd := (Memory.wf_iff _).1 hm
    have hp := List.pairwise_cons.1 hd.2
    have ht : Memory.wf m = true := (Memory.wf_iff _).2 ⟨fun c hc => hd.1 c (.tail _ hc), hp.2⟩
    simp only [Memory.write]
    split
    · next h =>
      rw [Memory.read_consCell (fun c hc => h ▸ hp.1 c hc)]
      split
      · rfl
      · next hb =>
        simp only [Memory.read]
        rw [if_neg (by omega)]
        split
        · next hlt => exact Memory.read_below (fun c hc => Nat.lt_trans hlt (hp.1 c hc))
        · rfl
    · split
      · next h =>
        refine Memory.read_consCell (fun c hc => ?_) b
        rcases List.mem_cons.1 hc with rfl | hc
        · exact h
        · exact Nat.lt_trans h (hp.1 c hc)
      · next h h' =>
        simp only [Memory.read]
        by_cases hb : d.1 = b
        · rw [if_pos hb, if_neg (by omega), if_pos hb]
        · rw [if_neg hb, if_neg hb, ih ht]
          split
          · rw [if_neg (by omega)]
          · rfl

/-- The byte written reads back. -/
theorem Memory.read_write_same {m : Memory} (a : Nat) (v : Byte) (hm : Memory.wf m = true) : Memory.read (Memory.write m a v) a = v := by
  rw [Memory.read_write a v hm, if_pos rfl]

/-- Bytes written: inside the range the new bytes, outside it what stood there. -/
theorem Memory.read_writeBytes {m : Memory} (a : Nat) (bs : List Byte) (hm : Memory.wf m = true) (b : Nat) :
    Memory.read (Memory.writeBytes m a bs) b = if a ≤ b ∧ b < a + bs.length then bs.getD (b - a) 0 else Memory.read m b := by
  induction bs generalizing m a with
  | nil => simp [Memory.writeBytes]
  | cons x xs ih =>
    simp only [Memory.writeBytes, ih (a + 1) (Memory.wf_write a x hm), Memory.read_write a x hm, List.length_cons]
    by_cases h1 : b = a
    · subst h1; simp
    · by_cases h2 : a + 1 ≤ b ∧ b < a + 1 + xs.length
      · rw [if_pos h2, if_pos (by omega)]
        obtain ⟨n, hn⟩ : ∃ n, b - a = n + 1 := ⟨b - a - 1, by omega⟩
        rw [hn, show b - (a + 1) = n by omega]; rfl
      · rw [if_neg h2, if_neg h1, if_neg (by omega)]

/-- As many bytes are read as are asked for. -/
@[simp] theorem Memory.readBytes_length (m : Memory) (a n : Nat) : (Memory.readBytes m a n).length = n := by
  induction n generalizing a with
  | zero => rfl
  | succ n ih => simp [Memory.readBytes, ih]

/-- Each byte read is the byte at its address. -/
theorem Memory.readBytes_getD (m : Memory) (a n i : Nat) (h : i < n) : (Memory.readBytes m a n).getD i 0 = Memory.read m (a + i) := by
  induction n generalizing a i with
  | zero => omega
  | succ n ih =>
    cases i with
    | zero => simp [Memory.readBytes]
    | succ i =>
      have := ih (a + 1) i (by omega)
      simp only [Memory.readBytes, List.getD_cons_succ]
      rw [this]; congr 1; omega

/-- As many little-endian bytes as asked for. -/
@[simp] theorem leBytes_length (n v : Nat) : (leBytes n v).length = n := by
  induction n generalizing v with
  | zero => rfl
  | succ n ih => simp [leBytes, ih]

/-- A number written in `n` bytes reads back modulo its width. -/
theorem leNat_leBytes (n v : Nat) : leNat (leBytes n v) = v % 256 ^ n := by
  induction n generalizing v with
  | zero => simp [leBytes, leNat, Nat.mod_one]
  | succ n ih =>
    have h : v % 256 ^ (n + 1) = v % 256 + 256 * (v / 256 % 256 ^ n) := by
      rw [Nat.pow_succ, Nat.mul_comm (256 ^ n) 256, Nat.mod_mul]
    simp only [leBytes, leNat, ih, BitVec.toNat_ofNat, h]
    omega

/-! ### Keyed tables -/

/-- The entry put is found. -/
theorem Table.find?_put_same {α : Type} (t : Table α) (k : Nat) (v : α) : Table.find? (Table.put t k v) k = some v := by
  induction t with
  | nil => simp [Table.put, Table.find?]
  | cons e t ih =>
    simp only [Table.put]
    split
    · simp [Table.find?]
    · split
      · simp [Table.find?]
      · next h _ => simp only [Table.find?]; rw [if_neg h, ih]

/-- Another key's entry is as it was. -/
theorem Table.find?_put_other {α : Type} (t : Table α) (k : Nat) (v : α) (j : Nat) (h : j ≠ k) :
    Table.find? (Table.put t k v) j = Table.find? t j := by
  induction t with
  | nil => simp [Table.put, Table.find?, Ne.symm h]
  | cons e t ih =>
    simp only [Table.put]
    split
    · next he => simp only [Table.find?]; rw [if_neg (Ne.symm h), if_neg (by omega)]
    · split
      · simp only [Table.find?]; rw [if_neg (Ne.symm h)]
      · simp only [Table.find?]; rw [ih]

/-- The entry put reads back. -/
@[simp] theorem Table.getD_put_same {α : Type} (t : Table α) (k : Nat) (v d : α) : Table.getD (Table.put t k v) k d = v := by
  simp [Table.getD, Table.find?_put_same]
/-- Another key's entry reads as it did. -/
theorem Table.getD_put_other {α : Type} (t : Table α) (k : Nat) (v : α) (j : Nat) (d : α) (h : j ≠ k) :
    Table.getD (Table.put t k v) j d = Table.getD t j d := by
  simp [Table.getD, Table.find?_put_other t k v j h]

end Sys2Proof.Machine
end

