-- ==== Sys2Proof/Laws/State.lean ====
section
/-! SUPPORT. What each update of the machine and of a core leaves in each field, by rfl, so that no proof unfolds a record update; the effect of reading a core back; and LPDDR through the updates. -/

namespace Sys2Proof.Machine

/-! ### setCore -/
@[simp] theorem State.setCore_now (s : State) (c : Nat) (k : Core) : (s.setCore c k).now = s.now := rfl
@[simp] theorem State.setCore_curCore (s : State) (c : Nat) (k : Core) : (s.setCore c k).curCore = s.curCore := rfl
@[simp] theorem State.setCore_curStrm (s : State) (c : Nat) (k : Core) : (s.setCore c k).curStrm = s.curStrm := rfl
@[simp] theorem State.setCore_curHart (s : State) (c : Nat) (k : Core) : (s.setCore c k).curHart = s.curHart := rfl
@[simp] theorem State.setCore_arg (s : State) (c : Nat) (k : Core) : (s.setCore c k).arg = s.arg := rfl
@[simp] theorem State.setCore_turns (s : State) (c : Nat) (k : Core) : (s.setCore c k).turns = s.turns := rfl
@[simp] theorem State.setCore_agenda (s : State) (c : Nat) (k : Core) : (s.setCore c k).agenda = s.agenda := rfl
@[simp] theorem State.setCore_seq (s : State) (c : Nat) (k : Core) : (s.setCore c k).seq = s.seq := rfl
@[simp] theorem State.setCore_free (s : State) (c : Nat) (k : Core) : (s.setCore c k).free = s.free := rfl
@[simp] theorem State.setCore_wb (s : State) (c : Nat) (k : Core) : (s.setCore c k).wb = s.wb := rfl
@[simp] theorem State.setCore_sets (s : State) (c : Nat) (k : Core) : (s.setCore c k).sets = s.sets := rfl
@[simp] theorem State.setCore_window (s : State) (c : Nat) (k : Core) : (s.setCore c k).window = s.window := rfl
@[simp] theorem State.setCore_winAt (s : State) (c : Nat) (k : Core) : (s.setCore c k).winAt = s.winAt := rfl
@[simp] theorem State.setCore_beat (s : State) (c : Nat) (k : Core) : (s.setCore c k).beat = s.beat := rfl
@[simp] theorem State.setCore_beatAt (s : State) (c : Nat) (k : Core) : (s.setCore c k).beatAt = s.beatAt := rfl
@[simp] theorem State.setCore_beatHist (s : State) (c : Nat) (k : Core) : (s.setCore c k).beatHist = s.beatHist := rfl
@[simp] theorem State.setCore_beatTab (s : State) (c : Nat) (k : Core) : (s.setCore c k).beatTab = s.beatTab := rfl
@[simp] theorem State.setCore_beatNext (s : State) (c : Nat) (k : Core) : (s.setCore c k).beatNext = s.beatNext := rfl
@[simp] theorem State.setCore_fuse (s : State) (c : Nat) (k : Core) : (s.setCore c k).fuse = s.fuse := rfl
@[simp] theorem State.setCore_boot (s : State) (c : Nat) (k : Core) : (s.setCore c k).boot = s.boot := rfl
@[simp] theorem State.setCore_power (s : State) (c : Nat) (k : Core) : (s.setCore c k).power = s.power := rfl
@[simp] theorem State.setCore_pkg (s : State) (c : Nat) (k : Core) : (s.setCore c k).pkg = s.pkg := rfl
@[simp] theorem State.setCore_routing (s : State) (c : Nat) (k : Core) : (s.setCore c k).routing = s.routing := rfl
@[simp] theorem State.setCore_ports (s : State) (c : Nat) (k : Core) : (s.setCore c k).ports = s.ports := rfl
@[simp] theorem State.setCore_lostPorts (s : State) (c : Nat) (k : Core) : (s.setCore c k).lostPorts = s.lostPorts := rfl
@[simp] theorem State.setCore_withdrawn (s : State) (c : Nat) (k : Core) : (s.setCore c k).withdrawn = s.withdrawn := rfl
@[simp] theorem State.setCore_cores (s : State) (c : Nat) (k : Core) : (s.setCore c k).cores = Table.put s.cores c k := rfl
@[simp] theorem State.setCore_quads (s : State) (c : Nat) (k : Core) : (s.setCore c k).quads = s.quads := rfl
@[simp] theorem State.setCore_dies (s : State) (c : Nat) (k : Core) : (s.setCore c k).dies = s.dies := rfl
@[simp] theorem State.setCore_stopes (s : State) (c : Nat) (k : Core) : (s.setCore c k).stopes = s.stopes := rfl
@[simp] theorem State.setCore_nextStope (s : State) (c : Nat) (k : Core) : (s.setCore c k).nextStope = s.nextStope := rfl
@[simp] theorem State.setCore_launches (s : State) (c : Nat) (k : Core) : (s.setCore c k).launches = s.launches := rfl
@[simp] theorem State.setCore_queues (s : State) (c : Nat) (k : Core) : (s.setCore c k).queues = s.queues := rfl
@[simp] theorem State.setCore_qprio (s : State) (c : Nat) (k : Core) : (s.setCore c k).qprio = s.qprio := rfl
@[simp] theorem State.setCore_lastServed (s : State) (c : Nat) (k : Core) : (s.setCore c k).lastServed = s.lastServed := rfl
@[simp] theorem State.setCore_latched (s : State) (c : Nat) (k : Core) : (s.setCore c k).latched = s.latched := rfl
@[simp] theorem State.setCore_reserving (s : State) (c : Nat) (k : Core) : (s.setCore c k).reserving = s.reserving := rfl
@[simp] theorem State.setCore_genCount (s : State) (c : Nat) (k : Core) : (s.setCore c k).genCount = s.genCount := rfl
@[simp] theorem State.setCore_runs (s : State) (c : Nat) (k : Core) : (s.setCore c k).runs = s.runs := rfl
@[simp] theorem State.setCore_nextRun (s : State) (c : Nat) (k : Core) : (s.setCore c k).nextRun = s.nextRun := rfl
@[simp] theorem State.setCore_procs (s : State) (c : Nat) (k : Core) : (s.setCore c k).procs = s.procs := rfl
@[simp] theorem State.setCore_harts (s : State) (c : Nat) (k : Core) : (s.setCore c k).harts = s.harts := rfl
@[simp] theorem State.setCore_pending (s : State) (c : Nat) (k : Core) : (s.setCore c k).pending = s.pending := rfl
@[simp] theorem State.setCore_netPort (s : State) (c : Nat) (k : Core) : (s.setCore c k).netPort = s.netPort := rfl
@[simp] theorem State.setCore_stoPort (s : State) (c : Nat) (k : Core) : (s.setCore c k).stoPort = s.stoPort := rfl
@[simp] theorem State.setCore_mem (s : State) (c : Nat) (k : Core) : (s.setCore c k).mem = s.mem := rfl
@[simp] theorem State.setCore_memPoison (s : State) (c : Nat) (k : Core) : (s.setCore c k).memPoison = s.memPoison := rfl
@[simp] theorem State.setCore_memUpsets (s : State) (c : Nat) (k : Core) : (s.setCore c k).memUpsets = s.memUpsets := rfl
@[simp] theorem State.setCore_lpddrAcc (s : State) (c : Nat) (k : Core) : (s.setCore c k).lpddrAcc = s.lpddrAcc := rfl
@[simp] theorem State.setCore_mmioAcc (s : State) (c : Nat) (k : Core) : (s.setCore c k).mmioAcc = s.mmioAcc := rfl
@[simp] theorem State.setCore_greqs (s : State) (c : Nat) (k : Core) : (s.setCore c k).greqs = s.greqs := rfl
@[simp] theorem State.setCore_joins (s : State) (c : Nat) (k : Core) : (s.setCore c k).joins = s.joins := rfl
@[simp] theorem State.setCore_walks (s : State) (c : Nat) (k : Core) : (s.setCore c k).walks = s.walks := rfl
@[simp] theorem State.setCore_dsops (s : State) (c : Nat) (k : Core) : (s.setCore c k).dsops = s.dsops := rfl
@[simp] theorem State.setCore_barriers (s : State) (c : Nat) (k : Core) : (s.setCore c k).barriers = s.barriers := rfl
@[simp] theorem State.setCore_reservations (s : State) (c : Nat) (k : Core) : (s.setCore c k).reservations = s.reservations := rfl
@[simp] theorem State.setCore_resvs (s : State) (c : Nat) (k : Core) : (s.setCore c k).resvs = s.resvs := rfl
@[simp] theorem State.setCore_hartReqs (s : State) (c : Nat) (k : Core) : (s.setCore c k).hartReqs = s.hartReqs := rfl
@[simp] theorem State.setCore_deferred (s : State) (c : Nat) (k : Core) : (s.setCore c k).deferred = s.deferred := rfl
@[simp] theorem State.setCore_relays (s : State) (c : Nat) (k : Core) : (s.setCore c k).relays = s.relays := rfl
@[simp] theorem State.setCore_nextSid (s : State) (c : Nat) (k : Core) : (s.setCore c k).nextSid = s.nextSid := rfl
@[simp] theorem State.setCore_migrations (s : State) (c : Nat) (k : Core) : (s.setCore c k).migrations = s.migrations := rfl
@[simp] theorem State.setCore_flows (s : State) (c : Nat) (k : Core) : (s.setCore c k).flows = s.flows := rfl
@[simp] theorem State.setCore_parked (s : State) (c : Nat) (k : Core) : (s.setCore c k).parked = s.parked := rfl
@[simp] theorem State.setCore_outbox (s : State) (c : Nat) (k : Core) : (s.setCore c k).outbox = s.outbox := rfl
@[simp] theorem State.setCore_ring (s : State) (c : Nat) (k : Core) : (s.setCore c k).ring = s.ring := rfl
@[simp] theorem State.setCore_denials (s : State) (c : Nat) (k : Core) : (s.setCore c k).denials = s.denials := rfl
@[simp] theorem State.setCore_ktlbf (s : State) (c : Nat) (k : Core) : (s.setCore c k).ktlbf = s.ktlbf := rfl
@[simp] theorem State.setCore_invals (s : State) (c : Nat) (k : Core) : (s.setCore c k).invals = s.invals := rfl

/-! ### setQuad -/
@[simp] theorem State.setQuad_now (s : State) (q : Nat) (x : Quad) : (s.setQuad q x).now = s.now := rfl
@[simp] theorem State.setQuad_curCore (s : State) (q : Nat) (x : Quad) : (s.setQuad q x).curCore = s.curCore := rfl
@[simp] theorem State.setQuad_curStrm (s : State) (q : Nat) (x : Quad) : (s.setQuad q x).curStrm = s.curStrm := rfl
@[simp] theorem State.setQuad_curHart (s : State) (q : Nat) (x : Quad) : (s.setQuad q x).curHart = s.curHart := rfl
@[simp] theorem State.setQuad_arg (s : State) (q : Nat) (x : Quad) : (s.setQuad q x).arg = s.arg := rfl
@[simp] theorem State.setQuad_turns (s : State) (q : Nat) (x : Quad) : (s.setQuad q x).turns = s.turns := rfl
@[simp] theorem State.setQuad_agenda (s : State) (q : Nat) (x : Quad) : (s.setQuad q x).agenda = s.agenda := rfl
@[simp] theorem State.setQuad_seq (s : State) (q : Nat) (x : Quad) : (s.setQuad q x).seq = s.seq := rfl
@[simp] theorem State.setQuad_free (s : State) (q : Nat) (x : Quad) : (s.setQuad q x).free = s.free := rfl
@[simp] theorem State.setQuad_wb (s : State) (q : Nat) (x : Quad) : (s.setQuad q x).wb = s.wb := rfl
@[simp] theorem State.setQuad_sets (s : State) (q : Nat) (x : Quad) : (s.setQuad q x).sets = s.sets := rfl
@[simp] theorem State.setQuad_window (s : State) (q : Nat) (x : Quad) : (s.setQuad q x).window = s.window := rfl
@[simp] theorem State.setQuad_winAt (s : State) (q : Nat) (x : Quad) : (s.setQuad q x).winAt = s.winAt := rfl
@[simp] theorem State.setQuad_beat (s : State) (q : Nat) (x : Quad) : (s.setQuad q x).beat = s.beat := rfl
@[simp] theorem State.setQuad_beatAt (s : State) (q : Nat) (x : Quad) : (s.setQuad q x).beatAt = s.beatAt := rfl
@[simp] theorem State.setQuad_beatHist (s : State) (q : Nat) (x : Quad) : (s.setQuad q x).beatHist = s.beatHist := rfl
@[simp] theorem State.setQuad_beatTab (s : State) (q : Nat) (x : Quad) : (s.setQuad q x).beatTab = s.beatTab := rfl
@[simp] theorem State.setQuad_beatNext (s : State) (q : Nat) (x : Quad) : (s.setQuad q x).beatNext = s.beatNext := rfl
@[simp] theorem State.setQuad_fuse (s : State) (q : Nat) (x : Quad) : (s.setQuad q x).fuse = s.fuse := rfl
@[simp] theorem State.setQuad_boot (s : State) (q : Nat) (x : Quad) : (s.setQuad q x).boot = s.boot := rfl
@[simp] theorem State.setQuad_power (s : State) (q : Nat) (x : Quad) : (s.setQuad q x).power = s.power := rfl
@[simp] theorem State.setQuad_pkg (s : State) (q : Nat) (x : Quad) : (s.setQuad q x).pkg = s.pkg := rfl
@[simp] theorem State.setQuad_routing (s : State) (q : Nat) (x : Quad) : (s.setQuad q x).routing = s.routing := rfl
@[simp] theorem State.setQuad_ports (s : State) (q : Nat) (x : Quad) : (s.setQuad q x).ports = s.ports := rfl
@[simp] theorem State.setQuad_lostPorts (s : State) (q : Nat) (x : Quad) : (s.setQuad q x).lostPorts = s.lostPorts := rfl
@[simp] theorem State.setQuad_withdrawn (s : State) (q : Nat) (x : Quad) : (s.setQuad q x).withdrawn = s.withdrawn := rfl
@[simp] theorem State.setQuad_cores (s : State) (q : Nat) (x : Quad) : (s.setQuad q x).cores = s.cores := rfl
@[simp] theorem State.setQuad_quads (s : State) (q : Nat) (x : Quad) : (s.setQuad q x).quads = Table.put s.quads q x := rfl
@[simp] theorem State.setQuad_dies (s : State) (q : Nat) (x : Quad) : (s.setQuad q x).dies = s.dies := rfl
@[simp] theorem State.setQuad_stopes (s : State) (q : Nat) (x : Quad) : (s.setQuad q x).stopes = s.stopes := rfl
@[simp] theorem State.setQuad_nextStope (s : State) (q : Nat) (x : Quad) : (s.setQuad q x).nextStope = s.nextStope := rfl
@[simp] theorem State.setQuad_launches (s : State) (q : Nat) (x : Quad) : (s.setQuad q x).launches = s.launches := rfl
@[simp] theorem State.setQuad_queues (s : State) (q : Nat) (x : Quad) : (s.setQuad q x).queues = s.queues := rfl
@[simp] theorem State.setQuad_qprio (s : State) (q : Nat) (x : Quad) : (s.setQuad q x).qprio = s.qprio := rfl
@[simp] theorem State.setQuad_lastServed (s : State) (q : Nat) (x : Quad) : (s.setQuad q x).lastServed = s.lastServed := rfl
@[simp] theorem State.setQuad_latched (s : State) (q : Nat) (x : Quad) : (s.setQuad q x).latched = s.latched := rfl
@[simp] theorem State.setQuad_reserving (s : State) (q : Nat) (x : Quad) : (s.setQuad q x).reserving = s.reserving := rfl
@[simp] theorem State.setQuad_genCount (s : State) (q : Nat) (x : Quad) : (s.setQuad q x).genCount = s.genCount := rfl
@[simp] theorem State.setQuad_runs (s : State) (q : Nat) (x : Quad) : (s.setQuad q x).runs = s.runs := rfl
@[simp] theorem State.setQuad_nextRun (s : State) (q : Nat) (x : Quad) : (s.setQuad q x).nextRun = s.nextRun := rfl
@[simp] theorem State.setQuad_procs (s : State) (q : Nat) (x : Quad) : (s.setQuad q x).procs = s.procs := rfl
@[simp] theorem State.setQuad_harts (s : State) (q : Nat) (x : Quad) : (s.setQuad q x).harts = s.harts := rfl
@[simp] theorem State.setQuad_pending (s : State) (q : Nat) (x : Quad) : (s.setQuad q x).pending = s.pending := rfl
@[simp] theorem State.setQuad_netPort (s : State) (q : Nat) (x : Quad) : (s.setQuad q x).netPort = s.netPort := rfl
@[simp] theorem State.setQuad_stoPort (s : State) (q : Nat) (x : Quad) : (s.setQuad q x).stoPort = s.stoPort := rfl
@[simp] theorem State.setQuad_mem (s : State) (q : Nat) (x : Quad) : (s.setQuad q x).mem = s.mem := rfl
@[simp] theorem State.setQuad_memPoison (s : State) (q : Nat) (x : Quad) : (s.setQuad q x).memPoison = s.memPoison := rfl
@[simp] theorem State.setQuad_memUpsets (s : State) (q : Nat) (x : Quad) : (s.setQuad q x).memUpsets = s.memUpsets := rfl
@[simp] theorem State.setQuad_lpddrAcc (s : State) (q : Nat) (x : Quad) : (s.setQuad q x).lpddrAcc = s.lpddrAcc := rfl
@[simp] theorem State.setQuad_mmioAcc (s : State) (q : Nat) (x : Quad) : (s.setQuad q x).mmioAcc = s.mmioAcc := rfl
@[simp] theorem State.setQuad_greqs (s : State) (q : Nat) (x : Quad) : (s.setQuad q x).greqs = s.greqs := rfl
@[simp] theorem State.setQuad_joins (s : State) (q : Nat) (x : Quad) : (s.setQuad q x).joins = s.joins := rfl
@[simp] theorem State.setQuad_walks (s : State) (q : Nat) (x : Quad) : (s.setQuad q x).walks = s.walks := rfl
@[simp] theorem State.setQuad_dsops (s : State) (q : Nat) (x : Quad) : (s.setQuad q x).dsops = s.dsops := rfl
@[simp] theorem State.setQuad_barriers (s : State) (q : Nat) (x : Quad) : (s.setQuad q x).barriers = s.barriers := rfl
@[simp] theorem State.setQuad_reservations (s : State) (q : Nat) (x : Quad) : (s.setQuad q x).reservations = s.reservations := rfl
@[simp] theorem State.setQuad_resvs (s : State) (q : Nat) (x : Quad) : (s.setQuad q x).resvs = s.resvs := rfl
@[simp] theorem State.setQuad_hartReqs (s : State) (q : Nat) (x : Quad) : (s.setQuad q x).hartReqs = s.hartReqs := rfl
@[simp] theorem State.setQuad_deferred (s : State) (q : Nat) (x : Quad) : (s.setQuad q x).deferred = s.deferred := rfl
@[simp] theorem State.setQuad_relays (s : State) (q : Nat) (x : Quad) : (s.setQuad q x).relays = s.relays := rfl
@[simp] theorem State.setQuad_nextSid (s : State) (q : Nat) (x : Quad) : (s.setQuad q x).nextSid = s.nextSid := rfl
@[simp] theorem State.setQuad_migrations (s : State) (q : Nat) (x : Quad) : (s.setQuad q x).migrations = s.migrations := rfl
@[simp] theorem State.setQuad_flows (s : State) (q : Nat) (x : Quad) : (s.setQuad q x).flows = s.flows := rfl
@[simp] theorem State.setQuad_parked (s : State) (q : Nat) (x : Quad) : (s.setQuad q x).parked = s.parked := rfl
@[simp] theorem State.setQuad_outbox (s : State) (q : Nat) (x : Quad) : (s.setQuad q x).outbox = s.outbox := rfl
@[simp] theorem State.setQuad_ring (s : State) (q : Nat) (x : Quad) : (s.setQuad q x).ring = s.ring := rfl
@[simp] theorem State.setQuad_denials (s : State) (q : Nat) (x : Quad) : (s.setQuad q x).denials = s.denials := rfl
@[simp] theorem State.setQuad_ktlbf (s : State) (q : Nat) (x : Quad) : (s.setQuad q x).ktlbf = s.ktlbf := rfl
@[simp] theorem State.setQuad_invals (s : State) (q : Nat) (x : Quad) : (s.setQuad q x).invals = s.invals := rfl

/-! ### cycWrite -/
@[simp] theorem State.cycWrite_now (s : State) (w : CycWrite) : (s.cycWrite w).now = s.now := rfl
@[simp] theorem State.cycWrite_curCore (s : State) (w : CycWrite) : (s.cycWrite w).curCore = s.curCore := rfl
@[simp] theorem State.cycWrite_curStrm (s : State) (w : CycWrite) : (s.cycWrite w).curStrm = s.curStrm := rfl
@[simp] theorem State.cycWrite_curHart (s : State) (w : CycWrite) : (s.cycWrite w).curHart = s.curHart := rfl
@[simp] theorem State.cycWrite_arg (s : State) (w : CycWrite) : (s.cycWrite w).arg = s.arg := rfl
@[simp] theorem State.cycWrite_turns (s : State) (w : CycWrite) : (s.cycWrite w).turns = s.turns := rfl
@[simp] theorem State.cycWrite_agenda (s : State) (w : CycWrite) : (s.cycWrite w).agenda = s.agenda := rfl
@[simp] theorem State.cycWrite_seq (s : State) (w : CycWrite) : (s.cycWrite w).seq = s.seq := rfl
@[simp] theorem State.cycWrite_free (s : State) (w : CycWrite) : (s.cycWrite w).free = s.free := rfl
@[simp] theorem State.cycWrite_wb (s : State) (w : CycWrite) : (s.cycWrite w).wb = w :: s.wb := rfl
@[simp] theorem State.cycWrite_sets (s : State) (w : CycWrite) : (s.cycWrite w).sets = s.sets := rfl
@[simp] theorem State.cycWrite_window (s : State) (w : CycWrite) : (s.cycWrite w).window = s.window := rfl
@[simp] theorem State.cycWrite_winAt (s : State) (w : CycWrite) : (s.cycWrite w).winAt = s.winAt := rfl
@[simp] theorem State.cycWrite_beat (s : State) (w : CycWrite) : (s.cycWrite w).beat = s.beat := rfl
@[simp] theorem State.cycWrite_beatAt (s : State) (w : CycWrite) : (s.cycWrite w).beatAt = s.beatAt := rfl
@[simp] theorem State.cycWrite_beatHist (s : State) (w : CycWrite) : (s.cycWrite w).beatHist = s.beatHist := rfl
@[simp] theorem State.cycWrite_beatTab (s : State) (w : CycWrite) : (s.cycWrite w).beatTab = s.beatTab := rfl
@[simp] theorem State.cycWrite_beatNext (s : State) (w : CycWrite) : (s.cycWrite w).beatNext = s.beatNext := rfl
@[simp] theorem State.cycWrite_fuse (s : State) (w : CycWrite) : (s.cycWrite w).fuse = s.fuse := rfl
@[simp] theorem State.cycWrite_boot (s : State) (w : CycWrite) : (s.cycWrite w).boot = s.boot := rfl
@[simp] theorem State.cycWrite_power (s : State) (w : CycWrite) : (s.cycWrite w).power = s.power := rfl
@[simp] theorem State.cycWrite_pkg (s : State) (w : CycWrite) : (s.cycWrite w).pkg = s.pkg := rfl
@[simp] theorem State.cycWrite_routing (s : State) (w : CycWrite) : (s.cycWrite w).routing = s.routing := rfl
@[simp] theorem State.cycWrite_ports (s : State) (w : CycWrite) : (s.cycWrite w).ports = s.ports := rfl
@[simp] theorem State.cycWrite_lostPorts (s : State) (w : CycWrite) : (s.cycWrite w).lostPorts = s.lostPorts := rfl
@[simp] theorem State.cycWrite_withdrawn (s : State) (w : CycWrite) : (s.cycWrite w).withdrawn = s.withdrawn := rfl
@[simp] theorem State.cycWrite_cores (s : State) (w : CycWrite) : (s.cycWrite w).cores = s.cores := rfl
@[simp] theorem State.cycWrite_quads (s : State) (w : CycWrite) : (s.cycWrite w).quads = s.quads := rfl
@[simp] theorem State.cycWrite_dies (s : State) (w : CycWrite) : (s.cycWrite w).dies = s.dies := rfl
@[simp] theorem State.cycWrite_stopes (s : State) (w : CycWrite) : (s.cycWrite w).stopes = s.stopes := rfl
@[simp] theorem State.cycWrite_nextStope (s : State) (w : CycWrite) : (s.cycWrite w).nextStope = s.nextStope := rfl
@[simp] theorem State.cycWrite_launches (s : State) (w : CycWrite) : (s.cycWrite w).launches = s.launches := rfl
@[simp] theorem State.cycWrite_queues (s : State) (w : CycWrite) : (s.cycWrite w).queues = s.queues := rfl
@[simp] theorem State.cycWrite_qprio (s : State) (w : CycWrite) : (s.cycWrite w).qprio = s.qprio := rfl
@[simp] theorem State.cycWrite_lastServed (s : State) (w : CycWrite) : (s.cycWrite w).lastServed = s.lastServed := rfl
@[simp] theorem State.cycWrite_latched (s : State) (w : CycWrite) : (s.cycWrite w).latched = s.latched := rfl
@[simp] theorem State.cycWrite_reserving (s : State) (w : CycWrite) : (s.cycWrite w).reserving = s.reserving := rfl
@[simp] theorem State.cycWrite_genCount (s : State) (w : CycWrite) : (s.cycWrite w).genCount = s.genCount := rfl
@[simp] theorem State.cycWrite_runs (s : State) (w : CycWrite) : (s.cycWrite w).runs = s.runs := rfl
@[simp] theorem State.cycWrite_nextRun (s : State) (w : CycWrite) : (s.cycWrite w).nextRun = s.nextRun := rfl
@[simp] theorem State.cycWrite_procs (s : State) (w : CycWrite) : (s.cycWrite w).procs = s.procs := rfl
@[simp] theorem State.cycWrite_harts (s : State) (w : CycWrite) : (s.cycWrite w).harts = s.harts := rfl
@[simp] theorem State.cycWrite_pending (s : State) (w : CycWrite) : (s.cycWrite w).pending = s.pending := rfl
@[simp] theorem State.cycWrite_netPort (s : State) (w : CycWrite) : (s.cycWrite w).netPort = s.netPort := rfl
@[simp] theorem State.cycWrite_stoPort (s : State) (w : CycWrite) : (s.cycWrite w).stoPort = s.stoPort := rfl
@[simp] theorem State.cycWrite_mem (s : State) (w : CycWrite) : (s.cycWrite w).mem = s.mem := rfl
@[simp] theorem State.cycWrite_memPoison (s : State) (w : CycWrite) : (s.cycWrite w).memPoison = s.memPoison := rfl
@[simp] theorem State.cycWrite_memUpsets (s : State) (w : CycWrite) : (s.cycWrite w).memUpsets = s.memUpsets := rfl
@[simp] theorem State.cycWrite_lpddrAcc (s : State) (w : CycWrite) : (s.cycWrite w).lpddrAcc = s.lpddrAcc := rfl
@[simp] theorem State.cycWrite_mmioAcc (s : State) (w : CycWrite) : (s.cycWrite w).mmioAcc = s.mmioAcc := rfl
@[simp] theorem State.cycWrite_greqs (s : State) (w : CycWrite) : (s.cycWrite w).greqs = s.greqs := rfl
@[simp] theorem State.cycWrite_joins (s : State) (w : CycWrite) : (s.cycWrite w).joins = s.joins := rfl
@[simp] theorem State.cycWrite_walks (s : State) (w : CycWrite) : (s.cycWrite w).walks = s.walks := rfl
@[simp] theorem State.cycWrite_dsops (s : State) (w : CycWrite) : (s.cycWrite w).dsops = s.dsops := rfl
@[simp] theorem State.cycWrite_barriers (s : State) (w : CycWrite) : (s.cycWrite w).barriers = s.barriers := rfl
@[simp] theorem State.cycWrite_reservations (s : State) (w : CycWrite) : (s.cycWrite w).reservations = s.reservations := rfl
@[simp] theorem State.cycWrite_resvs (s : State) (w : CycWrite) : (s.cycWrite w).resvs = s.resvs := rfl
@[simp] theorem State.cycWrite_hartReqs (s : State) (w : CycWrite) : (s.cycWrite w).hartReqs = s.hartReqs := rfl
@[simp] theorem State.cycWrite_deferred (s : State) (w : CycWrite) : (s.cycWrite w).deferred = s.deferred := rfl
@[simp] theorem State.cycWrite_relays (s : State) (w : CycWrite) : (s.cycWrite w).relays = s.relays := rfl
@[simp] theorem State.cycWrite_nextSid (s : State) (w : CycWrite) : (s.cycWrite w).nextSid = s.nextSid := rfl
@[simp] theorem State.cycWrite_migrations (s : State) (w : CycWrite) : (s.cycWrite w).migrations = s.migrations := rfl
@[simp] theorem State.cycWrite_flows (s : State) (w : CycWrite) : (s.cycWrite w).flows = s.flows := rfl
@[simp] theorem State.cycWrite_parked (s : State) (w : CycWrite) : (s.cycWrite w).parked = s.parked := rfl
@[simp] theorem State.cycWrite_outbox (s : State) (w : CycWrite) : (s.cycWrite w).outbox = s.outbox := rfl
@[simp] theorem State.cycWrite_ring (s : State) (w : CycWrite) : (s.cycWrite w).ring = s.ring := rfl
@[simp] theorem State.cycWrite_denials (s : State) (w : CycWrite) : (s.cycWrite w).denials = s.denials := rfl
@[simp] theorem State.cycWrite_ktlbf (s : State) (w : CycWrite) : (s.cycWrite w).ktlbf = s.ktlbf := rfl
@[simp] theorem State.cycWrite_invals (s : State) (w : CycWrite) : (s.cycWrite w).invals = s.invals := rfl

/-! ### cycSet -/
@[simp] theorem State.cycSet_now (s : State) (c : Nat) (x : CycSet) : (s.cycSet c x).now = s.now := rfl
@[simp] theorem State.cycSet_curCore (s : State) (c : Nat) (x : CycSet) : (s.cycSet c x).curCore = s.curCore := rfl
@[simp] theorem State.cycSet_curStrm (s : State) (c : Nat) (x : CycSet) : (s.cycSet c x).curStrm = s.curStrm := rfl
@[simp] theorem State.cycSet_curHart (s : State) (c : Nat) (x : CycSet) : (s.cycSet c x).curHart = s.curHart := rfl
@[simp] theorem State.cycSet_arg (s : State) (c : Nat) (x : CycSet) : (s.cycSet c x).arg = s.arg := rfl
@[simp] theorem State.cycSet_turns (s : State) (c : Nat) (x : CycSet) : (s.cycSet c x).turns = s.turns := rfl
@[simp] theorem State.cycSet_agenda (s : State) (c : Nat) (x : CycSet) : (s.cycSet c x).agenda = s.agenda := rfl
@[simp] theorem State.cycSet_seq (s : State) (c : Nat) (x : CycSet) : (s.cycSet c x).seq = s.seq := rfl
@[simp] theorem State.cycSet_free (s : State) (c : Nat) (x : CycSet) : (s.cycSet c x).free = s.free := rfl
@[simp] theorem State.cycSet_wb (s : State) (c : Nat) (x : CycSet) : (s.cycSet c x).wb = s.wb := rfl
@[simp] theorem State.cycSet_sets (s : State) (c : Nat) (x : CycSet) : (s.cycSet c x).sets = (c, x) :: s.sets := rfl
@[simp] theorem State.cycSet_window (s : State) (c : Nat) (x : CycSet) : (s.cycSet c x).window = s.window := rfl
@[simp] theorem State.cycSet_winAt (s : State) (c : Nat) (x : CycSet) : (s.cycSet c x).winAt = s.winAt := rfl
@[simp] theorem State.cycSet_beat (s : State) (c : Nat) (x : CycSet) : (s.cycSet c x).beat = s.beat := rfl
@[simp] theorem State.cycSet_beatAt (s : State) (c : Nat) (x : CycSet) : (s.cycSet c x).beatAt = s.beatAt := rfl
@[simp] theorem State.cycSet_beatHist (s : State) (c : Nat) (x : CycSet) : (s.cycSet c x).beatHist = s.beatHist := rfl
@[simp] theorem State.cycSet_beatTab (s : State) (c : Nat) (x : CycSet) : (s.cycSet c x).beatTab = s.beatTab := rfl
@[simp] theorem State.cycSet_beatNext (s : State) (c : Nat) (x : CycSet) : (s.cycSet c x).beatNext = s.beatNext := rfl
@[simp] theorem State.cycSet_fuse (s : State) (c : Nat) (x : CycSet) : (s.cycSet c x).fuse = s.fuse := rfl
@[simp] theorem State.cycSet_boot (s : State) (c : Nat) (x : CycSet) : (s.cycSet c x).boot = s.boot := rfl
@[simp] theorem State.cycSet_power (s : State) (c : Nat) (x : CycSet) : (s.cycSet c x).power = s.power := rfl
@[simp] theorem State.cycSet_pkg (s : State) (c : Nat) (x : CycSet) : (s.cycSet c x).pkg = s.pkg := rfl
@[simp] theorem State.cycSet_routing (s : State) (c : Nat) (x : CycSet) : (s.cycSet c x).routing = s.routing := rfl
@[simp] theorem State.cycSet_ports (s : State) (c : Nat) (x : CycSet) : (s.cycSet c x).ports = s.ports := rfl
@[simp] theorem State.cycSet_lostPorts (s : State) (c : Nat) (x : CycSet) : (s.cycSet c x).lostPorts = s.lostPorts := rfl
@[simp] theorem State.cycSet_withdrawn (s : State) (c : Nat) (x : CycSet) : (s.cycSet c x).withdrawn = s.withdrawn := rfl
@[simp] theorem State.cycSet_cores (s : State) (c : Nat) (x : CycSet) : (s.cycSet c x).cores = s.cores := rfl
@[simp] theorem State.cycSet_quads (s : State) (c : Nat) (x : CycSet) : (s.cycSet c x).quads = s.quads := rfl
@[simp] theorem State.cycSet_dies (s : State) (c : Nat) (x : CycSet) : (s.cycSet c x).dies = s.dies := rfl
@[simp] theorem State.cycSet_stopes (s : State) (c : Nat) (x : CycSet) : (s.cycSet c x).stopes = s.stopes := rfl
@[simp] theorem State.cycSet_nextStope (s : State) (c : Nat) (x : CycSet) : (s.cycSet c x).nextStope = s.nextStope := rfl
@[simp] theorem State.cycSet_launches (s : State) (c : Nat) (x : CycSet) : (s.cycSet c x).launches = s.launches := rfl
@[simp] theorem State.cycSet_queues (s : State) (c : Nat) (x : CycSet) : (s.cycSet c x).queues = s.queues := rfl
@[simp] theorem State.cycSet_qprio (s : State) (c : Nat) (x : CycSet) : (s.cycSet c x).qprio = s.qprio := rfl
@[simp] theorem State.cycSet_lastServed (s : State) (c : Nat) (x : CycSet) : (s.cycSet c x).lastServed = s.lastServed := rfl
@[simp] theorem State.cycSet_latched (s : State) (c : Nat) (x : CycSet) : (s.cycSet c x).latched = s.latched := rfl
@[simp] theorem State.cycSet_reserving (s : State) (c : Nat) (x : CycSet) : (s.cycSet c x).reserving = s.reserving := rfl
@[simp] theorem State.cycSet_genCount (s : State) (c : Nat) (x : CycSet) : (s.cycSet c x).genCount = s.genCount := rfl
@[simp] theorem State.cycSet_runs (s : State) (c : Nat) (x : CycSet) : (s.cycSet c x).runs = s.runs := rfl
@[simp] theorem State.cycSet_nextRun (s : State) (c : Nat) (x : CycSet) : (s.cycSet c x).nextRun = s.nextRun := rfl
@[simp] theorem State.cycSet_procs (s : State) (c : Nat) (x : CycSet) : (s.cycSet c x).procs = s.procs := rfl
@[simp] theorem State.cycSet_harts (s : State) (c : Nat) (x : CycSet) : (s.cycSet c x).harts = s.harts := rfl
@[simp] theorem State.cycSet_pending (s : State) (c : Nat) (x : CycSet) : (s.cycSet c x).pending = s.pending := rfl
@[simp] theorem State.cycSet_netPort (s : State) (c : Nat) (x : CycSet) : (s.cycSet c x).netPort = s.netPort := rfl
@[simp] theorem State.cycSet_stoPort (s : State) (c : Nat) (x : CycSet) : (s.cycSet c x).stoPort = s.stoPort := rfl
@[simp] theorem State.cycSet_mem (s : State) (c : Nat) (x : CycSet) : (s.cycSet c x).mem = s.mem := rfl
@[simp] theorem State.cycSet_memPoison (s : State) (c : Nat) (x : CycSet) : (s.cycSet c x).memPoison = s.memPoison := rfl
@[simp] theorem State.cycSet_memUpsets (s : State) (c : Nat) (x : CycSet) : (s.cycSet c x).memUpsets = s.memUpsets := rfl
@[simp] theorem State.cycSet_lpddrAcc (s : State) (c : Nat) (x : CycSet) : (s.cycSet c x).lpddrAcc = s.lpddrAcc := rfl
@[simp] theorem State.cycSet_mmioAcc (s : State) (c : Nat) (x : CycSet) : (s.cycSet c x).mmioAcc = s.mmioAcc := rfl
@[simp] theorem State.cycSet_greqs (s : State) (c : Nat) (x : CycSet) : (s.cycSet c x).greqs = s.greqs := rfl
@[simp] theorem State.cycSet_joins (s : State) (c : Nat) (x : CycSet) : (s.cycSet c x).joins = s.joins := rfl
@[simp] theorem State.cycSet_walks (s : State) (c : Nat) (x : CycSet) : (s.cycSet c x).walks = s.walks := rfl
@[simp] theorem State.cycSet_dsops (s : State) (c : Nat) (x : CycSet) : (s.cycSet c x).dsops = s.dsops := rfl
@[simp] theorem State.cycSet_barriers (s : State) (c : Nat) (x : CycSet) : (s.cycSet c x).barriers = s.barriers := rfl
@[simp] theorem State.cycSet_reservations (s : State) (c : Nat) (x : CycSet) : (s.cycSet c x).reservations = s.reservations := rfl
@[simp] theorem State.cycSet_resvs (s : State) (c : Nat) (x : CycSet) : (s.cycSet c x).resvs = s.resvs := rfl
@[simp] theorem State.cycSet_hartReqs (s : State) (c : Nat) (x : CycSet) : (s.cycSet c x).hartReqs = s.hartReqs := rfl
@[simp] theorem State.cycSet_deferred (s : State) (c : Nat) (x : CycSet) : (s.cycSet c x).deferred = s.deferred := rfl
@[simp] theorem State.cycSet_relays (s : State) (c : Nat) (x : CycSet) : (s.cycSet c x).relays = s.relays := rfl
@[simp] theorem State.cycSet_nextSid (s : State) (c : Nat) (x : CycSet) : (s.cycSet c x).nextSid = s.nextSid := rfl
@[simp] theorem State.cycSet_migrations (s : State) (c : Nat) (x : CycSet) : (s.cycSet c x).migrations = s.migrations := rfl
@[simp] theorem State.cycSet_flows (s : State) (c : Nat) (x : CycSet) : (s.cycSet c x).flows = s.flows := rfl
@[simp] theorem State.cycSet_parked (s : State) (c : Nat) (x : CycSet) : (s.cycSet c x).parked = s.parked := rfl
@[simp] theorem State.cycSet_outbox (s : State) (c : Nat) (x : CycSet) : (s.cycSet c x).outbox = s.outbox := rfl
@[simp] theorem State.cycSet_ring (s : State) (c : Nat) (x : CycSet) : (s.cycSet c x).ring = s.ring := rfl
@[simp] theorem State.cycSet_denials (s : State) (c : Nat) (x : CycSet) : (s.cycSet c x).denials = s.denials := rfl
@[simp] theorem State.cycSet_ktlbf (s : State) (c : Nat) (x : CycSet) : (s.cycSet c x).ktlbf = s.ktlbf := rfl
@[simp] theorem State.cycSet_invals (s : State) (c : Nat) (x : CycSet) : (s.cycSet c x).invals = s.invals := rfl

/-! ### drawn -/
@[simp] theorem State.drawn_now (s : State)  : (s.drawn ).now = s.now := rfl
@[simp] theorem State.drawn_curCore (s : State)  : (s.drawn ).curCore = s.curCore := rfl
@[simp] theorem State.drawn_curStrm (s : State)  : (s.drawn ).curStrm = s.curStrm := rfl
@[simp] theorem State.drawn_curHart (s : State)  : (s.drawn ).curHart = s.curHart := rfl
@[simp] theorem State.drawn_arg (s : State)  : (s.drawn ).arg = s.arg := rfl
@[simp] theorem State.drawn_turns (s : State)  : (s.drawn ).turns = s.turns := rfl
@[simp] theorem State.drawn_agenda (s : State)  : (s.drawn ).agenda = s.agenda := rfl
@[simp] theorem State.drawn_seq (s : State)  : (s.drawn ).seq = s.seq := rfl
@[simp] theorem State.drawn_free (s : State)  : (s.drawn ).free = s.free + 1 := rfl
@[simp] theorem State.drawn_wb (s : State)  : (s.drawn ).wb = s.wb := rfl
@[simp] theorem State.drawn_sets (s : State)  : (s.drawn ).sets = s.sets := rfl
@[simp] theorem State.drawn_window (s : State)  : (s.drawn ).window = s.window := rfl
@[simp] theorem State.drawn_winAt (s : State)  : (s.drawn ).winAt = s.winAt := rfl
@[simp] theorem State.drawn_beat (s : State)  : (s.drawn ).beat = s.beat := rfl
@[simp] theorem State.drawn_beatAt (s : State)  : (s.drawn ).beatAt = s.beatAt := rfl
@[simp] theorem State.drawn_beatHist (s : State)  : (s.drawn ).beatHist = s.beatHist := rfl
@[simp] theorem State.drawn_beatTab (s : State)  : (s.drawn ).beatTab = s.beatTab := rfl
@[simp] theorem State.drawn_beatNext (s : State)  : (s.drawn ).beatNext = s.beatNext := rfl
@[simp] theorem State.drawn_fuse (s : State)  : (s.drawn ).fuse = s.fuse := rfl
@[simp] theorem State.drawn_boot (s : State)  : (s.drawn ).boot = s.boot := rfl
@[simp] theorem State.drawn_power (s : State)  : (s.drawn ).power = s.power := rfl
@[simp] theorem State.drawn_pkg (s : State)  : (s.drawn ).pkg = s.pkg := rfl
@[simp] theorem State.drawn_routing (s : State)  : (s.drawn ).routing = s.routing := rfl
@[simp] theorem State.drawn_ports (s : State)  : (s.drawn ).ports = s.ports := rfl
@[simp] theorem State.drawn_lostPorts (s : State)  : (s.drawn ).lostPorts = s.lostPorts := rfl
@[simp] theorem State.drawn_withdrawn (s : State)  : (s.drawn ).withdrawn = s.withdrawn := rfl
@[simp] theorem State.drawn_cores (s : State)  : (s.drawn ).cores = s.cores := rfl
@[simp] theorem State.drawn_quads (s : State)  : (s.drawn ).quads = s.quads := rfl
@[simp] theorem State.drawn_dies (s : State)  : (s.drawn ).dies = s.dies := rfl
@[simp] theorem State.drawn_stopes (s : State)  : (s.drawn ).stopes = s.stopes := rfl
@[simp] theorem State.drawn_nextStope (s : State)  : (s.drawn ).nextStope = s.nextStope := rfl
@[simp] theorem State.drawn_launches (s : State)  : (s.drawn ).launches = s.launches := rfl
@[simp] theorem State.drawn_queues (s : State)  : (s.drawn ).queues = s.queues := rfl
@[simp] theorem State.drawn_qprio (s : State)  : (s.drawn ).qprio = s.qprio := rfl
@[simp] theorem State.drawn_lastServed (s : State)  : (s.drawn ).lastServed = s.lastServed := rfl
@[simp] theorem State.drawn_latched (s : State)  : (s.drawn ).latched = s.latched := rfl
@[simp] theorem State.drawn_reserving (s : State)  : (s.drawn ).reserving = s.reserving := rfl
@[simp] theorem State.drawn_genCount (s : State)  : (s.drawn ).genCount = s.genCount := rfl
@[simp] theorem State.drawn_runs (s : State)  : (s.drawn ).runs = s.runs := rfl
@[simp] theorem State.drawn_nextRun (s : State)  : (s.drawn ).nextRun = s.nextRun := rfl
@[simp] theorem State.drawn_procs (s : State)  : (s.drawn ).procs = s.procs := rfl
@[simp] theorem State.drawn_harts (s : State)  : (s.drawn ).harts = s.harts := rfl
@[simp] theorem State.drawn_pending (s : State)  : (s.drawn ).pending = s.pending := rfl
@[simp] theorem State.drawn_netPort (s : State)  : (s.drawn ).netPort = s.netPort := rfl
@[simp] theorem State.drawn_stoPort (s : State)  : (s.drawn ).stoPort = s.stoPort := rfl
@[simp] theorem State.drawn_mem (s : State)  : (s.drawn ).mem = s.mem := rfl
@[simp] theorem State.drawn_memPoison (s : State)  : (s.drawn ).memPoison = s.memPoison := rfl
@[simp] theorem State.drawn_memUpsets (s : State)  : (s.drawn ).memUpsets = s.memUpsets := rfl
@[simp] theorem State.drawn_lpddrAcc (s : State)  : (s.drawn ).lpddrAcc = s.lpddrAcc := rfl
@[simp] theorem State.drawn_mmioAcc (s : State)  : (s.drawn ).mmioAcc = s.mmioAcc := rfl
@[simp] theorem State.drawn_greqs (s : State)  : (s.drawn ).greqs = s.greqs := rfl
@[simp] theorem State.drawn_joins (s : State)  : (s.drawn ).joins = s.joins := rfl
@[simp] theorem State.drawn_walks (s : State)  : (s.drawn ).walks = s.walks := rfl
@[simp] theorem State.drawn_dsops (s : State)  : (s.drawn ).dsops = s.dsops := rfl
@[simp] theorem State.drawn_barriers (s : State)  : (s.drawn ).barriers = s.barriers := rfl
@[simp] theorem State.drawn_reservations (s : State)  : (s.drawn ).reservations = s.reservations := rfl
@[simp] theorem State.drawn_resvs (s : State)  : (s.drawn ).resvs = s.resvs := rfl
@[simp] theorem State.drawn_hartReqs (s : State)  : (s.drawn ).hartReqs = s.hartReqs := rfl
@[simp] theorem State.drawn_deferred (s : State)  : (s.drawn ).deferred = s.deferred := rfl
@[simp] theorem State.drawn_relays (s : State)  : (s.drawn ).relays = s.relays := rfl
@[simp] theorem State.drawn_nextSid (s : State)  : (s.drawn ).nextSid = s.nextSid := rfl
@[simp] theorem State.drawn_migrations (s : State)  : (s.drawn ).migrations = s.migrations := rfl
@[simp] theorem State.drawn_flows (s : State)  : (s.drawn ).flows = s.flows := rfl
@[simp] theorem State.drawn_parked (s : State)  : (s.drawn ).parked = s.parked := rfl
@[simp] theorem State.drawn_outbox (s : State)  : (s.drawn ).outbox = s.outbox := rfl
@[simp] theorem State.drawn_ring (s : State)  : (s.drawn ).ring = s.ring := rfl
@[simp] theorem State.drawn_denials (s : State)  : (s.drawn ).denials = s.denials := rfl
@[simp] theorem State.drawn_ktlbf (s : State)  : (s.drawn ).ktlbf = s.ktlbf := rfl
@[simp] theorem State.drawn_invals (s : State)  : (s.drawn ).invals = s.invals := rfl

/-! ### send -/
@[simp] theorem State.send_now (s : State) (p : Nat) (m : Msg) : (s.send p m).now = s.now := rfl
@[simp] theorem State.send_curCore (s : State) (p : Nat) (m : Msg) : (s.send p m).curCore = s.curCore := rfl
@[simp] theorem State.send_curStrm (s : State) (p : Nat) (m : Msg) : (s.send p m).curStrm = s.curStrm := rfl
@[simp] theorem State.send_curHart (s : State) (p : Nat) (m : Msg) : (s.send p m).curHart = s.curHart := rfl
@[simp] theorem State.send_arg (s : State) (p : Nat) (m : Msg) : (s.send p m).arg = s.arg := rfl
@[simp] theorem State.send_turns (s : State) (p : Nat) (m : Msg) : (s.send p m).turns = s.turns := rfl
@[simp] theorem State.send_agenda (s : State) (p : Nat) (m : Msg) : (s.send p m).agenda = s.agenda := rfl
@[simp] theorem State.send_seq (s : State) (p : Nat) (m : Msg) : (s.send p m).seq = s.seq := rfl
@[simp] theorem State.send_free (s : State) (p : Nat) (m : Msg) : (s.send p m).free = s.free := rfl
@[simp] theorem State.send_wb (s : State) (p : Nat) (m : Msg) : (s.send p m).wb = s.wb := rfl
@[simp] theorem State.send_sets (s : State) (p : Nat) (m : Msg) : (s.send p m).sets = s.sets := rfl
@[simp] theorem State.send_window (s : State) (p : Nat) (m : Msg) : (s.send p m).window = s.window := rfl
@[simp] theorem State.send_winAt (s : State) (p : Nat) (m : Msg) : (s.send p m).winAt = s.winAt := rfl
@[simp] theorem State.send_beat (s : State) (p : Nat) (m : Msg) : (s.send p m).beat = s.beat := rfl
@[simp] theorem State.send_beatAt (s : State) (p : Nat) (m : Msg) : (s.send p m).beatAt = s.beatAt := rfl
@[simp] theorem State.send_beatHist (s : State) (p : Nat) (m : Msg) : (s.send p m).beatHist = s.beatHist := rfl
@[simp] theorem State.send_beatTab (s : State) (p : Nat) (m : Msg) : (s.send p m).beatTab = s.beatTab := rfl
@[simp] theorem State.send_beatNext (s : State) (p : Nat) (m : Msg) : (s.send p m).beatNext = s.beatNext := rfl
@[simp] theorem State.send_fuse (s : State) (p : Nat) (m : Msg) : (s.send p m).fuse = s.fuse := rfl
@[simp] theorem State.send_boot (s : State) (p : Nat) (m : Msg) : (s.send p m).boot = s.boot := rfl
@[simp] theorem State.send_power (s : State) (p : Nat) (m : Msg) : (s.send p m).power = s.power := rfl
@[simp] theorem State.send_pkg (s : State) (p : Nat) (m : Msg) : (s.send p m).pkg = s.pkg := rfl
@[simp] theorem State.send_routing (s : State) (p : Nat) (m : Msg) : (s.send p m).routing = s.routing := rfl
@[simp] theorem State.send_ports (s : State) (p : Nat) (m : Msg) : (s.send p m).ports = s.ports := rfl
@[simp] theorem State.send_lostPorts (s : State) (p : Nat) (m : Msg) : (s.send p m).lostPorts = s.lostPorts := rfl
@[simp] theorem State.send_withdrawn (s : State) (p : Nat) (m : Msg) : (s.send p m).withdrawn = s.withdrawn := rfl
@[simp] theorem State.send_cores (s : State) (p : Nat) (m : Msg) : (s.send p m).cores = s.cores := rfl
@[simp] theorem State.send_quads (s : State) (p : Nat) (m : Msg) : (s.send p m).quads = s.quads := rfl
@[simp] theorem State.send_dies (s : State) (p : Nat) (m : Msg) : (s.send p m).dies = s.dies := rfl
@[simp] theorem State.send_stopes (s : State) (p : Nat) (m : Msg) : (s.send p m).stopes = s.stopes := rfl
@[simp] theorem State.send_nextStope (s : State) (p : Nat) (m : Msg) : (s.send p m).nextStope = s.nextStope := rfl
@[simp] theorem State.send_launches (s : State) (p : Nat) (m : Msg) : (s.send p m).launches = s.launches := rfl
@[simp] theorem State.send_queues (s : State) (p : Nat) (m : Msg) : (s.send p m).queues = s.queues := rfl
@[simp] theorem State.send_qprio (s : State) (p : Nat) (m : Msg) : (s.send p m).qprio = s.qprio := rfl
@[simp] theorem State.send_lastServed (s : State) (p : Nat) (m : Msg) : (s.send p m).lastServed = s.lastServed := rfl
@[simp] theorem State.send_latched (s : State) (p : Nat) (m : Msg) : (s.send p m).latched = s.latched := rfl
@[simp] theorem State.send_reserving (s : State) (p : Nat) (m : Msg) : (s.send p m).reserving = s.reserving := rfl
@[simp] theorem State.send_genCount (s : State) (p : Nat) (m : Msg) : (s.send p m).genCount = s.genCount := rfl
@[simp] theorem State.send_runs (s : State) (p : Nat) (m : Msg) : (s.send p m).runs = s.runs := rfl
@[simp] theorem State.send_nextRun (s : State) (p : Nat) (m : Msg) : (s.send p m).nextRun = s.nextRun := rfl
@[simp] theorem State.send_procs (s : State) (p : Nat) (m : Msg) : (s.send p m).procs = s.procs := rfl
@[simp] theorem State.send_harts (s : State) (p : Nat) (m : Msg) : (s.send p m).harts = s.harts := rfl
@[simp] theorem State.send_pending (s : State) (p : Nat) (m : Msg) : (s.send p m).pending = s.pending := rfl
@[simp] theorem State.send_netPort (s : State) (p : Nat) (m : Msg) : (s.send p m).netPort = s.netPort := rfl
@[simp] theorem State.send_stoPort (s : State) (p : Nat) (m : Msg) : (s.send p m).stoPort = s.stoPort := rfl
@[simp] theorem State.send_mem (s : State) (p : Nat) (m : Msg) : (s.send p m).mem = s.mem := rfl
@[simp] theorem State.send_memPoison (s : State) (p : Nat) (m : Msg) : (s.send p m).memPoison = s.memPoison := rfl
@[simp] theorem State.send_memUpsets (s : State) (p : Nat) (m : Msg) : (s.send p m).memUpsets = s.memUpsets := rfl
@[simp] theorem State.send_lpddrAcc (s : State) (p : Nat) (m : Msg) : (s.send p m).lpddrAcc = s.lpddrAcc := rfl
@[simp] theorem State.send_mmioAcc (s : State) (p : Nat) (m : Msg) : (s.send p m).mmioAcc = s.mmioAcc := rfl
@[simp] theorem State.send_greqs (s : State) (p : Nat) (m : Msg) : (s.send p m).greqs = s.greqs := rfl
@[simp] theorem State.send_joins (s : State) (p : Nat) (m : Msg) : (s.send p m).joins = s.joins := rfl
@[simp] theorem State.send_walks (s : State) (p : Nat) (m : Msg) : (s.send p m).walks = s.walks := rfl
@[simp] theorem State.send_dsops (s : State) (p : Nat) (m : Msg) : (s.send p m).dsops = s.dsops := rfl
@[simp] theorem State.send_barriers (s : State) (p : Nat) (m : Msg) : (s.send p m).barriers = s.barriers := rfl
@[simp] theorem State.send_reservations (s : State) (p : Nat) (m : Msg) : (s.send p m).reservations = s.reservations := rfl
@[simp] theorem State.send_resvs (s : State) (p : Nat) (m : Msg) : (s.send p m).resvs = s.resvs := rfl
@[simp] theorem State.send_hartReqs (s : State) (p : Nat) (m : Msg) : (s.send p m).hartReqs = s.hartReqs := rfl
@[simp] theorem State.send_deferred (s : State) (p : Nat) (m : Msg) : (s.send p m).deferred = s.deferred := rfl
@[simp] theorem State.send_relays (s : State) (p : Nat) (m : Msg) : (s.send p m).relays = s.relays := rfl
@[simp] theorem State.send_nextSid (s : State) (p : Nat) (m : Msg) : (s.send p m).nextSid = s.nextSid := rfl
@[simp] theorem State.send_migrations (s : State) (p : Nat) (m : Msg) : (s.send p m).migrations = s.migrations := rfl
@[simp] theorem State.send_flows (s : State) (p : Nat) (m : Msg) : (s.send p m).flows = s.flows := rfl
@[simp] theorem State.send_parked (s : State) (p : Nat) (m : Msg) : (s.send p m).parked = s.parked := rfl
@[simp] theorem State.send_outbox (s : State) (p : Nat) (m : Msg) : (s.send p m).outbox = s.outbox ++ [{ dst := p, port := s.portTo p, msg := m }] := rfl
@[simp] theorem State.send_ring (s : State) (p : Nat) (m : Msg) : (s.send p m).ring = s.ring := rfl
@[simp] theorem State.send_denials (s : State) (p : Nat) (m : Msg) : (s.send p m).denials = s.denials := rfl
@[simp] theorem State.send_ktlbf (s : State) (p : Nat) (m : Msg) : (s.send p m).ktlbf = s.ktlbf := rfl
@[simp] theorem State.send_invals (s : State) (p : Nat) (m : Msg) : (s.send p m).invals = s.invals := rfl

/-! ### postAt -/
@[simp] theorem State.postAt_now (s : State) (a p : Nat) (h : Option Nat) (x : Act) : (s.postAt a p h x).now = s.now := rfl
@[simp] theorem State.postAt_curCore (s : State) (a p : Nat) (h : Option Nat) (x : Act) : (s.postAt a p h x).curCore = s.curCore := rfl
@[simp] theorem State.postAt_curStrm (s : State) (a p : Nat) (h : Option Nat) (x : Act) : (s.postAt a p h x).curStrm = s.curStrm := rfl
@[simp] theorem State.postAt_curHart (s : State) (a p : Nat) (h : Option Nat) (x : Act) : (s.postAt a p h x).curHart = s.curHart := rfl
@[simp] theorem State.postAt_arg (s : State) (a p : Nat) (h : Option Nat) (x : Act) : (s.postAt a p h x).arg = s.arg := rfl
@[simp] theorem State.postAt_turns (s : State) (a p : Nat) (h : Option Nat) (x : Act) : (s.postAt a p h x).turns = s.turns := rfl
@[simp] theorem State.postAt_agenda (s : State) (a p : Nat) (h : Option Nat) (x : Act) : (s.postAt a p h x).agenda = insertEvent { at_ := a, phase := p, seq := s.seq, hold := h, act := x } s.agenda := rfl
@[simp] theorem State.postAt_seq (s : State) (a p : Nat) (h : Option Nat) (x : Act) : (s.postAt a p h x).seq = s.seq + 1 := rfl
@[simp] theorem State.postAt_free (s : State) (a p : Nat) (h : Option Nat) (x : Act) : (s.postAt a p h x).free = s.free := rfl
@[simp] theorem State.postAt_wb (s : State) (a p : Nat) (h : Option Nat) (x : Act) : (s.postAt a p h x).wb = s.wb := rfl
@[simp] theorem State.postAt_sets (s : State) (a p : Nat) (h : Option Nat) (x : Act) : (s.postAt a p h x).sets = s.sets := rfl
@[simp] theorem State.postAt_window (s : State) (a p : Nat) (h : Option Nat) (x : Act) : (s.postAt a p h x).window = s.window := rfl
@[simp] theorem State.postAt_winAt (s : State) (a p : Nat) (h : Option Nat) (x : Act) : (s.postAt a p h x).winAt = s.winAt := rfl
@[simp] theorem State.postAt_beat (s : State) (a p : Nat) (h : Option Nat) (x : Act) : (s.postAt a p h x).beat = s.beat := rfl
@[simp] theorem State.postAt_beatAt (s : State) (a p : Nat) (h : Option Nat) (x : Act) : (s.postAt a p h x).beatAt = s.beatAt := rfl
@[simp] theorem State.postAt_beatHist (s : State) (a p : Nat) (h : Option Nat) (x : Act) : (s.postAt a p h x).beatHist = s.beatHist := rfl
@[simp] theorem State.postAt_beatTab (s : State) (a p : Nat) (h : Option Nat) (x : Act) : (s.postAt a p h x).beatTab = s.beatTab := rfl
@[simp] theorem State.postAt_beatNext (s : State) (a p : Nat) (h : Option Nat) (x : Act) : (s.postAt a p h x).beatNext = s.beatNext := rfl
@[simp] theorem State.postAt_fuse (s : State) (a p : Nat) (h : Option Nat) (x : Act) : (s.postAt a p h x).fuse = s.fuse := rfl
@[simp] theorem State.postAt_boot (s : State) (a p : Nat) (h : Option Nat) (x : Act) : (s.postAt a p h x).boot = s.boot := rfl
@[simp] theorem State.postAt_power (s : State) (a p : Nat) (h : Option Nat) (x : Act) : (s.postAt a p h x).power = s.power := rfl
@[simp] theorem State.postAt_pkg (s : State) (a p : Nat) (h : Option Nat) (x : Act) : (s.postAt a p h x).pkg = s.pkg := rfl
@[simp] theorem State.postAt_routing (s : State) (a p : Nat) (h : Option Nat) (x : Act) : (s.postAt a p h x).routing = s.routing := rfl
@[simp] theorem State.postAt_ports (s : State) (a p : Nat) (h : Option Nat) (x : Act) : (s.postAt a p h x).ports = s.ports := rfl
@[simp] theorem State.postAt_lostPorts (s : State) (a p : Nat) (h : Option Nat) (x : Act) : (s.postAt a p h x).lostPorts = s.lostPorts := rfl
@[simp] theorem State.postAt_withdrawn (s : State) (a p : Nat) (h : Option Nat) (x : Act) : (s.postAt a p h x).withdrawn = s.withdrawn := rfl
@[simp] theorem State.postAt_cores (s : State) (a p : Nat) (h : Option Nat) (x : Act) : (s.postAt a p h x).cores = s.cores := rfl
@[simp] theorem State.postAt_quads (s : State) (a p : Nat) (h : Option Nat) (x : Act) : (s.postAt a p h x).quads = s.quads := rfl
@[simp] theorem State.postAt_dies (s : State) (a p : Nat) (h : Option Nat) (x : Act) : (s.postAt a p h x).dies = s.dies := rfl
@[simp] theorem State.postAt_stopes (s : State) (a p : Nat) (h : Option Nat) (x : Act) : (s.postAt a p h x).stopes = s.stopes := rfl
@[simp] theorem State.postAt_nextStope (s : State) (a p : Nat) (h : Option Nat) (x : Act) : (s.postAt a p h x).nextStope = s.nextStope := rfl
@[simp] theorem State.postAt_launches (s : State) (a p : Nat) (h : Option Nat) (x : Act) : (s.postAt a p h x).launches = s.launches := rfl
@[simp] theorem State.postAt_queues (s : State) (a p : Nat) (h : Option Nat) (x : Act) : (s.postAt a p h x).queues = s.queues := rfl
@[simp] theorem State.postAt_qprio (s : State) (a p : Nat) (h : Option Nat) (x : Act) : (s.postAt a p h x).qprio = s.qprio := rfl
@[simp] theorem State.postAt_lastServed (s : State) (a p : Nat) (h : Option Nat) (x : Act) : (s.postAt a p h x).lastServed = s.lastServed := rfl
@[simp] theorem State.postAt_latched (s : State) (a p : Nat) (h : Option Nat) (x : Act) : (s.postAt a p h x).latched = s.latched := rfl
@[simp] theorem State.postAt_reserving (s : State) (a p : Nat) (h : Option Nat) (x : Act) : (s.postAt a p h x).reserving = s.reserving := rfl
@[simp] theorem State.postAt_genCount (s : State) (a p : Nat) (h : Option Nat) (x : Act) : (s.postAt a p h x).genCount = s.genCount := rfl
@[simp] theorem State.postAt_runs (s : State) (a p : Nat) (h : Option Nat) (x : Act) : (s.postAt a p h x).runs = s.runs := rfl
@[simp] theorem State.postAt_nextRun (s : State) (a p : Nat) (h : Option Nat) (x : Act) : (s.postAt a p h x).nextRun = s.nextRun := rfl
@[simp] theorem State.postAt_procs (s : State) (a p : Nat) (h : Option Nat) (x : Act) : (s.postAt a p h x).procs = s.procs := rfl
@[simp] theorem State.postAt_harts (s : State) (a p : Nat) (h : Option Nat) (x : Act) : (s.postAt a p h x).harts = s.harts := rfl
@[simp] theorem State.postAt_pending (s : State) (a p : Nat) (h : Option Nat) (x : Act) : (s.postAt a p h x).pending = s.pending := rfl
@[simp] theorem State.postAt_netPort (s : State) (a p : Nat) (h : Option Nat) (x : Act) : (s.postAt a p h x).netPort = s.netPort := rfl
@[simp] theorem State.postAt_stoPort (s : State) (a p : Nat) (h : Option Nat) (x : Act) : (s.postAt a p h x).stoPort = s.stoPort := rfl
@[simp] theorem State.postAt_mem (s : State) (a p : Nat) (h : Option Nat) (x : Act) : (s.postAt a p h x).mem = s.mem := rfl
@[simp] theorem State.postAt_memPoison (s : State) (a p : Nat) (h : Option Nat) (x : Act) : (s.postAt a p h x).memPoison = s.memPoison := rfl
@[simp] theorem State.postAt_memUpsets (s : State) (a p : Nat) (h : Option Nat) (x : Act) : (s.postAt a p h x).memUpsets = s.memUpsets := rfl
@[simp] theorem State.postAt_lpddrAcc (s : State) (a p : Nat) (h : Option Nat) (x : Act) : (s.postAt a p h x).lpddrAcc = s.lpddrAcc := rfl
@[simp] theorem State.postAt_mmioAcc (s : State) (a p : Nat) (h : Option Nat) (x : Act) : (s.postAt a p h x).mmioAcc = s.mmioAcc := rfl
@[simp] theorem State.postAt_greqs (s : State) (a p : Nat) (h : Option Nat) (x : Act) : (s.postAt a p h x).greqs = s.greqs := rfl
@[simp] theorem State.postAt_joins (s : State) (a p : Nat) (h : Option Nat) (x : Act) : (s.postAt a p h x).joins = s.joins := rfl
@[simp] theorem State.postAt_walks (s : State) (a p : Nat) (h : Option Nat) (x : Act) : (s.postAt a p h x).walks = s.walks := rfl
@[simp] theorem State.postAt_dsops (s : State) (a p : Nat) (h : Option Nat) (x : Act) : (s.postAt a p h x).dsops = s.dsops := rfl
@[simp] theorem State.postAt_barriers (s : State) (a p : Nat) (h : Option Nat) (x : Act) : (s.postAt a p h x).barriers = s.barriers := rfl
@[simp] theorem State.postAt_reservations (s : State) (a p : Nat) (h : Option Nat) (x : Act) : (s.postAt a p h x).reservations = s.reservations := rfl
@[simp] theorem State.postAt_resvs (s : State) (a p : Nat) (h : Option Nat) (x : Act) : (s.postAt a p h x).resvs = s.resvs := rfl
@[simp] theorem State.postAt_hartReqs (s : State) (a p : Nat) (h : Option Nat) (x : Act) : (s.postAt a p h x).hartReqs = s.hartReqs := rfl
@[simp] theorem State.postAt_deferred (s : State) (a p : Nat) (h : Option Nat) (x : Act) : (s.postAt a p h x).deferred = s.deferred := rfl
@[simp] theorem State.postAt_relays (s : State) (a p : Nat) (h : Option Nat) (x : Act) : (s.postAt a p h x).relays = s.relays := rfl
@[simp] theorem State.postAt_nextSid (s : State) (a p : Nat) (h : Option Nat) (x : Act) : (s.postAt a p h x).nextSid = s.nextSid := rfl
@[simp] theorem State.postAt_migrations (s : State) (a p : Nat) (h : Option Nat) (x : Act) : (s.postAt a p h x).migrations = s.migrations := rfl
@[simp] theorem State.postAt_flows (s : State) (a p : Nat) (h : Option Nat) (x : Act) : (s.postAt a p h x).flows = s.flows := rfl
@[simp] theorem State.postAt_parked (s : State) (a p : Nat) (h : Option Nat) (x : Act) : (s.postAt a p h x).parked = s.parked := rfl
@[simp] theorem State.postAt_outbox (s : State) (a p : Nat) (h : Option Nat) (x : Act) : (s.postAt a p h x).outbox = s.outbox := rfl
@[simp] theorem State.postAt_ring (s : State) (a p : Nat) (h : Option Nat) (x : Act) : (s.postAt a p h x).ring = s.ring := rfl
@[simp] theorem State.postAt_denials (s : State) (a p : Nat) (h : Option Nat) (x : Act) : (s.postAt a p h x).denials = s.denials := rfl
@[simp] theorem State.postAt_ktlbf (s : State) (a p : Nat) (h : Option Nat) (x : Act) : (s.postAt a p h x).ktlbf = s.ktlbf := rfl
@[simp] theorem State.postAt_invals (s : State) (a p : Nat) (h : Option Nat) (x : Act) : (s.postAt a p h x).invals = s.invals := rfl

/-! ### post -/
@[simp] theorem State.post_now (s : State) (a p : Nat) (h : Option Nat) (x : Act) : (s.post a p h x).now = s.now := rfl
@[simp] theorem State.post_curCore (s : State) (a p : Nat) (h : Option Nat) (x : Act) : (s.post a p h x).curCore = s.curCore := rfl
@[simp] theorem State.post_curStrm (s : State) (a p : Nat) (h : Option Nat) (x : Act) : (s.post a p h x).curStrm = s.curStrm := rfl
@[simp] theorem State.post_curHart (s : State) (a p : Nat) (h : Option Nat) (x : Act) : (s.post a p h x).curHart = s.curHart := rfl
@[simp] theorem State.post_arg (s : State) (a p : Nat) (h : Option Nat) (x : Act) : (s.post a p h x).arg = s.arg := rfl
@[simp] theorem State.post_turns (s : State) (a p : Nat) (h : Option Nat) (x : Act) : (s.post a p h x).turns = s.turns := rfl
@[simp] theorem State.post_agenda (s : State) (a p : Nat) (h : Option Nat) (x : Act) : (s.post a p h x).agenda = insertEvent { at_ := s.dueAt a h, phase := p, seq := s.seq, hold := h, act := x } s.agenda := rfl
@[simp] theorem State.post_seq (s : State) (a p : Nat) (h : Option Nat) (x : Act) : (s.post a p h x).seq = s.seq + 1 := rfl
@[simp] theorem State.post_free (s : State) (a p : Nat) (h : Option Nat) (x : Act) : (s.post a p h x).free = s.free := rfl
@[simp] theorem State.post_wb (s : State) (a p : Nat) (h : Option Nat) (x : Act) : (s.post a p h x).wb = s.wb := rfl
@[simp] theorem State.post_sets (s : State) (a p : Nat) (h : Option Nat) (x : Act) : (s.post a p h x).sets = s.sets := rfl
@[simp] theorem State.post_window (s : State) (a p : Nat) (h : Option Nat) (x : Act) : (s.post a p h x).window = s.window := rfl
@[simp] theorem State.post_winAt (s : State) (a p : Nat) (h : Option Nat) (x : Act) : (s.post a p h x).winAt = s.winAt := rfl
@[simp] theorem State.post_beat (s : State) (a p : Nat) (h : Option Nat) (x : Act) : (s.post a p h x).beat = s.beat := rfl
@[simp] theorem State.post_beatAt (s : State) (a p : Nat) (h : Option Nat) (x : Act) : (s.post a p h x).beatAt = s.beatAt := rfl
@[simp] theorem State.post_beatHist (s : State) (a p : Nat) (h : Option Nat) (x : Act) : (s.post a p h x).beatHist = s.beatHist := rfl
@[simp] theorem State.post_beatTab (s : State) (a p : Nat) (h : Option Nat) (x : Act) : (s.post a p h x).beatTab = s.beatTab := rfl
@[simp] theorem State.post_beatNext (s : State) (a p : Nat) (h : Option Nat) (x : Act) : (s.post a p h x).beatNext = s.beatNext := rfl
@[simp] theorem State.post_fuse (s : State) (a p : Nat) (h : Option Nat) (x : Act) : (s.post a p h x).fuse = s.fuse := rfl
@[simp] theorem State.post_boot (s : State) (a p : Nat) (h : Option Nat) (x : Act) : (s.post a p h x).boot = s.boot := rfl
@[simp] theorem State.post_power (s : State) (a p : Nat) (h : Option Nat) (x : Act) : (s.post a p h x).power = s.power := rfl
@[simp] theorem State.post_pkg (s : State) (a p : Nat) (h : Option Nat) (x : Act) : (s.post a p h x).pkg = s.pkg := rfl
@[simp] theorem State.post_routing (s : State) (a p : Nat) (h : Option Nat) (x : Act) : (s.post a p h x).routing = s.routing := rfl
@[simp] theorem State.post_ports (s : State) (a p : Nat) (h : Option Nat) (x : Act) : (s.post a p h x).ports = s.ports := rfl
@[simp] theorem State.post_lostPorts (s : State) (a p : Nat) (h : Option Nat) (x : Act) : (s.post a p h x).lostPorts = s.lostPorts := rfl
@[simp] theorem State.post_withdrawn (s : State) (a p : Nat) (h : Option Nat) (x : Act) : (s.post a p h x).withdrawn = s.withdrawn := rfl
@[simp] theorem State.post_cores (s : State) (a p : Nat) (h : Option Nat) (x : Act) : (s.post a p h x).cores = s.cores := rfl
@[simp] theorem State.post_quads (s : State) (a p : Nat) (h : Option Nat) (x : Act) : (s.post a p h x).quads = s.quads := rfl
@[simp] theorem State.post_dies (s : State) (a p : Nat) (h : Option Nat) (x : Act) : (s.post a p h x).dies = s.dies := rfl
@[simp] theorem State.post_stopes (s : State) (a p : Nat) (h : Option Nat) (x : Act) : (s.post a p h x).stopes = s.stopes := rfl
@[simp] theorem State.post_nextStope (s : State) (a p : Nat) (h : Option Nat) (x : Act) : (s.post a p h x).nextStope = s.nextStope := rfl
@[simp] theorem State.post_launches (s : State) (a p : Nat) (h : Option Nat) (x : Act) : (s.post a p h x).launches = s.launches := rfl
@[simp] theorem State.post_queues (s : State) (a p : Nat) (h : Option Nat) (x : Act) : (s.post a p h x).queues = s.queues := rfl
@[simp] theorem State.post_qprio (s : State) (a p : Nat) (h : Option Nat) (x : Act) : (s.post a p h x).qprio = s.qprio := rfl
@[simp] theorem State.post_lastServed (s : State) (a p : Nat) (h : Option Nat) (x : Act) : (s.post a p h x).lastServed = s.lastServed := rfl
@[simp] theorem State.post_latched (s : State) (a p : Nat) (h : Option Nat) (x : Act) : (s.post a p h x).latched = s.latched := rfl
@[simp] theorem State.post_reserving (s : State) (a p : Nat) (h : Option Nat) (x : Act) : (s.post a p h x).reserving = s.reserving := rfl
@[simp] theorem State.post_genCount (s : State) (a p : Nat) (h : Option Nat) (x : Act) : (s.post a p h x).genCount = s.genCount := rfl
@[simp] theorem State.post_runs (s : State) (a p : Nat) (h : Option Nat) (x : Act) : (s.post a p h x).runs = s.runs := rfl
@[simp] theorem State.post_nextRun (s : State) (a p : Nat) (h : Option Nat) (x : Act) : (s.post a p h x).nextRun = s.nextRun := rfl
@[simp] theorem State.post_procs (s : State) (a p : Nat) (h : Option Nat) (x : Act) : (s.post a p h x).procs = s.procs := rfl
@[simp] theorem State.post_harts (s : State) (a p : Nat) (h : Option Nat) (x : Act) : (s.post a p h x).harts = s.harts := rfl
@[simp] theorem State.post_pending (s : State) (a p : Nat) (h : Option Nat) (x : Act) : (s.post a p h x).pending = s.pending := rfl
@[simp] theorem State.post_netPort (s : State) (a p : Nat) (h : Option Nat) (x : Act) : (s.post a p h x).netPort = s.netPort := rfl
@[simp] theorem State.post_stoPort (s : State) (a p : Nat) (h : Option Nat) (x : Act) : (s.post a p h x).stoPort = s.stoPort := rfl
@[simp] theorem State.post_mem (s : State) (a p : Nat) (h : Option Nat) (x : Act) : (s.post a p h x).mem = s.mem := rfl
@[simp] theorem State.post_memPoison (s : State) (a p : Nat) (h : Option Nat) (x : Act) : (s.post a p h x).memPoison = s.memPoison := rfl
@[simp] theorem State.post_memUpsets (s : State) (a p : Nat) (h : Option Nat) (x : Act) : (s.post a p h x).memUpsets = s.memUpsets := rfl
@[simp] theorem State.post_lpddrAcc (s : State) (a p : Nat) (h : Option Nat) (x : Act) : (s.post a p h x).lpddrAcc = s.lpddrAcc := rfl
@[simp] theorem State.post_mmioAcc (s : State) (a p : Nat) (h : Option Nat) (x : Act) : (s.post a p h x).mmioAcc = s.mmioAcc := rfl
@[simp] theorem State.post_greqs (s : State) (a p : Nat) (h : Option Nat) (x : Act) : (s.post a p h x).greqs = s.greqs := rfl
@[simp] theorem State.post_joins (s : State) (a p : Nat) (h : Option Nat) (x : Act) : (s.post a p h x).joins = s.joins := rfl
@[simp] theorem State.post_walks (s : State) (a p : Nat) (h : Option Nat) (x : Act) : (s.post a p h x).walks = s.walks := rfl
@[simp] theorem State.post_dsops (s : State) (a p : Nat) (h : Option Nat) (x : Act) : (s.post a p h x).dsops = s.dsops := rfl
@[simp] theorem State.post_barriers (s : State) (a p : Nat) (h : Option Nat) (x : Act) : (s.post a p h x).barriers = s.barriers := rfl
@[simp] theorem State.post_reservations (s : State) (a p : Nat) (h : Option Nat) (x : Act) : (s.post a p h x).reservations = s.reservations := rfl
@[simp] theorem State.post_resvs (s : State) (a p : Nat) (h : Option Nat) (x : Act) : (s.post a p h x).resvs = s.resvs := rfl
@[simp] theorem State.post_hartReqs (s : State) (a p : Nat) (h : Option Nat) (x : Act) : (s.post a p h x).hartReqs = s.hartReqs := rfl
@[simp] theorem State.post_deferred (s : State) (a p : Nat) (h : Option Nat) (x : Act) : (s.post a p h x).deferred = s.deferred := rfl
@[simp] theorem State.post_relays (s : State) (a p : Nat) (h : Option Nat) (x : Act) : (s.post a p h x).relays = s.relays := rfl
@[simp] theorem State.post_nextSid (s : State) (a p : Nat) (h : Option Nat) (x : Act) : (s.post a p h x).nextSid = s.nextSid := rfl
@[simp] theorem State.post_migrations (s : State) (a p : Nat) (h : Option Nat) (x : Act) : (s.post a p h x).migrations = s.migrations := rfl
@[simp] theorem State.post_flows (s : State) (a p : Nat) (h : Option Nat) (x : Act) : (s.post a p h x).flows = s.flows := rfl
@[simp] theorem State.post_parked (s : State) (a p : Nat) (h : Option Nat) (x : Act) : (s.post a p h x).parked = s.parked := rfl
@[simp] theorem State.post_outbox (s : State) (a p : Nat) (h : Option Nat) (x : Act) : (s.post a p h x).outbox = s.outbox := rfl
@[simp] theorem State.post_ring (s : State) (a p : Nat) (h : Option Nat) (x : Act) : (s.post a p h x).ring = s.ring := rfl
@[simp] theorem State.post_denials (s : State) (a p : Nat) (h : Option Nat) (x : Act) : (s.post a p h x).denials = s.denials := rfl
@[simp] theorem State.post_ktlbf (s : State) (a p : Nat) (h : Option Nat) (x : Act) : (s.post a p h x).ktlbf = s.ktlbf := rfl
@[simp] theorem State.post_invals (s : State) (a p : Nat) (h : Option Nat) (x : Act) : (s.post a p h x).invals = s.invals := rfl

/-! ### cancel -/
@[simp] theorem State.cancel_now (s : State) (p : Event → Bool) : (s.cancel p).now = s.now := rfl
@[simp] theorem State.cancel_curCore (s : State) (p : Event → Bool) : (s.cancel p).curCore = s.curCore := rfl
@[simp] theorem State.cancel_curStrm (s : State) (p : Event → Bool) : (s.cancel p).curStrm = s.curStrm := rfl
@[simp] theorem State.cancel_curHart (s : State) (p : Event → Bool) : (s.cancel p).curHart = s.curHart := rfl
@[simp] theorem State.cancel_arg (s : State) (p : Event → Bool) : (s.cancel p).arg = s.arg := rfl
@[simp] theorem State.cancel_turns (s : State) (p : Event → Bool) : (s.cancel p).turns = s.turns := rfl
@[simp] theorem State.cancel_agenda (s : State) (p : Event → Bool) : (s.cancel p).agenda = s.agenda.filter (fun e => !p e) := rfl
@[simp] theorem State.cancel_seq (s : State) (p : Event → Bool) : (s.cancel p).seq = s.seq := rfl
@[simp] theorem State.cancel_free (s : State) (p : Event → Bool) : (s.cancel p).free = s.free := rfl
@[simp] theorem State.cancel_wb (s : State) (p : Event → Bool) : (s.cancel p).wb = s.wb := rfl
@[simp] theorem State.cancel_sets (s : State) (p : Event → Bool) : (s.cancel p).sets = s.sets := rfl
@[simp] theorem State.cancel_window (s : State) (p : Event → Bool) : (s.cancel p).window = s.window := rfl
@[simp] theorem State.cancel_winAt (s : State) (p : Event → Bool) : (s.cancel p).winAt = s.winAt := rfl
@[simp] theorem State.cancel_beat (s : State) (p : Event → Bool) : (s.cancel p).beat = s.beat := rfl
@[simp] theorem State.cancel_beatAt (s : State) (p : Event → Bool) : (s.cancel p).beatAt = s.beatAt := rfl
@[simp] theorem State.cancel_beatHist (s : State) (p : Event → Bool) : (s.cancel p).beatHist = s.beatHist := rfl
@[simp] theorem State.cancel_beatTab (s : State) (p : Event → Bool) : (s.cancel p).beatTab = s.beatTab := rfl
@[simp] theorem State.cancel_beatNext (s : State) (p : Event → Bool) : (s.cancel p).beatNext = s.beatNext := rfl
@[simp] theorem State.cancel_fuse (s : State) (p : Event → Bool) : (s.cancel p).fuse = s.fuse := rfl
@[simp] theorem State.cancel_boot (s : State) (p : Event → Bool) : (s.cancel p).boot = s.boot := rfl
@[simp] theorem State.cancel_power (s : State) (p : Event → Bool) : (s.cancel p).power = s.power := rfl
@[simp] theorem State.cancel_pkg (s : State) (p : Event → Bool) : (s.cancel p).pkg = s.pkg := rfl
@[simp] theorem State.cancel_routing (s : State) (p : Event → Bool) : (s.cancel p).routing = s.routing := rfl
@[simp] theorem State.cancel_ports (s : State) (p : Event → Bool) : (s.cancel p).ports = s.ports := rfl
@[simp] theorem State.cancel_lostPorts (s : State) (p : Event → Bool) : (s.cancel p).lostPorts = s.lostPorts := rfl
@[simp] theorem State.cancel_withdrawn (s : State) (p : Event → Bool) : (s.cancel p).withdrawn = s.withdrawn := rfl
@[simp] theorem State.cancel_cores (s : State) (p : Event → Bool) : (s.cancel p).cores = s.cores := rfl
@[simp] theorem State.cancel_quads (s : State) (p : Event → Bool) : (s.cancel p).quads = s.quads := rfl
@[simp] theorem State.cancel_dies (s : State) (p : Event → Bool) : (s.cancel p).dies = s.dies := rfl
@[simp] theorem State.cancel_stopes (s : State) (p : Event → Bool) : (s.cancel p).stopes = s.stopes := rfl
@[simp] theorem State.cancel_nextStope (s : State) (p : Event → Bool) : (s.cancel p).nextStope = s.nextStope := rfl
@[simp] theorem State.cancel_launches (s : State) (p : Event → Bool) : (s.cancel p).launches = s.launches := rfl
@[simp] theorem State.cancel_queues (s : State) (p : Event → Bool) : (s.cancel p).queues = s.queues := rfl
@[simp] theorem State.cancel_qprio (s : State) (p : Event → Bool) : (s.cancel p).qprio = s.qprio := rfl
@[simp] theorem State.cancel_lastServed (s : State) (p : Event → Bool) : (s.cancel p).lastServed = s.lastServed := rfl
@[simp] theorem State.cancel_latched (s : State) (p : Event → Bool) : (s.cancel p).latched = s.latched := rfl
@[simp] theorem State.cancel_reserving (s : State) (p : Event → Bool) : (s.cancel p).reserving = s.reserving := rfl
@[simp] theorem State.cancel_genCount (s : State) (p : Event → Bool) : (s.cancel p).genCount = s.genCount := rfl
@[simp] theorem State.cancel_runs (s : State) (p : Event → Bool) : (s.cancel p).runs = s.runs := rfl
@[simp] theorem State.cancel_nextRun (s : State) (p : Event → Bool) : (s.cancel p).nextRun = s.nextRun := rfl
@[simp] theorem State.cancel_procs (s : State) (p : Event → Bool) : (s.cancel p).procs = s.procs := rfl
@[simp] theorem State.cancel_harts (s : State) (p : Event → Bool) : (s.cancel p).harts = s.harts := rfl
@[simp] theorem State.cancel_pending (s : State) (p : Event → Bool) : (s.cancel p).pending = s.pending := rfl
@[simp] theorem State.cancel_netPort (s : State) (p : Event → Bool) : (s.cancel p).netPort = s.netPort := rfl
@[simp] theorem State.cancel_stoPort (s : State) (p : Event → Bool) : (s.cancel p).stoPort = s.stoPort := rfl
@[simp] theorem State.cancel_mem (s : State) (p : Event → Bool) : (s.cancel p).mem = s.mem := rfl
@[simp] theorem State.cancel_memPoison (s : State) (p : Event → Bool) : (s.cancel p).memPoison = s.memPoison := rfl
@[simp] theorem State.cancel_memUpsets (s : State) (p : Event → Bool) : (s.cancel p).memUpsets = s.memUpsets := rfl
@[simp] theorem State.cancel_lpddrAcc (s : State) (p : Event → Bool) : (s.cancel p).lpddrAcc = s.lpddrAcc := rfl
@[simp] theorem State.cancel_mmioAcc (s : State) (p : Event → Bool) : (s.cancel p).mmioAcc = s.mmioAcc := rfl
@[simp] theorem State.cancel_greqs (s : State) (p : Event → Bool) : (s.cancel p).greqs = s.greqs := rfl
@[simp] theorem State.cancel_joins (s : State) (p : Event → Bool) : (s.cancel p).joins = s.joins := rfl
@[simp] theorem State.cancel_walks (s : State) (p : Event → Bool) : (s.cancel p).walks = s.walks := rfl
@[simp] theorem State.cancel_dsops (s : State) (p : Event → Bool) : (s.cancel p).dsops = s.dsops := rfl
@[simp] theorem State.cancel_barriers (s : State) (p : Event → Bool) : (s.cancel p).barriers = s.barriers := rfl
@[simp] theorem State.cancel_reservations (s : State) (p : Event → Bool) : (s.cancel p).reservations = s.reservations := rfl
@[simp] theorem State.cancel_resvs (s : State) (p : Event → Bool) : (s.cancel p).resvs = s.resvs := rfl
@[simp] theorem State.cancel_hartReqs (s : State) (p : Event → Bool) : (s.cancel p).hartReqs = s.hartReqs := rfl
@[simp] theorem State.cancel_deferred (s : State) (p : Event → Bool) : (s.cancel p).deferred = s.deferred := rfl
@[simp] theorem State.cancel_relays (s : State) (p : Event → Bool) : (s.cancel p).relays = s.relays := rfl
@[simp] theorem State.cancel_nextSid (s : State) (p : Event → Bool) : (s.cancel p).nextSid = s.nextSid := rfl
@[simp] theorem State.cancel_migrations (s : State) (p : Event → Bool) : (s.cancel p).migrations = s.migrations := rfl
@[simp] theorem State.cancel_flows (s : State) (p : Event → Bool) : (s.cancel p).flows = s.flows := rfl
@[simp] theorem State.cancel_parked (s : State) (p : Event → Bool) : (s.cancel p).parked = s.parked := rfl
@[simp] theorem State.cancel_outbox (s : State) (p : Event → Bool) : (s.cancel p).outbox = s.outbox := rfl
@[simp] theorem State.cancel_ring (s : State) (p : Event → Bool) : (s.cancel p).ring = s.ring := rfl
@[simp] theorem State.cancel_denials (s : State) (p : Event → Bool) : (s.cancel p).denials = s.denials := rfl
@[simp] theorem State.cancel_ktlbf (s : State) (p : Event → Bool) : (s.cancel p).ktlbf = s.ktlbf := rfl
@[simp] theorem State.cancel_invals (s : State) (p : Event → Bool) : (s.cancel p).invals = s.invals := rfl

/-! ### modHart -/
@[simp] theorem State.modHart_now (s : State) (h : Nat) (f : Hart → Hart) : (s.modHart h f).now = s.now := rfl
@[simp] theorem State.modHart_curCore (s : State) (h : Nat) (f : Hart → Hart) : (s.modHart h f).curCore = s.curCore := rfl
@[simp] theorem State.modHart_curStrm (s : State) (h : Nat) (f : Hart → Hart) : (s.modHart h f).curStrm = s.curStrm := rfl
@[simp] theorem State.modHart_curHart (s : State) (h : Nat) (f : Hart → Hart) : (s.modHart h f).curHart = s.curHart := rfl
@[simp] theorem State.modHart_arg (s : State) (h : Nat) (f : Hart → Hart) : (s.modHart h f).arg = s.arg := rfl
@[simp] theorem State.modHart_turns (s : State) (h : Nat) (f : Hart → Hart) : (s.modHart h f).turns = s.turns := rfl
@[simp] theorem State.modHart_agenda (s : State) (h : Nat) (f : Hart → Hart) : (s.modHart h f).agenda = s.agenda := rfl
@[simp] theorem State.modHart_seq (s : State) (h : Nat) (f : Hart → Hart) : (s.modHart h f).seq = s.seq := rfl
@[simp] theorem State.modHart_free (s : State) (h : Nat) (f : Hart → Hart) : (s.modHart h f).free = s.free := rfl
@[simp] theorem State.modHart_wb (s : State) (h : Nat) (f : Hart → Hart) : (s.modHart h f).wb = s.wb := rfl
@[simp] theorem State.modHart_sets (s : State) (h : Nat) (f : Hart → Hart) : (s.modHart h f).sets = s.sets := rfl
@[simp] theorem State.modHart_window (s : State) (h : Nat) (f : Hart → Hart) : (s.modHart h f).window = s.window := rfl
@[simp] theorem State.modHart_winAt (s : State) (h : Nat) (f : Hart → Hart) : (s.modHart h f).winAt = s.winAt := rfl
@[simp] theorem State.modHart_beat (s : State) (h : Nat) (f : Hart → Hart) : (s.modHart h f).beat = s.beat := rfl
@[simp] theorem State.modHart_beatAt (s : State) (h : Nat) (f : Hart → Hart) : (s.modHart h f).beatAt = s.beatAt := rfl
@[simp] theorem State.modHart_beatHist (s : State) (h : Nat) (f : Hart → Hart) : (s.modHart h f).beatHist = s.beatHist := rfl
@[simp] theorem State.modHart_beatTab (s : State) (h : Nat) (f : Hart → Hart) : (s.modHart h f).beatTab = s.beatTab := rfl
@[simp] theorem State.modHart_beatNext (s : State) (h : Nat) (f : Hart → Hart) : (s.modHart h f).beatNext = s.beatNext := rfl
@[simp] theorem State.modHart_fuse (s : State) (h : Nat) (f : Hart → Hart) : (s.modHart h f).fuse = s.fuse := rfl
@[simp] theorem State.modHart_boot (s : State) (h : Nat) (f : Hart → Hart) : (s.modHart h f).boot = s.boot := rfl
@[simp] theorem State.modHart_power (s : State) (h : Nat) (f : Hart → Hart) : (s.modHart h f).power = s.power := rfl
@[simp] theorem State.modHart_pkg (s : State) (h : Nat) (f : Hart → Hart) : (s.modHart h f).pkg = s.pkg := rfl
@[simp] theorem State.modHart_routing (s : State) (h : Nat) (f : Hart → Hart) : (s.modHart h f).routing = s.routing := rfl
@[simp] theorem State.modHart_ports (s : State) (h : Nat) (f : Hart → Hart) : (s.modHart h f).ports = s.ports := rfl
@[simp] theorem State.modHart_lostPorts (s : State) (h : Nat) (f : Hart → Hart) : (s.modHart h f).lostPorts = s.lostPorts := rfl
@[simp] theorem State.modHart_withdrawn (s : State) (h : Nat) (f : Hart → Hart) : (s.modHart h f).withdrawn = s.withdrawn := rfl
@[simp] theorem State.modHart_cores (s : State) (h : Nat) (f : Hart → Hart) : (s.modHart h f).cores = s.cores := rfl
@[simp] theorem State.modHart_quads (s : State) (h : Nat) (f : Hart → Hart) : (s.modHart h f).quads = s.quads := rfl
@[simp] theorem State.modHart_dies (s : State) (h : Nat) (f : Hart → Hart) : (s.modHart h f).dies = s.dies := rfl
@[simp] theorem State.modHart_stopes (s : State) (h : Nat) (f : Hart → Hart) : (s.modHart h f).stopes = s.stopes := rfl
@[simp] theorem State.modHart_nextStope (s : State) (h : Nat) (f : Hart → Hart) : (s.modHart h f).nextStope = s.nextStope := rfl
@[simp] theorem State.modHart_launches (s : State) (h : Nat) (f : Hart → Hart) : (s.modHart h f).launches = s.launches := rfl
@[simp] theorem State.modHart_queues (s : State) (h : Nat) (f : Hart → Hart) : (s.modHart h f).queues = s.queues := rfl
@[simp] theorem State.modHart_qprio (s : State) (h : Nat) (f : Hart → Hart) : (s.modHart h f).qprio = s.qprio := rfl
@[simp] theorem State.modHart_lastServed (s : State) (h : Nat) (f : Hart → Hart) : (s.modHart h f).lastServed = s.lastServed := rfl
@[simp] theorem State.modHart_latched (s : State) (h : Nat) (f : Hart → Hart) : (s.modHart h f).latched = s.latched := rfl
@[simp] theorem State.modHart_reserving (s : State) (h : Nat) (f : Hart → Hart) : (s.modHart h f).reserving = s.reserving := rfl
@[simp] theorem State.modHart_genCount (s : State) (h : Nat) (f : Hart → Hart) : (s.modHart h f).genCount = s.genCount := rfl
@[simp] theorem State.modHart_runs (s : State) (h : Nat) (f : Hart → Hart) : (s.modHart h f).runs = s.runs := rfl
@[simp] theorem State.modHart_nextRun (s : State) (h : Nat) (f : Hart → Hart) : (s.modHart h f).nextRun = s.nextRun := rfl
@[simp] theorem State.modHart_procs (s : State) (h : Nat) (f : Hart → Hart) : (s.modHart h f).procs = s.procs := rfl
@[simp] theorem State.modHart_harts (s : State) (h : Nat) (f : Hart → Hart) : (s.modHart h f).harts = vset s.harts h (f (s.hart h)) := rfl
@[simp] theorem State.modHart_pending (s : State) (h : Nat) (f : Hart → Hart) : (s.modHart h f).pending = s.pending := rfl
@[simp] theorem State.modHart_netPort (s : State) (h : Nat) (f : Hart → Hart) : (s.modHart h f).netPort = s.netPort := rfl
@[simp] theorem State.modHart_stoPort (s : State) (h : Nat) (f : Hart → Hart) : (s.modHart h f).stoPort = s.stoPort := rfl
@[simp] theorem State.modHart_mem (s : State) (h : Nat) (f : Hart → Hart) : (s.modHart h f).mem = s.mem := rfl
@[simp] theorem State.modHart_memPoison (s : State) (h : Nat) (f : Hart → Hart) : (s.modHart h f).memPoison = s.memPoison := rfl
@[simp] theorem State.modHart_memUpsets (s : State) (h : Nat) (f : Hart → Hart) : (s.modHart h f).memUpsets = s.memUpsets := rfl
@[simp] theorem State.modHart_lpddrAcc (s : State) (h : Nat) (f : Hart → Hart) : (s.modHart h f).lpddrAcc = s.lpddrAcc := rfl
@[simp] theorem State.modHart_mmioAcc (s : State) (h : Nat) (f : Hart → Hart) : (s.modHart h f).mmioAcc = s.mmioAcc := rfl
@[simp] theorem State.modHart_greqs (s : State) (h : Nat) (f : Hart → Hart) : (s.modHart h f).greqs = s.greqs := rfl
@[simp] theorem State.modHart_joins (s : State) (h : Nat) (f : Hart → Hart) : (s.modHart h f).joins = s.joins := rfl
@[simp] theorem State.modHart_walks (s : State) (h : Nat) (f : Hart → Hart) : (s.modHart h f).walks = s.walks := rfl
@[simp] theorem State.modHart_dsops (s : State) (h : Nat) (f : Hart → Hart) : (s.modHart h f).dsops = s.dsops := rfl
@[simp] theorem State.modHart_barriers (s : State) (h : Nat) (f : Hart → Hart) : (s.modHart h f).barriers = s.barriers := rfl
@[simp] theorem State.modHart_reservations (s : State) (h : Nat) (f : Hart → Hart) : (s.modHart h f).reservations = s.reservations := rfl
@[simp] theorem State.modHart_resvs (s : State) (h : Nat) (f : Hart → Hart) : (s.modHart h f).resvs = s.resvs := rfl
@[simp] theorem State.modHart_hartReqs (s : State) (h : Nat) (f : Hart → Hart) : (s.modHart h f).hartReqs = s.hartReqs := rfl
@[simp] theorem State.modHart_deferred (s : State) (h : Nat) (f : Hart → Hart) : (s.modHart h f).deferred = s.deferred := rfl
@[simp] theorem State.modHart_relays (s : State) (h : Nat) (f : Hart → Hart) : (s.modHart h f).relays = s.relays := rfl
@[simp] theorem State.modHart_nextSid (s : State) (h : Nat) (f : Hart → Hart) : (s.modHart h f).nextSid = s.nextSid := rfl
@[simp] theorem State.modHart_migrations (s : State) (h : Nat) (f : Hart → Hart) : (s.modHart h f).migrations = s.migrations := rfl
@[simp] theorem State.modHart_flows (s : State) (h : Nat) (f : Hart → Hart) : (s.modHart h f).flows = s.flows := rfl
@[simp] theorem State.modHart_parked (s : State) (h : Nat) (f : Hart → Hart) : (s.modHart h f).parked = s.parked := rfl
@[simp] theorem State.modHart_outbox (s : State) (h : Nat) (f : Hart → Hart) : (s.modHart h f).outbox = s.outbox := rfl
@[simp] theorem State.modHart_ring (s : State) (h : Nat) (f : Hart → Hart) : (s.modHart h f).ring = s.ring := rfl
@[simp] theorem State.modHart_denials (s : State) (h : Nat) (f : Hart → Hart) : (s.modHart h f).denials = s.denials := rfl
@[simp] theorem State.modHart_ktlbf (s : State) (h : Nat) (f : Hart → Hart) : (s.modHart h f).ktlbf = s.ktlbf := rfl
@[simp] theorem State.modHart_invals (s : State) (h : Nat) (f : Hart → Hart) : (s.modHart h f).invals = s.invals := rfl

/-! ### modStope -/
@[simp] theorem State.modStope_now (s : State) (i : Nat) (f : Stope → Stope) : (s.modStope i f).now = s.now := rfl
@[simp] theorem State.modStope_curCore (s : State) (i : Nat) (f : Stope → Stope) : (s.modStope i f).curCore = s.curCore := rfl
@[simp] theorem State.modStope_curStrm (s : State) (i : Nat) (f : Stope → Stope) : (s.modStope i f).curStrm = s.curStrm := rfl
@[simp] theorem State.modStope_curHart (s : State) (i : Nat) (f : Stope → Stope) : (s.modStope i f).curHart = s.curHart := rfl
@[simp] theorem State.modStope_arg (s : State) (i : Nat) (f : Stope → Stope) : (s.modStope i f).arg = s.arg := rfl
@[simp] theorem State.modStope_turns (s : State) (i : Nat) (f : Stope → Stope) : (s.modStope i f).turns = s.turns := rfl
@[simp] theorem State.modStope_agenda (s : State) (i : Nat) (f : Stope → Stope) : (s.modStope i f).agenda = s.agenda := rfl
@[simp] theorem State.modStope_seq (s : State) (i : Nat) (f : Stope → Stope) : (s.modStope i f).seq = s.seq := rfl
@[simp] theorem State.modStope_free (s : State) (i : Nat) (f : Stope → Stope) : (s.modStope i f).free = s.free := rfl
@[simp] theorem State.modStope_wb (s : State) (i : Nat) (f : Stope → Stope) : (s.modStope i f).wb = s.wb := rfl
@[simp] theorem State.modStope_sets (s : State) (i : Nat) (f : Stope → Stope) : (s.modStope i f).sets = s.sets := rfl
@[simp] theorem State.modStope_window (s : State) (i : Nat) (f : Stope → Stope) : (s.modStope i f).window = s.window := rfl
@[simp] theorem State.modStope_winAt (s : State) (i : Nat) (f : Stope → Stope) : (s.modStope i f).winAt = s.winAt := rfl
@[simp] theorem State.modStope_beat (s : State) (i : Nat) (f : Stope → Stope) : (s.modStope i f).beat = s.beat := rfl
@[simp] theorem State.modStope_beatAt (s : State) (i : Nat) (f : Stope → Stope) : (s.modStope i f).beatAt = s.beatAt := rfl
@[simp] theorem State.modStope_beatHist (s : State) (i : Nat) (f : Stope → Stope) : (s.modStope i f).beatHist = s.beatHist := rfl
@[simp] theorem State.modStope_beatTab (s : State) (i : Nat) (f : Stope → Stope) : (s.modStope i f).beatTab = s.beatTab := rfl
@[simp] theorem State.modStope_beatNext (s : State) (i : Nat) (f : Stope → Stope) : (s.modStope i f).beatNext = s.beatNext := rfl
@[simp] theorem State.modStope_fuse (s : State) (i : Nat) (f : Stope → Stope) : (s.modStope i f).fuse = s.fuse := rfl
@[simp] theorem State.modStope_boot (s : State) (i : Nat) (f : Stope → Stope) : (s.modStope i f).boot = s.boot := rfl
@[simp] theorem State.modStope_power (s : State) (i : Nat) (f : Stope → Stope) : (s.modStope i f).power = s.power := rfl
@[simp] theorem State.modStope_pkg (s : State) (i : Nat) (f : Stope → Stope) : (s.modStope i f).pkg = s.pkg := rfl
@[simp] theorem State.modStope_routing (s : State) (i : Nat) (f : Stope → Stope) : (s.modStope i f).routing = s.routing := rfl
@[simp] theorem State.modStope_ports (s : State) (i : Nat) (f : Stope → Stope) : (s.modStope i f).ports = s.ports := rfl
@[simp] theorem State.modStope_lostPorts (s : State) (i : Nat) (f : Stope → Stope) : (s.modStope i f).lostPorts = s.lostPorts := rfl
@[simp] theorem State.modStope_withdrawn (s : State) (i : Nat) (f : Stope → Stope) : (s.modStope i f).withdrawn = s.withdrawn := rfl
@[simp] theorem State.modStope_cores (s : State) (i : Nat) (f : Stope → Stope) : (s.modStope i f).cores = s.cores := rfl
@[simp] theorem State.modStope_quads (s : State) (i : Nat) (f : Stope → Stope) : (s.modStope i f).quads = s.quads := rfl
@[simp] theorem State.modStope_dies (s : State) (i : Nat) (f : Stope → Stope) : (s.modStope i f).dies = s.dies := rfl
@[simp] theorem State.modStope_nextStope (s : State) (i : Nat) (f : Stope → Stope) : (s.modStope i f).nextStope = s.nextStope := rfl
@[simp] theorem State.modStope_launches (s : State) (i : Nat) (f : Stope → Stope) : (s.modStope i f).launches = s.launches := rfl
@[simp] theorem State.modStope_queues (s : State) (i : Nat) (f : Stope → Stope) : (s.modStope i f).queues = s.queues := rfl
@[simp] theorem State.modStope_qprio (s : State) (i : Nat) (f : Stope → Stope) : (s.modStope i f).qprio = s.qprio := rfl
@[simp] theorem State.modStope_lastServed (s : State) (i : Nat) (f : Stope → Stope) : (s.modStope i f).lastServed = s.lastServed := rfl
@[simp] theorem State.modStope_latched (s : State) (i : Nat) (f : Stope → Stope) : (s.modStope i f).latched = s.latched := rfl
@[simp] theorem State.modStope_reserving (s : State) (i : Nat) (f : Stope → Stope) : (s.modStope i f).reserving = s.reserving := rfl
@[simp] theorem State.modStope_genCount (s : State) (i : Nat) (f : Stope → Stope) : (s.modStope i f).genCount = s.genCount := rfl
@[simp] theorem State.modStope_runs (s : State) (i : Nat) (f : Stope → Stope) : (s.modStope i f).runs = s.runs := rfl
@[simp] theorem State.modStope_nextRun (s : State) (i : Nat) (f : Stope → Stope) : (s.modStope i f).nextRun = s.nextRun := rfl
@[simp] theorem State.modStope_procs (s : State) (i : Nat) (f : Stope → Stope) : (s.modStope i f).procs = s.procs := rfl
@[simp] theorem State.modStope_harts (s : State) (i : Nat) (f : Stope → Stope) : (s.modStope i f).harts = s.harts := rfl
@[simp] theorem State.modStope_pending (s : State) (i : Nat) (f : Stope → Stope) : (s.modStope i f).pending = s.pending := rfl
@[simp] theorem State.modStope_netPort (s : State) (i : Nat) (f : Stope → Stope) : (s.modStope i f).netPort = s.netPort := rfl
@[simp] theorem State.modStope_stoPort (s : State) (i : Nat) (f : Stope → Stope) : (s.modStope i f).stoPort = s.stoPort := rfl
@[simp] theorem State.modStope_mem (s : State) (i : Nat) (f : Stope → Stope) : (s.modStope i f).mem = s.mem := rfl
@[simp] theorem State.modStope_memPoison (s : State) (i : Nat) (f : Stope → Stope) : (s.modStope i f).memPoison = s.memPoison := rfl
@[simp] theorem State.modStope_memUpsets (s : State) (i : Nat) (f : Stope → Stope) : (s.modStope i f).memUpsets = s.memUpsets := rfl
@[simp] theorem State.modStope_lpddrAcc (s : State) (i : Nat) (f : Stope → Stope) : (s.modStope i f).lpddrAcc = s.lpddrAcc := rfl
@[simp] theorem State.modStope_mmioAcc (s : State) (i : Nat) (f : Stope → Stope) : (s.modStope i f).mmioAcc = s.mmioAcc := rfl
@[simp] theorem State.modStope_greqs (s : State) (i : Nat) (f : Stope → Stope) : (s.modStope i f).greqs = s.greqs := rfl
@[simp] theorem State.modStope_joins (s : State) (i : Nat) (f : Stope → Stope) : (s.modStope i f).joins = s.joins := rfl
@[simp] theorem State.modStope_walks (s : State) (i : Nat) (f : Stope → Stope) : (s.modStope i f).walks = s.walks := rfl
@[simp] theorem State.modStope_dsops (s : State) (i : Nat) (f : Stope → Stope) : (s.modStope i f).dsops = s.dsops := rfl
@[simp] theorem State.modStope_barriers (s : State) (i : Nat) (f : Stope → Stope) : (s.modStope i f).barriers = s.barriers := rfl
@[simp] theorem State.modStope_reservations (s : State) (i : Nat) (f : Stope → Stope) : (s.modStope i f).reservations = s.reservations := rfl
@[simp] theorem State.modStope_resvs (s : State) (i : Nat) (f : Stope → Stope) : (s.modStope i f).resvs = s.resvs := rfl
@[simp] theorem State.modStope_hartReqs (s : State) (i : Nat) (f : Stope → Stope) : (s.modStope i f).hartReqs = s.hartReqs := rfl
@[simp] theorem State.modStope_deferred (s : State) (i : Nat) (f : Stope → Stope) : (s.modStope i f).deferred = s.deferred := rfl
@[simp] theorem State.modStope_relays (s : State) (i : Nat) (f : Stope → Stope) : (s.modStope i f).relays = s.relays := rfl
@[simp] theorem State.modStope_nextSid (s : State) (i : Nat) (f : Stope → Stope) : (s.modStope i f).nextSid = s.nextSid := rfl
@[simp] theorem State.modStope_migrations (s : State) (i : Nat) (f : Stope → Stope) : (s.modStope i f).migrations = s.migrations := rfl
@[simp] theorem State.modStope_flows (s : State) (i : Nat) (f : Stope → Stope) : (s.modStope i f).flows = s.flows := rfl
@[simp] theorem State.modStope_parked (s : State) (i : Nat) (f : Stope → Stope) : (s.modStope i f).parked = s.parked := rfl
@[simp] theorem State.modStope_outbox (s : State) (i : Nat) (f : Stope → Stope) : (s.modStope i f).outbox = s.outbox := rfl
@[simp] theorem State.modStope_ring (s : State) (i : Nat) (f : Stope → Stope) : (s.modStope i f).ring = s.ring := rfl
@[simp] theorem State.modStope_denials (s : State) (i : Nat) (f : Stope → Stope) : (s.modStope i f).denials = s.denials := rfl
@[simp] theorem State.modStope_ktlbf (s : State) (i : Nat) (f : Stope → Stope) : (s.modStope i f).ktlbf = s.ktlbf := rfl
@[simp] theorem State.modStope_invals (s : State) (i : Nat) (f : Stope → Stope) : (s.modStope i f).invals = s.invals := rfl

/-! ### modLaunch -/
@[simp] theorem State.modLaunch_now (s : State) (g : Nat) (f : Launch → Launch) : (s.modLaunch g f).now = s.now := rfl
@[simp] theorem State.modLaunch_curCore (s : State) (g : Nat) (f : Launch → Launch) : (s.modLaunch g f).curCore = s.curCore := rfl
@[simp] theorem State.modLaunch_curStrm (s : State) (g : Nat) (f : Launch → Launch) : (s.modLaunch g f).curStrm = s.curStrm := rfl
@[simp] theorem State.modLaunch_curHart (s : State) (g : Nat) (f : Launch → Launch) : (s.modLaunch g f).curHart = s.curHart := rfl
@[simp] theorem State.modLaunch_arg (s : State) (g : Nat) (f : Launch → Launch) : (s.modLaunch g f).arg = s.arg := rfl
@[simp] theorem State.modLaunch_turns (s : State) (g : Nat) (f : Launch → Launch) : (s.modLaunch g f).turns = s.turns := rfl
@[simp] theorem State.modLaunch_agenda (s : State) (g : Nat) (f : Launch → Launch) : (s.modLaunch g f).agenda = s.agenda := rfl
@[simp] theorem State.modLaunch_seq (s : State) (g : Nat) (f : Launch → Launch) : (s.modLaunch g f).seq = s.seq := rfl
@[simp] theorem State.modLaunch_free (s : State) (g : Nat) (f : Launch → Launch) : (s.modLaunch g f).free = s.free := rfl
@[simp] theorem State.modLaunch_wb (s : State) (g : Nat) (f : Launch → Launch) : (s.modLaunch g f).wb = s.wb := rfl
@[simp] theorem State.modLaunch_sets (s : State) (g : Nat) (f : Launch → Launch) : (s.modLaunch g f).sets = s.sets := rfl
@[simp] theorem State.modLaunch_window (s : State) (g : Nat) (f : Launch → Launch) : (s.modLaunch g f).window = s.window := rfl
@[simp] theorem State.modLaunch_winAt (s : State) (g : Nat) (f : Launch → Launch) : (s.modLaunch g f).winAt = s.winAt := rfl
@[simp] theorem State.modLaunch_beat (s : State) (g : Nat) (f : Launch → Launch) : (s.modLaunch g f).beat = s.beat := rfl
@[simp] theorem State.modLaunch_beatAt (s : State) (g : Nat) (f : Launch → Launch) : (s.modLaunch g f).beatAt = s.beatAt := rfl
@[simp] theorem State.modLaunch_beatHist (s : State) (g : Nat) (f : Launch → Launch) : (s.modLaunch g f).beatHist = s.beatHist := rfl
@[simp] theorem State.modLaunch_beatTab (s : State) (g : Nat) (f : Launch → Launch) : (s.modLaunch g f).beatTab = s.beatTab := rfl
@[simp] theorem State.modLaunch_beatNext (s : State) (g : Nat) (f : Launch → Launch) : (s.modLaunch g f).beatNext = s.beatNext := rfl
@[simp] theorem State.modLaunch_fuse (s : State) (g : Nat) (f : Launch → Launch) : (s.modLaunch g f).fuse = s.fuse := rfl
@[simp] theorem State.modLaunch_boot (s : State) (g : Nat) (f : Launch → Launch) : (s.modLaunch g f).boot = s.boot := rfl
@[simp] theorem State.modLaunch_power (s : State) (g : Nat) (f : Launch → Launch) : (s.modLaunch g f).power = s.power := rfl
@[simp] theorem State.modLaunch_pkg (s : State) (g : Nat) (f : Launch → Launch) : (s.modLaunch g f).pkg = s.pkg := rfl
@[simp] theorem State.modLaunch_routing (s : State) (g : Nat) (f : Launch → Launch) : (s.modLaunch g f).routing = s.routing := rfl
@[simp] theorem State.modLaunch_ports (s : State) (g : Nat) (f : Launch → Launch) : (s.modLaunch g f).ports = s.ports := rfl
@[simp] theorem State.modLaunch_lostPorts (s : State) (g : Nat) (f : Launch → Launch) : (s.modLaunch g f).lostPorts = s.lostPorts := rfl
@[simp] theorem State.modLaunch_withdrawn (s : State) (g : Nat) (f : Launch → Launch) : (s.modLaunch g f).withdrawn = s.withdrawn := rfl
@[simp] theorem State.modLaunch_cores (s : State) (g : Nat) (f : Launch → Launch) : (s.modLaunch g f).cores = s.cores := rfl
@[simp] theorem State.modLaunch_quads (s : State) (g : Nat) (f : Launch → Launch) : (s.modLaunch g f).quads = s.quads := rfl
@[simp] theorem State.modLaunch_dies (s : State) (g : Nat) (f : Launch → Launch) : (s.modLaunch g f).dies = s.dies := rfl
@[simp] theorem State.modLaunch_stopes (s : State) (g : Nat) (f : Launch → Launch) : (s.modLaunch g f).stopes = s.stopes := rfl
@[simp] theorem State.modLaunch_nextStope (s : State) (g : Nat) (f : Launch → Launch) : (s.modLaunch g f).nextStope = s.nextStope := rfl
@[simp] theorem State.modLaunch_queues (s : State) (g : Nat) (f : Launch → Launch) : (s.modLaunch g f).queues = s.queues := rfl
@[simp] theorem State.modLaunch_qprio (s : State) (g : Nat) (f : Launch → Launch) : (s.modLaunch g f).qprio = s.qprio := rfl
@[simp] theorem State.modLaunch_lastServed (s : State) (g : Nat) (f : Launch → Launch) : (s.modLaunch g f).lastServed = s.lastServed := rfl
@[simp] theorem State.modLaunch_latched (s : State) (g : Nat) (f : Launch → Launch) : (s.modLaunch g f).latched = s.latched := rfl
@[simp] theorem State.modLaunch_reserving (s : State) (g : Nat) (f : Launch → Launch) : (s.modLaunch g f).reserving = s.reserving := rfl
@[simp] theorem State.modLaunch_genCount (s : State) (g : Nat) (f : Launch → Launch) : (s.modLaunch g f).genCount = s.genCount := rfl
@[simp] theorem State.modLaunch_runs (s : State) (g : Nat) (f : Launch → Launch) : (s.modLaunch g f).runs = s.runs := rfl
@[simp] theorem State.modLaunch_nextRun (s : State) (g : Nat) (f : Launch → Launch) : (s.modLaunch g f).nextRun = s.nextRun := rfl
@[simp] theorem State.modLaunch_procs (s : State) (g : Nat) (f : Launch → Launch) : (s.modLaunch g f).procs = s.procs := rfl
@[simp] theorem State.modLaunch_harts (s : State) (g : Nat) (f : Launch → Launch) : (s.modLaunch g f).harts = s.harts := rfl
@[simp] theorem State.modLaunch_pending (s : State) (g : Nat) (f : Launch → Launch) : (s.modLaunch g f).pending = s.pending := rfl
@[simp] theorem State.modLaunch_netPort (s : State) (g : Nat) (f : Launch → Launch) : (s.modLaunch g f).netPort = s.netPort := rfl
@[simp] theorem State.modLaunch_stoPort (s : State) (g : Nat) (f : Launch → Launch) : (s.modLaunch g f).stoPort = s.stoPort := rfl
@[simp] theorem State.modLaunch_mem (s : State) (g : Nat) (f : Launch → Launch) : (s.modLaunch g f).mem = s.mem := rfl
@[simp] theorem State.modLaunch_memPoison (s : State) (g : Nat) (f : Launch → Launch) : (s.modLaunch g f).memPoison = s.memPoison := rfl
@[simp] theorem State.modLaunch_memUpsets (s : State) (g : Nat) (f : Launch → Launch) : (s.modLaunch g f).memUpsets = s.memUpsets := rfl
@[simp] theorem State.modLaunch_lpddrAcc (s : State) (g : Nat) (f : Launch → Launch) : (s.modLaunch g f).lpddrAcc = s.lpddrAcc := rfl
@[simp] theorem State.modLaunch_mmioAcc (s : State) (g : Nat) (f : Launch → Launch) : (s.modLaunch g f).mmioAcc = s.mmioAcc := rfl
@[simp] theorem State.modLaunch_greqs (s : State) (g : Nat) (f : Launch → Launch) : (s.modLaunch g f).greqs = s.greqs := rfl
@[simp] theorem State.modLaunch_joins (s : State) (g : Nat) (f : Launch → Launch) : (s.modLaunch g f).joins = s.joins := rfl
@[simp] theorem State.modLaunch_walks (s : State) (g : Nat) (f : Launch → Launch) : (s.modLaunch g f).walks = s.walks := rfl
@[simp] theorem State.modLaunch_dsops (s : State) (g : Nat) (f : Launch → Launch) : (s.modLaunch g f).dsops = s.dsops := rfl
@[simp] theorem State.modLaunch_barriers (s : State) (g : Nat) (f : Launch → Launch) : (s.modLaunch g f).barriers = s.barriers := rfl
@[simp] theorem State.modLaunch_reservations (s : State) (g : Nat) (f : Launch → Launch) : (s.modLaunch g f).reservations = s.reservations := rfl
@[simp] theorem State.modLaunch_resvs (s : State) (g : Nat) (f : Launch → Launch) : (s.modLaunch g f).resvs = s.resvs := rfl
@[simp] theorem State.modLaunch_hartReqs (s : State) (g : Nat) (f : Launch → Launch) : (s.modLaunch g f).hartReqs = s.hartReqs := rfl
@[simp] theorem State.modLaunch_deferred (s : State) (g : Nat) (f : Launch → Launch) : (s.modLaunch g f).deferred = s.deferred := rfl
@[simp] theorem State.modLaunch_relays (s : State) (g : Nat) (f : Launch → Launch) : (s.modLaunch g f).relays = s.relays := rfl
@[simp] theorem State.modLaunch_nextSid (s : State) (g : Nat) (f : Launch → Launch) : (s.modLaunch g f).nextSid = s.nextSid := rfl
@[simp] theorem State.modLaunch_migrations (s : State) (g : Nat) (f : Launch → Launch) : (s.modLaunch g f).migrations = s.migrations := rfl
@[simp] theorem State.modLaunch_flows (s : State) (g : Nat) (f : Launch → Launch) : (s.modLaunch g f).flows = s.flows := rfl
@[simp] theorem State.modLaunch_parked (s : State) (g : Nat) (f : Launch → Launch) : (s.modLaunch g f).parked = s.parked := rfl
@[simp] theorem State.modLaunch_outbox (s : State) (g : Nat) (f : Launch → Launch) : (s.modLaunch g f).outbox = s.outbox := rfl
@[simp] theorem State.modLaunch_ring (s : State) (g : Nat) (f : Launch → Launch) : (s.modLaunch g f).ring = s.ring := rfl
@[simp] theorem State.modLaunch_denials (s : State) (g : Nat) (f : Launch → Launch) : (s.modLaunch g f).denials = s.denials := rfl
@[simp] theorem State.modLaunch_ktlbf (s : State) (g : Nat) (f : Launch → Launch) : (s.modLaunch g f).ktlbf = s.ktlbf := rfl
@[simp] theorem State.modLaunch_invals (s : State) (g : Nat) (f : Launch → Launch) : (s.modLaunch g f).invals = s.invals := rfl

/-! ### modProc -/
@[simp] theorem State.modProc_now (s : State) (i : Nat) (f : Proc → Proc) : (s.modProc i f).now = s.now := rfl
@[simp] theorem State.modProc_curCore (s : State) (i : Nat) (f : Proc → Proc) : (s.modProc i f).curCore = s.curCore := rfl
@[simp] theorem State.modProc_curStrm (s : State) (i : Nat) (f : Proc → Proc) : (s.modProc i f).curStrm = s.curStrm := rfl
@[simp] theorem State.modProc_curHart (s : State) (i : Nat) (f : Proc → Proc) : (s.modProc i f).curHart = s.curHart := rfl
@[simp] theorem State.modProc_arg (s : State) (i : Nat) (f : Proc → Proc) : (s.modProc i f).arg = s.arg := rfl
@[simp] theorem State.modProc_turns (s : State) (i : Nat) (f : Proc → Proc) : (s.modProc i f).turns = s.turns := rfl
@[simp] theorem State.modProc_agenda (s : State) (i : Nat) (f : Proc → Proc) : (s.modProc i f).agenda = s.agenda := rfl
@[simp] theorem State.modProc_seq (s : State) (i : Nat) (f : Proc → Proc) : (s.modProc i f).seq = s.seq := rfl
@[simp] theorem State.modProc_free (s : State) (i : Nat) (f : Proc → Proc) : (s.modProc i f).free = s.free := rfl
@[simp] theorem State.modProc_wb (s : State) (i : Nat) (f : Proc → Proc) : (s.modProc i f).wb = s.wb := rfl
@[simp] theorem State.modProc_sets (s : State) (i : Nat) (f : Proc → Proc) : (s.modProc i f).sets = s.sets := rfl
@[simp] theorem State.modProc_window (s : State) (i : Nat) (f : Proc → Proc) : (s.modProc i f).window = s.window := rfl
@[simp] theorem State.modProc_winAt (s : State) (i : Nat) (f : Proc → Proc) : (s.modProc i f).winAt = s.winAt := rfl
@[simp] theorem State.modProc_beat (s : State) (i : Nat) (f : Proc → Proc) : (s.modProc i f).beat = s.beat := rfl
@[simp] theorem State.modProc_beatAt (s : State) (i : Nat) (f : Proc → Proc) : (s.modProc i f).beatAt = s.beatAt := rfl
@[simp] theorem State.modProc_beatHist (s : State) (i : Nat) (f : Proc → Proc) : (s.modProc i f).beatHist = s.beatHist := rfl
@[simp] theorem State.modProc_beatTab (s : State) (i : Nat) (f : Proc → Proc) : (s.modProc i f).beatTab = s.beatTab := rfl
@[simp] theorem State.modProc_beatNext (s : State) (i : Nat) (f : Proc → Proc) : (s.modProc i f).beatNext = s.beatNext := rfl
@[simp] theorem State.modProc_fuse (s : State) (i : Nat) (f : Proc → Proc) : (s.modProc i f).fuse = s.fuse := rfl
@[simp] theorem State.modProc_boot (s : State) (i : Nat) (f : Proc → Proc) : (s.modProc i f).boot = s.boot := rfl
@[simp] theorem State.modProc_power (s : State) (i : Nat) (f : Proc → Proc) : (s.modProc i f).power = s.power := rfl
@[simp] theorem State.modProc_pkg (s : State) (i : Nat) (f : Proc → Proc) : (s.modProc i f).pkg = s.pkg := rfl
@[simp] theorem State.modProc_routing (s : State) (i : Nat) (f : Proc → Proc) : (s.modProc i f).routing = s.routing := rfl
@[simp] theorem State.modProc_ports (s : State) (i : Nat) (f : Proc → Proc) : (s.modProc i f).ports = s.ports := rfl
@[simp] theorem State.modProc_lostPorts (s : State) (i : Nat) (f : Proc → Proc) : (s.modProc i f).lostPorts = s.lostPorts := rfl
@[simp] theorem State.modProc_withdrawn (s : State) (i : Nat) (f : Proc → Proc) : (s.modProc i f).withdrawn = s.withdrawn := rfl
@[simp] theorem State.modProc_cores (s : State) (i : Nat) (f : Proc → Proc) : (s.modProc i f).cores = s.cores := rfl
@[simp] theorem State.modProc_quads (s : State) (i : Nat) (f : Proc → Proc) : (s.modProc i f).quads = s.quads := rfl
@[simp] theorem State.modProc_dies (s : State) (i : Nat) (f : Proc → Proc) : (s.modProc i f).dies = s.dies := rfl
@[simp] theorem State.modProc_stopes (s : State) (i : Nat) (f : Proc → Proc) : (s.modProc i f).stopes = s.stopes := rfl
@[simp] theorem State.modProc_nextStope (s : State) (i : Nat) (f : Proc → Proc) : (s.modProc i f).nextStope = s.nextStope := rfl
@[simp] theorem State.modProc_launches (s : State) (i : Nat) (f : Proc → Proc) : (s.modProc i f).launches = s.launches := rfl
@[simp] theorem State.modProc_queues (s : State) (i : Nat) (f : Proc → Proc) : (s.modProc i f).queues = s.queues := rfl
@[simp] theorem State.modProc_qprio (s : State) (i : Nat) (f : Proc → Proc) : (s.modProc i f).qprio = s.qprio := rfl
@[simp] theorem State.modProc_lastServed (s : State) (i : Nat) (f : Proc → Proc) : (s.modProc i f).lastServed = s.lastServed := rfl
@[simp] theorem State.modProc_latched (s : State) (i : Nat) (f : Proc → Proc) : (s.modProc i f).latched = s.latched := rfl
@[simp] theorem State.modProc_reserving (s : State) (i : Nat) (f : Proc → Proc) : (s.modProc i f).reserving = s.reserving := rfl
@[simp] theorem State.modProc_genCount (s : State) (i : Nat) (f : Proc → Proc) : (s.modProc i f).genCount = s.genCount := rfl
@[simp] theorem State.modProc_runs (s : State) (i : Nat) (f : Proc → Proc) : (s.modProc i f).runs = s.runs := rfl
@[simp] theorem State.modProc_nextRun (s : State) (i : Nat) (f : Proc → Proc) : (s.modProc i f).nextRun = s.nextRun := rfl
@[simp] theorem State.modProc_harts (s : State) (i : Nat) (f : Proc → Proc) : (s.modProc i f).harts = s.harts := rfl
@[simp] theorem State.modProc_pending (s : State) (i : Nat) (f : Proc → Proc) : (s.modProc i f).pending = s.pending := rfl
@[simp] theorem State.modProc_netPort (s : State) (i : Nat) (f : Proc → Proc) : (s.modProc i f).netPort = s.netPort := rfl
@[simp] theorem State.modProc_stoPort (s : State) (i : Nat) (f : Proc → Proc) : (s.modProc i f).stoPort = s.stoPort := rfl
@[simp] theorem State.modProc_mem (s : State) (i : Nat) (f : Proc → Proc) : (s.modProc i f).mem = s.mem := rfl
@[simp] theorem State.modProc_memPoison (s : State) (i : Nat) (f : Proc → Proc) : (s.modProc i f).memPoison = s.memPoison := rfl
@[simp] theorem State.modProc_memUpsets (s : State) (i : Nat) (f : Proc → Proc) : (s.modProc i f).memUpsets = s.memUpsets := rfl
@[simp] theorem State.modProc_lpddrAcc (s : State) (i : Nat) (f : Proc → Proc) : (s.modProc i f).lpddrAcc = s.lpddrAcc := rfl
@[simp] theorem State.modProc_mmioAcc (s : State) (i : Nat) (f : Proc → Proc) : (s.modProc i f).mmioAcc = s.mmioAcc := rfl
@[simp] theorem State.modProc_greqs (s : State) (i : Nat) (f : Proc → Proc) : (s.modProc i f).greqs = s.greqs := rfl
@[simp] theorem State.modProc_joins (s : State) (i : Nat) (f : Proc → Proc) : (s.modProc i f).joins = s.joins := rfl
@[simp] theorem State.modProc_walks (s : State) (i : Nat) (f : Proc → Proc) : (s.modProc i f).walks = s.walks := rfl
@[simp] theorem State.modProc_dsops (s : State) (i : Nat) (f : Proc → Proc) : (s.modProc i f).dsops = s.dsops := rfl
@[simp] theorem State.modProc_barriers (s : State) (i : Nat) (f : Proc → Proc) : (s.modProc i f).barriers = s.barriers := rfl
@[simp] theorem State.modProc_reservations (s : State) (i : Nat) (f : Proc → Proc) : (s.modProc i f).reservations = s.reservations := rfl
@[simp] theorem State.modProc_resvs (s : State) (i : Nat) (f : Proc → Proc) : (s.modProc i f).resvs = s.resvs := rfl
@[simp] theorem State.modProc_hartReqs (s : State) (i : Nat) (f : Proc → Proc) : (s.modProc i f).hartReqs = s.hartReqs := rfl
@[simp] theorem State.modProc_deferred (s : State) (i : Nat) (f : Proc → Proc) : (s.modProc i f).deferred = s.deferred := rfl
@[simp] theorem State.modProc_relays (s : State) (i : Nat) (f : Proc → Proc) : (s.modProc i f).relays = s.relays := rfl
@[simp] theorem State.modProc_nextSid (s : State) (i : Nat) (f : Proc → Proc) : (s.modProc i f).nextSid = s.nextSid := rfl
@[simp] theorem State.modProc_migrations (s : State) (i : Nat) (f : Proc → Proc) : (s.modProc i f).migrations = s.migrations := rfl
@[simp] theorem State.modProc_flows (s : State) (i : Nat) (f : Proc → Proc) : (s.modProc i f).flows = s.flows := rfl
@[simp] theorem State.modProc_parked (s : State) (i : Nat) (f : Proc → Proc) : (s.modProc i f).parked = s.parked := rfl
@[simp] theorem State.modProc_outbox (s : State) (i : Nat) (f : Proc → Proc) : (s.modProc i f).outbox = s.outbox := rfl
@[simp] theorem State.modProc_ring (s : State) (i : Nat) (f : Proc → Proc) : (s.modProc i f).ring = s.ring := rfl
@[simp] theorem State.modProc_denials (s : State) (i : Nat) (f : Proc → Proc) : (s.modProc i f).denials = s.denials := rfl
@[simp] theorem State.modProc_ktlbf (s : State) (i : Nat) (f : Proc → Proc) : (s.modProc i f).ktlbf = s.ktlbf := rfl
@[simp] theorem State.modProc_invals (s : State) (i : Nat) (f : Proc → Proc) : (s.modProc i f).invals = s.invals := rfl

/-! ### modCore -/
@[simp] theorem State.modCore_now (s : State) (c : Nat) (f : Core → Core) : (s.modCore c f).now = s.now := rfl
@[simp] theorem State.modCore_curCore (s : State) (c : Nat) (f : Core → Core) : (s.modCore c f).curCore = s.curCore := rfl
@[simp] theorem State.modCore_curStrm (s : State) (c : Nat) (f : Core → Core) : (s.modCore c f).curStrm = s.curStrm := rfl
@[simp] theorem State.modCore_curHart (s : State) (c : Nat) (f : Core → Core) : (s.modCore c f).curHart = s.curHart := rfl
@[simp] theorem State.modCore_arg (s : State) (c : Nat) (f : Core → Core) : (s.modCore c f).arg = s.arg := rfl
@[simp] theorem State.modCore_turns (s : State) (c : Nat) (f : Core → Core) : (s.modCore c f).turns = s.turns := rfl
@[simp] theorem State.modCore_agenda (s : State) (c : Nat) (f : Core → Core) : (s.modCore c f).agenda = s.agenda := rfl
@[simp] theorem State.modCore_seq (s : State) (c : Nat) (f : Core → Core) : (s.modCore c f).seq = s.seq := rfl
@[simp] theorem State.modCore_free (s : State) (c : Nat) (f : Core → Core) : (s.modCore c f).free = s.free := rfl
@[simp] theorem State.modCore_wb (s : State) (c : Nat) (f : Core → Core) : (s.modCore c f).wb = s.wb := rfl
@[simp] theorem State.modCore_sets (s : State) (c : Nat) (f : Core → Core) : (s.modCore c f).sets = s.sets := rfl
@[simp] theorem State.modCore_window (s : State) (c : Nat) (f : Core → Core) : (s.modCore c f).window = s.window := rfl
@[simp] theorem State.modCore_winAt (s : State) (c : Nat) (f : Core → Core) : (s.modCore c f).winAt = s.winAt := rfl
@[simp] theorem State.modCore_beat (s : State) (c : Nat) (f : Core → Core) : (s.modCore c f).beat = s.beat := rfl
@[simp] theorem State.modCore_beatAt (s : State) (c : Nat) (f : Core → Core) : (s.modCore c f).beatAt = s.beatAt := rfl
@[simp] theorem State.modCore_beatHist (s : State) (c : Nat) (f : Core → Core) : (s.modCore c f).beatHist = s.beatHist := rfl
@[simp] theorem State.modCore_beatTab (s : State) (c : Nat) (f : Core → Core) : (s.modCore c f).beatTab = s.beatTab := rfl
@[simp] theorem State.modCore_beatNext (s : State) (c : Nat) (f : Core → Core) : (s.modCore c f).beatNext = s.beatNext := rfl
@[simp] theorem State.modCore_fuse (s : State) (c : Nat) (f : Core → Core) : (s.modCore c f).fuse = s.fuse := rfl
@[simp] theorem State.modCore_boot (s : State) (c : Nat) (f : Core → Core) : (s.modCore c f).boot = s.boot := rfl
@[simp] theorem State.modCore_power (s : State) (c : Nat) (f : Core → Core) : (s.modCore c f).power = s.power := rfl
@[simp] theorem State.modCore_pkg (s : State) (c : Nat) (f : Core → Core) : (s.modCore c f).pkg = s.pkg := rfl
@[simp] theorem State.modCore_routing (s : State) (c : Nat) (f : Core → Core) : (s.modCore c f).routing = s.routing := rfl
@[simp] theorem State.modCore_ports (s : State) (c : Nat) (f : Core → Core) : (s.modCore c f).ports = s.ports := rfl
@[simp] theorem State.modCore_lostPorts (s : State) (c : Nat) (f : Core → Core) : (s.modCore c f).lostPorts = s.lostPorts := rfl
@[simp] theorem State.modCore_withdrawn (s : State) (c : Nat) (f : Core → Core) : (s.modCore c f).withdrawn = s.withdrawn := rfl
@[simp] theorem State.modCore_cores (s : State) (c : Nat) (f : Core → Core) : (s.modCore c f).cores = Table.put s.cores c (f (s.core c)) := rfl
@[simp] theorem State.modCore_quads (s : State) (c : Nat) (f : Core → Core) : (s.modCore c f).quads = s.quads := rfl
@[simp] theorem State.modCore_dies (s : State) (c : Nat) (f : Core → Core) : (s.modCore c f).dies = s.dies := rfl
@[simp] theorem State.modCore_stopes (s : State) (c : Nat) (f : Core → Core) : (s.modCore c f).stopes = s.stopes := rfl
@[simp] theorem State.modCore_nextStope (s : State) (c : Nat) (f : Core → Core) : (s.modCore c f).nextStope = s.nextStope := rfl
@[simp] theorem State.modCore_launches (s : State) (c : Nat) (f : Core → Core) : (s.modCore c f).launches = s.launches := rfl
@[simp] theorem State.modCore_queues (s : State) (c : Nat) (f : Core → Core) : (s.modCore c f).queues = s.queues := rfl
@[simp] theorem State.modCore_qprio (s : State) (c : Nat) (f : Core → Core) : (s.modCore c f).qprio = s.qprio := rfl
@[simp] theorem State.modCore_lastServed (s : State) (c : Nat) (f : Core → Core) : (s.modCore c f).lastServed = s.lastServed := rfl
@[simp] theorem State.modCore_latched (s : State) (c : Nat) (f : Core → Core) : (s.modCore c f).latched = s.latched := rfl
@[simp] theorem State.modCore_reserving (s : State) (c : Nat) (f : Core → Core) : (s.modCore c f).reserving = s.reserving := rfl
@[simp] theorem State.modCore_genCount (s : State) (c : Nat) (f : Core → Core) : (s.modCore c f).genCount = s.genCount := rfl
@[simp] theorem State.modCore_runs (s : State) (c : Nat) (f : Core → Core) : (s.modCore c f).runs = s.runs := rfl
@[simp] theorem State.modCore_nextRun (s : State) (c : Nat) (f : Core → Core) : (s.modCore c f).nextRun = s.nextRun := rfl
@[simp] theorem State.modCore_procs (s : State) (c : Nat) (f : Core → Core) : (s.modCore c f).procs = s.procs := rfl
@[simp] theorem State.modCore_harts (s : State) (c : Nat) (f : Core → Core) : (s.modCore c f).harts = s.harts := rfl
@[simp] theorem State.modCore_pending (s : State) (c : Nat) (f : Core → Core) : (s.modCore c f).pending = s.pending := rfl
@[simp] theorem State.modCore_netPort (s : State) (c : Nat) (f : Core → Core) : (s.modCore c f).netPort = s.netPort := rfl
@[simp] theorem State.modCore_stoPort (s : State) (c : Nat) (f : Core → Core) : (s.modCore c f).stoPort = s.stoPort := rfl
@[simp] theorem State.modCore_mem (s : State) (c : Nat) (f : Core → Core) : (s.modCore c f).mem = s.mem := rfl
@[simp] theorem State.modCore_memPoison (s : State) (c : Nat) (f : Core → Core) : (s.modCore c f).memPoison = s.memPoison := rfl
@[simp] theorem State.modCore_memUpsets (s : State) (c : Nat) (f : Core → Core) : (s.modCore c f).memUpsets = s.memUpsets := rfl
@[simp] theorem State.modCore_lpddrAcc (s : State) (c : Nat) (f : Core → Core) : (s.modCore c f).lpddrAcc = s.lpddrAcc := rfl
@[simp] theorem State.modCore_mmioAcc (s : State) (c : Nat) (f : Core → Core) : (s.modCore c f).mmioAcc = s.mmioAcc := rfl
@[simp] theorem State.modCore_greqs (s : State) (c : Nat) (f : Core → Core) : (s.modCore c f).greqs = s.greqs := rfl
@[simp] theorem State.modCore_joins (s : State) (c : Nat) (f : Core → Core) : (s.modCore c f).joins = s.joins := rfl
@[simp] theorem State.modCore_walks (s : State) (c : Nat) (f : Core → Core) : (s.modCore c f).walks = s.walks := rfl
@[simp] theorem State.modCore_dsops (s : State) (c : Nat) (f : Core → Core) : (s.modCore c f).dsops = s.dsops := rfl
@[simp] theorem State.modCore_barriers (s : State) (c : Nat) (f : Core → Core) : (s.modCore c f).barriers = s.barriers := rfl
@[simp] theorem State.modCore_reservations (s : State) (c : Nat) (f : Core → Core) : (s.modCore c f).reservations = s.reservations := rfl
@[simp] theorem State.modCore_resvs (s : State) (c : Nat) (f : Core → Core) : (s.modCore c f).resvs = s.resvs := rfl
@[simp] theorem State.modCore_hartReqs (s : State) (c : Nat) (f : Core → Core) : (s.modCore c f).hartReqs = s.hartReqs := rfl
@[simp] theorem State.modCore_deferred (s : State) (c : Nat) (f : Core → Core) : (s.modCore c f).deferred = s.deferred := rfl
@[simp] theorem State.modCore_relays (s : State) (c : Nat) (f : Core → Core) : (s.modCore c f).relays = s.relays := rfl
@[simp] theorem State.modCore_nextSid (s : State) (c : Nat) (f : Core → Core) : (s.modCore c f).nextSid = s.nextSid := rfl
@[simp] theorem State.modCore_migrations (s : State) (c : Nat) (f : Core → Core) : (s.modCore c f).migrations = s.migrations := rfl
@[simp] theorem State.modCore_flows (s : State) (c : Nat) (f : Core → Core) : (s.modCore c f).flows = s.flows := rfl
@[simp] theorem State.modCore_parked (s : State) (c : Nat) (f : Core → Core) : (s.modCore c f).parked = s.parked := rfl
@[simp] theorem State.modCore_outbox (s : State) (c : Nat) (f : Core → Core) : (s.modCore c f).outbox = s.outbox := rfl
@[simp] theorem State.modCore_ring (s : State) (c : Nat) (f : Core → Core) : (s.modCore c f).ring = s.ring := rfl
@[simp] theorem State.modCore_denials (s : State) (c : Nat) (f : Core → Core) : (s.modCore c f).denials = s.denials := rfl
@[simp] theorem State.modCore_ktlbf (s : State) (c : Nat) (f : Core → Core) : (s.modCore c f).ktlbf = s.ktlbf := rfl
@[simp] theorem State.modCore_invals (s : State) (c : Nat) (f : Core → Core) : (s.modCore c f).invals = s.invals := rfl

/-! ### A stream of a core -/
@[simp] theorem Core.setStrm_scalar_bound (k : Core) (st : StreamSt) : (k.setStrm st .scalar).bound = k.bound := rfl
@[simp] theorem Core.setStrm_scalar_lastProc (k : Core) (st : StreamSt) : (k.setStrm st .scalar).lastProc = k.lastProc := rfl
@[simp] theorem Core.setStrm_scalar_s (k : Core) (st : StreamSt) : (k.setStrm st .scalar).s = k.s := rfl
@[simp] theorem Core.setStrm_scalar_b (k : Core) (st : StreamSt) : (k.setStrm st .scalar).b = k.b := rfl
@[simp] theorem Core.setStrm_scalar_lp (k : Core) (st : StreamSt) : (k.setStrm st .scalar).lp = k.lp := rfl
@[simp] theorem Core.setStrm_scalar_ar (k : Core) (st : StreamSt) : (k.setStrm st .scalar).ar = k.ar := rfl
@[simp] theorem Core.setStrm_scalar_m (k : Core) (st : StreamSt) : (k.setStrm st .scalar).m = k.m := rfl
@[simp] theorem Core.setStrm_scalar_sr (k : Core) (st : StreamSt) : (k.setStrm st .scalar).sr = k.sr := rfl
@[simp] theorem Core.setStrm_scalar_bt (k : Core) (st : StreamSt) : (k.setStrm st .scalar).bt = k.bt := rfl
@[simp] theorem Core.setStrm_scalar_qs2v (k : Core) (st : StreamSt) : (k.setStrm st .scalar).qs2v = k.qs2v := rfl
@[simp] theorem Core.setStrm_scalar_qv2s (k : Core) (st : StreamSt) : (k.setStrm st .scalar).qv2s = k.qv2s := rfl
@[simp] theorem Core.setStrm_scalar_qs2m (k : Core) (st : StreamSt) : (k.setStrm st .scalar).qs2m = k.qs2m := rfl
@[simp] theorem Core.setStrm_scalar_qv2m (k : Core) (st : StreamSt) : (k.setStrm st .scalar).qv2m = k.qv2m := rfl
@[simp] theorem Core.setStrm_scalar_qm2v (k : Core) (st : StreamSt) : (k.setStrm st .scalar).qm2v = k.qm2v := rfl
@[simp] theorem Core.setStrm_scalar_popped (k : Core) (st : StreamSt) : (k.setStrm st .scalar).popped = k.popped := rfl
@[simp] theorem Core.setStrm_scalar_bqv (k : Core) (st : StreamSt) : (k.setStrm st .scalar).bqv = k.bqv := rfl
@[simp] theorem Core.setStrm_scalar_bqm (k : Core) (st : StreamSt) : (k.setStrm st .scalar).bqm = k.bqm := rfl
@[simp] theorem Core.setStrm_scalar_plane (k : Core) (st : StreamSt) : (k.setStrm st .scalar).plane = k.plane := rfl
@[simp] theorem Core.setStrm_scalar_active (k : Core) (st : StreamSt) : (k.setStrm st .scalar).active = k.active := rfl
@[simp] theorem Core.setStrm_scalar_sc (k : Core) (st : StreamSt) : (k.setStrm st .scalar).sc = st := rfl
@[simp] theorem Core.setStrm_scalar_ve (k : Core) (st : StreamSt) : (k.setStrm st .scalar).ve = k.ve := rfl
@[simp] theorem Core.setStrm_scalar_mx (k : Core) (st : StreamSt) : (k.setStrm st .scalar).mx = k.mx := rfl
@[simp] theorem Core.setStrm_scalar_rows (k : Core) (st : StreamSt) : (k.setStrm st .scalar).rows = k.rows := rfl
@[simp] theorem Core.setStrm_scalar_a (k : Core) (st : StreamSt) : (k.setStrm st .scalar).a = k.a := rfl
@[simp] theorem Core.setStrm_scalar_c (k : Core) (st : StreamSt) : (k.setStrm st .scalar).c = k.c := rfl
@[simp] theorem Core.setStrm_scalar_sm (k : Core) (st : StreamSt) : (k.setStrm st .scalar).sm = k.sm := rfl
@[simp] theorem Core.setStrm_scalar_seam (k : Core) (st : StreamSt) : (k.setStrm st .scalar).seam = k.seam := rfl
@[simp] theorem Core.setStrm_scalar_poison (k : Core) (st : StreamSt) : (k.setStrm st .scalar).poison = k.poison := rfl
@[simp] theorem Core.setStrm_scalar_upsets (k : Core) (st : StreamSt) : (k.setStrm st .scalar).upsets = k.upsets := rfl
@[simp] theorem Core.setStrm_scalar_tags (k : Core) (st : StreamSt) : (k.setStrm st .scalar).tags = k.tags := rfl
@[simp] theorem Core.setStrm_scalar_fixes (k : Core) (st : StreamSt) : (k.setStrm st .scalar).fixes = k.fixes := rfl
@[simp] theorem Core.setStrm_scalar_mplane (k : Core) (st : StreamSt) : (k.setStrm st .scalar).mplane = k.mplane := rfl
@[simp] theorem Core.setStrm_scalar_fires (k : Core) (st : StreamSt) : (k.setStrm st .scalar).fires = k.fires := rfl
@[simp] theorem Core.setStrm_scalar_trig (k : Core) (st : StreamSt) : (k.setStrm st .scalar).trig = k.trig := rfl
@[simp] theorem Core.setStrm_scalar_trigCount (k : Core) (st : StreamSt) : (k.setStrm st .scalar).trigCount = k.trigCount := rfl
@[simp] theorem Core.setStrm_scalar_pendRes (k : Core) (st : StreamSt) : (k.setStrm st .scalar).pendRes = k.pendRes := rfl
@[simp] theorem Core.setStrm_scalar_specTags (k : Core) (st : StreamSt) : (k.setStrm st .scalar).specTags = k.specTags := rfl
@[simp] theorem Core.setStrm_scalar_resolve (k : Core) (st : StreamSt) : (k.setStrm st .scalar).resolve = k.resolve := rfl
@[simp] theorem Core.setStrm_scalar_shadows (k : Core) (st : StreamSt) : (k.setStrm st .scalar).shadows = k.shadows := rfl
@[simp] theorem Core.setStrm_scalar_mfreeReq (k : Core) (st : StreamSt) : (k.setStrm st .scalar).mfreeReq = k.mfreeReq := rfl
@[simp] theorem Core.setStrm_scalar_bars (k : Core) (st : StreamSt) : (k.setStrm st .scalar).bars = k.bars := rfl
@[simp] theorem Core.setStrm_scalar_anchor (k : Core) (st : StreamSt) : (k.setStrm st .scalar).anchor = k.anchor := rfl
@[simp] theorem Core.setStrm_scalar_copyQ (k : Core) (st : StreamSt) : (k.setStrm st .scalar).copyQ = k.copyQ := rfl
@[simp] theorem Core.setStrm_scalar_copy (k : Core) (st : StreamSt) : (k.setStrm st .scalar).copy = k.copy := rfl
@[simp] theorem Core.setStrm_scalar_copyFree (k : Core) (st : StreamSt) : (k.setStrm st .scalar).copyFree = k.copyFree := rfl
@[simp] theorem Core.setStrm_scalar_banks (k : Core) (st : StreamSt) : (k.setStrm st .scalar).banks = k.banks := rfl
@[simp] theorem Core.setStrm_scalar_arriving (k : Core) (st : StreamSt) : (k.setStrm st .scalar).arriving = k.arriving := rfl
@[simp] theorem Core.setStrm_scalar_withheld (k : Core) (st : StreamSt) : (k.setStrm st .scalar).withheld = k.withheld := rfl
@[simp] theorem Core.setStrm_scalar_bflags (k : Core) (st : StreamSt) : (k.setStrm st .scalar).bflags = k.bflags := rfl
@[simp] theorem Core.setStrm_scalar_acc (k : Core) (st : StreamSt) : (k.setStrm st .scalar).acc = k.acc := rfl
@[simp] theorem Core.setStrm_scalar_tlb (k : Core) (st : StreamSt) : (k.setStrm st .scalar).tlb = k.tlb := rfl
@[simp] theorem Core.setStrm_scalar_ctlb (k : Core) (st : StreamSt) : (k.setStrm st .scalar).ctlb = k.ctlb := rfl
@[simp] theorem Core.setStrm_scalar_fault (k : Core) (st : StreamSt) : (k.setStrm st .scalar).fault = k.fault := rfl
@[simp] theorem Core.setStrm_scalar_acks (k : Core) (st : StreamSt) : (k.setStrm st .scalar).acks = k.acks := rfl
@[simp] theorem Core.setStrm_scalar_haltMask (k : Core) (st : StreamSt) : (k.setStrm st .scalar).haltMask = k.haltMask := rfl
@[simp] theorem Core.strm_scalar (k : Core) : k.strm .scalar = k.sc := rfl
@[simp] theorem Core.setStrm_vector_bound (k : Core) (st : StreamSt) : (k.setStrm st .vector).bound = k.bound := rfl
@[simp] theorem Core.setStrm_vector_lastProc (k : Core) (st : StreamSt) : (k.setStrm st .vector).lastProc = k.lastProc := rfl
@[simp] theorem Core.setStrm_vector_s (k : Core) (st : StreamSt) : (k.setStrm st .vector).s = k.s := rfl
@[simp] theorem Core.setStrm_vector_b (k : Core) (st : StreamSt) : (k.setStrm st .vector).b = k.b := rfl
@[simp] theorem Core.setStrm_vector_lp (k : Core) (st : StreamSt) : (k.setStrm st .vector).lp = k.lp := rfl
@[simp] theorem Core.setStrm_vector_ar (k : Core) (st : StreamSt) : (k.setStrm st .vector).ar = k.ar := rfl
@[simp] theorem Core.setStrm_vector_m (k : Core) (st : StreamSt) : (k.setStrm st .vector).m = k.m := rfl
@[simp] theorem Core.setStrm_vector_sr (k : Core) (st : StreamSt) : (k.setStrm st .vector).sr = k.sr := rfl
@[simp] theorem Core.setStrm_vector_bt (k : Core) (st : StreamSt) : (k.setStrm st .vector).bt = k.bt := rfl
@[simp] theorem Core.setStrm_vector_qs2v (k : Core) (st : StreamSt) : (k.setStrm st .vector).qs2v = k.qs2v := rfl
@[simp] theorem Core.setStrm_vector_qv2s (k : Core) (st : StreamSt) : (k.setStrm st .vector).qv2s = k.qv2s := rfl
@[simp] theorem Core.setStrm_vector_qs2m (k : Core) (st : StreamSt) : (k.setStrm st .vector).qs2m = k.qs2m := rfl
@[simp] theorem Core.setStrm_vector_qv2m (k : Core) (st : StreamSt) : (k.setStrm st .vector).qv2m = k.qv2m := rfl
@[simp] theorem Core.setStrm_vector_qm2v (k : Core) (st : StreamSt) : (k.setStrm st .vector).qm2v = k.qm2v := rfl
@[simp] theorem Core.setStrm_vector_popped (k : Core) (st : StreamSt) : (k.setStrm st .vector).popped = k.popped := rfl
@[simp] theorem Core.setStrm_vector_bqv (k : Core) (st : StreamSt) : (k.setStrm st .vector).bqv = k.bqv := rfl
@[simp] theorem Core.setStrm_vector_bqm (k : Core) (st : StreamSt) : (k.setStrm st .vector).bqm = k.bqm := rfl
@[simp] theorem Core.setStrm_vector_plane (k : Core) (st : StreamSt) : (k.setStrm st .vector).plane = k.plane := rfl
@[simp] theorem Core.setStrm_vector_active (k : Core) (st : StreamSt) : (k.setStrm st .vector).active = k.active := rfl
@[simp] theorem Core.setStrm_vector_sc (k : Core) (st : StreamSt) : (k.setStrm st .vector).sc = k.sc := rfl
@[simp] theorem Core.setStrm_vector_ve (k : Core) (st : StreamSt) : (k.setStrm st .vector).ve = st := rfl
@[simp] theorem Core.setStrm_vector_mx (k : Core) (st : StreamSt) : (k.setStrm st .vector).mx = k.mx := rfl
@[simp] theorem Core.setStrm_vector_rows (k : Core) (st : StreamSt) : (k.setStrm st .vector).rows = k.rows := rfl
@[simp] theorem Core.setStrm_vector_a (k : Core) (st : StreamSt) : (k.setStrm st .vector).a = k.a := rfl
@[simp] theorem Core.setStrm_vector_c (k : Core) (st : StreamSt) : (k.setStrm st .vector).c = k.c := rfl
@[simp] theorem Core.setStrm_vector_sm (k : Core) (st : StreamSt) : (k.setStrm st .vector).sm = k.sm := rfl
@[simp] theorem Core.setStrm_vector_seam (k : Core) (st : StreamSt) : (k.setStrm st .vector).seam = k.seam := rfl
@[simp] theorem Core.setStrm_vector_poison (k : Core) (st : StreamSt) : (k.setStrm st .vector).poison = k.poison := rfl
@[simp] theorem Core.setStrm_vector_upsets (k : Core) (st : StreamSt) : (k.setStrm st .vector).upsets = k.upsets := rfl
@[simp] theorem Core.setStrm_vector_tags (k : Core) (st : StreamSt) : (k.setStrm st .vector).tags = k.tags := rfl
@[simp] theorem Core.setStrm_vector_fixes (k : Core) (st : StreamSt) : (k.setStrm st .vector).fixes = k.fixes := rfl
@[simp] theorem Core.setStrm_vector_mplane (k : Core) (st : StreamSt) : (k.setStrm st .vector).mplane = k.mplane := rfl
@[simp] theorem Core.setStrm_vector_fires (k : Core) (st : StreamSt) : (k.setStrm st .vector).fires = k.fires := rfl
@[simp] theorem Core.setStrm_vector_trig (k : Core) (st : StreamSt) : (k.setStrm st .vector).trig = k.trig := rfl
@[simp] theorem Core.setStrm_vector_trigCount (k : Core) (st : StreamSt) : (k.setStrm st .vector).trigCount = k.trigCount := rfl
@[simp] theorem Core.setStrm_vector_pendRes (k : Core) (st : StreamSt) : (k.setStrm st .vector).pendRes = k.pendRes := rfl
@[simp] theorem Core.setStrm_vector_specTags (k : Core) (st : StreamSt) : (k.setStrm st .vector).specTags = k.specTags := rfl
@[simp] theorem Core.setStrm_vector_resolve (k : Core) (st : StreamSt) : (k.setStrm st .vector).resolve = k.resolve := rfl
@[simp] theorem Core.setStrm_vector_shadows (k : Core) (st : StreamSt) : (k.setStrm st .vector).shadows = k.shadows := rfl
@[simp] theorem Core.setStrm_vector_mfreeReq (k : Core) (st : StreamSt) : (k.setStrm st .vector).mfreeReq = k.mfreeReq := rfl
@[simp] theorem Core.setStrm_vector_bars (k : Core) (st : StreamSt) : (k.setStrm st .vector).bars = k.bars := rfl
@[simp] theorem Core.setStrm_vector_anchor (k : Core) (st : StreamSt) : (k.setStrm st .vector).anchor = k.anchor := rfl
@[simp] theorem Core.setStrm_vector_copyQ (k : Core) (st : StreamSt) : (k.setStrm st .vector).copyQ = k.copyQ := rfl
@[simp] theorem Core.setStrm_vector_copy (k : Core) (st : StreamSt) : (k.setStrm st .vector).copy = k.copy := rfl
@[simp] theorem Core.setStrm_vector_copyFree (k : Core) (st : StreamSt) : (k.setStrm st .vector).copyFree = k.copyFree := rfl
@[simp] theorem Core.setStrm_vector_banks (k : Core) (st : StreamSt) : (k.setStrm st .vector).banks = k.banks := rfl
@[simp] theorem Core.setStrm_vector_arriving (k : Core) (st : StreamSt) : (k.setStrm st .vector).arriving = k.arriving := rfl
@[simp] theorem Core.setStrm_vector_withheld (k : Core) (st : StreamSt) : (k.setStrm st .vector).withheld = k.withheld := rfl
@[simp] theorem Core.setStrm_vector_bflags (k : Core) (st : StreamSt) : (k.setStrm st .vector).bflags = k.bflags := rfl
@[simp] theorem Core.setStrm_vector_acc (k : Core) (st : StreamSt) : (k.setStrm st .vector).acc = k.acc := rfl
@[simp] theorem Core.setStrm_vector_tlb (k : Core) (st : StreamSt) : (k.setStrm st .vector).tlb = k.tlb := rfl
@[simp] theorem Core.setStrm_vector_ctlb (k : Core) (st : StreamSt) : (k.setStrm st .vector).ctlb = k.ctlb := rfl
@[simp] theorem Core.setStrm_vector_fault (k : Core) (st : StreamSt) : (k.setStrm st .vector).fault = k.fault := rfl
@[simp] theorem Core.setStrm_vector_acks (k : Core) (st : StreamSt) : (k.setStrm st .vector).acks = k.acks := rfl
@[simp] theorem Core.setStrm_vector_haltMask (k : Core) (st : StreamSt) : (k.setStrm st .vector).haltMask = k.haltMask := rfl
@[simp] theorem Core.strm_vector (k : Core) : k.strm .vector = k.ve := rfl
@[simp] theorem Core.setStrm_matrix_bound (k : Core) (st : StreamSt) : (k.setStrm st .matrix).bound = k.bound := rfl
@[simp] theorem Core.setStrm_matrix_lastProc (k : Core) (st : StreamSt) : (k.setStrm st .matrix).lastProc = k.lastProc := rfl
@[simp] theorem Core.setStrm_matrix_s (k : Core) (st : StreamSt) : (k.setStrm st .matrix).s = k.s := rfl
@[simp] theorem Core.setStrm_matrix_b (k : Core) (st : StreamSt) : (k.setStrm st .matrix).b = k.b := rfl
@[simp] theorem Core.setStrm_matrix_lp (k : Core) (st : StreamSt) : (k.setStrm st .matrix).lp = k.lp := rfl
@[simp] theorem Core.setStrm_matrix_ar (k : Core) (st : StreamSt) : (k.setStrm st .matrix).ar = k.ar := rfl
@[simp] theorem Core.setStrm_matrix_m (k : Core) (st : StreamSt) : (k.setStrm st .matrix).m = k.m := rfl
@[simp] theorem Core.setStrm_matrix_sr (k : Core) (st : StreamSt) : (k.setStrm st .matrix).sr = k.sr := rfl
@[simp] theorem Core.setStrm_matrix_bt (k : Core) (st : StreamSt) : (k.setStrm st .matrix).bt = k.bt := rfl
@[simp] theorem Core.setStrm_matrix_qs2v (k : Core) (st : StreamSt) : (k.setStrm st .matrix).qs2v = k.qs2v := rfl
@[simp] theorem Core.setStrm_matrix_qv2s (k : Core) (st : StreamSt) : (k.setStrm st .matrix).qv2s = k.qv2s := rfl
@[simp] theorem Core.setStrm_matrix_qs2m (k : Core) (st : StreamSt) : (k.setStrm st .matrix).qs2m = k.qs2m := rfl
@[simp] theorem Core.setStrm_matrix_qv2m (k : Core) (st : StreamSt) : (k.setStrm st .matrix).qv2m = k.qv2m := rfl
@[simp] theorem Core.setStrm_matrix_qm2v (k : Core) (st : StreamSt) : (k.setStrm st .matrix).qm2v = k.qm2v := rfl
@[simp] theorem Core.setStrm_matrix_popped (k : Core) (st : StreamSt) : (k.setStrm st .matrix).popped = k.popped := rfl
@[simp] theorem Core.setStrm_matrix_bqv (k : Core) (st : StreamSt) : (k.setStrm st .matrix).bqv = k.bqv := rfl
@[simp] theorem Core.setStrm_matrix_bqm (k : Core) (st : StreamSt) : (k.setStrm st .matrix).bqm = k.bqm := rfl
@[simp] theorem Core.setStrm_matrix_plane (k : Core) (st : StreamSt) : (k.setStrm st .matrix).plane = k.plane := rfl
@[simp] theorem Core.setStrm_matrix_active (k : Core) (st : StreamSt) : (k.setStrm st .matrix).active = k.active := rfl
@[simp] theorem Core.setStrm_matrix_sc (k : Core) (st : StreamSt) : (k.setStrm st .matrix).sc = k.sc := rfl
@[simp] theorem Core.setStrm_matrix_ve (k : Core) (st : StreamSt) : (k.setStrm st .matrix).ve = k.ve := rfl
@[simp] theorem Core.setStrm_matrix_mx (k : Core) (st : StreamSt) : (k.setStrm st .matrix).mx = st := rfl
@[simp] theorem Core.setStrm_matrix_rows (k : Core) (st : StreamSt) : (k.setStrm st .matrix).rows = k.rows := rfl
@[simp] theorem Core.setStrm_matrix_a (k : Core) (st : StreamSt) : (k.setStrm st .matrix).a = k.a := rfl
@[simp] theorem Core.setStrm_matrix_c (k : Core) (st : StreamSt) : (k.setStrm st .matrix).c = k.c := rfl
@[simp] theorem Core.setStrm_matrix_sm (k : Core) (st : StreamSt) : (k.setStrm st .matrix).sm = k.sm := rfl
@[simp] theorem Core.setStrm_matrix_seam (k : Core) (st : StreamSt) : (k.setStrm st .matrix).seam = k.seam := rfl
@[simp] theorem Core.setStrm_matrix_poison (k : Core) (st : StreamSt) : (k.setStrm st .matrix).poison = k.poison := rfl
@[simp] theorem Core.setStrm_matrix_upsets (k : Core) (st : StreamSt) : (k.setStrm st .matrix).upsets = k.upsets := rfl
@[simp] theorem Core.setStrm_matrix_tags (k : Core) (st : StreamSt) : (k.setStrm st .matrix).tags = k.tags := rfl
@[simp] theorem Core.setStrm_matrix_fixes (k : Core) (st : StreamSt) : (k.setStrm st .matrix).fixes = k.fixes := rfl
@[simp] theorem Core.setStrm_matrix_mplane (k : Core) (st : StreamSt) : (k.setStrm st .matrix).mplane = k.mplane := rfl
@[simp] theorem Core.setStrm_matrix_fires (k : Core) (st : StreamSt) : (k.setStrm st .matrix).fires = k.fires := rfl
@[simp] theorem Core.setStrm_matrix_trig (k : Core) (st : StreamSt) : (k.setStrm st .matrix).trig = k.trig := rfl
@[simp] theorem Core.setStrm_matrix_trigCount (k : Core) (st : StreamSt) : (k.setStrm st .matrix).trigCount = k.trigCount := rfl
@[simp] theorem Core.setStrm_matrix_pendRes (k : Core) (st : StreamSt) : (k.setStrm st .matrix).pendRes = k.pendRes := rfl
@[simp] theorem Core.setStrm_matrix_specTags (k : Core) (st : StreamSt) : (k.setStrm st .matrix).specTags = k.specTags := rfl
@[simp] theorem Core.setStrm_matrix_resolve (k : Core) (st : StreamSt) : (k.setStrm st .matrix).resolve = k.resolve := rfl
@[simp] theorem Core.setStrm_matrix_shadows (k : Core) (st : StreamSt) : (k.setStrm st .matrix).shadows = k.shadows := rfl
@[simp] theorem Core.setStrm_matrix_mfreeReq (k : Core) (st : StreamSt) : (k.setStrm st .matrix).mfreeReq = k.mfreeReq := rfl
@[simp] theorem Core.setStrm_matrix_bars (k : Core) (st : StreamSt) : (k.setStrm st .matrix).bars = k.bars := rfl
@[simp] theorem Core.setStrm_matrix_anchor (k : Core) (st : StreamSt) : (k.setStrm st .matrix).anchor = k.anchor := rfl
@[simp] theorem Core.setStrm_matrix_copyQ (k : Core) (st : StreamSt) : (k.setStrm st .matrix).copyQ = k.copyQ := rfl
@[simp] theorem Core.setStrm_matrix_copy (k : Core) (st : StreamSt) : (k.setStrm st .matrix).copy = k.copy := rfl
@[simp] theorem Core.setStrm_matrix_copyFree (k : Core) (st : StreamSt) : (k.setStrm st .matrix).copyFree = k.copyFree := rfl
@[simp] theorem Core.setStrm_matrix_banks (k : Core) (st : StreamSt) : (k.setStrm st .matrix).banks = k.banks := rfl
@[simp] theorem Core.setStrm_matrix_arriving (k : Core) (st : StreamSt) : (k.setStrm st .matrix).arriving = k.arriving := rfl
@[simp] theorem Core.setStrm_matrix_withheld (k : Core) (st : StreamSt) : (k.setStrm st .matrix).withheld = k.withheld := rfl
@[simp] theorem Core.setStrm_matrix_bflags (k : Core) (st : StreamSt) : (k.setStrm st .matrix).bflags = k.bflags := rfl
@[simp] theorem Core.setStrm_matrix_acc (k : Core) (st : StreamSt) : (k.setStrm st .matrix).acc = k.acc := rfl
@[simp] theorem Core.setStrm_matrix_tlb (k : Core) (st : StreamSt) : (k.setStrm st .matrix).tlb = k.tlb := rfl
@[simp] theorem Core.setStrm_matrix_ctlb (k : Core) (st : StreamSt) : (k.setStrm st .matrix).ctlb = k.ctlb := rfl
@[simp] theorem Core.setStrm_matrix_fault (k : Core) (st : StreamSt) : (k.setStrm st .matrix).fault = k.fault := rfl
@[simp] theorem Core.setStrm_matrix_acks (k : Core) (st : StreamSt) : (k.setStrm st .matrix).acks = k.acks := rfl
@[simp] theorem Core.setStrm_matrix_haltMask (k : Core) (st : StreamSt) : (k.setStrm st .matrix).haltMask = k.haltMask := rfl
@[simp] theorem Core.strm_matrix (k : Core) : k.strm .matrix = k.mx := rfl
@[simp] theorem Core.space_0 (k : Core) : k.space 0 = k.a := rfl
@[simp] theorem Core.space_1 (k : Core) : k.space 1 = k.c := rfl
@[simp] theorem Core.space_2 (k : Core) : k.space 2 = k.sm := rfl
@[simp] theorem Core.space_3 (k : Core) : k.space 3 = k.seam := rfl

/-! ### A core read back -/

/-- Reading a core back after it is put. -/
@[simp] theorem State.core_setCore (s : State) (c : Nat) (k : Core) : (s.setCore c k).core c = k := by
  simp only [State.core, State.setCore_cores, Table.getD_put_same]
/-- Another core is as it was. -/
@[simp] theorem State.core_setCore_ne (s : State) (c d : Nat) (k : Core) (h : d ≠ c) : (s.setCore c k).core d = s.core d := by
  simp only [State.core, State.setCore_cores]
  exact Table.getD_put_other _ _ _ _ _ h
/-- Reading a core back after it is changed. -/
@[simp] theorem State.core_modCore (s : State) (c : Nat) (f : Core → Core) : (s.modCore c f).core c = f (s.core c) := State.core_setCore s c _
/-- Another core is as it was. -/
@[simp] theorem State.core_modCore_ne (s : State) (c d : Nat) (f : Core → Core) (h : d ≠ c) : (s.modCore c f).core d = s.core d :=
  State.core_setCore_ne s c d _ h
/-- Reading a quad back after it is put. -/
@[simp] theorem State.quad_setQuad (s : State) (q : Nat) (x : Quad) : (s.setQuad q x).quad q = x := by
  simp only [State.quad, State.setQuad_quads, Table.getD_put_same]
/-- Another quad is as it was. -/
@[simp] theorem State.quad_setQuad_ne (s : State) (q r : Nat) (x : Quad) (h : r ≠ q) : (s.setQuad q x).quad r = s.quad r := by
  simp only [State.quad, State.setQuad_quads]
  exact Table.getD_put_other _ _ _ _ _ h

end Sys2Proof.Machine
end

