-- ==== Sys2Proof/Laws/Ops.lean ====
section
/-! SUPPORT. What the shared operations of a word can do: they leave LPDDR and the fuses alone, every word of a stream ends in a next state, an agenda entry put is there, and one short statement of how each kind of word ends. -/

namespace Sys2Proof.Machine

/-! ### LPDDR and the fuses through the operations of a word -/

/-- LPDDR and the fuses of `t` are those of `s`. -/
structure SameStore (s t : State) : Prop where
  mem : t.mem = s.mem
  fuse : t.fuse = s.fuse

theorem SameStore.rfl {s : State} : SameStore s s := ⟨Eq.refl _, Eq.refl _⟩
theorem SameStore.trans {s t u : State} (h : SameStore s t) (h' : SameStore t u) : SameStore s u :=
  ⟨h'.mem.trans h.mem, h'.fuse.trans h.fuse⟩
/-- A fold of steps that leave the store alone leaves it alone. -/
theorem SameStore.foldl {α : Type} (f : State → α → State) (hf : ∀ s a, SameStore s (f s a)) (l : List α) (s : State) :
    SameStore s (l.foldl f s) := by
  induction l generalizing s with
  | nil => exact .rfl
  | cons a l ih => exact (hf s a).trans (ih (f s a))

theorem SameStore.modCore (s : State) (c : Nat) (f : Core → Core) : SameStore s (s.modCore c f) := ⟨Eq.refl _, Eq.refl _⟩
theorem SameStore.modStrm (s : State) (c : Nat) (k : Strm) (f : StreamSt → StreamSt) : SameStore s (s.modStrm c k f) := ⟨Eq.refl _, Eq.refl _⟩
theorem SameStore.post (s : State) (a p : Nat) (h : Option Nat) (x : Act) : SameStore s (s.post a p h x) := ⟨Eq.refl _, Eq.refl _⟩
theorem SameStore.postIssue (s : State) (c : Nat) (k : Strm) (a : Nat) : SameStore s (s.postIssue c k a) := ⟨Eq.refl _, Eq.refl _⟩
theorem SameStore.stall (s : State) (c : Nat) (k : Strm) : SameStore s (s.stall c k) := ⟨Eq.refl _, Eq.refl _⟩
theorem SameStore.devEvent (s : State) (k d m a g : Nat) : SameStore s (s.devEvent k d m a g) := ⟨Eq.refl _, Eq.refl _⟩

theorem SameStore.ite {s t u : State} {p : Prop} [Decidable p] (ht : SameStore s t) (hu : SameStore s u) : SameStore s (if p then t else u) := by
  split
  · exact ht
  · exact hu

theorem SameStore.withhold (s : State) (t : Stope) : SameStore s (s.withhold t) := by
  simp only [State.withhold]
  exact .ite .rfl ⟨Eq.refl _, Eq.refl _⟩

theorem SameStore.stopStope (s : State) (t : Stope) : SameStore s (s.stopStope t) := by
  simp only [State.stopStope]
  refine .ite .rfl (.trans (t := s.modStope t.id fun _ => { t with frozen := some s.now, fbeat := s.beat, foff := s.now - s.beatAt }) ?_ (SameStore.withhold _ _))
  exact ⟨Eq.refl _, Eq.refl _⟩

theorem SameStore.freeze (s : State) (c : Nat) : SameStore s (s.freeze c) := by
  unfold State.freeze
  split
  · exact .ite .rfl ((SameStore.stopStope ..).trans (.post ..))
  · exact .rfl

theorem SameStore.raise (s : State) (c : Nat) (f : FaultRec) (e : Option (Strm × Replay)) : SameStore s (s.raise c f e) := by
  simp only [State.raise]
  refine .trans ?_ (SameStore.freeze _ c)
  split
  · exact (SameStore.modCore s c _).trans (.devEvent ..)
  · exact SameStore.modCore s c _

theorem SameStore.raiseIn (s : State) (c : Nat) (f : FaultRec) (k : Strm) (e : Replay) : SameStore s (s.raiseIn c f k e) := by
  simp only [State.raiseIn]
  split
  · exact ((SameStore.modStrm ..).trans (.raise ..)).trans (.modStrm ..)
  · exact (SameStore.modStrm ..).trans (.raise ..)

theorem SameStore.blocked (s : State) (c : Nat) (k : Strm) (sub : Nat) (e : Replay) : SameStore s (s.blocked c k sub e) := by
  unfold State.blocked
  exact .ite (.stall ..) (.raiseIn ..)

theorem SameStore.scalarGoOn (s : State) (c occ : Nat) : SameStore s (s.scalarGoOn c occ) := by
  simp only [State.scalarGoOn]
  exact .ite (.ite (.postIssue ..) .rfl) (.postIssue ..)

theorem SameStore.scalarDone (s : State) (c occ : Nat) (j : Option Nat) : SameStore s (s.scalarDone c occ j) := by
  simp only [State.scalarDone]
  exact (SameStore.modCore s c _).trans (.scalarGoOn ..)

theorem SameStore.sendResult (s : State) (c : Nat) (p : SPlace) (v : Word64) (lat : Nat) : SameStore s (s.sendResult c p v lat) := by
  unfold State.sendResult
  exact .ite .rfl (.post ..)

theorem SameStore.toReg (s : State) (c : Nat) (d : BitVec 5) (v : Word64) (lat : Nat) : SameStore s (s.toReg c d v lat) := .sendResult ..

theorem SameStore.orSstat (s : State) (c f : Nat) : SameStore s (s.orSstat c f) := by
  unfold State.orSstat
  exact .ite .rfl (.modCore ..)

theorem SameStore.engineGoOn (s : State) (c : Nat) (k : Strm) (occ : Nat) : SameStore s (s.engineGoOn c k occ) := by
  simp only [State.engineGoOn]
  split
  · exact .postIssue ..
  · exact .ite ((SameStore.modStrm ..).trans (.postIssue ..)) (.ite ((SameStore.modStrm ..).trans (.post ..)) (.modStrm ..))

theorem SameStore.nextPlace (s : State) (c : Nat) (b : Bool) : SameStore s (s.nextPlace c b) := by
  unfold State.nextPlace
  split
  · exact .postIssue ..
  · exact .rfl

theorem SameStore.repeatDone (s : State) (c q reps : Nat) : SameStore s (s.repeatDone c q reps) := by
  simp only [State.repeatDone]
  refine .ite (.ite (((SameStore.modStrm ..).trans (.modStrm ..)).trans (.nextPlace ..)) ((SameStore.modStrm ..).trans (.postIssue ..)))
    (.ite ((SameStore.modStrm ..).trans (.nextPlace ..)) ((SameStore.modStrm ..).trans (.engineGoOn ..)))

theorem SameStore.rowDone (s : State) (c q : Nat) (l : Bool) : SameStore s (s.rowDone c q l) := by
  simp only [State.rowDone]
  exact .ite ((SameStore.modStrm ..).trans (.engineGoOn ..)) ((SameStore.modStrm ..).trans (.postIssue ..))

theorem SameStore.commit (s : State) : SameStore s s.commit := by
  have hw : ∀ u : State, SameStore u ((List.range 5).foldl (fun t r => (s.wb.reverse.filter (fun w => w.rank == r)).foldl State.applyWrite t) u) :=
    fun u => .foldl _ (fun t r => .foldl _ (fun v w => .modCore ..) _ t) _ u
  have hs : ∀ (l : List (Nat × CycSet)) (u : State), SameStore u ((List.range 3).foldl (fun t r =>
      (l.filter (fun x => x.2.rank == r)).foldl (fun (v : State) x => v.modCore x.1 (fun k => k.applySet x.2)) t) u) :=
    fun l u => .foldl _ (fun t r => .foldl _ (fun v w => .modCore ..) _ t) _ u
  have h1 := hw { s with wb := [] }
  refine ⟨(hs _ _).mem.trans (h1.mem), (hs _ _).fuse.trans (h1.fuse)⟩

theorem SameStore.advance (s : State) (n : Nat) : SameStore s (s.advance n) := by
  unfold State.advance
  exact .ite (.trans (SameStore.commit s) ⟨Eq.refl _, Eq.refl _⟩) .rfl

theorem SameStore.beginIssue (s : State) (c : Nat) (k : Strm) : SameStore s (s.beginIssue c k) := ⟨Eq.refl _, Eq.refl _⟩
theorem SameStore.illegalWord (s : State) (c : Nat) (k : Strm) : SameStore s (s.illegalWord c k) := .raiseIn ..

/-! ### The canonical form through the operations that write memory -/

/-- A store in LPDDR keeps its canonical form. -/
theorem State.wf_memStore (s : State) (pa : Nat) (d : List Byte) (sel : List Bool) (h : Memory.wf s.mem = true) :
    Memory.wf (s.memStore pa d sel).mem = true :=
  Memory.wf_writeSel _ _ _ h
/-- So does an image put there (R402). -/
theorem State.wf_memPut (s : State) (pa n : Nat) (img : Memory) (h : Memory.wf s.mem = true) : Memory.wf (s.memPut pa n img).mem = true :=
  Memory.wf_putCells _ _ (Memory.wf_clearRange _ _ h)
/-- So does a write that performs at its home. -/
theorem State.wf_homeWriteSel (s : State) (pa : Nat) (d : List Byte) (sel : List Bool) (h : Memory.wf s.mem = true) :
    Memory.wf (s.homeWriteSel pa d sel).mem = true := by
  simp only [State.homeWriteSel]
  split
  · exact State.wf_memStore s _ d sel h
  · exact h
  · exact h
theorem State.wf_homeWrite (s : State) (pa : Nat) (d : List Byte) (h : Memory.wf s.mem = true) : Memory.wf (s.homeWrite pa d).mem = true :=
  State.wf_homeWriteSel s pa d [] h
/-- And one that carries poison. -/
theorem State.wf_homeWriteP (s : State) (pa : Nat) (d : List Byte) (sel : List Bool) (b : Bool) (h : Memory.wf s.mem = true) :
    Memory.wf (s.homeWriteP pa d sel b).mem = true := by
  have hw := State.wf_homeWriteSel s pa d sel h
  simp only [State.homeWriteP]
  split <;> exact hw
/-- A fold of steps that keep it keeps it. -/
theorem State.wf_foldl {α : Type} (f : State → α → State) (hf : ∀ s a, Memory.wf s.mem = true → Memory.wf (f s a).mem = true) (l : List α) (s : State)
    (h : Memory.wf s.mem = true) : Memory.wf (l.foldl f s).mem = true := by
  induction l generalizing s with
  | nil => exact h
  | cons a l ih => exact ih _ (hf s a h)
/-- The store of a process's bytes by the kernel keeps it. -/
theorem State.wf_procWrite (s : State) (spid va : Nat) (d : List Byte) (h : Memory.wf s.mem = true) : Memory.wf (s.procWrite spid va d).mem = true := by
  refine State.wf_foldl _ (fun t p ht => ?_) _ s h
  split
  · exact State.wf_homeWrite t _ _ ht
  · exact ht
/-- What a store leaves in its space: the selected bytes written. -/
theorem Core.space_store (k : Core) (sp a : Nat) (d : List Byte) (sel : List Bool) :
    (k.store sp a d sel).space sp = Memory.writeSel (k.space sp) a d sel := by
  have h : ∀ (m : Memory) (p : List (Nat × Nat)) (u : List (Nat × Nat × Nat)), ({ k.setSpace sp m with poison := p, upsets := u } : Core).space sp = m := by
    intro m p u
    rcases sp with _ | _ | _ | n <;> rfl
  unfold Core.store
  simp only
  split
  · exact h _ _ _
  · exact h _ _ _
/-- A store into a space of a core keeps that space canonical. -/
theorem Core.wf_store (k : Core) (sp a : Nat) (d : List Byte) (sel : List Bool) (h : Memory.wf (k.space sp) = true) :
    Memory.wf ((k.store sp a d sel).space sp) = true := by
  rw [Core.space_store]
  exact Memory.wf_writeSel a d sel h

/-! ### How a word ends -/

/-- The state that an outcome of a scalar word carries. -/
def SOut.state : SOut → State
  | .ok s _ _ | .fault s _ | .block s _ | .wait s => s
/-- A scalar word always ends in a next state, with the store its own effect left. -/
theorem finishScalar_next (c : Nat) (o : SOut) : ∃ t, finishScalar c o = .next t ∧ SameStore o.state t := by
  cases o with
  | ok s occ j => exact ⟨_, Eq.refl _, .scalarDone ..⟩
  | fault s f => exact ⟨_, Eq.refl _, .raiseIn ..⟩
  | block s sub => exact ⟨_, Eq.refl _, .blocked ..⟩
  | wait s => exact ⟨_, Eq.refl _, .rfl⟩

/-- A well-formed scalar word is its own effect. -/
theorem scalarWord_wf {i : Instr} (s : State) (f : State → Nat → SOut) (h : i.wf = true) : scalarWord i s f = finishScalar s.curCore (f s s.curCore) := by
  simp [scalarWord, h]
/-- One that is not raises ILLEGAL_INSTRUCTION. -/
theorem scalarWord_illegal {i : Instr} (s : State) (f : State → Nat → SOut) (h : i.wf = false) :
    scalarWord i s f = .next (s.raiseIn s.curCore { code := 1, kind := 255 } .scalar (s.core s.curCore).scalarEntry) := by
  simp [scalarWord, h, finishScalar, sIllegal, sfault]
/-- With no register pending, the guard lets the word through. -/
theorem guardRegs_ready {s : State} {c : Nat} {l : List Nat} (x : SOut) (h : ∀ r ∈ l, (s.core c).pendingReg r = false) : guardRegs s c l x = x := by
  unfold guardRegs
  rw [if_neg]
  simpa using h
/-- With one pending, the word waits (subcode 6). -/
theorem guardRegs_pending {s : State} {c : Nat} {l : List Nat} {r : Nat} (x : SOut) (hr : r ∈ l) (h : (s.core c).pendingReg r = true) :
    guardRegs s c l x = .block s 6 := by
  unfold guardRegs
  rw [if_pos]
  exact List.any_eq_true.2 ⟨r, hr, h⟩

/-- The state that an outcome of a repeat carries. -/
def VOut.state : VOut → State
  | .ok s _ | .fault s _ | .block s _ => s
/-- A repeat always ends in a next state, with the store its own effect left. -/
theorem finishVector_next (c reps : Nat) (o : VOut) : ∃ t, finishVector c reps o = .next t ∧ SameStore o.state t := by
  cases o with
  | ok s q => exact ⟨_, Eq.refl _, .repeatDone ..⟩
  | fault s f => exact ⟨_, Eq.refl _, .raiseIn ..⟩
  | block s sub => exact ⟨_, Eq.refl _, .blocked ..⟩

/-- The state that an outcome of a row carries. -/
def MOut.state : MOut → State
  | .ok s _ _ | .fault s _ | .block s _ | .noFormat s => s
/-- A row always ends in a next state, with the store its own effect left. -/
theorem finishMatrix_next (c : Nat) (o : MOut) : ∃ t, finishMatrix c o = .next t ∧ SameStore o.state t := by
  cases o with
  | ok s q l => exact ⟨_, Eq.refl _, .rowDone ..⟩
  | fault s f => exact ⟨_, Eq.refl _, .raiseIn ..⟩
  | block s sub => exact ⟨_, Eq.refl _, .blocked ..⟩
  | noFormat s =>
    refine ⟨_, Eq.refl _, ?_⟩
    exact .ite (.stall ..) (.raiseIn ..)

/-! ### The agenda and vectors -/

/-- What stands on the agenda after an entry is put: that entry, and what stood there. -/
@[simp] theorem mem_insertEvent (e x : Event) (l : List Event) : x ∈ insertEvent e l ↔ x = e ∨ x ∈ l := by
  induction l with
  | nil => simp [insertEvent]
  | cons y l ih =>
    simp only [insertEvent]
    split
    · simp
    · simp only [List.mem_cons, ih]
      constructor
      · rintro (h | h | h) <;> simp [h]
      · rintro (h | h | h) <;> simp [h]

/-- An element put into a vector reads back. -/
theorem vget_vset_same {α : Type} {n : Nat} (v : Vector α n) (i : Nat) (x d : α) (h : i < n) : vget (vset v i x) i d = x := by
  simp [vget, vset, h]
/-- Another element is as it was. -/
theorem vget_vset_other {α : Type} {n : Nat} (v : Vector α n) (i j : Nat) (x d : α) (h : j ≠ i) : vget (vset v i x) j d = vget v j d := by
  simp [vget, vset, Ne.symm h]
/-- A hart changed reads back. -/
@[simp] theorem State.hart_modHart (s : State) (h : Nat) (f : Hart → Hart) (hh : h < 16) : (s.modHart h f).hart h = f (s.hart h) :=
  vget_vset_same _ _ _ _ hh
/-- Another hart is as it was. -/
theorem State.hart_modHart_ne (s : State) (h j : Nat) (f : Hart → Hart) (hh : j ≠ h) : (s.modHart h f).hart j = s.hart j :=
  vget_vset_other _ _ _ _ _ hh

end Sys2Proof.Machine
end

