-- ==== Sys2Proof/Laws/PerInstr.lean ====
section
/-! SUPPORT. The per-instruction family Codec: every word the encoder writes fits the number of bits its kind of word has (R123 to R139). -/

namespace Sys2Proof.Laws.Codec

open Sys2Proof.Machine

/-- An instruction that has a word has one of the number of bits the encoder names. -/
def Statement (i : Instr) : Prop := ∀ n w, encode i = some (n, w) → w < 2 ^ n

theorem add (g : BitVec 2) (d : BitVec 5) (a : BitVec 5) (b : BitVec 5) : Statement (.add g d a b) := fun _ _ h => fits_of h (by simp only [putField_eq]; have := g.isLt; have := d.isLt; have := a.isLt; have := b.isLt; omega)
theorem sub (g : BitVec 2) (d : BitVec 5) (a : BitVec 5) (b : BitVec 5) : Statement (.sub g d a b) := fun _ _ h => fits_of h (by simp only [putField_eq]; have := g.isLt; have := d.isLt; have := a.isLt; have := b.isLt; omega)
theorem and (g : BitVec 2) (d : BitVec 5) (a : BitVec 5) (b : BitVec 5) : Statement (.and g d a b) := fun _ _ h => fits_of h (by simp only [putField_eq]; have := g.isLt; have := d.isLt; have := a.isLt; have := b.isLt; omega)
theorem or (g : BitVec 2) (d : BitVec 5) (a : BitVec 5) (b : BitVec 5) : Statement (.or g d a b) := fun _ _ h => fits_of h (by simp only [putField_eq]; have := g.isLt; have := d.isLt; have := a.isLt; have := b.isLt; omega)
theorem xor (g : BitVec 2) (d : BitVec 5) (a : BitVec 5) (b : BitVec 5) : Statement (.xor g d a b) := fun _ _ h => fits_of h (by simp only [putField_eq]; have := g.isLt; have := d.isLt; have := a.isLt; have := b.isLt; omega)
theorem sll (g : BitVec 2) (d : BitVec 5) (a : BitVec 5) (b : BitVec 5) : Statement (.sll g d a b) := fun _ _ h => fits_of h (by simp only [putField_eq]; have := g.isLt; have := d.isLt; have := a.isLt; have := b.isLt; omega)
theorem srl (g : BitVec 2) (d : BitVec 5) (a : BitVec 5) (b : BitVec 5) : Statement (.srl g d a b) := fun _ _ h => fits_of h (by simp only [putField_eq]; have := g.isLt; have := d.isLt; have := a.isLt; have := b.isLt; omega)
theorem sra (g : BitVec 2) (d : BitVec 5) (a : BitVec 5) (b : BitVec 5) : Statement (.sra g d a b) := fun _ _ h => fits_of h (by simp only [putField_eq]; have := g.isLt; have := d.isLt; have := a.isLt; have := b.isLt; omega)
theorem mul (g : BitVec 2) (d : BitVec 5) (a : BitVec 5) (b : BitVec 5) : Statement (.mul g d a b) := fun _ _ h => fits_of h (by simp only [putField_eq]; have := g.isLt; have := d.isLt; have := a.isLt; have := b.isLt; omega)
theorem mulh (g : BitVec 2) (d : BitVec 5) (a : BitVec 5) (b : BitVec 5) : Statement (.mulh g d a b) := fun _ _ h => fits_of h (by simp only [putField_eq]; have := g.isLt; have := d.isLt; have := a.isLt; have := b.isLt; omega)
theorem mulhu (g : BitVec 2) (d : BitVec 5) (a : BitVec 5) (b : BitVec 5) : Statement (.mulhu g d a b) := fun _ _ h => fits_of h (by simp only [putField_eq]; have := g.isLt; have := d.isLt; have := a.isLt; have := b.isLt; omega)
theorem div (g : BitVec 2) (d : BitVec 5) (a : BitVec 5) (b : BitVec 5) : Statement (.div g d a b) := fun _ _ h => fits_of h (by simp only [putField_eq]; have := g.isLt; have := d.isLt; have := a.isLt; have := b.isLt; omega)
theorem divu (g : BitVec 2) (d : BitVec 5) (a : BitVec 5) (b : BitVec 5) : Statement (.divu g d a b) := fun _ _ h => fits_of h (by simp only [putField_eq]; have := g.isLt; have := d.isLt; have := a.isLt; have := b.isLt; omega)
theorem rem (g : BitVec 2) (d : BitVec 5) (a : BitVec 5) (b : BitVec 5) : Statement (.rem g d a b) := fun _ _ h => fits_of h (by simp only [putField_eq]; have := g.isLt; have := d.isLt; have := a.isLt; have := b.isLt; omega)
theorem remu (g : BitVec 2) (d : BitVec 5) (a : BitVec 5) (b : BitVec 5) : Statement (.remu g d a b) := fun _ _ h => fits_of h (by simp only [putField_eq]; have := g.isLt; have := d.isLt; have := a.isLt; have := b.isLt; omega)
theorem min (g : BitVec 2) (d : BitVec 5) (a : BitVec 5) (b : BitVec 5) : Statement (.min g d a b) := fun _ _ h => fits_of h (by simp only [putField_eq]; have := g.isLt; have := d.isLt; have := a.isLt; have := b.isLt; omega)
theorem max (g : BitVec 2) (d : BitVec 5) (a : BitVec 5) (b : BitVec 5) : Statement (.max g d a b) := fun _ _ h => fits_of h (by simp only [putField_eq]; have := g.isLt; have := d.isLt; have := a.isLt; have := b.isLt; omega)
theorem minu (g : BitVec 2) (d : BitVec 5) (a : BitVec 5) (b : BitVec 5) : Statement (.minu g d a b) := fun _ _ h => fits_of h (by simp only [putField_eq]; have := g.isLt; have := d.isLt; have := a.isLt; have := b.isLt; omega)
theorem maxu (g : BitVec 2) (d : BitVec 5) (a : BitVec 5) (b : BitVec 5) : Statement (.maxu g d a b) := fun _ _ h => fits_of h (by simp only [putField_eq]; have := g.isLt; have := d.isLt; have := a.isLt; have := b.isLt; omega)
theorem clz (g : BitVec 2) (d : BitVec 5) (a : BitVec 5) : Statement (.clz g d a) := fun _ _ h => fits_of h (by simp only [putField_eq]; have := g.isLt; have := d.isLt; have := a.isLt; omega)
theorem ctz (g : BitVec 2) (d : BitVec 5) (a : BitVec 5) : Statement (.ctz g d a) := fun _ _ h => fits_of h (by simp only [putField_eq]; have := g.isLt; have := d.isLt; have := a.isLt; omega)
theorem popc (g : BitVec 2) (d : BitVec 5) (a : BitVec 5) : Statement (.popc g d a) := fun _ _ h => fits_of h (by simp only [putField_eq]; have := g.isLt; have := d.isLt; have := a.isLt; omega)
theorem addw (g : BitVec 2) (d : BitVec 5) (a : BitVec 5) (b : BitVec 5) : Statement (.addw g d a b) := fun _ _ h => fits_of h (by simp only [putField_eq]; have := g.isLt; have := d.isLt; have := a.isLt; have := b.isLt; omega)
theorem subw (g : BitVec 2) (d : BitVec 5) (a : BitVec 5) (b : BitVec 5) : Statement (.subw g d a b) := fun _ _ h => fits_of h (by simp only [putField_eq]; have := g.isLt; have := d.isLt; have := a.isLt; have := b.isLt; omega)
theorem andn (g : BitVec 2) (d : BitVec 5) (a : BitVec 5) (b : BitVec 5) : Statement (.andn g d a b) := fun _ _ h => fits_of h (by simp only [putField_eq]; have := g.isLt; have := d.isLt; have := a.isLt; have := b.isLt; omega)
theorem addi (g : BitVec 2) (d : BitVec 5) (a : BitVec 5) (i : BitVec 14) : Statement (.addi g d a i) := fun _ _ h => fits_of h (by simp only [putField_eq]; have := g.isLt; have := d.isLt; have := a.isLt; have := i.isLt; omega)
theorem andi (g : BitVec 2) (d : BitVec 5) (a : BitVec 5) (i : BitVec 14) : Statement (.andi g d a i) := fun _ _ h => fits_of h (by simp only [putField_eq]; have := g.isLt; have := d.isLt; have := a.isLt; have := i.isLt; omega)
theorem ori (g : BitVec 2) (d : BitVec 5) (a : BitVec 5) (i : BitVec 14) : Statement (.ori g d a i) := fun _ _ h => fits_of h (by simp only [putField_eq]; have := g.isLt; have := d.isLt; have := a.isLt; have := i.isLt; omega)
theorem xori (g : BitVec 2) (d : BitVec 5) (a : BitVec 5) (i : BitVec 14) : Statement (.xori g d a i) := fun _ _ h => fits_of h (by simp only [putField_eq]; have := g.isLt; have := d.isLt; have := a.isLt; have := i.isLt; omega)
theorem slli (g : BitVec 2) (d : BitVec 5) (a : BitVec 5) (n : BitVec 6) : Statement (.slli g d a n) := fun _ _ h => fits_of h (by simp only [putField_eq]; have := g.isLt; have := d.isLt; have := a.isLt; have := n.isLt; omega)
theorem srli (g : BitVec 2) (d : BitVec 5) (a : BitVec 5) (n : BitVec 6) : Statement (.srli g d a n) := fun _ _ h => fits_of h (by simp only [putField_eq]; have := g.isLt; have := d.isLt; have := a.isLt; have := n.isLt; omega)
theorem srai (g : BitVec 2) (d : BitVec 5) (a : BitVec 5) (n : BitVec 6) : Statement (.srai g d a n) := fun _ _ h => fits_of h (by simp only [putField_eq]; have := g.isLt; have := d.isLt; have := a.isLt; have := n.isLt; omega)
theorem lhi (g : BitVec 2) (d : BitVec 5) (i : BitVec 19) : Statement (.lhi g d i) := fun _ _ h => fits_of h (by simp only [putField_eq]; have := g.isLt; have := d.isLt; have := i.isLt; omega)
theorem addpc (g : BitVec 2) (d : BitVec 5) (i : BitVec 19) : Statement (.addpc g d i) := fun _ _ h => fits_of h (by simp only [putField_eq]; have := g.isLt; have := d.isLt; have := i.isLt; omega)
theorem fadd (g : BitVec 2) (d : BitVec 5) (a : BitVec 5) (b : BitVec 5) : Statement (.fadd g d a b) := fun _ _ h => fits_of h (by simp only [putField_eq]; have := g.isLt; have := d.isLt; have := a.isLt; have := b.isLt; omega)
theorem fsub (g : BitVec 2) (d : BitVec 5) (a : BitVec 5) (b : BitVec 5) : Statement (.fsub g d a b) := fun _ _ h => fits_of h (by simp only [putField_eq]; have := g.isLt; have := d.isLt; have := a.isLt; have := b.isLt; omega)
theorem fmul (g : BitVec 2) (d : BitVec 5) (a : BitVec 5) (b : BitVec 5) : Statement (.fmul g d a b) := fun _ _ h => fits_of h (by simp only [putField_eq]; have := g.isLt; have := d.isLt; have := a.isLt; have := b.isLt; omega)
theorem fdiv (g : BitVec 2) (d : BitVec 5) (a : BitVec 5) (b : BitVec 5) : Statement (.fdiv g d a b) := fun _ _ h => fits_of h (by simp only [putField_eq]; have := g.isLt; have := d.isLt; have := a.isLt; have := b.isLt; omega)
theorem fsqrt (g : BitVec 2) (d : BitVec 5) (a : BitVec 5) : Statement (.fsqrt g d a) := fun _ _ h => fits_of h (by simp only [putField_eq]; have := g.isLt; have := d.isLt; have := a.isLt; omega)
theorem fmin (g : BitVec 2) (d : BitVec 5) (a : BitVec 5) (b : BitVec 5) : Statement (.fmin g d a b) := fun _ _ h => fits_of h (by simp only [putField_eq]; have := g.isLt; have := d.isLt; have := a.isLt; have := b.isLt; omega)
theorem fmax (g : BitVec 2) (d : BitVec 5) (a : BitVec 5) (b : BitVec 5) : Statement (.fmax g d a b) := fun _ _ h => fits_of h (by simp only [putField_eq]; have := g.isLt; have := d.isLt; have := a.isLt; have := b.isLt; omega)
theorem fsgnj (g : BitVec 2) (d : BitVec 5) (a : BitVec 5) (b : BitVec 5) : Statement (.fsgnj g d a b) := fun _ _ h => fits_of h (by simp only [putField_eq]; have := g.isLt; have := d.isLt; have := a.isLt; have := b.isLt; omega)
theorem fsgnn (g : BitVec 2) (d : BitVec 5) (a : BitVec 5) (b : BitVec 5) : Statement (.fsgnn g d a b) := fun _ _ h => fits_of h (by simp only [putField_eq]; have := g.isLt; have := d.isLt; have := a.isLt; have := b.isLt; omega)
theorem fsgnx (g : BitVec 2) (d : BitVec 5) (a : BitVec 5) (b : BitVec 5) : Statement (.fsgnx g d a b) := fun _ _ h => fits_of h (by simp only [putField_eq]; have := g.isLt; have := d.isLt; have := a.isLt; have := b.isLt; omega)
theorem fcvti (g : BitVec 2) (d : BitVec 5) (a : BitVec 5) : Statement (.fcvti g d a) := fun _ _ h => fits_of h (by simp only [putField_eq]; have := g.isLt; have := d.isLt; have := a.isLt; omega)
theorem icvtf (g : BitVec 2) (d : BitVec 5) (a : BitVec 5) : Statement (.icvtf g d a) := fun _ _ h => fits_of h (by simp only [putField_eq]; have := g.isLt; have := d.isLt; have := a.isLt; omega)
theorem ftobf (g : BitVec 2) (d : BitVec 5) (a : BitVec 5) : Statement (.ftobf g d a) := fun _ _ h => fits_of h (by simp only [putField_eq]; have := g.isLt; have := d.isLt; have := a.isLt; omega)
theorem bftof (g : BitVec 2) (d : BitVec 5) (a : BitVec 5) : Statement (.bftof g d a) := fun _ _ h => fits_of h (by simp only [putField_eq]; have := g.isLt; have := d.isLt; have := a.isLt; omega)
theorem fclass (g : BitVec 2) (d : BitVec 5) (a : BitVec 5) : Statement (.fclass g d a) := fun _ _ h => fits_of h (by simp only [putField_eq]; have := g.isLt; have := d.isLt; have := a.isLt; omega)
theorem fma (g : BitVec 2) (d : BitVec 5) (a : BitVec 5) (b : BitVec 5) (c : BitVec 5) : Statement (.fma g d a b c) := fun _ _ h => fits_of h (by simp only [putField_eq]; have := g.isLt; have := d.isLt; have := a.isLt; have := b.isLt; have := c.isLt; omega)
theorem fms (g : BitVec 2) (d : BitVec 5) (a : BitVec 5) (b : BitVec 5) (c : BitVec 5) : Statement (.fms g d a b c) := fun _ _ h => fits_of h (by simp only [putField_eq]; have := g.isLt; have := d.isLt; have := a.isLt; have := b.isLt; have := c.isLt; omega)
theorem fnma (g : BitVec 2) (d : BitVec 5) (a : BitVec 5) (b : BitVec 5) (c : BitVec 5) : Statement (.fnma g d a b c) := fun _ _ h => fits_of h (by simp only [putField_eq]; have := g.isLt; have := d.isLt; have := a.isLt; have := b.isLt; have := c.isLt; omega)
theorem fnms (g : BitVec 2) (d : BitVec 5) (a : BitVec 5) (b : BitVec 5) (c : BitVec 5) : Statement (.fnms g d a b c) := fun _ _ h => fits_of h (by simp only [putField_eq]; have := g.isLt; have := d.isLt; have := a.isLt; have := b.isLt; have := c.isLt; omega)
theorem cmp (g : BitVec 2) (b : BitVec 4) (c : BitVec 4) (a : BitVec 5) (r : BitVec 5) (m : BitVec 2) : Statement (.cmp g b c a r m) := fun _ _ h => fits_of h (by simp only [putField_eq]; have := g.isLt; have := b.isLt; have := c.isLt; have := a.isLt; have := r.isLt; have := m.isLt; omega)
theorem cmpi (g : BitVec 2) (b : BitVec 4) (c : BitVec 4) (a : BitVec 5) (m : BitVec 2) (i : BitVec 9) : Statement (.cmpi g b c a m i) := fun _ _ h => fits_of h (by simp only [putField_eq]; have := g.isLt; have := b.isLt; have := c.isLt; have := a.isLt; have := m.isLt; have := i.isLt; omega)
theorem fcmp (g : BitVec 2) (b : BitVec 4) (c : BitVec 4) (a : BitVec 5) (r : BitVec 5) (m : BitVec 2) : Statement (.fcmp g b c a r m) := fun _ _ h => fits_of h (by simp only [putField_eq]; have := g.isLt; have := b.isLt; have := c.isLt; have := a.isLt; have := r.isLt; have := m.isLt; omega)
theorem cand (g : BitVec 2) (b : BitVec 4) (x : BitVec 4) (y : BitVec 4) : Statement (.cand g b x y) := fun _ _ h => fits_of h (by simp only [putField_eq]; have := g.isLt; have := b.isLt; have := x.isLt; have := y.isLt; omega)
theorem cor (g : BitVec 2) (b : BitVec 4) (x : BitVec 4) (y : BitVec 4) : Statement (.cor g b x y) := fun _ _ h => fits_of h (by simp only [putField_eq]; have := g.isLt; have := b.isLt; have := x.isLt; have := y.isLt; omega)
theorem cxor (g : BitVec 2) (b : BitVec 4) (x : BitVec 4) (y : BitVec 4) : Statement (.cxor g b x y) := fun _ _ h => fits_of h (by simp only [putField_eq]; have := g.isLt; have := b.isLt; have := x.isLt; have := y.isLt; omega)
theorem candn (g : BitVec 2) (b : BitVec 4) (x : BitVec 4) (y : BitVec 4) : Statement (.candn g b x y) := fun _ _ h => fits_of h (by simp only [putField_eq]; have := g.isLt; have := b.isLt; have := x.isLt; have := y.isLt; omega)
theorem cnot (g : BitVec 2) (b : BitVec 4) (x : BitVec 4) : Statement (.cnot g b x) := fun _ _ h => fits_of h (by simp only [putField_eq]; have := g.isLt; have := b.isLt; have := x.isLt; omega)
theorem ctrue (g : BitVec 2) (b : BitVec 4) : Statement (.ctrue g b) := fun _ _ h => fits_of h (by simp only [putField_eq]; have := g.isLt; have := b.isLt; omega)
theorem cfalse (g : BitVec 2) (b : BitVec 4) : Statement (.cfalse g b) := fun _ _ h => fits_of h (by simp only [putField_eq]; have := g.isLt; have := b.isLt; omega)
theorem cmove (g : BitVec 2) (b : BitVec 4) (x : BitVec 4) : Statement (.cmove g b x) := fun _ _ h => fits_of h (by simp only [putField_eq]; have := g.isLt; have := b.isLt; have := x.isLt; omega)
theorem csave (g : BitVec 2) (d : BitVec 5) : Statement (.csave g d) := fun _ _ h => fits_of h (by simp only [putField_eq]; have := g.isLt; have := d.isLt; omega)
theorem cload (g : BitVec 2) (a : BitVec 5) : Statement (.cload g a) := fun _ _ h => fits_of h (by simp only [putField_eq]; have := g.isLt; have := a.isLt; omega)
theorem prep (g : BitVec 2) (b : BitVec 4) (o : BitVec 20) : Statement (.prep g b o) := fun _ _ h => fits_of h (by simp only [putField_eq]; have := g.isLt; have := b.isLt; have := o.isLt; omega)
theorem prepr (g : BitVec 2) (b : BitVec 4) (a : BitVec 5) : Statement (.prepr g b a) := fun _ _ h => fits_of h (by simp only [putField_eq]; have := g.isLt; have := b.isLt; have := a.isLt; omega)
theorem br (g : BitVec 2) (b : BitVec 4) : Statement (.br g b) := fun _ _ h => fits_of h (by simp only [putField_eq]; have := g.isLt; have := b.isLt; omega)
theorem brn (g : BitVec 2) (b : BitVec 4) : Statement (.brn g b) := fun _ _ h => fits_of h (by simp only [putField_eq]; have := g.isLt; have := b.isLt; omega)
theorem jmp (g : BitVec 2) (b : BitVec 4) : Statement (.jmp g b) := fun _ _ h => fits_of h (by simp only [putField_eq]; have := g.isLt; have := b.isLt; omega)
theorem call (g : BitVec 2) (b : BitVec 4) : Statement (.call g b) := fun _ _ h => fits_of h (by simp only [putField_eq]; have := g.isLt; have := b.isLt; omega)
theorem ret (g : BitVec 2) : Statement (.ret g) := fun _ _ h => fits_of h (by simp only [putField_eq]; have := g.isLt; omega)
theorem loop (g : BitVec 2) (p : BitVec 2) (c : BitVec 5) (l : BitVec 17) : Statement (.loop g p c l) := fun _ _ h => fits_of h (by simp only [putField_eq]; have := g.isLt; have := p.isLt; have := c.isLt; have := l.isLt; omega)
theorem loopi (g : BitVec 2) (p : BitVec 2) (n : BitVec 10) (l : BitVec 12) : Statement (.loopi g p n l) := fun _ _ h => fits_of h (by simp only [putField_eq]; have := g.isLt; have := p.isLt; have := n.isLt; have := l.isLt; omega)
theorem lprw (g : BitVec 2) (r : BitVec 5) (p : BitVec 2) (t : BitVec 2) (w : BitVec 1) : Statement (.lprw g r p t w) := fun _ _ h => fits_of h (by simp only [putField_eq]; have := g.isLt; have := r.isLt; have := p.isLt; have := t.isLt; have := w.isLt; omega)
theorem lda (g : BitVec 2) (d : BitVec 5) (a : BitVec 5) (s : BitVec 2) (p : BitVec 1) (i : BitVec 11) : Statement (.lda g d a s p i) := fun _ _ h => fits_of h (by simp only [putField_eq]; have := g.isLt; have := d.isLt; have := a.isLt; have := s.isLt; have := p.isLt; have := i.isLt; omega)
theorem ldau (g : BitVec 2) (d : BitVec 5) (a : BitVec 5) (s : BitVec 2) (p : BitVec 1) (i : BitVec 11) : Statement (.ldau g d a s p i) := fun _ _ h => fits_of h (by simp only [putField_eq]; have := g.isLt; have := d.isLt; have := a.isLt; have := s.isLt; have := p.isLt; have := i.isLt; omega)
theorem sta (g : BitVec 2) (r : BitVec 5) (a : BitVec 5) (s : BitVec 2) (p : BitVec 1) (i : BitVec 11) : Statement (.sta g r a s p i) := fun _ _ h => fits_of h (by simp only [putField_eq]; have := g.isLt; have := r.isLt; have := a.isLt; have := s.isLt; have := p.isLt; have := i.isLt; omega)
theorem ldg (g : BitVec 2) (d : BitVec 5) (a : BitVec 5) (s : BitVec 2) (p : BitVec 1) (i : BitVec 11) : Statement (.ldg g d a s p i) := fun _ _ h => fits_of h (by simp only [putField_eq]; have := g.isLt; have := d.isLt; have := a.isLt; have := s.isLt; have := p.isLt; have := i.isLt; omega)
theorem ldgu (g : BitVec 2) (d : BitVec 5) (a : BitVec 5) (s : BitVec 2) (p : BitVec 1) (i : BitVec 11) : Statement (.ldgu g d a s p i) := fun _ _ h => fits_of h (by simp only [putField_eq]; have := g.isLt; have := d.isLt; have := a.isLt; have := s.isLt; have := p.isLt; have := i.isLt; omega)
theorem stg (g : BitVec 2) (r : BitVec 5) (a : BitVec 5) (s : BitVec 2) (p : BitVec 1) (i : BitVec 11) : Statement (.stg g r a s p i) := fun _ _ h => fits_of h (by simp only [putField_eq]; have := g.isLt; have := r.isLt; have := a.isLt; have := s.isLt; have := p.isLt; have := i.isLt; omega)
theorem enter (g : BitVec 2) (n : BitVec 16) : Statement (.enter g n) := fun _ _ h => fits_of h (by simp only [putField_eq]; have := g.isLt; have := n.isLt; omega)
theorem leave (g : BitVec 2) (n : BitVec 16) : Statement (.leave g n) := fun _ _ h => fits_of h (by simp only [putField_eq]; have := g.isLt; have := n.isLt; omega)
theorem amoadd (g : BitVec 2) (d : BitVec 5) (a : BitVec 5) (b : BitVec 5) (s : BitVec 1) : Statement (.amoadd g d a b s) := fun _ _ h => fits_of h (by simp only [putField_eq]; have := g.isLt; have := d.isLt; have := a.isLt; have := b.isLt; have := s.isLt; omega)
theorem amomin (g : BitVec 2) (d : BitVec 5) (a : BitVec 5) (b : BitVec 5) (s : BitVec 1) : Statement (.amomin g d a b s) := fun _ _ h => fits_of h (by simp only [putField_eq]; have := g.isLt; have := d.isLt; have := a.isLt; have := b.isLt; have := s.isLt; omega)
theorem amomax (g : BitVec 2) (d : BitVec 5) (a : BitVec 5) (b : BitVec 5) (s : BitVec 1) : Statement (.amomax g d a b s) := fun _ _ h => fits_of h (by simp only [putField_eq]; have := g.isLt; have := d.isLt; have := a.isLt; have := b.isLt; have := s.isLt; omega)
theorem amominu (g : BitVec 2) (d : BitVec 5) (a : BitVec 5) (b : BitVec 5) (s : BitVec 1) : Statement (.amominu g d a b s) := fun _ _ h => fits_of h (by simp only [putField_eq]; have := g.isLt; have := d.isLt; have := a.isLt; have := b.isLt; have := s.isLt; omega)
theorem amomaxu (g : BitVec 2) (d : BitVec 5) (a : BitVec 5) (b : BitVec 5) (s : BitVec 1) : Statement (.amomaxu g d a b s) := fun _ _ h => fits_of h (by simp only [putField_eq]; have := g.isLt; have := d.isLt; have := a.isLt; have := b.isLt; have := s.isLt; omega)
theorem amoand (g : BitVec 2) (d : BitVec 5) (a : BitVec 5) (b : BitVec 5) (s : BitVec 1) : Statement (.amoand g d a b s) := fun _ _ h => fits_of h (by simp only [putField_eq]; have := g.isLt; have := d.isLt; have := a.isLt; have := b.isLt; have := s.isLt; omega)
theorem amoor (g : BitVec 2) (d : BitVec 5) (a : BitVec 5) (b : BitVec 5) (s : BitVec 1) : Statement (.amoor g d a b s) := fun _ _ h => fits_of h (by simp only [putField_eq]; have := g.isLt; have := d.isLt; have := a.isLt; have := b.isLt; have := s.isLt; omega)
theorem amoxor (g : BitVec 2) (d : BitVec 5) (a : BitVec 5) (b : BitVec 5) (s : BitVec 1) : Statement (.amoxor g d a b s) := fun _ _ h => fits_of h (by simp only [putField_eq]; have := g.isLt; have := d.isLt; have := a.isLt; have := b.isLt; have := s.isLt; omega)
theorem amoswap (g : BitVec 2) (d : BitVec 5) (a : BitVec 5) (b : BitVec 5) (s : BitVec 1) : Statement (.amoswap g d a b s) := fun _ _ h => fits_of h (by simp only [putField_eq]; have := g.isLt; have := d.isLt; have := a.isLt; have := b.isLt; have := s.isLt; omega)
theorem amofadd (g : BitVec 2) (d : BitVec 5) (a : BitVec 5) (b : BitVec 5) : Statement (.amofadd g d a b) := fun _ _ h => fits_of h (by simp only [putField_eq]; have := g.isLt; have := d.isLt; have := a.isLt; have := b.isLt; omega)
theorem cas (g : BitVec 2) (d : BitVec 5) (a : BitVec 5) (b : BitVec 5) (c : BitVec 5) (s : BitVec 1) : Statement (.cas g d a b c s) := fun _ _ h => fits_of h (by simp only [putField_eq]; have := g.isLt; have := d.isLt; have := a.isLt; have := b.isLt; have := c.isLt; have := s.isLt; omega)
theorem qpush (g : BitVec 2) (r : BitVec 5) (q : BitVec 4) : Statement (.qpush g r q) := fun _ _ h => fits_of h (by simp only [putField_eq]; have := g.isLt; have := r.isLt; have := q.isLt; omega)
theorem qpop (g : BitVec 2) (r : BitVec 5) (q : BitVec 4) : Statement (.qpop g r q) := fun _ _ h => fits_of h (by simp only [putField_eq]; have := g.isLt; have := r.isLt; have := q.isLt; omega)
theorem qpeek (g : BitVec 2) (r : BitVec 5) (q : BitVec 4) : Statement (.qpeek g r q) := fun _ _ h => fits_of h (by simp only [putField_eq]; have := g.isLt; have := r.isLt; have := q.isLt; omega)
theorem qcnt (g : BitVec 2) (r : BitVec 5) (q : BitVec 4) : Statement (.qcnt g r q) := fun _ _ h => fits_of h (by simp only [putField_eq]; have := g.isLt; have := r.isLt; have := q.isLt; omega)
theorem blk (g : BitVec 2) (q : BitVec 1) (s : BitVec 1) (t : BitVec 3) (n : BitVec 6) (a : BitVec 13) : Statement (.blk g q s t n a) := fun _ _ h => fits_of h (by simp only [putField_eq]; have := g.isLt; have := q.isLt; have := s.isLt; have := t.isLt; have := n.isLt; have := a.isLt; omega)
theorem wait (g : BitVec 2) (n : BitVec 24) : Statement (.wait g n) := fun _ _ h => fits_of h (by simp only [putField_eq]; have := g.isLt; have := n.isLt; omega)
theorem anchor (g : BitVec 2) : Statement (.anchor g) := fun _ _ h => fits_of h (by simp only [putField_eq]; have := g.isLt; omega)
theorem tnow (g : BitVec 2) (d : BitVec 5) : Statement (.tnow g d) := fun _ _ h => fits_of h (by simp only [putField_eq]; have := g.isLt; have := d.isLt; omega)
theorem bnow (g : BitVec 2) (d : BitVec 5) : Statement (.bnow g d) := fun _ _ h => fits_of h (by simp only [putField_eq]; have := g.isLt; have := d.isLt; omega)
theorem btset (g : BitVec 2) (a : BitVec 5) : Statement (.btset g a) := fun _ _ h => fits_of h (by simp only [putField_eq]; have := g.isLt; have := a.isLt; omega)
theorem cpy (g : BitVec 2) (a : BitVec 5) : Statement (.cpy g a) := fun _ _ h => fits_of h (by simp only [putField_eq]; have := g.isLt; have := a.isLt; omega)
theorem cpys (g : BitVec 2) (a : BitVec 5) (b : BitVec 5) : Statement (.cpys g a b) := fun _ _ h => fits_of h (by simp only [putField_eq]; have := g.isLt; have := a.isLt; have := b.isLt; omega)
theorem drain (g : BitVec 2) (p : BitVec 4) : Statement (.drain g p) := fun _ _ h => fits_of h (by simp only [putField_eq]; have := g.isLt; have := p.isLt; omega)
theorem bkrun (g : BitVec 2) (a : BitVec 5) (k : BitVec 3) (p : BitVec 1) : Statement (.bkrun g a k p) := fun _ _ h => fits_of h (by simp only [putField_eq]; have := g.isLt; have := a.isLt; have := k.isLt; have := p.isLt; omega)
theorem bklode (g : BitVec 2) (a : BitVec 5) (k : BitVec 3) (p : BitVec 1) : Statement (.bklode g a k p) := fun _ _ h => fits_of h (by simp only [putField_eq]; have := g.isLt; have := a.isLt; have := k.isLt; have := p.isLt; omega)
theorem bkcal (g : BitVec 2) (a : BitVec 5) (k : BitVec 3) (p : BitVec 1) : Statement (.bkcal g a k p) := fun _ _ h => fits_of h (by simp only [putField_eq]; have := g.isLt; have := a.isLt; have := k.isLt; have := p.isLt; omega)
theorem bkst (g : BitVec 2) (d : BitVec 5) (b : BitVec 5) : Statement (.bkst g d b) := fun _ _ h => fits_of h (by simp only [putField_eq]; have := g.isLt; have := d.isLt; have := b.isLt; omega)
theorem mlease (g : BitVec 2) (n : BitVec 8) : Statement (.mlease g n) := fun _ _ h => fits_of h (by simp only [putField_eq]; have := g.isLt; have := n.isLt; omega)
theorem mfree (g : BitVec 2) : Statement (.mfree g) := fun _ _ h => fits_of h (by simp only [putField_eq]; have := g.isLt; omega)
theorem scommit (g : BitVec 2) (t : BitVec 3) : Statement (.scommit g t) := fun _ _ h => fits_of h (by simp only [putField_eq]; have := g.isLt; have := t.isLt; omega)
theorem sdrop (g : BitVec 2) (t : BitVec 3) : Statement (.sdrop g t) := fun _ _ h => fits_of h (by simp only [putField_eq]; have := g.isLt; have := t.isLt; omega)
theorem bar (g : BitVec 2) (d : BitVec 4) (n : BitVec 6) : Statement (.bar g d n) := fun _ _ h => fits_of h (by simp only [putField_eq]; have := g.isLt; have := d.isLt; have := n.isLt; omega)
theorem bara (g : BitVec 2) (d : BitVec 4) (n : BitVec 6) : Statement (.bara g d n) := fun _ _ h => fits_of h (by simp only [putField_eq]; have := g.isLt; have := d.isLt; have := n.isLt; omega)
theorem barw (g : BitVec 2) (d : BitVec 4) (n : BitVec 6) : Statement (.barw g d n) := fun _ _ h => fits_of h (by simp only [putField_eq]; have := g.isLt; have := d.isLt; have := n.isLt; omega)
theorem fence (g : BitVec 2) (d : BitVec 4) (c : BitVec 4) : Statement (.fence g d c) := fun _ _ h => fits_of h (by simp only [putField_eq]; have := g.isLt; have := d.isLt; have := c.isLt; omega)
theorem waitm (g : BitVec 2) (a : BitVec 5) (b : BitVec 5) (s : BitVec 2) (c : BitVec 3) : Statement (.waitm g a b s c) := fun _ _ h => fits_of h (by simp only [putField_eq]; have := g.isLt; have := a.isLt; have := b.isLt; have := s.isLt; have := c.isLt; omega)
theorem ttset (g : BitVec 2) (e : BitVec 6) (a : BitVec 5) : Statement (.ttset g e a) := fun _ _ h => fits_of h (by simp only [putField_eq]; have := g.isLt; have := e.isLt; have := a.isLt; omega)
theorem trdy (g : BitVec 2) (e : BitVec 6) : Statement (.trdy g e) := fun _ _ h => fits_of h (by simp only [putField_eq]; have := g.isLt; have := e.isLt; omega)
theorem sbset (g : BitVec 2) (a : BitVec 5) : Statement (.sbset g a) := fun _ _ h => fits_of h (by simp only [putField_eq]; have := g.isLt; have := a.isLt; omega)
theorem sbarm (g : BitVec 2) (t : BitVec 3) (a : BitVec 5) (b : BitVec 5) : Statement (.sbarm g t a b) := fun _ _ h => fits_of h (by simp only [putField_eq]; have := g.isLt; have := t.isLt; have := a.isLt; have := b.isLt; omega)
theorem clx (g : BitVec 2) (e : BitVec 6) (a : BitVec 5) : Statement (.clx g e a) := fun _ _ h => fits_of h (by simp only [putField_eq]; have := g.isLt; have := e.isLt; have := a.isLt; omega)
theorem dsadmit (g : BitVec 2) (d : BitVec 5) : Statement (.dsadmit g d) := fun _ _ h => fits_of h (by simp only [putField_eq]; have := g.isLt; have := d.isLt; omega)
theorem dsemit (g : BitVec 2) (a : BitVec 5) : Statement (.dsemit g a) := fun _ _ h => fits_of h (by simp only [putField_eq]; have := g.isLt; have := a.isLt; omega)
theorem dstrunc (g : BitVec 2) (d : BitVec 5) : Statement (.dstrunc g d) := fun _ _ h => fits_of h (by simp only [putField_eq]; have := g.isLt; have := d.isLt; omega)
theorem dscur (g : BitVec 2) (d : BitVec 5) (c : BitVec 2) : Statement (.dscur g d c) := fun _ _ h => fits_of h (by simp only [putField_eq]; have := g.isLt; have := d.isLt; have := c.isLt; omega)
theorem kvinv (g : BitVec 2) (a : BitVec 5) (b : BitVec 5) : Statement (.kvinv g a b) := fun _ _ h => fits_of h (by simp only [putField_eq]; have := g.isLt; have := a.isLt; have := b.isLt; omega)
theorem kvaccept (g : BitVec 2) (a : BitVec 5) (b : BitVec 5) : Statement (.kvaccept g a b) := fun _ _ h => fits_of h (by simp only [putField_eq]; have := g.isLt; have := a.isLt; have := b.isLt; omega)
theorem kvcommit (g : BitVec 2) (d : BitVec 5) : Statement (.kvcommit g d) := fun _ _ h => fits_of h (by simp only [putField_eq]; have := g.isLt; have := d.isLt; omega)
theorem nop (g : BitVec 2) : Statement (.nop g) := fun _ _ h => fits_of h (by simp only [putField_eq]; have := g.isLt; omega)
theorem trap (g : BitVec 2) (n : BitVec 15) : Statement (.trap g n) := fun _ _ h => fits_of h (by simp only [putField_eq]; have := g.isLt; have := n.isLt; omega)
theorem gets (g : BitVec 2) (d : BitVec 5) (s : BitVec 11) (l : BitVec 4) : Statement (.gets g d s l) := fun _ _ h => fits_of h (by simp only [putField_eq]; have := g.isLt; have := d.isLt; have := s.isLt; have := l.isLt; omega)
theorem puts (g : BitVec 2) (r : BitVec 5) (s : BitVec 11) (l : BitVec 4) : Statement (.puts g r s l) := fun _ _ h => fits_of h (by simp only [putField_eq]; have := g.isLt; have := r.isLt; have := s.isLt; have := l.isLt; omega)
theorem bkpt (g : BitVec 2) (n : BitVec 15) : Statement (.bkpt g n) := fun _ _ h => fits_of h (by simp only [putField_eq]; have := g.isLt; have := n.isLt; omega)
theorem swap (g : BitVec 2) (a : BitVec 5) (m : BitVec 9) : Statement (.swap g a m) := fun _ _ h => fits_of h (by simp only [putField_eq]; have := g.isLt; have := a.isLt; have := m.isLt; omega)
theorem halt (g : BitVec 2) (m : BitVec 9) : Statement (.halt g m) := fun _ _ h => fits_of h (by simp only [putField_eq]; have := g.isLt; have := m.isLt; omega)
theorem mv (src : BitVec 8) (dst : BitVec 8) (imm : BitVec 16) : Statement (.mv src dst imm) := fun _ _ h => fits_of h (by simp only [putField_eq]; have := src.isLt; have := dst.isLt; have := imm.isLt; omega)
theorem ktlbi (b : BitVec 5) (a : BitVec 5) : Statement (.ktlbi b a) := fun _ _ h => fits_of h (by simp only [putField_eq]; have := b.isLt; have := a.isLt; omega)
theorem kresume (a : BitVec 5) : Statement (.kresume a) := fun _ _ h => fits_of h (by simp only [putField_eq]; have := a.isLt; omega)
theorem vmov (v : VWord) : Statement (.vmov v) := fun _ _ h => fits_of h (putVWord_lt _ v (by decide))
theorem vadd (v : VWord) : Statement (.vadd v) := fun _ _ h => fits_of h (putVWord_lt _ v (by decide))
theorem vsub (v : VWord) : Statement (.vsub v) := fun _ _ h => fits_of h (putVWord_lt _ v (by decide))
theorem vmul (v : VWord) : Statement (.vmul v) := fun _ _ h => fits_of h (putVWord_lt _ v (by decide))
theorem vfma (v : VWord) : Statement (.vfma v) := fun _ _ h => fits_of h (putVWord_lt _ v (by decide))
theorem vfms (v : VWord) : Statement (.vfms v) := fun _ _ h => fits_of h (putVWord_lt _ v (by decide))
theorem vmin (v : VWord) : Statement (.vmin v) := fun _ _ h => fits_of h (putVWord_lt _ v (by decide))
theorem vmax (v : VWord) : Statement (.vmax v) := fun _ _ h => fits_of h (putVWord_lt _ v (by decide))
theorem vabs (v : VWord) : Statement (.vabs v) := fun _ _ h => fits_of h (putVWord_lt _ v (by decide))
theorem vneg (v : VWord) : Statement (.vneg v) := fun _ _ h => fits_of h (putVWord_lt _ v (by decide))
theorem vadds (v : VWord) : Statement (.vadds v) := fun _ _ h => fits_of h (putVWord_lt _ v (by decide))
theorem vsubs (v : VWord) : Statement (.vsubs v) := fun _ _ h => fits_of h (putVWord_lt _ v (by decide))
theorem vmulh (v : VWord) : Statement (.vmulh v) := fun _ _ h => fits_of h (putVWord_lt _ v (by decide))
theorem vand (v : VWord) : Statement (.vand v) := fun _ _ h => fits_of h (putVWord_lt _ v (by decide))
theorem vor (v : VWord) : Statement (.vor v) := fun _ _ h => fits_of h (putVWord_lt _ v (by decide))
theorem vxor (v : VWord) : Statement (.vxor v) := fun _ _ h => fits_of h (putVWord_lt _ v (by decide))
theorem vnot (v : VWord) : Statement (.vnot v) := fun _ _ h => fits_of h (putVWord_lt _ v (by decide))
theorem vshl (v : VWord) : Statement (.vshl v) := fun _ _ h => fits_of h (putVWord_lt _ v (by decide))
theorem vshr (v : VWord) : Statement (.vshr v) := fun _ _ h => fits_of h (putVWord_lt _ v (by decide))
theorem vsar (v : VWord) : Statement (.vsar v) := fun _ _ h => fits_of h (putVWord_lt _ v (by decide))
theorem vsel (v : VWord) : Statement (.vsel v) := fun _ _ h => fits_of h (putVWord_lt _ v (by decide))
theorem vcmp (v : VWord) : Statement (.vcmp v) := fun _ _ h => fits_of h (putVWord_lt _ v (by decide))
theorem vclamp (v : VWord) : Statement (.vclamp v) := fun _ _ h => fits_of h (putVWord_lt _ v (by decide))
theorem vdot4 (v : VWord) : Statement (.vdot4 v) := fun _ _ h => fits_of h (putVWord_lt _ v (by decide))
theorem vtacc (v : VWord) : Statement (.vtacc v) := fun _ _ h => fits_of h (putVWord_lt _ v (by decide))
theorem vrsum (v : VWord) : Statement (.vrsum v) := fun _ _ h => fits_of h (putVWord_lt _ v (by decide))
theorem vrmax (v : VWord) : Statement (.vrmax v) := fun _ _ h => fits_of h (putVWord_lt _ v (by decide))
theorem vrmin (v : VWord) : Statement (.vrmin v) := fun _ _ h => fits_of h (putVWord_lt _ v (by decide))
theorem vrsums (v : VWord) : Statement (.vrsums v) := fun _ _ h => fits_of h (putVWord_lt _ v (by decide))
theorem vscan (v : VWord) : Statement (.vscan v) := fun _ _ h => fits_of h (putVWord_lt _ v (by decide))
theorem vpermb (v : VWord) : Statement (.vpermb v) := fun _ _ h => fits_of h (putVWord_lt _ v (by decide))
theorem vpermw (v : VWord) : Statement (.vpermw v) := fun _ _ h => fits_of h (putVWord_lt _ v (by decide))
theorem vslide (v : VWord) : Statement (.vslide v) := fun _ _ h => fits_of h (putVWord_lt _ v (by decide))
theorem vbcast (v : VWord) : Statement (.vbcast v) := fun _ _ h => fits_of h (putVWord_lt _ v (by decide))
theorem vcvt (v : VWord) : Statement (.vcvt v) := fun _ _ h => fits_of h (putVWord_lt _ v (by decide))
theorem vqmx (v : VWord) : Statement (.vqmx v) := fun _ _ h => fits_of h (putVWord_lt _ v (by decide))
theorem vdqmx (v : VWord) : Statement (.vdqmx v) := fun _ _ h => fits_of h (putVWord_lt _ v (by decide))
theorem vunt5 (v : VWord) : Statement (.vunt5 v) := fun _ _ h => fits_of h (putVWord_lt _ v (by decide))
theorem vnbps (v : VWord) : Statement (.vnbps v) := fun _ _ h => fits_of h (putVWord_lt _ v (by decide))
theorem vnbpj (v : VWord) : Statement (.vnbpj v) := fun _ _ h => fits_of h (putVWord_lt _ v (by decide))
theorem vmset (v : VWord) : Statement (.vmset v) := fun _ _ h => fits_of h (putVWord_lt _ v (by decide))
theorem vmlog (v : VWord) : Statement (.vmlog v) := fun _ _ h => fits_of h (putVWord_lt _ v (by decide))
theorem vmcnt (v : VWord) : Statement (.vmcnt v) := fun _ _ h => fits_of h (putVWord_lt _ v (by decide))
theorem vmfirst (v : VWord) : Statement (.vmfirst v) := fun _ _ h => fits_of h (putVWord_lt _ v (by decide))
theorem vmrow (v : VWord) : Statement (.vmrow v) := fun _ _ h => fits_of h (putVWord_lt _ v (by decide))
theorem vmpos (v : VWord) : Statement (.vmpos v) := fun _ _ h => fits_of h (putVWord_lt _ v (by decide))
theorem vshort (v : VWord) : Statement (.vshort v) := fun _ _ h => fits_of h (putVWord_lt _ v (by decide))
theorem vsample (v : VWord) : Statement (.vsample v) := fun _ _ h => fits_of h (putVWord_lt _ v (by decide))
theorem vrng (v : VWord) : Statement (.vrng v) := fun _ _ h => fits_of h (putVWord_lt _ v (by decide))
theorem vexp2 (v : VWord) : Statement (.vexp2 v) := fun _ _ h => fits_of h (putVWord_lt _ v (by decide))
theorem vlog2 (v : VWord) : Statement (.vlog2 v) := fun _ _ h => fits_of h (putVWord_lt _ v (by decide))
theorem vrcp (v : VWord) : Statement (.vrcp v) := fun _ _ h => fits_of h (putVWord_lt _ v (by decide))
theorem vrsq (v : VWord) : Statement (.vrsq v) := fun _ _ h => fits_of h (putVWord_lt _ v (by decide))
theorem vldc (v : VWord) : Statement (.vldc v) := fun _ _ h => fits_of h (putVWord_lt _ v (by decide))
theorem vstc (v : VWord) : Statement (.vstc v) := fun _ _ h => fits_of h (putVWord_lt _ v (by decide))
theorem vbld (v : VWord) : Statement (.vbld v) := fun _ _ h => fits_of h (putVWord_lt _ v (by decide))
theorem vbst (v : VWord) : Statement (.vbst v) := fun _ _ h => fits_of h (putVWord_lt _ v (by decide))
theorem vldg (v : VWord) : Statement (.vldg v) := fun _ _ h => fits_of h (putVWord_lt _ v (by decide))
theorem vstg (v : VWord) : Statement (.vstg v) := fun _ _ h => fits_of h (putVWord_lt _ v (by decide))
theorem vgth (v : VWord) : Statement (.vgth v) := fun _ _ h => fits_of h (putVWord_lt _ v (by decide))
theorem vsct (v : VWord) : Statement (.vsct v) := fun _ _ h => fits_of h (putVWord_lt _ v (by decide))
theorem vaset (v : VWord) : Statement (.vaset v) := fun _ _ h => fits_of h (putVWord_lt _ v (by decide))
theorem vaadd (v : VWord) : Statement (.vaadd v) := fun _ _ h => fits_of h (putVWord_lt _ v (by decide))
theorem vend (v : VWord) : Statement (.vend v) := fun _ _ h => fits_of h (putVWord_lt _ v (by decide))
theorem vnop (v : VWord) : Statement (.vnop v) := fun _ _ h => fits_of h (putVWord_lt _ v (by decide))
theorem vtileWait (v : VWord) : Statement (.vtileWait v) := fun _ _ h => fits_of h (putVWord_lt _ v (by decide))
theorem vtileMark (v : VWord) : Statement (.vtileMark v) := fun _ _ h => fits_of h (putVWord_lt _ v (by decide))
theorem mlds (w : MWord) : Statement (.mlds w) := fun _ _ h => fits_of h (putMWord_lt _ w (by decide))
theorem mswap (w : MWord) : Statement (.mswap w) := fun _ _ h => fits_of h (putMWord_lt _ w (by decide))
theorem mstep (w : MWord) : Statement (.mstep w) := fun _ _ h => fits_of h (putMWord_lt _ w (by decide))
theorem mzero (w : MWord) : Statement (.mzero w) := fun _ _ h => fits_of h (putMWord_lt _ w (by decide))
theorem mdrain (w : MWord) : Statement (.mdrain w) := fun _ _ h => fits_of h (putMWord_lt _ w (by decide))
theorem mflag (w : MWord) : Statement (.mflag w) := fun _ _ h => fits_of h (putMWord_lt _ w (by decide))
theorem mend (w : MWord) : Statement (.mend w) := fun _ _ h => fits_of h (putMWord_lt _ w (by decide))
theorem mnop (w : MWord) : Statement (.mnop w) := fun _ _ h => fits_of h (putMWord_lt _ w (by decide))
theorem ktlbf : Statement (.ktlbf) := fun _ _ h => fits_of h (by decide)
theorem moduleReset : Statement (.moduleReset) := fun _ _ h => nomatch h
theorem door : Statement (.door) := fun _ _ h => nomatch h
theorem registerWrite : Statement (.registerWrite) := fun _ _ h => nomatch h
theorem debugUnlock : Statement (.debugUnlock) := fun _ _ h => nomatch h
theorem debugFreeze : Statement (.debugFreeze) := fun _ _ h => nomatch h
theorem moduleLimitSet : Statement (.moduleLimitSet) := fun _ _ h => nomatch h
theorem thermalLevelChange : Statement (.thermalLevelChange) := fun _ _ h => nomatch h
theorem thermalLimitStep : Statement (.thermalLimitStep) := fun _ _ h => nomatch h
theorem thermalTrip : Statement (.thermalTrip) := fun _ _ h => nomatch h
theorem ptpOffsetLoss : Statement (.ptpOffsetLoss) := fun _ _ h => nomatch h
theorem unitFailure : Statement (.unitFailure) := fun _ _ h => nomatch h
theorem linkTraining : Statement (.linkTraining) := fun _ _ h => nomatch h
theorem windowBoundary : Statement (.windowBoundary) := fun _ _ h => nomatch h
theorem noCall : Statement (.noCall) := fun _ _ h => nomatch h
theorem kqOpenBundle : Statement (.kqOpenBundle) := fun _ _ h => nomatch h
theorem kqLaunch : Statement (.kqLaunch) := fun _ _ h => nomatch h
theorem kqWait : Statement (.kqWait) := fun _ _ h => nomatch h
theorem kqWaitTimeout : Statement (.kqWaitTimeout) := fun _ _ h => nomatch h
theorem kqGraphNew : Statement (.kqGraphNew) := fun _ _ h => nomatch h
theorem kqGraphEdit : Statement (.kqGraphEdit) := fun _ _ h => nomatch h
theorem kqGraphRun : Statement (.kqGraphRun) := fun _ _ h => nomatch h
theorem kqQueuePrio : Statement (.kqQueuePrio) := fun _ _ h => nomatch h
theorem kqMemAlloc : Statement (.kqMemAlloc) := fun _ _ h => nomatch h
theorem kqMemFree : Statement (.kqMemFree) := fun _ _ h => nomatch h
theorem kqMemMapWritable : Statement (.kqMemMapWritable) := fun _ _ h => nomatch h
theorem kqMemMapPin : Statement (.kqMemMapPin) := fun _ _ h => nomatch h
theorem kqMemMapUnpin : Statement (.kqMemMapUnpin) := fun _ _ h => nomatch h
theorem kqMemMapMigrate : Statement (.kqMemMapMigrate) := fun _ _ h => nomatch h
theorem pageMigration : Statement (.pageMigration) := fun _ _ h => nomatch h
theorem kqSeamAllocReserve : Statement (.kqSeamAllocReserve) := fun _ _ h => nomatch h
theorem kqSeamAllocRelease : Statement (.kqSeamAllocRelease) := fun _ _ h => nomatch h
theorem kqStreamOpen : Statement (.kqStreamOpen) := fun _ _ h => nomatch h
theorem kqStreamClose : Statement (.kqStreamClose) := fun _ _ h => nomatch h
theorem kqPlanRegister : Statement (.kqPlanRegister) := fun _ _ h => nomatch h
theorem kqPlanRelease : Statement (.kqPlanRelease) := fun _ _ h => nomatch h
theorem kqFaultHandler : Statement (.kqFaultHandler) := fun _ _ h => nomatch h
theorem kqFileRead : Statement (.kqFileRead) := fun _ _ h => nomatch h
theorem kqFileWrite : Statement (.kqFileWrite) := fun _ _ h => nomatch h
theorem storageCommandTimeout : Statement (.storageCommandTimeout) := fun _ _ h => nomatch h
theorem kqAttest : Statement (.kqAttest) := fun _ _ h => nomatch h
theorem kqExit : Statement (.kqExit) := fun _ _ h => nomatch h
theorem selection : Statement (.selection) := fun _ _ h => nomatch h
theorem multiPackagePacket : Statement (.multiPackagePacket) := fun _ _ h => nomatch h
theorem ready : Statement (.ready) := fun _ _ h => nomatch h
theorem abort : Statement (.abort) := fun _ _ h => nomatch h
theorem retirementReport : Statement (.retirementReport) := fun _ _ h => nomatch h
theorem launchComplete : Statement (.launchComplete) := fun _ _ h => nomatch h
theorem startPulse : Statement (.startPulse) := fun _ _ h => nomatch h
theorem overlayLoad : Statement (.overlayLoad) := fun _ _ h => nomatch h
theorem anchorRelease : Statement (.anchorRelease) := fun _ _ h => nomatch h
theorem blockStart : Statement (.blockStart) := fun _ _ h => nomatch h
theorem stallRelease : Statement (.stallRelease) := fun _ _ h => nomatch h
theorem promiseExpiry : Statement (.promiseExpiry) := fun _ _ h => nomatch h
theorem scalarResult : Statement (.scalarResult) := fun _ _ h => nomatch h
theorem vectorResult : Statement (.vectorResult) := fun _ _ h => nomatch h
theorem beatOpen : Statement (.beatOpen) := fun _ _ h => nomatch h
theorem beatClose : Statement (.beatClose) := fun _ _ h => nomatch h
theorem bankRequestArrival : Statement (.bankRequestArrival) := fun _ _ h => nomatch h
theorem bankProgramStart : Statement (.bankProgramStart) := fun _ _ h => nomatch h
theorem descriptorStart : Statement (.descriptorStart) := fun _ _ h => nomatch h
theorem copyWord : Statement (.copyWord) := fun _ _ h => nomatch h
theorem copyChunkTranslation : Statement (.copyChunkTranslation) := fun _ _ h => nomatch h
theorem pageWalk : Statement (.pageWalk) := fun _ _ h => nomatch h
theorem globalPerform : Statement (.globalPerform) := fun _ _ h => nomatch h
theorem globalResultReturn : Statement (.globalResultReturn) := fun _ _ h => nomatch h
theorem leaseGrant : Statement (.leaseGrant) := fun _ _ h => nomatch h
theorem specResolve : Statement (.specResolve) := fun _ _ h => nomatch h
theorem mfreeEffect : Statement (.mfreeEffect) := fun _ _ h => nomatch h
theorem shadowPlaneLoaded : Statement (.shadowPlaneLoaded) := fun _ _ h => nomatch h
theorem matrixRowWrite : Statement (.matrixRowWrite) := fun _ _ h => nomatch h
theorem drainDelivery : Statement (.drainDelivery) := fun _ _ h => nomatch h
theorem fullBitChange : Statement (.fullBitChange) := fun _ _ h => nomatch h
theorem barrierComplete : Statement (.barrierComplete) := fun _ _ h => nomatch h
theorem entryFire : Statement (.entryFire) := fun _ _ h => nomatch h
theorem pieceArrival : Statement (.pieceArrival) := fun _ _ h => nomatch h
theorem combineWrite : Statement (.combineWrite) := fun _ _ h => nomatch h
theorem firingComplete : Statement (.firingComplete) := fun _ _ h => nomatch h
theorem postBitArrival : Statement (.postBitArrival) := fun _ _ h => nomatch h
theorem semaphoreHandoff : Statement (.semaphoreHandoff) := fun _ _ h => nomatch h
theorem triggerFire : Statement (.triggerFire) := fun _ _ h => nomatch h
theorem slotFreeNotice : Statement (.slotFreeNotice) := fun _ _ h => nomatch h
theorem framePublish : Statement (.framePublish) := fun _ _ h => nomatch h
theorem playbackCursorWrite : Statement (.playbackCursorWrite) := fun _ _ h => nomatch h
theorem dsPerform : Statement (.dsPerform) := fun _ _ h => nomatch h
theorem tlbShootdownComplete : Statement (.tlbShootdownComplete) := fun _ _ h => nomatch h
theorem portPageFault : Statement (.portPageFault) := fun _ _ h => nomatch h
theorem trapWindowDelivery : Statement (.trapWindowDelivery) := fun _ _ h => nomatch h
theorem handlerReturn : Statement (.handlerReturn) := fun _ _ h => nomatch h
theorem release : Statement (.release) := fun _ _ h => nomatch h
theorem preemption : Statement (.preemption) := fun _ _ h => nomatch h
theorem preemptionInterval : Statement (.preemptionInterval) := fun _ _ h => nomatch h
theorem engineAck : Statement (.engineAck) := fun _ _ h => nomatch h
theorem contextSaveComplete : Statement (.contextSaveComplete) := fun _ _ h => nomatch h
theorem bankEviction : Statement (.bankEviction) := fun _ _ h => nomatch h
theorem parityError : Statement (.parityError) := fun _ _ h => nomatch h
theorem retirement : Statement (.retirement) := fun _ _ h => nomatch h
theorem ptpOffsetRecovery : Statement (.ptpOffsetRecovery) := fun _ _ h => nomatch h
theorem hartWrite : Statement (.hartWrite) := fun _ _ h => nomatch h
theorem hostWrite : Statement (.hostWrite) := fun _ _ h => nomatch h
theorem softError : Statement (.softError) := fun _ _ h => nomatch h
theorem storageTransferComplete : Statement (.storageTransferComplete) := fun _ _ h => nomatch h
theorem planSlotsReserved : Statement (.planSlotsReserved) := fun _ _ h => nomatch h

end Sys2Proof.Laws.Codec
end

