-- ==== Sys2Proof/Safety.lean ====
section
/-! DEFINITION. What counts as a safe run of the module. -/

namespace Sys2Proof

open Sys2Proof.Machine

/-- A step that leaves the machine in a next state: neither stuck nor refused. -/
def Completes (o : Host.Outcome State Fault Refusal) : Prop := ∃ t, o = .next t

/-- No core of the module holds a fault record (R394). -/
def NoFault (s : State) : Prop := ∀ e ∈ s.cores, e.2.fault = none

/-- A run of `n` steps from `s` that completes every one of them without an architectural fault. -/
def SafeFor : Nat → State → Prop
  | 0, s => NoFault s
  | n + 1, s => NoFault s ∧ ∃ t, step s = .next t ∧ SafeFor n t

end Sys2Proof
end

