-- ==== Sys2Proof/Tests/Slice0.lean ====
section
/-! SUPPORT. Tests: for every statement with hypotheses, states and operands that meet them; words of the manual's encodings decoded; ill-formed terms refused. -/

namespace Sys2Proof.Tests

open Sys2Proof Sys2Proof.Machine Sys2Proof.Claims

set_option Elab.async false

/-! ### Small states -/

/-- The reset machine with core 0 changed: its scalar stream is the one in issue. -/
def withCore (f : Core → Core) : State := State.reset.setCore 0 (f {})
/-- The same with a value in a scalar register. -/
def withReg (r : Nat) (v : Word64) (f : Core → Core := id) : State := withCore (fun k => f { k with s := vset k.s r { val := v } })
/-- The same with values in two scalar registers. -/
def withRegs (r : Nat) (v : Word64) (q : Nat) (w : Word64) (f : Core → Core := id) : State :=
  withCore (fun k => f { k with s := vset (vset k.s r { val := v }) q { val := w } })
/-- A page of process 1: 4 KiB at virtual address 0x3000, at physical address 0x5000, readable and writable. -/
def page : TlbEntry := { spid := 1, va := 0x3000, size := 4096, pte := 0x14D7#64 }
/-- Core 0 as binding leaves it: launch 1, stope 0, process 1, under a FABRIC node and a CORE node. -/
def bindZero : Binding :=
  { gen := 1, stope := 0, spid := 1, kernel := 0, entry := 0, rank := 0, pkgPos := 0, chain := [⟨6, 1, 0, 0⟩, ⟨1, 1, 0, 0⟩], lanes := [] }
/-- The bundle of launch 1: kernel 0 with an overlay 0 and an overlay 1 of one word each. -/
def bundleZero : Bundle :=
  { bytes := [], sects := [], retimed := [(0, { sects := [⟨0, 0, [0, 0, 0, 0]⟩, ⟨0, 1, [0, 0, 0, 0]⟩], entries := [] })], images := [], digest := [] }
/-- The packet of launch 1. -/
def packetZero : Packet :=
  { bundle := 1, tree := 0, prio := 0, elastic := true, pkgmask := 1, args := [], waits := [], sigs := [5], status := 0, beatreq := none }
/-- Launch 1, running on core 0. -/
def launchZero : Launch :=
  { gen := 1, spid := 1, queue := 0, pkt := packetZero, tree := [], insts := [], pkgs := [0], st := .running }
/-- Process 1: its page tables hold a 64 KiB page at virtual 0x10000, at physical 0x20000. -/
def procZero : Proc := ({ spid := 1, bundles := [(1, bundleZero)] } : Proc).mapPage 0x10000 65536 0x20000 true
/-- Stope 0 of launch 1. -/
def stopeZero : Stope := { id := 0, gen := 1, die := 0, elastic := true, cores := [0], started := some 0 }
/-- A machine at cycle 10 in which launch 1 runs on core 0; its vector word at index 0 names mask m0. -/
def atWork (f : Core → Core := id) : State :=
  ({ State.reset with now := 10, stopes := [stopeZero], nextStope := 1, launches := [launchZero], procs := [procZero] } : State).setCore 0
    (f { bound := some bindZero, tlb := [page], ctlb := [page], plane := #v[{ ovl := some 0, ready := true, vect := [0] }, {}] })
/-- What an admission gives. -/
def letsIn : GAdm → Option (State × List Nat)
  | .ok t l => some (t, l)
  | _ => none
theorem admitted (x : GAdm) (l : List Nat) (h : (letsIn x).map Prod.snd = some l) : ∃ t, x = .ok t l := by
  cases x <;> simp_all [letsIn]
/-- What a check gives. -/
theorem good {ε α : Type} (x : Except ε α) (h : x.toOption.isSome = true) : ∃ c, x = .ok c := by
  cases x <;> simp_all [Except.toOption]
/-- What a translation gives. -/
def found : Xlat → Option Nat
  | .ok pa => some pa
  | _ => none
theorem translated (x : Xlat) (pa : Nat) (h : found x = some pa) : x = .ok pa := by cases x <;> simp_all [found]
/-! ### Witnesses: states and operands that meet the hypotheses of the statements, clause by clause -/

theorem witness_integer_words : Ready State.reset [1, 2, 3] := by unfold Ready; decide
theorem witness_count_words : Ready State.reset [1, 2] := by unfold Ready; decide
theorem witness_division_words : Ready State.reset [1, 2, 3] := by unfold Ready; decide
theorem witness_float_words : Ready State.reset [1, 2, 3, 4] := by unfold Ready; decide
/-- Each format's largest finite pattern. -/
theorem witness_exact_values :
    (4 : Nat) ≤ 4 ∧ (0x7F7FFFFF < 2 ^ 32 ∧ (fp32.decode 0x7F7FFFFF).isNan = false ∧ fp32.decode 0x7F7FFFFF ≠ .inf true ∧ fp32.decode 0x7F7FFFFF ≠ .inf false) ∧
    (0x7F7F < 2 ^ 16 ∧ (bf16.decode 0x7F7F).isNan = false ∧ bf16.decode 0x7F7F ≠ .inf true ∧ bf16.decode 0x7F7F ≠ .inf false) ∧
    (0x7BFF < 2 ^ 16 ∧ (fp16.decode 0x7BFF).isNan = false ∧ fp16.decode 0x7BFF ≠ .inf true ∧ fp16.decode 0x7BFF ≠ .inf false) := by decide
theorem witness_condition_words :
    Ready State.reset [1, 2, 3] ∧ (11#4).toNat < 12 ∧ (0#4).toNat < 12 ∧ (2#2).toNat ≤ 2 ∧ (5#4).toNat ≤ 5 ∧ (3#4).toNat ≤ 3 ∧ 12 ≤ (12#4).toNat := by
  unfold Ready; decide
/-- Targets at both ends of a plane and just outside, from the word at index 0. -/
theorem witness_prepared_targets :
    Ready (withReg 1 16383) [1] ∧ (3#4).toNat < 12 ∧ ((here (withReg 1 16383)).sc.widx : Int) + (16383#20).toInt = 16383 ∧
    ((here (withReg 1 16383)).sc.widx : Int) + (0xFFFFF#20).toInt = -1 ∧ ((here (withReg 1 16383)).sc.widx : Int) + (16384#20).toInt = 16384 ∧
    (opA (withReg 1 16383) 1).toNat = 16383 ∧ (opA (withReg 1 16384) 1).toNat = 16384 ∧ Ready (withReg 1 16384) [1] := by unfold Ready; decide
/-- A steer register that is prepared, with its condition as said, and a moment from which a branch may take it. -/
def steered (cond prepared : Bool) (readyAt : Nat) : State :=
  withCore (fun k => { k with b := vset k.b 3 { target := 5, prepared, readyAt, cond } })
theorem witness_branches :
    Ready (steered true true 0) [1] ∧ (steer (steered false true 0) 3).cond = false ∧ (steer (steered true true 0) 3).cond = true ∧
    (steer (steered true true 0) 3).prepared = true ∧ ¬ (steered true true 0).localCyc 0 < (steer (steered true true 0) 3).readyAt ∧
    (steered true true 1).localCyc 0 < (steer (steered true true 1) 3).readyAt ∧ (steer (steered true true 1) 3).prepared = true ∧
    (steer (steered false true 1) 3).cond = false ∧
    (steer (steered true false 0) 3).prepared = false ∧ (steer (steered false false 0) 3).prepared = false ∧
    (vget (here (withReg 1 16383)).s 1 {}).val.toNat ≤ 16383 ∧ (vget (here (withReg 1 16383)).s 1 {}).since = 0 ∧
    16383 < (vget (here (withReg 1 16384)).s 1 {}).val.toNat := by unfold Ready; decide
theorem witness_loop_words :
    Ready (withReg 1 0xFFFFFFFF) [1, 1] ∧ (regVal (withReg 1 0xFFFFFFFF) 1).toNat < 2 ^ 32 ∧ (1#17) ≠ 0 ∧ Ready (withReg 1 0x100000000) [1, 1] ∧
    2 ^ 32 ≤ (regVal (withReg 1 0x100000000) 1).toNat ∧ (1#10) ≠ 0 ∧ (1#12) ≠ 0 ∧ Ready (withReg 1 16383) [1, 1] ∧
    (regVal (withReg 1 16383) 1).toNat ≤ 16383 ∧ (2#2) ≠ 3 ∧ 16383 < (regVal (withReg 1 16384) 1).toNat ∧ Ready (withReg 1 16384) [1, 1] := by
  unfold Ready; decide
/-- A loop whose end word is the word in issue, with one and with two trips left. -/
def looped (count : Nat) : State := withCore (fun k => { k with lp := vset k.lp 1 { count, first := 0, last := 0, active := true } })
theorem witness_loop_end :
    (loopOf (here (looped 2)) 1).active = true ∧ (loopOf (here (looped 2)) 1).last = (here (looped 2)).sc.widx ∧ (here (looped 2)).sc.ovr = none ∧
    (∀ q : Fin 4, q ≠ 1 → (loopOf (here (looped 2)) q).active = false ∨ (loopOf (here (looped 2)) q).last ≠ (here (looped 2)).sc.widx) ∧
    1 < (loopOf (here (looped 2)) 1).count ∧ (loopOf (here (looped 1)) 1).count ≤ 1 ∧ (loopOf (here (looped 1)) 1).active = true := by decide
/-- The last doubleword of A-space, with and without post-increment; the first address that is not aligned; the first past the end. -/
theorem witness_a_space :
    Ready (withReg 5 393208) [6, 5, 7] ∧ Sound (here (withReg 5 393208)) ∧ (address (opA (withReg 5 393208) 5) 3 0 0).toNat % bytesOf 3 = 0 ∧
    (address (opA (withReg 5 393208) 5) 3 0 0).toNat + bytesOf 3 ≤ 393216 ∧ ¬ ((0#1) = 1 ∧ (6#5) = 5) ∧
    (address (opA (withReg 5 1) 5) 3 0 0).toNat % bytesOf 3 ≠ 0 ∧ Ready (withReg 5 1) [6, 5, 7] ∧
    (address (opA (withReg 5 393216) 5) 3 0 0).toNat % bytesOf 3 = 0 ∧ 393216 < (address (opA (withReg 5 393216) 5) 3 0 0).toNat + bytesOf 3 ∧
    Ready (withReg 5 393216) [6, 5, 7] ∧ (withReg 5 393208).bytesPending 0 393208 8 = false := by unfold Ready Sound; decide
/-- The same doubleword in a row that still waits for a load from another package. -/
theorem witness_a_space_pending :
    let j : RowJoin := { id := 9, core := 0, row := 1535, data := [], sel := [], keep := [], left := 0, stamp := 5, rep := 0, due := 0, poisoned := false }
    let s := { withReg 5 393208 with joins := [j] }
    Ready s [6, 5, 7] ∧ Sound (here s) ∧ s.bytesPending 0 393208 8 = true := by unfold Ready Sound; decide
/-- An 8-byte access at 0x3010 (its page in the TLB), and one that is not aligned. -/
theorem witness_global_accesses :
    let s := atWork (fun k => { k with s := vset k.s 5 { val := 0x3010 } })
    let bad := atWork (fun k => { k with s := vset k.s 5 { val := 0x3FFF } })
    Ready s [6, 5, 7, 8] ∧ (address (opA s 5) 3 0 0).toNat % bytesOf 3 = 0 ∧ (opA s 5).toNat % 8 = 0 ∧ ¬ ((0#1) = 1 ∧ (6#5) = 5) ∧
    (letsIn (s.letIn 0 8 0 1 [(address (opA s 5) 3 0 0).toNat])).map Prod.snd = some [0x5010] ∧
    (letsIn (s.letIn 0 8 1 1 [(address (opA s 5) 3 0 0).toNat])).map Prod.snd = some [0x5010] ∧
    (letsIn (s.letIn 0 8 2 1 [(opA s 5).toNat])).map Prod.snd = some [0x5010] ∧
    Ready bad [6, 5, 7, 8] ∧ (address (opA bad 5) 3 0 0).toNat % bytesOf 3 ≠ 0 ∧ (opA bad 5).toNat % 4 ≠ 0 := by unfold Ready; decide
theorem witness_atomic_functions : BitVec.setWidth 32 (0x1_0000_0002#64) = 2#32 := by decide
/-- A stack of 32 bytes at 64 to 96: the last frame that fits and the first that does not, both ways, and a stack pointer that is not aligned. -/
def stacked (sp : Word64) : State := withReg 2 sp (fun k => { k with sr := { k.sr with slim := 64, sbase := 96 } })
theorem witness_stack_frames :
    Ready (stacked 80) [2] ∧ (regVal (stacked 80) 2).toNat % 16 = 0 ∧ Ready (stacked 81) [2] ∧ (regVal (stacked 81) 2).toNat % 16 ≠ 0 ∧
    (((here (stacked 80)).sr.slim.toNat : Int) ≤ (regVal (stacked 80) 2).toInt - 16 * (1#16).toNat) ∧
    ((regVal (stacked 80) 2).toInt - 16 * (2#16).toNat < ((here (stacked 80)).sr.slim.toNat : Int)) ∧
    ((regVal (stacked 80) 2).toInt + 16 * (1#16).toNat ≤ ((here (stacked 80)).sr.sbase.toNat : Int)) ∧
    (((here (stacked 80)).sr.sbase.toNat : Int) < (regVal (stacked 80) 2).toInt + 16 * (2#16).toNat) := by unfold Ready; decide
/-- Queues with so many entries, pushed in cycle 0. -/
def queued (n : Nat) : State :=
  let s := withCore (fun k => { k with qs2v := { items := List.replicate n (0, 7) }, qv2s := { items := List.replicate n (0, 7) }, qs2m := { items := List.replicate n (0, 7) }, bqv := { items := List.replicate n (0, ⟨0, 1, false, 0, 0⟩) }, bqm := { items := List.replicate n (0, ⟨0, 1, false, 0, 0⟩) } })
  { s with now := 1 }
theorem witness_queue_words :
    Ready (queued 7) [1] ∧ used (queued 7) (here (queued 7)).qs2v < 8 ∧ Ready (queued 8) [1] ∧ 8 ≤ used (queued 8) (here (queued 8)).qs2v ∧
    used (queued 15) (here (queued 15)).qs2m < 16 ∧ 16 ≤ used (queued 16) (here (queued 16)).qs2m ∧
    (here (queued 1)).qv2s.items = (0, 7#64) :: [] ∧ 0 < (queued 1).now ∧ (here (queued 0)).qv2s.items = [] ∧
    (3#4) ≠ 0 ∧ (3#4) ≠ 2 ∧ (3#4) ≠ 1 ∧ 3 ≤ (3#4).toNat ∧
    used (queued 15) (here (queued 15)).bqv < 16 ∧ 16 ≤ used (queued 16) (here (queued 16)).bqv ∧ used (queued 15) (here (queued 15)).bqm < 16 ∧
    16 ≤ used (queued 16) (here (queued 16)).bqm ∧ (4095#13).toNat ≤ 4095 ∧ 4096 ≤ (4096#13).toNat := by unfold Ready; decide
/-- The greatest beat number and the first that is none; a core that holds the array, one that has asked, one that has not. -/
theorem witness_time_and_lease :
    let held := State.reset.setQuad 0 { holder := some 0 }
    let asked := State.reset.setQuad 0 { reqs := [(0, 0, 4)] }
    Ready (withReg 1 0xFFFFFFFFFFFF) [2, 1] ∧ (opA (withReg 1 0xFFFFFFFFFFFF) 1).toNat < 2 ^ 48 ∧ Ready (withReg 1 0x1000000000000) [2, 1] ∧
    2 ^ 48 ≤ (opA (withReg 1 0x1000000000000) 1).toNat ∧ (1#8) ≠ 0 ∧ (State.reset.quad (quadOf 0)).holder ≠ some (quadIndex 0) ∧
    (∀ r ∈ (State.reset.quad (quadOf 0)).reqs, r.1 ≠ quadIndex 0) ∧ (held.quad (quadOf 0)).holder = some (quadIndex 0) ∧
    (∃ r ∈ (asked.quad (quadOf 0)).reqs, r.1 = quadIndex 0) := by unfold Ready; decide
theorem witness_halt :
    (here (withCore (fun k => { k with specTags := [1] }))).specTags ≠ [] ∧ (here State.reset).specTags = [] ∧ (here State.reset).enginesIdle State.reset.now = true ∧
    State.reset.drained 0 (0x1FF#9).toNat = true := by decide
theorem witness_trap :
    atWork.stopeOf atWork.curCore = some stopeZero ∧ stopeZero.frozen = none ∧ (here atWork).fault = none ∧ (here atWork).sc.ovr = none ∧
    (here atWork).sc.replay.length < 8 := by decide
/-- A core on overlay `o`, whose shadow plane holds overlay 1; its s1 is a word index. -/
def planes (o : Nat) (e : Word64) (tags : List Nat) : State :=
  atWork (fun k => { k with s := vset k.s 1 { val := e }, specTags := tags, plane := #v[{ ovl := some o, ready := true }, { ovl := some 1, ready := true }] })
theorem witness_swap :
    let strs := (planes 0 0 []).kernelStreams 1 0
    Ready (planes 0 0 []) [1] ∧ (here (planes 0 0 [])).bnd.gen = 1 ∧ (here (planes 0 0 [])).bnd.kernel = 0 ∧ (here (planes 1 0 [])).act.ovl.getD 0 = 1 ∧
    hasOverlay strs (1 + 1) = false ∧ (here (planes 0 0 [])).act.ovl.getD 0 = 0 ∧ hasOverlay strs (0 + 1) = true ∧
    (streamBytes strs 0 (0 + 1)).length / 4 ≤ (opA (planes 0 1 []) 1).toNat ∧ (opA (planes 0 0 []) 1).toNat < (streamBytes strs 0 (0 + 1)).length / 4 ∧
    (here (planes 0 0 [1])).specTags ≠ [] ∧ (here (planes 0 0 [])).specTags = [] ∧ (here (planes 0 0 [])).enginesIdle (planes 0 0 []).now = true ∧
    (planes 0 0 []).drained 0 (0x1FF#9).toNat = true ∧ (here (planes 0 0 [])).shadow.ready = true ∧ (here (planes 0 0 [])).shadow.ovl = some (0 + 1) := by
  unfold Ready; decide
theorem witness_special_registers :
    Ready atWork [1] ∧ (here atWork).bnd.chain[(1#4).toNat]? = some ⟨1, 1, 0, 0⟩ ∧ (here atWork).bnd.chain.length + (here atWork).bnd.lanes.length - 1 < (2#4).toNat ∧
    (0x41#11).toNat ∈ [0x10, 0x11, 0x18, 0x19, 0x1A, 0x20, 0x21, 0x22, 0x23, 0x41, 0x50] ∧ (0x32#11).toNat ∈ [0x32, 0x33, 0x34, 0x35] ∧
    (regVal (withReg 1 0x1F820) 1).toNat / 32 % 128 + (regVal (withReg 1 0x1F820) 1).toNat / 4096 % 128 ≤ 127 ∧
    127 < (regVal (withReg 1 0x7F020) 1).toNat / 32 % 128 + (regVal (withReg 1 0x7F020) 1).toNat / 4096 % 128 ∧
    (0x42#11).toNat ∉ 0x40 :: [0x10, 0x11, 0x18, 0x19, 0x1A, 0x20, 0x21, 0x22, 0x23, 0x41, 0x50] ++ [0x32, 0x33, 0x34, 0x35] := by unfold Ready; decide
/-- A core that has arrived on barrier 0 at depth `d`, in phase 1, of which `due` phases have completed. -/
def arrived (d : Nat) (due : Nat) (complete : Bool) (sub : Nat := 0) : State :=
  let key : BarKey := { gen := 1, bar := 0, depth := d, anc := 0 }
  let s := atWork (fun k => { k with bars := [{ key, phase := 1, counted := true, complete, stamp := 0 }], sc := { k.sc with sub } })
  { s with barriers := [{ key, arrivals := [], complete := due, due }] }
/-- A core whose WAITM on a global address has its value. -/
def waiting : State :=
  let s := atWork (fun k => { k with s := vset k.s 2 { val := 7 }, sc := { k.sc with sub := 3, istamp := 4 } })
  { s with greqs := [{ id := 1, core := 0, src := 0, va := 0x3000, pa := 0x5000, n := 8, job := .waitm, stamp := 4, entry := {}, performAt := 0, slots := 1, done := true, val := [7] }] }
theorem witness_ordering_words :
    let s := atWork
    let m (a b : Word64) := atWork (fun k => { k with s := vset (vset k.s 1 { val := a }) 2 { val := b } })
    let key (d : Nat) := (here s).barKey 0 0 d
    Ready s [1, 2] ∧ (here s).bnd.scope (2#4).toNat = none ∧ (1#4) ≠ 0 ∧
    (here s).bnd.scope (0#4).toNat = some 6 ∧ s.performedAt 0 6 15 (here s).sc.istamp (here s).sc.tried = true ∧
    (3#3).toNat ≤ 3 ∧ (here s).sc.sub = 0 ∧ Ready (m 31 0x8000000000000000) [1, 2] ∧ (opA (m 31 0x8000000000000000) 1).toNat ≤ 31 ∧
    waitHolds 3 (((here (m 31 0x8000000000000000)).bank 31).seen (m 31 0x8000000000000000).now) (opB (m 31 0x8000000000000000) 2) = true ∧
    31 < (opA (m 32 0) 1).toNat ∧ Sound (here (m 393208 0)) ∧ (opA (m 393208 0) 1).toNat % 8 = 0 ∧ (opA (m 393208 0) 1).toNat + 8 ≤ 393216 ∧
    waitHolds 0 (word64At (here (m 393208 0)) (opA (m 393208 0) 1).toNat) (opB (m 393208 0) 2) = true ∧
    (here s).bnd.scope (1#4).toNat = some 1 ∧ stillOpen s (key 1) = false ∧ stillOpen (arrived 1 0 false) (key 1) = true ∧
    (1 : Nat) < 4 ∧ (∀ e, (here (arrived 1 1 true 1)).arrivalOn (key 1) = some e → e.complete = true) ∧ (here (arrived 1 1 true 1)).sc.sub ≠ 0 ∧
    (∃ e, (here (arrived 1 0 false)).arrivalOn (key 1) = some e ∧ e.complete = false) ∧ 4 ≤ 6 := by
  unfold Ready Sound
  repeat' apply And.intro
  all_goals decide
theorem witness_waitm_value :
    Ready waiting [1, 2] ∧ (here waiting).sc.sub = 3 ∧ (waiting.waitValue 0).map (fun q => (q.poisoned, q.val)) = some (false, [7]) ∧
    waitHolds 0 (BitVec.ofNat 64 (leNat [7])) (opB waiting 2) = true := by unfold Ready; decide
/-- A descriptor at 0x100: one line of `len` bytes from A 64 to A `dst`, or a scale copy into S; a layout record at 0x200: one FP32 scale. -/
def described (dst len lines spaces n : Nat) (a : Word64 := 0x100) : State :=
  atWork (fun k => { k with
    a := Memory.writeBytes (Memory.writeBytes [] 0x100 (leBytes 8 64 ++ leBytes 8 dst ++ leBytes 4 len ++ leBytes 2 lines ++ [BitVec.ofNat 8 spaces] ++ [0])) 0x200
      [0, 0, 1, 0, 1, 0]
    s := vset (vset k.s 1 { val := a }) 2 { val := 0x200 }
    copyQ := List.replicate n { id := 0, src := 0, dst := 0, len := 32, lines := 1, sspace := 0, dspace := 0, sstride := 0, dstride := 0, beat := 0, slide := false } })
theorem witness_copy_words :
    let s := described 393184 32 1 0 15
    let k := here s
    let blk := k.a.readBytes 0x100 32
    let d := copyDescOf blk k.bt s.seq k.sc.istamp none k.scalarEntry
    Ready s [1, 2] ∧ k.heldCopy = false ∧ Sound k ∧ (opA s 1).toNat % 32 = 0 ∧ (opA s 1).toNat + 32 ≤ 393216 ∧ cpyOk blk d = true ∧
    linesFit d.sspace d.src d.len d.lines d.sstride = true ∧ linesFit d.dspace d.dst d.len d.lines d.dstride = true ∧
    copyCoreFault s 0 d.sspace d.src = none ∧ copyCoreFault s 0 d.dspace d.dst = none ∧
    ((isBankSpace d.sspace || isBankSpace d.dspace) = true → s.isAccess d.beat = true) ∧
    copyShadowed s 0 d.sspace d.src (max d.len 32) (max d.lines 1) d.sstride = false ∧
    copyShadowed s 0 d.dspace d.dst (max d.len 32) (max d.lines 1) d.dstride = false ∧ k.copyQ.length < 16 ∧
    16 ≤ (here (described 393184 32 1 0 16)).copyQ.length := by unfold Ready Sound; decide
theorem witness_bad_descriptor :
    let s := described 64 0 1 0 0
    let k := here s
    let blk := k.a.readBytes 0x100 32
    cpyOk blk (copyDescOf blk k.bt s.seq k.sc.istamp none k.scalarEntry) = false ∧ Sound k ∧
    (opA (described 64 32 1 0 0 0x101) 1).toNat % 32 ≠ 0 ∧ (here (described 64 32 1 0 0 0x101)).heldCopy = false ∧ Ready (described 64 32 1 0 0 0x101) [1, 2] := by
  unfold Ready Sound; decide
theorem witness_scale_copy :
    let s := described 65532 0 0 0x20 0
    let k := here s
    let blk := k.a.readBytes 0x100 32
    let lay := k.a.readBytes 0x200 16
    let e := copyDescOf blk k.bt s.seq k.sc.istamp (some lay) k.scalarEntry
    let own := { e with dst := 0xFFFF000000000000#64 ||| BitVec.ofNat 64 (e.dst.toNat % 65536) }
    Ready s [1, 2] ∧ k.heldCopy = false ∧ Sound k ∧ (opB s 2).toNat % 16 = 0 ∧ (opB s 2).toNat + 16 ≤ 393216 ∧ cpysOk blk e lay = true ∧ cpysFits e lay = true ∧
    copyCoreFault s 0 own.sspace own.src = none ∧ copyCoreFault s 0 own.dspace own.dst = none ∧ isBankSpace own.sspace = false ∧ isBankSpace own.dspace = false ∧
    copyShadowed s 0 own.sspace own.src (max own.len 32) (max own.lines 1) own.sstride = false ∧
    copyShadowed s 0 own.dspace own.dst (max own.len 32) (max own.lines 1) own.dstride = false ∧ k.copyQ.length < 16 ∧
    (5#4).toNat ≤ 5 ∧ (∀ f ∈ k.copiesBefore k.sc.istamp, f.dspace ≠ (5#4).toNat) := by unfold Ready Sound; decide
/-- A bank command block of zeros but for one byte; beat 1 computes. -/
def commanded (off : Nat) (v : Byte) : State := atWork (fun k => { k with bt := 1, a := Memory.writeBytes [] off [v], s := vset k.s 1 { val := 0x100 } })
theorem witness_bank_commands :
    let s := commanded 0x100 31
    let k := here s
    let blk := k.a.readBytes 0x100 32
    Ready s [1, 3] ∧ Sound k ∧ (opA s 1).toNat % 32 = 0 ∧ (opA s 1).toNat + 32 ≤ 393216 ∧ s.isCompute ((k.bt + (0#3).toNat) % beatMod) = true ∧
    k.bankRoom 31 = true ∧ s.fuse.lode = true ∧ leNat (blk.take 1) = 31 ∧ cmdOk 0 blk = true ∧ k.tagPasses 0 31 0 = true ∧
    s.isAssay ((k.bt + (0#3).toNat) % beatMod) = false ∧ cmdOk 0 ((here (commanded 0x103 1)).a.readBytes 0x100 32) = false := by unfold Ready Sound; decide
theorem witness_lode_commands :
    let s := commanded 0x100 15
    let k := here s
    let blk := k.a.readBytes 0x100 32
    cmdOk 1 blk = true ∧ cmdOk 2 blk = true ∧ k.tagPasses 0 15 0 = true ∧ leNat ((blk.drop 4).take 2) + cmdRows blk ≤ 1536 ∧
    k.shadowed (leNat ((blk.drop 6).take 2) / 128 * 65536) = false := by decide
/-- A tile-table image at 0x400: valid, COPY, of one row; with operation 7, which is none. -/
def imaged (op : Byte) (a : Word64) (tiles : Table TileEntry) : State :=
  atWork (fun k => { k with
    a := Memory.writeBytes [] 0x400 [op, 0, 0, 0, 1]
    s := vset (vset k.s 1 { val := a }) 2 { val := 0 }
    plane := #v[{ ovl := some 0, ready := true, tiles }, {}] })
/-- The image as an entry, idle or firing. -/
def entryOf (firing : Option Nat) : Table TileEntry := [(3, { img := (here (imaged 8 0x400 [])).a.readBytes 0x400 64, firing })]
theorem witness_collective_words :
    let s := imaged 8 0x400 []
    let k := here s
    let img := k.a.readBytes 0x400 64
    let bad := (here (imaged 15 0x400 [])).a.readBytes 0x400 64
    let none_ := (here (imaged 0 0x400 [])).a.readBytes 0x400 64
    let busy := fun (u : State) => ((here u).tile 3).any (fun t => t.firing.isSome || !t.contribs.isEmpty)
    Ready s [1, 2] ∧ Sound k ∧ (opA s 1).toNat % 64 = 0 ∧ (opA s 1).toNat + 64 ≤ 393216 ∧ tcValid none_ = false ∧ busy s = false ∧
    tcValid bad = true ∧ imageOk bad = false ∧ tcValid img = true ∧ imageOk img = true ∧ tcPeerList img = [] ∧ bitOf (tcPost img) 2 = false ∧
    tcCombine img = false ∧ busy (imaged 8 0x400 (entryOf (some 1))) = true ∧ (opA (imaged 8 0x401 []) 1).toNat % 64 ≠ 0 ∧ k.tile 3 = none ∧
    (here (imaged 8 1 (entryOf none))).tile 3 = (entryOf none).head?.map Prod.snd ∧ (here (imaged 8 1 (entryOf none))).localShadowed img 0 (tcRows img) = false ∧
    tcRows img < (opA (imaged 8 2 (entryOf none)) 1).toNat ∧ (opA (imaged 8 1 (entryOf none)) 1).toNat ≤ tcRows img ∧
    ((here (imaged 8 1 (entryOf (some 1)))).tile 3).map (fun t => t.firing) = some (some 1) := by unfold Ready Sound; decide
theorem witness_triggers :
    let s := imaged 8 1 []
    Ready s [1, 2] ∧ (7#3).toNat < (here s).trigCount ∧ actionOk s (here s).bnd.gen (opB s 2).toNat = true ∧ (opB s 2).toNat % 16 = 0 ∧
    (let t := withRegs 1 0 2 0x41; actionOk t 0 (opB t 2).toNat = true ∧ (opB t 2).toNat % 16 ≠ 0 ∧ opA t 1 = 0) ∧
    (let t := withRegs 1 1 2 5; actionOk t 0 (opB t 2).toNat = false) ∧ (here (withCore (fun k => { k with trigCount := 4 }))).trigCount ≤ (4#3).toNat := by
  unfold Ready; decide
/-- A stream-unit word's state: descriptor at 0x3100 in a mapped page, or none. -/
def streaming (b : Word64) (ctx : BitVec 49) (a : Word64 := 64) : State :=
  atWork (fun k => { k with s := vset (vset k.s 1 { val := a }) 2 { val := b }, sr := { k.sr with dsctx := ctx } })
theorem witness_stream_unit_words :
    let s := streaming 0x100000001 0x31
    let z := streaming 0x100000040 0
    let far := { s with routing := (Vector.replicate 64 0).set 1 0x20 }.setCore 0 { here s with tlb := [{ page with pte := 0x14D7#64 + 2 ^ 48 }] }
    let timed := fun (u : State) => ({ u with stopes := [{ stopeZero with elastic := false }] } : State)
    Ready s [3, 1, 2] ∧ s.elastic 0 = true ∧ (2#2).toNat ≤ 2 ∧ (here s).dsAddr ≠ 0 ∧ (∀ op < 7, found (s.dsBase 0 op (here s).dsAddr.toNat) = some 0x5100) ∧
    s.isRemote 0x5100 = false ∧ s.refuses 0 1 256 [0x5100] false = false ∧ (here z).dsAddr = 0 ∧ found (z.dsBase 0 0 0) = some 0 ∧
    z.refuses 0 1 256 [] false = false ∧ Ready z [3, 1, 2] ∧ z.elastic 0 = true ∧
    Ready far [3, 1, 2] ∧ far.elastic 0 = true ∧ found (far.dsBase 0 0 (here far).dsAddr.toNat) = some (2 ^ 50 + 0x5100) ∧ far.isRemote (2 ^ 50 + 0x5100) = true ∧
    far.refuses 0 1 256 [2 ^ 50 + 0x5100] false = false ∧ (timed far).elastic 0 = false ∧ found ((timed far).dsBase 0 0 (here far).dsAddr.toNat) = some (2 ^ 50 + 0x5100) ∧
    (timed s).elastic 0 = false ∧ (1#5) ≠ 0 ∧ found ((timed s).dsBase 0 0 (here s).dsAddr.toNat) = some 0x5100 ∧
    (opA s 1).toNat % 64 = 0 ∧ (opA (streaming 0 0 65) 1).toNat % 64 ≠ 0 ∧ 1 ≤ (opB s 2).toNat % 128 ∧ (opB z 2).toNat % 128 ≤ 64 ∧
    (opB s 2).toNat / 128 % 512 = 0 ∧ (opB s 2).toNat / 2 ^ 32 ≠ 0 ∧ (opB (streaming 0x100000000 0) 2).toNat % 128 = 0 ∧
    64 < (opB (streaming 0x100000041 0) 2).toNat % 128 ∧ (opB (streaming 0x100000081 0) 2).toNat / 128 % 512 ≠ 0 ∧ (opB (streaming 1 0) 2).toNat / 2 ^ 32 = 0 := by
  unfold Ready; decide +kernel
theorem witness_hart_words :
    let s := State.reset.modHart 0 (fun x => { x with mode := 0 })
    (s.hart s.curHart).mode = 0 ∧ (State.reset.hart State.reset.curHart).mode ≠ 0 := by decide
/-- A hart whose x1 is the address of window 0 of die 0, the window that stope 0 has been given, in a state as said; the stope's core holds a record. -/
def windowed (st : Nat) (noresume : Bool) : State :=
  let s := (atWork (fun k => { k with fault := some { code := 9, noresume } })).modHart 0 (fun x => { x with x := vset x.x 1 (Config.trapWindowBase 0 0) })
  ({ s with stopes := [{ stopeZero with frozen := some 4, window := some 0 }] } : State).setWin 0 0 { st, stope := some 0 }
theorem witness_kresume :
    ((windowed 0 false).hart (windowed 0 false).curHart).mode ≠ 0 ∧ windowAt (((windowed 0 false).hart (windowed 0 false).curHart).reg 1) = some (0, 0) := by
  refine ⟨by decide +kernel, ?_⟩
  have e : ((windowed 0 false).hart (windowed 0 false).curHart).reg 1 = Config.trapWindowBase 0 0 := by rfl
  rw [e]
  have l : (List.range 2).flatMap (fun d => (List.range 16).map (fun w => (d, w))) = (0, 0) :: ((List.range 2).flatMap (fun d => (List.range 16).map (fun w => (d, w)))).tail := by
    decide
  unfold windowAt
  rw [l]
  simp
theorem witness_kresume_windows :
    let p : Stope := { stopeZero with frozen := some 4, window := some 0 }
    ((windowed 1 false).win 0 0).st = 1 ∧ ((windowed 3 false).win 0 0).st = 3 ∧ ((windowed 0 false).win 0 0).st = 0 ∧
    (((windowed 0 false).win 0 0).stope.bind (fun id => (windowed 0 false).stopes.find? (fun t => t.id == id))) = some p ∧
    (windowed 0 false).refusedAt p ((windowed 0 false).win 0 0) = none ∧ (windowed 2 true).refusedAt p ((windowed 2 true).win 0 0) = some 0 := by decide +kernel
/-- An engine at the first of two moves, and a machine in which that move issues. -/
def engineZero : Engine :=
  { req := { id := 0, core := 0, bank := 2, word := 0, words := 0, beat := 1, slide := false, src := 2, iseq := 0, seqNo := 1, tag := 0, stamp := 0, rep := 0, entry := {},
             job := .prog 0 0 0 [5, 6, 7, 8] }
    code := [0, 0], aa := 0, ab := 0 }
def moving : State :=
  let s := withCore (fun k => { k with banks := vset k.banks 2 { engine := some engineZero } })
  { s with curStrm := .bank 2 }
theorem witness_moves :
    moving.curStrm = .bank 2 ∧ ((here moving).bank (2#5).toNat).engine = some engineZero ∧ (0#8) ≠ 1 ∧ (1#16) ≠ 0 ∧ (6#8) ≠ 1 ∧ (0#16) = 0 ∧
    mvSource (here moving) 0 2 engineZero 6 0 = none ∧ mvSource (here moving) 0 2 engineZero 5 0 = some (.scalar 8, engineZero, 0) ∧
    (MvVal.scalar 8).toScalar = 8 ∧ 8 % 65536 ∉ [0, 1, 2, 4, 5, 6] ∧ (MvVal.scalar 6).toScalar % 65536 ∈ [0, 1, 2, 4, 5, 6] ∧ engineZero.code.length ≤ 8 ∧
    (MvVal.scalar 1).toScalar < engineZero.code.length ∧ (0x36#8).toNat = 0x20 + 2 * 11 ∧ (0x37#8).toNat = 0x21 + 2 * 11 ∧
    (0x38#8).toNat ∉ [0, 0x12, 0x13, 0x14, 0x15, 0x18, 0x19, 0x60, 0x61, 0x62, 0x63] := by decide +kernel
/-- The row that AA names: poisoned, and denied to the banks' master. -/
theorem witness_moves_that_end :
    let p := moving.modCore 0 (fun k => { k with poison := (wordsOf (seamAddr 2 0) 32).map (fun x => (3, x)) })
    let d := moving.modCore 0 (fun k => { k with acc := Vector.replicate 32 {} })
    (mvSource (here p) 0 2 engineZero 0x10 0).map (fun r => r.2.2) = some 0x18 ∧ (mvSource (here d) 0 2 engineZero 0x10 0).map (fun r => r.2.2) = some 0x13 := by
  decide +kernel
/-- What `Runs` asks of a repeat, as a test; `p` is what a clause asks further of what has been read. -/
def runsB (s : State) (v : VWord) (fm : VForm) (p : State → List (List Byte) → List (List Byte) → Bool) : Bool :=
  match readSrc s s.curCore fm.bits v.a (here s).ve.sub fm.aRows with
  | some (u, a) =>
    match readSrc u s.curCore fm.bits v.b (here s).ve.sub fm.bRows with
    | some (t, b) =>
      formOk v fm && !(here s).maskPending (v.mask.toNat :: fm.masks) && s.joins.isEmpty && dstRoom s s.curCore v.d fm.dRows
        && decide ((here s).poison = [] ∧ (here s).upsets = []) && p t a b
    | none => false
  | none => false
theorem runs_of (s : State) (v : VWord) (fm : VForm) (p : State → List (List Byte) → List (List Byte) → Bool) (h : runsB s v fm p = true) :
    ∃ t a b, Runs s v fm t a b ∧ p t a b = true := by
  unfold runsB at h
  split at h
  · rename_i u a ha
    split at h
    · rename_i t b hb
      simp only [Bool.and_eq_true, Bool.not_eq_true', List.isEmpty_iff, decide_eq_true_eq] at h
      obtain ⟨⟨⟨⟨⟨h1, h2⟩, h3⟩, h4⟩, h5⟩, h6⟩ := h
      exact ⟨t, a, b, ⟨h1, ⟨h2, by simp [h3]⟩, ⟨u, ha, hb⟩, fun _ => h4, h5⟩, h6⟩
    · cases h
  · cases h
/-- Nothing further. -/
def any (_ : State) (_ _ : List (List Byte)) : Bool := true
/-- Three whole rows. -/
def whole (s : State) (_ : State) (a b : List (List Byte)) : Bool := a.flatten.length == 256 && b.flatten.length == 256 && (s.vRow 0 2).length == 256
/-- A word of a type with D 1535, A 0 and B 1, or with neither B nor D. -/
def abWord (ty : BitVec 4) (ext : BitVec 24 := 0) (d : BitVec 11 := 1535) (b : BitVec 11 := 1) (mask : BitVec 4 := 0) : VWord :=
  ⟨ty, mask, 0, 0, 0, 0, ⟨d, 0⟩, ⟨0, 0⟩, ⟨b, 0⟩, ext⟩

/-- The first and the last element of a row, active and not. -/
theorem witness_elements :
    let row : List (List Byte) := [List.replicate 256 0]
    let e : VEnv := { k := {}, i := 0, a := row, b := row, d := row, act := fun j => j == 0, zeroing := false, mode := 0, key := 0 }
    (8 = 8 ∨ 8 = 16 ∨ 8 = 32) ∧ e.a.flatten.length = 256 ∧ e.b.flatten.length = 256 ∧ e.d.flatten.length = 256 ∧ 255 < 2048 / 8 ∧ e.act 0 = true ∧
    (∀ j, ({ e with act := fun _ => false } : VEnv).act j = false) := by
  repeat' apply And.intro
  all_goals first | decide +kernel | exact fun _ => rfl
theorem witness_elementwise :
    let i := abWord 4
    let f := abWord 7
    let n := abWord 4 0 1535 0
    let x := abWord 7 0 1535 0
    (∃ t a b, Runs atWork n (formOf2 n) t a b ∧ any t a b = true) ∧ (∃ t a b, Runs atWork i (formOf i) t a b ∧ any t a b = true) ∧
    (∃ t a b, Runs atWork f (formOf f) t a b ∧ any t a b = true) ∧ (∃ t a b, Runs atWork f { formOf f with readD := true } t a b ∧ any t a b = true) ∧
    (∃ t a b, Runs atWork x (formOf2 x) t a b ∧ any t a b = true) ∧ (∃ t a b, Runs atWork x { formOf2 x with lat := 8 } t a b ∧ any t a b = true) := by
  repeat' apply And.intro
  all_goals exact runs_of _ _ _ _ (by decide +kernel)
theorem witness_elementwise_words :
    let i := abWord 4
    let f := abWord 7
    let n := abWord 4 0 1535 0
    let x := abWord 7 0 1535 0
    let m := abWord 4 (8388608 + 31) 1535 0
    (∀ w ∈ [Instr.vadd i, .vsub i, .vmul i, .vmin i, .vmax i, .vadds i, .vsubs i, .vmulh i, .vshl i, .vshr i, .vsar i, .vand i, .vor i, .vxor i,
      .vmov n, .vabs n, .vneg n, .vnot n, .vshl m, .vshr m, .vsar m, .vadd f, .vsub f, .vmul f, .vfma f, .vfms f, .vmin f, .vmax f, .vabs x, .vneg x, .vexp2 x,
      .vlog2 x, .vrcp x, .vrsq x], w.wf = true) ∧
    ints i = true ∧ ints f = false ∧ ¬ i.ext.toNat / 2 ^ 23 % 2 = 1 ∧ m.ext.toNat / 2 ^ 23 % 2 = 1 := by decide
theorem witness_mask_words :
    let s := abWord 4 0xF00000
    let c := abWord 4 0xF00000 0
    let x := abWord 4 1535
    let m := abWord 4 0x100000 0 0
    let o := abWord 0 0x100000 0 0
    let l : VWord := ⟨0, 0, 0, 0, 0, 0, ⟨0, 0⟩, ⟨0, 0⟩, ⟨0, 0⟩, 0x121300⟩
    let r : VWord := ⟨4, 0, 0, 0, 0, 0, ⟨5, 0⟩, ⟨0, 0⟩, ⟨0, 0⟩, 0xF0000⟩
    (∃ t a b, Runs atWork s { formOf s with masks := [15] } t a b ∧ any t a b = true) ∧
    (∃ t a b, Runs atWork c { formOf c with dRows := 0, masks := [15] } t a b ∧ any t a b = true) ∧
    (∃ t a b, Runs atWork x { formOf x with more := [⟨1535, 0⟩] } t a b ∧ any t a b = true) ∧
    (∃ t a b, Runs atWork m { formOf2 m with dRows := 0, masks := [1] } t a b ∧ any t a b = true) ∧
    (∃ t a b, Runs atWork o { formOf2 o with dRows := 0, masks := [1] } t a b ∧ any t a b = true) ∧
    (∃ t a b, Runs atWork l { formOf2 l with aRows := 0, dRows := 0, masks := [1, 2, 1] } t a b ∧ any t a b = true) ∧
    (∃ t a b, Runs atWork r { formOf2 r with aRows := 0, dty := 4, masks := [15] } t a b ∧ any t a b = true) := by
  repeat' apply And.intro
  all_goals exact runs_of _ _ _ _ (by decide +kernel)
theorem witness_mask_word_fields :
    let s := abWord 4 0xF00000
    let c := abWord 4 0xF00000 0
    let x := abWord 4 1535
    let z := abWord 4 1536
    let l : VWord := ⟨0, 0, 0, 0, 0, 0, ⟨0, 0⟩, ⟨0, 0⟩, ⟨0, 0⟩, 0x121300⟩
    let r : VWord := ⟨4, 0, 0, 0, 0, 0, ⟨5, 0⟩, ⟨0, 0⟩, ⟨0, 0⟩, 0xF0000⟩
    (∀ w ∈ [Instr.vsel s, .vcmp c, .vclamp x, .vclamp z, .vmset (abWord 4 0x100000 0 0), .vmrow (abWord 0 0x100000 0 0), .vmlog l, .vmcnt r, .vmfirst r], w.wf = true) ∧
    c.ext.toNat / 2 ^ 20 % 16 ≠ 0 ∧ isReg ⟨BitVec.ofNat 11 (x.ext.toNat % 2048), 0⟩ = true ∧ inRange ⟨BitVec.ofNat 11 (x.ext.toNat % 2048), 0⟩ (repsOf x) 1 = true ∧
    ints x = true ∧ formOk z { formOf z with more := [⟨1536, 0⟩] } = true ∧ isReg ⟨BitVec.ofNat 11 (z.ext.toNat % 2048), 0⟩ = false := by decide
theorem witness_row_words :
    let v := abWord 0
    let i := abWord 4 0 1535 0
    let f := abWord 7 0 1535 0
    let sl := abWord 4 0x40
    let bc := abWord 0 255 1535 0
    (∃ t a b, Runs atWork v { formOf v with dty := 4, readD := true } t a b ∧ whole atWork t a b = true) ∧
    (∃ t a b, Runs atWork i { formOf2 i with lat := 6, merges := false } t a b ∧ any t a b = true) ∧
    (∃ t a b, Runs atWork f { formOf2 f with lat := 6, merges := false } t a b ∧ any t a b = true) ∧
    (∃ t a b, Runs atWork v (formOf v) t a b ∧ whole atWork t a b = true) ∧
    (∃ t a b, Runs atWork sl (formOf sl) t a b ∧ any t a b = true) ∧ (∃ t a b, Runs atWork bc (formOf2 bc) t a b ∧ any t a b = true) := by
  repeat' apply And.intro
  all_goals exact runs_of _ _ _ _ (by decide +kernel)
/-- A reduction by the segments of a LANE node at depth 2, and by a depth at which there is none. -/
theorem witness_row_word_fields :
    let v := abWord 0
    let i := abWord 4 0 1535 0
    let g := abWord 4 (8388608 + 2 * 524288) 1535 0
    let k : Core := { bound := some { bindZero with lanes := [4] } }
    (∀ w ∈ [Instr.vdot4 v, .vtacc v, .vrsum i, .vrsums i, .vrmax i, .vrmin i, .vscan i, .vrsum g, .vpermb v, .vpermw v, .vslide (abWord 4 0x40),
      .vbcast (abWord 0 255 1535 0), .vrsum (abWord 7 0 1535 0)], w.wf = true) ∧
    (here atWork).segLanes i = some 64 ∧ k.segLanes g = some 16 ∧ (here atWork).segLanes g = none ∧
    (abWord 0 255 1535 0).ext.toNat % 256 < 2048 / tyBits 0 := by decide
theorem witness_conversions :
    let c := abWord 7 (8 * 1048576) 1535 0
    let w := abWord 0 (7 * 1048576) 1532 0
    let u := abWord 0 (15 * 1048576) 1535 0
    let p := abWord 0 7 1534 0
    let j := abWord 0 7 1534 0
    let q := abWord 7 0 1535 2044
    let qr := abWord 7 0 1535 1535
    let d := abWord 0 (7 * 1048576) 1528 1
    (∃ t a b, Runs atWork c { formOf2 c with aRows := 4, dRows := 1, q := 4, dty := 8 } t a b ∧ any t a b = true) ∧
    (∃ t a b, Runs atWork w { formOf2 w with aRows := 1, dRows := 4, q := 4, dty := 7 } t a b ∧ any t a b = true) ∧
    (∃ t a b, Runs atWork u { formOf2 u with masks := [15] } t a b ∧ any t a b = true) ∧
    (∃ t a b, Runs atWork p { aRows := 2, bRows := 0, dRows := 2, q := 2, bits := 8, dty := 0 } t a b ∧ a.flatten.length == 512) ∧
    (∃ t a b, Runs atWork j { aRows := 2, bRows := 0, dRows := 2, q := 2, bits := 8, dty := 0 } t a b ∧ a.flatten.length == 256 * 2) ∧
    (∃ t a b, Runs atWork q { aRows := 8, bRows := 0, dRows := 1, q := 8, bits := 32, dty := 12 } t a b ∧ any t a b = true) ∧
    (∃ t a b, Runs atWork qr { aRows := 8, bRows := 0, dRows := 1, q := 8, bits := 32, dty := 12 } t a b ∧ any t a b = true) ∧
    (∃ t a b, Runs atWork d { dRows := 8, q := 8, bits := 8, dty := 7 } t a b ∧ any t a b = true) :=
  ⟨runs_of _ _ _ _ (by decide +kernel), runs_of _ _ _ _ (by decide +kernel), runs_of _ _ _ _ (by decide +kernel), runs_of _ _ _ (fun _ a _ => a.flatten.length == 512) (by decide +kernel),
    runs_of _ _ _ (fun _ a _ => a.flatten.length == 256 * 2) (by decide +kernel), runs_of _ _ _ _ (by decide +kernel), runs_of _ _ _ _ (by decide +kernel), runs_of _ _ _ _ (by decide +kernel)⟩
theorem witness_conversion_words :
    let u := abWord 0 0 1535 0
    (∀ w ∈ [Instr.vcvt (abWord 7 (8 * 1048576) 1535 0), .vcvt (abWord 0 (7 * 1048576) 1532 0), .vunt5 (abWord 0 (15 * 1048576) 1535 0), .vunt5 u,
      .vnbps (abWord 0 7 1534 0), .vnbpj (abWord 0 7 1534 0), .vqmx (abWord 7 0 1535 2044), .vqmx (abWord 7 0 1535 1535), .vdqmx (abWord 0 (7 * 1048576) 1528 1)],
      w.wf = true) ∧ formOk u { formOf2 u with masks := [0] } = true ∧ isReg (abWord 7 0 1535 1535).b = true ∧
      inRange (abWord 7 0 1535 1535).b (repsOf (abWord 7 0 1535 1535)) 1 = true ∧
    (let x := abWord 7 0 1535 2040
     (Instr.vqmx x).wf = true ∧ formOk x { aRows := 8, bRows := 0, dRows := 1, q := 8, bits := 32, dty := 12 } = true ∧ x.b.reg ≠ 2044#11 ∧ isReg x.b = false) := by decide
/-- A core whose QS2V holds a seed. -/
def seeded : State := atWork (fun k => { k with qs2v := { items := [(0, 9)] } })
/-- A shortlist whose positions count from what QS2V holds, and one whose candidates are no register rows; words whose destination is QV2M. -/
theorem witness_sampling_operands :
    let b := abWord 7 (15 * 1048576) 1534 2040
    let z : VWord := ⟨7, 0, 0, 0, 0, 0, ⟨1534, 0⟩, ⟨2044, 0⟩, ⟨2044, 0⟩, 15 * 1048576⟩
    let q : VWord := ⟨7, 0, 0, 0, 0, 0, ⟨2042, 0⟩, ⟨0, 0⟩, ⟨1, 0⟩, 0⟩
    let r : VWord := ⟨4, 0, 0, 0, 0, 0, ⟨2042, 0⟩, ⟨0, 0⟩, ⟨0, 0⟩, 0xF0000⟩
    (Instr.vshort b).wf = true ∧ b.b.reg = 2040#11 ∧ (seeded.core 0).qs2v.items = (0, 9#64) :: [] ∧ 0 < seeded.now ∧ (Instr.vshort z).wf = true ∧ srcOk z.a (repsOf z) 1 = true ∧
    isReg z.a = false ∧ (readSrc atWork 0 32 z.a 0 (repsOf z)).isSome = true ∧ (Instr.vsample q).wf = true ∧ q.d.reg = 2042#11 ∧ (Instr.vmcnt r).wf = true ∧
    (Instr.vmfirst r).wf = true ∧ r.d.reg = 2042#11 := by decide +kernel
theorem witness_sampling :
    let h := abWord 7 (15 * 1048576) 1534 2044
    let g := abWord 7 0
    let r : VWord := ⟨7, 0, 0, 0, 0, 0, ⟨1535, 0⟩, ⟨0, 0⟩, ⟨0, 0⟩, 0⟩
    let rq : VWord := ⟨7, 0, 0, 0, 0, 0, ⟨2041, 0⟩, ⟨0, 0⟩, ⟨0, 0⟩, 0⟩
    (∃ t a b, Runs seeded g { q := 8, bits := 32, dty := 4, merges := false } t a b ∧ ((t.core 0).qs2v.items == [(0, 9)]) = true) ∧
    (∃ t a b, Runs atWork r { formOf r with aRows := 0, bRows := 0 } t a b ∧ any t a b = true) ∧
    ((Instr.vshort h).wf = true ∧ srcOk h.a (repsOf h) 1 = true ∧ isReg h.a = true ∧ h.b.reg = 2044#11 ∧ h.d.reg.toNat + 2 ≤ 1536 ∧
      h.ext.toNat / 2 ^ 20 % 16 ≠ 0 ∧ (here atWork).maskPending [15] = false ∧ atWork.joins = [] ∧ (here atWork).poison = [] ∧ (here atWork).upsets = []) ∧
    ((Instr.vshort (abWord 7 0 1534 2044)).wf = true ∧ (Instr.vshort (abWord 7 (15 * 1048576) 1535 2044)).wf = true ∧ 1536 < (1535#11).toNat + 2) ∧
    (Instr.vsample g).wf = true ∧ seedReady seeded 0 g = true ∧ 0 < seeded.now ∧ (Instr.vrng r).wf = true ∧ isReg r.d = true ∧ (Instr.vrng rq).wf = true ∧
    isReg rq.d = false := by
  intro h g r rq
  refine ⟨runs_of _ _ _ (fun t _ _ => (t.core 0).qs2v.items == [(0, 9)]) (by decide +kernel), runs_of _ _ _ _ (by decide +kernel), ?_⟩
  decide
/-- A core with two address registers as said. -/
def based (x y : Word64) (f : Core → Core := id) : State :=
  atWork (fun k => f { k with ar := vset (vset k.ar 0 { val := x }) 7 { val := y } })
/-- The last row of C-space; an address that is not aligned; the first past the end. -/
theorem witness_c_rows :
    let l0 := abWord 4 0x100000 1535 0
    let st : VWord := ⟨4, 0, 0, 0, 0, 0, ⟨0, 0⟩, ⟨1535, 0⟩, ⟨0, 0⟩, 0x100000⟩
    let fa : VWord := ⟨0, 0, 0, 0, 0, 0, ⟨0, 0⟩, ⟨1535, 0⟩, ⟨0, 0⟩, 0xE00000⟩
    let s := based 1048320 0
    (∃ t a b, Runs s fa { memForm fa 0 1 0 with bits := 64, lat := 1 } t a b ∧ any t a b = true) ∧
    ((Instr.vldc l0).wf = true ∧ formOk l0 (memForm l0 1 0 0) = true ∧ (here s).maskPending [0] = false ∧ s.joins = [] ∧ active s l0 ≠ 0 ∧ rowAddr s l0 % 256 = 0 ∧
      rowAddr s l0 + 256 ≤ 1048576 ∧ (∀ y ∈ (here s).shadows, y.tile ≠ rowAddr s l0 / 65536) ∧ dstRoom s 0 l0.d 1 = true) ∧
    (active (based 1 0) l0 ≠ 0 ∧ rowAddr (based 1 0) l0 % 256 ≠ 0) ∧
    (active (based 1048576 0) l0 ≠ 0 ∧ rowAddr (based 1048576 0) l0 % 256 = 0 ∧ 1048576 < rowAddr (based 1048576 0) l0 + 256) ∧
    ((Instr.vstc st).wf = true ∧ formOk st (memForm st 0 1 0) = true ∧ (readSrc s 0 32 st.a 0 1).isSome = true) ∧ (Instr.vaset fa).wf = true ∧
    (Instr.vaadd ⟨0, 0, 0, 0, 0, 0, ⟨0, 0⟩, ⟨0, 0⟩, ⟨0, 0⟩, 0xE0FFFF⟩).wf = true ∧ Settled s [0] ∧ Sound (here s) := by
  refine ⟨runs_of _ _ _ _ (by decide +kernel), ?_⟩
  repeat' apply And.intro
  all_goals decide +kernel
/-- Beat 0, an access beat, and beat 1, which computes; the last 256 bytes of bank 31. -/
theorem witness_bank_rows :
    let l : VWord := ⟨1, 0, 0, 0, 0, 0, ⟨1535, 0⟩, ⟨0, 0⟩, ⟨0, 0⟩, 0x100000⟩
    let st : VWord := ⟨1, 0, 0, 0, 0, 0, ⟨0, 0⟩, ⟨1535, 0⟩, ⟨0, 0⟩, 0x100000⟩
    let s := based 0x7FFF00 0
    let one := based 0x7FFF00 0 (fun k => { k with bt := 1 })
    (here s).maskPending [0] = false ∧ s.joins = [] ∧ active s l ≠ 0 ∧ rowAddr s l % 32 = 0 ∧ rowAddr s l + 256 ≤ 8388608 ∧
    bankOf (rowAddr s l) = bankOf (rowAddr s l + 255) ∧ (here s).bankRoom (bankOf (rowAddr s l)) = true ∧
    ((Instr.vbld l).wf = true ∧ formOk l (memForm l 1 0 0) = true ∧ s.isAccess 0 = true ∧ dstRoom s 0 l.d 1 = true ∧
      (∀ j < 8, (here s).seamRead (coreMaster 0 0) (rowAddr s l + 32 * j) 32 = true)) ∧
    ((Instr.vbst st).wf = true ∧ formOk st (memForm st 0 1 0) = true ∧ (readSrc s 0 8 st.a 0 1).isSome = true ∧
      (∀ j < 8, ((here s).seamWrite (coreMaster 0 0) (rowAddr s st + 32 * j) 32).isSome = true)) ∧
    ((here one).bt = 1 ∧ one.isAccess 1 = false) := by decide +kernel
/-- Eight sectors and 64 lanes of a page in the TLB, and a bitmap at its start. -/
theorem witness_global_rows :
    let l : VWord := ⟨5, 0, 0, 0, 0, 0, ⟨1535, 0⟩, ⟨0, 0⟩, ⟨0, 0⟩, 0x100000⟩
    let st : VWord := ⟨5, 0, 0, 0, 0, 0, ⟨0, 0⟩, ⟨1535, 0⟩, ⟨0, 0⟩, 0x100000⟩
    let gt : VWord := ⟨5, 0, 0, 0, 0, 0, ⟨1535, 0⟩, ⟨0, 0⟩, ⟨2, 0⟩, 0x100000⟩
    let sc : VWord := ⟨5, 0, 0, 0, 0, 0, ⟨0, 0⟩, ⟨1535, 0⟩, ⟨2, 0⟩, 0x100000⟩
    let mp : VWord := ⟨0, 0, 0, 0, 0, 0, ⟨0, 0⟩, ⟨0, 0⟩, ⟨0, 0⟩, 0xF000E0⟩
    let s := based 0x3000 0x18000
    let sectors := ((List.range 8).filter (fun j => (List.range 32).any (fun y => hot s l (32 * j + y)))).map (fun j => (rowAddr s l + 32 * j) % 2 ^ 64)
    (here s).maskPending [0] = false ∧ s.joins = [] ∧ (Instr.vldg l).wf = true ∧ formOk l (memForm l 1 0 0) = true ∧ rowAddr s l % 32 = 0 ∧ sectors.length = 8 ∧
    ((letsIn (s.letIn 0 32 0 8 sectors)).map (fun r => dstRoom r.1 0 l.d 1)) = some true ∧
    ((Instr.vstg st).wf = true ∧ formOk st (memForm st 0 1 0) = true ∧ (storeRow s 0 st 0).map (fun r => r.2.length) = some 256 ∧
      (letsIn (s.letIn 0 32 1 8 sectors)).isSome = true) ∧
    ((Instr.vgth gt).wf = true ∧ formOk gt (memForm gt 1 0 1) = true ∧ (readSrc s 0 32 gt.b 0 1).isSome = true ∧
      ((letsIn (s.letIn 0 4 0 64 (List.replicate 64 0x3000))).map (fun r => dstRoom r.1 0 gt.d 1)) = some true) ∧
    ((Instr.vsct sc).wf = true ∧ formOk sc (memForm sc 0 1 1) = true ∧ (storeRow s 0 sc 0).map (fun r => r.2.length) = some 256 ∧
      (letsIn (s.letIn 0 4 1 64 (List.replicate 64 0x3000))).isSome = true) ∧
    ((Instr.vmpos mp).wf = true ∧ (here s).maskPending [15] = false ∧ ((here s).vbase 7).toNat % 64 = 0 ∧ min 32 (4096 - ((here s).vbase 7).toNat / 8 % 4096) = 32 ∧
      (letsIn (s.letIn 0 32 kindVmpos 1 [0x3000])).isSome = true) := by decide +kernel
/-- The last bitmap whose 32 bytes lie in one page, and one that runs into the next. -/
theorem witness_bitmap_pages :
    let s := based 0 0x1FF40 (fun k => { k with tlb := [page, { page with va := 0x4000 }] })
    min 32 (4096 - (0x1FF00 : Nat) / 8 % 4096) = 32 ∧ min 32 (4096 - (0x1FF40 : Nat) / 8 % 4096) = 24 ∧ ((here s).vbase 7).toNat = 0x1FF40 ∧
    (letsIn (s.letIn 0 8 kindVmpos 1 [0x3FE8, 0x3FF0, 0x3FF8, 0x4000])).isSome = true := by decide +kernel
/-- A block with a second pass to run, one in its last pass alone and before another, a tile whose bit is full. -/
theorem witness_vector_control :
    let blocks := fun (l : List (Nat × BlkEntry)) => atWork (fun k => { k with bqv := { items := l } })
    let full := atWork (fun k => { k with sr := { k.sr with tfull := 8 } })
    let e : VWord := ⟨0, 0, 0, 0, 0, 0, ⟨0, 0⟩, ⟨0, 0⟩, ⟨0, 0⟩, 0⟩
    let w : VWord := { e with ext := 0x340000 }
    (∀ i ∈ [Instr.vend e, .vnop { e with ext := 0xFFFFFF }, .vtileWait w, .vtileMark { e with ext := 0x3C0000 }], i.wf = true) ∧
    (here (blocks [(0, ⟨4, 2, false, 0, 0⟩)])).ve.ovr = none ∧ 1 < (⟨4, 2, false, 0, 0⟩ : BlkEntry).left ∧
    (here (blocks [(0, ⟨4, 1, false, 0, 0⟩)])).bqv.items = [(0, ⟨4, 1, false, 0, 0⟩)] ∧ (⟨4, 1, false, 0, 0⟩ : BlkEntry).left ≤ 1 ∧
    (here (blocks [(0, ⟨4, 1, false, 0, 0⟩), (0, ⟨9, 1, false, 0, 0⟩)])).bqv.items = (0, ⟨4, 1, false, 0, 0⟩) :: [(0, ⟨9, 1, false, 0, 0⟩)] ∧
    (here full).sr.tfull.getLsbD (w.ext.toNat / 2 ^ 20 % 16) = (w.ext.toNat / 2 ^ 18 % 2 == 1) ∧
    (here atWork).sr.tfull.getLsbD (w.ext.toNat / 2 ^ 20 % 16) ≠ (w.ext.toNat / 2 ^ 18 % 2 == 1) := by decide
/-- A core that holds its quad's array, with a format word in QS2M, planes and full bits as said. -/
def leased (f : Word64) (act shd : ArrPlane) (tfull : BitVec 16 := 0) (g : Core → Core := id) : State :=
  (atWork (fun k => g { k with qs2m := { items := [(0, f)] }, sr := { k.sr with tfull } })).setQuad 0 { act, shd, holder := some 0, left := 4 }
/-- A loaded block of 4 by 4 elements of type `wt`, loaded by launch 1. -/
def block (wt : Nat) : ArrPlane := { st := 2, wt, k := 4, n := 4, gen := 1 }
/-- A matrix word of no gap on tile 2 with this body. -/
def mword (tile : BitVec 4) (body : BitVec 170) : MWord := ⟨0, 0, 0, tile, body⟩
theorem witness_mlds :
    let s := leased 0x400 {} {}
    let w := mword 0 0
    ((Instr.mlds w).wf = true ∧ (here s).carries w = true ∧ (s.quad (quadOf 0)).holder = some (quadIndex 0) ∧ (here s).poison = [] ∧ (here s).upsets = []) ∧
    w.spec = 0 ∧ (s.popFormat 0).map Prod.snd = some 0x400#64 ∧ fwValid 0x400 = true ∧ fwSound 0x400 = true ∧ fwValid 0 = false ∧
    bodyOf w 148 22 % 64 = 0 ∧ 2 * (bodyOf w 138 8 + 1) ≤ 2048 / tyBits (fwW 0x400) ∧ fwW 0x400 ≠ 13 ∧
    bodyOf w 148 22 + blockBytes (fwW 0x400) (2 * (bodyOf w 138 8 + 1)) (bodyOf w 131 7 + 1) ≤ 4194304 ∧
    (s.core (quadCore (quadOf 0) (bodyOf w 146 2))).bound = some bindZero ∧ bindZero.gen = (here s).bnd.gen ∧ (∃ j < 16, s.isAccess j = true) ∧
    (let o := s.coreBeat 0
     let b := s.accessFrom (s.now + 2) 64 o.1 o.2 (s.coreBeatLen 0)
     blockBytes (fwW 0x400) (2 * (bodyOf w 138 8 + 1)) (bodyOf w 131 7 + 1) ≤ 1024 * (s.beatEnt b.1).len) ∧
    (atWork.popFormat 0).isNone = true ∧ (here atWork).carries w = true := by decide +kernel
theorem witness_mswap :
    let w := mword 0 0
    let filling := leased 0 {} { st := 1 }
    let foreign := leased 0 {} { block 0 with gen := 2 }
    let s := leased 0 {} (block 0)
    ((Instr.mswap w).wf = true ∧ (here s).carries w = true ∧ (s.quad (quadOf 0)).holder = some (quadIndex 0)) ∧ (s.quad 0).shd.st ≠ 1 ∧
    (s.quad 0).shd.gen = (here s).bnd.gen ∧ (filling.quad 0).shd.st = 1 ∧ (foreign.quad 0).shd.st = 2 ∧ (foreign.quad 0).shd.gen ≠ (here foreign).bnd.gen := by
  decide +kernel
/-- A step from the last A row into the last row of tile 2; an MXFP4 step with its scales; a step whose rows come from QV2M. -/
theorem witness_mstep :
    let w := mword 2 (1535 * 2 ^ 159 + 127 * 2 ^ 145)
    let x := mword 2 (1534 * 2 ^ 159 + 127 * 2 ^ 145)
    let q := mword 2 (2042 * 2 ^ 159)
    let s := leased 0x400 (block 0) {} 0 (fun k => { k with qv2m := { items := [(0, [])] } })
    let s4 := leased 0x7DD (block 13) {}
    (∀ i ∈ [Instr.mstep w, .mstep x, .mstep q], i.wf = true) ∧ (here s).carries w = true ∧ (here s).carries q = true ∧ (here s4).carries x = true ∧
    (s.quad (quadOf 0)).holder = some (quadIndex 0) ∧ (s.popFormat 0).map Prod.snd = some 0x400#64 ∧ fwFits 0x400 (s.quad 0).act = true ∧
    (s.quad 0).act.gen = (here s).bnd.gen ∧ bodyOf w 145 7 + (bodyOf w 152 7 + 1) ≤ 128 ∧ (here s).mx.sub < bodyOf w 152 7 + 1 ∧ (here s).specBlocked w = false ∧
    (here s).sr.tfull.getLsbD 2 = false ∧ bodyOf w 159 11 + (bodyOf w 152 7 + 1) ≤ 1536 ∧ fwA 0x400 ≠ 13 ∧
    (s4.popFormat 0).map Prod.snd = some 0x7DD#64 ∧ fwValid 0x7DD = true ∧ fwSound 0x7DD = true ∧ fwFits 0x7DD (s4.quad 0).act = true ∧ fwA 0x7DD = 13 ∧
    bodyOf x 159 11 + (bodyOf x 152 7 + 1) + cdiv (bodyOf x 152 7 + 1) 16 ≤ 1536 ∧ bodyOf q 159 11 = 2042 ∧ (here s).qv2m.items = (0, []) :: [] ∧ 0 < s.now := by
  decide +kernel
/-- The second row of a step, which keeps the plane that was active when its command issued, after another core's exchange. -/
theorem witness_mstep_later_row :
    let w := mword 2 (1 * 2 ^ 152 + 126 * 2 ^ 145)
    let s := leased 0 {} {} 0 (fun k => { k with mx := { k.mx with sub := 1, istamp := 7, fw := some 0x400 }, mplane := some (7, block 0) })
    (here s).mx.firstRow = false ∧ (here s).mplane = some ((here s).mx.istamp, block 0) ∧ (s.popFormat 0).map Prod.snd = some 0x400#64 ∧
    fwFits 0x400 (block 0) = true ∧ (block 0).gen = (here s).bnd.gen ∧ (Instr.mstep w).wf = true ∧ (here s).carries w = true ∧
    bodyOf w 145 7 + (bodyOf w 152 7 + 1) ≤ 128 ∧ (here s).mx.sub < bodyOf w 152 7 + 1 ∧ (s.quad (quadOf 0)).holder = some (quadIndex 0) := by decide +kernel
theorem witness_mzero_mdrain :
    let z := mword 2 (127 * 2 ^ 163)
    let d := mword 2 (127 * 2 ^ 163 + 1535 * 2 ^ 143)
    let e := mword 2 (2 * 2 ^ 154 + 5 * 2 ^ 94)
    let s := leased 0x400 (block 0) {} 0 (fun k => { k with plane := #v[{ tiles := [(5, { img := [] })] }, {}] })
    let r := leased 0x400400 (block 0) {}
    (Instr.mzero z).wf = true ∧ (here s).carries z = true ∧ (s.quad (quadOf 0)).holder = some (quadIndex 0) ∧ bodyOf z 163 7 + (bodyOf z 156 7 + 1) ≤ 128 ∧
    (here s).mx.sub = 0 ∧ (here s).specBlocked z = false ∧ (here s).sr.tfull.getLsbD 2 = false ∧ (here (leased 0 {} {} 4)).sr.tfull.getLsbD 2 = true ∧
    (Instr.mdrain d).wf = true ∧ (Instr.mdrain e).wf = true ∧ d.spec = 0 ∧ (s.popFormat 0).map Prod.snd = some 0x400#64 ∧
    bodyOf d 163 7 + (bodyOf d 156 7 + 1) ≤ 128 ∧ bodyOf d 154 2 = 0 ∧ bodyOf d 143 11 + (bodyOf d 156 7 + 1) * 1 ≤ 1536 ∧ fwResidual 0x400 = false ∧
    bodyOf e 154 2 = 2 ∧ (Table.find? (here s).act.tiles (bodyOf e 94 6)).isSome = true ∧ (here s).tileShadow 2 = false ∧
    (r.popFormat 0).map Prod.snd = some 0x400400#64 ∧ fwValid 0x400400 = true ∧ fwSound 0x400400 = true ∧ fwResidual 0x400400 = true ∧
    bodyOf d 132 11 + (bodyOf d 156 7 + 1) * 1 ≤ 1536 := by decide +kernel
/-- A word that its block's tag does not cover: a speculative one outside a speculative block. -/
theorem witness_matrix_blocks :
    (Instr.mflag (mword 2 0)).wf = true ∧ (Instr.mend (mword 0 0)).wf = true ∧ (Instr.mnop (mword 0 (0xFFFFFF * 2 ^ 146))).wf = true ∧
    (here atWork).carries (mword 2 0) = true ∧ (here atWork).carries ⟨0, 1, 1, 2, 0⟩ = false ∧ (here atWork).mx.firstRow = true := by decide +kernel
theorem witness_integer_steps : fwInt 0x400 = true := by decide
/-- The machine at work with an event's operands. -/
def told (a : Arg) (f : Core → Core := id) (g : State → State := id) : State :=
  let s := g (atWork f)
  { s with arg := a }
/-- A result for a place. -/
def resultFor (p : SPlace) : SRes := { core := 0, place := p, val := 3, stamp := 5, icyc := 0 }
def vresultFor (p : VPlace) (flags : Nat := 0) : VRes := { core := 0, place := p, data := [7], sel := [], stamp := 5, rep := 0, icyc := 0, flags }
/-- A result issued before and one issued after the last writer of s1, of row 4 and of m1. -/
theorem witness_results_land :
    let late := fun (n : Nat) => told (.sres (resultFor (.reg 1))) (fun k => { k with s := vset k.s 1 { stamp := n } })
    let rows := fun (n : Nat) => told (.vres (vresultFor (.row 4))) (fun k => { k with rows := [(4, (n, 0))], m := vset k.m 1 { stamp := n } })
    (late 4).arg = .sres (resultFor (.reg 1)) ∧ (vget ((late 4).core 0).s 1 {}).stamp ≤ 5 ∧ 5 < (vget ((late 6).core 0).s 1 {}).stamp ∧
    (resultFor (.reg 31)).place = .reg 31 ∧ (resultFor (.reg 0)).place = .reg 0 ∧ (resultFor (.cond 11)).place = .cond 11 ∧ (11#4).toNat < 12 ∧
    (rows 5).arg = .vres (vresultFor (.row 4)) ∧ ((rows 5).core 0).outdated 4 5 0 = false ∧ ((rows 6).core 0).outdated 4 5 0 = true ∧
    (vresultFor (.crow 8)).place = .crow 8 ∧ (vresultFor (.mask 0)).place = .mask 0 ∧ (vresultFor (.mask 15)).place = .mask 15 ∧
    (vresultFor (.areg 7)).place = .areg 7 ∧ (vresultFor .qv2s).place = .qv2s ∧ (vresultFor .qv2m).place = .qv2m ∧ (vresultFor .qv2s).flags = 0 ∧ (vresultFor .qv2s 3).flags ≠ 0 := by decide
/-- A row that a load fills, a load of s1 that has performed, and one that has not. -/
def joining (poisoned : Bool) : RowJoin :=
  { id := 9, core := 0, row := 1535, data := [], sel := [], keep := [], left := 0, stamp := 5, rep := 0, due := 0, poisoned }
def loading (done : Bool) : GReq :=
  { id := 9, core := 0, src := 0, va := 0x3000, pa := 0x5000, n := 8, job := .load 1 8 true, stamp := 5, entry := {}, performAt := 0, slots := 1, done, val := [1] }
def walkOf (spid va : Nat) : Walk := { id := 9, unit := 0, core := 0, spid, va, write := false, kind := 0 }
theorem witness_returns :
    let j := told (.nums [9]) id (fun s => { s with joins := [joining false] })
    let p := told (.nums [9, 1]) id (fun s => { s with joins := [joining true] })
    let g := told (.nums [9]) (fun k => { k with s := vset k.s 1 { pending := some 5 } }) (fun s => { s with greqs := [loading true] })
    let x := told (.nums [9]) id (fun s => { s with greqs := [loading false] })
    j.arg = .nums [9] ∧ j.joins.find? (fun x => x.id == 9) = some (joining false) ∧ (joining false).poisoned = false ∧ (joining false).row < 1536 ∧
    (j.core 0).outdated 1535 5 0 = false ∧ p.arg = .nums [9, 1] ∧ p.joins.find? (fun x => x.id == 9) = some (joining true) ∧
    g.greqs.find? (fun x => x.id == 9) = some (loading true) ∧ (loading true).job = .load 1 8 true ∧ (loading true).done = true ∧ (loading true).poisoned = false ∧
    (1#5) ≠ 0 ∧ (vget (g.core 0).s 1 {}).stamp ≤ 5 ∧ (vget (g.core 0).s 1 {}).pending = some 5 ∧ (p.core 0).fault = none ∧ (p.core 0).ve.sub = 0 ∧
    (p.core 0).ve.replay.length < 16 ∧ (joining true).poisoned = true ∧ x.greqs.find? (fun x => x.id == 9 && !x.done) = some (loading false) ∧ (x.core 0).fault = none := by decide +kernel
theorem witness_stalls_and_walks :
    let w := told (.nums [9]) id (fun s => { s with walks := [walkOf 1 0x10000] })
    let f := told (.nums [9]) id (fun s => { s with walks := [walkOf 1 0x200000000000000] })
    (told (.strm 0 .scalar)).arg = .strm 0 .scalar ∧ w.walks.find? (fun x => x.id == 9) = some (walkOf 1 0x10000) ∧ w.proc? 1 = some procZero ∧
    w.walk procZero 0x10000 false = .leaf (leafPte 40 true true) 0 ∧ f.walks.find? (fun x => x.id == 9) = some (walkOf 1 0x200000000000000) ∧
    f.walk procZero 0x200000000000000 false = .fault 4 := by decide +kernel
/-- A row of an MSTEP, and drained rows for A-space and for QM2V. -/
def rowOfStep (acc isInt : Bool) : MRow :=
  { core := 0, tile := 15, row := 127, acc, isInt, cols := 128, vals := List.replicate 128 1, flags := 0, tag := none,
    of_ := { stamp := 5, icyc := 0, word := 0, fw := none, idx := 0, poison := false } }
def drainedRow (dest : Nat) : DrainRow :=
  { core := 0, dest, arow := 1535, entry := 0, first := 0, pieces := [List.replicate 256 0], flags := 0,
    of_ := { stamp := 5, icyc := 0, word := 0, fw := none, idx := 0, poison := false } }
theorem witness_matrix_results :
    let filling := fun (part : Nat) (data : List Byte) => told (.nums [0, 5, 0, part]) id (fun s => s.setQuad 0 { shd := { st := 1, stamp := 5, data } })
    let o : RowOf := { stamp := 6, icyc := 0, word := 0, fw := none, idx := 0, poison := false }
    let idle := told (.flag 0 2 true o)
    let busy := told (.flag 0 2 true o) id (fun s => s.post 20 3 none (.run .matrixRowWrite (.mrow (rowOfStep false true))))
    (filling 0 []).arg = .nums [0, 5, 0, 0] ∧ ((filling 0 []).quad 0).shd.st = 1 ∧ ((filling 0 []).quad 0).shd.stamp = 5 ∧
    ((filling 0 []).core (quadCore 0 0)).poison = [] ∧ ((filling 0 []).core (quadCore 0 0)).upsets = [] ∧
    (filling 1 [1]).arg = .nums [0, 5, 0, 1] ∧ ((filling 1 [1]).quad 0).shd.data ≠ [] ∧ ((filling 1 [1]).quad 0).shd.st = 1 ∧ ((filling 1 [1]).quad 0).shd.stamp = 5 ∧
    (rowOfStep true true).of_.poison = false ∧ (rowOfStep true true).tag = none ∧ (rowOfStep true true).acc = true ∧ (rowOfStep false true).acc = false ∧
    (rowOfStep true true).vals.length = 128 ∧ (rowOfStep true true).isInt = true ∧ (rowOfStep false true).flags = 0 ∧
    (drainedRow 0).dest = 0 ∧ (drainedRow 0).flags = 0 ∧ ({ drainedRow 0 with flags := 3 } : DrainRow).flags ≠ 0 ∧ (drainedRow 0).of_.poison = false ∧ (drainedRow 1).dest = 1 ∧ (drainedRow 1).pieces = [List.replicate 256 0] ∧
    ((told (.drow (drainedRow 1))).core 0).qm2v.taken 10 < 4 ∧ (drainedRow 1).flags = 0 ∧
    (told (.drow (drainedRow 1))).elastic 0 = true ∧ (told (.drow (drainedRow 1))).drainBehind (drainedRow 1) = false ∧
    (told (.nums [0, 15, 1])).arg = .nums [0, 15, 1] ∧ idle.arg = .flag 0 2 true o ∧ idle.matrixDue 0 o.stamp = [] ∧ busy.arg = .flag 0 2 true o ∧
    busy.matrixDue 0 o.stamp = 20 :: [] ∧ (∀ i : Fin 4, (idle.core 0).sr.mroute[i].getLsbD 0 = true → (idle.core 0).sr.mroute[i].toNat / 2 % 16 ≠ 2) ∧
    ((told (.flag 0 2 true o) (fun k => { k with sr := { k.sr with tfull := 4 } })).core 0).sr.tfull.getLsbD 2 = true ∧
    (told (.mrow (rowOfStep true true))).arg = .mrow (rowOfStep true true) := by
  decide +kernel
/-- The lease: asked for two cycles ago, held, given up, and tags to be resolved with and without a shadow. -/
theorem witness_lease_and_tags :
    let a := told (.nums [0]) id (fun s => s.setQuad 0 { last := 3, reqs := [(3, 1, 2), (2, 9, 1), (1, 8, 4)] })
    let h := told (.nums [0]) id (fun s => s.setQuad 0 { holder := some 0 })
    let m := told (.nums [0]) (fun k => { k with mfreeReq := true })
    let r := fun (b : Bool) (l : List Shadow) => told (.nums [0]) (fun k => { k with resolve := [(b, 7)], specTags := [7], shadows := l })
    let x : Shadow := { tag := 7, tile := 15, mem := [], filled := true }
    (1 : Nat) < 4 ∧ (a.quad 0).last < 4 ∧ (a.quad 0).holder = none ∧ (1, 8, 4) ∈ (a.quad 0).reqs ∧ (a.quad 0).reqs.Pairwise (fun a b => a.1 ≠ b.1) ∧ 8 + 2 ≤ a.now ∧
    (∀ r ∈ (a.quad 0).reqs, r.1 < 4 → r.1 ≠ 1 → r.2.1 + 2 ≤ a.now → (1 + 3 - (a.quad 0).last) % 4 < (r.1 + 3 - (a.quad 0).last) % 4) ∧ (a.quad 0).busyTo ≤ a.now ∧ a.arrayBusy 0 = false ∧ (h.quad 0).holder = some 0 ∧
    (m.core 0).mfreeReq = true ∧ (m.core 0).mx.sub = 0 ∧ (m.core 0).mx.busyTo ≤ m.now ∧ ((r true []).core 0).resolve = [(true, 7)] ∧
    7 ∈ ((r true []).core 0).specTags ∧ ((r true []).core 0).mx.sub = 0 ∧ ((r true []).core 0).mx.busyTo ≤ (r true []).now ∧ ((r true []).core 0).shadows = [] ∧
    ((r true [x]).core 0).shadows = [x] ∧ x.tag = 7 ∧ x.filled = true ∧ Memory.wf ((r true [x]).core 0).c = true ∧ ((r false [x]).core 0).resolve = [(false, 7)] := by
  decide +kernel
/-- A tile-table entry 63 that is ready, or idle; a piece for it, for an address, and under a plan. -/
def ready (r : Option Nat) : TileEntry := { img := [8, 0, 0, 0, 1], ready := r }
def pieceTo (a : Option Nat) (flow : Option (Nat × Nat)) : Piece :=
  { src := 0, dst := 0, fid := 9, copyTo := a, entry := 63, slot := 0, index := 0, off := 0, data := [1], poison := false, flow }
theorem witness_pieces :
    let s := fun (r : Option Nat) => told (.nums [0, 63]) (fun k => { k with plane := #v[{ tiles := [(63, ready r)] }, {}] })
    let p := pieceTo (some 64) none
    let q := pieceTo none none
    let f := pieceTo (some 64) (some (2, 3))
    (s (some 4)).arg = .nums [0, 63] ∧ ((s (some 4)).core 0).active < 2 ∧ ((s (some 4)).core 0).act.tiles = [(63, ready (some 4))] ∧ (ready (some 4)).firing = none ∧
    (ready (some 4)).ready = some 4 ∧ ((s none).core 0).tile 63 = some (ready none) ∧ (ready none).ready = none ∧
    (told (.piece p)).away 0 = false ∧ p.copyTo = some 64 ∧ ((told (.piece p)).fireOf 0 9).isNone = true ∧ p.flow = none ∧ f.flow = some (2, 3) ∧ q.copyTo = none ∧
    ((told (.piece q)).core 0).tile 63 = none ∧ ((told (.piece q)).core 0).fault = none := by decide +kernel
/-- A combining entry that expects slots 0 and 3, with and without a firing; a contribution for slot 3. -/
theorem witness_contributions :
    let row : List Byte := List.replicate 32 1
    let img : List Byte := [26, 0, 0, 9, 1, 0]
    let p : Piece := { pieceTo none none with slot := 3, data := row }
    let o : Piece := { pieceTo (some 64) none with data := row }
    let zero : Contrib := { slot := 0, piece := 0, at_ := 4, data := row, poison := false }
    let taken : List Contrib := [zero, { slot := 3, piece := 0, at_ := 10, data := row, poison := false }]
    let f : Firing := { id := 8, entry := 63, img, pieces := 1, left := 2, stamp := 0, own := [(4, o)] }
    let s := fun (x : TileEntry) (l : List Firing) => told (.piece p) (fun k => { k with plane := #v[{ tiles := [(63, x)] }, {}], fires := l })
    let a : TileEntry := { img, contribs := [zero] }
    let b : TileEntry := { a with firing := some 8 }
    (s a []).arg = .piece p ∧ (s a []).away 0 = false ∧ p.copyTo = none ∧ p.flow = none ∧ ((s a []).fireOf 0 9).isNone = true ∧ ((s b [f]).fireOf 0 9).isNone = true ∧
    ((s a []).core 0).active < 2 ∧ ((s a []).core 0).tile 63 = some a ∧ a.firing = none ∧ ((s b [f]).core 0).tile 63 = some b ∧ b.firing = some f.id ∧
    tcCombine img = true ∧ bitOf (tcExpect img) p.slot = true ∧ p.slot < 4 ∧ tcWin img = (p.off, p.data.length) ∧ p.index < tcRows img ∧
    (∀ y ∈ a.contribs, y.slot = p.slot → y.piece ≠ p.index) ∧ ((s b [f]).core 0).fires = [f] ∧ f.entry = p.entry ∧ f.own = [(4, o)] ∧ o.index = p.index ∧
    b.contribs ++ [({ slot := p.slot, piece := p.index, at_ := (s b [f]).now, data := p.data, poison := p.poison } : Contrib)] = taken ∧
    taken.Pairwise (fun a b => a.slot ≠ b.slot ∨ a.piece ≠ b.piece) ∧
    (∀ sl < 4, bitOf (tcExpect img) sl = true → ∃ y ∈ taken, y.slot = sl ∧ y.piece = p.index ∧ y.data = row) := by decide +kernel
def fired (post : Byte) : Firing := { id := 9, entry := 63, img := [8, 0, 0, 0, 1, 0, post, 63], pieces := 1, left := 1, stamp := 0 }
theorem witness_posts_and_triggers :
    let s := fun (n : Nat) => told (.nums [0, 9, n]) (fun k => { k with fires := [fired 2] })
    let d : Piece := { src := 0, dst := 0, fid := 9, copyTo := none, entry := 63, slot := 0, index := 0, off := 0, data := [], poison := false, flow := none }
    let e := told (.piece d) (fun k => { k with fires := [fired 2] })
    let armed : Trigger := { armed := true, mask := 2, action := 2 }
    let t := told (.nums [0]) (fun k => { k with trig := (Vector.replicate 8 {}).set 0 armed, sr := { k.sr with sboard := 2 } })
    let flow : FlowSt := { src := 2, dst := 3, free := 0, inUse := 1, soon := [] }
    e.arg = .piece d ∧ d.src = 0 ∧ d.fid = (fired 2).id ∧ (e.core 0).fires = [fired 2] ∧ (fired 2).left = 1 ∧ (fired 2).done = false ∧ (e.core 0).tile 63 = none ∧
    ((s 0).core 0).fires = [fired 2] ∧
    (s 0).arg = .nums [0, 9, 0] ∧ tcPost (fired 2).img = 2 ∧ (told (.nums [0, 63])).away 0 = false ∧ (63 : Nat) < 64 ∧
    (told (.word [0, 1, 0, 5] 0)).arg = .word [0, 1, 0, 5] 0 ∧ (0 : Nat) = 0 ∧ (2 : Nat) ≠ 0 ∧ (1#64 + 1).toNat = 2 ∧ (0#64 + 1).toNat ≠ 2 ∧ 1 / 1024 = (atWork.core 0).bnd.pkgPos ∧
    coreDie 0 = coreDie (1 % 1024) ∧ t.arg = .nums [0] ∧ (t.core 0).trig = (Vector.replicate 8 {}).set 0 armed ∧ armed.action = 2#64 ∧
    (armed.mask &&& (t.core 0).sr.sboard) = armed.mask ∧ (t.core 0).bqv.taken t.now < 16 ∧ (∀ i : Fin 8, ((told (.nums [0])).core 0).trig[i].armed = false) ∧
    (told (.nums [2, 3]) id (fun s => { s with flows := [flow] })).flows = [flow] ∧ flow.src = 2 ∧ flow.dst = 3 ∧ 0 < flow.inUse := by decide +kernel
/-- A request of a beat, its words, and the beats at a core. -/
def bankReq (beat : Nat) (job : BankJob) (words : Nat := 8) (src : Nat := 2) : BankReq :=
  { id := 9, core := 0, bank := 31, word := 0, words, beat, slide := false, src, iseq := 0, seqNo := 1, tag := 0, stamp := 0, rep := 0, entry := {}, job }
theorem witness_beats :
    let w : BankWrite := { src := 0, iseq := 0, addr := 64, data := [7], sel := [], tag := 0 }
    let k : Core := { banks := (Vector.replicate 32 {}).set 0 { writes := [w] } }
    let s : State := { State.reset with arg := .nums [0], cores := [(0, k)] }
    let a := fun (beat : Nat) => told (.nums [0, 9]) (fun k => { k with arriving := [bankReq beat (.copyOut 0)] })
    s.arg = .nums [0] ∧ s.cores = [(0, k)] ∧ k.banks = (Vector.replicate 32 {}).set 0 { writes := [w] } ∧ w.sel = [] ∧ Memory.wf k.seam = true ∧ k.poison = [] ∧
    k.upsets = [] ∧ w.poison = false ∧ (a 0).arg = .nums [0, 9] ∧ ((a 0).core 0).arriving = [bankReq 0 (.copyOut 0)] ∧
    (a 0).bankFits 0 (bankReq 0 (.copyOut 0)) = true ∧ (a 281474976710655).bankFits 0 (bankReq 281474976710655 (.copyOut 0)) = false ∧
    (a 0).pastF (bankReq 0 (.copyOut 0)).core 0 (bankReq 0 (.copyOut 0)).beat = false ∧
    (bankReq 0 (.copyOut 0)).slide = false ∧ (bankReq 0 (.copyOut 0)).src = 2 ∧ ((a 0).core 0).fault = none := by decide +kernel
/-- A machine whose open beat is beat 1, which computes; a program waits in bank 31, or stands suspended in it. -/
def computing (f : Core → Core) : State := told (.nums [0, 31]) f (fun s => { s with beat := 1, beatAt := 5 })
theorem witness_programs :
    let r := bankReq 1 (.prog 5 6 7 []) 0
    let s := computing (fun k => { k with banks := vset k.banks 31 { queue := [r] }, plane := #v[{ progs := [(5, [0])] }, {}] })
    let e := { engineZero with suspended := true }
    let p := computing (fun k => { k with banks := vset k.banks 31 { engine := some e } })
    s.arg = .nums [0, 31] ∧ s.isCompute (s.coreBeat 0).1 = true ∧ s.pastF 0 0 (s.coreBeat 0).1 = false ∧ (31 : Nat) < 32 ∧
    (s.core 0).bank 31 = { ((s.core 0).bank 31) with queue := [r], engine := none, ended := [], waits := [] } ∧ r.bank = 31 ∧ r.job = .prog 5 6 7 [] ∧
    r.beat = (s.coreBeat 0).1 ∧ Table.getD (s.core 0).act.progs 5 [] ≠ [] ∧ ((p.core 0).bank 31).engine = some e ∧ e.suspended = true ∧
    p.isCompute (p.coreBeat 0).1 = true ∧ p.pastF 0 0 (p.coreBeat 0).1 = false := by decide +kernel
theorem witness_anchors :
    let s := told (.nums [0]) (fun k => { k with sc := { k.sc with waiting := true, live := true }, anchor := none })
    let n := told (.nums [0])
    s.stopes.find? (fun x => x.id == 0) = some stopeZero ∧ stopeZero.cores = [0] ∧ (s.core 0).sc.halted = false ∧
    ((s.anchorReady stopeZero, n.anchorReady stopeZero) = (true, false)) := by decide +kernel
/-- A copy of two words between A and A, or from global memory, and its engine. -/
def copyOf (sspace : Nat) (src : Word64) : CopyDesc :=
  { id := 1, src, dst := 128, len := 64, lines := 1, sspace, dspace := 0, sstride := 0, dstride := 0, beat := 0, slide := false, entry := { icyc := 6 } }
def runOf (d : CopyDesc) (n : Nat) : CopyRun := { desc := d, start := 5, performed := n }
theorem witness_blocks_and_copies :
    let b : BlkEntry := ⟨4, 1, false, 0, 0⟩
    let v := told (.strm 0 .vector) (fun k => { k with bqv := { items := [(9, b)] }, bqm := { items := [(9, b)] } })
    let q := fun (n : Nat) => told (.nums [0]) (fun k => { k with copyQ := [{ copyOf 0 0 with entry := { icyc := n } }] })
    let w := fun (n : Nat) (l : CopyLeg) => told (.copy 0 1 l) (fun k => { k with copy := some (runOf (copyOf 0 64) n) })
    (v.core 0).bqv.items = (9, b) :: [] ∧ (v.core 0).bqm.items = (9, b) :: [] ∧ (v.core 0).ve.live = false ∧ (v.core 0).sc.halted = false ∧ (v.core 0).ve.replay = [] ∧ (v.core 0).mx.live = false ∧
    (v.core 0).mx.replay = [] ∧ 9 < v.now ∧ ((q 7).core 0).copy = none ∧ (q 7).localCyc 0 < 7 + 4 ∧ 6 + 4 ≤ (q 6).localCyc 0 ∧
    ((q 6).core 0).copyQ = { copyOf 0 0 with entry := { icyc := 6 } } :: [] ∧
    ((w 0 (.write (List.replicate 32 0) 0)).core 0).copy = some (runOf (copyOf 0 64) 0) ∧ (copyOf 0 64).scale = none ∧ (List.replicate 32 (0 : Byte)).length = 32 ∧
    (copyOf 0 64).dspace = 0 ∧ (runOf (copyOf 0 64) 0).holding = false ∧ (runOf (copyOf 0 64) 0).performed + 1 < (runOf (copyOf 0 64) 0).words ∧
    (runOf (copyOf 0 64) 1).words ≤ (runOf (copyOf 0 64) 1).performed + 1 := by decide +kernel
/-- A run that reads A, and one whose words wait for a bank. -/
theorem witness_copy_legs :
    let r := told (.copy 0 0 .read) (fun k => { k with copy := some (runOf (copyOf 0 64) 0) })
    let x : CopyRun := { runOf { copyOf 0 64 with dspace := 3 } 0 with unsent := [1] }
    let d := told (.copy 0 1 (.data (List.replicate 32 0) 0)) (fun k => { k with copy := some x })
    r.arg = .copy 0 (runOf (copyOf 0 64) 0).nextWord .read ∧ (r.core 0).copy = some (runOf (copyOf 0 64) 0) ∧ (copyOf 0 64).sspace = 0 ∧ (copyOf 0 64).scale = none ∧
    (copyOf 0 64).cross 0 = false ∧ (r.core ((copyOf 0 64).srcCore 0)).poison = [] ∧ (r.core ((copyOf 0 64).srcCore 0)).upsets = [] ∧ (d.core 0).copy = some x ∧
    isBankSpace x.desc.dspace = true ∧ x.desc.scale = none ∧ 1 ∈ x.unsent := by decide +kernel
/-- A chunk from global memory whose page is cached, or is not, or lies at an address that is none. -/
def chunking (va : Word64) : State := told (.nums [0]) (fun k => { k with copy := some (runOf (copyOf 5 va) 0) })
theorem witness_chunks :
    let x := fun (va : Word64) => runOf (copyOf 5 va) 0
    ((chunking 0x3000).core 0).copy = some (x 0x3000) ∧ (x 0x3000).holding = false ∧ ((chunking 0x3000).core 0).fault = none ∧
    (x 0x3000).nextWord ≤ (x 0x3000).performed ∧ (runOf (copyOf 5 0x3000) 0).chunkSides = [(0, 0x3000 :: [0x3020], kindCopySrc)] ∧
    (chunking 0x3000).chunkOutcome 0 (x 0x3000).chunkSides = none ∧ found ((chunking 0x3000).pageOf 1 0 0x3000 kindCopySrc false) = some 0x5000 ∧
    (chunking 0x4000).chunkOutcome 0 (x 0x4000).chunkSides = some (0x4000, kindCopySrc, .miss) ∧
    (chunking 0x200000000000000).chunkOutcome 0 (x 0x200000000000000).chunkSides
      = some (0x200000000000000, kindCopySrc, .fault (pageFault 0x200000000000000 kindCopySrc 4)) := by decide +kernel
/-- A request of a stream at its LPDDR home, and what it does there. -/
def requested (n : Nat) (job : GJob) : State :=
  told (.nums [9]) id (fun s => { s with mem := [(0x5000, 7)], greqs := [{ loading false with n, job }] })
theorem witness_global_requests :
    let s := requested 8 (.store [1, 2] [])
    let p := requested 2 (.store [1, 2] [false, true])
    let g : GReq := { loading false with n := 8, job := .store [1, 2] [] }
    s.arg = .nums [9] ∧ s.greqs.find? (fun x => x.id == 9 && !x.done) = some g ∧ s.isLocal g.pa = true ∧ s.migrations = [] ∧ s.memUpsets = [] ∧ s.memPoison = [] ∧ s.resvs = [] ∧
    Memory.wf s.mem = true ∧ 0 < g.n ∧ g.job = .store [1, 2] [] ∧ [false, true].length = [(1 : Byte), 2].length ∧
    p.greqs.find? (fun x => x.id == 9 && !x.done) = some { loading false with n := 2, job := .store [1, 2] [false, true] } ∧ (loading false).job = .load 1 8 true ∧
    leNat ((requested 1 (.cas 1 7 8 3)).mem.readBytes (0x5000 % 2 ^ 50) 1) = (7#64).toNat % 2 ^ (8 * 1) ∧
    leNat ((requested 1 (.cas 1 6 8 3)).mem.readBytes (0x5000 % 2 ^ 50) 1) ≠ (6#64).toNat % 2 ^ (8 * 1) := by decide +kernel
/-- Operations of the stream unit: with no descriptor, with one that is open, in another package. -/
def dsOp (base : Word64) (op : Nat) (far : Bool) : DsOp :=
  { id := 9, core := 0, op, cur := 2, rd := 3, a := 0, b := 0, base, win := 0, stamp := 0, at_ := 10, due := 0, far, entry := {} }
def operated (o : DsOp) (l : List Host.Cell) (a : Arg := .nums [9]) : State := told a id (fun s => { s with dsops := [o], mem := l })
theorem witness_stream_unit_events :
    let o := dsOp 0x3000 3 false
    let s := operated o [(0x5098, 1)]
    let z := operated (dsOp 0 3 false) []
    let r := fun (code : Nat) => operated (dsOp 0 3 true) [] (.reply 576 [1] code)
    let streams := fun (desc : Nat) => told (.word [4] 1) id (fun s => { s with procs := [{ procZero with streams := [{ sid := 4, desc, side := 1 }] }] })
    s.dsops = [o] ∧ s.arg = .nums [9] ∧ o.id = 9 ∧ o.far = false ∧ o.base ≠ 0 ∧ o.op = 3 ∧ o.rd ≠ 0 ∧ o.cur ≤ 2 ∧
    (match s.dsLoad (.core 0) 0x3000 256 with | .ok r => (leNat ((r.2.drop 0x98).take 8)).testBit 0 | .error _ => false) = true ∧
    z.dsops = [dsOp 0 3 false] ∧ (z.core 0).fault = none ∧ (r 0).arg = .reply 576 [1] 0 ∧ (r 0).dsops = [dsOp 0 3 true] ∧ 9 = 576 / 64 ∧
    (r 0x31).arg = .reply 576 [1] 0x31 ∧ ((r 0x31).core 0).fault = none ∧ (told (.far 63 (.ds 9 1 3 0 0 0 0 0))).arg = .far 63 (.ds 9 1 3 0 0 0 0 0) ∧ (told (.far 63 (.ds 9 1 3 0 0 0 0 0))).heldBack 63 = false ∧
    ((streams 0x10000).streamOf 4).map (fun x => (x.1.spid, x.2.side)) = some (1, 1) ∧
    (streams 0x10000).portMiss 1 1 (0x10000 + 0x20) = false ∧ (streams 0x10000).portMiss 1 1 (0x10000 + 0x30) = false ∧
    [0x200000000000000 + 0x20, 0x200000000000000 + 0x30].find? ((streams 0x200000000000000).portMiss 1 1) = some 0x200000000000020 := by decide +kernel
/-- A hart's or host's write of a byte at the end of a mapped page, by a master that the tables let through, and by one they do not. -/
def writing (h : Nat) (acc : Table (Vector AccEntry 32)) (port : Bool := false) (va : Word64 := 0x10FFF) : State :=
  told (.write 1 va [7] port) id (fun s => { s with curHart := h, lpddrAcc := acc })
/-- What a range comes to. -/
def stops {α : Type} (x : Except (Nat × Nat) α) : Option (Nat × Nat) := match x with | .error e => some e | .ok _ => none
def reaches (x : Except (Nat × Nat) (List (Nat × Nat × Nat) × PortUnit)) : Option (List (Nat × Nat × Nat)) := x.toOption.map (fun r => r.1)
theorem witness_port_writes :
    let s := writing 15 [] true
    let n := writing 15 [] true 0x200000000000FFF
    let w : State := { s with netPort := { s.netPort with paused := [(1, 0x10000, [7])] } }
    s.arg = .write 1 0x10FFF [7] true ∧ reaches (s.portRange (s.netPort.serve 1) 0x5000 0x10FFF 1 true) = some [(0, 0x20FFF, 1)] ∧
    n.arg = .write 1 0x200000000000FFF [7] true ∧ stops (n.portRange (n.netPort.serve 1) 0x5000 0x200000000000FFF 1 true) = some (0x12, 0x200000000000FFF) ∧
    s.netPort.paused = [] ∧ s.deferred = [] ∧ w.netPort.paused ≠ [] := by decide +kernel
/-- A hart's atomic on an aligned doubleword of the page. -/
theorem witness_hart_atomics :
    let s := told (.hartAmo 15 1 0x10FF8 0 8 5 31)
    s.arg = .hartAmo 15 1 0x10FF8 0 8 5 31 ∧ (15 : Nat) < 16 ∧ (0x10FF8#64).toNat % 8 = 0 ∧ s.walkPa 1 (0x10FF8#64).toNat true = some 0x20FF8 ∧ s.isLocal 0x20FF8 = true ∧
    s.migrations = [] ∧ s.memUpsets = [] ∧ Memory.wf s.mem = true ∧ s.mayAccess (0x7000 + 15) 0x20FF8 8 2 = true ∧ (31#5) ≠ 0 := by decide +kernel
theorem witness_writes :
    let s := writing 15 []
    s.arg = .write 1 0x10FFF [7] false ∧ s.curHart < 16 ∧ 0 < [(7 : Byte)].length ∧ (0x10FFF#64).toNat % 4096 + [(7 : Byte)].length ≤ 4096 ∧
    s.walkPa 1 (0x10FFF#64).toNat true = some 0x20FFF ∧ s.isLocal 0x20FFF = true ∧ s.migrations = [] ∧ s.deferred = [] ∧ Memory.wf s.mem = true ∧
    s.mayAccess (0x7000 + 15) 0x20FFF 1 1 = true ∧ s.mayAccess 0x8000 0x20FFF 1 1 = true := by decide +kernel
/-- Every table of die 0 without a valid entry. -/
def closed : Table (Vector AccEntry 32) := (List.range 32).map (fun i => (i, Vector.replicate 32 {}))
theorem witness_denied_write : (writing 15 closed).mayAccess (0x7000 + 15) 0x20FFF 1 1 = false := by
  have h : ∀ x < 32, (accFind (Table.getD closed x accReset) (0x7000 + 15) 0x20FFF 1 1).isSome = false := by decide +kernel
  have e : (writing 15 closed).mayAccess (0x7000 + 15) 0x20FFF 1 1
      = ((accFind (Table.getD closed (channelOf 0x20FFF) accReset) (0x7000 + 15) 0x20FFF 1 1).isSome && true) := by rfl
  rw [e, h _ (by simp only [channelOf]; omega)]; rfl
theorem witness_errors_and_failures :
    let t := told (.nums [15]) id (fun s => { s with invals := [(15, 1, none)], ktlbf := [15] })
    let m : Migration := { id := 9, spid := 1, va := 0x10000, size := 65536, oldPa := 0x20000, newPa := 0x30000, newPkg := 0, newDie := 0 }
    let p := told (.nums [9]) id (fun s => { s with migrations := [m] })
    (told (.site (.onDie 0 0 5 7))).arg = .site (.onDie 0 0 5 7) ∧ (told (.site (.seam 0 5 7))).arg = .site (.seam 0 5 7) ∧
    (told (.site (.lpddr 5 7))).arg = .site (.lpddr 5 7) ∧ (told (.nums [0, 1])).arg = .nums [0, 1] ∧ ((told (.nums [0, 1])).core 0).bound.isSome = true ∧
    ((told (.nums [0, 1])).core 0).fault = none ∧ t.arg = .nums [15] ∧ (15 : Nat) < 16 ∧ 15 ∈ t.ktlbf ∧
    15 ∉ (told (.nums [15])).ktlbf ∧ p.arg = .nums [9] ∧ p.migrations = [m] ∧ m.phase = 0 ∧ m.dirty = 0 :: (List.range 1023).map (· + 1) ∧ p.isLocal m.oldPa = true ∧
    p.isLocal (m.oldPa + 64 * 0) = true ∧ p.isLocal m.newPa = true ∧ p.isLocal (m.newPa + 64 * 0) = true ∧ m.oldPa + m.size ≤ m.newPa + 64 * 0 ∧ Memory.wf p.mem = true ∧
    (told (.failed (.core 0)) id (fun s => { s with launches := [] })).launches = [] ∧ (told (.failed (.core 0))).fuse.coreOn 0 = true := by decide +kernel
/-- Stope 0 frozen since cycle 4. -/
def frozenStope : Stope := { stopeZero with frozen := some 4, relShift := 3 }
def taken : Vector Die 2 := (Vector.replicate 2 {}).set 0 { windows := Vector.replicate 16 { st := 0 } }
/-- Windows all free and all taken, a frozen stope, a running launch that is cancelled, a handler on hart 0. -/
theorem witness_barriers_and_traps :
    let d := fun (dies : Vector Die 2) (l : Launch) => told (.nums [0]) id (fun s => { s with stopes := [frozenStope], dies, launches := [l] })
    let cancelled := { launchZero with cancelled := true }
    let free := d (Vector.replicate 2 {}) cancelled
    let full := d taken launchZero
    let met := told (.nums []) id (fun s => { s with barriers := [{ key := { gen := 1, bar := 0, depth := 0, anc := 0 }, arrivals := [], complete := 0, due := 1 }] })
    let under : Thread := { x := Vector.replicate 32 7, pc := 64, f := Vector.replicate 32 9, mode := 0, spid := some 1, blocked := false }
    let h : State := told (.word [0, 0] 5) id (fun s => { s with harts := (Vector.replicate 16 {}).set 0 { handling := some (0, 0), under := some under } })
    (told (.bar { gen := 1, bar := 0, depth := 0, anc := 0 } 1)).arg = .bar { gen := 1, bar := 0, depth := 0, anc := 0 } 1 ∧
    ((told (.nums [])).barSt { gen := 1, bar := 0, depth := 0, anc := 0 }).due < 1 ∧
    1 ≤ (met.barSt { gen := 1, bar := 0, depth := 0, anc := 0 }).due ∧ (told (.arrival { gen := 1, bar := 0, depth := 0, anc := 0 } 63 1 2)).pkg ≠ 63 ∧
    (Table.getD ((told (.nums [])).barSt { gen := 1, bar := 0, depth := 0, anc := 0 }).far 63 (0, 0)).1 < 1 ∧
    (told (.nums [])).pkg = 0 ∧ (0 : Nat) ≠ everyBar ∧ 0 ≤ (Table.getD ((told (.nums [])).barSt { gen := 1, bar := 0, depth := 0, anc := 0 }).far 63 (0, 0)).1 ∧
    free.arg = .nums [0] ∧ free.stopes = [frozenStope] ∧ frozenStope.id = 0 ∧ frozenStope.die < 2 ∧ frozenStope.frozen.isSome = true ∧ frozenStope.window = none ∧
    free.launch? 1 = some cancelled ∧ cancelled.st = .running ∧ cancelled.cancelled = true ∧ (free.dies = Vector.replicate 2 {}) ∧
    full.launch? 1 = some launchZero ∧ launchZero.st = .running ∧ (∀ w < 16, (full.win 0 w).st ≠ 3) ∧ frozenStope.frozen = some 4 ∧ frozenStope.cores = [0] ∧
    (told (.word [0, 0] 0)).arg = .word [0, 0] 0 ∧ (∀ h < 16, ((told (.word [0, 0] 0)).hart h).handling ≠ some (0, 0)) ∧
    h.harts = (Vector.replicate 16 {}).set 0 { handling := some (0, 0), under := some under } ∧ h.dies = Vector.replicate 2 {} := by decide +kernel
/-- A handler on hart 15 for window 15 of die 0, which holds a frozen stope. -/
def servedStope : Stope := { stopeZero with frozen := some 4 }
def trapped (a : Arg) : State := told a id (fun s =>
  { s with stopes := [servedStope], agenda := [], dies := (Vector.replicate 2 {}).set 0 { windows := (Vector.replicate 16 {}).set 15 { st := 0, stope := some 0 } },
           harts := (Vector.replicate 16 {}).set 15 { handling := some (0, 15), mode := 0, spid := some 1, x := (Vector.replicate 32 0).set 2 0x51000 },
           procs := [{ procZero with handlerWin := 0x50000 }] })
theorem witness_handlers :
    let t := trapped (.word [0, 15] 5)
    t.arg = .word [0, 15] 5 ∧ (trapped (.word [0, 15] 0)).arg = .word [0, 15] 0 ∧ (15 : Nat) < 16 ∧ (t.hart 15).handling = some (0, 15) ∧
    (∀ g < 16, g ≠ 15 → (t.hart g).handling ≠ some (0, 15)) ∧ t.stopes = [servedStope] ∧ (t.win 0 15).stope = some servedStope.id ∧ (t.win 0 15).st = 0 ∧
    (∀ d < 2, ∀ y < 16, d ≠ 0 ∨ y ≠ 15 → (t.win d y).stope = none) ∧ t.launch? servedStope.gen = some launchZero ∧ launchZero.result = 0 ∧
    t.refusedAt servedStope (t.win 0 15) = none ∧ (t.win 0 15).shown 0 servedStope = some 0 := by decide +kernel
theorem witness_hart_windows :
    let t := trapped (.reg (.window 0 15 0x1008) 7)
    (t.wb, t.sets, t.agenda) = ([], [], []) ∧ t.arg = .reg (.window 0 15 0x1008) 7 ∧ ((t.win 0 15).waits, (t.win 0 14).waits) = (true, false) ∧
    bitsOf 0x13083 12 3 = 3 ∧ bitsOf 0x13083 0 7 = 0x03 ∧ t.hartWindow 15 ((t.hart 15).reg (bitsOf 0x13083 15 5) + immI 0x13083).toNat = some (0, 15, 0x1000) ∧
    bitsOf 0x113023 12 3 = 3 ∧ bitsOf 0x113023 0 7 = 0x23 ∧ t.hartWindow 15 ((t.hart 15).reg (bitsOf 0x113023 15 5) + immS 0x113023).toNat = some (0, 15, 0x1000) := by
  decide +kernel
theorem witness_free_windows : ∀ w, (State.reset.win 0 w).st = 3 := by
  intro w
  by_cases h : w < 16
  · revert w; decide +kernel
  · have e : State.reset.win 0 w = vget (Vector.replicate 16 ({} : TrapWin)) w {} := by rfl
    rw [e]; simp [vget, h]
/-- A queued launch at the head of queue 63, one that saves, one that has completed. -/
def queuedLaunch : Launch := { launchZero with st := .queued, queue := 63, headAt := some 5, graphRun := none }
def inQueue (f : State → State := id) : State :=
  f { State.reset with now := 10, launches := [queuedLaunch], queues := (Vector.replicate 64 []).set 63 [1], procs := [procZero] }
theorem witness_selection :
    inQueue.latched = none ∧ inQueue.power.tripped = false ∧ inQueue.reserving = none ∧ (63 : Nat) < 64 ∧ inQueue.queueHead 63 = some queuedLaunch ∧
    queuedLaunch.headAt.isSome = true ∧ inQueue.waitsMet queuedLaunch = true ∧ queuedLaunch.parts.length ≤ 1 ∧ inQueue.effPrio queuedLaunch ≤ 7 ∧
    inQueue.fits queuedLaunch = .ok [] ∧ (inQueue (fun s => { s with latched := some 1 })).latched.isSome = true := by decide +kernel
theorem witness_single_head : ∀ x, x ≠ 63 → inQueue.queueHead x = none := by
  intro x h
  have e : inQueue.queueHead x = (vget ((Vector.replicate 64 ([] : List Nat)).set 63 [1]) x []).head?.bind inQueue.launch? := by rfl
  rw [e]
  have k : vget ((Vector.replicate 64 ([] : List Nat)).set 63 [1]) x [] = [] := by
    simp only [vget, Vector.getElem?_set]
    split
    · omega
    · by_cases y : x < 64 <;> simp [y]
  rw [k]; rfl
/-- A packet from another package, for a queue with 255 launches and for one with 256. -/
def remotePacket : RemotePacket := { gen := 7, queue := 63, sent := 4, spid := 1, ptes := [], packet := List.replicate 128 0, args := [], beats := [], bundle := [] }
def filled (n : Nat) : State := told (.packet remotePacket) id (fun s => { s with queues := (Vector.replicate 64 []).set 63 (List.replicate n 1) })
theorem witness_launch_messages :
    let s := told (.nums (1 :: 63 :: 9 :: [5]))
    let c := told (.nums [1, 63, 0, 5, 6]) id (fun s => { s with launches := [{ launchZero with st := .complete }] })
    let d := told (.nums [1])
    let h := told (.nums [1, 63, 0, 5, 6]) id (fun s => { s with launches := [{ launchZero with st := .queued }] })
    (filled 255).arg = .packet remotePacket ∧ (filled 255).queueLoad (remotePacket.queue % 64) < 256 ∧ 256 ≤ (filled 256).queueLoad (remotePacket.queue % 64) ∧
    s.arg = .nums (1 :: 63 :: 9 :: [5]) ∧ launchZero.st ≠ .ready ∧ s.launch? 1 = some launchZero ∧ (told (.nums [1, 63, 0, 5, 6])).arg = .nums [1, 63, 0, 5, 6] ∧ h.arg = .nums [1, 63, 0, 5, 6] ∧
    h.launch? 1 = some { launchZero with st := .queued } ∧ launchZero.st = .running ∧ launchZero.result = 0 ∧
    c.launch? 1 = some { launchZero with st := .complete } ∧ (told (.nums [1, 63, 0, 0, 0, 63])).arg = .nums [1, 63, 0, 0, 0, 63] ∧ (∀ p ∈ launchZero.parts, p = 63 ∨ p ∈ launchZero.reports) ∧
    d.launch? 1 = some launchZero ∧ launchZero.st ≠ .complete ∧ launchZero.origin = d.pkg ∧ launchZero.graphRun = none ∧ launchZero.pkt.sigs = [5] ∧ 5 < 0x7FFF ∧
    launchZero.pkt.status = 0 ∧ (d.proc? launchZero.spid).isSome = true := by decide +kernel
/-- A stope about to start, and a loader job for overlay 1 of its core. -/
theorem witness_pulse_and_overlay :
    let p := { stopeZero with started := none }
    let s := told (.nums [1, 0]) id (fun s => { s with stopes := [p] })
    let o := told (.nums [0]) id (fun s => { s with dies := (Vector.replicate 2 {}).set 0 { loads := [(1, 0, 1, 0)] } })
    s.arg = .nums [1, p.die] ∧ s.stopes = [p] ∧ p.gen = 1 ∧ p.started = none ∧ p.cores = [0] ∧ s.launch? 1 = some launchZero ∧ o.arg = .nums [stopeZero.die] ∧
    stopeZero.die < 2 ∧ (vget o.dies stopeZero.die {}).loads = (1, 0, 1, 0) :: [] ∧ o.stopes = [stopeZero] ∧ (o.core 0).bnd.kernel = 0 ∧ (o.core 0).active < 2 ∧
    (o.core 0).act.ovl = some 0 ∧ 0 < 1 ∧ o.launch? 1 = some launchZero ∧ launchZero.saved = [] ∧ launchZero.parts.length ≤ 1 := by decide +kernel
theorem witness_preemption :
    let s := told (.nums [1])
    let q := told (.nums [1]) id (fun s => { s with launches := [queuedLaunch] })
    s.arg = .nums [1] ∧ s.launch? 1 = some launchZero ∧ launchZero.st = .running ∧ s.stopes = [stopeZero] ∧ stopeZero.gen = 1 ∧ stopeZero.cores = [0] ∧
    stopeZero.frozen = none ∧ stopeZero.window = none ∧ s.resuming 1 = false ∧ s.finalFault 1 = none ∧ q.launch? 1 = some queuedLaunch ∧ queuedLaunch.st = .queued ∧
    s.reserve = none := by decide +kernel
/-- A reserving head that fits. -/
theorem witness_reserving :
    let heavy : Launch := { launchZero with gen := 2, charge := 10 ^ 15, pkt := { packetZero with prio := 1 } }
    let s := fun (ls : List Launch) => inQueue (fun s => { s with arg := .nums [1], reserving := some 1, launches := queuedLaunch :: ls })
    let u := fun (ls : List Launch) => (s ls).post ((s ls).now + (s ls).power.preemptEvery) 3 none (.run .preemptionInterval (.nums [1]))
    let lower := fun (ls : List Launch) => (u ls).yielding (fun x => x.st == .running && decide (0 < (u ls).effPrio x))
    -- it fits at once; it fits without the launch of lower priority, not with it; that of its own priority does not give way
    (s []).arg = .nums [1] ∧ (s []).reserve = some (1, 0) ∧ (s []).launch? 1 = some queuedLaunch ∧ (u []).fits queuedLaunch = .ok [] ∧
    (s [heavy]).reserve = some (1, 0) ∧ lower [heavy] = [heavy] ∧ (u [heavy]).fits queuedLaunch = .waits ∧ ((u [heavy]).without 2).fits queuedLaunch = .ok [] ∧
    lower [{ heavy with pkt := packetZero }] = [] ∧ (u [{ heavy with pkt := packetZero }]).fits queuedLaunch = .waits ∧
    (told (.word [] 7)).arg = .word [] 7 := by decide +kernel
/-- A launch whose save is under way: its stope frozen, every engine but one stopped; a class that is quiet and one that is not. -/
def saving : Launch := { launchZero with st := .saving }
theorem witness_saving :
    let s := told (.nums [0, 5]) (fun k => { k with acks := [0, 1, 2, 3, 4] }) (fun s => { s with launches := [saving], stopes := [frozenStope] })
    let b := told (.nums [0, 0]) (fun k => { k with specTags := [1] }) (fun s => { s with launches := [saving], stopes := [frozenStope] })
    let d := told (.nums [1, 0]) id (fun s => { s with launches := [saving], stopes := [frozenStope] })
    s.arg = .nums [0, 5] ∧ s.stopeOf 0 = some frozenStope ∧ s.launch? 1 = some saving ∧ saving.st = .saving ∧ 5 ∉ (s.core 0).acks ∧ s.engineQuiet 0 5 = true ∧
    s.finalFault 1 = none ∧ (∀ j < 6, j = 5 ∨ j ∈ (s.core 0).acks) ∧ b.stopeOf 0 = some frozenStope ∧ 0 ∉ (b.core 0).acks ∧ (b.core 0).resolve = [] ∧ b.engineQuiet 0 0 = false ∧
    d.arg = .nums [1, frozenStope.die] ∧ d.stopes = [frozenStope] ∧ frozenStope.gen = 1 ∧ frozenStope.cores = [0] ∧ frozenStope.window = none ∧ d.launch? 1 = some saving ∧ d.finalFault 1 = none ∧
    saving.cancelled = false ∧ saving.saved = [] ∧ saving.queue < 64 ∧ (∀ q < 64, 1 ∉ vget d.queues q []) := by decide +kernel
/-- A saved core whose banks are still in place; a launch whose core has halted, drained or not. -/
theorem witness_eviction_and_retirement :
    let x : SavedCore := { id := 0, core := {} }
    let e := told (.nums [0]) (fun k => { k with lastProc := some 1 }) (fun s => { s with launches := [{ launchZero with saved := [x] }] })
    let r := fun (halted : Bool) (copy : List CopyDesc) (st : LState) => told (.nums [1])
      (fun k => { k with sc := { k.sc with halted }, haltMask := 1, copyQ := copy }) (fun s => { s with agenda := [], launches := [{ launchZero with st }] })
    e.arg = .nums [0] ∧ e.latched = none ∧ e.launches = [{ launchZero with saved := [x] }] ∧ x.evicted = none ∧ (e.core 0).lastProc = some launchZero.spid ∧
    (r false [] .running).agenda = [] ∧ ((r false [] .running).core 0).sc.halted = false ∧ ((r true [copyOf 0 0] .running).core 0).sc.halted = true ∧
    (r true [copyOf 0 0] .running).drained 0 ((r true [copyOf 0 0] .running).core 0).haltMask = false ∧
    (r true [] .running).drained 0 ((r true [] .running).core 0).haltMask = true ∧ (r true [] .retired).launch? 1 = some { launchZero with st := .retired } ∧
    (∀ i < 6, i ≠ 0 → i ≠ 3 → (r true [] .retired).engineQuiet 0 i = true) ∧ launchZero.origin = (r true [] .retired).pkg ∧ launchZero.reports = [] := by
  decide +kernel
/-- A launch that has retired: no report of it is missing once its cores are free. -/
theorem witness_retired :
    let l : Launch := { launchZero with st := .retired, insts := [⟨0, 0, 0, 1, 0, 0, 0, 64⟩] }
    let p : Stope := { frozenStope with fbeat := 7 }
    let s := told (.nums [1]) id (fun s => { s with agenda := [], launches := [l], stopes := [p] })
    s.arg = .nums [1] ∧ s.launch? 1 = some l ∧ l.st = .retired ∧ s.agenda = [] ∧ s.stopes = [p] ∧ p.gen = 1 ∧ p.cores = [0] ∧ p.window = none ∧
    (∀ i < 6, i ≠ 0 → s.engineQuiet 0 i = true) ∧ l.origin = s.pkg ∧ l.reports = [] ∧ l.parts = [s.pkg] := by decide +kernel

/-! ### The module -/

/-- The module with an input. -/
def given (a : Arg) (f : State → State := id) : State := { (f State.reset) with arg := a }
theorem witness_module_control :
    let up : State → State := fun s => { s with boot := { s.boot with state := 3 } }
    let own : State → State := fun s => { s with fuse := { s.fuse with bootSrc := 1 } }
    let rec_ : State → State := fun s => { s with boot := { s.boot with state := 4, addr := 0x1000, len := 64 } }
    let f : List Byte := List.replicate 64 0
    let open_ : State → State := fun s => { s with power := { s.power with unlocked := true } }
    (given (.image 1 none)).arg = .image 1 none ∧ (given (.image 0 (some f))).arg = .image 0 (some f) ∧ (0 : Word64) ≠ 1 ∧ (given (.image 0 none)).boot.state ≠ 3 ∧
    (given (.image 0 none)).fuse.bootSrc = 0 ∧ (given (.image 0 none) own).fuse.bootSrc = 1 ∧
    (given (.image 1 none) up).boot.state = 3 ∧ (given (.image 1 (some f)) rec_).arg = .image 1 (some f) ∧ (given (.image 1 (some f)) rec_).boot.state = 4 ∧
    (given (.image 1 (some f)) rec_).boot.addr.toNat % 4096 = 0 ∧ (given (.image 1 (some f)) rec_).boot.len.toNat ≤ f.length ∧
    (given (.reg .mailboxStatus 7)).arg = .reg .mailboxStatus 7 ∧ (given (.reg .mailboxAddr 7)).arg = .reg .mailboxAddr 7 ∧ (given (.reg .mailboxLen 7)).arg = .reg .mailboxLen 7 ∧ (given (.reg (.routing 63) 7)).arg = .reg (.routing 63) 7 ∧ (63 : Nat) < 64 ∧
    (given (.reg (.seamTable 0 31 0) 7)).arg = .reg (.seamTable 0 31 0) 7 ∧ (given (.reg (.seamTable 0 31 1) 7)).arg = .reg (.seamTable 0 31 1) 7 ∧ (31 : Nat) < 32 ∧
    (given (.bytes [1])).arg = .bytes [1] ∧ (given (.nums [1])).arg = .nums [1] ∧ (given (.nums [])).power.unlocked = false ∧
    (given (.nums []) open_).power.unlocked = true ∧ (given (.nums []) open_).arg = .nums [] := by decide
theorem witness_module_conditions :
    (given (.nums [999])).arg = .nums [999] ∧ (given (.nums [1000])).arg = .nums [1000] ∧ (given (.nums [2200])).arg = .nums [2200] ∧ (given (.nums [2201])).arg = .nums [2201] ∧
    (given (.nums [94])).arg = .nums [94] ∧ (given (.nums [115])).arg = .nums [115] ∧ (given (.nums [115])).power.tripped = false ∧ (given (.nums [23, 1])).arg = .nums [23, 1] ∧
    (given (.nums [23, 0])).arg = .nums [23, 0] ∧ (given (.nums [23, 0])).portOn 23 = true ∧
    (given (.nums [23, 1]) (fun s => { s with fuse := { s.fuse with die1 := false } })).portOn 23 = false ∧ (∀ d < 2, ∀ w < 16, ((given (.nums [])).win d w).waits = false) := by
  decide
theorem witness_no_waiting_window : ∀ d w, (State.reset.win d w).waits = false := by
  intro d w
  have e : vget State.reset.dies d {} = {} := by
    by_cases h : d < 2
    · have : State.reset.dies = Vector.replicate 2 {} := rfl
      simp [this, vget, h]
    · simp [vget, h]
  unfold State.win
  rw [e]
  by_cases k : w < 16 <;> simp [vget, k] <;> rfl

/-! ### Calls -/

/-- Bytes placed in memory: those that are not zero. -/
def placed (a : Nat) (l : List Byte) : Memory := (((List.range l.length).zip l).map (fun x => (a + x.1, x.2))).filter (fun x => x.2 != 0)
/-- Hart 15 of process 1 calls with these arguments, with these bytes at the process's virtual address 0x10000. -/
def calls (args : List Nat) (b : List Byte := []) (p : Proc := procZero) (f : State → State := id) : State :=
  f { State.reset with
      now := 10, curHart := 15, procs := [p], mem := placed 0x20000 b
      harts := (Vector.replicate 16 {}).set 15 { spid := some 1, mode := 0, running := true, x := Vector.ofFn (fun i => BitVec.ofNat 64 (args.getD (i.val - 10) 0)) } }
/-- A packet: bundle 1, tree 0, its token slots empty. -/
def packetBytesZero : List Byte :=
  leBytes 4 1 ++ List.replicate 36 0 ++ ((List.range 4).flatMap (fun _ => [0xFF, 0xFF, 0, 0, 0, 0, 0, 0])) ++ List.replicate 8 0xFF ++ List.replicate 48 0
/-- A bundle whose tree is one core that runs kernel 0. -/
def treeBundle : Bundle :=
  { bytes := leBytes 2 1 ++ List.replicate 14 0 ++ [0xFF, 1, 1, 0, 0, 0, 0, 0] ++ List.replicate 24 0, sects := [⟨tyTREE, 0xFFFF, 0, 0, 48⟩]
    retimed := [(0, { sects := [], entries := [] })], images := [], digest := [] }
def withBundle : Proc := { procZero with bundles := [(1, treeBundle)] }
def ranOut (q : Nat) (n : Nat) (s : State) : State := { s with queues := (Vector.replicate 64 []).set 63 (List.replicate n q) }
/-- A good packet for queue 63 with room and without, a bad packet, a call that is still waiting, tokens that have and have not come. -/
theorem witness_launching :
    let ok := calls [0x10000, 63] packetBytesZero withBundle
    let full := calls [0x10000, 63] packetBytesZero withBundle (ranOut 1 256)
    let last := calls [0x10000, 63] packetBytesZero withBundle (ranOut 1 255)
    let wait : Pending := { id := 1, hart := 15, spid := 1, kind := 0 }
    let out := given (.nums [1]) (fun s => { s with pending := [wait] })
    ok.curHart < 16 ∧ (ok.callArg 0).toNat = 0x10000 ∧ (ok.callArg 1).toNat < 64 ∧ ok.callerSpid = 1 ∧ (ok.checkPacket 1 0x10000 false).toOption.isSome = true ∧
    ok.power.ptpLost = false ∧ (last.checkPacket 1 0x10000 false).toOption.isSome = true ∧ last.queueLoad 63 < 256 ∧
    (full.checkPacket 1 0x10000 false).toOption.isSome = true ∧ 256 ≤ full.queueLoad 63 ∧
    ((calls [0x10004, 0] packetBytesZero withBundle).checkPacket 1 0x10004 false).toOption = none ∧
    ((calls [63, 7]).callArg 0).toNat < 64 ∧ ((calls [63, 7]).callArg 1).toNat < 8 ∧ 64 ≤ ((calls [64, 0]).callArg 0).toNat ∧ 8 ≤ ((calls [0, 8]).callArg 1).toNat ∧
    ((calls [32766, 0]).callArg 0).toNat < 32767 ∧ ((calls [32766, 0]).proc? 1).isSome = true ∧ ((calls [32766, 0]).callArg 1).toNat ≤ (calls [32766, 0]).tokenCount 1 none 32766 ∧
    (calls [32766, 1, 5]).tokenCount 1 none 32766 < ((calls [32766, 1, 5]).callArg 1).toNat ∧ ((calls [32766, 1, 5]).callArg 2).toNat ≠ 0 ∧
    32767 ≤ ((calls [32767]).callArg 0).toNat ∧ out.arg = .nums [1] ∧ out.pending.find? (fun x => x.id == 1 && x.kind == 0) = some wait ∧ wait.hart < 16 ∧
    (out.hart 15).under = none := by decide +kernel
/-- A packet whose mask names package 1, with the clock's offset lost. -/
theorem witness_lost_clock :
    let s := calls [0x10000, 63] (leBytes 4 1 ++ List.replicate 12 0 ++ [2] ++ List.replicate 111 0) withBundle (fun s => { s with power := { s.power with ptpLost := true } })
    s.power.ptpLost = true ∧ s.masksOther (((s.procRead 1 (0x10000 + 0x10) 8).map leNat).getD 0) = true := by decide +kernel
/-- What a check makes of a graph's array: its packets, none of which waits on itself. -/
def startable (x : Except Word64 (List Packet)) : Bool := match x with | .ok l => !neverStarts l | .error _ => false
theorem witness_graphs :
    let new := calls [0x10000, 1] packetBytesZero withBundle
    let g : Graph := { versions := [[packetZero]] }
    let p := { withBundle with graphs := [(1, g)] }
    let edit := calls [1, 0, 0x10000] packetBytesZero p
    let run := calls [1, 0, 63, 0xFFFF] packetBytesZero p (ranOut 1 255)
    let file := calls [0x10000, 4] [1, 2, 3, 4]
    0 < (new.callArg 1).toNat ∧ (new.callArg 1).toNat ≤ 256 ∧ startable (new.checkArray 1 0x10000 1) = true ∧ new.proc? 1 = some withBundle ∧
    ((calls [0, 0]).callArg 1).toNat = 0 ∧ 256 < ((calls [0, 257]).callArg 1).toNat ∧ (calls [1]).graph? 1 1 = none ∧
    edit.graph? 1 1 = some g ∧ g.versions.getLast? = some [packetZero] ∧ (edit.callArg 1).toNat < [packetZero].length ∧
    ((edit.checkPacket 1 0x10000 true).toOption.map (fun c => neverStarts ([packetZero].set 0 c.pkt))) = some false ∧
    run.graph? 1 1 = some g ∧ (run.callArg 1).toNat = 0 ∧ (run.callArg 2).toNat < 64 ∧ slotOk false (run.callArg 3).toNat = true ∧ run.queueLoad 63 + [packetZero].length ≤ 256 ∧
    file.proc? 1 = some procZero ∧ file.procRead 1 0x10000 4 = some [1, 2, 3, 4] ∧ procZero.log.length < 256 ∧ file.openFails [1, 2, 3, 4] = some (1, 0xFFFF) ∧
    (calls [0x10000, 4] [] { spid := 2 }).proc? 1 = none := by decide +kernel
/-- Where every page in use lies below, a home has room for 64 KiB wherever the kernel looks first; none has for more than it holds. -/
theorem first_fit_above (used : List (Nat × Nat)) (align len a n : Nat) (h : ∀ u ∈ used, u.1 + u.2 ≤ a) : firstFit used align len n a = a := by
  cases n with
  | zero => rfl
  | succ n =>
    have : used.find? (fun u => overlap a len u.1 u.2) = none := by
      refine List.find?_eq_none.2 (fun u hu => ?_)
      have := h u hu
      simp [overlap]
      omega
    simp [firstFit, this]
theorem align_up_le (x m : Nat) : x ≤ alignUp x m ∧ alignUp x m ≤ x + m := by
  unfold alignUp
  split
  · omega
  · have a := Nat.div_add_mod (x + (m - 1)) m
    have b := Nat.mod_lt (x + (m - 1)) (show m > 0 by omega)
    rw [Nat.mul_comm] at a
    omega
theorem placed_somewhere (s : State) (len align die : Nat) (h : ∀ u ∈ s.physUsed, u.1 + u.2 ≤ kernelKeeps) (r : len + align ≤ 2 ^ 38) (_d : die < 2) :
    ∃ a, s.placePhys len align 0 die = some a := by
  have m := Nat.mod_lt (Config.allocGap s.free) (show 2 ^ 23 > 0 by decide)
  unfold State.placePhys
  generalize Config.allocGap s.free % 2 ^ 23 = g at m
  have : kernelKeeps = 1073741824 := rfl
  have e : page64K = 65536 := rfl
  have q : page64K * g ≤ 65536 * 8388608 := e ▸ Nat.mul_le_mul_left _ (by omega)
  have k := align_up_le (0 * 2 ^ 50 + die * 2 ^ 40 + (kernelKeeps + page64K * g)) align
  simp only [first_fit_above _ _ _ _ _ (fun u hu => (h u hu).trans (show kernelKeeps ≤ alignUp (0 * 2 ^ 50 + die * 2 ^ 40 + (kernelKeeps + page64K * g)) align by omega))]
  rw [if_pos (by omega)]
  exact ⟨_, rfl⟩
theorem placed_nowhere (s : State) (len align pkg die : Nat) (r : 2 ^ 40 < len) (q : pkg = 0) (d : die = 0) : s.placePhys len align pkg die = none := by
  unfold State.placePhys
  subst q d
  simp only [Nat.zero_mul, Nat.zero_add]
  rw [if_neg (by omega), if_neg (by omega)]
theorem range_found (s : State) (sp len align : Nat) (p : Proc) (w : Bool) (h : s.proc? sp = some p) (u : s.physUsed = []) (r : len + max (pageFor len) align ≤ 2 ^ 38) :
    ∃ t x y, s.allocRange sp len align 0 0 w = some (t, x, y) := by
  obtain ⟨a, ha⟩ := placed_somewhere s len (max (pageFor len) align) 0 (by simp [u]) r (by decide)
  unfold State.allocRange
  rw [h]
  dsimp only
  rw [ha]
  exact ⟨_, _, _, rfl⟩
theorem range_missing (s : State) (sp len align : Nat) (p : Proc) (w : Bool) (h : s.proc? sp = some p) (r : 2 ^ 40 < len) : s.allocRange sp len align 0 0 w = none := by
  unfold State.allocRange
  rw [h]
  dsimp only
  rw [placed_nowhere s len _ 0 0 r rfl rfl]
/-- A range of 64 KiB can be placed for a process that has none yet; 2 TiB cannot. -/
theorem witness_alloc :
    let s := calls [65536, 0, 1] [] { spid := 1 }
    let n := calls [2 ^ 41, 0, 3] [] { spid := 1 }
    s.proc? 1 = some { spid := 1 } ∧ (s.callArg 0).toNat = 65536 ∧ (s.callArg 2).toNat < 4 ∧ s.homeHere (s.callArg 1).toNat = true ∧ (s.callArg 2).getLsbD 1 = false ∧
    s.physUsed = [] ∧ (n.callArg 0).toNat = 2 ^ 41 ∧ (n.callArg 2).toNat < 4 ∧ n.homeHere (n.callArg 1).toNat = true ∧ n.proc? 1 = some { spid := 1 } ∧
    (calls [65537, 0, 0]).callArg 0 = 65537 ∧ (calls [65536, 0, 4]).callArg 2 = 4 := by decide +kernel
theorem witness_alloc_found : ∃ t x y, (calls [65536, 0, 1] [] { spid := 1 }).allocRange 1 65536 65536 0 0 true = some (t, x, y) :=
  range_found _ _ _ _ { spid := 1 } _ (by decide +kernel) (by decide +kernel) (by decide +kernel)
theorem witness_alloc_missing : (calls [2199023255552, 0, 3] [] { spid := 1 }).allocRange 1 2199023255552 65536 0 0 true = none :=
  range_missing _ _ _ _ { spid := 1 } _ (by decide +kernel) (by decide +kernel)
/-- A process that owns its page of 64 KiB, pinned. -/
def ownerZero (pins : List (Nat × Nat)) : Proc := { procZero with allocs := [{ va := 0x10000, len := 65536 }], pinned := pins }
/-- 192 pages pinned elsewhere. -/
def pinsFull : List (Nat × Nat) := (List.range 192).map (fun i => (0x1000000 + 65536 * i, 65536))
theorem witness_memory_calls :
    let s := calls [0x10000, 65536, 0] [] (ownerZero [(0x10000, 65536)])
    let p := ownerZero [(0x10000, 65536)]
    s.proc? 1 = some p ∧ { va := 0x10000, len := 65536 } ∈ p.allocs ∧ s.anyPreloaded p 0x10000 65536 = false ∧ p.owns 0x10000 65536 = true ∧
    p.splitFor 0x10000 65536 = p ∧ p.spid = 1 ∧ s.callArg 2 = 0 ∧ (p.pin 0x10000 65536).pinned.length ≤ 192 ∧ 192 < ((ownerZero pinsFull).pin 0x10000 65536).pinned.length ∧
    ((ownerZero (pinsFull.drop 1)).pin 0x10000 65536).pinned.length ≤ 192 ∧ s.homeHere (s.callArg 3).toNat = true ∧
    (∀ x ∈ p.pages 0x10000 65536, x.1 ∈ p.pinned.map Prod.fst) ∧ (∀ x ∈ p.allocs, x.va ≠ 0x20000 ∨ x.len ≠ 65536) ∧ p.owns 0x20000 65536 = false ∧ p.owns 0x10000 65537 = false := by
  decide +kernel
/-- No launch of the process reaches another package; one does. -/
theorem witness_far_kernels :
    let s := fun (ls : List Launch) => calls [0x10000, 65536, 0] [] (ownerZero []) (fun s => { s with launches := ls })
    (s [launchZero]).farKernels 1 = [] ∧ (s [{ launchZero with origin := 63 }]).farKernels 1 = [63] ∧ (ownerZero []).pages 0x10000 65536 ≠ [] ∧
    (s [launchZero]).anyPreloaded (ownerZero []) 0x10000 65536 = false ∧ (s [{ launchZero with origin := 63 }]).anyPreloaded (ownerZero []) 0x10000 65536 = false := by
  decide +kernel
/-- A core of process 1 whose TLB holds the page locked. -/
theorem witness_preloaded :
    let s := calls [0x10000, 65536, 3, 0] [] (ownerZero [(0x10000, 65536)])
      (fun s => ({ s with stopes := [stopeZero] } : State).setCore 0 { bound := some bindZero, tlb := [{ spid := 1, va := 0x10000, size := 65536, pte := 0, locked := true, owner := 1 }] })
    s.homeHere (s.callArg 3).toNat = true ∧ s.anyPreloaded (ownerZero [(0x10000, 65536)]) 0x10000 65536 = true := by decide +kernel
/-- A page that lies elsewhere and is not pinned, and a home that takes it. -/
theorem witness_migration :
    let p := ownerZero []
    let s := calls [0x10000, 65536, 3, 64] [] p
    s.homeHere (s.callArg 3).toNat = true ∧ s.anyPreloaded p 0x10000 65536 = false ∧ p.pages 0x10000 65536 = [(0x10000, 65536, leafPte 40 true true)] ∧
    (0x10000 : Nat) ∉ p.pinned.map Prod.fst ∧ leafPa (leafPte 40 true true) 65536 0x10000 % 2 ^ 50 / 2 ^ 40 ≠ (s.callArg 3).toNat / 64 ∧ s.migrations = [] := by decide +kernel
theorem witness_migration_placed : ∃ a, (calls [0x10000, 65536, 3, 64] [] (ownerZero [])).placePhys 65536 65536 0 1 = some a :=
  placed_somewhere _ _ _ _ (by decide +kernel) (by decide) (by decide)
/-- A save area has a place. -/
theorem witness_save_placed : ∃ a, (told (.nums [1, 0]) id (fun s => { s with launches := [saving], stopes := [frozenStope] })).placePhys saveLen page64K 0 0 = some a :=
  placed_somewhere _ _ _ _ (by decide +kernel) (by decide) (by decide)
/-- The bitmap of core 0 alone; a reservation of bank 31. -/
theorem witness_seam_banks :
    let b : List Byte := 1 :: List.replicate 127 0
    let bank31 : State → State := fun s => { s with reservations := [(0, 1, 0x80000000)] }
    let s := calls [0, 0x10000, 0x80000000, 1] b procZero bank31
    s.seamArgs = some [0] ∧ (s.callArg 0).toNat = s.pkg ∧ (s.callArg 2).setWidth 32 &&& BitVec.ofNat 32 (s.reservedMask 1 0) = (s.callArg 2).setWidth 32 ∧
    ((calls [0, 0x10000, 0x80000001, 1] b procZero bank31).callArg 2).setWidth 32 &&& BitVec.ofNat 32 (s.reservedMask 1 0) ≠
      ((calls [0, 0x10000, 0x80000001, 1] b procZero bank31).callArg 2).setWidth 32 ∧
    (calls [0, 0x200000000000000, 1, 0] b).seamArgs = none := by decide +kernel

/-- A stream descriptor whose areas lie in the pinned page behind it. -/
def descZero : List Byte :=
  List.replicate 0x30 0 ++ leBytes 8 0x10800 ++ leBytes 8 0x11000 ++ leBytes 8 0x11100 ++ leBytes 8 0x12000 ++ leBytes 8 256 ++ leBytes 8 0x12200 ++ leBytes 8 0 ++
    leBytes 8 0x12400 ++ leBytes 8 64 ++ List.replicate 136 0
theorem witness_streams_and_plans :
    let p := ownerZero [(0x10000, 65536)]
    let open_ := calls [0x10000, 1] descZero p
    let flow : List Byte := leBytes 2 1 ++ List.replicate 14 0 ++ [0, 0, 64, 0] ++ List.replicate 12 0
    let plan := calls [0x10000, 0] flow
    let wait : Pending := { id := 1, hart := 15, spid := 1, kind := 1 }
    let told_ := fun (n : Nat) => calls [] [] procZero (fun s => { s with arg := .nums [1, n], pending := [wait] })
    open_.procRead 1 0x10000 256 = some (descZero) ∧ (open_.callArg 1).toNat < 2 ∧ open_.streamOk p 0x10000 descZero = true ∧ (calls [0x200000000000000]).procRead 1 0x200000000000000 256 = none ∧
    ({ p with streams := [⟨5, 0x10000, 0⟩] } : Proc).streams = [⟨5, 0x10000, 0⟩] ∧ plan.procRead 1 0x10000 16 = some (flow.take 16) ∧ plan.callArg 1 = 0 ∧
    plan.procRead 1 (0x10000 + 16) (16 * fieldLE (flow.take 16) 0 2) = some (flow.drop 16) ∧ plan.planOk (flow.take 16) (flow.drop 16) = true ∧
    (told_ 1).arg = .nums [1, 1] ∧ (told_ 0).arg = .nums [1, 0] ∧ (told_ 1).pending.find? (fun x => x.id == 1 && x.kind == 1) = some wait ∧ (told_ 1).proc? wait.spid = some procZero ∧
    wait.hart < 16 ∧ ((told_ 1).hart 15).under = none ∧ (calls [7]).planUsed 1 7 = false ∧ ({ procZero with plans := [⟨7, []⟩] } : Proc).plans = [⟨7, []⟩] ∧
    (∀ x ∈ procZero.plans, x.id ≠ 7) ∧ (∀ x ∈ procZero.streams, x.sid ≠ 5) := by decide +kernel
theorem witness_files_and_handlers :
    let s := calls [0x40000000, 0x10000] [] { procZero with handlerWin := 0x50000 }
    let file := calls [2 ^ 34 - 1, 0, 0x10000, 4096]
    let away := calls [2 ^ 34 - 1, 0, 0x200000000000000, 4096]
    s.callArg 0 ≠ 0 ∧ (s.procRead 1 0x10000 32).isSome = true ∧ (file.callArg 0).toNat < 2 ^ 34 ∧ (file.callArg 0).toNat ≠ 1 ∧ (file.callArg 1).toNat % 4096 = 0 ∧
    (file.callArg 2).toNat % 4096 = 0 ∧ (file.callArg 3).toNat % 4096 = 0 ∧ file.callArg 3 ≠ 0 ∧ (∀ p ∈ file.pending, p.id ≠ file.seq) ∧
    reaches (file.portRange (file.stoPort.serve 1) (6 * 4096 + 3) 0x10000 4096 true) = some [(0, 0x20000, 4096)] ∧
    reaches (file.portRange (file.stoPort.serve 1) (6 * 4096 + 3) 0x10000 4096 false) = some [(0, 0x20000, 4096)] ∧
    stops (away.portRange (away.stoPort.serve 1) (6 * 4096 + 3) 0x200000000000000 4096 true) = some (0x12, 0x200000000000000) ∧ (away.callArg 2).toNat % 4096 = 0 ∧
    ((calls [0, 1, 0, 0]).callArg 1).toNat % 4096 ≠ 0 ∧ ((calls [0, 0, 1, 0]).callArg 2).toNat % 4096 ≠ 0 ∧ ((calls [0, 0, 0, 1]).callArg 3).toNat % 4096 ≠ 0 := by decide +kernel
theorem witness_port_faults :
    let wait := fun (kind : Nat) (paused : Bool) => ({ id := 1, hart := 15, spid := 1, kind, paused, va := 0x10000, len := 4096 } : Pending)
    let at_ := fun (a : Arg) (w : Pending) => calls [] [] procZero (fun s => { s with arg := a, pending := [w] })
    (at_ (.word [1] 0x200000000000000) (wait 2 true)).pending.find? (fun x => x.id == 1 && x.paused) = some (wait 2 true) ∧
    (at_ (.word [1] 0x200000000000000) (wait 2 true)).walkPa 1 0x200000000000000 true = none ∧ ((at_ (.word [1] 0) (wait 2 true)).hart 15).under = none ∧
    ((at_ (.word [1] 0x10000) (wait 2 true)).walkPa 1 0x10000 true).isSome = true ∧
    reaches ((at_ (.word [1] 0x10000) (wait 2 true)).portRange ((at_ (.word [1] 0x10000) (wait 2 true)).stoPort.serve 1) (6 * 4096 + 0) 0x10000 4096 true)
      = some [(0, 0x20000, 4096)] ∧ ((at_ (.word [0, 1] 0x200000000000000) (wait 2 true)).arg) = .word [0, 1] 0x200000000000000 ∧
    (at_ (.word [0, 1] 0x200000000000000) (wait 2 true)).walkPa 1 0x200000000000000 true = none := by decide +kernel
theorem witness_transfers :
    let wait := fun (kind : Nat) (paused : Bool) => ({ id := 1, hart := 15, spid := 1, kind, paused, va := 0x10000, len := 4096 } : Pending)
    let at_ := fun (a : Arg) (w : Pending) => calls [] [] procZero (fun s => { s with arg := a, pending := [w] })
    (at_ (.transfer 1 none) (wait 3 false)).arg = .transfer 1 none ∧
    (at_ (.transfer 1 (some [])) (wait 3 false)).pending.find? (fun x => x.id == 1 && (x.kind == 2 || x.kind == 3)) = some (wait 3 false) ∧ (wait 3 false).kind = 3 ∧
    (at_ (.transfer 1 (some [])) (wait 2 false)).pending.find? (fun x => x.id == 1 && (x.kind == 2 || x.kind == 3)) = some (wait 2 false) ∧
    (at_ (.nums [1]) (wait 2 false)).pending.find? (fun x => x.id == 1 && (x.kind == 2 || x.kind == 3)) = some (wait 2 false) := by decide +kernel
/-- A walk ends alike for every address of a page. -/
theorem walk_from_page (t : Table (Table Word64)) (va : Nat) (h : va < 2 ^ 56) : ∀ l, walkFrom t va l = walkFrom t (va / 4096 * 4096) l
  | 0 => rfl
  | l + 1 => by
    have e : va % 2 ^ 57 / 2 ^ (12 + 9 * l) = va / 4096 * 4096 % 2 ^ 57 / 2 ^ (12 + 9 * l) := by
      rw [Nat.mod_eq_of_lt (by omega), Nat.mod_eq_of_lt (by omega), Nat.pow_add, ← Nat.div_div_eq_div_mul, ← Nat.div_div_eq_div_mul]
      congr 1
      omega
    simp only [walkFrom, e, walk_from_page t va h l]
theorem walk_of_page (s : State) (sp va : Nat) (p : Proc) (h : va < 2 ^ 56) (k : s.proc? sp = some p)
    (r : (s.walkPa sp (va / 4096 * 4096) false).isSome = true) : (s.walkPa sp va false).isSome = true := by
  have canonical : ∀ x, x < 2 ^ 56 → canonicalVa x = true := by
    intro x hx
    have : x / 2 ^ 56 = 0 := Nat.div_eq_of_lt hx
    simp only [canonicalVa, bitsOf, Nat.shiftRight_eq_div_pow, this]; rfl
  unfold State.walkPa at r ⊢
  rw [k] at r ⊢
  simp only [State.walk, State.procWalk, canonical va h, canonical (va / 4096 * 4096) (by omega), ← walk_from_page p.ptes va h,
    Nat.mul_div_cancel _ (show 0 < 4096 by decide)] at r ⊢
  generalize walkFrom p.ptes va 5 = x at r ⊢
  cases x with
  | fault l => by_cases q : va / 4096 * 4096 = capMapVa <;> by_cases o : leafOk (capMapPte s.pkg) 0 false <;> simp [q, o] at r ⊢
  | leaf e l => by_cases q : leafOk e l false <;> simp [q] at r ⊢
/-- A range reads wherever each page of it is mapped. -/
theorem reads (s : State) (sp : Nat) : ∀ (n va : Nat), (∀ i < n, (s.walkPa sp (va + i) false).isSome = true) → (s.procRead sp va n).isSome = true
  | 0, _, _ => rfl
  | n + 1, va, h => by
    obtain ⟨pa, hp⟩ := Option.isSome_iff_exists.1 (h 0 (by omega))
    obtain ⟨b, hb⟩ := Option.isSome_iff_exists.1 (reads s sp n (va + 1) (fun i hi => by rw [show va + 1 + i = va + (i + 1) by omega]; exact h _ (by omega)))
    rw [Nat.add_zero] at hp
    simp [State.procRead, hp, hb]
theorem witness_attest :
    let s := fun (n : Nat) => calls [0x10000, 0x11000, n]
    (s 16640).proc? 1 = some procZero ∧ ((s 16640).procRead 1 0x10000 32).isSome = true ∧ 16640 ≤ ((s 16640).callArg 2).toNat ∧ ((s 16639).callArg 2).toNat < 16640 ∧
    (s 16640).launches = [] ∧ procZero.streams = [] ∧ procZero.plans = [] := by decide +kernel
/-- A process that exits with one launch still in its queue. -/
theorem witness_exit :
    let l : Launch := { launchZero with st := .queued, insts := [⟨0, 0, 0, 1, 0, 0, 0, 64⟩] }
    let s := calls [] [] procZero (fun s => { s with launches := [l] })
    s.proc? 1 = some procZero ∧ s.launches = [l] ∧ l.spid = 1 ∧ l.origin = s.pkg ∧ l.st = .queued ∧ l.result = 0 ∧ l.parts = [s.pkg] := by decide +kernel
theorem witness_attest_room : ((calls [0x10000, 0x11000, 16640]).procRead 1 0x11000 16640).isSome = true := by
  refine reads _ _ _ _ (fun i hi => walk_of_page _ _ _ procZero (by omega) (by decide +kernel) ?_)
  have : (0x11000 + i) / 4096 = 17 ∨ (0x11000 + i) / 4096 = 18 ∨ (0x11000 + i) / 4096 = 19 ∨ (0x11000 + i) / 4096 = 20 ∨ (0x11000 + i) / 4096 = 21 := by omega
  obtain h | h | h | h | h := this <;> rw [h] <;> decide +kernel

/-! ### Frames, writes, steps and encodings -/

/-- A step answers a next state. -/
def goesOn (o : Host.Outcome State Fault Refusal) : Bool := match o with | .next _ => true | _ => false
theorem next_of (o : Host.Outcome State Fault Refusal) (h : goesOn o = true) : ∃ t, o = .next t := by cases o <;> simp_all [goesOn]
theorem witness_scalar_frame :
    (∀ w ∈ [Instr.add 0 1 2 3, .div 0 31 2 3, .fadd 0 1 2 3, .fma 0 1 2 3 4, .csave 0 1, .bkst 0 1 2], goesOn (exec w State.reset) = true) ∧
    (∀ w ∈ [Instr.cmp 0 11 0 1 2 2, .fcmp 0 0 3 1 2 0, .cnot 0 1 2, .cmove 0 1 2], goesOn (exec w State.reset) = true) ∧
    (∀ w ∈ [Instr.br 0 0, .jmp 0 11, .call 0 0, .ret 0, .nop 3], goesOn (exec w State.reset) = true) := by decide +kernel
/-- A vector word of INT8 rows. -/
def rowsWord : VWord := ⟨0, 0, 0, 0, 0, 0, ⟨1, 0⟩, ⟨2, 0⟩, ⟨3, 0⟩, 0⟩
theorem witness_vector_frame : Sound (here (atWork)) ∧ goesOn (exec (.vadd rowsWord) atWork) = true ∧ goesOn (exec (.vand rowsWord) atWork) = true := by
  refine ⟨?_, by decide +kernel, by decide +kernel⟩
  unfold Sound; decide +kernel
/-- A write of two bytes to A, one of them selected; two writes of one byte in one cycle. -/
theorem witness_writes_meet :
    let w : CycWrite := { core := 0, space := 3, rank := 4, addr := 8, data := [1, 2], sel := [true, false] }
    let v : CycWrite := { core := 0, space := 0, rank := 4, addr := 8, data := [1], sel := [] }
    let s : State := { State.reset with wb := [{ v with data := [2], rank := 0 }, v] }
    w.space ≤ 3 ∧ Memory.wf ((State.reset.core w.core).space w.space) = true ∧ w.sel.length = w.data.length ∧ s.wb = [{ v with data := [2], rank := 0 }, v] ∧ s.sets = [] ∧
    Memory.wf ((s.core 0).space 0) = true := by decide
/-- Turns of each kind, and agendas that a freeze holds back or not. -/
theorem witness_steps :
    let live := { (atWork (fun k => { k with sc := { k.sc with live := true }, plane := #v[{ ovl := some 0, ready := true, scal := [0x04294010] }, {}] })) with turns := [.stream 0 .scalar] }
    let fetching := fun (f : Hart → Hart) => { ((State.reset.modHart 15 (fun x => f { x with running := true })).memStore 0 [0x0B, 0x10, 0, 0, 0x0B, 0x30, 0, 0, 0x13] []) with turns := [.hart 15] }
    let hart := fetching id
    let lost := fetching (fun x => { x with pc := 1 <<< 49 })
    let bank := { State.reset.setCore 0 { banks := (Vector.replicate 32 {}).set 31 { engine := some { engineZero with code := [0x10270000] } } } with turns := [.stream 0 (.bank 31)] }
    let e : Event := { at_ := 63, phase := 3, seq := 0, hold := none, act := .run .beatClose (.nums [0]) }
    live.turns = [.stream 0 .scalar] ∧ live.power.clocksOff = false ∧ ((live.core 0).strm .scalar).live = true ∧ ((live.core 0).strm .scalar).skips = false ∧
    ((live.core 0).strm .scalar).sub = 0 ∧ ((live.core 0).strm .scalar).ovr = none ∧ ((live.core 0).strm .scalar).replay = [] ∧
    (live.core 0).wordAt .scalar ((live.core 0).strm .scalar).next = some 0x04294010 ∧ (decodeFor .scalar 0x04294010).toOption = some (.addi 0 5 5 16) ∧
    hart.turns = [.hart 15] ∧ (hart.hart 15).running = true ∧ (hart.hart 15).blocked = false ∧ (hart.hart 15).handling = none ∧ stops (lost.hartFetch 15) ≠ none ∧
    (hart.hart 15).interrupt = none ∧ (lost.hart 15).interrupt = none ∧ (hart.hartFetch 15).toOption = some 0x100B ∧
    hartWordOf (hart.hart 15) 0x100B = .instr .ktlbf ∧ ((fetching (fun x => { x with pc := 4 })).hartFetch 15).toOption = some 0x300B ∧ hartWordOf (hart.hart 15) 0x300B = .exception ∧
    ((fetching (fun x => { x with pc := 8 })).hartFetch 15).toOption = some 0x13 ∧ hartWordOf (hart.hart 15) 0x13 = .base ∧ (live.core 0).sc.halted = false ∧
    bank.turns = [.stream 0 (.bank 31)] ∧ (((bank.core 0).bank 31).engine.bind (fun e => e.code[e.idx]?)) = some 0x10270000 ∧
    ({ State.reset with turns := [.input .door (.image 1 none)] } : State).turns = .input .door (.image 1 none) :: [] ∧
    State.reset.turns = [] ∧ (State.reset.pick [] State.reset.agenda).map Prod.fst = some e ∧ State.reset.agenda.head? = some e ∧ State.reset.held e = false := by decide +kernel
/-- A hart in U-mode with an interrupt pending and enabled. -/
theorem witness_interrupt : ({ mode := 0, causes := [24], csrs := [(0x304, 1 <<< 24)] } : Hart).interrupt = some 24 := by
  have e : ∀ x : Word64, ((0 &&& 0x222) ||| 1 <<< 24 ||| 0 ||| x) &&& 1 <<< 24 = 1 <<< 24 := by
    intro x
    refine BitVec.eq_of_getLsbD_eq (fun i _ => ?_)
    by_cases h : i = 24 <;> simp [h]
    exact Or.inl
  exact (congrArg (fun n : Word64 => ([11, 3, 7, 9, 1, 5, 24, 25, doorCause].find? (fun i => bitOf n.toNat i && !bitOf 0 i)).or _) (e _)).trans rfl
/-- A handler that has come to the return stub. -/
theorem witness_return_stub :
    let s := { (State.reset.modHart 15 (fun x => { x with running := true, handling := some (1, 15), pc := Config.returnStub })) with turns := [.hart 15] }
    s.turns = [.hart 15] ∧ s.power.clocksOff = false ∧ (s.hart 15).running = true ∧ (s.hart 15).blocked = false ∧ (s.hart 15).handling = some (1, 15) ∧
    (s.hart 15).pc = Config.returnStub := ⟨rfl, rfl, rfl, rfl, rfl, rfl⟩
/-- The first and the last word of a kind's range decode or are refused; a well-formed instruction of each kind has a word. -/
theorem witness_round_trip :
    (Instr.addi 0 5 5 16).wf = true ∧ encode (.addi 0 5 5 16) = some (32, 0x04294010) ∧ encode (.vadd rowsWord) ≠ none ∧ (Instr.vadd rowsWord).wf = true ∧
    (Instr.mswap ⟨0, 0, 0, 0, 0⟩).wf = true ∧ encode (.mswap ⟨0, 0, 0, 0, 0⟩) ≠ none ∧ encode .ktlbf = some (32, 0x100B) ∧
    (decodeScalar 0).toOption.isSome = true ∧ (decodeScalar (2 ^ 32 - 1)).toOption = none ∧ (decodeVector 0).toOption.isSome = true ∧ (decodeMatrix 0).toOption = none ∧
    (decodeHart 0x0005200B).toOption.isSome = true := by decide
theorem witness_canonical : Canonical State.reset ∧ goesOn (step State.reset) = true := by decide +kernel

/-! ### Words that are no instructions: each check refuses one (R121 to R139) -/

theorem test_ill_formed_scalar :
    ∀ i ∈ [Instr.cmp 0 1 6 1 2 0, .cmp 0 1 0 1 2 3, .cmpi 0 1 6 1 0 0, .cmpi 0 1 0 1 3 0, .fcmp 0 1 4 1 2 0, .fcmp 0 1 0 1 2 3, .lprw 0 0 0 3 0, .drain 0 6, .fence 0 0 0,
      .waitm 0 0 0 3 0, .waitm 0 0 0 0 4, .dscur 0 1 3, .gets 0 1 4 1, .puts 0 1 0 1], i.wf = false := by decide
/-- A vector word with a type, a destination, sources and extension bits. -/
def vw (ty : BitVec 4) (d a b : BitVec 11) (ext : BitVec 24) : VWord := ⟨ty, 0, 0, 0, 0, 0, ⟨d, 0⟩, ⟨a, 0⟩, ⟨b, 0⟩, ext⟩
theorem test_ill_formed_vector :
    ∀ i ∈ [Instr.vadd (vw 8 1 2 3 0), .vabs (vw 0 1 2 3 0), .vadd (vw 0 1 2 3 1), .vcmp (vw 0 1 2 3 0), .vmcnt (vw 0 1 2 0 0), .vcmp (vw 0 0 2 3 0xE0000),
      .vcvt (vw 0 1 2 0 0xD00000), .vcvt (vw 0 1 2 0 0x680000), .vdqmx (vw 0 1 2 3 0x500000), .vmlog (vw 0 0 0 0 0x500), .vtileWait (vw 0 0 0 0 0x80000), .vshl (vw 0 1 2 3 1),
      .vstc (vw 0 1 2 0 0), .vend (vw 0 0 0 0 1), .vcmp { vw 0 0 2 3 0 with rep := 1 }, .vmset { vw 0 0 2 0 0 with mask := 1 }, .vrsum { vw 0 1 2 0 0 with zero := 1 },
      .vadd { vw 0 1 2 3 0 with rnd := 4 }, .vcvt { vw 0 1 2 0 0x100000 with rnd := 4 }, .vrng { vw 0 1 0 0 0 with ty := 0 }], i.wf = false := by decide
theorem test_ill_formed_matrix :
    ∀ i ∈ [Instr.mlds ⟨0, 0, 0, 0, 1⟩, .mlds ⟨0, 0, 0, 1, 0⟩, .mswap ⟨0, 0, 0, 0, 1⟩, .mstep ⟨0, 0, 0, 0, 1⟩, .mdrain ⟨0, 0, 0, 0, 3 <<< 154⟩, .mflag ⟨0, 0, 0, 0, 1⟩, .mend ⟨0, 0, 0, 0, 1⟩,
      .mnop ⟨0, 0, 0, 0, 1⟩], i.wf = false := by decide

/-! ### Words written out from the encodings (R121 to R139, R174 to R204) -/

theorem test_decode_scalar_0 :
    (decodeScalar 0x01DB6A00).toOption = some (.add 1 27 13 21) ∧
    (decodeScalar 0x01DB6A01).toOption = some (.sub 1 27 13 21) ∧
    (decodeScalar 0x01DB6A02).toOption = some (.and 1 27 13 21) ∧
    (decodeScalar 0x01AEDA03).toOption = some (.or 1 21 27 13) ∧
    (decodeScalar 0x01DB6A04).toOption = some (.xor 1 27 13 21) ∧
    (decodeScalar 0x01DB6A05).toOption = some (.sll 1 27 13 21) ∧
    (decodeScalar 0x01DB6A06).toOption = some (.srl 1 27 13 21) ∧
    (decodeScalar 0x01DB6A07).toOption = some (.sra 1 27 13 21) ∧
    (decodeScalar 0x01DB6A08).toOption = some (.mul 1 27 13 21) ∧
    (decodeScalar 0x036D7609).toOption = some (.mulh 3 13 21 27) ∧
    (decodeScalar 0x01AEDA0A).toOption = some (.mulhu 1 21 27 13) ∧
    (decodeScalar 0x01DB6A0B).toOption = some (.div 1 27 13 21) := by decide
theorem test_decode_scalar_1 :
    (decodeScalar 0x036D760C).toOption = some (.divu 3 13 21 27) ∧
    (decodeScalar 0x01DB6A0D).toOption = some (.rem 1 27 13 21) ∧
    (decodeScalar 0x036D760E).toOption = some (.remu 3 13 21 27) ∧
    (decodeScalar 0x01DB6A0F).toOption = some (.min 1 27 13 21) ∧
    (decodeScalar 0x01DB6A10).toOption = some (.max 1 27 13 21) ∧
    (decodeScalar 0x036D7611).toOption = some (.minu 3 13 21 27) ∧
    (decodeScalar 0x036D7612).toOption = some (.maxu 3 13 21 27) ∧
    (decodeScalar 0x01DB4013).toOption = some (.clz 1 27 13) ∧
    (decodeScalar 0x01DB4014).toOption = some (.ctz 1 27 13) ∧
    (decodeScalar 0x036D4015).toOption = some (.popc 3 13 21) ∧
    (decodeScalar 0x036D7616).toOption = some (.addw 3 13 21 27) ∧
    (decodeScalar 0x036D7617).toOption = some (.subw 3 13 21 27) := by decide
theorem test_decode_scalar_2 :
    (decodeScalar 0x036D7618).toOption = some (.andn 3 13 21 27) ∧
    (decodeScalar 0x076D6A5B).toOption = some (.addi 3 13 21 10843) ∧
    (decodeScalar 0x0B6D6A5B).toOption = some (.andi 3 13 21 10843) ∧
    (decodeScalar 0x0DDB56B5).toOption = some (.ori 1 27 13 5813) ∧
    (decodeScalar 0x136D6A5B).toOption = some (.xori 3 13 21 10843) ∧
    (decodeScalar 0x176D401B).toOption = some (.slli 3 13 21 27) ∧
    (decodeScalar 0x176D501B).toOption = some (.srli 3 13 21 27) ∧
    (decodeScalar 0x176D601B).toOption = some (.srai 3 13 21 27) ∧
    (decodeScalar 0x19DBA72D).toOption = some (.lhi 1 27 239405) ∧
    (decodeScalar 0x1DAA6A5B).toOption = some (.addpc 1 21 158299) ∧
    (decodeScalar 0x236D7600).toOption = some (.fadd 3 13 21 27) ∧
    (decodeScalar 0x236D7601).toOption = some (.fsub 3 13 21 27) := by decide
theorem test_decode_scalar_3 :
    (decodeScalar 0x236D7602).toOption = some (.fmul 3 13 21 27) ∧
    (decodeScalar 0x236D7603).toOption = some (.fdiv 3 13 21 27) ∧
    (decodeScalar 0x21AEC004).toOption = some (.fsqrt 1 21 27) ∧
    (decodeScalar 0x236D7605).toOption = some (.fmin 3 13 21 27) ∧
    (decodeScalar 0x236D7606).toOption = some (.fmax 3 13 21 27) ∧
    (decodeScalar 0x21AEDA07).toOption = some (.fsgnj 1 21 27 13) ∧
    (decodeScalar 0x21AEDA08).toOption = some (.fsgnn 1 21 27 13) ∧
    (decodeScalar 0x21AEDA09).toOption = some (.fsgnx 1 21 27 13) ∧
    (decodeScalar 0x21AEC00A).toOption = some (.fcvti 1 21 27) ∧
    (decodeScalar 0x21AEC00B).toOption = some (.icvtf 1 21 27) ∧
    (decodeScalar 0x21AEC00C).toOption = some (.ftobf 1 21 27) ∧
    (decodeScalar 0x21AEC00D).toOption = some (.bftof 1 21 27) := by decide
theorem test_decode_scalar_4 :
    (decodeScalar 0x21DB400E).toOption = some (.fclass 1 27 13) ∧
    (decodeScalar 0x25DB6BB0).toOption = some (.fma 1 27 13 21 27) ∧
    (decodeScalar 0x25DB6BB1).toOption = some (.fms 1 27 13 21 27) ∧
    (decodeScalar 0x276D76D2).toOption = some (.fnma 3 13 21 27 13) ∧
    (decodeScalar 0x276D76D3).toOption = some (.fnms 3 13 21 27 13) ∧
    (decodeScalar 0x29B4AEE0).toOption = some (.cmp 1 11 4 21 27 2) ∧
    (decodeScalar 0x2FA3DAB5).toOption = some (.cmpi 3 10 3 27 1 181) ∧
    (decodeScalar 0x3393DB50).toOption = some (.fcmp 3 9 3 27 13 1) ∧
    (decodeScalar 0x37D5B000).toOption = some (.cand 3 13 5 11) ∧
    (decodeScalar 0x35BD5100).toOption = some (.cor 1 11 13 5) ∧
    (decodeScalar 0x37D5B200).toOption = some (.cxor 3 13 5 11) ∧
    (decodeScalar 0x355BD300).toOption = some (.candn 1 5 11 13) := by decide
theorem test_decode_scalar_5 :
    (decodeScalar 0x37D50400).toOption = some (.cnot 3 13 5) ∧
    (decodeScalar 0x35500500).toOption = some (.ctrue 1 5) ∧
    (decodeScalar 0x35B00600).toOption = some (.cfalse 1 11) ∧
    (decodeScalar 0x355B0700).toOption = some (.cmove 1 5 11) ∧
    (decodeScalar 0x350008A8).toOption = some (.csave 1 21) ∧
    (decodeScalar 0x350009A8).toOption = some (.cload 1 21) ∧
    (decodeScalar 0x3BD596B5).toOption = some (.prep 3 13 366261) ∧
    (decodeScalar 0x3D5D8000).toOption = some (.prepr 1 5 27) ∧
    (decodeScalar 0x41500000).toOption = some (.br 1 5) ∧
    (decodeScalar 0x45B00000).toOption = some (.brn 1 11) ∧
    (decodeScalar 0x49B00000).toOption = some (.jmp 1 11) ∧
    (decodeScalar 0x4FD00000).toOption = some (.call 3 13) := by decide
theorem test_decode_scalar_6 :
    (decodeScalar 0x51000000).toOption = some (.ret 1) ∧
    (decodeScalar 0x576A6A5B).toOption = some (.loop 3 1 21 27227) ∧
    (decodeScalar 0x5965B72D).toOption = some (.loopi 1 1 603 1837) ∧
    (decodeScalar 0x5F6B4000).toOption = some (.lprw 3 13 1 2 1) ∧
    (decodeScalar 0x61DB5F2D).toOption = some (.lda 1 27 13 1 1 1837) ∧
    (decodeScalar 0x676D7EB5).toOption = some (.ldau 3 13 21 3 1 1717) ∧
    (decodeScalar 0x69DB5F2D).toOption = some (.sta 1 27 13 1 1 1837) ∧
    (decodeScalar 0x6DDB5F2D).toOption = some (.ldg 1 27 13 1 1 1837) ∧
    (decodeScalar 0x736D7EB5).toOption = some (.ldgu 3 13 21 3 1 1717) ∧
    (decodeScalar 0x75DB5F2D).toOption = some (.stg 1 27 13 1 1 1837) ∧
    (decodeScalar 0x790096B5).toOption = some (.enter 1 38581) ∧
    (decodeScalar 0x7D0096B5).toOption = some (.leave 1 38581) := by decide
theorem test_decode_scalar_7 :
    (decodeScalar 0x81DB6B00).toOption = some (.amoadd 1 27 13 21 1) ∧
    (decodeScalar 0x81DB6B10).toOption = some (.amomin 1 27 13 21 1) ∧
    (decodeScalar 0x81DB6B20).toOption = some (.amomax 1 27 13 21 1) ∧
    (decodeScalar 0x836D7730).toOption = some (.amominu 3 13 21 27 1) ∧
    (decodeScalar 0x836D7740).toOption = some (.amomaxu 3 13 21 27 1) ∧
    (decodeScalar 0x81DB6B50).toOption = some (.amoand 1 27 13 21 1) ∧
    (decodeScalar 0x81AEDB60).toOption = some (.amoor 1 21 27 13 1) ∧
    (decodeScalar 0x81DB6B70).toOption = some (.amoxor 1 27 13 21 1) ∧
    (decodeScalar 0x836D7780).toOption = some (.amoswap 3 13 21 27 1) ∧
    (decodeScalar 0x836D7690).toOption = some (.amofadd 3 13 21 27) ∧
    (decodeScalar 0x85DB6BB1).toOption = some (.cas 1 27 13 21 27 1) ∧
    (decodeScalar 0x89AD8000).toOption = some (.qpush 1 21 11) := by decide
theorem test_decode_scalar_8 :
    (decodeScalar 0x8B6A9000).toOption = some (.qpop 3 13 5) ∧
    (decodeScalar 0x89ADA000).toOption = some (.qpeek 1 21 11) ∧
    (decodeScalar 0x8B6AB000).toOption = some (.qcnt 3 13 5) ∧
    (decodeScalar 0x8DEB672D).toOption = some (.blk 1 1 1 5 27 1837) ∧
    (decodeScalar 0x93CBA72D).toOption = some (.wait 3 13346605) ∧
    (decodeScalar 0x95000000).toOption = some (.anchor 1) ∧
    (decodeScalar 0x9B068000).toOption = some (.tnow 3 13) ∧
    (decodeScalar 0x9B168000).toOption = some (.bnow 3 13) ∧
    (decodeScalar 0x992A8000).toOption = some (.btset 1 21) ∧
    (decodeScalar 0x9DD80000).toOption = some (.cpy 1 27) ∧
    (decodeScalar 0xA36D4000).toOption = some (.cpys 3 13 21) ∧
    (decodeScalar 0xA5500000).toOption = some (.drain 1 5) := by decide
theorem test_decode_scalar_9 :
    (decodeScalar 0xA9AB8000).toOption = some (.bkrun 1 21 3 1) ∧
    (decodeScalar 0xADDD8000).toOption = some (.bklode 1 27 5 1) ∧
    (decodeScalar 0xB1AB8000).toOption = some (.bkcal 1 21 3 1) ∧
    (decodeScalar 0xB76D4000).toOption = some (.bkst 3 13 21) ∧
    (decodeScalar 0xB905B000).toOption = some (.mlease 1 91) ∧
    (decodeScalar 0xB9100000).toOption = some (.mfree 1) ∧
    (decodeScalar 0xBF0A0000).toOption = some (.scommit 3 5) ∧
    (decodeScalar 0xBD1A0000).toOption = some (.sdrop 1 5) ∧
    (decodeScalar 0xC1B2D000).toOption = some (.bar 1 11 45) ∧
    (decodeScalar 0xC3D75000).toOption = some (.bara 3 13 53) ∧
    (decodeScalar 0xC3DB5000).toOption = some (.barw 3 13 53) ∧
    (decodeScalar 0xC55B0000).toOption = some (.fence 1 5 11) := by decide
theorem test_decode_scalar_10 :
    (decodeScalar 0xC9AEE600).toOption = some (.waitm 1 21 27 2 3) ∧
    (decodeScalar 0xCD0D7600).toOption = some (.ttset 1 53 27) ∧
    (decodeScalar 0xCF1B4000).toOption = some (.trdy 3 45) ∧
    (decodeScalar 0xCD202A00).toOption = some (.sbset 1 21) ∧
    (decodeScalar 0xCD3A36D0).toOption = some (.sbarm 1 5 27 13) ∧
    (decodeScalar 0xCD46DA00).toOption = some (.clx 1 27 13) ∧
    (decodeScalar 0xD3068000).toOption = some (.dsadmit 3 13) ∧
    (decodeScalar 0xD1106C00).toOption = some (.dsemit 1 27) ∧
    (decodeScalar 0xD3268000).toOption = some (.dstrunc 3 13) ∧
    (decodeScalar 0xD13A8200).toOption = some (.dscur 1 21 2) ∧
    (decodeScalar 0xD5005760).toOption = some (.kvinv 1 21 27) ∧
    (decodeScalar 0xD5105760).toOption = some (.kvaccept 1 21 27) := by decide
theorem test_decode_scalar_11 :
    (decodeScalar 0xD52A8000).toOption = some (.kvcommit 1 21) ∧
    (decodeScalar 0xD9000000).toOption = some (.nop 1) ∧
    (decodeScalar 0xDB10272D).toOption = some (.trap 3 10029) ∧
    (decodeScalar 0xDB268039).toOption = some (.gets 3 13 3 9) ∧
    (decodeScalar 0xDB368035).toOption = some (.puts 3 13 3 5) ∧
    (decodeScalar 0xDB40272D).toOption = some (.bkpt 3 10029) ∧
    (decodeScalar 0xDB5680B5).toOption = some (.swap 3 13 181) ∧
    (decodeScalar 0xDB60012D).toOption = some (.halt 3 301) := by decide
theorem test_decode_hart :
    (decodeHart 0x00DA800B).toOption = some (.ktlbi 13 21) ∧
    (decodeHart 0x0000100B).toOption = some (.ktlbf) ∧
    (decodeHart 0x000DA00B).toOption = some (.kresume 27) := by decide
theorem test_decode_vector_0_0 :
    (decodeVector 0x005680D496B3244000000000).toOption = some (.vmov ⟨5, 6, 1, 0, 3, 5, ⟨301, 3⟩, ⟨402, 1⟩, ⟨0, 0⟩, 0⟩) ∧
    (decodeVector 0x017680D496B3244FBE000000).toOption = some (.vadd ⟨7, 6, 1, 0, 3, 5, ⟨301, 3⟩, ⟨402, 1⟩, ⟨503, 6⟩, 0⟩) ∧
    (decodeVector 0x027680D496B3244FBE000000).toOption = some (.vsub ⟨7, 6, 1, 0, 3, 5, ⟨301, 3⟩, ⟨402, 1⟩, ⟨503, 6⟩, 0⟩) ∧
    (decodeVector 0x037680D496B3244FBE000000).toOption = some (.vmul ⟨7, 6, 1, 0, 3, 5, ⟨301, 3⟩, ⟨402, 1⟩, ⟨503, 6⟩, 0⟩) ∧
    (decodeVector 0x047680D496B3244FBE000000).toOption = some (.vfma ⟨7, 6, 1, 0, 3, 5, ⟨301, 3⟩, ⟨402, 1⟩, ⟨503, 6⟩, 0⟩) ∧
    (decodeVector 0x057680D496B3244FBE000000).toOption = some (.vfms ⟨7, 6, 1, 0, 3, 5, ⟨301, 3⟩, ⟨402, 1⟩, ⟨503, 6⟩, 0⟩) ∧
    (decodeVector 0x067680D496B3244FBE000000).toOption = some (.vmin ⟨7, 6, 1, 0, 3, 5, ⟨301, 3⟩, ⟨402, 1⟩, ⟨503, 6⟩, 0⟩) ∧
    (decodeVector 0x077680D496B3244FBE000000).toOption = some (.vmax ⟨7, 6, 1, 0, 3, 5, ⟨301, 3⟩, ⟨402, 1⟩, ⟨503, 6⟩, 0⟩) := by decide
theorem test_decode_vector_0_1 :
    (decodeVector 0x086680D496B3244000000000).toOption = some (.vabs ⟨6, 6, 1, 0, 3, 5, ⟨301, 3⟩, ⟨402, 1⟩, ⟨0, 0⟩, 0⟩) ∧
    (decodeVector 0x096680D496B3244000000000).toOption = some (.vneg ⟨6, 6, 1, 0, 3, 5, ⟨301, 3⟩, ⟨402, 1⟩, ⟨0, 0⟩, 0⟩) ∧
    (decodeVector 0x0A2680D496B3244FBE000000).toOption = some (.vadds ⟨2, 6, 1, 0, 3, 5, ⟨301, 3⟩, ⟨402, 1⟩, ⟨503, 6⟩, 0⟩) ∧
    (decodeVector 0x0B2680D496B3244FBE000000).toOption = some (.vsubs ⟨2, 6, 1, 0, 3, 5, ⟨301, 3⟩, ⟨402, 1⟩, ⟨503, 6⟩, 0⟩) ∧
    (decodeVector 0x0C2680D496B3244FBE000000).toOption = some (.vmulh ⟨2, 6, 1, 0, 3, 5, ⟨301, 3⟩, ⟨402, 1⟩, ⟨503, 6⟩, 0⟩) ∧
    (decodeVector 0x0D1680D496B3244000800013).toOption = some (.vshl ⟨1, 6, 1, 0, 3, 5, ⟨301, 3⟩, ⟨402, 1⟩, ⟨0, 0⟩, 8388627⟩) ∧
    (decodeVector 0x0E1680D496B3244FBE000000).toOption = some (.vshr ⟨1, 6, 1, 0, 3, 5, ⟨301, 3⟩, ⟨402, 1⟩, ⟨503, 6⟩, 0⟩) ∧
    (decodeVector 0x0F4680D496B3244000800007).toOption = some (.vsar ⟨4, 6, 1, 0, 3, 5, ⟨301, 3⟩, ⟨402, 1⟩, ⟨0, 0⟩, 8388615⟩) := by decide
theorem test_decode_vector_1_0 :
    (decodeVector 0x103680D496B3244FBE000000).toOption = some (.vand ⟨3, 6, 1, 0, 3, 5, ⟨301, 3⟩, ⟨402, 1⟩, ⟨503, 6⟩, 0⟩) ∧
    (decodeVector 0x113680D496B3244FBE000000).toOption = some (.vor ⟨3, 6, 1, 0, 3, 5, ⟨301, 3⟩, ⟨402, 1⟩, ⟨503, 6⟩, 0⟩) ∧
    (decodeVector 0x123680D496B3244FBE000000).toOption = some (.vxor ⟨3, 6, 1, 0, 3, 5, ⟨301, 3⟩, ⟨402, 1⟩, ⟨503, 6⟩, 0⟩) ∧
    (decodeVector 0x133680D496B3244000000000).toOption = some (.vnot ⟨3, 6, 1, 0, 3, 5, ⟨301, 3⟩, ⟨402, 1⟩, ⟨0, 0⟩, 0⟩) ∧
    (decodeVector 0x147680D496B3244FBE900000).toOption = some (.vsel ⟨7, 6, 1, 0, 3, 5, ⟨301, 3⟩, ⟨402, 1⟩, ⟨503, 6⟩, 9437184⟩) ∧
    (decodeVector 0x154680140003244FBE6A0000).toOption = some (.vcmp ⟨4, 6, 1, 0, 0, 5, ⟨0, 0⟩, ⟨402, 1⟩, ⟨503, 6⟩, 6946816⟩) ∧
    (decodeVector 0x167680D496B3244FBE0004D2).toOption = some (.vclamp ⟨7, 6, 1, 0, 3, 5, ⟨301, 3⟩, ⟨402, 1⟩, ⟨503, 6⟩, 1234⟩) ∧
    (decodeVector 0x170680D496B3244FBE000000).toOption = some (.vdot4 ⟨0, 6, 1, 0, 3, 5, ⟨301, 3⟩, ⟨402, 1⟩, ⟨503, 6⟩, 0⟩) := by decide
theorem test_decode_vector_1_1 :
    (decodeVector 0x180680D496B3244FBE000000).toOption = some (.vtacc ⟨0, 6, 1, 0, 3, 5, ⟨301, 3⟩, ⟨402, 1⟩, ⟨503, 6⟩, 0⟩) := by decide
theorem test_decode_vector_2_0 :
    (decodeVector 0x207600D496B3244000A80000).toOption = some (.vrsum ⟨7, 6, 0, 0, 3, 5, ⟨301, 3⟩, ⟨402, 1⟩, ⟨0, 0⟩, 11010048⟩) ∧
    (decodeVector 0x217600D496B3244000A80000).toOption = some (.vrmax ⟨7, 6, 0, 0, 3, 5, ⟨301, 3⟩, ⟨402, 1⟩, ⟨0, 0⟩, 11010048⟩) ∧
    (decodeVector 0x227600D496B3244000A80000).toOption = some (.vrmin ⟨7, 6, 0, 0, 3, 5, ⟨301, 3⟩, ⟨402, 1⟩, ⟨0, 0⟩, 11010048⟩) ∧
    (decodeVector 0x234600D496B3244000980000).toOption = some (.vrsums ⟨4, 6, 0, 0, 3, 5, ⟨301, 3⟩, ⟨402, 1⟩, ⟨0, 0⟩, 9961472⟩) ∧
    (decodeVector 0x284600D496B3244000980000).toOption = some (.vscan ⟨4, 6, 0, 0, 3, 5, ⟨301, 3⟩, ⟨402, 1⟩, ⟨0, 0⟩, 9961472⟩) ∧
    (decodeVector 0x240680D496B3244FBE000000).toOption = some (.vpermb ⟨0, 6, 1, 0, 3, 5, ⟨301, 3⟩, ⟨402, 1⟩, ⟨503, 6⟩, 0⟩) ∧
    (decodeVector 0x250680D496B3244FBE000000).toOption = some (.vpermw ⟨0, 6, 1, 0, 3, 5, ⟨301, 3⟩, ⟨402, 1⟩, ⟨503, 6⟩, 0⟩) ∧
    (decodeVector 0x262680D496B3244FBE00004B).toOption = some (.vslide ⟨2, 6, 1, 0, 3, 5, ⟨301, 3⟩, ⟨402, 1⟩, ⟨503, 6⟩, 75⟩) := by decide
theorem test_decode_vector_2_1 :
    (decodeVector 0x271680D496B32440000000A5).toOption = some (.vbcast ⟨1, 6, 1, 0, 3, 5, ⟨301, 3⟩, ⟨402, 1⟩, ⟨0, 0⟩, 165⟩) := by decide
theorem test_decode_vector_3 :
    (decodeVector 0x3076C0D496B324400088BEEF).toOption = some (.vcvt ⟨7, 6, 1, 4, 3, 5, ⟨301, 3⟩, ⟨402, 1⟩, ⟨0, 0⟩, 8961775⟩) ∧
    (decodeVector 0x317000D496B3244FBE001234).toOption = some (.vqmx ⟨7, 0, 0, 0, 3, 5, ⟨301, 3⟩, ⟨402, 1⟩, ⟨503, 6⟩, 4660⟩) ∧
    (decodeVector 0x320000D496B3244FBE700000).toOption = some (.vdqmx ⟨0, 0, 0, 0, 3, 5, ⟨301, 3⟩, ⟨402, 1⟩, ⟨503, 6⟩, 7340032⟩) ∧
    (decodeVector 0x3300001496B3244000500000).toOption = some (.vunt5 ⟨0, 0, 0, 0, 0, 5, ⟨301, 3⟩, ⟨402, 1⟩, ⟨0, 0⟩, 5242880⟩) ∧
    (decodeVector 0x3400001496B3244000000005).toOption = some (.vnbps ⟨0, 0, 0, 0, 0, 5, ⟨301, 3⟩, ⟨402, 1⟩, ⟨0, 0⟩, 5⟩) ∧
    (decodeVector 0x3500001496B3244000000005).toOption = some (.vnbpj ⟨0, 0, 0, 0, 0, 5, ⟨301, 3⟩, ⟨402, 1⟩, ⟨0, 0⟩, 5⟩) := by decide
theorem test_decode_vector_4 :
    (decodeVector 0x404000140003244000700000).toOption = some (.vmset ⟨4, 0, 0, 0, 0, 5, ⟨0, 0⟩, ⟨402, 1⟩, ⟨0, 0⟩, 7340032⟩) ∧
    (decodeVector 0x410000140000000000739200).toOption = some (.vmlog ⟨0, 0, 0, 0, 0, 5, ⟨0, 0⟩, ⟨0, 0⟩, ⟨0, 0⟩, 7574016⟩) ∧
    (decodeVector 0x4240001496B00000000B0000).toOption = some (.vmcnt ⟨4, 0, 0, 0, 0, 5, ⟨301, 3⟩, ⟨0, 0⟩, ⟨0, 0⟩, 720896⟩) ∧
    (decodeVector 0x4340001496B00000000B0000).toOption = some (.vmfirst ⟨4, 0, 0, 0, 0, 5, ⟨301, 3⟩, ⟨0, 0⟩, ⟨0, 0⟩, 720896⟩) ∧
    (decodeVector 0x440000140003244000C00000).toOption = some (.vmrow ⟨0, 0, 0, 0, 0, 5, ⟨0, 0⟩, ⟨402, 1⟩, ⟨0, 0⟩, 12582912⟩) ∧
    (decodeVector 0x4500001400000000006000A0).toOption = some (.vmpos ⟨0, 0, 0, 0, 0, 5, ⟨0, 0⟩, ⟨0, 0⟩, ⟨0, 0⟩, 6291616⟩) := by decide
theorem test_decode_vector_5_0 :
    (decodeVector 0x501680D496B000000070FFF8).toOption = some (.vldc ⟨1, 6, 1, 0, 3, 5, ⟨301, 3⟩, ⟨0, 0⟩, ⟨0, 0⟩, 7405560⟩) ∧
    (decodeVector 0x511600D40003244000700012).toOption = some (.vstc ⟨1, 6, 0, 0, 3, 5, ⟨0, 0⟩, ⟨402, 1⟩, ⟨0, 0⟩, 7340050⟩) ∧
    (decodeVector 0x521680D496B00000004B0009).toOption = some (.vbld ⟨1, 6, 1, 0, 3, 5, ⟨301, 3⟩, ⟨0, 0⟩, ⟨0, 0⟩, 4915209⟩) ∧
    (decodeVector 0x531600D400032440004B0009).toOption = some (.vbst ⟨1, 6, 0, 0, 3, 5, ⟨0, 0⟩, ⟨402, 1⟩, ⟨0, 0⟩, 4915209⟩) ∧
    (decodeVector 0x541680D496B0000000E00100).toOption = some (.vldg ⟨1, 6, 1, 0, 3, 5, ⟨301, 3⟩, ⟨0, 0⟩, ⟨0, 0⟩, 14680320⟩) ∧
    (decodeVector 0x551600D40003244000E00100).toOption = some (.vstg ⟨1, 6, 0, 0, 3, 5, ⟨0, 0⟩, ⟨402, 1⟩, ⟨0, 0⟩, 14680320⟩) ∧
    (decodeVector 0x564680D496B0000FBED00080).toOption = some (.vgth ⟨4, 6, 1, 0, 3, 5, ⟨301, 3⟩, ⟨0, 0⟩, ⟨503, 6⟩, 13631616⟩) ∧
    (decodeVector 0x574600D40003244FBED00080).toOption = some (.vsct ⟨4, 6, 0, 0, 3, 5, ⟨0, 0⟩, ⟨402, 1⟩, ⟨503, 6⟩, 13631616⟩) := by decide
theorem test_decode_vector_5_1 :
    (decodeVector 0x580000140003244000A00000).toOption = some (.vaset ⟨0, 0, 0, 0, 0, 5, ⟨0, 0⟩, ⟨402, 1⟩, ⟨0, 0⟩, 10485760⟩) ∧
    (decodeVector 0x590000140000000000A0FF00).toOption = some (.vaadd ⟨0, 0, 0, 0, 0, 5, ⟨0, 0⟩, ⟨0, 0⟩, ⟨0, 0⟩, 10551040⟩) := by decide
theorem test_decode_vector_6 :
    (decodeVector 0x6070001496B3247FE040E666).toOption = some (.vshort ⟨7, 0, 0, 0, 0, 5, ⟨301, 3⟩, ⟨402, 1⟩, ⟨2044, 0⟩, 4253286⟩) ∧
    (decodeVector 0x617600D496B3244FBE000ABC).toOption = some (.vsample ⟨7, 6, 0, 0, 3, 5, ⟨301, 3⟩, ⟨402, 1⟩, ⟨503, 6⟩, 2748⟩) ∧
    (decodeVector 0x627680D496B0000000000ABC).toOption = some (.vrng ⟨7, 6, 1, 0, 3, 5, ⟨301, 3⟩, ⟨0, 0⟩, ⟨0, 0⟩, 2748⟩) := by decide
theorem test_decode_vector_7 :
    (decodeVector 0x707680D496B3244000000000).toOption = some (.vexp2 ⟨7, 6, 1, 0, 3, 5, ⟨301, 3⟩, ⟨402, 1⟩, ⟨0, 0⟩, 0⟩) ∧
    (decodeVector 0x717680D496B3244000000000).toOption = some (.vlog2 ⟨7, 6, 1, 0, 3, 5, ⟨301, 3⟩, ⟨402, 1⟩, ⟨0, 0⟩, 0⟩) ∧
    (decodeVector 0x727680D496B3244000000000).toOption = some (.vrcp ⟨7, 6, 1, 0, 3, 5, ⟨301, 3⟩, ⟨402, 1⟩, ⟨0, 0⟩, 0⟩) ∧
    (decodeVector 0x737680D496B3244000000000).toOption = some (.vrsq ⟨7, 6, 1, 0, 3, 5, ⟨301, 3⟩, ⟨402, 1⟩, ⟨0, 0⟩, 0⟩) := by decide
theorem test_decode_vector_F :
    (decodeVector 0xF00000140000000000000000).toOption = some (.vend ⟨0, 0, 0, 0, 0, 5, ⟨0, 0⟩, ⟨0, 0⟩, ⟨0, 0⟩, 0⟩) ∧
    (decodeVector 0xF100001400000000000186A0).toOption = some (.vnop ⟨0, 0, 0, 0, 0, 5, ⟨0, 0⟩, ⟨0, 0⟩, ⟨0, 0⟩, 100000⟩) ∧
    (decodeVector 0xF20000140000000000B40000).toOption = some (.vtileWait ⟨0, 0, 0, 0, 0, 5, ⟨0, 0⟩, ⟨0, 0⟩, ⟨0, 0⟩, 11796480⟩) ∧
    (decodeVector 0xF20000140000000000BC0000).toOption = some (.vtileMark ⟨0, 0, 0, 0, 0, 5, ⟨0, 0⟩, ⟨0, 0⟩, ⟨0, 0⟩, 12320768⟩) := by decide
theorem test_decode_matrix_0 :
    (decodeMatrix 0x0194000ABC08FF1800000000000000000000000000000000).toOption = some (.mlds ⟨37, 0, 0, 0, 15688507265985188662543229674150395450202479656960⟩) ∧
    (decodeMatrix 0x029400000000000000000000000000000000000000000000).toOption = some (.mswap ⟨37, 0, 0, 0, 0⟩) ∧
    (decodeMatrix 0x039765F41F23000000000000000000000000000000000000).toOption = some (.mstep ⟨37, 1, 5, 9, 730928577905428946698903597568492789917530441383936⟩) ∧
    (decodeMatrix 0x04976721B000000000000000000000000000000000000000).toOption = some (.mzero ⟨37, 1, 5, 9, 1171667593877718233237416584328235143320415420547072⟩) := by decide
theorem test_decode_matrix_1 :
    (decodeMatrix 0x05942600F15E320800012340000000000000000000000000).toOption = some (.mdrain ⟨37, 0, 0, 9, 749666805717576062754833763485254831282016181288960⟩) ∧
    (decodeMatrix 0x069426000000000000000000000000000000000000000000).toOption = some (.mflag ⟨37, 0, 0, 9, 748288838313422294120286634350736906063837462003712⟩) ∧
    (decodeMatrix 0xF09400000000000000000000000000000000000000000000).toOption = some (.mend ⟨37, 0, 0, 0, 0⟩) ∧
    (decodeMatrix 0xF194002AF378000000000000000000000000000000000000).toOption = some (.mnop ⟨37, 0, 0, 0, 62773029614631939243720401222581513901493914173440⟩) := by decide

end Sys2Proof.Tests
end

