-- ==== Sys2Proof/Proofs/MemoryFrame.lean ====
section
/-! SUPPORT. What leaves LPDDR and the fuses alone. One rule per operation of the state, in the order of the model: its result holds the memory and the
fuses it was given. Only the operations that store at an LPDDR home are left out (R18, R22, R261); they stand in the part after this one. -/

namespace Sys2Proof.Machine

@[simp] theorem sameStore_iff (s t : State) : SameStore s t ↔ t.mem = s.mem ∧ t.fuse = s.fuse := ⟨fun h => ⟨h.mem, h.fuse⟩, fun h => ⟨h.1, h.2⟩⟩

/-! ### Conditionals and folds -/

@[simp] theorem State.mem_ite (p : Prop) [Decidable p] (s t : State) : (if p then s else t).mem = if p then s.mem else t.mem := apply_ite ..
@[simp] theorem State.fuse_ite (p : Prop) [Decidable p] (s t : State) : (if p then s else t).fuse = if p then s.fuse else t.fuse := apply_ite ..
@[simp] theorem State.mem_foldl {α : Type} (f : State → α → State) (hf : ∀ t a, SameStore t (f t a)) (l : List α) (s : State) :
    (l.foldl f s).mem = s.mem := (SameStore.foldl f hf l s).mem
@[simp] theorem State.fuse_foldl {α : Type} (f : State → α → State) (hf : ∀ t a, SameStore t (f t a)) (l : List α) (s : State) :
    (l.foldl f s).fuse = s.fuse := (SameStore.foldl f hf l s).fuse
theorem State.foldl_store {α : Type} (f : State → α → State) (hf : ∀ t a, (f t a).mem = t.mem ∧ (f t a).fuse = t.fuse) (l : List α) (s : State) :
    (l.foldl f s).mem = s.mem ∧ (l.foldl f s).fuse = s.fuse :=
  (sameStore_iff ..).1 (SameStore.foldl f (fun t a => (sameStore_iff ..).2 (hf t a)) l s)

/-- The state that the answer to a copy's request carries. -/
@[simp] def Asked.state : Asked → State
  | .gone s | .waits s | .fault s _ => s
theorem State.foldl_fst_same {α β : Type} (f : State × α → β → State × α) (hf : ∀ x b, SameStore x.1 (f x b).1) (l : List β) (x : State × α) :
    SameStore x.1 (l.foldl f x).1 := by
  induction l generalizing x with
  | nil => exact .rfl
  | cons b l ih => exact (hf x b).trans (ih _)
@[simp] theorem State.mem_foldl_fst {α β : Type} (f : State × α → β → State × α) (hf : ∀ x b, SameStore x.1 (f x b).1) (l : List β) (x : State × α) :
    (l.foldl f x).1.mem = x.1.mem := (State.foldl_fst_same f hf l x).mem
@[simp] theorem State.fuse_foldl_fst {α β : Type} (f : State × α → β → State × α) (hf : ∀ x b, SameStore x.1 (f x b).1) (l : List β) (x : State × α) :
    (l.foldl f x).1.fuse = x.1.fuse := (State.foldl_fst_same f hf l x).fuse
@[simp] theorem State.fst_ite {α : Type} (p : Prop) [Decidable p] (x y : State × α) : (if p then x else y).1 = if p then x.1 else y.1 := apply_ite ..

/-- The state that the answer to a global access carries. -/
@[simp] def GAdm.state : GAdm → State
  | .ok s _ | .fault s _ | .refuse s => s

/-! ### Updates of one record -/

theorem State.modHart_store (s : State) (h : Nat) (f : Hart → Hart) : (s.modHart h f).mem = s.mem ∧ (s.modHart h f).fuse = s.fuse := ⟨rfl, rfl⟩
theorem State.modLaunch_store (s : State) (g : Nat) (f : Launch → Launch) :
    (s.modLaunch g f).mem = s.mem ∧ (s.modLaunch g f).fuse = s.fuse := ⟨rfl, rfl⟩
theorem State.modProc_store (s : State) (i : Nat) (f : Proc → Proc) : (s.modProc i f).mem = s.mem ∧ (s.modProc i f).fuse = s.fuse := ⟨rfl, rfl⟩

/-! ### Machine/Ops -/

@[simp] theorem State.modStrm_store (s : State) (c : Nat) (k : Strm) (f : StreamSt → StreamSt) :
    (s.modStrm c k f).mem = s.mem ∧ (s.modStrm c k f).fuse = s.fuse := (sameStore_iff ..).1 (.modStrm ..)
@[simp] theorem State.postIssue_store (s : State) (c : Nat) (k : Strm) (at_ : Nat) :
    (s.postIssue c k at_).mem = s.mem ∧ (s.postIssue c k at_).fuse = s.fuse := (sameStore_iff ..).1 (.postIssue ..)
@[simp] theorem State.advance_store (s : State) (t : Nat) :
    (s.advance t).mem = s.mem ∧ (s.advance t).fuse = s.fuse := (sameStore_iff ..).1 (.advance ..)
@[simp] theorem State.devEvent_store (s : State) (kind die master addr gen : Nat) :
    (s.devEvent kind die master addr gen).mem = s.mem ∧ (s.devEvent kind die master addr gen).fuse = s.fuse := (sameStore_iff ..).1 (.devEvent ..)
@[simp] theorem State.afterReadBy_store (s : State) (reader c sp a n cls : Nat) :
    (s.afterReadBy reader c sp a n cls).mem = s.mem ∧ (s.afterReadBy reader c sp a n cls).fuse = s.fuse := by simp [State.afterReadBy]
@[simp] theorem State.afterRead_store (s : State) (c sp a n cls : Nat) :
    (s.afterRead c sp a n cls).mem = s.mem ∧ (s.afterRead c sp a n cls).fuse = s.fuse := by simp [State.afterRead]
@[simp] theorem State.stopStope_store (s : State) (t : Stope) :
    (s.stopStope t).mem = s.mem ∧ (s.stopStope t).fuse = s.fuse := (sameStore_iff ..).1 (.stopStope ..)
@[simp] theorem State.raise_store (s : State) (c : Nat) (f : FaultRec) (e : Option (Strm × Replay)) :
    (s.raise c f e).mem = s.mem ∧ (s.raise c f e).fuse = s.fuse := (sameStore_iff ..).1 (.raise ..)
@[simp] theorem State.raiseIn_store (s : State) (c : Nat) (f : FaultRec) (strm : Strm) (e : Replay) :
    (s.raiseIn c f strm e).mem = s.mem ∧ (s.raiseIn c f strm e).fuse = s.fuse := (sameStore_iff ..).1 (.raiseIn ..)
@[simp] theorem State.scalarGoOn_store (s : State) (c occ : Nat) :
    (s.scalarGoOn c occ).mem = s.mem ∧ (s.scalarGoOn c occ).fuse = s.fuse := (sameStore_iff ..).1 (.scalarGoOn ..)
@[simp] theorem State.scalarDone_store (s : State) (c occ : Nat) (jump : Option Nat) :
    (s.scalarDone c occ jump).mem = s.mem ∧ (s.scalarDone c occ jump).fuse = s.fuse := (sameStore_iff ..).1 (.scalarDone ..)
@[simp] theorem State.sendResult_store (s : State) (c : Nat) (place : SPlace) (v : Word64) (lat : Nat) :
    (s.sendResult c place v lat).mem = s.mem ∧ (s.sendResult c place v lat).fuse = s.fuse := (sameStore_iff ..).1 (.sendResult ..)
@[simp] theorem State.toReg_store (s : State) (c : Nat) (d : BitVec 5) (v : Word64) (lat : Nat) :
    (s.toReg c d v lat).mem = s.mem ∧ (s.toReg c d v lat).fuse = s.fuse := (sameStore_iff ..).1 (.toReg ..)
@[simp] theorem State.orSstat_store (s : State) (c flags : Nat) :
    (s.orSstat c flags).mem = s.mem ∧ (s.orSstat c flags).fuse = s.fuse := (sameStore_iff ..).1 (.orSstat ..)

/-! ### Machine/HartCsr -/

@[simp] theorem State.hartTrap_store (s : State) (h cause : Nat) (tval : Word64) :
    (s.hartTrap h cause tval).mem = s.mem ∧ (s.hartTrap h cause tval).fuse = s.fuse := ⟨rfl, rfl⟩
@[simp] theorem State.hartIllegal_store (s : State) (h : Nat) : (s.hartIllegal h).mem = s.mem ∧ (s.hartIllegal h).fuse = s.fuse := ⟨rfl, rfl⟩

/-! ### Machine/Fetch -/

@[simp] theorem State.keepDraw_store (s : State) (c : Nat) (strm : Strm) :
    (s.keepDraw c strm).mem = s.mem ∧ (s.keepDraw c strm).fuse = s.fuse := by simp [State.keepDraw]
@[simp] theorem State.engineGoOn_store (s : State) (c : Nat) (strm : Strm) (occ : Nat) :
    (s.engineGoOn c strm occ).mem = s.mem ∧ (s.engineGoOn c strm occ).fuse = s.fuse := (sameStore_iff ..).1 (.engineGoOn ..)
@[simp] theorem State.skipEntry_store (s : State) (c : Nat) (strm : Strm) :
    (s.skipEntry c strm).mem = s.mem ∧ (s.skipEntry c strm).fuse = s.fuse := by
  unfold State.skipEntry
  split <;> simp
@[simp] theorem State.beginIssue_store (s : State) (c : Nat) (strm : Strm) :
    (s.beginIssue c strm).mem = s.mem ∧ (s.beginIssue c strm).fuse = s.fuse := (sameStore_iff ..).1 (.beginIssue ..)
@[simp] theorem State.illegalWord_store (s : State) (c : Nat) (strm : Strm) :
    (s.illegalWord c strm).mem = s.mem ∧ (s.illegalWord c strm).fuse = s.fuse := (sameStore_iff ..).1 (.illegalWord ..)

/-! ### Machine/Translate -/

@[simp] theorem State.endWalk_store (s : State) (w : Walk) : (s.endWalk w).mem = s.mem ∧ (s.endWalk w).fuse = s.fuse := by
  unfold State.endWalk
  split <;> simp
@[simp] theorem State.startWalk_store (s : State) (unit c va : Nat) (write : Bool) (kind : Nat) :
    (s.startWalk unit c va write kind).mem = s.mem ∧ (s.startWalk unit c va write kind).fuse = s.fuse := by simp [State.startWalk]
@[simp] theorem State.dropFailed_store (s : State) (unit c va : Nat) :
    (s.dropFailed unit c va).mem = s.mem ∧ (s.dropFailed unit c va).fuse = s.fuse := ⟨rfl, rfl⟩
@[simp] theorem State.redirty_store (s : State) (pa n : Nat) : (s.redirty pa n).mem = s.mem ∧ (s.redirty pa n).fuse = s.fuse := ⟨rfl, rfl⟩
@[simp] theorem State.sendAway_store (s : State) (g : GReq) : (s.sendAway g).mem = s.mem ∧ (s.sendAway g).fuse = s.fuse := by simp [State.sendAway]
@[simp] theorem State.sendGlobalIn_store (s : State) (c src va pa n : Nat) (job : GJob) (slots stamp : Nat) (entry : Replay) (group : Option Nat)
    (lo cap : Nat) :
    (s.sendGlobalIn c src va pa n job slots stamp entry group lo cap).mem = s.mem ∧
      (s.sendGlobalIn c src va pa n job slots stamp entry group lo cap).fuse = s.fuse :=
  by simp [State.sendGlobalIn]
@[simp] theorem State.sendGlobal_store (s : State) (c src va pa n : Nat) (job : GJob) (slots stamp : Nat) (entry : Replay) (group : Option Nat) :
    (s.sendGlobal c src va pa n job slots stamp entry group).mem = s.mem ∧ (s.sendGlobal c src va pa n job slots stamp entry group).fuse = s.fuse :=
  by simp [State.sendGlobal]
@[simp] theorem State.walkAtOnce_store (s : State) (c va : Nat) (write : Bool) (kind : Nat) :
    (s.walkAtOnce c va write kind).mem = s.mem ∧ (s.walkAtOnce c va write kind).fuse = s.fuse := by simp [State.walkAtOnce]
theorem State.pagesOf_same {s : State} {c kind : Nat} {write : Bool} {vas : List Nat} {a : GAdm} (h : s.pagesOf c kind write vas = a) :
    SameStore s a.state := by
  subst h
  induction vas generalizing s with
  | nil => exact .rfl
  | cons va vas ih =>
    simp only [State.pagesOf]
    generalize hu : (if s.elastic c && s.pageOf 0 c va kind write == .miss then s.walkAtOnce c va write kind else s) = u
    have hs : SameStore s u := by rw [← hu]; simp
    split
    · have hi := hs.trans (ih (s := u))
      split
      · next h => rwa [h] at hi
      · exact hi
    · exact hs.trans (by simp)
    · exact hs.trans (by simp)
theorem State.translateAll_same {s : State} {c n kind master : Nat} {vas : List Nat} {a : GAdm} (h : s.translateAll c n kind master vas = a) :
    SameStore s a.state := by
  subst h
  simp only [State.translateAll]
  split
  · next h =>
    have hs := State.pagesOf_same h
    split <;> exact hs
  · exact State.pagesOf_same rfl
theorem State.letIn_same {s : State} {c n kind slots : Nat} {vas : List Nat} {a : GAdm} (h : s.letIn c n kind slots vas = a) :
    SameStore s a.state := by
  subst h
  simp only [State.letIn]
  split
  · next h =>
    have hs := State.translateAll_same h
    split
    · exact hs
    · split <;> exact hs
  · exact State.translateAll_same rfl
@[simp] theorem State.holdBack_store (s : State) (key : Nat) (r : FarReq) :
    (s.holdBack key r).mem = s.mem ∧ (s.holdBack key r).fuse = s.fuse := by simp [State.holdBack]
@[simp] theorem State.raiseDenied_store (s : State) (master spid va : Nat) :
    (s.raiseDenied master spid va).mem = s.mem ∧ (s.raiseDenied master spid va).fuse = s.fuse := ⟨rfl, rfl⟩

/-! ### Machine/Flags -/

@[simp] theorem State.orVstat_store (s : State) (c flags : Nat) :
    (s.orVstat c flags).mem = s.mem ∧ (s.orVstat c flags).fuse = s.fuse := by simp [State.orVstat]
@[simp] theorem State.orMstat_store (s : State) (c flags : Nat) :
    (s.orMstat c flags).mem = s.mem ∧ (s.orMstat c flags).fuse = s.fuse := by simp [State.orMstat]
@[simp] theorem State.orBflags_store (s : State) (c flags : Nat) :
    (s.orBflags c flags).mem = s.mem ∧ (s.orBflags c flags).fuse = s.fuse := by simp [State.orBflags]

/-! ### Machine/Operands -/

@[simp] theorem State.notePop_store (s : State) (c : Nat) (st : StreamSt) (queue : Nat) (items : List (Nat × List Byte)) :
    (s.notePop c st queue items).mem = s.mem ∧ (s.notePop c st queue items).fuse = s.fuse := ⟨rfl, rfl⟩
@[simp] theorem State.popQs2v_store (s : State) (c : Nat) : (s.popQs2v c).mem = s.mem ∧ (s.popQs2v c).fuse = s.fuse := ⟨rfl, rfl⟩
theorem readSrc_same {s : State} {c bits : Nat} {o : VOp} {i rows : Nat} {r : State × List (List Byte)} (h : readSrc s c bits o i rows = some r) :
    SameStore s r.1 := by
  simp only [readSrc] at h
  split_ifs at h <;> cases h <;> simp
@[simp] theorem State.afterSrc_store (s : State) (c : Nat) (o : VOp) (i rows : Nat) :
    (s.afterSrc c o i rows).mem = s.mem ∧ (s.afterSrc c o i rows).fuse = s.fuse := by simp [State.afterSrc]
@[simp] theorem State.sendSel_store (s : State) (c lat : Nat) (place : VPlace) (data : List Byte) (sel : List Bool) (flags : Nat) :
    (s.sendSel c lat place data sel flags).mem = s.mem ∧ (s.sendSel c lat place data sel flags).fuse = s.fuse := ⟨rfl, rfl⟩
@[simp] theorem State.sendV_store (s : State) (c lat : Nat) (place : VPlace) (data : List Byte) (flags : Nat) :
    (s.sendV c lat place data flags).mem = s.mem ∧ (s.sendV c lat place data flags).fuse = s.fuse := ⟨rfl, rfl⟩
@[simp] theorem State.forwardRow_store (s : State) (c r : Nat) (data : List Byte) :
    (s.forwardRow c r data).mem = s.mem ∧ (s.forwardRow c r data).fuse = s.fuse := ⟨rfl, rfl⟩
@[simp] theorem State.sendRows_store (s : State) (c lat t : Nat) (o : VOp) (i : Nat) (rows : List (List Byte)) (flags : Nat) :
    (s.sendRows c lat t o i rows flags).mem = s.mem ∧ (s.sendRows c lat t o i rows flags).fuse = s.fuse := by simp [State.sendRows]
@[simp] theorem State.poisonV_store (s : State) (c lat va : Nat) : (s.poisonV c lat va).mem = s.mem ∧ (s.poisonV c lat va).fuse = s.fuse := ⟨rfl, rfl⟩

/-! ### Machine/Banks -/

@[simp] theorem State.modBank_store (s : State) (c b : Nat) (f : Bank → Bank) :
    (s.modBank c b f).mem = s.mem ∧ (s.modBank c b f).fuse = s.fuse := ⟨rfl, rfl⟩
@[simp] theorem State.sendBank_store (s : State) (target : Nat) (r : BankReq) (at_ : Nat) :
    (s.sendBank target r at_).mem = s.mem ∧ (s.sendBank target r at_).fuse = s.fuse := ⟨rfl, rfl⟩
@[simp] theorem State.bankAdmit_store (s : State) (target : Nat) (r : BankReq) :
    (s.bankAdmit target r).mem = s.mem ∧ (s.bankAdmit target r).fuse = s.fuse := by
  simp only [State.bankAdmit]
  (repeat' split) <;> simp
@[simp] theorem State.withdraw_store (s : State) (c stamp rep : Nat) :
    (s.withdraw c stamp rep).mem = s.mem ∧ (s.withdraw c stamp rep).fuse = s.fuse := ⟨rfl, rfl⟩
@[simp] theorem State.raiseVector_store (s : State) (c stamp rep : Nat) (f : FaultRec) (e : Replay) :
    (s.raiseVector c stamp rep f e).mem = s.mem ∧ (s.raiseVector c stamp rep f e).fuse = s.fuse := by simp [State.raiseVector]
@[simp] theorem State.bankLate_store (s : State) (target : Nat) (r : BankReq) :
    (s.bankLate target r).mem = s.mem ∧ (s.bankLate target r).fuse = s.fuse := by
  simp only [State.bankLate]
  (repeat' split) <;> simp
@[simp] theorem State.arrive_store (s : State) (target x1 : Nat) (x2 : BankReq) :
    (s.arrive target x1 x2).mem = s.mem ∧ (s.arrive target x1 x2).fuse = s.fuse := by
  induction x1 generalizing s x2 with
  | zero => simp [State.arrive]
  | succ n ih => simp [State.arrive, ih]
@[simp] theorem State.lodeWrite_store (s : State) (c addr tag code : Nat) (acc : Bool) (sums : List Int) :
    (s.lodeWrite c addr tag code acc sums).mem = s.mem ∧ (s.lodeWrite c addr tag code acc sums).fuse = s.fuse := by simp [State.lodeWrite]
@[simp] theorem State.lodeClose_store (s : State) (c b : Nat) (r : BankReq) (g : Nat) :
    (s.lodeClose c b r g).mem = s.mem ∧ (s.lodeClose c b r g).fuse = s.fuse := by
  unfold State.lodeClose
  split <;> simp
@[simp] theorem State.loadClose_store (s : State) (owner : Nat) (r : BankReq) (row : Nat) (sel : List Bool) (zero : Bool) (ty : Nat) :
    (s.loadClose owner r row sel zero ty).mem = s.mem ∧ (s.loadClose owner r row sel zero ty).fuse = s.fuse := State.afterReadBy_store s ..
@[simp] theorem State.copyOutClose_store (s : State) (owner : Nat) (r : BankReq) (w : Nat) :
    (s.copyOutClose owner r w).mem = s.mem ∧ (s.copyOutClose owner r w).fuse = s.fuse := by simp [State.copyOutClose]
@[simp] theorem State.raiseEnded_store (s : State) (c b : Nat) :
    (s.raiseEnded c b).mem = s.mem ∧ (s.raiseEnded c b).fuse = s.fuse := by simp [State.raiseEnded]
@[simp] theorem State.closeBank_store (s : State) (c n b : Nat) : (s.closeBank c n b).mem = s.mem ∧ (s.closeBank c n b).fuse = s.fuse := by
  simp only [State.closeBank]
  split
  · simp
  · generalize hu : List.foldl _ s _ = u
    have hs : SameStore s u := hu ▸ .foldl _ (fun t r => by split <;> simp) _ s
    generalize hv : List.foldl _ (State.modCore _ c _) _ = v
    have hs' := hv ▸ SameStore.foldl _ (fun t r => by split <;> simp) _ _
    simp [hs'.mem, hs'.fuse, hs.mem, hs.fuse]
@[simp] theorem State.closeCore_store (s : State) (n c : Nat) : (s.closeCore n c).mem = s.mem ∧ (s.closeCore n c).fuse = s.fuse := by
  have hb := State.foldl_store _ (fun t b => State.closeBank_store t c n b) (List.range 32) s
  simp only [State.closeCore]
  simp [hb]
@[simp] theorem State.openBank_store (s : State) (c n b : Nat) :
    (s.openBank c n b).mem = s.mem ∧ (s.openBank c n b).fuse = s.fuse := by simp [State.openBank]
@[simp] theorem State.openCore_store (s : State) (n c : Nat) :
    (s.openCore n c).mem = s.mem ∧ (s.openCore n c).fuse = s.fuse := State.foldl_store _ (fun t b => State.openBank_store t c n b) _ s

/-! ### Machine/Beats -/

@[simp] theorem State.postAnchors_store (s : State) : (s.postAnchors).mem = s.mem ∧ (s.postAnchors).fuse = s.fuse := by simp [State.postAnchors]

/-! ### Machine/ScalarFlow -/

@[simp] theorem State.prepare_store (s : State) (c b t : Nat) : (s.prepare c b t).mem = s.mem ∧ (s.prepare c b t).fuse = s.fuse := ⟨rfl, rfl⟩

/-! ### Machine/ScalarMem -/

@[simp] theorem State.postInc_store (s : State) (c : Nat) (a : BitVec 5) (x1 : Option Word64) :
    (s.postInc c a x1).mem = s.mem ∧ (s.postInc c a x1).fuse = s.fuse := by
  unfold State.postInc
  split <;> simp
@[simp] theorem State.lateResult_store (s : State) (c : Nat) (addr : Word64) (job : GJob) (n : Nat) (data : List Byte) (lat : Nat) :
    (s.lateResult c addr job n data lat).mem = s.mem ∧ (s.lateResult c addr job n data lat).fuse = s.fuse := ⟨rfl, rfl⟩
@[simp] theorem State.sendScalar_store (s : State) (c : Nat) (va : Word64) (pa n : Nat) (job : GJob) (rd : Option (BitVec 5)) :
    (s.sendScalar c va pa n job rd).mem = s.mem ∧ (s.sendScalar c va pa n job rd).fuse = s.fuse := by
  unfold State.sendScalar
  split <;> simp

/-! ### Machine/VectorAlu -/

@[simp] theorem State.sendMask_store (s : State) (c lat m val flags : Nat) :
    (s.sendMask c lat m val flags).mem = s.mem ∧ (s.sendMask c lat m val flags).fuse = s.fuse := by simp [State.sendMask]

/-! ### Machine/VectorMem -/

@[simp] theorem State.keep_store (s : State) (c key n v : Nat) :
    (s.keep c key n v).mem = s.mem ∧ (s.keep c key n v).fuse = s.fuse := by simp [State.keep]
@[simp] theorem State.memBegin_store (s : State) (c i : Nat) (v : VWord) :
    (s.memBegin c i v).mem = s.mem ∧ (s.memBegin c i v).fuse = s.fuse := by simp [State.memBegin]
@[simp] theorem State.reserveDest_store (s : State) (c : Nat) (o : VOp) :
    (s.reserveDest c o).mem = s.mem ∧ (s.reserveDest c o).fuse = s.fuse := by simp [State.reserveDest]
@[simp] theorem State.addJoin_store (s : State) (c : Nat) (v : VWord) (i due : Nat) (data : List Byte) (sel : List Bool) (left : Nat) (bad : Bool) (va : Nat) :
    (s.addJoin c v i due data sel left bad va).1.mem = s.mem ∧ (s.addJoin c v i due data sel left bad va).1.fuse = s.fuse := ⟨rfl, rfl⟩
theorem storeRow_same {s : State} {c : Nat} {v : VWord} {i : Nat} {r : State × List Byte} (h : storeRow s c v i = some r) : SameStore s r.1 := by
  simp only [storeRow, Option.map_eq_some_iff] at h
  obtain ⟨x, hx, rfl⟩ := h
  exact readSrc_same hx
@[simp] theorem State.idleSlots_store (s : State) (c n : Nat) :
    (s.idleSlots c n).mem = s.mem ∧ (s.idleSlots c n).fuse = s.fuse := by simp [State.idleSlots]
@[simp] theorem State.sendParts_store (s : State) (c n : Nat) (job : Nat → GJob) (group : Option Nat) (l : List (Nat × Nat × Nat)) :
    (s.sendParts c n job group l).mem = s.mem ∧ (s.sendParts c n job group l).fuse = s.fuse := by simp [State.sendParts]

/-! ### Machine/BankMoves -/

@[simp] theorem State.endProgram_store (s : State) (c b : Nat) (e : Engine) (code : Nat) :
    (s.endProgram c b e code).mem = s.mem ∧ (s.endProgram c b e code).fuse = s.fuse := ⟨rfl, rfl⟩
@[simp] theorem State.postMove_store (s : State) (c b at_ : Nat) : (s.postMove c b at_).mem = s.mem ∧ (s.postMove c b at_).fuse = s.fuse := ⟨rfl, rfl⟩

/-! ### Machine/Kernel -/

@[simp] theorem State.pumpLoader_store (s : State) (die : Nat) : (s.pumpLoader die).mem = s.mem ∧ (s.pumpLoader die).fuse = s.fuse := by
  simp only [State.pumpLoader]
  (repeat' split) <;> simp
@[simp] theorem State.askOverlay_store (s : State) (die gen kernel ovl : Nat) :
    (s.askOverlay die gen kernel ovl).mem = s.mem ∧ (s.askOverlay die gen kernel ovl).fuse = s.fuse := by simp [State.askOverlay]
@[simp] theorem State.afterFlip_store (s : State) (c : Nat) : (s.afterFlip c).mem = s.mem ∧ (s.afterFlip c).fuse = s.fuse := by
  unfold State.afterFlip
  split <;> simp
@[simp] theorem State.postGrant_store (s : State) (q at_ : Nat) : (s.postGrant q at_).mem = s.mem ∧ (s.postGrant q at_).fuse = s.fuse := ⟨rfl, rfl⟩
@[simp] theorem State.dropLease_store (s : State) (c : Nat) : (s.dropLease c).mem = s.mem ∧ (s.dropLease c).fuse = s.fuse := by simp [State.dropLease]
@[simp] theorem State.checkRetire_store (s : State) (gen : Nat) :
    (s.checkRetire gen).mem = s.mem ∧ (s.checkRetire gen).fuse = s.fuse := by simp [State.checkRetire]

/-! ### Machine/VectorCtl -/

@[simp] theorem State.endPass_store (s : State) (c : Nat) (strm : Strm) : (s.endPass c strm).mem = s.mem ∧ (s.endPass c strm).fuse = s.fuse := by
  simp only [State.endPass]
  (repeat' split) <;> simp

/-! ### Machine/Matrix -/

@[simp] theorem State.rowDone_store (s : State) (c q : Nat) (last : Bool) :
    (s.rowDone c q last).mem = s.mem ∧ (s.rowDone c q last).fuse = s.fuse := (sameStore_iff ..).1 (.rowDone ..)
@[simp] theorem State.useLease_store (s : State) (c occ : Nat) :
    (s.useLease c occ).mem = s.mem ∧ (s.useLease c occ).fuse = s.fuse := by simp [State.useLease]
@[simp] theorem State.holdArray_store (s : State) (c occ : Nat) : (s.holdArray c occ).mem = s.mem ∧ (s.holdArray c occ).fuse = s.fuse := ⟨rfl, rfl⟩
theorem State.popFormat_same {s : State} {c : Nat} {r : State × Word64} (h : s.popFormat c = some r) : SameStore s r.1 := by
  simp only [State.popFormat] at h
  split at h
  · cases h; exact .rfl
  · split_ifs at h
    cases h; simp
@[simp] theorem State.afterScales_store (s : State) (c : Nat) (l : List (Nat × Nat)) :
    (s.afterScales c l).mem = s.mem ∧ (s.afterScales c l).fuse = s.fuse := by simp [State.afterScales]
@[simp] theorem State.raiseMatrix_store (s : State) (c : Nat) (o : RowOf) (f : FaultRec) :
    (s.raiseMatrix c o f).mem = s.mem ∧ (s.raiseMatrix c o f).fuse = s.fuse := by simp [State.raiseMatrix]
@[simp] theorem State.fireRoutes_store (s : State) (c t : Nat) (o : RowOf) :
    (s.fireRoutes c t o).mem = s.mem ∧ (s.fireRoutes c t o).fuse = s.fuse := by simp [State.fireRoutes]
@[simp] theorem State.againAtBoundary_store (s : State) (c : Nat) (i : Instr) :
    (s.againAtBoundary c i).mem = s.mem ∧ (s.againAtBoundary c i).fuse = s.fuse := ⟨rfl, rfl⟩
@[simp] theorem State.commitTag_store (s : State) (c g : Nat) :
    (s.commitTag c g).mem = s.mem ∧ (s.commitTag c g).fuse = s.fuse := by simp [State.commitTag]
@[simp] theorem State.dropTag_store (s : State) (c g : Nat) : (s.dropTag c g).mem = s.mem ∧ (s.dropTag c g).fuse = s.fuse := by
  simp only [State.dropTag]
  (repeat' split) <;> simp
@[simp] theorem State.resolveTags_store (s : State) (c : Nat) :
    (s.resolveTags c).mem = s.mem ∧ (s.resolveTags c).fuse = s.fuse := by simp [State.resolveTags]

/-! ### Machine/Copy -/

@[simp] theorem State.modCopy_store (s : State) (c : Nat) (f : CopyRun → CopyRun) :
    (s.modCopy c f).mem = s.mem ∧ (s.modCopy c f).fuse = s.fuse := ⟨rfl, rfl⟩
@[simp] theorem State.postCopy_store (s : State) (c w at_ : Nat) (leg : CopyLeg) (chunk : Bool) :
    (s.postCopy c w at_ leg chunk).mem = s.mem ∧ (s.postCopy c w at_ leg chunk).fuse = s.fuse := ⟨rfl, rfl⟩
@[simp] theorem State.postHand_store (s : State) (c at_ : Nat) :
    (s.postHand c at_).mem = s.mem ∧ (s.postHand c at_).fuse = s.fuse := by simp [State.postHand]
@[simp] theorem State.postRead_store (s : State) (c at_ : Nat) : (s.postRead c at_).mem = s.mem ∧ (s.postRead c at_).fuse = s.fuse := by
  unfold State.postRead
  split <;> simp
@[simp] theorem State.postDescriptor_store (s : State) (c at_ : Nat) :
    (s.postDescriptor c at_).mem = s.mem ∧ (s.postDescriptor c at_).fuse = s.fuse := ⟨rfl, rfl⟩
@[simp] theorem State.holdCopy_store (s : State) (c w : Nat) (f : FaultRec) : (s.holdCopy c w f).mem = s.mem ∧ (s.holdCopy c w f).fuse = s.fuse := by
  unfold State.holdCopy
  split <;> simp
@[simp] theorem State.copyPerformed_store (s : State) (c n : Nat) : (s.copyPerformed c n).mem = s.mem ∧ (s.copyPerformed c n).fuse = s.fuse := by
  simp only [State.copyPerformed]
  split <;> simp
@[simp] theorem State.keepPage_store (s : State) (c side va pa : Nat) :
    (s.keepPage c side va pa).mem = s.mem ∧ (s.keepPage c side va pa).fuse = s.fuse := ⟨rfl, rfl⟩
@[simp] theorem State.copyWrite_store (s : State) (c w : Nat) (data : List Byte) (poison : Nat) :
    (s.copyWrite c w data poison).mem = s.mem ∧ (s.copyWrite c w data poison).fuse = s.fuse := by
  simp only [State.copyWrite]
  (repeat' split) <;> simp
@[simp] theorem State.flushSectors_store (s : State) (c x1 : Nat) : (s.flushSectors c x1).mem = s.mem ∧ (s.flushSectors c x1).fuse = s.fuse := by
  induction x1 generalizing s with
  | zero => simp [State.flushSectors]
  | succ n ih =>
    simp only [State.flushSectors]
    split <;> simp [ih]
@[simp] theorem State.copyData_store (s : State) (c w : Nat) (data : List Byte) (poison : Nat) :
    (s.copyData c w data poison).mem = s.mem ∧ (s.copyData c w data poison).fuse = s.fuse := by
  unfold State.copyData
  split <;> simp
theorem State.askWord_same {s : State} {c side va kind : Nat} {d : CopyDesc} {job : GJob} {a : Asked} (h : s.askWord c side va kind d job = a) :
    SameStore s a.state := by
  subst h
  simp only [State.askWord]
  split
  · split_ifs <;> simp
  · simp
  · simp
@[simp] theorem State.askBank_store (s : State) (c : Nat) (x : CopyRun) (w : Nat) :
    (s.askBank c x w).mem = s.mem ∧ (s.askBank c x w).fuse = s.fuse := by simp [State.askBank]
@[simp] theorem State.copyRead_store (s : State) (c : Nat) (x : CopyRun) (w : Nat) :
    (s.copyRead c x w).mem = s.mem ∧ (s.copyRead c x w).fuse = s.fuse := by
  simp only [State.copyRead]
  split
  · split <;> simp
  · split
    · generalize hr : List.foldl _ (s, true) _ = r
      have hs : SameStore s r.1 := hr ▸ State.foldl_fst_same _ (fun acc u => by
        split
        · exact .rfl
        · split
          · next t h => exact (State.askWord_same h).trans (by simp)
          · next t h => exact State.askWord_same h
          · next t f h => exact (State.askWord_same h).trans (by simp)) _ (s, true)
      (repeat' split) <;> simp [hs.mem, hs.fuse]
    · split <;> simp
@[simp] theorem State.copyHand_store (s : State) (c : Nat) (x : CopyRun) : (s.copyHand c x).mem = s.mem ∧ (s.copyHand c x).fuse = s.fuse := by
  simp only [State.copyHand]
  split
  · split
    · simp
    · split <;> simp
  · generalize hr : List.foldl _ (s, true) _ = r
    have hs : SameStore s r.1 := hr ▸ State.foldl_fst_same _ (fun acc w => by
      split
      · exact .rfl
      · split
        · next t h => exact (State.askWord_same h).trans (by simp)
        · next t h => exact State.askWord_same h
        · next t f h => exact (State.askWord_same h).trans (by simp)) _ (s, true)
    simp [hs.mem, hs.fuse]
@[simp] theorem State.failCopyWord_store (s : State) (g : GReq) (w : Nat) (back : Option (List Byte × Bool)) :
    (s.failCopyWord g w back).mem = s.mem ∧ (s.failCopyWord g w back).fuse = s.fuse := by
  simp only [State.failCopyWord]
  (repeat' split) <;> simp
@[simp] theorem State.resumeCopy_store (s : State) (c : Nat) : (s.resumeCopy c).mem = s.mem ∧ (s.resumeCopy c).fuse = s.fuse := by
  simp only [State.resumeCopy]
  split <;> simp

/-! ### Machine/Results -/

@[simp] theorem State.landScalar_store (s : State) (c : Nat) (place : SPlace) (v : Word64) (stamp : Nat) :
    (s.landScalar c place v stamp).mem = s.mem ∧ (s.landScalar c place v stamp).fuse = s.fuse := ⟨rfl, rfl⟩
@[simp] theorem State.landRow_store (s : State) (c row stamp rep : Nat) (data : List Byte) (sel : List Bool) :
    (s.landRow c row stamp rep data sel).mem = s.mem ∧ (s.landRow c row stamp rep data sel).fuse = s.fuse := by simp [State.landRow]
@[simp] theorem State.landMask_store (s : State) (c m stamp v : Nat) :
    (s.landMask c m stamp v).mem = s.mem ∧ (s.landMask c m stamp v).fuse = s.fuse := ⟨rfl, rfl⟩
@[simp] theorem State.landQv2s_store (s : State) (c : Nat) (data : List Byte) :
    (s.landQv2s c data).mem = s.mem ∧ (s.landQv2s c data).fuse = s.fuse := ⟨rfl, rfl⟩
@[simp] theorem State.landQv2m_store (s : State) (c : Nat) (data : List Byte) :
    (s.landQv2m c data).mem = s.mem ∧ (s.landQv2m c data).fuse = s.fuse := ⟨rfl, rfl⟩
@[simp] theorem State.landVector_store (s : State) (r : VRes) : (s.landVector r).mem = s.mem ∧ (s.landVector r).fuse = s.fuse := by
  unfold State.landVector
  split <;> simp
@[simp] theorem State.landJoin_store (s : State) (j : RowJoin) : (s.landJoin j).mem = s.mem ∧ (s.landJoin j).fuse = s.fuse := by simp [State.landJoin]
@[simp] theorem State.landJoinId_store (s : State) (id : Nat) : (s.landJoinId id).mem = s.mem ∧ (s.landJoinId id).fuse = s.fuse := by
  unfold State.landJoinId
  split <;> simp
@[simp] theorem State.stopWaiting_store (s : State) (g : GReq) : (s.stopWaiting g).mem = s.mem ∧ (s.stopWaiting g).fuse = s.fuse := by
  unfold State.stopWaiting
  split <;> simp
@[simp] theorem State.undoInc_store (s : State) (g : GReq) : (s.undoInc g).mem = s.mem ∧ (s.undoInc g).fuse = s.fuse := by simp [State.undoInc]
@[simp] theorem State.failRequest_store (s : State) (g : GReq) (code sub : Nat) :
    (s.failRequest g code sub).mem = s.mem ∧ (s.failRequest g code sub).fuse = s.fuse := by
  unfold State.failRequest
  split <;> simp
@[simp] theorem State.returnValue_store (s : State) (g : GReq) : (s.returnValue g).mem = s.mem ∧ (s.returnValue g).fuse = s.fuse := by
  unfold State.returnValue
  split <;> simp
@[simp] theorem State.dsFault_store (s : State) (o : DsOp) (f : FaultRec) :
    (s.dsFault o f).mem = s.mem ∧ (s.dsFault o f).fuse = s.fuse := by simp [State.dsFault]

/-! ### Machine/Perform -/

@[simp] theorem State.memScrub_store (s : State) (pa n : Nat) : (s.memScrub pa n).mem = s.mem ∧ (s.memScrub pa n).fuse = s.fuse := by
  simp only [State.memScrub]
  split
  · simp
  · exact State.foldl_store _ (fun t w => by split <;> simp) _ s
@[simp] theorem State.dropReq_store (s : State) (id : Nat) : (s.dropReq id).mem = s.mem ∧ (s.dropReq id).fuse = s.fuse := ⟨rfl, rfl⟩
@[simp] theorem State.foundAt_store (s : State) (id : Nat) (val : List Byte) (bad : Bool) :
    (s.foundAt id val bad).mem = s.mem ∧ (s.foundAt id val bad).fuse = s.fuse := ⟨rfl, rfl⟩
@[simp] theorem State.fillJoin_store (s : State) (core jid off : Nat) (val : List Byte) (bad : Bool) (va : Nat) :
    (s.fillJoin core jid off val bad va).mem = s.mem ∧ (s.fillJoin core jid off val bad va).fuse = s.fuse := by
  simp only [State.fillJoin]
  split <;> simp
@[simp] theorem State.readHome_store (s : State) (pa n : Nat) : (s.readHome pa n).1.mem = s.mem ∧ (s.readHome pa n).1.fuse = s.fuse := by
  simp only [State.readHome]
  split <;> simp
@[simp] theorem State.foundHome_store (s : State) (g : GReq) (val : List Byte) (bad far : Bool) :
    (s.foundHome g val bad far).mem = s.mem ∧ (s.foundHome g val bad far).fuse = s.fuse := by
  unfold State.foundHome
  split <;> simp
@[simp] theorem State.sendOn_store (s : State) (g : GReq) : (s.sendOn g).mem = s.mem ∧ (s.sendOn g).fuse = s.fuse := by simp [State.sendOn]
@[simp] theorem State.partFound_store (s : State) (g : GReq) (off : Nat) (data : List Byte) (bad : Bool) :
    (s.partFound g off data bad).mem = s.mem ∧ (s.partFound g off data bad).fuse = s.fuse := by simp [State.partFound]
@[simp] theorem State.answer_store (s : State) (pkg id : Nat) (data : List Byte) (code : Nat) :
    (s.answer pkg id data code).mem = s.mem ∧ (s.answer pkg id data code).fuse = s.fuse := ⟨rfl, rfl⟩
@[simp] theorem State.relay_store (s : State) (pkg : Nat) (r : FarReq) (pa : Nat) :
    (s.relay pkg r pa).mem = s.mem ∧ (s.relay pkg r pa).fuse = s.fuse := ⟨rfl, rfl⟩
@[simp] theorem State.hartSend_store (s : State) (h len pkg : Nat) (r : FarReq) (ret : Option HartRet) :
    (s.hartSend h len pkg r ret).mem = s.mem ∧ (s.hartSend h len pkg r ret).fuse = s.fuse := by simp [State.hartSend]
@[simp] theorem State.hartAnswer_store (s : State) (q : HartReq) (data : List Byte) (code : Nat) :
    (s.hartAnswer q data code).mem = s.mem ∧ (s.hartAnswer q data code).fuse = s.fuse := by
  unfold State.hartAnswer
  split <;> simp
@[simp] theorem State.otherAnswer_store (s : State) (id : Nat) (data : List Byte) (code : Nat) :
    (s.otherAnswer id data code).mem = s.mem ∧ (s.otherAnswer id data code).fuse = s.fuse := by
  simp only [State.otherAnswer]
  (repeat' split) <;> simp

/-! ### Machine/ScalarSys -/

@[simp] theorem State.pushBlock_store (s : State) (c : Nat) (strm : Strm) (e : BlkEntry) :
    (s.pushBlock c strm e).mem = s.mem ∧ (s.pushBlock c strm e).fuse = s.fuse := by
  unfold State.pushBlock
  split <;> simp
@[simp] theorem State.waitAnchor_store (s : State) (c : Nat) (anchor : Option (Nat × Nat)) :
    (s.waitAnchor c anchor).mem = s.mem ∧ (s.waitAnchor c anchor).fuse = s.fuse := by simp [State.waitAnchor]
@[simp] theorem State.checkTriggers_store (s : State) (c : Nat) :
    (s.checkTriggers c).mem = s.mem ∧ (s.checkTriggers c).fuse = s.fuse := by simp [State.checkTriggers]
@[simp] theorem State.checkBarriers_store (s : State) (gen : Nat) :
    (s.checkBarriers gen).mem = s.mem ∧ (s.checkBarriers gen).fuse = s.fuse := by simp [State.checkBarriers]

/-! ### Machine/Tokens -/

@[simp] theorem State.callReturn_store (s : State) (h : Nat) (v : Word64) :
    (s.callReturn h v).mem = s.mem ∧ (s.callReturn h v).fuse = s.fuse := ⟨rfl, rfl⟩
@[simp] theorem State.callBlocks_store (s : State) (h : Nat) (p : Pending) :
    (s.callBlocks h p).mem = s.mem ∧ (s.callBlocks h p).fuse = s.fuse := ⟨rfl, rfl⟩
@[simp] theorem State.endPending_store (s : State) (p : Pending) (v : Word64) :
    (s.endPending p v).mem = s.mem ∧ (s.endPending p v).fuse = s.fuse := by
  simp only [State.endPending]
  split <;> simp
@[simp] theorem State.tellToken_store (s : State) (spid : Nat) (run : Option Nat) (t : Nat) :
    (s.tellToken spid run t).mem = s.mem ∧ (s.tellToken spid run t).fuse = s.fuse := by simp [State.tellToken]
@[simp] theorem State.addToken_store (s : State) (spid : Nat) (run : Option Nat) (t : Nat) :
    (s.addToken spid run t).mem = s.mem ∧ (s.addToken spid run t).fuse = s.fuse := by
  simp only [State.addToken]
  (repeat' split) <;> simp
@[simp] theorem State.wakeWaits_store (s : State) : (s.wakeWaits).mem = s.mem ∧ (s.wakeWaits).fuse = s.fuse := by simp [State.wakeWaits]
@[simp] theorem State.noteHeads_store (s : State) :
    (s.noteHeads).mem = s.mem ∧ (s.noteHeads).fuse = s.fuse := State.foldl_store _ (fun t q => by split <;> simp) _ s
@[simp] theorem State.askSelection_store (s : State) : (s.askSelection).mem = s.mem ∧ (s.askSelection).fuse = s.fuse := by simp [State.askSelection]
@[simp] theorem State.hearSignal_store (s : State) (l : Launch) (t : Nat) :
    (s.hearSignal l t).mem = s.mem ∧ (s.hearSignal l t).fuse = s.fuse := by simp [State.hearSignal]
@[simp] theorem State.signal_store (s : State) (spid : Nat) (run : Option Nat) (t : Nat) :
    (s.signal spid run t).mem = s.mem ∧ (s.signal spid run t).fuse = s.fuse := by simp [State.signal]

/-! ### Machine/Collect -/

@[simp] theorem State.modTile_store (s : State) (c e : Nat) (f : TileEntry → TileEntry) :
    (s.modTile c e f).mem = s.mem ∧ (s.modTile c e f).fuse = s.fuse := ⟨rfl, rfl⟩
@[simp] theorem State.modFire_store (s : State) (c fid : Nat) (f : Firing → Firing) :
    (s.modFire c fid f).mem = s.mem ∧ (s.modFire c fid f).fuse = s.fuse := ⟨rfl, rfl⟩
@[simp] theorem State.postFire_store (s : State) (c e : Nat) : (s.postFire c e).mem = s.mem ∧ (s.postFire c e).fuse = s.fuse := ⟨rfl, rfl⟩
@[simp] theorem State.setReady_store (s : State) (c e stamp : Nat) : (s.setReady c e stamp).mem = s.mem ∧ (s.setReady c e stamp).fuse = s.fuse := by
  unfold State.setReady
  split <;> simp
@[simp] theorem State.newFiring_store (s : State) (c e n stamp at_ : Nat) (handed : Bool) :
    (s.newFiring c e n stamp at_ handed).1.mem = s.mem ∧ (s.newFiring c e n stamp at_ handed).1.fuse = s.fuse := by
  simp only [State.newFiring]
  split <;> simp
@[simp] theorem State.firingDone_store (s : State) (c : Nat) (f : Firing) : (s.firingDone c f).mem = s.mem ∧ (s.firingDone c f).fuse = s.fuse := by
  simp only [State.firingDone]
  split <;> simp
@[simp] theorem State.firingStep_store (s : State) (c fid : Nat) : (s.firingStep c fid).mem = s.mem ∧ (s.firingStep c fid).fuse = s.fuse := by
  unfold State.firingStep
  split <;> simp
@[simp] theorem State.fold_store (s : State) (c fid : Nat) : (s.fold c fid).mem = s.mem ∧ (s.fold c fid).fuse = s.fuse := by
  unfold State.fold
  split <;> simp
@[simp] theorem State.modFlow_store (s : State) (src dst : Nat) (g : FlowSt → FlowSt) :
    (s.modFlow src dst g).mem = s.mem ∧ (s.modFlow src dst g).fuse = s.fuse := ⟨rfl, rfl⟩
@[simp] theorem State.leave_store (s : State) (dst : Nat) (p : Piece) : (s.leave dst p).mem = s.mem ∧ (s.leave dst p).fuse = s.fuse := ⟨rfl, rfl⟩
@[simp] theorem State.sendPiece_store (s : State) (c : Nat) (f : Firing) (j pr i : Nat) (data : List Byte) (poison : Bool) (stamp : Nat) :
    (s.sendPiece c f j pr i data poison stamp).mem = s.mem ∧ (s.sendPiece c f j pr i data poison stamp).fuse = s.fuse := by simp [State.sendPiece]
@[simp] theorem State.pieceRead_store (s : State) (c : Nat) (f : Firing) (i : Nat) (data : List Byte) (poison : Bool) (stamp : Nat) :
    (s.pieceRead c f i data poison stamp).mem = s.mem ∧ (s.pieceRead c f i data poison stamp).fuse = s.fuse := by
  simp only [State.pieceRead]
  generalize hu : List.foldl _ s _ = u
  have hs : SameStore s u := hu ▸ .foldl _ (fun t x => by split <;> simp) _ s
  simp [hs.mem, hs.fuse]
@[simp] theorem State.postPiece_store (s : State) (c fid i : Nat) :
    (s.postPiece c fid i).mem = s.mem ∧ (s.postPiece c fid i).fuse = s.fuse := ⟨rfl, rfl⟩
@[simp] theorem State.readLocal_store (s : State) (c fid i : Nat) : (s.readLocal c fid i).mem = s.mem ∧ (s.readLocal c fid i).fuse = s.fuse := by
  unfold State.readLocal
  split <;> simp
@[simp] theorem State.fireEntry_store (s : State) (c e : Nat) : (s.fireEntry c e).mem = s.mem ∧ (s.fireEntry c e).fuse = s.fuse := by
  simp only [State.fireEntry]
  (repeat' split) <;> simp
@[simp] theorem State.pieceAt_store (s : State) (p : Piece) : (s.pieceAt p).mem = s.mem ∧ (s.pieceAt p).fuse = s.fuse := by
  simp only [State.pieceAt]
  (repeat' split) <;> simp
@[simp] theorem State.freeSlots_store (s : State) :
    (s.freeSlots).mem = s.mem ∧ (s.freeSlots).fuse = s.fuse := State.foldl_store _ (fun t p => by split <;> simp) _ _
@[simp] theorem State.setBits_store (s : State) (c : Nat) (bits : Word64) :
    (s.setBits c bits).mem = s.mem ∧ (s.setBits c bits).fuse = s.fuse := by simp [State.setBits]
@[simp] theorem State.sendBit_store (s : State) (c id bit : Nat) :
    (s.sendBit c id bit).mem = s.mem ∧ (s.sendBit c id bit).fuse = s.fuse := by simp [State.sendBit]
@[simp] theorem State.postAmo_store (s : State) (c : Nat) (f : Firing) : (s.postAmo c f).mem = s.mem ∧ (s.postAmo c f).fuse = s.fuse := by
  simp only [State.postAmo]
  split <;> simp
@[simp] theorem State.postAction_store (s : State) (c : Nat) (f : Firing) :
    (s.postAction c f).mem = s.mem ∧ (s.postAction c f).fuse = s.fuse := by simp [State.postAction]
theorem State.triggerAct_same {s t : State} {c i w : Nat} (h : s.triggerAct c i w = some t) : SameStore s t := by
  simp only [State.triggerAct] at h
  split at h
  · split_ifs at h <;> cases h <;> simp
  · split_ifs at h <;> cases h <;> simp
  · cases h; simp
  · cases h; split <;> simp
theorem State.hand_same {s t : State} {c e stamp : Nat} {data : List Byte} {poison : Bool} (h : s.hand c e stamp data poison = .ok t) :
    SameStore s t := by
  simp only [State.hand] at h
  split at h
  · cases h
  · split at h
    · split at h
      · split_ifs at h; cases h; simp
      · cases h
    · split at h
      · split_ifs at h; cases h; simp
      · cases h
@[simp] theorem State.slipRows_store (s : State) (d : DrainRow) :
    (s.slipRows d).mem = s.mem ∧ (s.slipRows d).fuse = s.fuse := by simp [State.slipRows]
@[simp] theorem State.deliveryBlocked_store (s : State) (d : DrainRow) (sub : Nat) :
    (s.deliveryBlocked d sub).mem = s.mem ∧ (s.deliveryBlocked d sub).fuse = s.fuse := by simp [State.deliveryBlocked]
@[simp] theorem State.handRow_store (s : State) (d : DrainRow) (ps : List (List Byte)) (bad : Bool) :
    (s.handRow d ps bad).mem = s.mem ∧ (s.handRow d ps bad).fuse = s.fuse := by
  simp only [State.handRow]
  split
  · simp
  · split
    · simp
    · simp
    · next t ht =>
      have hs := State.hand_same ht
      split
      · simp [hs.mem, hs.fuse]
      · split
        · split
          · simp [hs.mem, hs.fuse]
          · simp [hs.mem, hs.fuse]
          · next u hu =>
            have hs' := State.hand_same hu
            simp [hs'.mem, hs'.fuse, hs.mem, hs.fuse]
        · simp [hs.mem, hs.fuse]

/-! ### Machine/Ordering -/

@[simp] theorem State.setBar_store (s : State) (b : BarSt) : (s.setBar b).mem = s.mem ∧ (s.setBar b).fuse = s.fuse := ⟨rfl, rfl⟩
@[simp] theorem State.checkFar_store (s : State) (key : BarKey) :
    (s.checkFar key).mem = s.mem ∧ (s.checkFar key).fuse = s.fuse := by simp [State.checkFar]
@[simp] theorem State.checkBar_store (s : State) (key : BarKey) :
    (s.checkBar key).mem = s.mem ∧ (s.checkBar key).fuse = s.fuse := by simp [State.checkBar]
@[simp] theorem State.countArrival_store (s : State) (c : Nat) (key : BarKey) :
    (s.countArrival c key).mem = s.mem ∧ (s.countArrival c key).fuse = s.fuse := by simp [State.countArrival]
@[simp] theorem State.hearOne_store (s : State) (pkg phase win : Nat) (key : BarKey) :
    (s.hearOne pkg phase win key).mem = s.mem ∧ (s.hearOne pkg phase win key).fuse = s.fuse := by simp [State.hearOne]
@[simp] theorem State.hearArrival_store (s : State) (key : BarKey) (pkg phase win : Nat) :
    (s.hearArrival key pkg phase win).mem = s.mem ∧ (s.hearArrival key pkg phase win).fuse = s.fuse := by simp [State.hearArrival]
@[simp] theorem State.arriveAt_store (s : State) (c bar d : Nat) (key : BarKey) :
    (s.arriveAt c bar d key).mem = s.mem ∧ (s.arriveAt c bar d key).fuse = s.fuse := ⟨rfl, rfl⟩

/-! ### Machine/Open -/

theorem State.allocRange_same {s : State} {spid len align pkg die : Nat} {w : Bool} {r : State × Nat × Nat} (h : s.allocRange spid len align pkg die w = some r) :
    SameStore s r.1 := by
  simp only [State.allocRange] at h
  split at h
  · split at h
    · cases h; simp
    · cases h
  · cases h
theorem State.placeImages_same {s : State} {spid : Nat} {f : List Byte} {l : List Sect} {r : State × List (Nat × Nat × Nat × Sect)}
    (h : s.placeImages spid f l = some r) : SameStore s r.1 := by
  induction l generalizing s r with
  | nil => cases h; exact .rfl
  | cons x l ih =>
    simp only [State.placeImages] at h
    split at h
    · next ht =>
      simp only [Option.map_eq_some_iff] at h
      obtain ⟨y, hy, rfl⟩ := h
      exact (State.allocRange_same ht).trans (ih hy : SameStore _ y.1)
    · cases h

/-! ### Machine/Launch -/

@[simp] theorem State.submit_store (s : State) (spid queue : Nat) (c : Checked) (run : Option Nat) :
    (s.submit spid queue c run).mem = s.mem ∧ (s.submit spid queue c run).fuse = s.fuse := by simp [State.submit]
@[simp] theorem State.addGraph_store (s : State) (spid : Nat) (g : Graph) :
    (s.addGraph spid g).mem = s.mem ∧ (s.addGraph spid g).fuse = s.fuse := ⟨rfl, rfl⟩
@[simp] theorem State.submitRun_store (s : State) (spid queue run : Nat) (p : Packet) :
    (s.submitRun spid queue run p).mem = s.mem ∧ (s.submitRun spid queue run p).fuse = s.fuse := by
  unfold State.submitRun
  split <;> simp
@[simp] theorem State.postComplete_store (s : State) (gen : Nat) : (s.postComplete gen).mem = s.mem ∧ (s.postComplete gen).fuse = s.fuse := ⟨rfl, rfl⟩
@[simp] theorem State.setResult_store (s : State) (gen result code entry pkg : Nat) :
    (s.setResult gen result code entry pkg).mem = s.mem ∧ (s.setResult gen result code entry pkg).fuse = s.fuse := ⟨rfl, rfl⟩
@[simp] theorem State.runDone_store (s : State) (run : Nat) : (s.runDone run).mem = s.mem ∧ (s.runDone run).fuse = s.fuse := by
  unfold State.runDone
  split <;> simp
@[simp] theorem State.sendAbort_store (s : State) (l : Launch) (code entry : Nat) :
    (s.sendAbort l code entry).mem = s.mem ∧ (s.sendAbort l code entry).fuse = s.fuse := by simp [State.sendAbort]
@[simp] theorem State.poolSlots_store (s : State) (flows : List (Nat × Nat × Nat)) (add : Bool) :
    (s.poolSlots flows add).mem = s.mem ∧ (s.poolSlots flows add).fuse = s.fuse := by simp [State.poolSlots]
@[simp] theorem State.knowProc_store (s : State) (spid : Nat) :
    (s.knowProc spid).mem = s.mem ∧ (s.knowProc spid).fuse = s.fuse := by simp [State.knowProc]
@[simp] theorem State.joinPlan_store (s : State) (spid id : Nat) (flows : List (Nat × Nat × Nat)) :
    (s.joinPlan spid id flows).mem = s.mem ∧ (s.joinPlan spid id flows).fuse = s.fuse := by simp [State.joinPlan]
@[simp] theorem State.joinProc_store (s : State) (m : RemotePacket) :
    (s.joinProc m).mem = s.mem ∧ (s.joinProc m).fuse = s.fuse := by simp [State.joinProc]

/-! ### Machine/Traps -/

@[simp] theorem State.setWin_store (s : State) (die w : Nat) (x : TrapWin) :
    (s.setWin die w x).mem = s.mem ∧ (s.setWin die w x).fuse = s.fuse := ⟨rfl, rfl⟩
@[simp] theorem State.pendWindows_store (s : State) :
    (s.pendWindows).mem = s.mem ∧ (s.pendWindows).fuse = s.fuse := State.foldl_store _ (fun t h => State.modHart_store t h _) _ s
@[simp] theorem State.freeWindow_store (s : State) (die w : Nat) : (s.freeWindow die w).mem = s.mem ∧ (s.freeWindow die w).fuse = s.fuse := by
  simp only [State.freeWindow]
  split <;> simp
@[simp] theorem State.writeWindow_store (s : State) (die w off : Nat) (v : Word64) :
    (s.writeWindow die w off v).mem = s.mem ∧ (s.writeWindow die w off v).fuse = s.fuse := by
  simp only [State.writeWindow]
  (repeat' split) <;> simp
@[simp] theorem State.cancelCopy_store (s : State) (c id : Nat) : (s.cancelCopy c id).mem = s.mem ∧ (s.cancelCopy c id).fuse = s.fuse := by
  simp only [State.cancelCopy]
  split <;> simp
@[simp] theorem State.applyDiscards_store (s : State) (c : Nat) :
    (s.applyDiscards c).mem = s.mem ∧ (s.applyDiscards c).fuse = s.fuse := State.foldl_store _ (fun t e => by cases e.job <;> simp) _ s
@[simp] theorem State.scheduleRelease_store (s : State) (t : Stope) :
    (s.scheduleRelease t).mem = s.mem ∧ (s.scheduleRelease t).fuse = s.fuse := ⟨rfl, rfl⟩
@[simp] theorem State.resumeWindow_store (s : State) (die w : Nat) : (s.resumeWindow die w).mem = s.mem ∧ (s.resumeWindow die w).fuse = s.fuse := by
  simp only [State.resumeWindow]
  (repeat' split) <;> simp
@[simp] theorem State.hartNext_store (s : State) : (s.hartNext).mem = s.mem ∧ (s.hartNext).fuse = s.fuse := ⟨rfl, rfl⟩
@[simp] theorem State.giveBack_store (s : State) (d c : Nat) :
    (s.giveBack d c).mem = s.mem ∧ (s.giveBack d c).fuse = s.fuse := by simp [State.giveBack]
@[simp] theorem State.startReplay_store (s : State) (c : Nat) (strm : Strm) :
    (s.startReplay c strm).mem = s.mem ∧ (s.startReplay c strm).fuse = s.fuse := by simp [State.startReplay]
@[simp] theorem State.releaseStope_store (s : State) (t : Stope) : (s.releaseStope t).mem = s.mem ∧ (s.releaseStope t).fuse = s.fuse := by
  unfold State.releaseStope
  split <;> simp
@[simp] theorem State.endLaunch_store (s : State) (gen result code entry : Nat) :
    (s.endLaunch gen result code entry).mem = s.mem ∧ (s.endLaunch gen result code entry).fuse = s.fuse := ⟨rfl, rfl⟩
@[simp] theorem State.startHandler_store (s : State) (h die w gen : Nat) (p : Proc) :
    (s.startHandler h die w gen p).mem = s.mem ∧ (s.startHandler h die w gen p).fuse = s.fuse := ⟨rfl, rfl⟩
@[simp] theorem State.serveWindow_store (s : State) (die w : Nat) : (s.serveWindow die w).mem = s.mem ∧ (s.serveWindow die w).fuse = s.fuse := by
  simp only [State.serveWindow]
  (repeat' split) <;> simp
@[simp] theorem State.serveAll_store (s : State) :
    (s.serveAll).mem = s.mem ∧ (s.serveAll).fuse = s.fuse := State.foldl_store _ (fun t x => State.serveWindow_store t x.1 x.2) _ s

/-! ### Machine/Preempt -/

@[simp] theorem State.dropWindow_store (s : State) (t : Stope) : (s.dropWindow t).mem = s.mem ∧ (s.dropWindow t).fuse = s.fuse := by
  unfold State.dropWindow
  split <;> simp
@[simp] theorem State.unbindStope_store (s : State) (t : Stope) :
    (s.unbindStope t).mem = s.mem ∧ (s.unbindStope t).fuse = s.fuse := by simp [State.unbindStope]
@[simp] theorem State.idleTable_store (s : State) : (s.idleTable).mem = s.mem ∧ (s.idleTable).fuse = s.fuse := by simp [State.idleTable]
@[simp] theorem State.dropLoads_store (s : State) (gen : Nat) : (s.dropLoads gen).mem = s.mem ∧ (s.dropLoads gen).fuse = s.fuse := ⟨rfl, rfl⟩
@[simp] theorem State.unlock_store (s : State) (gen : Nat) : (s.unlock gen).mem = s.mem ∧ (s.unlock gen).fuse = s.fuse := ⟨rfl, rfl⟩
@[simp] theorem State.release_store (s : State) (gen : Nat) : (s.release gen).mem = s.mem ∧ (s.release gen).fuse = s.fuse := by simp [State.release]
@[simp] theorem State.noteReport_store (s : State) (gen pkg result code entry failed : Nat) :
    (s.noteReport gen pkg result code entry failed).mem = s.mem ∧ (s.noteReport gen pkg result code entry failed).fuse = s.fuse := by
  simp only [State.noteReport]
  split <;> simp
@[simp] theorem State.report_store (s : State) (gen : Nat) : (s.report gen).mem = s.mem ∧ (s.report gen).fuse = s.fuse := by
  unfold State.report
  split <;> simp
@[simp] theorem State.dropLaunch_store (s : State) (gen result code entry pkg : Nat) :
    (s.dropLaunch gen result code entry pkg).mem = s.mem ∧ (s.dropLaunch gen result code entry pkg).fuse = s.fuse := by
  simp only [State.dropLaunch]
  split <;> simp
@[simp] theorem State.failLaunch_store (s : State) (gen code entry : Nat) :
    (s.failLaunch gen code entry).mem = s.mem ∧ (s.failLaunch gen code entry).fuse = s.fuse := by
  unfold State.failLaunch
  split <;> simp
@[simp] theorem State.endIfFinal_store (s : State) (gen : Nat) : (s.endIfFinal gen).mem = s.mem ∧ (s.endIfFinal gen).fuse = s.fuse := by
  unfold State.endIfFinal
  split <;> simp
@[simp] theorem State.tagsAtBoundary_store (s : State) (c cls : Nat) :
    (s.tagsAtBoundary c cls).mem = s.mem ∧ (s.tagsAtBoundary c cls).fuse = s.fuse := by simp [State.tagsAtBoundary]

/-! ### Machine/Banksman -/

@[simp] theorem State.loadTable_store (s : State) (tab : List BeatEnt) :
    (s.loadTable tab).mem = s.mem ∧ (s.loadTable tab).fuse = s.fuse := by simp [State.loadTable]
@[simp] theorem State.clearArray_store (s : State) (gen q : Nat) :
    (s.clearArray gen q).mem = s.mem ∧ (s.clearArray gen q).fuse = s.fuse := by simp [State.clearArray]
@[simp] theorem State.bindLaunch_store (s : State) (gen : Nat) : (s.bindLaunch gen).mem = s.mem ∧ (s.bindLaunch gen).fuse = s.fuse := by
  unfold State.bindLaunch
  split <;> simp
@[simp] theorem State.restoreQuad_store (s : State) (gen q : Nat) (old : Quad) (idx : List Nat) :
    (s.restoreQuad gen q old idx).mem = s.mem ∧ (s.restoreQuad gen q old idx).fuse = s.fuse := by simp [State.restoreQuad]
@[simp] theorem State.restoreLaunch_store (s : State) (gen : Nat) : (s.restoreLaunch gen).mem = s.mem ∧ (s.restoreLaunch gen).fuse = s.fuse := by
  unfold State.restoreLaunch
  split <;> simp
@[simp] theorem State.askNext_store (s : State) (t : Stope) : (s.askNext t).mem = s.mem ∧ (s.askNext t).fuse = s.fuse := by simp [State.askNext]
@[simp] theorem State.resumeSaved_store (s : State) (gen : Nat) :
    (s.resumeSaved gen).mem = s.mem ∧ (s.resumeSaved gen).fuse = s.fuse := by simp [State.resumeSaved]
@[simp] theorem State.bindOrRestore_store (s : State) (gen : Nat) : (s.bindOrRestore gen).mem = s.mem ∧ (s.bindOrRestore gen).fuse = s.fuse := by
  unfold State.bindOrRestore
  split <;> simp
@[simp] theorem State.latch_store (s : State) (p q : Nat) (l : Launch) (insts : List Inst) :
    (s.latch p q l insts).mem = s.mem ∧ (s.latch p q l insts).fuse = s.fuse := by simp [State.latch]
@[simp] theorem State.waitsOn_store (s : State) (h : Launch) : (s.waitsOn h).mem = s.mem ∧ (s.waitsOn h).fuse = s.fuse := by simp [State.waitsOn]
@[simp] theorem State.selectFrom_store (s : State) (x1 : List (Nat × Nat)) : (s.selectFrom x1).mem = s.mem ∧ (s.selectFrom x1).fuse = s.fuse := by
  induction x1 generalizing s with
  | nil => simp [State.selectFrom]
  | cons x l ih =>
    simp only [State.selectFrom]
    (repeat' split) <;> simp [ih]
@[simp] theorem State.pulse_store (s : State) (gen : Nat) : (s.pulse gen).mem = s.mem ∧ (s.pulse gen).fuse = s.fuse := by simp [State.pulse]
@[simp] theorem State.checkReady_store (s : State) (gen : Nat) : (s.checkReady gen).mem = s.mem ∧ (s.checkReady gen).fuse = s.fuse := by
  simp only [State.checkReady]
  (repeat' split) <;> simp
@[simp] theorem State.filled_store (s : State) (gen : Nat) : (s.filled gen).mem = s.mem ∧ (s.filled gen).fuse = s.fuse := by
  unfold State.filled
  split <;> simp
@[simp] theorem State.fillPlanes_store (s : State) (die gen kernel ovl : Nat) :
    (s.fillPlanes die gen kernel ovl).mem = s.mem ∧ (s.fillPlanes die gen kernel ovl).fuse = s.fuse := by
  unfold State.fillPlanes
  split <;> simp
@[simp] theorem State.startCore_store (s : State) (c : Nat) : (s.startCore c).mem = s.mem ∧ (s.startCore c).fuse = s.fuse := ⟨rfl, rfl⟩
@[simp] theorem State.preemptAll_store (s : State) (gens : List Nat) :
    (s.preemptAll gens).mem = s.mem ∧ (s.preemptAll gens).fuse = s.fuse := by simp [State.preemptAll]

/-! ### Machine/Generation -/

@[simp] theorem State.dsReturn_store (s : State) (o : DsOp) (v : Nat) :
    (s.dsReturn o v).mem = s.mem ∧ (s.dsReturn o v).fuse = s.fuse := by simp [State.dsReturn]
@[simp] theorem State.dropDs_store (s : State) (id : Nat) : (s.dropDs id).mem = s.mem ∧ (s.dropDs id).fuse = s.fuse := ⟨rfl, rfl⟩
@[simp] theorem State.dsWait_store (s : State) (o : DsOp) : (s.dsWait o).mem = s.mem ∧ (s.dsWait o).fuse = s.fuse := by simp [State.dsWait]
@[simp] theorem State.dsLeave_store (s : State) (o : DsOp) : (s.dsLeave o).mem = s.mem ∧ (s.dsLeave o).fuse = s.fuse := by simp [State.dsLeave]

/-! ### Machine/Calls -/

@[simp] theorem State.callOk_store (s : State) : (s.callOk).mem = s.mem ∧ (s.callOk).fuse = s.fuse := ⟨rfl, rfl⟩
@[simp] theorem State.callBad_store (s : State) : (s.callBad).mem = s.mem ∧ (s.callBad).fuse = s.fuse := ⟨rfl, rfl⟩
@[simp] theorem State.invalidate_store (s : State) (spid : Nat) (va : Option Nat) :
    (s.invalidate spid va).mem = s.mem ∧ (s.invalidate spid va).fuse = s.fuse := ⟨rfl, rfl⟩
@[simp] theorem State.shoot_store (s : State) (spid : Nat) (pages : List Nat) :
    (s.shoot spid pages).mem = s.mem ∧ (s.shoot spid pages).fuse = s.fuse := by simp [State.shoot]
@[simp] theorem State.askShoot_store (s : State) (spid id : Nat) (pages : List Nat) :
    (s.askShoot spid id pages).mem = s.mem ∧ (s.askShoot spid id pages).fuse = s.fuse := by simp [State.askShoot]
@[simp] theorem State.callShot_store (s : State) (spid : Nat) (pages : List Nat) (v : Word64) :
    (s.callShot spid pages v).mem = s.mem ∧ (s.callShot spid pages v).fuse = s.fuse := by simp [State.callShot]
@[simp] theorem State.shootAck_store (s : State) (pkg id : Nat) : (s.shootAck pkg id).mem = s.mem ∧ (s.shootAck pkg id).fuse = s.fuse := by
  unfold State.shootAck
  split <;> simp
@[simp] theorem State.splitMigrations_store (s : State) (spid va : Nat) :
    (s.splitMigrations spid va).mem = s.mem ∧ (s.splitMigrations spid va).fuse = s.fuse := by
  simp only [State.splitMigrations]
  split <;> simp
theorem State.startMigration_same {s t : State} {p : Proc} {x : Nat × Nat × Word64} {home : Nat} (h : s.startMigration p x home = some t) :
    SameStore s t := by
  simp only [State.startMigration] at h
  split_ifs at h
  · cases h; exact .rfl
  · cases h; simp
  · split at h
    · cases h
    · cases h; simp
@[simp] theorem State.setReserved_store (s : State) (spid : Nat) (cs : List Nat) (f : Word32 → Word32) :
    (s.setReserved spid cs f).mem = s.mem ∧ (s.setReserved spid cs f).fuse = s.fuse := ⟨rfl, rfl⟩
@[simp] theorem State.tellPlan_store (s : State) (spid id : Nat) (of_ : List (Nat × Nat × Nat)) (flows : List (Nat × Nat × Nat)) :
    (s.tellPlan spid id of_ flows).mem = s.mem ∧ (s.tellPlan spid id of_ flows).fuse = s.fuse := by simp [State.tellPlan]
@[simp] theorem State.dropTimeout_store (s : State) (id : Nat) : (s.dropTimeout id).mem = s.mem ∧ (s.dropTimeout id).fuse = s.fuse := ⟨rfl, rfl⟩
@[simp] theorem State.pauseTransfer_store (s : State) (p : Pending) (va : Nat) :
    (s.pauseTransfer p va).mem = s.mem ∧ (s.pauseTransfer p va).fuse = s.fuse := ⟨rfl, rfl⟩
@[simp] theorem State.startTransfer_store (s : State) (p : Pending) : (s.startTransfer p).mem = s.mem ∧ (s.startTransfer p).fuse = s.fuse := by
  unfold State.startTransfer
  split <;> simp
@[simp] theorem State.cancelLaunch_store (s : State) (l : Launch) :
    (s.cancelLaunch l).mem = s.mem ∧ (s.cancelLaunch l).fuse = s.fuse := by simp [State.cancelLaunch]

/-! ### Machine/Module -/

@[simp] theorem State.afterReset_store (s : State) : (s.afterReset).mem = s.mem ∧ (s.afterReset).fuse = s.fuse := ⟨rfl, rfl⟩
@[simp] theorem State.fitCharge_store (s : State) : (s.fitCharge).mem = s.mem ∧ (s.fitCharge).fuse = s.fuse := by simp [State.fitCharge]
@[simp] theorem State.enqueueLaunch_store (s : State) (l : Launch) : (s.enqueueLaunch l).mem = s.mem ∧ (s.enqueueLaunch l).fuse = s.fuse := ⟨rfl, rfl⟩

/-! ### Machine/Headframe -/

@[simp] theorem State.loseLaunch_store (s : State) (l : Launch) :
    (s.loseLaunch l).mem = s.mem ∧ (s.loseLaunch l).fuse = s.fuse := by simp [State.loseLaunch]

/-! ### Machine/HartBase -/

@[simp] theorem State.hartOn_store (s : State) (h len : Nat) (f : Hart → Hart) :
    (s.hartOn h len f).mem = s.mem ∧ (s.hartOn h len f).fuse = s.fuse := ⟨rfl, rfl⟩
@[simp] theorem State.hartSet_store (s : State) (h len rd : Nat) (v : Word64) :
    (s.hartSet h len rd v).mem = s.mem ∧ (s.hartSet h len rd v).fuse = s.fuse := ⟨rfl, rfl⟩
@[simp] theorem State.windowStore_store (s : State) (die w off : Nat) (data : List Byte) :
    (s.windowStore die w off data).mem = s.mem ∧ (s.windowStore die w off data).fuse = s.fuse := by simp [State.windowStore]
@[simp] theorem State.hartLoad_store (s : State) (h len va : Nat) (r : HartRet) :
    (s.hartLoad h len va r).mem = s.mem ∧ (s.hartLoad h len va r).fuse = s.fuse := by
  simp only [State.hartLoad]
  (repeat' split) <;> simp
@[simp] theorem State.hartCsr_store (s : State) (h len rd f3 src n : Nat) (v : Word64) :
    (s.hartCsr h len rd f3 src n v).mem = s.mem ∧ (s.hartCsr h len rd f3 src n v).fuse = s.fuse := by
  simp only [State.hartCsr]
  split <;> simp
@[simp] theorem State.hartSystem_store (s : State) (h w : Nat) :
    (s.hartSystem h w).mem = s.mem ∧ (s.hartSystem h w).fuse = s.fuse := by simp [State.hartSystem]

end Sys2Proof.Machine
end

