-- ==== Sys2Proof/Proofs/CanonicalStores.lean ====
section
/-! SUPPORT. The invariant of a step, LPDDR canonical and the fuses as given, and the operations that do store in LPDDR: each goes through `memStore` or
`memPut`, which keep the canonical form (R261). -/

namespace Sys2Proof.Machine

/-- The invariant of O59 for a module with the fuses `φ`: LPDDR is canonical and the fuses are these (R18, R22, R261). -/
structure Sound (φ : Fuses) (s : State) : Prop where
  canonical : Memory.wf s.mem = true
  fuse : s.fuse = φ

section

variable {φ : Fuses} {s t : State}

/-- What leaves LPDDR and the fuses alone keeps the invariant. -/
theorem Sound.same (h : Sound φ s) (hs : SameStore s t) : Sound φ t := ⟨hs.mem ▸ h.canonical, hs.fuse.trans h.fuse⟩

/-- The same in the form that the rules of the frame part, and `simp` with them, give. -/
theorem Sound.keep (h : Sound φ s) (hs : t.mem = s.mem ∧ t.fuse = s.fuse) : Sound φ t := h.same ((sameStore_iff ..).2 hs)
theorem Sound.branch {p : Prop} [Decidable p] (hs : Sound φ s) (ht : Sound φ t) : Sound φ (if p then s else t) := by
  split
  · exact hs
  · exact ht

/-- A fold of steps that keep the invariant keeps it. -/
theorem Sound.foldl {α : Type} (f : State → α → State) (hf : ∀ t a, Sound φ t → Sound φ (f t a)) (l : List α) (h : Sound φ s) :
    Sound φ (l.foldl f s) := by
  induction l generalizing s with
  | nil => exact h
  | cons a l ih => exact ih (hf s a h)

/-! ### Stores at their home -/

theorem Sound.memStore (h : Sound φ s) (pa : Nat) (d : List Byte) (sel : List Bool) : Sound φ (s.memStore pa d sel) :=
  ⟨State.wf_memStore s pa d sel h.canonical, h.fuse⟩
theorem Sound.memPut (h : Sound φ s) (pa n : Nat) (img : Memory) : Sound φ (s.memPut pa n img) := ⟨State.wf_memPut s pa n img h.canonical, h.fuse⟩
theorem Sound.homeWriteSel (h : Sound φ s) (pa : Nat) (d : List Byte) (sel : List Bool) : Sound φ (s.homeWriteSel pa d sel) := by
  simp only [State.homeWriteSel]
  split
  · exact (h.memStore ..).keep (State.redirty_store ..)
  · exact h.keep (by simp)
  · exact h
theorem Sound.homeWrite (h : Sound φ s) (pa : Nat) (d : List Byte) : Sound φ (s.homeWrite pa d) := h.homeWriteSel pa d []
theorem Sound.homeWriteP (h : Sound φ s) (pa : Nat) (d : List Byte) (sel : List Bool) (bad : Bool) : Sound φ (s.homeWriteP pa d sel bad) := by
  have hw := h.homeWriteSel pa d sel
  simp only [State.homeWriteP]
  split
  · exact hw.keep (by simp)
  · exact hw
theorem Sound.procWrite (h : Sound φ s) (spid va : Nat) (d : List Byte) : Sound φ (s.procWrite spid va d) := by
  refine .foldl _ (fun t p ht => ?_) _ h
  split
  · exact ht.homeWrite ..
  · exact ht
theorem Sound.writeHome (h : Sound φ s) (m pa : Nat) (d : List Byte) : Sound φ (s.writeHome m pa d) :=
  .branch (h.keep (by simp)) (h.homeWrite pa d)

/-! ### Masters and ports -/

theorem Sound.masterWrite (h : Sound φ s) (m spid va : Nat) (d : List Byte) : Sound φ (s.masterWrite m spid va d) := by
  refine .foldl _ (fun t p ht => ?_) _ h
  split
  · exact .branch (ht.writeHome ..) (ht.keep (by simp))
  · exact ht
theorem Sound.netTry (h : Sound φ s) (spid va : Nat) (d : List Byte) : Sound φ (s.netTry spid va d).1 := by
  simp only [State.netTry]
  split
  · exact .foldl _ (fun t p ht => ht.writeHome ..) _ (h.keep (by simp))
  · split
    · exact h.keep (by simp)
    · exact h.keep (by simp)
theorem Sound.netGo (h : Sound φ s) (l : List (Nat × Nat × List Byte)) : Sound φ (s.netGo l) := by
  induction l generalizing s with
  | nil => exact h.keep (by simp [State.netGo])
  | cons x l ih =>
    have ht := h.netTry x.1 x.2.1 x.2.2
    simp only [State.netGo]
    split
    · next e => rw [e] at ht; exact ht.keep (by simp)
    · next e => rw [e] at ht; exact ih ht
theorem Sound.netWrite (h : Sound φ s) (spid va : Nat) (d : List Byte) : Sound φ (s.netWrite spid va d) :=
  .branch (h.netGo _) (h.keep (by simp))
theorem Sound.playbackWrite (h : Sound φ s) (spid side va : Nat) (d : List Byte) : Sound φ (s.playbackWrite spid side va d) :=
  .branch (h.netWrite ..) (h.masterWrite ..)

/-! ### Requests performed at their home -/

theorem Sound.performHere (h : Sound φ s) (g : GReq) : Sound φ (s.performHere g) := by
  simp only [State.performHere]
  generalize hr : (if g.job.returns then _ else (s, [], false)) = r
  have hs : Sound φ r.1 := h.keep (by rw [← hr]; simp)
  split
  · exact (hs.homeWriteSel ..).keep (State.foundHome_store ..)
  · exact (hs.homeWriteP ..).keep (State.foundHome_store ..)
  · split
    · exact (Sound.branch hs (hs.homeWrite ..)).keep (State.foundHome_store ..)
    · exact hs.keep (State.foundHome_store ..)
theorem Sound.perform (h : Sound φ s) (g : GReq) : Sound φ (s.perform g) := .branch (h.keep (by simp)) (h.performHere g)
theorem Sound.farPerform (h : Sound φ s) (pkg : Nat) (r : FarReq) : Sound φ (s.farPerform pkg r) := by
  have hread (pa n : Nat) : Sound φ (s.readHome pa n).1 := h.keep (by simp)
  simp only [State.farPerform]
  refine .branch (h.keep (by simp)) (.branch (h.keep (by simp)) (.branch (h.keep (by simp)) ?_))
  split
  · exact h.keep (by simp)
  · exact h.homeWriteP ..
  · refine Sound.keep ?_ (State.answer_store ..)
    split
    · exact .branch (hread ..) ((hread ..).homeWrite ..)
    · exact hread ..
  · exact h

/-! ### Bundles, save areas, migration and images -/

/-- What saving a core's registers and memories answers: the area written, or none where no room was left. The equation of `writeArea` is had by
delta alone, since unfolding it by `simp` would have the kernel count up to `saveLen`. -/
theorem State.writeArea_cases (s : State) (t : Stope) (c : Nat) :
    (∃ pa, s.writeArea t c = (({ s with free := s.free + 2 } : State).memPut pa saveLen (s.saveImage t c), some pa)) ∨ s.writeArea t c = (s, none) := by
  have e : @State.writeArea = @State.writeArea := rfl
  conv_rhs at e => delta State.writeArea
  rw [e]
  beta_reduce
  cases s.placePhys saveLen page64K s.pkg t.die with
  | none => exact .inr rfl
  | some pa => exact .inl ⟨pa, rfl⟩

/-- What opening a bundle comes to: images placed, then written at their homes, then the process's record. By delta alone, as above. -/
theorem State.openBundle_inv {s : State} {spid : Nat} {f : List Byte} {r : State × Nat} (hr : s.openBundle spid f = some r) :
    ∃ l x g b, s.placeImages spid f l = some x ∧ r.1 = (x.2.foldl (fun u i => u.homeWrite i.2.2.1 (sliceOf g (i.2.2.2.off + 32) (i.2.2.2.len - 32))) x.1).modProc spid b := by
  have e : @State.openBundle = @State.openBundle := rfl
  conv_rhs at e => delta State.openBundle
  rw [e] at hr
  beta_reduce at hr
  generalize (List.range 1024) = l at hr
  dsimp only at hr
  split at hr
  · next t l ht =>
    obtain rfl := Option.some.inj hr
    exact ⟨_, _, _, _, ht, rfl⟩
  · cases hr
theorem Sound.openBundle (h : Sound φ s) {spid : Nat} {f : List Byte} {r : State × Nat} (hr : s.openBundle spid f = some r) : Sound φ r.1 := by
  obtain ⟨l, x, g, b, hx, e⟩ := State.openBundle_inv hr
  rw [e]
  exact (Sound.foldl _ (fun u i hu => hu.homeWrite ..) _ (h.same (State.placeImages_same hx))).keep (State.modProc_store ..)
theorem Sound.writeArea (h : Sound φ s) (t : Stope) (c : Nat) : Sound φ (s.writeArea t c).1 := by
  obtain ⟨pa, e⟩ | e := State.writeArea_cases s t c <;> rw [e]
  · have hf : Sound φ { s with free := s.free + 2 } := h.keep ⟨rfl, rfl⟩
    exact hf.memPut ..
  · exact h
theorem Sound.writeEvicted (h : Sound φ s) (a : Option Nat) (m : Memory) : Sound φ (s.writeEvicted a m) := by
  unfold State.writeEvicted
  split
  · exact h.memPut ..
  · exact h
theorem Sound.saveCore (h : Sound φ s) (t : Stope) (f c : Nat) : Sound φ (s.saveCore t f c) := (h.writeArea t c).keep (State.modLaunch_store ..)
theorem Sound.saveStope (h : Sound φ s) (t : Stope) : Sound φ (s.saveStope t) := by
  simp only [State.saveStope]
  exact (Sound.foldl _ (fun u c hu => hu.saveCore ..) _ h).keep (State.modLaunch_store ..)
theorem Sound.evictBanks (h : Sound φ s) (c : Nat) : Sound φ (s.evictBanks c) := by
  simp only [State.evictBanks]
  generalize hu : List.foldl _ s _ = u
  have hs : Sound φ u := hu ▸ Sound.foldl _ (fun u a hu => hu.writeEvicted ..) _ h
  exact hs.keep (by simp)
theorem Sound.copyLine (h : Sound φ s) (m : Migration) (l : Nat) : Sound φ (s.copyLine m l) := by
  have hu (p : Prop) [Decidable p] : Sound φ (if p then s.drawn else s) := .branch (h.keep (by simp)) h
  simp only [State.copyLine]
  split
  · exact h.keep (by simp)
  · refine Sound.keep (s := State.homeWrite _ (m.newPa + 64 * l) _) ?_ ⟨rfl, rfl⟩
    exact (hu _).homeWrite ..
theorem Sound.migrateAt (h : Sound φ s) (id : Nat) : Sound φ (s.migrateAt id) := by
  simp only [State.migrateAt]
  split
  · exact h
  · next m _ =>
    refine .branch (.branch h (h.keep (by simp))) (.branch (.branch h (.branch (h.keep (by simp)) ?_)) (.branch (h.keep (by simp)) h))
    generalize hu : List.foldl _ s _ = u
    have hs : Sound φ u := hu ▸ Sound.foldl _ (fun t l ht => ht.copyLine ..) _ h
    exact hs.keep (by simp)
theorem Sound.closeStream (h : Sound φ s) (spid : Nat) (x : DStream) : Sound φ (s.closeStream spid x) := by
  simp only [State.closeStream]
  exact (h.procWrite ..).keep (State.modProc_store ..)
theorem Sound.bootFrom (h : Sound φ s) (i : Option (List Byte)) : Sound φ (s.bootFrom i) := by
  simp only [State.bootFrom]
  have hs (f : List Byte) : Sound φ (s.memStore 0 f []) := h.memStore ..
  cases i with
  | none => split <;> exact h.keep (by simp)
  | some f => split <;> exact (hs f).keep (by simp)

end

end Sys2Proof.Machine
end

