-- ==== Sys2Proof/Proofs/CanonicalUnits.lean ====
section
/-! SUPPORT. The stream unit and the harts, whose operations stop with an answer on the way: each keeps the invariant up to where it stops. -/

namespace Sys2Proof.Machine

/-- Where an operation of the stream unit answers a value, the value meets `P`. -/
def Answers {α : Type} (P : α → Prop) : Except DsStop α → Prop
  | .ok a => P a
  | .error _ => True

/-- Where an optional state is there, it is sound. -/
def SoundIfAny (φ : Fuses) : Option State → Prop
  | some s => Sound φ s
  | none => True

section

variable {φ : Fuses} {s t : State} {α β : Type} {P : α → Prop} {Q : β → Prop}

theorem Answers.ok {a : α} (h : P a) : Answers P (.ok a) := h
theorem Answers.error (e : DsStop) : Answers P (.error e) := trivial
theorem Answers.any (x : Except DsStop α) : Answers (fun _ => True) x := by cases x <;> trivial
theorem Answers.elim {x : Except DsStop α} {a : α} (h : Answers P x) (e : x = .ok a) : P a := by
  rw [e] at h
  exact h
theorem Answers.bind {x : Except DsStop α} {f : α → Except DsStop β} (hx : Answers P x) (hf : ∀ a, P a → Answers Q (f a)) : Answers Q (x >>= f) := by
  cases x with
  | error e => exact .error e
  | ok a => exact hf a hx
theorem Answers.branch {p : Prop} [Decidable p] {x y : Except DsStop α} (hx : Answers P x) (hy : Answers P y) : Answers P (if p then x else y) := by
  split
  · exact hx
  · exact hy

/-- A run of operations each of which keeps the invariant keeps it. -/
theorem Answers.foldlM (f : State → β → Except DsStop State) (hf : ∀ t b, Sound φ t → Answers (Sound φ) (f t b)) (l : List β) (h : Sound φ s) :
    Answers (Sound φ) (l.foldlM f s) := by
  induction l generalizing s with
  | nil => exact .ok h
  | cons b l ih => exact .bind (hf s b h) (fun t ht => ih ht)
theorem Sound.dsLoad (h : Sound φ s) (u : DsUnit) (va n : Nat) : Answers (fun r => Sound φ r.1) (s.dsLoad u va n) := by
  refine .bind (.any _) (fun ps _ => .branch (.error _) (.ok (h.keep ?_)))
  simp
theorem Sound.dsStore (h : Sound φ s) (u : DsUnit) (va : Nat) (d : List Byte) : Answers (Sound φ) (s.dsStore u va d) :=
  .bind (.any _) (fun _ _ => .ok (Sound.foldl _ (fun _ _ ht => ht.homeWrite ..) _ h))
theorem Sound.dsPut (h : Sound φ s) (u : DsUnit) (base : Nat) (l : List (Nat × Nat)) : Answers (Sound φ) (s.dsPut u base l) :=
  .foldlM _ (fun _ _ ht => ht.dsStore ..) l h
theorem Sound.dsCheckpoint (h : Sound φ s) (u : DsUnit) (d : List Byte) (k pos : Nat) : Answers (Sound φ) (s.dsCheckpoint u d k pos) :=
  .bind (h.dsLoad ..) (fun _ hr => .bind (hr.dsStore ..) (fun _ ht => ht.dsStore ..))
theorem Sound.dsBits (h : Sound φ s) (u : DsUnit) (d : List Byte) (lo hi : Nat) (v : Bool) : Answers (Sound φ) (s.dsBits u d lo hi v) :=
  .branch (.ok h) (.bind (h.dsLoad ..) (fun _ hr => hr.dsStore ..))
theorem Sound.dsAdmit (h : Sound φ s) (u : DsUnit) (fring h' win left i : Nat) (late barge : Bool) :
    Answers (fun r => Sound φ r.1) (s.dsAdmit u fring h' win left i late barge) := by
  induction left generalizing s i late barge with
  | zero => exact .ok h
  | succ n ih => exact .bind (h.dsLoad ..) (fun _ hr => .branch (.ok hr) (.bind (hr.dsStore ..) (fun _ ht => ih ht ..)))
theorem Sound.dsadmit (h : Sound φ s) (u : DsUnit) (base : Nat) (d : List Byte) (win : Nat) :
    Answers (fun r => Sound φ r.1) (s.dsadmit u base d win) :=
  .branch (.error _) (.bind (h.dsAdmit ..) (fun _ hr => .bind (hr.dsPut ..) (fun _ ht => .ok ht)))
theorem Sound.dsemit (h : Sound φ s) (u : DsUnit) (base : Nat) (d : List Byte) (token : Nat) :
    Answers (fun r => Sound φ r.1) (s.dsemit u base d token) := by
  refine .branch (.error _) (.branch (.bind (h.dsCheckpoint ..) ?_) (.bind (.ok h) ?_)) <;>
    exact fun _ h1 => .bind (h1.dsStore ..) (fun _ h2 => .bind (h2.dsBits ..) (fun _ h3 => .bind (h3.dsPut ..) (fun _ h4 => .ok h4)))
theorem Sound.dstrunc (h : Sound φ s) (u : DsUnit) (base : Nat) (d : List Byte) : Answers (fun r => Sound φ r.1) (s.dstrunc u base d) := by
  refine .branch (.error _) (.branch (.ok h) (.bind (h.dsLoad ..) (fun r hr => ?_)))
  dsimp only
  split
  · exact .error _
  · exact .bind (hr.dsBits ..) (fun _ h1 => .bind (h1.dsStore ..) (fun _ h2 => .bind (h2.dsLoad ..) (fun _ h3 =>
      .bind (h3.dsStore ..) (fun _ h4 => .bind (h4.dsPut ..) (fun _ h5 => .ok h5)))))
theorem Sound.kvinv (h : Sound φ s) (u : DsUnit) (d : List Byte) (a b : Nat) : Answers (fun r => Sound φ r.1) (s.kvinv u d a b) :=
  .branch (.error _) (.branch (.error _) (.bind (h.dsLoad ..) (fun _ hr => .bind (hr.dsStore ..) (fun _ ht => .ok ht))))
theorem Sound.kvaccept (h : Sound φ s) (u : DsUnit) (base : Nat) (d : List Byte) (a b : Nat) :
    Answers (fun r => Sound φ r.1) (s.kvaccept u base d a b) :=
  .branch (.ok h) (.bind (h.dsStore ..) (fun _ h1 => .bind (h1.dsPut ..) (fun _ h2 => .ok h2)))
theorem Sound.kvcommit (h : Sound φ s) (u : DsUnit) (base : Nat) (d : List Byte) : Answers (fun r => Sound φ r.1) (s.kvcommit u base d) :=
  .branch (.ok h) (.branch (.error _) (.bind (.foldlM _ (fun _ _ ht => ht.dsCheckpoint ..) _ h) (fun _ h1 =>
    .bind (h1.dsBits ..) (fun _ h2 => .bind (h2.dsPut ..) (fun _ h3 => .ok h3)))))
theorem Sound.dsEffect (h : Sound φ s) (u : DsUnit) (op cur win base a b : Nat) :
    Answers (fun r => Sound φ r.1) (s.dsEffect u op cur win base a b) := by
  refine .branch (.error _) (.bind (h.dsLoad ..) (fun r hr => .branch (.error _) (.branch (hr.dsadmit ..) ?_)))
  refine .bind (P := fun r => Sound φ r.1) ?_ (fun _ ht => .ok ht)
  split
  · exact hr.dsemit ..
  · exact hr.dstrunc ..
  · exact .ok hr
  · exact hr.kvinv ..
  · exact hr.kvaccept ..
  · exact hr.kvcommit ..
theorem Sound.dsAnswer (h : Sound φ s) (pkg id : Nat) {r : Except DsStop (State × Nat × Bool)} (hr : Answers (fun x => Sound φ x.1) r) :
    Sound φ (s.dsAnswer pkg id r) := by
  unfold State.dsAnswer
  split
  · exact (show Sound φ _ from hr).keep (by simp)
  · exact h.keep (by simp)
  · exact h.keep (by simp)
  · exact h.keep (by simp)
  · exact h.keep (by simp)
theorem Sound.dsRun (h : Sound φ s) (o : DsOp) : Sound φ (s.dsRun o) := by
  have he := h.dsEffect (.core o.core) o.op o.cur o.win o.base.toNat o.a.toNat o.b.toNat
  simp only [State.dsRun]
  split
  · next t v late e => exact (he.elim e).keep (by simp)
  · exact h.keep (by simp)
  · exact h.keep (by simp)
  · exact h.keep (by simp)
  · exact h.keep (by simp)
theorem Sound.dsUpTo (h : Sound φ s) (c : Nat) (l : List DsOp) : Sound φ (s.dsUpTo c l) := by
  induction l generalizing s with
  | nil => exact h
  | cons o l ih =>
    have ho : Sound φ (if o.far then s else s.dsRun o) := .branch h (h.dsRun o)
    exact .branch (.foldl _ (fun t o ht => ht.keep (by simp)) _ ho) (ih ho)
theorem Sound.dsFar (h : Sound φ s) (pkg : Nat) (r : FarReq) : Sound φ (s.dsFar pkg r) := by
  unfold State.dsFar
  split
  · next id spid op cur win base a b =>
    have he := h.dsEffect (.far pkg spid) op cur win base.toNat a.toNat b.toNat
    refine .branch (h.keep (by simp)) ?_
    split
    · exact h.keep (by simp)
    · exact h.dsAnswer pkg id he
  · exact h.farPerform pkg r
theorem Sound.goOnDeferred (h : Sound φ s) : Sound φ s.goOnDeferred := by
  refine Sound.foldl _ (fun t d ht => ?_) _ (h.keep ⟨rfl, rfl⟩)
  split
  · exact .branch (ht.farPerform ..) (ht.writeHome ..)
  · exact ht.dsFar ..

/-! ### Harts -/

theorem Sound.hartAtomic (h : Sound φ s) (x pa op size : Nat) (b : Word64) (rd : BitVec 5) : Sound φ (s.hartAtomic x pa op size b rd) := by
  have hr : Sound φ (s.readHome pa size).1 := h.keep (by simp)
  exact (hr.homeWrite ..).keep (State.modHart_store ..)
theorem Sound.hartStore (h : Sound φ s) (x len va : Nat) (d : List Byte) : Sound φ (s.hartStore x len va d) := by
  simp only [State.hartStore]
  split
  · exact h.keep (by simp)
  · exact h.keep (by simp)
  · split
    · exact h.keep (by simp)
    · refine .branch (h.keep (by simp)) (.branch h ?_)
      exact (Sound.foldl _ (fun t p ht => ht.homeWrite ..) _ h).keep (State.hartOn_store ..)
theorem Sound.hartReserve (h : Sound φ s) (x len rd pa n : Nat) (store : Option Word64) : Sound φ (s.hartReserve x len rd pa n store) := by
  have hf : Sound φ { s with resvs := s.resvs.filter (fun r => r.1 != x) } := h.keep ⟨rfl, rfl⟩
  cases store with
  | none => exact hf.keep (by simp [State.hartReserve])
  | some b => exact .branch ((hf.homeWrite ..).keep (State.hartSet_store ..)) (hf.keep (State.hartSet_store ..))
theorem Sound.hartAmo (h : Sound φ s) (x len f5 rd va n : Nat) (b : Word64) : Sound φ (s.hartAmo x len f5 rd va n b) := by
  simp only [State.hartAmo]
  refine .branch (h.keep (by simp)) ?_
  split
  · refine .branch (.branch (h.keep (by simp)) (.branch h (h.hartReserve ..))) ?_
    split
    · exact h.keep (by simp)
    · exact .branch (h.keep (by simp)) (.branch h ((h.hartAtomic ..).keep (State.hartOn_store ..)))
  · exact h.keep (by simp)
  · exact h.keep (by simp)
theorem SoundIfAny.branch {p : Prop} [Decidable p] {x y : Option State} (hx : SoundIfAny φ x) (hy : SoundIfAny φ y) :
    SoundIfAny φ (if p then x else y) := by
  split
  · exact hx
  · exact hy
theorem SoundIfAny.map {f : α → State} (hf : ∀ a, Sound φ (f a)) (x : Option α) : SoundIfAny φ (x.map f) := by
  cases x with
  | none => trivial
  | some a => exact hf a
theorem Sound.hartWord32 (h : Sound φ s) (x len w : Nat) : SoundIfAny φ (s.hartWord32 x len w) := by
  have hset (v : Word64) : SoundIfAny φ (some (s.hartSet x len (bitsOf w 7 5) v)) := h.keep (by simp)
  have hon (f : Hart → Hart) : Sound φ (s.hartOn x len f) := h.keep (by simp)
  have hmod (f : Hart → Hart) : Sound φ (s.modHart x f) := h.keep (by simp)
  have hload (va : Nat) (r : HartRet) : SoundIfAny φ (some (s.hartLoad x len va r)) := h.keep (by simp)
  have hstore (va : Nat) (d : List Byte) : SoundIfAny φ (some (s.hartStore x len va d)) := h.hartStore ..
  unfold State.hartWord32
  split
  · exact hset _
  · exact hset _
  · exact hmod _
  · exact .branch (hmod _) trivial
  · exact .map (fun _ => hmod _) _
  · exact .branch (hload ..) trivial
  · exact .branch (hload ..) trivial
  · exact .branch (hstore ..) trivial
  · exact .branch (hstore ..) trivial
  · exact .branch (Sound.branch h (hon _)) trivial
  · exact .branch (h.hartAmo ..) trivial
  · exact .branch (h.keep (by simp)) (.branch trivial (h.keep (by simp)))
  · exact .branch trivial (hset _)
  · exact .branch (hset _) (.branch (hset _) trivial)
  · exact .branch (hset _) (.branch (hset _) trivial)
  · exact .branch (hset _) (.branch (hset _) trivial)
  · exact .branch (.map (fun _ => hon _) _) trivial
theorem Sound.hartBase (h : Sound φ s) (x w : Nat) : Sound φ (s.hartBase x w) := by
  have hr : SoundIfAny φ (if w % 4 = 3 then s.hartWord32 x 4 w else (expandC w).bind (s.hartWord32 x 2)) := by
    refine .branch (h.hartWord32 ..) ?_
    cases expandC w with
    | none => trivial
    | some v => exact h.hartWord32 x 2 v
  simp only [State.hartBase]
  generalize (if w % 4 = 3 then s.hartWord32 x 4 w else (expandC w).bind (s.hartWord32 x 2)) = r at hr
  cases r with
  | none => exact h.keep (by simp)
  | some t => exact hr

end

end Sys2Proof.Machine
end

