-- ==== Sys2Proof/Proofs/CanonicalWords.lean ====
section
/-! SUPPORT. Each word, event, call and input keeps the invariant. -/

namespace Sys2Proof.Machine

/-- A step that ends in a next state ends in a sound one. -/
def EndsSound (φ : Fuses) : Host.Outcome State Fault Refusal → Prop
  | .next s => Sound φ s
  | .fault _ | .refused _ => True

section

variable {φ : Fuses} {s : State}

theorem EndsSound.branch {p : Prop} [Decidable p] {x y : Host.Outcome State Fault Refusal} (hx : EndsSound φ x) (hy : EndsSound φ y) :
    EndsSound φ (if p then x else y) := by
  split
  · exact hx
  · exact hy

/-! ### The state that a word's outcome carries -/

@[simp] theorem SOut.state_ok (s : State) (n : Nat) (j : Option Nat) : (SOut.ok s n j).state = s := rfl
@[simp] theorem SOut.state_fault (s : State) (f : FaultRec) : (SOut.fault s f).state = s := rfl
@[simp] theorem SOut.state_block (s : State) (n : Nat) : (SOut.block s n).state = s := rfl
@[simp] theorem SOut.state_wait (s : State) : (SOut.wait s).state = s := rfl
@[simp] theorem SOut.state_ite (p : Prop) [Decidable p] (x y : SOut) : (if p then x else y).state = if p then x.state else y.state := apply_ite ..
@[simp] theorem sfault_state (s : State) (n : Nat) : (sfault s n).state = s := rfl
@[simp] theorem sIllegal_state (s : State) : (sIllegal s).state = s := rfl
@[simp] theorem sOperand_state (s : State) : (sOperand s).state = s := rfl
@[simp] theorem guardRegs_state (s : State) (c : Nat) (l : List Nat) (x : SOut) :
    (guardRegs s c l x).state = if l.any (fun r => (s.core c).pendingReg r) then s else x.state := apply_ite ..
@[simp] theorem VOut.state_ok (s : State) (q : Nat) : (VOut.ok s q).state = s := rfl
@[simp] theorem VOut.state_fault (s : State) (f : FaultRec) : (VOut.fault s f).state = s := rfl
@[simp] theorem VOut.state_block (s : State) (n : Nat) : (VOut.block s n).state = s := rfl
@[simp] theorem VOut.state_ite (p : Prop) [Decidable p] (x y : VOut) : (if p then x else y).state = if p then x.state else y.state := apply_ite ..
@[simp] theorem vfault_state (s : State) (n : Nat) : (vfault s n).state = s := rfl
@[simp] theorem MOut.state_ok (s : State) (q : Nat) (l : Bool) : (MOut.ok s q l).state = s := rfl
@[simp] theorem MOut.state_fault (s : State) (f : FaultRec) : (MOut.fault s f).state = s := rfl
@[simp] theorem MOut.state_block (s : State) (n : Nat) : (MOut.block s n).state = s := rfl
@[simp] theorem MOut.state_noFormat (s : State) : (MOut.noFormat s).state = s := rfl
@[simp] theorem MOut.state_ite (p : Prop) [Decidable p] (x y : MOut) : (if p then x else y).state = if p then x.state else y.state := apply_ite ..
@[simp] theorem mfault_state (s : State) (n : Nat) : (mfault s n).state = s := rfl

/-! ### The shapes that words share -/

theorem finishScalar_sound {o : SOut} (h : Sound φ o.state) (c : Nat) : EndsSound φ (finishScalar c o) := by
  obtain ⟨t, e, hs⟩ := finishScalar_next c o
  rw [e]
  exact h.same hs
theorem finishVector_sound {o : VOut} (h : Sound φ o.state) (c reps : Nat) : EndsSound φ (finishVector c reps o) := by
  obtain ⟨t, e, hs⟩ := finishVector_next c reps o
  rw [e]
  exact h.same hs
theorem finishMatrix_sound {o : MOut} (h : Sound φ o.state) (c : Nat) : EndsSound φ (finishMatrix c o) := by
  obtain ⟨t, e, hs⟩ := finishMatrix_next c o
  rw [e]
  exact h.same hs
theorem scalarWord_sound (h : Sound φ s) (i : Instr) {f : State → Nat → SOut} (hf : SameStore s (f s s.curCore).state) :
    EndsSound φ (scalarWord i s f) := by
  refine finishScalar_sound ?_ _
  split
  · exact h.same hf
  · exact h
theorem vectorWord_sound (h : Sound φ s) (i : Instr) (reps : Nat) (ok : Core → Option Nat) {f : State → Nat → Nat → VOut}
    (hf : ∀ n, SameStore s (f s s.curCore n).state) : EndsSound φ (vectorWord i reps s ok f) := by
  refine finishVector_sound ?_ _ _
  split
  · exact h
  · split
    · exact h
    · exact h.same (hf _)
theorem guardRegs_same {s : State} {c : Nat} {l : List Nat} {x : SOut} (h : SameStore s x.state) : SameStore s (guardRegs s c l x).state := by
  rw [guardRegs_state]
  exact .ite .rfl h
theorem hartWord_sound (h : Sound φ s) {f : State → State} (hf : SameStore s (f s)) : EndsSound φ (hartWord s f) :=
  Sound.branch (h.keep (by simp)) (h.same hf)

/-! ### Machine/Ops -/

@[simp] theorem lateLook_store (s : State) (c : Nat) (ok : Bool) (yes : SOut) :
    (lateLook s c ok yes).state.mem = (if ok then yes.state.mem else s.mem) ∧ (lateLook s c ok yes).state.fuse = (if ok then yes.state.fuse else s.fuse) := by
  simp only [lateLook]
  split
  · simp
  · split <;> simp

/-! ### Machine/Operands -/

theorem runWith_same (s : State) (v : VWord) (fm : VForm) {finish : State → VEnv → Nat → State} (hf : ∀ t e n, SameStore t (finish t e n)) (c i : Nat) :
    SameStore s (runWith v fm finish s c i).state := by
  simp only [runWith]
  split
  · exact .rfl
  · split
    · exact .rfl
    · next s1 a ha =>
      have h1 : SameStore s s1 := readSrc_same ha
      split
      · exact .rfl
      · next s2 b hb =>
        have h2 : SameStore s s2 := h1.trans (readSrc_same hb)
        split
        · exact .rfl
        · split
          · exact h2.trans (by simp)
          · exact h2.trans (.trans (by simp) (hf ..))
theorem runRepeat_same (s : State) (v : VWord) (fm : VForm) (compute : VEnv → List (List Byte) × Nat) (c i : Nat) :
    SameStore s (runRepeat v fm compute s c i).state := runWith_same s v fm (fun t e n => by simp) c i
theorem plainVector_sound (h : Sound φ s) (i : Instr) (v : VWord) (fm : VForm) (compute : VEnv → List (List Byte) × Nat) :
    EndsSound φ (plainVector i v fm compute s) := vectorWord_sound h _ _ _ (fun n => runRepeat_same s v fm compute _ n)

/-! ### Machine/Banks -/

theorem execBankRequestArrival_sound (h : Sound φ s) : EndsSound φ (execBankRequestArrival s) := by
  simp only [execBankRequestArrival]
  (repeat' split) <;> exact h.keep (by simp)

/-! ### Machine/Beats -/

theorem execAnchorRelease_sound (h : Sound φ s) : EndsSound φ (execAnchorRelease s) := by
  simp only [execAnchorRelease]
  (repeat' split) <;> exact h.keep (by simp)
theorem execBeatOpen_sound (h : Sound φ s) : EndsSound φ (execBeatOpen s) := by
  unfold execBeatOpen
  split <;> exact h.keep (by simp)
theorem execBeatClose_sound (h : Sound φ s) : EndsSound φ (execBeatClose s) := by
  unfold execBeatClose
  split <;> exact h.keep (by simp)

/-! ### Machine/ScalarInt -/

theorem regWord_sound (h : Sound φ s) (i : Instr) (d : BitVec 5) (reads : List Nat) (lat : Nat) (f : State → Core → Word64 × Nat) :
    EndsSound φ (regWord i d reads lat f s) := scalarWord_sound h _ (by simp)
theorem binWord_sound (h : Sound φ s) (i : Instr) (d a b : BitVec 5) (lat : Nat) (f : Word64 → Word64 → Word64 × Nat) :
    EndsSound φ (binWord i d a b lat f s) := regWord_sound h ..
theorem unWord_sound (h : Sound φ s) (i : Instr) (d a : BitVec 5) (lat : Nat) (f : Word64 → Word64 × Nat) :
    EndsSound φ (unWord i d a lat f s) := regWord_sound h ..

/-! ### Machine/ScalarFp -/

theorem fbin_sound (h : Sound φ s) (i : Instr) (d a b : BitVec 5) (lat : Nat) (f : Nat → Nat → Nat × Nat) :
    EndsSound φ (fbin i d a b lat f s) := binWord_sound h ..
theorem fmaWord_sound (h : Sound φ s) (i : Instr) (d a b c : BitVec 5) (sub neg : Bool) :
    EndsSound φ (fmaWord i d a b c sub neg s) := regWord_sound h ..

/-! ### Machine/ScalarFlow -/

theorem condWord_sound (h : Sound φ s) (i : Instr) (b : BitVec 4) (srcs : List (BitVec 4)) (reads : List Nat) (f : Core → Bool) :
    EndsSound φ (condWord i b srcs reads f s) := scalarWord_sound h _ (by simp)
theorem execCload_sound (h : Sound φ s) (g : BitVec 2) (a : BitVec 5) : EndsSound φ (execCload g a s) := scalarWord_sound h _ (by simp)
theorem prepWord_sound (h : Sound φ s) (i : Instr) (b : BitVec 4) (reads : List Nat) (target : Core → Int) :
    EndsSound φ (prepWord i b reads target s) := scalarWord_sound h _ (by simp)
theorem branchWord_sound (h : Sound φ s) (i : Instr) (b : BitVec 4) (taken : Bool → Bool) (leaves link : Bool) :
    EndsSound φ (branchWord i b taken leaves link s) := scalarWord_sound h _ (by simp)
theorem execRet_sound (h : Sound φ s) (g : BitVec 2) : EndsSound φ (execRet g s) := scalarWord_sound h _ (by simp)
@[simp] theorem enterLoop_store (s : State) (c p n len : Nat) :
    (enterLoop s c p n len).state.mem = s.mem ∧ (enterLoop s c p n len).state.fuse = s.fuse := by simp [enterLoop]
theorem execLoop_sound (h : Sound φ s) (g p : BitVec 2) (c : BitVec 5) (l : BitVec 17) :
    EndsSound φ (execLoop g p c l s) := scalarWord_sound h _ (by simp)
theorem execLoopi_sound (h : Sound φ s) (g p : BitVec 2) (n : BitVec 10) (l : BitVec 12) :
    EndsSound φ (execLoopi g p n l s) := scalarWord_sound h _ (by simp)
theorem execLprw_sound (h : Sound φ s) (g : BitVec 2) (r : BitVec 5) (p t : BitVec 2) (w : BitVec 1) :
    EndsSound φ (execLprw g r p t w s) := scalarWord_sound h _ (by simp)

/-! ### Machine/ScalarMem -/

theorem aCheck_state {s : State} {addr : Word64} {n kind : Nat} {x : SOut} (h : aCheck s addr n kind = some x) : x.state = s := by
  simp only [aCheck] at h
  split_ifs at h <;> cases h <;> rfl
theorem loadA_sound (h : Sound φ s) (i : Instr) (d a : BitVec 5) (sz : BitVec 2) (p : BitVec 1) (imm : BitVec 11) (signed : Bool) :
    EndsSound φ (loadA i d a sz p imm signed s) := by
  refine scalarWord_sound h _ ?_
  dsimp only
  split
  · exact .rfl
  · refine guardRegs_same ?_
    split
    · next x hx => rw [aCheck_state hx]; exact .rfl
    · split <;> simp
theorem execSta_sound (h : Sound φ s) (g : BitVec 2) (r a : BitVec 5) (sz : BitVec 2) (p : BitVec 1) (i : BitVec 11) :
    EndsSound φ (execSta g r a sz p i s) := by
  refine scalarWord_sound h _ (guardRegs_same ?_)
  dsimp only
  split
  · next x hx => rw [aCheck_state hx]; exact .rfl
  · split <;> simp
theorem globalAccess_same (s : State) (c : Nat) (addr : Word64) (n kind : Nat) (job : GJob) (rd : Option (BitVec 5)) {after : State → State}
    (ha : ∀ t, SameStore t (after t)) : SameStore s (globalAccess s c addr n kind job rd after).state := by
  simp only [globalAccess]
  split
  · exact .rfl
  · split
    · next ht => exact (State.letIn_same ht).trans (.trans (by simp) (ha _))
    · next ht => exact State.letIn_same ht
    · next ht => exact State.letIn_same ht
    · next ht => exact State.letIn_same ht
theorem loadG_sound (h : Sound φ s) (i : Instr) (d a : BitVec 5) (sz : BitVec 2) (p : BitVec 1) (imm : BitVec 11) (signed : Bool) :
    EndsSound φ (loadG i d a sz p imm signed s) := by
  refine scalarWord_sound h _ ?_
  dsimp only
  split
  · exact .rfl
  · exact guardRegs_same (globalAccess_same _ _ _ _ _ _ _ (fun t => by simp))
theorem execStg_sound (h : Sound φ s) (g : BitVec 2) (r a : BitVec 5) (sz : BitVec 2) (p : BitVec 1) (i : BitVec 11) :
    EndsSound φ (execStg g r a sz p i s) := scalarWord_sound h _ (guardRegs_same (globalAccess_same _ _ _ _ _ _ _ (fun t => by simp)))
theorem amoWord_sound (h : Sound φ s) (i : Instr) (op : Nat) (d a b : BitVec 5) (sz : BitVec 1) :
    EndsSound φ (amoWord i op d a b sz s) := scalarWord_sound h _ (guardRegs_same (globalAccess_same _ _ _ _ _ _ _ (fun t => by simp)))
theorem execCas_sound (h : Sound φ s) (g : BitVec 2) (d a b c : BitVec 5) (z : BitVec 1) :
    EndsSound φ (execCas g d a b c z s) := scalarWord_sound h _ (guardRegs_same (globalAccess_same _ _ _ _ _ _ _ (fun t => by simp)))
theorem execEnter_sound (h : Sound φ s) (g : BitVec 2) (n : BitVec 16) : EndsSound φ (execEnter g n s) := scalarWord_sound h _ (by simp)
theorem execLeave_sound (h : Sound φ s) (g : BitVec 2) (n : BitVec 16) : EndsSound φ (execLeave g n s) := scalarWord_sound h _ (by simp)

/-! ### Machine/VectorAlu -/

theorem elemWord_sound (h : Sound φ s) (i : Instr) (v : VWord) (fm : VForm) (f : Nat → Nat → Nat → Nat → Nat × Nat) :
    EndsSound φ (elemWord i v fm f s) := plainVector_sound h ..
theorem shiftWord_sound (h : Sound φ s) (i : Instr) (v : VWord) (f : Nat → Nat → Nat → Nat) :
    EndsSound φ (shiftWord i v f s) := .branch (plainVector_sound h ..) (plainVector_sound h ..)
theorem execVcmp_sound (h : Sound φ s) (v : VWord) : EndsSound φ (execVcmp v s) := by
  simp only [execVcmp]
  exact vectorWord_sound h _ _ _ (fun n => runWith_same s _ _ (fun t e n => by simp) _ n)
theorem execVclamp_sound (h : Sound φ s) (v : VWord) : EndsSound φ (execVclamp v s) := by
  simp only [execVclamp]
  exact vectorWord_sound h _ _ _ (fun n => runRepeat_same s ..)
theorem dotWord_sound (h : Sound φ s) (i : Instr) (v : VWord) (f : Int → Int → Int) : EndsSound φ (dotWord i v f s) := plainVector_sound h ..
theorem transWord_sound (h : Sound φ s) (i : Instr) (v : VWord) (f : Nat → Nat × Nat) : EndsSound φ (transWord i v f s) := elemWord_sound h ..

/-! ### Machine/VectorMask -/

theorem maskWord_sound (h : Sound φ s) (i : Instr) (v : VWord) (fm : VForm) (md : Nat) (mask : VEnv → Nat) :
    EndsSound φ (maskWord i v fm md mask s) := by
  simp only [maskWord]
  exact vectorWord_sound h _ _ _ (fun n => runWith_same s _ _ (fun t e n => by simp) _ n)
theorem maskToRow_sound (h : Sound φ s) (i : Instr) (v : VWord) (f : Nat → Nat → Int) : EndsSound φ (maskToRow i v f s) := by
  simp only [maskToRow]
  exact vectorWord_sound h _ _ _ (fun n => runRepeat_same s ..)

/-! ### Machine/VectorMem -/

theorem execVldc_sound (h : Sound φ s) (v : VWord) : EndsSound φ (execVldc v s) := by
  simp only [execVldc]
  refine vectorWord_sound h _ _ _ (fun n => ?_)
  split
  · exact .rfl
  · split
    · exact .rfl
    · split <;> simp
theorem execVstc_sound (h : Sound φ s) (v : VWord) : EndsSound φ (execVstc v s) := by
  simp only [execVstc]
  refine vectorWord_sound h _ _ _ (fun n => ?_)
  split
  · exact .rfl
  · split
    · exact .rfl
    · split
      · exact .rfl
      · next s1 row hr =>
        have h1 : SameStore s s1 := storeRow_same hr
        split <;> exact h1.trans (by simp)
theorem execVbld_sound (h : Sound φ s) (v : VWord) : EndsSound φ (execVbld v s) := by
  simp only [execVbld]
  refine vectorWord_sound h _ _ _ (fun n => ?_)
  split
  · exact .rfl
  · split
    · exact .rfl
    · (repeat' split) <;> simp
theorem execVbst_sound (h : Sound φ s) (v : VWord) : EndsSound φ (execVbst v s) := by
  simp only [execVbst]
  refine vectorWord_sound h _ _ _ (fun n => ?_)
  split
  · exact .rfl
  · split
    · exact .rfl
    · split
      · exact .rfl
      · split
        · exact .rfl
        · next s1 row hr =>
          have h1 : SameStore s s1 := storeRow_same hr
          split
          · exact .rfl
          · split <;> exact h1.trans (by simp)
theorem globalLoad_same {s : State} {c i : Nat} {v : VWord} {sel : List Bool} {n total : Nat} {parts : List (Nat × Nat)} {x : VOut}
    (h : globalLoad s c i v sel n total parts = x) : SameStore s x.state := by
  subst h
  simp only [globalLoad]
  split
  · exact .rfl
  · split
    · next ht => exact State.letIn_same ht
    · next ht => exact State.letIn_same ht
    · next ht =>
      have h1 := State.letIn_same ht
      split
      · exact h1
      · exact h1.trans (by simp)
theorem globalStore_same {s s1 : State} (h : SameStore s s1) {c i : Nat} {v : VWord} {n total : Nat} {row : List Byte} {sel : List Bool}
    {parts : List (Nat × Nat)} {x : VOut} (e : globalStore s c i v n total row sel parts s1 = x) : SameStore s x.state := by
  subst e
  simp only [globalStore]
  split
  · exact .rfl
  · split
    · simp
    · simp
    · next ht =>
      have h1 := h.trans (State.letIn_same ht)
      split <;> exact h1.trans (by simp)
theorem execVldg_sound (h : Sound φ s) (v : VWord) : EndsSound φ (execVldg v s) := by
  simp only [execVldg]
  refine vectorWord_sound h _ _ _ (fun n => ?_)
  split
  · exact .rfl
  · exact globalLoad_same rfl
theorem execVstg_sound (h : Sound φ s) (v : VWord) : EndsSound φ (execVstg v s) := by
  simp only [execVstg]
  refine vectorWord_sound h _ _ _ (fun n => ?_)
  split
  · exact .rfl
  · split
    · exact .rfl
    · next s1 row hr => exact globalStore_same (storeRow_same hr) rfl
theorem execVgth_sound (h : Sound φ s) (v : VWord) : EndsSound φ (execVgth v s) := by
  simp only [execVgth]
  refine vectorWord_sound h _ _ _ (fun n => ?_)
  split
  · exact .rfl
  · split
    · exact .rfl
    · next s1 b hb =>
      have h1 : SameStore s s1 := readSrc_same hb
      split
      · exact h1.trans (by simp)
      · split
        · next t q ht => exact (h1.trans (globalLoad_same ht)).trans (by simp)
        · simp
        · simp
theorem execVsct_sound (h : Sound φ s) (v : VWord) : EndsSound φ (execVsct v s) := by
  simp only [execVsct]
  refine vectorWord_sound h _ _ _ (fun n => ?_)
  split
  · exact .rfl
  · split
    · exact .rfl
    · next s1 row hr =>
      have h1 : SameStore s s1 := storeRow_same hr
      split
      · exact .rfl
      · next s2 b hb =>
        have h2 : SameStore s s2 := h1.trans (readSrc_same hb)
        split
        · exact h2.trans (by simp)
        · split
          · next t q ht => exact (globalStore_same h2 ht).trans (by simp)
          · exact globalStore_same h2 rfl
theorem execVaset_sound (h : Sound φ s) (v : VWord) : EndsSound φ (execVaset v s) := by
  simp only [execVaset]
  exact vectorWord_sound h _ _ _ (fun n => runWith_same s _ _ (fun t e n => by simp) _ n)
theorem execVaadd_sound (h : Sound φ s) (v : VWord) : EndsSound φ (execVaadd v s) := vectorWord_sound h _ _ _ (by simp)
theorem execVmpos_sound (h : Sound φ s) (v : VWord) : EndsSound φ (execVmpos v s) := by
  simp only [execVmpos]
  refine vectorWord_sound h _ _ _ (fun n => ?_)
  split
  · exact .rfl
  · split
    · exact .rfl
    · split
      · next ht => exact State.letIn_same ht
      · next ht => exact State.letIn_same ht
      · next ht => exact (State.letIn_same ht).trans (by simp)

/-! ### Machine/BankMoves -/

theorem bankCommand_sound (h : Sound φ s) (i : Instr) (kind : Nat) (ra : BitVec 5) (kb : BitVec 3) (pol : BitVec 1) :
    EndsSound φ (bankCommand i kind ra kb pol s) := scalarWord_sound h _ (by simp)
theorem execBkst_sound (h : Sound φ s) (g : BitVec 2) (d b : BitVec 5) : EndsSound φ (execBkst g d b s) := scalarWord_sound h _ (by simp)
theorem execBankProgramStart_sound (h : Sound φ s) : EndsSound φ (execBankProgramStart s) := by
  simp only [execBankProgramStart]
  (repeat' split) <;> exact h.keep (by simp)
theorem execMv_sound (h : Sound φ s) (src dst : BitVec 8) (imm : BitVec 16) : EndsSound φ (execMv src dst imm s) := by
  simp only [execMv]
  (repeat' split) <;> exact h.keep (by simp)

/-! ### Machine/VectorCtl -/

theorem execBlockStart_sound (h : Sound φ s) : EndsSound φ (execBlockStart s) := by
  simp only [execBlockStart]
  (repeat' split) <;> exact h.keep (by simp)
theorem execVend_sound (h : Sound φ s) (v : VWord) :
    EndsSound φ (execVend v s) := .branch (h.keep (by simp)) (finishVector_sound (h.keep (by simp)) ..)
theorem execVnop_sound (h : Sound φ s) (v : VWord) : EndsSound φ (execVnop v s) := vectorWord_sound h _ _ _ (by simp)
theorem execVtileWait_sound (h : Sound φ s) (v : VWord) : EndsSound φ (execVtileWait v s) := vectorWord_sound h _ _ _ (by simp)
theorem execVtileMark_sound (h : Sound φ s) (v : VWord) : EndsSound φ (execVtileMark v s) := vectorWord_sound h _ _ _ (by simp)

/-! ### Machine/Matrix -/

theorem matrixWord_sound (h : Sound φ s) (i : Instr) (w : MWord) (specOk bad : Bool) {f : State → Nat → Nat → MOut}
    (hf : ∀ n, SameStore s (f s s.curCore n).state) : EndsSound φ (matrixWord i w specOk bad s f) := by
  refine finishMatrix_sound (h.same ?_) _
  split
  · exact hf _
  · split
    · exact .rfl
    · split
      · exact .rfl
      · split
        · next out ho =>
          simp only [State.leaseOut] at ho
          split_ifs at ho <;> cases ho <;> exact .rfl
        · exact hf _
theorem execMlds_sound (h : Sound φ s) (w : MWord) : EndsSound φ (execMlds w s) := by
  simp only [execMlds]
  refine matrixWord_sound h _ _ _ _ (fun n => ?_)
  split
  · exact .rfl
  · next t f ht =>
    have h1 : SameStore s t := State.popFormat_same ht
    (repeat' split) <;> exact h1.trans (by simp)
theorem execMswap_sound (h : Sound φ s) (w : MWord) : EndsSound φ (execMswap w s) := by
  simp only [execMswap]
  refine matrixWord_sound h _ _ _ _ (fun n => ?_)
  (repeat' split) <;> simp
theorem execShadowPlaneLoaded_sound (h : Sound φ s) : EndsSound φ (execShadowPlaneLoaded s) := by
  simp only [execShadowPlaneLoaded]
  (repeat' split) <;> exact h.keep (by simp)
theorem execMstep_sound (h : Sound φ s) (w : MWord) : EndsSound φ (execMstep w s) := by
  simp only [execMstep]
  refine matrixWord_sound h _ _ _ _ (fun n => ?_)
  split
  · exact .rfl
  · next t f ht =>
    have h1 : SameStore s t := State.popFormat_same ht
    (repeat' split) <;> exact h1.trans (by simp)
theorem execMzero_sound (h : Sound φ s) (w : MWord) : EndsSound φ (execMzero w s) := by
  simp only [execMzero]
  refine matrixWord_sound h _ _ _ _ (fun n => ?_)
  (repeat' split) <;> simp
theorem execMatrixRowWrite_sound (h : Sound φ s) : EndsSound φ (execMatrixRowWrite s) := by
  simp only [execMatrixRowWrite]
  (repeat' split) <;> exact h.keep (by simp)
theorem execMdrain_sound (h : Sound φ s) (w : MWord) : EndsSound φ (execMdrain w s) := by
  simp only [execMdrain]
  refine matrixWord_sound h _ _ _ _ (fun n => ?_)
  split
  · exact .rfl
  · next t f ht =>
    have h1 : SameStore s t := State.popFormat_same ht
    exact h1.trans (by simp)
theorem execMflag_sound (h : Sound φ s) (w : MWord) : EndsSound φ (execMflag w s) := by
  simp only [execMflag]
  exact finishMatrix_sound (h.keep (by simp)) _
theorem execFullBitChange_sound (h : Sound φ s) : EndsSound φ (execFullBitChange s) := by
  simp only [execFullBitChange]
  (repeat' split) <;> exact h.keep (by simp)
theorem execMend_sound (h : Sound φ s) (w : MWord) :
    EndsSound φ (execMend w s) := .branch (h.keep (by simp)) (finishMatrix_sound (h.keep (by simp)) _)
theorem execMnop_sound (h : Sound φ s) (w : MWord) : EndsSound φ (execMnop w s) := finishMatrix_sound (h.keep (by simp)) _
theorem execMfreeEffect_sound (h : Sound φ s) : EndsSound φ (execMfreeEffect s) := by
  simp only [execMfreeEffect]
  (repeat' split) <;> exact h.keep (by simp)
theorem execSpecResolve_sound (h : Sound φ s) : EndsSound φ (execSpecResolve s) := by
  simp only [execSpecResolve]
  (repeat' split) <;> exact h.keep (by simp)
theorem execLeaseGrant_sound (h : Sound φ s) : EndsSound φ (execLeaseGrant s) := by
  simp only [execLeaseGrant]
  (repeat' split) <;> exact h.keep (by simp)

/-! ### Machine/Copy -/

theorem execDescriptorStart_sound (h : Sound φ s) : EndsSound φ (execDescriptorStart s) := by
  simp only [execDescriptorStart]
  (repeat' split) <;> exact h.keep (by simp)
theorem execCopyChunkTranslation_sound (h : Sound φ s) : EndsSound φ (execCopyChunkTranslation s) := by
  simp only [execCopyChunkTranslation]
  split
  · split
    · split
      · exact h
      · split
        · exact h.keep (by simp)
        · exact h.keep (by simp)
        · generalize hu : List.foldl _ s _ = u
          have hs : SameStore s u := hu ▸ .foldl _ (fun t p => by split <;> simp) _ s
          exact (h.same hs).keep (State.postCopy_store ..)
    · exact h
  · exact h
theorem execCopyWord_sound (h : Sound φ s) : EndsSound φ (execCopyWord s) := by
  simp only [execCopyWord]
  (repeat' split) <;> exact h.keep (by simp)
@[simp] theorem queueCopy_store (s : State) (c : Nat) (d : CopyDesc) :
    (queueCopy s c d).state.mem = s.mem ∧ (queueCopy s c d).state.fuse = s.fuse := by simp [queueCopy]
@[simp] theorem copyChecks_store (s : State) (c : Nat) (d : CopyDesc) :
    (copyChecks s c d).state.mem = s.mem ∧ (copyChecks s c d).state.fuse = s.fuse := by
  unfold copyChecks
  split <;> simp
theorem execCpy_sound (h : Sound φ s) (g : BitVec 2) (a : BitVec 5) : EndsSound φ (execCpy g a s) := scalarWord_sound h _ (by simp)
theorem execCpys_sound (h : Sound φ s) (g : BitVec 2) (a b : BitVec 5) : EndsSound φ (execCpys g a b s) := scalarWord_sound h _ (by simp)
theorem execDrain_sound (h : Sound φ s) (g : BitVec 2) (p : BitVec 4) : EndsSound φ (execDrain g p s) := scalarWord_sound h _ (by simp)

/-! ### Machine/Results -/

theorem execScalarResult_sound (h : Sound φ s) : EndsSound φ (execScalarResult s) := by
  unfold execScalarResult
  split <;> exact h.keep (by simp)
theorem execVectorResult_sound (h : Sound φ s) : EndsSound φ (execVectorResult s) := by
  unfold execVectorResult
  split <;> exact h.keep (by simp)
theorem execPromiseExpiry_sound (h : Sound φ s) : EndsSound φ (execPromiseExpiry s) := by
  simp only [execPromiseExpiry]
  (repeat' split) <;> exact h.keep (by simp)
theorem execStallRelease_sound (h : Sound φ s) : EndsSound φ (execStallRelease s) := by
  unfold execStallRelease
  split <;> exact h.keep (by simp)
theorem execPageWalk_sound (h : Sound φ s) : EndsSound φ (execPageWalk s) := by
  simp only [execPageWalk]
  (repeat' split) <;> exact h.keep (by simp)

/-! ### Machine/Perform -/

theorem execGlobalPerform_sound (h : Sound φ s) : EndsSound φ (execGlobalPerform s) := by
  simp only [execGlobalPerform]
  split
  · split
    · exact Sound.branch (h.keep (by simp)) (.branch (h.keep (by simp)) (h.perform _))
    · exact h
  · split
    · split
      · exact h.keep (by simp)
      · exact h
    · exact h
  · exact h
  · exact h.farPerform ..
  · exact h
theorem execGlobalResultReturn_sound (h : Sound φ s) : EndsSound φ (execGlobalResultReturn s) := by
  simp only [execGlobalResultReturn]
  (repeat' split) <;> exact h.keep (by simp)

/-! ### Machine/ScalarSys -/

theorem execQpush_sound (h : Sound φ s) (g : BitVec 2) (r : BitVec 5) (q : BitVec 4) :
    EndsSound φ (execQpush g r q s) := scalarWord_sound h _ (by simp)
theorem qreadWord_sound (h : Sound φ s) (i : Instr) (r : BitVec 5) (q : BitVec 4) (pop : Bool) :
    EndsSound φ (qreadWord i r q pop s) := scalarWord_sound h _ (by simp)
theorem execQcnt_sound (h : Sound φ s) (g : BitVec 2) (r : BitVec 5) (q : BitVec 4) : EndsSound φ (execQcnt g r q s) := scalarWord_sound h _ (by simp)
theorem execBlk_sound (h : Sound φ s) (g : BitVec 2) (q sp : BitVec 1) (t : BitVec 3) (n : BitVec 6) (a : BitVec 13) :
    EndsSound φ (execBlk g q sp t n a s) := scalarWord_sound h _ (by simp)
theorem resolveWord_sound (h : Sound φ s) (i : Instr) (commit : Bool) (t : BitVec 3) :
    EndsSound φ (resolveWord i commit t s) := scalarWord_sound h _ (by simp)
theorem execWait_sound (h : Sound φ s) (g : BitVec 2) (n : BitVec 24) : EndsSound φ (execWait g n s) := scalarWord_sound h _ (by simp)
theorem execAnchor_sound (h : Sound φ s) (g : BitVec 2) : EndsSound φ (execAnchor g s) := scalarWord_sound h _ (by simp)
theorem execTnow_sound (h : Sound φ s) (g : BitVec 2) (d : BitVec 5) : EndsSound φ (execTnow g d s) := scalarWord_sound h _ (by simp)
theorem execBnow_sound (h : Sound φ s) (g : BitVec 2) (d : BitVec 5) : EndsSound φ (execBnow g d s) := scalarWord_sound h _ (by simp)
theorem execBtset_sound (h : Sound φ s) (g : BitVec 2) (a : BitVec 5) : EndsSound φ (execBtset g a s) := scalarWord_sound h _ (by simp)
theorem execMlease_sound (h : Sound φ s) (g : BitVec 2) (n : BitVec 8) : EndsSound φ (execMlease g n s) := scalarWord_sound h _ (by simp)
theorem execMfree_sound (h : Sound φ s) (g : BitVec 2) : EndsSound φ (execMfree g s) := scalarWord_sound h _ (by simp)
theorem execNop_sound (h : Sound φ s) (g : BitVec 2) : EndsSound φ (execNop g s) := scalarWord_sound h _ (by simp)
theorem trapWord_sound (h : Sound φ s) (i : Instr) (code : Nat) (n : BitVec 15) : EndsSound φ (trapWord i code n s) := scalarWord_sound h _ (by simp)
theorem execGets_sound (h : Sound φ s) (g : BitVec 2) (d : BitVec 5) (sel : BitVec 11) (lvl : BitVec 4) : EndsSound φ (execGets g d sel lvl s) := by
  refine scalarWord_sound h _ (guardRegs_same ?_)
  split <;> simp
theorem execPuts_sound (h : Sound φ s) (g : BitVec 2) (r : BitVec 5) (sel : BitVec 11) (lvl : BitVec 4) :
    EndsSound φ (execPuts g r sel lvl s) := scalarWord_sound h _ (by simp)
theorem execSwap_sound (h : Sound φ s) (g : BitVec 2) (a : BitVec 5) (m : BitVec 9) : EndsSound φ (execSwap g a m s) := scalarWord_sound h _ (by simp)
theorem execHalt_sound (h : Sound φ s) (g : BitVec 2) (m : BitVec 9) : EndsSound φ (execHalt g m s) := scalarWord_sound h _ (by simp)

/-! ### Machine/Collect -/

theorem execTtset_sound (h : Sound φ s) (g : BitVec 2) (e : BitVec 6) (a : BitVec 5) :
    EndsSound φ (execTtset g e a s) := scalarWord_sound h _ (by simp)
theorem execTrdy_sound (h : Sound φ s) (g : BitVec 2) (e : BitVec 6) : EndsSound φ (execTrdy g e s) := by
  refine scalarWord_sound h _ ?_
  dsimp only
  split <;> simp
theorem execClx_sound (h : Sound φ s) (g : BitVec 2) (e : BitVec 6) (a : BitVec 5) : EndsSound φ (execClx g e a s) := by
  refine scalarWord_sound h _ (guardRegs_same ?_)
  dsimp only
  split <;> simp
theorem execCombineWrite_sound (h : Sound φ s) : EndsSound φ (execCombineWrite s) := by
  unfold execCombineWrite
  split <;> exact h.keep (by simp)
theorem execEntryFire_sound (h : Sound φ s) : EndsSound φ (execEntryFire s) := by
  simp only [execEntryFire]
  (repeat' split) <;> exact h.keep (by simp)
theorem execPieceArrival_sound (h : Sound φ s) : EndsSound φ (execPieceArrival s) := by
  simp only [execPieceArrival]
  (repeat' split) <;> exact h.keep (by simp)
theorem execSlotFreeNotice_sound (h : Sound φ s) : EndsSound φ (execSlotFreeNotice s) := by
  unfold execSlotFreeNotice
  split <;> exact h.keep (by simp)
theorem execSbset_sound (h : Sound φ s) (g : BitVec 2) (a : BitVec 5) : EndsSound φ (execSbset g a s) := scalarWord_sound h _ (by simp)
theorem execPostBitArrival_sound (h : Sound φ s) : EndsSound φ (execPostBitArrival s) := by
  simp only [execPostBitArrival]
  (repeat' split) <;> exact h.keep (by simp)
theorem execFiringComplete_sound (h : Sound φ s) : EndsSound φ (execFiringComplete s) := by
  simp only [execFiringComplete]
  (repeat' split) <;> exact h.keep (by simp)
theorem execSemaphoreHandoff_sound (h : Sound φ s) : EndsSound φ (execSemaphoreHandoff s) := by
  unfold execSemaphoreHandoff
  split <;> exact h.keep (by simp)
theorem execSbarm_sound (h : Sound φ s) (g : BitVec 2) (t : BitVec 3) (a b : BitVec 5) :
    EndsSound φ (execSbarm g t a b s) := scalarWord_sound h _ (by simp)
theorem execTriggerFire_sound (h : Sound φ s) : EndsSound φ (execTriggerFire s) := by
  simp only [execTriggerFire]
  split
  · generalize hr : List.foldl _ (s, false) _ = r
    have hs : SameStore s r.1 := hr ▸ State.foldl_fst_same _ (fun acc i => by
      split
      · split
        · exact .rfl
        · next ht => exact (State.triggerAct_same ht).trans (by simp)
      · exact .rfl) _ (s, false)
    exact Sound.branch ((h.same hs).keep (State.checkTriggers_store ..)) (h.same hs)
  · next gen t _ => cases s.launch? gen <;> exact h.keep (by simp)
  · exact h
theorem execDrainDelivery_sound (h : Sound φ s) : EndsSound φ (execDrainDelivery s) := by
  simp only [execDrainDelivery]
  (repeat' split) <;> exact h.keep (by simp)

/-! ### Machine/Ordering -/

theorem execFence_sound (h : Sound φ s) (g : BitVec 2) (d m : BitVec 4) : EndsSound φ (execFence g d m s) := by
  refine scalarWord_sound h _ ?_
  dsimp only
  split
  · exact .rfl
  · simp
@[simp] theorem State.waitPart_store (s : State) (c part lat : Nat) :
    (s.waitPart c part lat).state.mem = s.mem ∧ (s.waitPart c part lat).state.fuse = s.fuse := ⟨rfl, rfl⟩
@[simp] theorem waitNear_store (s : State) (c : Nat) (hit bad : Bool) (lat : Nat) :
    (waitNear s c hit bad lat).state.mem = s.mem ∧ (waitNear s c hit bad lat).state.fuse = s.fuse := by simp [waitNear]
theorem waitGlobal_same (s : State) (c : Nat) (va : Word64) : SameStore s (waitGlobal s c va).state := by
  simp only [waitGlobal]
  split
  · next ht => exact (State.letIn_same ht).trans (by simp)
  · next ht => exact State.letIn_same ht
  · next ht => exact State.letIn_same ht
  · next ht => exact State.letIn_same ht
theorem execWaitm_sound (h : Sound φ s) (g : BitVec 2) (a b : BitVec 5) (sp : BitVec 2) (cd : BitVec 3) : EndsSound φ (execWaitm g a b sp cd s) := by
  refine scalarWord_sound h _ (guardRegs_same ?_)
  dsimp only
  generalize hu : (if (s.core s.curCore).sc.fwd.isEmpty then _ else s) = u
  have hs : SameStore s u := by rw [← hu]; simp
  split
  · exact hs
  · split
    · exact hs
    · split
      · split
        · split
          · exact hs.trans (by simp)
          · split
            · exact hs.trans (by simp)
            · split
              · exact hs.trans (.trans (by simp) (waitGlobal_same ..))
              · exact hs.trans (by simp)
        · exact hs
      · split
        · split <;> exact hs.trans (by simp)
        · split
          · exact hs
          · split
            · split <;> exact hs.trans (by simp)
            · exact hs.trans (waitGlobal_same ..)
theorem execBarrierComplete_sound (h : Sound φ s) : EndsSound φ (execBarrierComplete s) := by
  simp only [execBarrierComplete]
  (repeat' split) <;> exact h.keep (by simp)
@[simp] theorem barWait_store (s : State) (c bar d x : Nat) (key : BarKey) :
    (barWait s c bar d x key).state.mem = s.mem ∧ (barWait s c bar d x key).state.fuse = s.fuse := by simp [barWait]
@[simp] theorem barFirst_store (s : State) (c bar d x : Nat) (key : BarKey) :
    (barFirst s c bar d x key).state.mem = s.mem ∧ (barFirst s c bar d x key).state.fuse = s.fuse := by simp [barFirst]
theorem execBar_sound (h : Sound φ s) (g : BitVec 2) (d : BitVec 4) (n : BitVec 6) : EndsSound φ (execBar g d n s) := by
  refine scalarWord_sound h _ ?_
  dsimp only
  split <;> simp
theorem execBara_sound (h : Sound φ s) (g : BitVec 2) (d : BitVec 4) (n : BitVec 6) : EndsSound φ (execBara g d n s) := by
  refine scalarWord_sound h _ ?_
  dsimp only
  split <;> simp
theorem execBarw_sound (h : Sound φ s) (g : BitVec 2) (d : BitVec 4) (n : BitVec 6) : EndsSound φ (execBarw g d n s) := by
  refine scalarWord_sound h _ ?_
  dsimp only
  split <;> simp

/-! ### Machine/Open -/

theorem execKqOpenBundle_sound (h : Sound φ s) : EndsSound φ (execKqOpenBundle s) := by
  have hd : Sound φ s.drawn := h.keep (by simp)
  simp only [execKqOpenBundle]
  split
  · split
    · exact h.keep (by simp)
    · split
      · exact h.keep (by simp)
      · split
        · next ht => exact (hd.openBundle ht).keep (State.callReturn_store ..)
        · exact h.keep (by simp)
  · exact h.keep (by simp)

/-! ### Machine/Launch -/

theorem execKqLaunch_sound (h : Sound φ s) : EndsSound φ (execKqLaunch s) := by
  simp only [execKqLaunch]
  (repeat' split) <;> exact h.keep (by simp)
theorem execKqWait_sound (h : Sound φ s) : EndsSound φ (execKqWait s) := by
  simp only [execKqWait]
  (repeat' split) <;> exact h.keep (by simp)
theorem execKqWaitTimeout_sound (h : Sound φ s) : EndsSound φ (execKqWaitTimeout s) := by
  simp only [execKqWaitTimeout]
  (repeat' split) <;> exact h.keep (by simp)
theorem execKqQueuePrio_sound (h : Sound φ s) : EndsSound φ (execKqQueuePrio s) := by
  simp only [execKqQueuePrio]
  (repeat' split) <;> exact h.keep (by simp)
theorem execKqGraphNew_sound (h : Sound φ s) : EndsSound φ (execKqGraphNew s) := by
  simp only [execKqGraphNew]
  (repeat' split) <;> exact h.keep (by simp)
theorem execKqGraphEdit_sound (h : Sound φ s) : EndsSound φ (execKqGraphEdit s) := by
  simp only [execKqGraphEdit]
  (repeat' split) <;> exact h.keep (by simp)
theorem execKqGraphRun_sound (h : Sound φ s) : EndsSound φ (execKqGraphRun s) := by
  simp only [execKqGraphRun]
  (repeat' split) <;> exact h.keep (by simp)
theorem execLaunchComplete_sound (h : Sound φ s) : EndsSound φ (execLaunchComplete s) := by
  simp only [execLaunchComplete]
  split
  · split
    · next l _ =>
      refine .branch h ?_
      generalize hu : (if l.pkt.status = 0 then _ else State.procWrite _ _ _ _) = u
      have hs : Sound φ u := by
        rw [← hu]
        exact .branch (h.keep (by simp)) (Sound.procWrite (h.keep (by simp)) ..)
      generalize l.graphRun = r
      cases r <;> exact hs.keep (by simp)
    · exact h
  · exact h
theorem execMultiPackagePacket_sound (h : Sound φ s) : EndsSound φ (execMultiPackagePacket s) := by
  simp only [execMultiPackagePacket]
  (repeat' split) <;> exact h.keep (by simp)

/-! ### Machine/Traps -/

theorem execKresume_sound (h : Sound φ s) (rs1 : BitVec 5) : EndsSound φ (execKresume rs1 s) := hartWord_sound h (by split <;> simp)
theorem execRelease_sound (h : Sound φ s) : EndsSound φ (execRelease s) := by
  simp only [execRelease]
  (repeat' split) <;> exact h.keep (by simp)
theorem execTrapWindowDelivery_sound (h : Sound φ s) : EndsSound φ (execTrapWindowDelivery s) := by
  simp only [execTrapWindowDelivery]
  (repeat' split) <;> exact h.keep (by simp)
theorem execHandlerReturn_sound (h : Sound φ s) : EndsSound φ (execHandlerReturn s) := by
  simp only [execHandlerReturn]
  split
  · split
    · rename_i x _ _
      generalize Option.bind _ _ = t
      cases t <;> exact h.keep (by simp)
    · exact h
  · exact h

/-! ### Machine/Preempt -/

theorem execRetirementReport_sound (h : Sound φ s) : EndsSound φ (execRetirementReport s) := by
  unfold execRetirementReport
  split <;> exact h.keep (by simp)
theorem execAbort_sound (h : Sound φ s) : EndsSound φ (execAbort s) := by
  simp only [execAbort]
  (repeat' split) <;> exact h.keep (by simp)
theorem execPreemption_sound (h : Sound φ s) : EndsSound φ (execPreemption s) := by
  simp only [execPreemption]
  (repeat' split) <;> exact h.keep (by simp)
theorem execEngineAck_sound (h : Sound φ s) : EndsSound φ (execEngineAck s) := by
  simp only [execEngineAck]
  (repeat' split) <;> exact h.keep (by simp)
theorem execContextSaveComplete_sound (h : Sound φ s) : EndsSound φ (execContextSaveComplete s) := by
  simp only [execContextSaveComplete]
  split
  · next gen die _ =>
    have h0 : Sound φ (s.endIfFinal gen) := h.keep (by simp)
    have h1 (l : List Stope) : Sound φ (l.foldl (fun u t => (u.saveStope t).unbindStope t) (s.endIfFinal gen)) :=
      .foldl _ (fun t x ht => (ht.saveStope x).keep (State.unbindStope_store ..)) _ h0
    have hs := h1 ((s.stopesOf gen).filter (fun t => t.die == die))
    generalize List.foldl _ (s.endIfFinal gen) _ = u at hs ⊢
    split
    · (repeat' split) <;> exact hs.keep (by simp)
    · exact hs
  · exact h
theorem execRetirement_sound (h : Sound φ s) : EndsSound φ (execRetirement s) := by
  simp only [execRetirement]
  (repeat' split) <;> exact h.keep (by simp)

/-! ### Machine/Banksman -/

theorem execBankEviction_sound (h : Sound φ s) : EndsSound φ (execBankEviction s) := by
  simp only [execBankEviction]
  split
  · next c _ =>
    generalize hu : s.evictBanks c = u
    have h1 : Sound φ u := hu ▸ h.evictBanks c
    split <;> exact h1.keep (by simp)
  · exact h
theorem execSelection_sound (h : Sound φ s) : EndsSound φ (execSelection s) := by
  simp only [execSelection]
  (repeat' split) <;> exact h.keep (by simp)
theorem execReady_sound (h : Sound φ s) : EndsSound φ (execReady s) := by
  unfold execReady
  split <;> exact h.keep (by simp)
theorem execOverlayLoad_sound (h : Sound φ s) : EndsSound φ (execOverlayLoad s) := by
  simp only [execOverlayLoad]
  (repeat' split) <;> exact h.keep (by simp)
theorem execStartPulse_sound (h : Sound φ s) : EndsSound φ (execStartPulse s) := by
  simp only [execStartPulse]
  (repeat' split) <;> exact h.keep (by simp)
theorem execPreemptionInterval_sound (h : Sound φ s) : EndsSound φ (execPreemptionInterval s) := by
  simp only [execPreemptionInterval]
  (repeat' split) <;> exact h.keep (by simp)

/-! ### Machine/Generation -/

theorem execDsPerform_sound (h : Sound φ s) : EndsSound φ (execDsPerform s) := by
  simp only [execDsPerform]
  split
  · split
    · exact Sound.branch h (h.dsUpTo ..)
    · exact h
  · generalize s.dsops.find? _ = o
    cases o <;> exact h.keep (by simp)
  · exact h.dsFar ..
  · split <;> exact h.keep (by simp)
  · exact h
@[simp] theorem dsIssue_store (s : State) (c op cur : Nat) (rd : BitVec 5) (a b : Word64) :
    (dsIssue s c op cur rd a b).state.mem = s.mem ∧ (dsIssue s c op cur rd a b).state.fuse = s.fuse := by
  simp only [dsIssue]
  split <;> simp
theorem execDsadmit_sound (h : Sound φ s) (g : BitVec 2) (d : BitVec 5) : EndsSound φ (execDsadmit g d s) := scalarWord_sound h _ (by simp)
theorem execDsemit_sound (h : Sound φ s) (g : BitVec 2) (a : BitVec 5) : EndsSound φ (execDsemit g a s) := scalarWord_sound h _ (by simp)
theorem execDstrunc_sound (h : Sound φ s) (g : BitVec 2) (d : BitVec 5) : EndsSound φ (execDstrunc g d s) := scalarWord_sound h _ (by simp)
theorem execDscur_sound (h : Sound φ s) (g : BitVec 2) (d : BitVec 5) (x : BitVec 2) :
    EndsSound φ (execDscur g d x s) := scalarWord_sound h _ (by simp)
theorem execKvinv_sound (h : Sound φ s) (g : BitVec 2) (a b : BitVec 5) : EndsSound φ (execKvinv g a b s) := scalarWord_sound h _ (by simp)
theorem execKvaccept_sound (h : Sound φ s) (g : BitVec 2) (a b : BitVec 5) : EndsSound φ (execKvaccept g a b s) := scalarWord_sound h _ (by simp)
theorem execKvcommit_sound (h : Sound φ s) (g : BitVec 2) (d : BitVec 5) : EndsSound φ (execKvcommit g d s) := scalarWord_sound h _ (by simp)
theorem execFramePublish_sound (h : Sound φ s) : EndsSound φ (execFramePublish s) := by
  simp only [execFramePublish]
  split
  · split
    · split
      · exact h.keep (by simp)
      · exact (h.playbackWrite ..).playbackWrite ..
    · exact h
  · exact h
theorem execPlaybackCursorWrite_sound (h : Sound φ s) : EndsSound φ (execPlaybackCursorWrite s) := by
  simp only [execPlaybackCursorWrite]
  split
  · split
    · exact h.playbackWrite ..
    · exact h
  · exact h

/-! ### Machine/Calls -/

theorem execNoCall_sound (h : Sound φ s) : EndsSound φ (execNoCall s) := h.keep (by simp)
theorem execKqMemAlloc_sound (h : Sound φ s) : EndsSound φ (execKqMemAlloc s) := by
  simp only [execKqMemAlloc]
  split
  · exact h.keep (by simp)
  · split
    · exact h.keep (by simp)
    · split
      · exact h.keep (by simp)
      · next t va _ ht =>
        have h1 : Sound φ t := h.same (State.allocRange_same ht)
        split
        · split
          · exact h1.keep (by simp)
          · exact h.keep (by simp)
        · exact h1.keep (by simp)
theorem execKqMemFree_sound (h : Sound φ s) : EndsSound φ (execKqMemFree s) := by
  simp only [execKqMemFree]
  (repeat' split) <;> exact h.keep (by simp)
theorem memMap_sound (h : Sound φ s) (free : Bool) {f : State → Proc → Nat → Nat → List Nat → State}
    (hf : ∀ t p a n l, SameStore t (f t p a n l)) : EndsSound φ (memMap s free f) := by
  simp only [memMap]
  split
  · exact h.keep (by simp)
  · split
    · exact h.keep (by simp)
    · split
      · exact h.same (hf ..)
      · exact Sound.same (h.keep (by simp)) (hf ..)
theorem execKqMemMapWritable_sound (h : Sound φ s) :
    EndsSound φ (execKqMemMapWritable s) := .branch (h.keep (by simp)) (memMap_sound h _ (fun _ _ _ _ _ => by simp))
theorem execKqMemMapPin_sound (h : Sound φ s) : EndsSound φ (execKqMemMapPin s) := memMap_sound h _ (fun _ _ _ _ _ => by dsimp only; split <;> simp)
theorem execKqMemMapUnpin_sound (h : Sound φ s) : EndsSound φ (execKqMemMapUnpin s) := memMap_sound h _ (fun _ _ _ _ _ => by simp)

/-- Starting the migration of page after page, as far as it goes. -/
theorem State.migrateAll_same {s t : State} {p : Proc} {home : Nat} {l : List (Nat × Nat × Word64)}
    (h : l.foldl (fun (acc : Option State) x => acc.bind (fun t => t.startMigration p x home)) (some s) = some t) : SameStore s t := by
  have hn (l : List (Nat × Nat × Word64)) : l.foldl (fun (acc : Option State) x => acc.bind (fun t => t.startMigration p x home)) none = none := by
    induction l with
    | nil => rfl
    | cons x l ih => exact ih
  induction l generalizing s with
  | nil => cases h; exact .rfl
  | cons x l ih =>
    rw [List.foldl_cons, Option.bind_some] at h
    cases e : s.startMigration p x home with
    | none => rw [e, hn] at h; cases h
    | some u => rw [e] at h; exact (State.startMigration_same e).trans (ih h)
theorem execKqMemMapMigrate_sound (h : Sound φ s) : EndsSound φ (execKqMemMapMigrate s) := by
  refine .branch (h.keep (by simp)) (memMap_sound h _ (fun t p a n l => ?_))
  dsimp only
  split
  · next u hu => exact (State.migrateAll_same hu).trans (by simp)
  · simp
theorem execPageMigration_sound (h : Sound φ s) : EndsSound φ (execPageMigration s) := by
  simp only [execPageMigration]
  split
  · split
    · split
      · exact (h.copyLine ..).keep ⟨rfl, rfl⟩
      · exact h
    · exact h
  · exact h
theorem execKqSeamAllocReserve_sound (h : Sound φ s) : EndsSound φ (execKqSeamAllocReserve s) := by
  unfold execKqSeamAllocReserve
  split <;> exact h.keep (by simp)
theorem execKqSeamAllocRelease_sound (h : Sound φ s) : EndsSound φ (execKqSeamAllocRelease s) := by
  simp only [execKqSeamAllocRelease]
  (repeat' split) <;> exact h.keep (by simp)
theorem execKqStreamOpen_sound (h : Sound φ s) : EndsSound φ (execKqStreamOpen s) := by
  have hw {t : State} (ht : Sound φ t) {α : Type} (l : List α) (sp : Nat) (va : α → Nat) (d : α → List Byte) :
      Sound φ (l.foldl (fun u a => u.procWrite sp (va a) (d a)) t) := .foldl _ (fun u a hu => hu.procWrite ..) l ht
  simp only [execKqStreamOpen]
  split
  · split
    · exact h.keep (by simp)
    · refine Sound.keep ?_ (State.callReturn_store ..)
      refine Sound.keep ?_ (State.modProc_store ..)
      refine Sound.keep (s := State.procWrite (State.procWrite _ _ _ _) _ _ _) ?_ ⟨rfl, rfl⟩
      exact (((hw (hw h ..) ..).procWrite ..).procWrite ..).procWrite ..
  · exact h.keep (by simp)
theorem execKqStreamClose_sound (h : Sound φ s) : EndsSound φ (execKqStreamClose s) := by
  simp only [execKqStreamClose]
  split
  · exact (h.closeStream ..).keep (State.callOk_store ..)
  · exact h.keep (by simp)
theorem execKqPlanRegister_sound (h : Sound φ s) : EndsSound φ (execKqPlanRegister s) := by
  simp only [execKqPlanRegister]
  (repeat' split) <;> exact h.keep (by simp)
theorem execPlanSlotsReserved_sound (h : Sound φ s) : EndsSound φ (execPlanSlotsReserved s) := by
  simp only [execPlanSlotsReserved]
  (repeat' split) <;> exact h.keep (by simp)
theorem execKqPlanRelease_sound (h : Sound φ s) : EndsSound φ (execKqPlanRelease s) := by
  simp only [execKqPlanRelease]
  (repeat' split) <;> exact h.keep (by simp)
theorem execKqFaultHandler_sound (h : Sound φ s) : EndsSound φ (execKqFaultHandler s) := by
  simp only [execKqFaultHandler]
  (repeat' split) <;> exact h.keep (by simp)
theorem fileCall_sound (h : Sound φ s) (kind : Nat) : EndsSound φ (fileCall s kind) := by
  simp only [fileCall]
  (repeat' split) <;> exact h.keep (by simp)
theorem execPortPageFault_sound (h : Sound φ s) : EndsSound φ (execPortPageFault s) := by
  simp only [execPortPageFault]
  split
  · split
    · split <;> exact h.keep (by simp)
    · exact h
  · exact Sound.branch (h.netGo _) h
  · exact h
theorem execStorageTransferComplete_sound (h : Sound φ s) : EndsSound φ (execStorageTransferComplete s) := by
  simp only [execStorageTransferComplete]
  split
  · split
    · exact h.keep (by simp)
    · split
      · exact h.keep (by simp)
      · split
        · refine Sound.keep (Sound.foldl _ (fun t x ht => ht.writeHome ..) _ ?_) (State.endPending_store ..)
          exact h.keep ⟨rfl, rfl⟩
        · exact h.keep (by simp)
    · exact h
  · exact h
theorem execStorageCommandTimeout_sound (h : Sound φ s) : EndsSound φ (execStorageCommandTimeout s) := by
  simp only [execStorageCommandTimeout]
  (repeat' split) <;> exact h.keep (by simp)
theorem execKqAttest_sound (h : Sound φ s) : EndsSound φ (execKqAttest s) := by
  have hd : Sound φ s.drawn := h.keep (by simp)
  simp only [execKqAttest]
  split
  · split
    · exact h.keep (by simp)
    · exact (hd.procWrite ..).keep (State.callReturn_store ..)
  · exact h.keep (by simp)
theorem execKqExit_sound (h : Sound φ s) : EndsSound φ (execKqExit s) := by
  simp only [execKqExit]
  generalize hu : List.foldl State.cancelLaunch s _ = u
  have h1 : Sound φ u := h.keep (by rw [← hu]; simp)
  generalize hv : List.foldl _ u _ = v
  have h2 : Sound φ v := hv ▸ Sound.foldl _ (fun t x ht => ht.closeStream ..) _ h1
  exact h2.keep (by simp)

/-! ### Machine/Module -/

theorem execModuleReset_sound (h : Sound φ s) : EndsSound φ (execModuleReset s) := by
  have ht : Sound φ s.afterReset := h.keep (by simp)
  simp only [execModuleReset]
  split <;> exact ht.bootFrom _
theorem execDoor_sound (h : Sound φ s) : EndsSound φ (execDoor s) := by
  simp only [execDoor]
  split
  · split
    · exact h.keep (by simp)
    · exact .branch (h.bootFrom _) h
  · exact h
theorem execRegisterWrite_sound (h : Sound φ s) : EndsSound φ (execRegisterWrite s) := by
  simp only [execRegisterWrite]
  (repeat' split) <;> exact h.keep (by simp)
theorem execDebugUnlock_sound (h : Sound φ s) : EndsSound φ (execDebugUnlock s) := by
  unfold execDebugUnlock
  split <;> exact h.keep (by simp)
theorem execDebugFreeze_sound (h : Sound φ s) : EndsSound φ (execDebugFreeze s) := by
  unfold execDebugFreeze
  split <;> exact h.keep (by simp)
theorem execModuleLimitSet_sound (h : Sound φ s) : EndsSound φ (execModuleLimitSet s) := by
  simp only [execModuleLimitSet]
  (repeat' split) <;> exact h.keep (by simp)
theorem execThermalLevelChange_sound (h : Sound φ s) : EndsSound φ (execThermalLevelChange s) := by
  unfold execThermalLevelChange
  split <;> exact h.keep (by simp)
theorem execThermalLimitStep_sound (h : Sound φ s) : EndsSound φ (execThermalLimitStep s) := h.keep (by simp)
theorem execThermalTrip_sound (h : Sound φ s) : EndsSound φ (execThermalTrip s) := h.keep (by simp)
theorem execPtpOffsetLoss_sound (h : Sound φ s) : EndsSound φ (execPtpOffsetLoss s) := h.keep (by simp)
theorem execPtpOffsetRecovery_sound (h : Sound φ s) : EndsSound φ (execPtpOffsetRecovery s) := h.keep (by simp)
theorem execLinkTraining_sound (h : Sound φ s) : EndsSound φ (execLinkTraining s) := by
  simp only [execLinkTraining]
  (repeat' split) <;> exact h.keep (by simp)
theorem execWindowBoundary_sound (h : Sound φ s) : EndsSound φ (execWindowBoundary s) := by
  have h1 {t : State} (ht : Sound φ t) (l : List Nat) : Sound φ (l.foldl State.migrateAt t) := .foldl _ (fun u i hu => hu.migrateAt i) l ht
  have h2 {t : State} (ht : Sound φ t) : Sound φ t.askSelection.serveAll := ht.keep (by simp)
  refine h2 (h1 ?_ _)
  exact h.keep (by simp)

/-! ### Machine/Headframe -/

theorem execKtlbi_sound (h : Sound φ s) (rs1 rs2 : BitVec 5) : EndsSound φ (execKtlbi rs1 rs2 s) := hartWord_sound h (by simp)
theorem execKtlbf_sound (h : Sound φ s) : EndsSound φ (execKtlbf s) := hartWord_sound h (by simp)
theorem execTlbShootdownComplete_sound (h : Sound φ s) : EndsSound φ (execTlbShootdownComplete s) := by
  simp only [execTlbShootdownComplete]
  (repeat' split) <;> exact h.keep (by simp)
theorem execHartWrite_sound (h : Sound φ s) : EndsSound φ (execHartWrite s) := by
  simp only [execHartWrite]
  split
  · exact h.masterWrite ..
  · split
    · exact .branch h (.branch (h.keep (by simp)) (.branch (h.keep (by simp)) (h.hartAtomic ..)))
    · exact h
  · exact h
theorem execHostWrite_sound (h : Sound φ s) : EndsSound φ (execHostWrite s) := by
  simp only [execHostWrite]
  split
  · exact Sound.branch (h.netWrite ..) (h.masterWrite ..)
  · exact h.goOnDeferred
  · exact h
theorem execSoftError_sound (h : Sound φ s) : EndsSound φ (execSoftError s) := by
  simp only [execSoftError]
  (repeat' split) <;> exact h.keep (by simp)
theorem execParityError_sound (h : Sound φ s) : EndsSound φ (execParityError s) := by
  unfold execParityError
  split <;> exact h.keep (by simp)
theorem execUnitFailure_sound (h : Sound φ s) : EndsSound φ (execUnitFailure s) := by
  simp only [execUnitFailure]
  (repeat' split) <;> exact h.keep (by simp)

/-! ### Machine/VectorConvert -/

theorem execVqmx_sound (h : Sound φ s) (v : VWord) : EndsSound φ (execVqmx v s) := by
  simp only [execVqmx]
  refine vectorWord_sound h _ _ _ (fun n => ?_)
  split
  · exact .rfl
  · exact runWith_same s _ _ (fun t e n => by simp) _ _
theorem execVunt5_sound (h : Sound φ s) (v : VWord) : EndsSound φ (execVunt5 v s) := by
  simp only [execVunt5]
  exact vectorWord_sound h _ _ _ (fun n => runWith_same s _ _ (fun t e n => by simp) _ n)

/-! ### Machine/VectorMove -/

theorem execVbcast_sound (h : Sound φ s) (v : VWord) : EndsSound φ (execVbcast v s) := by
  simp only [execVbcast]
  exact vectorWord_sound h _ _ _ (fun n => runRepeat_same s ..)

/-! ### Machine/VectorReduce -/

theorem reduceWord_sound (h : Sound φ s) (i : Instr) (v : VWord) (identity : Nat) (f : Nat → List Nat → List Nat × Nat) :
    EndsSound φ (reduceWord i v identity f s) := by
  simp only [reduceWord]
  exact vectorWord_sound h _ _ _ (fun n => runRepeat_same s ..)

/-! ### Machine/VectorSample -/

theorem execVshort_sound (h : Sound φ s) (v : VWord) : EndsSound φ (execVshort v s) := by
  simp only [execVshort]
  refine vectorWord_sound h _ _ _ (fun n => ?_)
  split
  · exact .rfl
  · split
    · exact .rfl
    · next s1 a hr =>
      have h1 : SameStore s s1 := by
        split at hr
        · cases hr; exact .rfl
        · exact readSrc_same hr
      split
      · exact .rfl
      · split <;> exact h1.trans (by simp)
theorem execVsample_sound (h : Sound φ s) (v : VWord) : EndsSound φ (execVsample v s) := by
  simp only [execVsample]
  refine vectorWord_sound h _ _ _ (fun n => ?_)
  split
  · exact .rfl
  · exact runWith_same s _ _ (fun t e n => by simp) _ _
theorem execVrng_sound (h : Sound φ s) (v : VWord) : EndsSound φ (execVrng v s) := by
  simp only [execVrng]
  exact vectorWord_sound h _ _ _ (fun n => runRepeat_same s ..)

end

end Sys2Proof.Machine
end

