-- ==== Sys2Proof/Proofs/CanonicalSteps.lean ====
section
/-! SUPPORT. Every instruction and every step keeps the invariant; with it O59. -/

namespace Sys2Proof.Machine

section

variable {φ : Fuses} {s : State}

/-- Every instruction of the model, word, event, call or input, keeps the invariant: each by its own lemma, or by that of the shape it shares
with its like. -/
theorem exec_sound (h : Sound φ s) (i : Instr) : EndsSound φ (exec i s) := by
  cases i with dsimp only [exec]
  | add | sub | and | or | xor | sll | srl | sra | mul | mulh | mulhu | div | divu | rem | remu | min | max | minu | maxu | addw | subw | andn =>
    exact binWord_sound h ..
  | clz | ctz | popc | addi | andi | ori | xori | slli | srli | srai | fsqrt | fcvti | icvtf
  | ftobf | bftof | fclass =>
    exact unWord_sound h ..
  | lhi | addpc | csave => exact regWord_sound h ..
  | fadd | fsub | fmul | fdiv | fmin | fmax | fsgnj | fsgnn | fsgnx => exact fbin_sound h ..
  | fma | fms | fnma | fnms => exact fmaWord_sound h ..
  | cmp | cmpi | fcmp | cand | cor | cxor | candn | cnot | ctrue | cfalse | cmove =>
    exact condWord_sound h ..
  | cload => exact execCload_sound h ..
  | prep | prepr => exact prepWord_sound h ..
  | br | brn | jmp | call => exact branchWord_sound h ..
  | ret => exact execRet_sound h ..
  | loop => exact execLoop_sound h ..
  | loopi => exact execLoopi_sound h ..
  | lprw => exact execLprw_sound h ..
  | lda | ldau => exact loadA_sound h ..
  | sta => exact execSta_sound h ..
  | ldg | ldgu => exact loadG_sound h ..
  | stg => exact execStg_sound h ..
  | enter => exact execEnter_sound h ..
  | leave => exact execLeave_sound h ..
  | amoadd | amomin | amomax | amominu | amomaxu | amoand | amoor | amoxor | amoswap | amofadd =>
    exact amoWord_sound h ..
  | cas => exact execCas_sound h ..
  | qpush => exact execQpush_sound h ..
  | qpop | qpeek => exact qreadWord_sound h ..
  | qcnt => exact execQcnt_sound h ..
  | blk => exact execBlk_sound h ..
  | wait => exact execWait_sound h ..
  | anchor => exact execAnchor_sound h ..
  | tnow => exact execTnow_sound h ..
  | bnow => exact execBnow_sound h ..
  | btset => exact execBtset_sound h ..
  | cpy => exact execCpy_sound h ..
  | cpys => exact execCpys_sound h ..
  | drain => exact execDrain_sound h ..
  | bkrun | bklode | bkcal => exact bankCommand_sound h ..
  | bkst => exact execBkst_sound h ..
  | mlease => exact execMlease_sound h ..
  | mfree => exact execMfree_sound h ..
  | scommit | sdrop => exact resolveWord_sound h ..
  | bar => exact execBar_sound h ..
  | bara => exact execBara_sound h ..
  | barw => exact execBarw_sound h ..
  | fence => exact execFence_sound h ..
  | waitm => exact execWaitm_sound h ..
  | ttset => exact execTtset_sound h ..
  | trdy => exact execTrdy_sound h ..
  | sbset => exact execSbset_sound h ..
  | sbarm => exact execSbarm_sound h ..
  | clx => exact execClx_sound h ..
  | dsadmit => exact execDsadmit_sound h ..
  | dsemit => exact execDsemit_sound h ..
  | dstrunc => exact execDstrunc_sound h ..
  | dscur => exact execDscur_sound h ..
  | kvinv => exact execKvinv_sound h ..
  | kvaccept => exact execKvaccept_sound h ..
  | kvcommit => exact execKvcommit_sound h ..
  | nop => exact execNop_sound h ..
  | trap | bkpt => exact trapWord_sound h ..
  | gets => exact execGets_sound h ..
  | puts => exact execPuts_sound h ..
  | swap => exact execSwap_sound h ..
  | halt => exact execHalt_sound h ..
  | mv => exact execMv_sound h ..
  | ktlbi => exact execKtlbi_sound h ..
  | kresume => exact execKresume_sound h ..
  | vmov | vadd | vsub | vmul | vfma | vfms | vmin | vmax | vabs | vneg | vadds | vsubs | vmulh
  | vand | vor | vxor | vnot =>
    exact elemWord_sound h ..
  | vshl | vshr | vsar => exact shiftWord_sound h ..
  | vsel | vpermb | vpermw | vslide | vcvt | vdqmx | vnbps | vnbpj => exact plainVector_sound h ..
  | vcmp => exact execVcmp_sound h ..
  | vclamp => exact execVclamp_sound h ..
  | vdot4 | vtacc => exact dotWord_sound h ..
  | vrsum | vrmax | vrmin | vrsums | vscan =>
    simp only [execVrsum, execVrmax, execVrmin, execVrsums, execVscan]
    exact reduceWord_sound h ..
  | vbcast => exact execVbcast_sound h ..
  | vqmx => exact execVqmx_sound h ..
  | vunt5 => exact execVunt5_sound h ..
  | vmset | vmlog | vmrow =>
    simp only [execVmset, execVmlog, execVmrow]
    exact maskWord_sound h ..
  | vmcnt | vmfirst => exact maskToRow_sound h ..
  | vmpos => exact execVmpos_sound h ..
  | vshort => exact execVshort_sound h ..
  | vsample => exact execVsample_sound h ..
  | vrng => exact execVrng_sound h ..
  | vexp2 | vlog2 | vrcp | vrsq => exact transWord_sound h ..
  | vldc => exact execVldc_sound h ..
  | vstc => exact execVstc_sound h ..
  | vbld => exact execVbld_sound h ..
  | vbst => exact execVbst_sound h ..
  | vldg => exact execVldg_sound h ..
  | vstg => exact execVstg_sound h ..
  | vgth => exact execVgth_sound h ..
  | vsct => exact execVsct_sound h ..
  | vaset => exact execVaset_sound h ..
  | vaadd => exact execVaadd_sound h ..
  | vend => exact execVend_sound h ..
  | vnop => exact execVnop_sound h ..
  | vtileWait => exact execVtileWait_sound h ..
  | vtileMark => exact execVtileMark_sound h ..
  | mlds => exact execMlds_sound h ..
  | mswap => exact execMswap_sound h ..
  | mstep => exact execMstep_sound h ..
  | mzero => exact execMzero_sound h ..
  | mdrain => exact execMdrain_sound h ..
  | mflag => exact execMflag_sound h ..
  | mend => exact execMend_sound h ..
  | mnop => exact execMnop_sound h ..
  | ktlbf => exact execKtlbf_sound h ..
  | moduleReset => exact execModuleReset_sound h ..
  | door => exact execDoor_sound h ..
  | registerWrite => exact execRegisterWrite_sound h ..
  | debugUnlock => exact execDebugUnlock_sound h ..
  | debugFreeze => exact execDebugFreeze_sound h ..
  | moduleLimitSet => exact execModuleLimitSet_sound h ..
  | thermalLevelChange => exact execThermalLevelChange_sound h ..
  | thermalLimitStep => exact execThermalLimitStep_sound h ..
  | thermalTrip => exact execThermalTrip_sound h ..
  | ptpOffsetLoss => exact execPtpOffsetLoss_sound h ..
  | unitFailure => exact execUnitFailure_sound h ..
  | linkTraining => exact execLinkTraining_sound h ..
  | windowBoundary => exact execWindowBoundary_sound h ..
  | noCall => exact execNoCall_sound h ..
  | kqOpenBundle => exact execKqOpenBundle_sound h ..
  | kqLaunch => exact execKqLaunch_sound h ..
  | kqWait => exact execKqWait_sound h ..
  | kqWaitTimeout => exact execKqWaitTimeout_sound h ..
  | kqGraphNew => exact execKqGraphNew_sound h ..
  | kqGraphEdit => exact execKqGraphEdit_sound h ..
  | kqGraphRun => exact execKqGraphRun_sound h ..
  | kqQueuePrio => exact execKqQueuePrio_sound h ..
  | kqMemAlloc => exact execKqMemAlloc_sound h ..
  | kqMemFree => exact execKqMemFree_sound h ..
  | kqMemMapWritable => exact execKqMemMapWritable_sound h ..
  | kqMemMapPin => exact execKqMemMapPin_sound h ..
  | kqMemMapUnpin => exact execKqMemMapUnpin_sound h ..
  | kqMemMapMigrate => exact execKqMemMapMigrate_sound h ..
  | pageMigration => exact execPageMigration_sound h ..
  | kqSeamAllocReserve => exact execKqSeamAllocReserve_sound h ..
  | kqSeamAllocRelease => exact execKqSeamAllocRelease_sound h ..
  | kqStreamOpen => exact execKqStreamOpen_sound h ..
  | kqStreamClose => exact execKqStreamClose_sound h ..
  | kqPlanRegister => exact execKqPlanRegister_sound h ..
  | kqPlanRelease => exact execKqPlanRelease_sound h ..
  | kqFaultHandler => exact execKqFaultHandler_sound h ..
  | kqFileRead | kqFileWrite => exact fileCall_sound h ..
  | storageCommandTimeout => exact execStorageCommandTimeout_sound h ..
  | kqAttest => exact execKqAttest_sound h ..
  | kqExit => exact execKqExit_sound h ..
  | selection => exact execSelection_sound h ..
  | multiPackagePacket => exact execMultiPackagePacket_sound h ..
  | ready => exact execReady_sound h ..
  | abort => exact execAbort_sound h ..
  | retirementReport => exact execRetirementReport_sound h ..
  | launchComplete => exact execLaunchComplete_sound h ..
  | startPulse => exact execStartPulse_sound h ..
  | overlayLoad => exact execOverlayLoad_sound h ..
  | anchorRelease => exact execAnchorRelease_sound h ..
  | blockStart => exact execBlockStart_sound h ..
  | stallRelease => exact execStallRelease_sound h ..
  | promiseExpiry => exact execPromiseExpiry_sound h ..
  | scalarResult => exact execScalarResult_sound h ..
  | vectorResult => exact execVectorResult_sound h ..
  | beatOpen => exact execBeatOpen_sound h ..
  | beatClose => exact execBeatClose_sound h ..
  | bankRequestArrival => exact execBankRequestArrival_sound h ..
  | bankProgramStart => exact execBankProgramStart_sound h ..
  | descriptorStart => exact execDescriptorStart_sound h ..
  | copyWord => exact execCopyWord_sound h ..
  | copyChunkTranslation => exact execCopyChunkTranslation_sound h ..
  | pageWalk => exact execPageWalk_sound h ..
  | globalPerform => exact execGlobalPerform_sound h ..
  | globalResultReturn => exact execGlobalResultReturn_sound h ..
  | leaseGrant => exact execLeaseGrant_sound h ..
  | specResolve => exact execSpecResolve_sound h ..
  | mfreeEffect => exact execMfreeEffect_sound h ..
  | shadowPlaneLoaded => exact execShadowPlaneLoaded_sound h ..
  | matrixRowWrite => exact execMatrixRowWrite_sound h ..
  | drainDelivery => exact execDrainDelivery_sound h ..
  | fullBitChange => exact execFullBitChange_sound h ..
  | barrierComplete => exact execBarrierComplete_sound h ..
  | entryFire => exact execEntryFire_sound h ..
  | pieceArrival => exact execPieceArrival_sound h ..
  | combineWrite => exact execCombineWrite_sound h ..
  | firingComplete => exact execFiringComplete_sound h ..
  | postBitArrival => exact execPostBitArrival_sound h ..
  | semaphoreHandoff => exact execSemaphoreHandoff_sound h ..
  | triggerFire => exact execTriggerFire_sound h ..
  | slotFreeNotice => exact execSlotFreeNotice_sound h ..
  | framePublish => exact execFramePublish_sound h ..
  | playbackCursorWrite => exact execPlaybackCursorWrite_sound h ..
  | dsPerform => exact execDsPerform_sound h ..
  | tlbShootdownComplete => exact execTlbShootdownComplete_sound h ..
  | portPageFault => exact execPortPageFault_sound h ..
  | trapWindowDelivery => exact execTrapWindowDelivery_sound h ..
  | handlerReturn => exact execHandlerReturn_sound h ..
  | release => exact execRelease_sound h ..
  | preemption => exact execPreemption_sound h ..
  | preemptionInterval => exact execPreemptionInterval_sound h ..
  | engineAck => exact execEngineAck_sound h ..
  | contextSaveComplete => exact execContextSaveComplete_sound h ..
  | bankEviction => exact execBankEviction_sound h ..
  | parityError => exact execParityError_sound h ..
  | retirement => exact execRetirement_sound h ..
  | ptpOffsetRecovery => exact execPtpOffsetRecovery_sound h ..
  | hartWrite => exact execHartWrite_sound h ..
  | hostWrite => exact execHostWrite_sound h ..
  | softError => exact execSoftError_sound h ..
  | storageTransferComplete => exact execStorageTransferComplete_sound h ..
  | planSlotsReserved => exact execPlanSlotsReserved_sound h ..

end

section

variable {φ : Fuses} {s : State}

theorem stepMove_sound (h : Sound φ s) (c : Nat) (b : BitVec 5) : EndsSound φ (stepMove s c b) := by
  simp only [stepMove]
  split
  · exact exec_sound (h.keep (by simp)) _
  · exact h
theorem stepWord_sound (h : Sound φ s) (c : Nat) (k : Strm) : EndsSound φ (stepWord s c k) := by
  simp only [stepWord]
  refine .branch h (.branch (h.keep (by simp)) ?_)
  split
  · exact exec_sound (h.keep (by simp)) _
  · exact h.keep (by simp)
theorem stepIssue_sound (h : Sound φ s) (c : Nat) (k : Strm) : EndsSound φ (stepIssue s c k) := by
  cases k with
  | bank b => exact stepMove_sound h c b
  | scalar | vector | matrix => exact stepWord_sound h c _

/-- A hart takes its interrupt, its handler's return or its trap, or runs a word of module's set or of the base set. -/
theorem stepHart_sound (h : Sound φ s) (n : Nat) : EndsSound φ (stepHart s n) := by
  simp only [stepHart]
  refine .branch h ?_
  have h1 : Sound φ { s with curHart := n } := h.keep (by simp)
  split
  · exact exec_sound (h1.keep (by simp)) _
  · exact h1.keep (by simp)
  · exact h1.keep (by simp)
  · split
    · exact exec_sound h1 _
    · exact h1.keep (by simp)
    · exact h1.hartBase ..
theorem stepAct_sound (h : Sound φ s) (a : Act) : EndsSound φ (stepAct s a) := by
  cases a with
  | run i a => exact exec_sound (h.keep (by simp)) i
  | issue c k => exact stepIssue_sound h c k
theorem stepDevice_sound (h : Sound φ s) : EndsSound φ (stepDevice s) := by
  simp only [stepDevice]
  split
  · exact stepAct_sound (h.keep (by simp)) _
  · trivial
theorem stepTurn_sound (h : Sound φ s) (t : Turn) : EndsSound φ (stepTurn s t) := by
  cases t with
  | input i a => exact exec_sound (h.keep (by simp)) i
  | hart n => exact stepHart_sound h n
  | stream c k => exact stepIssue_sound h c k
  | device => exact stepDevice_sound h

/-- What every step keeps: LPDDR's canonical form and the fuses. -/
theorem step_sound (h : Sound φ s) : EndsSound φ (step s) := by
  simp only [step]
  split
  · exact .branch trivial (stepTurn_sound (h.keep (by simp)) _)
  · exact .branch trivial (stepDevice_sound h)

end

/-- Settles O59 (R18, R22, R261): the invariant `Sound` with the fuses the step starts from, kept by every step (`step_sound`). -/
theorem memoryStaysCanonical : Obligations.MemoryStaysCanonical := by
  unfold Obligations.MemoryStaysCanonical
  intro s t canonical taken
  have kept : EndsSound s.fuse (step s) := step_sound ⟨canonical, rfl⟩
  rw [taken] at kept
  exact ⟨kept.canonical, kept.fuse⟩

end Sys2Proof.Machine
end

