-- ==== Sys2Proof/Proofs/ResetState.lean ====
section
/-! SUPPORT. The machine right after module reset, one lemma per part of it; with them O60. -/

namespace Sys2Proof.Machine

/-! ### Vectors of equal elements -/

/-- An element of a vector of equal elements. -/
theorem vget_replicate {α : Type} {n i : Nat} (h : i < n) (x d : α) : vget (Vector.replicate n x) i d = x := by
  simp [vget, h]
/-- Reading a vector of defaults gives the default at every number, beyond its length too. -/
theorem vget_replicate_default {α : Type} (n i : Nat) (d : α) : vget (Vector.replicate n d) i d = d := by
  by_cases h : i < n
  · exact vget_replicate h d d
  · simp [vget, h]

/-! ### What reset leaves -/

/-- The default table alternates ACCESS beats of 64 cycles and COMPUTE beats of 256 (R263). -/
theorem defaultTable_getElem? {n : Nat} (h : n < 16) : defaultTable[n]? = some (if n % 2 = 0 then ⟨1, 64⟩ else ⟨2, 256⟩) := by
  simp only [defaultTable, List.getElem?_map, List.getElem?_range h, Option.map_some]
/-- The agenda at reset closes beat 0 at the last of its 64 cycles. -/
theorem reset_closes_beat_zero : ∃ e ∈ State.reset.agenda, e.act = .run .beatClose (.nums [0]) ∧ e.at_ = 63 :=
  ⟨_, .head _, rfl, rfl⟩

/-- Every queue is empty and has priority 7 (R59). -/
theorem reset_queue {q : Nat} (h : q < 64) : vget State.reset.queues q [] = [] ∧ vget State.reset.qprio q 0 = 7 :=
  ⟨vget_replicate h [] [], vget_replicate h 7 0⟩

/-- Both dies are as nothing has touched them. -/
theorem reset_die (d : Nat) : vget State.reset.dies d {} = {} := vget_replicate_default 2 d ({} : Die)
/-- All 16 trap windows of an untouched die are free (R390, R392). -/
theorem untouched_windows_free : (({} : Die).windows.toList.all fun w => w.st == 3) = true := by
  simp

/-- Every core is as nothing has touched it. -/
theorem reset_core (c : Nat) : State.reset.core c = {} := rfl
/-- Every quad is as nothing has touched it: its array is free (R199). -/
theorem reset_quad (q : Nat) : State.reset.quad q = {} := rfl
/-- A core nothing has touched reads 0 in every register S. -/
theorem untouched_sval (r : Nat) : ({} : Core).sval r = 0 := by
  unfold Core.sval
  split
  · rfl
  · rw [vget_replicate_default]

/-- An access table at reset lets every master reach the whole target by its entry 0, and its other entries are not valid (R298). -/
theorem accReset_entry {e : Nat} (h : e < 32) :
    vget accReset e {} = if e = 0 then ⟨0, 0, true, true, true, 0, true, 0, BitVec.allOnes 64⟩ else ⟨0, 0, false, false, false, 0, false, 0, 0⟩ := by
  have table : accReset = vset (Vector.replicate 32 {}) 0 AccEntry.resetZero := rfl
  rw [table]
  split
  case isTrue first =>
    subst first
    exact vget_vset_same _ 0 _ _ h
  case isFalse other => rw [vget_vset_other _ 0 e _ _ other, vget_replicate_default]

/-- Settles O60 (R20, R59, R79, R199, R263, R265, R392, R412): untouched cores, quads and dies are their defaults, vectors of defaults read as
the default, and unlisted memory reads 0 (logs 1, 45). -/
theorem resetState : Obligations.ResetState := by
  unfold Obligations.ResetState
  refine ⟨Memory.wf_nil, ⟨rfl, rfl, rfl, fun n => defaultTable_getElem?, reset_closes_beat_zero⟩, fun q => reset_queue, rfl, rfl, rfl, ?windows, rfl,
    ?core, ⟨rfl, rfl, fun e => accReset_entry⟩, fun m => rfl⟩
  case windows =>
    intro d
    rw [reset_die]
    exact untouched_windows_free
  case core =>
    intro c
    rw [reset_core]
    exact ⟨rfl, rfl, rfl, rfl, rfl, rfl, rfl, untouched_sval, rfl, rfl, rfl, rfl, fun q => by rw [reset_quad]⟩

end Sys2Proof.Machine
end

