-- ==== Sys2Proof/Proofs/CallReturns.lean ====
section
/-! SUPPORT. How a system call ends (R49, R50), what a change of one process leaves in the others, what asking for a selection and sending to
several packages change, and what opening a bundle leaves in the process: the rules that statements about system calls cite. -/

namespace Sys2Proof.Machine

open Sys2Proof.Claims

/-! ### Registers of a hart -/

/-- A register written reads back. -/
theorem Hart.reg_setReg_same (x : Hart) {r : Nat} (v : Word64) (h0 : r ≠ 0) (h : r < 32) : (x.setReg r v).reg r = v := by
  simp only [Hart.reg, Hart.setReg, if_neg h0]
  exact vget_vset_same _ _ _ _ h
/-- Another register is as it was. -/
theorem Hart.reg_setReg_other (x : Hart) {r q : Nat} (v : Word64) (h : q ≠ r) : (x.setReg r v).reg q = x.reg q := by
  unfold Hart.reg Hart.setReg
  split
  · rfl
  · split
    · rfl
    · exact vget_vset_other _ _ _ _ _ h

/-! ### A call that returns (R49, R50) -/

section

variable {s t : State}

/-- The call of a hart returns in a state whose harts are those of `s`: it returns on `s`. -/
theorem answersOn_callReturn {h : Nat} (hh : h < 16) (harts : t.harts = s.harts) (v : Word64) : answersOn s (t.callReturn h v) h v := by
  have same : t.hart h = s.hart h := congrArg (fun x => vget x h ({} : Hart)) harts
  have back : (t.callReturn h v).hart h = { (s.hart h).setReg 10 v with pc := (s.hart h).pc + 4, blocked := false } := by
    rw [← same]
    exact State.hart_modHart _ _ _ hh
  unfold answersOn
  rw [back]
  exact ⟨Hart.reg_setReg_same _ v (by decide) (by decide), rfl, rfl, rfl, fun r hr => Hart.reg_setReg_other _ v hr⟩

variable {o : Host.Outcome State Fault Refusal} {v : Word64} (hs : s.curHart < 16)
include hs

theorem answers_callReturn (harts : t.harts = s.harts) (v : Word64) : answers s (t.callReturn s.curHart v) v :=
  answersOn_callReturn hs harts v
/-- A call that only returns changes nothing but its hart. -/
theorem onlyAnswers_of_callReturn (h : o = .next (s.callReturn s.curHart v)) : onlyAnswers s o v :=
  ⟨_, h, answers_callReturn hs rfl v, rfl⟩
/-- The same for one that has drawn a free value. -/
theorem onlyAnswers_of_drawn (h : o = .next (s.drawn.callReturn s.curHart v)) : onlyAnswers s o v :=
  ⟨_, h, answers_callReturn hs rfl v, rfl⟩

end

/-- A pending call ends on a hart where no handler has displaced its thread: it returns there. -/
theorem State.endPending_at_home {s : State} {p : Pending} (home : (s.hart p.hart).under = none) (v : Word64) :
    s.endPending p v = ({ s with pending := s.pending.filter fun x => x.id != p.id } : State).callReturn p.hart v := by
  have h : (({ s with pending := s.pending.filter fun x => x.id != p.id } : State).hart p.hart).under = none := home
  simp only [State.endPending, h]

/-- A call that waits: its hart is blocked where it called. -/
theorem State.callBlocks_hart (s : State) {h : Nat} (hh : h < 16) (p : Pending) : (s.callBlocks h p).hart h = { s.hart h with blocked := true } :=
  State.hart_modHart _ _ _ hh

/-! ### Processes -/

theorem State.proc?_spid {s : State} {spid : Nat} {p : Proc} (h : s.proc? spid = some p) : p.spid = spid := by
  simpa using List.find?_some h
/-- A process changed reads back, where the change leaves it its number. -/
theorem State.proc?_modProc (s : State) (spid : Nat) (f : Proc → Proc) (keeps : ∀ p, p.spid = spid → (f p).spid = spid) :
    (s.modProc spid f).proc? spid = (s.proc? spid).map f := by
  unfold State.proc? State.modProc
  induction s.procs with
  | nil => rfl
  | cons p ps ih =>
    by_cases hp : p.spid = spid
    · simp [hp, keeps p hp]
    · simpa [hp] using ih
theorem State.proc?_modProc_of_some {s : State} {spid : Nat} {p : Proc} {f : Proc → Proc} (h : s.proc? spid = some p)
    (keeps : ∀ p, p.spid = spid → (f p).spid = spid) : (s.modProc spid f).proc? spid = some (f p) := by
  rw [State.proc?_modProc s spid f keeps, h, Option.map_some]

theorem Proc.mapPage_spid (p : Proc) (va page pa : Nat) (w : Bool) : (p.mapPage va page pa w).spid = p.spid := by
  have down : ∀ lvl, (p.pointDown lvl va).spid = p.spid := fun lvl =>
    List.foldlRecOn (motive := fun q : Proc => q.spid = p.spid) _ _ rfl fun _ hq _ _ => hq
  unfold Proc.mapPage
  split
  · exact down 1
  · exact List.foldlRecOn (motive := fun q : Proc => q.spid = p.spid) _ _ (down 0) fun _ hq _ _ => hq
theorem Proc.mapRange_spid (p : Proc) (va len page pa : Nat) (w : Bool) : (p.mapRange va len page pa w).spid = p.spid :=
  List.foldlRecOn (motive := fun q : Proc => q.spid = p.spid) _ _ rfl fun _ hq _ _ => (Proc.mapPage_spid ..).trans hq

/-! ### Asking for a selection (R61) -/

/-- `t` is `s` with a selection asked for: of the queues' heads it is noted since when they have had their waits met. -/
def AsksSelection (s t : State) : Prop := t = { s with launches := t.launches, agenda := t.agenda, seq := t.seq }

theorem AsksSelection.trans {s t u : State} (h : AsksSelection s t) (h' : AsksSelection t u) : AsksSelection s u :=
  Eq.trans h' (congrArg (fun x : State => { x with launches := u.launches, agenda := u.agenda, seq := u.seq }) h)
theorem AsksSelection.modLaunch (s : State) (gen : Nat) (f : Launch → Launch) : AsksSelection s (s.modLaunch gen f) := rfl
theorem AsksSelection.post (s : State) (a p : Nat) (h : Option Nat) (x : Act) : AsksSelection s (s.post a p h x) := rfl

section

variable {s t : State} (h : AsksSelection s t)
include h

theorem AsksSelection.harts : t.harts = s.harts := Eq.trans (congrArg State.harts h) rfl
theorem AsksSelection.cores : t.cores = s.cores := Eq.trans (congrArg State.cores h) rfl
theorem AsksSelection.queues : t.queues = s.queues := Eq.trans (congrArg State.queues h) rfl
theorem AsksSelection.qprio : t.qprio = s.qprio := Eq.trans (congrArg State.qprio h) rfl
theorem AsksSelection.genCount : t.genCount = s.genCount := Eq.trans (congrArg State.genCount h) rfl
theorem AsksSelection.outbox : t.outbox = s.outbox := Eq.trans (congrArg State.outbox h) rfl

end

theorem State.noteHeads_asks (s : State) : AsksSelection s s.noteHeads := by
  refine List.foldlRecOn (motive := AsksSelection s) _ _ rfl fun t ht q _ => ?_
  split
  · split
    · exact ht.trans (.modLaunch ..)
    · exact ht
  · exact ht
theorem State.askSelection_asks (s : State) : AsksSelection s s.askSelection := by
  simp only [State.askSelection]
  split
  · exact s.noteHeads_asks
  · exact s.noteHeads_asks.trans (.post ..)

/-- `l` is the launch `m` at some stage of its way through the queue. -/
def SameRequest (m l : Launch) : Prop := l = { m with st := l.st, headAt := l.headAt, release := l.release }

/-- Noting the heads keeps every launch. -/
theorem State.noteHeads_keeps {s : State} {m l : Launch} (hl : l ∈ s.launches) (same : SameRequest m l) : ∃ k ∈ s.noteHeads.launches, SameRequest m k := by
  refine List.foldlRecOn (motive := fun t : State => ∃ k ∈ t.launches, SameRequest m k) _ _ ⟨l, hl, same⟩ fun t ht q _ => ?_
  obtain ⟨k, hk, hm⟩ := ht
  split
  case h_2 => exact ⟨k, hk, hm⟩
  case h_1 head _ =>
    split
    case isFalse => exact ⟨k, hk, hm⟩
    case isTrue =>
      refine ⟨_, List.mem_map_of_mem hk, ?_⟩
      split
      · exact congrArg (fun x : Launch => { x with headAt := some t.now }) hm
      · exact hm
theorem State.askSelection_launches (s : State) : s.askSelection.launches = s.noteHeads.launches := by
  simp only [State.askSelection]
  split
  · rfl
  · exact State.post_launches ..

/-! ### Messages -/

/-- One message sent to several packages: each has it in the outbox, and nothing else changes. -/
theorem State.foldl_send (s : State) (m : Msg) (l : List Nat) :
    l.foldl (fun t p => t.send p m) s = { s with outbox := s.outbox ++ l.map fun p => { dst := p, port := s.portTo p, msg := m } } := by
  induction l generalizing s with
  | nil => simp
  | cons p l ih =>
    rw [List.foldl_cons, ih]
    simp [State.send, State.portTo]

/-! ### Opening a bundle (R27) -/

/-- `t` leaves the harts of `s` as they are, and a process that `s` knows known. -/
structure KeepsCaller (spid : Nat) (s t : State) : Prop where
  harts : t.harts = s.harts
  curHart : t.curHart = s.curHart
  known : (s.proc? spid).isSome = true → (t.proc? spid).isSome = true

theorem KeepsCaller.rfl {spid : Nat} {s : State} : KeepsCaller spid s s := ⟨Eq.refl _, Eq.refl _, id⟩
theorem KeepsCaller.trans {spid : Nat} {s t u : State} (h : KeepsCaller spid s t) (h' : KeepsCaller spid t u) : KeepsCaller spid s u :=
  ⟨h'.harts.trans h.harts, h'.curHart.trans h.curHart, fun k => h'.known (h.known k)⟩

theorem KeepsCaller.modProc {spid : Nat} (s : State) {f : Proc → Proc} (keeps : ∀ p, p.spid = spid → (f p).spid = spid) :
    KeepsCaller spid s (s.modProc spid f) := by
  refine ⟨Eq.refl _, Eq.refl _, fun known => ?_⟩
  rw [State.proc?_modProc s spid f keeps, Option.isSome_map]
  exact known
theorem KeepsCaller.homeWrite (spid : Nat) (s : State) (pa : Nat) (d : List Byte) : KeepsCaller spid s (s.homeWrite pa d) := by
  simp only [State.homeWrite, State.homeWriteSel]
  split <;> exact ⟨Eq.refl _, Eq.refl _, id⟩
theorem KeepsCaller.allocRange {spid len align pkg die : Nat} {w : Bool} {s : State} {r : State × Nat × Nat}
    (h : s.allocRange spid len align pkg die w = some r) : KeepsCaller spid s r.1 := by
  simp only [State.allocRange] at h
  split at h
  case h_2 => cases h
  case h_1 p hp =>
    split at h
    case h_2 => cases h
    case h_1 =>
      cases h
      exact KeepsCaller.trans (t := { s with free := s.free + 2 }) ⟨Eq.refl _, Eq.refl _, id⟩
        (.modProc _ fun _ _ => (Proc.mapRange_spid ..).trans (State.proc?_spid hp))
theorem KeepsCaller.placeImages {spid : Nat} {f : List Byte} {l : List Sect} {s : State} {r : State × List (Nat × Nat × Nat × Sect)}
    (h : s.placeImages spid f l = some r) : KeepsCaller spid s r.1 := by
  induction l generalizing s r with
  | nil => cases h; exact .rfl
  | cons x l ih =>
    simp only [State.placeImages] at h
    split at h
    case h_2 => cases h
    case h_1 placed =>
      rw [Option.map_eq_some_iff] at h
      obtain ⟨y, hy, rfl⟩ := h
      exact (KeepsCaller.allocRange placed).trans (ih (s := _) hy : KeepsCaller spid _ y.1)

/-- What opening a bundle leaves in the process: its handle, under which the bundle stands. By delta alone, as `State.openBundle_inv`. -/
theorem State.openBundle_adds {s : State} {spid : Nat} {f : List Byte} {r : State × Nat} (h : s.openBundle spid f = some r) :
    ∃ t b, KeepsCaller spid s t ∧
      r.1 = t.modProc spid fun p => { p with bundles := Table.put p.bundles r.2 b, nextHandle := p.nextHandle + 1, log := p.log ++ [b.digest] } := by
  have e : @State.openBundle = @State.openBundle := rfl
  conv_rhs at e => delta State.openBundle
  rw [e] at h
  beta_reduce at h
  generalize List.range 1024 = numbers at h
  dsimp only at h
  split at h
  case h_2 => cases h
  case h_1 placed =>
    obtain rfl := Option.some.inj h
    refine ⟨_, _, ?_, rfl⟩
    exact List.foldlRecOn (motive := KeepsCaller spid s) _ _ (KeepsCaller.placeImages placed) fun u hu i _ => hu.trans (.homeWrite ..)

/-- An opened bundle stands under its handle in the process that opened it, and no hart has changed. -/
theorem State.openBundle_opens {s t : State} {spid n : Nat} {f : List Byte} (known : (s.proc? spid).isSome = true)
    (h : s.openBundle spid f = some (t, n)) :
    t.harts = s.harts ∧ t.curHart = s.curHart ∧ ∃ q, t.proc? spid = some q ∧ (Table.find? q.bundles n).isSome = true := by
  obtain ⟨u, b, keeps, ht⟩ := State.openBundle_adds h
  obtain ⟨q, hq⟩ := Option.isSome_iff_exists.1 (keeps.known known)
  dsimp only at ht
  subst ht
  refine ⟨keeps.harts, keeps.curHart, _, State.proc?_modProc_of_some hq fun _ hp => hp, ?_⟩
  exact Option.isSome_iff_exists.2 ⟨b, Table.find?_put_same ..⟩

end Sys2Proof.Machine
end

