-- ==== Sys2Proof/Proofs/LaunchingCalls.lean ====
section
/-! SUPPORT. The calls that open, launch, wait and run graphs: what queueing a launch leaves, one equation of each call per case, and with them O50. -/

namespace Sys2Proof.Machine

open Sys2Proof.Claims

/-! ### Queueing a launch (R59, R72, R73) -/

/-- The launch that queueing a checked packet makes. -/
def State.newLaunch (s : State) (spid queue : Nat) (c : Checked) (run : Option Nat) : Launch :=
  { gen := s.nextGen, spid, queue, pkt := c.pkt, tree := c.tree, insts := c.insts, pkgs := c.pkgs, st := .queued, origin := s.pkg, graphRun := run
    graph := run.isSome }
/-- What the other packages are sent of it. -/
def State.newPacket (s : State) (spid queue : Nat) (c : Checked) (run : Option Nat) : RemotePacket :=
  let p := s.proc? spid
  { gen := s.nextGen, queue, sent := s.window, spid, ptes := (p.map fun p => p.ptes).getD []
    packet := c.pkt.bytes s.nextGen (c.pkgs.foldl (fun a x => a + 2 ^ x) 0), args := c.pkt.args, beats := beatBytes (c.pkt.beatreq.getD [])
    bundle := ((p.bind fun p => Table.find? p.bundles c.pkt.bundle).map fun b => b.bytes).getD []
    counts := c.pkt.waits.map fun w => s.tokenCount spid run w.1, graph := run.isSome, insts := c.insts
    plans := ((p.map fun p => p.plans).getD []).map fun x => (x.id, x.flows) }

/-- `t` is `s` with launches queued: launches, queues, messages and generation numbers move, and a selection may be asked for. -/
def QueuesLaunches (s t : State) : Prop :=
  t = { s with launches := t.launches, queues := t.queues, agenda := t.agenda, seq := t.seq, outbox := t.outbox, genCount := t.genCount }

theorem QueuesLaunches.trans {s t u : State} (h : QueuesLaunches s t) (h' : QueuesLaunches t u) : QueuesLaunches s u :=
  Eq.trans h' (congrArg (fun x : State =>
    { x with launches := u.launches, queues := u.queues, agenda := u.agenda, seq := u.seq, outbox := u.outbox, genCount := u.genCount }) h)
theorem AsksSelection.queuesLaunches {s t : State} (h : AsksSelection s t) : QueuesLaunches s t := by
  unfold QueuesLaunches
  rw [h.queues, h.outbox, h.genCount]
  exact h

section

variable {s t : State} (h : QueuesLaunches s t)
include h

theorem QueuesLaunches.harts : t.harts = s.harts := Eq.trans (congrArg State.harts h) rfl
theorem QueuesLaunches.cores : t.cores = s.cores := Eq.trans (congrArg State.cores h) rfl
theorem QueuesLaunches.mem : t.mem = s.mem := Eq.trans (congrArg State.mem h) rfl
theorem QueuesLaunches.procs : t.procs = s.procs := Eq.trans (congrArg State.procs h) rfl
theorem QueuesLaunches.nextRun : t.nextRun = s.nextRun := Eq.trans (congrArg State.nextRun h) rfl

end

section

variable (s : State) (spid queue : Nat) (c : Checked) (run : Option Nat)

/-- Where this package alone takes part, the launch enters its queue at once. -/
theorem State.submit_here (here : (s.newLaunch spid queue c run).parts = [s.pkg]) : s.submit spid queue c run =
    ({ s with genCount := s.genCount + 1, launches := s.launches ++ [s.newLaunch spid queue c run]
              queues := vset s.queues queue (vget s.queues queue [] ++ [s.nextGen]) } : State).askSelection :=
  if_pos here
/-- Elsewhere it is kept back, and the other packages that take part are sent the packet. -/
theorem State.submit_away (away : (s.newLaunch spid queue c run).parts ≠ [s.pkg]) : s.submit spid queue c run =
    { s with genCount := s.genCount + 1
             launches := s.launches ++ [{ s.newLaunch spid queue c run with
               st := .reserved, release := if (s.newLaunch spid queue c run).parts.contains s.pkg then some (s.window + 2) else none }]
             outbox := s.outbox ++ ((s.newLaunch spid queue c run).parts.filter fun x => x != s.pkg).map fun p =>
               { dst := p, port := s.portTo p, msg := .packet s.window (s.newPacket spid queue c run) } } :=
  (if_neg away).trans (State.foldl_send ..)

theorem State.submit_queues : QueuesLaunches s (s.submit spid queue c run) := by
  by_cases here : (s.newLaunch spid queue c run).parts = [s.pkg]
  · rw [s.submit_here _ _ _ _ here]
    refine .trans ?_ (State.askSelection_asks _).queuesLaunches
    rfl
  · rw [s.submit_away _ _ _ _ here]
    rfl
theorem State.submit_genCount : (s.submit spid queue c run).genCount = s.genCount + 1 := by
  by_cases here : (s.newLaunch spid queue c run).parts = [s.pkg]
  · rw [s.submit_here _ _ _ _ here]
    exact (State.askSelection_asks _).genCount
  · rw [s.submit_away _ _ _ _ here]
/-- The launch stands among the machine's launches. -/
theorem State.submit_launches : ∃ l ∈ (s.submit spid queue c run).launches, SameRequest (s.newLaunch spid queue c run) l := by
  by_cases here : (s.newLaunch spid queue c run).parts = [s.pkg]
  · rw [s.submit_here _ _ _ _ here, State.askSelection_launches]
    exact State.noteHeads_keeps (List.mem_append_right _ (.head _)) rfl
  · rw [s.submit_away _ _ _ _ here]
    exact ⟨_, List.mem_append_right _ (.head _), rfl⟩
/-- Where this package alone takes part, the queue ends in its number. -/
theorem State.submit_queue_end (hq : queue < 64) (here : (s.newLaunch spid queue c run).parts = [s.pkg]) :
    vget (s.submit spid queue c run).queues queue [] = vget s.queues queue [] ++ [s.nextGen] := by
  rw [s.submit_here _ _ _ _ here, (State.askSelection_asks _).queues]
  exact vget_vset_same _ _ _ _ hq
/-- Every other package that takes part is sent the packet. -/
theorem State.submit_sends {p : Nat} (part : p ∈ (s.newLaunch spid queue c run).parts) (other : p ≠ s.pkg) :
    ∃ e ∈ (s.submit spid queue c run).outbox, e.dst = p ∧ e.msg = .packet s.window (s.newPacket spid queue c run) := by
  have away : (s.newLaunch spid queue c run).parts ≠ [s.pkg] := fun here => other (List.mem_singleton.1 (here ▸ part))
  rw [s.submit_away _ _ _ _ away]
  refine ⟨{ dst := p, port := s.portTo p, msg := .packet s.window (s.newPacket spid queue c run) }, List.mem_append_right _ (List.mem_map.2 ?_), rfl, rfl⟩
  exact ⟨p, List.mem_filter.2 ⟨part, bne_iff_ne.2 other⟩, rfl⟩

end

theorem State.submitRun_queues (s : State) (spid queue run : Nat) (p : Packet) : QueuesLaunches s (s.submitRun spid queue run p) := by
  unfold State.submitRun
  split
  · exact State.submit_queues ..
  · exact rfl
theorem State.submitAll_queues (spid queue run : Nat) (l : List Packet) (s : State) :
    QueuesLaunches s (l.foldl (fun u p => u.submitRun spid queue run p) s) :=
  List.foldlRecOn (motive := QueuesLaunches s) _ _ rfl fun t ht _ _ => ht.trans (t.submitRun_queues ..)

section

variable {s : State}

/-! ### KQ_QUEUE_PRIO (R59, R60) -/

theorem kqQueuePrio_bad (bad : 64 ≤ (s.callArg 0).toNat ∨ 8 ≤ (s.callArg 1).toNat) : exec .kqQueuePrio s = .next (s.callReturn s.curHart badArg) :=
  if_pos (by simpa using bad)
theorem kqQueuePrio_good (hq : (s.callArg 0).toNat < 64) (hp : (s.callArg 1).toNat < 8) : exec .kqQueuePrio s =
    .next (({ s with qprio := vset s.qprio (s.callArg 0).toNat (s.callArg 1).toNat } : State).askSelection.callReturn s.curHart
      (BitVec.ofNat 64 (vget s.qprio (s.callArg 0).toNat 7))) :=
  if_neg (by simp [hq, hp])

/-! ### KQ_WAIT and its timeout (R56, R57) -/

/-- The pending entry of a KQ_WAIT. -/
def State.tokenWait (s : State) : Pending :=
  { id := s.seq, hart := s.curHart, spid := s.callerSpid, kind := 0, token := (s.callArg 0).toNat, target := (s.callArg 1).toNat }
/-- The machine with the calling hart waiting on its token. -/
def State.waitsOnToken (s : State) : State := ({ s with seq := s.seq + 1 } : State).callBlocks s.curHart s.tokenWait
/-- Its timeout, 0 for none, is put on the agenda. -/
def State.armTimeout (s : State) (us id : Nat) : State :=
  if us = 0 then s else s.post (s.now + 850 * us) 1 none (.run .kqWaitTimeout (.nums [id]))

theorem State.armTimeout_pending (s : State) (us id : Nat) : (s.armTimeout us id).pending = s.pending := by
  unfold State.armTimeout
  split <;> rfl
theorem State.armTimeout_hart (s : State) (us id h : Nat) : (s.armTimeout us id).hart h = s.hart h := by
  unfold State.armTimeout
  split <;> rfl
theorem State.armTimeout_agenda (s : State) {us : Nat} (id : Nat) (bounded : us ≠ 0) :
    ∃ e ∈ (s.armTimeout us id).agenda, e.act = .run .kqWaitTimeout (.nums [id]) ∧ e.at_ = s.now + 850 * us := by
  unfold State.armTimeout
  rw [if_neg bounded]
  exact ⟨_, (mem_insertEvent ..).2 (.inl rfl), rfl, rfl⟩

theorem kqWait_bad (bad : 32767 ≤ (s.callArg 0).toNat) : exec .kqWait s = .next (s.callReturn s.curHart badArg) :=
  if_pos (by simp [tokenLimit, bad])

section

variable (ht : (s.callArg 0).toNat < 32767) (known : (s.proc? s.callerSpid).isSome = true)
include ht known

theorem kqWait_valid : ¬ (decide (tokenLimit ≤ (s.callArg 0).toNat) || (s.proc? s.callerSpid).isNone) = true := by
  simp [tokenLimit, Nat.not_le.2 ht, Option.isSome_iff_ne_none.1 known]
theorem kqWait_met (met : (s.callArg 1).toNat ≤ s.tokenCount s.callerSpid none (s.callArg 0).toNat) :
    exec .kqWait s = .next (s.callReturn s.curHart (BitVec.ofNat 64 (s.tokenCount s.callerSpid none (s.callArg 0).toNat))) :=
  (if_neg (kqWait_valid ht known)).trans (if_pos met)
theorem kqWait_waits (unmet : s.tokenCount s.callerSpid none (s.callArg 0).toNat < (s.callArg 1).toNat) :
    exec .kqWait s = .next (s.waitsOnToken.armTimeout (s.callArg 2).toNat s.seq) :=
  (if_neg (kqWait_valid ht known)).trans ((if_neg (Nat.not_le.2 unmet)).trans rfl)

end

theorem kqWaitTimeout_found {id : Nat} {p : Pending} (harg : s.arg = .nums [id]) (found : s.pending.find? (fun x => x.id == id && x.kind == 0) = some p) :
    exec .kqWaitTimeout s = .next (s.endPending p (callError 0x45 0 0)) := by
  change execKqWaitTimeout s = _
  simp only [execKqWaitTimeout, harg, found]
/-- The timeout ends the wait on its own hart, where no handler has displaced the thread. -/
theorem waitTimeout_returns {id : Nat} {p : Pending} (harg : s.arg = .nums [id])
    (found : s.pending.find? (fun x => x.id == id && x.kind == 0) = some p) (hh : p.hart < 16) (home : (s.hart p.hart).under = none) :
    ∃ t, exec .kqWaitTimeout s = .next t ∧ answersOn s t p.hart (minus 0x45) ∧ t.pending = s.pending.filter fun x => x.id != id := by
  have same : p.id = id ∧ p.kind = 0 := by simpa using List.find?_some found
  refine ⟨_, (kqWaitTimeout_found harg found).trans (congrArg _ (State.endPending_at_home home _)), answersOn_callReturn hh rfl _, ?_⟩
  exact same.1 ▸ rfl

/-! ### KQ_LAUNCH (R51, R53, R420) -/

theorem kqLaunch_unsynced (lost : s.power.ptpLost = true)
    (others : s.masksOther (((s.procRead s.callerSpid ((s.callArg 0).toNat + 0x10) 8).map leNat).getD 0) = true) :
    exec .kqLaunch s = .next (s.callReturn s.curHart badArg) :=
  if_pos (by simp [lost, others])

section

variable {c : Checked} (hq : (s.callArg 1).toNat < 64) (synced : s.power.ptpLost = false)
include hq synced

theorem kqLaunch_valid : ¬ (decide (64 ≤ (s.callArg 1).toNat) ||
    (s.power.ptpLost && s.masksOther (((s.procRead s.callerSpid ((s.callArg 0).toNat + 0x10) 8).map leNat).getD 0))) = true := by
  simp [Nat.not_le.2 hq, synced]
theorem kqLaunch_error {e : Word64} (failed : s.checkPacket s.callerSpid (s.callArg 0).toNat false = .error e) :
    exec .kqLaunch s = .next (s.callReturn s.curHart e) := by
  change execKqLaunch s = _
  simp only [execKqLaunch, if_neg (kqLaunch_valid hq synced), failed]

variable (passed : s.checkPacket s.callerSpid (s.callArg 0).toNat false = .ok c)
include passed

theorem kqLaunch_full (full : 256 ≤ s.queueLoad (s.callArg 1).toNat) : exec .kqLaunch s = .next (s.callReturn s.curHart (callError 0x44 0 0)) := by
  change execKqLaunch s = _
  simp only [execKqLaunch, if_neg (kqLaunch_valid hq synced), passed, if_pos full]

variable (room : s.queueLoad (s.callArg 1).toNat < 256)
include room

theorem kqLaunch_noMemory (holds : Config.kernelHolds s.free (128 + c.pkt.args.length) = false) :
    exec .kqLaunch s = .next (s.drawn.callReturn s.curHart noMemory) := by
  change execKqLaunch s = _
  simp only [execKqLaunch, if_neg (kqLaunch_valid hq synced), passed, if_neg (Nat.not_le.2 room), holds, Bool.not_false, if_true]
theorem kqLaunch_queues (holds : Config.kernelHolds s.free (128 + c.pkt.args.length) = true) :
    exec .kqLaunch s = .next ((s.drawn.submit s.callerSpid (s.callArg 1).toNat c none).callReturn s.curHart (BitVec.ofNat 64 s.nextGen)) := by
  change execKqLaunch s = _
  simp only [execKqLaunch, if_neg (kqLaunch_valid hq synced), passed, if_neg (Nat.not_le.2 room), holds, Bool.not_true, Bool.false_eq_true, if_false]

end

/-! ### Graphs (R69 to R71) -/

theorem State.callReturn_graph? (h : Nat) (v : Word64) (spid n : Nat) : (s.callReturn h v).graph? spid n = s.graph? spid n := rfl
/-- A graph put into a process's table reads back. -/
theorem State.graph?_modProc {spid n : Nat} {p : Proc} {g : Graph} {f : Proc → Proc} (h : s.proc? spid = some p)
    (keeps : ∀ p, p.spid = spid → (f p).spid = spid) (puts : (f p).graphs = Table.put p.graphs n g) : (s.modProc spid f).graph? spid n = some g := by
  rw [State.graph?, State.proc?_modProc_of_some h keeps, Option.bind_some, puts]
  exact Table.find?_put_same ..
theorem State.proc?_of_graph? {spid n : Nat} {g : Graph} (h : s.graph? spid n = some g) : ∃ p, s.proc? spid = some p := by
  obtain ⟨p, hp, _⟩ := Option.bind_eq_some_iff.1 h
  exact ⟨p, hp⟩

theorem kqGraphNew_bad (bad : (s.callArg 1).toNat = 0 ∨ 256 < (s.callArg 1).toNat) : exec .kqGraphNew s = .next (s.callReturn s.curHart badArg) :=
  if_pos (by simpa using bad)

theorem kqGraphNew_valid (positive : 0 < (s.callArg 1).toNat) (few : (s.callArg 1).toNat ≤ 256) :
    ¬ (decide ((s.callArg 1).toNat = 0) || decide (256 < (s.callArg 1).toNat)) = true := by
  simp [few, Nat.ne_of_gt positive]

section

variable {l : List Packet} (positive : 0 < (s.callArg 1).toNat) (few : (s.callArg 1).toNat ≤ 256)
  (passed : s.checkArray s.callerSpid (s.callArg 0).toNat (s.callArg 1).toNat = .ok l) (starts : neverStarts l = false)
include positive few passed starts

theorem kqGraphNew_noMemory (holds : Config.kernelHolds s.free (128 * (s.callArg 1).toNat) = false) :
    exec .kqGraphNew s = .next (s.drawn.callReturn s.curHart noMemory) := by
  change execKqGraphNew s = _
  simp only [execKqGraphNew, if_neg (kqGraphNew_valid positive few), passed, starts, holds, Bool.false_eq_true, if_false, Bool.not_false, if_true]
theorem kqGraphNew_adds {p : Proc} (hp : s.proc? s.callerSpid = some p) (holds : Config.kernelHolds s.free (128 * (s.callArg 1).toNat) = true) :
    exec .kqGraphNew s = .next ((s.drawn.addGraph s.callerSpid { versions := [l] }).callReturn s.curHart (BitVec.ofNat 64 p.nextHandle)) := by
  change execKqGraphNew s = _
  simp only [execKqGraphNew, if_neg (kqGraphNew_valid positive few), passed, starts, holds, hp, Bool.not_true, Bool.false_eq_true, if_false,
    Option.map_some, Option.getD_some]

end

theorem kqGraphEdit_noGraph (missing : s.graph? s.callerSpid (s.callArg 0).toNat = none) :
    exec .kqGraphEdit s = .next (s.callReturn s.curHart (callError 0x42 0 0)) := by
  change execKqGraphEdit s = _
  simp only [execKqGraphEdit, missing]
theorem kqGraphRun_noGraph (missing : s.graph? s.callerSpid (s.callArg 0).toNat = none) :
    exec .kqGraphRun s = .next (s.callReturn s.curHart (callError 0x42 0 0)) := by
  change execKqGraphRun s = _
  simp only [execKqGraphRun, missing]

section

variable {g : Graph} {l : List Packet} {c : Checked} (hg : s.graph? s.callerSpid (s.callArg 0).toNat = some g) (newest : g.versions.getLast? = some l)
  (index : (s.callArg 1).toNat < l.length) (passed : s.checkPacket s.callerSpid (s.callArg 2).toNat true = .ok c)
  (starts : neverStarts (l.set (s.callArg 1).toNat c.pkt) = false)
include hg newest index passed starts

theorem kqGraphEdit_noMemory (holds : Config.kernelHolds s.free 128 = false) : exec .kqGraphEdit s = .next (s.drawn.callReturn s.curHart noMemory) := by
  change execKqGraphEdit s = _
  simp only [execKqGraphEdit, hg, newest, Option.getD_some, if_neg (Nat.not_le.2 index), passed, starts, holds, Bool.false_eq_true, if_false,
    Bool.not_false, if_true]
theorem kqGraphEdit_adds (holds : Config.kernelHolds s.free 128 = true) : exec .kqGraphEdit s =
    .next ((s.drawn.modProc s.callerSpid fun p =>
      { p with graphs := Table.put p.graphs (s.callArg 0).toNat { versions := g.versions ++ [l.set (s.callArg 1).toNat c.pkt] } }).callReturn s.curHart
        (BitVec.ofNat 64 (g.versions.length + 1))) := by
  change execKqGraphEdit s = _
  simp only [execKqGraphEdit, hg, newest, Option.getD_some, if_neg (Nat.not_le.2 index), passed, starts, holds, Bool.not_true, Bool.false_eq_true,
    if_false]

end

/-- The machine with a run of a graph's packets begun, none of them queued yet. -/
def State.withRun (s : State) (n : Nat) : State :=
  { s with nextRun := s.nextRun + 1
           runs := Table.put s.runs s.nextRun { spid := s.callerSpid, tokens := [], left := n, token := (s.callArg 3).toNat } }

theorem kqGraphRun_newest {g : Graph} {l : List Packet} (hg : s.graph? s.callerSpid (s.callArg 0).toNat = some g) (zero : (s.callArg 1).toNat = 0)
    (newest : g.versions.getLast? = some l) (hq : (s.callArg 2).toNat < 64) (slot : slotOk false (s.callArg 3).toNat = true)
    (room : s.queueLoad (s.callArg 2).toNat + l.length ≤ 256) : exec .kqGraphRun s =
      .next ((l.foldl (fun u p => u.submitRun s.callerSpid (s.callArg 2).toNat s.nextRun p) (s.withRun l.length)).callReturn s.curHart
        (BitVec.ofNat 64 s.nextGen)) := by
  change execKqGraphRun s = _
  have version : g.versions[g.versions.length - 1]? = some l := List.getLast?_eq_getElem? ▸ newest
  have valid : ¬ (decide (64 ≤ (s.callArg 2).toNat) || !slotOk false (s.callArg 3).toNat) = true := by
    simp [Nat.not_le.2 hq, slot]
  simp only [execKqGraphRun, hg, zero, if_true, version, if_neg valid, if_neg (Nat.not_lt.2 room)]
  rfl

/-! ### KQ_OPEN_BUNDLE (R27, R45) -/

theorem kqOpenBundle_noProcess (unknown : s.proc? s.callerSpid = none) : exec .kqOpenBundle s = .next (s.callReturn s.curHart badArg) := by
  change execKqOpenBundle s = _
  simp only [execKqOpenBundle, unknown]

theorem kqOpenBundle_valid {p : Proc} (room : p.log.length < 256) (holds : Config.kernelHolds s.free (s.callArg 1).toNat = true) :
    ¬ (decide (256 ≤ p.log.length) || !Config.kernelHolds s.free (s.callArg 1).toNat) = true := by
  simp [Nat.not_le.2 room, holds]

section

variable {p : Proc} {f : List Byte} (hp : s.proc? s.callerSpid = some p) (hf : s.procRead s.callerSpid (s.callArg 0).toNat (s.callArg 1).toNat = some f)
include hp hf

theorem kqOpenBundle_noMemory (holds : Config.kernelHolds s.free (s.callArg 1).toNat = false) :
    exec .kqOpenBundle s = .next (s.drawn.callReturn s.curHart noMemory) := by
  change execKqOpenBundle s = _
  simp only [execKqOpenBundle, hp, hf, holds, Bool.not_false, Bool.or_true, if_true]

variable (room : p.log.length < 256) (holds : Config.kernelHolds s.free (s.callArg 1).toNat = true)
include room holds

theorem kqOpenBundle_fails {reason entry : Nat} (failed : s.openFails f = some (reason, entry)) :
    exec .kqOpenBundle s = .next (s.drawn.callReturn s.curHart (callError 0x25 reason entry)) := by
  change execKqOpenBundle s = _
  simp only [execKqOpenBundle, hp, hf, if_neg (kqOpenBundle_valid room holds), failed]
theorem kqOpenBundle_noPlace (passed : s.openFails f = none) (full : s.drawn.openBundle s.callerSpid f = none) :
    exec .kqOpenBundle s = .next (s.drawn.callReturn s.curHart noMemory) := by
  change execKqOpenBundle s = _
  simp only [execKqOpenBundle, hp, hf, if_neg (kqOpenBundle_valid room holds), passed, full]
theorem kqOpenBundle_opens {t : State} {n : Nat} (passed : s.openFails f = none) (opened : s.drawn.openBundle s.callerSpid f = some (t, n)) :
    exec .kqOpenBundle s = .next (t.callReturn s.curHart (BitVec.ofNat 64 n)) := by
  change execKqOpenBundle s = _
  simp only [execKqOpenBundle, hp, hf, if_neg (kqOpenBundle_valid room holds), passed, opened]

end

/-! ### The clauses of O50 -/

variable (hs : s.curHart < 16)
include hs

theorem queuePrio_set (hq : (s.callArg 0).toNat < 64) (hp : (s.callArg 1).toNat < 8) :
    ∃ t, exec .kqQueuePrio s = .next t ∧ answers s t (BitVec.ofNat 64 (vget s.qprio (s.callArg 0).toNat 7)) ∧
      vget t.qprio (s.callArg 0).toNat 7 = (s.callArg 1).toNat ∧ (∀ q, q ≠ (s.callArg 0).toNat → vget t.qprio q 7 = vget s.qprio q 7) ∧
      t.cores = s.cores := by
  have asked := State.askSelection_asks { s with qprio := vset s.qprio (s.callArg 0).toNat (s.callArg 1).toNat }
  have made := kqQueuePrio_good hq hp
  generalize State.askSelection _ = t at asked made
  refine ⟨_, made, answers_callReturn hs asked.harts _, ?set, ?others, asked.cores⟩
  case set => exact (congrArg (vget · _ 7) asked.qprio).trans (vget_vset_same _ _ _ _ hq)
  case others => exact fun q other => (congrArg (vget · q 7) asked.qprio).trans (vget_vset_other _ _ _ _ _ other)

theorem wait_blocks (ht : (s.callArg 0).toNat < 32767) (known : (s.proc? s.callerSpid).isSome = true)
    (unmet : s.tokenCount s.callerSpid none (s.callArg 0).toNat < (s.callArg 1).toNat) :
    ∃ t p, exec .kqWait s = .next t ∧ p ∈ t.pending ∧ p.id = s.seq ∧ p.hart = s.curHart ∧ p.spid = s.callerSpid ∧ p.kind = 0 ∧
      p.token = (s.callArg 0).toNat ∧ p.target = (s.callArg 1).toNat ∧ (t.hart s.curHart).blocked = true ∧
      (t.hart s.curHart).pc = (s.hart s.curHart).pc ∧
      ((s.callArg 2).toNat ≠ 0 → ∃ e ∈ t.agenda, e.act = .run .kqWaitTimeout (.nums [s.seq]) ∧ e.at_ = s.now + 850 * (s.callArg 2).toNat) := by
  have blocked : s.waitsOnToken.hart s.curHart = { s.hart s.curHart with blocked := true } := State.callBlocks_hart _ hs _
  have listed : { s.tokenWait with inner := (s.hart s.curHart).handling.isSome } ∈ s.waitsOnToken.pending := List.mem_append_right _ (.head _)
  refine ⟨_, _, kqWait_waits ht known unmet, (State.armTimeout_pending ..).symm ▸ listed, rfl, rfl, rfl, rfl, rfl, rfl, ?_, ?_,
    State.armTimeout_agenda s.waitsOnToken s.seq⟩
  · rw [State.armTimeout_hart, blocked]
  · rw [State.armTimeout_hart, blocked]

theorem launch_queued {c : Checked} (hq : (s.callArg 1).toNat < 64) (passed : s.checkPacket s.callerSpid (s.callArg 0).toNat false = .ok c)
    (synced : s.power.ptpLost = false) (room : s.queueLoad (s.callArg 1).toNat < 256)
    (holds : Config.kernelHolds s.free (128 + c.pkt.args.length) = true) :
    ∃ t l, exec .kqLaunch s = .next t ∧ answers s t (BitVec.ofNat 64 s.nextGen) ∧
      t.genCount = s.genCount + 1 ∧ l ∈ t.launches ∧ l.gen = s.nextGen ∧ l.spid = s.callerSpid ∧ l.pkt = c.pkt ∧ l.tree = c.tree ∧ l.insts = c.insts ∧
      l.queue = (s.callArg 1).toNat ∧
      (l.parts = [s.pkg] → vget t.queues (s.callArg 1).toNat [] = vget s.queues (s.callArg 1).toNat [] ++ [s.nextGen]) ∧
      (∀ q ∈ l.parts, q ≠ s.pkg → ∃ e ∈ t.outbox, ∃ m, e.dst = q ∧ e.msg = .packet s.window m ∧ m.gen = s.nextGen ∧ m.spid = s.callerSpid ∧
        m.queue = (s.callArg 1).toNat) ∧
      t.cores = s.cores ∧ t.mem = s.mem := by
  have queued := s.drawn.submit_queues s.callerSpid (s.callArg 1).toNat c none
  obtain ⟨l, listed, same⟩ := s.drawn.submit_launches s.callerSpid (s.callArg 1).toNat c none
  have parts : l.parts = (s.drawn.newLaunch s.callerSpid (s.callArg 1).toNat c none).parts := Eq.trans (congrArg Launch.parts same) rfl
  refine ⟨_, l, kqLaunch_queues hq synced passed room holds, answers_callReturn hs queued.harts _, State.submit_genCount .., listed,
    congrArg Launch.gen same, congrArg Launch.spid same, congrArg Launch.pkt same, congrArg Launch.tree same, congrArg Launch.insts same,
    congrArg Launch.queue same, ?here, ?away, queued.cores, queued.mem⟩
  case here => exact fun here => s.drawn.submit_queue_end _ _ _ _ hq (parts ▸ here)
  case away =>
    intro q part other
    obtain ⟨e, sent, dst, msg⟩ := s.drawn.submit_sends _ _ _ _ (parts ▸ part) other
    exact ⟨e, sent, _, dst, msg, rfl, rfl, rfl⟩

theorem graphNew_adds {l : List Packet} {p : Proc} (positive : 0 < (s.callArg 1).toNat) (few : (s.callArg 1).toNat ≤ 256)
    (passed : s.checkArray s.callerSpid (s.callArg 0).toNat (s.callArg 1).toNat = .ok l) (starts : neverStarts l = false)
    (hp : s.proc? s.callerSpid = some p) (holds : Config.kernelHolds s.free (128 * (s.callArg 1).toNat) = true) :
    ∃ t, exec .kqGraphNew s = .next t ∧ answers s t (BitVec.ofNat 64 p.nextHandle) ∧
      t.graph? s.callerSpid p.nextHandle = some { versions := [l] } ∧ t.cores = s.cores ∧ t.mem = s.mem := by
  have known : s.drawn.proc? s.callerSpid = some p := hp
  refine ⟨_, kqGraphNew_adds positive few passed starts hp holds, answers_callReturn hs rfl _, ?_, rfl, rfl⟩
  rw [State.callReturn_graph?]
  exact State.graph?_modProc known (fun _ h => h) rfl

theorem graphEdit_adds {g : Graph} {l : List Packet} {c : Checked} (hg : s.graph? s.callerSpid (s.callArg 0).toNat = some g)
    (newest : g.versions.getLast? = some l) (index : (s.callArg 1).toNat < l.length)
    (passed : s.checkPacket s.callerSpid (s.callArg 2).toNat true = .ok c) (starts : neverStarts (l.set (s.callArg 1).toNat c.pkt) = false)
    (holds : Config.kernelHolds s.free 128 = true) :
    ∃ t, exec .kqGraphEdit s = .next t ∧ answers s t (BitVec.ofNat 64 (g.versions.length + 1)) ∧
      t.graph? s.callerSpid (s.callArg 0).toNat = some { versions := g.versions ++ [l.set (s.callArg 1).toNat c.pkt] } ∧ t.cores = s.cores := by
  obtain ⟨p, hp⟩ := State.proc?_of_graph? hg
  have known : s.drawn.proc? s.callerSpid = some p := hp
  refine ⟨_, kqGraphEdit_adds hg newest index passed starts holds, answers_callReturn hs rfl _, ?_, rfl⟩
  rw [State.callReturn_graph?]
  exact State.graph?_modProc known (fun _ h => h) rfl

theorem graphRun_queued {g : Graph} {l : List Packet} (hg : s.graph? s.callerSpid (s.callArg 0).toNat = some g) (zero : (s.callArg 1).toNat = 0)
    (newest : g.versions.getLast? = some l) (hq : (s.callArg 2).toNat < 64) (slot : slotOk false (s.callArg 3).toNat = true)
    (room : s.queueLoad (s.callArg 2).toNat + l.length ≤ 256) :
    ∃ t, exec .kqGraphRun s = .next t ∧ answers s t (BitVec.ofNat 64 s.nextGen) ∧ t.nextRun = s.nextRun + 1 ∧ t.cores = s.cores ∧ t.mem = s.mem ∧
      t.procs = s.procs := by
  have queued := State.submitAll_queues s.callerSpid (s.callArg 2).toNat s.nextRun l (s.withRun l.length)
  have made := kqGraphRun_newest hg zero newest hq slot room
  generalize List.foldl _ _ _ = t at queued made
  exact ⟨_, made, answers_callReturn hs queued.harts _, queued.nextRun, queued.cores, queued.mem, queued.procs⟩

theorem openBundle_opened {p : Proc} {f : List Byte} {t : State} {n : Nat} (hp : s.proc? s.callerSpid = some p)
    (hf : s.procRead s.callerSpid (s.callArg 0).toNat (s.callArg 1).toNat = some f) (room : p.log.length < 256)
    (holds : Config.kernelHolds s.free (s.callArg 1).toNat = true) (passed : s.openFails f = none)
    (opened : s.drawn.openBundle s.callerSpid f = some (t, n)) :
    ∃ u, exec .kqOpenBundle s = .next u ∧ answers t u (BitVec.ofNat 64 n) ∧
      t.harts = s.harts ∧ u.procs = t.procs ∧ (∃ q, u.proc? s.callerSpid = some q ∧ (Table.find? q.bundles n).isSome = true) := by
  have known : (s.drawn.proc? s.callerSpid).isSome = true := Option.isSome_iff_exists.2 ⟨p, hp⟩
  obtain ⟨harts, caller, inProcess⟩ := State.openBundle_opens known opened
  have made := kqOpenBundle_opens hp hf room holds passed opened
  replace caller : s.curHart = t.curHart := caller.symm
  rw [caller] at made hs
  exact ⟨_, made, answers_callReturn hs rfl _, harts, rfl, inProcess⟩

end

/-- Settles O50 (R27, R49 to R57, R69 to R72): one equation of each call per case, and what queueing a launch, changing the process and opening a
bundle leave. -/
theorem launchingCalls : Obligations.LaunchingCalls := by
  unfold Obligations.LaunchingCalls
  intro s hs
  refine ⟨onlyAnswers_of_callReturn hs rfl, queuePrio_set hs, ?prioBad, ?waitMet, wait_blocks hs, ?waitBad, ?timeout, ?launchError, ?launchUnsynced,
    ?launch, ?launchFull, ?graphNewBad, ?graphNew, ?noGraph, ?graphEdit, ?graphRun, ?openBundle, ?openUnknown⟩
  case prioBad => exact fun bad => onlyAnswers_of_callReturn hs (kqQueuePrio_bad bad)
  case waitMet => exact fun ht known met => onlyAnswers_of_callReturn hs (kqWait_met ht known met)
  case waitBad => exact fun bad => onlyAnswers_of_callReturn hs (kqWait_bad bad)
  case timeout => exact fun _ _ harg found hh home => waitTimeout_returns harg found hh home
  case launchError => exact fun _ hq synced failed => onlyAnswers_of_callReturn hs (kqLaunch_error hq synced failed)
  case launchUnsynced => exact fun lost others => onlyAnswers_of_callReturn hs (kqLaunch_unsynced lost others)
  case launch =>
    exact fun _ hq passed synced room => ⟨fun lacks => onlyAnswers_of_drawn hs (kqLaunch_noMemory hq synced passed room lacks),
      launch_queued hs hq passed synced room⟩
  case launchFull => exact fun _ hq passed synced full => onlyAnswers_of_callReturn hs (kqLaunch_full hq synced passed full)
  case graphNewBad => exact fun bad => onlyAnswers_of_callReturn hs (kqGraphNew_bad bad)
  case graphNew =>
    exact fun _ _ positive few passed starts hp => ⟨fun lacks => onlyAnswers_of_drawn hs (kqGraphNew_noMemory positive few passed starts lacks),
      graphNew_adds hs positive few passed starts hp⟩
  case noGraph =>
    exact fun missing => ⟨onlyAnswers_of_callReturn hs (kqGraphEdit_noGraph missing), onlyAnswers_of_callReturn hs (kqGraphRun_noGraph missing)⟩
  case graphEdit =>
    exact fun _ _ _ hg newest index passed starts => ⟨fun lacks => onlyAnswers_of_drawn hs (kqGraphEdit_noMemory hg newest index passed starts lacks),
      graphEdit_adds hs hg newest index passed starts⟩
  case graphRun => exact fun _ _ hg zero newest hq slot room => graphRun_queued hs hg zero newest hq slot room
  case openBundle =>
    intro p f hp hf room
    split
    case isTrue lacks => exact onlyAnswers_of_drawn hs (kqOpenBundle_noMemory hp hf lacks)
    case isFalse held =>
      have holds : Config.kernelHolds s.free (s.callArg 1).toNat = true := eq_true_of_ne_false held
      split
      case h_1 failed => exact onlyAnswers_of_drawn hs (kqOpenBundle_fails hp hf room holds failed)
      case h_2 passed full => exact onlyAnswers_of_drawn hs (kqOpenBundle_noPlace hp hf room holds passed full)
      case h_3 passed opened => exact openBundle_opened hs hp hf room holds passed opened
  case openUnknown => exact fun unknown => onlyAnswers_of_callReturn hs (kqOpenBundle_noProcess unknown)

end Sys2Proof.Machine
end

