-- ==== Sys2Proof/Proofs/Turns.lean ====
section
/-! SUPPORT. What a turn runs (R49, R82, R90, R121, R139, R312, R391, R398): one equation per kind of turn, the word that a stream fetches, and with
them O56. -/

namespace Sys2Proof.Machine

/-! ### Turns -/

section

variable {s : State} (running : s.power.clocksOff = false)
include running

/-- The head of the turn list moves, in the machine without it. -/
theorem step_turn {t : Turn} {ts : List Turn} (turn : s.turns = t :: ts) : step s = stepTurn { s with turns := ts } t := by
  simp only [step, turn, running, Bool.false_and, Bool.false_eq_true, if_false]
/-- With no turn left the device moves. -/
theorem step_device (idle : s.turns = []) : step s = stepDevice s := by
  simp only [step, idle, running, Bool.false_eq_true, if_false]

end

/-- The earliest entry that no freeze holds back happens at its cycle. -/
theorem stepDevice_picked {s : State} {e : Event} {rest : List Event} (picked : s.pick [] s.agenda = some (e, rest)) :
    stepDevice s = stepAct (({ s with agenda := rest } : State).advance e.at_) e.act := by
  simp only [stepDevice, picked]
theorem pick_head {s : State} {e : Event} {es : List Event} (first : s.agenda = e :: es) (due : s.held e = false) :
    s.pick [] s.agenda = some (e, es) := by
  simp [first, State.pick, due]

/-! ### Streams (R82, R90, R121, R398) -/

/-- A stream that is no bank issues a word. -/
theorem stepIssue_word (s : State) (c : Nat) {k : Strm} (stream : ∀ b, k ≠ .bank b) : stepIssue s c k = stepWord s c k := by
  cases k with
  | bank b => exact absurd rfl (stream b)
  | scalar | vector | matrix => rfl

section

variable {s : State} {c : Nat} {k : Strm}
  (goes : ((s.core c).strm k).live = true ∧ (s.core c).sc.halted = false ∨ ((s.core c).strm k).replay ≠ [])
include goes

theorem stepWord_active : ¬ ((!((s.core c).strm k).live || (s.core c).sc.halted) && ((s.core c).strm k).replay.isEmpty) = true := by
  rcases goes with ⟨live, going⟩ | entry
  · simp [live, going]
  · simp [entry]

variable (issues : ((s.core c).strm k).skips = false)
include issues

theorem stepWord_fetched {i : Instr} (word : (s.beginIssue c k).fetched c k = some i) : stepWord s c k = exec i (s.beginIssue c k) := by
  simp only [stepWord, if_neg (stepWord_active goes), issues, Bool.false_eq_true, if_false, word]
theorem stepWord_illegal (illegal : (s.beginIssue c k).fetched c k = none) : stepWord s c k = .next ((s.beginIssue c k).illegalWord c k) := by
  simp only [stepWord, if_neg (stepWord_active goes), issues, Bool.false_eq_true, if_false, illegal]

end

/-- A word that a stream takes fresh from its plane: it stands on its next index, with no override. -/
theorem StreamSt.begin_fresh {st : StreamSt} (whole : st.sub = 0) (plain : st.ovr = none) (fresh : st.replay = []) (seq cyc : Nat) :
    (st.begin seq cyc).widx = st.next ∧ (st.begin seq cyc).ovr = none := by
  simp [StreamSt.begin, whole, plain, fresh]

section

variable (k : Core) (st : StreamSt) {strm : Strm} (stream : ∀ b, strm ≠ .bank b)
include stream

theorem Core.strm_setStrm : (k.setStrm st strm).strm strm = st := by
  cases strm with
  | bank b => exact absurd rfl (stream b)
  | scalar | vector | matrix => rfl
/-- A stream's own state is no part of its instruction memory. -/
theorem Core.wordAt_setStrm (i : Nat) : (k.setStrm st strm).wordAt strm i = k.wordAt strm i := by
  cases strm with
  | bank b => exact absurd rfl (stream b)
  | scalar | vector | matrix => rfl

end

/-- The core of a stream whose turn it is. -/
theorem State.beginIssue_core (s : State) (c : Nat) (k : Strm) :
    (s.beginIssue c k).core c = (s.core c).setStrm (((s.core c).strm k).begin s.seq (s.localCyc c)) k :=
  State.core_modCore s c fun x => x.setStrm ((x.strm k).begin s.seq (s.localCyc c)) k

/-- A fresh word is the one that the active plane holds at the stream's next index. -/
theorem State.fetched_fresh {s : State} {c : Nat} {k : Strm} (stream : ∀ b, k ≠ .bank b) (whole : ((s.core c).strm k).sub = 0)
    (plain : ((s.core c).strm k).ovr = none) (fresh : ((s.core c).strm k).replay = []) {w : Nat} {i : Instr}
    (word : (s.core c).wordAt k ((s.core c).strm k).next = some w) (decodes : decodeFor k w = .ok i) :
    (s.beginIssue c k).fetched c k = some i := by
  obtain ⟨index, still⟩ := StreamSt.begin_fresh whole plain fresh s.seq (s.localCyc c)
  have current : ((s.beginIssue c k).core c).curWord k = w := by
    simp only [Core.curWord, State.beginIssue_core, Core.strm_setStrm _ _ stream, Core.wordAt_setStrm _ _ stream, index, still, word, Option.getD_some]
  simp only [State.fetched, current, decodes]
  simp [State.beginIssue_core, Core.strm_setStrm _ _ stream, Core.wordAt_setStrm _ _ stream, index, word, Except.toOption]

/-! ### Banks (R312) -/

/-- A bank issues the move its program stands on. -/
theorem stepIssue_move {s : State} {c : Nat} {b : BitVec 5} {e : Engine} {w : BitVec 32} (engine : ((s.core c).bank b.toNat).engine = some e)
    (runs : e.suspended = false) (move : e.code[e.idx]? = some w) :
    stepIssue s c (.bank b) = exec (decodeMove w.toNat) { s with curCore := c, curStrm := .bank b } := by
  have stands : ((({ s with curCore := c, curStrm := .bank b } : State).core c).bank b.toNat).engine = some e := engine
  change stepMove s c b = _
  simp only [stepMove, State.moveAt, stands, runs, move, Bool.false_eq_true, if_false, Option.map_some]

/-! ### Harts (R49, R139, R391) -/

/-- A hart that runs no handler, or has not come to the return stub, hands nothing over. -/
theorem handling_away {s : State} {h : Nat} (away : (s.hart h).handling = none ∨ (s.hart h).pc ≠ Config.returnStub) :
    (s.hart h).handling.filter (fun _ => (s.hart h).pc == Config.returnStub) = none := by
  rcases away with idle | elsewhere
  · rw [idle, Option.filter_none]
  · simp [beq_false_of_ne elsewhere]

section

variable {s : State} {h : Nat} (running : (s.hart h).running = true) (free : (s.hart h).blocked = false)
include running free

theorem stepHart_goes : ¬ (!(s.hart h).running || (s.hart h).blocked) = true := by
  simp [running, free]
/-- A handler that has come to the return stub hands its result over. -/
theorem stepHart_returns {d x : Nat} (handles : (s.hart h).handling = some (d, x)) (stub : (s.hart h).pc = Config.returnStub) :
    stepHart s h = exec .handlerReturn { s with curHart := h, arg := .word [d, x] ((s.hart h).reg 10) } := by
  simp only [stepHart, if_neg (stepHart_goes running free), handles, stub, beq_self_eq_true, Option.filter_some, if_true]

variable (away : (s.hart h).handling = none ∨ (s.hart h).pc ≠ Config.returnStub)
include away

theorem stepHart_interrupted {n : Nat} (cause : (s.hart h).interrupt = some n) :
    stepHart s h = .next (({ s with curHart := h } : State).modHart h fun y => y.trap n 0 true) := by
  simp only [stepHart, if_neg (stepHart_goes running free), handling_away away, cause]

variable (quiet : (s.hart h).interrupt = none)
include quiet

theorem stepHart_fetchFault {e : Nat × Nat} (fault : ({ s with curHart := h } : State).hartFetch h = .error e) :
    stepHart s h = .next (({ s with curHart := h } : State).hartTrap h e.1 (BitVec.ofNat 64 e.2)) := by
  simp only [stepHart, if_neg (stepHart_goes running free), handling_away away, quiet, fault]

variable {w : Nat} (word : ({ s with curHart := h } : State).hartFetch h = .ok w)
include word

theorem stepHart_instr {i : Instr} (instr : hartWordOf (s.hart h) w = .instr i) : stepHart s h = exec i { s with curHart := h } := by
  simp only [stepHart, if_neg (stepHart_goes running free), handling_away away, quiet, word, instr]
theorem stepHart_exception (exception : hartWordOf (s.hart h) w = .exception) :
    stepHart s h = .next (({ s with curHart := h } : State).hartIllegal h) := by
  simp only [stepHart, if_neg (stepHart_goes running free), handling_away away, quiet, word, exception]
theorem stepHart_base (base : hartWordOf (s.hart h) w = .base) : stepHart s h = .next (({ s with curHart := h } : State).hartBase h w) := by
  simp only [stepHart, if_neg (stepHart_goes running free), handling_away away, quiet, word, base]

end

/-- Settles O56 (R49, R82, R90, R121, R139, R312, R391, R398): the turn list gives the turn, and one equation of it per case what it runs. -/
theorem stepRunsTheWord : Obligations.StepRunsTheWord := by
  unfold Obligations.StepRunsTheWord
  refine ⟨?stream, ?bank, ?hart, ?stub, ?input, ?device, ?first, fun _ _ _ => rfl⟩
  case stream =>
    intro s ts c k turn running stream goes issues
    have turned : step s = stepWord { s with turns := ts } c k := (step_turn running turn).trans (stepIssue_word _ c stream)
    rw [turned]
    refine ⟨fun i => stepWord_fetched (s := { s with turns := ts }) goes issues, stepWord_illegal (s := { s with turns := ts }) goes issues, ?_⟩
    intro whole plain fresh w i word decodes
    have fetched := State.fetched_fresh (s := { s with turns := ts }) stream whole plain fresh word decodes
    exact stepWord_fetched (s := { s with turns := ts }) goes issues fetched
  case bank =>
    intro s ts c b e w turn running engine runs move
    exact (step_turn running turn).trans (stepIssue_move (s := { s with turns := ts }) engine runs move)
  case hart =>
    intro s ts h _ turn clock running free away
    have turned : step s = stepHart { s with turns := ts } h := step_turn clock turn
    rw [turned]
    refine ⟨fun n => stepHart_interrupted (s := { s with turns := ts }) running free away, fun quiet => ⟨fun e => ?_, fun w word => ⟨?_, ?_, ?_⟩⟩⟩
    · exact stepHart_fetchFault (s := { s with turns := ts }) running free away quiet
    · exact stepHart_instr (s := { s with turns := ts }) running free away quiet word
    · exact stepHart_exception (s := { s with turns := ts }) running free away quiet word
    · exact stepHart_base (s := { s with turns := ts }) running free away quiet word
  case stub =>
    intro s ts h d x turn clock running free handles stub
    exact (step_turn clock turn).trans (stepHart_returns (s := { s with turns := ts }) running free handles stub)
  case input => exact fun s ts i a turn running => step_turn running turn
  case device => exact fun s e rest idle running picked => (step_device running idle).trans (stepDevice_picked picked)
  case first => exact fun s e es first due => pick_head first due

end Sys2Proof.Machine
end

