-- ==== Sys2Proof/Proofs/LaunchFrames.lean ====
section
/-! SUPPORT. Launches by generation, and what the operations on them leave alone: noting the heads and asking for a selection, binding, what a packet
brings of its process, messages, calls that return, and releasing a launch. -/

namespace Sys2Proof.Machine

/-! ### Launches by generation -/

theorem State.launch?_gen {s : State} {gen : Nat} {l : Launch} (h : s.launch? gen = some l) : l.gen = gen := by
  simpa using List.find?_some h
/-- A launch changed reads back, any other is as it was. -/
theorem State.launch?_modLaunch (s : State) (gen g : Nat) {f : Launch → Launch} (keeps : ∀ l, (f l).gen = l.gen) :
    (s.modLaunch g f).launch? gen = (s.launch? gen).map fun l => if l.gen = g then f l else l := by
  have same : ((fun l : Launch => l.gen == gen) ∘ fun l => if l.gen = g then f l else l) = fun l => l.gen == gen := by
    funext l
    simp only [Function.comp_apply]
    split
    · rw [keeps]
    · rfl
  simp only [State.launch?, State.modLaunch, List.find?_map, same]
theorem State.launch?_modLaunch_same {s : State} {gen : Nat} {l : Launch} {f : Launch → Launch} (keeps : ∀ l, (f l).gen = l.gen)
    (h : s.launch? gen = some l) : (s.modLaunch gen f).launch? gen = some (f l) := by
  rw [State.launch?_modLaunch _ _ _ keeps, h, Option.map_some, if_pos (State.launch?_gen h)]

/-- `x` is the launch `l`, of which it may have been noted since when it has headed its queue. -/
def SameButHead (l x : Launch) : Prop := x = { l with headAt := x.headAt }

section

variable {l x : Launch} (h : SameButHead l x)
include h

theorem SameButHead.st : x.st = l.st := Eq.trans (congrArg Launch.st h) rfl
theorem SameButHead.result : x.result = l.result := Eq.trans (congrArg Launch.result h) rfl
theorem SameButHead.code : x.code = l.code := Eq.trans (congrArg Launch.code h) rfl
theorem SameButHead.entry : x.entry = l.entry := Eq.trans (congrArg Launch.entry h) rfl
theorem SameButHead.pkgAt : x.pkgAt = l.pkgAt := Eq.trans (congrArg Launch.pkgAt h) rfl

end

/-- Noting the heads leaves a launch as it was but for that note. -/
theorem State.noteHeads_launch? {s : State} {gen : Nat} {l : Launch} (h : s.launch? gen = some l) :
    ∃ x, s.noteHeads.launch? gen = some x ∧ SameButHead l x := by
  refine List.foldlRecOn (motive := fun t : State => ∃ x, t.launch? gen = some x ∧ SameButHead l x) _ _ ⟨l, h, rfl⟩ fun t ht q _ => ?_
  obtain ⟨x, hx, same⟩ := ht
  split
  case h_2 => exact ⟨x, hx, same⟩
  case h_1 head _ =>
    split
    case isFalse => exact ⟨x, hx, same⟩
    case isTrue =>
      have noted := State.launch?_modLaunch t gen head.gen (f := fun l => { l with headAt := some t.now }) fun _ => rfl
      rw [hx, Option.map_some] at noted
      refine ⟨_, noted, ?_⟩
      split
      · exact congrArg (fun y : Launch => { y with headAt := some t.now }) same
      · exact same
/-- So does asking for a selection. -/
theorem State.askSelection_launch? {s : State} {gen : Nat} {l : Launch} (h : s.launch? gen = some l) :
    ∃ x, s.askSelection.launch? gen = some x ∧ SameButHead l x := by
  have noted := State.noteHeads_launch? h
  simpa only [State.launch?, State.askSelection_launches] using noted
/-- Where every head has been noted already, nothing is noted. -/
theorem State.noteHeads_noted {s : State} (noted : ∀ q l, s.queueHead q = some l → l.headAt.isSome = true) : s.noteHeads = s := by
  refine List.foldlRecOn (motive := fun t : State => t = s) _ _ rfl fun t same q _ => ?_
  subst same
  split
  case h_2 => rfl
  case h_1 head hq =>
    have since : head.headAt.isNone = false := Option.isNone_eq_false_iff.2 (noted q head hq)
    simp only [since, Bool.false_and, Bool.false_eq_true, if_false]

/-! ### The frame of a selection asked for -/

section

variable {s t : State} (h : AsksSelection s t)
include h

theorem AsksSelection.mem : t.mem = s.mem := Eq.trans (congrArg State.mem h) rfl
theorem AsksSelection.stopes : t.stopes = s.stopes := Eq.trans (congrArg State.stopes h) rfl
theorem AsksSelection.latched : t.latched = s.latched := Eq.trans (congrArg State.latched h) rfl
theorem AsksSelection.dies : t.dies = s.dies := Eq.trans (congrArg State.dies h) rfl
theorem AsksSelection.core (c : Nat) : t.core c = s.core c := congrArg (fun cs => Table.getD cs c ({} : Core)) h.cores
theorem AsksSelection.tokenCount (spid : Nat) (run : Option Nat) (n : Nat) : t.tokenCount spid run n = s.tokenCount spid run n :=
  Eq.trans (congrArg (fun x : State => x.tokenCount spid run n) h) rfl

end

theorem State.noteHeads_agenda (s : State) : s.noteHeads.agenda = s.agenda := by
  refine List.foldlRecOn (motive := fun t : State => t.agenda = s.agenda) _ _ rfl fun t same q _ => ?_
  split
  · split <;> exact same
  · exact same
/-- What stood on the agenda stands there still. -/
theorem State.askSelection_agenda {s : State} {e : Event} (h : e ∈ s.agenda) : e ∈ s.askSelection.agenda := by
  rw [← s.noteHeads_agenda] at h
  simp only [State.askSelection]
  split
  · exact h
  · rw [State.post_agenda]
    exact (mem_insertEvent ..).2 (.inr h)
/-- And a selection. -/
theorem State.askSelection_asked (s : State) : ∃ e ∈ s.askSelection.agenda, ∃ a, e.act = .run .selection a := by
  simp only [State.askSelection]
  split
  case isFalse =>
    rw [State.post_agenda]
    exact ⟨_, (mem_insertEvent ..).2 (.inl rfl), _, rfl⟩
  case isTrue asked =>
    obtain ⟨e, he, now⟩ := List.any_eq_true.1 asked
    refine ⟨e, he, ?_⟩
    split at now
    case h_1 a act => exact ⟨a, act⟩
    case h_2 => simp at now

/-! ### Binding (R63, R405) -/

/-- `t` has the queues, the round and the latch of `s`. -/
structure KeepsOrder (s t : State) : Prop where
  queues : t.queues = s.queues
  lastServed : t.lastServed = s.lastServed
  latched : t.latched = s.latched

theorem KeepsOrder.rfl {s : State} : KeepsOrder s s := ⟨Eq.refl _, Eq.refl _, Eq.refl _⟩
theorem KeepsOrder.trans {s t u : State} (h : KeepsOrder s t) (h' : KeepsOrder t u) : KeepsOrder s u :=
  ⟨h'.queues.trans h.queues, h'.lastServed.trans h.lastServed, h'.latched.trans h.latched⟩
theorem KeepsOrder.foldl {α : Type} (s : State) {f : State → α → State} (hf : ∀ t a, KeepsOrder t (f t a)) (l : List α) : KeepsOrder s (l.foldl f s) :=
  List.foldlRecOn (motive := KeepsOrder s) _ _ .rfl fun t ht a _ => ht.trans (hf t a)
theorem KeepsOrder.ite {s t u : State} {p : Prop} [Decidable p] (ht : KeepsOrder s t) (hu : KeepsOrder s u) : KeepsOrder s (if p then t else u) := by
  split
  · exact ht
  · exact hu
theorem AsksSelection.keepsOrder {s t : State} (h : AsksSelection s t) : KeepsOrder s t :=
  ⟨h.queues, Eq.trans (congrArg State.lastServed h) (Eq.refl _), h.latched⟩

theorem KeepsOrder.post (s : State) (a p : Nat) (h : Option Nat) (x : Act) : KeepsOrder s (s.post a p h x) := ⟨Eq.refl _, Eq.refl _, Eq.refl _⟩
theorem KeepsOrder.postAt (s : State) (a p : Nat) (h : Option Nat) (x : Act) : KeepsOrder s (s.postAt a p h x) := ⟨Eq.refl _, Eq.refl _, Eq.refl _⟩
theorem KeepsOrder.modLaunch (s : State) (gen : Nat) (f : Launch → Launch) : KeepsOrder s (s.modLaunch gen f) := ⟨Eq.refl _, Eq.refl _, Eq.refl _⟩
theorem KeepsOrder.setCores (s : State) (l : List (Nat × Core)) : KeepsOrder s (l.foldl (fun u x => u.setCore x.1 x.2) s) :=
  .foldl s (f := fun u x => u.setCore x.1 x.2) (fun _ _ => ⟨Eq.refl _, Eq.refl _, Eq.refl _⟩) l
theorem KeepsOrder.pumpLoader (s : State) (die : Nat) : KeepsOrder s (s.pumpLoader die) := by
  simp only [State.pumpLoader]
  refine .ite .rfl ?_
  split <;> exact ⟨Eq.refl _, Eq.refl _, Eq.refl _⟩
theorem KeepsOrder.askOverlay (s : State) (die gen kernel ovl : Nat) : KeepsOrder s (s.askOverlay die gen kernel ovl) := by
  simp only [State.askOverlay]
  refine .trans ?_ (.pumpLoader ..)
  exact ⟨Eq.refl _, Eq.refl _, Eq.refl _⟩
theorem KeepsOrder.loadTable (s : State) (tab : List BeatEnt) : KeepsOrder s (s.loadTable tab) := by
  simp only [State.loadTable]
  exact .ite ⟨Eq.refl _, Eq.refl _, Eq.refl _⟩ ⟨Eq.refl _, Eq.refl _, Eq.refl _⟩
theorem KeepsOrder.clearArray (s : State) (gen q : Nat) : KeepsOrder s (s.clearArray gen q) := by
  unfold State.clearArray
  exact .ite .rfl ⟨Eq.refl _, Eq.refl _, Eq.refl _⟩
theorem KeepsOrder.restoreQuad (s : State) (gen q : Nat) (old : Quad) (idx : List Nat) : KeepsOrder s (s.restoreQuad gen q old idx) := by
  simp only [State.restoreQuad]
  exact .ite ⟨Eq.refl _, Eq.refl _, Eq.refl _⟩ ⟨Eq.refl _, Eq.refl _, Eq.refl _⟩
theorem KeepsOrder.bindLaunch (s : State) (gen : Nat) : KeepsOrder s (s.bindLaunch gen) := by
  simp only [State.bindLaunch]
  split
  case h_1 => exact .rfl
  case h_2 l _ =>
    refine .trans (.trans ?_ (.ite (.loadTable ..) .rfl)) (.foldl _ (fun _ _ => .foldl _ (fun _ _ => .askOverlay ..) _) _)
    refine .trans (.trans (.foldl _ (fun _ _ => .clearArray ..) _) (.setCores ..)) ⟨Eq.refl _, Eq.refl _, Eq.refl _⟩
theorem KeepsOrder.restoreLaunch (s : State) (gen : Nat) : KeepsOrder s (s.restoreLaunch gen) := by
  simp only [State.restoreLaunch]
  split
  case h_1 => exact .rfl
  case h_2 l _ =>
    refine .trans (.trans ?_ (.ite (.loadTable ..) .rfl)) (.foldl _ (fun _ _ => .foldl _ (fun _ _ => .askOverlay ..) _) _)
    refine .trans (.trans ?_ (.foldl _ (fun _ _ => .restoreQuad ..) _)) (.modLaunch ..)
    refine .trans ?_ (.foldl _ (fun _ _ => .foldl _ (fun _ _ => .postAt ..) _) _)
    exact (KeepsOrder.setCores ..).trans ⟨Eq.refl _, Eq.refl _, Eq.refl _⟩
theorem KeepsOrder.bindOrRestore (s : State) (gen : Nat) : KeepsOrder s (s.bindOrRestore gen) := by
  unfold State.bindOrRestore
  split
  · exact .ite (.bindLaunch ..) (.restoreLaunch ..)
  · exact .rfl

/-! ### What a packet brings of its process (R73) -/

/-- `t` is `s` with what a packet of another package brings of its process. -/
def JoinsProc (s t : State) : Prop := t = { s with procs := t.procs, flows := t.flows }

theorem JoinsProc.trans {s t u : State} (h : JoinsProc s t) (h' : JoinsProc t u) : JoinsProc s u :=
  Eq.trans h' (congrArg (fun x : State => { x with procs := u.procs, flows := u.flows }) h)
theorem JoinsProc.foldl {α : Type} (s : State) {f : State → α → State} (hf : ∀ t a, JoinsProc t (f t a)) (l : List α) : JoinsProc s (l.foldl f s) :=
  List.foldlRecOn (motive := JoinsProc s) _ _ rfl fun t ht a _ => ht.trans (hf t a)
theorem JoinsProc.knowProc (s : State) (spid : Nat) : JoinsProc s (s.knowProc spid) := by
  unfold State.knowProc
  split <;> exact rfl
theorem JoinsProc.poolSlots (s : State) (flows : List (Nat × Nat × Nat)) (add : Bool) : JoinsProc s (s.poolSlots flows add) :=
  .foldl s (fun _ _ => by exact rfl) _
theorem JoinsProc.joinPlan (s : State) (spid id : Nat) (flows : List (Nat × Nat × Nat)) : JoinsProc s (s.joinPlan spid id flows) := by
  simp only [State.joinPlan]
  split
  · exact .knowProc ..
  · exact (((JoinsProc.knowProc ..).trans (.poolSlots ..)).trans (.poolSlots ..)).trans rfl
theorem JoinsProc.joinProc (s : State) (m : RemotePacket) : JoinsProc s (s.joinProc m) := by
  simp only [State.joinProc]
  exact ((JoinsProc.knowProc ..).trans (.foldl _ (fun _ _ => .joinPlan ..) _)).trans rfl

section

variable {s t : State} (h : JoinsProc s t)
include h

theorem JoinsProc.launches : t.launches = s.launches := Eq.trans (congrArg State.launches h) rfl
theorem JoinsProc.queues : t.queues = s.queues := Eq.trans (congrArg State.queues h) rfl
theorem JoinsProc.cores : t.cores = s.cores := Eq.trans (congrArg State.cores h) rfl
theorem JoinsProc.mem : t.mem = s.mem := Eq.trans (congrArg State.mem h) rfl
theorem JoinsProc.queueLoad (q : Nat) : t.queueLoad q = s.queueLoad q := by
  simp only [State.queueLoad, h.launches, h.queues]

end

/-! ### Messages -/

/-- `t` is `s` with messages sent. -/
def OnlySends (s t : State) : Prop := t = { s with outbox := t.outbox }

theorem OnlySends.trans {s t u : State} (h : OnlySends s t) (h' : OnlySends t u) : OnlySends s u :=
  Eq.trans h' (congrArg (fun x : State => { x with outbox := u.outbox }) h)
theorem OnlySends.foldl {α : Type} (s : State) {f : State → α → State} (hf : ∀ t a, OnlySends t (f t a)) (l : List α) : OnlySends s (l.foldl f s) :=
  List.foldlRecOn (motive := OnlySends s) _ _ rfl fun t ht a _ => ht.trans (hf t a)
theorem OnlySends.send (s : State) (p : Nat) (m : Msg) : OnlySends s (s.send p m) := rfl
theorem OnlySends.sendAbort (s : State) (l : Launch) (code entry : Nat) : OnlySends s (s.sendAbort l code entry) :=
  .foldl s (fun _ _ => .send ..) _
theorem OnlySends.tellToken (s : State) (spid : Nat) (run : Option Nat) (t : Nat) : OnlySends s (s.tellToken spid run t) :=
  .foldl s (fun _ _ => .foldl _ (fun _ _ => .send ..) _) _

section

variable {s t : State} (h : OnlySends s t)
include h

theorem OnlySends.launches : t.launches = s.launches := Eq.trans (congrArg State.launches h) rfl
theorem OnlySends.queues : t.queues = s.queues := Eq.trans (congrArg State.queues h) rfl
theorem OnlySends.proc? (spid : Nat) : t.proc? spid = s.proc? spid := Eq.trans (congrArg (fun x : State => x.proc? spid) h) rfl

end

/-! ### Calls that wait (R57) -/

/-- `t` is `s` with waiting calls returned: harts and pending calls change alone. -/
def EndsCalls (s t : State) : Prop := t = { s with harts := t.harts, pending := t.pending }

theorem EndsCalls.trans {s t u : State} (h : EndsCalls s t) (h' : EndsCalls t u) : EndsCalls s u :=
  Eq.trans h' (congrArg (fun x : State => { x with harts := u.harts, pending := u.pending }) h)
theorem EndsCalls.endPending (s : State) (p : Pending) (v : Word64) : EndsCalls s (s.endPending p v) := by
  simp only [State.endPending]
  split
  · split <;> exact rfl
  · exact rfl
theorem EndsCalls.wakeWaits (s : State) : EndsCalls s s.wakeWaits := by
  refine List.foldlRecOn (motive := EndsCalls s) _ _ rfl fun t ht p _ => ?_
  dsimp only
  split
  · exact ht.trans (.endPending ..)
  · exact ht

section

variable {s t : State} (h : EndsCalls s t)
include h

theorem EndsCalls.launch? (gen : Nat) : t.launch? gen = s.launch? gen := Eq.trans (congrArg (fun x : State => x.launch? gen) h) rfl
theorem EndsCalls.tokenCount (spid : Nat) (run : Option Nat) (n : Nat) : t.tokenCount spid run n = s.tokenCount spid run n :=
  Eq.trans (congrArg (fun x : State => x.tokenCount spid run n) h) rfl

end

/-! ### Releasing a launch (R76, R408) -/

/-- `t` has the launches and the queues of `s`. -/
structure KeepsLaunches (s t : State) : Prop where
  launches : t.launches = s.launches
  queues : t.queues = s.queues

theorem KeepsLaunches.rfl {s : State} : KeepsLaunches s s := ⟨Eq.refl _, Eq.refl _⟩
theorem KeepsLaunches.trans {s t u : State} (h : KeepsLaunches s t) (h' : KeepsLaunches t u) : KeepsLaunches s u :=
  ⟨h'.launches.trans h.launches, h'.queues.trans h.queues⟩
theorem KeepsLaunches.foldl {α : Type} (s : State) {f : State → α → State} (hf : ∀ t a, KeepsLaunches t (f t a)) (l : List α) :
    KeepsLaunches s (l.foldl f s) :=
  List.foldlRecOn (motive := KeepsLaunches s) _ _ .rfl fun t ht a _ => ht.trans (hf t a)
theorem KeepsLaunches.launch? {s t : State} (h : KeepsLaunches s t) (gen : Nat) : t.launch? gen = s.launch? gen := by
  simp only [State.launch?, h.launches]

theorem KeepsLaunches.modHart (s : State) (h : Nat) (f : Hart → Hart) : KeepsLaunches s (s.modHart h f) := ⟨Eq.refl _, Eq.refl _⟩
theorem KeepsLaunches.modCore (s : State) (c : Nat) (f : Core → Core) : KeepsLaunches s (s.modCore c f) := ⟨Eq.refl _, Eq.refl _⟩
theorem KeepsLaunches.modStope (s : State) (id : Nat) (f : Stope → Stope) : KeepsLaunches s (s.modStope id f) := ⟨Eq.refl _, Eq.refl _⟩
theorem KeepsLaunches.post (s : State) (a p : Nat) (h : Option Nat) (x : Act) : KeepsLaunches s (s.post a p h x) := ⟨Eq.refl _, Eq.refl _⟩
theorem KeepsLaunches.setWin (s : State) (die w : Nat) (x : TrapWin) : KeepsLaunches s (s.setWin die w x) := ⟨Eq.refl _, Eq.refl _⟩
theorem KeepsLaunches.pendWindows (s : State) : KeepsLaunches s s.pendWindows := .foldl s (fun _ _ => .modHart ..) _
theorem KeepsLaunches.freeWindow (s : State) (die w : Nat) : KeepsLaunches s (s.freeWindow die w) := by
  have freed : KeepsLaunches s (s.setWin die w { st := winFree }).pendWindows := (KeepsLaunches.setWin ..).trans (.pendWindows _)
  simp only [State.freeWindow]
  split
  · exact freed.trans (.post ..)
  · exact freed
theorem KeepsLaunches.dropWindow (s : State) (t : Stope) : KeepsLaunches s (s.dropWindow t) := by
  simp only [State.dropWindow]
  split
  · exact (KeepsLaunches.modStope ..).trans (.freeWindow ..)
  · exact .modStope ..
theorem KeepsLaunches.unbindStope (s : State) (t : Stope) : KeepsLaunches s (s.unbindStope t) := by
  simp only [State.unbindStope]
  refine .trans ?_ (.foldl _ (fun _ _ => .modCore ..) _)
  refine .trans ?_ (.foldl _ (fun u q => ?array) _)
  case array => split <;> exact ⟨Eq.refl _, Eq.refl _⟩
  exact (KeepsLaunches.dropWindow s t).trans ⟨Eq.refl _, Eq.refl _⟩

/-- A launch that holds nothing on this package. -/
def Launch.emptied (l : Launch) : Launch :=
  { l with charge := 0, saved := [], savedStopes := [], savedReqs := [], savedJoins := [], savedQuads := [], saveLeft := [] }

/-- What a release leaves of the launches and the queues. -/
theorem State.release_keeps (s : State) (gen : Nat) :
    KeepsLaunches (({ s with queues := s.queues.map fun q => q.filter fun g => g != gen } : State).modLaunch gen Launch.emptied) (s.release gen) := by
  have unbound : KeepsLaunches s ((s.stopesOf gen).foldl State.unbindStope s) := .foldl s (fun _ _ => .unbindStope ..) _
  have table : ∀ u : State, KeepsLaunches u u.idleTable := fun u => by
    unfold State.idleTable
    split <;> exact ⟨Eq.refl _, Eq.refl _⟩
  simp only [State.release]
  refine .trans ?_ (table _)
  constructor
  · exact congrArg (fun ls : List Launch => ls.map fun l => if l.gen = gen then l.emptied else l) unbound.launches
  · exact congrArg (fun qs : Vector (List Nat) 64 => qs.map fun q => q.filter fun g => g != gen) unbound.queues
theorem State.release_launch? {s : State} {gen : Nat} {l : Launch} (h : s.launch? gen = some l) :
    (s.release gen).launch? gen = some l.emptied := by
  rw [(s.release_keeps gen).launch?]
  exact State.launch?_modLaunch_same (fun _ => rfl) h
/-- No queue holds a launch that has been released. -/
theorem State.release_queues (s : State) (gen q : Nat) : gen ∉ vget (s.release gen).queues q [] := by
  rw [(s.release_keeps gen).queues]
  change gen ∉ vget (s.queues.map _) q []
  cases hq : s.queues[q]? <;> simp [vget, hq]

end Sys2Proof.Machine
end

