-- ==== Sys2Proof/Proofs/LaunchEvents.lean ====
section
/-! SUPPORT. The events of a launch: selection, packets of other packages, READY, ABORT, reports, completion, the start pulse and the load of an
overlay, each with what it leaves in the launches, the queues and the cores; with them O47. -/

namespace Sys2Proof.Machine

open Sys2Proof.Claims

/-! ### Selection (R60, R61) -/

/-- A head that is latched has left its queue, which is the one served last. -/
theorem State.latch_order (s : State) (p q : Nat) (l : Launch) (insts : List Inst) :
    (s.latch p q l insts).latched = some l.gen ∧ (s.latch p q l insts).queues = vset s.queues q (vget s.queues q []).tail ∧
      (s.latch p q l insts).lastServed = vset s.lastServed p q := by
  have kept : KeepsOrder { s with queues := vset s.queues q (vget s.queues q []).tail, lastServed := vset s.lastServed p q, latched := some l.gen }
      (s.latch p q l insts) := by
    simp only [State.latch]
    have noted := fun u : State => (State.noteHeads_asks u).keepsOrder
    refine .trans (.trans ?taken (noted _)) (.ite (.bindOrRestore ..) (.foldl _ (fun _ _ => .post ..) _))
    case taken => exact ⟨Eq.refl _, Eq.refl _, Eq.refl _⟩
  exact ⟨kept.latched, kept.queues, kept.lastServed⟩

/-- Every priority and every queue has its place in the order of selection. -/
theorem State.mem_selectOrder (s : State) {p q : Nat} (hp : p < 8) (hq : q < 64) : (p, q) ∈ s.selectOrder := by
  refine List.mem_flatMap.2 ⟨p, List.mem_range.2 hp, List.mem_map.2 ⟨q, ?_, rfl⟩⟩
  generalize vget s.lastServed p 63 = last
  refine List.mem_map.2 ⟨(q + 64 - (last + 1) % 64) % 64, List.mem_range.2 ?_, ?_⟩ <;> omega

section

variable {s : State} {l : Launch} {q : Nat} {insts : List Inst} (head : s.queueHead q = some l) (alone : ∀ x, x ≠ q → s.queueHead x = none)
  (met : s.waitsMet l = true) (single : l.parts.length ≤ 1) (open_ : s.reserving = none) (fits : s.fits l = .ok insts)
include head alone met single open_ fits

/-- The one head there is is latched where the order comes to its priority and its queue. -/
theorem State.selectFrom_latches (order : List (Nat × Nat)) (listed : (s.effPrio l, q) ∈ order) :
    s.selectFrom order = s.latch (s.effPrio l) q l insts := by
  have turn : s.itsTurn l = true := by simp [State.itsTurn, single]
  have unreserved : s.reserve = none := by simp [State.reserve, open_]
  induction order with
  | nil => cases listed
  | cons x rest ih =>
    obtain ⟨p, y⟩ := x
    by_cases hy : y = q
    case neg =>
      have later : (s.effPrio l, q) ∈ rest := by simpa [Ne.symm hy] using listed
      simpa only [State.selectFrom, alone y hy] using ih later
    case pos =>
      subst hy
      by_cases hp : s.effPrio l = p
      case neg =>
        have later : (s.effPrio l, y) ∈ rest := by simpa [hp] using listed
        simpa [State.selectFrom, head, hp] using ih later
      case pos =>
        subst hp
        simp [State.selectFrom, head, met, turn, unreserved, fits]

theorem selection_latches (idle : s.latched = none) (powered : s.power.tripped = false) (hq : q < 64) (noted : l.headAt.isSome = true)
    (prio : s.effPrio l ≤ 7) : exec .selection s = .next (s.latch (s.effPrio l) q l insts) := by
  have still : s.noteHeads = s := State.noteHeads_noted fun y m hm => by
    by_cases hy : y = q
    · subst hy
      rw [head] at hm
      exact Option.some.inj hm ▸ noted
    · rw [alone y hy] at hm
      cases hm
  have chosen := State.selectFrom_latches head alone met single open_ fits s.selectOrder (s.mem_selectOrder (Nat.lt_succ_of_le prio) hq)
  change execSelection s = _
  simp only [execSelection, idle, powered, still, chosen, Option.isSome_none, Bool.or_self, Bool.false_eq_true, if_false]

end

theorem selection_idle {s : State} (busy : s.latched.isSome = true ∨ s.power.tripped = true) : exec .selection s = .next s :=
  if_pos (by simpa using busy)

/-! ### Packets of other packages (R73, R76) -/

/-- The launch that a packet of another package brings, in the machine that knows its process. -/
def State.packetLaunch (s : State) (m : RemotePacket) : Launch :=
  let pkt := { packetOf m.packet m.args with beatreq := some (beatEntries m.beats) }
  { gen := m.gen, spid := m.spid, queue := m.queue % 64, pkt, insts := m.insts, st := .reserved, remote := true, origin := m.gen / 2 ^ 58
    tree := (((s.proc? m.spid).bind fun p => Table.find? p.bundles pkt.bundle).bind fun b =>
      (pickTree b.sects pkt.tree).map fun x => treeNodes (b.sectBytes x)).getD []
    pkgs := s.targets pkt.pkgmask, heard := (List.zip (pkt.waits.map Prod.fst) m.counts).foldl (fun t x => Table.put t x.1 x.2) []
    graph := m.graph, release := some (m.sent + 2) }

section

variable {s : State} {m : RemotePacket} (harg : s.arg = .packet m)
include harg

theorem multiPackagePacket_reserves (room : s.queueLoad (m.queue % 64) < 256) : exec .multiPackagePacket s =
    .next { s.joinProc m with launches := (s.joinProc m).launches ++ [(s.joinProc m).packetLaunch m] } := by
  rw [← (JoinsProc.joinProc s m).queueLoad] at room
  change execMultiPackagePacket s = _
  simp only [execMultiPackagePacket, harg, if_neg (Nat.not_le.2 room)]
  rfl
theorem multiPackagePacket_full (full : 256 ≤ s.queueLoad (m.queue % 64)) : exec .multiPackagePacket s =
    .next ((s.joinProc m).sendAbort ((s.joinProc m).packetLaunch m) 0x44 0) := by
  rw [← (JoinsProc.joinProc s m).queueLoad] at full
  change execMultiPackagePacket s = _
  simp only [execMultiPackagePacket, harg, if_pos full]
  rfl

end

/-! ### READY (R75) -/

/-- The start pulses of a launch: they change launches and agenda alone, as asking for a selection does. -/
theorem State.pulse_frame (s : State) (gen : Nat) : AsksSelection s (s.pulse gen) :=
  List.foldlRecOn (motive := AsksSelection s) _ _ (.modLaunch ..) fun _ ht _ _ => ht.trans (.post ..)
theorem State.pulse_launch? {s : State} {gen : Nat} {l : Launch} (h : s.launch? gen = some l) :
    (s.pulse gen).launch? gen = some { l with st := .pulsing } :=
  List.foldlRecOn (motive := fun t : State => t.launch? gen = some { l with st := .pulsing }) _ _
    (State.launch?_modLaunch_same (fun _ => rfl) h) fun _ ht _ _ => ht

theorem State.checkReady_frame (s : State) (gen : Nat) : AsksSelection s (s.checkReady gen) := by
  simp only [State.checkReady]
  split
  case h_2 => rfl
  case h_1 =>
    split
    case isFalse => rfl
    case isTrue =>
      split
      · exact (AsksSelection.modLaunch ..).trans (State.pulse_frame ..)
      · exact .modLaunch ..
/-- Of a launch whose READY messages are looked at, the window of its start may be fixed, and if it was ready it may start. -/
theorem State.checkReady_launch? {s : State} {gen : Nat} {l : Launch} (h : s.launch? gen = some l) :
    ∃ x, (s.checkReady gen).launch? gen = some x ∧ x = { l with st := x.st, startWin := x.startWin } ∧ (l.st ≠ .ready → x.st = l.st) := by
  simp only [State.checkReady, h]
  split
  case isFalse => exact ⟨l, h, rfl, fun _ => rfl⟩
  case isTrue ready =>
    have was : l.st = .ready := by simpa using (Bool.and_eq_true_iff.1 ready).1
    have fixed := fun w : Nat => State.launch?_modLaunch_same (f := fun l => { l with startWin := some w }) (fun _ => rfl) h
    split
    · exact ⟨_, State.pulse_launch? (fixed _), rfl, fun other => absurd was other⟩
    · exact ⟨_, fixed _, rfl, fun _ => rfl⟩

/-- A launch with the READY message of a package noted. -/
def Launch.heardReady (l : Launch) (pkg win : Nat) (cores : List Nat) : Launch :=
  { l with readyWin := l.readyWin.filter (fun r => r.1 != pkg) ++ [(pkg, win)]
           readyCores := l.readyCores.filter (fun r => r.1 != pkg) ++ [(pkg, cores)] }

theorem ready_noted {s : State} {gen pkg win : Nat} {cores : List Nat} {l : Launch} (harg : s.arg = .nums (gen :: pkg :: win :: cores))
    (h : s.launch? gen = some l) : ∃ t x, exec .ready s = .next t ∧ t.launch? gen = some x ∧ AsksSelection s t ∧
      x = { l.heardReady pkg win cores with st := x.st, startWin := x.startWin } ∧ (l.st ≠ .ready → x.st = l.st) := by
  have noted := State.launch?_modLaunch_same (f := fun l => l.heardReady pkg win cores) (fun _ => rfl) h
  obtain ⟨x, hx, same, st⟩ := State.checkReady_launch? noted
  refine ⟨_, x, ?_, hx, (AsksSelection.modLaunch ..).trans (State.checkReady_frame ..), same, st⟩
  change execReady s = _
  simp only [execReady, harg]
  rfl

/-! ### Ending a launch (R57, R76, R408) -/

/-- A launch ends with a result, unless it has one. -/
def Launch.ends (l : Launch) (result code entry pkg : Nat) : Launch := if l.result = 0 then { l with result, code, entry, pkgAt := pkg } else l

theorem Launch.ends_first {l : Launch} (first : l.result = 0) (result code entry pkg : Nat) :
    l.ends result code entry pkg = { l with result, code, entry, pkgAt := pkg } := if_pos first
theorem Launch.ends_again {l : Launch} (again : l.result ≠ 0) (result code entry pkg : Nat) : l.ends result code entry pkg = l := if_neg again
theorem Launch.ends_gen (l : Launch) (result code entry pkg : Nat) : (l.ends result code entry pkg).gen = l.gen := by
  unfold Launch.ends
  split <;> rfl
theorem State.setResult_launch? {s : State} {gen : Nat} {l : Launch} (h : s.launch? gen = some l) (result code entry pkg : Nat) :
    (s.setResult gen result code entry pkg).launch? gen = some (l.ends result code entry pkg) :=
  State.launch?_modLaunch_same (f := fun l => l.ends result code entry pkg) (fun l => l.ends_gen ..) h

/-- A launch that the kernel ends is pre-empted at once. -/
theorem State.endLaunch_launch? {s : State} {gen : Nat} {l : Launch} (h : s.launch? gen = some l) (result code entry : Nat) :
    (s.endLaunch gen result code entry).launch? gen = some { l.ends result code entry s.pkg with cancelled := true } :=
  State.launch?_modLaunch_same (f := fun l => { l with cancelled := true }) (fun _ => rfl) (State.setResult_launch? h ..)
theorem State.endLaunch_agenda (s : State) (gen result code entry : Nat) :
    ∃ e ∈ (s.endLaunch gen result code entry).agenda, e.act = .run .preemption (.nums [gen]) ∧ e.at_ = s.now :=
  ⟨_, (mem_insertEvent ..).2 (.inl rfl), rfl, rfl⟩

/-- A launch that is dropped has ended, with the result given, and stands in no queue. -/
theorem State.dropLaunch_ended {s : State} {gen : Nat} {l : Launch} (h : s.launch? gen = some l) (first : l.result = 0) (result code entry pkg : Nat) :
    ∃ x, (s.dropLaunch gen result code entry pkg).launch? gen = some x ∧ (x.st = .retired ∨ x.st = .complete) ∧ x.result = result ∧ x.code = code ∧
      x.entry = entry ∧ x.pkgAt = pkg ∧ ∀ q, gen ∉ vget (s.dropLaunch gen result code entry pkg).queues q [] := by
  have released := State.release_launch? (State.setResult_launch? h result code entry pkg)
  rw [Launch.ends_first first] at released
  have left := State.release_queues (s.setResult gen result code entry pkg) gen
  simp only [State.dropLaunch]
  generalize (s.setResult gen result code entry pkg).release gen = u at released left
  have ended := fun st : LState => State.launch?_modLaunch_same (f := fun l => { l with st }) (fun _ => rfl) released
  simp only [released]
  split
  · exact ⟨_, ended .retired, .inl rfl, rfl, rfl, rfl, rfl, left⟩
  · exact ⟨_, ended .complete, .inr rfl, rfl, rfl, rfl, rfl, left⟩

section

variable {s : State} {gen pkg z code entry : Nat} {l : Launch} (harg : s.arg = .nums [gen, pkg, z, code, entry]) (h : s.launch? gen = some l)
include harg h

theorem abort_over (done : l.st = .complete) : exec .abort s = .next s := by
  change execAbort s = _
  simp [execAbort, harg, h, done]
/-- A launch that runs is ended as by a run-time fault. -/
theorem abort_running (runs : l.st = .running) (first : l.result = 0) :
    ∃ t x, exec .abort s = .next t ∧ t.launch? gen = some x ∧ x.cancelled = true ∧ x.result = 2 ∧ x.code = code ∧ x.entry = entry ∧
      (∃ e ∈ t.agenda, e.act = .run .preemption (.nums [gen]) ∧ e.at_ = s.now) ∧ t.cores = s.cores := by
  have failed := State.setResult_launch? h 2 code entry pkg
  rw [Launch.ends_first first] at failed
  have ended := State.endLaunch_launch? failed 2 code entry
  rw [Launch.ends_again (Nat.succ_ne_zero 1)] at ended
  refine ⟨_, _, ?_, ended, rfl, rfl, rfl, rfl, State.endLaunch_agenda .., rfl⟩
  change execAbort s = _
  simp [execAbort, harg, h, runs, LState.started]
/-- One that is queued is dropped. -/
theorem abort_queued (waits : l.st = .queued) (first : l.result = 0) :
    ∃ t x, exec .abort s = .next t ∧ t.launch? gen = some x ∧ (x.st = .retired ∨ x.st = .complete) ∧ x.result = 1 ∧
      x.code = code ∧ x.entry = entry ∧ x.pkgAt = pkg ∧ ∀ q, gen ∉ vget t.queues q [] := by
  obtain ⟨x, hx, st, result, hcode, hentry, hpkg, left⟩ := State.dropLaunch_ended h first 1 code entry pkg
  obtain ⟨y, hy, same⟩ := State.askSelection_launch? hx
  refine ⟨_, y, ?_, hy, same.st ▸ st, same.result.trans result, same.code.trans hcode, same.entry.trans hentry, same.pkgAt.trans hpkg, ?_⟩
  · change execAbort s = _
    simp [execAbort, harg, h, waits, LState.started]
  · rw [(State.askSelection_asks _).queues]
    exact left

end

/-! ### Reports (R77) -/

/-- A launch with a package's report noted. -/
def Launch.heardReport (l : Launch) (pkg : Nat) : Launch := { l with reports := if l.reports.contains pkg then l.reports else l.reports ++ [pkg] }

theorem Launch.mem_heardReport (l : Launch) (pkg r : Nat) : r ∈ (l.heardReport pkg).reports ↔ r ∈ l.reports ∨ r = pkg := by
  simp only [Launch.heardReport]
  split
  case isTrue known =>
    have listed : pkg ∈ l.reports := by simpa using known
    exact ⟨.inl, fun h => h.elim id fun same => same ▸ listed⟩
  case isFalse => simp

/-- A report without a failure: it is noted, and with the last one completion is asked for. -/
theorem State.noteReport_good {s : State} {gen pkg : Nat} {l : Launch} (h : s.launch? gen = some l) (code entry failed : Nat) :
    s.noteReport gen pkg 0 code entry failed =
      if l.parts.all (fun p => (l.heardReport pkg).reports.contains p) then (s.modLaunch gen fun l => l.heardReport pkg).postComplete gen
      else s.modLaunch gen fun l => l.heardReport pkg := by
  have noted : (s.modLaunch gen fun l => { l with reports := if l.reports.contains pkg then l.reports else l.reports ++ [pkg] }).launch? gen =
      some (l.heardReport pkg) := State.launch?_modLaunch_same (fun _ => rfl) h
  simp only [State.noteReport, if_true, noted]
  rfl
theorem retirementReport_noted {s : State} {gen pkg failed : Nat} {l : Launch} (harg : s.arg = .nums [gen, pkg, 0, 0, 0, failed])
    (h : s.launch? gen = some l) : ∃ t, exec .retirementReport s = .next t ∧ t.launch? gen = some (l.heardReport pkg) ∧ t.cores = s.cores ∧
      ((∀ p ∈ l.parts, p = pkg ∨ p ∈ l.reports) → ∃ e ∈ t.agenda, e.act = .run .launchComplete (.nums [gen]) ∧ e.at_ = s.now) := by
  have noted := State.launch?_modLaunch_same (f := fun l => l.heardReport pkg) (fun _ => rfl) h
  have made : exec .retirementReport s = .next (s.noteReport gen pkg 0 0 0 failed) := by
    change execRetirementReport s = _
    simp only [execRetirementReport, harg]
  rw [State.noteReport_good h] at made
  refine ⟨_, made, ?_, ?_, fun all => ?_⟩
  · split <;> exact noted
  · split <;> rfl
  · have last : l.parts.all (fun p => (l.heardReport pkg).reports.contains p) = true := by
      simpa [Launch.mem_heardReport, or_comm] using all
    rw [if_pos last]
    exact ⟨_, (mem_insertEvent ..).2 (.inl rfl), rfl, rfl⟩

/-! ### Completion (R57, R58) -/

/-- A process's own token counts one more, and no launch changes. -/
theorem State.addToken_own {s : State} {spid t : Nat} (own : t < localToken) (known : (s.proc? spid).isSome = true) :
    (s.addToken spid none t).tokenCount spid none t = (s.tokenCount spid none t + 1) % 2 ^ 48 ∧ (s.addToken spid none t).launches = s.launches := by
  obtain ⟨p, hp⟩ := Option.isSome_iff_exists.1 known
  have told := OnlySends.tellToken s spid none t
  rw [← told.proc?] at hp
  have changed := State.proc?_modProc_of_some
    (f := fun p => { p with tokens := Table.put p.tokens t ((s.tokenCount spid none t + 1) % 2 ^ 48) }) hp fun _ same => same
  simp only [State.addToken, if_neg (Nat.not_le.2 own)]
  refine ⟨?_, told.launches⟩
  generalize (s.tokenCount spid none t + 1) % 2 ^ 48 = n at changed ⊢
  simp only [State.tokenCount, if_neg (Nat.not_le.2 own), changed, Option.elim_some]
  exact Table.getD_put_same ..

section

variable {s : State} {gen tok : Nat} {l : Launch} (harg : s.arg = .nums [gen]) (h : s.launch? gen = some l) (open_ : l.st ≠ .complete)
  (here : l.origin = s.pkg) (plain : l.graphRun = none) (sigs : l.pkt.sigs = [tok]) (own : tok < 0x7FFF) (quiet : l.pkt.status = 0)
include harg h open_ here plain sigs own quiet

/-- The completion of a launch with one token and no status record. -/
theorem launchComplete_signals : exec .launchComplete s =
    .next (((s.modLaunch gen fun l => { l with st := .complete }).addToken l.spid none tok).wakeWaits).askSelection := by
  have given : tok ≠ 0xFFFF := Nat.ne_of_lt (Nat.lt_trans own (by decide))
  have due : ¬ (decide (l.st = .complete) || l.origin != s.pkg) = true := by simp [open_, here]
  change execLaunchComplete s = _
  simp only [execLaunchComplete, harg, h, if_neg due, quiet, if_true, sigs, List.foldl_cons, List.foldl_nil, if_neg given, plain, Option.elim_none]

/-- The launch is complete, its token counts one more, and a selection is asked for. -/
theorem launchComplete_completes (known : (s.proc? l.spid).isSome = true) :
    ∃ t x, exec .launchComplete s = .next t ∧ t.launch? gen = some x ∧ x.st = .complete ∧
      t.tokenCount l.spid none tok = (s.tokenCount l.spid none tok + 1) % 2 ^ 48 ∧ (∃ e ∈ t.agenda, ∃ a, e.act = .run .selection a) ∧
      t.mem = s.mem := by
  have completed := State.launch?_modLaunch_same (f := fun l => { l with st := .complete }) (fun _ => rfl) h
  have made := launchComplete_signals harg h open_ here plain sigs own quiet
  generalize hu : (s.modLaunch gen fun l => { l with st := .complete }) = u at made completed
  have same : u.tokenCount l.spid none tok = s.tokenCount l.spid none tok := hu ▸ rfl
  have there : (u.proc? l.spid).isSome = true := hu ▸ known
  obtain ⟨counted, launches⟩ := State.addToken_own (Nat.lt_trans own (by decide)) there
  have woken := EndsCalls.wakeWaits (u.addToken l.spid none tok)
  have asked := State.askSelection_asks (u.addToken l.spid none tok).wakeWaits
  have signalled : (u.addToken l.spid none tok).wakeWaits.launch? gen = some { l with st := .complete } := by
    rw [woken.launch?, State.launch?, launches]
    exact completed
  obtain ⟨x, hx, but⟩ := State.askSelection_launch? signalled
  refine ⟨_, x, made, hx, but.st, ?counts, State.askSelection_asked _, ?mem⟩
  case counts => rw [asked.tokenCount, woken.tokenCount, counted, same]
  case mem =>
    rw [asked.mem, (State.wakeWaits_store _).1, (State.addToken_store ..).1, ← hu]
    rfl

end

/-! ### The start pulse (R81, R87 to R89) -/

/-- A core at the pulse: its other plane is active, and its stream stands at its entry. -/
def Core.started (k : Core) (beat : Nat) : Core := { k with active := 1 - k.active, bt := beat, sc := { k.sc with live := true, next := k.bnd.entry } }

theorem State.startCore_core (s : State) (c : Nat) : (s.startCore c).core c = (s.core c).started s.beat :=
  State.core_modCore s c fun k => k.started s.beat
theorem State.startCore_only (s : State) (c : Nat) : onlyCore s (s.startCore c) c := fun x other =>
  State.core_modCore_ne s c x (fun k => k.started s.beat) other
theorem State.startCore_issues (s : State) (c : Nat) : ∃ e ∈ (s.startCore c).agenda, e.act = .issue c .scalar ∧ e.hold = some c :=
  ⟨_, (mem_insertEvent ..).2 (.inl rfl), rfl, rfl⟩

/-- The machine with a stope and its one core started. -/
def State.stopeStarted (s : State) (p : Stope) (c : Nat) : State := (s.modStope p.id fun t => { t with started := some s.now }).startCore c
/-- The same with the pulse on its way to the last core of the kernel, which is that core. -/
def State.pulsed (s : State) (p : Stope) (c : Nat) : State :=
  (s.stopeStarted p c).post ((s.stopeStarted p c).now + pulseDelay c) 1 none (.run .startPulse (.nums [p.gen, p.die, (s.core c).bnd.kernel]))

theorem State.stopeStarted_core (s : State) (p : Stope) (c : Nat) : (s.stopeStarted p c).core c = (s.core c).started s.beat :=
  State.startCore_core ..
theorem State.pulsed_cores (s : State) (p : Stope) (c : Nat) : (s.pulsed p c).cores = (s.stopeStarted p c).cores := rfl
theorem State.pulsed_launches (s : State) (p : Stope) (c : Nat) : (s.pulsed p c).launches = s.launches := rfl
theorem State.pulsed_mem (s : State) (p : Stope) (c : Nat) : (s.pulsed p c).mem = s.mem := rfl
theorem State.pulsed_issues (s : State) (p : Stope) (c : Nat) : ∃ e ∈ (s.pulsed p c).agenda, e.act = .issue c .scalar ∧ e.hold = some c := by
  obtain ⟨e, he, issue⟩ := State.startCore_issues (s.modStope p.id fun t => { t with started := some s.now }) c
  exact ⟨e, (mem_insertEvent ..).2 (.inr he), issue⟩
theorem State.pulsed_stopes {s : State} {p : Stope} (only : s.stopes = [p]) (c : Nat) :
    (s.pulsed p c).stopes = [{ p with started := some s.now }] := by
  change s.stopes.map (fun t => if t.id = p.id then { t with started := some s.now } else t) = _
  rw [only, List.map_singleton, if_pos rfl]

section

variable {s : State} {c : Nat} {p : Stope} (harg : s.arg = .nums [p.gen, p.die]) (only : s.stopes = [p]) (still : p.started = none) (cores : p.cores = [c])
include harg only still cores

/-- The pulse of a launch's only stope, of one core: the launch runs, and a next one may be latched. -/
theorem startPulse_starts : exec .startPulse s =
    .next ((({ s.pulsed p c with latched := none } : State).modLaunch p.gen fun l => { l with st := .running }).askSelection) := by
  have mine : s.stopesOf p.gen = [p] := by simp [State.stopesOf, only]
  have found : (s.stopesOf p.gen).find? (fun t => t.die == p.die && t.started.isNone) = some p := by simp [mine, still]
  have all : ((s.pulsed p c).stopesOf p.gen).all (fun t => t.started.isSome) = true := by
    simp [State.stopesOf, State.pulsed_stopes only]
  have kernels : [(s.core c).bnd.kernel].dedup = [(s.core c).bnd.kernel] := List.Nodup.dedup (List.nodup_singleton _)
  have kernel : ((s.stopeStarted p c).core c).bnd.kernel = (s.core c).bnd.kernel := by
    rw [State.stopeStarted_core]
    rfl
  have started : (s.modStope p.id fun t => { t with started := some s.now }).startCore c = s.stopeStarted p c := rfl
  have sent : (s.stopeStarted p c).post ((s.stopeStarted p c).now + pulseDelay c) 1 none
      (.run .startPulse (.nums [p.gen, p.die, (s.core c).bnd.kernel])) = s.pulsed p c := rfl
  change execStartPulse s = _
  simp only [execStartPulse, harg, found, cores, List.foldl_cons, List.foldl_nil, List.map_cons, List.map_nil, started, kernel, kernels,
    State.kernelCores, List.filter_cons, List.filter_nil, beq_self_eq_true, if_true, Nat.zero_max, sent, all]

/-- The pulse starts the core at its entry in its other plane, and the launch runs. -/
theorem startPulse_runs {l : Launch} (h : s.launch? p.gen = some l) :
    ∃ t x, exec .startPulse s = .next t ∧ (t.core c).active = 1 - (s.core c).active ∧ (t.core c).bt = s.beat ∧ (t.core c).sc.live = true ∧
      (t.core c).sc.next = (s.core c).bnd.entry ∧ (∃ e ∈ t.agenda, e.act = .issue c .scalar ∧ e.hold = some c) ∧ t.latched = none ∧
      t.launch? p.gen = some x ∧ x.st = .running ∧ (∃ y, t.stopes = [y] ∧ y.started = some s.now) ∧ t.mem = s.mem ∧ onlyCore s t c := by
  have made := startPulse_starts harg only still cores
  have core : ∀ d, (s.pulsed p c).core d = (s.stopeStarted p c).core d := fun d => by simp only [State.core, State.pulsed_cores]
  have launch : (s.pulsed p c).launch? p.gen = some l := by simpa only [State.launch?, State.pulsed_launches] using h
  have mem := s.pulsed_mem p c
  have stopes := State.pulsed_stopes only c
  obtain ⟨e, he, issue⟩ := s.pulsed_issues p c
  generalize s.pulsed p c = u at made core launch mem stopes he
  have runs : (({ u with latched := none } : State).modLaunch p.gen fun l => { l with st := .running }).launch? p.gen =
      some { l with st := .running } := State.launch?_modLaunch_same (fun _ => rfl) launch
  generalize hv : ({ u with latched := none } : State).modLaunch p.gen (fun l => { l with st := .running }) = v at made runs
  have agenda : v.agenda = u.agenda := hv ▸ rfl
  have cores : v.cores = u.cores := hv ▸ rfl
  have asked := State.askSelection_asks v
  obtain ⟨x, hx, same⟩ := State.askSelection_launch? runs
  have cored : ∀ d, v.askSelection.core d = (s.stopeStarted p c).core d := fun d => by
    rw [asked.core, ← core d, State.core, cores, State.core]
  have started := (cored c).trans (s.stopeStarted_core p c)
  refine ⟨_, x, made, congrArg Core.active started, congrArg Core.bt started, congrArg (fun k : Core => k.sc.live) started,
    congrArg (fun k : Core => k.sc.next) started, ⟨e, State.askSelection_agenda (agenda ▸ he), issue⟩, ?none, hx, same.st,
    ⟨{ p with started := some s.now }, ?stope, rfl⟩, ?mem, fun d other => (cored d).trans (State.startCore_only _ c d other)⟩
  case none => rw [asked.latched, ← hv]; rfl
  case stope => rw [asked.stopes, ← stopes, ← hv]; rfl
  case mem => rw [asked.mem, ← mem, ← hv]; rfl

end

/-! ### An overlay's load (R80, R81) -/

/-- The core with an overlay's plane in its shadow, unless it has the overlay or a later one active. -/
def Core.filled (k : Core) (ovl : Nat) (p : Plane) : Core :=
  if k.act.ovl.all fun o => decide (o < ovl) then { k with plane := vset k.plane (1 - k.active) p } else k

/-- Where a core has nothing as late active, the overlay fills its shadow plane, and the active one stays. -/
theorem Core.filled_shadow {k : Core} {ovl : Nat} (p : Plane) (two : k.active < 2) (earlier : ∀ x, k.act.ovl = some x → x < ovl) :
    (k.filled ovl p).shadow = p ∧ (k.filled ovl p).act = k.act := by
  have fills : k.act.ovl.all (fun o => decide (o < ovl)) = true := by
    cases h : k.act.ovl with
    | none => rfl
    | some x => simpa using earlier x h
  have other : k.active ≠ 1 - k.active := by omega
  rw [Core.filled, if_pos fills]
  exact ⟨vget_vset_same _ _ _ _ (by omega), vget_vset_other _ _ _ _ _ other⟩

/-- The only stope there is, of one core that runs the kernel: its core is filled. -/
theorem State.fillPlanes_one {s : State} {p : Stope} {c k o : Nat} (only : s.stopes = [p]) (cores : p.cores = [c]) (kernel : (s.core c).bnd.kernel = k) :
    s.fillPlanes p.die p.gen k o = s.modCore c fun x => x.filled o (planeOf (s.kernelStreams p.gen k) o) := by
  have found : s.stopes.find? (fun t => t.gen == p.gen && t.die == p.die) = some p := by simp [only]
  have runs : s.kernelCores p k = [c] := by simp [State.kernelCores, cores, kernel]
  simp only [State.fillPlanes, found, runs, List.foldl_cons, List.foldl_nil]
  rfl

/-- `t` is `s` with a job of a loader begun. -/
def BeginsLoad (s t : State) : Prop := t = { s with dies := t.dies, agenda := t.agenda, seq := t.seq }

theorem BeginsLoad.pumpLoader (s : State) (die : Nat) : BeginsLoad s (s.pumpLoader die) := by
  simp only [State.pumpLoader]
  split
  · exact rfl
  · split <;> exact rfl
/-- No job leaves a loader's list when one begins. -/
theorem State.pumpLoader_loads (s : State) {die : Nat} (h : die < 2) : (vget (s.pumpLoader die).dies die {}).loads = (vget s.dies die {}).loads := by
  simp only [State.pumpLoader]
  split
  case isTrue => rfl
  case isFalse =>
    split
    · rw [State.post_dies, vget_vset_same _ _ _ _ h]
    · rfl

section

variable {s t : State} (h : BeginsLoad s t)
include h

theorem BeginsLoad.core (c : Nat) : t.core c = s.core c := Eq.trans (congrArg (fun x : State => x.core c) h) rfl
theorem BeginsLoad.launch? (gen : Nat) : t.launch? gen = s.launch? gen := Eq.trans (congrArg (fun x : State => x.launch? gen) h) rfl
theorem BeginsLoad.mem : t.mem = s.mem := Eq.trans (congrArg State.mem h) rfl

end

/-- When the loaders have done all that a new launch of this package alone asked for, it may start, which changes launches and agenda alone. -/
theorem State.filled_frame {s : State} {gen : Nat} {l : Launch} (h : s.launch? gen = some l) (new : l.saved = []) (single : l.parts.length ≤ 1) :
    AsksSelection s (s.filled gen) := by
  simp only [State.filled, h, new, List.isEmpty_nil, Bool.not_true, Bool.false_eq_true, if_false, if_pos single]
  split
  · rfl
  · exact State.pulse_frame ..

/-- The machine with the first job of a loader done. -/
def State.jobDone (s : State) (die : Nat) (rest : List (Nat × Nat × Nat × Nat)) : State :=
  { s with dies := vset s.dies die { vget s.dies die {} with loads := rest, loading := false } }

theorem overlayLoad_done {s : State} {die gen k o z : Nat} {rest : List (Nat × Nat × Nat × Nat)} (harg : s.arg = .nums [die])
    (job : (vget s.dies die {}).loads = (gen, k, o, z) :: rest) :
    exec .overlayLoad s = .next ((((s.jobDone die rest).fillPlanes die gen k o).pumpLoader die).filled gen) := by
  change execOverlayLoad s = _
  simp only [execOverlayLoad, State.jobDone, harg, job]

/-- The load fills the shadow plane of the stope's core, and the loader goes on with the jobs left. -/
theorem overlayLoad_fills {s : State} {p : Stope} {c k o z : Nat} {rest : List (Nat × Nat × Nat × Nat)} {l : Launch} (harg : s.arg = .nums [p.die])
    (die : p.die < 2) (job : (vget s.dies p.die {}).loads = (p.gen, k, o, z) :: rest) (only : s.stopes = [p]) (cores : p.cores = [c])
    (kernel : (s.core c).bnd.kernel = k) (two : (s.core c).active < 2) (earlier : ∀ x, (s.core c).act.ovl = some x → x < o)
    (h : s.launch? p.gen = some l) (new : l.saved = []) (single : l.parts.length ≤ 1) :
    ∃ t, exec .overlayLoad s = .next t ∧ (t.core c).shadow = planeOf (s.kernelStreams p.gen k) o ∧ (t.core c).act = (s.core c).act ∧
      (vget t.dies p.die {}).loads = rest ∧ t.mem = s.mem ∧ onlyCore s t c := by
  have made := overlayLoad_done harg job
  rw [State.fillPlanes_one (s := s.jobDone p.die rest) only cores kernel] at made
  generalize hu : ((s.jobDone p.die rest).modCore c fun x => x.filled o (planeOf ((s.jobDone p.die rest).kernelStreams p.gen k) o)) = u at made
  have begins := BeginsLoad.pumpLoader u p.die
  have launch : (u.pumpLoader p.die).launch? p.gen = some l := (begins.launch? _).trans (hu ▸ h)
  have frame := State.filled_frame launch new single
  have same : ∀ d, ((u.pumpLoader p.die).filled p.gen).core d = u.core d := fun d => (frame.core d).trans (begins.core d)
  have filled : u.core c = (s.core c).filled o (planeOf (s.kernelStreams p.gen k) o) := hu ▸ State.core_modCore ..
  obtain ⟨shadow, act⟩ := Core.filled_shadow (planeOf (s.kernelStreams p.gen k) o) two earlier
  refine ⟨_, made, ?_, ?_, ?_, ?_, fun d other => ?_⟩
  · rw [same, filled, shadow]
  · rw [same, filled, act]
  · rw [frame.dies, State.pumpLoader_loads u die, ← hu]
    exact congrArg Die.loads (vget_vset_same _ _ _ _ die)
  · rw [frame.mem, begins.mem, ← hu]
    rfl
  · rw [same, ← hu]
    exact State.core_modCore_ne _ _ _ _ other

/-- Settles O47 (R57, R58, R60, R61, R73, R75 to R77, R80, R81, R88, R89): each event by what it leaves in the launches, the queues and the cores. -/
theorem launchEvents : Obligations.LaunchEvents := by
  unfold Obligations.LaunchEvents
  intro s gen l
  refine ⟨selection_idle, ?selection, ?packet, ?ready, ?abort, ?report, ?complete, ?pulse, ?overlay⟩
  case selection =>
    intro q insts idle powered open_ hq head alone noted met single prio fits
    obtain ⟨latched, queues, served⟩ := s.latch_order (s.effPrio l) q l insts
    refine ⟨_, selection_latches head alone met single open_ fits idle powered hq noted prio, latched, ?_, ?_, (State.latch_store ..).1⟩
    · rw [queues, vget_vset_same _ _ _ _ hq]
    · rw [served, vget_vset_same _ _ _ _ (Nat.lt_succ_of_le prio)]
  case packet =>
    intro m harg
    have joins := JoinsProc.joinProc s m
    refine ⟨fun room => ?_, fun full => ?_⟩
    · exact ⟨_, (s.joinProc m).packetLaunch m, multiPackagePacket_reserves harg room, List.mem_append_right _ (.head _), rfl, rfl, rfl, rfl, rfl, rfl,
        joins.cores, joins.mem⟩
    · have sends := OnlySends.sendAbort (s.joinProc m) ((s.joinProc m).packetLaunch m) 0x44 0
      exact ⟨_, multiPackagePacket_full harg full, sends.launches.trans joins.launches, sends.queues.trans joins.queues⟩
  case ready =>
    intro pkg win cores harg h
    obtain ⟨t, x, made, hx, frame, same, st⟩ := ready_noted harg h
    have wins : x.readyWin = l.readyWin.filter (fun r => r.1 != pkg) ++ [(pkg, win)] := congrArg Launch.readyWin same
    have bound : x.readyCores = l.readyCores.filter (fun r => r.1 != pkg) ++ [(pkg, cores)] := congrArg Launch.readyCores same
    refine ⟨t, x, made, hx, by simp [wins], by simp [bound], ?_, st, frame.mem, frame.cores⟩
    simp +contextual [wins, or_imp]
  case abort =>
    intro pkg z code entry harg h
    refine ⟨abort_running harg h, fun waits first => ?_, abort_over harg h⟩
    obtain ⟨t, x, made, hx, st, result, hcode, hentry, hpkg, left⟩ := abort_queued harg h waits first
    exact ⟨t, x, made, hx, st, result, hcode, hentry, hpkg, fun q _ => left q⟩
  case report =>
    intro pkg failed harg h
    obtain ⟨t, made, hx, cores, last⟩ := retirementReport_noted harg h
    exact ⟨t, _, made, hx, (l.mem_heardReport ..).2 (.inr rfl), fun r hr => (l.mem_heardReport ..).2 (.inl hr), rfl, last, cores⟩
  case complete => exact fun tok harg h open_ here plain sigs own quiet known => launchComplete_completes harg h open_ here plain sigs own quiet known
  case pulse =>
    intro p c harg only hgen still cores h
    subst hgen
    exact startPulse_runs harg only still cores h
  case overlay =>
    intro p c k o z rest harg die job only hgen cores kernel two earlier h new single
    subst hgen
    exact overlayLoad_fills harg die job only cores kernel two earlier h new single

end Sys2Proof.Machine
end

