-- ==== Sys2Proof/Proofs/PlaneSwap.lean ====
section
/-! SUPPORT. SWAP (R83, R85): the flip of the planes by what it leaves in each part of the core, one equation of the word per test in their order; with
them O16. -/

namespace Sys2Proof.Machine

open Sys2Proof.Claims

/-! ### The flip (R83, R85) -/

/-- The plane that was shadow is active, its tile table invalid. -/
theorem Core.flip_act (k : Core) : k.flip.act = { k.shadow with tiles := [] } :=
  vget_vset_same _ _ _ _ (Nat.lt_succ_of_le (Nat.sub_le ..))
/-- Its streams and bank programs are those that were loaded. -/
theorem Core.flip_loaded (k : Core) : k.flip.act.scal = k.shadow.scal ∧ k.flip.act.vect = k.shadow.vect ∧ k.flip.act.matx = k.shadow.matx ∧
    k.flip.act.progs = k.shadow.progs ∧ k.flip.act.tiles = [] := by
  simp only [Core.flip_act, and_self]
/-- Only the planes, the firings, the targets, the loops and the triggers change. -/
theorem Core.flip_frame (k : Core) :
    k.flip = { k with plane := k.flip.plane, fires := k.flip.fires, active := 1 - k.active, b := k.flip.b, lp := k.flip.lp, trig := k.flip.trig } := rfl
/-- Every target is unprepared, and otherwise as it was. -/
theorem Core.flip_target (k : Core) (j : Fin 12) : k.flip.b[j] = { k.b[j] with prepared := false } := by
  simp [Core.flip]
/-- Every loop register is as after reset. -/
theorem Core.flip_loop (k : Core) (j : Fin 4) : k.flip.lp[j] = {} := by
  simp [Core.flip]
/-- A trigger stays armed unless its action pushes a block. -/
theorem Core.flip_armed (k : Core) (j : Fin 8) : k.flip.trig[j].armed = (k.trig[j].armed && !pushesBlock k.trig[j].action) := by
  simp only [Core.flip, Fin.getElem_fin, Vector.getElem_map]
  split
  case isTrue disarmed =>
    obtain ⟨-, pushes⟩ := Bool.and_eq_true_iff.1 disarmed
    simp only [pushes, Bool.not_true, Bool.and_false]
  case isFalse kept =>
    cases armed : k.trig[j.val].armed
    · rfl
    · simpa [armed] using kept

/-! ### The word (R83) -/

/-- The overlay after the one that a core has active. -/
def Core.nextOverlay (k : Core) : Nat := k.act.ovl.getD 0 + 1
/-- The streams of a core's kernel. -/
def State.ownStreams (s : State) (k : Core) : List StreamSect := s.kernelStreams k.bnd.gen k.bnd.kernel
/-- The words of the scalar stream of a core's next overlay. -/
def State.nextWords (s : State) (k : Core) : Nat := (streamBytes (s.ownStreams k) 0 k.nextOverlay).length / 4

section

variable {g : BitVec 2} {a : BitVec 5} {m : BitVec 9} {s : State} (ready : Ready s [a])
include ready

/-- A SWAP whose register is readable: its tests in their order, then its condition. -/
theorem swap_tests : exec (.swap g a m) s = finishScalar s.curCore
    (if !hasOverlay (s.ownStreams (here s)) (here s).nextOverlay then sOperand s
     else if s.nextWords (here s) ≤ (opA s a).toNat then sOperand s
     else if !(here s).specTags.isEmpty then sfault s 8
     else lateLook s s.curCore (s.quiet s.curCore m.toNat && (here s).shadow.ready && (here s).shadow.ovl == some (here s).nextOverlay)
       (.ok ((s.setCore s.curCore (here s).flip).afterFlip s.curCore) 1 (some (opA s a).toNat))) := by
  have readable : ∀ r ∈ [a.toNat], (s.core s.curCore).pendingReg r = false := by simpa [Ready] using ready
  change execSwap g a m s = _
  rw [execSwap, scalarWord_wf _ _ rfl, guardRegs_ready _ readable]
  rfl

/-- The next overlay must exist. -/
theorem swap_noOverlay (none : hasOverlay (s.ownStreams (here s)) (here s).nextOverlay = false) :
    exec (.swap g a m) s = .next (faults s (code 2)) := by
  rw [swap_tests ready, none]
  rfl

variable (present : hasOverlay (s.ownStreams (here s)) (here s).nextOverlay = true)
include present

/-- The entry word must lie within its scalar stream. -/
theorem swap_outside (outside : s.nextWords (here s) ≤ (opA s a).toNat) : exec (.swap g a m) s = .next (faults s (code 2)) := by
  rw [swap_tests ready, present, if_pos outside]
  rfl

variable (inside : (opA s a).toNat < s.nextWords (here s))
include inside

/-- No speculative tag may stand open. -/
theorem swap_speculative (tags : (here s).specTags ≠ []) : exec (.swap g a m) s = .next (faults s (code 8)) := by
  have open_ : (!(here s).specTags.isEmpty) = true := by simpa using tags
  rw [swap_tests ready, present, if_neg (Nat.not_le.2 inside), open_]
  rfl

/-- With the core quiet and the next overlay's plane ready, the planes flip and the stream goes on at the entry word. -/
theorem swap_flips (tags : (here s).specTags = []) (idle : (here s).enginesIdle s.now = true) (drained : s.drained s.curCore m.toNat = true)
    (filled : (here s).shadow.ready = true) (next : (here s).shadow.ovl = some (here s).nextOverlay) :
    exec (.swap g a m) s = .next (jumps s ((s.setCore s.curCore (here s).flip).afterFlip s.curCore) (opA s a).toNat) := by
  have quiet : s.quiet s.curCore m.toNat = true := Bool.and_eq_true_iff.2 ⟨idle, drained⟩
  rw [swap_tests ready, present, if_neg (Nat.not_le.2 inside), tags, quiet, filled, next, beq_self_eq_true]
  rfl

end

/-- Settles O16 (R83, R85): each test of SWAP in its order, and the flip by the parts of the core. -/
theorem planeSwap : Obligations.PlaneSwap := by
  unfold Obligations.PlaneSwap
  intro g a m s ready
  obtain ⟨scal, vect, matx, progs, tiles⟩ := (here s).flip_loaded
  refine ⟨swap_noOverlay ready, swap_outside ready, swap_speculative ready, swap_flips ready, scal, vect, matx, progs,
    tiles, fun j => ?target, fun j => ?loop, (here s).flip_armed, (here s).flip_frame⟩
  case target => simp only [Core.flip_target, and_self]
  case loop => simp only [Core.flip_loop, and_self]

end Sys2Proof.Machine
end

