-- ==== Sys2Proof/Proofs/VectorControl.lean ====
section
/-! SUPPORT. Block control of the vector stream (R92, R93, R233, R234): what going on leaves of a core, the end of a pass by what follows in the block
queue, and one equation per word; with them O34. -/

namespace Sys2Proof.Machine

open Sys2Proof.Claims

/-! ### Going on after a vector word -/

/-- Going on leaves the core as it is, but for where the vector stream counts its next word from. -/
theorem State.engineGoOn_vector (s : State) (c occ : Nat) :
    ∃ n, (s.engineGoOn c .vector occ).core c = { s.core c with ve := { (s.core c).ve with goAt := n } } := by
  simp only [State.engineGoOn]
  split
  case h_1 => exact ⟨(s.core c).ve.goAt, rfl⟩
  case h_2 =>
    have reset : (s.modStrm c .vector fun st => { st with goAt := 0 }).core c = { s.core c with ve := { (s.core c).ve with goAt := 0 } } :=
      State.core_modCore ..
    split
    · exact ⟨0, reset⟩
    · split <;> exact ⟨0, reset⟩

/-! ### The end of a pass (R92, R93) -/

/-- A core whose vector stream ends a pass: its block queue and its stream as given, but for where the next word counts from. -/
def Core.EndsPass (k x : Core) (q : Queue BlkEntry) (st : StreamSt) : Prop := ∃ n, x = { k with bqv := q, ve := { st with goAt := n } }

section

variable {k x : Core} {q : Queue BlkEntry} {st : StreamSt} (h : k.EndsPass x q st)
include h

theorem Core.EndsPass.bqv : x.bqv = q := by
  obtain ⟨n, rfl⟩ := h
  rfl
theorem Core.EndsPass.next : x.ve.next = st.next := by
  obtain ⟨n, rfl⟩ := h
  rfl
theorem Core.EndsPass.live : x.ve.live = st.live := by
  obtain ⟨n, rfl⟩ := h
  rfl
theorem Core.EndsPass.idleFrom : x.ve.idleFrom = st.idleFrom := by
  obtain ⟨n, rfl⟩ := h
  rfl

end

/-- A stream with no override stands on its word. -/
theorem StreamSt.standsOn_plain {st : StreamSt} (plain : st.ovr = none) : st.standsOn = true := by simp [StreamSt.standsOn, plain]

/-- The stream and its block queue set, and the stream going on. -/
theorem State.goOn_endsPass (s : State) (c : Nat) (q : Queue BlkEntry) (f : StreamSt → StreamSt) : (s.core c).EndsPass
    ((((s.setCore c ((s.core c).setBlocks q .vector)).modStrm c .vector f).engineGoOn c .vector 1).core c) q (f (s.core c).ve) := by
  obtain ⟨n, after⟩ := State.engineGoOn_vector ((s.setCore c ((s.core c).setBlocks q .vector)).modStrm c .vector f) c 1
  refine ⟨n, after.trans ?_⟩
  simp [State.modStrm, Core.setBlocks, Core.setStrm]

section

variable {s : State} {c p : Nat} {e : BlkEntry} {r : List (Nat × BlkEntry)} (plain : (s.core c).ve.ovr = none)
  (head : (s.core c).bqv.items = (p, e) :: r)
include plain head

/-- With passes left the block runs again from its first word. -/
theorem State.endPass_again (more : 1 < e.left) : (s.core c).EndsPass ((s.endPass c .vector).core c)
    { (s.core c).bqv with items := (p, { e with left := e.left - 1 }) :: r } { (s.core c).ve.endWord with next := e.addr } := by
  simp only [State.endPass, Core.strm_vector, StreamSt.standsOn_plain plain, Core.blocks, head, if_pos more, Bool.not_true, Bool.false_eq_true, if_false]
  exact State.goOn_endsPass s c _ fun x => { x.endWord with next := e.addr }
/-- After its last pass the next block follows. -/
theorem State.endPass_follows (last : e.left ≤ 1) {q : Nat} {f : BlkEntry} {l : List (Nat × BlkEntry)} (next : r = (q, f) :: l) :
    (s.core c).EndsPass ((s.endPass c .vector).core c) ((s.core c).bqv.pop s.now) { (s.core c).ve.endWord with next := f.addr } := by
  subst next
  simp only [State.endPass, Core.strm_vector, StreamSt.standsOn_plain plain, Core.blocks, head, if_neg (Nat.not_lt.2 last), Bool.not_true,
    Bool.false_eq_true, if_false]
  exact State.goOn_endsPass s c _ fun x => { x.endWord with next := f.addr }
/-- With no next block the stream is idle from the next cycle on. -/
theorem State.endPass_idle (last : e.left ≤ 1) (none : r = []) : (s.core c).EndsPass ((s.endPass c .vector).core c) ((s.core c).bqv.pop s.now)
    { (s.core c).ve.endWord with live := false, idleFrom := s.now + 1 } := by
  subst none
  simp only [State.endPass, Core.strm_vector, StreamSt.standsOn_plain plain, Core.blocks, head, if_neg (Nat.not_lt.2 last), Bool.not_true,
    Bool.false_eq_true, if_false]
  exact State.goOn_endsPass s c _ fun x => { x.endWord with live := false, idleFrom := s.now + 1 }

/-- The entry whose last pass has ended leaves the queue. -/
theorem State.endPass_left (last : e.left ≤ 1) : ((s.endPass c .vector).core c).bqv.items = r := by
  have pops : ((s.endPass c .vector).core c).bqv = (s.core c).bqv.pop s.now := by
    cases hr : r with
    | nil => exact (State.endPass_idle plain head last hr).bqv
    | cons x l => exact (State.endPass_follows plain head last hr).bqv
  rw [pops, Queue.pop, head, List.tail_cons]

end

/-! ### The words (R233, R234) -/

/-- A well-formed vector word without checks of its own is its own effect. -/
theorem vectorWord_wf {i : Instr} (reps : Nat) (s : State) (f : State → Nat → Nat → VOut) (h : i.wf = true) :
    vectorWord i reps s (fun _ => none) f = finishVector s.curCore reps (f s s.curCore (s.core s.curCore).ve.sub) := by
  simp [vectorWord, h]

/-- An extension field by division. -/
theorem VWord.e_eq (v : VWord) (lo n : Nat) : v.e lo n = v.ext.toNat / 2 ^ lo % 2 ^ n := by
  simp only [VWord.e, bitsOf, Nat.shiftRight_eq_div_pow]

section

variable {v : VWord} (s : State)

theorem exec_vnop (h : (Instr.vnop v).wf = true) : exec (.vnop v) s = .next (s.repeatDone s.curCore (1 + v.ext.toNat) 1) := by
  have count : v.e 0 24 = v.ext.toNat := Nat.mod_eq_of_lt v.ext.isLt
  change execVnop v s = _
  rw [execVnop, vectorWord_wf _ _ _ h, count]
  rfl

/-- A wait for a tile looks at that bit. -/
theorem exec_vtileWait (h : (Instr.vtileWait v).wf = true) : exec (.vtileWait v) s = finishVector s.curCore (repsOf v)
    (if (here s).sr.tfull.getLsbD (v.ext.toNat / 2 ^ 20 % 16) == (v.ext.toNat / 2 ^ 18 % 2 == 1) then .ok s 1 else .block s 3) := by
  change execVtileWait v s = _
  rw [execVtileWait, vectorWord_wf _ _ _ h, VWord.e_eq, VWord.e_eq]
  rfl
theorem exec_vtileMark (h : (Instr.vtileMark v).wf = true) : exec (.vtileMark v) s = .next ((s.post (s.now + 8) 3 (some s.curCore)
    (.run .fullBitChange (.nums [s.curCore, v.ext.toNat / 2 ^ 20 % 16, v.ext.toNat / 2 ^ 18 % 2]))).repeatDone s.curCore 1 (repsOf v)) := by
  change execVtileMark v s = _
  rw [execVtileMark, vectorWord_wf _ _ _ h, VWord.e_eq, VWord.e_eq]
  rfl

end

/-- Settles O34 (R92, R93, R233, R234): the end of a pass by what the block queue holds, and each word by its equation. -/
theorem vectorControlWords : Obligations.VectorControlWords := by
  unfold Obligations.VectorControlWords
  intro v s
  refine ⟨fun h => if_pos h, ?again, ?last, exec_vnop s, ?met, ?unmet, exec_vtileMark s⟩
  case again =>
    intro plain p e r head more
    have ends := State.endPass_again plain head more
    exact ⟨ends.next, congrArg Queue.items ends.bqv⟩
  case last =>
    intro plain p e r head last
    refine ⟨State.endPass_left plain head last, fun none => ?_, fun q f l next => (State.endPass_follows plain head last next).next⟩
    have ends := State.endPass_idle plain head last none
    exact ⟨ends.live, ends.idleFrom⟩
  case met =>
    intro h met
    rw [exec_vtileWait s h, if_pos (beq_iff_eq.2 met)]
    rfl
  case unmet =>
    intro h unmet
    rw [exec_vtileWait s h, if_neg (mt beq_iff_eq.1 unmet)]
    rfl

end Sys2Proof.Machine
end

