-- ==== Sys2Proof/Proofs/CopyHand.lean ====
section
/-! SUPPORT. When the copy engine looks at its waiting words (log 132): a look due already at that cycle is not asked for twice, whatever word its entry
names; with it the refutation of O42. -/

namespace Sys2Proof.Machine

open Sys2Proof.Claims

/-- A look at the waiting words that is due already, whatever word it names, serves for another. -/
theorem State.postHand_due {s : State} {c at_ w : Nat} {e : Event} (listed : e ∈ s.agenda) (now : e.at_ = at_)
    (act : e.act = .run .copyWord (.copy c w .hand)) : s.postHand c at_ = s :=
  if_pos (List.any_eq_true.2 ⟨e, listed, by simp [now, act]⟩)

/-- A copy into W of core 0 that has read its word 1. -/
def copyIntoBank : CopyRun :=
  { desc := { id := 1, src := 0, dst := 0, len := 64, lines := 1, sspace := 0, dspace := 3, sstride := 0, dstride := 0, beat := 0, slide := false }
    start := 0, nextWord := 2, unsent := [1] }
/-- Its look at the waiting words of this cycle, in an entry that names word 1. -/
def lookOne : Event := { at_ := 0, phase := 1, seq := 0, hold := none, act := .run .copyWord (.copy 0 1 .hand) }
/-- The machine in which that word's data comes. -/
def dataComes : State :=
  { State.reset with arg := .copy 0 1 (.data (List.replicate 32 0) 0), agenda := [lookOne], cores := [(0, { copy := some copyIntoBank })] }

/-- The word is kept, and the look that is due serves for it: the agenda stays as it was. -/
theorem dataComes_looks : exec .copyWord dataComes =
    .next (dataComes.modCopy 0 fun x => { x with parked := x.parked ++ [(1, List.replicate 32 0, false)] }) := by
  have due := State.postHand_due (s := dataComes.modCopy 0 fun x => { x with parked := x.parked ++ [(1, List.replicate 32 0, false)] })
    (c := 0) (at_ := 0) (w := 1) (e := lookOne) (.head _) rfl rfl
  exact congrArg Host.Outcome.next due

/-- Refutes O42: its last clause asks for an entry of the agenda that names word 0, and where an entry of the same core and cycle names another word the
engine asks for no second one. (The engine's own entries all name word 0; the statement is about every agenda.) -/
theorem not_blockAndCopyEvents : ¬ Obligations.BlockAndCopyEvents := by
  unfold Obligations.BlockAndCopyEvents
  intro h
  obtain ⟨-, -, -, -, -, -, -, kept⟩ := h dataComes 0
  obtain ⟨t, y, made, -, -, -, -, e, listed, act, -⟩ := kept copyIntoBank 1 (List.replicate 32 0) rfl rfl (.inl rfl) rfl (.head _) rfl
  obtain rfl : _ = t := Host.Outcome.next.inj (dataComes_looks.symm.trans made)
  obtain rfl : e = lookOne := List.mem_singleton.1 listed
  simp [lookOne] at act

end Sys2Proof.Machine
end

