-- ==== Sys2Proof/Proofs/BeatOpening.lean ====
section
/-! SUPPORT. The opening of a beat (R39, R99, R100, R263, R264, R268): what it leaves of the machine, what a program's start leaves in its bank, and the
release of an anchor. -/

namespace Sys2Proof.Machine

open Sys2Proof.Claims

/-! ### The agenda -/

/-- An entry put on the agenda stands there, at the cycle by which it is kept. -/
theorem State.post_listed (s : State) (at_ phase : Nat) (hold : Option Nat) (act : Act) :
    { at_ := s.dueAt at_ hold, phase, seq := s.seq, hold, act } ∈ (s.post at_ phase hold act).agenda :=
  (mem_insertEvent ..).2 (.inl rfl)

/-! ### A bank of a core -/

theorem State.core_modBank (s : State) (c b : Nat) (f : Bank → Bank) :
    (s.modBank c b f).core c = { s.core c with banks := vset (s.core c).banks b (f ((s.core c).bank b)) } := State.core_modCore ..
theorem State.core_modBank_ne {s : State} {c d : Nat} (b : Nat) (f : Bank → Bank) (h : d ≠ c) : (s.modBank c b f).core d = s.core d :=
  State.core_modCore_ne _ _ _ _ h
/-- A bank changed reads back. -/
theorem State.bank_modBank (s : State) (c : Nat) {b : Nat} (f : Bank → Bank) (h : b < 32) :
    ((s.modBank c b f).core c).bank b = f ((s.core c).bank b) := by
  rw [State.core_modBank]
  exact vget_vset_same _ _ _ _ h
/-- Another bank is as it was. -/
theorem State.bank_modBank_ne (s : State) (c : Nat) {b d : Nat} (f : Bank → Bank) (h : d ≠ b) :
    ((s.modBank c b f).core c).bank d = (s.core c).bank d := by
  rw [State.core_modBank]
  exact vget_vset_other _ _ _ _ _ h

/-! ### What an opening leaves alone -/

/-- `t` is `s` with banks, and entries put on the agenda. -/
structure OpensBanks (s t : State) : Prop where
  frame : t = { s with cores := t.cores, agenda := t.agenda, seq := t.seq }
  seam : ∀ x, (t.core x).seam = (s.core x).seam
  agenda : ∀ e ∈ s.agenda, e ∈ t.agenda

theorem OpensBanks.rfl {s : State} : OpensBanks s s := ⟨Eq.refl _, fun _ => Eq.refl _, fun _ h => h⟩
theorem OpensBanks.trans {s t u : State} (h : OpensBanks s t) (h' : OpensBanks t u) : OpensBanks s u :=
  ⟨h'.frame.trans (congrArg (fun x : State => { x with cores := u.cores, agenda := u.agenda, seq := u.seq }) h.frame),
    fun x => (h'.seam x).trans (h.seam x), fun e he => h'.agenda e (h.agenda e he)⟩
theorem OpensBanks.foldl {α : Type} (s : State) {f : State → α → State} (hf : ∀ t a, OpensBanks t (f t a)) (l : List α) : OpensBanks s (l.foldl f s) :=
  List.foldlRecOn (motive := OpensBanks s) _ _ .rfl fun t ht a _ => ht.trans (hf t a)
theorem OpensBanks.post (s : State) (a p : Nat) (h : Option Nat) (x : Act) : OpensBanks s (s.post a p h x) :=
  ⟨Eq.refl _, fun _ => Eq.refl _, fun _ he => (mem_insertEvent ..).2 (.inr he)⟩
theorem OpensBanks.modBank (s : State) (c b : Nat) (f : Bank → Bank) : OpensBanks s (s.modBank c b f) := by
  refine ⟨Eq.refl _, fun x => ?_, fun _ h => h⟩
  by_cases hx : x = c
  · subst hx
    rw [State.core_modBank]
  · rw [State.core_modBank_ne _ _ hx]
theorem OpensBanks.openBank (s : State) (c n b : Nat) : OpensBanks s (s.openBank c n b) := by
  simp only [State.openBank]
  split
  · exact .rfl
  · split
    · exact (OpensBanks.modBank ..).trans (.post ..)
    · exact .modBank ..
theorem OpensBanks.openCore (s : State) (n c : Nat) : OpensBanks s (s.openCore n c) := .foldl s (fun _ _ => .openBank ..) _
theorem OpensBanks.postAnchors (s : State) : OpensBanks s s.postAnchors := .foldl s (fun _ _ => .post ..) _

/-! ### The opening at core (0,0) (R39, R263, R264) -/

/-- The beat that opens next. -/
def State.beatComing (s : State) : Nat := (s.beat + 1) % beatMod
/-- The machine as beat `n` opens at core (0,0): the counter, and at a multiple of 16 the table that waits. -/
def State.beatBegun (s : State) (n : Nat) : State :=
  { s with beat := n, beatAt := s.now, beatHist := (s.beat, s.beatAt, (s.beatEnt s.beat).len) :: s.beatHist.take 7
           beatTab := if n % 16 = 0 then s.beatNext.getD s.beatTab else s.beatTab, beatNext := if n % 16 = 0 then none else s.beatNext }
/-- The same with its close on the agenda. -/
def State.closeDue (s : State) : State := s.post (s.now + (s.beatEnt s.beat).len - 1) 3 none (.run .beatClose (.nums [0]))

/-- A beat opens: the counter moves on, its close is due after its length, and the rest of the opening leaves both alone. -/
theorem beatOpen_opens {s : State} (harg : s.arg = .nums [0]) :
    ∃ t, exec .beatOpen s = .next t ∧ OpensBanks (s.beatBegun s.beatComing).closeDue t := by
  let begun := (s.beatBegun s.beatComing).closeDue
  let told := begun.delays.foldl (fun u d => u.post (u.now + d) 0 none (.run .beatOpen (.nums [d, s.beatComing]))) begun
  let opened := (told.delayCores 0).foldl (fun u c => u.openCore s.beatComing c) told
  have opens : OpensBanks begun opened := (OpensBanks.foldl begun (fun _ _ => .post ..) _).trans (.foldl _ (fun _ _ => .openCore ..) _)
  have made : exec .beatOpen s = .next (if s.beatComing % 16 = 0 then opened.postAnchors else opened) := by
    cases s
    cases harg
    rfl
  refine ⟨_, made, ?_⟩
  split
  · exact opens.trans (.postAnchors _)
  · exact opens

/-- What stands of the machine once a beat has opened. -/
theorem beatOpen_leaves {s : State} (harg : s.arg = .nums [0]) : ∃ t, exec .beatOpen s = .next t ∧ t.beat = (s.beat + 1) % 2 ^ 48 ∧ t.beatAt = s.now ∧
    t.beatTab = (if t.beat % 16 = 0 then s.beatNext.getD s.beatTab else s.beatTab) ∧ t.beatNext = (if t.beat % 16 = 0 then none else s.beatNext) ∧
    (∃ e ∈ t.agenda, e.act = .run .beatClose (.nums [0]) ∧ e.phase = 3 ∧ e.at_ = s.now + (t.beatEnt t.beat).len - 1) ∧
    t.mem = s.mem ∧ ∀ x, (t.core x).seam = (s.core x).seam := by
  obtain ⟨t, made, opens⟩ := beatOpen_opens harg
  have frame := opens.frame
  have beat : t.beat = s.beatComing := Eq.trans (congrArg State.beat frame) rfl
  have tab : t.beatTab = (s.beatBegun s.beatComing).beatTab := Eq.trans (congrArg State.beatTab frame) rfl
  have entry : t.beatEnt t.beat = (s.beatBegun s.beatComing).beatEnt s.beatComing := by simp only [State.beatEnt, beat, tab]
  refine ⟨t, made, beat, Eq.trans (congrArg State.beatAt frame) rfl, ?_, ?_, ⟨_, opens.agenda _ (State.post_listed ..), rfl, rfl, ?_⟩,
    Eq.trans (congrArg State.mem frame) rfl, opens.seam⟩
  · rw [beat, tab]
    rfl
  · rw [beat]
    exact Eq.trans (congrArg State.beatNext frame) rfl
  · rw [entry]
    rfl

/-! ### A program starts in its bank (R268, R312) -/

/-- A move of a bank's program on the agenda. -/
theorem State.postMove_listed (s : State) (c b at_ : Nat) :
    ∃ e ∈ (s.postMove c b at_).agenda, e.act = .issue c (.bank (BitVec.ofNat 5 b)) ∧ e.at_ = at_ :=
  ⟨_, State.post_listed .., rfl, rfl⟩

section

variable {s : State} {c b : Nat} (harg : s.arg = .nums [c, b]) (compute : s.isCompute (s.coreBeat c).1 = true)
  (free : s.pastF c c (s.coreBeat c).1 = false)
include harg compute free

/-- A suspended program goes on. -/
theorem bankProgramStart_resumes {e : Engine} (engine : ((s.core c).bank b).engine = some e) (suspended : e.suspended = true) :
    exec .bankProgramStart s = .next ((s.modBank c b fun x => { x with engine := some { e with suspended := false } }).postMove c b s.now) := by
  change execBankProgramStart s = _
  simp only [execBankProgramStart, harg, compute, free, engine, suspended, Bool.not_true, Bool.or_false, Bool.false_eq_true, if_false, if_true]

/-- The next program of the beat starts. -/
theorem bankProgramStart_starts {r : BankReq} (none : ((s.core c).bank b).engine = none) (next : ((s.core c).bank b).nextProg (s.coreBeat c).1 = some r)
    (filled : (engineFor (s.core c) r).code ≠ []) : exec .bankProgramStart s =
      .next (((s.modBank c b fun x => x.leave r.id).modBank c b fun x => { x with engine := some (engineFor (s.core c) r) }).postMove c b s.now) := by
  change execBankProgramStart s = _
  simp only [execBankProgramStart, harg, compute, free, none, next, filled, List.isEmpty_iff, Bool.not_true, Bool.or_false, Bool.false_eq_true,
    if_false]
  rfl

end

/-- The only program that waits in a bank is its next. -/
theorem Bank.nextProg_only {x : Bank} {r : BankReq} {b n slot aa ab : Nat} {l : List Word32}
    (only : x = { x with queue := [r], engine := none, ended := [], waits := [] })
    (hb : b < 32) (bank : r.bank = b) (job : r.job = .prog slot aa ab l) (beat : r.beat = n) : x.nextProg n = some r := by
  rw [only]
  simp [Bank.nextProg, BankReq.isProg, Bank.started, sortReqs, insertReq, bank, hb, job, beat]

end Sys2Proof.Machine
end

