-- ==== Sys2Proof/Proofs/BeatClosing.lean ====
section
/-! SUPPORT. The close of a beat (R264): a bank whose writes wait for it, the other banks of its core, and what the close leaves of the core. -/

namespace Sys2Proof.Machine

open Sys2Proof.Claims

/-! ### Writes to W and B -/

/-- Where every byte is selected, the selected bytes are all of them. -/
theorem Memory.writeSel_nil (m : Memory) (a : Nat) (bs : List Byte) : Memory.writeSel m a bs [] = Memory.writeBytes m a bs := by
  induction bs generalizing m a with
  | nil => rfl
  | cons b bs ih => exact ih ..
theorem Core.applyBankWrite_seam (k : Core) (w : BankWrite) : (k.applyBankWrite w).seam = Memory.writeSel k.seam w.addr w.data w.sel := by
  have stored : (k.store 3 w.addr w.data w.sel).seam = Memory.writeSel k.seam w.addr w.data w.sel := Core.space_store k 3 ..
  simp only [Core.applyBankWrite]
  split <;> exact stored
theorem Core.applyBankWrite_banks (k : Core) (w : BankWrite) : (k.applyBankWrite w).banks = k.banks := by
  have stored : (k.store 3 w.addr w.data w.sel).banks = k.banks := by
    simp only [Core.store]
    split <;> rfl
  simp only [Core.applyBankWrite]
  split <;> exact stored

/-! ### The banks at a close -/

/-- A bank with nothing to do is left alone, and the machine with it. -/
theorem State.closeBank_idle {s : State} {c b : Nat} (n : Nat) (idle : (s.core c).bank b = {}) : s.closeBank c n b = s := by
  simp [State.closeBank, idle]
theorem State.closeBanks_idle {s : State} {c : Nat} (n : Nat) (l : List Nat) (idle : ∀ b ∈ l, (s.core c).bank b = {}) :
    l.foldl (fun t b => t.closeBank c n b) s = s := by
  induction l with
  | nil => rfl
  | cons b l ih =>
    rw [List.foldl_cons, State.closeBank_idle n (idle b (.head _))]
    exact ih fun d hd => idle d (.tail _ hd)

/-- With no program ended in the beat none faults. -/
theorem State.raiseEnded_none {s : State} {c b : Nat} (none : ((s.core c).bank b).ended = []) : s.raiseEnded c b = s := by
  rw [State.raiseEnded, none]
  rfl

/-- A bank that holds nothing but a write performs it and gives it up; the other banks are as they were. -/
theorem State.closeBank_writes {s : State} {c b : Nat} (n : Nat) (hb : b < 32) {w : BankWrite} (only : (s.core c).bank b = { writes := [w] }) :
    (((s.closeBank c n b).core c).bank b).writes = [] ∧ (∀ d, d ≠ b → ((s.closeBank c n b).core c).bank d = (s.core c).bank d) ∧
      ((s.closeBank c n b).core c).seam = Memory.writeSel (s.core c).seam w.addr w.data w.sel := by
  have written : (s.modCore c fun k => k.applyBankWrite w).core c = (s.core c).applyBankWrite w := State.core_modCore ..
  have banks : ∀ d, ((s.modCore c fun k => k.applyBankWrite w).core c).bank d = (s.core c).bank d := fun d => by
    rw [written, Core.bank, Core.applyBankWrite_banks, Core.bank]
  have seam := written ▸ (s.core c).applyBankWrite_seam w
  simp only [State.closeBank, only, sortReqs, insertWrite, List.isEmpty_nil, List.isEmpty_cons, Bool.and_false, Bool.false_and, Bool.false_eq_true, if_false,
    List.filter_nil, List.foldl_nil, List.foldl_cons, List.filterMap_nil, List.append_nil, Option.any_none]
  generalize s.modCore c (fun k => k.applyBankWrite w) = u at written banks seam ⊢
  generalize hv : u.modBank c b _ = v
  have done : (v.core c).bank b = {} := by
    rw [← hv, State.bank_modBank _ _ _ hb, banks, only]
    rfl
  have others : ∀ d, d ≠ b → (v.core c).bank d = (s.core c).bank d := fun d hd => by rw [← hv, State.bank_modBank_ne _ _ _ hd, banks]
  have seam' : (v.core c).seam = (u.core c).seam := by rw [← hv, State.core_modBank]
  rw [State.raiseEnded_none (done ▸ rfl)]
  refine ⟨?_, fun d hd => ?_, ?_⟩
  · rw [State.bank_modBank _ _ _ hb, done]
    rfl
  · rw [State.bank_modBank_ne _ _ _ hd, others d hd]
  · rw [State.core_modBank, ← seam, ← seam']

/-- The banks of a core closed in their order. -/
def State.closeBanks (s : State) (n c : Nat) : State := (List.range 32).foldl (fun t b => t.closeBank c n b) s

/-- Once its banks have closed, a close changes neither a core's banks nor what they hold. -/
theorem State.closeCore_keeps (s : State) (n c : Nat) : ((s.closeCore n c).core c).banks = ((s.closeBanks n c).core c).banks ∧
    ((s.closeCore n c).core c).seam = ((s.closeBanks n c).core c).seam := by
  simp only [State.closeCore, State.closeBanks]
  generalize (List.range 32).foldl (fun u b => u.closeBank c n b) s = t
  generalize hu : (if (t.core c).fixes.isEmpty = true then t else _) = u
  obtain ⟨banks, seam⟩ : (u.core c).banks = (t.core c).banks ∧ (u.core c).seam = (t.core c).seam := by
    rw [← hu]
    split
    · exact ⟨rfl, rfl⟩
    · rw [State.core_modCore]
      exact ⟨rfl, rfl⟩
  rw [← banks, ← seam]
  split
  · exact ⟨rfl, rfl⟩
  · rw [State.core_modCore]
    split <;> exact ⟨rfl, rfl⟩

/-- A core whose bank 0 holds a write and whose other banks hold nothing: the close performs the write. -/
theorem State.closeCore_writes {s : State} {c : Nat} (n : Nat) {w : BankWrite} (only : (s.core c).banks = (Vector.replicate 32 {}).set 0 { writes := [w] }) :
    (((s.closeCore n c).core c).bank 0).writes = [] ∧ ((s.closeCore n c).core c).seam = Memory.writeSel (s.core c).seam w.addr w.data w.sel := by
  have first : (s.core c).bank 0 = { writes := [w] } := by
    rw [Core.bank, only]
    rfl
  obtain ⟨done, others, seam⟩ := State.closeBank_writes n (by decide) first
  have idle : ∀ b ∈ (List.range 31).map Nat.succ, ((s.closeBank c n 0).core c).bank b = {} := by
    intro b hb
    obtain ⟨d, hd, rfl⟩ := List.mem_map.1 hb
    have inside : d + 1 < 32 := Nat.succ_lt_succ (List.mem_range.1 hd)
    rw [others _ (Nat.succ_ne_zero d), Core.bank, only]
    simp [vget, inside]
  have closed : s.closeBanks n c = s.closeBank c n 0 := by
    rw [State.closeBanks, List.range_succ_eq_map, List.foldl_cons, State.closeBanks_idle n _ idle]
  obtain ⟨banks, seam'⟩ := s.closeCore_keeps n c
  rw [closed] at banks seam'
  refine ⟨?_, seam'.trans seam⟩
  rw [Core.bank, banks]
  exact done

/-! ### The close at core (0,0) (R264) -/

/-- A beat closes at the cores of delay 0, and the next opens in the next cycle. -/
theorem beatClose_closes {s : State} (harg : s.arg = .nums [0]) : ∃ t, exec .beatClose s = .next t ∧
    t.cores = ((s.delayCores 0).foldl (fun u c => u.closeCore s.beat c) s).cores ∧
    ∃ e ∈ t.agenda, e.act = .run .beatOpen (.nums [0]) ∧ e.phase = 0 ∧ e.at_ = s.now + 1 := by
  let closed := (s.delayCores 0).foldl (fun u c => u.closeCore s.beat c) s
  let told := closed.delays.foldl (fun u d => u.post (s.now + d) 3 none (.run .beatClose (.nums [d, s.beat]))) closed
  have cores : told.cores = closed.cores := List.foldlRecOn (motive := fun u : State => u.cores = closed.cores) _ _ rfl fun _ hu _ _ => hu
  have made : exec .beatClose s = .next (told.post (s.now + 1) 0 none (.run .beatOpen (.nums [0]))) := by
    change execBeatClose s = _
    simp only [execBeatClose, harg]
    rfl
  exact ⟨_, made, cores, _, State.post_listed .., rfl, rfl, rfl⟩

/-- On a machine of one core whose bank 0 holds a write, the close performs it. -/
theorem beatClose_writes {s : State} {k : Core} {w : BankWrite} (harg : s.arg = .nums [0]) (alone : s.cores = [(0, k)])
    (only : k.banks = (Vector.replicate 32 {}).set 0 { writes := [w] }) (whole : w.sel = []) (canonical : Memory.wf k.seam = true) :
    ∃ t, exec .beatClose s = .next t ∧ ((t.core 0).bank 0).writes = [] ∧
      (∀ i < w.data.length, (t.core 0).seam.read (w.addr + i) = w.data.getD i 0) ∧
      ∀ a, a < w.addr ∨ w.addr + w.data.length ≤ a → (t.core 0).seam.read a = k.seam.read a := by
  have core : s.core 0 = k := by rw [State.core, alone]; rfl
  have cores : s.delayCores 0 = [0] := by simp [State.delayCores, alone, pulseDelay, coreX, coreY]
  obtain ⟨t, made, kept, -⟩ := beatClose_closes harg
  have closed : t.core 0 = (s.closeCore s.beat 0).core 0 := by
    rw [State.core, kept, cores, List.foldl_cons, List.foldl_nil, State.core]
  obtain ⟨done, seam⟩ := State.closeCore_writes (s := s) (c := 0) s.beat (core ▸ only)
  rw [core, whole, Memory.writeSel_nil] at seam
  refine ⟨t, made, ?_, fun i hi => ?_, fun a outside => ?_⟩
  · rw [closed, done]
  · rw [closed, seam, Memory.read_writeBytes _ _ canonical, if_pos (by omega), Nat.add_sub_cancel_left]
  · rw [closed, seam, Memory.read_writeBytes _ _ canonical, if_neg (by omega)]

end Sys2Proof.Machine
end

