-- ==== Sys2Proof/Proofs/BeatEvents.lean ====
section
/-! SUPPORT. What raising a fault leaves of the cores (R387, R388, R394), the arrival of a bank request (R266), the release of an anchor (R99, R100), and
with the parts before it O41. -/

namespace Sys2Proof.Machine

open Sys2Proof.Claims

/-! ### Raising a fault (R387, R388, R394) -/

/-- A core from which a freeze may have withdrawn requests: its bank queues and its withheld requests change alone (R388). -/
def Core.Withdrawn (k x : Core) : Prop := x = { k with banks := x.banks, withheld := x.withheld }

section

variable {k x : Core} (h : k.Withdrawn x)
include h

theorem Core.Withdrawn.fault : x.fault = k.fault := Eq.trans (congrArg Core.fault h) rfl
theorem Core.Withdrawn.arriving : x.arriving = k.arriving := Eq.trans (congrArg Core.arriving h) rfl

end

/-- A table changed entry by entry, whose absent entries read as the default. -/
theorem Table.getD_map {α : Type} (P : α → α → Prop) (t : Table α) (f : Nat × α → α) (d : α) (refl : P d d)
    (each : ∀ e ∈ t, P e.2 (f e)) (k : Nat) :
    P (Table.getD t k d) (Table.getD (t.map fun e => (e.1, f e)) k d) := by
  induction t with
  | nil => exact refl
  | cons e t ih =>
    simp only [Table.getD, List.map_cons, Table.find?]
    split
    · exact each e (.head _)
    · exact ih fun x hx => each x (.tail _ hx)

theorem State.withhold_core (s : State) (t : Stope) (c : Nat) : (s.core c).Withdrawn ((s.withhold t).core c) := by
  simp only [State.withhold]
  split
  · exact rfl
  · refine Table.getD_map Core.Withdrawn s.cores _ {} rfl (fun e _ => ?_) c
    exact rfl
theorem State.freeze_core (s : State) (d c : Nat) : (s.core c).Withdrawn ((s.freeze d).core c) := by
  unfold State.freeze
  split
  · split
    · exact rfl
    · simp only [State.stopStope]
      split
      · exact rfl
      · exact State.withhold_core ..
  · exact rfl

/-- The core that a fault is raised on, before the stope freezes: its record, and the replay entry of the word. -/
def Core.faulted (k : Core) (f : FaultRec) (lcyc : Nat) (strm : Strm) (r : Replay) : Core :=
  (k.record { f with lcyc }).enqueue strm { r with code := f.code, sub := f.sub, va := f.va, kind := f.kind }

theorem Core.setStrm_fault (k : Core) (st : StreamSt) (strm : Strm) : (k.setStrm st strm).fault = k.fault := by cases strm <;> rfl
theorem Core.setStrm_arriving (k : Core) (st : StreamSt) (strm : Strm) : (k.setStrm st strm).arriving = k.arriving := by cases strm <;> rfl

section

variable (k : Core) (f : FaultRec) (lcyc : Nat) (strm : Strm) (r : Replay)

/-- Of the core itself a fault changes its record and its replay queues. -/
theorem Core.faulted_arriving : (k.faulted f lcyc strm r).arriving = k.arriving := by
  have recorded : (k.record { f with lcyc }).arriving = k.arriving := by
    unfold Core.record
    split <;> rfl
  rw [← recorded, Core.faulted]
  generalize k.record { f with lcyc } = x
  simp only [Core.enqueue]
  split
  · exact Core.setStrm_arriving ..
  · rfl
/-- A first fault stands in the record in full, whether its replay entry finds room or not. -/
theorem Core.faulted_record (first : k.fault = none) :
    ∃ g, (k.faulted f lcyc strm r).fault = some g ∧ g.code = f.code ∧ g.unit = f.unit := by
  have recorded : (k.record { f with lcyc }).fault = some { f with lcyc, count := 1, noresume := f.final } := by
    unfold Core.record
    rw [first]
    rfl
  rw [Core.faulted]
  generalize k.record { f with lcyc } = x at recorded
  simp only [Core.enqueue]
  split
  · exact ⟨_, (Core.setStrm_fault ..).trans recorded, rfl, rfl⟩
  · exact ⟨_, congrArg (Option.map _) recorded, rfl, rfl⟩

end

/-- The core that a fault is raised on: faulted, and then frozen. -/
theorem State.raise_core (s : State) (c : Nat) (f : FaultRec) (strm : Strm) (r : Replay) :
    ((s.core c).faulted f (s.localCyc c) strm r).Withdrawn ((s.raise c f (some (strm, r))).core c) := by
  have faulted : (s.modCore c fun k => k.faulted f (s.localCyc c) strm r).core c = (s.core c).faulted f (s.localCyc c) strm r := State.core_modCore ..
  rw [← faulted]
  simp only [State.raise]
  split
  · exact State.freeze_core (State.devEvent ..) c c
  · exact State.freeze_core _ c c
/-- Another core is at most frozen with it. -/
theorem State.raise_core_ne (s : State) {c d : Nat} (f : FaultRec) (e : Option (Strm × Replay)) (h : d ≠ c) :
    (s.core d).Withdrawn ((s.raise c f e).core d) := by
  simp only [State.raise]
  generalize hu : s.modCore c _ = u
  have same : u.core d = s.core d := by
    rw [← hu]
    exact State.core_modCore_ne _ _ _ _ h
  rw [← same]
  split
  · exact State.freeze_core (u.devEvent ..) c d
  · exact State.freeze_core u c d

/-- A first fault on a core: it stands in the record, and no core's arriving requests change. -/
theorem State.raise_first {s : State} {c : Nat} (first : (s.core c).fault = none) (f : FaultRec) (strm : Strm) (r : Replay) :
    (∃ g, ((s.raise c f (some (strm, r))).core c).fault = some g ∧ g.code = f.code ∧ g.unit = f.unit) ∧
      ∀ d, ((s.raise c f (some (strm, r))).core d).arriving = (s.core d).arriving := by
  have here := s.raise_core c f strm r
  obtain ⟨g, record, code, unit⟩ := (s.core c).faulted_record f (s.localCyc c) strm r first
  refine ⟨⟨g, here.fault.trans record, code, unit⟩, fun d => ?_⟩
  by_cases hd : d = c
  · subst hd
    exact here.arriving.trans (Core.faulted_arriving ..)
  · exact (s.raise_core_ne f _ hd).arriving

/-! ### A bank request arrives (R266) -/

/-- A change of a core that keeps its binding keeps every core's stope. -/
theorem State.stopeOf_modCore {s : State} {c : Nat} {f : Core → Core} (keeps : (f (s.core c)).bound = (s.core c).bound) (d : Nat) :
    (s.modCore c f).stopeOf d = s.stopeOf d := by
  have bound : ((s.modCore c f).core d).bound = (s.core d).bound := by
    by_cases hd : d = c
    · subst hd
      rw [State.core_modCore, keeps]
    · rw [State.core_modCore_ne _ _ _ _ hd]
  simp only [State.stopeOf, bound, State.modCore_stopes]

/-- The machine with no request on its way to a core's banks. -/
def State.noneArriving (s : State) (c : Nat) : State := s.modCore c fun k => { k with arriving := [] }

section

variable {s : State} {c : Nat} {r : BankReq}

theorem State.noneArriving_core (s : State) (c : Nat) : (s.noneArriving c).core c = { s.core c with arriving := [] } := State.core_modCore ..
theorem State.noneArriving_fits : (s.noneArriving c).bankFits c r = s.bankFits c r := by
  have bank : ((s.noneArriving c).core c).bank r.bank = (s.core c).bank r.bank := by
    rw [State.noneArriving_core]
    rfl
  simp only [State.bankFits, bank]
  rfl
theorem State.noneArriving_pastF (d n : Nat) : (s.noneArriving c).pastF d c n = s.pastF d c n := by
  simp only [State.pastF, State.noneArriving, State.stopeOf_modCore (f := fun k : Core => { k with arriving := [] }) rfl d]
  rfl

/-- The only request on its way to a core's banks arrives. -/
theorem bankRequestArrival_arrives (harg : s.arg = .nums [c, r.id]) (only : (s.core c).arriving = [r]) :
    exec .bankRequestArrival s = .next ((s.noneArriving c).arrive c 64 r) := by
  have found : (s.core c).arriving.find? (fun x => x.id == r.id) = some r := by simp [only]
  have taken : s.modCore c (fun k => { k with arriving := k.arriving.filter fun x => x.id != r.id }) = s.noneArriving c := by
    simp [State.noneArriving, State.modCore, only]
  change execBankRequestArrival s = _
  simp only [execBankRequestArrival, harg, found, taken]

/-- A request that is admitted takes its queue entry, in a bank that there is. -/
theorem State.bankAdmit_core (free : s.pastF r.core c r.beat = false) :
    (((s.bankAdmit c r).core c).bank r.bank).queue = (if r.bank < 32 then ((s.core c).bank r.bank).queue ++ [r] else []) ∧
      ((s.bankAdmit c r).core c).arriving = (s.core c).arriving ∧ ((s.bankAdmit c r).core c).seam = (s.core c).seam := by
  simp only [State.bankAdmit, free, Bool.false_eq_true, if_false]
  generalize hu : s.modBank c r.bank _ = u
  have queue : ((u.core c).bank r.bank).queue = if r.bank < 32 then ((s.core c).bank r.bank).queue ++ [r] else [] := by
    by_cases hb : r.bank < 32
    · rw [if_pos hb, ← hu, State.bank_modBank _ _ _ hb]
    · simp [Core.bank, vget, hb]
  have rest : (u.core c).arriving = (s.core c).arriving ∧ (u.core c).seam = (s.core c).seam := by
    rw [← hu, State.core_modBank]
    exact ⟨rfl, rfl⟩
  split
  · split <;> exact ⟨queue, rest⟩
  · exact ⟨queue, rest⟩

/-- A late request of a scalar word: BEAT_LATE on the core that issued it. -/
theorem State.bankLate_scalar (scalar : r.src = 2) (first : (s.core r.core).fault = none) :
    (∃ f, ((s.bankLate c r).core r.core).fault = some f ∧ f.code = 0x15 ∧ f.unit = r.bank) ∧
      ((s.bankLate c r).core c).arriving = (s.core c).arriving := by
  simp only [State.bankLate, scalar, OfNat.ofNat_ne_one, OfNat.ofNat_ne_zero, if_false]
  generalize hu : (if r.command = true then _ else s) = u
  have kept : (u.core r.core).fault = none ∧ (u.core c).arriving = (s.core c).arriving := by
    rw [← hu]
    split
    · refine ⟨?_, by rw [State.core_modBank]⟩
      by_cases hc : r.core = c
      · rw [hc, State.core_modBank, ← hc]
        exact first
      · rw [State.core_modBank_ne _ _ hc]
        exact first
    · exact ⟨first, rfl⟩
  obtain ⟨record, arriving⟩ := State.raise_first kept.1 _ .scalar r.entry
  exact ⟨record, (arriving c).trans kept.2⟩

theorem State.arrive_fits (fits : s.bankFits c r = true) (n : Nat) : s.arrive c (n + 1) r = s.bankAdmit c r := by
  rw [State.arrive, if_pos fits]
theorem State.arrive_late (late : s.bankFits c r = false) (fault : r.slide = false) (n : Nat) : s.arrive c (n + 1) r = s.bankLate c r := by
  rw [State.arrive, late, fault]
  rfl

variable (harg : s.arg = .nums [c, r.id]) (only : (s.core c).arriving = [r])
include harg only

/-- A request that fits its beat takes its queue entry. -/
theorem bankRequestArrival_admits (fits : s.bankFits c r = true) (free : s.pastF r.core c r.beat = false) :
    ∃ t, exec .bankRequestArrival s = .next t ∧
      ((t.core c).bank r.bank).queue = (if r.bank < 32 then ((s.core c).bank r.bank).queue ++ [r] else []) ∧
      (t.core c).arriving = [] ∧ (t.core c).seam = (s.core c).seam := by
  have made := bankRequestArrival_arrives harg only
  rw [State.arrive_fits (State.noneArriving_fits.trans fits) 63] at made
  obtain ⟨queue, arriving, seam⟩ := State.bankAdmit_core (s := s.noneArriving c) ((State.noneArriving_pastF ..).trans free)
  rw [State.noneArriving_core] at queue arriving seam
  exact ⟨_, made, queue, arriving, seam⟩
/-- One that does not is BEAT_LATE. -/
theorem bankRequestArrival_late (late : s.bankFits c r = false) (fault : r.slide = false) (scalar : r.src = 2)
    (first : (s.core r.core).fault = none) : ∃ t f, exec .bankRequestArrival s = .next t ∧ (t.core r.core).fault = some f ∧ f.code = 0x15 ∧
      f.unit = r.bank ∧ (t.core c).arriving = [] := by
  have made := bankRequestArrival_arrives harg only
  rw [State.arrive_late (State.noneArriving_fits.trans late) fault 63] at made
  have none : ((s.noneArriving c).core r.core).fault = none := by
    by_cases hc : r.core = c
    · rw [hc, State.noneArriving_core, ← hc]
      exact first
    · rw [State.noneArriving, State.core_modCore_ne _ _ _ _ hc]
      exact first
  obtain ⟨⟨f, record, code, unit⟩, arriving⟩ := State.bankLate_scalar (s := s.noneArriving c) (c := c) scalar none
  exact ⟨_, f, made, record, code, unit, arriving.trans (by rw [State.noneArriving_core])⟩

end

/-! ### An anchor lets its stope go on (R99, R100) -/

/-- A core whose anchor has let it go. -/
def Core.released (k : Core) : Core := { k with sc := { k.sc with waiting := false }, anchor := none }

section

variable {s : State} {id : Nat} {p : Stope} (harg : s.arg = .nums [id]) (found : s.stopes.find? (fun x => x.id == id) = some p)
include harg found

theorem anchorRelease_waits (early : s.anchorReady p = false) : exec .anchorRelease s = .next s := by
  change execAnchorRelease s = _
  simp only [execAnchorRelease, harg, found, early, Bool.false_eq_true, if_false]
/-- The one core of a stope that has arrived is let go, and its next word is due a cycle and its gap after the pulse. -/
theorem anchorRelease_releases (ready : s.anchorReady p = true) {c : Nat} (cores : p.cores = [c]) (going : (s.core c).sc.halted = false) :
    exec .anchorRelease s = .next ((s.setCore c (s.core c).released).postIssue c .scalar
      (s.now + pulseDelay c + 1 + (s.core c).gapAt .scalar (s.core c).sc.next)) := by
  have goes : p.cores.filter (fun c => !(s.core c).sc.halted) = [c] := by simp [cores, going]
  change execAnchorRelease s = _
  simp only [execAnchorRelease, harg, found, ready, goes, if_true]
  rfl

end

/-- What is due for a core is reckoned by its stope alone, which its release keeps. -/
theorem State.dueAt_released (s : State) (c at_ : Nat) :
    (s.setCore c (s.core c).released).dueAt at_ (some c) = s.dueAt at_ (some c) := by
  have stope : (s.setCore c (s.core c).released).stopeOf c = s.stopeOf c := State.stopeOf_modCore (f := Core.released) rfl c
  have frozen : (s.setCore c (s.core c).released).frozenAt c = s.frozenAt c := by
    simp only [State.frozenAt, stope]
  simp only [State.dueAt, Option.bind_some, frozen, State.setCore_now] <;> rfl

/-! ### A bank's program goes on (R268) -/

/-- The engine a bank is given stands in it once its move is on the agenda. -/
theorem State.bank_moving (s : State) (c : Nat) {b : Nat} (e : Engine) (at_ : Nat) (hb : b < 32) :
    ((((s.modBank c b fun x => { x with engine := some e }).postMove c b at_).core c).bank b).engine = some e :=
  congrArg Bank.engine (State.bank_modBank s c (fun x => { x with engine := some e }) hb)

/-- Settles O41 (R39, R99, R100, R263, R264, R266, R268, R312): each event by what it leaves of the beats, the banks and the cores. -/
theorem beatEvents : Obligations.BeatEvents := by
  unfold Obligations.BeatEvents
  intro s
  refine ⟨beatOpen_leaves, ?close, ?writes, ?arrival, ?start, ?resume, ?release, fun _ _ harg found early => anchorRelease_waits harg found early⟩
  case close =>
    intro harg
    obtain ⟨t, made, -, opens⟩ := beatClose_closes harg
    exact ⟨t, made, opens⟩
  case writes => exact fun k w harg alone only whole canonical _ _ => beatClose_writes harg alone only whole canonical
  case arrival => exact fun c r harg only => ⟨bankRequestArrival_admits harg only, bankRequestArrival_late harg only⟩
  case start =>
    intro c b r slot aa ab l harg hb compute free only bank job beat filled
    have engine : engineFor (s.core c) r = { req := r, code := Table.getD (s.core c).act.progs slot [], aa, ab } := by rw [engineFor, job]
    have none : ((s.core c).bank b).engine = none := by rw [only]
    have made := bankProgramStart_starts harg compute free none (Bank.nextProg_only only hb bank job beat) (by rw [engine]; exact filled)
    rw [engine] at made
    exact ⟨_, _, made, State.bank_moving _ c { req := r, code := Table.getD (s.core c).act.progs slot [], aa, ab } _ hb,
      rfl, rfl, rfl, rfl, rfl, rfl, rfl, rfl, rfl, by simp, State.postMove_listed ..⟩
  case resume =>
    intro c b e harg hb compute free engine suspended
    exact ⟨_, bankProgramStart_resumes harg compute free engine suspended, State.bank_moving _ c _ _ hb⟩
  case release =>
    intro id p c harg found ready cores going
    have core : (s.setCore c (s.core c).released).core c = (s.core c).released := State.core_setCore ..
    exact ⟨_, anchorRelease_releases harg found ready cores going, congrArg (fun k : Core => k.sc.waiting) core, congrArg Core.anchor core,
      ⟨_, State.post_listed .., rfl, s.dueAt_released c _⟩, fun x other => State.core_setCore_ne _ _ _ _ other, rfl⟩

end Sys2Proof.Machine
end

