-- ==== Sys2Proof/Proofs/WordFields.lean ====
section
/-! SUPPORT. The bits of a word under a mask: a word under construction by its fields, its fields read back, and a word put together again from what
is read of it (R4, R121, R123). -/

namespace Sys2Proof.Machine

/-! ### Masks -/

/-- The mask of the bits [lo + n - 1 : lo]. -/
def fieldMask (lo n : Nat) : Nat := (2 ^ n - 1) <<< lo

/-- The mask as a difference of powers. -/
theorem fieldMask_eq (lo n : Nat) : fieldMask lo n = 2 ^ (lo + n) - 2 ^ lo := by
  rw [fieldMask, Nat.shiftLeft_eq, Nat.sub_mul, Nat.one_mul, ← Nat.pow_add, Nat.add_comm n]

/-- Numbers without a common bit add up without a carry. -/
theorem add_eq_or_of_land {x y : Nat} (h : x &&& y = 0) : x + y = x ||| y := by
  have hx : x < 2 ^ (x + y + 1) := Nat.lt_of_lt_of_le Nat.lt_two_pow_self (Nat.pow_le_pow_right (by omega) (by omega))
  have hy : y < 2 ^ (x + y + 1) := Nat.lt_of_lt_of_le Nat.lt_two_pow_self (Nat.pow_le_pow_right (by omega) (by omega))
  have hs : x + y < 2 ^ (x + y + 1) := Nat.lt_of_lt_of_le Nat.lt_two_pow_self (Nat.pow_le_pow_right (by omega) (by omega))
  have hb := congrArg BitVec.toNat (BitVec.add_eq_or_of_and_eq_zero (BitVec.ofNat (x + y + 1) x) (BitVec.ofNat (x + y + 1) y)
    (by rw [← BitVec.ofNat_and, h]))
  simpa [Nat.mod_eq_of_lt hx, Nat.mod_eq_of_lt hy, Nat.mod_eq_of_lt hs] using hb

/-- A bit of a field's mask. -/
theorem testBit_fieldMask (lo n i : Nat) : (fieldMask lo n).testBit i = (decide (lo ≤ i) && decide (i < lo + n)) := by
  simp only [fieldMask, Nat.testBit_shiftLeft, Nat.testBit_two_pow_sub_one, ge_iff_le]
  by_cases h : lo ≤ i
  · simp [h, Nat.sub_lt_iff_lt_add h, Nat.add_comm]
  · simp [h]

/-- A field put at a bit has no bit off its mask. -/
theorem putField_land_fieldMask {n : Nat} (v : BitVec n) (lo : Nat) : putField v lo &&& fieldMask lo n = putField v lo := by
  apply Nat.eq_of_testBit_eq
  intro i
  rw [Nat.testBit_and, testBit_fieldMask]
  by_cases h : lo ≤ i <;> by_cases h' : i < lo + n <;> simp [putField, h, h']
  rw [BitVec.testBit_toNat]
  exact BitVec.getLsbD_of_ge v _ (by omega)

/-- A field read and put back at its place is the word's bits under its mask. -/
theorem putField_fieldOf (w lo n : Nat) : putField (fieldOf w lo n) lo = w &&& fieldMask lo n := by
  apply Nat.eq_of_testBit_eq
  intro i
  rw [Nat.testBit_and, testBit_fieldMask]
  by_cases h : lo ≤ i <;> simp [putField, fieldOf, h]
  by_cases h' : i < lo + n
  · simp [h', show i - lo < n by omega]
  · simp [h', show ¬ i - lo < n by omega]

/-- A field is what its mask leaves of the word. -/
theorem fieldOf_eq_land (w lo n : Nat) : fieldOf w lo n = BitVec.ofNat n ((w &&& fieldMask lo n) >>> lo) := by
  rw [← putField_fieldOf]
  simp [putField, Nat.shiftLeft_shiftRight]

/-- The same for a field read as a number. -/
theorem bitsOf_eq_land (w lo n : Nat) : bitsOf w lo n = (w &&& fieldMask lo n) >>> lo := by
  rw [← putField_fieldOf]
  simp [putField, Nat.shiftLeft_shiftRight, fieldOf, bitsOf]

/-- A field read as a number and put back. -/
theorem bitsOf_shiftLeft (w lo n : Nat) : bitsOf w lo n <<< lo = w &&& fieldMask lo n := by
  rw [← putField_fieldOf]
  simp [putField, fieldOf, bitsOf]

/-! ### From a word to its fields -/

/-- Bits known under a mask, and a field off it: the bits known under both. -/
theorem land_add_field {w m c lo n : Nat} (h : w &&& m = c) (hd : m &&& fieldMask lo n = 0) :
    w &&& (m + fieldMask lo n) = c + putField (fieldOf w lo n) lo := by
  rw [putField_fieldOf, ← h, add_eq_or_of_land hd, Nat.and_or_distrib_left, add_eq_or_of_land]
  rw [Nat.and_assoc, Nat.and_left_comm m w, hd, Nat.and_zero, Nat.and_zero]

/-- Where every bit of a word is known, so is the word. -/
theorem eq_of_land_all {w m c k : Nat} (hw : w < 2 ^ k) (h : w &&& m = c) (hm : m = 2 ^ k - 1) : c = w := by
  rw [← h, hm, Nat.and_two_pow_sub_one_of_lt_two_pow hw]

/-! ### From fields to a word

A word under construction holds, under a mask `K` of the bits no field has been put at, the bits `b` of its row. -/

/-- The row's own bits, before any field. -/
theorem land_all {b : Nat} (h : b % 2 ^ 32 = b) : b &&& (2 ^ 32 - 1) = b := by
  rw [Nat.and_two_pow_sub_one_eq_mod, h]

/-- A field is put where the word has no bits yet. -/
theorem add_putField {n x lo : Nat} (v : BitVec n) (h : x &&& fieldMask lo n = 0) : x + putField v lo = x ||| putField v lo := by
  apply add_eq_or_of_land
  rw [← putField_land_fieldMask, Nat.and_comm (putField v lo), ← Nat.and_assoc, h, Nat.zero_and]

/-- A mask off the field sees nothing of it. -/
theorem putField_land_off {n lo m : Nat} (v : BitVec n) (h : fieldMask lo n &&& m = 0) : putField v lo &&& m = 0 := by
  rw [← putField_land_fieldMask, Nat.and_assoc, h, Nat.and_zero]

/-- Its own mask sees the field. -/
theorem putField_land_on {n lo m : Nat} (v : BitVec n) (h : m = fieldMask lo n) : putField v lo &&& m = putField v lo := by
  rw [h, putField_land_fieldMask]

/-- The field reads back. -/
theorem ofNat_putField_shiftRight {n : Nat} (v : BitVec n) (lo : Nat) : BitVec.ofNat n (putField v lo >>> lo) = v := by
  simp [putField, Nat.shiftLeft_shiftRight]

/-- A field put where the row has no bits leaves the row's bits, under the mask less the field. -/
theorem add_putField_land {n x lo K b : Nat} {v : BitVec n} (h : x &&& K = b) (hb : b &&& fieldMask lo n = 0)
    (hK : fieldMask lo n &&& K = fieldMask lo n) : (x + putField v lo) &&& (K ^^^ fieldMask lo n) = b := by
  have clear : x &&& fieldMask lo n = 0 := by rw [← hK, Nat.and_comm _ K, ← Nat.and_assoc, h, hb]
  have off : fieldMask lo n &&& (K ^^^ fieldMask lo n) = 0 := by
    rw [Nat.and_xor_distrib_left, hK, Nat.and_self, Nat.xor_self]
  rw [add_putField v clear, Nat.and_or_distrib_right, putField_land_off v off, Nat.or_zero, Nat.and_xor_distrib_left, h, clear, Nat.xor_zero]

/-- A field of the known bits. -/
theorem bitsOf_of_land {w K b lo n : Nat} (hk : w &&& K = b) (hm : fieldMask lo n &&& K = fieldMask lo n) :
    bitsOf w lo n = (b &&& fieldMask lo n) >>> lo := by
  rw [bitsOf_eq_land, ← hk, Nat.and_assoc, Nat.and_comm K, hm]

/-! ### Rows of the decoder -/

/-- A row that asks for other bits than the known ones is passed over. -/
theorem row_skip {α : Type} {w K b m c : Nat} {t e x : α} (hk : w &&& K = b) (hne : ((b &&& m) == (c &&& K)) = false) (he : e = x) :
    (if w &&& m = c then t else e) = x := by
  rw [if_neg, he]
  rintro rfl
  rw [← hk, Nat.and_assoc, Nat.and_assoc, Nat.and_comm K] at hne
  simp at hne

/-- A row all of whose bits are known and as it asks is taken. -/
theorem row_take {α : Type} {w K b m c : Nat} {t e x : α} (hk : w &&& K = b) (hm : m &&& K = m) (hc : b &&& m = c) (ht : t = x) :
    (if w &&& m = c then t else e) = x := by
  rw [if_pos, ht]
  rw [← hc, ← hk, Nat.and_assoc, Nat.and_comm K, hm]

end Sys2Proof.Machine
end

