-- ==== Sys2Proof/Proofs/Encodings.lean ====
section
/-! SUPPORT. Decoding and encoding are inverse: of each kind of word, what its decoder makes of an encoded instruction, and what the encoder makes of
a decoded one; with them O57 and O58. -/

namespace Sys2Proof

open Sys2Proof.Machine Sys2Proof.Claims

/-- A row's instruction is decoded when it is well formed. -/
theorem checked_eq_ok {r : Option Instr} {i : Instr} : checked r = .ok i ↔ r = some i ∧ i.wf = true := by
  cases r with
  | none => simp [checked]
  | some j =>
    simp only [checked, Option.some.injEq]
    split
    · next h => exact ⟨fun e => by cases e; exact ⟨rfl, h⟩, fun e => by rw [e.1]⟩
    · next h => exact ⟨nofun, fun e => absurd (e.1 ▸ e.2) h⟩

/-! ### What is read of an encoded instruction -/

/-- A well-formed instruction's word reads back as that instruction. -/
def ReadsBack (i : Instr) : Prop := i.wf = true → ∀ n w, encode i = some (n, w) → readBack i n w = .ok i

/-- A step that is no word is not read. -/
theorem ReadsBack.of_none {i : Instr} (h : encode i = none) : ReadsBack i := by
  intro _ n w hw
  rw [h] at hw
  cases hw

/-- One row of a decoder is enough. -/
theorem ReadsBack.of_row {i : Instr} {k v : Nat} {row : Nat → Option Instr} (he : encode i = some (k, v))
    (hr : ∀ w, readBack i k w = checked (row w)) (h : i.wf = true → row v = some i) : ReadsBack i := by
  intro wf n w hw
  rw [he] at hw
  cases hw
  rw [hr, checked_eq_ok]
  exact ⟨h wf, wf⟩

/-- A word of 32 bits is looked for by the bits known of it, those off its fields. -/
theorem ReadsBack.of_known {i : Instr} {v K b : Nat} (he : encode i = some (32, v)) (hk : v &&& K = b)
    {row : Nat → Option Instr}
    (hr : ∀ w, readBack i 32 w = checked (row w)) (h : v &&& K = b → row v = some i) : ReadsBack i :=
  .of_row he hr fun _ => h hk

/-- The opcode of a vector word (R131). -/
theorem bitsOf_putVWord_op {op : Nat} (v : VWord) (h : op < 256) : bitsOf (putVWord op v) 88 8 = op := by
  have h1 := v.ty.isLt; have h2 := v.mask.isLt; have h3 := v.zero.isLt; have h4 := v.rnd.isLt; have h5 := v.rep.isLt
  have h6 := v.gap.isLt; have h7 := v.d.reg.isLt; have h8 := v.d.stride.isLt; have h9 := v.a.reg.isLt; have h10 := v.a.stride.isLt
  have h11 := v.b.reg.isLt; have h12 := v.b.stride.isLt; have h13 := v.ext.isLt
  simp only [bitsOf, putVWord, putVOp, putField_eq, Nat.shiftLeft_eq, Nat.shiftRight_eq_div_pow]
  omega

/-- Extension bits of a vector word are those of its low bits (R131). -/
theorem vwordOf_e {w lo n : Nat} (h : lo + n ≤ 24) : (vwordOf w).e lo n = bitsOf w lo n := by
  apply Nat.eq_of_testBit_eq
  intro j
  by_cases hj : j < n
  · simp only [VWord.e, vwordOf, fieldOf, Nat.shiftRight_zero, BitVec.toNat_ofNat, bitsOf, Nat.testBit_mod_two_pow, Nat.testBit_shiftRight, hj,
      show lo + j < 24 by omega, decide_true, Bool.true_and]
  · simp [VWord.e, vwordOf, bitsOf, fieldOf, hj]

/-- The extension bit that tells VTILE WAIT from VTILE MARK (R234). -/
theorem bitsOf_putVWord_19 (op : Nat) (v : VWord) : bitsOf (putVWord op v) 19 1 = v.e 19 1 := by
  rw [← vwordOf_e (by decide), vwordOf_putVWord]

/-- A move's fields read back (R137). -/
theorem decodeMove_put (src dst : BitVec 8) (imm : BitVec 16) :
    decodeMove (putField src 24 + putField dst 16 + putField imm 0) = .mv src dst imm := by
  have h1 := src.isLt; have h2 := dst.isLt; have h3 := imm.isLt
  simp only [decodeMove, fieldOf, putField_eq, Instr.mv.injEq, Nat.shiftRight_eq_div_pow]
  refine ⟨?_, ?_, ?_⟩ <;> apply BitVec.eq_of_toNat_eq <;> simp only [BitVec.toNat_ofNat] <;> omega

/-- The opcode of a matrix word (R132). -/
theorem bitsOf_putMWord_op {op : Nat} (w : MWord) (h : op < 256) : bitsOf (putMWord op w) 184 8 = op := by
  have h1 := w.gap.isLt; have h2 := w.spec.isLt; have h3 := w.tag.isLt; have h4 := w.tile.isLt; have h5 := w.body.isLt
  simp only [bitsOf, putMWord, putField_eq, Nat.shiftLeft_eq, Nat.shiftRight_eq_div_pow]
  omega

/-- Every instruction reads back: a word of 32 bits by the row its known bits choose and the fields off them, a vector or a matrix word by its opcode;
one bit more tells VTILE WAIT from VTILE MARK. -/
theorem readsBack (i : Instr) : ReadsBack i := by
  cases i
  case add | sub | and | or | xor | sll | srl | sra | mul | mulh | mulhu | div | divu | rem | remu | min | max | minu | maxu | clz | ctz | popc |
    addw | subw | andn | addi | andi | ori | xori | slli | srli | srai | lhi | addpc | fadd | fsub | fmul | fdiv | fsqrt | fmin | fmax | fsgnj |
    fsgnn | fsgnx | fcvti | icvtf | ftobf | bftof | fclass | fma | fms | fnma | fnms | cmp | cmpi | fcmp | cand | cor | cxor | candn | cnot |
    ctrue | cfalse | cmove | csave | cload | prep | prepr | br | brn | jmp | call | ret | loop | loopi | lprw | lda | ldau | sta | ldg | ldgu |
    stg | enter | leave | amoadd | amomin | amomax | amominu | amomaxu | amoand | amoor | amoxor | amoswap | amofadd | cas | qpush | qpop | qpeek |
    qcnt | blk | wait | anchor | tnow | bnow | btset | cpy | cpys | drain | bkrun | bklode | bkcal | bkst | mlease | mfree | scommit | sdrop |
    bar | bara | barw | fence | waitm | ttset | trdy | sbset | sbarm | clx | dsadmit | dsemit | dstrunc | dscur | kvinv | kvaccept | kvcommit |
    nop | trap | gets | puts | bkpt | swap | halt =>
    apply ReadsBack.of_known rfl
    · repeat with_reducible apply add_putField_land
      exact land_all rfl
      all_goals rfl
    · exact fun _ => rfl
    · intro hk
      rw [scalarRow, bitsOf_of_land hk rfl]
      repeat refine row_skip hk rfl ?_
      refine row_take hk rfl rfl ?_
      simp only [fieldOf_eq_land, add_putField, putField_land_off, putField_land_on, ofNat_putField_shiftRight, fieldMask_eq,
        Nat.and_or_distrib_right, Nat.zero_or, Nat.or_zero, Nat.reduceAdd, Nat.reducePow, Nat.reduceSub, Nat.reduceAnd]
  case vmov | vadd | vsub | vmul | vfma | vfms | vmin | vmax | vabs | vneg | vadds | vsubs | vmulh | vand | vor | vxor | vnot | vshl | vshr |
    vsar | vsel | vcmp | vclamp | vdot4 | vtacc | vrsum | vrmax | vrmin | vrsums | vscan | vpermb | vpermw | vslide | vbcast | vcvt | vqmx |
    vdqmx | vunt5 | vnbps | vnbpj | vmset | vmlog | vmcnt | vmfirst | vmrow | vmpos | vshort | vsample | vrng | vexp2 | vlog2 | vrcp | vrsq |
    vldc | vstc | vbld | vbst | vldg | vstg | vgth | vsct | vaset | vaadd | vend | vnop =>
    refine ReadsBack.of_row rfl (fun _ => rfl) fun _ => ?_
    rw [vectorRow, bitsOf_putVWord_op _ (by decide), vwordOf_putVWord]
    rfl
  case mlds | mswap | mstep | mzero | mdrain | mflag | mend | mnop =>
    refine ReadsBack.of_row rfl (fun _ => rfl) fun _ => ?_
    rw [matrixRow, bitsOf_putMWord_op _ (by decide), mwordOf_putMWord]
    rfl
  case vtileWait v =>
    refine ReadsBack.of_row rfl (fun _ => rfl) fun wf => ?_
    have bit : v.e 19 1 = 0 := eq_of_beq (Bool.and_eq_true_iff.1 wf).2
    rw [vectorRow, bitsOf_putVWord_op _ (by decide), vwordOf_putVWord]
    exact congrArg some (if_pos ((bitsOf_putVWord_19 ..).trans bit))
  case vtileMark v =>
    refine ReadsBack.of_row rfl (fun _ => rfl) fun wf => ?_
    have bit : v.e 19 1 = 1 := eq_of_beq (Bool.and_eq_true_iff.1 wf).2
    rw [vectorRow, bitsOf_putVWord_op _ (by decide), vwordOf_putVWord]
    exact congrArg some (if_neg (by rw [bitsOf_putVWord_19, bit]; decide))
  case ktlbi | kresume =>
    apply ReadsBack.of_known rfl
    · repeat with_reducible apply add_putField_land
      exact land_all rfl
      all_goals rfl
    · exact fun _ => rfl
    · intro hk
      repeat refine row_skip hk rfl ?_
      refine row_take hk rfl rfl ?_
      simp only [fieldOf_eq_land, add_putField, putField_land_off, putField_land_on, ofNat_putField_shiftRight, fieldMask_eq,
        Nat.and_or_distrib_right, Nat.zero_or, Nat.or_zero, Nat.reduceAdd, Nat.reducePow, Nat.reduceSub, Nat.reduceAnd]
  case ktlbf => exact .of_row rfl (fun _ => rfl) fun _ => by decide
  case mv src dst imm =>
    intro _ n w hw
    cases hw
    exact congrArg Except.ok (decodeMove_put ..)
  all_goals exact ReadsBack.of_none rfl

/-! ### What is encoded of a decoded word -/

/-- The instruction a row holds, if it holds one, has the word `w` of `k` bits. -/
def Encodes (k w : Nat) (row : Option Instr) : Prop := ∀ i, row = some i → encode i = some (k, w)

/-- A decoder's answer is an instruction of its row. -/
theorem Encodes.decoded {k w : Nat} {row : Option Instr} {i : Instr} (h : Encodes k w row) (hi : checked row = .ok i) : encode i = some (k, w) :=
  h i (checked_eq_ok.1 hi).1

theorem Encodes.none {k w : Nat} : Encodes k w none := nofun
theorem Encodes.some {k w v : Nat} {i : Instr} (he : encode i = some (k, v)) (hv : v = w) : Encodes k w (some i) := by
  intro j hj
  cases hj
  rw [he, hv]
/-- A row of a decoder, and the rows after it. -/
theorem Encodes.row {k w m c v : Nat} {i : Instr} {rest : Option Instr} (he : encode i = Option.some (k, v)) (hv : w &&& m = c → v = w)
    (hr : Encodes k w rest) : Encodes k w (if w &&& m = c then Option.some i else rest) := by
  split
  · next h => exact .some he (hv h)
  · exact hr

/-- A scalar word is the word of the instruction its row holds (R123 to R127): the row's bits and its fields are all the bits there are. -/
theorem scalarRow_encodes {w : Nat} (hw : w < 2 ^ 32) : Encodes 32 w (scalarRow w) := by
  unfold scalarRow
  split
  case h_56 => exact .none
  all_goals
    repeat' apply Encodes.row rfl
  all_goals try with_reducible exact Encodes.none
  all_goals
    intro h
    apply eq_of_land_all hw
    · repeat with_reducible apply land_add_field
      exact h
      all_goals rfl
    · rfl

/-- So is a Headframe word (R139). -/
theorem hartRow_encodes {w : Nat} (hw : w < 2 ^ 32) : Encodes 32 w (hartRow w) := by
  refine .row rfl ?_ (.row rfl ?_ (.row rfl ?_ .none))
  all_goals
    intro h
    apply eq_of_land_all hw
    · repeat with_reducible apply land_add_field
      exact h
      all_goals rfl
    · rfl

/-- So is a move (R137). -/
theorem decodeMove_encodes {w : Nat} (hw : w < 2 ^ 32) : encode (decodeMove w) = some (32, w) := by
  refine congrArg (fun x => some (32, x)) (?_ : putField (fieldOf w 24 8) 24 + putField (fieldOf w 16 8) 16 + putField (fieldOf w 0 16) 0 = w)
  simp only [putField_eq, fieldOf, BitVec.toNat_ofNat, Nat.shiftRight_eq_div_pow]
  omega

/-- A vector word put together again from its opcode and its fields (R128). -/
theorem putVWord_vwordOf {w : Nat} (hw : w < 2 ^ 96) : putVWord (bitsOf w 88 8) (vwordOf w) = w := by
  simp only [putVWord, putVOp, vwordOf, vopOf, ← Nat.add_assoc]
  apply eq_of_land_all hw
  · repeat with_reducible apply land_add_field
    exact (bitsOf_shiftLeft ..).symm
    all_goals rfl
  · rfl

/-- A matrix word put together again from its opcode and its fields (R132). -/
theorem putMWord_mwordOf {w : Nat} (hw : w < 2 ^ 192) : putMWord (bitsOf w 184 8) (mwordOf w) = w := by
  simp only [putMWord, mwordOf]
  apply eq_of_land_all hw
  · repeat with_reducible apply land_add_field
    exact (bitsOf_shiftLeft ..).symm
    all_goals rfl
  · rfl

/-- A vector word is the word of the instruction its opcode names (R131). -/
theorem vectorRow_encodes {w : Nat} (hw : w < 2 ^ 96) : Encodes 96 w (vectorRow w) := by
  have whole := putVWord_vwordOf hw
  unfold vectorRow
  split
  case h_67 => exact .none
  case h_66 op =>
    rw [op] at whole
    split
    · exact .some rfl whole
    · exact .some rfl whole
  all_goals
    next op =>
    rw [op] at whole
    exact .some rfl whole

/-- So is a matrix word (R132). -/
theorem matrixRow_encodes {w : Nat} (hw : w < 2 ^ 192) : Encodes 192 w (matrixRow w) := by
  have whole := putMWord_mwordOf hw
  unfold matrixRow
  split
  case h_9 => exact .none
  all_goals
    next op =>
    rw [op] at whole
    exact .some rfl whole

/-! ### The statements -/

/-- Settles O58 (R121, R123 to R139): each kind of word's decoder undoes its encoder, and the encoder the decoder. -/
theorem encodingsRoundTrip : Obligations.EncodingsRoundTrip := by
  unfold Obligations.EncodingsRoundTrip
  exact ⟨fun i n w wf => readsBack i wf n w, fun _ _ hw => (scalarRow_encodes hw).decoded, fun _ _ hw => (vectorRow_encodes hw).decoded,
    fun _ _ hw => (matrixRow_encodes hw).decoded, fun _ _ hw => (hartRow_encodes hw).decoded, fun _ hw => decodeMove_encodes hw⟩

/-- Settles O57 (R124, R127 to R137, R139, R174 to R204, R319, R323, R344): the worked words, each decoded. -/
theorem specWordsDecode : Obligations.SpecWordsDecode := by
  unfold Obligations.SpecWordsDecode
  refine ⟨?_, ?_, ?_, ?_, ?_, ?_⟩ <;> decide

end Sys2Proof
end

