-- ==== Sys2Proof/Proofs/SpecialRegisters.lean ====
section
/-! SUPPORT. GETS and PUTS (R127, R202): the tests each makes, the two low bits of MODE and LEASE (R86, R201), and the bits that a change of BSTAT
and DSCTX keeps (R270, R372); with them O17. -/

namespace Sys2Proof.Machine

open Sys2Proof.Claims

/-! ### Values of registers (R86, R127, R201) -/

/-- A bit of a 64-bit word, as arithmetic. -/
theorem getLsbD_ofNat_eq {x i : Nat} (h : i < 64) : (BitVec.ofNat 64 x).getLsbD i = decide (x / 2 ^ i % 2 = 1) := by
  simp only [BitVec.getLsbD_ofNat, h, decide_true, Bool.true_and, Nat.testBit_eq_decide_div_mod_eq]

/-- MODE holds the stope's kind in bit 0 and the active plane in bit 1. -/
theorem State.modeReg_lowBits (s : State) (c : Nat) :
    (s.modeReg c).getLsbD 0 = s.elastic c ∧ (s.modeReg c).getLsbD 1 = decide ((s.core c).active % 2 = 1) := by
  simp only [State.modeReg, getLsbD_ofNat_eq (show 0 < 64 by decide), getLsbD_ofNat_eq (show 1 < 64 by decide), Nat.shiftLeft_eq]
  constructor
  · cases s.elastic c
    · simp only [Bool.false_eq_true, if_false, decide_eq_false_iff_not]
      split <;> omega
    · simp only [if_true, decide_eq_true_eq]
      split <;> omega
  · congr 1
    apply propext
    split <;> split <;> omega

/-- LEASE holds in bit 0 that the lease is asked for and in bit 1 that it is held. -/
theorem State.leaseReg_lowBits (s : State) (c : Nat) :
    (s.leaseReg c).getLsbD 0 = (s.quad (quadOf c)).requested (quadIndex c) ∧
      (s.leaseReg c).getLsbD 1 = (s.quad (quadOf c)).heldBy (quadIndex c) := by
  simp only [State.leaseReg, getLsbD_ofNat_eq (show 0 < 64 by decide), getLsbD_ofNat_eq (show 1 < 64 by decide), Nat.shiftLeft_eq]
  cases (s.quad (quadOf c)).requested (quadIndex c) <;> cases (s.quad (quadOf c)).heldBy (quadIndex c) <;>
    simp only [Bool.false_eq_true, if_false, if_true, decide_eq_false_iff_not, decide_eq_true_eq] <;> omega

/-- The selector table (R127). -/
def selectors : List Nat :=
  [0, 1, 2, 3, 4, 0x10, 0x11, 0x18, 0x19, 0x1A, 0x20, 0x21, 0x22, 0x23, 0x30, 0x31, 0x32, 0x33, 0x34, 0x35, 0x40, 0x41, 0x50]
/-- The registers, but SBOARD, that take any value of a PUTS. -/
def plainRegisters : List Nat := [0x10, 0x11, 0x18, 0x19, 0x1A, 0x20, 0x21, 0x22, 0x23, 0x41, 0x50]
/-- The routing registers, whose value has a limit (R252). -/
def routeRegisters : List Nat := [0x32, 0x33, 0x34, 0x35]

/-- A selector outside the table names nothing. -/
theorem State.special_none (s : State) (c lvl : Nat) {sel : Nat} (h : sel ∉ selectors) : s.special c sel lvl = none := by
  unfold State.special
  split
  case h_24 => rfl
  all_goals exact absurd (by decide) h

/-- What a PUTS of BSTAT leaves in each bit: its own below 10, the register's from there (R270). -/
theorem SRegs.put_bstat (r : SRegs) (v : Word64) (j : Nat) :
    (r.put 0x23 v).bstat.getLsbD j = if j < 10 then v.getLsbD j else r.bstat.getLsbD j := by
  have low : ∀ j < 12, (0x3FF#12).getLsbD j = decide (j < 10) ∧ (0xC00#12).getLsbD j = !decide (j < 10) := by decide
  by_cases hj : j < 12
  · change ((v.setWidth 12 &&& 0x3FF#12) ||| (r.bstat &&& 0xC00#12)).getLsbD j = _
    rw [BitVec.getLsbD_or, BitVec.getLsbD_and, BitVec.getLsbD_and, (low j hj).1, (low j hj).2, BitVec.getLsbD_setWidth]
    by_cases h : j < 10 <;> simp only [hj, h, decide_true, decide_false, Bool.true_and, Bool.and_true, Bool.and_false, Bool.or_false, Bool.false_or,
      Bool.not_true, Bool.not_false, if_true, if_false]
  · rw [if_neg (by omega), BitVec.getLsbD_of_ge _ _ (by omega), BitVec.getLsbD_of_ge _ _ (by omega)]

/-- DSCTX keeps bits [56:8] (R372). -/
theorem SRegs.put_dsctx (r : SRegs) (v : Word64) {j : Nat} (h : j < 49) : (r.put 0x50 v).dsctx.getLsbD j = v.getLsbD (j + 8) := by
  change ((v >>> 8).setWidth 49).getLsbD j = _
  simp [h, Nat.add_comm]

/-! ### GETS (R202) -/

section

variable {g : BitVec 2} {d : BitVec 5} {sel : BitVec 11} {l : BitVec 4} {s : State} (ready : Ready s [d])
include ready

/-- A GETS whose register is writable gives what its selector names. -/
theorem gets_gives {v : Word64} (wf : (Instr.gets g d sel l).wf = true) (named : s.special s.curCore sel.toNat l.toNat = some v) :
    exec (.gets g d sel l) s = .next (gives s d v 0 1) := by
  have readable : ∀ r ∈ [d.toNat], (s.core s.curCore).pendingReg r = false := by simpa [Ready] using ready
  change execGets g d sel l s = _
  rw [execGets, scalarWord_wf _ _ wf, guardRegs_ready _ readable, named]
  rfl

/-- A selector that names nothing is ILLEGAL_OPERAND. -/
theorem gets_illegal (wf : (Instr.gets g d sel l).wf = true) (unnamed : s.special s.curCore sel.toNat l.toNat = none) :
    exec (.gets g d sel l) s = .next (faults s (code 2)) := by
  have readable : ∀ r ∈ [d.toNat], (s.core s.curCore).pendingReg r = false := by simpa [Ready] using ready
  change execGets g d sel l s = _
  rw [execGets, scalarWord_wf _ _ wf, guardRegs_ready _ readable, unnamed]
  rfl

end

/-- TIDX and TCNT of a level of the chain (R68). -/
theorem State.special_level {s : State} {c l : Nat} {e : ChainEl} (h : (s.core c).bnd.chain[l]? = some e) :
    s.special c 2 l = some (BitVec.ofNat 64 e.k) ∧ s.special c 3 l = some (BitVec.ofNat 64 e.count) := by
  have inside : l ≤ (s.core c).bnd.depth := by
    have := (List.getElem?_eq_some_iff.1 h).1
    unfold Binding.depth
    omega
  simp [State.special, inside, Binding.tidx, Binding.tcnt, h]

/-- A level beyond TDEPTH is no level. -/
theorem State.special_beyond {s : State} {c l : Nat} (h : (s.core c).bnd.depth < l) : s.special c 2 l = none :=
  if_neg (Nat.not_le.2 h)

/-! ### PUTS (R127, R202, R252) -/

section

variable {g : BitVec 2} {a : BitVec 5} {sel : BitVec 11} {s : State} (ready : Ready s [a])
include ready

/-- A PUTS whose register is readable: its tests in their order, and the change put into the cycle's buffer. -/
theorem puts_tests : exec (.puts g a sel 0) s = finishScalar s.curCore
    (if writable sel.toNat then
      if routeBad sel.toNat (regVal s a) then sOperand s
      else .ok (if sel = 0x040#11 then (s.cycSet s.curCore (.sreg sel.toNat (regVal s a))).checkTriggers s.curCore
        else s.cycSet s.curCore (.sreg sel.toNat (regVal s a))) 1 none
    else sOperand s) := by
  have readable : ∀ r ∈ [a.toNat], (s.core s.curCore).pendingReg r = false := by simpa [Ready] using ready
  change execPuts g a sel 0 s = _
  rw [execPuts, scalarWord_wf _ _ rfl, guardRegs_ready _ readable]
  rfl

/-- A writable register but SBOARD takes its change. -/
theorem puts_changes (named : writable sel.toNat = true) (good : routeBad sel.toNat (regVal s a) = false) (other : sel.toNat ≠ 0x40) :
    exec (.puts g a sel 0) s = .next (passed s (s.cycSet s.curCore (.sreg sel.toNat (regVal s a))) 1) := by
  have ne : sel ≠ 0x040#11 := by
    rintro rfl
    exact other rfl
  rw [puts_tests ready, named, good, if_neg ne]
  rfl

/-- SBOARD takes its change, and the armed triggers look at it (R359). -/
theorem puts_sboard : exec (.puts g a 0x040 0) s =
    .next (passed s ((s.cycSet s.curCore (.sreg 0x40 (regVal s a))).checkTriggers s.curCore) 1) := by
  rw [puts_tests ready]
  rfl

/-- A route beyond row 127 is ILLEGAL_OPERAND. -/
theorem puts_badRoute (named : writable sel.toNat = true) (bad : routeBad sel.toNat (regVal s a) = true) :
    exec (.puts g a sel 0) s = .next (faults s (code 2)) := by
  rw [puts_tests ready, named, bad]
  rfl

/-- So is a register that cannot be written. -/
theorem puts_illegal (unnamed : writable sel.toNat = false) : exec (.puts g a sel 0) s = .next (faults s (code 2)) := by
  rw [puts_tests ready, unnamed]
  rfl

end

/-- A plain register can be written, with no limit on its value. -/
theorem routeBad_plain (v : Word64) : ∀ n ∈ plainRegisters, writable n = true ∧ routeBad n v = false ∧ n ≠ 0x40 := by
  simp [plainRegisters, writable, routeBad]

/-- A routing register can be written up to row 127 (R252). -/
theorem routeBad_route (v : Word64) : ∀ n ∈ routeRegisters,
    writable n = true ∧ routeBad n v = decide (127 < v.toNat / 32 % 128 + v.toNat / 4096 % 128) ∧ n ≠ 0x40 := by
  simp [routeRegisters, writable, routeBad, bitsOf, Nat.shiftRight_eq_div_pow]

/-- No other register but SBOARD can be written. -/
theorem writable_false {n : Nat} (h : n ∉ 0x40 :: plainRegisters ++ routeRegisters) : writable n = false := by
  rw [writable, List.contains_eq_mem, decide_eq_false_iff_not]
  have all : ∀ m ∈ [0x010, 0x011, 0x018, 0x019, 0x01A, 0x020, 0x021, 0x022, 0x023, 0x032, 0x033, 0x034, 0x035, 0x040, 0x041, 0x050],
      m ∈ 0x40 :: plainRegisters ++ routeRegisters := by decide
  exact fun hn => h (all n hn)

/-- Settles O17 (R127, R202, R252): GETS by what each selector names, PUTS by its tests, and the widths that a change keeps. -/
theorem specialRegisters : Obligations.SpecialRegisters := by
  unfold Obligations.SpecialRegisters
  constructor
  · intro g d l s ready
    have reads {sel : BitVec 11} {v : Word64} (h : s.special s.curCore sel.toNat 0 = some v) :
        exec (.gets g d sel 0) s = .next (gives s d v 0 1) := gets_gives ready (by simp [Instr.wf]) h
    refine ⟨reads rfl, reads rfl, fun e level => ?level, fun beyond => ?beyond,
      reads rfl, reads rfl, reads rfl, reads rfl, reads rfl, reads rfl, reads rfl, reads rfl, reads rfl,
      reads rfl, reads rfl, reads rfl, reads rfl, reads rfl, reads rfl, reads rfl,
      ⟨_, reads rfl, s.modeReg_lowBits _⟩, ⟨_, reads rfl, ?lease⟩, ⟨_, reads rfl⟩, fun sel outside => ?outside⟩
    case level =>
      obtain ⟨tidx, tcnt⟩ := State.special_level level
      exact ⟨gets_gives ready (by simp [Instr.wf]) tidx, gets_gives ready (by simp [Instr.wf]) tcnt⟩
    case beyond => exact gets_illegal ready (by simp [Instr.wf]) (State.special_beyond beyond)
    case lease => exact (s.leaseReg_lowBits _).imp_right (·.trans (Bool.beq_eq_decide_eq ..))
    case outside => exact gets_illegal ready rfl (State.special_none s _ _ outside)
  · intro g a sel s r ready
    refine ⟨fun plain => ?plain, fun route inside => ?route, fun route beyond => ?beyond, puts_sboard ready,
      fun unnamed => puts_illegal ready (writable_false unnamed), rfl, rfl, rfl, rfl, rfl, rfl,
      fun j h => (r.put_bstat _ j).trans (if_pos h), fun j h => (r.put_bstat _ j).trans (if_neg (Nat.not_lt.2 h)), fun j h => r.put_dsctx _ h⟩
    case plain =>
      obtain ⟨named, good, other⟩ := routeBad_plain (regVal s a) _ plain
      exact puts_changes ready named good other
    case route =>
      obtain ⟨named, limit, other⟩ := routeBad_route (regVal s a) _ route
      exact puts_changes ready named (limit.trans (decide_eq_false (Nat.not_lt.2 inside))) other
    case beyond =>
      obtain ⟨named, limit, -⟩ := routeBad_route (regVal s a) _ route
      exact puts_badRoute ready named (limit.trans (decide_eq_true beyond))

end Sys2Proof.Machine
end

