-- ==== Sys2Proof/Proofs/BankMoves.lean ====
section
/-! SUPPORT. One move of a bank program: its sources and its destinations port by port (R137, R138, R313, R314, R315), and how the move ends by what
they answer (R278, R298, R312); with them O23. -/

namespace Sys2Proof.Machine

open Sys2Proof.Claims

/-! ### Sources (R137, R313) -/

section

variable (k : Core) (c n : Nat) (e : Engine) (imm : BitVec 16)

/-- The arguments of the program's request (R307). -/
def Engine.args (e : Engine) : List Word32 :=
  match e.req.job with
  | .prog _ _ _ l => l
  | _ => []

/-- Ports 2 to 5 give the arguments. -/
theorem mvSource_arg {i : Nat} (h : i < 4) : mvSource k c n e (2 + i) imm = some (.scalar (e.args.getD i 0).toNat, e, 0) := by
  interval_cases i <;> rfl

/-- What is wrong with reading a word of the bank: not allowed (R298), poisoned (R278), or nothing. -/
def Core.wordFault (k : Core) (c n w : Nat) : Nat :=
  if k.seamRead (coreMaster 2 c) (seamAddr n w) 32 = false then 0x13 else if (k.portRead 3 (seamAddr n w) 32).poison then 0x18 else 0

/-- The same by the order of the model's tests. -/
theorem Core.wordFault_eq (w : Nat) : k.wordFault c n w =
    if !k.seamRead (coreMaster 2 c) (seamAddr n w) 32 then 0x13 else if (k.portRead 3 (seamAddr n w) 32).poison then 0x18 else 0 := by
  rw [Core.wordFault]
  cases k.seamRead (coreMaster 2 c) (seamAddr n w) 32 <;> rfl

/-- Ports 0x10 and 0x11 give the bank's word at their address, and step on. -/
theorem mvSource_first : mvSource k c n e 0x10 imm =
    some (.word (k.portRead 3 (seamAddr n e.aa) 32).data, { e with aa := (e.aa + e.ainc) % 8192 }, k.wordFault c n e.aa) := by
  rw [Core.wordFault_eq]
  rfl
theorem mvSource_second : mvSource k c n e 0x11 imm =
    some (.word (k.portRead 3 (seamAddr n e.ab) 32).data, { e with ab := (e.ab + e.binc) % 8192 }, k.wordFault c n e.ab) := by
  rw [Core.wordFault_eq]
  rfl

/-- Ports 0x40 to 0x4B give the units' results. -/
theorem mvSource_result {i : Nat} (h : i < 12) : mvSource k c n e (0x40 + i) imm = some (.word (vget e.res i []), e, 0) := by
  interval_cases i <;> rfl

/-- The other source ports. -/
def sourcePorts : List Nat := [0, 1, 2, 3, 4, 5, 0x10, 0x11, 0x14, 0x15, 0x18, 0x19, 0x60, 0x61]

/-- Every other port is none. -/
theorem mvSource_none {p : Nat} (h : p ∉ sourcePorts) (other : p < 0x40 ∨ 0x4B < p) : mvSource k c n e p imm = none := by
  simp only [sourcePorts, List.mem_cons, List.not_mem_nil, or_false, not_or] at h
  have arg : ¬ (2 ≤ p ∧ p ≤ 5) := by omega
  have result : ¬ (0x40 ≤ p ∧ p ≤ 0x4B) := by omega
  simp [mvSource, h, arg, result]

end

/-! ### Destinations (R137, R138, R315) -/

section

variable (e : Engine) (v : MvVal)

/-- The ports that a move may write to. -/
def destPorts : List Nat := [0, 0x12, 0x13, 0x14, 0x15, 0x18, 0x19, 0x60, 0x61, 0x62, 0x63]

/-- A destination is one of these, or a port of a functional unit (R137). -/
theorem mvDestPort_iff {p : Nat} : mvDestPort p = true ↔ p ∈ destPorts ∨ 0x20 ≤ p ∧ p ≤ 0x37 := by
  simp [mvDestPort, destPorts]
  omega

/-- An operand port takes the word. -/
theorem mvDest_operand {u : Nat} (h : u < 12) :
    mvDest e (0x20 + 2 * u) v = .go { e with ops := vset e.ops u (v.toWord e.mode) } none 0 (e.idx + 1) := by
  interval_cases u <;> rfl

/-- A trigger port runs its unit on the word and the operand, with the unit's flags (R314). -/
theorem mvDest_trigger {u : Nat} (h : u < 12) :
    mvDest e (0x21 + 2 * u) v = .go { e with res := vset e.res u (unitWord u e.mode (v.toWord e.mode) (vget e.ops u [])).1 } none
      (unitWord u e.mode (v.toWord e.mode) (vget e.ops u [])).2 (e.idx + 1) := by
  interval_cases u <;> rfl

/-- MODE takes the six modes there are (R138). -/
theorem mvDest_mode (h : v.toScalar % 65536 ∈ [0, 1, 2, 4, 5, 6]) :
    mvDest e 0x60 v = .go { e with mode := v.toScalar % 65536 } none 0 (e.idx + 1) := by
  refine if_neg ?_
  simp at h ⊢
  omega
/-- Any other value stops the program. -/
theorem mvDest_badMode (h : v.toScalar % 65536 ∉ [0, 1, 2, 4, 5, 6]) : mvDest e 0x60 v = .stop := by
  refine if_pos ?_
  simp at h ⊢
  omega

/-- LOOP goes to its target while CNT is not 0 (R315). -/
theorem mvDest_loop (small : v.toScalar < 128) (inside : v.toScalar < e.code.length) :
    mvDest e 0x62 v = .go (if 0 < e.cnt then { e with cnt := e.cnt - 1 } else e) none 0 (if 0 < e.cnt then v.toScalar else e.idx + 1) := by
  change (if 128 ≤ v.toScalar || e.code.length ≤ v.toScalar then MvOut.stop else _) = _
  rw [if_neg (by simp; omega)]
  split <;> rfl
/-- A target outside the program stops it, whatever CNT is (log 119). -/
theorem mvDest_badLoop (h : 128 ≤ v.toScalar ∨ e.code.length ≤ v.toScalar) : mvDest e 0x62 v = .stop :=
  if_pos (by simpa using h)

end

/-! ### The move (R312) -/

/-- What a read of the bank's words leaves: of the first address, or of the second (R278). -/
def State.looked (s : State) (c n : Nat) (e : Engine) (p : Nat) : State :=
  if p = 0x10 then s.afterRead c 3 (seamAddr n e.aa) 32 else if p = 0x11 then s.afterRead c 3 (seamAddr n e.ab) 32 else s

/-- The source port says whether a word of the bank is read; one that may not be read is not. -/
theorem State.looked_eq (s : State) (c n : Nat) (e : Engine) (src : BitVec 8) (bad : Nat) :
    (if (src = 0x10 ∨ src = 0x11) ∧ bad ≠ 0x13 then s.afterRead c 3 (seamAddr n (if src = 0x10 then e.aa else e.ab)) 32 else s) =
      if bad = 0x13 then s else s.looked c n e src.toNat := by
  have first : src.toNat = 0x10 ↔ src = 0x10 := (BitVec.toNat_inj (y := 0x10#8))
  have second : src.toNat = 0x11 ↔ src = 0x11 := (BitVec.toNat_inj (y := 0x11#8))
  simp only [State.looked, first, second]
  by_cases denied : bad = 0x13
  · rw [if_neg (fun h => h.2 denied), if_pos denied]
  · rw [if_neg denied]
    by_cases port : src = 0x10
    · rw [if_pos ⟨.inl port, denied⟩, if_pos port, if_pos port]
    · simp only [port, denied, false_or, ne_eq, not_false_eq_true, and_true, if_false]

/-- The program goes on with the engine `e2` at the move `nx`, unless there is none. -/
def State.goesOn (s : State) (c n : Nat) (e e2 : Engine) (nx : Nat) : State :=
  if e.code.length ≤ nx then s.endProgram c n e2 0x17
  else (s.modBank c n (fun y => { y with engine := some { e2 with idx := nx } })).postMove c n (s.now + 1)

/-- The program's word joins the bank's writes that wait for the close (R264). -/
def State.stores (s : State) (c n : Nat) (e : Engine) (a : Nat) (w : List Byte) : State :=
  s.modBank c n (fun y => { y with writes := y.writes ++
    [({ src := e.req.src, iseq := e.req.iseq, addr := seamAddr n a, data := w, sel := [], tag := e.req.tag } : BankWrite)] })

/-- How a move ends that has read its source, by its destination's answer. -/
def State.lands (s : State) (c n : Nat) (e e1 : Engine) : MvOut → State
  | .stop => s.endProgram c n e 0x17
  | .done => s.endProgram c n e1 0
  | .go e2 none fl nx => (s.orBflags c fl).goesOn c n e e2 nx
  | .go e2 (some (a, w)) fl nx => ((s.orBflags c fl).stores c n e a w).goesOn c n e e2 nx

section

variable {src dst : BitVec 8} {imm : BitVec 16} {b : BitVec 5} {s : State} {e : Engine} (strm : s.curStrm = .bank b)
  (eng : ((here s).bank b.toNat).engine = some e)
include strm eng

/-- A move to no destination, or with an immediate that nothing reads, stops the program before anything is read. -/
theorem mv_badWord (bad : src ≠ 1 ∧ imm ≠ 0 ∨ mvDestPort dst.toNat = false) :
    exec (.mv src dst imm) s = .next (s.endProgram s.curCore b.toNat e 0x17) := by
  rw [here] at eng
  change execMv src dst imm s = _
  simp only [execMv, strm, eng, if_pos bad]

/-- So does one from no source. -/
theorem mv_noSource (none : mvSource (here s) s.curCore b.toNat e src.toNat imm = none) :
    exec (.mv src dst imm) s = .next (s.endProgram s.curCore b.toNat e 0x17) := by
  rw [here] at eng none
  change execMv src dst imm s = _
  simp only [execMv, strm, eng, none, ite_self]

variable (word : src = 1 ∨ imm = 0) (port : mvDestPort dst.toNat = true) {v : MvVal} {e1 : Engine}
include word port

/-- A move with a source stops at a word that is bad; any other ends as its destination answers. -/
theorem mv_reads {bad : Nat} (source : mvSource (here s) s.curCore b.toNat e src.toNat imm = some (v, e1, bad)) :
    exec (.mv src dst imm) s = .next
      (if bad ≠ 0 then (if bad = 0x13 then s else s.looked s.curCore b.toNat e src.toNat).endProgram s.curCore b.toNat e bad
       else (s.looked s.curCore b.toNat e src.toNat).lands s.curCore b.toNat e e1 (mvDest e1 dst.toNat v)) := by
  have good : ¬ (src ≠ 1 ∧ imm ≠ 0 ∨ mvDestPort dst.toNat = false) := by rw [port]; tauto
  rw [here] at eng source
  change execMv src dst imm s = _
  simp only [execMv, strm, eng, if_neg good, source, State.looked_eq]
  split
  · rfl
  · next clean =>
    obtain rfl := not_not.1 clean
    rcases mvDest e1 dst.toNat v with ⟨e2, _ | ⟨a, w⟩, fl, nx⟩ | _ | _
    · exact (apply_ite Host.Outcome.next ..).symm
    · exact (apply_ite Host.Outcome.next ..).symm
    · rfl
    · rfl

/-- A word that may not be read stops the program, nothing having been read (R298). -/
theorem mv_denied (source : mvSource (here s) s.curCore b.toNat e src.toNat imm = some (v, e1, 0x13)) :
    exec (.mv src dst imm) s = .next (s.endProgram s.curCore b.toNat e 0x13) :=
  mv_reads strm eng word port source

/-- A poisoned word stops it once it has been read (R278). -/
theorem mv_poisoned (source : mvSource (here s) s.curCore b.toNat e src.toNat imm = some (v, e1, 0x18)) :
    exec (.mv src dst imm) s = .next ((s.looked s.curCore b.toNat e src.toNat).endProgram s.curCore b.toNat e 0x18) :=
  mv_reads strm eng word port source

/-- A move that has read its source ends as its destination answers. -/
theorem mv_lands (source : mvSource (here s) s.curCore b.toNat e src.toNat imm = some (v, e1, 0)) {o : MvOut} (dest : mvDest e1 dst.toNat v = o) :
    exec (.mv src dst imm) s = .next ((s.looked s.curCore b.toNat e src.toNat).lands s.curCore b.toNat e e1 o) :=
  dest ▸ mv_reads strm eng word port source

end

/-- Settles O23 (R137, R138, R312 to R315, with logs 118 to 120): what each source gives, what stops a move, and what each destination does. -/
theorem moveWords : Obligations.MoveWords := by
  unfold Obligations.MoveWords
  intro src dst imm b s e strm eng
  refine ⟨rfl, rfl, fun i h => mvSource_arg _ _ _ _ _ h, mvSource_first .., mvSource_second .., rfl, rfl, rfl, rfl,
    fun i h => mvSource_result _ _ _ _ _ h, rfl, rfl, fun p _ other => mvSource_none _ _ _ _ _ other, fun lost => ?lost,
    fun notImm wide => mv_badWord strm eng (.inl ⟨notImm, wide⟩), fun _ none => mv_noSource strm eng none,
    fun v e1 lands word source => mv_denied strm eng word (mvDestPort_iff.2 lands) source,
    fun v e1 lands word source => mv_poisoned strm eng word (mvDestPort_iff.2 lands) source, fun v e1 word source => ?dest⟩
  case lost => exact mv_badWord strm eng (.inr (Bool.eq_false_iff.2 fun h => lost (mvDestPort_iff.1 h)))
  case dest =>
    have ends {o : MvOut} (port : mvDestPort dst.toNat = true) (dest : mvDest e1 dst.toNat v = o) :
        exec (.mv src dst imm) s = .next ((s.looked s.curCore b.toNat e src.toNat).lands s.curCore b.toNat e e1 o) :=
      mv_lands strm eng word port source dest
    refine ⟨?none, ?first, ?second, ?ainc, ?binc, ?aa, ?ab, fun u h port => ?operand, fun u h port => ?trigger, fun mode good => ?mode,
      fun mode bad => ?badMode, ?cnt, fun loop small inside => ?loop, fun loop bad => ?badLoop, ?done⟩
    case none | first | second | ainc | binc | aa | ab | cnt | done =>
      rintro rfl
      exact ends rfl rfl
    case operand => exact ends (mvDestPort_iff.2 (.inr (by omega))) (port ▸ mvDest_operand e1 v h)
    case trigger => exact ends (mvDestPort_iff.2 (.inr (by omega))) (port ▸ mvDest_trigger e1 v h)
    case mode =>
      obtain rfl := mode
      exact ends rfl (mvDest_mode e1 v good)
    case badMode =>
      obtain rfl := mode
      exact ends rfl (mvDest_badMode e1 v bad)
    case loop =>
      obtain rfl := loop
      exact ends rfl (mvDest_loop e1 v small inside)
    case badLoop =>
      obtain rfl := loop
      exact ends rfl (mvDest_badLoop e1 v bad)

end Sys2Proof.Machine
end

