-- ==== Sys2Proof/Proofs/ExactRounding.lean ====
section
/-! SUPPORT. Rounding a value that a format holds (R140, R147): a pattern by its three fields, the values of the finite patterns, and that no rounding
rule changes one; with them O5. The formats are those with infinities and NaNs (kind 0) and an exponent of two bits or more. -/

namespace Sys2Proof.Machine

/-! ### The fields of a pattern (R140) -/

section

variable (f : Fmt) (w : Nat)

/-- Exponent and fraction are what stands below the sign. -/
theorem Fmt.fields_low : bitsOf w f.mb f.eb * 2 ^ f.mb + bitsOf w 0 f.mb = w % 2 ^ (f.eb + f.mb) := by
  simp only [bitsOf, Nat.shiftRight_eq_div_pow, pow_zero, Nat.div_one]
  rw [Nat.add_comm f.eb, pow_add, Nat.mod_mul, Nat.mul_comm, Nat.add_comm]

variable {w}

/-- The sign is what stands above them, in a pattern of the format's width. -/
theorem Fmt.signBit_top (h : w < 2 ^ f.width) : f.signBit (bitOf w (f.eb + f.mb)) = 2 ^ (f.eb + f.mb) * (w / 2 ^ (f.eb + f.mb)) := by
  have width : f.width = f.eb + f.mb + 1 := by simp only [Fmt.width]; omega
  have bit : w / 2 ^ (f.eb + f.mb) < 2 := Nat.div_lt_of_lt_mul (by rwa [← pow_succ, ← width])
  simp only [Fmt.signBit, bitOf, Nat.testBit_eq_decide_div_mod_eq, decide_eq_true_eq, Nat.shiftLeft_eq, Nat.mod_eq_of_lt bit]
  generalize w / 2 ^ (f.eb + f.mb) = top at bit
  interval_cases top <;> simp

/-- A pattern is its three fields. -/
theorem Fmt.fields (h : w < 2 ^ f.width) : bitsOf w f.mb f.eb * 2 ^ f.mb + bitsOf w 0 f.mb + f.signBit (bitOf w (f.eb + f.mb)) = w := by
  rw [Fmt.fields_low, Fmt.signBit_top f h, Nat.mod_add_div]

/-- The fraction fits its bits. -/
theorem Fmt.fraction_lt : bitsOf w 0 f.mb < 2 ^ f.mb := Nat.mod_lt _ (Nat.two_pow_pos _)

end

/-! ### Values that a format holds (R140) -/

/-- A significand at an exponent of the format's range: with its leading bit, or at the least exponent. -/
structure Fmt.Fits (f : Fmt) (m : Nat) (e : Int) : Prop where
  width : m < 2 ^ (f.mb + 1)
  least : f.qmin ≤ e
  most : e ≤ f.maxQ
  leads : e = f.qmin ∨ 2 ^ f.mb ≤ m

section

variable {f : Fmt} (ieee : f.kind = 0)
include ieee

/-- The greatest exponent stands 2 ^ eb - 3 above the least. -/
theorem Fmt.maxQ_eq : f.maxQ = f.qmin + (2 ^ f.eb : Nat) - 3 := by
  simp only [Fmt.maxQ, Fmt.qmin, ieee, if_true, Nat.cast_pow, Nat.cast_ofNat]
  omega

variable {w : Nat}

/-- A pattern whose exponent field is all ones is an infinity or a NaN. -/
theorem Fmt.decode_special (ones : bitsOf w f.mb f.eb = 2 ^ f.eb - 1) :
    f.decode w = if bitsOf w 0 f.mb = 0 then .inf (bitOf w (f.eb + f.mb)) else .nan := by simp [Fmt.decode, ieee, ones]
/-- Any other pattern is finite. -/
theorem Fmt.decode_other (other : bitsOf w f.mb f.eb + 1 < 2 ^ f.eb) :
    f.decode w = if bitsOf w f.mb f.eb = 0 then .fin (bitOf w (f.eb + f.mb)) (bitsOf w 0 f.mb) f.qmin false
      else .fin (bitOf w (f.eb + f.mb)) (bitsOf w 0 f.mb + 2 ^ f.mb) (f.qmin + (bitsOf w f.mb f.eb - 1 : Nat)) false := by
  have ones : bitsOf w f.mb f.eb ≠ 2 ^ f.eb - 1 := by omega
  simp [Fmt.decode, ieee, ones]

/-- The exponent field of a finite pattern is not all ones. -/
theorem Fmt.exponent_of_finite (num : (f.decode w).isNan = false) (fin : ∀ s, f.decode w ≠ .inf s) : bitsOf w f.mb f.eb + 1 < 2 ^ f.eb := by
  have below : bitsOf w f.mb f.eb < 2 ^ f.eb := Nat.mod_lt _ (Nat.two_pow_pos _)
  suffices bitsOf w f.mb f.eb ≠ 2 ^ f.eb - 1 by omega
  intro ones
  have special := Fmt.decode_special ieee ones
  by_cases zero : bitsOf w 0 f.mb = 0
  · exact fin _ (special.trans (if_pos zero))
  · rw [special, if_neg zero] at num
    cases num

/-- The format holds every fraction at the least exponent. -/
theorem Fmt.fits_subnormal (wide : 2 ≤ f.eb) : f.Fits (bitsOf w 0 f.mb) f.qmin where
  width := f.fraction_lt.trans (Nat.pow_lt_pow_right (by decide) (Nat.lt_succ_self _))
  least := le_rfl
  most := by
    have four : 2 ^ 2 ≤ 2 ^ f.eb := Nat.pow_le_pow_right (by decide) wide
    rw [Fmt.maxQ_eq ieee]
    omega
  leads := .inl rfl
/-- With a leading bit it holds a fraction at every exponent. -/
theorem Fmt.fits_normal {x : Nat} (other : x + 2 < 2 ^ f.eb) : f.Fits (bitsOf w 0 f.mb + 2 ^ f.mb) (f.qmin + (x : Nat)) where
  width := by
    have fraction := f.fraction_lt (w := w)
    rw [pow_succ]
    omega
  least := by omega
  most := by
    rw [Fmt.maxQ_eq ieee]
    omega
  leads := .inr (Nat.le_add_left ..)

/-- A finite pattern stands for a value that the format holds, and is put together again from it. -/
theorem Fmt.decode_finite (wide : 2 ≤ f.eb) (h : w < 2 ^ f.width) (num : (f.decode w).isNan = false) (fin : ∀ s, f.decode w ≠ .inf s) :
    ∃ s m e, f.decode w = .fin s m e false ∧ f.Fits m e ∧ ((e - f.qmin).toNat <<< f.mb) + m + f.signBit s = w := by
  have fields := f.fields h
  have other := Fmt.exponent_of_finite ieee num fin
  have value := Fmt.decode_other ieee other
  cases exponent : bitsOf w f.mb f.eb with
  | zero =>
    refine ⟨_, _, _, value.trans (if_pos exponent), Fmt.fits_subnormal ieee wide, ?_⟩
    rw [exponent] at fields
    simpa using fields
  | succ x =>
    rw [exponent] at fields other
    refine ⟨_, _, _, value.trans (if_neg (by omega)), ?_, ?_⟩ <;> rw [exponent, Nat.add_sub_cancel]
    · exact Fmt.fits_normal ieee (by omega)
    · rw [add_sub_cancel_left, Int.toNat_natCast, Nat.shiftLeft_eq]
      rw [Nat.succ_mul] at fields
      omega

end

/-! ### Rounding a value that needs none (R147) -/

/-- No rule goes away from zero where there is no rest. -/
theorem roundAway_exact (mode : Nat) (neg : Bool) (n rnd : Nat) : roundAway mode neg n 0 0 false rnd = false := by simp [roundAway]

section

variable {f : Fmt} {m : Nat} {e : Int} (fits : f.Fits m e)
include fits

/-- The last place that rounding keeps of a value that the format holds is the value's own. -/
theorem Fmt.Fits.lastPlace (nonzero : m ≠ 0) : max (e + (bitLen m : Int) - 1) (1 - (f.bias : Int)) - f.mb = e := by
  obtain ⟨width, least, -, leads⟩ := fits
  have len : bitLen m = Nat.log2 m + 1 := if_neg nonzero
  have short : Nat.log2 m < f.mb + 1 := (Nat.log2_lt nonzero).2 width
  have full : 2 ^ f.mb ≤ m → f.mb ≤ Nat.log2 m := (Nat.le_log2 nonzero).2
  simp only [Fmt.qmin] at least leads
  omega

/-- Under every rule such a value rounds to its pattern, without flags. -/
theorem Fmt.Fits.round (ieee : f.kind = 0) (mode : Nat) (sat : Bool) (draw : Nat) (s : Bool) :
    f.round mode sat draw s m e false = (((e - f.qmin).toNat <<< f.mb) + m + f.signBit s, 0) := by
  by_cases zero : m = 0
  · have low : e = f.qmin := fits.leads.resolve_right (by simp [zero])
    simp [Fmt.round, zero, low]
  have most : ¬ f.maxQ < e := not_lt.2 fits.most
  have width : ¬ f.maxM < m := by
    rw [Fmt.maxM, ieee, if_neg (by decide)]
    exact not_lt.2 (Nat.le_sub_one_of_lt fits.width)
  unfold Fmt.round
  extract_lets top emin q sh n rem n' inexact uf
  have place : q = e := fits.lastPlace zero
  have shift : sh = 0 := by simp [sh, place]
  have rest : rem = 0 := by simp [rem, shift, Nat.mod_one]
  have kept : n' = m := by simp [n', n, rest, shift, place, roundAway_exact]
  simp [place, kept, uf, inexact, rest, zero, most, width]

end

/-- A finite pattern rounds to itself. -/
theorem Fmt.pack_decode {f : Fmt} (ieee : f.kind = 0) (wide : 2 ≤ f.eb) {w : Nat} (h : w < 2 ^ f.width) (mode : Nat) (sat : Bool) (draw : Nat)
    (num : (f.decode w).isNan = false) (pos : f.decode w ≠ .inf true) (neg : f.decode w ≠ .inf false) :
    f.pack mode sat draw (f.decode w) = (w, 0) := by
  obtain ⟨s, m, e, value, fits, pattern⟩ := Fmt.decode_finite ieee wide h num (Bool.forall_bool.2 ⟨neg, pos⟩)
  calc f.pack mode sat draw (f.decode w)
    _ = f.round mode sat draw s m e false := by rw [value]; rfl
    _ = (w, 0) := by rw [fits.round ieee, pattern]

/-- Settles O5 (R147): `Fmt.pack_decode` at each of the three formats, which holds for every rule. -/
theorem exactValuesRoundToThemselves : Obligations.ExactValuesRoundToThemselves := by
  unfold Obligations.ExactValuesRoundToThemselves
  intro w mode draw sat _
  exact ⟨fun h => Fmt.pack_decode rfl (by decide) h mode sat draw, fun h => Fmt.pack_decode rfl (by decide) h mode sat draw,
    fun h => Fmt.pack_decode rfl (by decide) h mode sat draw⟩

end Sys2Proof.Machine
end

