-- ==== Sys2Proof/Proofs/IntegerRows.lean ====
section
/-! SUPPORT. A row of an MSTEP over an integer pair as exact sums (R157, R245); with it O36. -/

namespace Sys2Proof.Machine

/-- A list given by its indices, mapped with them. -/
theorem mapIdx_map_range {α β : Type} (k : Nat) (g : Nat → α) (f : Nat → α → β) :
    ((List.range k).map g).mapIdx f = (List.range k).map fun j => f j (g j) := by
  apply List.ext_getElem <;> simp

/-- A row over an integer pair: per column of the block the sum of the products, 0 in the others, and no flags. -/
theorem stepRow_int {f : Word64} (p : ArrPlane) (sm : Memory) (row : Array Byte) (z : Nat → Nat) (int : fwInt f = true) :
    stepRow f p sm row z = ((List.range 128).map (fun n => if n < p.n then
      BitVec.ofInt 32 (((List.range p.k).map fun j => intVal (fwA f) (packedElem row (tyBits (fwA f)) j) *
        intVal p.wt (packedElem p.data.toArray (tyBits p.wt) (j * p.n + n))).sum) else 0), 0) := by
  simp only [stepRow, int, if_true, mapIdx_map_range]

/-- Settles O36 (R157, R245): the flags, the length and the columns of `stepRow_int`. -/
theorem integerSteps : Obligations.IntegerSteps := by
  unfold Obligations.IntegerSteps
  intro f p sm row z int
  rw [stepRow_int p sm row z int]
  refine ⟨rfl, ?length, fun n inside => ?column⟩
  case length => rw [List.length_map, List.length_range]
  case column => simp [List.getD, inside]

end Sys2Proof.Machine
end

