-- ==== Sys2Proof/Proofs/QuantisedRows.lean ====
section
/-! SUPPORT. When the results of a VQMX take effect (R206, R224): a word in the reset state that stores its scale bytes; with it the refutation of O29. -/

namespace Sys2Proof.Machine

open Sys2Proof.Claims

/-- VQMX of rows 0 to 7 into row 1534, with its scale bytes into row 1535. -/
def quantises : VWord := ⟨7, 0, 0, 0, 0, 0, ⟨1534, 0⟩, ⟨0, 0⟩, ⟨1535, 0⟩, 0⟩
/-- Its form: eight rows of A, q = 8, and the L = 4 that most words have. -/
def quantisesForm : VForm := { aRows := 8, bRows := 0, dRows := 1, q := 8, bits := 32, dty := 12 }

/-- When the vector results on their way in the next state take effect. -/
def resultTimes : Host.Outcome State Fault Refusal → List Nat
  | .next t => t.agenda.filterMap fun e => match e.act with
    | .run .vectorResult _ => some e.at_
    | _ => none
  | _ => []

/-- Issued at cycle 0, its elements and its scale bytes take effect at cycle q - 1 + L = 11 (R206). -/
theorem quantises_due : resultTimes (exec (.vqmx quantises) State.reset) = [11, 11] := by decide +kernel

/-- A register operand is read without a pop. -/
theorem readSrc_reg (s : State) (c bits i rows : Nat) {o : VOp} (reg : isReg o = true) :
    readSrc s c bits o i rows = some (s, (List.range rows).map fun j => s.vRow c (rowOf o i j).toNat) := if_pos reg

/-- Its repeat can run in the reset state. -/
theorem quantises_runs : Runs State.reset quantises quantisesForm State.reset
    ((List.range 8).map fun j => State.reset.vRow 0 (rowOf quantises.a 0 j).toNat) [] where
  form := by decide
  settled := ⟨by decide, by decide⟩
  reads := ⟨State.reset, readSrc_reg _ _ _ _ _ rfl, readSrc_reg _ _ _ _ _ rfl⟩
  room := fun _ => by decide
  sound := ⟨rfl, rfl⟩

/-- Refutes O29: its clause for a VQMX whose B is a register sends the elements and the scale bytes 15 cycles after issue. R206 and R224 give
q - 1 + L = 8 - 1 + 4 = 11, as the model has it and the statement's own clause for B = ZERO. -/
theorem not_packedFormatWords : ¬ Obligations.PackedFormatWords := by
  unfold Obligations.PackedFormatWords
  intro h
  obtain ⟨-, stored, -⟩ := h quantises State.reset State.reset _ _
  have claimed : resultTimes (exec (.vqmx quantises) State.reset) = [15, 15] :=
    (congrArg resultTimes (stored (by decide) quantises_runs (by decide) (by decide))).trans (by decide +kernel)
  exact absurd (quantises_due.symm.trans claimed) (by decide)

end Sys2Proof.Machine
end

