-- ==== Sys2Proof/Proofs/IntegerWords.lean ====
section
/-! SUPPORT. The words of the scalar stream that compute one register (R167, R168, R171 to R174): one equation of the word for all of them, the values of
the integer words, the counts by the bits of the operand and the divisions with their corner cases; with them O1, O2 and O3. -/

namespace Sys2Proof.Machine

open Sys2Proof.Claims

/-! ### A word that gives one register (R167, R170) -/

section

variable {s : State} {rs : List (BitVec 5)} (ready : Ready s rs)
include ready

/-- No register of a word waits for a result where none of those named does. -/
theorem Ready.guardRegs {l : List (BitVec 5)} (sub : l ⊆ rs) (x : SOut) : guardRegs s s.curCore (l.map BitVec.toNat) x = x := by
  refine guardRegs_ready x fun r hr => ?_
  obtain ⟨q, hq, rfl⟩ := List.mem_map.1 hr
  exact ready q (sub hq)

variable {i : Instr} (wf : i.wf = true) {d a b : BitVec 5}
include wf

/-- A word whose whole effect is one register and flags gives what it computes from its core. -/
theorem regWord_gives {l : List (BitVec 5)} {lat fl : Nat} {f : State → Core → Word64 × Nat} {v : Word64} (sub : d :: l ⊆ rs)
    (value : f s (here s) = (v, fl)) : regWord i d (l.map BitVec.toNat) lat f s = .next (gives s d v fl lat) := by
  rw [regWord, scalarWord_wf _ _ wf]
  change finishScalar s.curCore (Machine.guardRegs s s.curCore ((d :: l).map BitVec.toNat) _) = _
  rw [Ready.guardRegs ready sub]
  change Host.Outcome.next _ = _
  rw [show f s (s.core s.curCore) = (v, fl) from value]
  rfl

/-- So does the form of two operands. -/
theorem binWord_gives {lat fl : Nat} {f : Word64 → Word64 → Word64 × Nat} {v : Word64} (sub : [d, a, b] ⊆ rs)
    (value : f (opA s a) (opB s b) = (v, fl)) : binWord i d a b lat f s = .next (gives s d v fl lat) :=
  regWord_gives ready wf (l := [a, b]) sub value
/-- And that of one operand. -/
theorem unWord_gives {lat fl : Nat} {f : Word64 → Word64 × Nat} {v : Word64} (sub : [d, a] ⊆ rs)
    (value : f (opA s a) = (v, fl)) : unWord i d a lat f s = .next (gives s d v fl lat) :=
  regWord_gives ready wf (l := [a]) sub value

end

/-! ### Values of the integer words (R171, R173, R174) -/

/-- IW where the exact value lies outside the range. -/
theorem iwFlag_eq (n : Nat) (v : Int) : iwFlag n v = iw n v := by
  simp only [iwFlag, outside, iw, flIW, Bool.or_eq_true, decide_eq_true_eq]
  split <;> split <;> omega

section

variable (x y : Word64)

theorem aluMin_eq : aluMin x y = (if x.slt y then x else y, 0) := by
  have tie : x.toInt = y.toInt → x = y := BitVec.eq_of_toInt_eq
  simp only [aluMin, BitVec.slt, decide_eq_true_eq]
  split_ifs <;> grind
theorem aluMax_eq : aluMax x y = (if x.slt y then y else x, 0) := by
  have tie : x.toInt = y.toInt → x = y := BitVec.eq_of_toInt_eq
  simp only [aluMax, BitVec.slt, decide_eq_true_eq]
  split_ifs <;> grind
theorem aluMinu_eq : aluMinu x y = (if x.ult y then x else y, 0) := by
  have tie : x.toNat = y.toNat → x = y := BitVec.eq_of_toNat_eq
  simp only [aluMinu, BitVec.ult, decide_eq_true_eq]
  split_ifs <;> grind
theorem aluMaxu_eq : aluMaxu x y = (if x.ult y then y else x, 0) := by
  have tie : x.toNat = y.toNat → x = y := BitVec.eq_of_toNat_eq
  simp only [aluMaxu, BitVec.ult, decide_eq_true_eq]
  split_ifs <;> grind

/-- The high half of the signed product. -/
theorem aluMulh_eq : aluMulh x y = (((x.signExtend 128 * y.signExtend 128) >>> 64).setWidth 64, 0) := by
  refine Prod.ext (BitVec.eq_of_toNat_eq ?_) rfl
  have signed (z : Word64) : (z.signExtend 128).toInt = z.toInt := BitVec.toInt_signExtend_of_le (by decide)
  have product : x.signExtend 128 * y.signExtend 128 = BitVec.ofInt 128 (x.toInt * y.toInt) := by
    rw [BitVec.ofInt_mul, ← signed x, ← signed y, BitVec.ofInt_toInt, BitVec.ofInt_toInt]
  rw [product]
  simp only [aluMulh, BitVec.toNat_setWidth, BitVec.toNat_ushiftRight, BitVec.toNat_ofInt, Nat.shiftRight_eq_div_pow]
  generalize x.toInt * y.toInt = z
  omega
/-- The high half of the unsigned product. -/
theorem aluMulhu_eq : aluMulhu x y = (((x.setWidth 128 * y.setWidth 128) >>> 64).setWidth 64, 0) := by
  refine Prod.ext (BitVec.eq_of_toNat_eq ?_) rfl
  have wide (z : Word64) : z.toNat % 2 ^ 128 = z.toNat := Nat.mod_eq_of_lt (z.isLt.trans (by decide))
  have product : x.toNat * y.toNat < 2 ^ 128 := by simpa only [← pow_add] using Nat.mul_lt_mul'' x.isLt y.isLt
  simp only [aluMulhu, BitVec.toNat_setWidth, BitVec.toNat_ushiftRight, BitVec.toNat_ofNat, Nat.shiftRight_eq_div_pow, BitVec.toNat_mul, wide,
    Nat.mod_eq_of_lt product]

end

/-- A shift by an immediate. -/
theorem shAmt_zext64 (n : BitVec 6) : shAmt (zext64 n) = n.toNat := by
  have := n.isLt
  simp only [shAmt, zext64, BitVec.zeroExtend, BitVec.toNat_setWidth]
  omega

/-- DV or no flag is what a division leaves. -/
theorem divSigned_flag (x y : Word64) : (divSigned x y).2.2 = 0 ∨ (divSigned x y).2.2 = 64 := by
  unfold divSigned
  split
  · exact .inr rfl
  · split
    · exact .inr rfl
    · exact .inl rfl
theorem divUnsigned_flag (x y : Word64) : (divUnsigned x y).2.2 = 0 ∨ (divUnsigned x y).2.2 = 64 := by
  unfold divUnsigned
  split
  · exact .inr rfl
  · exact .inl rfl

/-- Settles O1 (R167, R171, R173, R174): `binWord_gives` and its like at each word, with the word's value. -/
theorem integerWords : Obligations.IntegerWords := by
  unfold Obligations.IntegerWords
  intro g d a b i n u s ready x y
  have all : [d, a, b] ⊆ [d, a, b] := List.Subset.refl _
  have one : [d, a] ⊆ [d, a, b] := List.prefix_append [d, a] [b] |>.subset
  have dest : [d] ⊆ [d, a, b] := List.prefix_append [d] [a, b] |>.subset
  have add (y : Word64) : aluAdd x y = (x + y, iw 64 (x.toInt + y.toInt)) := Prod.ext rfl (iwFlag_eq ..)
  have imm : (sext64 i).toInt = i.toInt := BitVec.toInt_signExtend_of_le (by decide)
  refine ⟨binWord_gives ready rfl all (add y), binWord_gives ready rfl all (Prod.ext rfl (iwFlag_eq ..)),
    binWord_gives (f := fun x y => (x &&& y, 0)) ready rfl all rfl, binWord_gives (f := fun x y => (x ||| y, 0)) ready rfl all rfl,
    binWord_gives (f := fun x y => (x ^^^ y, 0)) ready rfl all rfl, binWord_gives (f := fun x y => (x &&& ~~~y, 0)) ready rfl all rfl,
    binWord_gives ready rfl all rfl, binWord_gives ready rfl all rfl, binWord_gives ready rfl all rfl,
    binWord_gives ready rfl all (Prod.ext rfl (iwFlag_eq ..)), binWord_gives ready rfl all (aluMulh_eq x y), binWord_gives ready rfl all (aluMulhu_eq x y),
    binWord_gives ready rfl all (aluMin_eq x y), binWord_gives ready rfl all (aluMax_eq x y),
    binWord_gives ready rfl all (aluMinu_eq x y), binWord_gives ready rfl all (aluMaxu_eq x y),
    binWord_gives ready rfl all (Prod.ext rfl (iwFlag_eq ..)), binWord_gives ready rfl all (Prod.ext rfl (iwFlag_eq ..)),
    unWord_gives (f := fun x => aluAdd x (sext64 i)) ready rfl one (imm ▸ add (sext64 i)),
    unWord_gives (f := fun x => (x &&& zext64 i, 0)) ready rfl one rfl, unWord_gives (f := fun x => (x ||| zext64 i, 0)) ready rfl one rfl,
    unWord_gives (f := fun x => (x ^^^ zext64 i, 0)) ready rfl one rfl,
    unWord_gives (f := fun x => aluSll x (zext64 n)) ready rfl one (by rw [aluSll, shAmt_zext64]),
    unWord_gives (f := fun x => aluSrl x (zext64 n)) ready rfl one (by rw [aluSrl, shAmt_zext64]),
    unWord_gives (f := fun x => aluSra x (zext64 n)) ready rfl one (by rw [aluSra, shAmt_zext64]),
    regWord_gives (f := fun _ _ => (sext64 u <<< 13, 0)) ready rfl (l := []) dest rfl,
    regWord_gives (f := fun _ k => (BitVec.ofNat 64 k.sc.widx + sext64 u, 0)) ready rfl (l := []) dest rfl,
    ⟨_, _, binWord_gives ready rfl all rfl, divSigned_flag x y⟩, ⟨_, _, binWord_gives ready rfl all rfl, divUnsigned_flag x y⟩,
    ⟨_, _, binWord_gives ready rfl all rfl, divSigned_flag x y⟩, ⟨_, _, binWord_gives ready rfl all rfl, divUnsigned_flag x y⟩⟩

/-! ### Counts (R171) -/

/-- A number lies below two to the number of its binary digits, and no lower power of two will do. -/
theorem lt_two_pow_bitLen (n : Nat) : n < 2 ^ bitLen n := by
  unfold bitLen
  split
  · omega
  · exact Nat.lt_log2_self
theorem two_pow_pred_bitLen_le {n : Nat} (h : n ≠ 0) : 2 ^ (bitLen n - 1) ≤ n := by
  rw [bitLen, if_neg h]
  exact Nat.log2_self_le h
theorem bitLen_le {n k : Nat} (h : n < 2 ^ k) : bitLen n ≤ k := by
  unfold bitLen
  split
  · omega
  · next nonzero => exact (Nat.log2_lt nonzero).2 h

/-- Counting up from bit `i`, with bits left: the first set one, or the end. -/
theorem ctzGo_spec (n fuel i : Nat) : i ≤ ctzGo n fuel i ∧ ctzGo n fuel i ≤ i + fuel ∧ (∀ j, i ≤ j → j < ctzGo n fuel i → n.testBit j = false) ∧
    (ctzGo n fuel i < i + fuel → n.testBit (ctzGo n fuel i) = true) := by
  induction fuel generalizing i with
  | zero => exact ⟨le_rfl, le_rfl, fun j low high => absurd (low.trans_lt high) (lt_irrefl _), fun h => absurd h (lt_irrefl _)⟩
  | succ fuel ih =>
    unfold ctzGo
    split
    case isTrue set => exact ⟨le_rfl, by omega, fun j low high => absurd (low.trans_lt high) (lt_irrefl _), fun _ => set⟩
    case isFalse clear =>
      obtain ⟨above, bound, below, found⟩ := ih (i + 1)
      refine ⟨by omega, by omega, fun j low high => ?_, fun h => found (by omega)⟩
      rcases eq_or_lt_of_le low with rfl | low
      · simpa using clear
      · exact below j low high

/-- The set bits among the lowest `k`. -/
theorem popCount_eq (n k : Nat) : popCount n k = (List.range k).countP fun i => n.testBit i := by
  induction k with
  | zero => rfl
  | succ k ih => rw [popCount, ih, List.range_succ, List.countP_append, List.countP_singleton, Nat.add_comm]

/-- Settles O2 (R171): the digits of the operand for CLZ, the search upward for CTZ, the sum for POPC. -/
theorem countWords : Obligations.CountWords := by
  unfold Obligations.CountWords
  intro g d a s ready x
  have all : [d, a] ⊆ [d, a] := List.Subset.refl _
  have wide : bitLen x.toNat ≤ 64 := bitLen_le x.isLt
  obtain ⟨-, bound, below, found⟩ := ctzGo_spec x.toNat 64 0
  rw [Nat.zero_add] at bound found
  refine ⟨⟨64 - bitLen x.toNat, by omega, unWord_gives ready rfl all rfl, ?_, fun short => ?_⟩,
    ⟨ctzGo x.toNat 64 0, bound, unWord_gives ready rfl all rfl, fun i hi => below i (Nat.zero_le _) hi, found⟩,
    unWord_gives ready rfl all (Prod.ext (congrArg (BitVec.ofNat 64) (popCount_eq ..)) rfl)⟩
  · rw [Nat.sub_sub_self wide]
    exact lt_two_pow_bitLen _
  · have nonzero : x.toNat ≠ 0 := by
      intro zero
      rw [zero] at short
      exact absurd short (by decide)
    rw [show 63 - (64 - bitLen x.toNat) = bitLen x.toNat - 1 by omega]
    exact two_pow_pred_bitLen_le nonzero

/-! ### Divisions (R172) -/

/-- The one signed division that overflows, by the values of its operands. -/
theorem overflows_iff (x y : Word64) : (x = BitVec.intMin 64 ∧ y = BitVec.allOnes 64) ↔ x.toInt = -2 ^ 63 ∧ y.toInt = -1 := by
  rw [← BitVec.toInt_inj, ← BitVec.toInt_inj]
  exact Iff.rfl

/-- The remainder is what the quotient leaves. -/
theorem ofInt_tmod (x y : Word64) :
    BitVec.ofInt 64 (x.toInt.tmod y.toInt) = x - BitVec.ofInt 64 (x.toInt.tdiv y.toInt) * y := by
  have sum := congrArg (BitVec.ofInt 64) (Int.tmod_add_tdiv_mul x.toInt y.toInt)
  rw [BitVec.ofInt_add, BitVec.ofInt_mul, BitVec.ofInt_toInt, BitVec.ofInt_toInt] at sum
  exact eq_sub_of_add_eq sum
theorem ofNat_mod (x y : Word64) : BitVec.ofNat 64 (x.toNat % y.toNat) = x - x / y * y := by
  have sum := congrArg (BitVec.ofNat 64) (Nat.mod_add_div' x.toNat y.toNat)
  rw [BitVec.ofNat_add, BitVec.ofNat_mul, BitVec.ofNat_toNat, BitVec.ofNat_toNat, BitVec.setWidth_eq, BitVec.setWidth_eq, ← BitVec.udiv_def] at sum
  exact eq_sub_of_add_eq sum

/-- Settles O3 (R172). -/
theorem divisionWords : Obligations.DivisionWords := by
  unfold Obligations.DivisionWords
  intro g d a b s ready x y signed unsigned
  have all : [d, a, b] ⊆ [d, a, b] := List.Subset.refl _
  have hs : divSigned x y = signed := by
    simp only [divSigned, overflows_iff, ofInt_tmod]
    rfl
  have hu : divUnsigned x y = unsigned := by
    simp only [divUnsigned, ofNat_mod, ← BitVec.udiv_def]
    rfl
  rw [← hs, ← hu]
  exact ⟨binWord_gives ready rfl all rfl, binWord_gives ready rfl all rfl, binWord_gives ready rfl all rfl, binWord_gives ready rfl all rfl⟩

end Sys2Proof.Machine
end

