-- ==== Sys2Proof/Proofs/FloatWords.lean ====
section
/-! SUPPORT. Floating-point words of the scalar stream (R169, R175, R176): FP32 patterns by their fields, what rounding into FP32 can give, signs, classes
and the conversion of a BF16 pattern; with them O4. -/

namespace Sys2Proof.Machine

open Sys2Proof.Claims

/-! ### FP32 patterns by their fields (R140) -/

/-- The exponent and the fraction of a pattern, as numbers. -/
theorem fp32_exponent (w : Nat) : bitsOf w fp32.mb fp32.eb = w / 2 ^ 23 % 256 := by
  rw [bitsOf, Nat.shiftRight_eq_div_pow]
  rfl

/-- The value of a pattern whose exponent field is all ones, is zero, or is neither. -/
theorem fp32_decode_special {w : Nat} (ones : w / 2 ^ 23 % 256 = 255) : fp32.decode w = if w % 2 ^ 23 = 0 then .inf (sign w) else .nan :=
  Fmt.decode_special rfl ((fp32_exponent w).trans ones)
theorem fp32_decode_other {w : Nat} (other : w / 2 ^ 23 % 256 ≠ 255) : fp32.decode w =
    if w / 2 ^ 23 % 256 = 0 then .fin (sign w) (w % 2 ^ 23) fp32.qmin false
    else .fin (sign w) (w % 2 ^ 23 + 2 ^ 23) (fp32.qmin + (w / 2 ^ 23 % 256 - 1 : Nat)) false := by
  have below : bitsOf w fp32.mb fp32.eb + 1 < 2 ^ fp32.eb := by
    have := fp32_exponent w
    have : (2 : Nat) ^ fp32.eb = 256 := rfl
    omega
  have value := Fmt.decode_other (f := fp32) rfl below
  rw [fp32_exponent] at value
  exact value

/-- The NaNs lie above the infinity. -/
theorem fp32_decode_isNan (w : Nat) : (fp32.decode w).isNan = isNan w := by
  by_cases ones : w / 2 ^ 23 % 256 = 255
  · rw [fp32_decode_special ones, isNan]
    split
    · exact (decide_eq_false (by omega)).symm
    · exact (decide_eq_true (by omega)).symm
  · rw [fp32_decode_other ones, isNan, decide_eq_false (by omega)]
    split <;> rfl

/-! ### Signs and classes (R175) -/

/-- FSGNJ and its like: the magnitude of ra with the sign that `f` chooses, or the canonical NaN. -/
theorem fpSgn_eq (f : Bool → Bool → Bool) (x y : Nat) :
    fpOut (fpSgn f x y) = (clean (withSign x (f (sign x) (sign y))), 0) := by
  have place (neg : Bool) : fp32.signBit neg = if neg then 2 ^ 31 else 0 := rfl
  rw [fpSgn, fp32_decode_isNan, withSign, place]
  split <;> rfl

/-- FCLASS: one bit for the class of the value. -/
theorem fpClass_eq (w : Nat) : fpClass w = classOf w := by
  have exponent : bitsOf w 23 8 = w / 2 ^ 23 % 256 := fp32_exponent w
  by_cases ones : w / 2 ^ 23 % 256 = 255
  · simp only [fpClass, classOf, fp32_decode_special ones, ones, if_true]
    by_cases zero : w % 2 ^ 23 = 0
    · rw [if_pos zero, if_neg (not_not.2 zero)]
    · rw [if_neg zero, if_pos zero]
  · simp only [fpClass, classOf, fp32_decode_other ones, exponent, if_neg ones]
    by_cases low : w / 2 ^ 23 % 256 = 0
    · by_cases zero : w % 2 ^ 23 = 0
      · rw [if_pos low, if_pos low, if_neg (not_not.2 zero)]
        exact if_pos zero
      · rw [if_pos low, if_pos low, if_pos zero]
        exact (if_neg zero).trans (if_pos low)
    · rw [if_neg low, if_neg low]
      exact (if_neg (by omega)).trans (if_neg low)

/-! ### What rounding can give (R147, R148) -/

/-- The significand that a rounding keeps fits the format's bits. -/
theorem lt_pow_of_top {m mb sh : Nat} {e q : Int} (top : e + (bitLen m : Int) - 1 - mb ≤ q) (shift : sh = (q - e).toNat) :
    (if e ≤ q then m / 2 ^ sh else m * 2 ^ (e - q).toNat) < 2 ^ (mb + 1) := by
  have digits := lt_two_pow_bitLen m
  split
  · refine Nat.div_lt_of_lt_mul (digits.trans_le ?_)
    rw [← pow_add]
    exact Nat.pow_le_pow_right (by decide) (by omega)
  · calc m * 2 ^ (e - q).toNat
      _ < 2 ^ bitLen m * 2 ^ (e - q).toNat := Nat.mul_lt_mul_of_pos_right digits (Nat.two_pow_pos _)
      _ ≤ 2 ^ (mb + 1) := by
        rw [← pow_add]
        exact Nat.pow_le_pow_right (by decide) (by omega)

/-- Neither infinity nor the greatest finite value is a NaN. -/
theorem fp32_overflow_isNan (neg sat : Bool) : isNan (fp32.overflow neg sat).1 = false := by cases neg <;> cases sat <;> rfl
theorem fp32_pack_inf_isNan (mode : Nat) (sat : Bool) (draw : Nat) (neg : Bool) : isNan (fp32.pack mode sat draw (.inf neg)).1 = false := by
  have same : (fp32.pack mode sat draw (.inf neg)).1 = (fp32.overflow neg sat).1 := by cases sat <;> rfl
  rw [same, fp32_overflow_isNan]

/-- Rounding into FP32 gives no NaN. -/
theorem fp32_round_isNan (mode : Nat) (sat : Bool) (draw : Nat) (neg : Bool) (m : Nat) (e : Int) (sticky : Bool) :
    isNan (fp32.round mode sat draw neg m e sticky).1 = false := by
  have signs (neg : Bool) : fp32.signBit neg = 0 ∨ fp32.signBit neg = 2 ^ 31 := by cases neg <;> decide
  unfold Fmt.round
  split
  · exact decide_eq_false (by have := signs neg; simp only; omega)
  extract_lets top emin q sh n rem n' inexact uf
  split
  case isTrue =>
    exact fp32_overflow_isNan neg sat
  case isFalse inside =>
    have least : fp32.qmin = -149 := rfl
    have most : fp32.maxQ = 104 := by simp [Fmt.maxQ, fp32]
    have widest : fp32.maxM = 2 ^ 24 - 1 := by simp [Fmt.maxM, fp32]
    have high : top - 23 ≤ q := sub_le_sub_right (le_max_left top emin) 23
    have kept : n < 2 ^ 24 := lt_pow_of_top (mb := 23) high rfl
    have rounded : n' ≤ n + 1 := by
      simp only [n']
      split <;> omega
    have low : emin - 23 ≤ q := sub_le_sub_right (le_max_right top emin) 23
    have bottom : emin = -126 := rfl
    simp only [Bool.or_eq_true, Bool.and_eq_true, decide_eq_true_eq, beq_iff_eq, not_or, not_and, most, widest] at inside
    obtain ⟨place, full⟩ := inside
    have magnitude : ((q - fp32.qmin).toNat <<< fp32.mb) + n' < 0x7F800000 := by
      rw [Nat.shiftLeft_eq, least, show fp32.mb = 23 from rfl]
      omega
    have := signs neg
    refine decide_eq_false ?_
    generalize ((q - fp32.qmin).toNat <<< fp32.mb) + n' = low at magnitude
    omega

/-- A value packed into FP32 is a NaN only as the canonical one. -/
theorem fp32_pack_qnan {mode draw : Nat} {sat : Bool} {v : FVal} (nan : isNan (fp32.pack mode sat draw v).1 = true) :
    (fp32.pack mode sat draw v).1 = 0x7FC00000 := by
  cases v with
  | nan => rfl
  | inf neg => exact absurd nan (by rw [fp32_pack_inf_isNan]; decide)
  | fin neg m e sticky => exact absurd nan (by rw [Fmt.pack, fp32_round_isNan]; decide)

/-- The sign turned, as a sum. -/
theorem fp32_flip_mod (w : Nat) : fp32.flip w % 2 ^ 32 = (w + 2 ^ 31) % 2 ^ 32 := by
  refine Nat.eq_of_testBit_eq fun i => ?_
  rw [Fmt.flip, show 1 <<< (fp32.eb + fp32.mb) = 2 ^ 31 from rfl, Nat.testBit_mod_two_pow, Nat.testBit_mod_two_pow, Nat.testBit_xor, Nat.testBit_two_pow,
    Nat.add_comm]
  rcases lt_trichotomy i 31 with low | rfl | high
  · rw [Nat.testBit_two_pow_add_gt low, decide_eq_false (show ¬ 31 = i by omega), Bool.xor_false]
  · rw [Nat.testBit_two_pow_add_eq, decide_eq_true rfl, Bool.xor_true]
  · rw [decide_eq_false (show ¬ i < 32 by omega), Bool.false_and, Bool.false_and]

/-- The FMA group negated: the sign of the rounded result turns, but for a NaN. -/
theorem fmaOp_negated (sub : Bool) (x y z : Word64) :
    fmaOp sub true x y z = (clean (if isNan (fpFma fp32 0 (pat x) (pat y) (pat z) sub).1 then 0x7FC00000
      else (fpFma fp32 0 (pat x) (pat y) (pat z) sub).1 + 2 ^ 31), (fpFma fp32 0 (pat x) (pat y) (pat z) sub).2) := by
  change (if true && !(fp32.decode (fpFma fp32 0 (pat x) (pat y) (pat z) sub).1).isNan then _ else _) = _
  rw [fp32_decode_isNan, Bool.true_and]
  cases nan : isNan (fpFma fp32 0 (pat x) (pat y) (pat z) sub).1
  · exact Prod.ext (congrArg (BitVec.ofNat 64) (fp32_flip_mod _)) rfl
  · have canonical : (fpFma fp32 0 (pat x) (pat y) (pat z) sub).1 = 0x7FC00000 := fp32_pack_qnan nan
    exact Prod.ext (congrArg (fun w => BitVec.ofNat 64 (w % 2 ^ 32)) canonical) rfl

/-! ### BF16 to FP32 (R175) -/

/-- Zeros below a number are as many more digits. -/
theorem bitLen_mul_two_pow {m : Nat} (nonzero : m ≠ 0) (k : Nat) : bitLen (m * 2 ^ k) = bitLen m + k := by
  induction k with
  | zero => rw [pow_zero, Nat.mul_one, Nat.add_zero]
  | succ k ih =>
    have scaled : m * 2 ^ k ≠ 0 := Nat.mul_ne_zero nonzero (Nat.two_pow_pos k).ne'
    have longer : bitLen (m * 2 ^ k * 2) = bitLen (m * 2 ^ k) + 1 := by
      rw [bitLen, bitLen, if_neg (Nat.mul_ne_zero scaled two_ne_zero), if_neg scaled, Nat.log2_eq_log_two, Nat.log2_eq_log_two,
        Nat.log_mul_base one_lt_two scaled]
    rw [pow_succ, ← Nat.mul_assoc, longer, ih, Nat.add_assoc]

/-- Rounding at an exponent `k` below a significand's own writes `k` zeros below it and leaves no rest. -/
theorem scaled_digits (m k : Nat) (e : Int) :
    (if e ≤ e - k then m / 2 ^ (e - k - e).toNat else m * 2 ^ (e - (e - k)).toNat) = m * 2 ^ k ∧
      (if e ≤ e - k then m % 2 ^ (e - k - e).toNat else 0) = 0 := by
  cases k with
  | zero => simp [Nat.mod_one]
  | succ k =>
    have below : ¬ e ≤ e - (k + 1 : Nat) := by omega
    rw [if_neg below, if_neg below, sub_sub_cancel, Int.toNat_natCast]
    exact ⟨rfl, rfl⟩

/-- A value rounds to its pattern where the format holds it with more bits written out. -/
theorem Fmt.Fits.round_scaled {f : Fmt} (ieee : f.kind = 0) {m k : Nat} {e : Int} (fits : f.Fits (m * 2 ^ k) (e - k)) (nonzero : m ≠ 0) (mode : Nat)
    (sat : Bool) (draw : Nat) (s : Bool) :
    f.round mode sat draw s m e false = (((e - k - f.qmin).toNat <<< f.mb) + m * 2 ^ k + f.signBit s, 0) := by
  have last := fits.lastPlace (Nat.mul_ne_zero nonzero (Nat.two_pow_pos k).ne')
  rw [bitLen_mul_two_pow nonzero k, Nat.cast_add, show e - k + (bitLen m + k : Int) - 1 = e + bitLen m - 1 by omega] at last
  have most : ¬ f.maxQ < e - k := not_lt.2 fits.most
  have width : ¬ f.maxM < m * 2 ^ k := by
    rw [Fmt.maxM, ieee, if_neg (by decide)]
    exact not_lt.2 (Nat.le_sub_one_of_lt fits.width)
  unfold Fmt.round
  extract_lets top emin q sh n rem n' inexact uf
  have place : q = e - k := last
  clear_value q
  subst place
  obtain ⟨whole, rest⟩ := scaled_digits m k e
  have kept : n' = m * 2 ^ k := by simp [n', n, rem, sh, whole, rest, roundAway]
  simp [kept, uf, inexact, rem, sh, rest, nonzero, most, width]

/-- A significand of BF16 with 16 zeros below it is one of FP32. -/
theorem bf16_fits_fp32 {m : Nat} {e : Int} (fits : bf16.Fits m e) : fp32.Fits (m * 2 ^ 16) (e - (16 : Nat)) := by
  obtain ⟨width, least, most, leads⟩ := fits
  have greatest : bf16.maxQ = 120 := by simp [Fmt.maxQ, bf16]
  have greatest32 : fp32.maxQ = 104 := by simp [Fmt.maxQ, fp32]
  rw [show bf16.mb = 7 from rfl] at width leads
  rw [show bf16.qmin = -133 from rfl] at least leads
  refine ⟨?_, ?_, ?_, ?_⟩
  · rw [show fp32.mb = 23 from rfl]
    omega
  · rw [show fp32.qmin = -149 from rfl]
    omega
  · omega
  · rw [show fp32.mb = 23 from rfl, show fp32.qmin = -149 from rfl]
    omega

/-- The bits of a BF16 pattern, with 16 zeros below them, are the FP32 pattern of its value. -/
theorem fp32_pack_bf16 {h : Nat} (width : h < 2 ^ 16) :
    fp32.pack 0 false 0 (bf16.decode h) = if isNan (h * 2 ^ 16) then (0x7FC00000, 1) else (h * 2 ^ 16, 0) := by
  have exponent : bitsOf h bf16.mb bf16.eb = h / 2 ^ 7 % 256 := by
    rw [bitsOf, Nat.shiftRight_eq_div_pow]
    rfl
  have fraction : bitsOf h 0 bf16.mb = h % 2 ^ 7 := rfl
  have fields : h / 2 ^ 7 % 256 * 2 ^ 7 + h % 2 ^ 7 + bf16.signBit (bitOf h 15) = h := by
    rw [← exponent]
    exact bf16.fields width
  have signs (neg : Bool) : fp32.signBit neg = bf16.signBit neg * 2 ^ 16 := by cases neg <;> rfl
  have half (neg : Bool) : bf16.signBit neg = 0 ∨ bf16.signBit neg = 2 ^ 15 := by cases neg <;> decide
  by_cases ones : h / 2 ^ 7 % 256 = 255
  · rw [Fmt.decode_special rfl (exponent.trans ones), fraction]
    split
    case isTrue zero =>
      rw [isNan, decide_eq_false (by omega), if_neg Bool.false_ne_true]
      have infinity (neg : Bool) : fp32.pack 0 false 0 (.inf neg) = (255 * 2 ^ 23 + fp32.signBit neg, 0) := by cases neg <;> rfl
      rw [infinity, signs]
      refine Prod.ext ?_ rfl
      change 255 * 2 ^ 23 + bf16.signBit (bitOf h 15) * 2 ^ 16 = h * 2 ^ 16
      omega
    case isFalse nan =>
      rw [isNan, decide_eq_true (by omega)]
      rfl
  · have value := Fmt.decode_other (f := bf16) (w := h) rfl (by rw [exponent, show (2 : Nat) ^ bf16.eb = 256 from rfl]; omega)
    have num : (bf16.decode h).isNan = false := by
      rw [value]
      split <;> rfl
    have finite (s : Bool) : bf16.decode h ≠ .inf s := by
      rw [value]
      split <;> nofun
    obtain ⟨s, m, e, value, fits, pattern⟩ := Fmt.decode_finite rfl (by decide) width num finite
    rw [value, isNan, decide_eq_false (by omega), if_neg Bool.false_ne_true]
    by_cases zero : m = 0
    · have low : e = bf16.qmin := fits.leads.resolve_right (by rw [zero]; decide)
      rw [low, sub_self, zero] at pattern
      have sign : bf16.signBit s = h := by simpa using pattern
      rw [zero, ← sign, ← signs]
      rfl
    · have scaled : fp32.Fits (m * 2 ^ 16) (e - (16 : Nat)) := bf16_fits_fp32 fits
      refine (scaled.round_scaled rfl zero 0 false 0 s).trans (Prod.ext ?_ rfl)
      rw [show bf16.mb = 7 from rfl, show bf16.qmin = -133 from rfl, Nat.shiftLeft_eq] at pattern
      rw [signs, show fp32.mb = 23 from rfl, show fp32.qmin = -149 from rfl, Nat.shiftLeft_eq]
      have least : -133 ≤ e := fits.least
      omega

/-- BFTOF, with NV for a NaN. -/
theorem bftof_eq (x : Word64) : bftof x =
    if isNan (pat x % 2 ^ 16 * 2 ^ 16) then (0x7FC00000, 1) else (BitVec.ofNat 64 (pat x % 2 ^ 16 * 2 ^ 16), 0) := by
  have low : x.toNat % 2 ^ 16 = pat x % 2 ^ 16 := by simp only [pat]; omega
  rw [bftof, low, fp32_pack_bf16 (Nat.mod_lt _ (by decide))]
  split
  · rfl
  · rw [fpOut, Nat.mod_eq_of_lt (show pat x % 2 ^ 16 * 2 ^ 16 < 2 ^ 32 by omega)]

/-- Settles O4. -/
theorem floatWords : Obligations.FloatWords := by
  unfold Obligations.FloatWords
  intro g d a b c s ready x y z two
  have all : [d, a, b, c] ⊆ [d, a, b, c] := List.Subset.refl _
  have pair : [d, a, b] ⊆ [d, a, b, c] := (List.prefix_append [d, a, b] [c]).subset
  have one : [d, a] ⊆ [d, a, b, c] := (List.prefix_append [d, a] [b, c]).subset
  have bin (i : Instr) (wf : i.wf = true) (lat : Nat) (f : Nat → Nat → Nat × Nat) : fbin i d a b lat f s = .next (two (f x y) lat) :=
    binWord_gives ready wf pair rfl
  have sgn (i : Instr) (wf : i.wf = true) (f : Bool → Bool → Bool) :
      fbin i d a b 4 (fpSgn f) s = .next (gives s d (clean (withSign x (f (sign x) (sign y)))) 0 4) :=
    binWord_gives ready wf pair (fpSgn_eq f x y)
  have fma {i : Instr} (wf : i.wf = true) {sub neg : Bool} {v : Word64} {fl : Nat} (value : fmaOp sub neg (opA s a) (opB s b) (opC s c) = (v, fl)) :
      fmaWord i d a b c sub neg s = .next (gives s d v fl 4) := regWord_gives (l := [a, b, c]) ready wf all value
  refine ⟨bin _ rfl _ _, bin _ rfl _ _, bin _ rfl _ _, bin _ rfl _ _, unWord_gives (f := fun x => fpOut (fpSqrt fp32 0 (fpIn x))) ready rfl one rfl,
    bin _ rfl _ _, bin _ rfl _ _, sgn _ rfl fun _ y => y, sgn _ rfl fun _ y => !y, sgn _ rfl fun x y => x != y,
    unWord_gives ready rfl one rfl, unWord_gives ready rfl one rfl, unWord_gives ready rfl one rfl, ?bftof,
    unWord_gives (f := fun x => (BitVec.ofNat 64 (fpClass (fpIn x)), 0)) ready rfl one (by rw [fpClass_eq]; rfl),
    fma rfl rfl, fma rfl rfl, fma rfl (fmaOp_negated ..), fma rfl (fmaOp_negated ..)⟩
  case bftof =>
    split
    case isTrue nan => exact unWord_gives ready rfl one ((bftof_eq _).trans (if_pos nan))
    case isFalse num => exact unWord_gives ready rfl one ((bftof_eq _).trans (if_neg num))

end Sys2Proof.Machine
end

