-- ==== Sys2Proof/Proofs/ConditionWords.lean ====
section
/-! SUPPORT. The words that compute condition bits (R121, R123, R177, R178): one equation for all of them, the order of FP32 patterns on a line (R151), and
the twelve bits that CSAVE gathers; with them O6. -/

namespace Sys2Proof.Machine

open Sys2Proof.Claims

/-! ### A word that decides one condition bit (R123, R167, R177) -/

section

variable {i : Instr} (wf : i.wf = true) {b : BitVec 4} {srcs : List (BitVec 4)} {s : State}
include wf

/-- Its truth value is sent to its condition bit. -/
theorem condWord_decides {rs l : List (BitVec 5)} (ready : Ready s rs) (sub : l ⊆ rs) (codes : ∀ x ∈ b :: srcs, x.toNat < 12) {f : Core → Bool} {t : Bool}
    (value : f (here s) = t) : condWord i b srcs (l.map BitVec.toNat) f s = .next (decides s b t) := by
  have named : (b :: srcs).any (fun x => decide (12 ≤ x.toNat)) = false := by simpa using codes
  rw [condWord, scalarWord_wf _ _ wf, named, Ready.guardRegs ready sub, ← value]
  rfl

/-- A steer code that names no register is ILLEGAL_OPERAND. -/
theorem condWord_illegal {x : BitVec 4} (hx : x ∈ b :: srcs) (code_ : 12 ≤ x.toNat) (reads : List Nat) (f : Core → Bool) :
    condWord i b srcs reads f s = .next (faults s (code 2)) := by
  have unnamed : (b :: srcs).any (fun x => decide (12 ≤ x.toNat)) = true := List.any_eq_true.2 ⟨x, hx, decide_eq_true code_⟩
  rw [condWord, scalarWord_wf _ _ wf, unnamed]
  rfl

variable (code_ : 12 ≤ b.toNat)
include code_

/-- So it is to PREP and PREPR, and to a branch. -/
theorem prepWord_illegal (reads : List Nat) (target : Core → Int) : prepWord i b reads target s = .next (faults s (code 2)) := by
  rw [prepWord, scalarWord_wf _ _ wf, if_pos code_]
  rfl
theorem branchWord_illegal (taken : Bool → Bool) (leaves link : Bool) : branchWord i b taken leaves link s = .next (faults s (code 2)) := by
  rw [branchWord, scalarWord_wf _ _ wf]
  dsimp only
  rw [if_pos code_]
  rfl

end

/-- SET, AND, OR by the code. -/
theorem combineCond_eq (m : BitVec 2) (old t : Bool) : combineCond m.toNat old t = fold m old t := by
  have zero : m.toNat = 0 ↔ m = 0 := BitVec.toNat_inj (y := 0#2)
  have one : m.toNat = 1 ↔ m = 1 := BitVec.toNat_inj (y := 1#2)
  simp only [combineCond, fold, zero, one]

/-- The integer conditions by the comparisons of words. -/
theorem scalarCond_eq (c : Nat) (x y : Word64) : scalarCond c x y = intHolds c x y := by
  have signed : decide (y.toInt ≤ x.toInt) = !x.slt y := by simp [BitVec.slt, ← decide_not]
  have unsigned : decide (y.toNat ≤ x.toNat) = !x.ult y := by simp [BitVec.ult, ← decide_not]
  rcases c with _ | _ | _ | _ | _ | c
  case succ.succ.succ.zero => exact signed
  case succ.succ.succ.succ.succ => exact unsigned
  all_goals rfl

/-! ### FP32 patterns on a line (R151) -/

/-- The magnitude of a finite pattern in units of the least one; that of an infinity lies above them all. -/
def fp32Units (w : Nat) : Nat :=
  if w / 2 ^ 23 % 256 = 0 then w % 2 ^ 23 else (w % 2 ^ 23 + 2 ^ 23) * 2 ^ (w / 2 ^ 23 % 256 - 1)

/-- The exponent bounds the magnitude. -/
theorem fp32Units_lt (w : Nat) : fp32Units w < 2 ^ 23 * 2 ^ (w / 2 ^ 23 % 256) := by
  unfold fp32Units
  generalize w / 2 ^ 23 % 256 = x
  cases x with
  | zero => rw [if_pos rfl]; omega
  | succ x =>
    rw [if_neg (Nat.succ_ne_zero x), Nat.add_sub_cancel, pow_succ' 2 x, ← Nat.mul_assoc (2 ^ 23)]
    exact Nat.mul_lt_mul_of_pos_right (by omega) (Nat.two_pow_pos x)
theorem le_fp32Units {w : Nat} (normal : w / 2 ^ 23 % 256 ≠ 0) : 2 ^ 23 * 2 ^ (w / 2 ^ 23 % 256 - 1) ≤ fp32Units w := by
  rw [fp32Units, if_neg normal]
  exact Nat.mul_le_mul_right _ (Nat.le_add_left ..)

/-- The magnitude rises with the bits below the sign. -/
theorem fp32Units_strictMono {v w : Nat} (h : v % 2 ^ 31 < w % 2 ^ 31) : fp32Units v < fp32Units w := by
  have order : v / 2 ^ 23 % 256 < w / 2 ^ 23 % 256 ∨ v / 2 ^ 23 % 256 = w / 2 ^ 23 % 256 ∧ v % 2 ^ 23 < w % 2 ^ 23 := by omega
  rcases order with exponent | ⟨exponent, fraction⟩
  · calc fp32Units v
      _ < 2 ^ 23 * 2 ^ (v / 2 ^ 23 % 256) := fp32Units_lt v
      _ ≤ 2 ^ 23 * 2 ^ (w / 2 ^ 23 % 256 - 1) := Nat.mul_le_mul_left _ (Nat.pow_le_pow_right (by decide) (by omega))
      _ ≤ fp32Units w := le_fp32Units (by omega)
  · unfold fp32Units
    rw [exponent]
    split
    · exact fraction
    · exact Nat.mul_lt_mul_of_pos_right (by omega) (Nat.two_pow_pos _)
theorem fp32Units_congr {v w : Nat} (h : v % 2 ^ 31 = w % 2 ^ 31) : fp32Units v = fp32Units w := by
  rw [fp32Units, fp32Units, show v / 2 ^ 23 % 256 = w / 2 ^ 23 % 256 by omega, show v % 2 ^ 23 = w % 2 ^ 23 by omega]
theorem fp32Units_lt_iff {v w : Nat} : fp32Units v < fp32Units w ↔ v % 2 ^ 31 < w % 2 ^ 31 := by
  refine ⟨fun h => ?_, fp32Units_strictMono⟩
  by_contra above
  rcases (not_lt.1 above).lt_or_eq with less | same
  · exact absurd h (fp32Units_strictMono less).le.not_gt
  · exact absurd (fp32Units_congr same) h.ne'
theorem fp32Units_pos_iff {w : Nat} : 0 < fp32Units w ↔ 0 < w % 2 ^ 31 := fp32Units_lt_iff (v := 0)

/-- The value of a pattern in those units. -/
def fp32Signed (w : Nat) : Int := if sign w then -(fp32Units w : Int) else fp32Units w

/-- Values and places on the line have one order. -/
theorem fp32Signed_lt_iff {v w : Nat} : fp32Signed v < fp32Signed w ↔ place v < place w := by
  have less := fp32Units_lt_iff (v := v) (w := w)
  have more := fp32Units_lt_iff (v := w) (w := v)
  have posv := fp32Units_pos_iff (w := v)
  have posw := fp32Units_pos_iff (w := w)
  unfold fp32Signed place
  split <;> split <;> omega

/-- The value of a finite pattern by its units. -/
theorem fp32_decode_units {w : Nat} (finite : w / 2 ^ 23 % 256 ≠ 255) :
    ∃ m e, fp32.decode w = .fin (sign w) m e false ∧ fp32.qmin ≤ e ∧ m * 2 ^ (e - fp32.qmin).toNat = fp32Units w := by
  have value := fp32_decode_other finite
  unfold fp32Units
  split at value
  case isTrue zero => exact ⟨_, _, value, le_rfl, by rw [if_pos zero, sub_self, Int.toNat_zero, pow_zero, Nat.mul_one]⟩
  case isFalse normal => exact ⟨_, _, value, by omega, by rw [if_neg normal, add_sub_cancel_left, Int.toNat_natCast]⟩

/-- A significand at a lower exponent, and from there in units. -/
theorem atExp_units (neg : Bool) (m : Nat) {e low q : Int} (h : low ≤ e) (h' : q ≤ low) :
    atExp neg m e low * 2 ^ (low - q).toNat = if neg then -((m * 2 ^ (e - q).toNat : Nat) : Int) else ((m * 2 ^ (e - q).toNat : Nat) : Int) := by
  have split_ : (e - q).toNat = (e - low).toNat + (low - q).toNat := by omega
  rw [split_, pow_add, ← Nat.mul_assoc]
  unfold atExp
  cases neg <;> simp

/-- LT of finite values compares their units. -/
theorem fLt_fin {nv nw : Bool} {mv mw : Nat} {ev ew q : Int} (hv : q ≤ ev) (hw : q ≤ ew) :
    fLt false (.fin nv mv ev false) (.fin nw mw ew false) = true ↔
      (if nv then -((mv * 2 ^ (ev - q).toNat : Nat) : Int) else ((mv * 2 ^ (ev - q).toNat : Nat) : Int)) <
        if nw then -((mw * 2 ^ (ew - q).toNat : Nat) : Int) else ((mw * 2 ^ (ew - q).toNat : Nat) : Int) := by
  have low : q ≤ min ev ew := le_min hv hw
  have unit : (0 : Int) < 2 ^ (min ev ew - q).toNat := pow_pos two_pos _
  rw [← atExp_units nv mv (min_le_left ev ew) low, ← atExp_units nw mw (min_le_right ev ew) low, Int.mul_lt_mul_right unit]
  by_cases zero : mv = 0 ∧ mw = 0
  · simp [fLt, zero, atExp]
  · simp [fLt, zero]

/-- A pattern that is no NaN and whose exponent field is all ones is an infinity. -/
theorem fp32_decode_inf {w : Nat} (ones : w / 2 ^ 23 % 256 = 255) (num : isNan w = false) :
    fp32.decode w = .inf (sign w) ∧ place w = if sign w then -0x7F800000 else 0x7F800000 := by
  have above := of_decide_eq_false num
  refine ⟨(fp32_decode_special ones).trans (if_pos (by omega)), ?_⟩
  rw [place, show w % 2 ^ 31 = 0x7F800000 by omega]
  rfl
/-- A finite pattern stands between them. -/
theorem place_finite {w : Nat} (finite : w / 2 ^ 23 % 256 ≠ 255) (num : isNan w = false) : -0x7F800000 < place w ∧ place w < 0x7F800000 := by
  have above := of_decide_eq_false num
  unfold place
  split <;> omega

/-- LT of patterns that are no NaN compares their places. -/
theorem fLt_place {v w : Nat} (hv : isNan v = false) (hw : isNan w = false) :
    fLt false (fp32.decode v) (fp32.decode w) = true ↔ place v < place w := by
  by_cases ov : v / 2 ^ 23 % 256 = 255 <;> by_cases ow : w / 2 ^ 23 % 256 = 255
  · obtain ⟨dv, pv⟩ := fp32_decode_inf ov hv
    obtain ⟨dw, pw⟩ := fp32_decode_inf ow hw
    rw [dv, dw, pv, pw]
    cases sign v <;> cases sign w <;> decide
  · obtain ⟨dv, pv⟩ := fp32_decode_inf ov hv
    obtain ⟨m, e, dw, -⟩ := fp32_decode_units ow
    obtain ⟨low, high⟩ := place_finite ow hw
    rw [dv, dw, pv]
    change sign v = true ↔ _
    cases sign v <;> simp [low, high.le]
  · obtain ⟨m, e, dv, -⟩ := fp32_decode_units ov
    obtain ⟨dw, pw⟩ := fp32_decode_inf ow hw
    obtain ⟨low, high⟩ := place_finite ov hv
    rw [dv, dw, pw]
    change (!sign w) = true ↔ _
    cases sign w <;> simp [low.le, high]
  · obtain ⟨mv, ev, dv, lv, uv⟩ := fp32_decode_units ov
    obtain ⟨mw, ew, dw, lw, uw⟩ := fp32_decode_units ow
    rw [dv, dw, fLt_fin lv lw, uv, uw]
    exact fp32Signed_lt_iff

/-- The FP32 conditions by the places. -/
theorem scalarFcond_eq (c : Nat) (x y : Word64) : scalarFcond c x y = fpHolds c (pat x) (pat y) := by
  have pats : fpIn x = pat x ∧ fpIn y = pat y := ⟨rfl, rfl⟩
  simp only [scalarFcond, fpCmp, fpHolds, pats, fp32_decode_isNan]
  generalize pat x = v
  generalize pat y = w
  have less {v w : Nat} (hv : isNan v = false) (hw : isNan w = false) : fLt false (fp32.decode v) (fp32.decode w) = decide (place v < place w) := by
    rw [Bool.eq_iff_iff, fLt_place hv hw, decide_eq_true_iff]
  cases hv : isNan v <;> cases hw : isNan w
  case false.false =>
    simp only [fEq, fp32_decode_isNan, hv, hw, less hv hw, less hw hv]
    rcases c with _ | _ | _ | c <;> simp [← decide_not, ← Bool.decide_and, le_antisymm_iff, and_comm]
  all_goals rcases c with _ | _ | _ | c <;> simp [fEq, fp32_decode_isNan, hv, hw]

/-! ### The twelve bits at once (R178) -/

/-- The bits that CSAVE has gathered from the lowest `n` steer registers. -/
theorem gather_testBit (p : Nat → Bool) (n : Nat) :
    (List.range n).foldl (fun acc i => acc + if p i then 2 ^ i else 0) 0 < 2 ^ n ∧
      ∀ j, ((List.range n).foldl (fun acc i => acc + if p i then 2 ^ i else 0) 0).testBit j = (decide (j < n) && p j) := by
  induction n with
  | zero => exact ⟨Nat.one_pos, fun j => by simp⟩
  | succ n ih =>
    obtain ⟨below, bits⟩ := ih
    rw [List.range_succ, List.foldl_append, List.foldl_cons, List.foldl_nil]
    generalize (List.range n).foldl (fun acc i => acc + if p i then 2 ^ i else 0) 0 = low at below bits
    rw [pow_succ]
    refine ⟨by split <;> omega, fun j => ?_⟩
    cases set : p n
    case false =>
      have same : (decide (j < n) && p j) = (decide (j < n + 1) && p j) := by
        rcases eq_or_ne j n with rfl | other
        · rw [set, Bool.and_false, Bool.and_false]
        · rw [decide_eq_decide.2 (show j < n ↔ j < n + 1 by omega)]
      exact (bits j).trans same
    case true =>
      rw [if_pos rfl, Nat.add_comm]
      rcases lt_trichotomy j n with less | rfl | more
      · rw [Nat.testBit_two_pow_add_gt less, bits, decide_eq_true less, decide_eq_true (by omega)]
      · rw [Nat.testBit_two_pow_add_eq, bits, decide_eq_false (lt_irrefl j), decide_eq_true (Nat.lt_succ_self j), set]
        rfl
      · rw [decide_eq_false (by omega), Bool.false_and]
        refine Nat.testBit_lt_two_pow (Nat.lt_of_lt_of_le (by omega) (Nat.pow_le_pow_right two_pos (Nat.succ_le_of_lt more)))

/-- CSAVE's bits are those of the steer registers. -/
theorem condBits_getLsbD (s : State) {j : Nat} (h : j < 64) :
    (BitVec.ofNat 64 (here s).condBits).getLsbD j = (decide (j < 12) && Claims.cond s (BitVec.ofNat 4 j)) := by
  have bits := (gather_testBit (here s).cond 12).2 j
  rw [BitVec.getLsbD_ofNat, decide_eq_true h, Bool.true_and]
  refine bits.trans ?_
  by_cases inside : j < 12
  · have same : (BitVec.ofNat 4 j).toNat = j := Nat.mod_eq_of_lt (by omega)
    rw [Claims.cond, same]
    rfl
  · rw [decide_eq_false inside, Bool.false_and, Bool.false_and]

/-- CLOAD sends the twelve bits of its register. -/
theorem cload_sends {g : BitVec 2} {a : BitVec 5} {s : State} {rs : List (BitVec 5)} (ready : Ready s rs) (sub : [a] ⊆ rs) :
    exec (.cload g a) s = .next (passed s ((List.range 12).foldl
      (fun t j => t.sendResult s.curCore (.cond (BitVec.ofNat 4 j)) (if (opA s a).getLsbD j then 1 else 0) 1) s) 1) := by
  change execCload g a s = _
  rw [execCload, scalarWord_wf _ _ rfl]
  exact congrArg (finishScalar s.curCore) (Ready.guardRegs ready sub _)

/-- Settles O6 (R121, R123, R177, R178): `condWord_decides` at each word with its truth value, `condWord_illegal` at each steer code. -/
theorem conditionWords : Obligations.ConditionWords := by
  unfold Obligations.ConditionWords
  constructor
  · intro g b p q c a r d m i s ready hb hp hq hm
    have none : ([] : List (BitVec 5)) ⊆ [a, r, d] := List.nil_subset _
    have one : [a] ⊆ [a, r, d] := (List.prefix_append [a] [r, d]).subset
    have two : [a, r] ⊆ [a, r, d] := (List.prefix_append [a, r] [d]).subset
    have dest : [d] ⊆ [a, r, d] := (List.suffix_append [a, r] [d]).subset
    have target : ∀ x ∈ [b], x.toNat < 12 := by simpa using hb
    have source : ∀ x ∈ [b, p], x.toNat < 12 := by simpa using ⟨hb, hp⟩
    have sources : ∀ x ∈ [b, p, q], x.toNat < 12 := by simpa using ⟨hb, hp, hq⟩
    have wfInt (hc : c.toNat ≤ 5) : (decide (c.toNat ≤ 5) && decide (m.toNat ≤ 2)) = true := by simp [hc, hm]
    have wfFp (hc : c.toNat ≤ 3) : (decide (c.toNat ≤ 3) && decide (m.toNat ≤ 2)) = true := by simp [hc, hm]
    refine ⟨fun hc => ⟨?cmp, ?cmpi⟩, fun hc => ?fcmp,
      condWord_decides (f := fun k => k.cond p.toNat && k.cond q.toNat) rfl ready none sources rfl,
      condWord_decides (f := fun k => k.cond p.toNat || k.cond q.toNat) rfl ready none sources rfl,
      condWord_decides (f := fun k => k.cond p.toNat != k.cond q.toNat) rfl ready none sources rfl,
      condWord_decides (f := fun k => k.cond p.toNat && !k.cond q.toNat) rfl ready none sources rfl,
      condWord_decides (f := fun k => !k.cond p.toNat) rfl ready none source rfl,
      condWord_decides (f := fun _ => true) rfl ready none target rfl, condWord_decides (f := fun _ => false) rfl ready none target rfl,
      condWord_decides (f := fun k => k.cond p.toNat) rfl ready none source rfl,
      ⟨_, regWord_gives (l := []) (f := fun _ k => (BitVec.ofNat 64 k.condBits, 0)) ready rfl dest rfl, fun j => condBits_getLsbD s j.isLt⟩,
      cload_sends ready one⟩
    case cmp =>
      exact condWord_decides (i := .cmp g b c a r m) (wfInt hc) ready two target
        (f := fun k => combineCond m.toNat (k.cond b.toNat) (scalarCond c.toNat (k.oper 0 a.toNat) (k.oper 1 r.toNat)))
        (by rw [combineCond_eq, scalarCond_eq]; rfl)
    case cmpi =>
      exact condWord_decides (i := .cmpi g b c a m i) (wfInt hc) ready one target
        (f := fun k => combineCond m.toNat (k.cond b.toNat) (scalarCond c.toNat (k.oper 0 a.toNat) (sext64 i)))
        (by rw [combineCond_eq, scalarCond_eq]; rfl)
    case fcmp =>
      exact condWord_decides (i := .fcmp g b c a r m) (wfFp hc) ready two target
        (f := fun k => combineCond m.toNat (k.cond b.toNat) (scalarFcond c.toNat (k.oper 0 a.toNat) (k.oper 1 r.toNat)))
        (by rw [combineCond_eq, scalarFcond_eq]; rfl)
  · intro g b p q c a r o i s hb hc
    have first {l : List (BitVec 4)} : b ∈ b :: l := List.mem_cons_self
    have second {l : List (BitVec 4)} {x : BitVec 4} : b ∈ x :: b :: l := List.mem_cons_of_mem _ List.mem_cons_self
    have third {x y : BitVec 4} : b ∈ [x, y, b] := List.mem_cons_of_mem _ second
    have wfCmp : (Instr.cmp g b c a r 0).wf = true ∧ (Instr.cmpi g b c a 0 i).wf = true ∧ (Instr.fcmp g b c a r 0).wf = true := by
      simp only [Instr.wf, hc, hc.trans (show 3 ≤ 5 by decide), decide_true]
      decide
    obtain ⟨cmp, cmpi, fcmp⟩ := wfCmp
    exact ⟨(condWord_illegal cmp first hb _ _ : execCmp g b c a r 0 s = _), (condWord_illegal cmpi first hb _ _ : execCmpi g b c a 0 i s = _),
      (condWord_illegal fcmp first hb _ _ : execFcmp g b c a r 0 s = _), (condWord_illegal rfl first hb _ _ : execCand g b p q s = _),
      (condWord_illegal rfl second hb _ _ : execCand g p b q s = _), (condWord_illegal rfl third hb _ _ : execCand g p q b s = _),
      (condWord_illegal rfl second hb _ _ : execCnot g p b s = _), (condWord_illegal rfl first hb _ _ : execCtrue g b s = _),
      (prepWord_illegal rfl hb _ _ : execPrep g b o s = _), (prepWord_illegal rfl hb _ _ : execPrepr g b a s = _),
      branchWord_illegal rfl hb .., branchWord_illegal rfl hb .., (branchWord_illegal rfl hb .. : execJmp g b s = _),
      (branchWord_illegal rfl hb .. : execCall g b s = _)⟩

end Sys2Proof.Machine
end

