-- ==== Sys2Proof/Proofs/BranchWords.lean ====
section
/-! SUPPORT. The words that set a target and those that branch to one (R179 to R181, R184): one equation of each kind, with the tests of a branch in their
order; with them O7. -/

namespace Sys2Proof.Machine

open Sys2Proof.Claims

/-! ### Targets (R179) -/

section

variable {i : Instr} (wf : i.wf = true) {b : BitVec 4} (named : b.toNat < 12) {s : State} {rs l : List (BitVec 5)} (ready : Ready s rs) (sub : l ⊆ rs)
  {target : Core → Int} {t : Int} (value : target (here s) = t)
include wf named ready sub value

/-- PREP and PREPR test the range of their target. -/
theorem prepWord_tests : prepWord i b (l.map BitVec.toNat) target s =
    finishScalar s.curCore (if t < 0 ∨ 16383 < t then sOperand s else .ok (s.prepare s.curCore b.toNat t.toNat) 1 none) := by
  rw [prepWord, scalarWord_wf _ _ wf, if_neg (by omega), Ready.guardRegs ready sub, ← value]
  rfl
/-- A target in range is set. -/
theorem prepWord_targets (low : 0 ≤ t) (high : t ≤ 16383) :
    prepWord i b (l.map BitVec.toNat) target s = .next (passed s (targeted s b t.toNat) 1) := by
  rw [prepWord_tests wf named ready sub value, if_neg (by omega)]
  rfl
/-- A target out of range is ILLEGAL_OPERAND. -/
theorem prepWord_outside (out : t < 0 ∨ 16383 < t) : prepWord i b (l.map BitVec.toNat) target s = .next (faults s (code 2)) := by
  rw [prepWord_tests wf named ready sub value, if_pos out]
  rfl

end

/-! ### Branches (R180, R181, R184) -/

/-- The loops that a taken branch leaves, as the statements write them. -/
theorem left_eq (s : State) (t : Nat) : s.modCore s.curCore (fun k => { k with lp := leaveLoops k.lp t }) = left s t := by
  simp only [left, leaveLoops, Bool.and_eq_true, Bool.or_eq_true, decide_eq_true_eq]

section

variable {i : Instr} (wf : i.wf = true) {b : BitVec 4} (named : b.toNat < 12) {s : State} {taken : Bool → Bool} {leaves link : Bool}
include wf named

/-- The tests of a branch in their order, by its steer register. -/
theorem branchWord_tests : branchWord i b taken leaves link s = finishScalar s.curCore
    (if !taken (steer s b).cond then .ok s 1 none
     else if !(steer s b).prepared then sOperand s
     else if s.localCyc s.curCore < (steer s b).readyAt then .block s 5
     else if link && (here s).pendingReg 1 then .block s 6
     else
       let t := if link then s.toReg s.curCore 1 (BitVec.ofNat 64 ((here s).sc.widx + 1)) 1 else s
       .ok (if leaves then t.modCore s.curCore (fun k => { k with lp := leaveLoops k.lp (steer s b).target.toNat }) else t) 1
         (some (steer s b).target.toNat)) := by
  rw [branchWord, scalarWord_wf _ _ wf]
  dsimp only
  rw [if_neg (by omega)]
  rfl

/-- A branch that is not taken goes on. -/
theorem branchWord_untaken (untaken : taken (steer s b).cond = false) : branchWord i b taken leaves link s = .next (passed s s 1) := by
  rw [branchWord_tests wf named, untaken]
  rfl

variable (goes : taken (steer s b).cond = true)
include goes

/-- A target that nothing prepared is ILLEGAL_OPERAND. -/
theorem branchWord_unprepared (unprepared : (steer s b).prepared = false) : branchWord i b taken leaves link s = .next (faults s (code 2)) := by
  rw [branchWord_tests wf named, goes, unprepared]
  rfl

variable (prepared : (steer s b).prepared = true)
include prepared

/-- A target prepared less than 4 cycles ago blocks. -/
theorem branchWord_early (early : s.localCyc s.curCore < (steer s b).readyAt) : branchWord i b taken leaves link s = .next (waits s 5) := by
  rw [branchWord_tests wf named, goes, prepared, if_pos early]
  rfl

variable (due : ¬ s.localCyc s.curCore < (steer s b).readyAt)
include due

/-- BR, BRN and JMP leave the loops that do not hold their target. -/
theorem branchWord_jumps : branchWord i b taken true false s = .next (jumps s (left s (steer s b).target.toNat) (steer s b).target.toNat) := by
  rw [branchWord_tests wf named, goes, prepared, if_neg due, ← left_eq]
  rfl
/-- CALL leaves its return index in s1, and every loop alone. -/
theorem branchWord_calls (free : (here s).pendingReg 1 = false) :
    branchWord i b taken false true s =
      .next (jumps s (s.toReg s.curCore 1 (BitVec.ofNat 64 ((here s).sc.widx + 1)) 1) (steer s b).target.toNat) := by
  rw [branchWord_tests wf named, goes, prepared, if_neg due, free]
  rfl

end

/-! ### The return (R180, R181) -/

/-- RET tests its value, then its readiness, and jumps. -/
theorem execRet_tests (g : BitVec 2) {s : State} (ready : Ready s [1]) : execRet g s = finishScalar s.curCore
    (let r := vget (here s).s 1 {}
     if 16383 < r.val.toNat then sOperand s
     else if r.since != 0 && s.localCyc s.curCore < r.since + 4 then .block s 5
     else .ok s 1 (some r.val.toNat)) := by
  rw [execRet, scalarWord_wf _ _ rfl]
  change finishScalar s.curCore (guardRegs s s.curCore ([(1 : BitVec 5)].map BitVec.toNat) _) = _
  rw [Ready.guardRegs ready (List.Subset.refl _)]
  rfl

/-- Settles O7: PREP and PREPR by the range of their target, a branch by its tests in their order. -/
theorem branchWords : Obligations.BranchWords := by
  unfold Obligations.BranchWords
  refine ⟨fun g b o a s ready named => ?targets, fun g b s named ready => ?branches⟩
  case targets =>
    have all : [a] ⊆ [a] := List.Subset.refl _
    have none_ : ([] : List (BitVec 5)) ⊆ [a] := List.nil_subset _
    intro t
    exact ⟨fun low high => prepWord_targets (i := .prep g b o) rfl named ready none_ (target := fun k => (k.sc.widx : Int) + o.toInt) (t := t) rfl low high,
      fun out => prepWord_outside (i := .prep g b o) rfl named ready none_ (target := fun k => (k.sc.widx : Int) + o.toInt) (t := t) rfl out,
      fun high => prepWord_targets (i := .prepr g b a) rfl named ready all (target := fun k => ((k.oper 0 a.toNat).toNat : Int)) (t := (opA s a).toNat) rfl
        (Int.natCast_nonneg _) (by omega),
      fun out => prepWord_outside (i := .prepr g b a) rfl named ready all (target := fun k => ((k.oper 0 a.toNat).toNat : Int)) (t := (opA s a).toNat) rfl
        (by omega)⟩
  case branches =>
    intro p t early r
    have free : (here s).pendingReg 1 = false := ready 1 List.mem_cons_self
    refine ⟨fun no => ?_, fun yes => ?_, fun prepared due => ⟨fun yes => ?_, fun no => ?_, ?_, ?_⟩, fun prepared early => ⟨?_, ?_, fun yes => ?_, fun no => ?_⟩,
      fun unprepared => ⟨?_, ?_, fun yes => ?_, fun no => ?_⟩, fun low old => ?_, fun low written early => ?_, fun high => ?_⟩
    · exact branchWord_untaken (i := .br g b) rfl named no
    · exact branchWord_untaken (i := .brn g b) rfl named (congrArg not yes)
    · exact branchWord_jumps (i := .br g b) rfl named yes prepared due
    · exact branchWord_jumps (i := .brn g b) rfl named (congrArg not no) prepared due
    · exact branchWord_jumps (i := .jmp g b) (taken := fun _ => true) rfl named rfl prepared due
    · exact branchWord_calls (i := .call g b) (taken := fun _ => true) rfl named rfl prepared due free
    · exact branchWord_early (i := .jmp g b) (taken := fun _ => true) rfl named rfl prepared early
    · exact branchWord_early (i := .call g b) (taken := fun _ => true) rfl named rfl prepared early
    · exact branchWord_early (i := .br g b) rfl named yes prepared early
    · exact branchWord_early (i := .brn g b) rfl named (congrArg not no) prepared early
    · exact branchWord_unprepared (i := .jmp g b) (taken := fun _ => true) rfl named rfl unprepared
    · exact branchWord_unprepared (i := .call g b) (taken := fun _ => true) rfl named rfl unprepared
    · exact branchWord_unprepared (i := .br g b) rfl named yes unprepared
    · exact branchWord_unprepared (i := .brn g b) rfl named (congrArg not no) unprepared
    · have unwritten : (r.since != 0 && decide (s.localCyc s.curCore < r.since + 4)) = false := by
        rw [Bool.and_eq_false_iff, bne_eq_false_iff_eq, decide_eq_false_iff_not]
        omega
      rw [show exec (.ret g) s = execRet g s from rfl, execRet_tests g ready, if_neg (not_lt.2 low), unwritten]
      rfl
    · have blocks : (r.since != 0 && decide (s.localCyc s.curCore < r.since + 4)) = true := by
        rw [Bool.and_eq_true, bne_iff_ne, decide_eq_true_eq]
        exact ⟨written, early⟩
      rw [show exec (.ret g) s = execRet g s from rfl, execRet_tests g ready, if_neg (not_lt.2 low), blocks]
      rfl
    · rw [show exec (.ret g) s = execRet g s from rfl, execRet_tests g ready, if_pos high]
      rfl

end Sys2Proof.Machine
end

