-- ==== Sys2Proof/Proofs/ScalarEnds.lean ====
section
/-! SUPPORT. How the scalar stream goes on after a word (R90, R180, R183, R398): what it leaves of the core and of the rest of the machine. -/

namespace Sys2Proof.Machine

open Sys2Proof.Claims

/-- A core whose scalar word has issued: its stream's next place, the loops that end at the word, and the word gone from its stream. -/
def Core.wordDone (k : Core) (jump : Option Nat) : Core :=
  let k :=
    if k.sc.standsOn then
      match jump with
      | some t => { k with sc := { k.sc with next := t } }
      | none =>
        let r := loopBack k.sc.widx 4 k.lp
        { k with lp := r.1, sc := { k.sc with next := r.2.getD (k.sc.widx + 1) } }
    else k
  { k with sc := k.sc.endWord }

section

variable (k : Core)

/-- Its scalar stream and its loops change alone. -/
theorem Core.wordDone_rest (jump : Option Nat) : k.wordDone jump = { k with sc := (k.wordDone jump).sc, lp := (k.wordDone jump).lp } := by
  unfold Core.wordDone
  split
  · cases jump <;> rfl
  · rfl
/-- The word is gone from its stream, whose next place is another. -/
theorem Core.wordDone_sc (jump : Option Nat) : ∃ n, (k.wordDone jump).sc = { k.sc.endWord with next := n } := by
  unfold Core.wordDone
  split
  · cases jump <;> exact ⟨_, rfl⟩
  · exact ⟨_, rfl⟩
/-- The replay queue loses the entry in issue, if the word is one. -/
theorem Core.wordDone_replay (jump : Option Nat) : (k.wordDone jump).sc.replay = if k.sc.ovr.isSome then k.sc.replay.tail else k.sc.replay := by
  obtain ⟨n, sc⟩ := k.wordDone_sc jump
  rw [sc]
  rfl
/-- At a word that the stream stands on, the loops that end there decide where it goes. -/
theorem Core.wordDone_loops (fresh : k.sc.ovr = none) :
    (k.wordDone none).lp = (loopBack k.sc.widx 4 k.lp).1 ∧ (k.wordDone none).sc.next = (loopBack k.sc.widx 4 k.lp).2.getD (k.sc.widx + 1) := by
  have stands : k.sc.standsOn = true := StreamSt.standsOn_plain fresh
  rw [Core.wordDone, if_pos stands]
  exact ⟨rfl, rfl⟩

end

section

variable (s : State) (c occ : Nat) (jump : Option Nat)

theorem State.scalarDone_eq : s.scalarDone c occ jump = (s.modCore c (·.wordDone jump)).scalarGoOn c occ := rfl
/-- The stream's next issue is put on the agenda, or nothing is done. -/
theorem State.scalarGoOn_cases : s.scalarGoOn c occ = s ∨ ∃ at_, s.scalarGoOn c occ = s.postIssue c .scalar at_ := by
  simp only [State.scalarGoOn]
  split
  · split
    · exact .inr ⟨_, rfl⟩
    · exact .inl rfl
  · exact .inr ⟨_, rfl⟩
theorem State.scalarGoOn_rest : s.scalarGoOn c occ = { s with agenda := (s.scalarGoOn c occ).agenda, seq := (s.scalarGoOn c occ).seq } := by
  rcases s.scalarGoOn_cases c occ with same | ⟨at_, posts⟩
  · rw [same]
  · rw [posts]
    rfl
theorem State.scalarGoOn_cores : (s.scalarGoOn c occ).cores = s.cores := by rw [State.scalarGoOn_rest]
theorem State.scalarGoOn_core (x : Nat) : (s.scalarGoOn c occ).core x = s.core x := congrArg (fun l : Table Core => Table.getD l x {}) (s.scalarGoOn_cores c occ)

@[simp] theorem State.core_scalarDone : (s.scalarDone c occ jump).core c = (s.core c).wordDone jump := by
  rw [State.scalarDone_eq, State.scalarGoOn_core, State.core_modCore]
@[simp] theorem State.core_scalarDone_ne {x : Nat} (other : x ≠ c) : (s.scalarDone c occ jump).core x = s.core x := by
  rw [State.scalarDone_eq, State.scalarGoOn_core, State.core_modCore_ne _ _ _ _ other]
theorem State.scalarDone_rest : s.scalarDone c occ jump =
    { s with cores := (s.scalarDone c occ jump).cores, agenda := (s.scalarDone c occ jump).agenda, seq := (s.scalarDone c occ jump).seq } := by
  rw [State.scalarDone_eq, State.scalarGoOn_rest]
  rfl
/-- What stands on the agenda stays. -/
theorem State.scalarGoOn_keeps {e : Event} (listed : e ∈ s.agenda) : e ∈ (s.scalarGoOn c occ).agenda := by
  rcases s.scalarGoOn_cases c occ with same | ⟨at_, posts⟩
  · rwa [same]
  · rw [posts]
    exact (mem_insertEvent ..).2 (.inr listed)
theorem State.scalarDone_keeps {e : Event} (listed : e ∈ s.agenda) : e ∈ (s.scalarDone c occ jump).agenda :=
  State.scalarGoOn_keeps (s.modCore c (·.wordDone jump)) c occ listed

end

end Sys2Proof.Machine
end

