-- ==== Sys2Proof/Proofs/LoopWords.lean ====
section
/-! SUPPORT. The words of the loop registers (R182, R185) and the way back at the end word of a body (R183); with them O8. -/

namespace Sys2Proof.Machine

open Sys2Proof.Claims

/-! ### Entry (R182, R183) -/

/-- What LOOP and LOOPI leave: a loop register entered from its latches, and the body skipped where there is no trip. -/
def State.loopEntered (s : State) (p trips size : Nat) : State :=
  let k := here s
  let l := vget k.lp p {}
  let i := k.sc.widx
  let first := l.latchFirst.getD (i + 1)
  let last := l.latchLast.getD (i + size)
  if i + size ≤ 16383 ∧ last ≤ 16383 ∧ first ≤ last then
    let l' : LoopReg := { count := trips, first, last, active := trips != 0, entered := nextEntered k.lp }
    let lp := vset k.lp p l'
    if trips = 0 then
      let r := if k.sc.standsOn then loopBack i 4 lp else (lp, none)
      (s.setCore s.curCore { k with lp := r.1 }).scalarDone s.curCore 1 (some (r.2.getD (last + 1)))
    else (s.setCore s.curCore { k with lp }).scalarDone s.curCore 1 none
  else faults s (code 2)

/-- A word with a test, where the statement writes what passes it. -/
theorem finishScalar_test {c : Nat} {bad good : Prop} [Decidable bad] [Decidable good] (test : bad ↔ ¬ good) {x y : SOut} {t u : State}
    (fails : finishScalar c x = .next u) (passes : finishScalar c y = .next t) : finishScalar c (if bad then x else y) = .next (if good then t else u) := by
  by_cases h : good
  · rw [if_neg (not_not.2 h ∘ test.1), if_pos h, passes]
  · rw [if_pos (test.2 h), if_neg h, fails]
theorem enterLoop_finishes (s : State) (p trips size : Nat) :
    finishScalar s.curCore (enterLoop s s.curCore p trips size) = .next (s.loopEntered p trips size) := by
  refine finishScalar_test ?test (x := sOperand s) rfl ?entered
  case test =>
    simp only [here, Bool.or_eq_true, decide_eq_true_eq]
    omega
  case entered =>
    by_cases none_ : trips = 0
    · subst none_
      rfl
    · rw [if_neg none_, if_neg none_]
      rfl

/-- The greatest value of a part that LPRW writes (R185). -/
def LoopReg.partMax (t : BitVec 2) : Nat := if t = 0 then 2 ^ 32 - 1 else 16383

section

variable {s : State} {rs : List (BitVec 5)} (ready : Ready s rs) (g p : BitVec 2)
include ready

/-- LOOP tests the bits of its count. -/
theorem execLoop_tests {c : BitVec 5} (named : c ∈ rs) {len : BitVec 17} (body : len ≠ 0) :
    execLoop g p c len s = if 2 ^ 32 ≤ (opC s c).toNat then .next (faults s (code 2)) else .next (s.loopEntered p.toNat (opC s c).toNat len.toNat) := by
  rw [execLoop, scalarWord_wf _ _ rfl, if_neg body]
  change finishScalar s.curCore (guardRegs s s.curCore ([c].map BitVec.toNat) (if 2 ^ 32 - 1 < (opC s c).toNat then _ else _)) = _
  rw [Ready.guardRegs ready (by simpa using named), ← enterLoop_finishes]
  split
  · rw [if_pos (by omega)]
    rfl
  · rw [if_neg (by omega)]
    rfl

/-- LPRW reads a part. -/
theorem execLprw_reads {r : BitVec 5} (named : r ∈ rs) {t : BitVec 2} (wf : (Instr.lprw g r p t 0).wf = true) :
    execLprw g r p t 0 s = .next (gives s r (BitVec.ofNat 64 ((vget (here s).lp p.toNat {}).part t.toNat)) 0 1) := by
  rw [execLprw, scalarWord_wf _ _ wf]
  change finishScalar s.curCore (guardRegs s s.curCore ([r].map BitVec.toNat) _) = _
  rw [Ready.guardRegs ready (by simpa using named)]
  rfl
/-- It writes one that its field holds. -/
theorem execLprw_writes {r : BitVec 5} (named : r ∈ rs) {t : BitVec 2} (wf : (Instr.lprw g r p t 1).wf = true) :
    execLprw g r p t 1 s =
      let l' := (vget (here s).lp p.toNat {}).setPart t.toNat (regVal s r).toNat
      if LoopReg.partMax t < (regVal s r).toNat then .next (faults s (code 2))
      else .next (passed s (s.setCore s.curCore { here s with lp := vset (here s).lp p.toNat l' }) 1) := by
  rw [execLprw, scalarWord_wf _ _ wf]
  change finishScalar s.curCore (guardRegs s s.curCore ([r].map BitVec.toNat) (if (t = 0 && 2 ^ 32 - 1 < (regVal s r).toNat) || (t != 0 && 16383 < (regVal s r).toNat) then _ else _)) = _
  rw [Ready.guardRegs ready (by simpa using named)]
  have test : ((t = 0 && 2 ^ 32 - 1 < (regVal s r).toNat) || (t != 0 && 16383 < (regVal s r).toNat)) = decide (LoopReg.partMax t < (regVal s r).toNat) := by
    by_cases zero : t = 0
    · subst zero
      simp [LoopReg.partMax]
    · rw [LoopReg.partMax, if_neg zero, bne_iff_ne.2 zero, decide_eq_false zero, Bool.false_and, Bool.false_or, Bool.true_and]
  simp only [test, decide_eq_true_eq]
  split <;> rfl

end

/-- LOOPI of no trips or no body is ILLEGAL_OPERAND. -/
theorem execLoopi_eq (g p : BitVec 2) (n : BitVec 10) (len : BitVec 12) (s : State) :
    execLoopi g p n len s = if n = 0 ∨ len = 0 then .next (faults s (code 2)) else .next (s.loopEntered p.toNat n.toNat len.toNat) := by
  rw [execLoopi, scalarWord_wf _ _ rfl, ← enterLoop_finishes]
  split <;> rfl

/-! ### The way back (R183) -/

section

variable {lps : Vector LoopReg 4} {idx : Nat}

/-- A loop that ends at a word. -/
def LoopReg.endsAt (l : LoopReg) (idx : Nat) : Prop := l.active = true ∧ l.last = idx

theorem LoopReg.not_endsAt {l : LoopReg} {idx : Nat} (no : l.active = false ∨ l.last ≠ idx) : ¬ l.endsAt idx :=
  fun ends => no.elim (fun off => Bool.noConfusion (off.symm.trans ends.1)) (· ends.2)

/-- No loop is picked where none ends. -/
theorem pickLoop_none (no : ∀ q < 4, ¬ (vget lps q {}).endsAt idx) : pickLoop lps idx = none := by
  simp only [LoopReg.endsAt] at no
  simp [pickLoop, List.range_succ, no]
/-- The only one that ends is picked. -/
theorem pickLoop_only {p : Nat} (hp : p < 4) (ends : (vget lps p {}).endsAt idx) (no : ∀ q < 4, q ≠ p → ¬ (vget lps q {}).endsAt idx) :
    pickLoop lps idx = some p := by
  simp only [LoopReg.endsAt] at ends no
  interval_cases p <;> simp [pickLoop, List.range_succ, no, ends]

variable {p : Nat} (hp : p < 4) (ends : (vget lps p {}).endsAt idx) (no : ∀ q < 4, q ≠ p → ¬ (vget lps q {}).endsAt idx) (n : Nat)
include hp ends no

/-- The only loop that ends at a word goes back while trips are left. -/
theorem loopBack_again (more : 1 < (vget lps p {}).count) :
    loopBack idx (n + 1) lps = (vset lps p { vget lps p {} with count := (vget lps p {}).count - 1 }, some (vget lps p {}).first) := by
  simp only [loopBack, pickLoop_only hp ends no, if_pos more]
/-- Otherwise it ends. -/
theorem loopBack_over (last : (vget lps p {}).count ≤ 1) :
    loopBack idx (n + 2) lps = (vset lps p { vget lps p {} with count := 0, active := false }, none) := by
  have ended : ∀ q < 4, ¬ (vget (vset lps p { vget lps p {} with count := 0, active := false }) q {}).endsAt idx := by
    intro q hq
    by_cases other : q = p
    · subst other
      rw [vget_vset_same _ _ _ _ hq]
      exact LoopReg.not_endsAt (.inl rfl)
    · rw [vget_vset_other _ _ _ _ _ other]
      exact no q hq other
  simp only [loopBack, pickLoop_only hp ends no, if_neg (not_lt.2 last), pickLoop_none ended]

end

/-- Settles O8: entry by its three tests, LPRW by its parts, and the way back by the one loop that is picked. -/
theorem loopWords : Obligations.LoopWords := by
  unfold Obligations.LoopWords
  refine ⟨fun g p t c r len n m s ready => ?words, fun g p s => ?back⟩
  case words =>
    intro k l i enter v latched
    have count : c ∈ [c, r] := List.mem_cons_self
    have reg : r ∈ [c, r] := by simp
    refine ⟨fun fits body => ?_, fun wide => ?_, fun trips body => ?_, fun none_ => ?_, ?_, ?_, ?_, ?_, fun fits => ?_, fun fits => ?_, fun fits => ?_,
      fun part wide => ?_⟩
    · exact (execLoop_tests ready g p count body).trans (if_neg (not_le.2 fits))
    · by_cases body : len = 0
      · subst body
        rfl
      · exact (execLoop_tests ready g p count body).trans (if_pos wide)
    · exact (execLoopi_eq g p n m s).trans (if_neg (not_or.2 ⟨trips, body⟩))
    · exact (execLoopi_eq g p n m s).trans (if_pos none_)
    · rfl
    · exact execLprw_reads ready g p reg (t := 0) rfl
    · exact execLprw_reads ready g p reg (t := 1) rfl
    · exact execLprw_reads ready g p reg (t := 2) rfl
    · exact (execLprw_writes ready g p reg (t := 0) rfl).trans (if_neg (not_lt.2 (Nat.le_sub_one_of_lt fits)))
    · exact (execLprw_writes ready g p reg (t := 1) rfl).trans (if_neg (not_lt.2 fits))
    · exact (execLprw_writes ready g p reg (t := 2) rfl).trans (if_neg (not_lt.2 fits))
    · have wf : (Instr.lprw g r p t 1).wf = true := decide_eq_true (by have := t.isLt; bv_omega)
      refine (execLprw_writes ready g p reg wf).trans (if_pos ?_)
      unfold LoopReg.partMax
      split at wide
      case isTrue zero =>
        rw [if_pos zero]
        omega
      case isFalse other => rwa [if_neg other]
  case back =>
    intro k l active last fresh others
    have ends : (vget k.lp p.val {}).endsAt k.sc.widx := ⟨active, last⟩
    have no (q : Nat) (hq : q < 4) (other : q ≠ p.val) : ¬ (vget k.lp q {}).endsAt k.sc.widx :=
      LoopReg.not_endsAt (others ⟨q, hq⟩ fun same => other (congrArg Fin.val same))
    obtain ⟨loops, next⟩ := k.wordDone_loops fresh
    have core : (passed s s 1).core s.curCore = k.wordDone none := State.core_scalarDone ..
    refine ⟨passed s s 1, rfl, ?_⟩
    simp only [core, loopOf, loops, next]
    by_cases more : 1 < (vget k.lp p.val {}).count
    · rw [loopBack_again p.isLt ends no 3 more]
      exact ⟨fun _ => ⟨rfl, vget_vset_same _ _ _ _ p.isLt⟩, fun last => absurd more (not_lt.2 last),
        fun q other => vget_vset_other _ _ _ _ _ (Fin.val_ne_of_ne other)⟩
    · rw [loopBack_over p.isLt ends no 2 (not_lt.1 more)]
      exact ⟨fun again => absurd again more, fun _ => ⟨rfl, vget_vset_same _ _ _ _ p.isLt⟩,
        fun q other => vget_vset_other _ _ _ _ _ (Fin.val_ne_of_ne other)⟩

end Sys2Proof.Machine
end

