-- ==== Sys2Proof/Proofs/ScalarAccesses.lean ====
section
/-! SUPPORT. The memory words of the scalar stream (R186 to R191): addresses and post-increment, the tests of an access, and what one sends or writes; with
them O9, O10 and O11. -/

namespace Sys2Proof.Machine

open Sys2Proof.Claims

/-! ### Operands (R123, R186) -/

/-- A memory operand: its address, and its base's update under post-increment. -/
theorem memAddr_eq (base : Word64) (sz : BitVec 2) (p : BitVec 1) (imm : BitVec 11) :
    memAddr base (sizeOf sz.toNat) p imm = (address base sz p imm, if p = 1 then some (base + offset sz imm) else none) := by
  unfold memAddr address
  split <;> rfl
theorem State.postInc_eq (s t : State) (a : BitVec 5) (sz : BitVec 2) (p : BitVec 1) (imm : BitVec 11) :
    t.postInc s.curCore a (if p = 1 then some (opA s a + offset sz imm) else none) = stepped s t a sz p imm := by
  unfold stepped
  split <;> rfl

/-- The signed value of the low bits of a number is that of the bit vector. -/
theorem signedOf_eq_toInt (v n : Nat) : signedOf v n = (BitVec.ofNat n v).toInt := by
  rw [BitVec.toInt_eq_toNat_cond, BitVec.toNat_ofNat, signedOf]
  have half : v % 2 ^ n < 2 ^ (n - 1) ↔ 2 * (v % 2 ^ n) < 2 ^ n := by
    cases n with
    | zero => simp [Nat.mod_one]
    | succ n =>
      rw [Nat.add_sub_cancel, pow_succ]
      omega
  simp only [half, Nat.cast_pow, Nat.cast_ofNat]
/-- SEXT and ZEXT of bytes. -/
theorem extendBytes_eq (signed : Bool) (bs : List Byte) : extendBytes signed bs = widened signed bs := by
  simp only [extendBytes, widened, signedOf_eq_toInt]
  rfl

/-! ### The tests of an access to A-space (R186) -/

section

variable {s : State} {x : Word64} {n : Nat} (kind : Nat)

theorem aCheck_misaligned (off : x.toNat % n ≠ 0) : aCheck s x n kind = some (.fault s { code := 0x11, va := x, kind }) :=
  if_pos (by simpa using off)

variable (aligned : x.toNat % n = 0)
include aligned

theorem aCheck_outside (out : 393216 < x.toNat + n) : aCheck s x n kind = some (.fault s { code := 0x10, va := x, kind }) := by
  rw [aCheck, if_neg (by simpa using aligned)]
  exact if_pos out
theorem aCheck_inside (inside : x.toNat + n ≤ 393216) : aCheck s x n kind = none := by
  rw [aCheck, if_neg (by simpa using aligned)]
  exact if_neg (not_lt.2 inside)

end

/-- A sound core's port reads its bytes, and corrects nothing. -/
theorem Core.portRead_sound {k : Core} (sound : Claims.Sound k) (sp a n : Nat) :
    k.portRead sp a n = { data := (k.space sp).readBytes a n, poison := false, fixed := false } := by
  obtain ⟨poison, upsets⟩ := sound
  simp [Core.portRead, poison, upsets]
theorem State.afterRead_sound {s : State} {c : Nat} (sound : Claims.Sound (s.core c)) (sp a n cls : Nat) : s.afterRead c sp a n cls = s := by
  simp [State.afterRead, State.afterReadBy, sound.2]

/-! ### Loads and stores of A-space (R186, R187, R320) -/

section

variable {i : Instr} (wf : i.wf = true) {s : State} {rs : List (BitVec 5)} (ready : Ready s rs) {d a : BitVec 5} (sub : [d, a] ⊆ rs)
  {sz : BitVec 2} {p : BitVec 1} {imm : BitVec 11} {signed : Bool}
include wf

/-- A post-increment load into its own base is ILLEGAL_OPERAND. -/
theorem loadA_own : loadA i a a sz 1 imm signed s = .next (faults s (code 2)) := by
  rw [loadA, scalarWord_wf _ _ wf, if_pos ⟨rfl, rfl⟩]
  rfl
theorem loadG_own : loadG i a a sz 1 imm signed s = .next (faults s (code 2)) := by
  rw [loadG, scalarWord_wf _ _ wf, if_pos ⟨rfl, rfl⟩]
  rfl

include ready sub

/-- A load's tests, and what it reads from a core without errors. -/
theorem loadA_tests (apart : ¬ (p = 1 ∧ d = a)) : loadA i d a sz p imm signed s =
    finishScalar s.curCore (match aCheck s (address (opA s a) sz p imm) (bytesOf sz) 0 with
      | some x => x
      | none =>
        let x := (address (opA s a) sz p imm).toNat
        if s.bytesPending s.curCore x (bytesOf sz) then .block s 6
        else
          let r := (here s).portRead 0 x (bytesOf sz)
          let s1 := s.afterRead s.curCore 0 x (bytesOf sz)
          let s2 := if r.poison then s1.lateResult s.curCore (address (opA s a) sz p imm) (.load d (bytesOf sz) signed) (bytesOf sz) r.data 3
            else s1.toReg s.curCore d (extendBytes signed r.data) 3
          .ok (stepped s s2 a sz p imm) 1 none) := by
  rw [loadA, scalarWord_wf _ _ wf, if_neg apart]
  change finishScalar s.curCore (guardRegs s s.curCore ([d, a].map BitVec.toNat) _) = _
  rw [Ready.guardRegs ready sub]
  simp only [memAddr_eq, ← State.postInc_eq s _ a sz p imm]
  rfl


variable (apart : ¬ (p = 1 ∧ d = a))
include apart

/-- A load's faults are those of its tests. -/
theorem loadA_faults {f : FaultRec} (test : aCheck s (address (opA s a) sz p imm) (bytesOf sz) 0 = some (.fault s f)) :
    loadA i d a sz p imm signed s = .next (faults s f) := by
  rw [loadA_tests wf ready sub apart, test]
  rfl

variable (test : aCheck s (address (opA s a) sz p imm) (bytesOf sz) 0 = none)
include test

/-- It waits for a row that waits. -/
theorem loadA_waits (pending : s.bytesPending s.curCore (address (opA s a) sz p imm).toNat (bytesOf sz) = true) :
    loadA i d a sz p imm signed s = .next (waits s 6) := by
  rw [loadA_tests wf ready sub apart, test]
  change finishScalar s.curCore (if _ then _ else _) = _
  rw [if_pos pending]
  rfl
/-- It sends what the bytes hold to its register. -/
theorem loadA_reads (sound : Claims.Sound (here s)) (free : s.bytesPending s.curCore (address (opA s a) sz p imm).toNat (bytesOf sz) = false) :
    loadA i d a sz p imm signed s = .next (passed s (stepped s (s.toReg s.curCore d
      (widened signed ((here s).a.readBytes (address (opA s a) sz p imm).toNat (bytesOf sz))) 3) a sz p imm) 1) := by
  rw [loadA_tests wf ready sub apart, test]
  simp only [free, Bool.false_eq_true, if_false, Core.portRead_sound sound, State.afterRead_sound sound, extendBytes_eq]
  rfl

end

section

variable (g : BitVec 2) {s : State} {rs : List (BitVec 5)} (ready : Ready s rs) {r a : BitVec 5} (sub : [r, a] ⊆ rs)
  {sz : BitVec 2} {p : BitVec 1} {imm : BitVec 11}
include ready sub

/-- A store's tests, and the write of its cycle. -/
theorem execSta_tests : execSta g r a sz p imm s =
    finishScalar s.curCore (match aCheck s (address (opA s a) sz p imm) (bytesOf sz) 1 with
      | some x => x
      | none =>
        let x := (address (opA s a) sz p imm).toNat
        if s.bytesPending s.curCore x (bytesOf sz) then .block s 6
        else .ok (stepped s (s.cycWrite
          { core := s.curCore, space := 0, rank := 0, addr := x, data := leBytes (bytesOf sz) (regVal s r).toNat, sel := [] }) a sz p imm) 1 none) := by
  rw [execSta, scalarWord_wf _ _ rfl]
  change finishScalar s.curCore (guardRegs s s.curCore ([r, a].map BitVec.toNat) _) = _
  rw [Ready.guardRegs ready sub]
  simp only [memAddr_eq, ← State.postInc_eq s _ a sz p imm]
  rfl
theorem execSta_faults {f : FaultRec} (test : aCheck s (address (opA s a) sz p imm) (bytesOf sz) 1 = some (.fault s f)) :
    execSta g r a sz p imm s = .next (faults s f) := by
  rw [execSta_tests g ready sub, test]
  rfl

variable (test : aCheck s (address (opA s a) sz p imm) (bytesOf sz) 1 = none)
include test

theorem execSta_waits (pending : s.bytesPending s.curCore (address (opA s a) sz p imm).toNat (bytesOf sz) = true) :
    execSta g r a sz p imm s = .next (waits s 6) := by
  rw [execSta_tests g ready sub, test]
  change finishScalar s.curCore (if _ then _ else _) = _
  rw [if_pos pending]
  rfl
theorem execSta_writes (free : s.bytesPending s.curCore (address (opA s a) sz p imm).toNat (bytesOf sz) = false) :
    execSta g r a sz p imm s =
      let x := (address (opA s a) sz p imm).toNat
      .next (passed s (stepped s (s.cycWrite
        { core := s.curCore, space := 0, rank := 0, addr := x, data := leBytes (bytesOf sz) (regVal s r).toNat, sel := [] }) a sz p imm) 1) := by
  rw [execSta_tests g ready sub, test]
  simp only [free, Bool.false_eq_true, if_false]
  rfl

end

/-- Settles O9: an access to A-space by its tests in their order. -/
theorem aSpaceAccesses : Obligations.ASpaceAccesses := by
  unfold Obligations.ASpaceAccesses
  refine ⟨fun g d a r sz p i s ready sound => ?inside, fun g d a r sz p i s ready => ?faults⟩
  case inside =>
    intro n x bs aligned inside
    have load : [d, a] ⊆ [d, a, r] := by simp
    have store : [r, a] ⊆ [d, a, r] := by simp
    have passes (kind : Nat) : aCheck s x n kind = none := aCheck_inside kind aligned inside
    exact ⟨fun pending => ⟨execSta_waits g ready store (passes 1) pending, fun apart =>
        ⟨loadA_waits (i := .lda g d a sz p i) rfl ready load apart (passes 0) pending,
          loadA_waits (i := .ldau g d a sz p i) rfl ready load apart (passes 0) pending⟩⟩,
      fun free => ⟨fun apart => ⟨loadA_reads (i := .lda g d a sz p i) rfl ready load apart (passes 0) sound free,
          loadA_reads (i := .ldau g d a sz p i) rfl ready load apart (passes 0) sound free⟩,
        execSta_writes g ready store (passes 1) free⟩⟩
  case faults =>
    intro n x
    have load : [d, a] ⊆ [d, a, r] := by simp
    have store : [r, a] ⊆ [d, a, r] := by simp
    refine ⟨fun post => ?own, fun off => ?misaligned, fun aligned out => ?outside⟩
    case own =>
      subst post
      exact ⟨loadA_own (i := .lda g a a sz 1 i) rfl, loadA_own (i := .ldau g a a sz 1 i) rfl, loadG_own (i := .ldg g a a sz 1 i) rfl,
        loadG_own (i := .ldgu g a a sz 1 i) rfl⟩
    case misaligned =>
      exact ⟨execSta_faults g ready store (aCheck_misaligned 1 off), fun apart =>
        ⟨loadA_faults (i := .lda g d a sz p i) rfl ready load apart (aCheck_misaligned 0 off),
          loadA_faults (i := .ldau g d a sz p i) rfl ready load apart (aCheck_misaligned 0 off)⟩⟩
    case outside =>
      exact ⟨execSta_faults g ready store (aCheck_outside 1 aligned out), fun apart =>
        ⟨loadA_faults (i := .lda g d a sz p i) rfl ready load apart (aCheck_outside 0 aligned out),
          loadA_faults (i := .ldau g d a sz p i) rfl ready load apart (aCheck_outside 0 aligned out)⟩⟩

/-! ### Global accesses (R186, R189, R190) -/

section

variable {w : Host.Outcome State Fault Refusal} {s : State} {n kind : Nat} {x : Word64} {job : GJob} {rd : Option (BitVec 5)} {after : State → State}
  (accesses : w = finishScalar s.curCore (globalAccess s s.curCore x n kind job rd after))
include accesses

/-- A misaligned access is MISALIGNED with its access kind. -/
theorem globalAccess_misaligned (off : x.toNat % n ≠ 0) : w = .next (faults s { code := 0x11, va := x, kind }) := by
  rw [accesses, globalAccess, if_pos (by simpa using off)]
  rfl
/-- An access that is let in is sent to its home. -/
theorem globalAccess_sends (aligned : x.toNat % n = 0) {t : State} {pa : Nat} (admitted : s.letIn s.curCore n kind 1 [x.toNat] = .ok t [pa]) :
    w = .next (passed s (after (t.sendScalar s.curCore x pa n job rd)) 1) := by
  rw [accesses, globalAccess, if_neg (by simpa using aligned), admitted]
  rfl

end

section

variable {i : Instr} (wf : i.wf = true) {s : State} {rs : List (BitVec 5)} (ready : Ready s rs) {d a b : BitVec 5}
include wf ready

/-- A global load is an access of kind 0 for its register. -/
theorem loadG_accesses (sub : [d, a] ⊆ rs) {sz : BitVec 2} {p : BitVec 1} {imm : BitVec 11} {signed : Bool} (apart : ¬ (p = 1 ∧ d = a)) :
    loadG i d a sz p imm signed s = finishScalar s.curCore (globalAccess s s.curCore (address (opA s a) sz p imm) (bytesOf sz) 0
      (.load d (bytesOf sz) signed) (some d) (fun t => stepped s t a sz p imm)) := by
  rw [loadG, scalarWord_wf _ _ wf, if_neg apart]
  change finishScalar s.curCore (guardRegs s s.curCore ([d, a].map BitVec.toNat) _) = _
  rw [Ready.guardRegs ready sub]
  simp only [memAddr_eq, ← State.postInc_eq s _ a sz p imm]
  rfl
/-- An atomic is one of kind 2. -/
theorem amoWord_accesses (sub : [d, a, b] ⊆ rs) (op : Nat) (z : BitVec 1) :
    amoWord i op d a b z s = finishScalar s.curCore (globalAccess s s.curCore (opA s a) (if z = 1 then 8 else 4) 2
      (.amo op (if z = 1 then 8 else 4) (opB s b) d) (some d) id) := by
  rw [amoWord, scalarWord_wf _ _ wf]
  change finishScalar s.curCore (guardRegs s s.curCore ([d, a, b].map BitVec.toNat) _) = _
  rw [Ready.guardRegs ready sub]
  rfl

end

section

variable (g : BitVec 2) {s : State} {rs : List (BitVec 5)} (ready : Ready s rs) {d a b c : BitVec 5}
include ready

/-- A global store is an access of kind 1. -/
theorem execStg_accesses (sub : [b, a] ⊆ rs) (sz : BitVec 2) (p : BitVec 1) (imm : BitVec 11) :
    execStg g b a sz p imm s = finishScalar s.curCore (globalAccess s s.curCore (address (opA s a) sz p imm) (bytesOf sz) 1
      (.store (leBytes (bytesOf sz) (regVal s b).toNat) []) none (fun t => stepped s t a sz p imm)) := by
  rw [execStg, scalarWord_wf _ _ rfl]
  change finishScalar s.curCore (guardRegs s s.curCore ([b, a].map BitVec.toNat) _) = _
  rw [Ready.guardRegs ready sub]
  simp only [memAddr_eq, ← State.postInc_eq s _ a sz p imm]
  rfl
theorem execCas_accesses (sub : [d, a, b, c] ⊆ rs) (z : BitVec 1) :
    execCas g d a b c z s = finishScalar s.curCore (globalAccess s s.curCore (opA s a) (if z = 1 then 8 else 4) 2
      (.cas (if z = 1 then 8 else 4) (opB s b) (opC s c) d) (some d) id) := by
  rw [execCas, scalarWord_wf _ _ rfl]
  change finishScalar s.curCore (guardRegs s s.curCore ([d, a, b, c].map BitVec.toNat) _) = _
  rw [Ready.guardRegs ready sub]
  rfl

end

/-- Settles O10: a scalar access to global memory by its test, and by what it sends where it is let in. -/
theorem globalAccesses : Obligations.GlobalAccesses := by
  unfold Obligations.GlobalAccesses
  intro g d a b c sz z p i s ready n x m y sent
  have load : [d, a] ⊆ [d, a, b, c] := by simp
  have store : [b, a] ⊆ [d, a, b, c] := by simp
  have atomic : [d, a, b] ⊆ [d, a, b, c] := by simp
  have cas : [d, a, b, c] ⊆ [d, a, b, c] := List.Subset.refl _
  refine ⟨fun aligned t pa admitted apart => ?loads, fun aligned t pa admitted => ?stores, fun aligned t pa admitted => ?atomics, fun off => ?misaligned,
    fun off => ?atomicsMisaligned⟩
  case loads =>
    exact ⟨globalAccess_sends (loadG_accesses (i := .ldg g d a sz p i) rfl ready load apart) aligned admitted,
      globalAccess_sends (loadG_accesses (i := .ldgu g d a sz p i) rfl ready load apart) aligned admitted⟩
  case stores => exact globalAccess_sends (execStg_accesses g ready store sz p i) aligned admitted
  case atomics =>
    intro amo
    have sends {w : Instr} (wf : w.wf = true) (op : Nat) : amoWord w op d a b z s = amo op :=
      globalAccess_sends (amoWord_accesses wf ready atomic op z) aligned admitted
    refine ⟨sends (w := .amoadd g d a b z) rfl 0, sends (w := .amomin g d a b z) rfl 1, sends (w := .amomax g d a b z) rfl 2,
      sends (w := .amominu g d a b z) rfl 3, sends (w := .amomaxu g d a b z) rfl 4, sends (w := .amoand g d a b z) rfl 5,
      sends (w := .amoor g d a b z) rfl 6, sends (w := .amoxor g d a b z) rfl 7, sends (w := .amoswap g d a b z) rfl 8, fun word => ?_,
      globalAccess_sends (execCas_accesses g ready cas z) aligned admitted⟩
    subst word
    exact sends (w := .amofadd g d a b) rfl 9
  case misaligned =>
    exact ⟨globalAccess_misaligned (execStg_accesses g ready store sz p i) off,
      fun apart => globalAccess_misaligned (loadG_accesses (i := .ldg g d a sz p i) rfl ready load apart) off⟩
  case atomicsMisaligned =>
    exact ⟨globalAccess_misaligned (amoWord_accesses (i := .amoswap g d a b z) rfl ready atomic 8 z) off,
      globalAccess_misaligned (execCas_accesses g ready cas z) off⟩

/-! ### Stack frames (R191) -/

section

variable (g : BitVec 2) (n : BitVec 16) {s : State} (ready : Ready s [2])
include ready

/-- ENTER and LEAVE test the alignment of s2, then its bound. -/
theorem execEnter_tests : execEnter g n s =
    if (regVal s 2).toNat % 16 ≠ 0 then .next (faults s (at_ 0x11 (regVal s 2)))
    else if (regVal s 2).toInt - 16 * n.toNat < ((here s).sr.slim.toNat : Int) then .next (faults s (at_ 0x14 (regVal s 2)))
    else .next (gives s 2 (regVal s 2 - BitVec.ofNat 64 (16 * n.toNat)) 0 1) := by
  rw [execEnter, scalarWord_wf _ _ rfl]
  change finishScalar s.curCore (guardRegs s s.curCore ([(2 : BitVec 5)].map BitVec.toNat)
    (if (regVal s 2).toNat % 16 != 0 then _ else if (regVal s 2).toInt - 16 * n.toNat < ((here s).sr.slim.toNat : Int) then _ else _)) = _
  rw [Ready.guardRegs ready (List.Subset.refl _)]
  simp only [bne_iff_ne]
  split
  · rfl
  split <;> rfl
theorem execLeave_tests : execLeave g n s =
    if (regVal s 2).toNat % 16 ≠ 0 then .next (faults s (at_ 0x11 (regVal s 2)))
    else if ((here s).sr.sbase.toNat : Int) < (regVal s 2).toInt + 16 * n.toNat then .next (faults s (at_ 0x14 (regVal s 2)))
    else .next (gives s 2 (regVal s 2 + BitVec.ofNat 64 (16 * n.toNat)) 0 1) := by
  rw [execLeave, scalarWord_wf _ _ rfl]
  change finishScalar s.curCore (guardRegs s s.curCore ([(2 : BitVec 5)].map BitVec.toNat)
    (if (regVal s 2).toNat % 16 != 0 then _ else if ((here s).sr.sbase.toNat : Int) < (regVal s 2).toInt + 16 * n.toNat then _ else _)) = _
  rw [Ready.guardRegs ready (List.Subset.refl _)]
  simp only [bne_iff_ne]
  split
  · rfl
  split <;> rfl

end

/-- Settles O11: ENTER and LEAVE by their two tests. -/
theorem stackFrames : Obligations.StackFrames := by
  unfold Obligations.StackFrames
  intro g n s ready sp lo hi
  refine ⟨fun off => ⟨?_, ?_⟩, fun aligned below => ?_, fun aligned fits => ?_, fun aligned above => ?_, fun aligned fits => ?_⟩
  · exact (execEnter_tests g n ready).trans (if_pos off)
  · exact (execLeave_tests g n ready).trans (if_pos off)
  · exact (execEnter_tests g n ready).trans ((if_neg (not_not.2 aligned)).trans (if_pos below))
  · exact (execEnter_tests g n ready).trans ((if_neg (not_not.2 aligned)).trans (if_neg (not_lt.2 fits)))
  · exact (execLeave_tests g n ready).trans ((if_neg (not_not.2 aligned)).trans (if_pos above))
  · exact (execLeave_tests g n ready).trans ((if_neg (not_not.2 aligned)).trans (if_neg (not_lt.2 fits)))

end Sys2Proof.Machine
end

