-- ==== Sys2Proof/Proofs/QueueAndTimeWords.lean ====
section
/-! SUPPORT. Queue words and block pushes (R192, R193), the words that idle (R195, R202) and those of time, the lease and the tags (R194 to R200); with them
O12, O13 and O14. -/

namespace Sys2Proof.Machine

open Sys2Proof.Claims

/-! ### Queue words (R91, R192) -/

section

variable (g : BitVec 2) {s : State} {r : BitVec 5} (ready : Ready s [r])
include ready

/-- QPUSH tests the room of its queue. -/
theorem execQpush_qs2v : execQpush g r 0 s = if used s (here s).qs2v < 8
    then .next (passed s (s.setCore s.curCore { here s with qs2v := pushed s (here s).qs2v (regVal s r) }) 1) else .next (waits s 2) := by
  rw [execQpush, scalarWord_wf _ _ rfl, if_neg (by decide)]
  change finishScalar s.curCore (guardRegs s s.curCore ([r].map BitVec.toNat) (if used s (here s).qs2v < 8 then _ else _)) = _
  rw [Ready.guardRegs ready (List.Subset.refl _)]
  split <;> rfl
theorem execQpush_qs2m : execQpush g r 2 s = if used s (here s).qs2m < 16
    then .next (passed s (s.setCore s.curCore { here s with qs2m := pushed s (here s).qs2m (regVal s r) }) 1) else .next (waits s 2) := by
  rw [execQpush, scalarWord_wf _ _ rfl, if_neg (by decide)]
  change finishScalar s.curCore (guardRegs s s.curCore ([r].map BitVec.toNat) (if used s (here s).qs2m < 16 then _ else _)) = _
  rw [Ready.guardRegs ready (List.Subset.refl _)]
  split <;> rfl

variable {i : Instr} (wf : i.wf = true)
include wf

/-- QPOP and QPEEK wait for an entry of an earlier cycle, and give the head. -/
theorem qreadWord_tests (pop : Bool) : qreadWord i r 1 pop s = finishScalar s.curCore
    (if (here s).qv2s.canPop s.now then
      .ok ((if pop then s.setCore s.curCore { here s with qv2s := (here s).qv2s.pop s.now } else s).toReg s.curCore r ((here s).qv2s.head?.getD 0) 1) 1 none
     else .block s 1) := by
  rw [qreadWord, scalarWord_wf _ _ wf, if_neg (by decide)]
  change finishScalar s.curCore (guardRegs s s.curCore ([r].map BitVec.toNat) _) = _
  rw [Ready.guardRegs ready (List.Subset.refl _)]
  rfl
theorem qreadWord_waits (empty : (here s).qv2s.items = []) (pop : Bool) : qreadWord i r 1 pop s = .next (waits s 1) := by
  rw [qreadWord_tests ready wf, Queue.canPop, empty]
  rfl
theorem qreadWord_head {p : Nat} {x : Word64} {rest : List (Nat × Word64)} (items : (here s).qv2s.items = (p, x) :: rest) (earlier : p < s.now)
    (pop : Bool) : qreadWord i r 1 pop s =
      .next (passed s ((if pop then s.setCore s.curCore { here s with qv2s := (here s).qv2s.pop s.now } else s).toReg s.curCore r x 1) 1) := by
  rw [qreadWord_tests ready wf, if_pos (by simpa [Queue.canPop, items] using earlier), Queue.head?, items]
  rfl

end

/-- A queue code that names no queue of the word is ILLEGAL_OPERAND. -/
theorem execQpush_other (g : BitVec 2) (r : BitVec 5) {q : BitVec 4} (s : State) (h0 : q ≠ 0) (h2 : q ≠ 2) :
    execQpush g r q s = .next (faults s (code 2)) := by
  rw [execQpush, scalarWord_wf _ _ rfl, if_pos ⟨h0, h2⟩]
  rfl
theorem qreadWord_other {i : Instr} (wf : i.wf = true) (r : BitVec 5) {q : BitVec 4} (s : State) (h1 : q ≠ 1) (pop : Bool) :
    qreadWord i r q pop s = .next (faults s (code 2)) := by
  rw [qreadWord, scalarWord_wf _ _ wf, if_pos h1]
  rfl
theorem execQcnt_other (g : BitVec 2) (r : BitVec 5) {q : BitVec 4} (s : State) (h : 3 ≤ q.toNat) : execQcnt g r q s = .next (faults s (code 2)) := by
  rw [execQcnt, scalarWord_wf _ _ rfl, if_pos h]
  rfl
theorem execQcnt_gives (g : BitVec 2) {s : State} {r : BitVec 5} (ready : Ready s [r]) {q : BitVec 4} (named : ¬ 3 ≤ q.toNat) :
    execQcnt g r q s = .next (gives s r (BitVec.ofNat 64 (if q = 0 then (here s).qs2v.count s.now
      else if q = 1 then (here s).qv2s.count s.now else (here s).qs2m.count s.now)) 0 1) := by
  rw [execQcnt, scalarWord_wf _ _ rfl, if_neg named]
  change finishScalar s.curCore (guardRegs s s.curCore ([r].map BitVec.toNat) _) = _
  rw [Ready.guardRegs ready (List.Subset.refl _)]
  rfl

/-! ### Block pushes (R93, R94, R125, R193) -/

/-- An act put on the agenda in some case leaves the cores. -/
theorem State.core_postIf {p : Prop} [Decidable p] (s : State) (at_ phase : Nat) (hold : Option Nat) (act : Act) (c : Nat) :
    (if p then s.post at_ phase hold act else s).core c = s.core c := by
  split <;> rfl

section

variable (s : State) (c : Nat) (e : BlkEntry)

/-- A push leaves its entry in its queue, and the rest of the core. -/
theorem State.pushBlock_vector : (s.pushBlock c .vector e).core c = { s.core c with bqv := (s.core c).bqv.push s.now e } :=
  (State.core_postIf ..).trans (State.core_setCore ..)
theorem State.pushBlock_matrix : (s.pushBlock c .matrix e).core c = { s.core c with bqm := (s.core c).bqm.push s.now e } :=
  (State.core_postIf ..).trans (State.core_setCore ..)

end

/-- The tag of a speculative push is unresolved from then on. -/
def State.tagMarked (s : State) (sp : BitVec 1) (t : BitVec 3) : State :=
  if sp = 1 ∧ t.toNat ∉ (here s).specTags then s.setCore s.curCore { here s with specTags := (here s).specTags ++ [t.toNat] } else s

theorem State.tagMarked_core (s : State) (sp : BitVec 1) (t : BitVec 3) : ∃ tags, (s.tagMarked sp t).core s.curCore = { here s with specTags := tags } ∧
    (sp = 1 → t.toNat ∈ tags) ∧ (∀ x ∈ (here s).specTags, x ∈ tags) ∧ (sp ≠ 1 → tags = (here s).specTags) := by
  unfold State.tagMarked
  split
  case isTrue new => exact ⟨_, State.core_setCore .., by simp, fun x hx => List.mem_append_left _ hx, fun plain => absurd new.1 plain⟩
  case isFalse old => exact ⟨_, rfl, fun spec => not_not.1 fun new => old ⟨spec, new⟩, fun x hx => hx, fun _ => rfl⟩

section

variable (g : BitVec 2) (q sp : BitVec 1) (t : BitVec 3) (n : BitVec 6) (a : BitVec 13) (s : State)

/-- BLK tests its operands, then the room of its queue. -/
theorem execBlk_tests : execBlk g q sp t n a s = finishScalar s.curCore
    (if (q = 1 && 4096 ≤ a.toNat) || (q = 0 && sp == 1) then sOperand s
     else if 16 ≤ (if q = 1 then used s (here s).bqm else used s (here s).bqv) then .block s 2
     else .ok ((s.tagMarked sp t).pushBlock s.curCore (if q = 1 then .matrix else .vector)
       { addr := a.toNat, left := n.toNat + 1, spec := sp == 1, tag := t.toNat, pushed := s.now }) 1 none) := by
  rw [execBlk, scalarWord_wf _ _ rfl]
  rfl
/-- A speculative push to BQV is ILLEGAL_OPERAND, and so is an address of BQM above 4,095. -/
theorem execBlk_spec : execBlk g 0 1 t n a s = .next (faults s (code 2)) := by
  rw [execBlk_tests, if_pos (by simp)]
  rfl
theorem execBlk_high (high : 4096 ≤ a.toNat) : execBlk g 1 sp t n a s = .next (faults s (code 2)) := by
  rw [execBlk_tests, if_pos (by simpa using high)]
  rfl

/-- A push to BQV without a tag. -/
theorem execBlk_vector : execBlk g 0 0 t n a s = if 16 ≤ used s (here s).bqv then .next (waits s 2)
    else .next (passed s (s.pushBlock s.curCore .vector { addr := a.toNat, left := n.toNat + 1, spec := false, tag := t.toNat, pushed := s.now }) 1) := by
  rw [execBlk_tests, if_neg (by simp)]
  change finishScalar s.curCore (if 16 ≤ used s (here s).bqv then _ else _) = _
  split <;> rfl
/-- A push to BQM, with its tag. -/
theorem execBlk_matrix (low : a.toNat ≤ 4095) : execBlk g 1 sp t n a s = if 16 ≤ used s (here s).bqm then .next (waits s 2)
    else .next (passed s ((s.tagMarked sp t).pushBlock s.curCore .matrix
      { addr := a.toNat, left := n.toNat + 1, spec := sp == 1, tag := t.toNat, pushed := s.now }) 1) := by
  rw [execBlk_tests, if_neg (by simp; omega)]
  change finishScalar s.curCore (if 16 ≤ used s (here s).bqm then _ else _) = _
  split <;> rfl

end

/-- Settles O12: the queue words by the room of their queue, and BLK by its operands and its room. -/
theorem queueWords : Obligations.QueueWords := by
  unfold Obligations.QueueWords
  refine ⟨fun g r q s ready => ?queues, fun g sp t n a s => ?blocks⟩
  case queues =>
    intro k v
    refine ⟨fun room => ?_, fun full => ?_, fun room => ?_, fun full => ?_, fun p x rest items earlier => ⟨?_, ?_⟩, fun empty => ⟨?_, ?_⟩, ⟨?_, ?_, ?_⟩,
      fun h0 h2 => execQpush_other g r s h0 h2, fun h1 => ⟨?_, ?_⟩, fun h => execQcnt_other g r s h⟩
    · exact (execQpush_qs2v g ready).trans (if_pos room)
    · exact (execQpush_qs2v g ready).trans (if_neg (not_lt.2 full))
    · exact (execQpush_qs2m g ready).trans (if_pos room)
    · exact (execQpush_qs2m g ready).trans (if_neg (not_lt.2 full))
    · exact qreadWord_head (i := .qpeek g r 1) ready rfl items earlier false
    · refine (qreadWord_head (i := .qpop g r 1) ready rfl items earlier true).trans ?_
      rw [if_pos rfl, Queue.pop, items]
      rfl
    · exact qreadWord_waits (i := .qpop g r 1) ready rfl empty true
    · exact qreadWord_waits (i := .qpeek g r 1) ready rfl empty false
    · exact execQcnt_gives g ready (q := 0) (by decide)
    · exact execQcnt_gives g ready (q := 1) (by decide)
    · exact execQcnt_gives g ready (q := 2) (by decide)
    · exact qreadWord_other (i := .qpop g r q) rfl r s h1 true
    · exact qreadWord_other (i := .qpeek g r q) rfl r s h1 false
  case blocks =>
    intro k e
    refine ⟨fun room => ?vector, fun full => ?_, fun low room => ?matrix, fun low full => ?_, fun high => execBlk_high g sp t n a s high, execBlk_spec g t n a s⟩
    case vector =>
      refine ⟨_, (execBlk_vector g t n a s).trans (if_neg (not_le.2 room)), ?_⟩
      rw [passed, State.core_scalarDone, Core.wordDone_rest, State.pushBlock_vector]
      exact ⟨rfl, rfl⟩
    case matrix =>
      obtain ⟨tags, core, marked, kept, -⟩ := s.tagMarked_core sp t
      have now : (s.tagMarked sp t).now = s.now := by
        unfold State.tagMarked
        split <;> rfl
      refine ⟨_, (execBlk_matrix g sp t n a s low).trans (if_neg (not_le.2 room)), ?_⟩
      rw [passed, State.core_scalarDone, Core.wordDone_rest, State.pushBlock_matrix, core, now]
      exact ⟨rfl, marked, kept⟩
    · exact (execBlk_vector g t n a s).trans (if_pos full)
    · exact (execBlk_matrix g sp t n a s low).trans (if_pos full)

/-- Settles O13: WAIT and NOP have no effect but their cycles. -/
theorem idleWords : Obligations.IdleWords := by
  unfold Obligations.IdleWords
  exact fun g n s => ⟨rfl, rfl, by decide⟩

/-! ### Time, the lease and the tags (R99, R194 to R200) -/

/-- BTSET tests the range of its value. -/
theorem execBtset_tests (g : BitVec 2) {s : State} {a : BitVec 5} {rs : List (BitVec 5)} (ready : Ready s rs) (named : a ∈ rs) :
    execBtset g a s = if 2 ^ 48 ≤ (opA s a).toNat then .next (faults s (code 2)) else .next (passed s (s.cycSet s.curCore (.bt (opA s a).toNat)) 1) := by
  rw [execBtset, scalarWord_wf _ _ rfl]
  change finishScalar s.curCore (guardRegs s s.curCore ([a].map BitVec.toNat) (if 2 ^ 48 ≤ (opA s a).toNat then _ else _)) = _
  rw [Ready.guardRegs ready (by simpa using named)]
  split <;> rfl
/-- TNOW and BNOW give the local cycle and the beat. -/
theorem execTnow_gives (g : BitVec 2) {s : State} {d : BitVec 5} {rs : List (BitVec 5)} (ready : Ready s rs) (named : d ∈ rs) :
    execTnow g d s = .next (gives s d (BitVec.ofNat 64 (s.localCyc s.curCore)) 0 1) := by
  rw [execTnow, scalarWord_wf _ _ rfl]
  change finishScalar s.curCore (guardRegs s s.curCore ([d].map BitVec.toNat) _) = _
  rw [Ready.guardRegs ready (by simpa using named)]
  rfl
theorem execBnow_gives (g : BitVec 2) {s : State} {d : BitVec 5} {rs : List (BitVec 5)} (ready : Ready s rs) (named : d ∈ rs) :
    execBnow g d s = .next (gives s d (BitVec.ofNat 64 (s.coreBeat s.curCore).1) 0 1) := by
  rw [execBnow, scalarWord_wf _ _ rfl]
  change finishScalar s.curCore (guardRegs s s.curCore ([d].map BitVec.toNat) _) = _
  rw [Ready.guardRegs ready (by simpa using named)]
  rfl

/-- A core's request is pending. -/
theorem Quad.requested_iff (q : Quad) (i : Nat) : q.requested i = true ↔ ∃ r ∈ q.reqs, r.1 = i := by simp [Quad.requested]

/-- MLEASE refuses a count of zero and a core that holds the array or waits for it. -/
theorem execMlease_tests (g : BitVec 2) (n : BitVec 8) (s : State) : execMlease g n s =
    let q := s.quad (quadOf s.curCore)
    let i := quadIndex s.curCore
    finishScalar s.curCore (if n = 0 || q.heldBy i || q.requested i then sOperand s
      else .ok ((s.setQuad (quadOf s.curCore) { q with reqs := q.reqs ++ [(i, s.now, n.toNat)] }).post (s.now + 2) 1 none
        (.run .leaseGrant (.nums [quadOf s.curCore]))) 1 none) := by
  rw [execMlease, scalarWord_wf _ _ rfl]
  rfl

/-- An anchor point leaves its stream waiting past the word. -/
theorem State.waitAnchor_core (s : State) (c : Nat) (anchor : Option (Nat × Nat)) : ((s.waitAnchor c anchor).core c).sc.waiting = true ∧
    ((s.waitAnchor c anchor).core c).anchor = anchor ∧ ((s.waitAnchor c anchor).core c).sc.sub = 0 := by
  rw [State.waitAnchor, State.core_scalarDone, State.core_modCore]
  generalize hk : { s.core c with sc := { (s.core c).sc with waiting := true }, anchor := anchor } = k
  obtain ⟨next, sc⟩ := k.wordDone_sc none
  refine ⟨?_, ?_, ?_⟩
  · rw [sc, ← hk]
    rfl
  · rw [Core.wordDone_rest, ← hk]
  · rw [sc]
    rfl

/-- Settles O14: each word by its value or by the event it puts on the agenda. -/
theorem timeAndLeaseWords : Obligations.TimeAndLeaseWords := by
  unfold Obligations.TimeAndLeaseWords
  refine ⟨fun g d a s ready => ?time, fun g n t s => ?lease⟩
  case time =>
    exact ⟨execTnow_gives g ready (by simp), execBnow_gives g ready (by simp), fun fits => (execBtset_tests g ready (by simp)).trans (if_neg (not_le.2 fits)),
      fun wide => (execBtset_tests g ready (by simp)).trans (if_pos wide)⟩
  case lease =>
    intro c q i later
    refine ⟨⟨s.waitAnchor c none, rfl, s.waitAnchor_core c none⟩, fun some_ other free => ?grant, fun bad => ?refuse, rfl, rfl, rfl⟩
    case grant =>
      have passes : ¬ (decide (n = 0) || q.heldBy i || q.requested i) = true := by
        simp only [Bool.or_eq_true, decide_eq_true_eq, Quad.heldBy, beq_iff_eq, Quad.requested_iff]
        rintro ((zero | held) | ⟨r, hr, same⟩)
        exacts [some_ zero, other held, free r hr same]
      exact (execMlease_tests g n s).trans (congrArg (finishScalar s.curCore) (if_neg passes))
    case refuse =>
      have fails : (decide (n = 0) || q.heldBy i || q.requested i) = true := by
        simp only [Bool.or_eq_true, decide_eq_true_eq, Quad.heldBy, beq_iff_eq, Quad.requested_iff]
        tauto
      exact (execMlease_tests g n s).trans (congrArg (finishScalar s.curCore) (if_pos fails))

end Sys2Proof.Machine
end

