-- ==== Sys2Proof/Proofs/ScalarFrame.lean ====
section
/-! SUPPORT. What a word of the scalar stream that computes a register, a condition or a place to go on from leaves alone (R163, R166, R167, R171 to R185), a
fault of it and its freeze among its ends (R386 to R388); with it O53. -/

namespace Sys2Proof.Machine

open Sys2Proof.Claims

/-! ### The frame -/

/-- The stopes that run. -/
def State.running (s : State) : Nat := s.stopes.countP fun p => p.frozen.isNone

/-- An act that such a word may put on the agenda: its stream's next issue or try, a trap window, or a result for a place that `p` names. -/
def Act.ofScalar (c : Nat) (p : SPlace → Prop) (a : Act) : Prop :=
  a = .issue c .scalar ∨ a = .run .stallRelease (.strm c .scalar) ∨ (∃ id, a = .run .trapWindowDelivery (.nums [id])) ∨
    ∃ r, a = .run .scalarResult (.sres r) ∧ r.core = c ∧ p r.place

/-- A core of which a scalar word changes its stream, its loops, its sticky flags and its record. -/
def Core.Touched (k n : Core) : Prop := ∃ sc lp sstat fault, n = { k with sc, lp, sr := { k.sr with sstat }, fault }

/-- What such a word of core `c` changes: that core, the agenda, and by a freeze the stopes and the banks (R388). -/
structure State.Framed (s t : State) (c : Nat) (p : SPlace → Prop) : Prop where
  rest : ∃ cores agenda seq stopes, t = { s with cores, agenda, seq, stopes }
  others : ∀ x, x ≠ c → (s.core x).Withdrawn (t.core x)
  own : ∃ k, (s.core c).Touched k ∧ k.Withdrawn (t.core c)
  queues : ∀ x b, ∃ q, (t.core x).bank b = { (s.core x).bank b with queue := q } ∧ ∀ r ∈ q, r ∈ ((s.core x).bank b).queue
  freezes : t.running < s.running ∨ t.stopes = s.stopes ∧ ∀ x, (t.core x).banks = (s.core x).banks ∧ (t.core x).withheld = (s.core x).withheld
  keeps : ∀ e ∈ s.agenda, e ∈ t.agenda
  posts : ∀ e ∈ t.agenda, e ∈ s.agenda ∨ e.act.ofScalar c p

section

variable {k n m : Core}

theorem Core.Withdrawn.refl (k : Core) : k.Withdrawn k := rfl
theorem Core.Withdrawn.trans (h : k.Withdrawn n) (h' : n.Withdrawn m) : k.Withdrawn m := by
  unfold Core.Withdrawn at *
  rw [h', h]
theorem Core.Touched.refl (k : Core) : k.Touched k := ⟨_, _, _, _, rfl⟩
theorem Core.Touched.trans (h : k.Touched n) (h' : n.Touched m) : k.Touched m := by
  obtain ⟨_, _, _, _, rfl⟩ := h
  obtain ⟨_, _, _, _, rfl⟩ := h'
  exact ⟨_, _, _, _, rfl⟩
/-- A change of the stream and the loops after a withdrawal is one before it. -/
theorem Core.Touched.withdrawn (h : k.Withdrawn n) (h' : n.Touched m) : ∃ x, k.Touched x ∧ x.Withdrawn m := by
  obtain ⟨sc, lp, sstat, fault, rfl⟩ := h'
  rw [Core.Withdrawn] at h
  refine ⟨_, ⟨sc, lp, sstat, fault, rfl⟩, ?_⟩
  rw [Core.Withdrawn, h]

end

section

variable {s t u : State} {c : Nat} {p : SPlace → Prop}

theorem State.Framed.refl (s : State) (c : Nat) (p : SPlace → Prop) : s.Framed s c p where
  rest := ⟨_, _, _, _, rfl⟩
  others _ _ := .refl _
  own := ⟨_, .refl _, .refl _⟩
  queues _ _ := ⟨_, rfl, fun _ hr => hr⟩
  freezes := .inr ⟨rfl, fun _ => ⟨rfl, rfl⟩⟩
  keeps _ he := he
  posts _ he := .inl he
theorem State.Framed.trans (h : s.Framed t c p) (h' : t.Framed u c p) : s.Framed u c p where
  rest := by
    obtain ⟨_, _, _, _, rfl⟩ := h.rest
    obtain ⟨_, _, _, _, rfl⟩ := h'.rest
    exact ⟨_, _, _, _, rfl⟩
  others x other := (h.others x other).trans (h'.others x other)
  own := by
    obtain ⟨k, touched, withdrawn⟩ := h.own
    obtain ⟨n, touched', withdrawn'⟩ := h'.own
    obtain ⟨x, before, after⟩ := Core.Touched.withdrawn withdrawn touched'
    exact ⟨x, touched.trans before, after.trans withdrawn'⟩
  queues x b := by
    obtain ⟨q, bank, old⟩ := h.queues x b
    obtain ⟨q', bank', old'⟩ := h'.queues x b
    refine ⟨q', by rw [bank', bank], fun r hr => old r ?_⟩
    have inner := old' r hr
    rwa [bank] at inner
  freezes := by
    rcases h.freezes with less | ⟨stopes, banks⟩ <;> rcases h'.freezes with less' | ⟨stopes', banks'⟩
    · exact .inl (less'.trans less)
    · exact .inl (by rwa [State.running, stopes'])
    · exact .inl (by rwa [State.running, State.running, stopes] at less')
    · exact .inr ⟨stopes'.trans stopes, fun x => ⟨(banks' x).1.trans (banks x).1, (banks' x).2.trans (banks x).2⟩⟩
  keeps e he := h'.keeps e (h.keeps e he)
  posts e he := (h'.posts e he).elim (h.posts e) .inr

/-- The frame as the statements write it. -/
theorem State.Framed.scalarOnly (h : s.Framed t s.curCore p) : scalarOnly s t p := by
  obtain ⟨k, ⟨sc, lp, sstat, fault, rfl⟩, own⟩ := h.own
  refine ⟨?rest, ⟨h.others, ?queues, ?frozen⟩, ?own, h.keeps, h.posts⟩
  case rest =>
    obtain ⟨_, _, _, _, rfl⟩ := h.rest
    rfl
  case queues =>
    intro x b
    obtain ⟨q, bank, old⟩ := h.queues x b
    rw [bank]
    exact ⟨rfl, old⟩
  case frozen =>
    intro same
    rcases h.freezes with less | ⟨-, banks⟩
    · rw [State.running, State.running, same] at less
      exact absurd less (lt_irrefl _)
    · exact banks
  case own =>
    rw [Core.Withdrawn] at own
    rw [own]

/-! ### The steps of a scalar word -/

/-- Its core's stream, loops, flags and record. -/
theorem State.Framed.modCore (s : State) (c : Nat) (p : SPlace → Prop) {f : Core → Core} (touches : (s.core c).Touched (f (s.core c))) :
    s.Framed (s.modCore c f) c p := by
  have core (x : Nat) : (s.core x).Touched ((s.modCore c f).core x) ∧ (x ≠ c → (s.modCore c f).core x = s.core x) := by
    by_cases other : x = c
    · subst other
      rw [State.core_modCore]
      exact ⟨touches, fun no => absurd rfl no⟩
    · rw [State.core_modCore_ne _ _ _ _ other]
      exact ⟨.refl _, fun _ => rfl⟩
  have kept (x : Nat) : ((s.modCore c f).core x).banks = (s.core x).banks ∧ ((s.modCore c f).core x).withheld = (s.core x).withheld := by
    obtain ⟨_, _, _, _, same⟩ := (core x).1
    rw [same]
    exact ⟨rfl, rfl⟩
  refine ⟨⟨_, _, _, _, rfl⟩, fun x other => ?_, ⟨_, (core c).1, .refl _⟩, fun x b => ⟨((s.core x).bank b).queue, ?_, fun r hr => hr⟩, .inr ⟨rfl, kept⟩,
    fun e he => he, fun e he => .inl he⟩
  · rw [(core x).2 other]
    exact .refl _
  · exact congrArg (vget · b {}) (kept x).1
/-- An act of its own. -/
theorem State.Framed.post (s : State) {c : Nat} {p : SPlace → Prop} (at_ phase : Nat) (hold : Option Nat) {act : Act} (own : act.ofScalar c p) :
    s.Framed (s.post at_ phase hold act) c p where
  rest := ⟨_, _, _, _, rfl⟩
  others _ _ := .refl _
  own := ⟨_, .refl _, .refl _⟩
  queues _ _ := ⟨_, rfl, fun _ hr => hr⟩
  freezes := .inr ⟨rfl, fun _ => ⟨rfl, rfl⟩⟩
  keeps _ he := (mem_insertEvent ..).2 (.inr he)
  posts _ he := ((mem_insertEvent ..).1 he).elim (fun same => .inr (same ▸ own)) .inl

end

/-! ### A freeze (R387, R388) -/

theorem countP_map_lt {α : Type} {p : α → Bool} {f : α → α} (down : ∀ a, p (f a) = true → p a = true) {a : α} {l : List α} (ha : a ∈ l)
    (pa : p a = true) (fa : p (f a) = false) : (l.map f).countP p < l.countP p := by
  obtain ⟨l1, l2, rfl⟩ := List.append_of_mem ha
  have le (l : List α) : l.countP (p ∘ f) ≤ l.countP p := List.countP_mono_left fun a _ h => down a h
  have := le l1
  have := le l2
  simp only [List.countP_map, List.countP_append, List.countP_cons, Function.comp, pa, fa, if_true, Bool.false_eq_true, if_false] at *
  omega

theorem vget_map {α β : Type} {n : Nat} {f : α → β} (v : Vector α n) (i : Nat) (d : α) : vget (v.map f) i (f d) = f (vget v i d) := by
  simp only [vget, Vector.getElem?_map, Option.getD_map]
/-- Of a bank a freeze withdraws requests alone. -/
theorem State.withhold_queues (s : State) (t : Stope) (x b : Nat) :
    ∃ q, ((s.withhold t).core x).bank b = { (s.core x).bank b with queue := q } ∧ ∀ r ∈ q, r ∈ ((s.core x).bank b).queue := by
  simp only [State.withhold]
  split
  · exact ⟨_, rfl, fun _ hr => hr⟩
  · refine Table.getD_map (fun k n : Core => ∃ q, n.bank b = { k.bank b with queue := q } ∧ ∀ r ∈ q, r ∈ (k.bank b).queue) s.cores _ {}
      ⟨_, rfl, fun _ hr => hr⟩ (fun e _ => ?_) x
    exact ⟨_, vget_map e.2.banks b {}, fun r hr => List.mem_of_mem_filter hr⟩

/-- It changes the cores alone. -/
theorem State.withhold_rest (s : State) (t : Stope) : ∃ cores, s.withhold t = { s with cores } := by
  simp only [State.withhold]
  split <;> exact ⟨_, rfl⟩

/-- A stope of a core that runs. -/
theorem State.stopeOf_mem {s : State} {c : Nat} {p : Stope} (found : s.stopeOf c = some p) : p ∈ s.stopes := by
  unfold State.stopeOf at found
  split at found
  · exact List.mem_of_find?_eq_some found
  · exact absurd found (Option.some_ne_none _).symm

/-- The stope as its freeze leaves it. -/
def State.stopped (s : State) (p : Stope) : Stope := { p with frozen := some s.now, fbeat := s.beat, foff := s.now - s.beatAt }

theorem State.freeze_running {s : State} {c : Nat} {p : Stope} (found : s.stopeOf c = some p) (runs : p.frozen = none) :
    s.freeze c = ((s.modStope p.id fun _ => s.stopped p).withhold (s.stopped p)).post s.now 3 none (.run .trapWindowDelivery (.nums [p.id])) := by
  simp only [State.freeze, found, runs, State.stopStope, Option.isSome_none, Bool.false_eq_true, if_false]
  rfl
theorem State.freeze_still {s : State} {c : Nat} (still : ∀ p, s.stopeOf c = some p → p.frozen ≠ none) : s.freeze c = s := by
  unfold State.freeze
  split
  case h_1 p found => rw [if_pos (Option.isSome_iff_ne_none.2 (still p found))]
  case h_2 => rfl

theorem State.Framed.freeze (s : State) (c : Nat) (p : SPlace → Prop) : s.Framed (s.freeze c) c p := by
  by_cases runs : ∃ t, s.stopeOf c = some t ∧ t.frozen = none
  case neg =>
    rw [State.freeze_still fun t found frozen => runs ⟨t, found, frozen⟩]
    exact .refl ..
  case pos =>
    obtain ⟨t, found, none_⟩ := runs
    rw [State.freeze_running found none_]
    refine .trans ?_ (.post _ _ _ _ (.inr (.inr (.inl ⟨_, rfl⟩))))
    have core (x : Nat) : (s.core x).Withdrawn (((s.modStope t.id fun _ => s.stopped t).withhold (s.stopped t)).core x) :=
      State.withhold_core (s.modStope t.id fun _ => s.stopped t) (s.stopped t) x
    obtain ⟨cores, withheld⟩ := State.withhold_rest (s.modStope t.id fun _ => s.stopped t) (s.stopped t)
    refine ⟨⟨_, _, _, _, withheld⟩, fun x _ => core x, ⟨_, .refl _, core c⟩, fun x b => ?_, .inl ?_, ?_, ?_⟩
    · exact State.withhold_queues (s.modStope t.id fun _ => s.stopped t) (s.stopped t) x b
    · rw [withheld]
      refine countP_map_lt (fun a => ?_) (State.stopeOf_mem found) (by rw [none_]; rfl) ?_
      · split
        · exact fun no => absurd no Bool.false_ne_true
        · exact id
      · rw [if_pos rfl]
        rfl
    · rw [withheld]
      exact fun e he => he
    · rw [withheld]
      exact fun e he => .inl he

/-! ### How a scalar word ends (R90, R96, R97, R386) -/

/-- A fault that is no missed promise: its record and its entry, and the freeze. -/
theorem State.raise_plain (s : State) (c : Nat) {f : FaultRec} (plain : ¬ (f.code = 4 ∧ f.sub = 8)) (strm : Strm) (r : Replay) :
    s.raise c f (some (strm, r)) = (s.modCore c fun k => k.faulted f (s.localCyc c) strm r).freeze c := by
  have no : (decide (f.code = 4) && f.sub == 8) = false := by simpa using plain
  simp only [State.raise, no, Bool.false_eq_true, if_false]
  rfl
theorem Core.faulted_touched (k : Core) (f : FaultRec) (lcyc : Nat) (r : Replay) : k.Touched (k.faulted f lcyc .scalar r) := by
  have recorded : k.Touched (k.record { f with lcyc }) := by
    unfold Core.record
    split <;> exact ⟨_, _, _, _, rfl⟩
  refine recorded.trans ?_
  unfold Core.faulted Core.enqueue
  dsimp only
  split <;> exact ⟨_, _, _, _, rfl⟩

section

variable {s t u : State} {c : Nat} {p : SPlace → Prop}

theorem State.Framed.modScalar (s : State) (c : Nat) (p : SPlace → Prop) (f : StreamSt → StreamSt) : s.Framed (s.modStrm c .scalar f) c p :=
  .modCore s c p ⟨_, _, _, _, rfl⟩
theorem State.Framed.raise (s : State) (c : Nat) (p : SPlace → Prop) {f : FaultRec} (plain : ¬ (f.code = 4 ∧ f.sub = 8)) (r : Replay) :
    s.Framed (s.raise c f (some (.scalar, r))) c p := by
  rw [State.raise_plain s c plain]
  exact .trans (.modCore s c p (Core.faulted_touched ..)) (.freeze ..)
theorem State.Framed.raiseIn (s : State) (c : Nat) (p : SPlace → Prop) {f : FaultRec} (plain : ¬ (f.code = 4 ∧ f.sub = 8)) (e : Replay) :
    s.Framed (s.raiseIn c f .scalar e) c p := by
  have raised (g : StreamSt → StreamSt) : s.Framed ((s.modStrm c .scalar g).raise c f (some (.scalar, e))) c p :=
    .trans (.modScalar s c p g) (.raise _ c p plain e)
  simp only [State.raiseIn]
  split
  · exact (raised _).trans (.modScalar ..)
  · exact raised _
theorem State.Framed.stall (s : State) (c : Nat) (p : SPlace → Prop) : s.Framed (s.stall c .scalar) c p :=
  .trans (.modScalar s c p _) (.post _ _ _ _ (.inr (.inl rfl)))
theorem State.Framed.blocked (s : State) (c : Nat) (p : SPlace → Prop) {sub : Nat} (plain : sub ≠ 8) (e : Replay) :
    s.Framed (s.blocked c .scalar sub e) c p := by
  unfold State.blocked
  split
  · exact .stall s c p
  · exact .raiseIn s c p (fun late => plain late.2) e
theorem State.Framed.scalarDone (s : State) (c : Nat) (p : SPlace → Prop) (occ : Nat) (jump : Option Nat) : s.Framed (s.scalarDone c occ jump) c p := by
  have done : s.Framed (s.modCore c (·.wordDone jump)) c p := .modCore s c p ⟨_, _, _, _, Core.wordDone_rest ..⟩
  rw [State.scalarDone_eq]
  rcases (s.modCore c (·.wordDone jump)).scalarGoOn_cases c occ with same | ⟨at_, posts⟩
  · rwa [same]
  · rw [posts]
    exact done.trans (.post _ _ _ _ (.inl rfl))
theorem State.Framed.sendResult (s : State) (c : Nat) {p : SPlace → Prop} {place : SPlace} (own : p place) (v : Word64) (lat : Nat) :
    s.Framed (s.sendResult c place v lat) c p := by
  simp only [State.sendResult]
  split
  · exact .refl ..
  · exact .post _ _ _ _ (.inr (.inr (.inr ⟨_, rfl, rfl, own⟩)))
theorem State.Framed.toReg (s : State) (c : Nat) (d : BitVec 5) (v : Word64) (lat : Nat) : s.Framed (s.toReg c d v lat) c (fun p => p = .reg d) :=
  .sendResult (p := fun p => p = .reg d) s c rfl v lat
theorem State.Framed.orSstat (s : State) (c : Nat) (p : SPlace → Prop) (flags : Nat) : s.Framed (s.orSstat c flags) c p := by
  unfold State.orSstat
  split
  · exact .refl ..
  · exact .modCore s c p ⟨_, _, _, _, rfl⟩

/-- An outcome of a scalar word that keeps to the frame, and is no missed promise. -/
def SOut.Framed (o : SOut) (s : State) (c : Nat) (p : SPlace → Prop) : Prop :=
  match o with
  | .ok u _ _ => s.Framed u c p
  | .fault u f => s.Framed u c p ∧ ¬ (f.code = 4 ∧ f.sub = 8)
  | .block u sub => s.Framed u c p ∧ sub ≠ 8
  | .wait u => s.Framed u c p

theorem SOut.Framed.finishes {o : SOut} (h : o.Framed s s.curCore p) (ends : finishScalar s.curCore o = .next t) : scalarOnly s t p := by
  refine State.Framed.scalarOnly ?_
  cases o <;> obtain rfl := Host.Outcome.next.inj ends
  case ok u occ jump => exact State.Framed.trans h (.scalarDone ..)
  case fault u f => exact h.1.trans (.raiseIn _ _ _ h.2 _)
  case block u sub => exact h.1.trans (.blocked _ _ _ h.2 _)
  case wait u => exact h

theorem SOut.Framed.ok (h : s.Framed u c p) (occ : Nat) (jump : Option Nat) : (SOut.ok u occ jump).Framed s c p := h
theorem SOut.Framed.operand (s : State) (c : Nat) (p : SPlace → Prop) : (sOperand s).Framed s c p := ⟨.refl .., fun late => absurd late.1 (by decide)⟩
theorem SOut.Framed.guardRegs {o : SOut} (h : o.Framed s c p) (regs : List Nat) : (guardRegs s c regs o).Framed s c p := by
  unfold Machine.guardRegs
  split
  · exact ⟨.refl .., by decide⟩
  · exact h

/-- A scalar word keeps to the frame where its own effect does. -/
theorem scalarWord_frame {i : Instr} {f : State → Nat → SOut} (h : (f s s.curCore).Framed s s.curCore p) (ends : scalarWord i s f = .next t) :
    scalarOnly s t p := by
  refine SOut.Framed.finishes (o := if i.wf then f s s.curCore else sIllegal s) ?_ ends
  split
  · exact h
  · exact ⟨.refl .., fun late => absurd late.1 (by decide)⟩

/-! ### The words (R167, R177 to R185) -/

theorem regWord_frame {i : Instr} {d : BitVec 5} {reads : List Nat} {lat : Nat} {f : State → Core → Word64 × Nat}
    (ends : regWord i d reads lat f s = .next t) : scalarOnly s t (fun p => p = .reg d) := by
  refine scalarWord_frame (.guardRegs (.ok ?_ _ _) _) ends
  exact .trans (.orSstat ..) (.toReg ..)
theorem binWord_frame {i : Instr} {d a b : BitVec 5} {lat : Nat} {f : Word64 → Word64 → Word64 × Nat} (ends : binWord i d a b lat f s = .next t) :
    scalarOnly s t (fun p => p = .reg d) := regWord_frame ends
theorem unWord_frame {i : Instr} {d a : BitVec 5} {lat : Nat} {f : Word64 → Word64 × Nat} (ends : unWord i d a lat f s = .next t) :
    scalarOnly s t (fun p => p = .reg d) := regWord_frame ends
theorem fbin_frame {i : Instr} {d a b : BitVec 5} {lat : Nat} {f : Nat → Nat → Nat × Nat} (ends : fbin i d a b lat f s = .next t) :
    scalarOnly s t (fun p => p = .reg d) := binWord_frame ends
theorem fmaWord_frame {i : Instr} {d a b c : BitVec 5} {sub neg : Bool} (ends : fmaWord i d a b c sub neg s = .next t) :
    scalarOnly s t (fun p => p = .reg d) := regWord_frame ends
theorem condWord_frame {i : Instr} {b : BitVec 4} {srcs : List (BitVec 4)} {reads : List Nat} {f : Core → Bool}
    (ends : condWord i b srcs reads f s = .next t) : scalarOnly s t (fun p => p = .cond b) := by
  refine scalarWord_frame ?_ ends
  split
  · exact .operand ..
  · exact .guardRegs (.ok (.sendResult (p := fun p => p = .cond b) _ _ rfl _ _) _ _) _
theorem branchWord_frame {i : Instr} {b : BitVec 4} {taken : Bool → Bool} {leaves link : Bool} (ends : branchWord i b taken leaves link s = .next t) :
    scalarOnly s t (fun p => p = .reg 1) := by
  refine scalarWord_frame ?_ ends
  dsimp only
  split
  · exact .operand ..
  split
  · exact .ok (.refl ..) _ _
  split
  · exact .operand ..
  split
  · exact ⟨.refl .., by decide⟩
  split
  · exact ⟨.refl .., by decide⟩
  have linked : s.Framed (if link then s.toReg s.curCore 1 (BitVec.ofNat 64 ((s.core s.curCore).sc.widx + 1)) 1 else s) s.curCore (fun p => p = .reg 1) := by
    split
    · exact .toReg ..
    · exact .refl ..
  refine .ok ?_ _ _
  split
  · exact linked.trans (.modCore _ _ _ ⟨_, _, _, _, rfl⟩)
  · exact linked
theorem execRet_frame {g : BitVec 2} (ends : execRet g s = .next t) : scalarOnly s t (fun p => p = .reg 1) := by
  refine scalarWord_frame ?_ ends
  refine .guardRegs ?_ _
  dsimp only
  split
  · exact .operand ..
  split
  · exact ⟨.refl .., by decide⟩
  · exact .ok (.refl ..) _ _

end

/-- Settles O53: every word keeps to the frame by the one form it has. -/
theorem scalarFrame : Obligations.ScalarFrame := by
  unfold Obligations.ScalarFrame
  intro g d a b c f x y m i n u j s t
  refine ⟨?registers, ?conditions, ?places⟩
  case registers =>
    simp only [List.forall_mem_cons, List.not_mem_nil, false_implies, implies_true, and_true]
    simp only [exec, execAnd, execOr, execXor, execAndn, execAddi, execAndi, execOri, execXori, execSlli, execSrli, execSrai, execFsqrt, execFclass]
    and_intros
    iterate 19 · exact binWord_frame
    iterate 3 · exact unWord_frame
    iterate 3 · exact binWord_frame
    iterate 7 · exact unWord_frame
    · exact regWord_frame (f := fun _ _ => (sext64 u <<< 13, 0))
    · exact regWord_frame (f := fun _ k => (BitVec.ofNat 64 k.sc.widx + sext64 u, 0))
    iterate 4 · exact fbin_frame
    · exact unWord_frame
    iterate 5 · exact fbin_frame
    iterate 5 · exact unWord_frame
    iterate 4 · exact fmaWord_frame
    · exact regWord_frame (f := fun _ k => (BitVec.ofNat 64 k.condBits, 0))
    · exact regWord_frame (i := .bkst g d a) (reads := []) (f := fun s k => ((k.bank a.toNat).seen s.now, 0))
  case conditions =>
    simp only [List.forall_mem_cons, List.not_mem_nil, false_implies, implies_true, and_true]
    simp only [exec, execCmp, execCmpi, execFcmp, execCand, execCor, execCxor, execCandn, execCnot, execCtrue, execCfalse, execCmove]
    and_intros
    all_goals exact condWord_frame
  case places =>
    simp only [List.forall_mem_cons, List.not_mem_nil, false_implies, implies_true, and_true]
    simp only [exec, execJmp, execCall, execNop]
    exact ⟨branchWord_frame (i := .br g f), branchWord_frame (i := .brn g f), branchWord_frame, branchWord_frame, execRet_frame,
      scalarWord_frame (.ok (.refl ..) _ _)⟩

end Sys2Proof.Machine
end

