-- ==== Sys2Proof/Proofs/TrapAndHaltWords.lean ====
section
/-! SUPPORT. A first fault of a running stope (R386, R387, R394, R396), and the end of a core's part by HALT (R204); with them O15. -/

namespace Sys2Proof.Machine

open Sys2Proof.Claims

/-! ### A first fault (R387, R394, R396) -/

/-- A first fault stands in the record in full. -/
theorem Core.record_first {k : Core} (first : k.fault = none) (f : FaultRec) (lcyc : Nat) :
    k.record { f with lcyc } = { k with fault := some { f with lcyc, count := 1, noresume := f.final } } := by
  unfold Core.record
  rw [first]
  rfl
/-- The first fault of a core stands in its record in full, and its replay entry at the end of the queue. -/
theorem Core.faulted_first {k : Core} (first : k.fault = none) (room : k.sc.replay.length < 8) (f : FaultRec) (lcyc : Nat) (r : Replay) :
    k.faulted f lcyc .scalar r = { k with
      fault := some { f with lcyc, count := 1, noresume := f.final },
      sc := { k.sc with replay := k.sc.replay ++ [{ r with code := f.code, sub := f.sub, va := f.va, kind := f.kind }] } } := by
  rw [Core.faulted, Core.record_first first]
  exact if_pos room

/-- A stope found by its number is found when it has changed under it. -/
theorem find?_modStope {l : List Stope} {p q : Stope} {n : Nat} (same : q.id = p.id) (found : l.find? (fun t => t.id == n) = some p) :
    (l.map fun t => if t.id = p.id then q else t).find? (fun t => t.id == n) = some q := by
  have keeps : (fun t : Stope => t.id == n) ∘ (fun t => if t.id = p.id then q else t) = fun t => t.id == n := by
    funext t
    simp only [Function.comp]
    split
    case isTrue hit => rw [same, hit]
    case isFalse => rfl
  rw [List.find?_map, keeps, found]
  exact congrArg some (if_pos rfl)

section

variable {s : State} {c : Nat} {p : Stope} (found : s.stopeOf c = some p) (runs : p.frozen = none)
include found runs

/-- From its freeze on the stope stands at this cycle. -/
theorem State.frozenAt_freeze : (s.freeze c).frozenAt c = some s.now := by
  have core := s.freeze_core c c
  have bound : ((s.freeze c).core c).bound = (s.core c).bound := by rw [core]
  have stopes : (s.freeze c).stopes = s.stopes.map fun t => if t.id = p.id then s.stopped p else t := by
    obtain ⟨cores, withheld⟩ := State.withhold_rest (s.modStope p.id fun _ => s.stopped p) (s.stopped p)
    rw [State.freeze_running found runs, withheld]
    rfl
  have now : (s.freeze c).stopeOf c = some (s.stopped p) := by
    unfold State.stopeOf at found ⊢
    rw [bound, stopes]
    split at found
    · exact find?_modStope rfl found
    · exact absurd found (Option.some_ne_none _).symm
  rw [State.frozenAt, now]
  rfl
/-- And a trap window is asked for. -/
theorem State.freeze_asks : ∃ e ∈ (s.freeze c).agenda, e.act = .run .trapWindowDelivery (.nums [p.id]) ∧ e.at_ = s.now := by
  rw [State.freeze_running found runs]
  obtain ⟨cores, withheld⟩ := State.withhold_rest (s.modStope p.id fun _ => s.stopped p) (s.stopped p)
  rw [withheld]
  exact ⟨_, State.post_listed .., rfl, rfl⟩

end

/-- What goes on after a word keeps the stope of its core. -/
theorem State.scalarDone_frozenAt (s : State) (c occ : Nat) (jump : Option Nat) : (s.scalarDone c occ jump).frozenAt c = s.frozenAt c := by
  have bound : ((s.scalarDone c occ jump).core c).bound = (s.core c).bound := by rw [State.core_scalarDone, Core.wordDone_rest]
  have stopes : (s.scalarDone c occ jump).stopes = s.stopes := by rw [State.scalarDone_rest]
  have same : (s.scalarDone c occ jump).stopeOf c = s.stopeOf c := by simp only [State.stopeOf, bound, stopes]
  simp only [State.frozenAt, same]

/-- Within the frame of a scalar word the registers and every byte stay. -/
theorem State.Framed.registers {s t : State} {c : Nat} {p : SPlace → Prop} (h : s.Framed t c p) :
    (t.core c).s = (s.core c).s ∧ (t.core c).a = (s.core c).a ∧ t.mem = s.mem := by
  obtain ⟨k, ⟨_, _, _, _, rfl⟩, withdrawn⟩ := h.own
  obtain ⟨_, _, _, _, rest⟩ := h.rest
  exact ⟨(congrArg Core.s withdrawn).trans rfl, (congrArg Core.a withdrawn).trans rfl, (congrArg State.mem rest).trans rfl⟩

/-- The replay entry of a word that has completed by its fault. -/
def State.doneEntry (s : State) : Replay := { (here s).scalarEntry with done := true }

section

variable {s : State} {p : Stope} {f : FaultRec} (plain : ¬ (f.code = 4 ∧ f.sub = 8)) (found : s.stopeOf s.curCore = some p) (runs : p.frozen = none)
  (first : (here s).fault = none) (fresh : (here s).sc.ovr = none) (room : (here s).sc.replay.length < 8)
include plain found runs first fresh room

/-- A word that completes by a first fault: the record, the freeze, the window asked for, and its entry in the queue. -/
theorem State.breaks :
    let c := s.curCore
    let t := passed s (s.raise c f (some (.scalar, s.doneEntry))) 1
    (t.core c).fault = some { f with lcyc := s.localCyc c, count := 1, noresume := f.final } ∧ t.frozenAt c = some s.now ∧
      (∃ e ∈ t.agenda, e.act = .run .trapWindowDelivery (.nums [p.id]) ∧ e.at_ = s.now) ∧
      (t.core c).sc.replay = (here s).sc.replay ++ [{ s.doneEntry with code := f.code, sub := f.sub, va := f.va, kind := f.kind }] := by
  intro c t
  have faulted := Core.faulted_first first room f (s.localCyc c) s.doneEntry
  generalize hk : (here s).faulted f (s.localCyc c) .scalar s.doneEntry = k at faulted
  generalize hu : s.modCore c (fun k => k.faulted f (s.localCyc c) .scalar s.doneEntry) = u
  have raised : s.raise c f (some (.scalar, s.doneEntry)) = u.freeze c := by rw [State.raise_plain s c plain, hu]
  have core : u.core c = k := by rw [← hu, State.core_modCore, ← hk]; rfl
  have now : u.now = s.now := by rw [← hu]; rfl
  have stope : u.stopeOf c = some p := by
    rw [← hu, State.stopeOf_modCore, found]
    change ((here s).faulted f (s.localCyc c) .scalar s.doneEntry).bound = _
    rw [hk, faulted]
    rfl
  have withdrawn := u.freeze_core c c
  rw [core, faulted] at withdrawn
  have ends : t.core c = ((u.freeze c).core c).wordDone none := by
    rw [← raised]
    exact State.core_scalarDone ..
  refine ⟨?_, ?_, ?_, ?_⟩
  · rw [ends, Core.wordDone_rest, withdrawn]
  · rw [← now, ← State.frozenAt_freeze stope runs, ← raised]
    exact State.scalarDone_frozenAt ..
  · obtain ⟨e, listed, act, at_⟩ := State.freeze_asks stope runs
    exact ⟨e, State.scalarDone_keeps _ _ _ _ (raised ▸ listed), act, at_.trans now⟩
  · rw [ends, Core.wordDone_replay, withdrawn]
    exact if_neg (by rw [fresh]; exact Bool.false_ne_true)

end

/-! ### HALT (R204) -/

section

variable (s : State) (c gen : Nat)

/-- A look at retirement and at the barriers leaves cores and quads as they are. -/
theorem State.checked_cores_quads : ((s.checkRetire gen).checkBarriers gen).cores = s.cores ∧ ((s.checkRetire gen).checkBarriers gen).quads = s.quads := by
  have retire (u : State) : (u.checkRetire gen).cores = u.cores ∧ (u.checkRetire gen).quads = u.quads := by
    simp only [State.checkRetire]
    split <;> exact ⟨rfl, rfl⟩
  have barriers (u : State) : (u.checkBarriers gen).cores = u.cores ∧ (u.checkBarriers gen).quads = u.quads := by
    simp only [State.checkBarriers]
    split <;> exact ⟨rfl, rfl⟩
  exact ⟨(barriers _).1.trans (retire s).1, (barriers _).2.trans (retire s).2⟩

/-- A core whose lease has ended neither holds the array nor waits for it. -/
theorem State.dropLease_quad : ((s.dropLease c).quad (quadOf c)).holder ≠ some (quadIndex c) ∧
    ∀ r ∈ ((s.dropLease c).quad (quadOf c)).reqs, r.1 ≠ quadIndex c := by
  have posted {p : Prop} [Decidable p] (u : State) (q at_ : Nat) : (if p then u.postGrant q at_ else u).quad (quadOf c) = u.quad (quadOf c) := by
    split <;> rfl
  simp only [State.dropLease, posted, State.quad_setQuad, Quad.heldBy, beq_iff_eq]
  refine ⟨?_, fun r hr => by simpa using (List.mem_filter.1 hr).2⟩
  split
  case isTrue held => exact (Option.some_ne_none _).symm
  case isFalse other => exact other
theorem State.dropLease_cores : (s.dropLease c).cores = s.cores := by
  simp only [State.dropLease]
  split <;> rfl

end

/-- What HALT leaves where its condition holds. -/
def State.halting (s : State) (m : BitVec 9) : State :=
  ((s.setCore s.curCore { here s with sc := { (here s).sc with halted := true }, haltMask := m.toNat }).scalarDone s.curCore 1 none).modCore s.curCore
    fun k => { k with sc := { k.sc with live := false } }

theorem State.halting_core (s : State) (m : BitVec 9) : ((s.halting m).core s.curCore).sc.halted = true ∧ ((s.halting m).core s.curCore).sc.live = false ∧
    ((s.halting m).core s.curCore).haltMask = m.toNat := by
  rw [State.halting, State.core_modCore, State.core_scalarDone, State.core_setCore]
  generalize hk : { here s with sc := { (here s).sc with halted := true }, haltMask := m.toNat } = k
  obtain ⟨next, sc⟩ := k.wordDone_sc none
  refine ⟨?_, rfl, ?_⟩
  · change (k.wordDone none).sc.halted = true
    rw [sc, ← hk]
    rfl
  · rw [Core.wordDone_rest, ← hk]

/-- HALT tests the tags, then its condition. -/
theorem execHalt_tests (g : BitVec 2) (m : BitVec 9) (s : State) : execHalt g m s = finishScalar s.curCore
    (if !(here s).specTags.isEmpty then sfault s 0x08
     else lateLook s s.curCore (s.quiet s.curCore m.toNat)
      (.wait ((((s.halting m).dropLease s.curCore).checkRetire (here s).bnd.gen).checkBarriers (here s).bnd.gen))) := by
  rw [execHalt, scalarWord_wf _ _ rfl]
  rfl

/-- Settles O15: TRAP and BKPT by their fault, HALT by its conditions, and a first TRAP by what raising its fault leaves. -/
theorem trapAndHaltWords : Obligations.TrapAndHaltWords := by
  unfold Obligations.TrapAndHaltWords
  refine ⟨fun g n m s => ?words, fun g n s p => ?trap⟩
  case words =>
    intro c done brk
    refine ⟨rfl, rfl, fun tags => ?_, fun free idle drained => ?_⟩
    · rw [show exec (.halt g m) s = execHalt g m s from rfl, execHalt_tests, if_pos (by simpa using tags)]
      rfl
    · have tagless : (!(here s).specTags.isEmpty) = false := by rw [free]; rfl
      have quiet : s.quiet c m.toNat = true := by rw [State.quiet, Bool.and_eq_true]; exact ⟨idle, drained⟩
      obtain ⟨halted, live, mask⟩ := s.halting_core m
      obtain ⟨holder, reqs⟩ := (s.halting m).dropLease_quad c
      obtain ⟨cores, quads⟩ := ((s.halting m).dropLease c).checked_cores_quads (here s).bnd.gen
      have core : ((((s.halting m).dropLease c).checkRetire (here s).bnd.gen).checkBarriers (here s).bnd.gen).core c = (s.halting m).core c :=
        congrArg (fun l : Table Core => Table.getD l c {}) (cores.trans ((s.halting m).dropLease_cores c))
      have quad : ((((s.halting m).dropLease c).checkRetire (here s).bnd.gen).checkBarriers (here s).bnd.gen).quad (quadOf c) =
          ((s.halting m).dropLease c).quad (quadOf c) := congrArg (fun l : Table Quad => Table.getD l (quadOf c) {}) quads
      refine ⟨(((s.halting m).dropLease c).checkRetire (here s).bnd.gen).checkBarriers (here s).bnd.gen, ?_, ?_⟩
      rotate_left
      · rw [core, quad]
        exact ⟨halted, live, mask, holder, reqs⟩
      rw [show exec (.halt g m) s = execHalt g m s from rfl, execHalt_tests, tagless, quiet]
      rfl
  case trap =>
    intro c k found runs first fresh room
    have plain : ¬ (({ code := 9, number := n.toNat } : FaultRec).code = 4 ∧ ({ code := 9, number := n.toNat } : FaultRec).sub = 8) := by
      rintro ⟨code, -⟩
      simp at code
    obtain ⟨record, frozen, window, replay⟩ := State.breaks plain found runs first fresh room
    have frame := (State.Framed.raise s c (fun _ => False) plain s.doneEntry).trans (.scalarDone _ c _ 1 none)
    obtain ⟨regs, bytes, mem⟩ := frame.registers
    refine ⟨_, rfl, record, frozen, window, ⟨_, replay, rfl, rfl, ?_⟩, ?_, ?_, ?_, fun x other => ⟨_, _, frame.others x other⟩⟩
    · exact BitVec.toNat_ofNat ..
    · exact regs
    · exact bytes
    · exact mem

end Sys2Proof.Machine
end

