-- ==== Sys2Proof/Proofs/WritesOfACycle.lean ====
section
/-! SUPPORT. What a selected write leaves in a memory (R187), what one write of a cycle changes of its core (R278), and the order of a cycle's writes (R258);
with them O55. -/

namespace Sys2Proof.Machine

open Sys2Proof.Claims

/-- Bytes written by a selection of as many bits: in range and selected the new byte, elsewhere what stood there. -/
theorem Memory.read_writeSel_bits {m : Memory} (hm : Memory.wf m = true) (a : Nat) {bs : List Byte} {sel : List Bool} (len : sel.length = bs.length) (b : Nat) :
    Memory.read (Memory.writeSel m a bs sel) b =
      if a ≤ b ∧ b < a + bs.length ∧ sel.getD (b - a) false = true then bs.getD (b - a) 0 else Memory.read m b := by
  induction bs generalizing m a sel with
  | nil => rw [if_neg (by simp; omega)]; rfl
  | cons x xs ih =>
    obtain ⟨y, ys, rfl⟩ : ∃ y ys, sel = y :: ys := List.exists_cons_of_length_eq_add_one len
    have head : Memory.wf (if y then Memory.write m a x else m) = true := by
      split
      · exact Memory.wf_write a x hm
      · exact hm
    have first : Memory.read (if y then Memory.write m a x else m) b = if b = a ∧ y = true then x else Memory.read m b := by
      cases y <;> simp [Memory.read_write a x hm]
    rw [Memory.writeSel, ih head (a + 1) (Nat.succ.inj len), first, List.length_cons]
    by_cases low : b < a + 1
    · rw [if_neg (by omega)]
      by_cases same : b = a
      · subst same
        simp
      · rw [if_neg (by omega), if_neg (by omega)]
    · obtain ⟨n, rfl⟩ : ∃ n, b = a + 1 + n := ⟨b - (a + 1), by omega⟩
      rw [if_neg (c := _ ∧ y = true) (by omega), show a + 1 + n - (a + 1) = n by omega, show a + 1 + n - a = n + 1 by omega, List.getD_cons_succ,
        List.getD_cons_succ]
      congr 1
      exact propext ⟨fun ⟨_, _, picked⟩ => ⟨by omega, by omega, picked⟩, fun ⟨_, _, picked⟩ => ⟨by omega, by omega, picked⟩⟩
/-- The same, where an empty selection takes every byte. -/
theorem Memory.read_writeSel {m : Memory} (hm : Memory.wf m = true) (a : Nat) {bs : List Byte} {sel : List Bool} (fits : sel = [] ∨ sel.length = bs.length)
    (b : Nat) : Memory.read (Memory.writeSel m a bs sel) b =
      if a ≤ b ∧ b < a + bs.length ∧ (sel = [] ∨ sel.getD (b - a) false = true) then bs.getD (b - a) 0 else Memory.read m b := by
  by_cases all : sel = []
  · simp only [all, Memory.writeSel_nil, Memory.read_writeBytes a bs hm, true_or, and_true]
  · rw [Memory.read_writeSel_bits hm a (fits.resolve_left all)]
    simp only [all, false_or]

/-! ### One write (R278) -/

/-- A write changes its space and the marks of errors alone. -/
theorem Core.store_rest (k : Core) (sp a : Nat) (d : List Byte) (sel : List Bool) :
    ∃ poison upsets, k.store sp a d sel = { k.setSpace sp (Memory.writeSel (k.space sp) a d sel) with poison, upsets } := by
  simp only [Core.store]
  split <;> exact ⟨_, _, rfl⟩
/-- A space put leaves the others. -/
theorem Core.space_setSpace_ne (k : Core) (m : Memory) (poison : List (Nat × Nat)) (upsets : List (Nat × Nat × Nat)) {sp x : Nat} (hsp : sp ≤ 3)
    (hx : x ≤ 3) (other : x ≠ sp) : ({ k.setSpace sp m with poison, upsets } : Core).space x = k.space x := by
  interval_cases sp <;> interval_cases x <;> simp_all [Core.setSpace, Core.space]

theorem Core.setSpace_s (k : Core) (sp : Nat) (m : Memory) : (k.setSpace sp m).s = k.s := by
  unfold Core.setSpace
  split <;> rfl
theorem Core.space_poison (k : Core) (poison : List (Nat × Nat)) (sp : Nat) : ({ k with poison } : Core).space sp = k.space sp := by
  unfold Core.space
  split <;> rfl

section

variable (s : State) (w : CycWrite)

/-- A write of a cycle is a store of its core, with the poison it brings. -/
theorem State.applyWrite_core : ∃ poison, (s.applyWrite w).core w.core = { (s.core w.core).store w.space w.addr w.data w.sel with poison } := by
  rw [State.applyWrite, State.core_modCore]
  dsimp only
  split <;> exact ⟨_, rfl⟩
theorem State.applyWrite_space : ((s.applyWrite w).core w.core).space w.space = Memory.writeSel ((s.core w.core).space w.space) w.addr w.data w.sel := by
  obtain ⟨poison, core⟩ := s.applyWrite_core w
  rw [core, ← Core.space_store]
  exact Core.space_poison ..
theorem State.applyWrite_wf (h : Memory.wf ((s.core w.core).space w.space) = true) : Memory.wf (((s.applyWrite w).core w.core).space w.space) = true := by
  rw [State.applyWrite_space]
  exact Memory.wf_writeSel _ _ _ h

end

/-- Writes performed change the cores alone. -/
theorem State.foldl_applyWrite_rest (l : List CycWrite) (s : State) : ∃ cores, l.foldl State.applyWrite s = { s with cores } := by
  induction l generalizing s with
  | nil => exact ⟨_, rfl⟩
  | cons w l ih => exact (ih (s.applyWrite w)).imp fun _ same => same
/-- The last of the writes of one byte stands there. -/
theorem State.applyWrite_byte (s : State) {w : CycWrite} {y : Byte} (canonical : Memory.wf ((s.core w.core).space w.space) = true) (data : w.data = [y])
    (all : w.sel = []) : (((s.applyWrite w).core w.core).space w.space).read w.addr = y := by
  rw [State.applyWrite_space, Memory.read_writeSel canonical _ (.inl all), data, if_pos (by simp [all]), Nat.sub_self]
  rfl

/-! ### The order of a cycle's writes (R258) -/

/-- The writes of a cycle in the order in which its end performs them: by rank, and within a rank by issue. -/
def State.byRank (s : State) : List CycWrite := (List.range 5).flatMap fun r => s.wb.reverse.filter fun w => w.rank == r

/-- With no register change buffered, the end of a cycle performs its writes. -/
theorem State.commit_writes {s : State} (none_ : s.sets = []) : s.commit = s.byRank.foldl State.applyWrite { s with wb := [] } := by
  have performed : (List.range 5).foldl (fun t r => (s.wb.reverse.filter fun w => w.rank == r).foldl State.applyWrite t) { s with wb := [] } =
      s.byRank.foldl State.applyWrite { s with wb := [] } := (List.foldl_flatMap ..).symm
  obtain ⟨cores, rest⟩ := State.foldl_applyWrite_rest s.byRank { s with wb := [] }
  have sets : (s.byRank.foldl State.applyWrite { s with wb := [] }).sets = [] := by
    rw [rest]
    exact none_
  simp only [State.commit, performed, sets]
  generalize s.byRank.foldl State.applyWrite { s with wb := [] } = t at sets
  have same : { t with sets := [] } = t := by rw [← sets]
  rw [same]
  rfl

/-- Two writes of a cycle. -/
theorem State.byRank_two {s : State} {v w : CycWrite} (two : s.wb = [w, v]) (hv : v.rank ≤ 4) (hw : w.rank ≤ 4) :
    s.byRank = if v.rank ≤ w.rank then [v, w] else [w, v] := by
  rw [State.byRank, two]
  generalize hi : v.rank = i at hv
  generalize hj : w.rank = j at hw
  interval_cases i <;> interval_cases j <;> simp [List.range_succ, hi, hj]

/-- Settles O55: one write by what it stores, two writes by their order. -/
theorem writesOfACycle : Obligations.WritesOfACycle := by
  unfold Obligations.WritesOfACycle
  refine ⟨fun s w space canonical fits => ?one, fun s c sp a v w x y two none_ => ?two⟩
  case one =>
    intro t
    have stored := s.applyWrite_space w
    have read := Memory.read_writeSel canonical w.addr fits
    obtain ⟨poison, core⟩ := s.applyWrite_core w
    obtain ⟨poison', upsets, store⟩ := (s.core w.core).store_rest w.space w.addr w.data w.sel
    rw [store] at core
    refine ⟨fun i hi => ?_, fun a out => ?_, fun sp hsp other => ?_, fun x other => State.core_modCore_ne _ _ _ _ other, ?_, rfl⟩
    · rw [stored, read]
      simp only [Nat.le_add_right, Nat.add_lt_add_iff_left, hi, true_and, Nat.add_sub_cancel_left]
    · rw [stored, read, if_neg (by omega)]
    · rw [core]
      exact Core.space_setSpace_ne _ _ _ _ space hsp other
    · rw [core]
      exact Core.setSpace_s ..
  case two =>
    intro vc wc vs ws hsp va wa vd wd vsel wsel hv hw canonical
    subst vc vs va
    rw [State.commit_writes none_, State.byRank_two two hv hw]
    have wfV : Memory.wf (((({ s with wb := [] } : State).applyWrite v).core w.core).space w.space) = true := by
      rw [wc, ws]
      exact State.applyWrite_wf _ v canonical
    have wfW : Memory.wf (((({ s with wb := [] } : State).applyWrite w).core v.core).space v.space) = true := by
      rw [← wc, ← ws] at canonical ⊢
      exact State.applyWrite_wf _ w canonical
    split
    · have last := State.applyWrite_byte _ wfV wd wsel
      rw [wc, ws, wa] at last
      exact ⟨last, rfl⟩
    · exact ⟨State.applyWrite_byte _ wfW vd vsel, rfl⟩

end Sys2Proof.Machine
end

