-- ==== Sys2Proof/Proofs/ResultsLand.lean ====
section
/-! SUPPORT. How a scalar result takes its place (R168, R169) and how a vector result takes its own (R205, R207, R208, R212); with them O37. -/

namespace Sys2Proof.Machine

open Sys2Proof.Claims

theorem State.modCore_onlyCore (s : State) (c : Nat) (f : Core → Core) : onlyCore s (s.modCore c f) c := fun _ other => State.core_modCore_ne s c _ f other

/-! ### Scalar results (R168, R169, R170) -/

/-- A register as a result leaves it: a later word's value stays (R168), and a wait for this result is over (R170). -/
def Reg.landed (x : Reg) (v : Word64) (stamp since : Nat) : Reg :=
  let pending := x.pending.filter (fun p => p != stamp)
  if stamp < x.stamp then { x with pending } else { val := v, stamp, since, pending }

theorem Reg.landed_val (x : Reg) (v : Word64) (stamp since : Nat) : (x.landed v stamp since).val = if stamp < x.stamp then x.val else v := by
  rw [Reg.landed]
  split <;> rfl
theorem Reg.landed_pending (x : Reg) (v : Word64) (stamp since : Nat) : (x.landed v stamp since).pending = x.pending.filter (fun p => p != stamp) := by
  rw [Reg.landed]
  split <;> rfl
theorem Reg.landed_stamp (x : Reg) (v : Word64) {stamp : Nat} (since : Nat) (newer : x.stamp ≤ stamp) : (x.landed v stamp since).stamp = stamp := by
  rw [Reg.landed, if_neg (Nat.not_lt.2 newer)]

section

variable (s : State) (c : Nat) (v : Word64) (stamp : Nat)

theorem State.landScalar_reg {d : BitVec 5} (hd : d ≠ 0) : (s.landScalar c (.reg d) v stamp).core c =
    { s.core c with s := vset (s.core c).s d.toNat ((vget (s.core c).s d.toNat {}).landed v stamp (s.localCyc c)) } := by
  rw [State.landScalar, State.core_modCore]
  exact if_neg hd
/-- s0 takes nothing. -/
theorem State.landScalar_zero : (s.landScalar c (.reg 0) v stamp).core c = s.core c := by
  rw [State.landScalar, State.core_modCore]
  exact if_pos rfl
theorem State.landScalar_cond (b : BitVec 4) : (s.landScalar c (.cond b) v stamp).core c =
    if stamp < (vget (s.core c).b b.toNat {}).stamp then s.core c
    else { s.core c with b := vset (s.core c).b b.toNat { vget (s.core c).b b.toNat {} with cond := v.toNat % 2 == 1, stamp } } :=
  State.core_modCore ..

/-- What a result leaves of a register that is not s0. -/
theorem State.landScalar_sval {d : BitVec 5} (hd : d ≠ 0) : ((s.landScalar c (.reg d) v stamp).core c).sval d.toNat =
    if stamp < (vget (s.core c).s d.toNat {}).stamp then (s.core c).sval d.toNat else v := by
  have nonzero : d.toNat ≠ 0 := fun h => hd (BitVec.eq_of_toNat_eq h)
  rw [State.landScalar_reg s c v stamp hd, Core.sval, Core.sval, if_neg nonzero, if_neg nonzero, vget_vset_same _ _ _ _ d.isLt, Reg.landed_val]

end

/-- The register clause of R168 and R169. -/
theorem State.landScalar_reg_lands (s : State) (c : Nat) (d : BitVec 5) (v : Word64) (stamp : Nat) :
    let k := s.core c
    let n := (s.landScalar c (.reg d) v stamp).core c
    n.sval d.toNat = (if d = 0 then 0 else if stamp < (vget k.s d.toNat {}).stamp then k.sval d.toNat else v) ∧
      (d ≠ 0 → (vget k.s d.toNat {}).stamp ≤ stamp → (vget n.s d.toNat {}).stamp = stamp) ∧
      (d ≠ 0 → (vget n.s d.toNat {}).pending = (vget k.s d.toNat {}).pending.filter (fun p => p != stamp)) ∧
      (∀ e, e ≠ d.toNat → vget n.s e {} = vget k.s e {}) ∧ n = { k with s := n.s } := by
  by_cases hd : d = 0
  · subst hd
    dsimp only
    rw [State.landScalar_zero]
    exact ⟨rfl, fun h => absurd rfl h, fun h => absurd rfl h, fun _ _ => rfl, rfl⟩
  · dsimp only
    rw [State.landScalar_sval s c v stamp hd, State.landScalar_reg s c v stamp hd, if_neg hd]
    dsimp only
    rw [vget_vset_same _ _ _ _ d.isLt]
    exact ⟨rfl, fun _ newer => Reg.landed_stamp _ _ _ newer, fun _ => Reg.landed_pending .., fun e other => vget_vset_other _ _ _ _ _ other, rfl⟩
/-- The condition clause of R168 and R169. -/
theorem State.landScalar_cond_lands (s : State) (c : Nat) (b : BitVec 4) (v : Word64) (stamp : Nat) (hb : b.toNat < 12) :
    let k := s.core c
    let n := (s.landScalar c (.cond b) v stamp).core c
    (vget n.b b.toNat {}).cond = (if stamp < (vget k.b b.toNat {}).stamp then (vget k.b b.toNat {}).cond else v.getLsbD 0) ∧
      (∀ e, (vget n.b e {}).target = (vget k.b e {}).target ∧ (vget n.b e {}).prepared = (vget k.b e {}).prepared) ∧
      (∀ e, e ≠ b.toNat → vget n.b e {} = vget k.b e {}) ∧ n = { k with b := n.b } := by
  dsimp only
  rw [State.landScalar_cond]
  split
  · exact ⟨rfl, fun _ => ⟨rfl, rfl⟩, fun _ _ => rfl, rfl⟩
  · dsimp only
    refine ⟨?_, fun e => ?_, fun e other => vget_vset_other _ _ _ _ _ other, rfl⟩
    · rw [vget_vset_same _ _ _ _ hb]
      rw [BitVec.getLsbD, Nat.testBit_zero, ← beq_eq_decide]
    · by_cases same : e = b.toNat
      · rw [same, vget_vset_same _ _ _ _ hb]
        exact ⟨rfl, rfl⟩
      · rw [vget_vset_other _ _ _ _ _ same]
        exact ⟨rfl, rfl⟩

/-! ### Vector results (R205, R207, R208) -/

/-- A vector result in its place, its flags not yet ORed. -/
def State.placed (s : State) (r : VRes) : State :=
  match r.place with
  | .row n => s.landRow r.core n r.stamp r.rep r.data r.sel
  | .crow addr => s.cycWrite { core := r.core, space := 1, rank := 1, addr, data := r.data, sel := r.sel }
  | .mask m => s.landMask r.core m.toNat r.stamp (leNat r.data)
  | .areg a =>
    s.modCore r.core (fun k =>
      if r.stamp < (vget k.ar a.toNat {}).stamp then k else { k with ar := vset k.ar a.toNat { val := BitVec.ofNat 64 (leNat r.data), stamp := r.stamp } })
  | .qv2s => s.landQv2s r.core r.data
  | .qv2m => s.landQv2m r.core r.data
  | .flags => s

theorem State.landVector_eq (s : State) (r : VRes) : s.landVector r = (s.placed r).orVstat r.core r.flags := rfl

/-- ORed flags are a matter of the cycle's end alone. -/
theorem State.orVstat_rest (s : State) (c flags : Nat) : ∃ sets, s.orVstat c flags = { s with sets } := by
  rw [State.orVstat]
  split <;> exact ⟨_, rfl⟩
theorem State.orVstat_core (s : State) (c flags d : Nat) : (s.orVstat c flags).core d = s.core d := by
  obtain ⟨_, h⟩ := s.orVstat_rest c flags
  rw [h]
  rfl
theorem State.orVstat_wb (s : State) (c flags : Nat) : (s.orVstat c flags).wb = s.wb := by
  obtain ⟨_, h⟩ := s.orVstat_rest c flags
  rw [h]
theorem State.orVstat_sets (s : State) (c flags : Nat) : (flags = 0 → (s.orVstat c flags).sets = s.sets) ∧
    (flags ≠ 0 → (s.orVstat c flags).sets = (c, .flags 0x021 flags) :: s.sets) := by
  rw [State.orVstat]
  split <;> simp_all

/-- `t` is `s` but for core `c`'s vector side and the cycle's writes. -/
structure State.VectorSide (s t : State) (c : Nat) : Prop where
  sets : t.sets = s.sets
  only : onlyCore s t c
  mem : t.mem = s.mem
  regs : (t.core c).s = (s.core c).s
  aspace : (t.core c).a = (s.core c).a
  cspace : (t.core c).c = (s.core c).c

theorem State.VectorSide.refl (s : State) (c : Nat) : State.VectorSide s s c := ⟨rfl, fun _ _ => rfl, rfl, rfl, rfl, rfl⟩
theorem State.VectorSide.cycWrite (s : State) (c : Nat) (w : CycWrite) : State.VectorSide s (s.cycWrite w) c := ⟨rfl, fun _ _ => rfl, rfl, rfl, rfl, rfl⟩
theorem State.VectorSide.modCore (s : State) (c : Nat) {f : Core → Core} (hs : ∀ k, (f k).s = k.s) (ha : ∀ k, (f k).a = k.a) (hc : ∀ k, (f k).c = k.c) :
    State.VectorSide s (s.modCore c f) c :=
  ⟨rfl, s.modCore_onlyCore c f, rfl, (congrArg Core.s (s.core_modCore c f)).trans (hs _), (congrArg Core.a (s.core_modCore c f)).trans (ha _),
    (congrArg Core.c (s.core_modCore c f)).trans (hc _)⟩
theorem State.VectorSide.landRow (s : State) (c row stamp rep : Nat) (data : List Byte) (sel : List Bool) :
    State.VectorSide s (s.landRow c row stamp rep data sel) c := by
  rw [State.landRow]
  split
  · exact .refl ..
  · have put := State.VectorSide.modCore s c (f := fun k => { k with rows := Table.put k.rows row (stamp, rep) }) (fun _ => rfl) (fun _ => rfl) (fun _ => rfl)
    exact ⟨rfl, put.only, rfl, put.regs, put.aspace, put.cspace⟩

/-- A result in its place touches the vector side of its core alone. -/
theorem State.VectorSide.placed (s : State) (r : VRes) : State.VectorSide s (s.placed r) r.core := by
  rw [State.placed]
  cases r.place with
  | row n => exact .landRow ..
  | crow a => exact .cycWrite ..
  | mask m => exact .modCore _ _ (fun k => by dsimp only; split <;> rfl) (fun k => by dsimp only; split <;> rfl) (fun k => by dsimp only; split <;> rfl)
  | areg a => exact .modCore _ _ (fun k => by split <;> rfl) (fun k => by split <;> rfl) (fun k => by split <;> rfl)
  | qv2s => exact .modCore _ _ (fun _ => rfl) (fun _ => rfl) (fun _ => rfl)
  | qv2m => exact .modCore _ _ (fun _ => rfl) (fun _ => rfl) (fun _ => rfl)
  | flags => exact .refl ..

section

variable (s : State) (r : VRes)

theorem State.landRow_outdated (c row stamp rep : Nat) (data : List Byte) (sel : List Bool) (h : (s.core c).outdated row stamp rep = true) :
    s.landRow c row stamp rep data sel = s := if_pos h
theorem State.landRow_wb {c row stamp rep : Nat} (data : List Byte) (sel : List Bool) (h : (s.core c).outdated row stamp rep = false) :
    (s.landRow c row stamp rep data sel).wb = { core := c, space := 0, rank := 3, addr := 256 * row, data, sel } :: s.wb := by
  rw [State.landRow, if_neg (by simp [h])]
  rfl
theorem State.landRow_rows {c row stamp rep : Nat} (data : List Byte) (sel : List Bool) (h : (s.core c).outdated row stamp rep = false) :
    Table.find? ((s.landRow c row stamp rep data sel).core c).rows row = some (stamp, rep) := by
  rw [State.landRow, if_neg (by simp [h])]
  change Table.find? ((s.modCore c fun k => { k with rows := Table.put k.rows row (stamp, rep) }).core c).rows row = _
  rw [State.core_modCore]
  exact Table.find?_put_same ..

theorem State.landMask_val (c : Nat) (m : BitVec 4) (stamp v : Nat) : (vget ((s.landMask c m.toNat stamp v).core c).m m.toNat {}).val =
    if m = 0 ∨ stamp < (vget (s.core c).m m.toNat {}).stamp then (vget (s.core c).m m.toNat {}).val else BitVec.ofNat 256 v := by
  rw [State.landMask, State.core_modCore]
  by_cases hm : m = 0
  · subst hm
    rfl
  · have nonzero : m.toNat ≠ 0 := fun h => hm (BitVec.eq_of_toNat_eq h)
    dsimp only
    rw [if_neg nonzero]
    dsimp only
    rw [vget_vset_same _ _ _ _ m.isLt]
    by_cases older : stamp < (vget (s.core c).m m.toNat {}).stamp
    · rw [if_pos older, if_pos (.inr older)]
    · rw [if_neg older, if_neg (not_or.2 ⟨hm, older⟩)]

theorem State.placed_areg {a : BitVec 3} (h : r.place = .areg a) : ((s.placed r).core r.core).areg a.toNat =
    if r.stamp < (vget (s.core r.core).ar a.toNat {}).stamp then (s.core r.core).areg a.toNat else BitVec.ofNat 64 (leNat r.data) := by
  rw [State.placed, h]
  dsimp only
  rw [State.core_modCore]
  split
  · rfl
  · rw [Core.areg, vget_vset_same _ _ _ _ a.isLt]

theorem State.landQv2s_queue (c : Nat) (data : List Byte) : ((s.landQv2s c data).core c).qv2s =
    { (s.core c).qv2s.push s.now (BitVec.ofNat 64 (leNat data)) with inflight := (s.core c).qv2s.inflight - 1 } :=
  congrArg Core.qv2s (s.core_modCore c _)
theorem State.landQv2m_queue (c : Nat) (data : List Byte) : ((s.landQv2m c data).core c).qv2m =
    { (s.core c).qv2m.push s.now data with inflight := (s.core c).qv2m.inflight - 1 } :=
  congrArg Core.qv2m (s.core_modCore c _)

end

/-- Settles O37: a scalar result by its register or its condition bit, a vector result by its place, with its flags apart. -/
theorem resultsLand : Obligations.ResultsLand := by
  refine ⟨fun s r arg => ⟨s.landScalar r.core r.place r.val r.stamp, by simp only [exec, execScalarResult, arg], fun d place => ?_, fun b place hb => ?_,
    s.modCore_onlyCore _ _, rfl⟩, fun s r arg => ⟨s.landVector r, by simp only [exec, execVectorResult, arg], ?_⟩⟩
  · rw [place]
    exact s.landScalar_reg_lands r.core d r.val r.stamp
  · rw [place]
    exact s.landScalar_cond_lands r.core b r.val r.stamp hb
  · have side := State.VectorSide.placed s r
    rw [State.landVector_eq]
    simp only [State.orVstat_core, State.orVstat_wb, State.orVstat_store, onlyCore]
    refine ⟨fun x place newer => ?_, fun x place older => ?_, fun a place => ?_, fun m place => ?_, fun a place => ⟨s.placed_areg r place, ?_⟩,
      fun place => ?_, fun place => ?_, fun quiet => ((s.placed r).orVstat_sets r.core r.flags).1 quiet |>.trans side.sets,
      fun flags => (((s.placed r).orVstat_sets r.core r.flags).2 flags).trans (congrArg _ side.sets), side.only, side.mem, side.regs, side.aspace, side.cspace⟩
    · rw [State.placed, place]
      exact ⟨s.landRow_wb _ _ newer, s.landRow_rows _ _ newer⟩
    · rw [State.placed, place]
      exact congrArg State.wb (s.landRow_outdated _ _ _ _ _ _ older)
    · rw [State.placed, place]
      rfl
    · rw [State.placed, place]
      exact ⟨s.landMask_val r.core m r.stamp _, rfl⟩
    · rw [State.placed, place]
      rfl
    · rw [State.placed, place]
      dsimp only
      rw [State.landQv2s_queue]
      exact ⟨rfl, rfl⟩
    · rw [State.placed, place]
      dsimp only
      rw [State.landQv2m_queue]
      exact ⟨rfl, rfl⟩

end Sys2Proof.Machine
end

