-- ==== Sys2Proof/Proofs/GlobalResults.lean ====
section
/-! SUPPORT. A loaded row, a poisoned one, a value that returns and a missed promise (R170, R278, R282, R320, R386, R394, R396), the end of a stall and of a page
walk (R96, R290); with them O38. -/

namespace Sys2Proof.Machine

open Sys2Proof.Claims

/-! ### Loaded rows (R207, R278, R320) -/

theorem RowJoin.merged_length (j : RowJoin) (old : List Byte) : (j.merged old).length = 256 := by
  rw [RowJoin.merged, List.length_map, List.length_range]
theorem RowJoin.merged_getD (j : RowJoin) (old : List Byte) {i : Nat} (hi : i < 256) : (j.merged old).getD i 0 =
    if j.sel.getD i false then j.data.getD i 0 else if j.keep.getD i false then old.getD i 0 else 0 := by
  rw [RowJoin.merged, List.getD_eq_getElem?_getD, List.getElem?_map, List.getElem?_range hi]
  rfl

section

variable {s : State} {id : Nat} {j : RowJoin} (found : s.joins.find? (fun x => x.id == id) = some j)
include found

theorem State.landJoinId_found : s.landJoinId id = s.landJoin j := by rw [State.landJoinId, found]
theorem State.find_join_id : j.id = id := by simpa using List.find?_some found
theorem State.joins_gone : ∀ x ∈ s.joins.filter (fun x => x.id != j.id), x.id ≠ id := by
  intro x hx
  rw [← State.find_join_id found]
  simpa using (List.mem_filter.1 hx).2

end

theorem State.landRow_joins (s : State) (c row stamp rep : Nat) (data : List Byte) (sel : List Bool) :
    (s.landRow c row stamp rep data sel).joins = s.joins := by
  rw [State.landRow]
  split <;> rfl
/-- A row of the file that came whole takes effect merged with the row as it stands. -/
theorem State.landJoin_row (s : State) {j : RowJoin} (clean : j.poisoned = false) (row : j.row < 1536) :
    s.landJoin j = { s with joins := s.joins.filter fun x => x.id != j.id }.landRow j.core j.row j.stamp j.rep
      (j.merged (s.aBytes j.core (256 * j.row) 256)) [] := by
  have files : j.row ≠ codeQV2S ∧ j.row ≠ codeQV2M := by
    constructor <;> intro no <;> rw [no] at row <;> exact absurd row (by decide)
  simp only [State.landJoin, clean, files.1, files.2, row, if_true, if_false, Bool.false_eq_true]
  rfl

/-- A withdrawal changes of its core the queues it undoes and the bank requests alone. -/
theorem State.withdraw_core (s : State) (c stamp rep : Nat) : ∃ qs2v qv2s qv2m qm2v popped arriving withheld banks,
    (s.withdraw c stamp rep).core c = { s.core c with qs2v, qv2s, qv2m, qm2v, popped, arriving, withheld, banks } := by
  simp only [State.withdraw, State.modCore, State.setCore, State.cancel, State.core, Table.getD_put_same]
  exact ⟨_, _, _, _, _, _, _, _, rfl⟩

/-- A withdrawal forgets joins and requests, and puts none. -/
theorem State.withdraw_rest (s : State) (c stamp rep : Nat) : ∃ cores agenda joins greqs,
    s.withdraw c stamp rep = { s with cores, agenda, joins, greqs } ∧ (∀ x ∈ joins, x ∈ s.joins) ∧ ∀ x ∈ greqs, x ∈ s.greqs :=
  ⟨_, _, _, _, rfl, fun _ => List.mem_of_mem_filter, fun _ => List.mem_of_mem_filter⟩

/-! ### A fault of a vector word after its issue (R388, R394, R396) -/

/-- Raising a fault changes cores, the agenda, the stopes, and, where a promise was missed, what a hart is told. -/
theorem State.raise_rest (s : State) (c : Nat) (f : FaultRec) (e : Option (Strm × Replay)) :
    ∃ cores agenda seq stopes ring harts, s.raise c f e = { s with cores, agenda, seq, stopes, ring, harts } := by
  simp only [State.raise]
  split
  · generalize hu : State.devEvent _ _ _ _ _ _ = u
    obtain ⟨_, _, _, _, h⟩ := (State.Framed.freeze u c (fun _ => False)).rest
    rw [h, ← hu]
    exact ⟨_, _, _, _, _, _, rfl⟩
  · generalize hu : s.modCore c _ = u
    obtain ⟨_, _, _, _, h⟩ := (State.Framed.freeze u c (fun _ => False)).rest
    rw [h, ← hu]
    exact ⟨_, _, _, _, _, _, rfl⟩

/-- The first fault of a core with room in its vector queue stands in its record in full, and its replay entry at the end of the queue. -/
theorem Core.faulted_first_vector {k : Core} (first : k.fault = none) (room : k.ve.replay.length < 16) (f : FaultRec) (lcyc : Nat) (r : Replay) :
    k.faulted f lcyc .vector r = { k with
      fault := some { f with lcyc, count := 1, noresume := f.final },
      ve := { k.ve with replay := k.ve.replay ++ [{ r with code := f.code, sub := f.sub, va := f.va, kind := f.kind }] } } := by
  rw [Core.faulted, Core.record_first first]
  exact if_pos room

/-- A word that has left its stream faults at a repeat. -/
theorem State.raiseVector_left {s : State} {c : Nat} (left : (s.core c).ve.sub = 0) (stamp rep : Nat) (f : FaultRec) (e : Replay) :
    s.raiseVector c stamp rep f e =
      (s.withdraw c stamp rep).raise c { f with source := 1 } (some (.vector, { e with next := rep, own := false })) := by
  obtain ⟨_, _, _, _, _, _, _, _, core⟩ := s.withdraw_core c stamp rep
  have idle : (((s.withdraw c stamp rep).core c).ve.istamp == stamp && ((s.withdraw c stamp rep).core c).ve.sub != 0) = false := by
    rw [core, left]
    exact Bool.and_false _
  simp only [State.raiseVector, idle, Bool.false_eq_true, if_false]

/-- Its first fault: the record, one replay entry at the repeat, and no register row touched. -/
theorem State.raiseVector_first {s : State} {c : Nat} (left : (s.core c).ve.sub = 0) (first : (s.core c).fault = none)
    (room : (s.core c).ve.replay.length < 16) (stamp rep : Nat) (f : FaultRec) (e : Replay) :
    let n := (s.raiseVector c stamp rep f e).core c
    n.rows = (s.core c).rows ∧ (∃ lcyc, n.fault = some { f with source := 1, lcyc, count := 1, noresume := ({ f with source := 1 } : FaultRec).final }) ∧
      n.ve.replay = (s.core c).ve.replay ++ [{ e with next := rep, own := false, code := f.code, sub := f.sub, va := f.va, kind := f.kind }] := by
  intro n
  obtain ⟨_, _, _, _, _, _, _, _, core⟩ := s.withdraw_core c stamp rep
  have raised := (s.withdraw c stamp rep).raise_core c { f with source := 1 } .vector { e with next := rep, own := false }
  have first' : ((s.withdraw c stamp rep).core c).fault = none := (congrArg Core.fault core).trans first
  have room' : ((s.withdraw c stamp rep).core c).ve.replay.length < 16 := by rwa [core]
  rw [← State.raiseVector_left left, Core.faulted_first_vector first' room', core] at raised
  exact ⟨(congrArg Core.rows raised).trans rfl, ⟨_, (congrArg Core.fault raised).trans rfl⟩, (congrArg (fun k => k.ve.replay) raised).trans rfl⟩

/-- It puts no write and no join. -/
theorem State.raiseVector_keeps {s : State} {c : Nat} (left : (s.core c).ve.sub = 0) (stamp rep : Nat) (f : FaultRec) (e : Replay) :
    (s.raiseVector c stamp rep f e).wb = s.wb ∧ ∀ x ∈ (s.raiseVector c stamp rep f e).joins, x ∈ s.joins := by
  obtain ⟨_, _, _, _, withdrawn, joins, -⟩ := s.withdraw_rest c stamp rep
  obtain ⟨_, _, _, _, _, _, raised⟩ := (s.withdraw c stamp rep).raise_rest c { f with source := 1 } (some (.vector, { e with next := rep, own := false }))
  rw [State.raiseVector_left left, raised, withdrawn]
  exact ⟨rfl, joins⟩

/-- A row of the file that came poisoned raises POISON at its repeat. -/
theorem State.landJoin_poisoned (s : State) {j : RowJoin} (bad : j.poisoned = true) (row : j.row < 1536) :
    s.landJoin j = (({ s with joins := s.joins.filter fun x => x.id != j.id } : State).modCore j.core fun k => k).raiseVector j.core j.stamp j.rep
      { code := 0x18, va := j.entry.va, kind := j.entry.kind } j.entry := by
  have files : j.row ≠ codeQV2S ∧ j.row ≠ codeQV2M := by
    constructor <;> intro no <;> rw [no] at row <;> exact absurd row (by decide)
  simp only [State.landJoin, bad, files.1, files.2, if_true, if_false]

/-! ### A promise that was not kept (R282, R386) -/

/-- `t` comes from `s` without a fault of core `c`, and with no request of its own. -/
structure State.Still (s t : State) (c : Nat) : Prop where
  fault : (t.core c).fault = (s.core c).fault
  greqs : ∀ x ∈ t.greqs, x ∈ s.greqs
/-- `t` has core `c`'s record of a missed promise of this source, tells the hart of it, and has no request that `s` has not. -/
structure State.Missed (s t : State) (c src : Nat) : Prop where
  record : ∃ f, (t.core c).fault = some f ∧ f.code = 4 ∧ f.sub = 8 ∧ f.noresume = true ∧ f.source = src
  told : ∃ e ∈ t.ring, e.kind = 0 ∧ e.master = coreMaster (sourceClass src) c
  greqs : ∀ x ∈ t.greqs, x ∈ s.greqs

section

variable {s t u : State} {c src : Nat}

theorem State.Still.refl (s : State) (c : Nat) : State.Still s s c := ⟨rfl, fun _ hx => hx⟩
theorem State.Still.trans (h : State.Still s t c) (h' : State.Still t u c) : State.Still s u c :=
  ⟨h'.fault.trans h.fault, fun x hx => h.greqs x (h'.greqs x hx)⟩
theorem State.Still.missed (h : State.Still s t c) (h' : State.Missed t u c src) : State.Missed s u c src :=
  ⟨h'.record, h'.told, fun x hx => h.greqs x (h'.greqs x hx)⟩
theorem State.Still.modCore (s : State) (c d : Nat) {f : Core → Core} (keeps : ∀ k, (f k).fault = k.fault) : State.Still s (s.modCore d f) c where
  fault := by
    by_cases own : c = d
    · rw [own, State.core_modCore, keeps]
    · rw [State.core_modCore_ne _ _ _ _ own]
  greqs _ hx := hx
theorem State.Still.modStrm (s : State) (c : Nat) (strm : Strm) (f : StreamSt → StreamSt) : State.Still s (s.modStrm c strm f) c :=
  .modCore s c c fun _ => Core.setStrm_fault ..
theorem State.Still.withdraw (s : State) (c stamp rep : Nat) : State.Still s (s.withdraw c stamp rep) c where
  fault := by
    obtain ⟨_, _, _, _, _, _, _, _, core⟩ := s.withdraw_core c stamp rep
    rw [core]
  greqs _ := List.mem_of_mem_filter
theorem State.Still.cancel (s : State) (c : Nat) (p : Event → Bool) : State.Still s (s.cancel p) c := ⟨rfl, fun _ hx => hx⟩
theorem State.Missed.modStrm (h : State.Missed s t c src) (strm : Strm) (f : StreamSt → StreamSt) : State.Missed s (t.modStrm c strm f) c src := by
  refine ⟨?_, h.told, h.greqs⟩
  rw [(State.Still.modStrm t c strm f).fault]
  exact h.record

/-- A first missed promise stands in the record, and cannot be resumed. -/
theorem Core.record_late {k : Core} (first : k.fault = none) {f : FaultRec} (late : f.code = 4 ∧ f.sub = 8) (lcyc : Nat) :
    ∃ g, (k.record { f with lcyc }).fault = some g ∧ g.code = 4 ∧ g.sub = 8 ∧ g.noresume = true ∧ g.source = f.source := by
  rw [Core.record_first first]
  refine ⟨_, rfl, late.1, late.2, ?_, rfl⟩
  simp [FaultRec.final, late]
/-- A replay entry that finds no room keeps the record, and adds that the fault cannot be resumed. -/
theorem Core.enqueue_late {k : Core} (h : ∃ g, k.fault = some g ∧ g.code = 4 ∧ g.sub = 8 ∧ g.noresume = true ∧ g.source = src) (strm : Strm) (r : Replay) :
    ∃ g, (k.enqueue strm r).fault = some g ∧ g.code = 4 ∧ g.sub = 8 ∧ g.noresume = true ∧ g.source = src := by
  obtain ⟨g, record, code, sub, final, source⟩ := h
  simp only [Core.enqueue]
  split
  · exact ⟨g, (Core.setStrm_fault ..).trans record, code, sub, final, source⟩
  · exact ⟨_, congrArg (Option.map _) record, code, sub, rfl, source⟩

/-- Raising it for the first time. -/
theorem State.Missed.raise (first : (s.core c).fault = none) {f : FaultRec} (late : f.code = 4 ∧ f.sub = 8) (e : Option (Strm × Replay)) :
    State.Missed s (s.raise c f e) c f.source := by
  have told : (decide (f.code = 4) && f.sub == 8) = true := by simp [late]
  simp only [State.raise, told, if_true]
  generalize hu : s.modCore c _ = u
  have record : ∃ g, (u.core c).fault = some g ∧ g.code = 4 ∧ g.sub = 8 ∧ g.noresume = true ∧ g.source = f.source := by
    rw [← hu, State.core_modCore]
    cases e with
    | none => exact Core.record_late first late _
    | some x => exact Core.enqueue_late (Core.record_late first late _) ..
  generalize hv : State.devEvent u _ _ _ _ _ = v
  have core : ((v.freeze c).core c).fault = (u.core c).fault := by
    rw [(v.freeze_core c c).fault, ← hv]
    rfl
  obtain ⟨_, _, _, _, rest⟩ := (State.Framed.freeze v c (fun _ => False)).rest
  refine ⟨by rwa [core], ?_, ?_⟩
  · rw [rest, ← hv]
    exact ⟨_, List.mem_append_right _ (.head _), rfl, rfl⟩
  · rw [rest, ← hv, ← hu]
    exact fun _ hx => hx
theorem State.Missed.raiseIn (first : (s.core c).fault = none) {f : FaultRec} (late : f.code = 4 ∧ f.sub = 8) (strm : Strm) (e : Replay) :
    State.Missed s (s.raiseIn c f strm e) c f.source := by
  have raised (g : StreamSt → StreamSt) : State.Missed s ((s.modStrm c strm g).raise c f (some (strm, e))) c f.source :=
    (State.Still.modStrm s c strm g).missed (.raise ((State.Still.modStrm s c strm g).fault.trans first) late _)
  simp only [State.raiseIn]
  split
  · exact (raised _).modStrm ..
  · exact raised _
theorem State.Missed.raiseVector (first : (s.core c).fault = none) (stamp rep : Nat) {f : FaultRec} (late : f.code = 4 ∧ f.sub = 8) (e : Replay) :
    State.Missed s (s.raiseVector c stamp rep f e) c 1 := by
  have still := State.Still.withdraw s c stamp rep
  simp only [State.raiseVector]
  split
  · have cancelled := still.trans (.cancel (s.withdraw c stamp rep) c fun x => x.forStream c .vector)
    exact cancelled.missed (.raiseIn (f := { f with source := 1 }) (cancelled.fault.trans first) late _ _)
  · exact still.missed (.raise (f := { f with source := 1 }) (still.fault.trans first) late _)

end

/-- The machine as a request that fails leaves it before its fault: nothing waits for it, its increment is undone, a copy engine holds. -/
def State.cleared (s : State) (g : GReq) : State :=
  let s := (s.stopWaiting g).undoInc g
  match g.job with
  | .copyRead w _ => s.failCopyWord g w none
  | .copyWrite w poison d => s.failCopyWord g w (some (d, poison != 0))
  | _ => s

/-- Its fault is that of a word in issue where a WAITM looks for it, that of a repeat for a vector word, and else one of its issuer. -/
theorem State.failRequest_eq (s : State) (g : GReq) (code sub : Nat) : ∃ waits : Bool, s.failRequest g code sub =
    let f : FaultRec := { code, sub, source := g.src, va := BitVec.ofNat 64 g.va, kind := g.job.kind }
    if waits then (s.cleared g).raiseIn g.core f .scalar ((s.cleared g).core g.core).scalarEntry
    else if g.src = 1 then (s.cleared g).raiseVector g.core g.stamp g.entry.next f g.entry
    else (s.cleared g).raise g.core f (if g.src = 0 then some (.scalar, g.entry) else if g.src = 3 then some (.scalar, g.entry) else none) :=
  ⟨_, rfl⟩

theorem State.Still.stopWaiting (s : State) (g : GReq) : State.Still s (s.stopWaiting g) g.core := by
  unfold State.stopWaiting
  dsimp only
  split
  iterate 4 · exact .modCore _ _ _ fun _ => rfl
  exact .refl ..
theorem State.Still.undoInc (s : State) (g : GReq) : State.Still s (s.undoInc g) g.core := by
  unfold State.undoInc
  dsimp only
  split
  · refine .modCore _ _ _ fun k => ?_
    split <;> rfl
  · exact .refl ..
theorem State.Still.forget (s : State) (c : Nat) (p : GReq → Bool) : State.Still s { s with greqs := s.greqs.filter p } c :=
  ⟨rfl, fun _ => List.mem_of_mem_filter⟩
theorem State.Still.modCopy (s : State) (c : Nat) (f : CopyRun → CopyRun) : State.Still s (s.modCopy c f) c := .modCore _ _ _ fun _ => rfl
theorem State.Still.failCopyWord (s : State) (g : GReq) (w : Nat) (back : Option (List Byte × Bool)) :
    State.Still s (s.failCopyWord g w back) g.core := by
  unfold State.failCopyWord
  dsimp only
  split
  · cases back with
    | none => exact .trans (.forget ..) (.modCopy ..)
    | some p => exact .modCopy ..
  · exact .refl ..
theorem State.Still.cleared (s : State) (g : GReq) : State.Still s (s.cleared g) g.core := by
  have before := (State.Still.stopWaiting s g).trans (.undoInc _ g)
  unfold State.cleared
  dsimp only
  split
  · exact before.trans (.failCopyWord ..)
  · exact before.trans (.failCopyWord ..)
  · exact before

/-- A request that its bound has overtaken. -/
theorem State.Missed.failRequest {s : State} {g : GReq} (first : (s.core g.core).fault = none) :
    State.Missed s (s.failRequest g 4 8) g.core g.src := by
  have still := State.Still.cleared s g
  have first' := still.fault.trans first
  obtain ⟨waits, fails⟩ := s.failRequest_eq g 4 8
  rw [fails]
  refine still.missed ?_
  dsimp only
  split
  · exact .raiseIn first' ⟨rfl, rfl⟩ _ _
  split
  case isTrue vector =>
    rw [vector]
    exact .raiseVector first' _ _ ⟨rfl, rfl⟩ _
  · exact .raise first' ⟨rfl, rfl⟩ _

/-! ### A value that returns (R168, R170) -/

/-- A register that waits for this result no longer does. -/
theorem State.landScalar_pendingReg (s : State) (c : Nat) {d : BitVec 5} (hd : d ≠ 0) (v : Word64) {stamp : Nat}
    (waits : (vget (s.core c).s d.toNat {}).pending = some stamp) : ((s.landScalar c (.reg d) v stamp).core c).pendingReg d.toNat = false := by
  obtain ⟨-, -, pending, -⟩ := s.landScalar_reg_lands c d v stamp
  rw [Core.pendingReg, pending hd, waits, Option.filter_some, bne_self_eq_false]
  exact Bool.and_false _

/-! ### Page walks (R290) -/

/-- An entry that is locked stays. -/
theorem mem_dropUnlocked {t : List TlbEntry} {x : TlbEntry} (hx : x ∈ t) (locked : x.locked = true) (i : Nat) : x ∈ dropUnlocked t i := by
  induction t generalizing i with
  | nil => exact hx
  | cons e t ih =>
    rw [dropUnlocked]
    rcases List.mem_cons.1 hx with rfl | later
    · rw [if_pos locked]
      exact .head _
    · split
      · exact .tail _ (ih later i)
      split
      · exact later
      · exact .tail _ (ih later _)
theorem mem_tlbFill (t : List TlbEntry) (cap n : Nat) (e : TlbEntry) : e ∈ tlbFill t cap n e := List.mem_append_right _ (.head _)
theorem mem_tlbFill_locked {t : List TlbEntry} {x : TlbEntry} (hx : x ∈ t) (locked : x.locked = true) (cap n : Nat) (e : TlbEntry) :
    x ∈ tlbFill t cap n e := by
  refine List.mem_append_left _ ?_
  split
  · exact hx
  · exact mem_dropUnlocked hx locked _
theorem Core.tlbOf_setTlb (k : Core) (unit : Nat) (t : List TlbEntry) : (k.setTlb unit t).tlbOf unit = t := by
  unfold Core.setTlb Core.tlbOf
  split <;> rfl

section

variable {s : State} {w : Walk} {p : Proc} (proc : s.proc? w.spid = some p)
include proc

/-- A walk that finds its page fills its unit's TLB. -/
theorem State.endWalk_leaf {e : Word64} {l : Nat} (leaf : s.walk p w.va w.write = .leaf e l) :
    let t : TlbEntry := { spid := w.spid, va := w.va / leafSize e l * leafSize e l, size := leafSize e l, pte := e }
    s.endWalk w = ({ s with free := s.free + 1 } : State).modCore w.core fun k =>
      k.setTlb w.unit (tlbFill (k.tlbOf w.unit) (tlbCap w.unit) s.free t) := by
  simp only [State.endWalk, proc, Option.map_some, Option.getD_some, leaf]
/-- One that does not leaves the level it stopped at. -/
theorem State.endWalk_fault {l : Nat} (fault : s.walk p w.va w.write = .fault l) :
    s.endWalk w = { s with walks := s.walks ++ [{ w with failed := some l }] } := by
  simp only [State.endWalk, proc, Option.map_some, Option.getD_some, fault]

end

theorem execPageWalk_found {s : State} {id : Nat} {w : Walk} (arg : s.arg = .nums [id]) (found : s.walks.find? (fun x => x.id == id) = some w) :
    exec .pageWalk s = .next (({ s with walks := s.walks.filter (fun x => x.id != id) } : State).endWalk w) := by
  simp only [exec, execPageWalk, arg, found]

/-- Settles O38: each event by what it finds, a row that joins, a request that returns or is overtaken, a stall that ends, a walk. -/
theorem globalResultsReturn : Obligations.GlobalResultsReturn := by
  unfold Obligations.GlobalResultsReturn
  refine ⟨fun s id => ⟨fun j arg found clean row newer => ?row, fun j arg found bad row first left room => ?poison,
    fun g rd size signed arg found job done clean nonzero newer waits => ?value, fun g arg found first => ?missed⟩,
    fun s c k id => ⟨fun arg => ?stall, fun w arg found => ⟨fun p e l proc leaf => ?leaf, fun p l proc fault => ?fault⟩⟩⟩
  case row =>
    have lands := s.landJoin_row clean row
    refine ⟨s.landJoin j, { core := j.core, space := 0, rank := 3, addr := 256 * j.row, data := j.merged (s.aBytes j.core (256 * j.row) 256), sel := [] },
      ?_, ?_, rfl, rfl, rfl, j.merged_length _, fun i hi => j.merged_getD _ hi, ?_⟩
    · simp only [exec, execVectorResult, arg, State.landJoinId_found found]
    · rw [lands]
      exact State.landRow_wb _ _ _ newer
    · rw [lands, State.landRow_joins]
      exact State.joins_gone found
  case poison =>
    have raises := s.landJoin_poisoned bad row
    generalize hu : ({ s with joins := s.joins.filter fun x => x.id != j.id } : State).modCore j.core (fun k => k) = u at raises
    have core : u.core j.core = s.core j.core := by
      rw [← hu, State.core_modCore]
      rfl
    rw [← core] at first left room
    obtain ⟨rows, ⟨lcyc, record⟩, replay⟩ := State.raiseVector_first left first room j.stamp j.rep
      { code := 0x18, va := j.entry.va, kind := j.entry.kind } j.entry
    obtain ⟨wb, joins⟩ := State.raiseVector_keeps left j.stamp j.rep { code := 0x18, va := j.entry.va, kind := j.entry.kind } j.entry
    rw [core] at rows replay
    have runs : exec .globalResultReturn s = .next (s.landJoin j) := by simp only [exec, execGlobalResultReturn, arg, State.landJoinId_found found]
    rw [raises] at runs
    refine ⟨_, _, _, runs, wb.trans (by rw [← hu]; rfl), rows, record, rfl, rfl, rfl, rfl, rfl, rfl, replay, rfl, rfl, rfl, fun x hx => ?_⟩
    have kept := joins x hx
    rw [← hu] at kept
    exact State.joins_gone found x kept
  case value =>
    refine ⟨(s.dropReq id).landScalar g.core (.reg rd) (extendBytes signed g.val) g.stamp, ?_, ?_, ?_, rfl, rfl⟩
    · simp only [exec, execGlobalResultReturn, arg, found, State.returnValue, job, done, clean, Bool.false_and, Bool.not_true, Bool.false_eq_true, if_false]
    · rw [State.landScalar_sval _ _ _ _ nonzero]
      exact if_neg (Nat.not_lt.2 newer)
    · exact State.landScalar_pendingReg _ _ nonzero _ waits
  case missed =>
    have missed := State.Missed.failRequest (s := { s with greqs := s.greqs.filter (fun x => x.id != id) }) (g := g) first
    obtain ⟨f, record, code, sub, final, source⟩ := missed.record
    refine ⟨_, f, ?_, record, code, sub, final, source, fun x hx => ?_, missed.told, (State.failRequest_store ..).1⟩
    · simp only [exec, execPromiseExpiry, arg, found]
    · simpa using (List.mem_filter.1 (missed.greqs x hx)).2
  case stall =>
    refine ⟨s.postIssue c k s.now, ?_, ⟨_, s.post_listed s.now 2 (some c) _, rfl, rfl, rfl, rfl⟩, rfl, rfl⟩
    simp only [exec, execStallRelease, arg]
  case leaf =>
    have ends := State.endWalk_leaf (s := { s with walks := s.walks.filter (fun x => x.id != id) }) proc leaf
    refine ⟨_, execPageWalk_found arg found, ?_⟩
    rw [ends, State.core_modCore, Core.tlbOf_setTlb]
    exact ⟨fun x hx => by simpa using (List.mem_filter.1 hx).2, ⟨_, mem_tlbFill .., rfl⟩, fun x hx locked => mem_tlbFill_locked hx locked _ _ _,
      fun x other => State.core_modCore_ne _ _ _ _ other, rfl⟩
  case fault =>
    rw [execPageWalk_found arg found, State.endWalk_fault (s := { s with walks := s.walks.filter (fun x => x.id != id) }) proc fault]

end Sys2Proof.Machine
end

