-- ==== Sys2Proof/Proofs/GlobalRequests.lean ====
section
/-! SUPPORT. What each atomic leaves, as operations of words (R189), and a request of a stream at a home in LPDDR where no page moves and no word is upset or
poisoned (R188, R281, R284); with them O43. -/

namespace Sys2Proof.Machine

open Sys2Proof.Claims

/-! ### Atomics (R189) -/

/-- A choice by a signed comparison: equal words choose the same either way. -/
theorem toNat_ite_slt {w : Nat} {x y p q : BitVec w} (tie : x = y → p = q) :
    (if x.toInt ≤ y.toInt then p.toNat else q.toNat) = (if x.slt y then p else q).toNat := by
  simp only [BitVec.slt_iff_toInt_lt]
  rcases lt_trichotomy x.toInt y.toInt with less | same | more
  · rw [if_pos less.le, if_pos less]
  · rw [if_pos same.le, if_neg same.not_lt, tie (BitVec.eq_of_toInt_eq same)]
  · rw [if_neg more.not_ge, if_neg more.not_gt]

section

variable {n : Nat} (x y : BitVec (8 * n)) {b : Nat} (hb : b % 2 ^ (8 * n) = y.toNat)
include hb

theorem amoFn_add : amoFn 0 n x.toNat b = (x + y).toNat := by
  rw [amoFn, BitVec.toNat_add, ← hb]
theorem amoFn_min : amoFn 1 n x.toNat b = (if x.slt y then x else y).toNat := by
  simp only [amoFn, hb, signedOf_eq_toInt, BitVec.ofNat_toNat, BitVec.setWidth_eq]
  exact toNat_ite_slt id
theorem amoFn_max : amoFn 2 n x.toNat b = (if x.slt y then y else x).toNat := by
  simp only [amoFn, hb, signedOf_eq_toInt, BitVec.ofNat_toNat, BitVec.setWidth_eq]
  exact toNat_ite_slt Eq.symm
theorem amoFn_minu : amoFn 3 n x.toNat b = min x.toNat y.toNat := by rw [amoFn, hb]
theorem amoFn_maxu : amoFn 4 n x.toNat b = max x.toNat y.toNat := by rw [amoFn, hb]
theorem amoFn_and : amoFn 5 n x.toNat b = (x &&& y).toNat := by rw [amoFn, hb, BitVec.toNat_and]
theorem amoFn_or : amoFn 6 n x.toNat b = (x ||| y).toNat := by rw [amoFn, hb, BitVec.toNat_or]
theorem amoFn_xor : amoFn 7 n x.toNat b = (x ^^^ y).toNat := by rw [amoFn, hb, BitVec.toNat_xor]
theorem amoFn_swap : amoFn 8 n x.toNat b = y.toNat := by rw [amoFn, hb]

end

theorem amoFn_fadd (x y : BitVec 32) {b : Nat} (hb : b % 2 ^ 32 = y.toNat) : amoFn 9 4 x.toNat b = (fpAdd fp32 0 x.toNat y.toNat).1 :=
  congrArg (fun v => (fpAdd fp32 0 x.toNat v).1) hb

/-- A comparison of whole words. -/
theorem newValue_cas (old b c : BitVec 64) (rd : BitVec 5) :
    (GJob.cas 8 b c rd).newValue 8 old.toNat = if old = b then some c.toNat else none := by
  have whole (v : BitVec 64) : v.toNat % 2 ^ (8 * 8) = v.toNat := Nat.mod_eq_of_lt v.isLt
  simp only [GJob.newValue, whole, BitVec.toNat_inj]

/-! ### Bytes written and read back (R5) -/

theorem Memory.readBytes_writeBytes {m : Memory} (hm : Memory.wf m = true) (a : Nat) (bs : List Byte) :
    Memory.readBytes (Memory.writeBytes m a bs) a bs.length = bs := by
  refine List.ext_getElem (Memory.readBytes_length ..) fun i hi hi' => ?_
  have read := Memory.readBytes_getD (Memory.writeBytes m a bs) a bs.length i hi'
  rw [Memory.read_writeBytes a bs hm, if_pos (by omega), Nat.add_sub_cancel_left] at read
  rwa [List.getD_eq_getElem _ _ hi, List.getD_eq_getElem _ _ hi'] at read
/-- The number that `n` bytes written hold. -/
theorem Memory.leNat_writeBytes {m : Memory} (hm : Memory.wf m = true) (a n v : Nat) :
    leNat (Memory.readBytes (Memory.writeBytes m a (leBytes n v)) a n) = v % 2 ^ (8 * n) := by
  have back := Memory.readBytes_writeBytes hm a (leBytes n v)
  rw [leBytes_length] at back
  rw [back, leNat_leBytes, pow_mul]
  norm_num
theorem Memory.read_writeBytes_out {m : Memory} (hm : Memory.wf m = true) {a : Nat} {bs : List Byte} {x : Nat} (out : x < a ∨ a + bs.length ≤ x) :
    Memory.read (Memory.writeBytes m a bs) x = Memory.read m x := by
  rw [Memory.read_writeBytes a bs hm, if_neg (by omega)]

/-! ### A home in LPDDR (R281, R284) -/

/-- No page moves, no word of LPDDR is upset or poisoned, and no hart holds a reservation. -/
structure State.Settled (s : State) : Prop where
  migrations : s.migrations = []
  memUpsets : s.memUpsets = []
  memPoison : s.memPoison = []
  resvs : s.resvs = []

theorem State.Settled.forwardPa {s : State} (settled : s.Settled) (pa : Nat) : s.forwardPa pa = pa := by
  rw [State.forwardPa, settled.migrations]
  rfl

theorem State.homeOf_local {s : State} {pa : Nat} (near : s.isLocal pa = true) : ∃ d, s.homeOf pa = .lpddr d := by
  unfold State.isLocal at near
  split at near
  case h_1 d home => exact ⟨d, home⟩
  case h_2 => exact absurd near Bool.false_ne_true
theorem State.isRemote_local {s : State} {pa : Nat} (near : s.isLocal pa = true) : s.isRemote pa = false := by
  obtain ⟨d, home⟩ := State.homeOf_local near
  by_contra far
  rw [Bool.not_eq_false, State.isRemote] at far
  rw [State.homeOf] at home
  rw [if_pos far] at home
  split at home <;> exact absurd home (by simp)

section

variable {s : State} {pa : Nat} (settled : s.Settled) (near : s.isLocal pa = true)
include settled near

theorem State.Settled.readHome (n : Nat) : s.readHome pa n = (s, s.mem.readBytes (pa % 2 ^ 50) n, false) := by
  obtain ⟨d, home⟩ := State.homeOf_local near
  simp only [State.readHome, settled.forwardPa, near, if_true, State.memScrub, settled.memUpsets, State.homeRead, home, State.memPoisoned,
    settled.memPoison, List.isEmpty_nil, Bool.not_true, Bool.false_and, State.memLoad]
theorem State.Settled.homeWriteSel (data : List Byte) (sel : List Bool) :
    s.homeWriteSel pa data sel = { s with mem := s.mem.writeSel (pa % 2 ^ 50) data sel } := by
  obtain ⟨d, home⟩ := State.homeOf_local near
  simp only [State.homeWriteSel, settled.forwardPa, home, State.memStore, State.redirty, settled.memPoison, settled.memUpsets, settled.resvs,
    settled.migrations, List.isEmpty_nil, if_true, List.map_nil]
theorem State.Settled.homeWrite (data : List Byte) : s.homeWrite pa data = { s with mem := s.mem.writeBytes (pa % 2 ^ 50) data } := by
  rw [State.homeWrite, settled.homeWriteSel near, Memory.writeSel_nil]

end

/-! ### Performing (R188, R189) -/

section

variable {s : State} {id : Nat} {g : GReq} (found : s.greqs.find? (fun x => x.id == id && !x.done) = some g)
include found

theorem State.find_greq_id : g.id = id := by
  have hit := List.find?_some found
  simp only [Bool.and_eq_true, beq_iff_eq] at hit
  exact hit.1
variable (arg : s.arg = .nums [id])
include arg

/-- A slot without a request of its own is released. -/
theorem execGlobalPerform_slot (empty : g.n = 0) : exec .globalPerform s = .next (s.dropReq id) := by
  simp only [exec, execGlobalPerform, arg, found, empty, if_true]

variable (settled : s.Settled) (near : s.isLocal g.pa = true) (bytes : 0 < g.n) (whole : g.parts = [(0, g.pa, g.n)])
include settled near bytes whole

theorem execGlobalPerform_here : exec .globalPerform s = .next (s.performHere g) := by
  have home := State.isRemote_local near
  have stays : (g.parts.any fun p => s.isRemote (s.forwardPa p.2.1)) = false := by
    rw [whole, List.any_cons, settled.forwardPa, home]
    rfl
  simp only [exec, execGlobalPerform, arg, found, State.perform, Nat.pos_iff_ne_zero.1 bytes, home, stays, if_false, Bool.false_eq_true]

end

section

variable {s : State} {g : GReq} (settled : s.Settled) (near : s.isLocal g.pa = true)
include settled near

theorem State.performHere_store {d : List Byte} {sel : List Bool} (job : g.job = .store d sel) :
    s.performHere g = ({ s with mem := s.mem.writeSel (g.pa % 2 ^ 50) d sel } : State).dropReq g.id := by
  simp only [State.performHere, State.foundHome, job, GJob.returns, Bool.false_eq_true, if_false, settled.homeWriteSel near]
theorem State.performHere_load {rd : BitVec 5} {size : Nat} {signed : Bool} (job : g.job = .load rd size signed) :
    s.performHere g = s.foundAt g.id (s.mem.readBytes (g.pa % 2 ^ 50) g.n) false := by
  simp only [State.performHere, State.foundHome, job, GJob.returns, GReq.parts, GJob.newValue, if_true, List.foldl_cons, List.foldl_nil,
    settled.readHome near, List.nil_append, Bool.false_or, Bool.false_eq_true, if_false]
theorem State.performHere_amo {op size : Nat} {b : Word64} {rd : BitVec 5} (job : g.job = .amo op size b rd) :
    let old := s.mem.readBytes (g.pa % 2 ^ 50) g.n
    s.performHere g = ({ s with mem := s.mem.writeBytes (g.pa % 2 ^ 50) (leBytes g.n (amoFn op g.n (leNat old) b.toNat)) } : State).foundAt g.id old false := by
  simp only [State.performHere, State.foundHome, job, GJob.returns, GReq.parts, GJob.newValue, if_true, List.foldl_cons, List.foldl_nil,
    settled.readHome near, List.nil_append, Bool.false_or, Bool.false_eq_true, if_false, settled.homeWrite near]
theorem State.performHere_cas {size : Nat} {b w : Word64} {rd : BitVec 5} (job : g.job = .cas size b w rd) :
    let old := s.mem.readBytes (g.pa % 2 ^ 50) g.n
    s.performHere g = ({ s with
      mem := if leNat old = b.toNat % 2 ^ (8 * g.n) then s.mem.writeBytes (g.pa % 2 ^ 50) (leBytes g.n (w.toNat % 2 ^ (8 * g.n))) else s.mem } :
      State).foundAt g.id old false := by
  simp only [State.performHere, State.foundHome, job, GJob.returns, GReq.parts, GJob.newValue, if_true, List.foldl_cons, List.foldl_nil,
    settled.readHome near, List.nil_append, Bool.false_or, Bool.false_eq_true, if_false]
  split_ifs
  · simp only [settled.homeWrite near]
  · rfl

end

/-- Settles O43: the atomics operation by operation, and each kind of request by what performing it leaves. -/
theorem globalRequestsPerform : Obligations.GlobalRequestsPerform := by
  unfold Obligations.GlobalRequestsPerform
  refine ⟨fun old b x y rd b' same => ?atomics, fun s id g arg found near migrations memUpsets memPoison resvs wf => ?performs⟩
  case atomics =>
    have wide : b.toNat % 2 ^ (8 * 8) = b.toNat := Nat.mod_eq_of_lt b.isLt
    have narrow : b'.toNat % 2 ^ (8 * 4) = y.toNat := by rw [← same, BitVec.toNat_setWidth]
    exact ⟨congrArg some (amoFn_add (n := 8) old b wide), congrArg some (amoFn_add (n := 4) x y narrow),
      congrArg some (amoFn_min (n := 8) old b wide), congrArg some (amoFn_min (n := 4) x y narrow),
      congrArg some (amoFn_max (n := 8) old b wide), congrArg some (amoFn_max (n := 4) x y narrow),
      congrArg some (amoFn_minu (n := 8) old b wide), congrArg some (amoFn_minu (n := 4) x y narrow),
      congrArg some (amoFn_maxu (n := 8) old b wide), congrArg some (amoFn_maxu (n := 4) x y narrow),
      congrArg some (amoFn_and (n := 8) old b wide), congrArg some (amoFn_and (n := 4) x y narrow),
      congrArg some (amoFn_or (n := 8) old b wide), congrArg some (amoFn_or (n := 4) x y narrow),
      congrArg some (amoFn_xor (n := 8) old b wide), congrArg some (amoFn_xor (n := 4) x y narrow),
      congrArg some (amoFn_swap (n := 8) old b wide), congrArg some (amoFn_swap (n := 4) x y narrow),
      congrArg some (amoFn_fadd x y narrow), fun c => newValue_cas old b c rd⟩
  case performs =>
    have settled : s.Settled := ⟨migrations, memUpsets, memPoison, resvs⟩
    have number := State.find_greq_id found
    have runs (bytes : 0 < g.n) (whole : g.parts = [(0, g.pa, g.n)]) : exec .globalPerform s = .next (s.performHere g) :=
      execGlobalPerform_here found arg settled near bytes whole
    refine ⟨execGlobalPerform_slot found arg, fun d sel bytes job fits => ?store, fun rd size signed bytes job => ?load,
      fun op size b rd bytes job => ?amo, fun size b w rd bytes job => ?cas⟩
    case store =>
      refine ⟨_, runs bytes (by simp only [GReq.parts, job]), ?_⟩
      rw [State.performHere_store settled near job, number]
      refine ⟨fun i hi => ?_, fun a out => ?_, rfl⟩
      · refine (Memory.read_writeSel wf _ fits _).trans ?_
        simp only [Nat.le_add_right, Nat.add_lt_add_iff_left, hi, Nat.add_sub_cancel_left, true_and]
      · exact (Memory.read_writeSel wf _ fits _).trans (if_neg (by omega))
    case load =>
      rw [runs bytes (by simp only [GReq.parts, job]), State.performHere_load settled near job, number]
      rfl
    case amo =>
      refine ⟨_, runs bytes (by simp only [GReq.parts, job]), ?_⟩
      rw [State.performHere_amo settled near job, number]
      exact ⟨Memory.leNat_writeBytes wf .., fun a out => Memory.read_writeBytes_out wf (by rwa [leBytes_length]), rfl⟩
    case cas =>
      refine ⟨_, runs bytes (by simp only [GReq.parts, job]), ?_⟩
      rw [State.performHere_cas settled near job, number]
      refine ⟨fun hit => ?_, fun miss => if_neg miss, fun a out => ?_, rfl⟩
      · refine (congrArg (fun m => leNat (Memory.readBytes m _ _)) (if_pos hit)).trans ?_
        rw [Memory.leNat_writeBytes wf, Nat.mod_mod]
      · refine (apply_ite (Memory.read · a) _ _ _).trans ?_
        split
        · exact Memory.read_writeBytes_out wf (by rwa [leBytes_length])
        · rfl

end Sys2Proof.Machine
end

