-- ==== Sys2Proof/Proofs/VectorRepeats.lean ====
section
/-! SUPPORT. One repeat of a vector word that can run (R206 to R211): what reading its sources leaves of the core, and each form of word as the repeat that
sends its rows or its mask. -/

namespace Sys2Proof.Machine

open Sys2Proof.Claims

/-! ### Reading the sources (R208) -/

/-- Only core `c` tells `t` from `s`, by its source queues and its record of pops. -/
structure State.Pops (s t : State) (c : Nat) : Prop where
  rest : ∃ cores, t = { s with cores }
  core : ∃ qs2v qm2v popped, t.core c = { s.core c with qs2v, qm2v, popped }

section

variable {s t u : State} {c : Nat}

theorem State.Pops.refl (s : State) (c : Nat) : s.Pops s c := ⟨⟨_, rfl⟩, ⟨_, _, _, rfl⟩⟩
theorem State.Pops.trans (h : s.Pops t c) (h' : t.Pops u c) : s.Pops u c where
  rest := by
    obtain ⟨_, rfl⟩ := h.rest
    obtain ⟨_, rfl⟩ := h'.rest
    exact ⟨_, rfl⟩
  core := by
    obtain ⟨_, _, _, own⟩ := h.core
    obtain ⟨_, _, _, own'⟩ := h'.core
    rw [own', own]
    exact ⟨_, _, _, rfl⟩
/-- Queues set and a pop noted. -/
theorem State.Pops.noted (s : State) (c : Nat) (qs2v : Queue Word64) (qm2v : Queue (List Byte)) (st : StreamSt) (q : Nat) (items : List (Nat × List Byte)) :
    s.Pops ((s.setCore c { s.core c with qs2v, qm2v }).notePop c st q items) c where
  rest := ⟨_, rfl⟩
  core := by
    rw [State.notePop, State.core_modCore, State.core_setCore]
    exact ⟨_, _, _, rfl⟩

theorem readSrc_pops {bits i rows : Nat} {o : VOp} {x : List (List Byte)} (read : readSrc s c bits o i rows = some (t, x)) : s.Pops t c := by
  unfold readSrc at read
  dsimp only at read
  split_ifs at read <;> obtain ⟨rfl, -⟩ := Prod.mk.inj (Option.some.inj read)
  · exact .refl ..
  · exact .noted ..
  · exact .noted ..
  · exact .refl ..
  · exact .refl ..

variable (h : s.Pops t c)
include h

theorem State.Pops.curCore : t.curCore = s.curCore := by
  obtain ⟨_, rfl⟩ := h.rest
  rfl
theorem State.Pops.ve : (t.core c).ve = (s.core c).ve := by
  obtain ⟨_, _, _, own⟩ := h.core
  rw [own]
theorem State.Pops.upsets : (t.core c).upsets = (s.core c).upsets := by
  obtain ⟨_, _, _, own⟩ := h.core
  rw [own]
theorem State.Pops.key : (t.core c).key = (s.core c).key := by
  obtain ⟨_, _, _, own⟩ := h.core
  rw [own]
  rfl
theorem State.Pops.mval (m : Nat) : (t.core c).mval m = (s.core c).mval m := by
  obtain ⟨_, _, _, own⟩ := h.core
  rw [own]
  rfl
theorem State.Pops.lanes : (t.core c).lanesNow ((t.core c).curWord .vector) = (s.core c).lanesNow ((s.core c).curWord .vector) := by
  obtain ⟨_, _, _, own⟩ := h.core
  rw [own]
  rfl
theorem State.Pops.vRow (r : Nat) : t.vRow c r = s.vRow c r := by
  obtain ⟨_, _, _, own⟩ := h.core
  have space : (t.core c).space 0 = (s.core c).space 0 := by
    rw [own]
    rfl
  have writes : t.wb = s.wb := by
    obtain ⟨_, rfl⟩ := h.rest
    rfl
  rw [State.vRow, h.ve, State.aBytes, State.cycBytes, State.writesTo, space, writes]
  rfl

end

end Sys2Proof.Machine

/-! ### A repeat that can run (R206 to R211) -/

namespace Sys2Proof.Claims

open Sys2Proof.Machine

section

variable {s t : State} {v : VWord} {fm : VForm} {a b : List (List Byte)} (h : Runs s v fm t a b)
include h

theorem Runs.pops : s.Pops t s.curCore := by
  obtain ⟨u, reads, reads'⟩ := h.reads
  exact (readSrc_pops reads).trans (readSrc_pops reads')

/-- The masks, the active elements and the generator key that it computes from are those of the core in issue. -/
theorem Runs.mval (m : Nat) : (envOf s t v fm a b).k.mval m = (here s).mval m := h.pops.mval m
theorem Runs.act (n : Nat) : (envOf s t v fm a b).act n = ((here s).lanesNow ((here s).curWord .vector)).getLsbD n :=
  congrArg (BitVec.getLsbD · n) h.pops.lanes
theorem Runs.key : (envOf s t v fm a b).key = (here s).key := h.pops.key

/-- No row that it names waits for a load. -/
theorem Runs.not_pending (o : VOp) (i rows : Nat) : s.rowPending s.curCore o i rows = false := by
  refine Bool.eq_false_iff.2 fun waits => ?_
  simp only [State.rowPending, Bool.and_eq_true, List.any_eq_true, beq_iff_eq] at waits
  obtain ⟨-, j, listed, ⟨own, due⟩, -⟩ := waits
  exact h.settled.2 j listed own due
/-- None is poisoned. -/
theorem Runs.not_poisoned (o : VOp) (i rows : Nat) : poisonedSrc s s.curCore o i rows = false := by
  have poison : (s.core s.curCore).poison = [] := h.sound.1
  have upsets : (s.core s.curCore).upsets = [] := h.sound.2
  simp [poisonedSrc, poison, upsets]
/-- Its reads correct nothing. -/
theorem Runs.afterSrc_same (i : Nat) (l : List (VOp × Nat)) : l.foldl (fun u r => u.afterSrc s.curCore r.1 i r.2) t = t := by
  have upsets : (t.core s.curCore).upsets = [] := h.pops.upsets.trans h.sound.2
  induction l with
  | nil => rfl
  | cons r l ih =>
    have still : t.afterSrc s.curCore r.1 i r.2 = t := by simp [State.afterSrc, upsets]
    rw [List.foldl_cons, still, ih]

/-- It sends what it computes from its sources. -/
theorem Runs.issues (finish : State → VEnv → Nat → State) :
    runWith v fm finish s s.curCore (here s).ve.sub = .ok (finish t (envOf s t v fm a b) (fm.q - 1 + fm.lat)) fm.q := by
  obtain ⟨u, reads, reads'⟩ := h.reads
  have room : (fm.dRows != 0 && !dstRoom s s.curCore v.d fm.dRows) = false := by
    by_cases none : fm.dRows = 0
    · simp [none]
    · simp [h.room none]
  have settled : (s.core s.curCore).maskPending (v.mask.toNat :: fm.masks) = false := h.settled.1
  have waits (l : List (VOp × Nat)) : l.any (fun r => s.rowPending s.curCore r.1 (here s).ve.sub r.2) = false :=
    List.any_eq_false.2 fun r _ => by simp [h.not_pending]
  have poisoned (l : List (VOp × Nat)) : l.any (fun r => poisonedSrc s s.curCore r.1 (here s).ve.sub r.2) = false :=
    List.any_eq_false.2 fun r _ => by simp [h.not_poisoned]
  simp only [runWith, reads, reads', room, settled, waits, poisoned, h.afterSrc_same, Bool.false_or, Bool.false_eq_true, if_false]
  rfl

end

end Sys2Proof.Claims

/-! ### The forms of vector words -/

namespace Sys2Proof.Machine

open Sys2Proof.Claims

/-- An operand check that finds nothing. -/
theorem operandIf_ok {bad : Bool} (ok : bad = false) : operandIf bad = none := by simp [operandIf, ok]
theorem operandIf_bad {bad : Bool} (no : bad = true) : operandIf bad = some 2 := by simp [operandIf, no]

/-- The code of QV2S in a destination. -/
theorem toNat_codeQV2S (r : BitVec 11) : r.toNat = codeQV2S ↔ r = 2041#11 := ⟨fun h => BitVec.eq_of_toNat_eq h, fun h => h ▸ rfl⟩
theorem toNat_codeQV2M (r : BitVec 11) : r.toNat = codeQV2M ↔ r = 2042#11 := ⟨fun h => BitVec.eq_of_toNat_eq h, fun h => h ▸ rfl⟩

section

variable {i : Instr} {s t : State} {v : VWord} {fm : VForm} {a b : List (List Byte)} (wf : i.wf = true)
include wf

/-- A word whose checks find nothing is its repeat in issue. -/
theorem vectorWord_ok {ok : Core → Option Nat} (checks : ok (here s) = none) (reps : Nat) (f : State → Nat → Nat → VOut) :
    vectorWord i reps s ok f = finishVector s.curCore reps (f s s.curCore (here s).ve.sub) := by
  have checks : ok (s.core s.curCore) = none := checks
  simp only [vectorWord, wf, checks, Bool.not_true, Bool.false_eq_true, if_false]
  rfl
/-- One whose operands are illegal raises ILLEGAL_OPERAND. -/
theorem vectorWord_operand {bad : Core → Bool} (no : bad (here s) = true) (reps : Nat) (f : State → Nat → Nat → VOut) :
    vectorWord i reps s (fun k => operandIf (bad k)) f =
      .next (s.raiseIn s.curCore { code := 2, source := 1 } .vector (here s).vectorEntry) := by
  have checks : operandIf (bad (s.core s.curCore)) = some 2 := operandIf_bad no
  simp only [vectorWord, wf, checks, Bool.not_true, Bool.false_eq_true, if_false]
  rfl

variable (h : Runs s v fm t a b)
include h

/-- A word whose repeat can run sends what it computes from its sources. -/
theorem vectorWord_runs {bad : Core → Bool} (ok : bad (here s) = false) (reps : Nat) (finish : State → VEnv → Nat → State) :
    vectorWord i reps s (fun k => operandIf (bad k)) (runWith v fm finish) =
      .next ((finish t (envOf s t v fm a b) (fm.q - 1 + fm.lat)).repeatDone s.curCore fm.q reps) := by
  rw [vectorWord_ok wf (operandIf_ok ok), h.issues]
  rfl
end

/-- Rows of the repeat in issue go to D. -/
theorem sends_eq (s t : State) (v : VWord) (fm : VForm) (rows : List (List Byte)) (flags : Nat) :
    (let u : State := if v.d.reg.toNat = codeQV2S then { t with free := t.free + 256 } else t
     (u.sendRows u.curCore (fm.q - 1 + fm.lat) fm.dty v.d (here s).ve.sub rows flags).repeatDone s.curCore fm.q (repsOf v)) =
      sends s t v fm rows flags := by
  simp only [toNat_codeQV2S, sends]
  split <;> rfl

section

variable {i : Instr} {s t : State} {v : VWord} {fm : VForm} {a b : List (List Byte)}

/-- A repeat whose result rows go to D. -/
theorem Runs.finishes (h : Runs s v fm t a b) (compute : VEnv → List (List Byte) × Nat) :
    finishVector s.curCore (repsOf v) (runRepeat v fm compute s s.curCore (here s).ve.sub) =
      .next (sends s t v fm (compute (envOf s t v fm a b)).1 (compute (envOf s t v fm a b)).2) := by
  rw [runRepeat, h.issues]
  exact congrArg Host.Outcome.next (sends_eq s t v fm _ _)
variable (wf : i.wf = true) (h : Runs s v fm t a b)
include wf h

/-- A word whose result rows go to D. -/
theorem vectorWord_sends {bad : Core → Bool} (ok : bad (here s) = false) {reps : Nat} (all : reps = repsOf v)
    (compute : VEnv → List (List Byte) × Nat) :
    vectorWord i reps s (fun k => operandIf (bad k)) (runRepeat v fm compute) =
      .next (sends s t v fm (compute (envOf s t v fm a b)).1 (compute (envOf s t v fm a b)).2) := by
  rw [vectorWord_ok wf (operandIf_ok ok), all]
  exact Runs.finishes h compute
theorem plainVector_sends (compute : VEnv → List (List Byte) × Nat) :
    plainVector i v fm compute s = .next (sends s t v fm (compute (envOf s t v fm a b)).1 (compute (envOf s t v fm a b)).2) :=
  vectorWord_sends wf h (bad := fun _ => !formOk v fm) (by rw [h.form]; rfl) rfl compute
/-- An elementwise word, by the value of its function at elements of A, B and D. -/
theorem elemWord_sends {g : Nat → Nat → Nat → Nat → Nat × Nat} {f : Nat → Nat → Nat → Nat × Nat}
    (value : ∀ x y z, g v.rnd.toNat x y z = f x y z) :
    elemWord i v fm g s = .next (sends s t v fm [(mapElems (tyBits v.ty.toNat) (envOf s t v fm a b) fun _ => f).1]
      (mapElems (tyBits v.ty.toNat) (envOf s t v fm a b) fun _ => f).2) := by
  obtain rfl : g v.rnd.toNat = f := funext fun x => funext fun y => funext (value x y)
  exact plainVector_sends wf h _

end

end Sys2Proof.Machine
end

