-- ==== Sys2Proof/Proofs/VectorElements.lean ====
section
/-! SUPPORT. The elements of rows (R205): cut from bytes, put back into bytes, and combined element by element under a mask (R209); with them O24. -/

namespace Sys2Proof.Machine

open Sys2Proof.Claims

/-! ### Runs of a list -/

section

variable {α : Type} {k : Nat} (pos : 0 < k)
include pos

/-- The j-th run. -/
theorem chunksOf_getElem? {n : Nat} {l : List α} (fuel : l.length ≤ n) (j : Nat) :
    (chunksOf k n l)[j]? = if k * j < l.length then some ((l.drop (k * j)).take k) else none := by
  induction n generalizing l j with
  | zero =>
    obtain rfl := List.length_eq_zero_iff.1 (Nat.le_zero.1 fuel)
    simp [chunksOf]
  | succ n ih =>
    cases l with
    | nil => simp [chunksOf]
    | cons x xs =>
      cases j with
      | zero => simp [chunksOf]
      | succ j =>
        have shorter : ((x :: xs).drop k).length ≤ n := by
          rw [List.length_drop]
          omega
        have inside : k * j < (x :: xs).length - k ↔ k * (j + 1) < (x :: xs).length := by
          rw [Nat.mul_succ]
          omega
        simp only [chunksOf, List.getElem?_cons_succ, ih shorter, List.length_drop, inside, List.drop_drop, ← Nat.mul_succ, Nat.add_comm k]

theorem chunksOf_length {n m : Nat} {l : List α} (fuel : l.length ≤ n) (full : l.length = k * m) : (chunksOf k n l).length = m := by
  have inside (j : Nat) : j < (chunksOf k n l).length ↔ j < m := by
    have run := chunksOf_getElem? pos fuel j
    simp only [full, Nat.mul_lt_mul_left pos] at run
    rw [← not_iff_not, not_lt, ← List.getElem?_eq_none_iff, run]
    simp
  exact le_antisymm (not_lt.1 fun more => lt_irrefl _ ((inside _).1 more)) (not_lt.1 fun less => lt_irrefl _ ((inside _).2 less))

/-- More fuel than elements changes nothing. -/
theorem chunksOf_fuel {n : Nat} {l : List α} (fuel : l.length ≤ n) : chunksOf k n l = chunksOf k l.length l :=
  List.ext_getElem? fun j => (chunksOf_getElem? pos fuel j).trans (chunksOf_getElem? pos le_rfl j).symm

/-- The first run is what comes first. -/
theorem chunksOf_append {a l : List α} (run : a.length = k) : chunksOf k (a ++ l).length (a ++ l) = a :: chunksOf k l.length l := by
  obtain ⟨x, xs, rfl⟩ := List.exists_cons_of_length_pos (run ▸ pos)
  have cut : (x :: xs ++ l).take k = x :: xs := List.take_left' run
  have rest : (x :: xs ++ l).drop k = l := List.drop_left' run
  rw [List.cons_append] at cut rest ⊢
  rw [List.length_cons, chunksOf, cut, rest, chunksOf_fuel pos (by simp)]

end

/-! ### Elements and bytes (R205) -/

/-- A number of so many bytes. -/
theorem leNat_lt (l : List Byte) : leNat l < 256 ^ l.length := by
  induction l with
  | nil => simp [leNat]
  | cons b l ih =>
    have := b.isLt
    rw [leNat, List.length_cons, pow_succ]
    omega

/-- Element types of whole bytes. -/
structure ByteWide (w : Nat) : Prop where
  pos : 0 < w / 8
  bytes : 8 * (w / 8) = w

theorem byteWide {w : Nat} (h : w = 8 ∨ w = 16 ∨ w = 32) : ByteWide w := by
  rcases h with rfl | rfl | rfl <;> exact ⟨by decide, by decide⟩

section

variable {w : Nat} (wide : ByteWide w)
include wide

theorem ByteWide.pow : 256 ^ (w / 8) = 2 ^ w := by
  rw [show (256 : Nat) = 2 ^ 8 from rfl, ← pow_mul, wide.bytes]

/-- The j-th element of a row. -/
theorem elemsOf_getElem? (row : List Byte) (j : Nat) :
    (elemsOf w row)[j]? = if w / 8 * j < row.length then some (leNat ((row.drop (w / 8 * j)).take (w / 8))) else none := by
  rw [elemsOf, List.getElem?_map, chunksOf_getElem? wide.pos le_rfl]
  split <;> rfl
theorem elemsOf_length {row : List Byte} {n : Nat} (full : row.length = w / 8 * n) : (elemsOf w row).length = n := by
  rw [elemsOf, List.length_map, chunksOf_length wide.pos le_rfl full]
theorem elemsOf_lt (row : List Byte) (j : Nat) : (elemsOf w row).getD j 0 < 2 ^ w := by
  rw [List.getD_eq_getElem?_getD, elemsOf_getElem? wide]
  split
  · rw [← wide.pow]
    exact (leNat_lt _).trans_le (Nat.pow_le_pow_right (by decide) (by simp))
  · exact Nat.two_pow_pos w
omit wide in
theorem packElems_length (l : List Nat) : (packElems w l).length = w / 8 * l.length := by
  simp [packElems, List.length_flatMap, Nat.mul_comm]
/-- What was put into bytes is cut from them again. -/
theorem elemsOf_packElems (l : List Nat) : elemsOf w (packElems w l) = l.map (· % 2 ^ w) := by
  induction l with
  | nil => rfl
  | cons x l ih =>
    have step : packElems w (x :: l) = leBytes (w / 8) x ++ packElems w l := rfl
    rw [step, elemsOf, chunksOf_append wide.pos (leBytes_length ..), List.map_cons, leNat_leBytes, wide.pow]
    exact congrArg _ ih

end

/-! ### Flags joined over elements (R152) -/

section

variable {α : Type} (g : α → Nat)

/-- A flag is in the union where it was before or an element raises it. -/
theorem testBit_foldl_or (l : List α) (x j : Nat) :
    (l.foldl (fun x r => x ||| g r) x).testBit j = (x.testBit j || l.any fun r => (g r).testBit j) := by
  induction l generalizing x with
  | nil => simp
  | cons r l ih => simp [ih, Bool.or_assoc]
theorem foldl_or_of_mem {l : List α} {r : α} (mem : r ∈ l) (x : Nat) : g r &&& l.foldl (fun x r => x ||| g r) x = g r := by
  refine Nat.eq_of_testBit_eq fun j => ?_
  rw [Nat.testBit_and, testBit_foldl_or]
  cases raised : (g r).testBit j with
  | false => rfl
  | true => simpa using .inr ⟨r, mem, raised⟩
theorem foldl_or_zero {l : List α} (none : ∀ r ∈ l, g r = 0) : l.foldl (fun x r => x ||| g r) 0 = 0 := by
  refine Nat.eq_of_testBit_eq fun j => ?_
  rw [testBit_foldl_or, List.any_eq_false.2 fun r mem => by simp [none r mem]]
  simp

end

/-! ### The rule of elements (R209) -/

/-- What an elementwise word gives for element `n`: result and flags. -/
def VEnv.element (e : VEnv) (f : Nat → Nat → Nat → Nat → Nat × Nat) (n x y z : Nat) : Nat × Nat :=
  if e.act n then f n x y z else (if e.zeroing then 0 else z, 0)

/-- An operand of as many elements as it is asked for. -/
theorem padded_full {n : Nat} {l : List Nat} (full : l.length = n) (pos : 0 < n) : padded n l = l := by
  have some_ : l ≠ [] := List.ne_nil_of_length_pos (full ▸ pos)
  simp [padded, some_]

section

variable {w : Nat} (wide : ByteWide w) {e : VEnv} {n : Nat} (pos : 0 < n) (ha : e.a.flatten.length = w / 8 * n) (hb : e.b.flatten.length = w / 8 * n)
  (hd : e.d.flatten.length = w / 8 * n)
include wide pos ha hb hd

/-- An elementwise result, by the numbers of the elements. -/
theorem mapElems_eq (f : Nat → Nat → Nat → Nat → Nat × Nat) :
    let rs := (List.range n).map fun j => e.element f j ((elemsOf w e.a.flatten).getD j 0) ((elemsOf w e.b.flatten).getD j 0)
      ((elemsOf w e.d.flatten).getD j 0)
    mapElems w e f = (packElems w (rs.map Prod.fst), rs.foldl (fun x r => x ||| r.2) 0) := by
  have la := elemsOf_length wide ha
  have lb := elemsOf_length wide hb
  have ld := elemsOf_length wide hd
  have elements : (List.zip (elemsOf w e.a.flatten) (List.zip (elemsOf w e.b.flatten) (elemsOf w e.d.flatten))).mapIdx
      (fun j x => if e.act j then f j x.1 x.2.1 x.2.2 else (if e.zeroing then 0 else x.2.2, 0)) =
      (List.range n).map fun j => e.element f j ((elemsOf w e.a.flatten).getD j 0) ((elemsOf w e.b.flatten).getD j 0)
        ((elemsOf w e.d.flatten).getD j 0) := by
    refine List.ext_getElem (by simp [la, lb, ld]) fun j inside _ => ?_
    simp only [List.length_mapIdx, List.length_zip, la, lb, ld, min_self] at inside
    simp [VEnv.element, la, lb, ld, inside]
  simp only [mapElems, joinRows, ld, padded_full la pos, padded_full lb pos, elements]

end

/-- Settles O24 (R209): `mapElems_eq`, whose elements are cut from the bytes again. -/
theorem elementRule : Obligations.ElementRule := by
  unfold Obligations.ElementRule
  intro w e f n width ha hb hd inside x y z
  have wide := byteWide width
  have count : w / 8 * (2048 / w) = 256 := by rcases width with rfl | rfl | rfl <;> rfl
  rw [← count] at ha hb hd
  rw [mapElems_eq wide (Nat.zero_lt_of_lt inside) ha hb hd]
  have element : e.element f n x y z ∈ (List.range (2048 / w)).map fun j => e.element f j ((elemsOf w e.a.flatten).getD j 0)
      ((elemsOf w e.b.flatten).getD j 0) ((elemsOf w e.d.flatten).getD j 0) := List.mem_map.2 ⟨n, List.mem_range.2 inside, rfl⟩
  refine ⟨?value, ?length, fun active => ?flags, fun idle => ?quiet⟩
  case value =>
    have old : z < 2 ^ w := elemsOf_lt wide _ _
    rw [elemsOf_packElems wide]
    simp only [List.getD_eq_getElem?_getD, List.getElem?_map, List.getElem?_range inside, Option.map_some, Option.getD_some, Nat.mod_mod,
      VEnv.element]
    split
    · rfl
    · split
      · exact Nat.zero_mod _
      · exact Nat.mod_eq_of_lt old
  case length => simp [packElems_length, count]
  case flags =>
    have raised := foldl_or_of_mem Prod.snd element 0
    rwa [VEnv.element, if_pos active] at raised
  case quiet =>
    refine foldl_or_zero Prod.snd fun r mem => ?_
    obtain ⟨j, -, rfl⟩ := List.mem_map.1 mem
    simp [VEnv.element, idle]

end Sys2Proof.Machine
end

