-- ==== Sys2Proof/Proofs/ElementwiseWords.lean ====
section
/-! SUPPORT. The elementwise words (R214, R215, R232): integer elements as exact values that are narrowed (R159, R160), the sign operations, the shifts; with
them O25. -/

namespace Sys2Proof.Machine

open Sys2Proof.Claims

/-! ### Integer elements (R159, R160) -/

/-- Of the integer types of the vector stream the even codes are signed. -/
theorem isSigned_eq {t : Nat} (int : t ≤ 5) : isSigned t = decide (t % 2 = 0) := by
  interval_cases t <;> rfl

section

variable {v : VWord} (int : ints v = true)
include int

theorem ints_le : v.ty.toNat ≤ 5 := of_decide_eq_true int
theorem isIntTy_ints : isIntTy v.ty.toNat = true := by simp [isIntTy, ints_le int]
theorem intVal_eq (x : Nat) : intVal v.ty.toNat x = val v x := by
  simp only [intVal, val, isSigned_eq (ints_le int), decide_eq_true_eq, signedOf_eq_toInt]
theorem tyMin_eq : tyMin v.ty.toNat = least v := by simp only [tyMin, least, isSigned_eq (ints_le int), decide_eq_true_eq]
theorem tyMax_eq : tyMax v.ty.toNat = greatest v := by simp only [tyMax, greatest, isSigned_eq (ints_le int), decide_eq_true_eq]
theorem intFit_wraps (x : Int) : intFit v.ty.toNat false x = wraps v x := by
  have outside : (x < least v ∨ greatest v < x) ↔ ¬ (least v ≤ x ∧ x ≤ greatest v) := by omega
  simp only [intFit, tyMin_eq int, tyMax_eq int, wraps, outside]
  split <;> simp [*, wrapTo, flIW]
theorem intFit_saturates (x : Int) : intFit v.ty.toNat true x = saturates v x := by
  simp only [intFit, tyMin_eq int, tyMax_eq int, saturates, wrapTo, flSAT, if_true]
  by_cases low : x < least v
  · simp [low]
  by_cases high : greatest v < x
  · simp [low, high]
  · simp [low, high, not_lt.1 low, not_lt.1 high]
theorem arith_int (fi : Int → Int → Int) (ff : Fmt → Nat → Nat → Nat → Nat × Nat) (m x y : Nat) :
    arith v.ty.toNat fi ff m x y = wraps v (fi (val v x) (val v y)) := by
  rw [arith, if_pos (isIntTy_ints int), intFit_wraps int, intVal_eq int, intVal_eq int]
theorem minMax_int (isMax : Bool) (x y : Nat) : minMax v.ty.toNat isMax x y =
    (if isMax then (if val v x < val v y then y else x) else (if val v y < val v x then y else x), 0) := by
  simp only [minMax, isIntTy_ints int, if_true, intVal_eq int]

end

/-! ### Floating-point elements -/

/-- The type of a word is one that its opcode takes. -/
theorem fits_type {v : VWord} {sh : VShape} (fits : v.fits sh = true) : v.ty.toNat ∈ sh.types := by
  simp only [VWord.fits, Bool.and_eq_true, List.contains_iff_mem] at fits
  obtain ⟨⟨⟨⟨⟨⟨⟨⟨types, -⟩, -⟩, -⟩, -⟩, -⟩, -⟩, -⟩, -⟩ := fits
  exact types
/-- Where these are among the codes that R130 gives registers, so is the word's. -/
theorem code_le {v : VWord} {sh : VShape} (fits : v.fits sh = true) (types : ∀ t ∈ sh.types, t ≤ 10) : v.ty.toNat ≤ 10 := types _ (fits_type fits)

section

variable {v : VWord} (fp : ints v = false)
include fp

/-- A type code of R130 that is no integer type. -/
theorem isIntTy_fp (ty : v.ty.toNat ≤ 10) : isIntTy v.ty.toNat = false := by
  have no : ¬ v.ty.toNat ≤ 5 := of_decide_eq_false fp
  simp only [isIntTy, no, decide_false, Bool.false_or, beq_eq_false_iff_ne]
  omega
/-- Its sign bit stands above the others. -/
theorem fmtOf_sign (ty : v.ty.toNat ≤ 10) : (fmtOf v.ty.toNat).eb + (fmtOf v.ty.toNat).mb = tyBits v.ty.toNat - 1 := by
  have low : 5 < v.ty.toNat := not_le.1 (of_decide_eq_false fp)
  generalize v.ty.toNat = t at ty low
  interval_cases t <;> rfl
theorem arith_fp (ty : v.ty.toNat ≤ 10) (fi : Int → Int → Int) (ff : Fmt → Nat → Nat → Nat → Nat × Nat) (m x y : Nat) :
    arith v.ty.toNat fi ff m x y = ff (fmtOf v.ty.toNat) m x y := by
  rw [arith, isIntTy_fp fp ty, if_neg Bool.false_ne_true]
theorem minMax_fp (ty : v.ty.toNat ≤ 10) (isMax : Bool) (x y : Nat) : minMax v.ty.toNat isMax x y = fpMinMax (fmtOf v.ty.toNat) isMax x y := by
  rw [minMax, isIntTy_fp fp ty, if_neg Bool.false_ne_true]
theorem abs_fp (ty : v.ty.toNat ≤ 10) (x : Nat) : (fmtOf v.ty.toNat).abs x = x % 2 ^ (tyBits v.ty.toNat - 1) := by
  rw [Fmt.abs, fmtOf_sign fp ty]
theorem flip_fp (ty : v.ty.toNat ≤ 10) (x : Nat) : (fmtOf v.ty.toNat).flip x = x ^^^ 2 ^ (tyBits v.ty.toNat - 1) := by
  rw [Fmt.flip, fmtOf_sign fp ty, Nat.one_shiftLeft]

end

/-! ### Shifts (R215) -/

/-- A bit vector from its signed value. -/
theorem wrapTo_toInt {w : Nat} (x : BitVec w) : wrapTo w x.toInt = x.toNat := by
  rw [wrapTo, ← Nat.cast_two, ← Nat.cast_pow, BitVec.toInt_eq_toNat_bmod, Int.bmod_emod, ← Int.natCast_mod, Int.toNat_natCast,
    Nat.mod_eq_of_lt x.isLt]
/-- A shift by the width or more leaves sign bits. -/
theorem toInt_div_pow_min {w : Nat} (x : BitVec w) (n : Nat) : x.toInt / 2 ^ min n w = x.toInt / 2 ^ n := by
  rcases le_total n w with short | long
  · rw [min_eq_left short]
  rw [min_eq_right long]
  have least := BitVec.le_toInt x
  have most := BitVec.toInt_lt (x := x)
  have half : (2 : Int) ^ (w - 1) ≤ 2 ^ w := pow_le_pow_right₀ (by decide) (Nat.sub_le ..)
  have more : (2 : Int) ^ w ≤ 2 ^ n := pow_le_pow_right₀ (by decide) long
  rcases lt_or_ge x.toInt 0 with neg | pos
  · rw [Int.ediv_eq_neg_one_of_neg_of_le neg (by omega), Int.ediv_eq_neg_one_of_neg_of_le neg (by omega)]
  · rw [Int.ediv_eq_zero_of_lt pos (by omega), Int.ediv_eq_zero_of_lt pos (by omega)]
theorem sar_eq (w x n : Nat) : wrapTo w (signedOf x w / (2 ^ min n w : Int)) = ((BitVec.ofNat w x).sshiftRight n).toNat := by
  rw [signedOf_eq_toInt, toInt_div_pow_min, ← wrapTo_toInt, BitVec.toInt_sshiftRight, Int.shiftRight_eq_div_pow]
  rfl

section

variable {i : Instr} {s : State} {v : VWord} {f : Nat → Nat → Nat → Nat}

theorem shiftWord_elem (elem : ¬ v.ext.toNat / 2 ^ 23 % 2 = 1) :
    shiftWord i v f s = elemWord i v (formOf v) (fun _ a b _ => (f (tyBits v.ty.toNat) a b, 0)) s :=
  if_neg (by rwa [VWord.e_eq])
theorem shiftWord_imm (imm : v.ext.toNat / 2 ^ 23 % 2 = 1) :
    shiftWord i v f s = elemWord i v (formOf2 v) (fun _ a _ _ => (f (tyBits v.ty.toNat) a (v.ext.toNat % 32), 0)) s := by
  have amount : v.e 0 5 = v.ext.toNat % 32 := by simp [VWord.e_eq]
  rw [← amount]
  exact if_pos (by rwa [VWord.e_eq])

end

/-- Settles O25 (R214, R215, R232): `elemWord_sends` at each word, with the value of its function at elements. -/
theorem elementwiseWords : Obligations.ElementwiseWords := by
  unfold Obligations.ElementwiseWords
  intro v s t a b
  simp only [exec, execVmov, execVadd, execVsub, execVmul, execVfma, execVfms, execVmin, execVmax, execVabs, execVneg, execVadds, execVsubs, execVmulh,
    execVand, execVor, execVxor, execVnot, execVshl, execVshr, execVsar, execVexp2, execVlog2, execVrcp, execVrsq, transWord]
  refine ⟨fun wf h => elemWord_sends wf h fun _ _ _ => rfl, fun int => ?integers, fun fp => ?floats, ?bitwise⟩
  case bitwise => and_intros <;> exact fun wf h => elemWord_sends wf h fun _ _ _ => rfl
  case integers =>
    have kind := isIntTy_ints int
    refine ⟨fun wf h => elemWord_sends wf h fun x y _ => arith_int int _ _ _ x y, fun wf h => elemWord_sends wf h fun x y _ => arith_int int _ _ _ x y,
      fun wf h => elemWord_sends wf h fun x y _ => arith_int int _ _ _ x y, fun wf h => elemWord_sends wf h fun x y _ => minMax_int int false x y,
      fun wf h => elemWord_sends wf h fun x y _ => minMax_int int true x y, fun wf h => elemWord_sends wf h fun x _ _ => ?vabs,
      fun wf h => elemWord_sends wf h fun x _ _ => ?vneg, fun wf h => elemWord_sends wf h fun x y _ => ?vadds,
      fun wf h => elemWord_sends wf h fun x y _ => ?vsubs, fun wf h => elemWord_sends wf h fun x y _ => ?vmulh, fun elem => ?byElements, fun imm => ?byAmount⟩
    case vabs =>
      have abs (x : Int) : (x.natAbs : Int) = if x < 0 then -x else x := by split <;> omega
      rw [kind, if_pos rfl, intFit_wraps int, intVal_eq int, abs]
    case vneg => rw [kind, if_pos rfl, intFit_wraps int, intVal_eq int]
    case vadds => rw [intFit_saturates int, intVal_eq int, intVal_eq int]
    case vsubs => rw [intFit_saturates int, intVal_eq int, intVal_eq int]
    case vmulh =>
      rw [intVal_eq int, intVal_eq int]
      rfl
    case byElements =>
      simp only [shiftWord_elem elem]
      exact ⟨fun wf h => elemWord_sends wf h fun _ _ _ => rfl, fun wf h => elemWord_sends wf h fun _ _ _ => rfl,
        fun wf h => elemWord_sends wf h fun _ _ _ => Prod.ext (sar_eq ..) rfl⟩
    case byAmount =>
      simp only [shiftWord_imm imm]
      exact ⟨fun wf h => elemWord_sends wf h fun _ _ _ => rfl, fun wf h => elemWord_sends wf h fun _ _ _ => rfl,
        fun wf h => elemWord_sends wf h fun _ _ _ => Prod.ext (sar_eq ..) rfl⟩
  case floats =>
    refine ⟨fun wf h => elemWord_sends wf h fun x y _ => arith_fp fp (code_le wf (by decide)) _ _ _ x y,
      fun wf h => elemWord_sends wf h fun x y _ => arith_fp fp (code_le wf (by decide)) _ _ _ x y,
      fun wf h => elemWord_sends wf h fun x y _ => arith_fp fp (code_le wf (by decide)) _ _ _ x y,
      fun wf h => elemWord_sends wf h fun _ _ _ => rfl, fun wf h => elemWord_sends wf h fun _ _ _ => rfl,
      fun wf h => elemWord_sends wf h fun x y _ => minMax_fp fp (code_le wf (by decide)) false x y,
      fun wf h => elemWord_sends wf h fun x y _ => minMax_fp fp (code_le wf (by decide)) true x y,
      fun wf h => elemWord_sends wf h fun x _ _ => ?vabs, fun wf h => elemWord_sends wf h fun x _ _ => ?vneg, ?transcendental⟩
    case vabs => rw [isIntTy_fp fp (code_le wf (by decide)), if_neg Bool.false_ne_true, fpSign, abs_fp fp (code_le wf (by decide))]
    case vneg => rw [isIntTy_fp fp (code_le wf (by decide)), if_neg Bool.false_ne_true, fpSign, flip_fp fp (code_le wf (by decide))]
    case transcendental => and_intros <;> exact fun wf h => elemWord_sends wf h fun _ _ _ => rfl

end Sys2Proof.Machine
end

