-- ==== Sys2Proof/Proofs/VectorPops.lean ====
section
/-! SUPPORT. What a vector word that pops QS2V notes on its core (R388): a move and a shortlist that take its only entry; with them the refutations of O54
and O30. -/

namespace Sys2Proof.Machine

open Sys2Proof.Claims

/-- Core 0 after reset, with the value 5 in QS2V since the cycle before. -/
def oneQueued : State := { State.reset with now := 1, cores := [(0, { qs2v := { items := [(0, 5)] } })] }
/-- VMOV of QS2V into row 1. -/
def movesQueued : VWord := ⟨4, 0, 0, 0, 0, 0, ⟨1, 0⟩, ⟨2040, 0⟩, ⟨0, 0⟩, 0⟩
/-- VSHORT of row 0 into rows 1 and 2 and m1, positions counted from what QS2V holds. -/
def listsFromQueued : VWord := ⟨7, 0, 0, 0, 0, 0, ⟨1, 0⟩, ⟨0, 0⟩, ⟨2040, 0⟩, 0x100000⟩

/-- How many pops the next state notes on core 0, to be taken back where a fault withdraws the word. -/
def popsNoted : Host.Outcome State Fault Refusal → Nat
  | .next t => (t.core 0).popped.length
  | _ => 0

theorem movesQueued_notes : popsNoted (exec (.vmov movesQueued) oneQueued) = 1 := by decide +kernel
theorem listsFromQueued_notes : popsNoted (exec (.vshort listsFromQueued) oneQueued) = 1 := by decide +kernel

/-- Refutes O54: its frame keeps the core's record of pops, to which a word adds the entry that it takes from QS2V or QM2V (R388); the statement's own list
has the two queues. -/
theorem not_vectorFrame : ¬ Obligations.VectorFrame := by
  unfold Obligations.VectorFrame
  intro h
  have noted := movesQueued_notes
  cases ends : exec (.vmov movesQueued) oneQueued with
  | next t =>
    obtain ⟨frame, -, -⟩ := h movesQueued oneQueued t ⟨rfl, rfl⟩ _ (.head _) ends
    have kept : (t.core 0).popped = [] := congrArg Core.popped frame
    rw [ends, popsNoted, kept] at noted
    cases noted
  | fault _ | refused _ =>
    rw [ends] at noted
    cases noted

/-- Refutes O30: the state after the pop of a VSHORT's first position has, beside the shorter QS2V that the statement gives, the pop noted on the core
(R388). -/
theorem not_samplingWords : ¬ Obligations.SamplingWords := by
  unfold Obligations.SamplingWords
  intro h
  obtain ⟨lists, -⟩ := h listsFromQueued oneQueued oneQueued [] []
  have claimed : popsNoted (exec (.vshort listsFromQueued) oneQueued) = 0 :=
    (congrArg popsNoted (lists (by decide) (by decide) (by decide) (by decide) ⟨by decide, by decide⟩ ⟨rfl, rfl⟩ oneQueued _ _ 5
      ⟨rfl, rfl⟩ (.inr ⟨rfl, 0, 5, [], rfl, by decide, rfl, rfl⟩))).trans (by decide +kernel)
  exact absurd (listsFromQueued_notes.symm.trans claimed) (by decide)

end Sys2Proof.Machine
end

