-- ==== Sys2Proof/Proofs/VectorSums.lean ====
section
/-! SUPPORT. The sum of a segment that is one element alone (R141, R219; log 55): a VRSUM over segments of one FP32 lane that meets a NaN; with it the
refutation of O27. -/

namespace Sys2Proof.Machine

open Sys2Proof.Claims

/-- VRSUM of row 0 into row 1 over the segments of depth 1. -/
def sumsLanes : VWord := ⟨7, 0, 0, 0, 0, 0, ⟨1, 0⟩, ⟨0, 0⟩, ⟨0, 0⟩, 0x880000⟩
/-- Core 0 after reset with that word to issue, bound to a CORE node with 64 lanes of one below it; element 0 of row 0 is a NaN that is not the canonical
one. -/
def laneNaN : State :=
  { State.reset with
    cores := [(0, {
      bound := some { gen := 0, stope := 0, spid := 0, kernel := 0, entry := 0, rank := 0, pkgPos := 0, chain := [⟨1, 1, 0, 0⟩], lanes := [64] }
      plane := #v[{ vect := [BitVec.ofNat 96 (putVWord 0x20 sumsLanes)] }, {}]
      a := [(0, 1), (2, 0x80), (3, 0x7F)] })] }

/-- The flags of the vector results on their way in the next state. -/
def resultFlags : Host.Outcome State Fault Refusal → List Nat
  | .next t => t.agenda.filterMap fun e => match e.act with
    | .run .vectorResult (.vres r) => some r.flags
    | _ => none
  | _ => []

/-- The model raises NV for the NaN (R141; log 55). -/
theorem sumsLanes_flags : resultFlags (exec (.vrsum sumsLanes) laneNaN) = [1] := by decide +kernel

/-- Its repeat can run. -/
theorem sumsLanes_runs : Runs laneNaN sumsLanes { formOf2 sumsLanes with lat := 6, merges := false } laneNaN
    [laneNaN.vRow 0 (rowOf sumsLanes.a 0 0).toNat] [] where
  form := by decide
  settled := ⟨by decide, by decide⟩
  reads := ⟨laneNaN, readSrc_reg _ _ _ _ _ rfl, readSrc_reg _ _ _ _ _ rfl⟩
  room := fun _ => by decide
  sound := ⟨rfl, rfl⟩

/-- Refutes O27: its clause for VRSUM takes the tree of R158 for every segment. Over one element the tree has no node, so that the statement leaves a NaN as
it stands and raises no flag, where the model, by the log 55 that the statement names for VSCAN, makes it canonical and raises NV. -/
theorem not_rowWords : ¬ Obligations.RowWords := by
  unfold Obligations.RowWords
  intro h
  obtain ⟨-, segmented, -⟩ := h sumsLanes laneNaN laneNaN [laneNaN.vRow 0 (rowOf sumsLanes.a 0 0).toNat] []
  obtain ⟨sums, -⟩ := segmented 1 (by decide)
  obtain ⟨-, floats⟩ := sums (by decide) sumsLanes_runs
  have claimed : resultFlags (exec (.vrsum sumsLanes) laneNaN) = [0] := (congrArg resultFlags (floats (by decide))).trans (by decide +kernel)
  exact absurd (sumsLanes_flags.symm.trans claimed) (by decide)

end Sys2Proof.Machine
end

