-- ==== Sys2Proof/Proofs/MaskWords.lean ====
section
/-! SUPPORT. Masks as numbers, and the words that select by a mask or give one (R216, R227); with them O26. -/

namespace Sys2Proof.Machine

open Sys2Proof.Claims

/-! ### Masks as numbers (R205) -/

theorem maskOf_succ (n : Nat) (p : Nat → Bool) : maskOf (n + 1) p = if p n then maskOf n p + 2 ^ n else maskOf n p := by
  rw [maskOf, List.range_succ, List.foldl_append]
  rfl
theorem maskOf_lt (n : Nat) (p : Nat → Bool) : maskOf n p < 2 ^ n := by
  induction n with
  | zero => exact Nat.one_pos
  | succ n ih =>
    rw [maskOf_succ, pow_succ]
    split <;> omega
/-- Its bits are what they were asked to be. -/
theorem testBit_maskOf (n : Nat) (p : Nat → Bool) (j : Nat) : (maskOf n p).testBit j = (decide (j < n) && p j) := by
  induction n with
  | zero => simp [maskOf]
  | succ n ih =>
    have below := maskOf_lt n p
    rcases lt_trichotomy j n with lt | rfl | gt
    · have inside : j < n + 1 := by omega
      rw [maskOf_succ]
      split
      · rw [Nat.add_comm, Nat.testBit_two_pow_add_gt lt, ih]
        simp [lt, inside]
      · rw [ih]
        simp [lt, inside]
    · rw [maskOf_succ]
      split
      · next set => simp [Nat.add_comm, Nat.testBit_two_pow_add_eq, Nat.testBit_lt_two_pow below, set]
      · next clear => simp [Nat.testBit_lt_two_pow below, clear]
    · have outside : ¬ j < n + 1 := by omega
      have high : maskOf (n + 1) p < 2 ^ j := (maskOf_lt _ p).trans_le (Nat.pow_le_pow_right (by decide) gt)
      simp [Nat.testBit_lt_two_pow high, outside]

/-- The lowest set bit from `i` up, if there is one among the next `n`. -/
theorem firstBit_spec (m n i : Nat) : firstBit m n i = -1 ∧ (∀ j, i ≤ j → j < i + n → m.testBit j = false) ∨
    ∃ x : Nat, firstBit m n i = x ∧ i ≤ x ∧ x < i + n ∧ m.testBit x = true ∧ ∀ j, i ≤ j → j < x → m.testBit j = false := by
  induction n generalizing i with
  | zero => exact .inl ⟨rfl, fun j low high => absurd (low.trans_lt high) (lt_irrefl _)⟩
  | succ n ih =>
    unfold firstBit
    cases bit : bitOf m i with
    | true => exact .inr ⟨i, if_pos rfl, le_rfl, by omega, bit, fun j low high => absurd (low.trans_lt high) (lt_irrefl _)⟩
    | false =>
      rw [if_neg Bool.false_ne_true]
      have fromHere (j : Nat) (low : i ≤ j) (above : i + 1 ≤ j → m.testBit j = false) : m.testBit j = false := by
        rcases eq_or_lt_of_le low with rfl | low
        · exact bit
        · exact above low
      rcases ih (i + 1) with ⟨none, clear⟩ | ⟨x, found, low, high, set, clear⟩
      · exact .inl ⟨none, fun j low high => fromHere j low fun above => clear j above (by omega)⟩
      · exact .inr ⟨x, found, by omega, by omega, set, fun j low high => fromHere j low fun above => clear j above high⟩

/-! ### Fields of these words -/

section

variable (v : VWord) (lo : Nat)

theorem VWord.e_three : v.e lo 3 = v.ext.toNat / 2 ^ lo % 8 := VWord.e_eq v lo 3
theorem VWord.e_four : v.e lo 4 = v.ext.toNat / 2 ^ lo % 16 := VWord.e_eq v lo 4
theorem VWord.e_low (n : Nat) : v.e 0 n = v.ext.toNat % 2 ^ n := by rw [VWord.e_eq, pow_zero, Nat.div_one]

end

/-- A word whose repeat field must be 0 has one repeat. -/
theorem fits_once {v : VWord} {sh : VShape} (fits : v.fits sh = true) (once : sh.rep1 = true) : 1 = repsOf v := by
  simp only [VWord.fits, Bool.and_eq_true, once, Bool.not_true, Bool.false_or, beq_iff_eq] at fits
  obtain ⟨⟨⟨⟨-, rep⟩, -⟩, -⟩, -⟩ := fits
  rw [repsOf, rep]
  rfl
/-- Of the types up to code 10 a row has at most 256 elements. -/
theorem elemCount_le {t : Nat} (ty : t ≤ 10) : elemCount t ≤ 256 := by
  interval_cases t <;> decide

/-! ### Words that give a mask (R216, R227) -/

section

variable {i : Instr} {s t : State} {v : VWord} {fm : VForm} {a b : List (List Byte)}

/-- The outcome is a repeat that sends mask `md` with the bits `p`. -/
def SetsMask (r : Host.Outcome State Fault Refusal) (s t : State) (fm : VForm) (md : Nat) (p : Nat → Bool) : Prop :=
  ∃ x : Nat, r = .next (masks s t fm md x) ∧ x < 2 ^ 256 ∧ ∀ j < 256, x.testBit j = p j

theorem SetsMask.maskOf {r : Host.Outcome State Fault Refusal} {md n : Nat} {p q : Nat → Bool} (sent : r = .next (masks s t fm md (maskOf n q)))
    (fits : n ≤ 256) (bits : ∀ j, (decide (j < n) && q j) = p j) : SetsMask r s t fm md p :=
  ⟨_, sent, (maskOf_lt n q).trans_le (Nat.pow_le_pow_right (by decide) fits), fun j _ => (testBit_maskOf n q j).trans (bits j)⟩

variable (wf : i.wf = true) {md : Nat}
include wf

theorem maskWord_masks (h : Runs s v { fm with dRows := 0, masks := md :: fm.masks } t a b) (mask : VEnv → Nat) :
    maskWord i v fm md mask s = .next (masks s t { fm with dRows := 0, masks := md :: fm.masks } md
      (mask (envOf s t v { fm with dRows := 0, masks := md :: fm.masks } a b))) :=
  vectorWord_runs wf h (bad := fun _ => !formOk v { fm with dRows := 0, masks := md :: fm.masks }) (by rw [h.form]; rfl) 1
    fun s e lat => s.sendMask s.curCore lat md (mask e) 0

end

/-! ### An elementwise word without flags -/

theorem mapElems_quiet (w : Nat) (e : VEnv) {f : Nat → Nat → Nat → Nat → Nat × Nat} (quiet : ∀ n x y z, (f n x y z).2 = 0) : (mapElems w e f).2 = 0 := by
  refine foldl_or_zero Prod.snd fun r mem => ?_
  obtain ⟨j, inside, rfl⟩ := List.mem_mapIdx.1 mem
  split
  · exact quiet ..
  · rfl

/-! ### What these words compute of an element -/

/-- The zero bit clear: inactive elements stay (R209). -/
theorem not_zeroing (z : BitVec 1) : (!(z == 1)) = decide (z = 0) := by
  revert z
  decide

section

variable {v : VWord} (ty : v.ty.toNat ≤ 10)
include ty

theorem compare_eq (c x y : Nat) :
    (if isIntTy v.ty.toNat then intCmp c (intVal v.ty.toNat x) (intVal v.ty.toNat y) else fpCmp (fmtOf v.ty.toNat) c x y) =
      if ints v then intCmp c (val v x) (val v y) else fpCmp (fmtOf v.ty.toNat) c x y := by
  cases int : ints v with
  | true => simp only [isIntTy_ints int, intVal_eq int]
  | false => simp only [isIntTy_fp int ty, Bool.false_eq_true, if_false]
theorem nonzeroElem_eq (x : Nat) :
    nonzeroElem v.ty.toNat x = if ints v then decide (x ≠ 0) else decide (x % 2 ^ (tyBits v.ty.toNat - 1) ≠ 0) := by
  cases int : ints v with
  | true =>
    rw [nonzeroElem, if_pos (isIntTy_ints int), if_pos rfl]
    exact Bool.eq_iff_iff.2 (by simp)
  | false =>
    rw [nonzeroElem, isIntTy_fp int ty, if_neg Bool.false_ne_true, if_neg Bool.false_ne_true, abs_fp int ty]
    exact Bool.eq_iff_iff.2 (by simp)
theorem clamp_eq (x y u : Nat) :
    ((minMax v.ty.toNat false (minMax v.ty.toNat true x y).1 u).1,
        (minMax v.ty.toNat true x y).2 ||| (minMax v.ty.toNat false (minMax v.ty.toNat true x y).1 u).2) =
      if ints v then
        (if val v u < val v (if val v x < val v y then y else x) then u else if val v x < val v y then y else x, 0)
      else ((fpMinMax (fmtOf v.ty.toNat) false (fpMinMax (fmtOf v.ty.toNat) true x y).1 u).1,
        (fpMinMax (fmtOf v.ty.toNat) true x y).2 ||| (fpMinMax (fmtOf v.ty.toNat) false (fpMinMax (fmtOf v.ty.toNat) true x y).1 u).2) := by
  cases int : ints v with
  | true => simp only [minMax_int int, if_true, Bool.false_eq_true, if_false, Nat.or_zero]
  | false => simp only [minMax_fp int ty, Bool.false_eq_true, if_false]

end

/-- The low bits of a mask hold the mask's own bits. -/
theorem testBit_low {m n j : Nat} (inside : j < n) : (m % 2 ^ n).testBit j = m.testBit j := by simp [Nat.testBit_mod_two_pow, inside]
/-- A row with one small number. -/
theorem scalarRow_natCast {x : Nat} (small : x < 2 ^ 32) : scalarRow x = leBytes 4 x ++ List.replicate 252 0 := by
  have low : ((x : Int) % 2 ^ 32).toNat = x := by omega
  rw [scalarRow, wrapTo, low]

/-! ### Words that give a number from a mask (R227) -/

section

variable {i : Instr} {s t : State} {v : VWord} {a b : List (List Byte)} (wf : i.wf = true) (f : Nat → Nat → Int)
include wf

theorem maskToRow_sends (once : 1 = repsOf v) (dest : v.d.reg ≠ 2042#11)
    (h : Runs s v { formOf2 v with aRows := 0, dty := 4, masks := [v.ext.toNat / 2 ^ 16 % 16] } t a b) :
    maskToRow i v f s = .next (sends s t v { formOf2 v with aRows := 0, dty := 4, masks := [v.ext.toNat / 2 ^ 16 % 16] }
      [scalarRow (f (elemCount v.ty.toNat) (((here s).mval (v.ext.toNat / 2 ^ 16 % 16)).toNat % 2 ^ elemCount v.ty.toNat))] 0) := by
  have legal : (!formOk v { formOf2 v with aRows := 0, dty := 4, masks := [v.ext.toNat / 2 ^ 16 % 16] } || v.d.reg.toNat == codeQV2M) = false := by
    rw [h.form, Bool.not_true, Bool.false_or, beq_eq_false_iff_ne]
    exact mt (toNat_codeQV2M _).1 dest
  simp only [maskToRow, VWord.e_four]
  rw [vectorWord_sends wf h (bad := fun _ => _ || _) legal once, h.mval]
theorem maskToRow_illegal (dest : v.d.reg = 2042#11) :
    maskToRow i v f s = .next (s.raiseIn s.curCore { code := 2, source := 1 } .vector (here s).vectorEntry) := by
  refine vectorWord_operand wf (bad := fun _ => _ || _) ?_ _ _
  rw [beq_iff_eq.2 ((toNat_codeQV2M _).2 dest), Bool.or_true]

end

/-- Settles O26 (R216, R227): each word by its form, with the bits of its mask or the value of its function at elements. -/
theorem maskWords : Obligations.MaskWords := by
  unfold Obligations.MaskWords
  intro v s t a b
  dsimp only
  refine ⟨?vsel, ?vcmp, ?vclamp, ?illegalClamp, ?vmset, ?vmrow, ?vmlog, ?vmcnt, ?vmfirst, ?illegalRow⟩
  case vsel =>
    intro wf h
    refine ⟨_, ?_, rfl⟩
    change execVsel v s = _
    rw [execVsel, VWord.e_four, plainVector_sends wf h, mapElems_quiet _ _ fun _ _ _ _ => rfl, h.mval]
    rfl
  case vcmp =>
    intro wf h nonzero
    have ty : v.ty.toNat ≤ 10 := code_le (Bool.and_eq_true_iff.1 wf).1 (by decide)
    have legal : (!formOk v { formOf v with dRows := 0, masks := [v.ext.toNat / 2 ^ 20 % 16] } || v.ext.toNat / 2 ^ 20 % 16 == 0) = false := by
      rw [h.form]
      simpa using nonzero
    change SetsMask (execVcmp v s) ..
    simp only [execVcmp, VWord.e_four, VWord.e_three, compare_eq ty]
    refine .maskOf (vectorWord_runs wf h (bad := fun _ => _ || _) legal 1 _) (elemCount_le ty) fun j => ?_
    rw [h.act, h.mval, ← not_zeroing]
    rfl
  case vclamp =>
    intro wf h reg range
    have ty : v.ty.toNat ≤ 10 := code_le wf (by decide)
    change execVclamp v s = _
    simp only [execVclamp, VWord.e_low, clamp_eq ty]
    rw [vectorWord_ok wf (operandIf_ok (by simp [h.form, reg, range]))]
    refine (Runs.finishes h _).trans ?_
    rw [h.pops.vRow]
    rfl
  case illegalClamp =>
    intro wf ok bad
    change execVclamp v s = _
    simp only [execVclamp, VWord.e_low]
    refine vectorWord_operand wf (bad := fun _ => _ || _ || _) ?_ _ _
    rcases bad with no | no <;> simp [no]
  case vmset =>
    intro wf h
    have ty : v.ty.toNat ≤ 10 := code_le wf (by decide)
    change SetsMask (execVmset v s) ..
    simp only [execVmset, VWord.e_four, nonzeroElem_eq ty]
    exact .maskOf (maskWord_masks wf h _) (elemCount_le ty) fun _ => rfl
  case vmrow =>
    intro wf h
    have width (l : List Byte) : leNat (l.take 32) < 2 ^ 256 :=
      (leNat_lt _).trans_le ((Nat.pow_le_pow_right (by decide) (List.length_take_le 32 l)).trans (by decide))
    change SetsMask (execVmrow v s) ..
    simp only [execVmrow, VWord.e_four]
    exact ⟨_, maskWord_masks wf h _, width _, fun _ _ => rfl⟩
  case vmlog =>
    intro wf h
    change SetsMask (execVmlog v s) ..
    simp only [execVmlog, VWord.e_four]
    refine ⟨_, maskWord_masks wf h _, BitVec.isLt _, fun j inside => ?_⟩
    rw [h.mval, h.mval, BitVec.testBit_toNat]
    generalize v.ext.toNat / 2 ^ 8 % 16 = op
    rcases op with _ | _ | _ | _ | op <;> simp [inside]
  case vmcnt =>
    intro wf h dest
    have ty : v.ty.toNat ≤ 10 := code_le wf (by decide)
    change execVmcnt v s = _
    have count : popCount (((here s).mval (v.ext.toNat / 2 ^ 16 % 16)).toNat % 2 ^ elemCount v.ty.toNat) (elemCount v.ty.toNat) =
        (List.range (elemCount v.ty.toNat)).countP fun j => ((here s).mval (v.ext.toNat / 2 ^ 16 % 16)).getLsbD j := by
      rw [popCount_eq]
      refine List.countP_congr fun j mem => ?_
      rw [testBit_low (List.mem_range.1 mem), BitVec.testBit_toNat]
    have small := (List.countP_le_length (p := fun j => ((here s).mval (v.ext.toNat / 2 ^ 16 % 16)).getLsbD j)
      (l := List.range (elemCount v.ty.toNat))).trans (List.length_range.le.trans (elemCount_le ty))
    rw [execVmcnt, maskToRow_sends wf _ (fits_once wf rfl) dest h, count, scalarRow_natCast (small.trans_lt (by decide))]
    rfl
  case vmfirst =>
    intro wf h dest
    have sent := maskToRow_sends wf (fun n m => firstBit m n 0) (fits_once wf rfl) dest h
    refine ⟨_, sent, ?_⟩
    have low {j : Nat} (inside : j < elemCount v.ty.toNat) :=
      (testBit_low inside).trans (BitVec.testBit_toNat ((here s).mval (v.ext.toNat / 2 ^ 16 % 16)) (i := j))
    rcases firstBit_spec (((here s).mval (v.ext.toNat / 2 ^ 16 % 16)).toNat % 2 ^ elemCount v.ty.toNat) (elemCount v.ty.toNat) 0 with
      ⟨none, clear⟩ | ⟨x, found, -, inside, set, clear⟩
    · exact .inl ⟨none, fun j inside => (low inside).symm.trans (clear j (Nat.zero_le j) (by rwa [Nat.zero_add]))⟩
    · rw [Nat.zero_add] at inside
      rw [found]
      exact .inr ⟨Int.natCast_nonneg x, inside, (low inside).symm.trans set,
        fun j below => (low (below.trans inside)).symm.trans (clear j (Nat.zero_le j) below)⟩
  case illegalRow => exact fun dest => ⟨fun wf => maskToRow_illegal wf (fun n m => (popCount m n : Int)) dest,
    fun wf => maskToRow_illegal wf (fun n m => firstBit m n 0) dest⟩

end Sys2Proof.Machine
end

