-- ==== Sys2Proof/Proofs/ConversionWords.lean ====
section
/-! SUPPORT. Conversions of element types and the unpacking of trits (R223, R225); with them O28. -/

namespace Sys2Proof.Machine

open Sys2Proof.Claims

/-- Rows on the wider side of a conversion: the greater of the two quotients. -/
theorem cvtRows_eq (t d : Nat) : cvtRows t d = max (elemCount t / elemCount d) (elemCount d / elemCount t) := by
  rcases le_total (elemCount t) (elemCount d) with le | ge
  · rcases le.eq_or_lt with same | lt
    · simp [cvtRows, same]
    · simp [cvtRows, le, Nat.div_eq_of_lt lt]
  · rcases ge.eq_or_lt with same | lt
    · simp [cvtRows, same]
    · simp [cvtRows, not_le.2 lt, Nat.div_eq_of_lt lt]

/-- Bit [19] saturates what is not exact; E2M1 always saturates (R149, R150). -/
theorem saturates_eq (v : VWord) (t d : Nat) :
    (v.e 19 1 == 1 && !fpExact t d || d == 12) = decide (v.ext.toNat / 2 ^ 19 % 2 = 1 ∧ fpExact t d = false ∨ d = 12) := by
  have bit : v.e 19 1 = v.ext.toNat / 2 ^ 19 % 2 := VWord.e_eq v 19 1
  rw [bit]
  exact Bool.eq_iff_iff.2 (by simp)

/-- Bit [79] of the word zeroes (R209). -/
theorem zeroing_iff {s t : State} {v : VWord} {fm : VForm} {a b : List (List Byte)} : (envOf s t v fm a b).zeroing = true ↔ v.zero = 1 := beq_iff_eq

/-- Settles O28 (R223, R225): each word by its form, with the fields of its word and what the core holds. -/
theorem conversionWords : Obligations.ConversionWords := by
  unfold Obligations.ConversionWords
  intro v s t a b c k i ty w n dst g wide fc e sat rs f5 nb bytes row before
  refine ⟨?vcvt, ?vunt5, ?illegal⟩
  case vcvt =>
    intro wf h
    change execVcvt v s = _
    simp only [execVcvt, VWord.e_four, VWord.e_low, cvtRows_eq, saturates_eq]
    rw [plainVector_sends wf h]
    simp only [h.key, zeroing_iff]
    rfl
  case vunt5 =>
    intro wf h nonzero
    have code : ty ≤ 10 := code_le wf (by decide)
    have few : nb ≤ 256 := (Nat.div_le_div_right (Nat.add_le_add_right (elemCount_le code) 4)).trans (by decide)
    have legal : (!formOk v f5 || dst == 0) = false := by
      rw [h.form]
      simpa using nonzero
    refine ⟨_, (maskOf_lt nb _).trans_le (Nat.pow_le_pow_right (by decide) few), fun j _ => (testBit_maskOf nb _ j).trans (Bool.and_assoc ..).symm, ?_⟩
    change execVunt5 v s = _
    rw [execVunt5, VWord.e_four]
    refine (vectorWord_runs wf h (bad := fun _ => _ || _) legal _ _).trans (congrArg Host.Outcome.next ?_)
    simp only [h.pops.curCore, h.pops.ve, h.mval, toNat_codeQV2S]
    have earlier : before = if i = 0 then 0 else
        ((((s.core s.curCore).ve.fwd.find? fun f => f.1 == maskKey).map fun f => leNat f.2).getD (k.mval dst).toNat) := rfl
    rw [earlier]
    cases (s.core s.curCore).ve.fwd.find? fun f => f.1 == maskKey <;> rfl
  case illegal =>
    intro wf ok none
    have bad : (v.ext.toNat / 2 ^ 20 % 16 == 0) = true := beq_iff_eq.2 none
    change execVunt5 v s = _
    rw [execVunt5, VWord.e_four]
    refine vectorWord_operand wf (bad := fun _ => _ || _) ?_ _ _
    rw [bad, Bool.or_true]

end Sys2Proof.Machine
end

