-- ==== Sys2Proof/Proofs/MatrixResults.lean ====
section
/-! SUPPORT. What a tile command leaves to come (R243 to R252): the stationary plane read and loaded, an accumulator row, the rows of a drain, and the
full bits. -/

namespace Sys2Proof

open Sys2Proof.Machine

/-- Where in C-space the row lies. -/
def MRow.addr (r : MRow) : Nat := r.tile * 65536 + r.row * 512
/-- The row's columns, values and flags, combined with what stands there. -/
def MRow.columns (r : MRow) (old : List Byte) : List (Nat × Nat) :=
  (List.zip (elemsOf 32 old) r.vals).mapIdx fun n x => if r.acc then accumulate r.isInt (n < r.cols) x.1 x.2.toNat else (x.2.toNat, 0)

/-- A piece of a row for A-space, as it is written (R248). -/
def DrainRow.piece (d : DrainRow) (x : Nat × List Byte) : CycWrite :=
  { core := d.core, space := 0, rank := 4, addr := 256 * (d.arow + x.1), data := x.2, sel := [] }

end Sys2Proof

namespace Sys2Proof.Machine

open Sys2Proof.Claims

/-! ### Sticky flags of the matrix stream (R254) -/

theorem State.orMstat_rest (s : State) (c flags : Nat) : ∃ sets, s.orMstat c flags = { s with sets } := by
  rw [State.orMstat]
  split <;> exact ⟨_, rfl⟩
theorem State.orMstat_wb (s : State) (c flags : Nat) : (s.orMstat c flags).wb = s.wb := by
  obtain ⟨_, h⟩ := s.orMstat_rest c flags
  rw [h]
theorem State.orMstat_cores (s : State) (c flags : Nat) : (s.orMstat c flags).cores = s.cores := by
  obtain ⟨_, h⟩ := s.orMstat_rest c flags
  rw [h]
theorem State.orMstat_mem (s : State) (c flags : Nat) : (s.orMstat c flags).mem = s.mem := by
  obtain ⟨_, h⟩ := s.orMstat_rest c flags
  rw [h]
theorem State.orMstat_none (s : State) (c : Nat) : s.orMstat c 0 = s := if_pos rfl
theorem State.orMstat_some (s : State) (c : Nat) {flags : Nat} (some_ : flags ≠ 0) : s.orMstat c flags = s.cycSet c (.flags 0x022 flags) := if_neg some_

/-! ### Stationary planes (R243) -/

/-- A sound core's port corrects nothing, whichever core reads. -/
theorem State.afterReadBy_sound {s : State} {c : Nat} (sound : Claims.Sound (s.core c)) (reader sp a n cls : Nat) :
    s.afterReadBy reader c sp a n cls = s := by
  simp [State.afterReadBy, sound.2]

section

variable {s : State} {qd c : Nat} (filling : (s.quad qd).shd.st = 1)
include filling

/-- As its beat opens, the block is read as W-space stands. -/
theorem shadowPlaneLoaded_reads (arg : s.arg = .nums [qd, (s.quad qd).shd.stamp, c, 0])
    (sound : Claims.Sound (s.core (quadCore qd (s.quad qd).shd.src))) :
    let p := (s.quad qd).shd
    exec .shadowPlaneLoaded s = .next (s.setQuad qd { s.quad qd with
      shd := { p with data := (s.core (quadCore qd p.src)).seam.readBytes p.wAddr (blockBytes p.wt p.k p.n) } }) := by
  change execShadowPlaneLoaded s = _
  simp [execShadowPlaneLoaded, arg, filling, Core.portRead_sound sound, State.afterReadBy_sound sound]
/-- Once it has been read, the plane is loaded. -/
theorem shadowPlaneLoaded_loads (arg : s.arg = .nums [qd, (s.quad qd).shd.stamp, c, 1]) (read : (s.quad qd).shd.data ≠ []) :
    exec .shadowPlaneLoaded s = .next (s.setQuad qd { s.quad qd with shd := { (s.quad qd).shd with st := 2 } }) := by
  change execShadowPlaneLoaded s = _
  simp [execShadowPlaneLoaded, arg, filling, read]

end

/-! ### Accumulator rows (R157, R245) -/

/-- The bytes of an element of a row. -/
theorem leNat_sliceOf_elem {w : Nat} (wide : ByteWide w) (row : List Byte) (j : Nat) :
    leNat (sliceOf row (w / 8 * j) (w / 8)) = (elemsOf w row).getD j 0 := by
  rw [List.getD_eq_getElem?_getD, elemsOf_getElem? wide]
  split
  · rfl
  next past => rw [sliceOf, List.drop_of_length_le (not_lt.1 past), List.take_nil, Option.getD_none, leNat]

/-- The signed value of a number's low bits is the number modulo their power. -/
theorem signedOf_emod (v n : Nat) : signedOf v n % (2 ^ n : Int) = (v : Int) % (2 ^ n : Int) := by
  have low : ((v % 2 ^ n : Nat) : Int) = (v : Int) % 2 ^ n := by norm_cast
  rw [signedOf]
  split
  · rw [low, Int.emod_emod]
  · rw [low, Int.sub_emod_right, Int.emod_emod]

/-- Integers accumulate modulo 2^32. -/
theorem accumulate_int (inside : Bool) (old new : Nat) : (accumulate true inside old new).1 = (old + new) % 2 ^ 32 := by
  have wraps : (intFit 4 false (signedOf old 32 + signedOf new 32)).1 = wrapTo 32 (signedOf old 32 + signedOf new 32) := by
    rw [intFit]
    split <;> rfl
  have sum : (signedOf old 32 + signedOf new 32) % (2 ^ 32 : Int) = ((old + new : Nat) : Int) % (2 ^ 32 : Int) := by
    rw [Int.add_emod, signedOf_emod, signedOf_emod, ← Int.add_emod, Nat.cast_add]
  rw [accumulate, if_pos rfl, wraps, wrapTo, sum]
  omega

/-- A row whose reads met no poison is combined with the row that stands there, and its flags are set. -/
theorem matrixRowWrite_lands {s : State} {r : MRow} (arg : s.arg = .mrow r) (clean : r.of_.poison = false) (plain : r.tag = none)
    (sound : Claims.Sound (s.core r.core)) :
    let cols := r.columns (s.cRow r.core r.addr 512)
    exec .matrixRowWrite s = .next ((s.cycWrite { core := r.core, space := 1, rank := 3, addr := r.addr, data := packElems 32 (cols.map Prod.fst), sel := [] }).orMstat
      r.core (cols.foldl (fun a v => a ||| v.2) r.flags)) := by
  change execMatrixRowWrite s = _
  simp only [execMatrixRowWrite, arg, clean, plain, Core.portRead_sound sound, State.afterRead_sound sound, Option.bind_none, Bool.and_false, Bool.or_false,
    Bool.false_eq_true, if_false, ite_self]
  rfl

section

variable {r : MRow} {old : List Byte} (full : old.length = 512) (vals : r.vals.length = 128)
include full vals

/-- A row that replaces is its values, and raises no flag of its own. -/
theorem columns_replace (replaces : r.acc = false) : packElems 32 ((r.columns old).map Prod.fst) = r.vals.flatMap (fun v => leBytes 4 v.toNat) ∧
    (r.columns old).foldl (fun a v => a ||| v.2) 0 = 0 := by
  have cols : (elemsOf 32 old).length = 128 := elemsOf_length (byteWide (.inr (.inr rfl))) full
  have values : r.columns old = r.vals.map fun v => (v.toNat, 0) := by
    refine List.ext_getElem (by simp [MRow.columns, cols, vals]) fun j _ _ => ?_
    simp [MRow.columns, replaces]
  rw [values]
  exact ⟨by simp [packElems, List.flatMap_map], foldl_or_zero Prod.snd (by simp)⟩
/-- One that accumulates integers adds, column by column. -/
theorem columns_add (adds : r.acc = true) (int : r.isInt = true) {n : Nat} (col : n < 128) :
    leNat (sliceOf (packElems 32 ((r.columns old).map Prod.fst)) (4 * n) 4) =
      (leNat (sliceOf old (4 * n) 4) + (r.vals.getD n 0).toNat) % 2 ^ 32 := by
  have wide := byteWide (w := 32) (.inr (.inr rfl))
  have cols : (elemsOf 32 old).length = 128 := elemsOf_length wide full
  have elem (row : List Byte) : leNat (sliceOf row (4 * n) 4) = (elemsOf 32 row).getD n 0 := leNat_sliceOf_elem wide row n
  rw [elem, elem, elemsOf_packElems wide]
  simp [MRow.columns, adds, int, accumulate_int, cols, vals, col]

end

/-! ### Drained rows (R248) -/

/-- Writes put into the cycle's buffer one after another. -/
theorem State.foldl_cycWrite {α : Type} (w : α → CycWrite) (l : List α) (s : State) :
    l.foldl (fun t x => t.cycWrite (w x)) s = { s with wb := (l.map w).reverse ++ s.wb } := by
  induction l generalizing s with
  | nil => rfl
  | cons x l ih =>
    rw [List.foldl_cons, ih, List.map_cons, List.reverse_cons, List.append_assoc]
    rfl

section

variable {s : State} {d : DrainRow} (arg : s.arg = .drow d) (clean : d.of_.poison = false)
include arg clean

/-- Pieces for A-space are written in their cycle. -/
theorem drainDelivery_rows (dest : d.dest = 0) : exec .drainDelivery s = .next (State.orMstat
    { s with wb := ((d.pieces.mapIdx fun i p => (i, p)).map d.piece).reverse ++ s.wb } d.core d.flags) := by
  change execDrainDelivery s = _
  rw [← State.foldl_cycWrite]
  simp [execDrainDelivery, arg, clean, dest, DrainRow.piece]
/-- The only piece of a row for QM2V is pushed, where there is room and no earlier row has still to be delivered. -/
theorem drainDelivery_queue (dest : d.dest = 1) {p : List Byte} (one : d.pieces = [p]) (room : (s.core d.core).qm2v.taken s.now < 4) (quiet : d.flags = 0)
    (turn : s.elastic d.core = true → s.drainBehind d = false) :
    exec .drainDelivery s = .next (s.setCore d.core { s.core d.core with qm2v := (s.core d.core).qm2v.push s.now p }) := by
  have free : (s.elastic d.core && s.drainBehind d) = false := by
    cases h : s.elastic d.core with
    | false => rfl
    | true => exact turn h
  change execDrainDelivery s = _
  simp [execDrainDelivery, arg, clean, dest, one, quiet, free, State.orMstat_none, not_le.2 room]

end

/-! ### Full bits (R249, R252) -/

/-- A machine none of whose routing registers names the tile fires none. -/
theorem State.fireRoutes_none {s : State} {c n : Nat}
    (other : ∀ i : Fin 4, (s.core c).sr.mroute[i].getLsbD 0 = true → (s.core c).sr.mroute[i].toNat / 2 % 16 ≠ n) (o : RowOf) : s.fireRoutes c n o = s := by
  have idle (i : Nat) : (bitOf (vget (s.core c).sr.mroute i 0).toNat 0 && bitsOf (vget (s.core c).sr.mroute i 0).toNat 1 4 == n) = false := by
    by_cases hi : i < 4
    · have named := other ⟨i, hi⟩
      have reg : vget (s.core c).sr.mroute i 0 = (s.core c).sr.mroute[(⟨i, hi⟩ : Fin 4)] := by simp [vget, hi]
      rw [reg, Bool.and_eq_false_imp]
      exact fun on => beq_false_of_ne (by simpa [bitsOf, Nat.shiftRight_eq_div_pow] using named on)
    · simp [vget, hi, bitOf]
  rw [State.fireRoutes, List.foldl_fixed' fun i => if_neg (ne_true_of_eq_false (idle i))]

section

variable {s : State} {c n : Nat} {full : Bool} {o : RowOf} (arg : s.arg = .flag c n full o)
include arg

/-- An MFLAG waits for every earlier row of its stream. -/
theorem fullBitChange_waits {x : Nat} {l : List Nat} (due : s.matrixDue c o.stamp = x :: l) :
    exec .fullBitChange s = .next (s.post ((x :: l).foldl max s.now + 1) 3 (some c) (.run .fullBitChange (.flag c n full o))) := by
  change execFullBitChange s = _
  simp [execFullBitChange, arg, due]
/-- With none left the bit changes, and routing registers fire as it becomes full. -/
theorem fullBitChange_changes (written : s.matrixDue c o.stamp = []) : exec .fullBitChange s =
    .next ((if full && !(s.core c).sr.tfull.getLsbD n then s.fireRoutes c n o else s).cycSet c (.tile n full)) := by
  change execFullBitChange s = _
  simp [execFullBitChange, arg, written, bitOf]
  rfl

end

/-! ### The lease (R199, R200) -/

/-- The request of core `i` of a quad, if it was made two cycles before. -/
def Quad.ripe (q : Quad) (now i : Nat) : Option (Nat × Nat × Nat) := q.reqs.find? fun r => r.1 == i && r.2.1 + 2 ≤ now

section

variable {q : Quad} {now i n t0 : Nat} (asked : (i, t0, n) ∈ q.reqs) (old : t0 + 2 ≤ now)
include asked old

/-- A core asks once: its request is the one that is found. -/
theorem Quad.ripe_only (once : q.reqs.Pairwise fun a b => a.1 ≠ b.1) : q.ripe now i = some (i, t0, n) := by
  have some_ : (q.ripe now i).isSome := List.find?_isSome.2 ⟨_, asked, by simpa using old⟩
  obtain ⟨r, found⟩ := Option.isSome_iff_exists.1 some_
  have same : r.1 = i := by
    have := List.find?_some found
    simp only [Bool.and_eq_true, beq_iff_eq] at this
    exact this.1
  rw [found, List.inj_on_of_nodup_map (List.pairwise_map.2 once) (List.mem_of_find?_eq_some found) asked same]
/-- Counted from the core after the last holder, the first that has asked is the one that follows it soonest. -/
theorem Quad.next_holder (core : i < 4) (last : q.last < 4)
    (soonest : ∀ r ∈ q.reqs, r.1 < 4 → r.1 ≠ i → r.2.1 + 2 ≤ now → (i + 3 - q.last) % 4 < (r.1 + 3 - q.last) % 4) :
    ((List.range 4).map fun j => (q.last + 1 + j) % 4).find? (fun x => (q.ripe now x).isSome) = some i := by
  have place : (q.last + 1 + (i + 3 - q.last) % 4) % 4 = i := by omega
  have some_ : (q.ripe now i).isSome := List.find?_isSome.2 ⟨_, asked, by simpa using old⟩
  refine (List.find?_map ..).trans (.trans (congrArg _ (List.find?_range_eq_some.2 ⟨?_, List.mem_range.2 (Nat.mod_lt _ (by decide)), fun j earlier => ?_⟩)) (congrArg some place))
  · simpa [place] using some_
  rw [Function.comp, Bool.not_eq_true', Option.isSome_eq_false_iff, Option.isNone_iff_eq_none, Quad.ripe, List.find?_eq_none]
  intro r asks ripe
  simp only [Bool.and_eq_true, beq_iff_eq, decide_eq_true_eq] at ripe
  have := soonest r asks (by omega) (by omega) ripe.2
  omega

end

/-- The free array goes to the next core in turn of those that have asked two cycles before. -/
theorem leaseGrant_grants {s : State} {qd i n t0 : Nat} (arg : s.arg = .nums [qd]) (free : (s.quad qd).holder = none) (idle : (s.quad qd).busyTo ≤ s.now)
    (done : s.arrayBusy qd = false) (asked : (i, t0, n) ∈ (s.quad qd).reqs) (ripe : (s.quad qd).ripe s.now i = some (i, t0, n))
    (next : ((List.range 4).map fun j => ((s.quad qd).last + 1 + j) % 4).find? (fun x => ((s.quad qd).ripe s.now x).isSome) = some i) :
    exec .leaseGrant s = .next (s.setQuad qd { s.quad qd with holder := some i, left := n, last := i, reqs := (s.quad qd).reqs.filter fun r => r.1 != i }) := by
  have some_ : (s.quad qd).reqs.isEmpty = false := by simpa using List.ne_nil_of_mem asked
  unfold Quad.ripe at ripe next
  change execLeaseGrant s = _
  simp only [execLeaseGrant, arg, free, some_, not_lt.2 idle, done, next, ripe, Option.isSome_none, Bool.or_self, Bool.false_eq_true, if_false, Option.elim_some]
/-- A held array stays with its holder. -/
theorem leaseGrant_held {s : State} {qd h : Nat} (arg : s.arg = .nums [qd]) (held : (s.quad qd).holder = some h) : exec .leaseGrant s = .next s := by
  change execLeaseGrant s = _
  simp [execLeaseGrant, arg, held]

/-! ### Command boundaries (R95, R194, R200, R253) -/

/-- Between commands the stream is at a boundary. -/
theorem State.atBoundary_of {s : State} {c : Nat} (between : (s.core c).mx.sub = 0) (done : (s.core c).mx.busyTo ≤ s.now) : s.atBoundary c = true := by
  simp [State.atBoundary, between, done]

/-- The machine goes on as it is, where a replay entry follows, or with the stream counting from the cycle; what comes next may be put on the agenda. -/
theorem State.engineGoOn_cases (s : State) (c occ : Nat) : ∃ u, (u = s ∨ u = s.modStrm c .matrix fun st => { st with goAt := 0 }) ∧
    (s.engineGoOn c .matrix occ = u ∨ ∃ at_ phase act, s.engineGoOn c .matrix occ = u.post at_ phase (some c) act) := by
  simp only [State.engineGoOn]
  split
  case h_1 => exact ⟨_, .inl rfl, .inr ⟨_, _, _, rfl⟩⟩
  case h_2 =>
    refine ⟨_, .inr rfl, ?_⟩
    split
    · exact .inr ⟨_, _, _, rfl⟩
    · split
      · exact .inr ⟨_, _, _, rfl⟩
      · exact .inl rfl
/-- Going on leaves the core as it is, but for where the matrix stream counts its next word from. -/
theorem State.engineGoOn_matrix (s : State) (c occ : Nat) :
    onlyCore s (s.engineGoOn c .matrix occ) c ∧ ∃ n, (s.engineGoOn c .matrix occ).core c = { s.core c with mx := { (s.core c).mx with goAt := n } } := by
  obtain ⟨u, start, goes⟩ := s.engineGoOn_cases c occ
  have cores (d : Nat) : (s.engineGoOn c .matrix occ).core d = u.core d := by
    rcases goes with is | ⟨_, _, _, is⟩ <;> rw [is]
    rfl
  rcases start with rfl | rfl
  · exact ⟨fun d _ => cores d, _, cores c⟩
  · exact ⟨fun d other => (cores d).trans (State.core_modCore_ne _ _ _ _ other), 0, (cores c).trans (State.core_modCore ..)⟩

/-- What resolving a tag leaves of a core: the tag and its shadows gone, and C-space as given. -/
structure Core.Resolved (k x : Core) (g : Nat) (c : Memory) : Prop where
  tags : x.specTags = k.specTags.filter fun y => y != g
  shadows : x.shadows = k.shadows.filter fun y => y.tag != g
  c : x.c = c

section

variable {k x : Core} {g : Nat} {m : Memory} (h : k.Resolved x g m)
include h

theorem Core.Resolved.not_mem_tags : g ∉ x.specTags := by simp [h.tags]
theorem Core.Resolved.not_tagged : ∀ y ∈ x.shadows, y.tag ≠ g := by simp [h.shadows]

end

/-- A range cleared and written anew. -/
theorem Memory.read_replaced {m : Memory} (wf : Memory.wf m = true) (img : Memory) (b : Nat) {n a : Nat} (inside : a < n) :
    ((m.clearRange b n).writeBytes b (img.readBytes 0 n)).read (b + a) = img.read a := by
  have range : b ≤ b + a ∧ b + a < b + (img.readBytes 0 n).length := by
    rw [Memory.readBytes_length]
    omega
  rw [Memory.read_writeBytes _ _ (Memory.wf_clearRange _ _ wf), if_pos range, Nat.add_sub_cancel_left, Memory.readBytes_getD _ _ _ _ inside, Nat.zero_add]

/-- C-space with the shadows of a tag in the places of their tiles. -/
def Core.committed (k : Core) (g : Nat) : Memory :=
  (k.shadows.filter fun x => x.tag == g).foldl (fun (m : Memory) x =>
    if x.filled then (m.clearRange (65536 * x.tile) 65536).writeBytes (65536 * x.tile) (x.mem.readBytes 0 65536) else m) k.c

/-- An only shadow that has been written stands in its tile's place. -/
theorem Core.committed_one {k : Core} {x : Shadow} (only : k.shadows = [x]) (filled : x.filled = true) :
    k.committed x.tag = (k.c.clearRange (65536 * x.tile) 65536).writeBytes (65536 * x.tile) (x.mem.readBytes 0 65536) := by
  have own : (k.shadows.filter fun y => y.tag == x.tag) = [x] := by simp [only]
  rw [Core.committed, own, List.foldl_cons, List.foldl_nil, if_pos filled]

/-- A tag committed (R95, R253). -/
theorem State.commitTag_resolves (s : State) (c g : Nat) :
    onlyCore s (s.commitTag c g) c ∧ (s.core c).Resolved ((s.commitTag c g).core c) g ((s.core c).committed g) := by
  obtain ⟨u, k, flags, agenda, is, put, resolved⟩ : ∃ (u : State) (k : Core) (flags : Nat) (agenda : List Event),
      s.commitTag c g = u.orMstat c flags ∧ u = ({ s with agenda } : State).setCore c k ∧ (s.core c).Resolved k g ((s.core c).committed g) :=
    ⟨_, _, _, _, rfl, rfl, rfl, rfl, rfl⟩
  have core (d : Nat) : (s.commitTag c g).core d = u.core d := by
    rw [is]
    exact congrArg (fun l : Table Core => Table.getD l d {}) (u.orMstat_cores c flags)
  refine ⟨fun d other => ?_, ?_⟩
  · rw [core, put]
    exact State.core_setCore_ne _ _ _ _ other
  · rwa [core, put, State.core_setCore]

/-- The core with a tag's shadows and blocks dropped. -/
def Core.dropped (k : Core) (g now : Nat) : Core :=
  let items := k.bqm.items.filter fun e => !(e.2.spec && e.2.tag == g)
  { k with shadows := k.shadows.filter (fun x => x.tag != g), specTags := k.specTags.filter (fun x => x != g)
           bqm := { k.bqm with items, popAt := now, popN := (if k.bqm.popAt = now then k.bqm.popN else 0) + (k.bqm.items.length - items.length) } }

/-- The machine with them dropped, and their rows on the way. -/
def State.tagDropped (s : State) (c g : Nat) : State :=
  (s.cancel fun e => (e.act.rowOfTag c g).isSome).setCore c ((s.core c).dropped g s.now)

/-- A running block of the tag is stopped besides, and where another waits the stream goes on to it. -/
theorem State.dropTag_cases (s : State) (c g : Nat) : s.dropTag c g = s.tagDropped c g ∨
    (∃ p f, s.dropTag c g = ((s.tagDropped c g).cancel p).modStrm c .matrix f) ∨
    ∃ p f, s.dropTag c g = (((s.tagDropped c g).cancel p).modStrm c .matrix f).engineGoOn c .matrix 1 := by
  simp only [State.dropTag]
  split
  case isTrue =>
    split
    · exact .inr (.inr ⟨_, _, rfl⟩)
    · exact .inr (.inl ⟨_, _, rfl⟩)
  case isFalse => exact .inl rfl

/-- A tag dropped (R95, R253): of the core only its matrix stream is set besides. -/
theorem State.dropTag_drops (s : State) (c g : Nat) :
    onlyCore s (s.dropTag c g) c ∧ ∃ mx, (s.dropTag c g).core c = { (s.core c).dropped g s.now with mx } := by
  have dropped : onlyCore s (s.tagDropped c g) c := fun d other => State.core_setCore_ne _ _ _ _ other
  have stopped (p : Event → Bool) (f : StreamSt → StreamSt) : onlyCore s (((s.tagDropped c g).cancel p).modStrm c .matrix f) c ∧
      ∃ mx, (((s.tagDropped c g).cancel p).modStrm c .matrix f).core c = { (s.core c).dropped g s.now with mx } := by
    refine ⟨fun d other => (State.core_modCore_ne _ _ _ _ other).trans (dropped d other), f ((s.core c).dropped g s.now).mx, (State.core_modCore ..).trans ?_⟩
    exact congrArg (fun k : Core => k.setStrm (f (k.strm .matrix)) .matrix) (State.core_setCore ..)
  rcases s.dropTag_cases c g with is | ⟨p, f, is⟩ | ⟨p, f, is⟩ <;> rw [is]
  · exact ⟨dropped, ((s.core c).dropped g s.now).mx, State.core_setCore ..⟩
  · exact stopped p f
  · obtain ⟨others, mx, own⟩ := stopped p f
    obtain ⟨alone, n, goes⟩ := (((s.tagDropped c g).cancel p).modStrm c .matrix f).engineGoOn_matrix c 1
    refine ⟨fun d other => (alone d other).trans (others d other), { mx with goAt := n }, ?_⟩
    rw [goes, own]

/-- The machine with a core's resolutions taken up. -/
def State.resolving (s : State) (c : Nat) : State := s.modCore c fun k => { k with resolve := [] }
theorem State.resolving_core (s : State) (c : Nat) : (s.resolving c).core c = { s.core c with resolve := [] } := State.core_modCore ..
theorem State.resolving_only {s t : State} {c : Nat} (only : onlyCore (s.resolving c) t c) : onlyCore s t c :=
  fun d other => (only d other).trans (State.core_modCore_ne _ _ _ _ other)

/-- The only resolution asked for takes effect at a boundary. -/
theorem specResolve_resolves {s : State} {c g : Nat} {keep : Bool} (arg : s.arg = .nums [c]) (asked : (s.core c).resolve = [(keep, g)])
    (open_ : g ∈ (s.core c).specTags) (boundary : s.atBoundary c = true) :
    exec .specResolve s = .next (if keep then (s.resolving c).commitTag c g else (s.resolving c).dropTag c g) := by
  change execSpecResolve s = _
  simp [execSpecResolve, State.resolveTags, State.resolving, arg, asked, boundary, open_]

/-- The lease is given up at a boundary. -/
theorem mfreeEffect_frees {s : State} {c : Nat} (arg : s.arg = .nums [c]) (asked : (s.core c).mfreeReq = true) (boundary : s.atBoundary c = true) :
    exec .mfreeEffect s = .next ((s.modCore c fun k => { k with mfreeReq := false }).dropLease c) := by
  change execMfreeEffect s = _
  simp [execMfreeEffect, arg, asked, boundary]

/-- Settles O39: each event's own equation says what it leaves (a plane read and loaded, a row combined with the one that stands, a drained row
delivered, a full bit, a grant), and MFREE and the resolutions follow from what `dropLease`, `commitTag` and `dropTag` leave of the core. -/
theorem matrixResultsLand : Obligations.MatrixResultsLand := by
  unfold Obligations.MatrixResultsLand
  refine ⟨fun s => ⟨?reads, ?loads, ?row, ?rows, ?queue, fun c n v arg => ?mark, ?waits, ?plain, ?full⟩, fun s qd c => ⟨?grant, ?held, ?free, ?commit, ?drop⟩⟩
  case reads =>
    rintro qd _ c arg filling rfl sound p
    exact ⟨_, shadowPlaneLoaded_reads filling arg sound, congrArg Quad.shd (State.quad_setQuad ..), (State.quad_setQuad s qd _).symm ▸ rfl, rfl⟩
  case loads =>
    rintro qd _ c arg filling rfl read
    exact ⟨_, shadowPlaneLoaded_loads filling arg read, congrArg Quad.shd (State.quad_setQuad ..), (State.quad_setQuad s qd _).symm ▸ rfl, rfl⟩
  case row =>
    intro r arg clean plain sound addr old
    have full : old.length = 512 := Memory.readBytes_length ..
    refine ⟨_, _, matrixRowWrite_lands arg clean plain sound, State.orMstat_wb .., rfl, rfl, rfl, rfl, rfl, State.orMstat_cores .., State.orMstat_mem .., ?_, ?_⟩
    · intro replaces vals
      obtain ⟨data, flags⟩ := columns_replace full vals replaces
      refine ⟨data, fun quiet => ?_⟩
      rw [quiet]
      exact (congrArg State.sets (congrArg (State.orMstat _ r.core) flags)).trans rfl
    · exact fun adds vals int n col => columns_add full vals adds int col
  case rows =>
    intro d arg dest clean
    refine ⟨_, drainDelivery_rows arg clean dest, State.orMstat_cores .., State.orMstat_mem .., fun i inside => ?_, ?_, ?_, ?_⟩
    · rw [State.orMstat_wb]
      refine List.mem_append_left _ (List.mem_reverse.2 (List.mem_map.2 ⟨(i, d.pieces.getD i []), List.mem_mapIdx.2 ⟨i, inside, ?_⟩, rfl⟩))
      simp [inside]
    · rw [State.orMstat_wb]
      simp [Nat.add_comm]
    · rintro quiet
      rw [quiet, State.orMstat_none]
    · intro some_
      rw [State.orMstat_some _ _ some_]
      rfl
  case queue =>
    intro d p arg dest clean one room quiet turn
    exact ⟨_, drainDelivery_queue arg clean dest one room quiet turn, congrArg (fun k : Core => k.qm2v.items) (State.core_setCore ..), rfl, rfl⟩
  case mark =>
    change execFullBitChange s = _
    simp [execFullBitChange, arg]
  case waits =>
    intro c n full o x l arg due
    exact ⟨_, fullBitChange_waits arg due, rfl, _, State.post_listed .., rfl, rfl, rfl, rfl⟩
  case plain =>
    intro c n full o arg written still
    rw [fullBitChange_changes arg written, if_neg (by rcases still with h | h <;> simp [h])]
  case full =>
    intro c n o arg written other
    refine ⟨_, fullBitChange_changes arg written, ?_⟩
    rw [State.fireRoutes_none other, ite_self]
    exact ⟨rfl, rfl, rfl⟩
  case grant =>
    intro i n t0 arg core last free asked once old soonest idle done
    refine ⟨_, leaseGrant_grants arg free idle done asked (Quad.ripe_only asked old once) (Quad.next_holder asked old core last soonest), ?_⟩
    simp
  case held => exact fun h arg held => leaseGrant_held arg held
  case free =>
    intro arg asked between done
    refine ⟨_, mfreeEffect_frees arg asked (State.atBoundary_of between done), ?_, (State.dropLease_quad ..).1, (State.dropLease_quad ..).2, (State.dropLease_store ..).1⟩
    have core (u : State) : (u.dropLease c).core c = u.core c := congrArg (fun l : Table Core => Table.getD l c {}) (u.dropLease_cores c)
    rw [core, State.core_modCore]
  case commit =>
    intro g arg asked open_ between done
    obtain ⟨others, resolved⟩ := (s.resolving c).commitTag_resolves c g
    rw [State.resolving_core] at resolved
    refine ⟨_, (specResolve_resolves arg asked open_ (State.atBoundary_of between done)).trans (congrArg _ (if_pos rfl)), resolved.not_mem_tags,
      resolved.not_tagged, fun none_ => ?_, fun x only tag filled wf a inside => ?_, State.resolving_only others⟩
    · refine resolved.c.trans ?_
      simp [Core.committed, none_]
    · subst tag
      rw [resolved.c, Core.committed_one (k := { s.core c with resolve := [] }) only filled]
      exact Memory.read_replaced wf x.mem _ inside
  case drop =>
    intro g arg asked open_ between done
    obtain ⟨others, mx, own⟩ := (s.resolving c).dropTag_drops c g
    rw [State.resolving_core] at own
    refine ⟨_, (specResolve_resolves arg asked open_ (State.atBoundary_of between done)).trans (congrArg _ (if_neg Bool.false_ne_true)), ?_⟩
    rw [own]
    refine ⟨by simp [Core.dropped], by simp [Core.dropped], rfl, fun x hx spec => ?_, State.resolving_only others⟩
    simpa [spec] using (List.mem_filter.1 hx).2

end Sys2Proof.Machine
end

