-- ==== Sys2Proof/Proofs/MatrixRows.lean ====
section
/-! SUPPORT. One row of a tile command (R235 to R248): what it may change of the machine, and what using the lease and going on leave. -/

namespace Sys2Proof.Machine

open Sys2Proof.Claims

/-! ### What a row changes -/

/-- Up to their agendas and arrays only core `c` tells `t` from `s`, by QS2M and QV2M, its record of pops, its kept plane, its shadows and its
matrix stream; QV2M holds `qv` and the stream stands at `mx`. Nothing has left the agenda. -/
structure State.RowFrame (s t : State) (c : Nat) (qv : Queue (List Byte)) (mx : StreamSt) : Prop where
  rest : ∃ cores agenda seq quads, t = { s with cores, agenda, seq, quads }
  others : onlyCore s t c
  own : ∃ qs2m popped mplane shadows, t.core c = { s.core c with qs2m, qv2m := qv, popped, mplane, shadows, mx }
  kept : ∀ e ∈ s.agenda, e ∈ t.agenda

section

variable {s t u : State} {c : Nat} {qv qv' : Queue (List Byte)} {mx mx' : StreamSt}

theorem State.RowFrame.refl (s : State) (c : Nat) : s.RowFrame s c (s.core c).qv2m (s.core c).mx := ⟨⟨_, _, _, _, rfl⟩, fun _ _ => rfl, ⟨_, _, _, _, rfl⟩, fun _ h => h⟩
/-- The core changed in these fields only. -/
theorem State.RowFrame.changed {k : Core} (change : ∃ qs2m popped mplane shadows, k = { s.core c with qs2m, qv2m := qv, popped, mplane, shadows, mx }) :
    s.RowFrame (s.setCore c k) c qv mx where
  rest := ⟨_, _, _, _, rfl⟩
  others _ other := State.core_setCore_ne _ _ _ _ other
  own := by rwa [State.core_setCore]
  kept _ h := h

section

variable (h : s.RowFrame t c qv mx)
include h

theorem State.RowFrame.trans (h' : t.RowFrame u c qv' mx') : s.RowFrame u c qv' mx' where
  rest := by
    obtain ⟨_, _, _, _, rfl⟩ := h.rest
    obtain ⟨_, _, _, _, rfl⟩ := h'.rest
    exact ⟨_, _, _, _, rfl⟩
  others d other := (h'.others d other).trans (h.others d other)
  own := by
    obtain ⟨_, _, _, _, own⟩ := h.own
    obtain ⟨_, _, _, _, own'⟩ := h'.own
    rw [own', own]
    exact ⟨_, _, _, _, rfl⟩
  kept e he := h'.kept e (h.kept e he)
theorem State.RowFrame.stream : (t.core c).mx = mx := by
  obtain ⟨_, _, _, _, own⟩ := h.own
  rw [own]
theorem State.RowFrame.queue : (t.core c).qv2m = qv := by
  obtain ⟨_, _, _, _, own⟩ := h.own
  rw [own]
/-- What leaves the stream where it stands. -/
theorem State.RowFrame.next (h' : t.RowFrame u c (t.core c).qv2m (t.core c).mx) : s.RowFrame u c qv mx := h.stream ▸ h.queue ▸ h.trans h'
theorem State.RowFrame.post (at_ phase : Nat) (hold : Option Nat) (act : Act) : s.RowFrame (t.post at_ phase hold act) c qv mx :=
  h.next ⟨⟨_, _, _, _, rfl⟩, fun _ _ => rfl, ⟨_, _, _, _, rfl⟩, fun _ he => (mem_insertEvent ..).2 (.inr he)⟩
theorem State.RowFrame.setQuad (q : Nat) (x : Quad) : s.RowFrame (t.setQuad q x) c qv mx :=
  h.next ⟨⟨_, _, _, _, rfl⟩, fun _ _ => rfl, ⟨_, _, _, _, rfl⟩, fun _ he => he⟩
theorem State.RowFrame.modStrm (f : StreamSt → StreamSt) : s.RowFrame (t.modStrm c .matrix f) c qv (f mx) := by
  have step : s.RowFrame (t.modStrm c .matrix f) c (t.core c).qv2m (f (t.core c).mx) := h.trans (.changed ⟨_, _, _, _, rfl⟩)
  rwa [h.stream, h.queue] at step

theorem State.RowFrame.now : t.now = s.now := by
  obtain ⟨_, _, _, _, rfl⟩ := h.rest
  rfl
theorem State.RowFrame.bound (d : Nat) : (t.core d).bound = (s.core d).bound := by
  by_cases hd : d = c
  · subst hd
    obtain ⟨_, _, _, _, own⟩ := h.own
    rw [own]
  · rw [h.others d hd]
theorem State.RowFrame.dueAt (at_ : Nat) (hold : Option Nat) : t.dueAt at_ hold = s.dueAt at_ hold := by
  have stopes : t.stopes = s.stopes := by
    obtain ⟨_, _, _, _, rfl⟩ := h.rest
    rfl
  have frozen : t.frozenAt = s.frozenAt := by
    funext d
    rw [State.frozenAt, State.stopeOf, h.bound, stopes]
    rfl
  rw [State.dueAt, frozen, h.now]
  rfl
theorem State.RowFrame.keepsBytes : Claims.keepsBytes s t := by
  refine ⟨?_, fun d => ?_⟩
  · obtain ⟨_, _, _, _, rfl⟩ := h.rest
    rfl
  · by_cases hd : d = c
    · subst hd
      obtain ⟨_, _, _, _, own⟩ := h.own
      rw [own]
      exact ⟨rfl, rfl, rfl, rfl⟩
    · rw [h.others d hd]
      exact ⟨rfl, rfl, rfl, rfl⟩
theorem State.RowFrame.aBytes (a n : Nat) : t.aBytes c a n = s.aBytes c a n := by
  have bytes : (t.core c).a = (s.core c).a := (h.keepsBytes.2 c).1
  have space : (t.core c).space 0 = (s.core c).space 0 := bytes
  have writes : t.wb = s.wb := by
    obtain ⟨_, _, _, _, rfl⟩ := h.rest
    rfl
  rw [State.aBytes, State.cycBytes, State.writesTo, space, writes]
  rfl
theorem State.RowFrame.bytesPending (a n : Nat) : t.bytesPending c a n = s.bytesPending c a n := by
  obtain ⟨_, _, _, _, rfl⟩ := h.rest
  rfl
theorem State.RowFrame.sound (sound : Claims.Sound (s.core c)) : Claims.Sound (t.core c) := by
  obtain ⟨_, _, _, _, own⟩ := h.own
  rwa [own]
theorem State.RowFrame.beats : t.coreBeat = s.coreBeat ∧ t.coreBeatLen = s.coreBeatLen ∧ t.isAccess = s.isAccess ∧ t.beatEnt = s.beatEnt := by
  obtain ⟨_, _, _, _, rfl⟩ := h.rest
  exact ⟨rfl, rfl, rfl, rfl⟩
theorem State.RowFrame.accessFrom (cyc fuel n open_ len : Nat) : t.accessFrom cyc fuel n open_ len = s.accessFrom cyc fuel n open_ len := by
  obtain ⟨_, _, _, _, rfl⟩ := h.rest
  clear h
  induction fuel generalizing n open_ len with
  | zero => rfl
  | succ fuel ih =>
    rw [State.accessFrom, State.accessFrom, ih]
    rfl
/-- An effect that a row puts on the agenda is due as the machine reckoned when the row issued. -/
theorem State.RowFrame.posts {at_ phase : Nat} {hold : Option Nat} {act : Act} (h' : (t.post at_ phase hold act).RowFrame u c qv' mx') :
    ∃ e ∈ u.agenda, e.act = act ∧ e.at_ = s.dueAt at_ hold :=
  ⟨_, h'.kept _ (t.post_listed ..), rfl, h.dueAt at_ hold⟩

end

/-! ### The format word (R237) -/

/-- The command's format word is the one it holds or the head of QS2M, which it then holds; nothing else changes. -/
theorem State.popFormat_pops {f : Word64} (formed : s.popFormat c = some (u, f)) : s.RowFrame u c (s.core c).qv2m { (s.core c).mx with fw := some f } ∧
    u.quads = s.quads ∧ ∃ qs2m, u.core c = { s.core c with qs2m, mx := { (s.core c).mx with fw := some f } } := by
  rw [State.popFormat] at formed
  split at formed
  case h_1 word held =>
    obtain ⟨rfl, rfl⟩ := Prod.mk.inj (Option.some.inj formed)
    rw [← held]
    exact ⟨.refl s c, rfl, _, rfl⟩
  case h_2 =>
    split at formed
    · obtain ⟨rfl, rfl⟩ := Prod.mk.inj (Option.some.inj formed)
      exact ⟨.changed ⟨_, _, _, _, rfl⟩, rfl, _, State.core_setCore ..⟩
    · cases formed

/-! ### Going on (R90, R245, R247) -/

/-- Going on changes of the stream only where it counts its next word from. -/
theorem State.engineGoOn_frame (s : State) (c occ : Nat) :
    (∃ n, s.RowFrame (s.engineGoOn c .matrix occ) c (s.core c).qv2m { (s.core c).mx with goAt := n }) ∧ (s.engineGoOn c .matrix occ).quads = s.quads := by
  obtain ⟨u, start, goes⟩ := s.engineGoOn_cases c occ
  obtain ⟨⟨n, frame⟩, quads⟩ : (∃ n, s.RowFrame u c (s.core c).qv2m { (s.core c).mx with goAt := n }) ∧ u.quads = s.quads := by
    rcases start with rfl | rfl
    · exact ⟨⟨_, .refl ..⟩, rfl⟩
    · exact ⟨⟨_, (State.RowFrame.refl s c).modStrm _⟩, rfl⟩
  rcases goes with is | ⟨_, _, _, is⟩ <;> rw [is]
  · exact ⟨⟨n, frame⟩, quads⟩
  · exact ⟨⟨n, frame.post ..⟩, quads⟩
/-- After a row the next one follows; after the last, the word that comes after the command's. -/
theorem State.rowDone_frame (s : State) (c q : Nat) (last : Bool) : (∃ mx, s.RowFrame (s.rowDone c q last) c (s.core c).qv2m mx ∧
    mx.sub = (if last then 0 else (s.core c).mx.sub + 1) ∧ (last = true → (s.core c).mx.ovr = none → mx.next = (s.core c).mx.widx + 1)) ∧
    (s.rowDone c q last).quads = s.quads := by
  cases last with
  | false => exact ⟨⟨_, ((State.RowFrame.refl s c).modStrm fun st => { st with sub := st.sub + 1, stall := false }).post .., rfl, nofun⟩, rfl⟩
  | true =>
    have ends := (State.RowFrame.refl s c).modStrm fun st => { st.endWord with next := if st.standsOn then st.widx + 1 else st.next, busyTo := s.now + q }
    obtain ⟨⟨n, goes⟩, quads⟩ := (s.modStrm c .matrix fun st =>
      { st.endWord with next := if st.standsOn then st.widx + 1 else st.next, busyTo := s.now + q }).engineGoOn_frame c q
    rw [ends.stream, ends.queue] at goes
    exact ⟨⟨_, ends.trans goes, rfl, fun _ plain => if_pos (StreamSt.standsOn_plain plain)⟩, quads⟩

/-! ### The lease (R198, R199, R236) -/

theorem State.RowFrame.useLease (h : s.RowFrame t c qv mx) (occ : Nat) : s.RowFrame (t.useLease c occ) c qv mx := by
  simp only [State.useLease]
  split
  · split
    · exact ((h.setQuad ..).setQuad ..).post ..
    · exact h.setQuad ..
  · exact h.setQuad ..
theorem State.RowFrame.holdArray (h : s.RowFrame t c qv mx) (occ : Nat) : s.RowFrame (t.holdArray c occ) c qv mx := h.setQuad ..

/-- The holder's command uses one of its lease, which ends with its last. -/
theorem State.useLease_quad {occ : Nat} (held : (s.quad (quadOf c)).holder = some (quadIndex c)) :
    let q := s.quad (quadOf c)
    let r := (s.useLease c occ).quad (quadOf c)
    r.act = q.act ∧ r.shd = q.shd ∧ (q.left ≤ 1 → r.holder = none ∧ r.left = 0) ∧ (1 < q.left → r.holder = q.holder ∧ r.left = q.left - 1) := by
  have holds : (s.quad (quadOf c)).heldBy (quadIndex c) = true := by simp [Quad.heldBy, held]
  have granted (t : State) (x : Quad) (at_ : Nat) : ((t.setQuad (quadOf c) x).postGrant (quadOf c) at_).quad (quadOf c) = x := State.quad_setQuad ..
  simp only [State.useLease, holds, if_true]
  split
  case isTrue last =>
    rw [granted]
    exact ⟨rfl, rfl, fun _ => ⟨rfl, rfl⟩, fun more => absurd more (not_lt.2 last)⟩
  case isFalse more =>
    rw [State.quad_setQuad]
    exact ⟨rfl, rfl, fun last => absurd last more, fun _ => ⟨rfl, rfl⟩⟩

end

/-! ### A word that may run (R94, R132, R237) -/

/-- A field of a matrix word by division. -/
theorem MWord.f_eq (w : MWord) (lo n : Nat) : w.f lo n = bodyOf w lo n := by
  simp [MWord.f, bitsOf, bodyOf, Nat.shiftRight_eq_div_pow]

section

variable {s : State} {i : Instr} {w : MWord} (holds : Holds s i w)
include holds

/-- The holder's lease lets a command run. -/
theorem leaseOut_holds : s.leaseOut s.curCore = none := by
  obtain ⟨-, -, holder, -⟩ := holds
  simp [State.leaseOut, Quad.heldBy, holder]
/-- A word that may run does its row. -/
theorem matrixWord_holds {specOk : Bool} (may : specOk = true ∨ w.spec = 0) (f : State → Nat → Nat → MOut) :
    matrixWord i w specOk false s f = finishMatrix s.curCore (f s s.curCore (here s).mx.sub) := by
  obtain ⟨wf, carries, -, -⟩ := id holds
  have allowed : (w.spec == 1 && !specOk) = false := by
    rcases may with h | h <;> simp [h]
  have carried : (s.core s.curCore).carries w = true := carries
  simp only [matrixWord, wf, carried, allowed, leaseOut_holds holds, Bool.not_true, Bool.or_false, Bool.false_eq_true, if_false, ite_self, here]

end

/-! ### Reads that meet no error (R278, R320) -/

section

variable {s : State} {c : Nat}

/-- No row of a core waits for a load where its loads have all come. -/
theorem State.bytesPending_none (joins : ∀ j ∈ s.joins, j.core = c → j.due ≠ 0) (a n : Nat) : s.bytesPending c a n = false := by
  refine List.any_eq_false.2 fun j hj => ?_
  by_cases own : j.core = c <;> simp [own, joins j hj]

/-- A sound core's port corrects no scale. -/
theorem State.afterScales_sound (sound : Claims.Sound (s.core c)) (l : List (Nat × Nat)) : s.afterScales c l = s := List.foldl_fixed' (fun _ => State.afterRead_sound sound ..) l

end

/-! ### Rows sent and commands issued (R236, R245, R247) -/

/-- The array is occupied from the row in issue on: the first row uses the lease (R96, R236). -/
def State.occupied (s : State) (c i left : Nat) : State :=
  let s := if i = 0 then s.useLease c left else s.holdArray c left
  s.modStrm c .matrix fun st => { st with busyTo := s.now + left }
/-- Row `i` of a command of `n` rows sends its result and occupies the array, and the stream goes on. -/
def State.rowSent (s : State) (c i n at_ : Nat) (act : Act) : State :=
  ((s.post at_ 1 (some c) act).occupied c i (2 * (n - i))).rowDone c 2 (i + 1 == n)

section

variable {s u t : State} {c : Nat} {qv : Queue (List Byte)} {mx : StreamSt}

/-- The stream stands on the same row of the same word. -/
def StreamSt.SamePlace (a b : StreamSt) : Prop := b.sub = a.sub ∧ b.ovr = a.ovr ∧ b.widx = a.widx

/-- A quad's array reads what the table of arrays holds. -/
theorem State.quad_congr (same : t.quads = s.quads) (q : Nat) : t.quad q = s.quad q := by rw [State.quad, State.quad, same]
/-- The lease after a command that the holder's array runs. -/
theorem State.spent_useLease {occ : Nat} (held : (s.quad (quadOf s.curCore)).holder = some (quadIndex s.curCore))
    (holder : (u.quad (quadOf s.curCore)).holder = (s.quad (quadOf s.curCore)).holder) (left : (u.quad (quadOf s.curCore)).left = (s.quad (quadOf s.curCore)).left)
    (used : (here s).mx.sub = 0 → t.quads = (u.useLease s.curCore occ).quads) : spent s t := by
  intro first
  obtain ⟨-, -, ends, goes⟩ := State.useLease_quad (occ := occ) (holder.trans held)
  have same : t.quad (quadOf s.curCore) = (u.useLease s.curCore occ).quad (quadOf s.curCore) := State.quad_congr (used first) _
  rw [left, holder] at goes
  rw [left] at ends
  rw [same]
  exact ⟨ends, goes⟩
/-- What a row that goes on leaves. -/
theorem State.RowFrame.goesOn (h : s.RowFrame t s.curCore qv mx) (place : (here s).mx.SamePlace mx) (q : Nat) (last : Bool) :
    (∃ mx', s.RowFrame (t.rowDone s.curCore q last) s.curCore qv mx') ∧ rowGone s (t.rowDone s.curCore q last) last := by
  obtain ⟨⟨mx', frame, sub, next⟩, -⟩ := t.rowDone_frame s.curCore q last
  obtain ⟨at_, ovr, widx⟩ := place
  rw [h.stream, at_] at sub
  rw [h.stream, ovr, widx] at next
  rw [h.queue] at frame
  exact ⟨⟨mx', h.trans frame⟩, by rw [rowGone, frame.stream]; exact ⟨sub, next⟩⟩

/-- Occupying the array changes the frame's stream in how long it is busy. -/
theorem State.RowFrame.occupied (h : s.RowFrame u c qv mx) (i left : Nat) : ∃ busyTo, s.RowFrame (u.occupied c i left) c qv { mx with busyTo } := by
  simp only [State.occupied]
  split
  · exact ⟨_, (h.useLease left).modStrm _⟩
  · exact ⟨_, (h.holdArray left).modStrm _⟩

/-- A row sent on its way: the lease, the stream and the spaces after it, and when its result is due. -/
theorem State.rowSent_lands (h : s.RowFrame u s.curCore qv mx) (place : (here s).mx.SamePlace mx) (quads : u.quads = s.quads)
    (held : (s.quad (quadOf s.curCore)).holder = some (quadIndex s.curCore)) (n at_ : Nat) (act : Act) :
    let t := u.rowSent s.curCore (here s).mx.sub n at_ act
    spent s t ∧ rowGone s t ((here s).mx.sub + 1 == n) ∧ keepsBytes s t ∧ (t.core s.curCore).qv2m = qv ∧
      ∃ e ∈ t.agenda, e.act = act ∧ e.at_ = s.dueAt at_ (some s.curCore) := by
  obtain ⟨busyTo, occupies⟩ := (h.post at_ 1 (some s.curCore) act).occupied (here s).mx.sub (2 * (n - (here s).mx.sub))
  obtain ⟨_, later⟩ := (State.RowFrame.refl (u.post at_ 1 (some s.curCore) act) s.curCore).occupied (here s).mx.sub (2 * (n - (here s).mx.sub))
  obtain ⟨⟨mx', frame⟩, gone⟩ := occupies.goesOn place 2 ((here s).mx.sub + 1 == n)
  obtain ⟨⟨_, goes, -⟩, after⟩ := ((u.post at_ 1 (some s.curCore) act).occupied s.curCore (here s).mx.sub (2 * (n - (here s).mx.sub))).rowDone_frame
    s.curCore 2 ((here s).mx.sub + 1 == n)
  have same : (u.post at_ 1 (some s.curCore) act).quad (quadOf s.curCore) = s.quad (quadOf s.curCore) := State.quad_congr quads _
  refine ⟨State.spent_useLease (occ := 2 * (n - (here s).mx.sub)) held (congrArg _ same) (congrArg _ same) fun first => after.trans ?_, gone, frame.keepsBytes,
    frame.queue, h.posts (later.trans goes)⟩
  rw [State.occupied, if_pos first]
  rfl
/-- A command of one issue that leaves the planes `act` and `shd`: it uses the lease, and the stream goes on. -/
theorem State.issued_lands (h : s.RowFrame u s.curCore qv mx) (place : (here s).mx.SamePlace mx)
    (held : (s.quad (quadOf s.curCore)).holder = some (quadIndex s.curCore)) {act shd : ArrPlane}
    (quad : u.quad (quadOf s.curCore) = { s.quad (quadOf s.curCore) with act, shd }) (occ q : Nat) :
    let t := (u.useLease s.curCore occ).rowDone s.curCore q true
    spent s t ∧ rowGone s t true ∧ keepsBytes s t ∧ (t.quad (quadOf s.curCore)).act = act ∧ (t.quad (quadOf s.curCore)).shd = shd ∧
      ∀ e ∈ u.agenda, e ∈ t.agenda := by
  have holder : (u.quad (quadOf s.curCore)).holder = (s.quad (quadOf s.curCore)).holder := by rw [quad]
  have left : (u.quad (quadOf s.curCore)).left = (s.quad (quadOf s.curCore)).left := by rw [quad]
  obtain ⟨⟨_, frame⟩, gone⟩ := (h.useLease occ).goesOn place q true
  obtain ⟨⟨_, goes, -⟩, after⟩ := (u.useLease s.curCore occ).rowDone_frame s.curCore q true
  obtain ⟨act', shd', -⟩ := State.useLease_quad (occ := occ) (holder.trans held)
  have same : ((u.useLease s.curCore occ).rowDone s.curCore q true).quad (quadOf s.curCore) = (u.useLease s.curCore occ).quad (quadOf s.curCore) :=
    State.quad_congr after _
  rw [quad] at act' shd'
  refine ⟨State.spent_useLease held holder left fun _ => after, gone, frame.keepsBytes, ?_, ?_, (((State.RowFrame.refl u s.curCore).useLease occ).trans goes).kept⟩
  · rw [same, act']
  · rw [same, shd']

end

end Sys2Proof.Machine
end

