-- ==== Sys2Proof/Proofs/MatrixWords.lean ====
section
/-! SUPPORT. The matrix words (R243 to R249, R256): one equation for each word that can run, each of its own waits and faults; with them O35. -/

namespace Sys2Proof

open Sys2Proof.Machine Sys2Proof.Claims

/-- The row `r` is row `i` of the step `w` over the plane `p` with the values and flags `out` (R245). -/
def MRow.IsStep (r : MRow) (w : MWord) (c i : Nat) (f : Word64) (p : ArrPlane) (out : List Word32 × Nat) : Prop :=
  r.core = c ∧ r.tile = w.tile.toNat ∧ r.row = bodyOf w 145 7 + i ∧ r.acc = (bodyOf w 144 1 == 1) ∧ r.isInt = fwInt f ∧ r.cols = p.n ∧ r.vals = out.1 ∧
    r.flags = out.2 ∧ r.tag = if w.spec = 1 then some w.tag.toNat else none
/-- Row `j` of an MZERO. -/
def MRow.zero (s : State) (w : MWord) (c r0 j : Nat) : MRow :=
  { core := c, tile := w.tile.toNat, row := r0 + j, acc := false, isInt := true, cols := 128, vals := List.replicate 128 0, flags := 0, tag := specTagOf w
    of_ := s.rowOf_ c j false }

end Sys2Proof

namespace Sys2Proof.Machine

open Sys2Proof.Claims

/-- The machine with the shadow that a row's write needs, and with the plane of its command kept (R95, R245). -/
def State.stepping (s : State) (c : Nat) (w : MWord) (p : ArrPlane) : State :=
  s.modCore c fun k => { k.allocShadow w with mplane := some (k.mx.istamp, p) }
/-- The machine with a row taken from QV2M (R241). -/
def State.rowTaken (s : State) (c : Nat) : State :=
  (s.setCore c { s.core c with qv2m := (s.core c).qv2m.pop s.now }).notePop c (s.core c).mx 2 ((s.core c).qv2m.items.take 1)

/-- A shadow allocated changes the shadows only. -/
theorem Core.allocShadow_shadows (k : Core) (w : MWord) : ∃ shadows, k.allocShadow w = { k with shadows } := by
  unfold Core.allocShadow
  split
  · exact ⟨_, rfl⟩
  · split <;> exact ⟨_, rfl⟩

section

variable {s t : State} {c : Nat} {qv : Queue (List Byte)} {mx : StreamSt} (h : s.RowFrame t c qv mx)
include h

theorem State.RowFrame.allocShadow (w : MWord) : s.RowFrame (t.modCore c fun k => k.allocShadow w) c qv mx := by
  obtain ⟨shadows, allocated⟩ := (t.core c).allocShadow_shadows w
  exact h.next (.changed ⟨_, _, _, _, allocated⟩)
theorem State.RowFrame.stepping (w : MWord) (p : ArrPlane) : s.RowFrame (t.stepping c w p) c qv mx := by
  obtain ⟨shadows, allocated⟩ := (t.core c).allocShadow_shadows w
  refine h.next (.changed ?_)
  change ∃ qs2m popped mplane shadows, { (t.core c).allocShadow w with mplane := some ((t.core c).mx.istamp, p) } =
    ({ t.core c with qs2m, popped, mplane, shadows } : Core)
  rw [allocated]
  exact ⟨_, _, _, _, rfl⟩
theorem State.RowFrame.rowTaken : s.RowFrame (t.rowTaken c) c (qv.pop s.now) mx := by
  have popped : t.RowFrame (t.setCore c { t.core c with qv2m := (t.core c).qv2m.pop t.now }) c ((t.core c).qv2m.pop t.now) (t.core c).mx :=
    .changed ⟨_, _, _, _, rfl⟩
  have taken : t.RowFrame (t.rowTaken c) c ((t.core c).qv2m.pop t.now) (t.core c).mx := popped.next (.changed ⟨_, _, _, _, rfl⟩)
  rw [h.queue, h.stream, h.now] at taken
  exact h.trans taken

end

/-- The scale of block `b` for row `i`, from the row of scales: only MXFP4 rows have scales (R241). -/
def stepScale (f : Word64) (i : Nat) (scales : List Byte) (b : Nat) : Nat := if fwA f = 13 then (scales.toArray.getD (16 * (i % 16) + b) 0).toNat else 0
/-- An MSTEP reads its scales so. -/
theorem stepScale_eq (f : Word64) (i : Nat) (scales : List Byte) :
    (fun b => ((if (fwA f == 13) = true then scales.toArray else #[]).getD (16 * (i % 16) + b) 0).toNat) = stepScale f i scales := by
  funext b
  by_cases mx : fwA f = 13 <;> simp [mx, stepScale]

/-- Rows of another type have none. -/
theorem stepScale_plain {f : Word64} (unscaled : fwA f ≠ 13) (i : Nat) (scales : List Byte) : stepScale f i scales = fun _ => 0 := by
  funext b
  rw [stepScale, if_neg unscaled]

/-- The plane of a step: the kept one where it is the command's own, else the active one. -/
theorem mstep_plane {k : Core} {act p : ArrPlane} (active : if k.mx.firstRow then p = act else k.mplane = some (k.mx.istamp, p)) :
    (∃ x, k.mplane = some x ∧ (if (!k.mx.firstRow && x.1 == k.mx.istamp) = true then x.2 else act) = p) ∨ (k.mplane = none ∧ act = p) := by
  cases first : k.mx.firstRow with
  | true =>
    rw [if_pos first] at active
    cases k.mplane with
    | none => exact .inr ⟨rfl, active.symm⟩
    | some x => exact .inl ⟨x, rfl, active.symm⟩
  | false =>
    rw [if_neg (ne_true_of_eq_false first)] at active
    exact .inl ⟨_, active, by simp⟩

section

variable {f : Word64} {base m o : Nat} {queued : Bool} (room : queued = false → base + m + (if fwA f = 13 then cdiv m 16 else 0) ≤ 1536)
include room

/-- The rows of a step lie in A-space and in its tile. -/
theorem mstep_inside (inside : o + m ≤ 128) : (!queued && decide (1536 < base + m) || decide (128 < o + m)) = false := by
  rw [decide_eq_false (not_lt.2 inside), Bool.or_false]
  cases queued with
  | true => rfl
  | false => simpa using Nat.le_trans (Nat.le_add_right ..) (room rfl)
/-- So do its scales. -/
theorem mstep_scaled (waiting : queued = true → fwA f ≠ 13) : (fwA f == 13 && (queued || decide (1536 < base + m + cdiv m 16))) = false := by
  cases queued with
  | true => simpa using waiting rfl
  | false =>
    rw [Bool.and_eq_false_imp, beq_iff_eq]
    intro mx
    simpa [mx] using room rfl

end

section

variable {w : MWord} {s u : State} {f : Word64} {p : ArrPlane} {queued : Bool} (joins : ∀ j ∈ s.joins, j.core = s.curCore → j.due ≠ 0)
  (holds : Holds s (.mstep w) w) (formed : s.popFormat s.curCore = some (u, f)) (valid : fwValid f = true) (sound : fwSound f = true)
  (fits : fwFits f p = true) (gen : p.gen = (here s).bnd.gen) (inside : bodyOf w 145 7 + (bodyOf w 152 7 + 1) ≤ 128)
  (plain : (here s).specBlocked w = false) (notFull : (here s).sr.tfull.getLsbD w.tile.toNat = false)
  (active : if (here s).mx.firstRow then p = (s.quad (quadOf s.curCore)).act else (here s).mplane = some ((here s).mx.istamp, p))
  (source : (bodyOf w 159 11 == 2042) = queued)
  (room : queued = false → bodyOf w 159 11 + (bodyOf w 152 7 + 1) + (if fwA f = 13 then cdiv (bodyOf w 152 7 + 1) 16 else 0) ≤ 1536)
  (waiting : queued = true → fwA f ≠ 13 ∧ (here s).qv2m.canPop s.now = true)
include joins holds formed valid sound fits gen inside plain notFull active source room waiting

/-- A row of an MSTEP that can run, from A-space or from QV2M. -/
theorem mstep_sends :
    let c := s.curCore
    let i := (here s).mx.sub
    let m := bodyOf w 152 7 + 1
    let row := if queued then (here s).qv2m.head?.getD zeroRow else s.aBytes c (256 * (bodyOf w 159 11 + i)) 256
    let scales := s.aBytes c (256 * (bodyOf w 159 11 + m + i / 16)) 256
    let x := (if queued then u.rowTaken c else u).stepping c w p
    ∃ r : MRow, exec (.mstep w) s = .next (x.rowSent c i m (x.now + if hadOnA f then 28 else 24) (.run .matrixRowWrite (.mrow r))) ∧
      r.IsStep w c i f p (stepRow f p (here s).sm row.toArray (stepScale f i scales)) := by
  obtain ⟨frame, quads, qs2m, own⟩ := State.popFormat_pops formed
  obtain ⟨-, -, -, clean⟩ := id holds
  have clean' : Claims.Sound (u.core s.curCore) := frame.sound clean
  have act : (u.quad (quadOf s.curCore)).act = (s.quad (quadOf s.curCore)).act := congrArg Quad.act (State.quad_congr quads _)
  have plane := mstep_plane (k := u.core s.curCore) (act := (u.quad (quadOf s.curCore)).act) (p := p) (by rwa [own, act])
  have gen' : (p.gen != (u.core s.curCore).bnd.gen) = false := by
    rw [own, gen]
    exact bne_self_eq_false _
  have plain' : (u.core s.curCore).specBlocked w = false := by rwa [own]
  have notFull' : bitOf (u.core s.curCore).sr.tfull.toNat w.tile.toNat = false := by rwa [own]
  have head : (queued && !(u.core s.curCore).qv2m.canPop u.now) = false := by
    rw [frame.queue, frame.now, Bool.and_eq_false_imp, Bool.not_eq_false']
    exact fun taken => (waiting taken).2
  have pending (a n : Nat) : u.bytesPending s.curCore a n = false := (frame.bytesPending a n).trans (State.bytesPending_none joins a n)
  have taken : (u.setCore s.curCore { u.core s.curCore with qv2m := (u.core s.curCore).qv2m.pop u.now }).notePop s.curCore (u.core s.curCore).mx 2
      ((u.core s.curCore).qv2m.items.take 1) = u.rowTaken s.curCore := rfl
  dsimp only at taken
  have space : (u.core s.curCore).sm = (here s).sm := (frame.keepsBytes.2 _).2.2.1
  have unfolded : exec (.mstep w) s = execMstep w s := rfl
  simp only [unfolded, execMstep, MWord.f_eq, source]
  rw [mstep_inside room inside, matrixWord_holds holds (.inl rfl), ← space, here, ← frame.queue, ← frame.aBytes, ← frame.aBytes, ← stepScale_eq]
  rcases plane with ⟨x, stored, is⟩ | ⟨stored, is⟩ <;>
  · rw [stored] at taken
    simp only [formed, stored, is, valid, sound, fits, gen', plain', notFull', pending, head, mstep_scaled room fun taken => (waiting taken).1, taken,
      State.afterRead_sound clean', State.afterScales_sound clean', Bool.not_true, Bool.or_self, Bool.and_assoc, Bool.and_false, Bool.false_eq_true, if_false,
      ite_self]
    exact ⟨_, rfl, rfl, rfl, rfl, rfl, rfl, rfl, rfl, rfl, rfl⟩

end

/-! ### Swapping the planes (R244) -/

section

variable {w : MWord} {s : State} (holds : Holds s (.mswap w) w) (plain : w.spec = 0)
include holds plain

/-- The planes change places. -/
theorem mswap_swaps (loaded : (s.quad (quadOf s.curCore)).shd.st ≠ 1)
    (gen : (s.quad (quadOf s.curCore)).shd.st = 2 → (s.quad (quadOf s.curCore)).shd.gen = (here s).bnd.gen) :
    exec (.mswap w) s = .next (((s.setQuad (quadOf s.curCore) { s.quad (quadOf s.curCore) with
      act := (s.quad (quadOf s.curCore)).shd, shd := (s.quad (quadOf s.curCore)).act }).useLease s.curCore 2).rowDone s.curCore 2 true) := by
  have own : (decide ((s.quad (quadOf s.curCore)).shd.st = 2) && (s.quad (quadOf s.curCore)).shd.gen != (s.core s.curCore).bnd.gen) = false := by
    rw [Bool.and_eq_false_imp, decide_eq_true_eq, bne_eq_false_iff_eq]
    exact gen
  change execMswap w s = _
  rw [execMswap, matrixWord_holds holds (.inr plain)]
  simp only [own, if_neg loaded, Bool.false_eq_true, if_false]
  rfl
/-- While the shadow plane is loading, the swap waits. -/
theorem mswap_waits (loading : (s.quad (quadOf s.curCore)).shd.st = 1) : exec (.mswap w) s = .next (s.blocked s.curCore .matrix 4 (here s).matrixEntry) := by
  change execMswap w s = _
  rw [execMswap, matrixWord_holds holds (.inr plain)]
  simp [loading, finishMatrix, here]
/-- A plane of another program is a fault. -/
theorem mswap_foreign (loaded : (s.quad (quadOf s.curCore)).shd.st = 2) (gen : (s.quad (quadOf s.curCore)).shd.gen ≠ (here s).bnd.gen) :
    exec (.mswap w) s = .next (mxFault s s { code := 0x13 }) := by
  have other : ((s.quad (quadOf s.curCore)).shd.gen != (s.core s.curCore).bnd.gen) = true := bne_iff_ne.2 gen
  change execMswap w s = _
  rw [execMswap, matrixWord_holds holds (.inr plain)]
  simp only [loaded, other, decide_true, Bool.and_self, if_true]
  rfl

end

/-! ### Zero rows (R246) -/

/-- Row `j` of an MZERO put on its way. -/
def State.zeroSent (w : MWord) (c r0 : Nat) (s : State) (j : Nat) : State :=
  s.post (s.now + j / 4 + 2) 1 (some c) (.run .matrixRowWrite (.mrow (.zero s w c r0 j)))

/-- Every row sent stands on the agenda. -/
theorem State.RowFrame.zerosSent {s : State} {c : Nat} {qv : Queue (List Byte)} {mx : StreamSt} (w : MWord) (r0 : Nat) (l : List Nat) {t : State}
    (h : s.RowFrame t c qv mx) : t.RowFrame (l.foldl (State.zeroSent w c r0) t) c (t.core c).qv2m (t.core c).mx ∧ (l.foldl (State.zeroSent w c r0) t).quads = t.quads ∧
      ∀ j ∈ l, ∃ e ∈ (l.foldl (State.zeroSent w c r0) t).agenda, ∃ v, e.act = .run .matrixRowWrite (.mrow (.zero v w c r0 j)) ∧
        e.at_ = s.dueAt (s.now + j / 4 + 2) (some c) := by
  induction l generalizing t with
  | nil => exact ⟨.refl .., rfl, nofun⟩
  | cons j l ih =>
    obtain ⟨goes, quads, later⟩ := ih (t := State.zeroSent w c r0 t j) (h.post ..)
    refine ⟨((State.RowFrame.refl t c).post ..).next goes, quads, fun x hx => ?_⟩
    rcases List.mem_cons.1 hx with rfl | hx
    · obtain ⟨e, listed, act, at_⟩ := h.posts goes
      exact ⟨e, listed, t, act, by rw [at_, h.now]⟩
    · exact later x hx

section

variable {w : MWord} {s : State} (holds : Holds s (.mzero w) w) (inside : bodyOf w 163 7 + (bodyOf w 156 7 + 1) ≤ 128) (first : (here s).mx.sub = 0)
  (plain : (here s).specBlocked w = false)
include holds inside first plain

/-- All rows of an MZERO that can run are sent at once. -/
theorem mzero_sends (notFull : (here s).sr.tfull.getLsbD w.tile.toNat = false) :
    exec (.mzero w) s = .next ((((List.range (bodyOf w 156 7 + 1)).foldl (State.zeroSent w s.curCore (bodyOf w 163 7))
      (s.modCore s.curCore fun k => k.allocShadow w)).useLease s.curCore (cdiv (bodyOf w 156 7 + 1) 4)).rowDone s.curCore (cdiv (bodyOf w 156 7 + 1) 4) true) := by
  have plain' : (s.core s.curCore).specBlocked w = false := plain
  have notFull' : bitOf (s.core s.curCore).sr.tfull.toNat w.tile.toNat = false := notFull
  change execMzero w s = _
  rw [execMzero]
  simp only [MWord.f_eq, decide_eq_false (not_lt.2 inside)]
  rw [matrixWord_holds holds (.inl rfl), first]
  simp only [plain', notFull', Bool.false_eq_true, if_false, if_true, List.drop_zero, Nat.sub_zero]
  rfl
/-- An MZERO of a full tile waits. -/
theorem mzero_waits (full : (here s).sr.tfull.getLsbD w.tile.toNat = true) : exec (.mzero w) s = .next (s.blocked s.curCore .matrix 3 (here s).matrixEntry) := by
  have plain' : (s.core s.curCore).specBlocked w = false := plain
  have full' : bitOf (s.core s.curCore).sr.tfull.toNat w.tile.toNat = true := full
  change execMzero w s = _
  rw [execMzero]
  simp only [MWord.f_eq, decide_eq_false (not_lt.2 inside)]
  rw [matrixWord_holds holds (.inl rfl), first]
  simp only [plain', full', Bool.false_eq_true, if_false, if_true]
  rfl

end

/-! ### Loading a stationary block (R243) -/

/-- The access beat in which an MLDS reads: its number and its opening. -/
def State.loadBeat (s : State) : Nat × Nat :=
  s.accessFrom (s.now + 2) 64 (s.coreBeat s.curCore).1 (s.coreBeat s.curCore).2 (s.coreBeatLen s.curCore)
/-- A block's reading and its loading are put on their way (R243). -/
def State.loadSent (s : State) (c stamp : Nat) (p : ArrPlane) (opens closes : Nat) : State :=
  ((s.setQuad (quadOf c) { s.quad (quadOf c) with shd := p }).post opens 1 (some c) (.run .shadowPlaneLoaded (.nums [quadOf c, stamp, c, 0]))).post closes 0
    (some c) (.run .shadowPlaneLoaded (.nums [quadOf c, stamp, c, 1]))

/-- The plane is the quad's shadow plane, and both events stand on the agenda. -/
theorem State.RowFrame.loadSent {s t : State} {c : Nat} {qv : Queue (List Byte)} {mx : StreamSt} (h : s.RowFrame t c qv mx) (stamp : Nat) (p : ArrPlane)
    (opens closes : Nat) : let u := t.loadSent c stamp p opens closes
    s.RowFrame u c qv mx ∧ u.quad (quadOf c) = { t.quad (quadOf c) with shd := p } ∧
      (∃ e ∈ u.agenda, e.act = .run .shadowPlaneLoaded (.nums [quadOf c, stamp, c, 0]) ∧ e.at_ = s.dueAt opens (some c)) ∧
      ∃ e ∈ u.agenda, e.act = .run .shadowPlaneLoaded (.nums [quadOf c, stamp, c, 1]) ∧ e.at_ = s.dueAt closes (some c) := by
  have set := h.setQuad (quadOf c) { t.quad (quadOf c) with shd := p }
  have read := set.post opens 1 (some c) (.run .shadowPlaneLoaded (.nums [quadOf c, stamp, c, 0]))
  exact ⟨read.post .., State.quad_setQuad .., set.posts ((State.RowFrame.refl _ c).post ..), read.posts (.refl _ c)⟩

section

variable {w : MWord} {s : State} (holds : Holds s (.mlds w) w) (plain : w.spec = 0)
include holds plain

/-- An MLDS that finds no format word waits for one in an ELASTIC stope, and faults in a TIMED one. -/
theorem mlds_unformed (unformed : s.popFormat s.curCore = none) :
    exec (.mlds w) s = .next (if s.elastic s.curCore then s.stall s.curCore .matrix else mxFault s s { code := 5 }) := by
  change execMlds w s = _
  rw [execMlds, matrixWord_holds holds (.inr plain)]
  simp only [unformed]
  rfl

variable {u : State} {f : Word64} (formed : s.popFormat s.curCore = some (u, f))
include formed

/-- An unsound format word is a fault, with the word popped. -/
theorem mlds_unsound (unsound : ¬(fwValid f = true ∧ fwSound f = true)) : exec (.mlds w) s = .next (mxFault s u { code := 7 }) := by
  have refused : (!fwValid f || !fwSound f) = true := by rwa [← Bool.not_and, Bool.not_eq_true', ← Bool.not_eq_true, Bool.and_eq_true]
  change execMlds w s = _
  rw [execMlds, matrixWord_holds holds (.inr plain)]
  simp only [formed, refused, if_true]
  rfl

/-- A sound format word, an aligned block inside W, a peer of the same program and an access beat that has room: the block is on its way. -/
theorem mlds_loads (valid : fwValid f = true) (sound : fwSound f = true) (aligned : bodyOf w 148 22 % 64 = 0)
    (deep : 2 * (bodyOf w 138 8 + 1) ≤ 2048 / tyBits (fwW f)) (blocks : fwW f = 13 → 2 * (bodyOf w 138 8 + 1) % 32 = 0)
    (inside : bodyOf w 148 22 + blockBytes (fwW f) (2 * (bodyOf w 138 8 + 1)) (bodyOf w 131 7 + 1) ≤ 4194304)
    (peer : ∃ x, (s.core (quadCore (quadOf s.curCore) (bodyOf w 146 2))).bound = some x ∧ x.gen = (here s).bnd.gen) (access : ∃ j < 16, s.isAccess j = true)
    (room : blockBytes (fwW f) (2 * (bodyOf w 138 8 + 1)) (bodyOf w 131 7 + 1) ≤ 1024 * (s.beatEnt s.loadBeat.1).len) :
    exec (.mlds w) s = .next (((u.loadSent s.curCore (here s).mx.istamp
      { st := 1, wt := fwW f, k := 2 * (bodyOf w 138 8 + 1), n := bodyOf w 131 7 + 1, gen := (here s).bnd.gen, wAddr := bodyOf w 148 22, src := bodyOf w 146 2
        stamp := (here s).mx.istamp }
      (max (s.now + 1) (s.loadBeat.2 + pulseDelay (quadCore (quadOf s.curCore) (bodyOf w 146 2)) - pulseDelay s.curCore))
      (s.loadBeat.2 + (s.beatEnt s.loadBeat.1).len + 5)).useLease s.curCore 2).rowDone s.curCore 2 true) := by
  obtain ⟨frame, -, qs2m, own⟩ := State.popFormat_pops formed
  obtain ⟨beat, beatLen, isAccess, beatEnt⟩ := frame.beats
  have bnd : (u.core s.curCore).bnd = (here s).bnd := by
    rw [own]
    rfl
  have stamp : (u.core s.curCore).mx.istamp = (here s).mx.istamp := by rw [own, here]
  have fitting : (decide (2048 / tyBits (fwW f) < 2 * (bodyOf w 138 8 + 1)) || (fwW f == 13 && 2 * (bodyOf w 138 8 + 1) % 32 != 0) ||
      decide (4194304 < bodyOf w 148 22 + blockBytes (fwW f) (2 * (bodyOf w 138 8 + 1)) (bodyOf w 131 7 + 1))) = false := by
    rw [decide_eq_false (not_lt.2 deep), decide_eq_false (not_lt.2 inside), Bool.false_or, Bool.or_false, Bool.and_eq_false_imp, beq_iff_eq, bne_eq_false_iff_eq]
    exact blocks
  have sameProgram : ((u.core (quadCore (quadOf s.curCore) (bodyOf w 146 2))).bound.all fun x => x.gen != (here s).bnd.gen) = false := by
    obtain ⟨x, bound, gen⟩ := peer
    rw [frame.bound, bound, Option.all_some, gen]
    exact bne_self_eq_false _
  have open_ : (List.range 16).any s.isAccess = true := by
    obtain ⟨j, below, is⟩ := access
    exact List.any_eq_true.2 ⟨j, List.mem_range.2 below, is⟩
  have beat' : u.accessFrom (u.now + 2) 64 (u.coreBeat s.curCore).1 (u.coreBeat s.curCore).2 (u.coreBeatLen s.curCore) = s.loadBeat := by
    rw [frame.accessFrom, frame.now, beat, beatLen, State.loadBeat]
  have full : decide (1024 * (u.beatEnt s.loadBeat.1).len < blockBytes (fwW f) (2 * (bodyOf w 138 8 + 1)) (bodyOf w 131 7 + 1)) = false := by
    rw [beatEnt]
    exact decide_eq_false (not_lt.2 room)
  rw [← isAccess] at open_
  rw [← beatEnt, ← frame.now]
  change execMlds w s = _
  rw [execMlds, matrixWord_holds holds (.inr plain)]
  simp only [formed, valid, sound, MWord.f_eq, aligned, fitting, bnd, stamp, sameProgram, open_, beat', full, bne_self_eq_false, Bool.not_true, Bool.or_self,
    Bool.false_eq_true, if_false]
  rfl

end

/-! ### Draining (R247, R248) -/

/-- Without a residual the epilogue reads none. -/
theorem epilogue_plain {f : Word64} (none_ : fwResidual f = false) (k : Core) (key scale crow thr ctag j : Nat) (cs : List Nat) (res : List FVal) :
    epilogue f k key scale crow thr ctag j cs res = epilogue f k key scale crow thr ctag j cs [] := by
  simp only [epilogue, none_, Bool.false_eq_true, if_false]

/-- The draw key kept is the stream's own. -/
theorem State.RowFrame.keepDraw {s t : State} {c : Nat} {qv : Queue (List Byte)} {mx : StreamSt} (h : s.RowFrame t c qv mx) :
    ∃ fwd, s.RowFrame (t.keepDraw c .matrix) c qv { mx with fwd } := by
  rw [State.keepDraw]
  split
  · exact ⟨_, h⟩
  · exact ⟨_, h.modStrm _⟩
theorem State.keepDraw_quads (s : State) (c : Nat) (k : Strm) : (s.keepDraw c k).quads = s.quads := by
  rw [State.keepDraw]
  split <;> rfl

section

variable {w : MWord} {s u : State} {f : Word64} (joins : ∀ j ∈ s.joins, j.core = s.curCore → j.due ≠ 0)
  (holds : Holds s (.mdrain w) w) (unspec : w.spec = 0) (formed : s.popFormat s.curCore = some (u, f)) (valid : fwValid f = true) (sound : fwSound f = true)
  (inside : bodyOf w 163 7 + (bodyOf w 156 7 + 1) ≤ 128)
  (rows : bodyOf w 154 2 = 0 → bodyOf w 143 11 + (bodyOf w 156 7 + 1) * rowsPerOut (fwOut f) ≤ 1536)
  (residual : fwResidual f = true → bodyOf w 132 11 + (bodyOf w 156 7 + 1) * (if fwOut f = 7 then 2 else 1) ≤ 1536)
  (entry : bodyOf w 154 2 = 2 → (Table.find? (here s).act.tiles (bodyOf w 94 6)).isSome = true)
  (plain : (here s).tileShadow w.tile.toNat = false) (notFull : (here s).sr.tfull.getLsbD w.tile.toNat = false)
include joins holds unspec formed valid sound inside rows residual entry plain notFull

/-- A row of an MDRAIN that can run: its output row is on its way to its destination. -/
theorem mdrain_sends :
    let c := s.curCore
    let i := (here s).mx.sub
    let crow := bodyOf w 163 7
    ∃ r : DrainRow, exec (.mdrain w) s = .next ((u.keepDraw c .matrix).rowSent c i (bodyOf w 156 7 + 1) ((u.keepDraw c .matrix).now + if hadOnDrain f then 24 else 20)
      (.run .drainDelivery (.drow r))) ∧ r.core = c ∧ r.dest = bodyOf w 154 2 ∧ r.arow = bodyOf w 143 11 + i * rowsPerOut (fwOut f) ∧ r.entry = bodyOf w 94 6 ∧
      r.first = i * rowsPerOut (fwOut f) ∧ ∃ res, r.pieces = outputPieces (fwOut f) (epilogue f (u.core c) ((u.core c).keyFor (u.core c).mx)
        ((u.core c).scaleFor (u.core c).mx) crow (bodyOf w 116 16) (bodyOf w 100 16) i (elemsOf 32 (u.cBytes c (w.tile.toNat * 65536 + (crow + i) * 512) 512)) res).1 := by
  obtain ⟨frame, -, qs2m, own⟩ := State.popFormat_pops formed
  obtain ⟨-, -, -, clean⟩ := id holds
  have clean' : Claims.Sound (u.core s.curCore) := frame.sound clean
  have keeps : Claims.Sound ((u.keepDraw s.curCore .matrix).core s.curCore) := by
    obtain ⟨_, drawn⟩ := frame.keepDraw
    exact drawn.sound clean
  have toA : (bodyOf w 154 2 == 0 && decide (1536 < bodyOf w 143 11 + (bodyOf w 156 7 + 1) * rowsPerOut (fwOut f))) = false := by
    rw [Bool.and_eq_false_imp, beq_iff_eq, decide_eq_false_iff_not, not_lt]
    exact rows
  have fromA : (fwResidual f && decide (1536 < bodyOf w 132 11 + (bodyOf w 156 7 + 1) * if fwOut f = 7 then 2 else 1)) = false := by
    rw [Bool.and_eq_false_imp, decide_eq_false_iff_not, not_lt]
    exact residual
  have toTile : (bodyOf w 154 2 == 2 && (Table.find? (u.core s.curCore).act.tiles (bodyOf w 94 6)).isNone) = false := by
    rw [Bool.and_eq_false_imp, beq_iff_eq, Option.isNone_eq_false_iff, own]
    exact entry
  have plain' : (u.core s.curCore).specBlocked w = false := by
    have untagged : specTagOf w = none := by simp [specTagOf, unspec]
    rw [Core.specBlocked, untagged, own]
    exact plain
  have notFull' : bitOf (u.core s.curCore).sr.tfull.toNat w.tile.toNat = false := by
    rw [own]
    exact notFull
  have pending (a n : Nat) : u.bytesPending s.curCore a n = false := (frame.bytesPending a n).trans (State.bytesPending_none joins a n)
  have unfolded : exec (.mdrain w) s = execMdrain w s := rfl
  simp only [unfolded, execMdrain, MWord.f_eq, decide_eq_false (not_lt.2 inside)]
  rw [matrixWord_holds holds (.inr unspec)]
  simp only [formed, valid, sound, toA, fromA, toTile, plain', notFull', pending, State.afterRead_sound keeps, State.afterScales_sound keeps,
    Bool.not_true, Bool.or_self, Bool.and_false, Bool.false_eq_true, if_false, ite_self]
  exact ⟨_, rfl, rfl, rfl, rfl, rfl, rfl, _, rfl⟩

end

/-! ### Flags and block control (R249, R256) -/

section

variable {w : MWord} {s : State} (carried : (here s).carries w = true)
include carried

/-- An MFLAG sends its change of the full bit behind the rows due before it. -/
theorem mflag_sends (wf : (Instr.mflag w).wf = true) (plain : w.spec = 0) : exec (.mflag w) s = .next
    ((s.post ((s.matrixDue s.curCore (here s).mx.istamp).foldl max s.now + 1) 3 (some s.curCore) (.run .fullBitChange
      (.flag s.curCore w.tile.toNat (bodyOf w 169 1 == 1) (s.rowOf_ s.curCore 0 false)))).rowDone s.curCore 1 true) := by
  have carried' : (s.core s.curCore).carries w = true := carried
  have unspec : (w.spec == 1) = false := by simp [plain]
  change execMflag w s = _
  simp only [execMflag, wf, carried', unspec, MWord.f_eq, Bool.not_true, Bool.or_self, Bool.false_eq_true, if_false]
  rfl
theorem mend_ends (wf : (Instr.mend w).wf = true) : exec (.mend w) s = .next (s.endPass s.curCore .matrix) := by
  have carried' : (s.core s.curCore).carries w = true := carried
  change execMend w s = _
  simp only [execMend, wf, carried', Bool.and_self, if_true]
theorem mnop_idles (wf : (Instr.mnop w).wf = true) : exec (.mnop w) s = .next (s.rowDone s.curCore (1 + bodyOf w 146 24) true) := by
  have carried' : (s.core s.curCore).carries w = true := carried
  change execMnop w s = _
  simp only [execMnop, wf, carried', MWord.f_eq, Bool.not_true, Bool.or_self, Bool.false_eq_true, if_false]
  rfl

end

/-- A command that does not carry its block's tag is refused before its first row. -/
theorem mzero_uncarried {w : MWord} {s : State} (foreign : (here s).carries w = false) (first : (here s).mx.firstRow = true) :
    exec (.mzero w) s = .next (mxFault s s { code := 1 }) := by
  have foreign' : (s.core s.curCore).carries w = false := foreign
  have first' : (s.core s.curCore).mx.firstRow = true := first
  change execMzero w s = _
  simp only [execMzero, matrixWord, foreign', first', Bool.not_true, Bool.not_false, Bool.or_true, Bool.true_or, Bool.false_eq_true, if_false, if_true]
  rfl

/-- Settles O35: each word that can run is an equation (its row sent, or its command issued), and one lemma says what a row sent, or a command issued,
leaves of the lease, the stream and the spaces. -/
theorem matrixWords : Obligations.MatrixWords := by
  unfold Obligations.MatrixWords
  intro w s u f p joins
  refine ⟨?mlds, ?mswap, ?mstep, ?mzero, ?mdrain, fun wf carried plain => mflag_sends carried wf plain, fun wf carried => mend_ends carried wf,
    fun wf carried => mnop_idles carried wf, mzero_uncarried, fun unformed holds plain => mlds_unformed holds plain unformed⟩
  case mlds =>
    intro a kk n len o b holds plain formed
    refine ⟨mlds_unsound holds plain formed, fun sound aligned deep blocks inside peer access room => ?_⟩
    refine ⟨_, mlds_loads holds plain formed sound.1 sound.2 aligned deep blocks inside peer access room, ?_⟩
    obtain ⟨-, -, held, -⟩ := holds
    obtain ⟨popped, quads, -⟩ := State.popFormat_pops formed
    obtain ⟨frame, quad, reads, loads⟩ := popped.loadSent (here s).mx.istamp
      { st := 1, wt := fwW f, k := kk, n, gen := (here s).bnd.gen, wAddr := a, src := bodyOf w 146 2, stamp := (here s).mx.istamp }
      (max (s.now + 1) (s.loadBeat.2 + pulseDelay (quadCore (quadOf s.curCore) (bodyOf w 146 2)) - pulseDelay s.curCore))
      (s.loadBeat.2 + (s.beatEnt s.loadBeat.1).len + 5)
    have same : u.quad (quadOf s.curCore) = s.quad (quadOf s.curCore) := State.quad_congr quads _
    rw [same] at quad
    obtain ⟨used, gone, keeps, act, shd, kept⟩ := State.issued_lands frame ⟨rfl, rfl, rfl⟩ held quad 2 2
    exact ⟨used, gone, keeps, act, shd, reads.imp fun e he => ⟨kept e he.1, he.2⟩, loads.imp fun e he => ⟨kept e he.1, he.2⟩⟩
  case mswap =>
    intro holds plain
    refine ⟨fun loaded gen => ⟨_, mswap_swaps holds plain loaded gen, ?_⟩, mswap_waits holds plain, mswap_foreign holds plain⟩
    obtain ⟨-, -, held, -⟩ := holds
    obtain ⟨used, gone, keeps, act, shd, -⟩ := State.issued_lands ((State.RowFrame.refl s s.curCore).setQuad ..) ⟨rfl, rfl, rfl⟩ held (State.quad_setQuad ..) 2 2
    exact ⟨used, gone, keeps, act, shd⟩
  case mstep =>
    intro base m o active holds formed sound fits gen inside row plain notFull
    obtain ⟨frame, quads, -⟩ := State.popFormat_pops formed
    obtain ⟨-, -, held, -⟩ := id holds
    refine ⟨fun room => ?_, fun queue unscaled y x rest items ready => ?_⟩
    · have direct : (base == 2042) = false := by
        rw [beq_eq_false_iff_ne]
        omega
      obtain ⟨r, runs, is⟩ := mstep_sends joins holds formed sound.1 sound.2 fits gen inside plain notFull active direct (fun _ => room) nofun
      obtain ⟨used, gone, keeps, -, e, listed, act, at_⟩ := State.rowSent_lands (frame.stepping w p) ⟨rfl, rfl, rfl⟩ quads held m
        ((u.stepping s.curCore w p).now + if hadOnA f then 28 else 24) (.run .matrixRowWrite (.mrow r))
      rw [(frame.stepping w p).now] at at_
      exact ⟨_, runs, used, gone, keeps, e, listed, r, act, at_, is⟩
    · have head : (here s).qv2m.canPop s.now = true := by
        rw [Queue.canPop, items]
        exact decide_eq_true ready
      obtain ⟨r, runs, is⟩ := mstep_sends joins holds formed sound.1 sound.2 fits gen inside plain notFull active (beq_iff_eq.2 queue) nofun
        fun _ => ⟨unscaled, head⟩
      obtain ⟨used, gone, keeps, pops, e, listed, act, at_⟩ := State.rowSent_lands (frame.rowTaken.stepping w p) ⟨rfl, rfl, rfl⟩ quads held m
        (((u.rowTaken s.curCore).stepping s.curCore w p).now + if hadOnA f then 28 else 24) (.run .matrixRowWrite (.mrow r))
      obtain ⟨core, -, row, -, -, -, vals, flags, -⟩ := is
      rw [stepScale_plain unscaled] at vals flags
      simp only [if_true, Queue.head?, items, List.head?_cons, Option.map_some, Option.getD_some] at vals flags
      refine ⟨_, runs, used, gone, keeps, ?_, e, listed, r, act, core, row, vals, flags⟩
      have left : ((here s).qv2m.pop s.now).items = rest := by rw [Queue.pop, items, List.tail_cons]
      exact (congrArg Queue.items pops).trans left
  case mzero =>
    intro r0 n holds inside first plain
    refine ⟨fun notFull => ⟨_, mzero_sends holds inside first plain notFull, ?_⟩, mzero_waits holds inside first plain⟩
    obtain ⟨-, -, held, -⟩ := holds
    obtain ⟨frame, quads, sent⟩ := ((State.RowFrame.refl s s.curCore).allocShadow w).zerosSent w r0 (List.range n)
    obtain ⟨used, gone, keeps, -, -, kept⟩ := State.issued_lands (((State.RowFrame.refl s s.curCore).allocShadow w).next frame) ⟨rfl, rfl, rfl⟩ held
      (State.quad_congr quads _) (cdiv n 4) (cdiv n 4)
    refine ⟨used, gone, keeps, fun j below => ?_⟩
    obtain ⟨e, listed, v, act, at_⟩ := sent j (List.mem_range.2 below)
    exact ⟨e, kept e listed, _, act, at_, rfl, rfl, rfl, rfl, rfl, rfl, rfl⟩
  case mdrain =>
    intro crow n dest vd vr out rows holds plain formed sound inside row toA fromA entry unshadowed notFull
    obtain ⟨popped, quads, qs2m, own⟩ := State.popFormat_pops formed
    obtain ⟨-, -, held, -⟩ := id holds
    obtain ⟨fwd, frame⟩ := popped.keepDraw
    obtain ⟨r, runs, core, target, arow, entry, first, res, pieces⟩ := mdrain_sends joins holds plain formed sound.1 sound.2 inside toA fromA entry unshadowed notFull
    obtain ⟨used, gone, keeps, -, e, listed, act, at_⟩ := State.rowSent_lands frame ⟨rfl, rfl, rfl⟩ ((u.keepDraw_quads ..).trans quads) held n
      ((u.keepDraw s.curCore .matrix).now + if hadOnDrain f then 24 else 20) (.run .drainDelivery (.drow r))
    rw [frame.now] at at_
    refine ⟨_, runs, used, gone, keeps, e, listed, r, act, at_, core, target, arow, entry, first, fun direct => ?_⟩
    have keys : (u.core s.curCore).keyFor (u.core s.curCore).mx = (here s).keyFor (here s).mx ∧
        (u.core s.curCore).scaleFor (u.core s.curCore).mx = (here s).scaleFor (here s).mx := by
      rw [own]
      exact ⟨rfl, rfl⟩
    rw [pieces, epilogue_plain direct, keys.1, keys.2]

end Sys2Proof.Machine
end
